-- ==== Sys2Proof/Word.lean ====
section
/-! DEFINITION. The widths the spec numbers bits in (R6), and nothing else. -/

namespace Sys2Proof

/-- One byte of memory (R6). -/
abbrev Byte := BitVec 8

/-- A 32-bit register value of one lane (R35). -/
abbrev Word := BitVec 32

/-- A 64-bit value: an instruction word (R161), a register pair (R36). -/
abbrev Dword := BitVec 64

/-- One bit for each of the 32 lanes of a wave; bit L stands for lane L (R35). -/
abbrev LaneMask := BitVec 32

end Sys2Proof
end

