-- ==== Sys2Proof/Config.lean ====
section
/-! DEFINITION. The free values: constants without a body for what the spec leaves open although the machine goes
on. Nothing in Lean can evaluate them, so a statement about one holds whatever it is. -/

namespace Sys2Proof

/-- Which of the values allowed by the bound of R236 a special function delivers: function code (0 RSQ.f32, 1 RSQ.f64,
2 EXP2, 3 LOG2, 4 SIN, 5 COS, 6 TANH) and operand bits. A fixed function of the operand, as R236 says. -/
opaque Config.sfuPick : Nat → BitVec 64 → Nat

/-- The bits of an overscaled attempt's result that are late (R149, R154): attempt counter and element. -/
opaque Config.lateBits : Nat → Nat → BitVec 32

/-- Whether a store or atomic whose response never came was performed at its peer (R414), by free counter. -/
opaque Config.peerDone : Nat → Bool

/-- Data that an out-of-model peer or host unit returns and the spec does not state, by free counter. -/
opaque Config.outside : Nat → BitVec 64

/-- Signature words of an attestation report (R416), by free counter and word. -/
opaque Config.signature : Nat → Nat → BitVec 64

/-- Which line leaves a full cluster cache (R98), by free counter. -/
opaque Config.victim : Nat → Nat

/-- Which of the controllers of a stack or of a die's tier serves a physical address (R364). -/
opaque Config.controller : Nat → Nat

/-- SM3 measurements of the controller's firmware (words 0 to 3) and of the reeve image (words 4 to 7) (R415, R416). -/
opaque Config.measurement : Nat → BitVec 64

/-- Fuse version of the module (R416). -/
opaque Config.fuseVersion : BitVec 64

/-- What CORE (0) and CREWID (1) read on a reeve core, by core and crew slot: it has no global compute-core number (R4)
and its crews no launch (R17). -/
opaque Config.reeveId : Nat → Nat → Nat → BitVec 32

/-- How many crews of a COOP launch, or of a unit of a cluster launch, that another module began have completed there, by the address of
the launch's arguments and the unit (R345). -/
opaque Config.endedElsewhere : Nat → Nat → Nat

end Sys2Proof
end

