-- ==== Sys2Proof/Syntax.lean ====
section
/-! DEFINITION. The instruction set: one constructor of `Instr` for each row of the opcode table.
Words of the wave stream carry the fields of their format (R165, R167 to R170), words of the matrix
stream those of R171 and R292 to R306, and a step that is no word (a row whose mnemonic the table
writes without a source mnemonic) carries the name of the object it happens to. -/

namespace Sys2Proof

/-- Integer type codes TY of R172. -/
inductive ITy | i32 | n32 | i64 | n64 | b32 | b64
  deriving DecidableEq, Repr

/-- Floating type codes FT of R172. -/
inductive FTy | f32 | f64 | f16 | bf16
  deriving DecidableEq, Repr

/-- Rounding modes of R67. -/
inductive Rm | rne | rtz | rup | rdn | sr
  deriving DecidableEq, Repr

/-- Conditions of ICMP (R214). -/
inductive Cond | eq | ne | lt | le | gt | ge
  deriving DecidableEq, Repr

/-- Conditions of FCMP (R231). -/
inductive FCond | eq | ne | lt | le | gt | ge | ord | unord
  deriving DecidableEq, Repr

/-- Forms of MOVI (R223): 32-bit, 64-bit sign-extended, 64-bit zero-extended. -/
inductive MoviKind | b32 | i64 | n64
  deriving DecidableEq, Repr

/-- Memory sizes of LD and ST (R173). -/
inductive MSize | n8 | i8 | n16 | i16 | b32 | b64 | b128
  deriving DecidableEq, Repr

/-- Sizes of LDS and STS (R247). -/
inductive SpSize | b32 | b64 | b128
  deriving DecidableEq, Repr

/-- Tag modes of LDS (R247): plain, `.f`, `.t`, `.n`. -/
inductive LdsMode | plain | full | take | now
  deriving DecidableEq, Repr

/-- Operations of ATOM and RED (R249). -/
inductive AtomOp | add | min | max | and | or | xor | xchg | inc | dec | fadd
  deriving DecidableEq, Repr

/-- Levels of PREF (R256). -/
inductive PrefLvl | l1 | cc | l2
  deriving DecidableEq, Repr

/-- Selections of QNT (R240). -/
inductive QSel | t0 | t1 | t2 | t3 | auto
  deriving DecidableEq, Repr

/-- Votes (R278). -/
inductive VoteOp | any | all | ballot
  deriving DecidableEq, Repr

/-- Source selectors of PULL (R282). -/
inductive PullSel | lane | lower | upper | flip
  deriving DecidableEq, Repr

/-- Quad exchanges of QSWAP (R284). -/
inductive QuadSel | horizontal | vertical | diagonal
  deriving DecidableEq, Repr

/-- Types of REDUX and SCAN (R280): the integer types, and `.f32`. -/
inductive RTy | int (t : ITy) | f32
  deriving DecidableEq, Repr

/-- Operations of REDUX and SCAN (R280). -/
inductive RedOp | add | min | max | and | or | xor
  deriving DecidableEq, Repr

/-- Fields of a V word besides OPC and FN (R165). -/
structure VF where
  pr : BitVec 3 := 0
  pn : Bool := false
  d : BitVec 8 := 0
  a : BitVec 8 := 0
  la : Bool := false
  b : BitVec 8 := 0
  lb : Bool := false
  c : BitVec 8 := 0
  lc : Bool := false
  bk : BitVec 2 := 0
  look : BitVec 4 := 0
  slot : BitVec 3 := 0
  sv : Bool := false
  deriving DecidableEq, Repr

/-- Fields of an I word besides OPC and FN (R167). -/
structure IF where
  la : Bool := false
  pr : BitVec 3 := 0
  pn : Bool := false
  d : BitVec 8 := 0
  a : BitVec 8 := 0
  imm : BitVec 32 := 0
  deriving DecidableEq, Repr

/-- Fields of an M word besides OPC and FN (R168); in atomic words OFF holds ORD and the short offset, and
CH holds TY. -/
structure MF where
  pr : BitVec 3 := 0
  pn : Bool := false
  d : BitVec 8 := 0
  ar : BitVec 8 := 0
  la : Bool := false
  ld : Bool := false
  sc : BitVec 4 := 0
  ch : BitVec 2 := 0
  look : BitVec 4 := 0
  slot : BitVec 3 := 0
  sv : Bool := false
  off : BitVec 16 := 0
  deriving DecidableEq, Repr

/-- Fields of a B word besides OPC (R169). -/
structure BF where
  hint : BitVec 2 := 0
  pr : BitVec 3 := 0
  pn : Bool := false
  j : BitVec 3 := 0
  je : Bool := false
  fn : BitVec 14 := 0
  off : BitVec 32 := 0
  deriving DecidableEq, Repr

/-- One half of a P word (R170). -/
structure PHalf where
  pop : BitVec 6 := 0
  d : BitVec 7 := 0
  a : BitVec 7 := 0
  la : Bool := false
  b : BitVec 7 := 0
  lb : Bool := false
  bs : Bool := false
  deriving DecidableEq, Repr

/-- Fields of a Q word besides MOPC (R171). -/
structure QF where
  acc : BitVec 4 := 0
  ra : BitVec 4 := 0
  aoff : BitVec 12 := 0
  rb : BitVec 4 := 0
  boff : BitVec 12 := 0
  scol : BitVec 10 := 0
  rgn : BitVec 2 := 0
  h : Bool := false
  z : Bool := false
  deriving DecidableEq, Repr

/-- Fields of AZERO, AADD and ACVT (R292). -/
structure TF where
  acc : BitVec 4 := 0
  ta : BitVec 4 := 0
  tb : BitVec 4 := 0
  fn : BitVec 2 := 0
  rm : BitVec 2 := 0
  e : BitVec 8 := 0
  deriving DecidableEq, Repr

/-- Fields of ALOAD and ASTORE besides MOPC and FN (R294). -/
structure AF where
  acc : BitVec 4 := 0
  areg : BitVec 3 := 0
  rm : BitVec 2 := 0
  str : BitVec 20 := 0
  inc : BitVec 16 := 0
  deriving DecidableEq, Repr

/-- Formats that ASTORE writes (R296). -/
inductive AstFmt | b32 | f16 | bf16 | e4m3 | e5m2
  deriving DecidableEq, Repr

/-- The four words of a copy command, with the fields of W0 (R261, R262). -/
structure CopyCmd where
  kind : BitVec 4 := 0
  ssp : BitVec 2 := 0
  dsp : BitVec 2 := 0
  tk : Bool := false
  we : Bool := false
  weir : BitVec 4 := 0
  wcnt : BitVec 6 := 0
  kf : BitVec 4 := 0
  kx : BitVec 8 := 0
  kw : BitVec 16 := 0
  tag : BitVec 16 := 0
  w1 : Dword := 0
  w2 : Dword := 0
  w3 : Dword := 0
  deriving DecidableEq, Repr

/-- Fields of a clause header (R161); `res` gathers the reserved bits. -/
structure Header where
  count : BitVec 4 := 0
  cls : BitVec 3 := 0
  wait : BitVec 8 := 0
  yld : Bool := false
  res : BitVec 4 := 0
  rtn : BitVec 8 := 0
  res2 : BitVec 32 := 0
  deriving DecidableEq, Repr

/-- Ordinals of the objects a step without a word names (see State): a wave key is
crew key x 32 + WAVEID and a crew key is core x 16 + crew slot; all are plain numbers. -/
abbrev Key := Nat

/-- An image as step 2 of the boot sequence finds it (R415, R417): its signature fails, or it is signed, for ordinary service or as a
diagnostic image. -/
inductive BootImg | bad | ordinary | diagnostic
  deriving DecidableEq, Repr

/-- The firmware and the reeve image that step 2 of the boot sequence finds (R415). -/
structure BootImgs where
  fw : BootImg := .ordinary
  reeve : BootImg := .ordinary
  deriving DecidableEq, Repr

/-- A 32-bit access of the host to BAR0: read or write, byte offset, the value written (R354, R410). -/
structure Bar0Access where
  write : Bool
  addr : Nat
  v : BitVec 32
  deriving DecidableEq, Repr

/-- A write that an agent outside the waves makes to a named register (R332, R393, R319). -/
inductive RegTarget
  | evec (die : Nat)
  | islandForce (core : Nat)
  | dclkTgt (die : Nat)
  | provVg (core freq : Nat)
  | provDrop (core : Nat)
  | provFbmax (core : Nat)
  | provVnom (rail freq : Nat)
  | provVmin (rail freq : Nat)
  | railPoint (rail : Nat)
  | bootm (die : Nat)
  | barrier (addr polder n thr : Nat)
  | refusedPeers (port : Nat)
  | fabricId (polder : Nat)
  | pinLimit (slice : Nat)
  deriving DecidableEq, Repr

/-- What a peer does at this module's memory (R412): a load or store, or an atomic with an operation of R249, CAS with the value it
compares. -/
inductive PeerIn
  | load
  | store
  | atom (op : AtomOp) (signed : Bool)
  | cas (compare : BitVec 64)
  deriving DecidableEq, Repr

/-- The instruction set: rows of the opcode table in the table's order. -/
inductive Instr
  -- control (R185 to R207)
  | nop
  | bra (x : BF)
  | brx (x : BF)
  | call (x : BF)
  | callx (x : BF)
  | ret (x : BF)
  | exit (x : BF)
  | yield
  | trap (x : IF)
  | bkpt (x : IF)
  | sleep (x : IF)
  | sleepDeadline (w : Key)
  | jenr (x : VF)
  | jwait (x : VF)
  | jstrk (x : VF)
  | weirset (x : IF)
  | weirarv (x : IF)
  | weirwait (x : IF)
  | weirsync (x : IF)
  | cbarv (x : IF)
  | cbwait (x : IF)
  | nexttile (x : VF)
  | launch (x : MF)
  | acqx (x : IF)
  | acqxGrant (core q : Nat)
  | relx (x : IF)
  | kill (sf : Bool) (x : IF)
  | rest (x : IF)
  | region (x : IF)
  | part (x : IF)
  | srd (x : IF)
  | swr (x : IF)
  | scw (x : MF)
  | scwComplete (ctx n : Nat)
  | scr (x : MF)
  | scack (x : MF)
  -- integer and bits (R208 to R225)
  | iadd (sf : Bool) (ty : ITy) (x : VF)
  | isub (sf : Bool) (ty : ITy) (x : VF)
  | imul (sf : Bool) (ty : ITy) (x : VF)
  | imulh (sf : Bool) (ty : ITy) (x : VF)
  | imad (sf : Bool) (ty : ITy) (x : VF)
  | imadw (sf : Bool) (ty : ITy) (x : VF)
  | imin (sf : Bool) (ty : ITy) (x : VF)
  | imax (sf : Bool) (ty : ITy) (x : VF)
  | iabs (sf : Bool) (ty : ITy) (x : VF)
  | ineg (sf : Bool) (ty : ITy) (x : VF)
  | idiv (sf : Bool) (ty : ITy) (x : VF)
  | irem (sf : Bool) (ty : ITy) (x : VF)
  | icmp (sf : Bool) (ty : ITy) (cond : Cond) (x : VF)
  | isel (sf : Bool) (ty : ITy) (x : VF)
  | and (sf : Bool) (ty : ITy) (x : VF)
  | or (sf : Bool) (ty : ITy) (x : VF)
  | xor (sf : Bool) (ty : ITy) (x : VF)
  | not (sf : Bool) (ty : ITy) (x : VF)
  | tlog (sf : Bool) (t : BitVec 8) (x : VF)
  | shl (sf : Bool) (ty : ITy) (x : VF)
  | shr (sf : Bool) (ty : ITy) (x : VF)
  | sar (sf : Bool) (ty : ITy) (x : VF)
  | rot (sf : Bool) (ty : ITy) (x : VF)
  | fshf (sf : Bool) (ty : ITy) (x : VF)
  | bfe (sf : Bool) (ty : ITy) (x : VF)
  | bfi (sf : Bool) (ty : ITy) (x : VF)
  | popc (sf : Bool) (ty : ITy) (x : VF)
  | clz (sf : Bool) (ty : ITy) (x : VF)
  | ctz (sf : Bool) (ty : ITy) (x : VF)
  | brev (sf : Bool) (ty : ITy) (x : VF)
  | bperm (sf : Bool) (ty : ITy) (x : VF)
  | mov (sf : Bool) (ty : ITy) (x : VF)
  | movQ0Push (x : VF)
  | movQ1Pop (x : VF)
  | movi (sf : Bool) (kind : MoviKind) (x : IF)
  | rdlane (ty : ITy) (x : VF)
  | bcast (ty : ITy) (x : VF)
  | pairedWord (h l : PHalf)
  -- floating point and quantisation (R226 to R243)
  | fadd (ft : FTy) (rm : Rm) (x : VF)
  | fmul (ft : FTy) (rm : Rm) (x : VF)
  | ffma (ft : FTy) (rm : Rm) (x : VF)
  | fmin (ft : FTy) (x : VF)
  | fmax (ft : FTy) (x : VF)
  | fcmp (ft : FTy) (cond : FCond) (x : VF)
  | fclass (ft : FTy) (x : VF)
  | frnd (ft : FTy) (rm : Rm) (x : VF)
  | fscale (ft : FTy) (rm : Rm) (x : VF)
  | fgetexp (ft : FTy) (x : VF)
  | padd (ft : FTy) (rm : Rm) (x : VF)
  | pmul (ft : FTy) (rm : Rm) (x : VF)
  | pfma (ft : FTy) (rm : Rm) (x : VF)
  | rcp (ft : FTy) (rm : Rm) (x : VF)
  | rsq (ft : FTy) (x : VF)
  | sqrt (ft : FTy) (rm : Rm) (x : VF)
  | fdiv (ft : FTy) (rm : Rm) (x : VF)
  | exp2 (x : VF)
  | log2 (x : VF)
  | sin (x : VF)
  | cos (x : VF)
  | tanh (x : VF)
  | cvt (rm : Rm) (x : VF)
  | cvtp (rm : Rm) (x : VF)
  | qnt (nosm : Bool) (sel : QSel) (rm : Rm) (x : VF)
  | dqnt (x : VF)
  -- memory and atomics (R244 to R259)
  | ldVector (sz : MSize) (x : MF)
  | ldScalar (sz : MSize) (x : MF)
  | stVector (sz : MSize) (x : MF)
  | stScalar (sz : MSize) (x : MF)
  | lds (mode : LdsMode) (sz : SpSize) (x : MF)
  | sts (e : Bool) (sz : SpSize) (x : MF)
  | tagWaitServed (core cslot word : Nat)
  | sptag (full : Bool) (x : MF)
  | spdrop (x : MF)
  | spdropComplete (crew bank : Nat)
  | atom (op : AtomOp) (x : MF)
  | atomcas (x : MF)
  | red (op : AtomOp) (x : MF)
  | ldwatch (t : BitVec 4) (x : MF)
  | ldwatchWake (w : Key)
  | fence (x : MF)
  | pfence (x : MF)
  | cflush (x : MF)
  | cinv (x : MF)
  | pref (lvl : PrefLvl) (x : MF)
  | icpre (cc : Bool) (x : MF)
  | icpin (cc : Bool) (x : MF)
  | icunpin (cc : Bool) (x : MF)
  | obres (n : BitVec 4) (x : MF)
  | obresInstall (core n : Nat)
  | obrel (n : BitVec 4) (x : MF)
  | obrelClear (core n : Nat)
  -- cross-lane (R273 to R284)
  | vote (op : VoteOp) (x : VF)
  | matchLanes (ty : ITy) (all : Bool) (x : VF)
  | pull (sel : PullSel) (x : VF)
  | perm (x : VF)
  | qswap (sel : QuadSel) (x : VF)
  | qbcast (x : VF)
  | redux (ty : RTy) (op : RedOp) (x : VF)
  | scan (ty : RTy) (op : RedOp) (excl : Bool) (x : VF)
  -- privileged (R340 to R348)
  | eret
  | tlbinv (x : MF)
  | ctxsave (x : MF)
  | ctxload (x : MF)
  | stoprd (x : MF)
  | resume (x : MF)
  | flood (x : MF)
  | dirtyh (final : Bool) (x : MF)
  | ckpt (x : MF)
  | rollbk (x : MF)
  -- the matrix stream (R285 to R308)
  | mmaF16 (q : QF)
  | mmaBf16 (q : QF)
  | mmaE4m3 (q : QF)
  | mmaE5m2 (q : QF)
  | mmaI8 (q : QF)
  | mmasE4m3 (q : QF)
  | mmasX4 (q : QF)
  | mmaAttemptVerdict (core : Nat)
  | mmaCorrectionDone (core : Nat)
  | guardStepDone (core : Nat)
  | azero (t : TF)
  | aadd (t : TF)
  | acvt (t : TF)
  | aloadTile (a : AF)
  | aloadMa (a : AF)
  | astore (fmt : AstFmt) (a : AF)
  | scld (e4 : Bool) (areg : BitVec 3) (idx cnt : BitVec 12) (inc : BitVec 16)
  | marv (weir : BitVec 4) (cnt : BitVec 6)
  | mwait (weir : BitVec 4)
  | mregion (mode : BitVec 2)
  | mloop (lc : BitVec 2) (cnt : BitVec 16) (off : BitVec 32)
  | mjmp (clr : BitVec 4) (off : BitVec 32)
  | mend
  | mchk (n : BitVec 3) (areg : BitVec 3) (inc : BitVec 16)
  | msrd (sel : BitVec 4) (areg : BitVec 3) (inc : BitVec 16)
  | inj (acc : BitVec 4) (core : BitVec 8) (row col : BitVec 6) (bit : BitVec 5)
  -- copy commands (R260 to R272)
  | copy1d (core pos : Nat)
  | copy2d (core pos : Nat)
  | copyGather (core pos : Nat)
  | copyOperandLoad (core pos : Nat)
  | copyRemote (core pos : Nat)
  | copyCommandStart (core : Nat)
  | copyBeatDone (core pos beat : Nat)
  | copyCompletion (core pos : Nat)
  -- steps of the core's own logic
  | clauseIssuePick (core q : Nat)
  | resultCommit (w : Key)
  | waveUnpark (w : Key)
  | bankWakeDone (w : Key) (bank : Nat)
  | bankOffIdle (w : Key) (bank : Nat)
  | bankRetainHeader (w : Key) (bank : Nat)
  | bankRetainParked (w : Key) (bank : Nat)
  | spBankWakeDone (crew bank : Nat)
  | spAutoDrop (crew bank : Nat)
  | spBankRetain (crew bank : Nat)
  | delayedFault (w : Key)
  | floodgateStop (eng : Nat) (key : Nat)
  -- dispatch, tenancy
  | launchRecordRead (q : Nat)
  | dispatchOpportunity (die : Nat)
  | crewComplete (crew : Key)
  | dormantSave (crew : Key)
  | sliceExpiry (ctx : Nat)
  | drainWindowEnd (crew : Key)
  | lendPoolJoin (cluster : Nat)
  | recall (cluster : Nat)
  | bucketRefill (polder ctl : Nat)
  | powerMeasure (polder watts : Nat)
  | throttleNotice (crew : Key) (cause : Nat)
  | meteringFeed (polder : Nat)
  | usageReport (owner : Nat) (n0 n1 : BitVec 64)
  -- power and reliability
  | freeboardWindowClose (core : Nat)
  | islandOff (core : Nat)
  | islandPowerUp (core : Nat)
  | islandForceWrite (core : Nat) (force : Bool)
  | dclkTgtWrite (die : Nat) (tgt : BitVec 7)
  | voltageRiseDone (die : Nat)
  | relockDone (die : Nat)
  | thermalTrip (die : Nat)
  | shadowReplay (core : Nat)
  | dataErrorDetect (kind : Nat) (addr : Nat)
  | cacheScrub (cluster : Nat) (line : Nat)
  | checkpointTimer (ctx : Nat)
  | undoLogForcedCkpt (ctx : Nat)
  | undoLogFull (ctx : Nat)
  | reeveWaveFault (w : Key)
  | firmwareRestart (die : Nat)
  -- host, fabric, bring-up
  | doorbellWrite (polder : Nat) (a : Bar0Access)
  | hostBar2Access (polder : Nat) (write : Bool) (addr : Nat) (data : List Byte) (size : Nat)
  | hostAtomicop (polder op : Nat) (size : Nat) (addr : Nat) (a b : BitVec 64)
  | functionLevelReset (vf : Nat)
  | peerAccessIn (port fid : Nat) (what : PeerIn) (addr : Nat) (data : BitVec 128) (size : Nat)
  | peerResponse (op : Nat) (data : BitVec 128)
  | peerTimeout (op : Nat)
  | laneSpareRetrain (port : Nat)
  | regulatorPhaseSpare (rail : Nat)
  | wearRecordAppend (w0 w1 w2 w3 : BitVec 64)
  | attestationReport (n0 n1 : BitVec 64)
  | powerGoodBoot (imgs : BootImgs)
  | moduleReset
  | lifeCycleChange (target : Nat)
  | registerWrite (t : RegTarget) (v : BitVec 64)
  | contextAbort (ctx : Nat)
  | portRetrain (port : Nat)
  | portRetrainDone (port : Nat)
  | hostCommandDoorbell (idx : BitVec 64)
  | configurationRequest (kind : Nat) (v : BitVec 64)
  deriving DecidableEq, Repr

/-- What the decoder answers for a word in an instruction position (R164 steps 1 to 3): the instruction, or the
fault. -/
inductive Decoded
  | ok (i : Instr)
  | clause
  | access
  | illegal
  deriving DecidableEq, Repr

end Sys2Proof
end

