-- ==== Sys2Proof/Machine/Shape.lean ====
section
/-! DEFINITION. What each word names: the operand shape of every word of the wave stream (which field holds
a register of which file, read or written, how many registers wide), and the checks of R164 step 3 that
follow from it. One table serves the legality check, the register checks of R44 and the commit of results. -/

namespace Sys2Proof

/-- Operand width of a type in registers: 2 for the 64-bit types (R208). -/
def ITy.regs : ITy → Nat
  | .i64 | .n64 | .b64 => 2
  | .i32 | .n32 | .b32 => 1

/-- Sgn(TY) of R211. -/
def ITy.signed : ITy → Bool
  | .i32 | .i64 => true
  | .n32 | .n64 | .b32 | .b64 => false

/-- TY 0 to 3. -/
def ITy.isInt : ITy → Bool
  | .b32 | .b64 => false
  | .i32 | .n32 | .i64 | .n64 => true

/-- TY 4 and 5. -/
def ITy.isBits (t : ITy) : Bool := !t.isInt

/-- FT 0 and 1: single registers or pairs (R226). -/
def FTy.regs : FTy → Nat
  | .f64 => 2
  | .f32 | .f16 | .bf16 => 1

/-- FT 0 and 1. -/
def FTy.isScalarFmt : FTy → Bool
  | .f32 | .f64 => true
  | .f16 | .bf16 => false

/-- Registers that one memory datum of LD or ST occupies (R246). -/
def MSize.regs : MSize → Nat
  | .b64 => 2
  | .b128 => 4
  | .n8 | .i8 | .n16 | .i16 | .b32 => 1

/-- Bytes of one memory datum (R173). -/
def MSize.bytes : MSize → Nat
  | .n8 | .i8 => 1
  | .n16 | .i16 => 2
  | .b32 => 4
  | .b64 => 8
  | .b128 => 16

/-- Registers, and words of scratchpad, of one LDS or STS datum (R247). -/
def SpSize.regs : SpSize → Nat
  | .b32 => 1
  | .b64 => 2
  | .b128 => 4

/-- Registers of a REDUX or SCAN value (R280). -/
def RTy.regs : RTy → Nat
  | .int t => t.regs
  | .f32 => 1

namespace Machine

/-- The register files an instruction field may name (R35). -/
inductive RFile | v | s | k | j
  deriving DecidableEq, Repr

/-- One operand of a word: `n` registers of a file from `reg`; whether it is read, whether it is written,
and its last-use bit. -/
structure Opd where
  file : RFile
  reg : Nat
  n : Nat := 1
  reads : Bool := false
  writes : Bool := false
  last : Bool := false
  deriving DecidableEq, Repr

/-- What a field of a word holds: nothing (it must be zero), a register group, or a code that its entry
checks. -/
inductive FieldUse
  | none
  | reg (file : RFile) (n : Nat)
  | code
  deriving DecidableEq, Repr

/-- What the B field may hold (R166): a vector group, a scalar group, an immediate, a special source; a width
of 0 excludes the kind. -/
structure BUse where
  v : Nat := 0
  s : Nat := 0
  imm : Bool := false
  spec : Bool := false
  lane : Bool := true
  deriving DecidableEq, Repr

/-- Operand shape of a V word. -/
structure VShape where
  d : FieldUse := .none
  a : FieldUse := .none
  b : Option BUse := .none
  c : FieldUse := .none
  long : Bool := false
  deriving DecidableEq, Repr

/-- Operand shape of an M word: what D and AR hold, D's directions (in `dr`, `dw`, how many registers from D are
read, and from where and how many are written), and which fields the entry lets be nonzero. -/
structure MShape where
  d : FieldUse := .none
  dr : Nat := 0
  dw : Nat := 0
  dw0 : Nat := 0
  ldOk : Bool := false
  ar : FieldUse := .none
  off : Bool := true
  sc : Bool := false
  ch : Bool := false
  ord : Bool := false
  look : Bool := false
  deriving DecidableEq, Repr

/-- R36, R166: the group is aligned to its width and inside its file. -/
def groupOk (f : RFile) (n reg : Nat) : Bool :=
  match f with
  | .v => reg % n == 0
  | .s => reg % n == 0 && decide (reg + n ≤ 64)
  | .k => decide (reg < 8)
  | .j => decide (reg < 8)

/-- R164: a field and its last-use bit against the use its entry gives it; `lastOk` says that the register
is read, so that a last-use bit may mark it. -/
def fieldOk (u : FieldUse) (lastOk : Bool) (x : BitVec 8) (last : Bool) : Bool :=
  match u with
  | .none => x == 0 && !last
  | .code => !last
  | .reg f n => groupOk f n x.toNat && (!last || (lastOk && (f == .v || f == .s)))

/-- R166: the B field, its kind and its last-use bit. -/
def bFieldOk (u : Option BUse) (bk : BitVec 2) (b : BitVec 8) (lb : Bool) : Bool :=
  match u with
  | none => bk == 0 && b == 0 && !lb
  | some u =>
    if bk == 0 then decide (u.v ≠ 0) && groupOk .v u.v b.toNat
    else if bk == 1 then decide (u.s ≠ 0) && groupOk .s u.s b.toNat
    else if bk == 2 then u.imm && !lb
    else u.spec && !lb && decide (b.toNat ≤ 5) && (u.lane || b != 0)

/-- The shape checks of a V word (R164 step 3). DESIGN CHOICE (log 22): SLOT of a word with SV = 0 is no unused field, and SV = 1 on a
word that is not long-latency is accepted and counts nothing (R165). -/
def VShape.ok (s : VShape) (x : VF) : Bool :=
  fieldOk s.d false x.d false && fieldOk s.a true x.a x.la && bFieldOk s.b x.bk x.b x.lb
    && fieldOk s.c true x.c x.lc && (s.long || x.look == 0)

/-- The operands a V word names. -/
def VShape.opds (s : VShape) (x : VF) : List Opd :=
  (match s.a with
    | .reg f n => [{ file := f, reg := x.a.toNat, n := n, reads := true, last := x.la : Opd }]
    | _ => []) ++
  (match s.b with
    | some u =>
      if x.bk == 0 then [{ file := .v, reg := x.b.toNat, n := u.v, reads := true, last := x.lb : Opd }]
      else if x.bk == 1 then [{ file := .s, reg := x.b.toNat, n := u.s, reads := true, last := x.lb : Opd }]
      else []
    | none => []) ++
  (match s.c with
    | .reg f n => [{ file := f, reg := x.c.toNat, n := n, reads := true, last := x.lc : Opd }]
    | _ => []) ++
  (match s.d with
    | .reg f n => [{ file := f, reg := x.d.toNat, n := n, writes := true : Opd }]
    | _ => [])

/-- ORD of an atomic word (R168). -/
def mfOrd (x : MF) : Nat := (x.off.extractLsb' 13 3).toNat

/-- The shape checks of an M word. -/
def MShape.ok (s : MShape) (x : MF) : Bool :=
  fieldOk s.d s.ldOk x.d x.ld && fieldOk s.ar true x.ar x.la
    && (s.sc || x.sc == 0) && (s.ch || x.ch == 0) && (s.look || x.look == 0)
    && (s.off || (if s.ord then x.off.extractLsb' 0 13 == 0 else x.off == 0))

/-- The operands an M word names. -/
def MShape.opds (s : MShape) (x : MF) : List Opd :=
  (match s.ar with
    | .reg f n => [{ file := f, reg := x.ar.toNat, n := n, reads := true, last := x.la : Opd }]
    | _ => []) ++
  (match s.d with
    | .reg f _ =>
      (if s.dr = 0 then [] else [{ file := f, reg := x.d.toNat, n := s.dr, reads := true, last := x.ld : Opd }]) ++
      (if s.dw = 0 then [] else [{ file := f, reg := x.d.toNat + s.dw0, n := s.dw, writes := true : Opd }])
    | _ => [])

/-- The register file of a form (R208): vector for even, scalar for odd opcodes. -/
def formFile (sf : Bool) : RFile := if sf then .s else .v

/-- The B operand of an integer word (R208): `n` registers wide; a scalar form takes no vector and no LANEID. -/
def intB (sf : Bool) (n : Nat) : BUse :=
  { v := if sf then 0 else n, s := n, imm := true, spec := true, lane := !sf }

/-- D, A and B of the type's width. -/
def shDAB (sf : Bool) (ty : ITy) : VShape :=
  { d := .reg (formFile sf) ty.regs, a := .reg (formFile sf) ty.regs, b := some (intB sf ty.regs) }

/-- D and A of the type's width. -/
def shDA (sf : Bool) (ty : ITy) : VShape :=
  { d := .reg (formFile sf) ty.regs, a := .reg (formFile sf) ty.regs }

/-- D and A of the type's width and a 32-bit B (R218, R219). -/
def shDAB32 (sf : Bool) (ty : ITy) : VShape :=
  { d := .reg (formFile sf) ty.regs, a := .reg (formFile sf) ty.regs, b := some (intB sf 1) }

/-- Adds a C operand of the type's width. -/
def VShape.withC (s : VShape) (f : RFile) (n : Nat) : VShape := { s with c := .reg f n }

/-- The B operand of a floating word (R226). -/
def floatB (n : Nat) : BUse := { v := n, s := n, imm := true }

/-- D, A and B of a floating word. -/
def shF2 (ft : FTy) : VShape :=
  { d := .reg .v ft.regs, a := .reg .v ft.regs, b := some (floatB ft.regs) }

/-- D and A of a floating word. -/
def shF1 (ft : FTy) : VShape := { d := .reg .v ft.regs, a := .reg .v ft.regs }

/-- Registers of a CVT type (R238): 2 for the 64-bit types. -/
def cvtRegs (code : Nat) : Nat := if code = 3 ∨ code = 7 ∨ code = 11 then 2 else 1

/-- Destination type code of CVT and CVTP. -/
def cvtDst (x : VF) : Nat := (x.c.extractLsb' 4 4).toNat

/-- Source type code of CVT and CVTP. -/
def cvtSrc (x : VF) : Nat := (x.c.extractLsb' 0 4).toNat

/-- The member mask of a collective word (R276). -/
def memberB : BUse := { s := 1, imm := true }

/-- The lane operand of a pull word (R276). -/
def laneB : BUse := { v := 1, s := 1, imm := true }

/-- Operand shapes of the V words. -/
def vshape : Instr → VShape
  | .nexttile _ => { d := .reg .s 1 }
  | .jenr _ | .jwait _ | .jstrk _ => { d := .code }
  | .iadd sf ty _ | .isub sf ty _ | .imul sf ty _ | .imulh sf ty _ | .imin sf ty _ | .imax sf ty _ => shDAB sf ty
  | .imad sf ty _ => (shDAB sf ty).withC (formFile sf) ty.regs
  | .imadw sf _ _ => { d := .reg (formFile sf) 2, a := .reg (formFile sf) 1, b := some (intB sf 1),
                       c := .reg (formFile sf) 2 }
  | .iabs sf ty _ | .ineg sf ty _ => shDA sf ty
  | .idiv sf ty _ | .irem sf ty _ => { shDAB sf ty with long := true }
  | .icmp sf ty _ _ => { shDAB sf ty with d := .reg .k 1 }
  | .isel sf ty _ => (shDAB sf ty).withC .k 1
  | .and sf ty _ | .or sf ty _ | .xor sf ty _ => shDAB sf ty
  | .not sf ty _ => shDA sf ty
  | .tlog sf _ _ => (shDAB sf .b32).withC (formFile sf) 1
  | .shl sf ty _ | .shr sf ty _ | .sar sf ty _ | .rot sf ty _ => shDAB32 sf ty
  | .fshf sf ty _ => (shDAB32 sf ty).withC (formFile sf) ty.regs
  | .bfe sf ty _ => shDAB32 sf ty
  | .bfi sf ty _ => (shDAB32 sf ty).withC (formFile sf) ty.regs
  | .popc sf ty _ | .clz sf ty _ | .ctz sf ty _ => { shDA sf ty with d := .reg (formFile sf) 1 }
  | .brev sf ty _ => shDA sf ty
  | .bperm sf _ _ => (shDAB sf .b32).withC (formFile sf) 1
  | .mov sf ty _ => shDA sf ty
  | .movQ0Push _ => { d := .code, a := .reg .s 2, long := true }
  | .movQ1Pop _ => { d := .reg .s 2, a := .code, long := true }
  | .rdlane ty _ => { d := .reg .s ty.regs, a := .reg .v ty.regs, b := some { s := 1, imm := true } }
  | .bcast ty _ => { d := .reg .v ty.regs, a := .reg .s ty.regs }
  | .fadd ft _ _ | .fmul ft _ _ => shF2 ft
  | .ffma ft _ _ => (shF2 ft).withC .v ft.regs
  | .fmin ft _ | .fmax ft _ => shF2 ft
  | .fcmp ft _ _ => { shF2 ft with d := .reg .k 1 }
  | .fclass ft _ => { shF1 ft with d := .reg .v 1 }
  | .frnd ft _ _ => shF1 ft
  | .fscale ft _ _ => { shF1 ft with b := some (floatB 1) }
  | .fgetexp ft _ => { shF1 ft with d := .reg .v 1 }
  | .padd ft _ _ | .pmul ft _ _ => shF2 ft
  | .pfma ft _ _ => (shF2 ft).withC .v ft.regs
  | .rcp ft _ _ | .rsq ft _ | .sqrt ft _ _ => { shF1 ft with long := true }
  | .fdiv ft _ _ => { shF2 ft with long := true }
  | .exp2 _ | .log2 _ | .sin _ | .cos _ | .tanh _ => { shF1 .f32 with long := true }
  | .cvt _ x => { d := .reg .v (cvtRegs (cvtDst x)), a := .reg .v (cvtRegs (cvtSrc x)),
                  b := if cvtDst x = 14 ∨ cvtSrc x = 14 then some { imm := true } else none, c := .code }
  | .cvtp _ x =>
    if cvtDst x = 12 ∨ cvtDst x = 13
    then { d := .reg .v 1, a := .reg .v 2, b := some { v := 2, s := 2 }, c := .code }
    else { d := .reg .v 1, a := .reg .v 1, b := some { v := 1, s := 1, imm := true }, c := .code }
  | .qnt nosm _ _ _ => { d := .reg .v 2, a := .reg .v 1, b := if nosm then none else some { s := 1 }, long := true }
  | .dqnt _ => { d := .reg .v 1, a := .reg .v 1, b := some { v := 1, s := 1 } }
  | .vote _ _ => { d := .reg .s 1, a := .reg .k 1, b := some memberB, long := true }
  | .matchLanes ty _ _ => { d := .reg .v 1, a := .reg .v ty.regs, b := some memberB, long := true }
  | .pull _ _ => { d := .reg .v 1, a := .reg .v 1, b := some laneB, long := true }
  | .perm _ => { d := .reg .v 1, a := .reg .v 1, b := some laneB, c := .reg .v 1, long := true }
  | .qswap _ _ => { d := .reg .v 1, a := .reg .v 1, long := true }
  | .qbcast _ => { d := .reg .v 1, a := .reg .v 1, b := some memberB, long := true }
  | .redux ty _ _ => { d := .reg .v ty.regs, a := .reg .v ty.regs, b := some memberB, long := true }
  | .scan ty _ _ _ => { d := .reg .v ty.regs, a := .reg .v ty.regs, b := some memberB, long := true }
  | _ => {}

/-- Data registers of an atomic word (R250): pairs for TY 2 and 3. -/
def atomRegs (x : MF) : Nat := if x.ch.toNat < 2 then 1 else 2

/-- Operand shapes of the M words. -/
def mshape : Instr → MShape
  | .launch _ => { d := .reg .s 1, dr := 1, ldOk := true, ar := .reg .s 2 }
  | .scw _ | .scr _ => { ar := .reg .s 2, sc := true }
  | .scack _ => { off := false, sc := true }
  | .ldVector sz _ => { d := .reg .v sz.regs, dw := sz.regs, ar := .reg .v 2, ch := true, look := true }
  | .ldScalar sz _ => { d := .reg .s sz.regs, dw := sz.regs, ar := .reg .s 2, ch := true, look := true }
  | .stVector sz _ => { d := .reg .v sz.regs, dr := sz.regs, ldOk := true, ar := .reg .v 2, ch := true }
  | .stScalar sz _ => { d := .reg .s sz.regs, dr := sz.regs, ldOk := true, ar := .reg .s 2, ch := true }
  | .lds _ sz _ => { d := .reg .v sz.regs, dw := sz.regs, ar := .reg .v 1, look := true }
  | .sts _ sz _ => { d := .reg .v sz.regs, dr := sz.regs, ldOk := true, ar := .reg .v 1 }
  | .sptag _ _ => { d := .reg .s 1, dr := 1, ldOk := true, ar := .reg .s 1 }
  | .spdrop _ => { d := .reg .s 1, dr := 1, ldOk := true, off := false }
  | .atom _ x => { d := .reg .v (atomRegs x), dr := atomRegs x, dw := atomRegs x, ar := .reg .v 2, sc := true,
                   ch := true, ord := true, look := true }
  | .atomcas x => { d := .reg .v (2 * atomRegs x), dr := 2 * atomRegs x, dw := atomRegs x, ar := .reg .v 2,
                    sc := true, ch := true, ord := true, look := true }
  | .red _ x => { d := .reg .v (atomRegs x), dr := atomRegs x, ldOk := true, ar := .reg .v 2, sc := true,
                  ch := true, ord := true }
  | .ldwatch _ _ => { d := .reg .v 2, dr := 1, dw := 2, ar := .reg .v 2, sc := true, ch := true, ord := true,
                      look := true }
  | .fence _ => { off := false, sc := true, ord := true }
  | .pfence _ => { d := .code, ar := .code, off := false }
  | .cflush _ | .cinv _ => { d := .reg .s 1, dr := 1, ldOk := true, ar := .reg .s 2, sc := true }
  | .pref _ _ => { ar := .reg .v 2 }
  | .icpre _ _ | .icpin _ _ | .icunpin _ _ => { d := .reg .s 1, dr := 1, ldOk := true, ar := .reg .s 2 }
  | .obres _ _ => { d := .reg .s 4, dr := 4, ldOk := true, off := false }
  | .obrel _ _ => { off := false }
  | .tlbinv _ => { d := .reg .s 2, dr := 2, ldOk := true, dw := 1, dw0 := 1, ar := .reg .s 2 }
  | .ctxsave _ | .ctxload _ | .stoprd _ => { d := .reg .s 2, dr := 1, ldOk := true, dw := 1, dw0 := 1, ar := .reg .s 2 }
  | .resume _ | .flood _ | .ckpt _ | .rollbk _ => { d := .reg .s 2, dr := 1, ldOk := true, dw := 1, dw0 := 1, off := false }
  | .dirtyh _ _ => { d := .reg .s 4, dr := 4, ldOk := true, dw := 1, dw0 := 1, ar := .reg .s 2 }
  | _ => {}

/-- The special registers of R202 and R337: width in registers, held per lane, writable, reeve mode only. -/
structure SregInfo where
  wide : Bool := false
  lane : Bool := false
  rw : Bool := false
  reeve : Bool := false
  deriving DecidableEq, Repr

/-- The special-register numbers of R202 and R337. -/
def sregInfo (n : Nat) : Option SregInfo :=
  if n = 0x000 ∨ n = 0x001 ∨ n = 0x005 then some { rw := true }
  else if n = 0x004 then some { lane := true, rw := true }
  else if n = 0x002 ∨ n = 0x003 ∨ (0x006 ≤ n ∧ n ≤ 0x009) then some {}
  else if n = 0x010 then some { lane := true }
  else if 0x011 ≤ n ∧ n ≤ 0x014 then some {}
  else if 0x020 ≤ n ∧ n ≤ 0x022 then some { wide := true }
  else if n = 0x100 then some { rw := true, reeve := true }
  else if n = 0x101 then some { wide := true, rw := true, reeve := true }
  else if n = 0x102 then some { reeve := true }
  else none

/-- Special-register number of SRD and SWR (R202). -/
def sregNum (x : IF) : Nat := (x.imm.extractLsb' 0 12).toNat

/-- The special-register operand is scalar (R202). -/
def sregScalar (x : IF) : Bool := x.imm.getLsbD 31

/-- The legality of SRD and SWR (R202); `reeve` is the mode of the issuing core. -/
def sregOk (reeve swr : Bool) (x : IF) : Bool :=
  (x.imm.extractLsb' 12 19 == 0) &&
  match sregInfo (sregNum x) with
  | none => false
  | some r =>
    let n := if r.wide then 2 else 1
    let f : RFile := if sregScalar x then .s else .v
    (reeve || !r.reeve) &&
    if swr then r.rw && x.d == 0 && groupOk f n x.a.toNat
    else x.a == 0 && !x.la && groupOk f n x.d.toNat && !(r.lane && sregScalar x)

/-- Operands of SRD and SWR. -/
def sregOpds (swr : Bool) (x : IF) : List Opd :=
  let n := match sregInfo (sregNum x) with | some r => if r.wide then 2 else 1 | none => 1
  let f : RFile := if sregScalar x then .s else .v
  if swr then [{ file := f, reg := x.a.toNat, n := n, reads := true, last := x.la }]
  else [{ file := f, reg := x.d.toNat, n := n, writes := true }]

/-- D, A and LA of an I word that names no register are zero. -/
def ifBare (x : IF) : Bool := x.d == 0 && x.a == 0 && !x.la

/-- Arrival count of a weir word (R194). -/
def weirCount (x : IF) : Nat := (x.imm.extractLsb' 8 6).toNat

/-- The IMM checks of the weir words (R194). -/
def weirOk (wait : Bool) (x : IF) : Bool :=
  ifBare x && (x.imm.extractLsb' 14 18 == 0) && (x.imm.extractLsb' 4 4 == 0)
    && (if wait then weirCount x == 0 else decide (1 ≤ weirCount x) && decide (weirCount x ≤ 33))

/-- The register list of KILL: A + m for each set bit m of IMM (R199). -/
def killRegs (x : IF) : List Nat :=
  (List.range 32).filterMap fun m => if x.imm.getLsbD m then some (x.a.toNat + m) else none

/-- The checks of a B word (R169, R189): `a` and `p` say whether FN[13:6] with FN[5], and FN[4:0], are used. DESIGN CHOICE
(log 52): HINT is laid out for every B word, so RET and EXIT accept one too, though their assembly shows none. -/
def bfOk (a p off : Bool) (x : BF) : Bool :=
  (x.off.extractLsb' 0 3 == 0) && (off || (x.off == 0 && x.j == 0 && !x.je)) && (x.je || x.j == 0)
    && (if a then groupOk .v 2 (x.fn.extractLsb' 6 8).toNat else x.fn.extractLsb' 5 9 == 0)
    && (p || x.fn.extractLsb' 0 5 == 0)

/-- The vector pair of BRX and CALLX (R169). -/
def bfTargets (x : BF) : Opd :=
  { file := .v, reg := (x.fn.extractLsb' 6 8).toNat, n := 2, reads := true, last := x.fn.getLsbD 5 }

/-- First register of the link pair of CALL, CALLX and RET (R169). -/
def bfLink (x : BF) : Nat := 2 * (x.fn.extractLsb' 0 5).toNat

/-- Classes of the compact operations of R170. -/
inductive PopClass | empty | fma | alu | bad
  deriving DecidableEq, Repr

/-- Class of a POP value (R170). -/
def popClass (p : BitVec 6) : PopClass :=
  let n := p.toNat
  if n = 0 then .empty else if n ≤ 9 then .fma else if 0x10 ≤ n ∧ n ≤ 0x1E then .alu else .bad

/-- POP 0x03, 0x06 and 0x09 read D as the addend (R170). -/
def popReadsD (p : BitVec 6) : Bool := p == 3 || p == 6 || p == 9

/-- Vector registers that a half reads (R170). -/
def phReads (h : PHalf) : List Nat :=
  if h.pop == 0 then [] else
  [h.a.toNat] ++ (if h.bs || h.pop == 0x1E then [] else [h.b.toNat]) ++ (if popReadsD h.pop then [h.d.toNat] else [])

/-- Field checks of one half (R170). -/
def phOk (h : PHalf) : Bool :=
  match popClass h.pop with
  | .bad => false
  | .empty => h.d == 0 && h.a == 0 && !h.la && h.b == 0 && !h.lb && !h.bs
  | .fma => !h.bs || decide (h.b.toNat < 64)
  | .alu => if h.pop == 0x1E then h.b == 0 && !h.lb && !h.bs else !h.bs || decide (h.b.toNat < 64)

/-- Operands of one half. -/
def phOpds (h : PHalf) : List Opd :=
  if h.pop == 0 then [] else
  [{ file := .v, reg := h.a.toNat, reads := true, last := h.la : Opd }] ++
  (if h.pop == 0x1E then []
   else [{ file := if h.bs then .s else .v, reg := h.b.toNat, reads := true, last := h.lb : Opd }]) ++
  [{ file := .v, reg := h.d.toNat, reads := popReadsD h.pop, writes := true : Opd }]

/-- The pairing rule of R170. -/
def pairOk (h l : PHalf) : Bool :=
  phOk h && phOk l && !(h.pop == 0 && l.pop == 0)
    && !(popClass h.pop == .fma && popClass l.pop == .fma)
    && (h.pop == 0 || l.pop == 0 || (h.d.getLsbD 3 != l.d.getLsbD 3))
    && decide ((phReads h ++ phReads l).dedup.length ≤ 3)

/-- Rounding modes that a destination without stochastic rounding accepts (R67). -/
def rmPlain (m : Rm) : Bool := m != .sr

/-- The combinations of CVT (R238). -/
def cvtOk (m : Rm) (x : VF) : Bool :=
  let d := cvtDst x; let s := cvtSrc x
  d != s && d != 15 && s != 15
    && (m != .sr || (decide (12 ≤ d) && decide (d ≤ 14)))
    && (!(decide (d < 8) && decide (s < 8)) || m == .rne)
    && (!(d == 14 || s == 14) || decide (x.b.toNat ≤ 3))

/-- The combinations of CVTP (R239). -/
def cvtpOk (m : Rm) (x : VF) : Bool :=
  let d := cvtDst x
  cvtSrc x == 10 && (d == 8 || d == 9 || d == 12 || d == 13) && (m != .sr || decide (12 ≤ d))

/-- Types that an operation of REDUX or SCAN accepts (R280). -/
def redOk (ty : RTy) (op : RedOp) : Bool :=
  match op, ty with
  | .add, .int t | .min, .int t | .max, .int t => t.isInt
  | .add, .f32 | .min, .f32 | .max, .f32 => true
  | .and, .int t | .or, .int t | .xor, .int t => t.isBits
  | .and, .f32 | .or, .f32 | .xor, .f32 => false

/-- Types that an atomic operation accepts (R249); TY is CH. -/
def atomOk (op : AtomOp) (x : MF) : Bool :=
  let ty := x.ch.toNat
  match op with
  | .inc | .dec => ty == 1 || ty == 3
  | .fadd => ty == 0 || ty == 2
  | _ => true

/-- Length of a stored row by format (R294). -/
def rowBytes : AstFmt → Nat
  | .b32 => 256
  | .f16 | .bf16 => 128
  | .e4m3 | .e5m2 => 64

/-- ADD, AND, TLOG, ...: a V word whose shape alone decides. -/
def vok (i : Instr) (x : VF) (extra : Bool := true) : Bool := extra && (vshape i).ok x

/-- An M word whose shape and ordering decide. -/
def mok (i : Instr) (x : MF) (extra : Bool := true) : Bool := extra && (mshape i).ok x

/-- R164 step 3, whole: the instruction is not ILLEGAL on a core of the given mode. A step that is no word is
always well formed. -/
def legal (reeve : Bool) (i : Instr) : Bool :=
  match i with
  | .nop | .yield | .eret => true
  | .bra x => bfOk false false true x
  | .brx x => bfOk true false true x
  | .call x => bfOk false true true x
  | .callx x => bfOk true true true x
  | .ret x => bfOk false true false x
  | .exit x => bfOk false false false x
  | .trap x | .bkpt x | .sleep x => ifBare x
  | .jenr x | .jwait x | .jstrk x =>
    decide (x.d.toNat < 8) && x.slot == 0 && !x.sv && vok i x
  | .weirset x | .weirarv x | .weirsync x => weirOk false x
  | .weirwait x => weirOk true x
  | .cbarv x | .cbwait x => ifBare x && decide (x.imm.toNat ≤ 3)
  | .nexttile x => x.slot == 0 && !x.sv && vok i x
  | .launch x => mok i x
  | .acqx x => ifBare x && decide (1 ≤ x.imm.toNat) && decide (x.imm.toNat ≤ 4)
  | .relx x => ifBare x && x.imm == 0
  | .kill sf x => x.d == 0 && !x.la && (!sf || decide (x.a.toNat < 64)) && (killRegs x).all (fun r => decide (r < if sf then 64 else 256))
  | .rest x => ifBare x && decide (x.imm.toNat ≤ 255)
  | .region x => ifBare x && decide (x.imm.toNat ≤ 2)
  | .part x => ifBare x && decide (x.imm.toNat ≤ 4)
  | .srd x => sregOk reeve false x
  | .swr x => sregOk reeve true x
  | .scw x | .scr x | .scack x => mok i x
  | .iadd _ ty x | .isub _ ty x | .imul _ ty x | .imulh _ ty x | .imad _ ty x | .imin _ ty x | .imax _ ty x
  | .idiv _ ty x | .irem _ ty x | .icmp _ ty _ x | .bfe _ ty x => vok i x ty.isInt
  | .imadw _ ty x => vok i x (ty == .i32 || ty == .n32)
  | .iabs _ ty x | .ineg _ ty x => vok i x (ty == .i32 || ty == .i64)
  | .isel _ ty x | .and _ ty x | .or _ ty x | .xor _ ty x | .not _ ty x | .shl _ ty x | .shr _ ty x | .sar _ ty x
  | .rot _ ty x | .fshf _ ty x | .bfi _ ty x | .popc _ ty x | .clz _ ty x | .ctz _ ty x | .brev _ ty x
  | .mov _ ty x | .rdlane ty x | .bcast ty x => vok i x ty.isBits
  | .tlog _ _ x => vok i x
  | .bperm _ ty x => vok i x (ty == .b32)
  | .movQ0Push x => vok i x (x.d == 0x40)
  | .movQ1Pop x => vok i x (x.a == 0x41)
  | .movi sf kd x => x.a == 0 && !x.la && groupOk (formFile sf) (if kd == .b32 then 1 else 2) x.d.toNat
  | .pairedWord h l => pairOk h l
  | .fadd ft rm x | .fmul ft rm x | .ffma ft rm x | .frnd ft rm x | .fscale ft rm x | .rcp ft rm x | .sqrt ft rm x
  | .fdiv ft rm x => vok i x (ft.isScalarFmt && rmPlain rm)
  | .fmin ft x | .fmax ft x | .fcmp ft _ x | .fclass ft x | .fgetexp ft x | .rsq ft x => vok i x ft.isScalarFmt
  | .padd ft rm x | .pmul ft rm x | .pfma ft rm x => vok i x (!ft.isScalarFmt && rmPlain rm)
  | .exp2 x | .log2 x | .sin x | .cos x | .tanh x => vok i x
  | .cvt rm x => vok i x (cvtOk rm x)
  | .cvtp rm x => vok i x (cvtpOk rm x)
  | .qnt _ _ rm x => vok i x (rm == .rne || rm == .sr)
  | .dqnt x => vok i x
  | .ldVector _ x => mok i x
  | .ldScalar sz x | .stScalar sz x => mok i x (sz == .b32 || sz == .b64 || sz == .b128)
  | .stVector sz x => mok i x (sz != .i8 && sz != .i16)
  | .lds mode sz x => mok i x (mode == .plain || sz == .b32)
  | .sts e sz x => mok i x (!e || sz == .b32)
  | .sptag _ x | .spdrop x => mok i x
  | .atom op x => mok i x (atomOk op x && decide (mfOrd x ≤ 4))
  | .atomcas x => mok i x (decide (mfOrd x ≤ 4))
  | .red op x => mok i x (atomOk op x && op != .xchg && (mfOrd x == 0 || mfOrd x == 2 || mfOrd x == 4))
  | .ldwatch _ x => mok i x (decide (x.ch.toNat ≤ 1) && decide (mfOrd x ≤ 1))
  | .fence x => mok i x (decide (1 ≤ mfOrd x) && decide (mfOrd x ≤ 4))
  | .pfence x => mok i x (decide (x.d.toNat ≤ 4) && decide (x.ar.toNat ≤ 4))
  | .cflush x | .cinv x | .pref _ x | .icpre _ x | .icpin _ x | .icunpin _ x | .obres _ x | .obrel _ x => mok i x
  | .vote _ x => vok i x
  | .matchLanes ty _ x => vok i x ty.isBits
  | .pull _ x | .perm x | .qswap _ x | .qbcast x => vok i x
  | .redux ty op x | .scan ty op _ x => vok i x (redOk ty op)
  | .tlbinv x | .ctxsave x | .ctxload x | .stoprd x | .resume x | .flood x | .dirtyh _ x | .ckpt x | .rollbk x =>
    mok i x
  | .mmaF16 q | .mmaBf16 q | .mmaE4m3 q | .mmaE5m2 q | .mmaI8 q => q.scol == 0
  | .mmasE4m3 _ | .mmasX4 _ => true
  | .azero t => t.ta == 0 && t.tb == 0 && t.fn == 0 && t.rm == 0 && t.e == 0
  | .aadd t => decide (t.fn.toNat ≤ 1) && t.e == 0 && (t.fn == 0 || t.rm == 0)
  | .acvt t => decide (t.fn.toNat ≤ 1) && t.tb == 0
  | .aloadTile a => a.rm == 0 && decide (256 ≤ a.str.toNat * 16)
  | .aloadMa a => a.rm == 0 && a.str == 0 && !a.acc.getLsbD 3
  | .astore f a => (f != .b32 || a.rm == 0) && decide (rowBytes f ≤ a.str.toNat * 16)
  | .scld .. => true
  | .marv _ cnt => decide (1 ≤ cnt.toNat) && decide (cnt.toNat ≤ 33)
  | .mwait _ => true
  | .mregion m => decide (m.toNat ≤ 2)
  | .mloop _ _ off | .mjmp _ off => off.extractLsb' 0 3 == 0
  | .mend => true
  | .mchk .. => true
  | .msrd sel _ _ => decide (sel.toNat ≤ 10)
  | .inj .. => true
  | _ => true

/-- The fields of a V word (R165). -/
def vfOf : Instr → Option VF
  | .jenr x | .jwait x | .jstrk x | .nexttile x | .iadd _ _ x | .isub _ _ x | .imul _ _ x | .imulh _ _ x | .imad _ _ x | .imadw _ _ x
  | .imin _ _ x | .imax _ _ x | .iabs _ _ x | .ineg _ _ x | .idiv _ _ x | .irem _ _ x | .icmp _ _ _ x | .isel _ _ x
  | .and _ _ x | .or _ _ x | .xor _ _ x | .not _ _ x | .tlog _ _ x | .shl _ _ x | .shr _ _ x | .sar _ _ x
  | .rot _ _ x | .fshf _ _ x | .bfe _ _ x | .bfi _ _ x | .popc _ _ x | .clz _ _ x | .ctz _ _ x | .brev _ _ x
  | .bperm _ _ x | .mov _ _ x | .movQ0Push x | .movQ1Pop x | .rdlane _ x | .bcast _ x | .fadd _ _ x | .fmul _ _ x
  | .ffma _ _ x | .fmin _ x | .fmax _ x | .fcmp _ _ x | .fclass _ x | .frnd _ _ x | .fscale _ _ x | .fgetexp _ x
  | .padd _ _ x | .pmul _ _ x | .pfma _ _ x | .rcp _ _ x | .rsq _ x | .sqrt _ _ x | .fdiv _ _ x | .exp2 x | .log2 x
  | .sin x | .cos x | .tanh x | .cvt _ x | .cvtp _ x | .qnt _ _ _ x | .dqnt x | .vote _ x | .matchLanes _ _ x
  | .pull _ x | .perm x | .qswap _ x | .qbcast x | .redux _ _ x | .scan _ _ _ x => some x
  | _ => none

/-- The fields of an M word (R168). -/
def mfOf : Instr → Option MF
  | .launch x | .scw x | .scr x | .scack x | .ldVector _ x | .ldScalar _ x | .stVector _ x | .stScalar _ x
  | .lds _ _ x | .sts _ _ x | .sptag _ x | .spdrop x | .atom _ x | .atomcas x | .red _ x | .ldwatch _ x | .fence x
  | .pfence x | .cflush x | .cinv x | .pref _ x | .icpre _ x | .icpin _ x | .icunpin _ x | .obres _ x | .obrel _ x
  | .tlbinv x | .ctxsave x | .ctxload x | .stoprd x | .resume x | .flood x | .dirtyh _ x | .ckpt x | .rollbk x => some x
  | _ => none

/-- The fields of an I word (R167). -/
def ifOf : Instr → Option IF
  | .trap x | .bkpt x | .sleep x | .weirset x | .weirarv x | .weirwait x | .weirsync x | .cbarv x | .cbwait x | .acqx x
  | .relx x | .kill _ x | .rest x | .region x | .part x | .srd x | .swr x | .movi _ _ x => some x
  | _ => none

/-- The register fields of a wave word, reads first (R44). -/
def fieldOpds (i : Instr) : List Opd :=
  match i with
  | .brx x => [bfTargets x]
  | .call x => [{ file := .s, reg := bfLink x, n := 2, writes := true }]
  | .callx x => [bfTargets x, { file := .s, reg := bfLink x, n := 2, writes := true }]
  | .ret x => [{ file := .s, reg := bfLink x, n := 2, reads := true }]
  | .kill false x => (killRegs x).map fun r => { file := .v, reg := r }
  | .srd x => sregOpds false x
  | .swr x => sregOpds true x
  | .movi sf kd x => [{ file := formFile sf, reg := x.d.toNat, n := if kd == .b32 then 1 else 2, writes := true }]
  | .pairedWord h l => phOpds h ++ phOpds l
  | i =>
    match vfOf i, mfOf i with
    | some x, _ => (vshape i).opds x
    | none, some x => (mshape i).opds x
    | none, none => []

/-- The mask register that a wave word reads as its predicate or condition (R165, R169). -/
def predOf (i : Instr) : BitVec 3 :=
  match i with
  | .bra x | .brx x | .call x | .callx x | .ret x | .exit x => x.pr
  | i =>
    match vfOf i, mfOf i, ifOf i with
    | some x, _, _ => x.pr
    | none, some x, _ => x.pr
    | none, none, some x => x.pr
    | none, none, none => 0

/-- The operands a wave word names, reads first (R44), with the mask register of its predicate, on which it interlocks too
(R209). -/
def opdsOf (i : Instr) : List Opd :=
  fieldOpds i ++ if predOf i = 0 then [] else [{ file := .k, reg := (predOf i).toNat, reads := true }]

/-- Word groups of R162. -/
def isTransferOpc (opc : Nat) : Bool := decide (1 ≤ opc) && decide (opc ≤ 6)
/-- Memory words of R162. -/
def isMemoryOpc (opc : Nat) : Bool := decide (0x80 ≤ opc) && decide (opc ≤ 0xAF)
/-- Special-function words of R162. -/
def isSfuOpc (opc : Nat) : Bool := decide (0x60 ≤ opc) && decide (opc ≤ 0x68)
/-- P words of R162. -/
def isPOpc (opc : Nat) : Bool := decide (0xE0 ≤ opc) && decide (opc ≤ 0xEF)

/-- A scalar operand field names q0 or q1 (R166). -/
def isQueueReg (f : BitVec 8) : Bool := f == 0x40 || f == 0x41

/-- A word of OPC 0x20 to 0x5B names q0 or q1: its B where BK says scalar, D of RDLANE, A of BCAST (R162, R166); MOVI has no B. -/
def namesQueue (w : Dword) : Bool :=
  let opc := (w.extractLsb' 56 8).toNat
  (opc != 0x42 && w.extractLsb' 8 2 == 1 && isQueueReg (w.extractLsb' 20 8))
    || (opc == 0x44 && isQueueReg (w.extractLsb' 37 8)) || (opc == 0x46 && isQueueReg (w.extractLsb' 29 8))

/-- R162: whether a clause of class `cls` accepts the word with bits `w`; `isLast` says that it is the clause's last
word. -/
def classAccepts (cls : Nat) (isLast : Bool) (w : Dword) : Bool :=
  let opc := (w.extractLsb' 56 8).toNat
  match cls with
  | 0 => !isPOpc opc && !isMemoryOpc opc && !isSfuOpc opc && !isTransferOpc opc
  | 1 => isPOpc opc ||
    (((decide (0x20 ≤ opc) && decide (opc ≤ 0x46) && opc % 2 == 0 && opc != 0x2C)
        || (decide (0x50 ≤ opc) && decide (opc ≤ 0x5B)))
      && (opc == 0x42 || w.extractLsb' 4 4 == 0) && !namesQueue w)
  | 2 => !isPOpc opc && !isSfuOpc opc && !isTransferOpc opc
  | 3 => !isPOpc opc && !isMemoryOpc opc && !isTransferOpc opc
  | 4 => !isPOpc opc && (isTransferOpc opc == isLast)
  | _ => false

end Machine
end Sys2Proof
end

