-- ==== Sys2Proof/WellFormed.lean ====
section
/-! DEFINITION. When an instruction is well formed: it passes every check of R164 step 3 (the checks themselves
are `Machine.legal`). -/

namespace Sys2Proof

/-- The instruction is none of the ILLEGAL cases of R164 step 3 on a core of the given mode. -/
def Instr.WellFormed (reeve : Bool) (i : Instr) : Bool := Machine.legal reeve i

end Sys2Proof
end

