-- ==== Sys2Proof/Decode.lean ====
section
/-! DEFINITION. The decoders of both streams (R161 to R176), total on every word, and the encoders, written from
the same field tables. -/

namespace Sys2Proof

/-- Field of `len` bits from bit `lo` of a word. -/
def fld (w : Dword) (lo len : Nat) : BitVec len := w.extractLsb' lo len

/-- Bit n of a word. -/
def bitOf (w : Dword) (n : Nat) : Bool := w.getLsbD n

/-- One bit. -/
def b1 (b : Bool) : BitVec 1 := BitVec.ofBool b

/-- OPC or MOPC of a word. -/
def opcOf (w : Dword) : Nat := (fld w 56 8).toNat

-- Codes of the enumerated fields.

/-- R172. -/
def itype : Nat → Option ITy
  | 0 => some .i32 | 1 => some .n32 | 2 => some .i64 | 3 => some .n64 | 4 => some .b32 | 5 => some .b64 | _ => none
/-- R172. -/
def itypeCode : ITy → BitVec 3
  | .i32 => 0 | .n32 => 1 | .i64 => 2 | .n64 => 3 | .b32 => 4 | .b64 => 5
/-- R172. -/
def ftype : Nat → FTy
  | 0 => .f32 | 1 => .f64 | 2 => .f16 | _ => .bf16
/-- R172. -/
def ftypeCode : FTy → BitVec 2
  | .f32 => 0 | .f64 => 1 | .f16 => 2 | .bf16 => 3
/-- R67. -/
def rmode : Nat → Option Rm
  | 0 => some .rne | 1 => some .rtz | 2 => some .rup | 3 => some .rdn | 4 => some .sr | _ => none
/-- R67. -/
def rmodeCode : Rm → BitVec 3
  | .rne => 0 | .rtz => 1 | .rup => 2 | .rdn => 3 | .sr => 4
/-- R214. -/
def icond : Nat → Option Cond
  | 0 => some .eq | 1 => some .ne | 2 => some .lt | 3 => some .le | 4 => some .gt | 5 => some .ge | _ => none
/-- R214. -/
def icondCode : Cond → BitVec 4
  | .eq => 0 | .ne => 1 | .lt => 2 | .le => 3 | .gt => 4 | .ge => 5
/-- R231. -/
def fcond : Nat → FCond
  | 0 => .eq | 1 => .ne | 2 => .lt | 3 => .le | 4 => .gt | 5 => .ge | 6 => .ord | _ => .unord
/-- R231. -/
def fcondCode : FCond → BitVec 3
  | .eq => 0 | .ne => 1 | .lt => 2 | .le => 3 | .gt => 4 | .ge => 5 | .ord => 6 | .unord => 7
/-- R223. -/
def movik : Nat → Option MoviKind
  | 0 => some .b32 | 1 => some .i64 | 2 => some .n64 | _ => none
/-- R223. -/
def movikCode : MoviKind → BitVec 3
  | .b32 => 0 | .i64 => 1 | .n64 => 2
/-- R173. -/
def msize : Nat → Option MSize
  | 0 => some .n8 | 1 => some .i8 | 2 => some .n16 | 3 => some .i16 | 4 => some .b32 | 5 => some .b64
  | 6 => some .b128 | _ => none
/-- R173. -/
def msizeCode : MSize → BitVec 4
  | .n8 => 0 | .i8 => 1 | .n16 => 2 | .i16 => 3 | .b32 => 4 | .b64 => 5 | .b128 => 6
/-- R247. -/
def spsize : Nat → Option SpSize
  | 0 => some .b32 | 1 => some .b64 | 2 => some .b128 | _ => none
/-- R247. -/
def spsizeCode : SpSize → BitVec 2
  | .b32 => 0 | .b64 => 1 | .b128 => 2
/-- R247. -/
def ldsmode : Nat → LdsMode
  | 0 => .plain | 1 => .full | 2 => .take | _ => .now
/-- R247. -/
def ldsmodeCode : LdsMode → BitVec 2
  | .plain => 0 | .full => 1 | .take => 2 | .now => 3
/-- R249. -/
def atomop : Nat → Option AtomOp
  | 0 => some .add | 1 => some .min | 2 => some .max | 3 => some .and | 4 => some .or | 5 => some .xor
  | 6 => some .xchg | 7 => some .inc | 8 => some .dec | 9 => some .fadd | _ => none
/-- R249. -/
def atomopCode : AtomOp → BitVec 4
  | .add => 0 | .min => 1 | .max => 2 | .and => 3 | .or => 4 | .xor => 5 | .xchg => 6 | .inc => 7 | .dec => 8
  | .fadd => 9
/-- R256. -/
def preflvl : Nat → Option PrefLvl
  | 0 => some .l1 | 1 => some .cc | 2 => some .l2 | _ => none
/-- R256. -/
def preflvlCode : PrefLvl → BitVec 4
  | .l1 => 0 | .cc => 1 | .l2 => 2
/-- R240. -/
def qsel : Nat → Option QSel
  | 0 => some .t0 | 1 => some .t1 | 2 => some .t2 | 3 => some .t3 | 4 => some .auto | _ => none
/-- R240. -/
def qselCode : QSel → BitVec 3
  | .t0 => 0 | .t1 => 1 | .t2 => 2 | .t3 => 3 | .auto => 4
/-- R276. -/
def voteop : Nat → Option VoteOp
  | 0 => some .any | 1 => some .all | 2 => some .ballot | _ => none
/-- R276. -/
def voteopCode : VoteOp → BitVec 7
  | .any => 0 | .all => 1 | .ballot => 2
/-- R276. -/
def pullsel : Nat → Option PullSel
  | 0 => some .lane | 1 => some .lower | 2 => some .upper | 3 => some .flip | _ => none
/-- R276. -/
def pullselCode : PullSel → BitVec 7
  | .lane => 0 | .lower => 1 | .upper => 2 | .flip => 3
/-- R276. -/
def quadsel : Nat → Option QuadSel
  | 0 => some .horizontal | 1 => some .vertical | 2 => some .diagonal | _ => none
/-- R276. -/
def quadselCode : QuadSel → BitVec 7
  | .horizontal => 0 | .vertical => 1 | .diagonal => 2
/-- R280. -/
def rtype : Nat → Option RTy
  | 0 => some (.int .i32) | 1 => some (.int .n32) | 2 => some (.int .i64) | 3 => some (.int .n64)
  | 4 => some (.int .b32) | 5 => some (.int .b64) | 6 => some .f32 | _ => none
/-- R280. -/
def rtypeCode : RTy → BitVec 3
  | .int t => itypeCode t | .f32 => 6
/-- R280. -/
def redop : Nat → Option RedOp
  | 0 => some .add | 1 => some .min | 2 => some .max | 3 => some .and | 4 => some .or | 5 => some .xor | _ => none
/-- R280. -/
def redopCode : RedOp → BitVec 3
  | .add => 0 | .min => 1 | .max => 2 | .and => 3 | .or => 4 | .xor => 5
/-- R294. -/
def astfmt : Nat → Option AstFmt
  | 0 => some .b32 | 1 => some .f16 | 2 => some .bf16 | 3 => some .e4m3 | 4 => some .e5m2 | _ => none
/-- R294. -/
def astfmtCode : AstFmt → BitVec 3
  | .b32 => 0 | .f16 => 1 | .bf16 => 2 | .e4m3 => 3 | .e5m2 => 4

-- The formats.

/-- R165. -/
def unpackV (w : Dword) : VF :=
  { pr := fld w 46 3, pn := bitOf w 45, d := fld w 37 8, a := fld w 29 8, la := bitOf w 28, b := fld w 20 8,
    lb := bitOf w 19, c := fld w 11 8, lc := bitOf w 10, bk := fld w 8 2, look := fld w 4 4, slot := fld w 1 3,
    sv := bitOf w 0 }
/-- R165. -/
def packV (opc : BitVec 8) (fn : BitVec 7) (x : VF) : Dword :=
  opc ++ fn ++ x.pr ++ b1 x.pn ++ x.d ++ x.a ++ b1 x.la ++ x.b ++ b1 x.lb ++ x.c ++ b1 x.lc ++ x.bk ++ x.look ++ x.slot
    ++ b1 x.sv
/-- R167. -/
def unpackI (w : Dword) : IF :=
  { la := bitOf w 52, pr := fld w 49 3, pn := bitOf w 48, d := fld w 40 8, a := fld w 32 8, imm := fld w 0 32 }
/-- R167. -/
def packI (opc : BitVec 8) (fn : BitVec 3) (x : IF) : Dword :=
  opc ++ fn ++ b1 x.la ++ x.pr ++ b1 x.pn ++ x.d ++ x.a ++ x.imm
/-- R168. -/
def unpackM (w : Dword) : MF :=
  { pr := fld w 49 3, pn := bitOf w 48, d := fld w 40 8, ar := fld w 32 8, la := bitOf w 31, ld := bitOf w 30,
    sc := fld w 26 4, ch := fld w 24 2, look := fld w 20 4, slot := fld w 17 3, sv := bitOf w 16, off := fld w 0 16 }
/-- R168. -/
def packM (opc : BitVec 8) (fn : BitVec 4) (x : MF) : Dword :=
  opc ++ fn ++ x.pr ++ b1 x.pn ++ x.d ++ x.ar ++ b1 x.la ++ b1 x.ld ++ x.sc ++ x.ch ++ x.look ++ x.slot ++ b1 x.sv
    ++ x.off
/-- R169. -/
def unpackB (w : Dword) : BF :=
  { hint := fld w 54 2, pr := fld w 51 3, pn := bitOf w 50, j := fld w 47 3, je := bitOf w 46, fn := fld w 32 14,
    off := fld w 0 32 }
/-- R169. -/
def packB (opc : BitVec 8) (x : BF) : Dword :=
  opc ++ x.hint ++ x.pr ++ b1 x.pn ++ x.j ++ b1 x.je ++ x.fn ++ x.off
/-- R170: the half whose lowest bit is bit `lo`. -/
def unpackP (w : Dword) (lo : Nat) : PHalf :=
  { pop := fld w (lo + 24) 6, d := fld w (lo + 17) 7, a := fld w (lo + 10) 7, la := bitOf w (lo + 9),
    b := fld w (lo + 2) 7, lb := bitOf w (lo + 1), bs := bitOf w lo }
/-- R170. -/
def packP (h : PHalf) : BitVec 30 := h.pop ++ h.d ++ h.a ++ b1 h.la ++ h.b ++ b1 h.lb ++ b1 h.bs
/-- R171. -/
def unpackQ (w : Dword) : QF :=
  { acc := fld w 52 4, ra := fld w 48 4, aoff := fld w 36 12, rb := fld w 32 4, boff := fld w 20 12,
    scol := fld w 10 10, rgn := fld w 8 2, h := bitOf w 7, z := bitOf w 6 }
/-- R171. -/
def packQ (opc : BitVec 8) (q : QF) : Dword :=
  opc ++ q.acc ++ q.ra ++ q.aoff ++ q.rb ++ q.boff ++ q.scol ++ q.rgn ++ b1 q.h ++ b1 q.z ++ 0#6
/-- R292. -/
def unpackT (w : Dword) : TF :=
  { acc := fld w 52 4, ta := fld w 48 4, tb := fld w 44 4, fn := fld w 42 2, rm := fld w 40 2, e := fld w 32 8 }
/-- R292. -/
def packT (opc : BitVec 8) (t : TF) : Dword :=
  opc ++ t.acc ++ t.ta ++ t.tb ++ t.fn ++ t.rm ++ t.e ++ 0#32
/-- R294. -/
def unpackA (w : Dword) : AF :=
  { acc := fld w 52 4, areg := fld w 49 3, rm := fld w 44 2, str := fld w 24 20, inc := fld w 8 16 }
/-- R294. -/
def packA (opc : BitVec 8) (fn : BitVec 3) (a : AF) : Dword :=
  opc ++ a.acc ++ a.areg ++ fn ++ a.rm ++ a.str ++ a.inc ++ 0#8

/-- R161: the fields of a word read as a header. -/
def unpackH (w : Dword) : Header :=
  { count := fld w 56 4, cls := fld w 53 3, wait := fld w 45 8, yld := bitOf w 44, res := fld w 40 4,
    rtn := fld w 32 8, res2 := fld w 0 32 }
/-- R161. -/
def packH (h : Header) : Dword :=
  15#4 ++ h.count ++ h.cls ++ h.wait ++ b1 h.yld ++ h.res ++ h.rtn ++ h.res2
/-- R161: TAG of a word is the header's. -/
def isHeader (w : Dword) : Bool := fld w 60 4 == 15

/-- R176: VB of a function word; none where MAGIC or a reserved field is wrong. -/
def funcWord (w : Dword) : Option Nat :=
  if fld w 56 8 == 0x0F && fld w 45 11 == 0 && fld w 0 40 == 0 then some (fld w 40 5).toNat else none

/-- R261, R262: a copy command from its four words. -/
def unpackCopy (w0 w1 w2 w3 : Dword) : CopyCmd :=
  { kind := fld w0 60 4, ssp := fld w0 58 2, dsp := fld w0 56 2, tk := bitOf w0 55, we := bitOf w0 54,
    weir := fld w0 50 4, wcnt := fld w0 44 6, kf := fld w0 40 4, kx := fld w0 32 8, kw := fld w0 16 16,
    tag := fld w0 0 16, w1 := w1, w2 := w2, w3 := w3 }
/-- R261: W0 of a copy command. -/
def packCopyW0 (c : CopyCmd) : Dword :=
  c.kind ++ c.ssp ++ c.dsp ++ b1 c.tk ++ b1 c.we ++ c.weir ++ c.wcnt ++ c.kf ++ c.kx ++ c.kw ++ c.tag

-- The wave stream.

/-- Control words, OPC 0x00 to 0x16 (R172). -/
def parseControl (opc : Nat) (w : Dword) : Option Instr :=
  let fv := (fld w 49 7).toNat
  let fi := (fld w 53 3).toNat
  let fm := (fld w 52 4).toNat
  match opc with
  | 0x00 => if fld w 0 56 == 0 then some .nop else none
  | 0x01 => some (.bra (unpackB w))
  | 0x02 => some (.brx (unpackB w))
  | 0x03 => some (.call (unpackB w))
  | 0x04 => some (.callx (unpackB w))
  | 0x05 => some (.ret (unpackB w))
  | 0x06 => some (.exit (unpackB w))
  | 0x07 => if fld w 0 56 == 0 then some .yield else none
  | 0x08 => if fi = 0 then some (.trap (unpackI w)) else none
  | 0x09 => if fi = 0 then some (.bkpt (unpackI w)) else none
  | 0x0A =>
    match fv with
    | 0 => some (.jenr (unpackV w))
    | 1 => some (.jwait (unpackV w))
    | 2 => some (.jstrk (unpackV w))
    | _ => none
  | 0x0B =>
    match fi with
    | 0 => some (.weirset (unpackI w))
    | 1 => some (.weirarv (unpackI w))
    | 2 => some (.weirwait (unpackI w))
    | 3 => some (.weirsync (unpackI w))
    | _ => none
  | 0x0C =>
    match fi with
    | 0 => some (.cbarv (unpackI w))
    | 1 => some (.cbwait (unpackI w))
    | _ => none
  | 0x0D => if fv = 0 then some (.nexttile (unpackV w)) else none
  | 0x0E => if fm = 0 then some (.launch (unpackM w)) else none
  | 0x0F =>
    match fi with
    | 0 => some (.acqx (unpackI w))
    | 1 => some (.relx (unpackI w))
    | _ => none
  | 0x10 =>
    match fi with
    | 0 => some (.kill false (unpackI w))
    | 1 => some (.kill true (unpackI w))
    | _ => none
  | 0x11 => if fi = 0 then some (.rest (unpackI w)) else none
  | 0x12 => if fi = 0 then some (.region (unpackI w)) else none
  | 0x13 => if fi = 0 then some (.part (unpackI w)) else none
  | 0x14 =>
    match fi with
    | 0 => some (.srd (unpackI w))
    | 1 => some (.swr (unpackI w))
    | _ => none
  | 0x15 =>
    match fm with
    | 0 => some (.scw (unpackM w))
    | 1 => some (.scr (unpackM w))
    | 2 => some (.scack (unpackM w))
    | _ => none
  | 0x16 => if fi = 0 then some (.sleep (unpackI w)) else none
  | _ => none

/-- Integer words whose FN is a type and a sub-function (R172): `base` is the even opcode. -/
def parseIntTy (base : Nat) (sf : Bool) (ty : ITy) (sub : Nat) (x : VF) : Option Instr :=
  match base with
  | 0x20 => if sub = 0 then some (.iadd sf ty x) else none
  | 0x22 => if sub = 0 then some (.isub sf ty x) else none
  | 0x24 =>
    match sub with
    | 0 => some (.imul sf ty x)
    | 1 => some (.imulh sf ty x)
    | _ => none
  | 0x26 =>
    match sub with
    | 0 => some (.imad sf ty x)
    | 1 => some (.imadw sf ty x)
    | _ => none
  | 0x28 =>
    match sub with
    | 0 => some (.imin sf ty x)
    | 1 => some (.imax sf ty x)
    | _ => none
  | 0x2A =>
    match sub with
    | 0 => some (.iabs sf ty x)
    | 1 => some (.ineg sf ty x)
    | _ => none
  | 0x2C =>
    match sub with
    | 0 => some (.idiv sf ty x)
    | 1 => some (.irem sf ty x)
    | _ => none
  | 0x2E => (icond sub).map fun c => .icmp sf ty c x
  | 0x30 => if sub = 0 then some (.isel sf ty x) else none
  | 0x32 =>
    match sub with
    | 0 => some (.and sf ty x)
    | 1 => some (.or sf ty x)
    | 2 => some (.xor sf ty x)
    | 3 => some (.not sf ty x)
    | _ => none
  | 0x38 =>
    match sub with
    | 0 => some (.shl sf ty x)
    | 1 => some (.shr sf ty x)
    | 2 => some (.sar sf ty x)
    | 3 => some (.rot sf ty x)
    | 4 => some (.fshf sf ty x)
    | _ => none
  | 0x3A =>
    match sub with
    | 0 => some (.bfe sf ty x)
    | 1 => some (.bfi sf ty x)
    | _ => none
  | 0x3C =>
    match sub with
    | 0 => some (.popc sf ty x)
    | 1 => some (.clz sf ty x)
    | 2 => some (.ctz sf ty x)
    | 3 => some (.brev sf ty x)
    | _ => none
  | 0x3E => if sub = 0 then some (.bperm sf ty x) else none
  | 0x40 =>
    if sub ≠ 0 then none
    else if sf && ty == .b64 && x.d == 0x40 then some (.movQ0Push x)
    else if sf && ty == .b64 && x.a == 0x41 then some (.movQ1Pop x)
    else some (.mov sf ty x)
  | 0x44 => if sub = 0 && !sf then some (.rdlane ty x) else none
  | 0x46 => if sub = 0 && !sf then some (.bcast ty x) else none
  | _ => none

/-- Integer words, OPC 0x20 to 0x47 (R172). -/
def parseInt (opc : Nat) (w : Dword) : Option Instr :=
  let sf := opc % 2 == 1
  let base := opc / 2 * 2
  match base with
  | 0x34 => some (.tlog sf (0#1 ++ fld w 49 7) (unpackV w))
  | 0x36 => some (.tlog sf (1#1 ++ fld w 49 7) (unpackV w))
  | 0x42 => (movik (fld w 53 3).toNat).map fun k => .movi sf k (unpackI w)
  | _ => (itype (fld w 53 3).toNat).bind fun ty => parseIntTy base sf ty (fld w 49 4).toNat (unpackV w)

/-- Floating words, OPC 0x50 to 0x68 (R172): FT, RM and sub-function. -/
def parseFloat (opc : Nat) (ft : FTy) (mode : Nat) (sub : Nat) (x : VF) : Option Instr :=
  let rm (f : Rm → Instr) : Option Instr := if sub = 0 then (rmode mode).map f else none
  let plain (i : Instr) : Option Instr := if sub = 0 ∧ mode = 0 then some i else none
  match opc with
  | 0x50 => rm fun m => .fadd ft m x
  | 0x51 => rm fun m => .fmul ft m x
  | 0x52 => rm fun m => .ffma ft m x
  | 0x53 =>
    if mode ≠ 0 then none else
    match sub with
    | 0 => some (.fmin ft x)
    | 1 => some (.fmax ft x)
    | _ => none
  | 0x54 => if sub = 0 then some (.fcmp ft (fcond mode) x) else none
  | 0x55 => plain (.fclass ft x)
  | 0x56 => rm fun m => .frnd ft m x
  | 0x57 => rm fun m => .fscale ft m x
  | 0x58 => plain (.fgetexp ft x)
  | 0x59 => rm fun m => .padd ft m x
  | 0x5A => rm fun m => .pmul ft m x
  | 0x5B => rm fun m => .pfma ft m x
  | 0x60 => rm fun m => .rcp ft m x
  | 0x61 => plain (.rsq ft x)
  | 0x62 => rm fun m => .sqrt ft m x
  | 0x63 => rm fun m => .fdiv ft m x
  | 0x64 => if ft == .f32 then plain (.exp2 x) else none
  | 0x65 => if ft == .f32 then plain (.log2 x) else none
  | 0x66 => if ft == .f32 then plain (.sin x) else none
  | 0x67 => if ft == .f32 then plain (.cos x) else none
  | 0x68 => if ft == .f32 then plain (.tanh x) else none
  | _ => none

/-- Conversions and quantisation, OPC 0x70 to 0x73 (R238 to R243). -/
def parseConvert (opc : Nat) (w : Dword) : Option Instr :=
  let x := unpackV w
  match opc with
  | 0x70 => if fld w 52 4 == 0 then (rmode (fld w 49 3).toNat).map fun m => .cvt m x else none
  | 0x71 => if fld w 52 4 == 0 then (rmode (fld w 49 3).toNat).map fun m => .cvtp m x else none
  | 0x72 => (qsel (fld w 52 3).toNat).bind fun s => (rmode (fld w 49 3).toNat).map fun m => .qnt (bitOf w 55) s m x
  | 0x73 => if fld w 49 7 == 0 then some (.dqnt x) else none
  | _ => none

/-- Memory words, OPC 0x80 to 0x93 (R172). -/
def parseMem (opc : Nat) (w : Dword) : Option Instr :=
  let x := unpackM w
  let fn := (fld w 52 4).toNat
  match opc with
  | 0x80 => (msize fn).map fun s => .ldVector s x
  | 0x81 => (msize fn).map fun s => .ldScalar s x
  | 0x82 => (msize fn).map fun s => .stVector s x
  | 0x83 => (msize fn).map fun s => .stScalar s x
  | 0x84 => (spsize (fld w 52 2).toNat).map fun s => .lds (ldsmode (fld w 54 2).toNat) s x
  | 0x85 => if bitOf w 55 then none else (spsize (fld w 52 2).toNat).map fun s => .sts (bitOf w 54) s x
  | 0x86 =>
    match fn with
    | 0 => some (.sptag false x)
    | 1 => some (.sptag true x)
    | _ => none
  | 0x87 => if fn = 0 then some (.spdrop x) else none
  | 0x88 => (atomop fn).map fun o => .atom o x
  | 0x89 => if fn = 0 then some (.atomcas x) else none
  | 0x8A => (atomop fn).map fun o => .red o x
  | 0x8B => some (.ldwatch (fld w 52 4) x)
  | 0x8C => if fn = 0 then some (.fence x) else none
  | 0x8D => if fn = 0 then some (.pfence x) else none
  | 0x8E => if fn = 0 then some (.cflush x) else none
  | 0x8F => if fn = 0 then some (.cinv x) else none
  | 0x90 => (preflvl fn).map fun l => .pref l x
  | 0x91 =>
    match fn with
    | 0 => some (.icpre false x)
    | 1 => some (.icpin false x)
    | 2 => some (.icunpin false x)
    | 4 => some (.icpre true x)
    | 5 => some (.icpin true x)
    | 6 => some (.icunpin true x)
    | _ => none
  | 0x92 => some (.obres (fld w 52 4) x)
  | 0x93 => some (.obrel (fld w 52 4) x)
  | _ => none

/-- Cross-lane words, OPC 0xB0 to 0xB7 (R276). -/
def parseCross (opc : Nat) (w : Dword) : Option Instr :=
  let x := unpackV w
  let fn := (fld w 49 7).toNat
  match opc with
  | 0xB0 => (voteop fn).map fun o => .vote o x
  | 0xB1 =>
    (itype (fld w 53 3).toNat).bind fun ty =>
      match (fld w 49 4).toNat with
      | 0 => some (.matchLanes ty false x)
      | 1 => some (.matchLanes ty true x)
      | _ => none
  | 0xB2 => (pullsel fn).map fun s => .pull s x
  | 0xB3 => if fn = 0 then some (.perm x) else none
  | 0xB4 => (quadsel fn).map fun s => .qswap s x
  | 0xB5 => if fn = 0 then some (.qbcast x) else none
  | 0xB6 => (rtype (fld w 53 3).toNat).bind fun ty =>
      if bitOf w 52 then none else (redop (fld w 49 3).toNat).map fun o => .redux ty o x
  | 0xB7 => (rtype (fld w 53 3).toNat).bind fun ty =>
      (redop (fld w 49 3).toNat).map fun o => .scan ty o (bitOf w 52) x
  | _ => none

/-- Privileged words, OPC 0xC0 to 0xC9 (R342). -/
def parsePriv (opc : Nat) (w : Dword) : Option Instr :=
  let x := unpackM w
  let fn := (fld w 52 4).toNat
  match opc with
  | 0xC0 => if fld w 0 56 == 0 then some .eret else none
  | 0xC1 => if fn = 0 then some (.tlbinv x) else none
  | 0xC2 => if fn = 0 then some (.ctxsave x) else none
  | 0xC3 => if fn = 0 then some (.ctxload x) else none
  | 0xC4 => if fn = 0 then some (.stoprd x) else none
  | 0xC5 => if fn = 0 then some (.resume x) else none
  | 0xC6 => if fn = 0 then some (.flood x) else none
  | 0xC7 =>
    match fn with
    | 0 => some (.dirtyh false x)
    | 1 => some (.dirtyh true x)
    | _ => none
  | 0xC8 => if fn = 0 then some (.ckpt x) else none
  | 0xC9 => if fn = 0 then some (.rollbk x) else none
  | _ => none

/-- The instruction whose opcode and function codes a wave-stream word carries; none for what R172 leaves
unassigned. -/
def parseWave (w : Dword) : Option Instr :=
  let opc := opcOf w
  if opc < 0x20 then parseControl opc w
  else if opc < 0x48 then parseInt opc w
  else if opc < 0x50 then none
  else if opc < 0x70 then
    parseFloat opc (ftype (fld w 54 2).toNat) (fld w 51 3).toNat (fld w 49 2).toNat (unpackV w)
  else if opc < 0x80 then parseConvert opc w
  else if opc < 0xB0 then parseMem opc w
  else if opc < 0xC0 then parseCross opc w
  else if opc < 0xE0 then parsePriv opc w
  else if opc < 0xF0 then some (.pairedWord (unpackP w 30) (unpackP w 0))
  else none

/-- R164 steps 1 to 3 on a word in an instruction position, apart from the clause's own class: a header is CLAUSE, OPC
0xC0 to 0xDF in user mode is ACCESS, and what is unassigned or not well formed is ILLEGAL. -/
def decodeWave (reeve : Bool) (w : Dword) : Decoded :=
  if isHeader w then .clause
  else if !reeve && decide (0xC0 ≤ opcOf w) && decide (opcOf w ≤ 0xDF) then .access
  else
    match parseWave w with
    | none => .illegal
    | some i => if i.WellFormed reeve then .ok i else .illegal

-- The matrix stream.

/-- The instruction a matrix-stream word carries, every reserved bit zero (R175, R290 to R306). -/
def parseSeq (w : Dword) : Option Instr :=
  match opcOf w with
  | 0x01 => if fld w 0 6 == 0 then some (.mmaF16 (unpackQ w)) else none
  | 0x02 => if fld w 0 6 == 0 then some (.mmaBf16 (unpackQ w)) else none
  | 0x03 => if fld w 0 6 == 0 then some (.mmaE4m3 (unpackQ w)) else none
  | 0x04 => if fld w 0 6 == 0 then some (.mmaE5m2 (unpackQ w)) else none
  | 0x05 => if fld w 0 6 == 0 then some (.mmaI8 (unpackQ w)) else none
  | 0x06 => if fld w 0 6 == 0 then some (.mmasE4m3 (unpackQ w)) else none
  | 0x07 => if fld w 0 6 == 0 then some (.mmasX4 (unpackQ w)) else none
  | 0x08 => if fld w 0 32 == 0 then some (.azero (unpackT w)) else none
  | 0x09 =>
    if fld w 0 8 == 0 then
      match (fld w 46 3).toNat with
      | 0 => some (.aloadTile (unpackA w))
      | 1 => some (.aloadMa (unpackA w))
      | _ => none
    else none
  | 0x0A => if fld w 0 8 == 0 then (astfmt (fld w 46 3).toNat).map fun f => .astore f (unpackA w) else none
  | 0x0B => if fld w 0 32 == 0 then some (.aadd (unpackT w)) else none
  | 0x0C => if fld w 0 32 == 0 then some (.acvt (unpackT w)) else none
  | 0x0D =>
    if fld w 52 3 == 0 && fld w 48 1 == 0 && fld w 0 8 == 0
    then some (.scld (bitOf w 55) (fld w 49 3) (fld w 36 12) (fld w 24 12) (fld w 8 16)) else none
  | 0x10 => if fld w 46 6 == 0 && fld w 0 40 == 0 then some (.marv (fld w 52 4) (fld w 40 6)) else none
  | 0x11 => if fld w 0 52 == 0 then some (.mwait (fld w 52 4)) else none
  | 0x12 => if fld w 0 54 == 0 then some (.mregion (fld w 54 2)) else none
  | 0x13 => if fld w 32 6 == 0 then some (.mloop (fld w 54 2) (fld w 38 16) (fld w 0 32)) else none
  | 0x14 => if fld w 32 20 == 0 then some (.mjmp (fld w 52 4) (fld w 0 32)) else none
  | 0x15 => if fld w 0 56 == 0 then some .mend else none
  | 0x16 =>
    if fld w 55 1 == 0 && fld w 24 25 == 0 && fld w 0 8 == 0
    then some (.mchk (fld w 52 3) (fld w 49 3) (fld w 8 16)) else none
  | 0x17 => if fld w 24 25 == 0 && fld w 0 8 == 0 then some (.msrd (fld w 52 4) (fld w 49 3) (fld w 8 16)) else none
  | 0x18 =>
    if fld w 0 27 == 0 then some (.inj (fld w 52 4) (fld w 44 8) (fld w 38 6) (fld w 32 6) (fld w 27 5)) else none
  | _ => none

/-- R288 step 1: a stream word is its instruction, or ILLEGAL. -/
def decodeSeq (w : Dword) : Decoded :=
  match parseSeq w with
  | none => .illegal
  | some i => if i.WellFormed false then .ok i else .illegal

-- The encoders.

/-- FN of an integer word (R172). -/
def fnI (ty : ITy) (sub : BitVec 4) : BitVec 7 := itypeCode ty ++ sub
/-- FN of a floating word (R172). -/
def fnF (ft : FTy) (mode : BitVec 3) (sub : BitVec 2) : BitVec 7 := ftypeCode ft ++ mode ++ sub
/-- OPC of the vector or scalar form (R172). -/
def opF (even : BitVec 8) (sf : Bool) : BitVec 8 := if sf then even + 1 else even
/-- An integer word. -/
def encI (even : BitVec 8) (sub : BitVec 4) (sf : Bool) (ty : ITy) (x : VF) : Dword := packV (opF even sf) (fnI ty sub) x
/-- A floating word with a rounding mode. -/
def encF (opc : BitVec 8) (ft : FTy) (m : Rm) (x : VF) : Dword := packV opc (fnF ft (rmodeCode m) 0) x

/-- The word of a wave-stream instruction; none for a matrix-stream word or a step that is no word. -/
def encodeWave : Instr → Option Dword
  | .nop => some 0
  | .bra x => some (packB 0x01 x)
  | .brx x => some (packB 0x02 x)
  | .call x => some (packB 0x03 x)
  | .callx x => some (packB 0x04 x)
  | .ret x => some (packB 0x05 x)
  | .exit x => some (packB 0x06 x)
  | .yield => some (0x07#8 ++ 0#56)
  | .trap x => some (packI 0x08 0 x)
  | .bkpt x => some (packI 0x09 0 x)
  | .sleep x => some (packI 0x16 0 x)
  | .jenr x => some (packV 0x0A 0 x)
  | .jwait x => some (packV 0x0A 1 x)
  | .jstrk x => some (packV 0x0A 2 x)
  | .weirset x => some (packI 0x0B 0 x)
  | .weirarv x => some (packI 0x0B 1 x)
  | .weirwait x => some (packI 0x0B 2 x)
  | .weirsync x => some (packI 0x0B 3 x)
  | .cbarv x => some (packI 0x0C 0 x)
  | .cbwait x => some (packI 0x0C 1 x)
  | .nexttile x => some (packV 0x0D 0 x)
  | .launch x => some (packM 0x0E 0 x)
  | .acqx x => some (packI 0x0F 0 x)
  | .relx x => some (packI 0x0F 1 x)
  | .kill sf x => some (packI 0x10 (if sf then 1 else 0) x)
  | .rest x => some (packI 0x11 0 x)
  | .region x => some (packI 0x12 0 x)
  | .part x => some (packI 0x13 0 x)
  | .srd x => some (packI 0x14 0 x)
  | .swr x => some (packI 0x14 1 x)
  | .scw x => some (packM 0x15 0 x)
  | .scr x => some (packM 0x15 1 x)
  | .scack x => some (packM 0x15 2 x)
  | .iadd sf ty x => some (encI 0x20 0 sf ty x)
  | .isub sf ty x => some (encI 0x22 0 sf ty x)
  | .imul sf ty x => some (encI 0x24 0 sf ty x)
  | .imulh sf ty x => some (encI 0x24 1 sf ty x)
  | .imad sf ty x => some (encI 0x26 0 sf ty x)
  | .imadw sf ty x => some (encI 0x26 1 sf ty x)
  | .imin sf ty x => some (encI 0x28 0 sf ty x)
  | .imax sf ty x => some (encI 0x28 1 sf ty x)
  | .iabs sf ty x => some (encI 0x2A 0 sf ty x)
  | .ineg sf ty x => some (encI 0x2A 1 sf ty x)
  | .idiv sf ty x => some (encI 0x2C 0 sf ty x)
  | .irem sf ty x => some (encI 0x2C 1 sf ty x)
  | .icmp sf ty c x => some (encI 0x2E (icondCode c) sf ty x)
  | .isel sf ty x => some (encI 0x30 0 sf ty x)
  | .and sf ty x => some (encI 0x32 0 sf ty x)
  | .or sf ty x => some (encI 0x32 1 sf ty x)
  | .xor sf ty x => some (encI 0x32 2 sf ty x)
  | .not sf ty x => some (encI 0x32 3 sf ty x)
  | .tlog sf t x => some (packV (opF (if t.getLsbD 7 then 0x36 else 0x34) sf) (t.extractLsb' 0 7) x)
  | .shl sf ty x => some (encI 0x38 0 sf ty x)
  | .shr sf ty x => some (encI 0x38 1 sf ty x)
  | .sar sf ty x => some (encI 0x38 2 sf ty x)
  | .rot sf ty x => some (encI 0x38 3 sf ty x)
  | .fshf sf ty x => some (encI 0x38 4 sf ty x)
  | .bfe sf ty x => some (encI 0x3A 0 sf ty x)
  | .bfi sf ty x => some (encI 0x3A 1 sf ty x)
  | .popc sf ty x => some (encI 0x3C 0 sf ty x)
  | .clz sf ty x => some (encI 0x3C 1 sf ty x)
  | .ctz sf ty x => some (encI 0x3C 2 sf ty x)
  | .brev sf ty x => some (encI 0x3C 3 sf ty x)
  | .bperm sf ty x => some (encI 0x3E 0 sf ty x)
  | .mov sf ty x => some (encI 0x40 0 sf ty x)
  | .movQ0Push x => some (encI 0x40 0 true .b64 x)
  | .movQ1Pop x => some (encI 0x40 0 true .b64 x)
  | .movi sf k x => some (packI (opF 0x42 sf) (movikCode k) x)
  | .rdlane ty x => some (encI 0x44 0 false ty x)
  | .bcast ty x => some (encI 0x46 0 false ty x)
  | .pairedWord h l => some (14#4 ++ packP h ++ packP l)
  | .fadd ft m x => some (encF 0x50 ft m x)
  | .fmul ft m x => some (encF 0x51 ft m x)
  | .ffma ft m x => some (encF 0x52 ft m x)
  | .fmin ft x => some (packV 0x53 (fnF ft 0 0) x)
  | .fmax ft x => some (packV 0x53 (fnF ft 0 1) x)
  | .fcmp ft c x => some (packV 0x54 (fnF ft (fcondCode c) 0) x)
  | .fclass ft x => some (packV 0x55 (fnF ft 0 0) x)
  | .frnd ft m x => some (encF 0x56 ft m x)
  | .fscale ft m x => some (encF 0x57 ft m x)
  | .fgetexp ft x => some (packV 0x58 (fnF ft 0 0) x)
  | .padd ft m x => some (encF 0x59 ft m x)
  | .pmul ft m x => some (encF 0x5A ft m x)
  | .pfma ft m x => some (encF 0x5B ft m x)
  | .rcp ft m x => some (encF 0x60 ft m x)
  | .rsq ft x => some (packV 0x61 (fnF ft 0 0) x)
  | .sqrt ft m x => some (encF 0x62 ft m x)
  | .fdiv ft m x => some (encF 0x63 ft m x)
  | .exp2 x => some (packV 0x64 0 x)
  | .log2 x => some (packV 0x65 0 x)
  | .sin x => some (packV 0x66 0 x)
  | .cos x => some (packV 0x67 0 x)
  | .tanh x => some (packV 0x68 0 x)
  | .cvt m x => some (packV 0x70 (0#4 ++ rmodeCode m) x)
  | .cvtp m x => some (packV 0x71 (0#4 ++ rmodeCode m) x)
  | .qnt n s m x => some (packV 0x72 (b1 n ++ qselCode s ++ rmodeCode m) x)
  | .dqnt x => some (packV 0x73 0 x)
  | .ldVector s x => some (packM 0x80 (msizeCode s) x)
  | .ldScalar s x => some (packM 0x81 (msizeCode s) x)
  | .stVector s x => some (packM 0x82 (msizeCode s) x)
  | .stScalar s x => some (packM 0x83 (msizeCode s) x)
  | .lds m s x => some (packM 0x84 (ldsmodeCode m ++ spsizeCode s) x)
  | .sts e s x => some (packM 0x85 (0#1 ++ b1 e ++ spsizeCode s) x)
  | .sptag f x => some (packM 0x86 (0#3 ++ b1 f) x)
  | .spdrop x => some (packM 0x87 0 x)
  | .atom o x => some (packM 0x88 (atomopCode o) x)
  | .atomcas x => some (packM 0x89 0 x)
  | .red o x => some (packM 0x8A (atomopCode o) x)
  | .ldwatch t x => some (packM 0x8B t x)
  | .fence x => some (packM 0x8C 0 x)
  | .pfence x => some (packM 0x8D 0 x)
  | .cflush x => some (packM 0x8E 0 x)
  | .cinv x => some (packM 0x8F 0 x)
  | .pref l x => some (packM 0x90 (preflvlCode l) x)
  | .icpre c x => some (packM 0x91 (0#1 ++ b1 c ++ 0#2) x)
  | .icpin c x => some (packM 0x91 (0#1 ++ b1 c ++ 1#2) x)
  | .icunpin c x => some (packM 0x91 (0#1 ++ b1 c ++ 2#2) x)
  | .obres n x => some (packM 0x92 n x)
  | .obrel n x => some (packM 0x93 n x)
  | .vote o x => some (packV 0xB0 (voteopCode o) x)
  | .matchLanes ty a x => some (packV 0xB1 (itypeCode ty ++ 0#3 ++ b1 a) x)
  | .pull s x => some (packV 0xB2 (pullselCode s) x)
  | .perm x => some (packV 0xB3 0 x)
  | .qswap s x => some (packV 0xB4 (quadselCode s) x)
  | .qbcast x => some (packV 0xB5 0 x)
  | .redux ty o x => some (packV 0xB6 (rtypeCode ty ++ 0#1 ++ redopCode o) x)
  | .scan ty o e x => some (packV 0xB7 (rtypeCode ty ++ b1 e ++ redopCode o) x)
  | .eret => some (0xC0#8 ++ 0#56)
  | .tlbinv x => some (packM 0xC1 0 x)
  | .ctxsave x => some (packM 0xC2 0 x)
  | .ctxload x => some (packM 0xC3 0 x)
  | .stoprd x => some (packM 0xC4 0 x)
  | .resume x => some (packM 0xC5 0 x)
  | .flood x => some (packM 0xC6 0 x)
  | .dirtyh f x => some (packM 0xC7 (0#3 ++ b1 f) x)
  | .ckpt x => some (packM 0xC8 0 x)
  | .rollbk x => some (packM 0xC9 0 x)
  | _ => none

/-- The word of a matrix-stream instruction; none for every other. -/
def encodeSeq : Instr → Option Dword
  | .mmaF16 q => some (packQ 0x01 q)
  | .mmaBf16 q => some (packQ 0x02 q)
  | .mmaE4m3 q => some (packQ 0x03 q)
  | .mmaE5m2 q => some (packQ 0x04 q)
  | .mmaI8 q => some (packQ 0x05 q)
  | .mmasE4m3 q => some (packQ 0x06 q)
  | .mmasX4 q => some (packQ 0x07 q)
  | .azero t => some (packT 0x08 t)
  | .aloadTile a => some (packA 0x09 0 a)
  | .aloadMa a => some (packA 0x09 1 a)
  | .astore f a => some (packA 0x0A (astfmtCode f) a)
  | .aadd t => some (packT 0x0B t)
  | .acvt t => some (packT 0x0C t)
  | .scld e4 r i c n => some (0x0D#8 ++ b1 e4 ++ 0#3 ++ r ++ 0#1 ++ i ++ c ++ n ++ 0#8)
  | .marv w c => some (0x10#8 ++ w ++ 0#6 ++ c ++ 0#40)
  | .mwait w => some (0x11#8 ++ w ++ 0#52)
  | .mregion m => some (0x12#8 ++ m ++ 0#54)
  | .mloop l c o => some (0x13#8 ++ l ++ c ++ 0#6 ++ o)
  | .mjmp c o => some (0x14#8 ++ c ++ 0#20 ++ o)
  | .mend => some (0x15#8 ++ 0#56)
  | .mchk n r i => some (0x16#8 ++ 0#1 ++ n ++ r ++ 0#25 ++ i ++ 0#8)
  | .msrd s r i => some (0x17#8 ++ s ++ r ++ 0#25 ++ i ++ 0#8)
  | .inj t c i j b => some (0x18#8 ++ t ++ c ++ i ++ j ++ b ++ 0#27)
  | _ => none

/-- The instruction the wave-stream decoder reads, in reeve mode (the mode in which the most words are assigned, R180),
from an instruction whose bits are `w` as the opcode table numbers them. -/
def decodeTableWord (_nbits w : Nat) : Option Instr :=
  match decodeWave true (BitVec.ofNat 64 w) with
  | .ok i => some i
  | .clause | .access | .illegal => none

end Sys2Proof
end

