-- ==== Sys2Proof/Machine/Tab.lean ====
section
/-! DEFINITION. Sparse tables: lists of numbered entries, read with a default, so that a register file or a table
of objects is plain data and only what differs from its reset value is listed. -/

namespace Sys2Proof.Machine

/-- A table of numbered entries, ascending. -/
abbrev Tab (α : Type) := List (Nat × α)

/-- The entry numbered k, or the default. -/
def tget {α : Type} (t : Tab α) (d : α) (k : Nat) : α :=
  match t with
  | [] => d
  | (k', v) :: r => if k = k' then v else tget r d k

/-- The entry numbered k, if one is listed. -/
def tfind {α : Type} (t : Tab α) (k : Nat) : Option α :=
  match t with
  | [] => none
  | (k', v) :: r => if k = k' then some v else tfind r k

/-- Sets the entry numbered k. -/
def tset {α : Type} (t : Tab α) (k : Nat) (v : α) : Tab α :=
  match t with
  | [] => [(k, v)]
  | (k', v') :: r =>
    if k < k' then (k, v) :: (k', v') :: r
    else if k = k' then (k, v) :: r
    else (k', v') :: tset r k v

/-- Removes the entry numbered k, so that it reads as the default. -/
def tdel {α : Type} (t : Tab α) (k : Nat) : Tab α := t.filter fun e => e.1 ≠ k

end Sys2Proof.Machine
end

