-- ==== Sys2Proof/Machine/State.lean ====
section
/-! DEFINITION. The machine's state as plain data, everything the spec gives the machine (INVENTORY.md names the
rule of each field), and the machine as it stands at the end of the boot sequence of R415. -/

namespace Sys2Proof.Machine

/-- Why a step can stop for good. -/
inductive Fault
  /-- Raised by `step` when the boot sequence of R415 stopped at step 2 (an image whose measurement differs): no
  engine runs. Safe: the spec says that the device stays stopped. -/
  | bootStopped
  deriving DecidableEq, Repr

/-- Why a step can have no meaning. -/
inductive Refusal
  /-- Raised by the dispatch for an instruction that has no meaning in this model. Safe: nothing is claimed of it. -/
  | notModelled (mnemonic : String)
  deriving DecidableEq, Repr

/-- The fault classes of R32. -/
inductive FClass
  | illegal | clause | access | align | xlate | rdead | spoff | scstale | scrange | weircount | budget | launch
  | retloss | eccfatal | swtrap | brk | flood
  deriving DecidableEq, Repr

/-- One 32-bit value for each lane. -/
abbrev LaneVec := Vector Word 32

-- Waves.

/-- Lane states of R10. -/
inductive LaneState | live | helper | exited | never
  deriving DecidableEq, Repr

/-- A call record (R187); the targets of lanes in groups not yet run are their LPCs. -/
structure CallRec where
  ret : Nat
  held : LaneMask
  waiting : LaneMask
  running : LaneMask
  deriving DecidableEq, Repr

/-- Where a wave stands inside a clause (R161): header address, header word, index of the next word, YLD seen. -/
structure ClauseSt where
  hdrAt : Nat
  hdr : Dword
  pos : Nat
  yld : Bool := false
  deriving DecidableEq, Repr

/-- Why a wave is parked (R27, R206), with what the wait needs. An LDWATCH keeps the deadline and the epoch of its issue
(R126, R252), also while a page that it watches is not mapped (`watchMiss`). -/
inductive Park
  | weir (n : Nat) (phase : Word) (sync : Bool)
  | cbwait (n : Nat) (phase : Word)
  | cbarv (n : Nat) (phase : Word)
  | acqx (n : Nat)
  | ldwatch (deadline : Option Nat) (epoch : Word)
  | sleep (deadline : Nat)
  | q0
  | q1
  | launch
  | tag
  | miss
  | fetchMiss (va : Nat)
  | watchMiss (va : Nat) (deadline : Option Nat) (epoch : Word)
  | event
  deriving DecidableEq, Repr

/-- What a pending result waits for that is not a held access: the end of the park of the word that made it (R44, R52), the completion
of an SCW of a context's entry (R127), the installation or clearing of an operand-buffer record of the core (R258, R259), the
completion of the copy commands that a PFENCE covers (R254). -/
inductive PendWhy
  | parked
  | scw (ctx n : Nat)
  | ob (n : Nat)
  | copies (ids : List Nat)
  deriving DecidableEq, Repr

/-- A result not yet committed, or an open window (R49 to R51, R55): destination, data of up to four registers, issue
mask, remaining count, slot, whether the slot counts it (that of a q0 push counted down at issue, R52), whether the data has
arrived, what it waits for where no access is held for it, and the word that made it (R48). -/
structure Pend where
  file : RFile := .v
  reg : Nat := 0
  n : Nat := 0
  data : List LaneVec := []
  mask : LaneMask := 0
  remain : Nat := 0
  slot : Option Nat := none
  counts : Bool := true
  arrived : Bool := true
  why : Option PendWhy := none
  word : Dword := 0
  deriving DecidableEq, Repr

/-- Supply states of R38 and R86. -/
inductive Supply | full | retain | off
  deriving DecidableEq, Repr

/-- A register bank or scratchpad bank: supply state, a wake in progress and the word that began it (R48), since when it has been
idle, a parity error waiting to be found (R48, R93), TAKEN (R91). -/
structure Bank where
  st : Supply := .off
  waking : Bool := false
  waker : Dword := 0
  idle : Option Nat := none
  bad : Bool := false
  taken : Bool := false
  deriving DecidableEq, Repr

/-- When a word issued on its die: REFT, and the issue-enabled cycles that its polder had had on the die, in sixteenths (R319, R320). -/
structure Stamp where
  reft : Nat := 0
  ran : Nat := 0
  deriving DecidableEq, Repr

/-- An LSU access parked on a miss, held by a delayed fault (R34, R419, R420), or one that waits, in a crossing FIFO of a die that
relocks, for a peer, or at a memory controller without a token (R318, R365, R414: `fifo`; `dry` names the controller at which it waits
as tokenless, and the polder): `live`
the lanes of its mask that are checked and may park or fault (R244), `bad` the fault found for it, `stamp` the moment of its issue. -/
structure HeldAcc where
  word : Dword
  pc : Nat := 0
  mask : LaneMask
  live : LaneMask := 0
  addrs : Vector Dword 32
  data : Vector (BitVec 128) 32
  epoch : Word := 0
  va : Nat := 0
  bad : Option FClass := none
  fifo : Bool := false
  dry : Option (Nat × Nat) := none
  stamp : Stamp := {}
  deriving DecidableEq, Repr

/-- A wave (R9, R35). `stopAs` holds the fault that stopped it and its word, which say where RESUME continues (R379). `jlast` holds the addresses of the JWAITs at which lanes are parked, the latest first, with those lanes
(R188). -/
structure Wave where
  here : Bool := false
  breg : Nat := 8
  xb : Nat := 0
  v : Tab LaneVec := []
  vlive : BitVec 256 := 0
  sreg : Tab Word := []
  slive : BitVec 64 := 0
  kreg : Tab LaneMask := []
  jreg : Tab LaneMask := []
  sb : Tab Nat := []
  partreg : Word := 0
  fpflags : Word := 0
  view : BitVec 16 := 0xFFFF
  acked : Tab Word := []
  srseed : LaneVec := Vector.replicate 32 0
  tgtw : Word := 0
  lst : Vector LaneState 32 := Vector.replicate 32 LaneState.never
  lpc : Vector Dword 32 := Vector.replicate 32 0
  lhdr : Vector (Option Nat) 32 := Vector.replicate 32 none
  jpark : Vector (Option Nat) 32 := Vector.replicate 32 none
  jlast : List (Nat × LaneMask) := []
  calls : List CallRec := []
  group : LaneMask := 0
  clause : Option ClauseSt := none
  park : Option Park := none
  parkI : Option Instr := none
  parkSince : Nat := 0
  pend : List Pend := []
  banks : Tab Bank := []
  weirLast : Tab Word := []
  cbLast : Tab Word := []
  stage : List Dword := []
  tokens : List Dword := []
  held : List HeldAcc := []
  tagLeft : LaneMask := 0
  tagGot : LaneVec := Vector.replicate 32 0
  fences : List (Nat × List Nat) := []
  waited : Nat := 0
  hwait : Option Nat := none
  stopped : Bool := false
  stopAs : Option (FClass × Dword) := none
  exitWait : Bool := false
  done : Bool := false
  deriving DecidableEq, Repr

-- Crews.

/-- A weir (R194). -/
structure Weir where
  armed : Nat := 0
  a : Nat := 0
  p : Word := 0
  deriving DecidableEq, Repr

/-- A cluster barrier (R195): waves that have arrived in the phase, and the phase. -/
structure CBar where
  arrived : List Key := []
  p : Word := 0
  deriving DecidableEq, Repr

/-- A scratchpad word and its tag (R85). -/
structure SpWord where
  data : Word := 0
  full : Bool := false
  deriving DecidableEq, Repr

/-- Kinds of parked scratchpad accesses (R88). -/
inductive TagKind | ldsf | ldst | stse
  deriving DecidableEq, Repr

/-- One lane waiting on a scratchpad word, in the order in which they parked (R88). -/
structure TagWait where
  wave : Nat
  lane : Nat
  word : Nat
  kind : TagKind
  data : Word := 0
  deriving DecidableEq, Repr

/-- State of a matrix sequencer's run (R138, R285). -/
inductive SeqRun | off | run | parked | faulted | ended
  deriving DecidableEq, Repr

/-- The operand latch of a sequencer (R144): its A-side scales once an MMAS has read them, with the block length for which they were
read (R145). -/
structure Latch where
  ra : Nat
  aoff : Nat
  fmt : Nat
  bytes : List Byte
  scales : Option (List (BitVec 16)) := none
  blk : Nat := 32
  deriving DecidableEq, Repr

/-- A matrix sequencer (R285); `half` is the half of scale memory it addresses (R97), `rows` the rows that the ASTORE at MPC has
stored (R307), `dry` the controller at which it waits as tokenless, and the polder (R365). -/
structure Seq where
  st : SeqRun := .off
  half : Nat := 0
  mpc : Nat := 0
  ma : Tab Dword := []
  lcAct : Tab Bool := []
  lcCnt : Tab Nat := []
  seen : Tab Word := []
  latch : Option Latch := none
  begun : Bool := false
  rows : List Nat := []
  missVa : Option Nat := none
  dry : Option (Nat × Nat) := none
  stopped : Bool := false
  deriving DecidableEq, Repr

/-- Whether a crew runs (R15, R344, R359). -/
inductive CrewSt | absent | running | loaded
  deriving DecidableEq, Repr

/-- A resident crew (R15, R17, R202); `metered` and `fedCtrs` are what metering has taken of its issued instructions and of its counters
already (R368). -/
structure Crew where
  st : CrewSt := .absent
  ctx : Nat := 0
  lrec : List Dword := []
  queue : Nat := 0
  recIdx : Nat := 0
  launch : Nat := 0
  unit : Nat := 0
  rank : Nat := 0
  crewid : Word := 0
  nwave : Nat := 0
  spbN : Nat := 0
  xblk : Nat := 0
  regionMode : BitVec 2 := 0
  spauto : Word := 0
  thr : Tab Nat := []
  thrCause : Nat := 0
  thrEpis : Nat := 0
  luign : Word := 0
  uhmiss : Word := 0
  sched : List Word := []
  cursor : Nat := 0
  weirs : Tab Weir := []
  cbars : Tab CBar := []
  sp : Tab SpWord := []
  spb : Tab Bank := []
  spdrop : Word := 0
  tagq : List TagWait := []
  chk : List (List Dword) := []
  chkSeq : Word := 0
  ctrs : Tab Nat := []
  fedCtrs : Tab Nat := []
  seq : Seq := {}
  issued : Nat := 0
  metered : Nat := 0
  since : Nat := 0
  drainBy : Option Nat := none
  drainFor : Option (Nat × Nat) := none
  dormant : Option Nat := none
  idem : Bool := false
  deriving DecidableEq, Repr

-- Cores.

/-- State of a copy command in the queue (R260, R383): `posted` says that its token is posted and its arrival is not
(R271). -/
inductive CopySt | queued | running | missed | posted
  deriving DecidableEq, Repr

/-- A copy command accepted by the engine (R260 to R271, R383): its words, who pushed it, the unit and format its
record named at acceptance (R266), and the beats performed: every one below the watermark, and those listed (R383); `dry` names the
controller at which a beat waits as tokenless, and the polder (R365); `carry` holds source words by destination byte that a beat has read
with the other half of their aligned 64-bit part (R136). -/
structure CopyEnt where
  cmd : CopyCmd
  cslot : Nat
  wave : Nat
  id : Nat
  base : Nat := 0
  fmt : Nat := 0
  st : CopySt := .queued
  mark : Nat := 0
  more : List Nat := []
  missVa : Nat := 0
  dry : Option (Nat × Nat) := none
  carry : Tab Word := []
  stopped : Bool := false
  deriving DecidableEq, Repr

/-- A reservation record of the operand buffer (R94). -/
structure ObRec where
  v : Bool := false
  own : Nat := 0
  fmt : Nat := 0
  blk : Bool := false
  base : Nat := 0
  len : Nat := 0
  asb : Nat := 0
  astr : Nat := 0
  bsb : Nat := 0
  bstr : Nat := 0
  deriving DecidableEq, Repr

/-- An accumulator tile (R96): its owner's crew slot, and its elements by 64i + j; an unlisted element is +0. -/
structure Tile where
  own : Option Nat := none
  el : Tab Word := []
  deriving DecidableEq, Repr

/-- What the engine is doing with a matrix product (R140, R150). -/
inductive MmaPhase | attempt | correct | reissue
  deriving DecidableEq, Repr

/-- A matrix product that has been issued (R147, R291): whose it is, its word and address, its mode, format and tile, what its
records named then (R258), its scale indices, whether it uses the latch and what it leaves there (R144), and the sequencer as it
stood at the word. -/
structure Product where
  cslot : Nat
  word : Dword
  mpc : Nat
  mode : Nat
  fmt : Nat
  scaled : Bool
  blk : Nat
  acc : Nat
  zero : Bool
  hold : Bool
  ra : Nat
  rb : Nat
  aoff : Nat
  aUnit : Nat
  bUnit : Nat
  aIdx : List Nat
  bIdx : List Nat
  latched : Bool
  kept : Bool
  back : Seq
  deriving DecidableEq, Repr

/-- A matrix product in the engine (R150): the operands and scales read at its first attempt (R287), with the block length for which
the A-side scales were formed (R145), the old tile and the result of the current attempt; what its attempts have counted so far, the lines that failed in the current attempt and in attempt 1, and
the latch as it found it, and the element in which attempt 1 carried an injected bit (R159). -/
structure Attempt extends Product where
  phase : MmaPhase := .attempt
  num : Nat := 1
  aOp : List Byte
  bOp : List Byte
  aSc : List (BitVec 16)
  bSc : List (BitVec 16)
  aBlk : Nat := 32
  old : List Word
  got : List Word
  below : Bool
  counted : Bool
  failRows : List Nat := []
  failCols : List Nat := []
  rowf : Dword := 0
  colf : Dword := 0
  det : Nat := 0
  ran : Nat := 0
  ovt : Nat := 0
  before : Option Latch := none
  strike : Option (Nat × Nat) := none
  deriving DecidableEq, Repr

/-- An armed injection (R159). -/
structure Inject where
  ctx : Nat
  tile : Nat
  row : Nat
  col : Nat
  bit : Nat
  deriving DecidableEq, Repr

/-- Supply mode of a matrix island (R394 to R397). -/
inductive IslandMode | guarded | over | step | off
  deriving DecidableEq, Repr

/-- The freeboard state of a matrix island (R394): its mode, FORCE, when a hold will have raised it to VG (R148), setpoint (0: never
moved from VG), credit, counts of the last and of the current window, totals, when a crew with MSTR = 1 last left, the REFT at which a window last
closed. -/
structure Island where
  mode : IslandMode := .off
  force : Bool := false
  riseBy : Option Nat := none
  vset : Nat := 0
  cred : Nat := 0
  wovt : Nat := 0
  watt : Nat := 0
  gsteps : Nat := 0
  ovtot : Nat := 0
  wn : Nat := 0
  wo : Nat := 0
  idleAt : Nat := 0
  closedAt : Option Nat := none
  deriving DecidableEq, Repr

/-- Issue state of a quadrant (R25): wave that issued the previous clause, its YLD, wave inside a clause, quadrant
cycles, ACQX requests in order (R23). -/
structure Quad where
  last : Option Key := none
  lastYld : Bool := false
  inClause : Option Key := none
  cyc : Nat := 0
  acq : List Key := []
  deriving DecidableEq, Repr

/-- A compute core or reeve core (R2). `issued` holds the matrix products that wait for the engine, in the order of their issue,
`attempt` the one in it, `fixing` those in correction (R140, R151). -/
structure CoreSt where
  ob : Tab Byte := []
  obOwner : Tab Nat := []
  obrec : Tab ObRec := []
  obWait : Tab (Option ObRec) := []
  tiles : Tab Tile := []
  scale : Tab (BitVec 16) := []
  seqs : Tab Nat := []
  issued : List Product := []
  attempt : Option Attempt := none
  fixing : List Attempt := []
  engLast : Option Nat := none
  copyq : List CopyEnt := []
  copyId : Nat := 0
  q0wait : List Key := []
  inj : Option Inject := none
  quads : Tab Quad := []
  island : Island := {}
  pinDrop : Nat := 0
  usedAt : Nat := 0
  deriving DecidableEq, Repr

-- Clusters, dies.

/-- A cluster's lending state (R362). -/
structure Cluster where
  runner : Option Nat := none
  lent : Bool := false
  lendable : Option Nat := none
  recallBy : Option Nat := none
  deriving DecidableEq, Repr

/-- Step of a die's clock change in progress (R399). -/
inductive DieStep | none | rise (f : Nat) | relock (f : Nat)
  deriving DecidableEq, Repr

/-- An event record (R339). -/
structure Event where
  kind : Nat
  handle : Word
  w1 : Dword
  w2 : Dword
  key : Nat := 0
  deriving DecidableEq, Repr

/-- A die (R398, R202). `hotAt` tells since when it has been above its trip limit, `tgtHot` that the thermal trip wrote TGT (R399). -/
structure Die where
  cur : Nat := 0
  tgt : Nat := 0
  rel : Bool := false
  thm : Bool := false
  cyc : Nat := 0
  ncyc : Nat := 0
  phase : Nat := 0
  stepping : DieStep := .none
  relockAt : Nat := 0
  hotAt : Option Nat := none
  tgtHot : Bool := false
  evq : List Event := []
  evec : Dword := 0
  credits : Tab Int := []
  rot : Nat := 0
  replays : Nat := 0
  deriving DecidableEq, Repr

-- Contexts, polders, queues.

/-- The derived sets of a scope entry (R113). -/
structure Scope where
  v : Bool := false
  mask : BitVec 252 := 0
  slice : BitVec 64 := 0
  host : Bool := false
  bz : Bool := false
  hbm : Bool := false
  peer : BitVec 16 := 0
  deriving DecidableEq, Repr

/-- A programmable scope entry (R113, R126, R127): current image, epoch, and the images of older epochs that held
accesses still carry. -/
structure ScopeEnt where
  img : Scope := {}
  epoch : Word := 0
  old : List (Word × Scope) := []
  deriving DecidableEq, Repr

/-- Engines that write stop records (R378). -/
inductive EngKind | wave | seq | copy | fabric | mem
  deriving DecidableEq, Repr

/-- A stop record (R378); `cls` none is class 0x00. -/
structure StopRec where
  cls : Option FClass := none
  eng : EngKind := .wave
  key : Nat := 0
  prec : Bool := false
  atc : Bool := false
  hdr : Bool := false
  wpos : Nat := 0
  handle : Word := 0
  pc : Nat := 0
  det : Dword := 0
  word : Dword := 0
  reft : Nat := 0
  mask : Word := 0
  beats : Nat := 0
  deriving DecidableEq, Repr

/-- What a translation miss has parked (R34, R373, R374): a wave's memory word, a word or fetch at which a wave waits, a
sequencer, a copy command of a core (by its id), a launch queue's ring slot. -/
inductive MissWho
  | data (wave : Key)
  | front (wave : Key)
  | seq (crew : Key)
  | copy (core id : Nat)
  | queue (q : Nat)
  deriving DecidableEq, Repr

/-- A launch accepted and not complete (R18, R28, R355): its record, the units dispatched, the crews completed, in all and by unit
(R345), and the instructions they issued (R359). -/
structure Launch where
  id : Nat
  queue : Nat
  idx : Nat
  ctx : Nat
  lrec : List Dword
  device : Bool
  next : Nat := 0
  doneCrews : Nat := 0
  doneOf : Tab Nat := []
  issuedSum : Nat := 0
  prio : Nat := 0
  deriving DecidableEq, Repr

/-- A crew's stream as a save finds it (R160, R287): the words of its image that name its position, the sequencer itself, and the products
issued and not executed, behind which later words of the stream may have taken effect. -/
structure Stream where
  words : List Dword
  seq : Seq
  prods : List Product
  deriving DecidableEq, Repr

/-- A crew set aside by the dispatcher (R359, R361): its image, or none where it restarts; where it was, and the launch and
unit for which it made room (R356); the instructions it had issued (R359), the scope epochs that its held accesses carry
(R127), the SCWs of its waves that are not complete, by wave, slot and entry (R204), and its stream. -/
structure SavedCrew where
  launch : Nat
  unit : Nat
  rank : Nat
  image : Option (List Dword)
  ctx : Nat
  key : Key
  waitFor : Option (Nat × Nat) := none
  issued : Nat := 0
  carries : List (Nat × Word) := []
  scws : List (Nat × Nat × Nat) := []
  stream : Option Stream := none
  deriving DecidableEq, Repr

/-- A crew image that CTXSAVE or CKPT wrote: where the crew was, where the image lies, and which crew of which launch it is
(R337, R343, R347); the waves that it holds, the instructions it had issued (R359), the scope epochs that its held accesses carry
(R127), the SCWs of its waves that are not complete (R204), and its stream. -/
structure ImgRef where
  key : Key
  addr : Nat
  launch : Nat
  unit : Nat
  rank : Nat
  waves : List Nat := []
  issued : Nat := 0
  carries : List (Nat × Word) := []
  scws : List (Nat × Nat × Nat) := []
  stream : Option Stream := none
  deriving DecidableEq, Repr

/-- A context (R334, R375, R387): its descriptor stands in memory. `unrep` holds its parked accesses not yet reported,
oldest first, with their addresses (R373); `qwait` the queues that wait on a ring slot (R354); `imgs` the images of its crews
that CTXSAVE wrote (R337, R343); `ckImgs`, `ckLaunches` and `ckSaved` what its newest checkpoint holds, made at `ckTime`, and
`stsSince` whether a status word has been written since (R347, R348, R359); `discarded` says that ROLLBK has discarded the stop
records of the stop in force (R348). -/
structure Ctx where
  scopes : Tab ScopeEnt := []
  up : Bool := false
  byFlood : Bool := false
  recs : List StopRec := []
  discarded : Bool := false
  told : Bool := false
  unrep : List (MissWho × Nat) := []
  qwait : Tab Nat := []
  slice : Nat := 0
  logging : Bool := false
  undoFill : Nat := 0
  logged : List Nat := []
  ctrs : Tab Nat := []
  ckptAt : Nat := 0
  imgs : List ImgRef := []
  ckImgs : List ImgRef := []
  ckLaunches : List Launch := []
  ckSaved : List SavedCrew := []
  ckTime : Nat := 0
  stsSince : Bool := false
  deriving DecidableEq, Repr

/-- A polder (R365, R366, R368, R404): its table entry stands in memory. `ran` counts its issue-enabled cycles on each die, in sixteenths
(R320). `meter` counts what has not reached the Zesis
controller yet, `total` what has, up to `fedAt`;
`moved` the bytes moved on a path that do not make up a token yet (R364); `refilled` is the REFT of the last refill of a bucket, plus 1; `pinMiss` counts the HOME 1 lines that met a full limit (R100). -/
structure Polder where
  pinMiss : Nat := 0
  ctrs : Tab Nat := []
  rel : Tab Nat := []
  buckets : Tab Nat := []
  moved : Tab Nat := []
  ran : Tab Nat := []
  drawn : Nat := 0
  meter : Tab Nat := []
  total : Tab Nat := []
  fedAt : Nat := 0
  refilled : Tab Nat := []
  deriving DecidableEq, Repr

-- Package.

/-- A byte held by a cluster's data caches (R98): its value, whether it is dirty, the context that wrote it (512 for firmware), and
the HOME of the page through which it did (R100). -/
structure CByte where
  val : Byte := 0
  dirty : Bool := false
  writer : Nat := 512
  home : Nat := 0
  deriving DecidableEq, Repr

/-- An instruction line (R103, R104) with the crews that pin it. -/
structure ILine where
  bytes : List Byte
  pins : List Nat := []
  deriving DecidableEq, Repr

/-- Where a TLB entry is held (R372): the L1 TLB of a core, or the TLB of a cluster. -/
inductive TlbAt | core (n : Nat) | cluster (n : Nat)
  deriving DecidableEq, Repr

/-- A TLB entry (R372): context or polder tag, page, frame, permissions, HOME, T and D, and the TLB that holds it. -/
structure TlbEnt where
  ctx : Nat
  polder : Nat
  g : Bool
  va : Nat
  size : Nat
  pa : Nat
  rd : Bool
  wr : Bool
  ex : Bool
  u : Bool
  home : Nat
  t : Nat
  d : Bool
  loc : TlbAt
  deriving DecidableEq, Repr

/-- A non-leaf entry in the walk caches of a die (R372): context, level, the address bits that lead to it, and the table it
names. -/
structure WalkEnt where
  die : Nat
  ctx : Nat
  lvl : Nat
  va : Nat
  next : Nat
  deriving DecidableEq, Repr

/-- A line resident in an L2 slice (R98, R100): pinned by a HOME 1 page, that page's context (512 for firmware) and address, and the
polder whose access allocated it; while it is dirty, what memory holds of it and the context that last wrote it, and whether its code
has failed beyond correction (R384, R402). -/
structure L2Line where
  line : Nat
  pinned : Bool := false
  ctx : Nat := 512
  page : Nat := 0
  polder : Nat
  old : Option (List Byte) := none
  writer : Nat := 512
  bad : Bool := false
  deriving DecidableEq, Repr

/-- A line that an agent has begun to rewrite (R104): the agent and its cluster, the line as it was before, and whether the agent has
released it since. -/
structure Rewrite where
  eng : EngKind
  key : Nat
  cl : Nat
  line : Nat
  old : List Byte
  released : Bool := false
  deriving DecidableEq, Repr

/-- What a bulk copy engine has been given (R105, R391): the polder it works for, source and destination, and the bytes left. -/
structure BulkJob where
  polder : Nat
  src : Nat
  dst : Nat
  left : Nat
  deriving DecidableEq, Repr

/-- A registration of the package barrier unit (R319, R320): word, polder, participants N, threshold in ns, rounds closed,
the round's arrivals (die and stamp), and by die the duty, the issue-enabled cycles at its departure in sixteenths, its latest span,
and the duty at which it is slowed now; the waves that have arrived at the word. -/
structure Barrier where
  addr : Nat
  polder : Nat
  n : Nat
  thr : Nat
  round : Nat := 0
  arrivals : List (Nat × Nat) := []
  duty : Tab Nat := []
  depart : Tab Nat := []
  span : Tab Nat := []
  slow : Tab Nat := []
  users : List Key := []
  deriving DecidableEq, Repr

/-- An operation for a peer that waits for its response (R414): who made it, the lane or part, the
address on the bus and the engine's own for it, what it writes, and whether the response has come. -/
structure PeerOp where
  id : Nat
  eng : EngKind
  key : Nat
  lane : Nat
  addr : Nat
  va : Nat
  write : Bool
  data : BitVec 128
  size : Nat
  since : Nat
  answered : Bool := false
  deriving DecidableEq, Repr

/-- A UALink port (R406, R412): `silent` says that its peers give no responses, although it does not retrain (R414). -/
structure Port where
  down : Bool := false
  silent : Bool := false
  spared : Bool := false
  refused : Nat := 0
  deriving DecidableEq, Repr

/-- Life-cycle states of R417. -/
inductive LifeCycle | manufacture | provisioned | deployed | returned
  deriving DecidableEq, Repr

/-- Registers and memories of the package and of the Zesis controller. `dcache` holds the bytes of a cluster's data caches, which are
coherent among themselves, and `l1` the lines of each core's L1 data cache, the latest used first (R98); `l2` the lines of each
slice and `pinLim` its limit on pinned ones (R100); `rewrites` the lines whose rewriting is not released (R104); `bulk` the bulk copy engines and `bulkUsed` the bytes they have moved for each
polder (R350); `coreMap` the physical core of each logical one (R5); `flr` the polders whose Function Level Reset is in progress
(R411); `scrubBad` counts the lines of memory that scrubs found uncorrectable (R403); `phaseStep` tells how far a regulator phase of a rail is
in coming in: 1 while borrowers are reduced, 2 while every polder is (R406); `boot` is the boot step, with the two images of
the last power-good or reset (R415). -/
structure Pkg where
  dcache : Tab (Tab CByte) := []
  l1 : Tab (List Nat) := []
  l2 : Tab (List L2Line) := []
  pinLim : Tab Nat := []
  rewrites : List Rewrite := []
  walks : List WalkEnt := []
  bulk : Tab BulkJob := []
  bulkUsed : Tab Nat := []
  coreMap : Tab Nat := []
  icore : Tab (Tab ILine) := []
  iclus : Tab (Tab ILine) := []
  narrow : Tab (BitVec 32) := []
  tlb : List TlbEnt := []
  barriers : List Barrier := []
  reports : List (List Dword) := []
  hostEvents : List (List Dword) := []
  vfs : List Nat := []
  flr : List Nat := []
  scrubBad : Nat := 0
  boot : Nat := 6
  fwImg : BootImg := .ordinary
  reeveImg : BootImg := .ordinary
  bootStopped : Bool := false
  life : LifeCycle := .deployed
  wear : List (List Dword) := []
  ownMeter : Tab (Tab Nat) := []
  repSeq : Tab Nat := []
  outbox : List (List Dword) := []
  ports : Tab Port := []
  peerOps : List PeerOp := []
  peerId : Nat := 0
  vg : Tab Nat := []
  drop : Tab Nat := []
  fbmax : Tab Nat := []
  vnom : Tab Nat := []
  vmin : Tab Nat := []
  bootm : Tab Nat := []
  rail : Tab Nat := []
  phases : Tab Nat := []
  phaseStep : Tab Nat := []
  eccBad : List Nat := []
  lineBad : List (Nat × Nat) := []
  fids : Tab Nat := []
  deriving DecidableEq, Repr

/-- What happens next where the spec leaves the order open (INVENTORY.md, Agents): an internal or outside event, the next
word of the engine in focus, a change of focus, time passing, an eviction, a hidden error arising, a debug stop requested
from outside (R334), an ASTORE that stores some of its rows (R307), a port's peers falling silent or answering again (R414), the
next step of the boot sequence (R415), or a die's temperature falling below its trip limit (R399). -/
inductive Act
  | event (i : Instr)
  | word
  | focus (k : Key) (seq : Bool)
  | elapse (ticks : Nat)
  | evictLine (cluster line : Nat)
  | evictILine (core line : Nat)
  | evictIClus (cluster line : Nat)
  | evictL1 (core line : Nat)
  | evictL2 (slice line : Nat)
  | evictTlb (i : Nat)
  | evictWalk (i : Nat)
  | bulkStart (engine polder src dst n : Nat)
  | bulkBeat (engine : Nat)
  | outsideWrite (addr : Nat) (b : Byte)
  | bankParity (w : Key) (bank : Nat)
  | spParity (crew bank : Nat)
  | memError (line : Nat)
  | lineError (cluster line : Nat)
  | debugStop (w : Key)
  | storeRows (rows : List Nat)
  | l2Error (line : Nat)
  | portSilent (port : Nat) (on : Bool)
  | bootStep
  | cooled (die : Nat)
  deriving DecidableEq, Repr

/-- The machine. -/
structure State where
  agenda : List Act := []
  cur : Key := 0
  onSeq : Bool := false
  freeCtr : Nat := 0
  reft : Nat := 0
  mem : List Host.Cell := []
  pkg : Pkg := {}
  dies : Tab Die := []
  ctxs : Tab Ctx := []
  polders : Tab Polder := []
  launches : List Launch := []
  saved : List SavedCrew := []
  launchId : Nat := 0
  cores : Tab CoreSt := []
  clusters : Tab Cluster := []
  crews : Tab Crew := []
  waves : Tab Wave := []
  deriving DecidableEq, Repr

-- Numbers of objects (R3, R9, R421).

/-- Reeve core of die d in the numbering of crew keys. -/
def reeveCore (d : Nat) : Nat := 252 + d
/-- Crew key of a crew slot. -/
def crewKey (core cslot : Nat) : Nat := core * 16 + cslot
/-- Wave key of a wave of a crew. -/
def waveKey (crew w : Nat) : Nat := crew * 32 + w

/-- A register never written, at reset (R415 step 4). -/
def zeroLanes : LaneVec := Vector.replicate 32 0

/-- Reset value of the SRSEED of lane L of WAVEID w (R71). -/
def srseedReset (w : Nat) : LaneVec :=
  Vector.ofFn fun l : Fin 32 =>
    let x : Word := BitVec.ofNat 32 ((32 * w + l.val) * 0x9E3779B9)
    if x = 0 then 1 else x

/-- A reeve wave at the end of R415 step 5: parked, every register DEAD, allotment 64 (R421). -/
def Wave.reeve (w : Nat) : Wave :=
  { here := true, breg := 64, srseed := srseedReset w, lst := Vector.replicate 32 LaneState.live, park := some .event }

/-- A reeve crew (R421). -/
def Crew.reeve : Crew := { st := .running, nwave := 32, spbN := 16 }

/-- The wave a key reads as while nothing has been written to it: a reeve wave on a reeve core, else none. -/
def Wave.fresh (k : Key) : Wave :=
  if decide (252 ≤ k / 512) && decide (k / 512 < 256) && decide (k / 32 % 16 < 2) then Wave.reeve (k % 32) else {}

/-- The crew a key reads as while nothing has been written to it. -/
def Crew.fresh (k : Key) : Crew :=
  if decide (252 ≤ k / 16) && decide (k / 16 < 256) && decide (k % 16 < 2) then Crew.reeve else {}

/-- DESIGN CHOICE: values the Zesis controller sets at boot and the spec does not give (log 5). -/
def dtBase : Nat := 0x0_1000_0000
/-- DESIGN CHOICE (log 5). -/
def ptBase : Nat := 0x0_1001_0000
/-- DESIGN CHOICE (log 5). -/
def qtBase : Nat := 0x0_1002_0000
/-- DESIGN CHOICE (log 5). -/
def pwrBase : Nat := 0x0_1004_0000
/-- DESIGN CHOICE (log 5). -/
def relBase : Nat := 0x0_1005_0000
/-- DESIGN CHOICE: DCLK of die d is the 32-bit register at clkBase + 4d (log 5). -/
def clkBase : Nat := 0x0_1006_0000
/-- DESIGN CHOICE: physical frame of the top table of the firmware address space (log 5). -/
def fwRoot : Nat := 0x0_1010_0

/-- DESIGN CHOICE: the frequency code BOOTM that provisioning gives each die (log 7): 80, which is 2.0 GHz (R398). -/
def bootCode : Nat := 80

/-- A die at die reset (R398, R415). -/
def Die.fresh : Die := { cur := bootCode, tgt := bootCode }

end Sys2Proof.Machine

/-- The machine at the end of the boot sequence of R415: memory as `memInit` gives it (zero but for the reset values of the tables), reeve waves parked, nothing dispatched. -/
def Sys2Proof.Machine.State.reset : Sys2Proof.Machine.State :=
  { cur := Sys2Proof.Machine.waveKey (Sys2Proof.Machine.crewKey (Sys2Proof.Machine.reeveCore 0) 0) 0 }
end

