-- ==== Sys2Proof/Machine/Ops.lean ====
section
/-! DEFINITION. The named operations over the state: access to its objects, memory bytes, registers and their
liveness, the event queue, taking an exception (R32, R331, R375 to R379) and returning from one, and the issue and
retirement of a wave's word (R44 to R52, R164). -/

namespace Sys2Proof.Machine

-- Access to the objects of the state.

/-- A wave. -/
def State.wave (s : State) (k : Key) : Wave := tget s.waves (Wave.fresh k) k
/-- Replaces a wave. -/
def State.setWave (s : State) (k : Key) (w : Wave) : State := { s with waves := tset s.waves k w }
/-- Changes a wave. -/
def State.modWave (s : State) (k : Key) (f : Wave → Wave) : State := s.setWave k (f (s.wave k))
/-- A crew. -/
def State.crew (s : State) (c : Key) : Crew := tget s.crews (Crew.fresh c) c
/-- Replaces a crew. -/
def State.setCrew (s : State) (c : Key) (w : Crew) : State := { s with crews := tset s.crews c w }
/-- Changes a crew. -/
def State.modCrew (s : State) (c : Key) (f : Crew → Crew) : State := s.setCrew c (f (s.crew c))
/-- A core. -/
def State.core (s : State) (n : Nat) : CoreSt := tget s.cores {} n
/-- Replaces a core. -/
def State.setCore (s : State) (n : Nat) (c : CoreSt) : State := { s with cores := tset s.cores n c }
/-- Changes a core. -/
def State.modCore (s : State) (n : Nat) (f : CoreSt → CoreSt) : State := s.setCore n (f (s.core n))
/-- A die. -/
def State.die (s : State) (d : Nat) : Die := tget s.dies Die.fresh d
/-- Changes a die. -/
def State.modDie (s : State) (d : Nat) (f : Die → Die) : State := { s with dies := tset s.dies d (f (s.die d)) }
/-- A context. -/
def State.ctx (s : State) (c : Nat) : Ctx := tget s.ctxs {} c
/-- Changes a context. -/
def State.modCtx (s : State) (c : Nat) (f : Ctx → Ctx) : State := { s with ctxs := tset s.ctxs c (f (s.ctx c)) }
/-- A polder. -/
def State.polder (s : State) (p : Nat) : Polder := tget s.polders {} p
/-- Changes a polder. -/
def State.modPolder (s : State) (p : Nat) (f : Polder → Polder) : State :=
  { s with polders := tset s.polders p (f (s.polder p)) }
/-- A cluster. -/
def State.cluster (s : State) (c : Nat) : Cluster := tget s.clusters {} c
/-- Changes a cluster. -/
def State.modCluster (s : State) (c : Nat) (f : Cluster → Cluster) : State :=
  { s with clusters := tset s.clusters c (f (s.cluster c)) }
/-- Changes the package registers. -/
def State.modPkg (s : State) (f : Pkg → Pkg) : State := { s with pkg := f s.pkg }

/-- Core of a crew key. -/
def coreOfCrew (c : Key) : Nat := c / 16
/-- Crew slot of a crew key. -/
def cslotOf (c : Key) : Nat := c % 16
/-- Crew key of a wave key. -/
def crewOf (k : Key) : Key := k / 32
/-- WAVEID of a wave key (R9, R421). -/
def waveIdOf (k : Key) : Nat := k % 32
/-- Core of a wave key. -/
def coreOf (k : Key) : Nat := k / 512
/-- The core is a reeve core: its engines run in reeve mode (R330). -/
def isReeveCore (n : Nat) : Bool := decide (252 ≤ n)
/-- Die of a core (R3). -/
def dieOf (n : Nat) : Nat := if n < 252 then n / 63 else n - 252
/-- Global cluster of a core (R3); the reeve core shares cluster 7 of its die (R330). -/
def clusterOf (n : Nat) : Nat := if n < 252 then n / 63 * 8 + min (n % 63 / 8) 7 else (n - 252) * 8 + 7
/-- The cores of a global cluster (R3). -/
def coresOfCluster (c : Nat) : List Nat :=
  (List.range (if c % 8 = 7 then 7 else 8)).map fun i => c / 8 * 63 + c % 8 * 8 + i

-- Memory (R6, R407).

/-- Reset contents of a context descriptor by byte (R334): SLICE 24, CKPER 4,000. -/
def descInit (i : Nat) : Byte := if i = 5 then 24 else if i = 20 then 0xA0 else if i = 21 then 0x0F else 0

/-- Reset contents of a polder-table entry by byte (R350): WEIGHT 1, DRAIN 500, SHARE of each context 1. -/
def polderInit (i : Nat) : Byte :=
  if i = 24 then 1 else if i = 44 then 0xF4 else if i = 45 then 1 else if 256 ≤ i ∧ i < 384 ∧ i % 8 = 2 then 1 else 0

/-- What an unlisted address of home memory reads as: the reset values that R334 and R350 give the tables of descriptors, and zero
(R415 step 4). -/
def memInit (a : Nat) : Byte :=
  if dtBase ≤ a ∧ a < dtBase + 64 * 512 then descInit ((a - dtBase) % 64)
  else if ptBase ≤ a ∧ a < ptBase + 512 * 32 then polderInit ((a - ptBase) % 512)
  else 0

/-- A byte of home memory. -/
def memGet (m : List Host.Cell) (a : Nat) : Byte :=
  match m with
  | [] => memInit a
  | (a', b) :: r => if a = a' then b else if a < a' then memInit a else memGet r a

/-- Writes a byte of home memory, keeping the list ascending and free of bytes that an unlisted address reads as. -/
def memSet (m : List Host.Cell) (a : Nat) (b : Byte) : List Host.Cell :=
  match m with
  | [] => if b = memInit a then [] else [(a, b)]
  | (a', b') :: r =>
    if a < a' then (if b = memInit a then (a', b') :: r else (a, b) :: (a', b') :: r)
    else if a = a' then (if b = memInit a then r else (a, b) :: r)
    else (a', b') :: memSet r a b

/-- The canonical form of memory: addresses strictly rising, no byte listed that an unlisted address reads as. -/
def memWf (m : List Host.Cell) : Bool :=
  match m with
  | [] => true
  | [(a, b)] => b != memInit a
  | (a, b) :: (a', b') :: r => b != memInit a && decide (a < a') && memWf ((a', b') :: r)

/-- Bytes of a little-endian value (R6). -/
def bytesOf (v n : Nat) : List Byte := (List.range n).map fun i => BitVec.ofNat 8 (v >>> (8 * i))
/-- Value of bytes, little-endian (R6). -/
def ofBytes (bs : List Byte) : Nat := bs.foldr (fun b acc => b.toNat + 256 * acc) 0

/-- The regions of the physical address space (R407). -/
inductive Region | hbm | boezem | host | peer | none
  deriving DecidableEq, Repr

/-- Region of a physical address (R407); what tells hosts and peers apart above its 52 bits (`State.busOf`) does not count. -/
def regionOf (pa : Nat) : Region :=
  let a := pa % 2 ^ 52
  if a ≤ 0x5FFFFFFFFF then .hbm
  else if 0x10000000000 ≤ a ∧ a ≤ 0x1FFFFFFFFFF then .boezem
  else if 0x8000000000000 ≤ a ∧ a ≤ 0xBFFFFFFFFFFFF then .host
  else if 0xC000000000000 ≤ a ∧ a ≤ 0xCFFFFFFFFFFFF then .peer
  else .none

/-- A home byte. -/
def State.homeByte (s : State) (pa : Nat) : Byte := memGet s.mem pa
/-- n bytes at home. -/
def State.homeBytes (s : State) (pa n : Nat) : List Byte := (List.range n).map fun i => s.homeByte (pa + i)
/-- A 64-bit word at home. -/
def State.home64 (s : State) (pa : Nat) : Dword := BitVec.ofNat 64 (ofBytes (s.homeBytes pa 8))
/-- Stores bytes at home without logging: firmware's, the host's and the controller's writes (R387). -/
def State.pokeBytes (s : State) (pa : Nat) (bs : List Byte) : State :=
  { s with mem := (bs.foldl (fun (p : Nat × List Host.Cell) b => (p.1 + 1, memSet p.2 p.1 b)) (pa, s.mem)).2 }
/-- Stores a 64-bit word at home without logging. -/
def State.poke64 (s : State) (pa : Nat) (v : Dword) : State := s.pokeBytes pa (bytesOf v.toNat 8)

/-- The bits of a context descriptor that firmware writes, by byte (R334). -/
def descMask (i : Nat) : Byte :=
  if i = 5 then 0x3F else if i = 7 then 0xE0
  else if i = 9 then 0xF0 else if i = 14 ∨ i = 30 ∨ i = 38 then 0x0F
  else if (10 ≤ i ∧ i ≤ 13) ∨ (16 ≤ i ∧ i ≤ 29) ∨ (32 ≤ i ∧ i ≤ 37) ∨ (40 ≤ i ∧ i ≤ 43) then 0xFF else 0

/-- The bits of a polder-table entry that firmware writes, by byte (R350). -/
def polderMask (i : Nat) : Byte :=
  if i < 64 then
    (if i = 6 ∨ (21 ≤ i ∧ i ≤ 23) ∨ (26 ≤ i ∧ i ≤ 29) ∨ i = 41 ∨ 46 ≤ i then 0 else if i = 7 then 0xE0 else if i = 20 then 0x1F else 0xFF)
  else if i < 192 then
    (if i % 16 < 2 then 0 else if i % 16 = 2 then 0xE0 else if i % 16 = 6 then 0x0F else if i % 16 = 7 then 0xC0
     else if 12 ≤ i % 16 then 0 else 0xFF)
  else if i < 256 then (if i % 4 = 2 then 0x1F else if i % 4 = 3 then 0x80 else 0xFF)
  else if i < 384 then (if i % 8 = 0 ∨ i % 8 = 2 then 0xFF else if i % 8 = 3 then 1 else 0)
  else 0

/-- The bits of a queue descriptor that firmware and the doorbell write, by byte (R353). -/
def queueMask (i : Nat) : Byte :=
  if i = 0 then 0x0F else if i = 1 then 0x1F else if i = 6 then 0xFF else if i = 7 then 0xC1
  else if i = 8 then 0x80 else if (9 ≤ i ∧ i ≤ 14) ∨ (24 ≤ i ∧ i ≤ 27) then 0xFF else if i = 15 then 0x01 else if i = 31 then 0x80 else 0

/-- The bits that a store by an agent other than the hardware changes: a read-only or reserved field of a table keeps what it
holds (R7). -/
def storeMask (a : Nat) : Byte :=
  if dtBase ≤ a ∧ a < dtBase + 64 * 512 then descMask ((a - dtBase) % 64)
  else if ptBase ≤ a ∧ a < ptBase + 512 * 32 then polderMask ((a - ptBase) % 512)
  else if qtBase ≤ a ∧ a < qtBase + 32 * 1024 then queueMask ((a - qtBase) % 32)
  else 0xFF

/-- The injection slots of a context that ends are cleared (R159). -/
def State.dropInj (s : State) (c : Nat) : State :=
  { s with cores := s.cores.map fun e => if (e.2.inj.map (·.ctx)) = some c then (e.1, { e.2 with inj := none }) else e }

/-- The operand-buffer units of a context that ends are no later context's of its number (R95): their last owner is none of the 512. -/
def State.disownOb (s : State) (c : Nat) : State :=
  { s with cores := s.cores.map fun e =>
      if e.2.obOwner.any (fun u => u.2 == c + 1)
      then (e.1, { e.2 with obOwner := e.2.obOwner.map fun u => if u.2 == c + 1 then (u.1, 600) else u }) else e }

/-- Byte 7 of a table's entry, which holds V, has changed from `old` to `new`: a context that is created takes its POLDER from CTX
and stands at its reset values (R113, R334), one that ends leaves its injection slots (R159) and its operand-buffer units (R95), and a
polder that becomes valid has its reliability counters zeroed (R404). -/
def State.entryChanged (s : State) (a : Nat) (old new : Byte) : State :=
  let c := (a - dtBase) / 64
  if decide (dtBase ≤ a) && decide (a < dtBase + 64 * 512) && (a - dtBase) % 64 == 7 && old.getLsbD 7 != new.getLsbD 7 then
    if new.getLsbD 7 then ({ s with ctxs := s.ctxs.filter fun e => e.1 ≠ c }.dropInj c).pokeBytes (a - 1) [BitVec.ofNat 8 (c / 16)]
    else (s.dropInj c).disownOb c
  else if decide (ptBase ≤ a) && decide (a < ptBase + 512 * 32) && (a - ptBase) % 512 == 7 && !old.getLsbD 7 && new.getLsbD 7 then
    s.modPolder ((a - ptBase) / 512) fun x => { x with rel := [] }
  else s

/-- The bits of a checkpoint directory that firmware writes, by byte (R386). -/
def dirMask (i : Nat) : Byte :=
  if i < 16 then (if i % 8 < 6 then 0xFF else if i % 8 = 6 then 0x0F else 0) else if i < 20 then 0xFF else 0

/-- The checkpoint directories of the contexts that exist (R334, R386). -/
def State.ckDirs (s : State) : List Nat :=
  ((s.mem.filter fun e => decide (dtBase ≤ e.1) && decide (e.1 < dtBase + 64 * 512) && (e.1 - dtBase) % 64 == 7 && e.2.getLsbD 7).map
    fun e => (s.home64 (e.1 + 17)).toNat % 2 ^ 52).filter (· ≠ 0)

/-- The bits of a byte that a store by an agent other than the hardware changes (R7, R386). -/
def State.maskAt (s : State) (a : Nat) : Byte :=
  match s.ckDirs.find? fun d => decide (d ≤ a) && decide (a < d + 4096) with
  | some d => dirMask (a - d)
  | none => storeMask a

/-- One byte stored under a mask by an agent other than the hardware. -/
def State.putByte (s : State) (m : Byte) (a : Nat) (b : Byte) : State :=
  let old := s.homeByte a
  let new := (old &&& ~~~m) ||| (b &&& m)
  (s.pokeBytes a [new]).entryChanged a old new

/-- Bytes stored by firmware, the host, a peer or a context: read-only fields of the tables stay (R7, R334, R386). -/
def State.putBytes (s : State) (pa : Nat) (bs : List Byte) : State :=
  (bs.foldl (fun (p : Nat × State) b => (p.1 + 1, p.2.putByte (s.maskAt p.1) p.1 b)) (pa, s)).2

-- Descriptors in memory.

/-- Bits [hi:lo] of a word, as a number. -/
def bits (w : Dword) (hi lo : Nat) : Nat := (w >>> lo).toNat % 2 ^ (hi + 1 - lo)

/-- Replaces bits [hi:lo] of a word. -/
def putBits (w : Dword) (hi lo v : Nat) : Dword :=
  let m : Dword := BitVec.ofNat 64 (2 ^ (hi + 1 - lo) - 1)
  (w &&& ~~~(m <<< lo)) ||| ((BitVec.ofNat 64 v &&& m) <<< lo)

/-- Word n of the descriptor of a context (R334). -/
def State.ctxWord (s : State) (c n : Nat) : Dword := s.home64 (dtBase + 64 * c + 8 * n)
/-- The context exists (R334). -/
def State.ctxValid (s : State) (c : Nat) : Bool := (s.ctxWord c 0).getLsbD 63
/-- Debug capability (R334). -/
def State.ctxDbg (s : State) (c : Nat) : Bool := (s.ctxWord c 0).getLsbD 62
/-- Polder of a context: the number is formed from it (R333, R334). -/
def polderOf (c : Nat) : Nat := c / 16
/-- SLICE, clamped to 12 to 32 (R334). -/
def State.ctxSlice (s : State) (c : Nat) : Nat := max 12 (min 32 (bits (s.ctxWord c 0) 45 40))
/-- RETTH (R334). -/
def State.ctxRetth (s : State) (c : Nat) : Nat := bits (s.ctxWord c 2) 31 0
/-- EXTW (R334, R389). -/
def State.ctxExtw (s : State) (c : Nat) : Bool := (s.ctxWord c 5).getLsbD 63
/-- Sets EXTW (R389). -/
def State.setExtw (s : State) (c : Nat) (b : Bool) : State :=
  s.poke64 (dtBase + 64 * c + 40) (putBits (s.ctxWord c 5) 63 63 (if b then 1 else 0))
/-- Physical address of the top page table of a context (R334). -/
def State.ctxRoot (s : State) (c : Nat) : Nat := bits (s.ctxWord c 1) 51 12 * 4096

/-- Word n of a polder-table entry (R350). -/
def State.polderWord (s : State) (p n : Nat) : Dword := s.home64 (ptBase + 512 * p + 8 * n)
/-- V of a polder (R350). -/
def State.polderValid (s : State) (p : Nat) : Bool := (s.polderWord p 0).getLsbD 63
/-- A bit set claimed in word n, bits [hi:lo], belongs to the lowest-numbered valid claimant (R351). -/
def State.owns (s : State) (p n bit : Nat) : Bool :=
  s.polderValid p && (s.polderWord p n).getLsbD bit &&
    (List.range p).all fun p' => !(s.polderValid p' && (s.polderWord p' n).getLsbD bit)
/-- The polder owns a global cluster (R350, R351). -/
def State.ownsCluster (s : State) (p c : Nat) : Bool := s.owns p 0 c
/-- The polder owns an L2 slice (R350, R351). -/
def State.ownsSlice (s : State) (p n : Nat) : Bool := s.owns p 1 n
/-- The polder owns a port (R350, R351). -/
def State.ownsPort (s : State) (p n : Nat) : Bool := s.owns p 2 n
/-- PLEN, at most 16 (R350). -/
def State.peerLen (s : State) (p : Nat) : Nat := min 16 (bits (s.polderWord p 2) 36 32)
/-- Entry n of the peer list (R350). -/
def State.peerEnt (s : State) (p n : Nat) : Nat :=
  let w := s.polderWord p (24 + n / 2)
  if n % 2 = 0 then bits w 31 0 else bits w 63 32
/-- Port of peer n (R350). -/
def State.peerPort (s : State) (p n : Nat) : Nat := s.peerEnt p n / 65536 % 32
/-- Peer n is valid (R351). -/
def State.peerValid (s : State) (p n : Nat) : Bool :=
  decide (s.peerEnt p n / 0x80000000 = 1) && decide (n < s.peerLen p) && s.ownsPort p (s.peerPort p n)
/-- Fabric identifier of peer n (R350). -/
def State.peerFid (s : State) (p n : Nat) : Nat := s.peerEnt p n % 65536
/-- What a physical address names for an engine of a context (none: firmware) (R407): a host address names the memory behind the virtual
function of its polder, and a peer address an offset of the memory of the peer that entry n identifies. The bits above the 52 of the
address tell hosts (1 + polder) and peers (64 + FID) apart (DESIGN CHOICE, log 84). -/
def State.busOf (s : State) (c : Option Nat) (pa : Nat) : Nat :=
  match c with
  | none => pa
  | some c =>
    match regionOf pa with
    | .host => 2 ^ 52 * (polderOf c + 1) + pa
    | .peer => 2 ^ 52 * (64 + s.peerFid (polderOf c) (pa / 2 ^ 44 % 16)) + (0xC000000000000 + pa % 2 ^ 44)
    | .hbm | .boezem | .none => pa
/-- Entries of a polder's peer list that name the peer of an address on the bus. -/
def State.peersOf (s : State) (p a : Nat) : List Nat :=
  (List.range 16).filter fun n => s.peerValid p n && a / 2 ^ 52 == 64 + s.peerFid p n
/-- The physical address by which a polder names an address on the bus (R407). -/
def State.paOf (s : State) (p a : Nat) : Nat :=
  a % 2 ^ 52 + (if 64 ≤ a / 2 ^ 52 then 2 ^ 44 * (s.peersOf p a).head?.getD 0 else 0)
/-- Range n of a polder: base, bytes and tier, when valid and not empty (R350). -/
def State.rangeOf (s : State) (p n : Nat) : Option (Nat × Nat × Nat) :=
  let w := s.polderWord p (8 + 2 * n)
  let len := bits (s.polderWord p (9 + 2 * n)) 31 0
  if w.getLsbD 63 && decide (len ≠ 0) && s.polderValid p then
    some (bits w 51 21 * 0x200000, len * 0x200000, bits w 62 62)
  else none
/-- The range of the polder that holds a physical address claims it: its tier (R350). -/
def State.rangeClaims (s : State) (p pa : Nat) : Option Nat :=
  (List.range 8).findSome? fun n =>
    match s.rangeOf p n with
    | some (b, l, t) => if b ≤ pa ∧ pa < b + l then some t else none
    | none => none
/-- Tier of the polder range that holds an address, a range granule belonging to its lowest-numbered claimant
(R350, R351). -/
def State.ownsRange (s : State) (p pa : Nat) : Option Nat :=
  match s.rangeClaims p pa with
  | some t => if (List.range p).all fun p' => (s.rangeClaims p' pa).isNone then some t else none
  | none => none
/-- Lowest cluster a polder owns (R341). -/
def State.lowCluster (s : State) (p : Nat) : Nat := ((List.range 32).find? fun c => s.ownsCluster p c).getD 0
/-- Home die of a context: the die of its polder's lowest cluster (R341). -/
def State.homeDie (s : State) (c : Nat) : Nat := s.lowCluster (polderOf c) / 8

-- Handles (R333).

/-- A handle (R333). -/
def handleOf (ctx core cslot wave kind : Nat) : Word :=
  BitVec.ofNat 32 (ctx * 0x800000 + core * 0x8000 + cslot * 0x800 + wave * 0x40 + kind)
/-- Handle of a context. -/
def ctxHandle (c : Nat) : Word := handleOf c 0 0 0 0
/-- Handle of the crew with a crew key. -/
def State.crewHandle (s : State) (c : Key) : Word := handleOf (s.crew c).ctx (coreOfCrew c) (cslotOf c) 0 1
/-- Handle of the wave with a wave key; a reeve wave is named by its number on its die (DEDUCED, log 9). -/
def State.waveHandle (s : State) (k : Key) : Word :=
  if isReeveCore (coreOf k) then handleOf 0 0 (cslotOf (crewOf k)) (waveIdOf k) 2
  else handleOf (s.crew (crewOf k)).ctx (coreOf k) (cslotOf (crewOf k)) (waveIdOf k) 2

-- Events (R339).

/-- Queues an event on a die unless a pending one has its key: kind, handle, and what the kind adds (R339). -/
def State.event (s : State) (d kind : Nat) (h : Word) (w1 : Dword) (key : Nat := 0) : State :=
  s.modDie d fun di =>
    if di.evq.any fun e => e.kind == kind && e.handle == h && e.key == key then di
    else { di with evq := di.evq ++ [{ kind := kind, handle := h, w1 := w1, w2 := BitVec.ofNat 64 s.reft, key := key }] }

-- Lanes and masks.

/-- The mask of the lanes that satisfy p. -/
def laneMask (p : Fin 32 → Bool) : LaneMask := (BitVec.ofBoolListLE (List.ofFn p)).setWidth 32
/-- Lane l is in the mask. -/
def inMask (m : LaneMask) (l : Fin 32) : Bool := m.getLsbD l.val
/-- The lanes of a mask, ascending. -/
def lanesOf (m : LaneMask) : List (Fin 32) := (List.finRange 32).filter (inMask m)
/-- Lanes in a state. -/
def Wave.lanesIn (w : Wave) (p : LaneState → Bool) : LaneMask := laneMask fun l => p w.lst[l]
/-- Live lanes (R10). -/
def Wave.liveMask (w : Wave) : LaneMask := w.lanesIn fun x => x == .live
/-- Helper lanes (R10). -/
def Wave.helperMask (w : Wave) : LaneMask := w.lanesIn fun x => x == .helper
/-- NonExited(w): live and helper lanes (R10, R43). -/
def Wave.nonExited (w : Wave) : LaneMask := w.lanesIn fun x => x == .live || x == .helper
/-- A mask register; k0 reads all ones (R35). -/
def Wave.k (w : Wave) (n : Nat) : LaneMask := if n = 0 then BitVec.allOnes 32 else tget w.kreg 0 n
/-- Writes a mask register; a write to k0 is discarded (R35). -/
def Wave.setK (w : Wave) (n : Nat) (m : LaneMask) : Wave := if n = 0 then w else { w with kreg := tset w.kreg n m }
/-- A rejoin register. -/
def Wave.j (w : Wave) (n : Nat) : LaneMask := tget w.jreg 0 n
/-- Predicate(I) (R165). -/
def Wave.pred (w : Wave) (pr : BitVec 3) (pn : Bool) : LaneMask := if pn then ~~~(w.k pr.toNat) else w.k pr.toNat
/-- Active(w) and Predicate(I). -/
def Wave.act (w : Wave) (pr : BitVec 3) (pn : Bool) : LaneMask := w.group &&& w.pred pr pn

-- Registers.

/-- A vector register of one lane. -/
def Wave.rv (w : Wave) (r : Nat) (l : Fin 32) : Word := (tget w.v zeroLanes r)[l]
/-- A scalar register. -/
def Wave.rs (w : Wave) (r : Nat) : Word := tget w.sreg 0 r
/-- n registers from r of one lane, as one number, the first lowest (R36). -/
def Wave.rvn (w : Wave) (r n : Nat) (l : Fin 32) : Nat :=
  match n with
  | 0 => 0
  | n + 1 => (w.rv r l).toNat + 2 ^ 32 * w.rvn (r + 1) n l
/-- n scalar registers from r, as one number. -/
def Wave.rsn (w : Wave) (r n : Nat) : Nat :=
  match n with
  | 0 => 0
  | n + 1 => (w.rs r).toNat + 2 ^ 32 * w.rsn (r + 1) n
/-- Live(w, x) (R40); mask and rejoin registers are never DEAD (R42). -/
def Wave.isLive (w : Wave) (f : RFile) (r : Nat) : Bool :=
  match f with
  | .v => w.vlive.getLsbD r
  | .s => w.slive.getLsbD r
  | .k | .j => true
/-- Marks a register LIVE or DEAD. -/
def Wave.setLive (w : Wave) (f : RFile) (r : Nat) (b : Bool) : Wave :=
  match f with
  | .v => { w with vlive := if b then w.vlive ||| BitVec.twoPow 256 r else w.vlive &&& ~~~(BitVec.twoPow 256 r) }
  | .s => { w with slive := if b then w.slive ||| BitVec.twoPow 64 r else w.slive &&& ~~~(BitVec.twoPow 64 r) }
  | .k | .j => w
/-- Registers of a group. -/
def groupRegs (r n : Nat) : List Nat := (List.range n).map (r + ·)
/-- Current allotment (R23). -/
def Wave.allot (w : Wave) : Nat := w.breg + 32 * w.xb

/-- Writes one vector register under a mask: inactive lanes keep their values, or read 0 if it was DEAD (R41). -/
def Wave.writeV (w : Wave) (r : Nat) (m : LaneMask) (val : LaneVec) : Wave :=
  let old := tget w.v zeroLanes r
  let live := w.vlive.getLsbD r
  let new : LaneVec := Vector.ofFn fun l => if inMask m l then val[l] else if live then old[l] else 0
  ({ w with v := tset w.v r new }).setLive .v r true
/-- Writes one scalar register. -/
def Wave.writeS (w : Wave) (r : Nat) (x : Word) : Wave := ({ w with sreg := tset w.sreg r x }).setLive .s r true

/-- Registers of a result as data of 32-bit words: register i of a value. -/
def wordAt (v i : Nat) : Word := BitVec.ofNat 32 (v >>> (32 * i))

/-- A result to commit: destination, its data by register, the mask; a held access's has not arrived (R420). -/
structure Res where
  file : RFile
  reg : Nat
  data : List LaneVec
  mask : LaneMask
  arrived : Bool := true
  why : Option PendWhy := none
  deriving DecidableEq, Repr

/-- A vector result of n registers from a value for each lane. -/
def resV (r n : Nat) (m : LaneMask) (f : Fin 32 → Nat) : Res :=
  { file := .v, reg := r, mask := m,
    data := (List.range n).map fun i => Vector.ofFn fun l => wordAt (f l) i }
/-- A scalar result of n registers. -/
def resS (r n : Nat) (m : LaneMask) (v : Nat) : Res :=
  { file := .s, reg := r, mask := m, data := (List.range n).map fun i => Vector.replicate 32 (wordAt v i) }

/-- A mask result: the bits of the lanes of m (R214, R231). -/
def resK (r : Nat) (m : LaneMask) (f : Fin 32 → Bool) : Res :=
  { file := .k, reg := r, mask := m, data := [Vector.ofFn fun l => if f l then 1 else 0] }

/-- Commits data to registers from r (R49, R41); nothing under an empty mask. -/
def Wave.commit (w : Wave) (file : RFile) (r : Nat) (data : List LaneVec) (m : LaneMask) : Wave :=
  match data with
  | [] => w
  | d :: ds =>
    let w1 :=
      match file with
      | .v => w.writeV r m d
      | .s => w.writeS r d[(0 : Fin 32)]
      | .k => w.setK r ((w.k r &&& ~~~m) ||| (laneMask (fun l => d[l].getLsbD 0) &&& m))
      | .j => w
    w1.commit file (r + 1) ds m

-- Banks (R37 to R48).

/-- Supply state of a vector bank. -/
def Wave.bank (w : Wave) (b : Nat) : Bank := tget w.banks {} b
/-- Replaces a bank. -/
def Wave.setBank (w : Wave) (b : Nat) (x : Bank) : Wave := { w with banks := tset w.banks b x }
/-- The bank holds a LIVE register. -/
def Wave.bankLive (w : Wave) (b : Nat) : Bool := w.vlive.extractLsb' (8 * b) 8 != 0
/-- A result is pending to the bank (R45). -/
def Wave.bankPend (w : Wave) (b : Nat) : Bool :=
  w.pend.any fun p => p.file == .v && (groupRegs p.reg p.n).any fun r => r / 8 == b
/-- Makes every register of a bank DEAD (R48). -/
def Wave.killBank (w : Wave) (b : Nat) : Wave :=
  { w with vlive := w.vlive &&& ~~~((0xFF#256) <<< (8 * b)) }
/-- Banks of the vector operands that satisfy p. -/
def banksOf (os : List Opd) (p : Opd → Bool) : List Nat :=
  ((os.filter fun o => o.file == .v && p o).map fun o => o.reg / 8).dedup
/-- Ends the wakes a list of banks needs (R45, R47): each is FULL afterwards; the first bank that leaves RETAIN with a
parity error is answered, its registers DEAD (R48). -/
def Wave.wake (w : Wave) (bs : List Nat) : Wave × Option Nat :=
  bs.foldl
    (fun (p : Wave × Option Nat) b =>
      let x := p.1.bank b
      match x.st with
      | .full => (p.1.setBank b { x with idle := none }, p.2)
      | .off => (p.1.setBank b { st := .full }, p.2)
      | .retain =>
        if x.bad then ((p.1.setBank b { st := .full }).killBank b, p.2.orElse fun _ => some b)
        else (p.1.setBank b { st := .full }, p.2))
    (w, none)

-- Taking an exception.

/-- Codes of R379. -/
def classCode : FClass → Nat
  | .illegal => 1 | .clause => 2 | .access => 3 | .align => 4 | .xlate => 5 | .rdead => 6 | .spoff => 7
  | .scstale => 8 | .scrange => 9 | .weircount => 0x0A | .budget => 0x0B | .launch => 0x0C | .retloss => 0x0D
  | .eccfatal => 0x0E | .swtrap => 0x0F | .brk => 0x10 | .flood => 0x11

/-- Code of a record's class; 0x00 without one (R379). -/
def recCode (r : StopRec) : Nat := match r.cls with | some c => classCode c | none => 0

/-- Place of a record's engine in the engine order of R377. -/
def StopRec.place (r : StopRec) : Nat :=
  match r.eng with
  | .wave => r.key / 512 * 1000 + r.key / 32 % 16 * 40 + r.key % 32
  | .seq => r.key / 16 * 1000 + r.key % 16 * 40 + 32
  | .copy => r.key * 1000 + 640
  | .fabric => 256000 + r.key
  | .mem => 257000

/-- The class the event of kind 0x01 carries (R376): of the first record with a class other than 0x00, by REFT and then by
engine; 0x11 if there is none. -/
def eventClass (rs : List StopRec) : Nat :=
  let cand := rs.filter fun r => recCode r != 0
  match cand with
  | [] => 0x11
  | r :: rest =>
    recCode (rest.foldl (fun b x =>
      if x.reft < b.reft ∨ (x.reft = b.reft ∧ x.place < b.place) then x else b) r)

/-- RETLOSS and ECCFATAL faults are counted for the polder of their context (R404): RETL and ECCF. -/
def State.countLoss (s : State) (c : Nat) (cls : Option FClass) : State :=
  let add (i : Nat) : State := s.modPolder (polderOf c) fun x => { x with rel := tset x.rel i (tget x.rel 0 i + 1) }
  match cls with
  | some .retloss => add 7
  | some .eccfatal => add 8
  | _ => s

/-- The pending event of kind 0x01 of a context carries the class of the first of its records (R376). -/
def State.tellClass (s : State) (c : Nat) : State :=
  s.modDie (s.homeDie c) fun d =>
    { d with evq := d.evq.map fun e =>
        if e.kind == 0x01 && e.handle == ctxHandle c then { e with w1 := BitVec.ofNat 64 (eventClass (s.ctx c).recs) } else e }

/-- The floodgate of a context rises with a stop record of the engine that faulted (R32, R375, R376, R378): a rise
queues the one event of kind 0x01 on the context's home die. A record that the engine has already written for this stop takes
the fault, and keeps the REFT at which the engine stopped (R376, R378). -/
def State.floodgate (s : State) (c : Nat) (r : StopRec) : State :=
  let x := s.ctx c
  let same (y : StopRec) : Bool := y.eng == r.eng && y.key == r.key && r.eng != .mem
  let r1 := { r with reft := ((x.recs.find? same).map (·.reft)).getD s.reft }
  let recs := x.recs.filter (fun y => !same y) ++ [r1]
  let s1 := (s.modCtx c fun x => { x with up := true, recs := recs }).countLoss c r.cls
  if x.up then s1.tellClass c
  else s1.event (s.homeDie c) 0x01 (ctxHandle c) (BitVec.ofNat 64 (eventClass recs))

/-- The address of the word a wave stands at: the lowest LPC of its running group. -/
def Wave.pc (w : Wave) : Nat :=
  match lanesOf w.group with
  | [] => 0
  | l :: _ => (w.lpc[l]).toNat

-- Lane groups (R186, R187).

/-- Lanes parked on a rejoin register, or helpers that have met EXIT and wait for their quad (R12). -/
def Wave.parkedMask (w : Wave) : LaneMask := laneMask fun l => (w.jpark[l]).isSome
/-- Lanes that an open call record lets run (R187). -/
def Wave.scopeMask (w : Wave) : LaneMask := match w.calls with | [] => BitVec.allOnes 32 | r :: _ => r.running
/-- Eligible lanes (R186). -/
def Wave.eligible (w : Wave) : LaneMask := w.nonExited &&& ~~~w.parkedMask &&& w.scopeMask

/-- The lowest LPC of a set of lanes. -/
def Wave.lowPc (w : Wave) (m : LaneMask) : Option Nat := ((lanesOf m).map fun l => (w.lpc[l]).toNat).min?
/-- The lanes of a set that stand at an address. -/
def Wave.lanesAt (w : Wave) (m : LaneMask) (p : Nat) : LaneMask := m &&& laneMask fun l => (w.lpc[l]).toNat == p

/-- Mark of a helper lane that has met EXIT and waits for its quad: no rejoin register has this number (log 11). -/
def atExit : Nat := 8

/-- Helper lanes that have met EXIT and wait for their quad: neither eligible nor parked on a rejoin register (R12, R186). -/
def Wave.exitMask (w : Wave) : LaneMask := laneMask fun l => w.jpark[l] == some atExit

/-- Starts the next target groups and closes call records whose groups have all finished: none of their lanes is eligible or parked
(R187). -/
def Wave.settle (w : Wave) : (fuel : Nat) → Wave
  | 0 => w
  | fuel + 1 =>
    match w.calls with
    | [] => w
    | r :: rest =>
      if r.running &&& w.nonExited &&& ~~~w.exitMask ≠ 0 then w
      else
        match w.lowPc (r.waiting &&& w.nonExited) with
        | some p =>
          let g := w.lanesAt (r.waiting &&& w.nonExited) p
          ({ w with calls := { r with running := g, waiting := r.waiting &&& ~~~g } :: rest }).settle fuel
        | none =>
          ({ w with calls := rest,
                    lpc := Vector.ofFn fun l => if inMask r.held l then BitVec.ofNat 64 r.ret else w.lpc[l],
                    lhdr := Vector.ofFn fun l => if inMask r.held l then none else w.lhdr[l] }).settle fuel

/-- Answer of NextGroup (R186). -/
inductive Group
  | exited
  | stuck (w : Wave)
  | run (w : Wave)
  deriving DecidableEq, Repr

/-- NextGroup of R186. At most 8 records and 32 groups each can finish at once. -/
def Wave.nextGroup (w : Wave) : Group :=
  let w := w.settle 300
  if w.nonExited = 0 then .exited
  else
    match w.lowPc w.eligible with
    | some p => .run { w with group := w.lanesAt w.eligible p }
    | none => .stuck w

/-- Header address of a wave's next clause, where its running group stands in the middle of one. -/
def Wave.midHdr (w : Wave) : Option Nat := (lanesOf w.group).head?.bind fun l => w.lhdr[l]

/-- A wave where it stands: between clauses, at its next group (R186). -/
def Wave.standing (w : Wave) : Wave :=
  if w.clause.isSome then w
  else match w.nextGroup with
    | .run w1 => w1
    | .exited | .stuck _ => w

/-- Where a wave stands, as its stop record tells it (R378): header address, word index, at a header. A group that stands in the
middle of a clause stands there also between clauses. -/
def Wave.stopPoint (w : Wave) : Nat × Nat × Bool :=
  match w.clause, w.midHdr with
  | some c, _ => (c.hdrAt, c.pos, false)
  | none, some a => (a, (w.pc - a) / 8 - 1, false)
  | none, none => (w.pc, 0, true)

/-- The stop record of a wave at its current point (R378). -/
def State.waveRec (s : State) (k : Key) (cls : Option FClass) (det word : Dword) (prec : Bool) : StopRec :=
  let w := (s.wave k).standing
  let (pc, wpos, hdr) := w.stopPoint
  { cls := cls, eng := .wave, key := k, prec := prec, hdr := hdr, wpos := wpos, handle := s.waveHandle k, pc := pc,
    det := det, word := word, mask := w.group }

/-- Quadrant of a wave (R21). -/
def quadOf (k : Key) : Nat := waveIdOf k % 4
/-- Quadrant state of a wave. -/
def State.quad (s : State) (k : Key) : Quad := tget (s.core (coreOf k)).quads {} (quadOf k)
/-- Changes the state of quadrant q of a core. -/
def State.modQuad (s : State) (core q : Nat) (f : Quad → Quad) : State :=
  s.modCore core fun c => { c with quads := tset c.quads q (f (tget c.quads {} q)) }

/-- A wave that parks or stops inside its clause gives its quadrant up (R25). -/
def State.leaveQuad (s : State) (k : Key) : State :=
  s.modQuad (coreOf k) (quadOf k) fun q => { q with inClause := q.inClause.filter (· ≠ k) }

/-- A wave that stops leaves its quadrant's queue of ACQX requests: its ACQX issues again on resumption (R206). -/
def State.leaveAcq (s : State) (k : Key) : State :=
  match (s.wave k).park with
  | some (.acqx _) => s.modQuad (coreOf k) (quadOf k) fun q => { q with acq := q.acq.filter (· ≠ k) }
  | _ => s

/-- TAKING AN EXCEPTION, of a wave. In user mode the wave stops precisely before the word, which has no effect, and the
floodgate of its context rises with its stop record (R32, R375, R378); in reeve mode the wave stops, no floodgate
rises, and an event of kind 0x08 goes to its die (R331). -/
def State.raiseWave (s : State) (k : Key) (cls : FClass) (det : Dword) (word : Dword := 0) (atc : Bool := false)
    (prec : Bool := true) : State :=
  let s1 := ((s.leaveAcq k).leaveQuad k).modWave k fun w =>
    { w with stopped := true, parkSince := if w.park.isSome then w.parkSince else s.reft,
             stopAs := if w.stopped && !prec then w.stopAs else some (cls, word) }
  if isReeveCore (coreOf k) then
    s1.event (dieOf (coreOf k)) 0x08 (s.waveHandle k) (BitVec.ofNat 64 (classCode cls))
  else
    s1.floodgate (s.crew (crewOf k)).ctx { s.waveRec k (some cls) det word prec with atc := atc || cls == .eccfatal }

/-- Taking an exception, of a crew's sequencer (R288): precise at its word. -/
def State.raiseSeq (s : State) (c : Key) (cls : FClass) (det : Dword) (word : Dword := 0) : State :=
  let x := s.crew c
  let s1 := s.modCrew c fun x => { x with seq := { x.seq with stopped := true, rows := [] } }
  s1.floodgate x.ctx
    { cls := some cls, eng := .seq, key := c, prec := true, atc := cls == .eccfatal, handle := s.crewHandle c, pc := x.seq.mpc, det := det,
      word := word }

/-- Taking an exception, of a core's copy engine at a command (R270, R378). -/
def State.raiseCopy (s : State) (core pos : Nat) (cls : FClass) (det : Dword) : State :=
  match (s.core core).copyq[pos]? with
  | none => s
  | some e =>
    let c := crewKey core e.cslot
    let s1 := s.modCore core fun x =>
      { x with copyq := x.copyq.map fun y =>
          if (s.crew (crewKey core y.cslot)).ctx == (s.crew c).ctx then { y with stopped := true } else y }
    s1.floodgate (s.crew c).ctx
      { cls := some cls, eng := .copy, key := core, prec := true, atc := cls == .eccfatal, handle := s.crewHandle c, det := det,
        word := packCopyW0 e.cmd, mask := BitVec.ofNat 32 pos,
        beats := e.mark + e.more.length }

-- Issue and retirement of a wave's word.

/-- LOOK and slot of a word, and whether it is long-latency (R50, R52). -/
structure Lk where
  long : Bool := false
  look : Nat := 0
  slot : Option Nat := none
  pr : BitVec 3 := 0
  pn : Bool := false
  deriving DecidableEq, Repr

/-- LOOK, slot and predicate of a V word. -/
def lkV (i : Instr) (x : VF) : Lk :=
  { long := (vshape i).long, look := x.look.toNat, slot := if x.sv then some x.slot.toNat else none, pr := x.pr, pn := x.pn }
/-- LOOK, slot and predicate of an M word; every M word is long-latency (R50). -/
def lkM (x : MF) : Lk :=
  { long := true, look := x.look.toNat, slot := if x.sv then some x.slot.toNat else none, pr := x.pr, pn := x.pn }
/-- Predicate of an I word, which has neither LOOK nor slot (R167). -/
def lkI (x : IF) : Lk := { pr := x.pr, pn := x.pn }
/-- LOOK, slot and predicate of a word; the B format, whose PR is a condition, and the P format have none. -/
def lkOf (i : Instr) : Lk :=
  match vfOf i, mfOf i, ifOf i with
  | some x, _, _ => lkV i x
  | none, some x, _ => lkM x
  | none, none, some x => lkI x
  | none, none, none => {}

/-- The first vector register at or above the allotment that a word names (R23, R42). -/
def budgetBad (w : Wave) (os : List Opd) : Option Nat :=
  ((os.filter fun o => o.file == .v).flatMap fun o => groupRegs o.reg o.n).find? fun r => decide (w.allot ≤ r)

/-- The first DEAD register that a word reads (R42). -/
def deadReg (w : Wave) (os : List Opd) : Option Nat :=
  os.findSome? fun o => if o.reads then (groupRegs o.reg o.n).find? fun r => !w.isLive o.file r else none

/-- Two register groups overlap. -/
def overlap (f : RFile) (r n : Nat) (f' : RFile) (r' n' : Nat) : Bool :=
  f == f' && decide (r < r' + n') && decide (r' < r + n)

/-- A word's operand is a register of a pending result. KILL names registers that it neither reads nor writes: it kills at
issue, and a result pending to one makes it LIVE again (R199). DEDUCED (log 49): so KILL does not wait for a closed result. -/
def Pend.meets (p : Pend) (o : Opd) : Bool := (o.reads || o.writes) && overlap p.file p.reg p.n o.file o.reg o.n

/-- R49 to R52: the word waits at issue: a register it reads or writes has a closed result that has not committed; it would open
a ninth window (a word whose mask leaves no lane active opens none, R41); a slot that holds 15. -/
def interlock (w : Wave) (os : List Opd) (lk : Lk) : Bool :=
  (w.pend.any fun p => p.remain == 0 && os.any p.meets)
    || (decide (0 < lk.look) && w.act lk.pr lk.pn != 0 && decide (8 ≤ (w.pend.filter fun p => decide (0 < p.remain)).length))
    || (match lk.slot with | some n => decide (15 ≤ tget w.sb 0 n) | none => false)

/-- A miss, or a fault found late, holds an access of the wave and those behind it (R34, R419). -/
def Wave.missHeld (w : Wave) : Bool := w.held.any fun h => !h.fifo

/-- The interlock is on the result of an access that a miss has parked: the wave parks there (R27, R34). -/
def missLock (w : Wave) (os : List Opd) : Bool :=
  w.missHeld && w.pend.any fun p => p.remain == 0 && !p.arrived && p.why.isNone && os.any p.meets

/-- Number of last-use bits set in a word (R43, R44). -/
def lastCount (os : List Opd) : Nat := (os.filter fun o => o.last).length

/-- The last uses of a word take effect (R43): its marked sources become DEAD. -/
def Wave.lastUses (w : Wave) (os : List Opd) : Wave :=
  (os.filter fun o => o.last).foldl
    (fun w o => (groupRegs o.reg o.n).foldl (fun w r => w.setLive o.file r false) w) w

/-- Counts a slot up or down. -/
def Wave.slotAdd (w : Wave) (slot : Option Nat) (up : Bool) : Wave :=
  match slot with
  | none => w
  | some n => { w with sb := tset w.sb n (if up then tget w.sb 0 n + 1 else tget w.sb 0 n - 1) }

/-- An issued instruction counts for the open windows (R50). -/
def Wave.countWindows (w : Wave) : Wave :=
  { w with pend := w.pend.map fun p => { p with remain := p.remain - 1 } }

/-- Banks of the registers of a pending result. -/
def pendBanks (p : Pend) : List Nat :=
  if p.file == .v then ((groupRegs p.reg p.n).map fun r => r / 8).dedup else []

/-- Commits one pending result (R49): its banks are FULL (R47), its registers LIVE, its slot counts down; a bank that
lost its contents in its wake is answered (R48). -/
def Wave.commitPend (w : Wave) (p : Pend) : Wave × Option Nat :=
  let (w1, lost) := w.wake (pendBanks p)
  ((w1.commit p.file p.reg p.data p.mask).slotAdd (if p.counts then p.slot else none) false, lost)

/-- Begins the wakes that a long-latency word causes; a bank that is waking already keeps the word that began its wake (R45, R47,
R48). -/
def Wave.beginWake (w : Wave) (word : Dword) (bs : List Nat) : Wave :=
  bs.foldl (fun w b =>
    let x := w.bank b
    if x.st == .full then w.setBank b { x with idle := none }
    else w.setBank b { x with waking := true, waker := if x.waking then x.waker else word, idle := none }) w

/-- The oldest pending result that may commit: closed, arrived, and behind no older one to a common register (R49). -/
def nextCommit (ps : List Pend) : Option (Pend × List Pend) :=
  go [] ps
where
  go (seen : List Pend) : List Pend → Option (Pend × List Pend)
    | [] => none
    | p :: r =>
      if p.remain == 0 && p.arrived && !(seen.any fun q => overlap q.file q.reg q.n p.file p.reg p.n)
      then some (p, seen.reverse ++ r)
      else go (p :: seen) r

/-- Advances the running group past the word it stands at; the clause ends after its last word (R161). -/
def Wave.advance (w : Wave) : Wave :=
  let lpc : Vector Dword 32 := Vector.ofFn fun l => if inMask w.group l then w.lpc[l] + 8 else w.lpc[l]
  match w.clause with
  | none => { w with lpc := lpc }
  | some c =>
    if (unpackH c.hdr).count.toNat ≤ c.pos then { w with lpc := lpc, clause := none, group := 0 }
    else { w with lpc := lpc, clause := some { c with pos := c.pos + 1 } }

/-- Counts an issued instruction for its quadrant (R25), the crew and its context's slice (R357). -/
def State.countIssue (s : State) (k : Key) : State :=
  let c := crewOf k
  let s1 := (s.modCrew c fun x => { x with issued := x.issued + 1, dormant := none }).modQuad (coreOf k) (quadOf k)
    fun q => { q with cyc := q.cyc + 1 }
  if isReeveCore (coreOf k) then s1
  else s1.modCtx (s.crew c).ctx fun x => { x with slice := x.slice + 1 }

/-- Where the running group goes after a word: to the next word, or away, the body having set every LPC. -/
inductive Adv | step | leave
  deriving DecidableEq, Repr

/-- What a word's body answers: it is done, with the state after its effects on other objects, the results to write and
whether the group moves on to the next word; it faults, perhaps with a bank lost (R93); it parks before it has issued, with the state
so far; it issues and waits, its results to come when the park ends; it is held at issue, perhaps with an operation sent to a peer. -/
inductive Eff
  | done (s : State) (res : List Res) (adv : Adv := .step)
  | fault (cls : FClass) (det : Dword)
  | faultIn (s : State) (cls : FClass) (det : Dword)
  | park (s : State) (p : Park)
  | wait (s : State) (p : Park) (res : List Res)
  | hold
  | holdIn (s : State)
  deriving DecidableEq, Repr

/-- The pending results of a long-latency word: the first carries the slot, which a q0 push has counted down already (R50, R52,
R55). -/
def pendsOf (i : Instr) (res : List Res) : List Pend :=
  let lk := lkOf i
  match (res.filter fun r => r.mask != 0).map fun r =>
      ({ file := r.file, reg := r.reg, n := r.data.length, data := r.data, mask := r.mask, remain := lk.look,
         arrived := r.arrived, why := r.why, word := (encodeWave i).getD 0 } : Pend) with
  | [] => []
  | e :: es => { e with slot := lk.slot, counts := !(e.n == 0 && e.arrived) } :: es

/-- Results join a wave's pending ones, their slots counting (R52). -/
def Wave.addPends (w : Wave) (ps : List Pend) : Wave :=
  let w1 := ps.foldl (fun w p => if p.counts then w.slotAdd p.slot true else w) w
  { w1 with pend := w1.pend ++ ps }

/-- The last uses of a word (R43, R44): its marked sources become DEAD, or, under a partial mask, LUIGN counts. -/
def State.useSources (s : State) (k : Key) (i : Instr) : State :=
  let os := opdsOf i
  let w := s.wave k
  if w.act (lkOf i).pr (lkOf i).pn == w.nonExited then s.setWave k (w.lastUses os)
  else if lastCount os == 0 then s
  else s.modCrew (crewOf k) fun c => { c with luign := c.luign + BitVec.ofNat 32 (lastCount os) }

/-- The other effects of issue (R44, R52): the wakes of the destinations, the results or the pending results with their slot, and the
count of the open windows, the word's quadrant, crew and context. -/
def State.takeEffect (s : State) (k : Key) (i : Instr) (res : List Res) : State :=
  let w := s.wave k
  let dst := banksOf (opdsOf i) fun o => o.writes
  let w2 :=
    if (lkOf i).long then ((w.beginWake ((encodeWave i).getD 0) dst).countWindows).addPends (pendsOf i res)
    else
      ((res.filter fun r => r.mask != 0).foldl (fun w r => w.commit r.file r.reg r.data r.mask) (w.wake dst).1).countWindows
  (s.setWave k w2).countIssue k

/-- The running group goes on past its word, which leaves no park. -/
def Wave.goPast (w : Wave) (adv : Adv) : Wave :=
  let w1 := match adv with | .step => w.advance | .leave => { w with clause := none, group := 0 }
  { w1 with park := none, parkI := none }

/-- Retires a word that has issued (R43, R44): its effects, and the wave goes on. -/
def State.retire (s : State) (k : Key) (i : Instr) (res : List Res) (adv : Adv) : State :=
  ((s.useSources k i).takeEffect k i res).modWave k fun w => w.goPast adv

/-- A parked LDWATCH reads its operands at each wake, and they stay LIVE until it is complete (R206, R252). DEDUCED (log 79): so its
last uses take effect then. -/
def Park.readsOn : Park → Bool
  | .ldwatch .. | .watchMiss .. => true
  | _ => false

/-- A wave parks: it gives its quadrant up (R25, R27). -/
def State.parkWave (s : State) (k : Key) (p : Park) (i : Option Instr) : State :=
  (s.modWave k fun w => { w with park := some p, parkI := i, parkSince := s.reft }).leaveQuad k

/-- Attribution of a parity error in bank b that a word's access finds, `before` the wave as the word found it: to an earlier write
whose wake of the bank is in progress, as found at commit; else to the word, precisely where it reads (R47, R48). -/
def State.raiseLoss (s : State) (k : Key) (before : Wave) (b : Nat) (word : Dword) (reads : Bool) : State :=
  if (before.bank b).waking then s.raiseWave k .retloss (BitVec.ofNat 64 b) (before.bank b).waker true false
  else s.raiseWave k .retloss (BitVec.ofNat 64 b) word (!reads) reads

/-- ISSUE of one word of the wave in focus: interlocks, BUDGET, RDEAD, wakes, then the body (R44, R164 steps 4 to 6).
A word that faults has no effect. A wave held at the result of an access that missed parks (R34). -/
def State.issue (s : State) (i : Instr) (body : State → Key → Wave → Eff) : State :=
  let k := s.cur
  let w := s.wave k
  let os := opdsOf i
  let lk := lkOf i
  let word := (encodeWave i).getD 0
  if interlock w os lk then
    (if missLock w os then s.parkWave k .miss none else s)
  else
  match budgetBad w os with
  | some r => s.raiseWave k .budget (BitVec.ofNat 64 r) word
  | none =>
  match deadReg w os with
  | some r => s.raiseWave k .rdead (BitVec.ofNat 64 r) word
  | none =>
  let (wr, lost) := w.wake (banksOf os fun o => o.reads)
  match lost with
  | some b => (s.setWave k wr).raiseLoss k w b word true
  | none =>
  let s1 := s.setWave k wr
  match body s1 k wr with
  | .fault cls det => s.raiseWave k cls det word
  | .faultIn s2 cls det => s2.raiseWave k cls det word
  | .hold => s
  | .holdIn s2 => s2
  | .park s2 p => s2.parkWave k p (some i)
  | .wait s2 p res => ((if p.readsOn then s2 else s2.useSources k i).takeEffect k i res).parkWave k p (some i)
  | .done s2 res adv =>
    let w2 := s2.wave k
    let lostW := if lk.long then none else (w2.wake (banksOf os fun o => o.writes)).2
    let s3 := s2.retire k i res adv
    match lostW with
    | some b => s3.raiseLoss k w2 b word false
    | none => s3

/-- ORs the flags of the live lanes of M into FPFLAGS (R75). -/
def Wave.raiseFlags (w : Wave) (m : LaneMask) (f : Fin 32 → BitVec 6) : Wave :=
  let fl : BitVec 6 := (lanesOf (m &&& w.liveMask)).foldl (fun a l => a ||| f l) 0
  { w with fpflags := w.fpflags ||| fl.setWidth 32 }

/-- A free value: the counter moves on. -/
def State.free (s : State) : Nat × State := (s.freeCtr, { s with freeCtr := s.freeCtr + 1 })

/-- RESUME continues at the word after the one that faulted: a TRAP or BKPT (R205, R379). A wave that a debugger stopped has not
executed its word, and continues with it (DEDUCED, log 80). -/
def continuesPast (cls : Option FClass) (word : Dword) : Bool :=
  cls == some .swtrap || (cls == some .brk && word.extractLsb' 56 8 == 0x09)

/-- RETURN FROM AN EXCEPTION, of a stopped wave (R345, R379): a TRAP or BKPT word continues at the next word, everything
else at the recorded point, where a faulting word issues again; so does a wave that a debugger stopped, whose word has not
executed. DESIGN CHOICE (log 50): the word continued past does not count as an issued instruction of an open window (R50). -/
def State.returnWave (s : State) (k : Key) (cls : Option FClass) (word : Dword) : State :=
  s.modWave k fun w =>
    let w1 := { w with stopped := false, stopAs := none }
    if continuesPast cls word then w1.advance else w1

end Sys2Proof.Machine
end

