-- ==== Sys2Proof/Machine/Operands.lean ====
section
/-! DEFINITION. Operand forms: the B field with its immediates and special sources (R166, R208, R226), the lanes and
registers a vector or scalar form reads and writes (R209), and addresses of memory words (R245). -/

namespace Sys2Proof.Machine

/-- A w-bit number as signed. -/
def sgnOf (w a : Nat) : Int := if a % 2 ^ w < 2 ^ (w - 1) then ((a % 2 ^ w : Nat) : Int) else ((a % 2 ^ w : Nat) : Int) - (2 ^ w : Nat)

/-- An integer modulo 2^w. -/
def wrapOf (w : Nat) (i : Int) : Nat := (i % (2 ^ w : Nat)).toNat

/-- Width of a type in bits (R208). -/
def tyBits (t : ITy) : Nat := 32 * t.regs

/-- The value of an 8-bit immediate (R166). -/
def immOf (b : BitVec 8) : Int := b.toInt

/-- CORE of a wave (R4, R202). -/
def coreNo (k : Key) : Word :=
  if isReeveCore (coreOf k) then Config.reeveId 0 (coreOf k) 0 else BitVec.ofNat 32 (coreOf k)
/-- CREWID of a wave (R17, R202). -/
def State.crewNo (s : State) (k : Key) : Word :=
  if isReeveCore (coreOf k) then Config.reeveId 1 (coreOf k) (cslotOf (crewOf k)) else (s.crew (crewOf k)).crewid

/-- The special sources of R166. -/
def State.special (s : State) (k : Key) (b : Nat) (l : Fin 32) : Nat :=
  match b with
  | 0 => l.val
  | 1 => waveIdOf k
  | 2 => (s.crewNo k).toNat
  | 3 => (coreNo k).toNat
  | 4 => dieOf (coreOf k) % 4
  | _ => 0

/-- Operand B of an integer word as an n-register number, in a lane (R166, R208). -/
def State.bInt (s : State) (k : Key) (w : Wave) (x : VF) (n : Nat) (l : Fin 32) : Nat :=
  if x.bk = 0 then w.rvn x.b.toNat n l
  else if x.bk = 1 then w.rsn x.b.toNat n
  else if x.bk = 2 then wrapOf (32 * n) (immOf x.b)
  else s.special k x.b.toNat l

/-- Registers of an operand field. -/
def FieldUse.width : FieldUse → Nat
  | .reg _ n => n
  | .none | .code => 0

/-- Operands A, B and C of an integer word in a lane of the vector form, or of the scalar form. -/
structure Srcs where
  a : Nat
  b : Nat
  c : Nat
  deriving DecidableEq, Repr

/-- Sources of a vector form in a lane, with register widths na, nb, nc (R209). -/
def State.srcV (s : State) (k : Key) (w : Wave) (x : VF) (na nb nc : Nat) (l : Fin 32) : Srcs :=
  { a := w.rvn x.a.toNat na l, b := s.bInt k w x nb l, c := w.rvn x.c.toNat nc l }
/-- Sources of a scalar form (R209). -/
def State.srcS (s : State) (k : Key) (w : Wave) (x : VF) (na nb nc : Nat) : Srcs :=
  { a := w.rsn x.a.toNat na, b := s.bInt k w x nb 0, c := w.rsn x.c.toNat nc }

/-- Register widths of A, B, C and D of a word, from its shape. -/
def widths (i : Instr) : Nat × Nat × Nat × Nat :=
  let v := vshape i
  (v.a.width, (match v.b with | some u => max u.v u.s | none => 0), v.c.width, v.d.width)

/-- IntExec of R209: D ← Op(A, B, C), per lane of M in the vector form, once in the scalar form. -/
def intBody (i : Instr) (sf : Bool) (x : VF) (op : Srcs → Nat) (s : State) (k : Key) (w : Wave) : Eff :=
  let m := w.act x.pr x.pn
  let (na, nb, nc, nd) := widths i
  .done s [if sf then resS x.d.toNat nd m (op (s.srcS k w x na nb nc))
    else resV x.d.toNat nd m fun l => op (s.srcV k w x na nb nc l)]

/-- A mask result of an integer word (R214): bit L per lane of M, or every bit in the scalar form. -/
def intMaskBody (i : Instr) (sf : Bool) (x : VF) (op : Srcs → Bool) (s : State) (k : Key) (w : Wave) : Eff :=
  let m := w.act x.pr x.pn
  let (na, nb, nc, _) := widths i
  .done s [if sf then resK x.d.toNat (if m = 0 then 0 else BitVec.allOnes 32) (fun _ => op (s.srcS k w x na nb nc))
    else resK x.d.toNat m fun l => op (s.srcV k w x na nb nc l)]

/-- The lowest lane of a mask. -/
def lowLane (m : LaneMask) : Fin 32 := (lanesOf m).headD 0

/-- E of an M word with a vector pair of addresses (R245): modulo 2^64. -/
def Wave.addrV (w : Wave) (x : MF) (l : Fin 32) : Dword :=
  BitVec.ofNat 64 (w.rvn x.ar.toNat 2 l) + x.off.signExtend 64
/-- E of an M word with a scalar pair (R245). -/
def Wave.addrS (w : Wave) (x : MF) : Dword := BitVec.ofNat 64 (w.rsn x.ar.toNat 2) + x.off.signExtend 64
/-- OFF of an atomic word, 13 bits (R168). -/
def atomOff (x : MF) : Dword := (x.off.extractLsb' 0 13).signExtend 64
/-- E of an atomic word (R168, R245). -/
def Wave.addrA (w : Wave) (x : MF) (l : Fin 32) : Dword := BitVec.ofNat 64 (w.rvn x.ar.toNat 2 l) + atomOff x

end Sys2Proof.Machine
end

