-- ==== Sys2Proof/Machine/CopyShape.lean ====
section
/-! DEFINITION. The geometry of a copy command (R261 to R269): how many bytes it writes, in which beats, and where each
destination word lies. A beat holds 256 consecutive bytes of the destination, pad included. -/

namespace Sys2Proof
open Machine

/-- LEN of kinds 0 and 4 (R262). -/
def CopyCmd.len (c : CopyCmd) : Nat := bits c.w3 31 0
/-- ROWS (R262). -/
def CopyCmd.rows (c : CopyCmd) : Nat := c.kw.toNat
/-- ROWB (R262). -/
def CopyCmd.rowb (c : CopyCmd) : Nat := bits c.w3 15 0
/-- SSTR of kind 1 (R262). -/
def CopyCmd.sstr (c : CopyCmd) : Nat := bits c.w3 63 40
/-- DSTR of kind 1 (R262). -/
def CopyCmd.dstr (c : CopyCmd) : Nat := bits c.w3 39 16
/-- TR (R262). -/
def CopyCmd.tr (c : CopyCmd) : Bool := c.kf.getLsbD 3
/-- Element size of a transpose (R264). -/
def CopyCmd.esz (c : CopyCmd) : Nat :=
  match (c.kf.extractLsb' 1 2).toNat with | 0 => 4 | 1 => 2 | 2 => 1 | _ => 8
/-- PADW (R262). -/
def CopyCmd.padw (c : CopyCmd) : Nat := c.kx.toNat
/-- Data bytes of a destination row (R264). -/
def CopyCmd.drow (c : CopyCmd) : Nat := if c.tr then c.rows * c.esz else c.rowb
/-- Destination rows (R264). -/
def CopyCmd.drows (c : CopyCmd) : Nat := if c.tr then c.rowb / c.esz else c.rows
/-- EB of a gather (R265). -/
def CopyCmd.eb (c : CopyCmd) : Nat := 4 * (c.kx.toNat + 1)
/-- COUNT of a gather (R262). -/
def CopyCmd.count (c : CopyCmd) : Nat := bits c.w3 19 0
/-- IXA of a gather (R262). -/
def CopyCmd.ixa (c : CopyCmd) : Nat := bits c.w3 49 32
/-- LINES of an operand load (R262). -/
def CopyCmd.lines (c : CopyCmd) : Nat := bits c.w3 47 40
/-- SSTR of an operand load (R262). -/
def CopyCmd.lstr (c : CopyCmd) : Nat := bits c.w3 31 0
/-- RES of an operand load (R262). -/
def CopyCmd.res (c : CopyCmd) : Nat := bits c.w2 51 48
/-- UOFF of an operand load (R262). -/
def CopyCmd.uoff (c : CopyCmd) : Nat := bits c.w2 8 0
/-- CONV (R262). -/
def CopyCmd.conv (c : CopyCmd) : Bool := c.kf.getLsbD 3
/-- FOLD (R262). -/
def CopyCmd.fold (c : CopyCmd) : Bool := c.kf.getLsbD 2
/-- SMW (R262). -/
def CopyCmd.smw (c : CopyCmd) : Nat := c.kw.toNat
/-- DIR of a remote copy (R262). -/
def CopyCmd.dir (c : CopyCmd) : Bool := c.kf.getLsbD 3
/-- PEER of a remote copy (R262). -/
def CopyCmd.peer (c : CopyCmd) : Nat := c.kx.toNat % 16
/-- Source address field. -/
def CopyCmd.src (c : CopyCmd) : Nat := bits c.w1 56 0
/-- Destination address field. -/
def CopyCmd.dst (c : CopyCmd) : Nat := bits c.w2 56 0

/-- Bytes that a command writes, pad included (R271). -/
def CopyCmd.total (c : CopyCmd) : Nat :=
  match c.kind.toNat with
  | 1 => c.drows * (c.drow + 4 * c.padw)
  | 2 => c.count * c.eb
  | 3 => c.lines * 64
  | _ => c.len


/-- Destination address of destination byte n; in the operand buffer it is a byte offset from unit `base`. -/
def CopyCmd.dstAt (c : CopyCmd) (base n : Nat) : Nat :=
  match c.kind.toNat with
  | 1 => let r := c.drow + 4 * c.padw; c.dst + n / r * c.dstr + n % r
  | 3 => (base + c.uoff) * 256 + n
  | _ => c.dst + n

/-- Source address of destination byte n of kinds 0, 1, 3 and 4; none for a pad byte. Kind 3 with CONV names the FP32 word
of the element. -/
def CopyCmd.srcAt (c : CopyCmd) (fmt n : Nat) : Option Nat :=
  match c.kind.toNat with
  | 1 =>
    let r := c.drow + 4 * c.padw
    let p := n % r
    if c.drow ≤ p then none
    else if c.tr then some (c.src + p / c.esz * c.sstr + n / r * c.esz + p % c.esz)
    else some (c.src + n / r * c.sstr + p)
  | 3 =>
    let e := if fmt ≤ 1 then 2 else 1
    some (c.src + n / 64 * c.lstr + (if c.conv then n % 64 / e * 4 else n % 64))
  | _ => some (c.src + n)

/-- An aligned 64-bit part of the global space would be parted by a beat that ends before destination byte n. -/
def CopyCmd.parts (c : CopyCmd) (n : Nat) : Bool := c.dstAt 0 n % 8 == 4 && c.dstAt 0 (n - 4) + 4 == c.dstAt 0 n

/-- Where the beat that begins at destination byte n ends: after 256 bytes, or after 252 where an aligned 64-bit part would be
parted (R136, R269). -/
def CopyCmd.cut (c : CopyCmd) (n : Nat) : Nat :=
  if n + 256 < c.total && c.parts (n + 256) then n + 252 else n + 256

/-- First destination byte of a beat: destinations outside the global space are cut every 256 bytes. -/
def CopyCmd.bound (c : CopyCmd) : (b : Nat) → Nat
  | 0 => 0
  | b + 1 => if c.dsp = 0 then c.cut (c.bound b) else 256 * (b + 1)

/-- Beats from destination byte n on. -/
def CopyCmd.cuts (c : CopyCmd) : (fuel : Nat) → (n : Nat) → Nat
  | 0, _ => 0
  | f + 1, n => if c.total ≤ n then 0 else 1 + c.cuts f (c.cut n)

/-- Beats of a command (R269). -/
def CopyCmd.beats (c : CopyCmd) : Nat := if c.dsp = 0 then c.cuts (c.total / 252 + 1) 0 else (c.total + 255) / 256

/-- Destination bytes of a beat. -/
def CopyCmd.beatBytes (c : CopyCmd) (b : Nat) : List Nat :=
  let lo := c.bound b
  (List.range (min c.total (c.bound (b + 1)) - lo)).map (lo + ·)

/-- Scratchpad banks a command's destination lies in. -/
def CopyCmd.dstBanks (c : CopyCmd) : List Nat :=
  if c.dsp = 1 then (((List.range (c.total / 4)).map fun i => c.dstAt 0 (4 * i) / 8192).dedup) else []

end Sys2Proof

namespace Sys2Proof.Machine

/-- The beat has been performed. -/
def CopyEnt.did (e : CopyEnt) (b : Nat) : Bool := decide (b < e.mark) || e.more.contains b

/-- Every beat has been performed. -/
def CopyEnt.allDone (e : CopyEnt) : Bool := decide (e.cmd.beats ≤ e.mark)

/-- Moves the watermark past the beats performed. -/
def raiseMark (mark : Nat) (more : List Nat) : Nat → Nat × List Nat
  | 0 => (mark, more)
  | n + 1 => if more.contains mark then raiseMark (mark + 1) (more.filter (· ≠ mark)) n else (mark, more)

/-- Counts a beat as performed. -/
def CopyEnt.mark1 (e : CopyEnt) (b : Nat) : CopyEnt :=
  let p := raiseMark e.mark (e.more ++ [b]) (e.more.length + 1)
  { e with mark := p.1, more := p.2 }

/-- A beat not yet performed writes the scratchpad bank (R90, R91). -/
def CopyEnt.pendsInto (e : CopyEnt) (bank : Nat) : Bool :=
  e.cmd.dsp == 1 && (List.range e.cmd.beats).any fun b =>
    !e.did b && (e.cmd.beatBytes b).any fun n => e.cmd.dstAt 0 n / 8192 == bank

/-- A copy beat is pending into a bank of a crew (R90, R91, R92). -/
def State.copyPends (s : State) (c : Key) (bank : Nat) : Bool :=
  (s.core (coreOfCrew c)).copyq.any fun e => e.cslot == cslotOf c && e.pendsInto bank

end Sys2Proof.Machine
end

