-- ==== Sys2Proof/Machine/Throttle.lean ====
section
/-! DEFINITION. Throttling as crews see it (R202, R367, R400), the package barrier unit (R319, R320), and the holds of
matrix islands (R148, R397). -/

namespace Sys2Proof.Machine

/-- The reduction with the smallest duty, ties to the lower cause (R400). -/
def worstCause (t : Tab Nat) : Option Nat :=
  match t with
  | [] => none
  | e :: r => some (r.foldl (fun (b : Nat × Nat) x => if x.2 < b.2 then x else b) e).1

/-- THRSTAT (R202): THR while any reduction holds the crew, CAUSE of the current or latest, EPIS. -/
def Crew.thrstat (c : Crew) : Nat :=
  (if c.thr = [] then 0 else 2 ^ 31) + (worstCause c.thr).getD c.thrCause % 8 * 2 ^ 28 + min c.thrEpis 0xFFFF

/-- Issue duty of a crew in sixteenths: the smallest of its reductions (R400). A tokenless wait, cause 5, holds no cycle. -/
def Crew.duty (c : Crew) : Nat := (((c.thr.filter fun e => e.1 != 5).map (·.2)).min?).getD 16

/-- Crews resident in a context. -/
def State.ctxCrews (s : State) (c : Nat) : List Key :=
  (s.crews.filter fun e => !isReeveCore (coreOfCrew e.1) && e.2.st ≠ .absent && e.2.ctx == c).map (·.1)

/-- Firmware and the host are told of a throttle of a context, unless a notice of the context and cause is pending, into which it
merges (R339, R367). -/
def State.notice (s : State) (c c8 : Nat) : State :=
  if (s.die (s.homeDie c)).evq.any fun e => e.kind == 0x05 && e.handle == ctxHandle c && e.key == c8 then s
  else
    (s.event (s.homeDie c) 0x05 (ctxHandle c) (BitVec.ofNat 64 c8) c8).modPkg fun p =>
      { p with hostEvents := p.hostEvents ++
          [[BitVec.ofNat 64 (0x05 * 2 ^ 56) ||| (ctxHandle c).setWidth 64, BitVec.ofNat 64 c8, BitVec.ofNat 64 s.reft, 0]] }

/-- A crew is held by a throttle of a cause, with a duty in sixteenths; the first crew of its context so held begins an
episode, of which firmware and the host are told (R202, R367). Causes 9 and 11 are the relocks of a step, which read as causes 1 and 3
(R318, R399). -/
def State.throttle (s : State) (k : Key) (cause duty : Nat) : State :=
  let c := (s.crew k).ctx
  let c8 := cause % 8
  let held (x : Crew) : Bool := (tfind x.thr c8).isSome || (tfind x.thr (c8 + 8)).isSome
  let was := (s.ctxCrews c).any fun x => held (s.crew x)
  let s1 := s.modCrew k fun x =>
    { x with thr := tset x.thr cause duty, thrCause := c8,
             thrEpis := if held x then x.thrEpis else min 0xFFFF (x.thrEpis + 1) }
  if was then s1 else s1.notice c c8

/-- A throttle of a cause ends for a crew. -/
def State.unthrottle (s : State) (k : Key) (cause : Nat) : State :=
  s.modCrew k fun x => { x with thr := tdel x.thr cause }

/-- Crews of a polder on a die. -/
def State.polderCrews (s : State) (p d : Nat) : List Key :=
  (s.crews.filter fun e => !isReeveCore (coreOfCrew e.1) && dieOf (coreOfCrew e.1) == d && e.2.st ≠ .absent
    && polderOf e.2.ctx == p).map (·.1)

/-- Issue-enabled cycles of a die from its departure from the previous round to a stamp (R320 step 1). -/
def Barrier.spanOf (b : Barrier) (d ran : Nat) : Nat := (ran - tget b.depart 0 d) / 16

/-- The registrations that slow a polder's cores on a die: the duties. -/
def State.slowing (s : State) (p d : Nat) : List Nat :=
  (s.pkg.barriers.filter fun b => b.polder == p).filterMap fun b => tfind b.slow d

/-- The polder's crews on a die are held by the smallest duty of the registrations that slow it, or held no longer (R320 step 4). -/
def State.holdSlow (s : State) (p d : Nat) : State :=
  (s.polderCrews p d).foldl
    (fun s k => match (s.slowing p d).min? with | some n => s.throttle k 4 n | none => s.unthrottle k 4) s

/-- The combined duty of a polder's cores on a die (R400): the smallest of its reductions there. -/
def State.polderDuty (s : State) (p d : Nat) : Nat :=
  (((s.polderCrews p d).map fun k => (s.crew k).duty) ++ s.slowing p d).min?.getD 16

/-- P × (product of the other dies' codes) is compared instead of P = S / f (R320 step 2): `x` before `y` when
S_x / m_x < S_y / m_y. -/
def spanLt (x y : Nat × Nat) : Bool := decide (x.1 * y.2 < y.1 * x.2)

/-- DUTY of a die whose span and code are x where the largest predicted span is y; the threshold is in ns (R320 step 3).
The predicted span is S × 40 / m ns. -/
def dutyOf (x y : Nat × Nat) (thr : Nat) : Nat :=
  if decide (thr * x.2 * y.2 < 40 * (y.1 * x.2 - x.1 * y.2)) then
    ((List.range 16).find? fun k => decide (x.1 * 16 * y.2 ≤ y.1 * x.2 * (k + 1))).map (· + 1) |>.getD 16
  else 16

/-- The report of a closed round (R319). -/
def barrierReport (round last first mask : Nat) (stamp : Nat → Nat) (skew : Nat) (duty : Nat → Nat) : List Dword :=
  [ BitVec.ofNat 64 (round % 2 ^ 32 * 2 ^ 32 + last * 1024 + first * 256 + mask * 16),
    BitVec.ofNat 64 (stamp 0), BitVec.ofNat 64 (stamp 1), BitVec.ofNat 64 (stamp 2), BitVec.ofNat 64 (stamp 3),
    BitVec.ofNat 64 skew,
    BitVec.ofNat 64 (duty 0 + duty 1 * 32 + duty 2 * 1024 + duty 3 * 32768), 0 ]

/-- A round closes (R319, R320): report, host event, the duties of the next round, and the crews slowed by them. FIRST names, of the dies
with the earliest stamp, the one whose arrival was performed first (DESIGN CHOICE, log 34). -/
def State.closeRound (s : State) (i : Nat) (b : Barrier) (last : Nat) : State :=
  let at' (d : Nat) : List Nat := (b.arrivals.filter fun a => a.1 == d).map (·.2)
  let dies := (List.range 4).filter fun d => at' d ≠ []
  let stamps := b.arrivals.map (·.2)
  let lo := (stamps.min?).getD 0
  let hi := (stamps.max?).getD 0
  let pair (d : Nat) : Nat × Nat := (tget b.span 0 d, (s.die d).cur)
  let big := dies.foldl (fun m d => if spanLt m (pair d) then pair d else m) (0, 1)
  let duty (d : Nat) : Nat := if dies.contains d then dutyOf (pair d) big b.thr else 16
  let first := ((b.arrivals.find? fun a => a.2 == lo).map (·.1)).getD 0
  let rep := barrierReport (b.round + 1) last first (dies.foldl (fun m d => m + 2 ^ d) 0)
    (fun d => ((at' d).max?).getD 0) (hi - lo) duty
  let b1 : Barrier :=
    { b with round := b.round + 1, arrivals := [], span := [],
             duty := (List.range 4).foldl (fun t d => tset t d (duty d)) [],
             slow := ((List.range 4).filter fun d => decide (duty d < 16)).map fun d => (d, duty d),
             depart := (s.polder b.polder).ran }
  let s1 := s.modPkg fun p =>
    { p with barriers := p.barriers.set i b1, reports := p.reports ++ [rep],
             hostEvents := p.hostEvents ++ [[BitVec.ofNat 64 (hi - lo)]] }
  let s2 := s1.event (s1.lowCluster b.polder / 8) 0x04 (ctxHandle (16 * b.polder))
    (BitVec.ofNat 64 (s.pkg.reports.length))
  (List.range 4).foldl (fun s d => s.holdSlow b.polder d) s2

/-- The registration of a word for a polder. -/
def State.barrierAt (s : State) (pa p : Nat) : Option Nat := s.pkg.barriers.findIdx? fun b => b.addr == pa && b.polder == p

/-- An arrival at a registered word is stamped as its ATOM issues on a die: a slowing of the die by that word ends, and the wave is
one that uses the word (R319, R320 step 4). -/
def State.barrierStamp (s : State) (pa p : Nat) (k : Key) : State :=
  match s.barrierAt pa p with
  | none => s
  | some i =>
    let d := dieOf (coreOf k)
    let s1 := s.modPkg fun q => { q with barriers := q.barriers.modify i fun b =>
      { b with slow := tdel b.slow d, users := if b.users.contains k then b.users else k :: b.users } }
    s1.holdSlow p d

/-- One arrival at a registered barrier word by an add of a wave of the polder on a die (R319), performed after its stamp: the
die's span ends at its latest stamp (R320 step 1), and every N arrivals close a round. -/
def State.barrierArrive (s : State) (pa p die : Nat) (stamp : Stamp) : State :=
  match s.barrierAt pa p with
  | none => s
  | some i =>
    match s.pkg.barriers[i]? with
    | none => s
    | some b =>
      let later := (b.arrivals.filter fun a => a.1 == die).all fun a => decide (a.2 ≤ stamp.reft)
      let b1 : Barrier :=
        { b with arrivals := b.arrivals ++ [(die, stamp.reft)],
                 span := if later then tset b.span die (b.spanOf die stamp.ran) else b.span }
      let s1 := s.modPkg fun q => { q with barriers := q.barriers.set i b1 }
      if b.n ≤ b1.arrivals.length then s1.closeRound i b1 die else s1

/-- Slowing ends on a die on which no wave that uses the registered word remains (R320). -/
def State.barrierLeave (s : State) : State :=
  let uses (b : Barrier) (d : Nat) : Bool := b.users.any fun k => dieOf (coreOf k) == d && (s.wave k).here && !(s.wave k).done
  let s1 := s.modPkg fun q => { q with barriers := q.barriers.map fun b => { b with slow := b.slow.filter fun e => uses b e.1 } }
  if s.pkg.barriers.all (fun b => b.slow = []) then s
  else (s.pkg.barriers.flatMap fun b => b.slow.map fun e => (b.polder, e.1)).foldl (fun s e => s.holdSlow e.1 e.2) s1

/-- A crew dispatched to a die on which its polder is slowed is held like the others (R320 step 4). -/
def State.slowNew (s : State) (k : Key) : State :=
  ((s.slowing (polderOf (s.crew k).ctx) (dieOf (coreOfCrew k))).min?).elim s fun d => s.throttle k 4 d

-- Holds of a matrix island (R148, R397).

/-- Resident crews of a core. -/
def State.residents (s : State) (core : Nat) : List Key :=
  ((List.range 16).map fun i => crewKey core i).filter fun c => (s.crew c).st ≠ .absent

/-- Point of a frequency table at a code: the nearest higher of 0.6, 0.8, ..., 2.2 GHz (R393). -/
def freqPoint (m : Nat) : Nat := (m + 7) / 8 * 8

/-- VG of a core's island at the die's frequency (R393): the provisioned value, else the one of log 7. -/
def State.vgNow (s : State) (core : Nat) : Nat := tget s.pkg.vg 800 (core * 128 + freqPoint (s.die (dieOf core)).cur)
/-- DROP of a core's island (R393). -/
def State.dropOf (s : State) (core : Nat) : Nat := min 120 (tget s.pkg.drop 110 core)
/-- VF of a core's island (R393). -/
def State.vfNow (s : State) (core : Nat) : Nat := s.vgNow core - s.dropOf core
/-- VSET of an island; 0 in State stands for an island never moved from VG. -/
def State.vsetOf (s : State) (core : Nat) : Nat :=
  let i := (s.core core).island
  if i.vset = 0 then s.vgNow core else i.vset

/-- The island is to be held at its guarded point: FORCE, a resident crew with MODE = exact, or an exact product that
is queued (R148, R397); that of a sequencer which a floodgate has stopped is not executed (R160). -/
def State.holdWanted (s : State) (core : Nat) : Bool :=
  let c := s.core core
  c.island.force || (c.issued.any fun p => p.mode == 0 && !(s.crew (crewKey core p.cslot)).seq.stopped)
    || (s.residents core).any fun c => (s.crew c).regionMode == 0

/-- Nanoseconds of a rise from VSET to VG at 0.6 mV a ns (R392, R397). -/
def State.riseTime (s : State) (core : Nat) : Nat := ((s.vgNow core - s.vsetOf core) * 10 + 5) / 6

/-- A hold begins to raise an island that stands below VG; where no reason holds it any longer, it falls to VSET (R397). -/
def State.islandSettle (s : State) (core : Nat) : State :=
  let i := (s.core core).island
  if s.holdWanted core then
    if i.mode == .over && i.riseBy.isNone && decide (s.vsetOf core < s.vgNow core) then
      s.modCore core fun c => { c with island := { c.island with riseBy := some (s.reft + s.riseTime core) } }
    else s
  else if i.mode == .guarded || i.riseBy.isSome then
    s.modCore core fun c => { c with island := { c.island with
      mode := if i.mode == .guarded then .over else i.mode, riseBy := none } }
  else s

/-- MODE of an island as it acts: held while a hold is wanted (R397). -/
def State.islandMode (s : State) (core : Nat) : IslandMode :=
  let i := (s.core core).island
  if i.mode == .over && s.holdWanted core then .guarded else i.mode

/-- A hold has brought an island to VG: it was there already, or its rise is over (R392, R397). -/
def State.islandRisen (s : State) (core : Nat) : Bool :=
  match (s.core core).island.riseBy with
  | some t => decide (t ≤ s.reft)
  | none => decide (s.vgNow core ≤ s.vsetOf core)

/-- VNOW of an island: at VG once a guard step or a hold has brought it there, else at VSET. -/
def State.vnowOf (s : State) (core : Nat) : Nat :=
  match (s.core core).island.mode with
  | .guarded => s.vgNow core
  | .over => if s.holdWanted core && s.islandRisen core then s.vgNow core else s.vsetOf core
  | .step => s.vsetOf core
  | .off => 0

end Sys2Proof.Machine
end

