-- ==== Sys2Proof/Machine/Clock.lean ====
section
/-! DEFINITION. Die clocks (R318, R398, R399): the steps of a die's frequency, and DCLK. -/

namespace Sys2Proof.Machine

/-- The cores of a die with a matrix island. -/
def dieCores (d : Nat) : List Nat := (List.range 63).map fun i => d * 63 + i
/-- Crews on a die. -/
def State.dieCrews (s : State) (d : Nat) : List Key := (dieCores d).flatMap s.residents
/-- VG of a core's island at a clock code (R393). -/
def State.vgAt (s : State) (core m : Nat) : Nat := tget s.pkg.vg 800 (core * 128 + freqPoint m)
/-- VMIN of a rail at a code (log 7). -/
def State.vminAt (s : State) (rail m : Nat) : Nat := tget s.pkg.vmin 700 (rail * 128 + freqPoint m)
/-- VNOM of a rail at a code (log 7). -/
def State.vnomAt (s : State) (rail m : Nat) : Nat := tget s.pkg.vnom 800 (rail * 128 + freqPoint m)
/-- The four rails of a die: vector and logic, SRAM, fabric, guarded (R392). -/
def dieRails (d : Nat) : List Nat := (List.range 4).map (4 * d + ·)
/-- Voltage of a rail (R393): as firmware last asked, within its bounds. -/
def State.railOf (s : State) (rail m : Nat) : Nat :=
  max (s.vminAt rail m) (min (s.vnomAt rail m) (tget s.pkg.rail (s.vnomAt rail m) rail))

/-- A rail or powered island of a die stands below its point for a code (R399 step 1). -/
def State.belowPoint (s : State) (d m : Nat) : Bool :=
  let cur := (s.die d).cur
  (dieCores d).any (fun n => (s.core n).island.mode != .off && decide (s.vnowOf n < s.vgAt n m))
    || (dieRails d).any fun r => decide (s.railOf r cur < s.railOf r m)

/-- The clock stops and the PLL relocks (R318, R399 step 2): islands take VG of the new frequency; the crews of the die are held
meanwhile, as a throttle of cause 1, or of cause 3 in a thermal trip's step. -/
def State.beginRelock (s : State) (d m : Nat) : State :=
  let s1 := s.modDie d fun x => { x with rel := true, stepping := .relock m, relockAt := s.reft }
  let s2 := (dieCores d).foldl (fun s n => s.modCore n fun y =>
    { y with island := { y.island with vset := s.vgAt n m, cred := 0 } }) s1
  (s2.dieCrews d).foldl (fun s k => s.throttle k (if (s.die d).thm then 11 else 9) 0) s2

/-- A step to a code starts (R399); a code equal to CUR has no effect. THM tells whether the thermal trip asked for the step (R398). -/
def State.beginStep (s : State) (d m : Nat) : State :=
  let x := s.die d
  if m = x.cur then s
  else
    let s1 := s.modDie d fun y => { y with thm := y.tgtHot }
    if x.cur < m && s1.belowPoint d m then s1.modDie d fun y => { y with stepping := .rise m } else s1.beginRelock d m

/-- TGT is written (R398, R399), by a thermal trip or by firmware: clamped to 24 to 88; during a step it is kept. -/
def State.writeTgt (s : State) (d m : Nat) (thermal : Bool) : State :=
  let t := max 24 (min 88 m)
  let s1 := s.modDie d fun x => { x with tgt := t, tgtHot := thermal }
  match (s.die d).stepping with
  | .none => s1.beginStep d t
  | .rise _ | .relock _ => s1

/-- DCLK of a die (R398). -/
def State.dclk (s : State) (d : Nat) : Nat :=
  let x := s.die d
  (if x.rel then 2 ^ 31 else 0) + (if x.thm then 2 ^ 30 else 0) + x.cur % 128 * 256 + x.tgt % 128

end Sys2Proof.Machine
end

