-- ==== Sys2Proof/Machine/Mem.lean ====
section
/-! DEFINITION. Memory as the engines reach it: translation (R370 to R374), home slices and logging (R99, R387, R389),
the data caches of a cluster (R98, R100), instruction fetch (R103, R104), and releases and acquires at a scope (R112 to
R130). -/

namespace Sys2Proof.Machine

/-- Access kinds of R371. R371 gives CFLUSH and CINV none: `any` asks that the page permits some access (DESIGN CHOICE, log 85). -/
inductive Acc | read | write | rmw | fetch | any
  deriving DecidableEq, Repr

/-- Number that tags firmware where a context number is expected. -/
def fwCtx : Nat := 512

/-- Context of a wave: none for a reeve wave, which addresses the firmware space (R330). -/
def State.ctxOf (s : State) (k : Key) : Option Nat :=
  if isReeveCore (coreOf k) then none else some (s.crew (crewOf k)).ctx

/-- Answer of a translation: the address on the bus and HOME, a miss, ACCESS, a table line that memory cannot correct (R384), or a
walk that waits for a die whose clock is stopped (R318). -/
inductive TrRes
  | ok (s : State) (pa home : Nat)
  | miss
  | access
  | ecc (line : Nat)
  | busy
  deriving DecidableEq, Repr

/-- The entry of a level of the walk (R371). -/
def pteAddr (t lvl va : Nat) : Nat := t + 8 * (va / 2 ^ (9 * lvl + 12) % 512)

/-- Answer of the way down the tables (R371): the entry that maps va with its address, its level and the non-leaf entries read on
the way (level, table that it names, address); a MISS; a line that memory cannot correct (R384); or an entry that lies across a
stopped crossing (R318). -/
inductive WalkRes
  | leaf (addr : Nat) (e : Dword) (lvl : Nat) (new : List (Nat × Nat × Nat))
  | miss
  | ecc (line : Nat)
  | busy
  deriving DecidableEq, Repr

-- Home slices (R99).

/-- The slice within a die: PA[51:7] folded by exclusive or in 4-bit groups (R99). -/
def foldSlice (pa : Nat) : Nat :=
  (List.range 12).foldl (fun x i => x ^^^ (pa / 2 ^ (7 + 4 * i) % 16)) 0

/-- Home die of an address (R99, R408); a peer's by the port of its entry in the polder's list, die 0 for firmware, which has none. -/
def State.homeDieOf (s : State) (p pa : Nat) : Nat :=
  match regionOf pa with
  | .hbm => pa / 0x1800000000
  | .boezem => (pa - 0x10000000000) / 0x4000000000
  | .host | .none => 0
  | .peer => ((s.peersOf p pa).head?.map fun n => s.peerPort p n / 8).getD 0

/-- Global number of the home slice (R3, R99). -/
def State.homeSlice (s : State) (p pa : Nat) : Nat := 16 * s.homeDieOf p pa + foldSlice (s.paOf p pa)

/-- An access from a die to an address crosses into or out of a die whose clock is stopped (R318). -/
def State.stuckFrom (s : State) (die p pa : Nat) : Bool :=
  let d := s.homeDieOf p pa
  d != die && ((s.die d).rel || (s.die die).rel)

/-- The line as an L2 slice holds it, with the slice. -/
def State.l2At (s : State) (line : Nat) : Option (Nat × L2Line) :=
  s.pkg.l2.findSome? fun t => (t.2.find? fun x => x.line == line).map fun x => (t.1, x)

/-- A read at home of a line finds an error that cannot be corrected: in the dirty line of its slice, or in memory (R384, R402). -/
def State.homeBad (s : State) (line : Nat) : Bool :=
  match s.l2At line with
  | some x => x.2.bad
  | none => s.pkg.eccBad.contains line

/-- The table that the walk caches of a die hold for a level of a walk (R372). -/
def State.walkHit (s : State) (die ctx lvl va : Nat) : Option Nat :=
  (s.pkg.walks.find? fun x => x.die == die && x.ctx == ctx && x.lvl == lvl && x.va == va / 2 ^ (9 * lvl + 12)).map (·.next)

/-- The walk down to the entry that maps va (R371), through the walk caches of a die where one is given (R372). -/
def State.walkTo (s : State) (die : Option Nat) (ctx va : Nat) : (lvl : Nat) → (t : Nat) → WalkRes
  | 0, t =>
    let e := s.home64 (pteAddr t 0 va)
    if die.any fun d => s.stuckFrom d 0 (pteAddr t 0 va) then .busy
    else if s.homeBad (pteAddr t 0 va / 128) then .ecc (pteAddr t 0 va / 128)
    else if !e.getLsbD 0 || bits e 63 55 != 0 || bits e 11 10 != 0 then .miss else .leaf (pteAddr t 0 va) e 0 []
  | l + 1, t =>
    match die.bind fun d => s.walkHit d ctx (l + 1) va with
    | some n => s.walkTo die ctx va l n
    | none =>
      let e := s.home64 (pteAddr t (l + 1) va)
      if die.any fun d => s.stuckFrom d 0 (pteAddr t (l + 1) va) then .busy
      else if s.homeBad (pteAddr t (l + 1) va / 128) then .ecc (pteAddr t (l + 1) va / 128)
      else if !e.getLsbD 0 || bits e 63 55 != 0 || bits e 11 10 != 0 then .miss
      else if e.getLsbD 8 then .leaf (pteAddr t (l + 1) va) e (l + 1) []
      else
        match s.walkTo die ctx va l (bits e 51 12 * 4096) with
        | .leaf a x n new => .leaf a x n ((l + 1, bits e 51 12 * 4096, pteAddr t (l + 1) va) :: new)
        | r => r

/-- Whether the frame may be mapped (R352, R371, R407, R408): none for a tier mismatch (MISS), some false for a frame
that is not the polder's (ACCESS). -/
def State.frameOk (s : State) (c : Option Nat) (pa tier : Nat) : Option Bool :=
  match c with
  | none =>
    match regionOf pa with
    | .hbm => if tier = 0 then some true else none
    | .boezem => if tier = 1 then some true else none
    | .host | .peer => if tier = 0 then some true else none
    | .none => some false
  | some c =>
    let p := polderOf c
    match regionOf pa with
    | .hbm | .boezem =>
      match s.ownsRange p pa with
      | some t => if t = tier then some true else none
      | none => some false
    | .host => if s.pkg.vfs.contains p then (if tier = 0 then some true else none) else some false
    | .peer =>
      if s.peerValid p (pa / 0x100000000000 % 16) then (if tier = 0 then some true else none) else some false
    | .none => some false

/-- Permission of an access by an entry (R371). -/
def permOk (u rd wr ex : Bool) (a : Acc) : Bool :=
  u && match a with
    | .read => rd
    | .write => wr
    | .rmw => rd && wr
    | .fetch => ex
    | .any => rd || wr || ex

/-- The newest n entries of a TLB stay; entries of other TLBs are untouched (R372). -/
def capTlb (loc : TlbAt) : (n : Nat) → List TlbEnt → List TlbEnt
  | _, [] => []
  | n, x :: r =>
    if x.loc = loc then (match n with | 0 => capTlb loc 0 r | m + 1 => x :: capTlb loc m r)
    else x :: capTlb loc n r

/-- Entries of a TLB (R372): 64 in a core's L1 TLB, 2,048 in a cluster's. -/
def tlbSize : TlbAt → Nat
  | .core _ => 64
  | .cluster _ => 2048

/-- Puts an entry into a TLB, in the place of an older one of the page. -/
def tlbPut (loc : TlbAt) (e : TlbEnt) (t : List TlbEnt) : List TlbEnt :=
  let e1 := { e with loc := loc }
  capTlb loc (tlbSize loc) (e1 :: t.filter fun x => !(x.loc = loc && x.ctx == e.ctx && x.va == e.va))

/-- An entry into a core's L1 TLB and its cluster's TLB. -/
def State.tlbFill (s : State) (core : Nat) (e : TlbEnt) : State :=
  s.modPkg fun p => { p with tlb := tlbPut (.core core) e (tlbPut (.cluster (clusterOf core)) e p.tlb) }

/-- Non-leaf entries that a walk read stay in the walk caches of the die (R372). -/
def State.walkFill (s : State) (die ctx va : Nat) (new : List (Nat × Nat × Nat)) : State :=
  if new = [] then s
  else s.modPkg fun p =>
    { p with walks := (new.map fun x => { die := die, ctx := ctx, lvl := x.1, va := va / 2 ^ (9 * x.1 + 12), next := x.2.1 }) ++ p.walks }

-- Traffic (R364, R368).

/-- Memory controller that serves a physical address: 0 to 31 HBM, four per stack; 32 to 39 boezem, two per die (R364). Which one of
the stack or of the tier's quarter is open. -/
def controllerOf (pa : Nat) : Option Nat :=
  match regionOf pa with
  | .hbm => some (pa / 0xC00000000 * 4 + Config.controller pa % 4)
  | .boezem => some (32 + (pa - 0x10000000000) / 0x4000000000 * 2 + Config.controller pa % 2)
  | _ => none

/-- Adds to a metering counter of a polder (R368). -/
def State.meter (s : State) (p i n : Nat) : State :=
  s.modPolder p fun x => { x with meter := tset x.meter i (tget x.meter 0 i + n) }

/-- The polder that owns the range of a physical address (R351); firmware's own ranges have none. -/
def State.rangeOwner (s : State) (pa : Nat) : Option Nat := (List.range 32).find? fun p => s.polderValid p && (s.ownsRange p pa).isSome

/-- n bytes of a polder's traffic on a path: 0 to 39 a memory controller, 40 the fabric, 41 the host link. Each 64 bytes are a token,
which counts and is spent where the bucket holds it (R364, R365, R368). -/
def State.tokens (s : State) (p path n : Nat) : State :=
  let had := tget (s.polder p).moved 0 path + n
  let kind := if path < 32 then 7 else if path < 40 then 8 else if path = 40 then 9 else 10
  (s.meter p kind (had / 64)).modPolder p fun x =>
    { x with moved := tset x.moved path (had % 64),
             buckets := if path < 40 then tset x.buckets path (tget x.buckets 0 path - had / 64) else x.buckets }

/-- n bytes move between a memory controller and the rest of the device, and are charged to the polder that owns the range (R364); bytes
that leave the module for the context c are its polder's (R369). No value depends on it. -/
def State.charge (s : State) (c : Option Nat) (pa n : Nat) : State :=
  { s with polders := (match controllerOf pa, s.rangeOwner pa, c with
    | some ctl, some p, _ => (s.tokens p ctl n).polders
    | none, _, some c => (s.tokens (polderOf c) (if regionOf pa == Region.host then 41 else 40) n).polders
    | _, _, _ => s.polders) }

-- Walks.

/-- The walk of R371 for an engine of a core. A and D are set in the entry; the entries read, and the one written, are traffic of 8
bytes each (R364). A page larger than a granule of the polder's ranges is
judged and cached by the granule that is accessed (DEDUCED, log 54). -/
def State.walk (s : State) (c : Option Nat) (core va : Nat) (a : Acc) : TrRes :=
  let root := match c with | none => fwRoot * 4096 | some c => s.ctxRoot c
  match s.walkTo (some (dieOf core)) (c.getD fwCtx) va 4 root with
  | .miss => .miss
  | .busy => .busy
  | .ecc l => .ecc l
  | .leaf at' e lvl new =>
    let s64 := lvl == 0 && e.getLsbD 9
    let size := match lvl with | 0 => if s64 then 0x10000 else 0x1000 | 1 => 0x200000 | _ => 0x40000000
    let frame := bits e 51 12
    if 3 ≤ lvl then .miss
    else if (if s64 then frame / 16 * 16 else frame) % (size / 4096) ≠ 0 then .miss
    else if s64 && frame % 16 != va / 4096 % 16 then .miss
    else
      let base := if s64 then frame / 16 * 0x10000 else frame * 4096
      let part := min size 0x200000
      match s.frameOk c (base + va % size) (bits e 54 54) with
      | none => .miss
      | some false => .access
      | some true =>
        if permOk (e.getLsbD 4) (e.getLsbD 1) (e.getLsbD 2) (e.getLsbD 3) a then
          let wr := a == .write || a == .rmw
          let e' := putBits (if wr then putBits e 6 6 1 else e) 5 5 1
          let s0 := (at' :: new.map (·.2.2)).foldl (fun s a => s.charge none a 8) s
          let s1 := (if e' = e then s0 else (s0.poke64 at' e').charge none at' 8).walkFill (dieOf core) (c.getD fwCtx) va new
          .ok (s1.tlbFill core
            { ctx := c.getD fwCtx, polder := polderOf (c.getD fwCtx), g := e.getLsbD 7, va := va / part * part,
              size := part, pa := base + va % size / part * part, rd := e.getLsbD 1, wr := e.getLsbD 2, ex := e.getLsbD 3,
              u := e.getLsbD 4, home := bits e 53 52, t := bits e 54 54, d := e'.getLsbD 6, loc := .core core })
            (base + va % size) (bits e 53 52)
        else .access

/-- A cached entry names the address for a context (R372). -/
def TlbEnt.names (x : TlbEnt) (c va : Nat) : Bool :=
  (x.ctx == c || (x.g && x.polder == polderOf c && c != fwCtx)) && decide (x.va ≤ va) && decide (va < x.va + x.size)

/-- A cached entry of a TLB that translates the access (R372). -/
def tlbHit (c : Nat) (loc : TlbAt) (va : Nat) (a : Acc) (x : TlbEnt) : Bool :=
  x.loc = loc && x.names c va && permOk x.u x.rd x.wr x.ex a && (x.d || !(a == .write || a == .rmw))

/-- The physical address of a translation, as it stands on the bus. -/
def TrRes.onBus (f : Nat → Nat) : TrRes → TrRes
  | .ok s pa home => .ok s (f pa) home
  | r => r

/-- Translation of an address for an engine of context c on a core: an entry of the core's L1 TLB, else of its cluster's TLB, else a
walk (R371, R372); the address is answered as it stands on the bus (R407). -/
def State.translate (s : State) (c : Option Nat) (core va : Nat) (a : Acc) : TrRes :=
  TrRes.onBus (s.busOf c) <|
  match s.pkg.tlb.find? (tlbHit (c.getD fwCtx) (.core core) va a) with
  | some x => .ok s (x.pa + (va - x.va)) x.home
  | none =>
    match s.pkg.tlb.find? (tlbHit (c.getD fwCtx) (.cluster (clusterOf core)) va a) with
    | some x => .ok (s.modPkg fun p => { p with tlb := tlbPut (.core core) x p.tlb }) (x.pa + (va - x.va)) x.home
    | none => s.walk c core va a

/-- The core's TLB holds the page: a fault by its permissions is known as the word issues (R419). -/
def State.trKnown (s : State) (c : Option Nat) (core va : Nat) : Bool :=
  s.pkg.tlb.any fun x => x.loc = .core core && x.names (c.getD fwCtx) va

-- Writes at home, with the undo log (R387) and EXTW (R389).

/-- Physical address of the checkpoint directory of a context, if it has one (R386). -/
def State.ckArea (s : State) (c : Nat) : Nat := bits (s.ctxWord c 3) 51 0
/-- Base and bytes of the undo log (R334). -/
def State.undoLog (s : State) (c : Nat) : Nat × Nat := (bits (s.ctxWord c 4) 51 0, bits (s.ctxWord c 5) 31 0 * 4096)

/-- The checkpoint of a context is discarded: VAL becomes 0 and logging stops (R388). -/
def State.dropCheckpoint (s : State) (c : Nat) : State :=
  let d := s.ckArea c + 24
  (s.poke64 d (putBits (s.home64 d) 1 1 0)).modCtx c fun x => { x with logging := false }

/-- A line of the undo log or of a checkpoint area of a context, whose writes are not logged (R387). -/
def State.logFree (s : State) (c line : Nat) : Bool :=
  let dir := s.ckArea c
  let (base, len) := s.undoLog c
  let alen := bits (s.home64 (dir + 16)) 31 0 * 4096
  let within' (b n : Nat) : Bool := decide (b < 128 * (line + 1)) && decide (128 * line < b + n)
  within' base len || within' (bits (s.home64 dir) 51 0) alen || within' (bits (s.home64 (dir + 8)) 51 0) alen

/-- Logs the first write of a context's engines to a line since its checkpoint (R387, R388). -/
def State.logLine (s : State) (c line : Nat) : State :=
  let x := s.ctx c
  let (base, len) := s.undoLog c
  if !x.logging || x.logged.contains line || s.logFree c line then s
  else if len < x.undoFill + 136 then s.dropCheckpoint c
  else
    let hdr : Dword := BitVec.ofNat 64 (2 ^ 63 + line * 128)
    let s1 := (s.poke64 (base + x.undoFill) hdr).pokeBytes (base + x.undoFill + 8) (s.homeBytes (line * 128) 128)
    (s1.charge none (base + x.undoFill) 136).modCtx c fun x => { x with undoFill := x.undoFill + 136, logged := line :: x.logged }

/-- A context's engine writes outside the device, or does an atomic there: EXTW (R389). -/
def State.noteExt (s : State) (c : Option Nat) (pa : Nat) : State :=
  match c with
  | none => s
  | some c =>
    if (regionOf pa == .host || regionOf pa == .peer) && !s.ctxExtw c then s.setExtw c true else s

/-- A line that a slice holds becomes dirty there by a write of a context (512: firmware): what memory holds of it is kept aside (R98,
R402). -/
def State.l2Dirty (s : State) (w line : Nat) : State :=
  match s.l2At line with
  | none => s
  | some (n, x) =>
    s.modPkg fun q => { q with l2 := tset q.l2 n ((tget q.l2 [] n).map fun y =>
      if y.line == line then { y with old := some (x.old.getD (s.homeBytes (line * 128) 128)), writer := w } else y) }

/-- The lines of n bytes. -/
def linesOf (pa n : Nat) : List Nat := (List.range ((pa + n - 1) / 128 - pa / 128 + 1)).map (pa / 128 + ·)

/-- A write at home by an engine of a context, logged, and noted in EXTW where it leaves the device, or by firmware (none): the read-only
fields of tables stay. -/
def State.homeStore (s : State) (c : Option Nat) (pa : Nat) (bs : List Byte) : State :=
  let s := (linesOf pa bs.length).foldl (fun (s : State) l => s.l2Dirty (c.getD fwCtx) l) s
  let r := regionOf pa
  let s1 : State := match c with
    | none => s
    | some x =>
      if r == .host || r == .peer then s.noteExt c pa
      else (linesOf pa bs.length).foldl (fun (s : State) l => s.logLine x l) s
  s1.putBytes pa bs

-- The data caches of a cluster (R98, R100).

/-- Data cache of a cluster. -/
def State.dcache (s : State) (cl : Nat) : Tab CByte := tget s.pkg.dcache [] cl
/-- Replaces the data cache of a cluster. -/
def State.setDcache (s : State) (cl : Nat) (t : Tab CByte) : State :=
  s.modPkg fun p => { p with dcache := tset p.dcache cl t }

/-- A byte that is not dirty and lies in an aligned 64-bit part of which a line's bytes do not hold all: it is fetched with the rest of
its part (R108). -/
def partial' (t : Tab CByte) (a : Nat) : Bool :=
  decide ((t.filter fun e => e.1 / 8 == a / 8).length < 8) && !(t.any fun e => e.1 == a && e.2.dirty)

/-- Allocates the line of an address: what is not held is fetched from home, clean, by whole aligned 64-bit parts (R98, R108). -/
def State.fillLine (s : State) (cl pa : Nat) : State :=
  let l := pa / 128 * 128
  let t := s.dcache cl
  let mine := t.filter fun e => e.1 / 128 == pa / 128
  if mine.length = 128 then s
  else s.setDcache cl (((List.range 128).filter fun i => partial' mine (l + i)).foldl (fun t i => tset t (l + i) { val := s.homeByte (l + i) }) t)

/-- One byte as an engine of the cluster sees it: its caches, else home. -/
def State.seenByte (s : State) (cl pa : Nat) : Byte :=
  match tfind (s.dcache cl) pa with
  | some b => b.val
  | none => s.homeByte pa

/-- One byte read at home by an agent of the cluster: its own cluster's dirty byte, which is coherence-later than what
home holds for it (R107), else home. -/
def State.meetByte (s : State) (cl pa : Nat) : Byte :=
  match tfind (s.dcache cl) pa with
  | some b => if b.dirty then b.val else s.homeByte pa
  | none => s.homeByte pa

/-- The address lies in an aligned 64-bit part of n bytes at pa. -/
def inPart (pa n a : Nat) : Bool := decide (pa / 8 ≤ a / 8) && decide (a / 8 ≤ (pa + n - 1) / 8)

/-- The clean copies that a cluster holds of the aligned 64-bit parts of n bytes become what home holds: reads and writes made at home
never go backwards in its caches, and never part an aligned 64-bit access (R107, R108). -/
def State.freshen (s : State) (cl pa n : Nat) : State :=
  if (s.dcache cl).any fun e => inPart pa n e.1 then
    s.setDcache cl ((s.dcache cl).map fun e => if inPart pa n e.1 && !e.2.dirty then (e.1, { e.2 with val := s.homeByte e.1 }) else e)
  else s

/-- A read of n bytes at home by an agent of a cluster, whose own copies follow it (R107). -/
def State.meetRead (s : State) (cl pa n : Nat) : Nat × State :=
  (ofBytes ((List.range n).map fun i => s.meetByte cl (pa + i)), s.freshen cl pa n)

/-- The caches of a cluster hold every byte of an access. -/
def State.holdsAll (s : State) (cl pa n : Nat) : Bool := (List.range n).all fun i => (tfind (s.dcache cl) (pa + i)).isSome

/-- A load of n bytes by an engine of the cluster (R98, R100): HOME 0 and 1 allocate, HOME 2 only hits, HOME 3 bypasses: what the caches
do not serve is read at home. -/
def State.lsuRead (s : State) (cl pa n home : Nat) : Nat × State :=
  if home = 3 || (home = 2 && !s.holdsAll cl pa n) then s.meetRead cl pa n
  else
    let s1 := if s.holdsAll cl pa n then s else s.fillLine cl pa
    (ofBytes ((List.range n).map fun i => s1.seenByte cl (pa + i)), s1)

/-- The copies that a cluster holds of n bytes go: a store has passed them by. -/
def State.dropCopies (s : State) (cl pa n : Nat) : State :=
  s.setDcache cl ((s.dcache cl).filter fun e => !(decide (pa ≤ e.1) && decide (e.1 < pa + n)))

/-- A store of bytes by an engine of context c in the cluster (R98, R100). -/
def State.lsuWrite (s : State) (c : Option Nat) (cl pa home : Nat) (bs : List Byte) : State :=
  if home = 3 || (home = 2 && !s.holdsAll cl pa bs.length) then ((s.homeStore c pa bs).dropCopies cl pa bs.length).freshen cl pa bs.length
  else
    s.setDcache cl (bs.foldl
      (fun (p : Nat × Tab CByte) b => (p.1 + 1, tset p.2 p.1 { val := b, dirty := true, writer := c.getD fwCtx, home := home }))
      (pa, s.dcache cl)).2

-- Data errors (R384, R402, R403).

/-- The lines that n bytes fill. -/
def wholeOf (pa n : Nat) : List Nat := (linesOf pa n).filter fun l => decide (pa ≤ l * 128) && decide (l * 128 + 128 ≤ pa + n)

/-- Some dirty line of a slice is in error. -/
def State.l2Errs (s : State) : Bool := s.pkg.l2.any fun t => t.2.any (·.bad)

/-- Lines that are written whole hold no error any longer (R384). -/
def State.heal (s : State) (lines : List Nat) : State :=
  let s1 := if s.pkg.eccBad = [] then s else s.modPkg fun p => { p with eccBad := p.eccBad.filter fun l => !lines.contains l }
  if s1.l2Errs then
    s1.modPkg fun p => { p with l2 := p.l2.map fun t => (t.1, t.2.map fun x => if lines.contains x.line then { x with bad := false } else x) }
  else s1

/-- A dirty line of a cluster that cannot be corrected is discarded: memory keeps its older contents (R384). -/
def State.discardLine (s : State) (cl line : Nat) : State :=
  (s.setDcache cl ((s.dcache cl).filter fun e => e.1 / 128 != line)).modPkg fun p =>
    { p with lineBad := p.lineBad.filter (· ≠ (cl, line)) }

/-- A line leaves an L2 slice as it stands. -/
def State.l2Remove (s : State) (n line : Nat) : State :=
  s.modPkg fun q => { q with l2 := tset q.l2 n ((tget q.l2 [] n).filter fun x => x.line ≠ line) }

/-- A dirty line of an L2 slice that cannot be corrected is discarded: memory keeps its older contents (R384, R402). -/
def State.l2Discard (s : State) (line : Nat) : State :=
  match s.l2At line with
  | none => s
  | some (n, x) =>
    let s1 := s.l2Remove n line
    match x.old with
    | some bs => s1.pokeBytes (line * 128) bs
    | none => s1

/-- An uncorrectable dirty line found by a write-back, an eviction or a scrub: ECCFATAL of the context that last wrote it, with
a record of the memory side (R384, R403). -/
def State.memLoss (s : State) (w line : Nat) : State :=
  if w = fwCtx then s
  else s.floodgate w { cls := some .eccfatal, eng := .mem, key := line, atc := true, handle := ctxHandle w,
                       det := BitVec.ofNat 64 (line * 128 % 2 ^ 52) }

/-- A dirty line of a cluster is lost. -/
def State.loseLine (s : State) (cl line : Nat) : State :=
  let w := (((s.dcache cl).find? fun e => e.1 / 128 == line && e.2.dirty).map (·.2.writer)).getD fwCtx
  (s.discardLine cl line).memLoss w line

/-- A dirty line of an L2 slice is lost. -/
def State.l2Lose (s : State) (line : Nat) : State :=
  (s.l2Discard line).memLoss (((s.l2At line).map (·.2.writer)).getD fwCtx) line

/-- Lines of a cluster whose codes fail and of which a dirty byte satisfies p. -/
def State.failing (s : State) (cl : Nat) (p : Nat → Bool) : List Nat :=
  (s.pkg.lineBad.filter fun e => e.1 == cl && (s.dcache cl).any fun b => b.1 / 128 == e.2 && b.2.dirty && p b.1).map (·.2)

/-- Lines of which a cluster holds every byte dirty. -/
def State.fullLines (s : State) (cl : Nat) : List Nat :=
  if s.pkg.eccBad = [] then []
  else s.pkg.eccBad.filter fun l => (List.range 128).all fun i =>
    match tfind (s.dcache cl) (l * 128 + i) with | some b => b.dirty | none => false

/-- The dirty line in which an access found an error, of its cluster or of a slice, is discarded (R384, R402). -/
def State.discardBad (s : State) (cl line : Nat) : State :=
  if s.pkg.lineBad.contains (cl, line) then s.discardLine cl line
  else if (s.l2At line).any fun x => x.2.bad then s.l2Discard line
  else s

-- L2 slices (R98, R100, R352).

/-- Lines of an L2 slice (R98): 4 MiB. -/
def sliceLines : Nat := 32768

/-- A pinned line is held as long as its page is HOME 1 (R100): the tables map the page so now. -/
def State.pinHolds (s : State) (x : L2Line) : Bool :=
  x.pinned &&
    match s.walkTo none x.ctx x.page 4 (if x.ctx = fwCtx then fwRoot * 4096 else s.ctxRoot x.ctx) with
    | .leaf _ e _ _ => bits e 53 52 == 1
    | .miss | .ecc _ | .busy => false

/-- A line leaves its slice: a dirty one is written to memory, or lost (R98, R384, R402). -/
def State.l2Evict (s : State) (n line : Nat) : State :=
  match (tget s.pkg.l2 [] n).find? fun x => x.line == line with
  | none => s
  | some x =>
    if x.bad then s.l2Lose line
    else if x.old.isNone then s.l2Remove n line
    else ((s.l2Remove n line).heal [line]).charge (if x.writer = fwCtx then none else some x.writer) (line * 128) 128

/-- The line used longest ago of those that are not pinned leaves where a slice holds more lines than it has room for (R98, R100). -/
def State.l2Fit (s : State) (n : Nat) : State :=
  let t := tget s.pkg.l2 [] n
  if t.length ≤ sliceLines then s
  else match t.reverse.find? fun x => !s.pinHolds x with
    | some x => s.l2Evict n x.line
    | none => s

/-- A slice that no polder owns: firmware's lines may be held there (R352). -/
def State.freeSlice (s : State) (n : Nat) : Bool := (List.range 32).all fun p => !s.ownsSlice p n

/-- The page, with its context, through which a context's engine names an address on the bus: a TLB holds it. -/
def State.pageOf (s : State) (c : Option Nat) (pa : Nat) : Option (Nat × Nat) :=
  (s.pkg.tlb.find? fun x => (x.ctx == c.getD fwCtx || (x.g && x.polder == polderOf (c.getD fwCtx))) &&
    decide (s.busOf c x.pa ≤ pa) && decide (pa < s.busOf c x.pa + x.size)).map fun x => (x.ctx, x.va + (pa - s.busOf c x.pa))

/-- The home slice serves `size` bytes of a line for an engine of a context (none: firmware), HOME 0 or 1 allocating (R98, R100): a HOME 1 line is pinned within
the slice's limit, and counted for its polder beyond it; in a slice that the polder does not own (for firmware: that a polder owns) the line is treated as HOME 2
(R352). A line that the slice does not hold comes from its memory controller; one in error is not kept. -/
def State.l2Touch (s : State) (c : Option Nat) (pa size home : Nat) : State :=
  let p := polderOf (c.getD 0)
  let n := s.homeSlice p pa
  let t := tget s.pkg.l2 [] n
  let was := t.find? fun x => x.line == pa / 128
  let own := match c with | some _ => s.ownsSlice p n | none => s.freeSlice n
  let pin := home == 1 && (was.any s.pinHolds || decide ((t.filter s.pinHolds).length < min 24576 (tget s.pkg.pinLim 0 n)))
  if home == 3 || (was.isNone && (home == 2 || !own || s.pkg.eccBad.contains (pa / 128))) then s.charge c pa size
  else
    let at' := (s.pageOf c pa).getD (fwCtx, 0)
    let x : L2Line := { was.getD { line := pa / 128, polder := p } with
      pinned := own && pin, ctx := at'.1, page := at'.2, polder := p }
    let s1 := (if was.isSome then s else s.charge c (pa / 128 * 128) 128).modPkg fun q =>
      { q with l2 := tset q.l2 n (x :: t.filter fun x => x.line ≠ pa / 128) }
    let s2 := s1.l2Fit n
    if own && home == 1 && !pin then s2.modPolder p fun x => { x with pinMiss := x.pinMiss + 1 } else s2

/-- A polder's reset ends the pinned residency of its lines (R100). -/
def State.unpinL2 (s : State) (p : Nat) : State :=
  s.modPkg fun q => { q with l2 := q.l2.map fun e =>
    (e.1, e.2.map fun x => if x.polder == p then { x with pinned := false } else x) }

-- Write-backs (R98, R117).

/-- The dirty bytes of a cluster's caches that satisfy p. -/
def State.dirtyOf (s : State) (cl : Nat) (p : Nat → Bool) : Tab CByte := (s.dcache cl).filter fun e => e.2.dirty && p e.1

/-- Context that wrote a byte, none for firmware. -/
def CByte.by (b : CByte) : Option Nat := if b.writer = fwCtx then none else some b.writer

/-- The lines of dirty bytes come to their home slices (R98). -/
def State.l2Bring (s : State) (t : Tab CByte) : State :=
  ((t.map fun e => e.1 / 128).dedup).foldl (fun (s : State) l =>
    match t.filter fun e => e.1 / 128 == l with
    | [] => s
    | e :: r => s.l2Touch e.2.by (l * 128) (r.length + 1) e.2.home) s

/-- Writes back the dirty bytes of a cluster's caches that satisfy p; they stay, clean (R117), with the rest of their aligned 64-bit
parts as home holds it (R108). -/
def State.writeBack (s : State) (cl : Nat) (p : Nat → Bool) : State :=
  let s := (s.failing cl p).foldl (fun (s : State) l => s.loseLine cl l) (s.heal (s.fullLines cl))
  let d := s.dirtyOf cl p
  let s1 := d.foldl (fun s e => s.homeStore e.2.by e.1 [e.2.val]) (s.l2Bring d)
  s1.setDcache cl ((s1.dcache cl).map fun e =>
    if e.2.dirty then (if p e.1 then (e.1, { e.2 with dirty := false }) else e)
    else if d.any fun x => x.1 / 8 == e.1 / 8 then (e.1, { e.2 with val := s1.homeByte e.1 }) else e)

/-- Invalidates the clean bytes of a cluster's caches that satisfy p (R118). -/
def State.dropClean (s : State) (cl : Nat) (p : Nat → Bool) : State :=
  s.setDcache cl ((s.dcache cl).filter fun e => e.2.dirty || !p e.1)

-- Residency (R98, R103): which lines the caches hold.

/-- An eviction takes a line of a cluster's caches away, its dirty bytes written back (R98). -/
def State.evict (s : State) (cl line : Nat) : State :=
  (s.writeBack cl fun a => a / 128 == line).dropClean cl fun a => a / 128 == line

/-- Lines of a cluster cache (R98): 4 MiB. -/
def clusterLines : Nat := 32768
/-- Lines of an L1 data cache (R98): 128 KiB. -/
def l1Lines : Nat := 1024
/-- The lines that a cluster's caches hold. -/
def State.heldLines (s : State) (cl : Nat) : List Nat := ((s.dcache cl).map fun e => e.1 / 128).dedup

/-- The lines of a core's L1 data cache; its cluster cache is inclusive of it (R98). -/
def State.l1Held (s : State) (core : Nat) : List Nat :=
  (tget s.pkg.l1 [] core).filter fun l => (s.heldLines (clusterOf core)).contains l

/-- A line is used in a core's L1 data cache: it becomes the latest, and the one used longest ago leaves a full cache. -/
def State.l1Touch (s : State) (core line : Nat) : State :=
  s.modPkg fun p => { p with l1 := tset p.l1 core ((line :: (tget p.l1 [] core).filter (· ≠ line)).take l1Lines) }

/-- Instruction lines that a cluster cache holds (R103). -/
def State.iHeld (s : State) (cl : Nat) : Tab ILine := (tget s.pkg.iclus [] cl).filter fun e => !e.2.bytes.isEmpty

/-- Lines that a cluster cache holds, of data and of instructions (R98, R103). -/
def State.clusterUse (s : State) (cl : Nat) : Nat := (s.heldLines cl).length + (s.iHeld cl).length

/-- A cluster's cache may hold more lines than it has room for: each line has a byte or is an instruction line. -/
def State.mayOverfill (s : State) (cl : Nat) : Bool :=
  decide (clusterLines < (s.dcache cl).length + (tget s.pkg.iclus [] cl).length + 1)

/-- A cluster whose cache holds more lines than it has room for. -/
def State.overfull (s : State) : Option Nat :=
  (List.range 32).find? fun cl => s.mayOverfill cl && decide (clusterLines < s.clusterUse cl)

/-- An unpinned line leaves a table of instruction lines. -/
def dropI (t : Tab ILine) (line : Nat) : Tab ILine := t.filter fun e => e.1 != line || e.2.pins != []

/-- A line leaves a full cluster cache: which one, of data or of instructions that are not pinned, the spec leaves open (R98, R103). -/
def State.makeRoom (s : State) (cl : Nat) : State :=
  let ds := s.heldLines cl
  let is := ((s.iHeld cl).filter fun e => e.2.pins.isEmpty).map (·.1)
  let (n, s1) := s.free
  let i := Config.victim n % (ds.length + is.length)
  if i < ds.length then s1.evict cl (ds.getD i 0)
  else s1.modPkg fun p => { p with iclus := tset p.iclus cl (dropI (tget p.iclus [] cl) (is.getD (i - ds.length) 0)) }

/-- A cluster cache has room for a line: it holds the line, or is not full; else a line leaves (R98). -/
def State.roomFor (s : State) (cl line : Nat) : State :=
  if !s.mayOverfill cl then s
  else if (s.heldLines cl).contains line || decide (s.clusterUse cl < clusterLines) then s
  else s.makeRoom cl

-- Scopes (R112 to R130).

/-- Meeting points of R116 and R112. -/
inductive Meet | l1 | cluster | home | system
  deriving DecidableEq, Repr

/-- A scope instance as an operation carries it: meeting point and covered set. -/
structure ScopeInst where
  meet : Meet
  all : Bool := true
  img : Scope := {}
  polder : Nat := 0

/-- A scope entry of a context. -/
def State.scopeEnt (s : State) (c n : Nat) : ScopeEnt := tget (s.ctx c).scopes {} n
/-- The image of an entry at an epoch (R126, R127). -/
def ScopeEnt.at (e : ScopeEnt) (ep : Word) : Scope :=
  if ep = e.epoch then e.img else ((e.old.find? fun x => x.1 == ep).map (·.2)).getD e.img

/-- Meeting point of a valid programmable entry (R116). -/
def Scope.meet (x : Scope) : Meet :=
  if x.host || x.peer != 0 then .system
  else
    let cores := (List.range 252).filter fun i => x.mask.getLsbD i
    match cores with
    | [] => .home
    | c :: r => if r.all fun i => clusterOf i == clusterOf c then .cluster else .home

/-- The line of an address is covered (R116). -/
def State.covers (s : State) (x : ScopeInst) (pa : Nat) : Bool :=
  x.all ||
    match regionOf pa with
    | .hbm => x.img.hbm && x.img.slice.getLsbD (s.homeSlice x.polder pa)
    | .boezem => x.img.bz && x.img.slice.getLsbD (s.homeSlice x.polder pa)
    | .host => x.img.host
    | .peer => (s.peersOf x.polder pa).any fun n => x.img.peer.getLsbD n
    | .none => false

/-- ScopeCheck of R250: SCSTALE, SCRANGE, or the epoch carried and the instance. A reeve wave names the fixed entries
relative to itself; it has no context whose programmable entry it could name, so those are SCRANGE (DEDUCED, log 10). -/
def State.scopeCheck (s : State) (k : Key) (n : Nat) : FClass ⊕ (Word × ScopeInst) :=
  if n ≤ 1 then .inr (0, { meet := .l1 })
  else if n = 2 then .inr (0, { meet := .cluster })
  else if n ≤ 4 then .inr (0, { meet := .home })
  else if n = 5 then .inr (0, { meet := .system })
  else
    let w := s.wave k
    match s.ctxOf k with
    | none => .inl .scrange
    | some c =>
      if !w.view.getLsbD n then .inl .scstale
      else
        let ep := tget w.acked 0 n
        let img := (s.scopeEnt c n).at ep
        if !img.v || !img.mask.getLsbD (coreOf k) then .inl .scrange
        else .inr (ep, { meet := img.meet, all := false, img := img, polder := polderOf c })

/-- A release at an instance by an agent of a cluster (R117): dirty covered bytes go home unless the instance meets in
the cluster. -/
def State.release (s : State) (cl : Nat) (x : ScopeInst) : State :=
  match x.meet with
  | .l1 | .cluster => s
  | .home | .system => s.writeBack cl (s.covers x)

/-- An acquire at an instance (R118): clean covered bytes are dropped unless the instance meets in the cluster. -/
def State.acquire (s : State) (cl : Nat) (x : ScopeInst) : State :=
  match x.meet with
  | .l1 | .cluster => s
  | .home | .system => s.dropClean cl (s.covers x)

/-- The instance of sc4, and of sc5. -/
def scope4 : ScopeInst := { meet := .home }
/-- The instance of sc5. -/
def scope5 : ScopeInst := { meet := .system }

-- Instruction fetch (R103, R104).

/-- A cluster holds a dirty byte of a line. -/
def State.dirtyIn (s : State) (cl line : Nat) : Bool := (s.dcache cl).any fun e => e.1 / 128 == line && e.2.dirty

/-- A fetch in a cluster sees a line as it was before an agent began to rewrite it (R104): until the agent releases, and in other
clusters until what it wrote has come home. -/
def State.hides (s : State) (cl line : Nat) (r : Rewrite) : Bool :=
  r.line == line && (!r.released || (r.cl != cl && s.dirtyIn r.cl line))

/-- The bytes of a line as a fetch in a cluster finds them: dirty bytes of the cluster, else home; a line that is being rewritten is seen
as it was (R104). -/
def State.codeBytes (s : State) (cl line : Nat) : List Byte :=
  match s.pkg.rewrites.find? (s.hides cl line) with
  | some r => r.old
  | none => (List.range 128).map fun i => s.meetByte cl (line * 128 + i)

/-- An agent of a cluster begins to write a line: it is kept as it was until the agent releases it (R104). -/
def State.noteStore (s : State) (eng : EngKind) (key cl line : Nat) : State :=
  if s.pkg.rewrites.any fun r => r.line == line && r.eng == eng && r.key == key && !r.released then s
  else s.modPkg fun p =>
    { p with rewrites := { eng := eng, key := key, cl := cl, line := line, old := s.codeBytes cl line } :: p.rewrites }

/-- The agents that satisfy f release what they have written (R104, R117): a line of which no dirty byte is left is seen everywhere. -/
def State.releaseLines (s : State) (f : EngKind → Nat → Bool) : State :=
  if s.pkg.rewrites = [] then s
  else s.modPkg fun p =>
    { p with rewrites := (p.rewrites.map fun r => if f r.eng r.key then { r with released := true } else r).filter fun r =>
        !r.released || s.dirtyIn r.cl r.line }

/-- A wave releases what it has written. -/
def State.waveReleases (s : State) (k : Key) : State := s.releaseLines fun e n => e == .wave && n == k

/-- Lines of an L1 instruction cache (R103): 64 KiB. -/
def l1iLines : Nat := 512

/-- An instruction line that is held; a pinned line that waits for its refill has no bytes (R104). -/
def iFind (t : Tab ILine) (line : Nat) : Option ILine := (tfind t line).filter fun l => !l.bytes.isEmpty

/-- The crews that pin a line. -/
def pinsOf (t : Tab ILine) (line : Nat) : List Nat := ((tfind t line).map (·.pins)).getD []

/-- A line put into an L1 instruction cache; from a full one an unpinned line leaves, the lowest (DESIGN CHOICE, log 55). -/
def putI (t : Tab ILine) (line : Nat) (x : ILine) : Tab ILine :=
  let t1 := tset t line x
  if t1.length ≤ l1iLines then t1 else t1.eraseP fun e => e.1 != line && e.2.pins = []

/-- An instruction line in the cache of a cluster, or fetched into it from its home slice (R98, R100, R103). -/
def State.clusterLine (s : State) (c : Option Nat) (cl line home : Nat) : List Byte × State :=
  match iFind (tget s.pkg.iclus [] cl) line with
  | some l => (l.bytes, s)
  | none =>
    let bs := s.codeBytes cl line
    let s1 := (s.l2Touch c (line * 128) 128 home).roomFor cl line
    (bs, s1.modPkg fun p =>
      { p with iclus := tset p.iclus cl (tset (tget p.iclus [] cl) line { bytes := bs, pins := pinsOf (tget p.iclus [] cl) line }) })

/-- Bytes of an instruction line as a core fetches it: its L1I, else its cluster cache, else its home slice (R103, R104), kept in both
caches; a line of a HOME 2 page only hits there, and one of a HOME 3 page passes them by (R100). -/
def State.fetchLine (s : State) (c : Option Nat) (core line home : Nat) : List Byte × State :=
  let cl := clusterOf core
  let t := tget s.pkg.icore [] core
  match (if home = 3 then none else iFind t line), (if home = 3 then none else iFind (tget s.pkg.iclus [] cl) line) with
  | some l, _ => (l.bytes, s)
  | none, some l =>
    if home = 2 then (l.bytes, s)
    else (l.bytes, s.modPkg fun p => { p with icore := tset p.icore core (putI t line { bytes := l.bytes, pins := pinsOf t line }) })
  | none, none =>
    if 2 ≤ home then (s.codeBytes cl line, s.l2Touch c (line * 128) 128 home)
    else
      let (bs, s1) := s.clusterLine c cl line home
      (bs, s1.modPkg fun p => { p with icore := tset p.icore core (putI t line { bytes := bs, pins := pinsOf t line }) })

-- Where an access is served.

/-- An access of n bytes is not served by the caches of its cluster, but at home (R98, R100). -/
def State.atHome (s : State) (cl pa n home : Nat) : Acc → Bool
  | .write => home = 3 || (home = 2 && !s.holdsAll cl pa n)
  | .read => home = 3 || !s.holdsAll cl pa n
  | .rmw | .fetch => true
  | .any => false

/-- The line in which an access finds an error that cannot be corrected (R384): a dirty line of its cluster, or one that it reads at
home, some byte of which its cluster has not written. -/
def State.eccLine (s : State) (cl pa n home : Nat) (a : Acc) : Option Nat :=
  let l := pa / 128
  if home ≠ 3 && s.pkg.lineBad.contains (cl, l) then some l
  else if a != .write && s.atHome cl pa n home a && s.homeBad l &&
      !((List.range n).all fun i => ((tfind (s.dcache cl) (pa + i)).map (·.dirty)).getD false) then some l
  else none

/-- The instruction caches of a core, or of its cluster, hold a line of a page that they may serve. -/
def State.iCached (s : State) (core line home : Nat) : Bool :=
  home ≠ 3 && ((iFind (tget s.pkg.icore [] core) line).isSome || (iFind (tget s.pkg.iclus [] (clusterOf core)) line).isSome)

/-- An instruction line that a core must fetch from memory has an error that cannot be corrected (R384). -/
def State.fetchBad (s : State) (core line home : Nat) : Bool :=
  !s.iCached core line home && (s.eccLine (clusterOf core) (line * 128) 128 home .rmw).isSome

/-- An access by an engine of a core to an address crosses into or out of a die whose clock is stopped (R318). -/
def State.crosses (s : State) (c : Option Nat) (core pa : Nat) : Bool := s.stuckFrom (dieOf core) (polderOf (c.getD 0)) pa

/-- An instruction line that a core must fetch from a die across a stopped crossing (R318). -/
def State.fetchHeld (s : State) (c : Option Nat) (core pa home : Nat) : Bool := s.crosses c core pa && !s.iCached core (pa / 128) home

/-- Answer of a fetch: the word, a miss, ACCESS, a line that memory cannot correct, or a line that has not come yet. -/
inductive FetchRes
  | ok (s : State) (w : Dword)
  | miss
  | access
  | ecc (line : Nat)
  | wait
  deriving DecidableEq, Repr

/-- Fetches the word at a virtual address for an engine of context c on a core; the address is 8-byte aligned and below
2^57. -/
def State.fetchWord (s : State) (c : Option Nat) (core va : Nat) : FetchRes :=
  if 2 ^ 57 ≤ va then .access else
  match s.translate c core va .fetch with
  | .miss => .miss
  | .access => .access
  | .ecc l => .ecc l
  | .busy => .wait
  | .ok s1 pa home =>
    if s1.fetchHeld c core pa home then .wait
    else if s1.fetchBad core (pa / 128) home then .ecc (pa / 128)
    else
    let (bs, s2) := s1.fetchLine c core (pa / 128) home
    .ok s2 (BitVec.ofNat 64 (ofBytes ((bs.drop (pa % 128)).take 8)))

/-- Fetch by a wave. -/
def State.fetchWave (s : State) (k : Key) (va : Nat) : FetchRes := s.fetchWord (s.ctxOf k) (coreOf k) va

-- Crossings and data errors.

/-- A read or write of n bytes must wait in a crossing FIFO: it is not served by the caches of its cluster (R98, R318). -/
def State.fifoHeld (s : State) (c : Option Nat) (core pa n home : Nat) (a : Acc) : Bool :=
  s.crosses c core pa && s.atHome (clusterOf core) pa n home a

/-- Tokens of a polder's bucket at a controller (R365). -/
def State.bucket (s : State) (p ctl : Nat) : Nat := tget (s.polder p).buckets 0 ctl

/-- The controller at which an access of n bytes by a context's engine asks for a token: it is served neither by the caches of its
cluster nor by its home slice (R364, R365). Firmware's accesses are not policed. -/
def State.asksToken (s : State) (c : Option Nat) (core pa n home : Nat) (a : Acc) : Option (Nat × Nat) :=
  match c with
  | none => none
  | some c =>
    if s.atHome (clusterOf core) pa n home a && (home = 3 || (s.l2At (pa / 128)).isNone) then
      (controllerOf pa).map fun ctl => (ctl, polderOf c)
    else none

/-- The requests that wait as tokenless: controller and polder (R365). -/
def State.dryAll (s : State) : List (Nat × Nat) :=
  s.waves.filterMap (fun e => e.2.held.head?.bind (·.dry)) ++ s.crews.filterMap (fun e => e.2.seq.dry)
    ++ s.cores.flatMap fun e => e.2.copyq.filterMap (·.dry)

/-- WEIGHT of a polder (R350). -/
def State.weight (s : State) (p : Nat) : Nat := max 1 (bits (s.polderWord p 3) 15 0)

/-- A tokenless request is served: no request of a polder with a higher WEIGHT waits at its controller (R365). A request that holds a
token never waits for its controller in this model. -/
def State.dryTurn (s : State) (at' : Nat × Nat) : Bool :=
  s.dryAll.all fun o => o.1 != at'.1 || decide (s.weight o.2 ≤ s.weight at'.2)

/-- A request must wait as tokenless: the bucket does not hold a token for each of n lines that it asks for, and it has not waited, or it
is not its turn (R365). -/
def State.dryFor (s : State) (again : Bool) (at' : Nat × Nat) (n : Nat) : Bool :=
  decide (s.bucket at'.2 at'.1 < n) && !(again && s.dryTurn at')

/-- A request of the crew waits as tokenless. -/
def State.crewDry (s : State) (c : Key) : Bool :=
  (s.waves.any fun e => crewOf e.1 == c && (e.2.held.head?.bind (·.dry)).isSome) || (s.crew c).seq.dry.isSome
    || (s.core (coreOfCrew c)).copyq.any fun e => e.cslot == cslotOf c && e.dry.isSome

/-- THRSTAT of a crew tells whether a request of it waits as tokenless (R365). -/
def State.settleDry (s : State) (c : Key) : State :=
  let was := (tfind (s.crew c).thr 5).isSome
  if s.crewDry c then (if was then s else s.throttle c 5 16) else if was then s.unthrottle c 5 else s

/-- A write-back of a cluster would have to cross to or from a die whose clock is stopped. -/
def State.linkBusy (s : State) (cl : Nat) : Bool :=
  (List.range 4).any (fun d => (s.die d).rel)
    && (s.dcache cl).any fun e =>
      e.2.dirty && s.stuckFrom (cl / 8) (polderOf e.2.writer) e.1

/-- The clock of a core's die runs: its waves, sequencers and copy engines make progress (R318). -/
def State.clockOn (s : State) (core : Nat) : Bool := !(s.die (dieOf core)).rel

/-- A write made at home moves n bytes to memory, unless its slice holds the line (R364, R98). -/
def State.chargeHome (s : State) (c : Option Nat) (pa n : Nat) : State := if (s.l2At (pa / 128)).isSome then s else s.charge c pa n

/-- Address of a line as a record tells it. -/
def lineDet (line : Nat) : Nat := line * 128 % 2 ^ 52

/-- Allocation at the home slice by an access that the caches of a cluster do not serve (R98, R100); it changes no value. -/
def State.touchL2 (s : State) (c : Option Nat) (core pa size home : Nat) : State :=
  if decide (3 < home) || (home != 3 && s.holdsAll (clusterOf core) pa size) then s else s.l2Touch c pa size home

/-- Allocation in L1, in the cluster cache and at the home slice by an access of a core (R98, R100), `ch` its hint (R101). -/
def State.touch (s : State) (c : Option Nat) (core : Nat) (ch : BitVec 2) (pa size home : Nat) : State :=
  let s0 := s.touchL2 c core pa size home
  let s1 := if 2 ≤ home then s0 else s0.roomFor (clusterOf core) (pa / 128)
  if decide (2 ≤ home) || ch.getLsbD 0 then s1 else s1.l1Touch core (pa / 128)

-- Operations for peers (R414).

/-- Port by which a context reaches an address on the bus, where it is a peer's (R408). -/
def State.portOf (s : State) (c pa : Nat) : Option Nat :=
  if regionOf pa == .peer then (s.peersOf (polderOf c) pa).head?.map (s.peerPort (polderOf c)) else none

/-- A peer gives no response now: its port is retraining, or the peer is silent. -/
def State.portDown (s : State) (c : Option Nat) (pa : Nat) : Bool :=
  (c.bind fun c => s.portOf c pa).any fun n => (tget s.pkg.ports {} n).down || (tget s.pkg.ports {} n).silent
/-- The waiting operation of an engine's lane. -/
def State.peerOp (s : State) (eng : EngKind) (key lane : Nat) : Option PeerOp :=
  s.pkg.peerOps.find? fun o => o.eng == eng && o.key == key && o.lane == lane
/-- An engine's lane has received its response. -/
def State.answered (s : State) (eng : EngKind) (key lane : Nat) : Bool := (s.peerOp eng key lane).any (·.answered)
/-- An operation is sent to a peer that does not respond now, unless it has been. -/
def State.sendPeer (s : State) (eng : EngKind) (key lane addr va : Nat) (write : Bool) (data size : Nat) : State :=
  if (s.peerOp eng key lane).isSome then s
  else
    s.modPkg fun p =>
      { p with peerId := p.peerId + 1,
               peerOps := p.peerOps ++ [{ id := p.peerId, eng := eng, key := key, lane := lane, addr := addr, va := va, write := write,
                                          data := BitVec.ofNat 128 data, size := size, since := s.reft }] }
/-- Place of a wave-level word's operation among those of a wave's lanes. -/
def wordOp : Nat := 32

-- Lane accesses.

/-- The address check of R245: E, or the fault and its detail. -/
def addrCheck (e : Dword) (size : Nat) : Option FClass :=
  if e.toNat / 2 ^ 57 ≠ 0 then some .access else if e.toNat % size ≠ 0 then some .align else none

/-- The one event of kind 0x02 that a context holds at a time names the oldest parked access that is not reported (R373). -/
def State.tellMiss (s : State) (c : Nat) : State :=
  let mine (e : Event) : Bool := e.kind == 0x02 && e.handle == ctxHandle c
  match (s.ctx c).unrep with
  | [] => s.modDie (s.homeDie c) fun d => { d with evq := d.evq.filter fun e => !mine e }
  | (_, va) :: _ =>
    let s1 := s.modDie (s.homeDie c) fun d =>
      { d with evq := d.evq.map fun e => if mine e then { e with w1 := BitVec.ofNat 64 va } else e }
    s1.event (s.homeDie c) 0x02 (ctxHandle c) (BitVec.ofNat 64 va)

/-- A replayable miss is parked: it joins the context's unreported accesses (R373). -/
def State.reportMiss (s : State) (c va : Nat) (who : MissWho) : State :=
  if (s.ctx c).unrep.any fun e => e.1 == who then s
  else (s.modCtx c fun x => { x with unrep := x.unrep ++ [(who, va)] }).tellMiss c

/-- The accesses of a context that satisfy p are no longer parked: they no longer wait to be reported. -/
def State.forgetMisses (s : State) (c : Nat) (p : MissWho → Bool) : State :=
  if (s.ctx c).unrep.any fun e => p e.1 then
    (s.modCtx c fun x => { x with unrep := x.unrep.filter fun e => !p e.1 }).tellMiss c
  else s

/-- A parked access goes on. -/
def State.forgetMiss (s : State) (c : Nat) (who : MissWho) : State := s.forgetMisses c fun w => w == who

/-- What a miss at issue does to a wave's word: it parks until the page is mapped (R34); in the firmware space it is XLATE
(R330). -/
def State.missFront (s : State) (k : Key) (va : Nat) : Eff :=
  match s.ctxOf k with
  | none => .fault .xlate (BitVec.ofNat 64 va)
  | some c => .park (s.reportMiss c va (.front k)) (.fetchMiss va)

end Sys2Proof.Machine
end

