-- ==== Sys2Proof/Machine/Front.lean ====
section
/-! DEFINITION. The front of a wave: releases of rejoin registers and stuck waves (R188, R193), clause headers and the
quadrant's choice (R25, R161 to R163), and the fetch of a wave's next word (R164 steps 1 to 3). -/

namespace Sys2Proof.Machine

-- Lane groups.

/-- Lanes leave the JWAITs at which they were parked. -/
def leaveJwaits (gone : LaneMask) (js : List (Nat × LaneMask)) : List (Nat × LaneMask) :=
  (js.map fun j => (j.1, j.2 &&& ~~~gone)).filter fun j => j.2 != 0

/-- Judges the release of rejoin register n (R193). -/
def Wave.judge (w : Wave) (n : Nat) : Wave :=
  let set := w.j n &&& w.nonExited
  if (lanesOf set).all fun l => w.jpark[l] == some n then
    { w with jpark := Vector.ofFn fun l => if w.jpark[l] == some n then none else w.jpark[l],
             jlast := leaveJwaits (laneMask fun l => w.jpark[l] == some n) w.jlast }
  else w
/-- Judges the release of every rejoin register (R192). -/
def Wave.judgeAll (w : Wave) : Wave := (List.range 8).foldl (fun w n => w.judge n) w

-- The quadrant's choice.

/-- A wave's slots that a header's WAIT names read 0 (R52, R161). -/
def Wave.waitClear (w : Wave) (wait : BitVec 8) : Bool :=
  (List.range 8).all fun n => !wait.getLsbD n || tget w.sb 0 n == 0

/-- Reaching a header closes the windows of the slots it waits for (R50). -/
def Wave.closeWindows (w : Wave) (wait : BitVec 8) : Wave :=
  { w with pend := w.pend.map fun p =>
      match p.slot with
      | some n => if wait.getLsbD n then { p with remain := 0 } else p
      | none => p }

/-- A wave could run: resident, neither parked nor stopped nor exited. -/
def Wave.canRun (w : Wave) : Bool := w.here && w.park.isNone && !w.stopped && !w.done && !w.exitWait

/-- The word at a virtual address, looked at without effect. -/
def State.peek (s : State) (k : Key) (va : Nat) : Option Dword :=
  match s.fetchWave k va with
  | .ok _ w => some w
  | .miss | .access | .ecc _ | .wait => none

/-- The clause header before the word at an address: the nearest of the at most 16 words before it that is a header (R161). -/
def State.headerBefore (s : State) (k : Key) (a : Nat) : Nat :=
  (((List.range 16).map fun i => a - 8 * (i + 1)).find? fun b => ((s.peek k b).map isHeader).getD false).getD (a - 8)

/-- The clause in which the word at an address stands. -/
def State.clauseAt (s : State) (k : Key) (a : Nat) : ClauseSt :=
  let h := s.headerBefore k a
  { hdrAt := h, hdr := (s.peek k h).getD 0, pos := (a - h) / 8 - 1 }

/-- The JWAIT that parked the last lane, undone for the lanes it parked: they stand before it (R188). -/
def State.backToJwait (s : State) (k : Key) (w : Wave) : Wave :=
  match w.jlast with
  | [] => w
  | (a, m) :: r =>
    { w with jpark := Vector.ofFn fun l => if inMask m l then none else w.jpark[l],
             lpc := Vector.ofFn fun l => if inMask m l then BitVec.ofNat 64 a else w.lpc[l],
             lhdr := Vector.ofFn fun l => if inMask m l then none else w.lhdr[l],
             group := m, clause := some (s.clauseAt k a), jlast := r }

/-- The wave stands at a header whose WAIT names the slot of an access that a miss has parked (R34). -/
def Wave.waitsMiss (w : Wave) (wait : BitVec 8) : Bool :=
  (w.held.any fun h => !h.fifo) && w.pend.any fun p =>
    !p.arrived && p.why.isNone && (match p.slot with | some n => wait.getLsbD n | none => false)

/-- The word at an address interlocks on the result of an access that a miss has parked (R34). -/
def State.locksAt (s : State) (k : Key) (w : Wave) (a : Nat) : Bool :=
  match s.peek k a with
  | some x =>
    match decodeWave (isReeveCore (coreOf k)) x with
    | .ok i => missLock w (opdsOf i)
    | .clause | .access | .illegal => false
  | none => false

/-- A wave at a clause boundary of its quadrant comes to its next group: a stuck wave takes ILLEGAL (R188); at a header the windows
its WAIT names close, and a wave that must wait there is marked (R46, R50). It parks where the slot is that of an access that missed,
or where its next word interlocks on the result of one (R27, R34). -/
def State.reach (s : State) (k : Key) : State :=
  let w := s.wave k
  if !w.canRun || (s.quad k).inClause == some k && w.clause.isSome then s
  else if w.clause.isSome then
    (if s.locksAt k w w.pc then s.parkWave k .miss none else s)
  else
    match w.nextGroup with
    | .exited => s
    | .stuck w1 =>
      let w2 := s.backToJwait k w1
      (s.setWave k w2).raiseWave k .illegal 0 ((s.peek k w2.pc).getD 0)
    | .run w1 =>
      if w1.midHdr.isSome then
        (if s.locksAt k w1 w1.pc then (s.setWave k w1).parkWave k .miss none else s.setWave k w1)
      else
        match s.peek k w1.pc with
        | none => s.setWave k w1
        | some h =>
          let wait := (unpackH h).wait
          let w2 := if isHeader h then w1.closeWindows wait else w1
          let waits := isHeader h && !w2.waitClear wait
          let hw := if waits then (w2.hwait.orElse fun _ => some (s.die (dieOf (coreOf k))).cyc) else none
          let s1 := s.setWave k { w2 with hwait := hw }
          if isHeader h && (if waits then w2.waitsMiss wait else s.locksAt k w2 (w1.pc + 8)) then s1.parkWave k .miss none else s1

/-- The path of a word that is held behind the wave's earlier accesses (R34, R132, R254): 0 the LSU; 2 a release to MATRIX; 8 a word that
waits for held accesses only. -/
def pathOf (i : Instr) : Option Nat :=
  match i with
  | .weirarv _ | .weirsync _ => some 2
  | .cbarv _ | .pfence _ | .obres .. | .obrel .. => some 8
  | .scack _ | .tlbinv _ | .ctxsave _ | .ctxload _ | .stoprd _ | .resume _ | .flood _ | .dirtyh .. | .ckpt _ | .rollbk _ => none
  | _ => (mfOf i).map fun _ => 0

/-- A path fence towards FABRIC holds a push that hands over a remote copy (R132, R254, R267). -/
def Wave.fabricFence (w : Wave) (c : CopyCmd) : Bool := c.kind == 4 && w.fences.any fun f => f.1 == 3

/-- A word is held at issue behind the accesses of its path: a path fence towards it waits for copies (R254), or it is a memory word
behind an access that waits, in a crossing FIFO or for a peer (R318, R414). -/
def Wave.pathHeld (w : Wave) (i : Instr) : Bool :=
  match i, w.stage with
  | .movQ0Push _, [w0, w1, w2] => w.fabricFence (unpackCopy w0 w1 w2 0)
  | i, _ =>
    match pathOf i with
    | some p => (w.fences.any fun f => f.1 == p) || (!w.missHeld && w.held != [])
    | none => false

/-- An instruction has no unresolved interlock (R25, R50, R254). -/
def Wave.wordFree (w : Wave) (reeve : Bool) (word : Dword) : Bool :=
  match decodeWave reeve word with
  | .ok i => !interlock w (opdsOf i) (lkOf i) && !w.pathHeld i
  | .clause | .access | .illegal => true

/-- Ready(w) of R25, for a wave that has come to its next group. -/
def State.ready (s : State) (k : Key) : Bool :=
  let w := s.wave k
  w.canRun && w.group ≠ 0 &&
    if w.clause.isSome || w.midHdr.isSome then
      match s.peek k w.pc with
      | some x => w.wordFree (isReeveCore (coreOf k)) x
      | none => true
    else
      match s.peek k w.pc with
      | none => true
      | some h =>
        !isHeader h ||
          (w.waitClear (unpackH h).wait &&
            match s.peek k (w.pc + 8) with
            | some x => w.wordFree (isReeveCore (coreOf k)) x
            | none => true)

/-- The wave, come to its next group, is a candidate at a clause boundary of its quadrant. -/
def State.candidate (s : State) (k : Key) : Bool :=
  let w := s.wave k
  w.canRun && !(w.clause.isSome && (s.quad k).inClause == some k) && (s.reach k).ready k

/-- Waited of a wave counts from the moment it becomes ready (R25): `t` is the state that a step on the wave's results leaves. -/
def State.sinceReady (s : State) (k : Key) (t : State) : State :=
  if !s.candidate k && t.candidate k then t.modWave k fun w => { w with waited := (t.quad k).cyc } else t

/-- Waves of quadrant q of a core (R21), in ascending crew slot and WAVEID. -/
def quadWaves (core q : Nat) : List Key :=
  (List.range 16).flatMap fun c => (List.range 8).map fun i => waveKey (crewKey core c) (4 * i + q)

/-- The wave with key k comes before the wave with key b in R25's order: longer Waited, then the wave of the previous
clause unless it set YLD, then the lower WAVEID, then the lower CREWID. DESIGN CHOICE (log 51): of two waves equal in all of
these, in crews of different launches, the one in the lower crew slot. -/
def State.before (s : State) (qd : Quad) (k b : Key) : Bool :=
  let wk := (s.wave k).waited
  let wb := (s.wave b).waited
  if wk ≠ wb then decide (wk < wb)
  else if qd.last == some b && !qd.lastYld then false
  else if qd.last == some k && !qd.lastYld then true
  else if waveIdOf k ≠ waveIdOf b then decide (waveIdOf k < waveIdOf b)
  else
    let ck := (s.crew (crewOf k)).crewid
    let cb := (s.crew (crewOf b)).crewid
    if ck ≠ cb then decide (ck < cb) else decide (k < b)

/-- The best candidate. -/
def State.pickBest (s : State) (qd : Quad) : List Key → Option Key
  | [] => none
  | k :: r =>
    match s.pickBest qd r with
    | none => some k
    | some b => some (if s.before qd b k then b else k)

/-- A wave parks on a fetch that misses (R34, R373); in the firmware space the miss is XLATE (R330). -/
def State.parkFetch (s : State) (k : Key) (va : Nat) : State :=
  match s.ctxOf k with
  | some c =>
    (s.parkWave k (.fetchMiss va) none).reportMiss c va (.front k)
  | none => s.raiseWave k .xlate (BitVec.ofNat 64 va)

/-- The picked wave enters its next clause: the header is fetched and checked (R161, R163), or the rest of a clause
under its header as it stands (R186). -/
def State.enterClause (s : State) (k : Key) : State :=
  let w := s.wave k
  match w.clause with
  | some c => s.modQuad (coreOf k) (quadOf k) fun q => { q with lastYld := c.yld || (unpackH c.hdr).yld }
  | none =>
    let pc := w.midHdr.getD w.pc
    if pc % 8 ≠ 0 then s.raiseWave k .clause (BitVec.ofNat 64 pc)
    else
      match s.fetchWave k pc with
      | .wait => s
      | .miss => s.parkFetch k pc
      | .access => s.raiseWave k .access (BitVec.ofNat 64 pc)
      | .ecc l => s.raiseWave k .eccfatal (BitVec.ofNat 64 (lineDet l))
      | .ok s1 h =>
        let hd := unpackH h
        match w.midHdr with
        | some a =>
          (s1.modWave k fun w =>
            { w with clause := some { hdrAt := a, hdr := h, pos := (w.pc - a) / 8 - 1 }, hwait := none,
                     lhdr := Vector.ofFn fun l => if inMask w.group l then none else w.lhdr[l] }).modQuad
            (coreOf k) (quadOf k) fun q => { q with lastYld := hd.yld }
        | none =>
          if !isHeader h || decide (5 ≤ hd.cls.toNat) then s1.raiseWave k .clause (BitVec.ofNat 64 pc) h
          else if hd.res ≠ 0 || hd.res2 ≠ 0 then s1.raiseWave k .illegal 0 h
          else
            (s1.modWave k fun w =>
              { w with clause := some { hdrAt := pc, hdr := h, pos := 0 }, hwait := none,
                       lpc := Vector.ofFn fun l => if inMask w.group l then w.lpc[l] + 8 else w.lpc[l] }).modQuad
              (coreOf k) (quadOf k) fun q => { q with lastYld := hd.yld }

/-- CLAUSE_ISSUE_PICK (R25): at a clause boundary of the quadrant its waves come to their next groups, the best ready
one is picked, and it enters its clause. A quadrant inside a clause that can go on is at no boundary. -/
def execClauseIssuePick (core q : Nat) (s : State) : Host.Outcome State Fault Refusal :=
  let qd := tget (s.core core).quads {} q
  let busy := match qd.inClause with
    | some k => (s.wave k).canRun && (s.wave k).clause.isSome
    | none => false
  .next <|
    if busy then s
    else
      let ks := (quadWaves core q).filter fun k => (s.wave k).here
      let s1 := ks.foldl (fun s k => s.reach k) s
      match s1.pickBest qd (ks.filter fun k => s1.ready k) with
      | none => s1.modQuad core q fun x => { x with inClause := none }
      | some k =>
        let s2 := (s1.modQuad core q fun x => { x with last := some k, lastYld := false, inClause := some k }).modWave k
          fun w => { w with waited := qd.cyc }
        { s2.enterClause k with cur := k, onSeq := false }

-- The next word.

/-- Answer of a wave's fetch: the instruction to run, or what happened instead. -/
inductive Front
  | run (s : State) (i : Instr)
  | other (s : State)
  | idle

/-- The wave is the one that its quadrant has picked, inside its clause (R25, R161). -/
def State.picked (s : State) (k : Key) : Bool := (s.quad k).inClause == some k

/-- The targets that a transfer gives the lanes of the running group that meet its condition (R169, R189), ascending: those of BRA and
CALL, which the word itself gives, and those of BRX, CALLX and RET where their pair may be read: aligned, in the allotment, LIVE and
not pending. -/
def Wave.wordTargets (w : Wave) (x : Dword) : List Nat :=
  let meet := w.group &&& w.pred (x.extractLsb' 51 3) (x.getLsbD 50)
  let off : Dword := (x.extractLsb' 0 32).signExtend 64
  let a := (x.extractLsb' 38 8).toNat
  let p := 2 * (x.extractLsb' 32 5).toNat
  let readable (o : Opd) : Bool :=
    o.reg % 2 == 0 && (budgetBad w [o]).isNone && (deadReg w [o]).isNone && !(w.pend.any fun q => q.meets o)
  if meet = 0 then []
  else
    match (x.extractLsb' 56 8).toNat with
    | 1 | 3 => [(BitVec.ofNat 64 w.pc + off).toNat]
    | 2 | 4 =>
      if readable { file := .v, reg := a, n := 2, reads := true } then
        ((lanesOf meet).map fun l => (BitVec.ofNat 64 (w.rvn a 2 l) + off).toNat).insertionSort (· ≤ ·)
      else []
    | 5 => if readable { file := .s, reg := p, n := 2, reads := true } then [w.rsn p 2] else []
    | _ => []

/-- CLAUSE comes before ILLEGAL (R164): a word that is not well formed has a target that is no header (R163, R189). A target that
stands in registers which may not be read is not judged: BUDGET and RDEAD come first (DEDUCED, log 53). -/
def State.clauseFirst (s : State) (k : Key) (x : Dword) : Option Nat :=
  ((s.wave k).wordTargets x).find? fun t => t % 8 != 0 || ((s.peek k t).map fun h => !isHeader h).getD false

/-- The next word of a wave inside a clause: fetched, and checked for CLAUSE, ACCESS and ILLEGAL (R164 steps 1 to 3). -/
def State.nextWord (s : State) (k : Key) : Front :=
  let w := s.wave k
  match w.clause with
  | none => .idle
  | some c =>
    if !w.canRun || w.group = 0 || !s.picked k then .idle
    else
      match s.fetchWave k w.pc with
      | .wait => .idle
      | .miss => .other (s.parkFetch k w.pc)
      | .access => .other (s.raiseWave k .access (BitVec.ofNat 64 w.pc))
      | .ecc l => .other (s.raiseWave k .eccfatal (BitVec.ofNat 64 (lineDet l)))
      | .ok s1 x =>
        let h := unpackH c.hdr
        if isHeader x || !classAccepts h.cls.toNat (c.pos == h.count.toNat) x then
          .other (s1.raiseWave k .clause (BitVec.ofNat 64 w.pc) x)
        else
          match decodeWave (isReeveCore (coreOf k)) x with
          | .ok i => .run s1 i
          | .clause => .other (s1.raiseWave k .clause (BitVec.ofNat 64 w.pc) x)
          | .access => .other (s1.raiseWave k .access (BitVec.ofNat 64 w.pc) x)
          | .illegal =>
            match s1.clauseFirst k x with
            | some t => .other (s1.raiseWave k .clause (BitVec.ofNat 64 t) x)
            | none => .other (s1.raiseWave k .illegal 0 x)

end Sys2Proof.Machine
end

