-- ==== Sys2Proof/Machine/Scratch.lean ====
section
/-! DEFINITION. The scratchpad (R85 to R93, R207): words with tags, banks with supply states, waiters served in order;
LDS, STS, SPTAG and SPDROP (R247, R248) and the steps of the scratchpad's own logic. -/

namespace Sys2Proof.Machine

/-- A crew's scratchpad bank. -/
def Crew.bank (c : Crew) (b : Nat) : Bank := tget c.spb {} b
/-- Replaces a scratchpad bank. -/
def Crew.setBank (c : Crew) (b : Nat) (x : Bank) : Crew := { c with spb := tset c.spb b x }
/-- A scratchpad word: unlisted words are 0 and EMPTY (R86). -/
def Crew.word (c : Crew) (n : Nat) : SpWord := tget c.sp {} n
/-- Replaces a scratchpad word. -/
def Crew.setWord (c : Crew) (n : Nat) (x : SpWord) : Crew := { c with sp := tset c.sp n x }
/-- Bank of a word index (R85). -/
def bankOfWord (n : Nat) : Nat := n / 2048
/-- Bytes of a crew's scratchpad (R85). -/
def Crew.spLimit (c : Crew) : Nat := 8192 * c.spbN

/-- A bank goes OFF: its words are lost and EMPTY, TAKEN is cleared (R86, R90, R91). -/
def Crew.spOff (c : Crew) (b : Nat) : Crew :=
  { c.setBank b {} with sp := c.sp.filter fun e => bankOfWord e.1 ≠ b }

/-- An access to a bank wakes it and restarts its idle count (R87, R91, R92). -/
def Crew.spWake (c : Crew) (b : Nat) : Crew :=
  let x := c.bank b
  c.setBank b { x with st := .full, waking := false, idle := none, bad := false }

/-- The wake of a bank would find a parity error (R93). -/
def Crew.spLost (c : Crew) (b : Nat) : Bool := (c.bank b).st == .retain && (c.bank b).bad

/-- One lane served: the wave of the crew, the lane, the data returned. -/
abbrev Served := List (Nat × Nat × Word)

/-- Serves the accesses parked on a word, in their order, as the word's state allows (R88). An STS.E fills a word of a FULL bank:
on a bank that SPDROP took OFF it remains parked (R90), and it waits for a wake in progress (R86). -/
def Crew.serve (c : Crew) (n : Nat) : (fuel : Nat) → Crew × Served
  | 0 => (c, [])
  | fuel + 1 =>
    let x := c.word n
    if x.full then
      let reads := c.tagq.filter fun t => t.word == n && t.kind == .ldsf
      let rest := c.tagq.filter fun t => !(t.word == n && t.kind == .ldsf)
      let got : Served := reads.map fun t => (t.wave, t.lane, x.data)
      match rest.find? fun t => t.word == n && t.kind == .ldst with
      | some t =>
        let c1 := ({ c with tagq := rest.filter fun u => u ≠ t }).setWord n { x with full := false }
        let c2 := c1.setBank (bankOfWord n) { c1.bank (bankOfWord n) with taken := true, idle := none }
        let (c3, more) := c2.serve n fuel
        (c3, got ++ (t.wave, t.lane, x.data) :: more)
      | none => ({ c with tagq := rest }, got)
    else
      match c.tagq.find? fun t => t.word == n && t.kind == .stse && (c.bank (bankOfWord n)).st == .full with
      | some t =>
        let c1 := ({ c with tagq := c.tagq.filter fun u => u ≠ t }).spWake (bankOfWord n)
        let (c2, more) := (c1.setWord n { data := t.data, full := true }).serve n fuel
        (c2, (t.wave, t.lane, 0) :: more)
      | none => (c, [])

/-- Notes a served lane with its wave. -/
def Wave.gotLane (w : Wave) (l : Nat) (d : Word) : Wave :=
  { w with tagLeft := w.tagLeft &&& ~~~(BitVec.twoPow 32 l), tagGot := w.tagGot.setIfInBounds l d }

/-- Serves the accesses parked on a word of a crew. -/
def State.serveWord (s : State) (c : Key) (n : Nat) : State :=
  let x := s.crew c
  let (x', got) := x.serve n (2 * x.tagq.length + 1)
  got.foldl (fun s g => s.modWave (waveKey c g.1) fun w => w.gotLane g.2.1 g.2.2) (s.setCrew c x')

/-- Changes a word and serves the accesses parked on it. -/
def State.putWord (s : State) (c : Key) (n : Nat) (x : SpWord) : State :=
  (s.modCrew c fun w => w.setWord n x).serveWord c n

/-- Scratchpad address of a lane (R245). -/
def Wave.spAddr (w : Wave) (x : MF) (l : Fin 32) : Nat := (w.rv x.ar.toNat l + x.off.signExtend 32).toNat
/-- Scratchpad address from a scalar register (R245). -/
def Wave.spAddrS (w : Wave) (x : MF) : Nat := (w.rs x.ar.toNat + x.off.signExtend 32).toNat

/-- R85: the fault of a scratchpad address, if any. -/
def spCheck (limit a size : Nat) : Option FClass :=
  if limit ≤ a then some .access else if a % size ≠ 0 then some .align else none

/-- Live lanes of a mask. -/
def Wave.liveOf (w : Wave) (m : LaneMask) : List (Fin 32) := lanesOf (m &&& w.liveMask)

/-- First fault among the live lanes of a scratchpad word. -/
def spFault (limit size : Nat) (w : Wave) (x : MF) (m : LaneMask) : Option (FClass × Dword) :=
  (w.liveOf m).findSome? fun l =>
    (spCheck limit (w.spAddr x l) size).map fun c => (c, BitVec.ofNat 64 (w.spAddr x l))

/-- Words of an access of n words at a byte address. -/
def spWords (a n : Nat) : List Nat := (List.range n).map fun i => a / 4 + i

/-- Data of n words as one number. -/
def Crew.data (c : Crew) (a n : Nat) : Nat :=
  ((spWords a n).map fun i => (c.word i).data.toNat).foldr (fun v acc => v + 2 ^ 32 * acc) 0

/-- A bank of the list that a copy command wakes from RETAIN: an access waits for the same wake (R86, R89), whose parity check is
the copy's (R93). -/
def Crew.wakeBusy (c : Crew) (bs : List Nat) : Bool := bs.any fun b => (c.bank b).st == .retain && (c.bank b).waking

/-- The first bank that a wave's access wakes from RETAIN and finds wrong (R93). -/
def firstLost (c : Crew) (bs : List Nat) : Option Nat := bs.find? fun b => c.spLost b

/-- Detail of a scratchpad RETLOSS (R379). -/
def spLossDet (b : Nat) : Dword := BitVec.ofNat 64 (b + 256)

/-- A word of the wave parks behind accesses that a miss or a late fault holds (R34, R419), and is held at issue behind accesses that
wait in a crossing FIFO or for a peer, and behind a path fence (R254); else its body runs. -/
def memGate (path : Nat) (body : State → Key → Wave → Eff) (s : State) (k : Key) (w : Wave) : Eff :=
  if w.missHeld then .park s .miss
  else if w.held ≠ [] || w.fences.any fun f => f.1 == path then .hold
  else body s k w

/-- A wave leaves its park or its stop: its Waited count starts (R25, R27). -/
def State.woken (s : State) (k : Key) : State :=
  s.modWave k fun w => { w with waited := (s.quad k).cyc }

/-- The results of a word that has issued and waits in its park: their data is to come; a word without a register result has one that
no register names, which its slot counts (R44, R52). -/
def lateRes (rs : List Res) : List Res :=
  match rs with
  | [] => [{ file := .v, reg := 0, data := [], mask := BitVec.allOnes 32, arrived := false, why := some .parked }]
  | rs => rs.map fun r => { r with arrived := false, why := some .parked }

/-- The data of a parked word's results has come. -/
def fillParked : List Res → List Pend → List Pend
  | _, [] => []
  | rs, p :: r =>
    if p.why == some .parked then
      { p with arrived := true, why := none, data := match rs with | [] => p.data | d :: _ => if p.n = 0 then [] else d.data }
        :: fillParked (rs.drop 1) r
    else p :: fillParked rs r

/-- A parked word that has issued is complete: its results have arrived, and the wave goes on (R27, R49). -/
def State.finish (s : State) (k : Key) (res : List Res) : State :=
  let s1 := match (s.wave k).park, (s.wave k).parkI with
    | some p, some i => if p.readsOn then s.useSources k i else s
    | _, _ => s
  (s1.modWave k fun w => ({ w with pend := fillParked res w.pend }).goPast .step).woken k

/-- A lane of LDS in the crew, with what it reads so far: the value it receives, or that it waits (R87, R247). -/
def ldsLane (mode : LdsMode) (n : Nat) (ck : Key) (wid : Nat) (live : Bool) (a : Nat) (l : Nat) (s : State) :
    State × Option Nat :=
  let c := s.crew ck
  let b := a / 8192
  let off := (c.bank b).st == .off
  if !live then (s, some (if off || a % (4 * n) ≠ 0 || c.spLimit ≤ a then 0 else c.data a n))
  else
    match mode with
    | .plain => (s.modCrew ck fun c => c.spWake b, some (c.data a n))
    | .now => (s.modCrew ck fun c => c.spWake b, some (if (c.word (a / 4)).full then c.data a 1 else 0))
    | .full =>
      let s1 := if off then s else s.modCrew ck fun c => c.spWake b
      if (c.word (a / 4)).full then (s1, some (c.data a 1))
      else (s1.modCrew ck fun c => { c with tagq := c.tagq ++ [{ wave := wid, lane := l, word := a / 4, kind := .ldsf }] }, none)
    | .take =>
      let s1 := if off then s else s.modCrew ck fun c => c.spWake b
      if (c.word (a / 4)).full then
        let s2 := s1.modCrew ck fun c => c.setBank b { c.bank b with taken := true, idle := none }
        (s2.putWord ck (a / 4) { c.word (a / 4) with full := false }, some (c.data a 1))
      else (s1.modCrew ck fun c => { c with tagq := c.tagq ++ [{ wave := wid, lane := l, word := a / 4, kind := .ldst }] }, none)

/-- The lanes of LDS, ascending: the state, the values by lane, the lanes that wait. -/
def ldsLanes (mode : LdsMode) (n : Nat) (x : MF) (s : State) (k : Key) (w : Wave) (m : LaneMask) :
    State × List (Nat × Nat) × LaneMask :=
  (lanesOf m).foldl
    (fun p l =>
      let r := ldsLane mode n (crewOf k) (waveIdOf k) (w.lst[l] == .live) (w.spAddr x l) l.val p.1
      match r.2 with
      | some v => (r.1, p.2.1 ++ [(l.val, v)], p.2.2)
      | none => (r.1, p.2.1, p.2.2 ||| BitVec.twoPow 32 l.val))
    (s, [], 0)

/-- Body of LDS (R247). -/
def ldsBody (mode : LdsMode) (sz : SpSize) (x : MF) (s : State) (k : Key) (w : Wave) : Eff :=
  let m := w.act x.pr x.pn
  let c := s.crew (crewOf k)
  let n := sz.regs
  match spFault c.spLimit (4 * n) w x m with
  | some (cls, det) => .fault cls det
  | none =>
    let offLane := (w.liveOf m).find? fun l => mode == .now && (c.bank (w.spAddr x l / 8192)).st == .off
    match offLane with
    | some l => .fault .spoff (BitVec.ofNat 64 (w.spAddr x l))
    | none =>
      if c.wakeBusy ((w.liveOf m).map fun l => w.spAddr x l / 8192) then .hold else
      match firstLost c ((w.liveOf m).map fun l => w.spAddr x l / 8192) with
      | some b => .faultIn (s.modCrew (crewOf k) fun c => c.spOff b) .retloss (spLossDet b)
      | none =>
        let (s1, vals, left) := ldsLanes mode n x s k w m
        if left = 0 then .done s1 [resV x.d.toNat n m fun l => tget vals 0 l.val]
        else
          .wait (s1.modWave k fun w =>
            { w with tagLeft := w.tagLeft ||| left,
                     tagGot := Vector.ofFn fun l => if inMask left l then w.tagGot[l] else BitVec.ofNat 32 (tget vals 0 l.val) })
            .tag (lateRes [resV x.d.toNat n m fun _ => 0])

/-- LDS (R87, R88, R247). -/
def execLds (mode : LdsMode) (sz : SpSize) (x : MF) (s : State) : Host.Outcome State Fault Refusal :=
  .next (s.issue (.lds mode sz x) (memGate 0 (ldsBody mode sz x)))

/-- A lane of STS: it writes, or it waits (R87). -/
def stsLane (e : Bool) (n : Nat) (ck : Key) (wid : Nat) (a l v : Nat) (s : State) : State × Bool :=
  let s1 := s.modCrew ck fun c => c.spWake (a / 8192)
  if e && ((s.crew ck).word (a / 4)).full then
    (s1.modCrew ck fun c =>
      { c with tagq := c.tagq ++ [{ wave := wid, lane := l, word := a / 4, kind := .stse, data := wordAt v 0 }] }, false)
  else
    ((List.range n).foldl (fun s i => s.putWord ck (a / 4 + i) { data := wordAt v i, full := true }) s1, true)

/-- The live lanes of STS, ascending: the state and the lanes that wait. -/
def stsLanes (e : Bool) (n : Nat) (x : MF) (s : State) (k : Key) (w : Wave) (m : LaneMask) : State × LaneMask :=
  (w.liveOf m).foldl
    (fun p l =>
      let r := stsLane e n (crewOf k) (waveIdOf k) (w.spAddr x l) l.val (w.rvn x.d.toNat n l) p.1
      (r.1, if r.2 then p.2 else p.2 ||| BitVec.twoPow 32 l.val))
    (s, 0)

/-- Body of STS (R247). -/
def stsBody (e : Bool) (sz : SpSize) (x : MF) (s : State) (k : Key) (w : Wave) : Eff :=
  let m := w.act x.pr x.pn
  let c := s.crew (crewOf k)
  match spFault c.spLimit (4 * sz.regs) w x m with
  | some (cls, det) => .fault cls det
  | none =>
    if c.wakeBusy ((w.liveOf m).map fun l => w.spAddr x l / 8192) then .hold else
    match firstLost c ((w.liveOf m).map fun l => w.spAddr x l / 8192) with
    | some b => .faultIn (s.modCrew (crewOf k) fun c => c.spOff b) .retloss (spLossDet b)
    | none =>
      let (s1, left) := stsLanes e sz.regs x s k w m
      if left = 0 then .done s1 []
      else .wait (s1.modWave k fun w => { w with tagLeft := w.tagLeft ||| left }) .tag (lateRes [])

/-- STS (R87, R88, R247). -/
def execSts (e : Bool) (sz : SpSize) (x : MF) (s : State) : Host.Outcome State Fault Refusal :=
  .next (s.issue (.sts e sz x) (memGate 0 (stsBody e sz x)))


/-- A wave whose parked LDS or STS.E has every lane served goes on (R88): the result of LDS commits under R49. -/
def State.tagDone (s : State) (k : Key) : State :=
  let w := s.wave k
  if w.park ≠ some .tag || w.tagLeft ≠ 0 || w.stopped then s
  else
    match w.parkI with
    | some (.lds _ _ x) => s.finish k [resV x.d.toNat 1 (w.act x.pr x.pn) fun l => (w.tagGot[l]).toNat]
    | some (.sts _ _ _) => s.finish k []
    | _ => s

/-- TAG_WAIT_SERVED: the accesses parked on a scratchpad word are served, and each wave whose every lane has been
served goes on (R88, R207), while the core's clock runs (R318). -/
def execTagWaitServed (core cslot word : Nat) (s : State) : Host.Outcome State Fault Refusal :=
  let c := crewKey core cslot
  .next (if s.clockOn core then (List.range 32).foldl (fun s w => s.tagDone (waveKey c w)) (s.serveWord c word) else s)

/-- Body of SPTAG (R90, R248). -/
def sptagBody (full : Bool) (x : MF) (s : State) (k : Key) (w : Wave) : Eff :=
  if w.act x.pr x.pn = 0 then .done s []
  else
    let ck := crewOf k
    let c := s.crew ck
    let base := w.spAddrS x
    let len := (w.rs x.d.toNat).toNat
    if base % 4 ≠ 0 || len % 4 ≠ 0 then .fault .align (BitVec.ofNat 64 base)
    else if len = 0 then .done s []
    else if c.spLimit < base + len then .fault .access (BitVec.ofNat 64 base)
    else
      let ws := (List.range (len / 4)).map fun i => base / 4 + i
      let woken := ((ws.map bankOfWord).dedup).filter fun b => full || (c.bank b).st ≠ .off
      if c.wakeBusy woken then .hold else
      match firstLost c woken with
      | some b => .faultIn (s.modCrew ck fun c => c.spOff b) .retloss (spLossDet b)
      | none =>
        let s1 := woken.foldl (fun s b => s.modCrew ck fun c => c.spWake b) s
        .done (ws.foldl (fun s n =>
          if full || ((s.crew ck).word n).full then s.putWord ck n { (s.crew ck).word n with full := full } else s) s1) []

/-- SPTAG (R90, R248). -/
def execSptag (full : Bool) (x : MF) (s : State) : Host.Outcome State Fault Refusal :=
  .next (s.issue (.sptag full x) (memGate 0 (sptagBody full x)))

/-- A bank named by SPDROP goes OFF, or waits for the copy beats pending into it (R90). -/
def State.dropBank (s : State) (c : Key) (b : Nat) : State :=
  if s.copyPends c b then s.modCrew c fun x => { x with spdrop := x.spdrop ||| BitVec.twoPow 32 b }
  else s.modCrew c fun x => { x.spOff b with spdrop := x.spdrop &&& ~~~(BitVec.twoPow 32 b) }

/-- Body of SPDROP (R248). -/
def spdropBody (x : MF) (s : State) (k : Key) (w : Wave) : Eff :=
  if w.act x.pr x.pn = 0 then .done s []
  else
    let m := w.rs x.d.toNat
    let bs := (List.range (min 32 (s.crew (crewOf k)).spbN)).filter fun b => m.getLsbD b
    .done (bs.foldl (fun s b => s.dropBank (crewOf k) b) s) []

/-- SPDROP (R90, R248). -/
def execSpdrop (x : MF) (s : State) : Host.Outcome State Fault Refusal :=
  .next (s.issue (.spdrop x) (memGate 0 (spdropBody x)))

/-- SPDROP_COMPLETE: the last copy beat pending into a named bank has landed, and the bank goes OFF (R90). -/
def execSpdropComplete (crew bank : Nat) (s : State) : Host.Outcome State Fault Refusal :=
  .next (if (s.crew crew).spdrop.getLsbD bank then s.dropBank crew bank else s)

/-- The wake of a scratchpad bank that a copy command began ends (R86, R92); a parity error found takes the bank OFF and is
RETLOSS of the copy engine (R93). -/
def State.spWakeEnd (s : State) (crew bank : Nat) : State :=
  if (s.crew crew).spLost bank then
    let pos := ((s.core (coreOfCrew crew)).copyq.findIdx? fun e => e.cslot == cslotOf crew && e.pendsInto bank).getD 0
    (s.modCrew crew fun c => c.spOff bank).raiseCopy (coreOfCrew crew) pos .retloss (spLossDet bank)
  else s.modCrew crew fun c => c.spWake bank

/-- SP_BANK_WAKE_DONE: the wake of a scratchpad bank ends; a wave's own access ends its wake at once. -/
def execSpBankWakeDone (crew bank : Nat) (s : State) : Host.Outcome State Fault Refusal :=
  .next (if ((s.crew crew).bank bank).waking && s.clockOn (coreOfCrew crew) then s.spWakeEnd crew bank else s)

/-- Every word of a bank is EMPTY. -/
def Crew.bankEmpty (c : Crew) (b : Nat) : Bool := c.sp.all fun e => bankOfWord e.1 ≠ b || !e.2.full

/-- Cycles of the die's clock so far (R202), as a mark for counts of consecutive cycles. -/
def State.cycles (s : State) (core : Nat) : Nat := (s.die (dieOf core)).cyc

/-- The conditions of auto-drop hold (R91). -/
def State.dropDue (s : State) (crew bank : Nat) : Bool :=
  let c := s.crew crew
  let x := c.bank bank
  x.st == .full && c.spauto.getLsbD bank && decide (bank < c.spbN) && x.taken && c.bankEmpty bank
    && !s.copyPends crew bank && !(c.tagq.any fun t => t.kind == .stse && bankOfWord t.word == bank)

/-- SP_AUTO_DROP: the count of 16 cycles under the conditions of R91 begins, or, when it is full, the bank goes OFF. -/
def execSpAutoDrop (crew bank : Nat) (s : State) : Host.Outcome State Fault Refusal :=
  let x := (s.crew crew).bank bank
  let now := s.cycles (coreOfCrew crew)
  .next <|
    if !s.dropDue crew bank then s.modCrew crew fun c => c.setBank bank { x with idle := none }
    else
      match x.idle with
      | none => s.modCrew crew fun c => c.setBank bank { x with idle := some now }
      | some t => if t + 16 ≤ now then s.modCrew crew fun c => c.spOff bank else s

/-- Every wave of a crew is parked or stopped for longer than a threshold (R46, R92). -/
def State.crewQuiet (s : State) (crew th : Nat) : Bool :=
  (List.range 32).all fun n =>
    let w := s.wave (waveKey crew n)
    !w.here || w.done || ((w.park.isSome || w.stopped) && decide (w.parkSince + th < s.reft))

/-- Retention threshold of a crew's context (R46); 0 disables retention. -/
def State.retth (s : State) (crew : Key) : Nat :=
  if isReeveCore (coreOfCrew crew) then 0 else s.ctxRetth (s.crew crew).ctx

/-- SP_BANK_RETAIN: a FULL bank of a crew quiet beyond the threshold enters RETAIN (R92). -/
def execSpBankRetain (crew bank : Nat) (s : State) : Host.Outcome State Fault Refusal :=
  let x := (s.crew crew).bank bank
  .next <|
    if x.st == .full && decide (s.retth crew ≠ 0) && s.crewQuiet crew (s.retth crew) && !s.copyPends crew bank
    then s.modCrew crew fun c => c.setBank bank { x with st := .retain, idle := none }
    else s

end Sys2Proof.Machine
end

