-- ==== Sys2Proof/Machine/Control.lean ====
section
/-! DEFINITION. Control words: transfers, calls and rejoin registers (R185 to R193), weirs and cluster barriers (R194,
R195), the schedule cursor (R196), allotment and liveness (R198 to R200), region and partition (R201), waits and traps
(R205), and the ends of their parks. -/

namespace Sys2Proof.Machine

/-- A wave-level word: no effect under an empty mask (R185). -/
def waveLevel (pr : BitVec 3) (pn : Bool) (body : State → Key → Wave → Eff) (s : State) (k : Key) (w : Wave) : Eff :=
  if w.act pr pn = 0 then .done s [] else body s k w

/-- A word that has parked its wave before it issued, and waits no longer, issues and is complete (R27, R44). -/
def State.grant (s : State) (k : Key) : State :=
  match (s.wave k).parkI with
  | some i => (s.retire k i [] .step).woken k
  | none => (s.modWave k fun w => { w with park := none }).woken k

/-- A parked word issues again from the start (R206). -/
def State.reissue (s : State) (k : Key) : State :=
  (s.modWave k fun w => { w with park := none, parkI := none }).woken k

-- NOP, YIELD, TRAP, BKPT, SLEEP.

/-- NOP (R205). -/
def execNop (s : State) : Host.Outcome State Fault Refusal := .next (s.issue .nop fun s _ _ => .done s [])

/-- The quadrant treats the current clause as carrying YLD = 1, its later words too (R205). -/
def yieldBody (s : State) (k : Key) (_ : Wave) : Eff :=
  .done ((s.modQuad (coreOf k) (quadOf k) fun q => { q with lastYld := true }).modWave k fun w =>
    { w with clause := w.clause.map fun c => { c with yld := true } }) []

/-- YIELD (R205). -/
def execYield (s : State) : Host.Outcome State Fault Refusal := .next (s.issue .yield yieldBody)

/-- TRAP: SWTRAP with IMM (R205). -/
def execTrap (x : IF) (s : State) : Host.Outcome State Fault Refusal :=
  .next (s.issue (.trap x) (waveLevel x.pr x.pn fun _ _ _ => .fault .swtrap (x.imm.setWidth 64)))

/-- BKPT: BREAK with IMM (R205). -/
def execBkpt (x : IF) (s : State) : Host.Outcome State Fault Refusal :=
  .next (s.issue (.bkpt x) (waveLevel x.pr x.pn fun _ _ _ => .fault .brk (x.imm.setWidth 64)))

/-- Body of SLEEP: parks until REFT has risen by IMM; 0 acts as YIELD (R205). -/
def sleepBody (x : IF) (s : State) (k : Key) (w : Wave) : Eff :=
  if x.imm = 0 then yieldBody s k w else .wait s (.sleep (s.reft + x.imm.toNat)) []

/-- SLEEP (R205). -/
def execSleep (x : IF) (s : State) : Host.Outcome State Fault Refusal :=
  .next (s.issue (.sleep x) (waveLevel x.pr x.pn (sleepBody x)))

/-- SLEEP_DEADLINE: a sleeping wave whose deadline REFT has reached goes on (R205, R206). -/
def execSleepDeadline (w : Key) (s : State) : Host.Outcome State Fault Refusal :=
  .next <|
    match (s.wave w).park with
    | some (.sleep d) => if decide (d ≤ s.reft) && !(s.wave w).stopped && s.clockOn (coreOf w) then s.finish w [] else s
    | _ => s

-- Transfers.

/-- Lanes of the running group that meet a transfer's condition (R189). -/
def Wave.meets (w : Wave) (x : BF) : LaneMask := w.group &&& w.pred x.pr x.pn

/-- The targets of the lanes that meet the condition, ascending. -/
def targetsOf (m : LaneMask) (tg : Fin 32 → Dword) : List Nat :=
  ((lanesOf m).map fun l => (tg l).toNat).dedup.insertionSort (· ≤ ·)

/-- Fetches the word of each address in turn and checks it; the first that misses or fails ends the transfer
(R163, R189). -/
def checkWords (k : Key) (ok : Dword → Bool) (det : Nat → Nat) : List Nat → State → Eff ⊕ (State × List Dword)
  | [], s => .inr (s, [])
  | a :: r, s =>
    if a % 8 ≠ 0 then .inl (.fault .clause (BitVec.ofNat 64 (det a)))
    else
      match s.fetchWave k a with
      | .wait => .inl .hold
      | .miss => .inl (s.missFront k a)
      | .access => .inl (.fault .access (BitVec.ofNat 64 a))
      | .ecc l => .inl (.fault .eccfatal (BitVec.ofNat 64 (lineDet l)))
      | .ok s1 x =>
        if ok x then
          match checkWords k ok det r s1 with
          | .inl e => .inl e
          | .inr (s2, xs) => .inr (s2, x :: xs)
        else .inl (.fault .clause (BitVec.ofNat 64 (det a)))

/-- A hint of uniformity that proves false counts in UHMISS (R190). -/
def State.hintMiss (s : State) (k : Key) (x : BF) (m meet : LaneMask) (targets : Nat) : State :=
  if x.hint = 3 && ((meet ≠ 0 && meet ≠ m) || decide (1 < targets)) then
    s.modCrew (crewOf k) fun c => { c with uhmiss := c.uhmiss + 1 }
  else s

/-- The lanes of the running group move: those that meet the condition to their targets, the others to the next header
(R189). -/
def Wave.moveLanes (w : Wave) (meet : LaneMask) (tg : Fin 32 → Dword) (ret : Nat) : Wave :=
  { w with lpc := Vector.ofFn fun l =>
             if inMask meet l then tg l else if inMask w.group l then BitVec.ofNat 64 ret else w.lpc[l],
           lhdr := Vector.ofFn fun l => if inMask w.group l then none else w.lhdr[l] }

/-- JE: jJ becomes the running group before the split (R189). -/
def Wave.enrol (w : Wave) (x : BF) : Wave :=
  if x.je then ({ w with jreg := tset w.jreg x.j.toNat w.group }).judge x.j.toNat else w

/-- A branch: BRA and BRX (R189). -/
def branchBody (x : BF) (tg : Wave → Fin 32 → Dword) (s : State) (k : Key) (w : Wave) : Eff :=
  let meet := w.meets x
  let ts := targetsOf meet (tg w)
  match checkWords k isHeader id ts s with
  | .inl e => e
  | .inr (s1, _) =>
    let s2 := s1.hintMiss k x w.group meet ts.length
    .done (s2.modWave k fun w => (w.enrol x).moveLanes meet (tg w) (w.pc + 8)) [] .leave

/-- Target of BRA and CALL: the branch word's address + OFF (R169). -/
def offTarget (x : BF) (w : Wave) (_ : Fin 32) : Dword := BitVec.ofNat 64 w.pc + x.off.signExtend 64
/-- Target of BRX and CALLX: the lane's pair + OFF (R169). -/
def pairTarget (x : BF) (w : Wave) (l : Fin 32) : Dword :=
  BitVec.ofNat 64 (w.rvn (bfTargets x).reg 2 l) + x.off.signExtend 64

/-- BRA (R189). -/
def execBra (x : BF) (s : State) : Host.Outcome State Fault Refusal :=
  .next (s.issue (.bra x) (branchBody x (offTarget x)))

/-- BRX (R189). -/
def execBrx (x : BF) (s : State) : Host.Outcome State Fault Refusal :=
  .next (s.issue (.brx x) (branchBody x (pairTarget x)))

/-- A call: CALL and CALLX (R187, R189): function words are checked, the link is written, a divergent call opens a
record. -/
def callBody (x : BF) (tg : Wave → Fin 32 → Dword) (s : State) (k : Key) (w : Wave) : Eff :=
  let m := w.group
  let meet := w.meets x
  let ts := targetsOf meet (tg w)
  let ret := w.pc + 8
  match checkWords k isHeader id ts s with
  | .inl e => e
  | .inr (s1, _) =>
    match checkWords k (fun f => (funcWord f).isSome) (· + 8) (ts.map fun a => (a + 2 ^ 64 - 8) % 2 ^ 64) s1 with
    | .inl e => e
    | .inr (s2, fs) =>
      match (ts.zip fs).find? fun p => decide (w.allot < 8 * ((funcWord p.2).getD 0 + 1)) with
      | some p => .fault .budget (BitVec.ofNat 64 (p.1 - 8))
      | none =>
        let divergent := meet ≠ 0 && (meet ≠ m || decide (1 < ts.length))
        if divergent && decide (8 ≤ w.calls.length) then .fault .illegal 0
        else
          let s3 := s2.hintMiss k x m meet ts.length
          let go (w : Wave) : Wave :=
            let w1 := (w.enrol x).moveLanes meet (tg w) ret
            if divergent then
              let first := w1.lanesAt meet (ts.headD 0)
              { w1 with calls :=
                  { ret := ret, held := m &&& ~~~meet, running := first, waiting := meet &&& ~~~first } :: w1.calls }
            else w1
          .done (s3.modWave k go) [resS (bfLink x) 2 meet ret] .leave

/-- CALL (R187, R189). -/
def execCall (x : BF) (s : State) : Host.Outcome State Fault Refusal :=
  .next (s.issue (.call x) (callBody x (offTarget x)))

/-- CALLX (R187, R189). -/
def execCallx (x : BF) (s : State) : Host.Outcome State Fault Refusal :=
  .next (s.issue (.callx x) (callBody x (pairTarget x)))

/-- Lanes that return to the innermost record's return address join its held set (R187, R191). -/
def Wave.joinHeld (w : Wave) (meet : LaneMask) (target : Nat) : Wave :=
  match w.calls with
  | r :: rest =>
    if r.ret = target then
      { w with calls := { r with held := r.held ||| (meet &&& r.running), running := r.running &&& ~~~meet } :: rest }
    else w
  | [] => w

/-- Body of RET (R191). DESIGN CHOICE (log 52): a HINT of 0b11, which the word's form does not show, counts in UHMISS where it proves
false, as R190 says of one. -/
def retBody (x : BF) (s : State) (k : Key) (w : Wave) : Eff :=
  let meet := w.meets x
  let t := BitVec.ofNat 64 (w.rsn (bfLink x) 2)
  match checkWords k isHeader id (targetsOf meet fun _ => t) s with
  | .inl e => e
  | .inr (s1, _) =>
    let s2 := s1.hintMiss k x w.group meet 1
    .done (s2.modWave k fun w => (w.moveLanes meet (fun _ => t) (w.pc + 8)).joinHeld meet t.toNat) [] .leave

/-- RET (R191). -/
def execRet (x : BF) (s : State) : Host.Outcome State Fault Refusal := .next (s.issue (.ret x) (retBody x))

/-- Lanes of a quad. -/
def quadMask (q : Nat) : LaneMask := laneMask fun l => l.val / 4 == q

/-- Helper lanes exit when every live lane of their quad has exited (R12). -/
def Wave.exitHelpers (w : Wave) : Wave :=
  let gone (l : Fin 32) : Bool := w.lst[l] == .helper && (quadMask (l.val / 4) &&& w.liveMask) == 0
  { w with lst := Vector.ofFn fun l => if gone l then .exited else w.lst[l] }

/-- The lanes that meet EXIT leave: live lanes are exited, helper lanes follow R12. -/
def Wave.exitLanes (w : Wave) (meet : LaneMask) : Wave :=
  let w1 : Wave := { w with
    lst := Vector.ofFn fun l => if inMask meet l && w.lst[l] == LaneState.live then .exited else w.lst[l],
    jpark := Vector.ofFn fun l => if inMask meet l && w.lst[l] == LaneState.helper then some atExit else w.jpark[l] }
  w1.exitHelpers.judgeAll

/-- Every slot of a wave reads 0 and nothing is pending (R52). -/
def Wave.quiet (w : Wave) : Bool := w.pend.isEmpty && w.held.isEmpty && w.sb.all fun e => e.2 == 0

/-- Crews of the cluster launch of a crew (R9, R195): same launch and unit, on the cores of its cluster. -/
def State.unitCrews (s : State) (c : Key) : List Key :=
  if isReeveCore (coreOfCrew c) then [c]
  else
    ((coresOfCluster (clusterOf (coreOfCrew c))).flatMap fun n => (List.range 16).map fun i => crewKey n i).filter fun d =>
      (s.crew d).st ≠ .absent && (s.crew d).launch == (s.crew c).launch && (s.crew d).unit == (s.crew c).unit

/-- The crew that holds the cluster barriers of a cluster launch: its rank 0 (R195), or the lowest rank that has not
completed. -/
def State.unitHead (s : State) (c : Key) : Key :=
  (s.unitCrews c).foldl (fun b d => if (s.crew d).rank < (s.crew b).rank then d else b) c

/-- The non-exited waves of a cluster launch. -/
def State.unitWaves (s : State) (c : Key) : List Key :=
  ((s.unitCrews c).flatMap fun d => (List.range 32).map fun i => waveKey d i).filter fun k =>
    (s.wave k).here && (s.wave k).nonExited ≠ 0

/-- Completes the phase of barrier n when every non-exited wave of the cluster launch has arrived (R195). -/
def State.barrierCheck (s : State) (c : Key) (n : Nat) : State :=
  let h := s.unitHead c
  let b := tget (s.crew h).cbars {} n
  if b.arrived ≠ [] && (s.unitWaves c).all fun k => b.arrived.contains k then
    s.modCrew h fun x => { x with cbars := tset x.cbars n { arrived := [], p := b.p + 1 } }
  else s

/-- A wave whose every lane has exited (R18, R50, R52, R192, R260): its windows close, its blocks return, staged words are
discarded; it counts as exited once its slots read 0. -/
def State.waveExit (s : State) (k : Key) : State :=
  let w := s.wave k
  if w.nonExited ≠ 0 then s
  else
    let w1 : Wave :=
      { w with pend := w.pend.map fun p => { p with remain := 0 }, xb := 0, stage := [], clause := none, group := 0,
                                      calls := [] }
    let s1 := s.setWave k { w1 with exitWait := !w1.quiet, done := w1.quiet }
    ((List.range 4).foldl (fun s n => s.barrierCheck (crewOf k) n) s1).barrierLeave

/-- Body of EXIT (R192). DESIGN CHOICE (log 52): a HINT of 0b11, which the word's form does not show, counts in UHMISS where it
proves false, as R190 says of one. -/
def exitBody (x : BF) (s : State) (k : Key) (w : Wave) : Eff :=
  let meet := w.meets x
  let s1 := s.hintMiss k x w.group meet 1
  .done (s1.modWave k fun w => (w.moveLanes 0 (fun _ => 0) (w.pc + 8)).exitLanes meet) [] .leave

/-- EXIT (R192). -/
def execExit (x : BF) (s : State) : Host.Outcome State Fault Refusal :=
  let k := s.cur
  .next ((s.issue (.exit x) (exitBody x)).waveExit k)

-- Rejoin registers.

/-- Writes a rejoin register and judges its release (R193). -/
def Wave.putJ (w : Wave) (n : Nat) (m : LaneMask) : Wave := ({ w with jreg := tset w.jreg n m }).judge n

/-- JENR (R193). -/
def execJenr (x : VF) (s : State) : Host.Outcome State Fault Refusal :=
  .next (s.issue (.jenr x) fun s k _ => .done (s.modWave k fun w => w.putJ x.d.toNat (w.act x.pr x.pn)) [])

/-- JSTRK (R193). -/
def execJstrk (x : VF) (s : State) : Host.Outcome State Fault Refusal :=
  .next (s.issue (.jstrk x) fun s k _ =>
    .done (s.modWave k fun w => w.putJ x.d.toNat (w.j x.d.toNat &&& ~~~w.act x.pr x.pn)) [])

/-- JWAIT of the running group (R193): lanes set in jN park unless their arrival releases it; the rest goes on. -/
def Wave.jwait (w : Wave) (n : Nat) (m : LaneMask) : Wave :=
  let p := m &&& w.j n
  let w1 := ({ w with jpark := Vector.ofFn fun l => if inMask p l then some n else w.jpark[l] }).judge n
  let stay := p &&& w1.parkedMask
  let last := match w.clause with | some c => c.pos == (unpackH c.hdr).count.toNat | none => true
  if stay = 0 then w1
  else
    { w1 with group := w1.group &&& ~~~stay,
              jlast := (w.pc, stay) :: w1.jlast,
              lpc := Vector.ofFn fun l => if inMask stay l then w1.lpc[l] + 8 else w1.lpc[l],
              lhdr := Vector.ofFn fun l =>
                if inMask stay l then (if last then none else w.clause.map fun c => c.hdrAt) else w1.lhdr[l] }

/-- Body of JWAIT. -/
def jwaitBody (x : VF) (s : State) (k : Key) (w : Wave) : Eff :=
  let w1 := w.jwait x.d.toNat (w.act x.pr x.pn)
  .done (s.setWave k w1) [] (if w1.group = 0 then .leave else .step)

/-- JWAIT (R188, R193): a wave left with no eligible lane takes ILLEGAL at its next group (`State.reach`). -/
def execJwait (x : VF) (s : State) : Host.Outcome State Fault Refusal := .next (s.issue (.jwait x) (jwaitBody x))

-- Weirs.

/-- A weir of a crew. -/
def Crew.weir (c : Crew) (n : Nat) : Weir := tget c.weirs {} n
/-- Detail of WEIRCOUNT (R379). -/
def weirDet (n armed arriving : Nat) : Dword := BitVec.ofNat 64 (n + armed * 256 + arriving * 65536)
/-- An arrival that passes the count check (R194). -/
def Weir.arrive (x : Weir) : Weir :=
  if x.a + 1 = x.armed then { x with p := x.p + 1, a := 0 } else { x with a := x.a + 1 }
/-- An arrival at a weir of a crew; none is WEIRCOUNT (R194). -/
def State.arrive (s : State) (c : Key) (n count : Nat) : Option State :=
  let x := (s.crew c).weir n
  if count ≠ x.armed then none else some (s.modCrew c fun y => { y with weirs := tset y.weirs n x.arrive })

/-- IMM[3:0]. -/
def weirNo (x : IF) : Nat := (x.imm.extractLsb' 0 4).toNat

/-- Body of WEIRSET (R194). -/
def weirsetBody (x : IF) (s : State) (k : Key) (_ : Wave) : Eff :=
  let n := weirNo x
  let y := (s.crew (crewOf k)).weir n
  if y.a = 0 then .done (s.modCrew (crewOf k) fun c => { c with weirs := tset c.weirs n { y with armed := weirCount x } }) []
  else if weirCount x = y.armed then .done s []
  else .fault .weircount (weirDet n y.armed (weirCount x))

/-- WEIRSET (R194). -/
def execWeirset (x : IF) (s : State) : Host.Outcome State Fault Refusal :=
  .next (s.issue (.weirset x) (waveLevel x.pr x.pn (weirsetBody x)))

/-- Arrive(n) of R194 by a wave, which records the phase; as a release it waits for the wave's held accesses (R117, R125), and a
path fence towards MATRIX holds it (R254). -/
def arriveBody (sync : Bool) (x : IF) (s : State) (k : Key) (w : Wave) : Eff :=
  let n := weirNo x
  let y := (s.crew (crewOf k)).weir n
  if w.missHeld then .park s .miss
  else if w.held ≠ [] || w.fences.any fun f => f.1 == 2 then .hold
  else
    match s.arrive (crewOf k) n (weirCount x) with
    | none => .fault .weircount (weirDet n y.armed (weirCount x))
    | some s1 =>
      let s2 := (s1.waveReleases k).modWave k fun w => { w with weirLast := tset w.weirLast n y.p }
      if sync && decide (((s2.crew (crewOf k)).weir n).p = y.p) then .wait s2 (.weir n y.p true) [] else .done s2 []

/-- WEIRARV (R194). -/
def execWeirarv (x : IF) (s : State) : Host.Outcome State Fault Refusal :=
  .next (s.issue (.weirarv x) (waveLevel x.pr x.pn (arriveBody false x)))

/-- WEIRSYNC (R194). -/
def execWeirsync (x : IF) (s : State) : Host.Outcome State Fault Refusal :=
  .next (s.issue (.weirsync x) (waveLevel x.pr x.pn (arriveBody true x)))

/-- Body of WEIRWAIT (R194): parks until the phase of the wave's last arrival, or the phase at issue, is over. -/
def weirwaitBody (x : IF) (s : State) (k : Key) (w : Wave) : Eff :=
  let n := weirNo x
  let p := ((s.crew (crewOf k)).weir n).p
  let ph := (tfind w.weirLast n).getD p
  if p = ph then .wait s (.weir n ph false) [] else .done s []

/-- WEIRWAIT (R194). -/
def execWeirwait (x : IF) (s : State) : Host.Outcome State Fault Refusal :=
  .next (s.issue (.weirwait x) (waveLevel x.pr x.pn (weirwaitBody x)))

-- Cluster barriers.

/-- IMM[1:0]. -/
def barNo (x : IF) : Nat := (x.imm.extractLsb' 0 2).toNat
/-- The state of barrier n of a wave's cluster launch (R195). -/
def State.cbar (s : State) (k : Key) (n : Nat) : CBar := tget (s.crew (s.unitHead (crewOf k))).cbars {} n

/-- Body of CBARV (R195): a release at sc2, which meets in the cluster and waits for the wave's held accesses (R117). -/
def cbarvBody (x : IF) (s : State) (k : Key) (w : Wave) : Eff :=
  let n := barNo x
  let b := s.cbar k n
  if w.missHeld then .park s .miss
  else if w.held ≠ [] then .hold
  else if tfind w.cbLast n = some b.p && b.arrived.contains k then .park s (.cbarv n b.p)
  else
    let s1 := s.modCrew (s.unitHead (crewOf k)) fun c => { c with cbars := tset c.cbars n { b with arrived := b.arrived ++ [k] } }
    let s2 := (s1.waveReleases k).modWave k fun w => { w with cbLast := tset w.cbLast n b.p }
    .done (s2.barrierCheck (crewOf k) n) []

/-- CBARV (R195). -/
def execCbarv (x : IF) (s : State) : Host.Outcome State Fault Refusal :=
  .next (s.issue (.cbarv x) (waveLevel x.pr x.pn (cbarvBody x)))

/-- Body of CBWAIT (R195). -/
def cbwaitBody (x : IF) (s : State) (k : Key) (w : Wave) : Eff :=
  let n := barNo x
  let p := (s.cbar k n).p
  let ph := (tfind w.cbLast n).getD p
  if p = ph then .wait s (.cbwait n ph) [] else .done s []

/-- CBWAIT (R195). -/
def execCbwait (x : IF) (s : State) : Host.Outcome State Fault Refusal :=
  .next (s.issue (.cbwait x) (waveLevel x.pr x.pn (cbwaitBody x)))

-- Schedule cursor, allotment, liveness.

/-- The entry a NEXTTILE returns, and whether the cursor advances (R24). -/
def Crew.tile (c : Crew) : Word × Bool :=
  match c.sched[c.cursor]? with
  | none => (0xFFFFFFFF, false)
  | some e => (e, e ≠ 0xFFFFFFFF)

/-- Body of NEXTTILE (R24, R196). -/
def nexttileBody (x : VF) (s : State) (k : Key) (w : Wave) : Eff :=
  let m := w.act x.pr x.pn
  let t := (s.crew (crewOf k)).tile
  if m = 0 then .done s []
  else .done (if t.2 then s.modCrew (crewOf k) fun c => { c with cursor := c.cursor + 1 } else s) [resS x.d.toNat 1 m t.1.toNat]

/-- NEXTTILE (R196). -/
def execNexttile (x : VF) (s : State) : Host.Outcome State Fault Refusal :=
  .next (s.issue (.nexttile x) (nexttileBody x))

/-- Pool blocks of a crew carved in a quadrant: block b in quadrant b mod 4 (R21). -/
def Crew.carved (c : Crew) (q : Nat) : Nat := ((List.range c.xblk).filter fun b => b % 4 == q).length
/-- Free pool blocks of a crew in a quadrant (R23). -/
def State.poolFree (s : State) (c : Key) (q : Nat) : Nat :=
  (s.crew c).carved q - (((List.range 32).filter fun i => i % 4 == q).map fun i => (s.wave (waveKey c i)).xb).sum

/-- Takes n blocks, whose registers are DEAD (R23). -/
def Wave.takeBlocks (w : Wave) (n : Nat) : Wave :=
  let new := groupRegs w.breg (32 * n)
  new.foldl (fun w r => w.setLive .v r false) { w with xb := n }

/-- Body of ACQX (R23, R198): requests of a quadrant are served in the order they issued. -/
def acqxBody (x : IF) (s : State) (k : Key) (w : Wave) : Eff :=
  let n := x.imm.toNat
  let q := quadOf k
  if w.xb ≠ 0 || decide ((s.crew (crewOf k)).carved q < n) then .fault .budget (BitVec.ofNat 64 w.breg)
  else if (s.quad k).acq ≠ [] || decide (s.poolFree (crewOf k) q < n) then
    .park (s.modQuad (coreOf k) q fun y => { y with acq := y.acq ++ [k] }) (.acqx n)
  else .done (s.modWave k fun w => w.takeBlocks n) []

/-- ACQX (R23, R198). -/
def execAcqx (x : IF) (s : State) : Host.Outcome State Fault Refusal :=
  .next (s.issue (.acqx x) (waveLevel x.pr x.pn (acqxBody x)))

/-- ACQX_GRANT: the oldest parked request of a quadrant is served once enough blocks are free (R23). -/
def execAcqxGrant (core q : Nat) (s : State) : Host.Outcome State Fault Refusal :=
  .next <|
    match (tget (s.core core).quads {} q).acq with
    | [] => s
    | k :: r =>
      match (s.wave k).park with
      | some (.acqx n) =>
        if decide (n ≤ s.poolFree (crewOf k) q) && !(s.wave k).stopped && s.clockOn core then
          ((s.modQuad core q fun y => { y with acq := r }).modWave k fun w => w.takeBlocks n).grant k
        else s
      | _ => s.modQuad core q fun y => { y with acq := r }

/-- RELX of a wave (R23, R45, R198): the blocks return, their registers are DEAD, their banks OFF, and a result still
pending to them is discarded when it arrives. -/
def Wave.release (w : Wave) : Wave :=
  let gone := groupRegs w.breg (32 * w.xb)
  let w1 := gone.foldl (fun w r => w.setLive .v r false) w
  { w1 with xb := 0,
            v := w.v.filter fun e => !gone.contains e.1,
            banks := w.banks.filter fun e => !(gone.contains (8 * e.1)),
            pend := w.pend.map fun p =>
              if p.file == .v && gone.contains p.reg then { p with n := 0, data := [] } else p }

/-- RELX (R198). -/
def execRelx (x : IF) (s : State) : Host.Outcome State Fault Refusal :=
  .next (s.issue (.relx x) (waveLevel x.pr x.pn fun s k _ => .done (s.modWave k Wave.release) []))

/-- KILL (R199): whatever the mask. -/
def execKill (sf : Bool) (x : IF) (s : State) : Host.Outcome State Fault Refusal :=
  .next (s.issue (.kill sf x) fun s k _ =>
    .done (s.modWave k fun w => (killRegs x).foldl (fun w r => w.setLive (formFile sf) r false) w) [])

/-- A bank may enter RETAIN: FULL, a LIVE register, no result pending (R46). -/
def Wave.canRetain (w : Wave) (b : Nat) : Bool := (w.bank b).st == .full && w.bankLive b && !w.bankPend b
/-- A bank enters RETAIN where R46 lets it. -/
def Wave.retain (w : Wave) (b : Nat) : Wave :=
  if w.canRetain b then w.setBank b { w.bank b with st := .retain, waking := false, idle := none } else w

/-- Banks of the groups of a mask, within the allotment (R37). -/
def groupBanks (w : Wave) (g : BitVec 8) : List Nat :=
  (List.range 32).filter fun b => g.getLsbD (b / 4) && decide (8 * b < w.allot)

/-- REST (R46, R200). -/
def execRest (x : IF) (s : State) : Host.Outcome State Fault Refusal :=
  .next (s.issue (.rest x) (waveLevel x.pr x.pn fun s k _ =>
    .done (s.modWave k fun w => (groupBanks w (x.imm.setWidth 8)).foldl Wave.retain w) []))

/-- REGION: the crew's MODE (R146, R201), and the hold of its island with it (R148). -/
def execRegion (x : IF) (s : State) : Host.Outcome State Fault Refusal :=
  .next (s.issue (.region x) (waveLevel x.pr x.pn fun s k _ =>
    .done ((s.modCrew (crewOf k) fun c => { c with regionMode := x.imm.setWidth 2 }).islandSettle (coreOf k)) []))

/-- PART (R14, R201). -/
def execPart (x : IF) (s : State) : Host.Outcome State Fault Refusal :=
  .next (s.issue (.part x) (waveLevel x.pr x.pn fun s k _ =>
    .done (s.modWave k fun w => { w with partreg := x.imm &&& 7 }) []))

end Sys2Proof.Machine
end

