-- ==== Sys2Proof/Machine/Num.lean ====
section
/-! DEFINITION. Number formats and rounding (R59 to R73): exact values, the one rounding procedure RoundTo, the X4
family and the block scale. -/

namespace Sys2Proof.Machine

/-- An exact real m x 2^e. A quotient or root that no such pair holds is carried with far more bits than any format
has and a lowest bit of 1 that stands for the rest. -/
structure Dy where
  m : Int
  e : Int
  deriving DecidableEq, Repr

/-- 2^n. -/
def pow2 (n : Nat) : Nat := 1 <<< n

/-- m x 2^e brought to the exponent e0, at most e. -/
def Dy.at (x : Dy) (e0 : Int) : Int := x.m * (pow2 (x.e - e0).toNat : Int)

/-- Exact sum. -/
def Dy.add (x y : Dy) : Dy := let e := min x.e y.e; { m := Dy.at x e + Dy.at y e, e := e }
/-- Negation. -/
def Dy.neg (x : Dy) : Dy := { x with m := -x.m }
/-- Exact product. -/
def Dy.mul (x y : Dy) : Dy := { m := x.m * y.m, e := x.e + y.e }
/-- Magnitude. -/
def Dy.abs (x : Dy) : Dy := { x with m := x.m.natAbs }
/-- x < y. -/
def Dy.lt (x y : Dy) : Bool := let e := min x.e y.e; decide (Dy.at x e < Dy.at y e)
/-- x ≤ y. -/
def Dy.le (x y : Dy) : Bool := !Dy.lt y x
/-- x = y. -/
def Dy.eqv (x y : Dy) : Bool := let e := min x.e y.e; decide (Dy.at x e = Dy.at y e)
/-- An integer. -/
def Dy.int (n : Int) : Dy := { m := n, e := 0 }
/-- Scaling by 2^n. -/
def Dy.scale (x : Dy) (n : Int) : Dy := { x with e := x.e + n }

/-- Bits kept of a quotient or root beyond those of its operands. -/
def extraBits : Nat := 320

/-- Exact quotient with a rest bit; y is not zero. -/
def Dy.div (x y : Dy) : Dy :=
  let n := x.m.natAbs <<< (extraBits + Nat.log2 y.m.natAbs)
  let q := n / y.m.natAbs
  let m : Int := 2 * (q : Int) + (if n % y.m.natAbs = 0 then 0 else 1)
  { m := if (decide (x.m < 0)) != (decide (y.m < 0)) then -m else m,
    e := x.e - y.e - (extraBits + Nat.log2 y.m.natAbs : Nat) - 1 }

/-- ⌊√n⌋, bit by bit from bit i - 1 down. -/
def isqrtFrom (n r : Nat) : Nat → Nat
  | 0 => r
  | i + 1 =>
    let r' := r + pow2 i
    isqrtFrom n (if r' * r' ≤ n then r' else r) i

/-- ⌊√n⌋. -/
def isqrt (n : Nat) : Nat := isqrtFrom n 0 (Nat.log2 n / 2 + 1)

/-- Square root with a rest bit; x is positive. -/
def Dy.sqrt (x : Dy) : Dy :=
  let sh : Nat := 2 * extraBits + (x.e % 2).toNat
  let n := x.m.natAbs <<< sh
  let r := isqrt n
  { m := 2 * (r : Int) + (if r * r = n then 0 else 1), e := (x.e - sh) / 2 - 1 }

/-- ⌊log2 |x|⌋ of a nonzero x. -/
def Dy.ilog (x : Dy) : Int := (Nat.log2 x.m.natAbs : Int) + x.e

/-- Exception flags, in the places of FPFLAGS (R74). -/
abbrev Flags := BitVec 6
/-- R74. -/
def fNX : Flags := 1
/-- R74. -/
def fUF : Flags := 2
/-- R74. -/
def fOF : Flags := 4
/-- R74. -/
def fDZ : Flags := 8
/-- R74. -/
def fNV : Flags := 16
/-- R74. -/
def fSAT : Flags := 32

/-- A floating format of R59: exponent bits, fraction bits, and whether it has infinities. -/
structure Fmt where
  eb : Nat
  fb : Nat
  inf : Bool := true
  deriving DecidableEq, Repr

/-- R59. -/
def fmt64 : Fmt := { eb := 11, fb := 52 }
/-- R59. -/
def fmt32 : Fmt := { eb := 8, fb := 23 }
/-- R59. -/
def fmt16 : Fmt := { eb := 5, fb := 10 }
/-- R59. -/
def fmtBf : Fmt := { eb := 8, fb := 7 }
/-- R59. -/
def fmtE4 : Fmt := { eb := 4, fb := 3, inf := false }
/-- R59. -/
def fmtE5 : Fmt := { eb := 5, fb := 2 }

/-- Bias of the exponent (R59). -/
def bias (f : Fmt) : Nat := pow2 (f.eb - 1) - 1
/-- Width in bits. -/
def fwidth (f : Fmt) : Nat := f.eb + f.fb + 1
/-- Sign bit in place. -/
def signBit (f : Fmt) (neg : Bool) : Nat := if neg then pow2 (f.eb + f.fb) else 0
/-- Magnitude code of infinity in the formats that have one. -/
def infMag (f : Fmt) : Nat := (pow2 f.eb - 1) <<< f.fb
/-- Canonical NaN (R59). -/
def canonNaN (f : Fmt) : Nat := if f.inf then infMag f + pow2 (f.fb - 1) else pow2 (f.eb + f.fb) - 1
/-- Magnitude code of the largest finite value (R59). -/
def maxMag (f : Fmt) : Nat := if f.inf then infMag f - 1 else pow2 (f.eb + f.fb) - 2
/-- Exponent of the smallest subnormal. -/
def eMin (f : Fmt) : Int := 1 - (bias f : Int) - (f.fb : Int)

/-- A decoded value (R60): NaN (signalling or not), infinity, zero, or an exact nonzero real. -/
inductive FV
  | nan (signalling : Bool)
  | inf (neg : Bool)
  | zero (neg : Bool)
  | fin (x : Dy)
  deriving DecidableEq, Repr

/-- The value of a code (R59, R60). -/
def fdecode (f : Fmt) (bits : Nat) : FV :=
  let neg := (bits >>> (f.eb + f.fb)) % 2 = 1
  let ex := (bits >>> f.fb) % pow2 f.eb
  let fr := bits % pow2 f.fb
  let sg (m : Nat) : Int := if neg then -(m : Int) else m
  if f.inf ∧ ex = pow2 f.eb - 1 then
    if fr = 0 then .inf neg else .nan (fr < pow2 (f.fb - 1))
  else if !f.inf ∧ ex = pow2 f.eb - 1 ∧ fr = pow2 f.fb - 1 then .nan false
  else if ex = 0 then
    if fr = 0 then .zero neg else .fin { m := sg fr, e := eMin f }
  else .fin { m := sg (pow2 f.fb + fr), e := eMin f + (ex : Int) - 1 }

/-- The exact real of a value that is finite; +0 for the others. -/
def FV.real : FV → Dy
  | .fin x => x
  | _ => { m := 0, e := 0 }
/-- The value is a NaN. -/
def FV.isNan : FV → Bool
  | .nan _ => true
  | _ => false
/-- The value is a signalling NaN. -/
def FV.isSnan : FV → Bool
  | .nan s => s
  | _ => false
/-- The value is an infinity. -/
def FV.isInf : FV → Bool
  | .inf _ => true
  | _ => false
/-- The value is a zero. -/
def FV.isZero : FV → Bool
  | .zero _ => true
  | _ => false
/-- Sign of the value. -/
def FV.neg : FV → Bool
  | .nan _ => false
  | .inf n => n
  | .zero n => n
  | .fin x => decide (x.m < 0)

/-- Stochastic generator step (R71). -/
def xorshift (x : Word) : Word :=
  let x := x ^^^ (x <<< 13)
  let x := x ^^^ (x >>> 17)
  x ^^^ (x <<< 5)

/-- Whether a value at `num/den` of the way from lo to hi takes hi under state g (R73). -/
def stochHi (num den : Nat) (g : Word) : Bool := decide (pow2 32 ≤ num * pow2 32 / den + g.toNat)

/-- The choice of R68 between the neighbours of an inexact value: the magnitude lies `num/den` of the way from the
lower-magnitude neighbour (whose code is even or not) to the other; true takes the other. -/
def pickUp (m : Rm) (neg even : Bool) (num den : Nat) (g : Word) : Bool :=
  match m with
  | .rne => decide (den < 2 * num) || (decide (2 * num = den) && !even)
  | .rtz => false
  | .rup => !neg
  | .rdn => neg
  | .sr => if neg then !stochHi (den - num) den g else stochHi num den g

/-- Overflow of R68: magnitude code and saturation. -/
def overflowTo (f : Fmt) (m : Rm) (neg : Bool) : Nat × Flags :=
  if f.inf then
    match m with
    | .rne => (infMag f, 0)
    | .rtz => (maxMag f, 0)
    | .rup => (if neg then maxMag f else infMag f, 0)
    | .rdn => (if neg then infMag f else maxMag f, 0)
    | .sr => (maxMag f, fSAT)
  else (maxMag f, fSAT)

/-- RoundTo of R68 for a nonzero real and a floating format: code and flags. `g` is the generator state of `.sr`. -/
def roundTo (f : Fmt) (m : Rm) (x : Dy) (g : Word := 0) : Nat × Flags :=
  let neg := decide (x.m < 0)
  let q := max (Dy.ilog x - (f.fb : Int)) (eMin f)
  let mag := x.m.natAbs
  -- mag * 2^(x.e - q) = t + num / den
  let (t, num, den) :=
    if q ≤ x.e then (mag <<< (x.e - q).toNat, 0, 1)
    else (mag >>> (q - x.e).toNat, mag % pow2 (q - x.e).toNat, pow2 (q - x.e).toNat)
  let exact := num = 0
  let up := !exact && pickUp m neg (t % 2 = 0) num den g
  let t' := if up then t + 1 else t
  -- magnitude code: t' at exponent q
  let code := if t' < pow2 f.fb then t' else ((q - eMin f).toNat) * pow2 f.fb + t'
  let nx : Flags := if exact then 0 else fNX
  if maxMag f < code then
    let (c, fl) := overflowTo f m neg
    (signBit f neg + c, fOF ||| fNX ||| fl)
  else
    let uf : Flags := if !exact && decide (code < pow2 f.fb) then fUF else 0
    (signBit f neg + code, nx ||| uf)

/-- A zero of the given sign. -/
def fzero (f : Fmt) (neg : Bool) : Nat := signBit f neg
/-- An infinity of the given sign. -/
def finf (f : Fmt) (neg : Bool) : Nat := signBit f neg + infMag f

/-- RoundTo with its case of a zero value, whose sign the operation gives. -/
def roundReal (f : Fmt) (m : Rm) (x : Dy) (zneg : Bool) (g : Word := 0) : Nat × Flags :=
  if x.m = 0 then (fzero f zneg, 0) else roundTo f m x g

-- Arithmetic in one format (R229 to R235).

/-- NV when some operand is a signalling NaN. -/
def snanFlag (vs : List FV) : Flags := if vs.any FV.isSnan then fNV else 0

/-- Sum of two finite reals with the zero rule of R229: `n1`, `n2` are the addends' signs. -/
def addRule (f : Fmt) (m : Rm) (x y : Dy) (xz yz n1 n2 : Bool) : Nat × Flags :=
  let s := Dy.add x y
  if s.m = 0 then
    (fzero f (if xz && yz && n1 == n2 then n1 else m == .rdn), 0)
  else roundTo f m s

/-- FADD (R229). -/
def fAdd (f : Fmt) (m : Rm) (a b : Nat) : Nat × Flags :=
  let x := fdecode f a; let y := fdecode f b
  if x.isNan || y.isNan then (canonNaN f, snanFlag [x, y])
  else if x.isInf && y.isInf && x.neg != y.neg then (canonNaN f, fNV)
  else if x.isInf then (finf f x.neg, 0)
  else if y.isInf then (finf f y.neg, 0)
  else addRule f m x.real y.real x.isZero y.isZero x.neg y.neg

/-- FMUL (R229). -/
def fMul (f : Fmt) (m : Rm) (a b : Nat) : Nat × Flags :=
  let x := fdecode f a; let y := fdecode f b
  let n := x.neg != y.neg
  if x.isNan || y.isNan then (canonNaN f, snanFlag [x, y])
  else if (x.isInf && y.isZero) || (x.isZero && y.isInf) then (canonNaN f, fNV)
  else if x.isInf || y.isInf then (finf f n, 0)
  else roundReal f m (Dy.mul x.real y.real) n

/-- FFMA (R229): 0 x infinity is NV even when the addend is a quiet NaN. -/
def fFma (f : Fmt) (m : Rm) (a b c : Nat) : Nat × Flags :=
  let x := fdecode f a; let y := fdecode f b; let z := fdecode f c
  let n := x.neg != y.neg
  let bad := (x.isInf && y.isZero) || (x.isZero && y.isInf)
  if x.isNan || y.isNan || z.isNan || bad then
    (canonNaN f, snanFlag [x, y, z] ||| (if bad then fNV else 0))
  else if x.isInf || y.isInf then
    if z.isInf && z.neg != n then (canonNaN f, fNV) else (finf f n, 0)
  else if z.isInf then (finf f z.neg, 0)
  else addRule f m (Dy.mul x.real y.real) z.real (x.isZero || y.isZero) z.isZero n z.neg

/-- Order of two values that are no NaN; `tot` orders -0 below +0. -/
def fvLt (tot : Bool) (x y : FV) : Bool :=
  match x, y with
  | .inf nx, .inf ny => nx && !ny
  | .inf nx, _ => nx
  | _, .inf ny => !ny
  | .zero nx, .zero ny => tot && nx && !ny
  | _, _ => Dy.lt x.real y.real

/-- FMIN and FMAX (R230). -/
def fMinMax (f : Fmt) (isMax : Bool) (a b : Nat) : Nat × Flags :=
  let x := fdecode f a; let y := fdecode f b
  let fl := snanFlag [x, y]
  if x.isNan && y.isNan then (canonNaN f, fl)
  else if x.isNan then (b, fl)
  else if y.isNan then (a, fl)
  else if (if isMax then fvLt true x y else fvLt true y x) then (b, fl) else (a, fl)

/-- FCMP (R231). -/
def fCompare (f : Fmt) (c : FCond) (a b : Nat) : Bool × Flags :=
  let x := fdecode f a; let y := fdecode f b
  let nan := x.isNan || y.isNan
  let lt := !nan && fvLt false x y
  let gt := !nan && fvLt false y x
  let eq := !nan && !lt && !gt
  let sn := snanFlag [x, y]
  let qn : Flags := if nan then fNV else 0
  match c with
  | .eq => (eq, sn)
  | .ne => (!eq, sn)
  | .lt => (lt, qn)
  | .le => (lt || eq, qn)
  | .gt => (gt, qn)
  | .ge => (gt || eq, qn)
  | .ord => (!nan, sn)
  | .unord => (nan, sn)

/-- FCLASS (R232). -/
def fClass (f : Fmt) (a : Nat) : Nat :=
  match fdecode f a with
  | .nan true => pow2 8
  | .nan false => pow2 9
  | .inf false => pow2 7
  | .inf true => pow2 0
  | .zero false => pow2 4
  | .zero true => pow2 3
  | .fin x =>
    let sub := decide (Dy.ilog x < eMin f + (f.fb : Int))
    if x.m < 0 then (if sub then pow2 2 else pow2 1) else (if sub then pow2 5 else pow2 6)

/-- Rounds a real to an integer in a mode: the integer, and whether it differs. -/
def roundInt (m : Rm) (x : Dy) : Int × Bool :=
  if 0 ≤ x.e then (x.m * (pow2 x.e.toNat : Int), false)
  else
    let neg := decide (x.m < 0)
    let den := pow2 (-x.e).toNat
    let t := x.m.natAbs / den
    let num := x.m.natAbs % den
    let t' := if num ≠ 0 && pickUp m neg (t % 2 = 0) num den 0 then t + 1 else t
    (if neg then -(t' : Int) else t', num ≠ 0)

/-- FRND (R233). -/
def fRnd (f : Fmt) (m : Rm) (a : Nat) : Nat × Flags :=
  match fdecode f a with
  | .nan s => (canonNaN f, if s then fNV else 0)
  | .inf _ | .zero _ => (a, 0)
  | .fin x =>
    let (n, ne) := roundInt m x
    let (r, _) := roundReal f .rne (Dy.int n) (decide (x.m < 0))
    (r, if ne then fNX else 0)

/-- FSCALE (R233): n is the `.i32` operand. -/
def fScale (f : Fmt) (m : Rm) (a : Nat) (n : Int) : Nat × Flags :=
  match fdecode f a with
  | .nan s => (canonNaN f, if s then fNV else 0)
  | .inf _ | .zero _ => (a, 0)
  | .fin x =>
    -- beyond these bounds every format overflows or rounds like the bound itself
    roundTo f m (Dy.scale x (max (-5000) (min 5000 n)))

/-- FGETEXP (R233): the `.i32` result. -/
def fGetExp (f : Fmt) (a : Nat) : Word × Flags :=
  match fdecode f a with
  | .nan _ => (0x7FFFFFFF, fNV)
  | .inf _ => (0x7FFFFFFF, 0)
  | .zero _ => (0x80000000, 0)
  | .fin x => (BitVec.ofInt 32 (Dy.ilog x), 0)

/-- FDIV (R235, R237). DESIGN CHOICE (log 93): an infinity over a finite value, zero included, is an infinity with the exclusive or of the
signs, and sets no flag; R237 has no row for it. -/
def fDiv (f : Fmt) (m : Rm) (a b : Nat) : Nat × Flags :=
  let x := fdecode f a; let y := fdecode f b
  let n := x.neg != y.neg
  if x.isNan || y.isNan then (canonNaN f, snanFlag [x, y])
  else if (x.isZero && y.isZero) || (x.isInf && y.isInf) then (canonNaN f, fNV)
  else if x.isInf then (finf f n, 0)
  else if y.isInf then (fzero f n, 0)
  else if y.isZero then (finf f n, fDZ)
  else if x.isZero then (fzero f n, 0)
  else roundTo f m (Dy.div x.real y.real)

/-- RCP (R235, R237). -/
def fRcp (f : Fmt) (m : Rm) (a : Nat) : Nat × Flags :=
  match fdecode f a with
  | .nan s => (canonNaN f, if s then fNV else 0)
  | .zero n => (finf f n, fDZ)
  | .inf n => (fzero f n, 0)
  | .fin x => roundTo f m (Dy.div (Dy.int 1) x)

/-- SQRT (R235, R237). -/
def fSqrt (f : Fmt) (m : Rm) (a : Nat) : Nat × Flags :=
  match fdecode f a with
  | .nan s => (canonNaN f, if s then fNV else 0)
  | .zero n => (fzero f n, 0)
  | .inf false => (finf f false, 0)
  | .inf true => (canonNaN f, fNV)
  | .fin x => if x.m < 0 then (canonNaN f, fNV) else roundTo f m (Dy.sqrt x)

-- Approximated functions (R236): a result within the bound, chosen by a free function of the operand.

/-- Ordinal of a code: codes in ascending order of their values. -/
def ordOf (f : Fmt) (bits : Nat) : Int :=
  if bits < pow2 (f.eb + f.fb) then bits else -((bits - pow2 (f.eb + f.fb) : Nat) : Int)

/-- Code of an ordinal, never beyond the infinities. -/
def ofOrd (f : Fmt) (o : Int) : Nat :=
  if 0 ≤ o then min o.toNat (infMag f) else signBit f true + min (-o).toNat (infMag f)

/-- Spacing of the format at a real (R236). -/
def ulpAt (f : Fmt) (x : Dy) : Dy := { m := 1, e := max (Dy.ilog x - (f.fb : Int)) (eMin f) }

/-- Ordinal of a real rounded down or up. -/
def ordReal (f : Fmt) (m : Rm) (x : Dy) : Int :=
  if x.m = 0 then 0 else
  let neg := decide (x.m < 0)
  let q := max (Dy.ilog x - (f.fb : Int)) (eMin f)
  let den := pow2 (q - x.e).toNat
  let t := if q ≤ x.e then x.m.natAbs <<< (x.e - q).toNat else x.m.natAbs / den
  let rest := decide (x.e < q) && x.m.natAbs % den != 0
  let t' := if rest && (if neg then m == .rdn else m == .rup) then t + 1 else t
  let code := if t' < pow2 f.fb then t' else ((q - eMin f).toNat) * pow2 f.fb + t'
  if neg then -(code : Int) else code

/-- A result within `bound` of the real `x` (R236), the free function deciding which, and of the two zeros where zero is within it; its
flags. -/
def approx (f : Fmt) (fn : Nat) (operand : Nat) (x bound : Dy) : Nat × Flags :=
  let lo := ordReal f .rup (Dy.add x (Dy.neg bound))
  let hi := ordReal f .rdn (Dy.add x bound)
  let n := (hi - lo + 1).toNat
  let zero := decide (lo ≤ 0) && decide (0 ≤ hi)
  let j := Config.sfuPick fn (BitVec.ofNat 64 operand) % max (if zero then n + 1 else n) 1
  let minus := zero && decide (n ≤ j)
  let o : Int := if minus then 0 else lo + (j : Nat)
  let r := if minus then fzero f true else ofOrd f o
  let isOver := decide ((infMag f : Int) ≤ o) || decide (o ≤ -(infMag f : Int))
  let sub := decide (o.natAbs < pow2 f.fb)
  (r, fNX ||| (if isOver then fOF else 0) ||| (if sub then fUF else 0))

/-- Bits of the fixed-point values below. -/
def fixBits : Nat := 400
/-- One in fixed point. -/
def fixOne : Int := (pow2 400 : Int)
/-- π in fixed point. -/
def fixPi : Int :=
  0x3243f6a8885a308d313198a2e03707344a4093822299f31d0082efa98ec4e6c89452821e638d01377be5466cf34e90c6cc0ac
/-- ln 2 in fixed point. -/
def fixLn2 : Int :=
  0xb17217f7d1cf79abc9e3b39803f2f6af40f343267298b62d8a0d175b8baafa2be7b876206debac98559552fb4afa1b10ed2e

/-- A real in fixed point, rounded down. -/
def toFix (x : Dy) : Int :=
  let e := x.e + 400
  if 0 ≤ e then x.m * (pow2 e.toNat : Int) else x.m / (pow2 (-e).toNat : Int)
/-- A fixed-point value as a real. -/
def ofFix (n : Int) : Dy := { m := n, e := -400 }
/-- Product in fixed point. -/
def fixMul (a b : Int) : Int := a * b / fixOne

/-- Sum of the series with first term `t` whose n-th term is the one before times `x` divided by `d n`, every second
sign changed when `alt`. -/
def fixSeries (terms : Nat) (t x : Int) (d : Nat → Int) (alt : Bool) : Int :=
  ((List.range terms).foldl
    (fun (p : Int × Int) n =>
      let t' := fixMul p.1 x / d n
      let t' := if alt then -t' else t'
      (t', p.2 + t')) (t, t)).2

/-- e^r for a fixed-point r from 0 to ln 2. -/
def fixExp (r : Int) : Int := fixSeries 100 fixOne r (fun n => (n : Int) + 1) false

/-- 2^x for a real x: the real. -/
def realExp2 (x : Dy) : Dy :=
  let v := toFix x
  let k := v / fixOne
  let fr := v - k * fixOne
  Dy.scale (ofFix (fixExp (fixMul fr fixLn2))) k

/-- log2 of a positive real. -/
def realLog2 (x : Dy) : Dy :=
  let k := Dy.ilog x
  let m := toFix (Dy.scale x (-k))
  let z := (m - fixOne) * fixOne / (m + fixOne)
  let z2 := fixMul z z
  let at' := ((List.range 140).foldl
    (fun (p : Int × Int) (n : Nat) => (fixMul p.1 z2, p.2 + p.1 / (2 * (n : Int) + 1))) (z, 0)).2
  ofFix (k * fixOne + 2 * at' * fixOne / fixLn2)

/-- sin and cos of a real. -/
def realSin (x : Dy) : Dy :=
  let r := toFix x % (2 * fixPi)
  let r2 := fixMul r r
  ofFix (fixSeries 120 r r2 (fun n => (2 * (n : Int) + 2) * (2 * (n : Int) + 3)) true)
/-- cos of a real. -/
def realCos (x : Dy) : Dy :=
  let r := toFix x % (2 * fixPi)
  let r2 := fixMul r r
  ofFix (fixSeries 120 fixOne r2 (fun n => (2 * (n : Int) + 1) * (2 * (n : Int) + 2)) true)

/-- tanh of a real: (1 - w) / (1 + w) with w = e^(-2|x|); its magnitude stays below 1. -/
def realTanh (x : Dy) : Dy :=
  let ax := Dy.abs x
  -- below 2^-100 tanh x lies within any spacing of x itself
  if Dy.lt ax { m := 1, e := -100 } then x
  else
    let y := 2 * toFix ax * fixOne / fixLn2
    let y := min y (4000 * fixOne)
    let w := toFix (realExp2 (ofFix (-y)))
    let r := min ((fixOne - w) * fixOne / (fixOne + w)) (fixOne - 1)
    ofFix (if x.m < 0 then -r else r)

/-- 2 ulp at the exact value. -/
def twoUlp (f : Fmt) (x : Dy) : Dy := Dy.scale (ulpAt f x) 1
/-- The larger of two reals. -/
def Dy.max (x y : Dy) : Dy := if Dy.lt x y then y else x
/-- max(2 ulp, 2^-24). -/
def trigBound (x : Dy) : Dy := Dy.max (twoUlp fmt32 x) { m := 1, e := -24 }

/-- A power of two, with its exponent. -/
def asPow2 (x : Dy) : Option Int :=
  if 0 < x.m ∧ pow2 (Nat.log2 x.m.natAbs) = x.m.natAbs then some (Dy.ilog x) else none

/-- RSQ (R236, R237): exact for a power of four. -/
def fRsq (f : Fmt) (fn : Nat) (a : Nat) : Nat × Flags :=
  match fdecode f a with
  | .nan s => (canonNaN f, if s then fNV else 0)
  | .zero n => (finf f n, fDZ)
  | .inf false => (fzero f false, 0)
  | .inf true => (canonNaN f, fNV)
  | .fin x =>
    if x.m < 0 then (canonNaN f, fNV) else
    match asPow2 x with
    | some k => if k % 2 = 0 then roundTo f .rne { m := 1, e := -(k / 2) }
      else let r := Dy.div (Dy.int 1) (Dy.sqrt x); approx f fn a r (ulpAt f r)
    | none => let r := Dy.div (Dy.int 1) (Dy.sqrt x); approx f fn a r (ulpAt f r)

/-- EXP2 (R236, R237): exact for an integer whose result is representable. -/
def fExp2 (a : Nat) : Nat × Flags :=
  match fdecode fmt32 a with
  | .nan s => (canonNaN fmt32, if s then fNV else 0)
  | .zero _ => (0x3F800000, 0)
  | .inf n => (if n then 0 else finf fmt32 false, 0)
  | .fin x =>
    let (n, ne) := roundInt .rne x
    if !ne && decide (-149 ≤ n) && decide (n ≤ 127) then roundTo fmt32 .rne { m := 1, e := n }
    else
      let x' := if Dy.lt x (Dy.int (-400)) then Dy.int (-400) else if Dy.lt (Dy.int 400) x then Dy.int 400 else x
      let r := realExp2 x'
      approx fmt32 2 a r (twoUlp fmt32 r)

/-- LOG2 (R236, R237): exact for a power of two; an absolute bound of 2^-22 below 1. -/
def fLog2 (a : Nat) : Nat × Flags :=
  match fdecode fmt32 a with
  | .nan s => (canonNaN fmt32, if s then fNV else 0)
  | .zero _ => (finf fmt32 true, fDZ)
  | .inf false => (finf fmt32 false, 0)
  | .inf true => (canonNaN fmt32, fNV)
  | .fin x =>
    if x.m < 0 then (canonNaN fmt32, fNV) else
    match asPow2 x with
    | some k => roundReal fmt32 .rne (Dy.int k) false
    | none =>
      let r := realLog2 x
      approx fmt32 3 a r (if Dy.lt (Dy.abs r) (Dy.int 1) then { m := 1, e := -22 } else twoUlp fmt32 r)

/-- SIN (R236, R237). -/
def fSin (a : Nat) : Nat × Flags :=
  match fdecode fmt32 a with
  | .nan s => (canonNaN fmt32, if s then fNV else 0)
  | .zero _ => (a, 0)
  | .inf _ => (canonNaN fmt32, fNV)
  | .fin x => let r := realSin x; approx fmt32 4 a r (trigBound r)

/-- COS (R236, R237). -/
def fCos (a : Nat) : Nat × Flags :=
  match fdecode fmt32 a with
  | .nan s => (canonNaN fmt32, if s then fNV else 0)
  | .zero _ => (0x3F800000, 0)
  | .inf _ => (canonNaN fmt32, fNV)
  | .fin x => let r := realCos x; approx fmt32 5 a r (trigBound r)

/-- TANH (R236, R237). -/
def fTanh (a : Nat) : Nat × Flags :=
  match fdecode fmt32 a with
  | .nan s => (canonNaN fmt32, if s then fNV else 0)
  | .zero _ => (a, 0)
  | .inf n => (signBit fmt32 n + 0x3F800000, 0)
  | .fin x => let r := realTanh x; approx fmt32 6 a r (trigBound r)

-- X4 and the block scale (R63 to R66).

/-- Magnitude of index i of an X4 type (R63), continued without an upper bound (R68). -/
def x4mag (t : Nat) (i : Nat) : Dy :=
  match t with
  | 0 => Dy.int i
  | 1 => if i < 2 then { m := i, e := -1 } else { m := 2 + (i % 2 : Nat), e := (i / 2 : Nat) - 2 }
  | 2 => if i = 0 then Dy.int 0 else { m := 1, e := (i : Int) - 3 }
  | _ => if i < 4 then Dy.int i else { m := 1, e := (i : Int) - 2 }

/-- Value of an X4 code (R63). -/
def x4val (t : Nat) (code : Nat) : Dy :=
  if t = 0 then Dy.int (if code < 8 then code else (code : Int) - 16)
  else if code < 8 then x4mag t code else Dy.neg (x4mag t (code - 8))

/-- RoundTo of R68 for an X4 type: code and flags. -/
def roundX4 (t : Nat) (m : Rm) (x : Dy) (g : Word := 0) : Nat × Flags :=
  let neg := decide (x.m < 0)
  let ax := Dy.abs x
  -- largest index up to 9 whose magnitude is at most |x|
  let i := ((List.range 10).filter fun i => Dy.le (x4mag t i) ax).getLastD 0
  let lo := x4mag t i
  let hi := x4mag t (i + 1)
  let exact := Dy.eqv lo ax
  let e := min (min lo.e hi.e) ax.e
  let num := (Dy.at ax e - Dy.at lo e).toNat
  let den := (Dy.at hi e - Dy.at lo e).toNat
  -- x beyond index 10 saturates whatever the neighbour
  let up := !exact && (decide (den ≤ num) || pickUp m neg (i % 2 = 0) num den g)
  let i' := if up then i + 1 else i
  let top := if t = 0 && neg then 8 else 7
  let nx : Flags := if exact then 0 else fNX
  if top < i' then
    (if t = 0 then (if neg then 8 else 7) else (if neg then 15 else 7), fOF ||| fNX ||| fSAT)
  else if i' = 0 then (if neg && t ≠ 0 then 8 else 0, nx)
  else if t = 0 then (if neg then (16 - i') % 16 else i', nx)
  else (if neg then 8 + i' else i', nx)

/-- EXP of a scale word (R65). -/
def scaleExp (w : BitVec 16) : Nat := (w.extractLsb' 6 8).toNat
/-- TYPE of a scale word (R65). -/
def scaleType (w : BitVec 16) : Nat := (w.extractLsb' 14 2).toNat
/-- Value of a scale with EXP from 1 to 254 (R65). -/
def scaleVal (w : BitVec 16) : Dy :=
  { m := 64 + ((w.extractLsb' 0 6).toNat : Nat), e := (scaleExp w : Int) - 127 - 6 }

/-- Value of an element of a scaled block (R66): none is NaN. -/
def scaledVal (w : BitVec 16) (v : FV) : FV :=
  if scaleExp w = 0 then .zero false
  else if scaleExp w = 255 then .nan false
  else
    match v with
    | .nan s => .nan s
    | .inf n => .inf n
    | .zero n => .zero n
    | .fin x => .fin (Dy.mul (scaleVal w) x)

/-- An X4 code as a value; -0 keeps its sign (R63). -/
def x4fv (t : Nat) (code : Nat) : FV :=
  if (x4val t code).m = 0 then .zero (decide (8 ≤ code)) else .fin (x4val t code)

/-- FloatToInt (R70): destination width and signedness. -/
def floatToInt (w : Nat) (signed : Bool) (m : Rm) (v : FV) : Int × Flags :=
  let hi : Int := if signed then (pow2 (w - 1) : Int) - 1 else (pow2 w : Int) - 1
  let lo : Int := if signed then -(pow2 (w - 1) : Int) else 0
  match v with
  | .nan _ => (0, fNV)
  | .inf n => (if n then lo else hi, fNV ||| fSAT)
  | .zero _ => (0, 0)
  | .fin x =>
    let (n, ne) := roundInt m x
    if n < lo then (lo, fNV ||| fSAT) else if hi < n then (hi, fNV ||| fSAT) else (n, if ne then fNX else 0)

-- Quantisation of one block (R80 to R83).

/-- The smallest S16 value that is at least a / m for a positive a, as EXP and FRAC (R81). -/
def scaleFor (a m : Dy) : Nat × Nat :=
  let q := Dy.div a m
  let e := Dy.ilog q
  if e < -126 then (1, 0)
  else
    -- q = 2^e * (1 + fr/64 + ...), rounded up to a 64th
    let s := Dy.scale q (6 - e)
    let n := if 0 ≤ s.e then s.m.natAbs <<< s.e.toNat
      else s.m.natAbs / pow2 (-s.e).toNat + (if s.m.natAbs % pow2 (-s.e).toNat = 0 then 0 else 1)
    if n = 128 then ((e + 1 + 127).toNat, 0) else ((e + 127).toNat, n - 64)

/-- Scaling magnitude of a type (R63). -/
def x4max (t : Nat) : Dy := Dy.int (match t with | 0 => 7 | 1 => 6 | 2 => 16 | _ => 32)

/-- Scale word of a type (R65). -/
def scaleWord (t : Nat) (ef : Nat × Nat) : BitVec 16 := BitVec.ofNat 16 (t * 16384 + ef.1 * 64 + ef.2)

/-- Error of a type over a block, exact (R82). -/
def blockErr (t : Nat) (s : Dy) (ys : List Dy) : Dy :=
  ys.foldl (fun acc y =>
    let q := if y.m = 0 then 0 else (roundX4 t .rne (Dy.div y s)).1
    let d := Dy.add y (Dy.neg (Dy.mul s (x4val t q)))
    Dy.add acc (Dy.mul d d)) (Dy.int 0)

/-- The scale word a block takes (R81, R82) and the value of its scale; `sel` none is `.auto`. -/
def blockScale (sel : Option Nat) (ys : List Dy) : Option (BitVec 16 × Nat) :=
  let a := ys.foldl (fun acc y => Dy.max acc (Dy.abs y)) (Dy.int 0)
  if a.m = 0 then none
  else
    let cand (t : Nat) : BitVec 16 := scaleWord t (scaleFor a (x4max t))
    let err (t : Nat) : Dy := blockErr t (scaleVal (cand t)) ys
    let t := match sel with
      | some t => t
      | none => [1, 2, 3].foldl (fun b t => if Dy.lt (err t) (err b) then t else b) 0
    some (cand t, t)

end Sys2Proof.Machine
end

