-- ==== Sys2Proof/Machine/Special.lean ====
section
/-! DEFINITION. Special registers (R202, R203, R337), handles (R333), and the scope-table words SCW, SCR and SCACK
(R113, R114, R127, R129, R204, R337). -/

namespace Sys2Proof.Machine

-- Special registers.

/-- The newest check record of a crew (R155); none while none has been written, whose slots hold zero (R156). -/
def Crew.newest (c : Crew) : Option (List Dword) :=
  (c.chk[(c.chkSeq - 1).toNat % 8]?).filter fun r => r.any (· != 0)

/-- CHKSTAT (R156). -/
def Crew.chkstat (c : Crew) : Nat :=
  match c.newest with
  | none => 0
  | some r =>
    let w := r.getD 2 0
    bits w 47 32 * 65536 + bits w 31 29 * 256 + bits w 28 26 * 32 + (c.chkSeq - 1).toNat % 8

/-- The value of a special register in a lane (R202, R337). DESIGN CHOICE (log 56): the dies' reference timers, which agree within ±1
tick (R2), are one REFT. -/
def State.sregVal (s : State) (k : Key) (n : Nat) (l : Fin 32) : Nat :=
  let w := s.wave k
  let c := s.crew (crewOf k)
  let d := s.die (dieOf (coreOf k))
  match n with
  | 0x000 => w.partreg.toNat
  | 0x001 => w.fpflags.toNat
  | 0x002 => w.view.toNat
  | 0x003 => c.regionMode.toNat
  | 0x004 => (w.srseed[l]).toNat
  | 0x005 => c.spauto.toNat
  | 0x006 => c.thrstat
  | 0x007 => c.chkstat
  | 0x008 => c.luign.toNat
  | 0x009 => c.uhmiss.toNat
  | 0x010 => l.val
  | 0x011 => waveIdOf k
  | 0x012 => (s.crewNo k).toNat
  | 0x013 => (coreNo k).toNat
  | 0x014 => dieOf (coreOf k)
  | 0x020 => d.cyc % 2 ^ 64
  | 0x021 => d.ncyc % 2 ^ 64
  | 0x022 => s.reft % 2 ^ 64
  | 0x100 => w.tgtw.toNat
  | 0x101 => d.evec.toNat
  | 0x102 => d.evq.length
  | _ => 0

/-- Registers of a special register: 2 for the 64-bit ones (R202). -/
def sregWidth (x : IF) : Nat :=
  match sregInfo (sregNum x) with
  | some r => if r.wide then 2 else 1
  | none => 1

/-- Body of SRD (R202, R203). -/
def srdBody (x : IF) (s : State) (k : Key) (w : Wave) : Eff :=
  let m := w.act x.pr x.pn
  .done s [if sregScalar x then resS x.d.toNat (sregWidth x) m (s.sregVal k (sregNum x) 0)
    else resV x.d.toNat (sregWidth x) m (s.sregVal k (sregNum x))]

/-- SRD (R202). -/
def execSrd (x : IF) (s : State) : Host.Outcome State Fault Refusal := .next (s.issue (.srd x) (srdBody x))

/-- SRSEED holds 1 where 0 is written (R71). -/
def seedOf (v : Word) : Word := if v = 0 then 1 else v

/-- Writes SRSEED of the lanes of m (R71). -/
def Wave.setSeed (w : Wave) (m : LaneMask) (f : Fin 32 → Word) : Wave :=
  { w with srseed := Vector.ofFn fun l => if inMask m l then seedOf (f l) else w.srseed[l] }

/-- SPAUTO as written: bits at or above SPB are ignored (R91). -/
def spautoMask (spb : Nat) : Word := BitVec.ofNat 32 (2 ^ min spb 32 - 1)

/-- Body of SWR (R14, R202, R337): a scalar operand, or the lowest active lane's value; SRSEED lane by lane. -/
def swrBody (x : IF) (s : State) (k : Key) (w : Wave) : Eff :=
  let m := w.act x.pr x.pn
  let v : Nat := if sregScalar x then w.rsn x.a.toNat (sregWidth x) else w.rvn x.a.toNat (sregWidth x) (lowLane m)
  let v32 : Word := BitVec.ofNat 32 v
  if m = 0 then .done s []
  else
    match sregNum x with
    | 0x000 => if 5 ≤ v % 8 then .fault .illegal 0 else .done (s.modWave k fun w => { w with partreg := v32 &&& 7 }) []
    | 0x001 => .done (s.modWave k fun w => { w with fpflags := v32 &&& 0x3F }) []
    | 0x004 => .done (s.modWave k fun w =>
        w.setSeed m fun l => if sregScalar x then v32 else w.rv x.a.toNat l) []
    | 0x005 => .done (s.modCrew (crewOf k) fun c => { c with spauto := v32 &&& spautoMask c.spbN }) []
    | 0x100 => .done (s.modWave k fun w => { w with tgtw := v32 }) []
    | 0x101 => .done (s.modDie (dieOf (coreOf k)) fun d => { d with evec := BitVec.ofNat 64 v }) []
    | _ => .done s []

/-- SWR (R202). -/
def execSwr (x : IF) (s : State) : Host.Outcome State Fault Refusal := .next (s.issue (.swr x) (swrBody x))

-- Handles.

/-- What a handle names (R333). -/
inductive Obj
  | ctx (c : Nat)
  | crew (c : Nat) (k : Key)
  | wave (c : Nat) (k : Key)
  | cluster (c : Nat) (k : Key)
  deriving DecidableEq, Repr

/-- Context of an object. -/
def Obj.ctxNo : Obj → Nat
  | .ctx c | .crew c _ | .wave c _ | .cluster c _ => c

/-- CTX of a handle. -/
def hCtx (h : Word) : Nat := (h >>> 23).toNat
/-- CORE of a handle. -/
def hCore (h : Word) : Nat := (h >>> 15).toNat % 256
/-- CSLOT of a handle. -/
def hSlot (h : Word) : Nat := (h >>> 11).toNat % 16
/-- WAVE of a handle. -/
def hWave (h : Word) : Nat := (h >>> 6).toNat % 32
/-- KIND of a handle. -/
def hKind (h : Word) : Nat := h.toNat % 4

/-- The rules of R333 on unused and reserved fields. -/
def handleForm (h : Word) : Bool :=
  h.extractLsb' 2 4 == 0 && (hKind h != 0 || h.extractLsb' 6 17 == 0) && (hKind h == 0 || hKind h == 2 || hWave h == 0)
    && decide (hCore h ≤ 251)

/-- The crew of the context is resident in the named slot. -/
def State.crewHere (s : State) (c : Nat) (k : Key) : Bool := (s.crew k).st ≠ .absent && (s.crew k).ctx == c

/-- The image of the crew that CTXSAVE has saved for the context. -/
def State.imgOf (s : State) (c : Nat) (k : Key) : Option ImgRef := (s.ctx c).imgs.find? fun e => e.key == k

/-- Waves of an image (R380). -/
def imageNwave (i : List Dword) : Nat := bits (i.headD 0) 13 8

/-- The image of the crew that the dispatcher has set aside. -/
def State.asideOf (s : State) (c : Nat) (k : Key) : Option (List Dword) :=
  (s.saved.find? fun e => e.ctx == c && e.key == k && e.image.isSome).bind (·.image)

/-- A wave of a crew whose saved image firmware or the dispatcher holds (R337, R359). -/
def State.savedWave (s : State) (c : Nat) (k : Key) (wave : Nat) : Bool :=
  match s.imgOf c k, s.asideOf c k with
  | some r, _ => r.waves.contains wave
  | none, some i => decide (wave < imageNwave i)
  | none, none => false

/-- The object a handle names, or none (R333, R341). A wave of a saved crew is named by where its crew was (R337). -/
def State.obj (s : State) (h : Word) : Option Obj :=
  let c := hCtx h
  let k := crewKey (hCore h) (hSlot h)
  if !handleForm h || !s.ctxValid c then none
  else
    match hKind h with
    | 0 => some (.ctx c)
    | 1 => if s.crewHere c k then some (.crew c k) else none
    | 2 => if (s.crewHere c k && (s.wave (waveKey k (hWave h))).here) || s.savedWave c k (hWave h)
           then some (.wave c (waveKey k (hWave h))) else none
    | _ => if s.crewHere c k && ((s.crew k).lrec.headD 0).getLsbD 11 then some (.cluster c k) else none

-- The image of a scope entry.

/-- The image of 64 bytes as an entry's derived sets (R113). -/
def scopeOfImage (i : List Dword) : Scope :=
  let w (n : Nat) : Dword := i.getD n 0
  { v := (w 5).getLsbD 63,
    mask := (w 0).setWidth 252 ||| ((w 1).setWidth 252 <<< 64) ||| ((w 2).setWidth 252 <<< 128)
      ||| (((w 3).extractLsb' 0 60).setWidth 252 <<< 192),
    slice := w 4, host := (w 5).getLsbD 18, bz := (w 5).getLsbD 17, hbm := (w 5).getLsbD 16,
    peer := (w 5).extractLsb' 0 16 }

/-- MK, MCL and MCORE of an image. -/
structure MeetImg where
  kind : Nat := 0
  mcl : Nat := 0
  mcore : Nat := 0
  one : Bool := false

/-- The 64-byte image of an entry (R113). -/
def imageOf (x : Scope) (gen : Nat) (m : MeetImg) : List Dword :=
  let b (p : Bool) (n : Nat) : Nat := if p then 2 ^ n else 0
  [ x.mask.setWidth 64, (x.mask >>> 64).setWidth 64, (x.mask >>> 128).setWidth 64, (x.mask >>> 192).setWidth 64, x.slice,
    BitVec.ofNat 64 (b x.v 63 + gen % 16 * 2 ^ 56 + b x.host 18 + b x.bz 17 + b x.hbm 16 + x.peer.toNat),
    BitVec.ofNat 64 (b m.one 15 + m.mcore * 128 + m.mcl * 4 + m.kind), 0 ]

/-- The image of a programmable entry (R113, R116). DESIGN CHOICE (log 46): an entry that is not valid has no meeting point, and MK and
MCL read zero, whether it was never written or written with V = 0. -/
def ScopeEnt.image (e : ScopeEnt) : List Dword :=
  let m : MeetImg :=
    if !e.img.v then {}
    else
      match e.img.meet with
      | .system => { kind := 2 }
      | .home | .l1 => { kind := 1 }
      | .cluster => { mcl := (((List.range 252).find? fun i => e.img.mask.getLsbD i).map clusterOf).getD 0 }
  imageOf e.img e.epoch.toNat m

/-- A member mask of the cores that satisfy p. -/
def coreMask (p : Nat → Bool) : BitVec 252 := (BitVec.ofBoolListLE ((List.range 252).map p)).setWidth 252

/-- The image of a fixed entry, sc0 to sc5, for an issuer on a core in a polder (R113). -/
def State.fixedImage (s : State) (n core polder : Nat) : List Dword :=
  let base : Scope := { v := true, slice := BitVec.allOnes 64, hbm := true, bz := true }
  let peers : BitVec 16 := (BitVec.ofBoolListLE ((List.range 16).map fun i => s.peerValid polder i)).setWidth 16
  match n with
  | 0 => imageOf { base with mask := coreMask (· == core) } 0 { kind := 3, mcore := core, one := true }
  | 1 => imageOf { base with mask := coreMask (· == core) } 0 { kind := 3, mcore := core }
  | 2 => imageOf { base with mask := coreMask fun i => clusterOf i == clusterOf core } 0 { kind := 0, mcl := clusterOf core }
  | 3 => imageOf { base with mask := coreMask fun i => dieOf i == dieOf core } 0 { kind := 1 }
  | 4 => imageOf { base with mask := coreMask fun _ => true } 0 { kind := 1 }
  | _ => imageOf { base with mask := coreMask (fun _ => true), host := true, peer := peers } 0 { kind := 2 }

/-- Some granule of a range of the polder in a tier is its own (R114, R351): the range's base, or where a lower claimant's
range inside it ends. -/
def State.ownsTier (s : State) (p tier : Nat) : Bool :=
  (List.range 8).any fun n =>
    match s.rangeOf p n with
    | none => false
    | some (b, l, t) =>
      t == tier &&
        ((b :: (List.range p).flatMap fun q => (List.range 8).filterMap fun m => (s.rangeOf q m).map fun r => r.1 + r.2.1).any
          fun a => decide (b ≤ a) && decide (a < b + l) && s.ownsRange p a == some tier)

/-- R114: the image may be written into an entry of a polder's context. -/
def State.imageOk (s : State) (p : Nat) (x : Scope) : Bool :=
  ((List.range 252).all fun i => !x.mask.getLsbD i || s.ownsCluster p (clusterOf i))
    && ((List.range 64).all fun i => !x.slice.getLsbD i || s.ownsSlice p i)
    && (!x.bz || s.ownsTier p 1) && (!x.hbm || s.ownsTier p 0)
    && ((List.range 16).all fun i => !x.peer.getLsbD i || decide (i < s.peerLen p))

-- The scope-table words.

/-- The operation that a wave-level word sent to a peer is done with. -/
def State.dropWordOp (s : State) (k : Key) : State :=
  if s.pkg.peerOps = [] then s
  else s.modPkg fun p => { p with peerOps := p.peerOps.filter fun o => !(o.eng == .wave && o.key == k && o.lane == wordOp) }

/-- A wave-level word's access of n aligned bytes at an address, held at issue until its page is mapped and the crossing runs: the
physical address and HOME, or what happens instead. -/
def State.wordAccess (s : State) (k : Key) (e : Dword) (size : Nat) (a : Acc) : Eff ⊕ (State × Nat × Nat) :=
  match addrCheck e size with
  | some c => .inl (.fault c e)
  | none =>
    match s.translate (s.ctxOf k) (coreOf k) e.toNat a with
    | .miss => .inl (s.missFront k e.toNat)
    | .access => .inl (.fault .access e)
    | .ecc l => .inl (.fault .eccfatal (BitVec.ofNat 64 (lineDet l)))
    | .busy => .inl .hold
    | .ok s1 pa home =>
      if s1.fifoHeld (s.ctxOf k) (coreOf k) pa size home a then .inl .hold
      else if s1.portDown (s.ctxOf k) pa && s1.atHome (clusterOf (coreOf k)) pa size home a && !s1.answered .wave k wordOp then
        .inl (.holdIn (s.sendPeer .wave k wordOp pa e.toNat (a != .read) 0 size))
      else
        match s1.eccLine (clusterOf (coreOf k)) pa size home a with
        | some l => .inl (.faultIn (s1.discardBad (clusterOf (coreOf k)) l) .eccfatal (BitVec.ofNat 64 (lineDet l)))
        | none => .inr ((s1.dropWordOp k).touchL2 (s.ctxOf k) (coreOf k) pa size home, pa, home)

/-- n 64-bit relaxed loads of a wave (R204). -/
def State.readWords (s : State) (cl pa home : Nat) : (n : Nat) → List Dword × State
  | 0 => ([], s)
  | n + 1 =>
    let (v, s1) := s.lsuRead cl pa 8 home
    let (vs, s2) := s1.readWords cl (pa + 8) home n
    (BitVec.ofNat 64 v :: vs, s2)

/-- The context on whose scope table a wave's SCW or SCR acts, its polder's checks with it (R204, R337). -/
def State.scopeTarget (s : State) (k : Key) : Option Obj :=
  match s.ctxOf k with
  | some c => some (.wave c k)
  | none => s.obj (s.wave k).tgtw

/-- Steps 2 and 3 of R127: the epoch rises, the image is installed, and VIEW bit n clears in every resident wave of the
context. DESIGN CHOICE (log 81): in all of them in the step in which the SCW issues. -/
def State.installScope (s : State) (c n : Nat) (x : Scope) : State :=
  let s1 := s.modCtx c fun y =>
    let e := tget y.scopes {} n
    { y with scopes := tset y.scopes n { img := x, epoch := e.epoch + 1, old := (e.epoch, e.img) :: e.old } }
  let hit (k : Key) : Bool := !isReeveCore (coreOf k) && (s1.crew (crewOf k)).ctx == c && (s1.crew (crewOf k)).st ≠ .absent
  { s1 with waves := s1.waves.map fun e =>
      if e.2.here && hit e.1 then (e.1, { e.2 with view := e.2.view &&& ~~~(BitVec.twoPow 16 n) }) else e }

/-- Body of SCW (R114, R127, R204). Its slot counts until step 4 of R127. -/
def scwBody (x : MF) (s : State) (k : Key) (w : Wave) : Eff :=
  let n := x.sc.toNat
  match s.scopeTarget k with
  | none => .fault .scrange (x.sc.setWidth 64)
  | some o =>
    if n < 6 then .fault .scrange (x.sc.setWidth 64)
    else
      match s.wordAccess k (w.addrS x) 64 .read with
      | .inl e => e
      | .inr (s1, pa, home) =>
        let (ws, s2) := s1.readWords (clusterOf (coreOf k)) pa home 8
        let img := scopeOfImage ws
        if !s2.imageOk (polderOf o.ctxNo) img then .fault .scrange (x.sc.setWidth 64)
        else
          .done (s2.installScope o.ctxNo n img)
            [{ file := .v, reg := 0, data := [], mask := BitVec.allOnes 32, arrived := false, why := some (.scw o.ctxNo n) }]

/-- SCW (R204). -/
def execScw (x : MF) (s : State) : Host.Outcome State Fault Refusal :=
  .next (s.issue (.scw x) (waveLevel x.pr x.pn (memGate 0 (scwBody x))))

/-- SC of an M word that carries an epoch. -/
def scField (word : Dword) : Nat := (word.extractLsb' 26 4).toNat

/-- The image that SCR writes: a programmable entry's, or the instance of the object (R204, R337); none is SCRANGE. -/
def State.scrImage (s : State) (o : Obj) (n : Nat) : Option (List Dword) :=
  if 6 ≤ n then some (s.scopeEnt o.ctxNo n).image
  else
    match o with
    | .ctx c => if n < 4 then none else some (s.fixedImage n 0 (polderOf c))
    | .crew c k | .cluster c k => some (s.fixedImage n (coreOfCrew k) (polderOf c))
    | .wave c k => some (s.fixedImage n (coreOf k) (polderOf c))

/-- n 64-bit relaxed stores of a wave. -/
def State.writeWords (s : State) (c : Option Nat) (cl home : Nat) : (pa : Nat) → List Dword → State
  | _, [] => s
  | pa, w :: ws => (s.lsuWrite c cl pa home (bytesOf w.toNat 8)).writeWords c cl home (pa + 8) ws

/-- Body of SCR (R113, R204). -/
def scrBody (x : MF) (s : State) (k : Key) (w : Wave) : Eff :=
  match (s.scopeTarget k).bind fun o => s.scrImage o x.sc.toNat with
  | none => .fault .scrange (x.sc.setWidth 64)
  | some img =>
    match s.wordAccess k (w.addrS x) 64 .write with
    | .inl e => e
    | .inr (s1, pa, home) => .done (s1.writeWords (s.ctxOf k) (clusterOf (coreOf k)) home pa img) []

/-- SCR (R204). -/
def execScr (x : MF) (s : State) : Host.Outcome State Fault Refusal :=
  .next (s.issue (.scr x) (waveLevel x.pr x.pn (memGate 0 (scrBody x))))

/-- SCACK of entry n on a wave (R129). -/
def Wave.ack (w : Wave) (n : Nat) (epoch : Word) : Wave :=
  if n < 6 || w.view.getLsbD n then w
  else { w with view := w.view ||| BitVec.twoPow 16 n, acked := tset w.acked n epoch }

/-- Byte offset of a wave's special-register block in a crew image: the wave entries stand one after another, each a 2 KiB
control block, its save record and its queued-access blocks (R380, R381, R420), each entry 1 KiB aligned. `rd` reads a word
of the image. -/
def waveEntryAt (rd : Nat → Dword) (start : Nat) : (i : Nat) → Nat
  | 0 => start
  | i + 1 =>
    let at' := waveEntryAt rd start i
    let whdr := rd (at' + 0x800)
    let rec' := 0x280 + bits whdr 55 52 * 576 + bits whdr 63 56 * 1024
    let nq := bits (rd (at' + 0x5A0)) 4 0
    at' + 0x800 + (rec' + 1023) / 1024 * 1024 + nq * 1024

/-- A word of the firmware space, where it is mapped. -/
def State.fwRead (s : State) (core va : Nat) : Dword :=
  match s.translate none core va .read with
  | .ok _ pa _ => s.home64 pa
  | .miss | .access | .ecc _ | .busy => 0
/-- Stores a 64-bit word in the firmware space, where it is mapped. -/
def State.fwWrite (s : State) (core va : Nat) (v : Dword) : State :=
  match s.translate none core va .write with
  | .ok s1 pa _ => s1.poke64 pa v
  | .miss | .access | .ecc _ | .busy => s

/-- What SCACK of entry n changes in the saved image of a wave (R130, R337, R338), which `rd` reads: the word with VIEW and the word with
the entry's epoch, by their places; nothing where the bit would be set at restore already: it is set, and the saved epoch is the
entry's current one (R129, R130). -/
def ackWords (rd : Nat → Dword) (wave n : Nat) (epoch : Word) : List (Nat × Dword) :=
  let block := waveEntryAt rd (rd 0x158).toNat wave + 0x800 + 0x180
  let slot := block + 0x10 + 4 * (n - 6)
  let old := rd (slot / 8 * 8)
  let (hi, lo) := if slot % 8 = 0 then (31, 0) else (63, 32)
  if n < 6 || ((rd (block + 8)).getLsbD n && bits old hi lo == epoch.toNat) then []
  else [(block + 8, rd (block + 8) ||| BitVec.twoPow 64 n), (slot / 8 * 8, putBits old hi lo epoch.toNat)]

/-- SCACK of entry n in the image of a wave at an address of the firmware space. -/
def State.ackImage (s : State) (core img wave n : Nat) (epoch : Word) : State :=
  (ackWords (fun o => s.fwRead core (img + o)) wave n epoch).foldl (fun s p => s.fwWrite core (img + p.1) p.2) s

/-- SCACK of entry n in the image of a wave whose crew the dispatcher has set aside. -/
def State.ackAside (s : State) (c : Nat) (k : Key) (wave n : Nat) (epoch : Word) : State :=
  { s with saved := s.saved.map fun e =>
      if e.ctx == c && e.key == k then
        { e with image := e.image.map fun i =>
            (ackWords (fun o => i.getD (o / 8) 0) wave n epoch).foldl (fun i p => i.set (p.1 / 8) p.2) i }
      else e }

/-- Body of SCACK (R129, R337). -/
def scackBody (x : MF) (s : State) (k : Key) (_ : Wave) : Eff :=
  let n := x.sc.toNat
  match s.ctxOf k with
  | some c => .done (s.modWave k fun w => w.ack n (s.scopeEnt c n).epoch) []
  | none =>
    match s.obj (s.wave k).tgtw with
    | some (.wave c t) =>
      let ep := (s.scopeEnt c n).epoch
      if s.crewHere c (crewOf t) then
        if (s.wave t).stopped then .done (s.modWave t fun w => w.ack n ep) [] else .fault .scrange (x.sc.setWidth 64)
      else
        match s.imgOf c (crewOf t) with
        | some a => .done (s.ackImage (coreOf k) a.addr (waveIdOf t) n ep) []
        | none => .done (s.ackAside c (crewOf t) (waveIdOf t) n ep) []
    | _ => .fault .scrange (x.sc.setWidth 64)

/-- SCACK (R204). -/
def execScack (x : MF) (s : State) : Host.Outcome State Fault Refusal :=
  .next (s.issue (.scack x) (waveLevel x.pr x.pn (scackBody x)))

end Sys2Proof.Machine
end

