-- ==== Sys2Proof/Machine/Memory.lean ====
section
/-! DEFINITION. Memory words (R244 to R246, R249 to R257): loads and stores, atomics, LDWATCH, fences, cache control and
prefetch, with accesses held on a miss (R34, R419, R420) and accesses that wait for a peer (R414). -/

namespace Sys2Proof.Machine

-- One lane's access.

/-- One lane's access of a memory word: lane, whether it is checked and parks (R244), address, store or atomic data. -/
structure LaneAcc where
  lane : Nat
  live : Bool
  e : Dword
  data : Nat
  deriving DecidableEq, Repr

/-- Access kind of a word (R371). -/
def accOf : Instr → Acc
  | .stVector .. | .stScalar .. => .write
  | .atom .. | .atomcas _ | .red .. => .rmw
  | _ => .read

/-- Bytes of one access. -/
def accSize : Instr → Nat
  | .ldVector sz _ | .ldScalar sz _ | .stVector sz _ | .stScalar sz _ => sz.bytes
  | .atom _ x | .atomcas x | .red _ x => 4 * atomRegs x
  | _ => 4

/-- The accesses of a word: per lane of M, or one for a scalar form, which takes effect once where M is not empty (R244). Helper lanes
load and never store (R12). -/
def accLanes (i : Instr) (w : Wave) : List LaneAcc :=
  let live (l : Fin 32) : Bool := w.lst[l] == .live
  match i with
  | .ldVector _ x => (lanesOf (w.act x.pr x.pn)).map fun l => { lane := l.val, live := live l, e := w.addrV x l, data := 0 }
  | .ldScalar _ x => if w.act x.pr x.pn = 0 then [] else [{ lane := 0, live := true, e := w.addrS x, data := 0 }]
  | .stVector sz x => (w.liveOf (w.act x.pr x.pn)).map fun l =>
      { lane := l.val, live := true, e := w.addrV x l, data := w.rvn x.d.toNat sz.regs l }
  | .stScalar sz x =>
    if w.act x.pr x.pn = 0 then []
    else [{ lane := 0, live := true, e := w.addrS x, data := w.rsn x.d.toNat sz.regs }]
  | .atom _ x | .red _ x => (w.liveOf (w.act x.pr x.pn)).map fun l =>
      { lane := l.val, live := true, e := w.addrA x l, data := w.rvn x.d.toNat (atomRegs x) l }
  | .atomcas x => (w.liveOf (w.act x.pr x.pn)).map fun l =>
      { lane := l.val, live := true, e := w.addrA x l, data := w.rvn x.d.toNat (2 * atomRegs x) l }
  | _ => []

/-- The first address fault of the checked lanes (R244, R245). -/
def accFault (size : Nat) (ls : List LaneAcc) : Option (FClass × Dword) :=
  (ls.filter (·.live)).findSome? fun a => (addrCheck a.e size).map fun c => (c, a.e)

/-- Mask of the lanes of a list of accesses. -/
def accMask (ls : List LaneAcc) : LaneMask := ls.foldl (fun m a => m ||| BitVec.twoPow 32 a.lane) 0

-- Firmware's register windows (R394, R404).

/-- HOME code that marks a firmware register instead of memory. -/
def devHome : Nat := 4

/-- The firmware-space address lies in the island status blocks (R394), the reliability blocks (R404) or the clock control registers
(R398). -/
def isDevVa (va : Nat) : Bool :=
  (decide (pwrBase ≤ va) && decide (va < pwrBase + 32 * 252)) || (decide (relBase ≤ va) && decide (va < relBase + 128 * 32))
    || (decide (clkBase ≤ va) && decide (va < clkBase + 16))

/-- Code of MODE of an island (R394). -/
def islandCode : IslandMode → Nat
  | .over => 0 | .guarded => 1 | .step => 2 | .off => 3

/-- A word of an island's status block (R394). -/
def State.islandWord (s : State) (core n : Nat) : Dword :=
  let i := (s.core core).island
  match n with
  | 0 => BitVec.ofNat 64 (islandCode (s.islandMode core) * 2 ^ 62 + (if i.force then 2 ^ 61 else 0)
      + s.vfNow core % 4096 * 2 ^ 36 + s.vgNow core % 4096 * 2 ^ 24 + s.vsetOf core % 4096 * 2 ^ 12
      + s.vnowOf core % 4096)
  | 1 => BitVec.ofNat 64 (i.cred % 2 ^ 32 * 2 ^ 32 + i.wovt % 65536 * 65536 + i.watt % 65536)
  | 2 => BitVec.ofNat 64 i.gsteps
  | _ => BitVec.ofNat 64 i.ovtot

/-- The 64-bit register at an 8-byte aligned address of the windows. -/
def State.devWord (s : State) (va : Nat) : Dword :=
  if va < pwrBase + 32 * 252 && decide (pwrBase ≤ va) then s.islandWord ((va - pwrBase) / 32) ((va - pwrBase) % 32 / 8)
  else if clkBase ≤ va then BitVec.ofNat 64 (s.dclk ((va - clkBase) / 4) + 2 ^ 32 * s.dclk ((va - clkBase) / 4 + 1))
  else BitVec.ofNat 64 (tget (s.polder ((va - relBase) / 128)).rel 0 ((va - relBase) % 128 / 8))

/-- A read of n bytes of the windows, within one aligned 16-byte part. -/
def State.devRead (s : State) (va n : Nat) : Nat :=
  let lo := (s.devWord (va / 8 * 8)).toNat
  let hi := (s.devWord (va / 8 * 8 + 8)).toNat
  (lo + 2 ^ 64 * hi) / 2 ^ (8 * (va % 8)) % 2 ^ (8 * n)

/-- FORCE of an island is written (R394): a hold of the island begins, or ends (R397). -/
def State.setForce (s : State) (core : Nat) (b : Bool) : State :=
  (s.modCore core fun c => { c with island := { c.island with force := b } }).islandSettle core

/-- A write of n bytes into the windows: FORCE of an island (R394) and TGT of a die (R398) are writable. -/
def State.devWrite (s : State) (va n v : Nat) : State :=
  let off := va - pwrBase
  if decide (pwrBase ≤ va) && decide (va < pwrBase + 32 * 252) && decide (off % 32 ≤ 7) && decide (7 < off % 32 + n) then
    s.setForce (off / 32) ((v / 2 ^ (8 * (7 - off % 32)) / 32) % 2 == 1)
  else
    ((List.range 4).filter fun d => decide (va ≤ clkBase + 4 * d) && decide (clkBase + 4 * d < va + n)).foldl
      (fun (s : State) d => s.writeTgt d (v / 2 ^ (8 * (clkBase + 4 * d - va)) % 128) false) s

-- Translation of a word's lanes.

/-- Answer of the translation of a word's checked lanes: a fault comes with its detail, and with whether it is known as the word
issues (R419). -/
inductive LanesTr
  | ok (s : State) (ls : List (LaneAcc × Nat × Nat))
  | miss (va : Nat)
  | busy
  | bad (cls : FClass) (det : Nat) (known : Bool)

/-- Translates one lane's access for a wave. -/
def State.trLane (s : State) (k : Key) (e : Dword) (a : Acc) : TrRes :=
  if (s.ctxOf k).isNone && isDevVa e.toNat then .ok s e.toNat devHome
  else s.translate (s.ctxOf k) (coreOf k) e.toNat a

/-- Translates the lanes of a word, ascending; a helper lane that would fault or park is left out (R244). -/
def trLanes (k : Key) (size : Nat) (a : Acc) : List LaneAcc → State → LanesTr
  | [], s => .ok s []
  | l :: r, s =>
    let skip : Bool := !l.live && (addrCheck l.e size).isSome
    match (if skip then .miss else s.trLane k l.e a) with
    | .ok s1 pa home =>
      match trLanes k size a r s1 with
      | .ok s2 ls => .ok s2 ((l, pa, home) :: ls)
      | x => x
    | .miss => if l.live then .miss l.e.toNat else trLanes k size a r s
    | .access =>
      if l.live then .bad .access l.e.toNat (s.trKnown (s.ctxOf k) (coreOf k) l.e.toNat) else trLanes k size a r s
    | .ecc line => if l.live then .bad .eccfatal (line * 128) false else trLanes k size a r s
    | .busy => if l.live then .busy else trLanes k size a r s

-- Peer operations that wait (R414).

/-- The operations of an engine are done with. -/
def State.dropOps (s : State) (eng : EngKind) (key : Nat) : State :=
  if s.pkg.peerOps = [] then s
  else s.modPkg fun p => { p with peerOps := p.peerOps.filter fun o => !(o.eng == eng && o.key == key) }

/-- A lane's access of size n goes to a peer that does not respond now: its cluster's caches do not serve it. -/
def State.laneWaits (s : State) (a : Acc) (k : Key) (n : Nat) (l : LaneAcc × Nat × Nat) : Bool :=
  s.portDown (s.ctxOf k) l.2.1 && s.atHome (clusterOf (coreOf k)) l.2.1 n l.2.2 a

/-- The lanes of a wave's word whose peer has not answered. -/
def State.waitingLanes (s : State) (a : Acc) (k : Key) (n : Nat) (ls : List (LaneAcc × Nat × Nat)) : List (LaneAcc × Nat × Nat) :=
  ls.filter fun l => s.laneWaits a k n l && !s.answered .wave k l.1.lane

/-- The lanes that a word performs: a helper lane whose load would fault, at a line in error or a peer that does not answer, is
left out and returns 0 (R12, R244). -/
def State.servedLanes (s : State) (a : Acc) (k : Key) (size : Nat) (ls : List (LaneAcc × Nat × Nat)) : List (LaneAcc × Nat × Nat) :=
  ls.filter fun l => l.1.live || l.2.2 = devHome
    || !(s.laneWaits a k size l || (s.eccLine (clusterOf (coreOf k)) l.2.1 size l.2.2 a).isSome)

-- Performing one lane.

/-- The value a load returns from the bytes read (R246). -/
def extendLoad (sz : MSize) (v : Nat) : Nat :=
  match sz with
  | .i8 => wrapOf 32 (sgnOf 8 v)
  | .i16 => wrapOf 32 (sgnOf 16 v)
  | _ => v

/-- One lane's read. -/
def State.loadLane (s : State) (k : Key) (pa home size : Nat) : Nat × State :=
  if home = devHome then (s.devRead pa size, s) else s.lsuRead (clusterOf (coreOf k)) pa size home

/-- One lane's write. -/
def State.storeLane (s : State) (k : Key) (pa home size v : Nat) : State :=
  if home = devHome then s.devWrite pa size v
  else (s.noteStore .wave k (clusterOf (coreOf k)) (pa / 128)).lsuWrite (s.ctxOf k) (clusterOf (coreOf k)) pa home (bytesOf v size)

/-- New value of an atomic operation (R249); `w` is its width in bits, `sg` says that TY is signed. -/
def atomNew (op : AtomOp) (w : Nat) (sg : Bool) (a b : Nat) : Nat :=
  let lt : Bool := if sg then decide (sgnOf w a < sgnOf w b) else decide (a < b)
  match op with
  | .add => (a + b) % 2 ^ w
  | .min => if lt then a else b
  | .max => if lt then b else a
  | .and => a &&& b
  | .or => a ||| b
  | .xor => a ^^^ b
  | .xchg => b
  | .inc => if b ≤ a then 0 else a + 1
  | .dec => if a = 0 ∨ b < a then b else a - 1
  | .fadd => (fAdd (if w = 64 then fmt64 else fmt32) .rne a b).1

/-- The copies that a cluster holds of n bytes are no longer dirty: home holds what comes after them. -/
def State.cleanCopies (s : State) (cl pa n : Nat) : State :=
  s.setDcache cl ((s.dcache cl).map fun e =>
    if decide (pa ≤ e.1) && decide (e.1 < pa + n) then (e.1, { e.2 with dirty := false }) else e)

/-- One atomic step at a location of n bytes (R107, R137): it is performed at home, upon the value that the issuing cluster's
own writes have made coherence-latest; copies of the location in that cluster follow. No new value: a read only, of which EXTW takes note
where it leaves the device (R389). -/
def State.atomAt (s : State) (k : Key) (pa n : Nat) (f : Nat → Option Nat) : Nat × State :=
  let cl := clusterOf (coreOf k)
  let (old, s1) := s.meetRead cl pa n
  match f old with
  | none => (old, s1.noteExt (s.ctxOf k) pa)
  | some v => (old, (((s1.homeStore (s.ctxOf k) pa (bytesOf v n)).chargeHome (s.ctxOf k) pa n).cleanCopies cl pa n).freshen cl pa n)

/-- What an atomic lane writes, by its word. -/
def atomOpOf (i : Instr) (data : Nat) (old : Nat) : Option Nat :=
  match i with
  | .atom op x | .red op x => some (atomNew op (32 * atomRegs x) (x.ch.toNat % 2 == 0) old data)
  | .atomcas x =>
    let w := 32 * atomRegs x
    if old = data % 2 ^ w then some (data / 2 ^ w) else none
  | _ => none

/-- An add of a wave's ATOM on a barrier word is an arrival (R319). -/
def State.arrivals (s : State) (i : Instr) (k : Key) (pa : Nat) (stamp : Stamp) : State :=
  match i, s.ctxOf k with
  | .atom .add _, some c => s.barrierArrive pa (polderOf c) (dieOf (coreOf k)) stamp
  | _, _ => s

/-- REFT and the issue-enabled cycles of a wave's polder on its die, as a word issues (R319, R320). -/
def State.stampNow (s : State) (k : Key) : Stamp :=
  { reft := s.reft,
    ran := match s.ctxOf k with | some c => tget (s.polder (polderOf c)).ran 0 (dieOf (coreOf k)) | none => 0 }

/-- The arrivals of a wave's ATOM at barrier words, stamped as it issues (R319, R320). -/
def State.stampLanes (s : State) (i : Instr) (k : Key) (ls : List (LaneAcc × Nat × Nat)) : State :=
  match i, s.ctxOf k with
  | .atom .add _, some c => ls.foldl (fun s a => s.barrierStamp a.2.1 (polderOf c) k) s
  | _, _ => s

/-- The same where a lane of the word misses or faults: the lanes that translate. -/
def State.stampIssue (s : State) (i : Instr) (k : Key) (ls : List LaneAcc) : State :=
  if s.pkg.barriers = [] then s
  else s.stampLanes i k (ls.filterMap fun a => match s.trLane k a.e (accOf i) with
    | .ok _ pa home => some (a, pa, home)
    | .miss | .access | .ecc _ | .busy => none)

/-- CH of a load or store (R101). -/
def hintOf (i : Instr) : BitVec 2 :=
  match mfOf i with
  | some x => x.ch
  | none => 0

/-- Performs one lane of a word: the value it returns. -/
def State.accLane (s : State) (i : Instr) (k : Key) (stamp : Stamp) (a : LaneAcc) (pa home : Nat) : Nat × State :=
  match i with
  | .ldVector sz _ | .ldScalar sz _ =>
    let (v, s1) := (s.touch (s.ctxOf k) (coreOf k) (hintOf i) pa sz.bytes home).loadLane k pa home sz.bytes
    (extendLoad sz v, s1)
  | .stVector sz _ | .stScalar sz _ => (0, (s.touch (s.ctxOf k) (coreOf k) (hintOf i) pa sz.bytes home).storeLane k pa home sz.bytes a.data)
  | .atom _ _ | .atomcas _ | .red _ _ =>
    let s0 := (s.noteStore .wave k (clusterOf (coreOf k)) (pa / 128)).l2Touch (s.ctxOf k) pa (accSize i) home
    let (old, s1) := s0.atomAt k pa (accSize i) (atomOpOf i a.data)
    (old, s1.arrivals i k pa stamp)
  | _ => (0, s)

/-- Performs the lanes of a word, ascending (R110): the values by lane. -/
def accLanesRun (i : Instr) (k : Key) (stamp : Stamp) : List (LaneAcc × Nat × Nat) → State → Tab Nat × State
  | [], s => ([], s)
  | a :: r, s =>
    let (v, s1) := s.accLane i k stamp a.1 a.2.1 a.2.2
    let (vs, s2) := accLanesRun i k stamp r s1
    ((a.1.lane, v) :: vs, s2)

-- Releases and acquires of atomic words (R117, R118, R122).

/-- ORD asks for a release. -/
def ordRel (n : Nat) : Bool := decide (2 ≤ n)
/-- ORD asks for an acquire. -/
def ordAcq (n : Nat) : Bool := n == 1 || decide (3 ≤ n)

/-- The instance that scope n is at an epoch, for a wave (R112, R126). -/
def State.scopeInst (s : State) (k : Key) (n : Nat) (ep : Word) : ScopeInst :=
  if n ≤ 1 then { meet := .l1 }
  else if n = 2 then { meet := .cluster }
  else if n ≤ 4 then scope4
  else if n = 5 then scope5
  else
    let c := (s.crew (crewOf k)).ctx
    let img := (s.scopeEnt c n).at ep
    { meet := img.meet, all := false, img := img, polder := polderOf c }

/-- Clusters that hold a NARROW line, other than one (R122). -/
def State.narrowOthers (s : State) (cl : Nat) (lines : List Nat) : BitVec 32 :=
  (lines.foldl (fun m l => m ||| tget s.pkg.narrow 0 l) 0) &&& ~~~(BitVec.twoPow 32 cl)

/-- The lines of a list that a cluster other than one holds NARROW (R122). -/
def State.foreign (s : State) (cl : Nat) (lines : List Nat) : List Nat := lines.filter fun l => s.narrowOthers cl [l] ≠ 0

/-- The forced publish of R122: every holder of the lines writes back all it has, and the masks clear. -/
def State.publish (s : State) (others : BitVec 32) (lines : List Nat) : State :=
  let s1 := ((List.range 32).filter fun c => others.getLsbD c).foldl (fun s c => s.writeBack c fun _ => true) s
  s1.modPkg fun p => { p with narrow := p.narrow.filter fun e => !lines.contains e.1 }

/-- A release read-modify-write marks its line NARROW unless its scope is sc4 or sc5 (R122). -/
def State.markNarrow (s : State) (cl : Nat) (lines : List Nat) : State :=
  s.modPkg fun p =>
    { p with narrow := lines.foldl (fun t l => tset t l (tget t 0 l ||| BitVec.twoPow 32 cl)) p.narrow }

/-- The fields of an atomic word. -/
def atomMF : Instr → Option MF
  | .atom _ x | .atomcas x | .red _ x => some x
  | _ => none

/-- Lanes whose atomic step wrote: all but a failed compare. -/
def wroteLines (i : Instr) (ls : List (LaneAcc × Nat × Nat)) (vals : Tab Nat) : List Nat :=
  ((ls.filter fun a => (atomOpOf i a.1.data (tget vals 0 a.1.lane)).isSome).map fun a => a.2.1 / 128).dedup

/-- Performs the lanes of a word with the release before them and the acquire after them that an atomic word carries
(R250, R122). -/
def State.accRun (s : State) (i : Instr) (k : Key) (stamp : Stamp) (ep : Word) (ls : List (LaneAcc × Nat × Nat)) : Tab Nat × State :=
  match atomMF i with
  | none => accLanesRun i k stamp ls s
  | some x =>
    let cl := clusterOf (coreOf k)
    let n := x.sc.toNat
    let inst := s.scopeInst k n ep
    let rel := ordRel (mfOrd x)
    let acq := ordAcq (mfOrd x)
    let lines := (ls.map fun a => a.2.1 / 128).dedup
    let s1 := if rel then (s.release cl inst).waveReleases k else s
    let others := if acq then s1.narrowOthers cl lines else 0
    let s2 := if others = 0 then s1 else s1.publish others (s1.foreign cl lines)
    let (vals, s3) := accLanesRun i k stamp ls s2
    let s4 := if rel && n != 4 && n != 5 then s3.markNarrow cl (wroteLines i ls vals) else s3
    let s5 := if acq then s4.acquire cl inst else s4
    (vals, if others = 0 then s5 else s5.acquire cl scope4)

/-- The results of a memory word from its values by lane (R246, R250). -/
def accRes (i : Instr) (m : LaneMask) (vals : Tab Nat) : List Res :=
  match i with
  | .ldVector sz x => [resV x.d.toNat sz.regs m fun l => tget vals 0 l.val]
  | .ldScalar sz x => [resS x.d.toNat sz.regs m (tget vals 0 0)]
  | .atom _ x | .atomcas x => [resV x.d.toNat (atomRegs x) m fun l => tget vals 0 l.val]
  | _ => []

/-- The pending result of a held access: its destination, or none, to be filled when the access is performed (R420). -/
def heldRes (i : Instr) (m : LaneMask) : List Res :=
  match accRes i m [] with
  | [] => [{ file := .v, reg := 0, data := [], mask := BitVec.allOnes 32, arrived := false }]
  | rs => rs.map fun r => { r with arrived := false }

-- Issue of a memory word.

/-- A held access of a wave: the word, its lanes, addresses and data (R420). -/
def heldOf (i : Instr) (pc : Nat) (stamp : Stamp) (ep : Word) (va : Nat) (ls : List LaneAcc) : HeldAcc :=
  { word := (encodeWave i).getD 0, pc := pc, mask := accMask ls, live := accMask (ls.filter (·.live)), epoch := ep, va := va, stamp := stamp,
    addrs := Vector.ofFn fun l => ((ls.find? fun a => a.lane == l.val).map (·.e)).getD 0,
    data := Vector.ofFn fun l => BitVec.ofNat 128 (((ls.find? fun a => a.lane == l.val).map (·.data)).getD 0) }

/-- The word releases at its scope. -/
def accReleases (i : Instr) : Bool := match atomMF i with | some x => ordRel (mfOrd x) | none => false
/-- The word acquires at its scope. -/
def accAcquires (i : Instr) : Bool := match atomMF i with | some x => ordAcq (mfOrd x) | none => false

/-- A forced publish must cross to or from a die whose clock is stopped (R122, R318). -/
def State.publishBusy (s : State) (core : Nat) (lines : List Nat) : Bool :=
  let others := s.narrowOthers (clusterOf core) lines
  (List.range 32).any fun c => others.getLsbD c && ((c / 8 != dieOf core && (s.die (c / 8)).rel) || s.linkBusy c)

/-- A lane of the word waits in a crossing FIFO (R318). -/
def State.accStuck (s : State) (a : Acc) (i : Instr) (k : Key) (ls : List (LaneAcc × Nat × Nat)) : Bool :=
  (ls.any fun l => l.2.2 != devHome && s.fifoHeld (s.ctxOf k) (coreOf k) l.2.1 (accSize i) l.2.2 a)
    || (accReleases i && s.linkBusy (clusterOf (coreOf k)))
    || (accAcquires i && s.publishBusy (coreOf k) (ls.map fun l => l.2.1 / 128))

/-- The controller, with the polder, at which lanes of the word wait as tokenless: a token is asked for each line (R365). `again` says
that the word has waited so. -/
def State.accDry (s : State) (i : Instr) (k : Key) (again : Bool) (ls : List (LaneAcc × Nat × Nat)) : Option (Nat × Nat) :=
  let asks := ((ls.filter fun l => l.2.2 != devHome).filterMap fun l =>
    (s.asksToken (s.ctxOf k) (coreOf k) l.2.1 (accSize i) l.2.2 (accOf i)).map fun c => (c, l.2.1 / 128)).dedup
  (asks.map (·.1)).find? fun c => s.dryFor again c (asks.filter fun x => x.1 == c).length

/-- The word waits in a crossing FIFO, or at a memory controller. -/
def State.accHeld (s : State) (i : Instr) (k : Key) (ls : List (LaneAcc × Nat × Nat)) : Bool :=
  s.accStuck (accOf i) i k ls || (s.accDry i k false ls).isSome

/-- No data error stands anywhere. -/
def State.noErrors (s : State) : Bool :=
  s.pkg.eccBad = [] && s.pkg.lineBad = [] && s.pkg.l2.all fun t => t.2.all fun x => !x.bad

/-- The line in which a live lane of the word finds an error, and the state without a dirty line that fails (R384). -/
def State.accEcc (s : State) (a : Acc) (i : Instr) (k : Key) (ls : List (LaneAcc × Nat × Nat)) : Option (Nat × State) :=
  if s.noErrors then none
  else
    let cl := clusterOf (coreOf k)
    (ls.findSome? fun l => if l.2.2 = devHome || !l.1.live then none else s.eccLine cl l.2.1 (accSize i) l.2.2 a).map
        fun l => (l, s.discardBad cl l)

/-- The access is held: the wave goes on, its result pending (R34, R318, R419, R420). -/
def State.hold (s : State) (i : Instr) (k : Key) (m : LaneMask) (h : HeldAcc) : Eff :=
  .done (s.modWave k fun w => { w with held := w.held ++ [h] }) (heldRes i m)

/-- The access waits in a crossing FIFO, at a memory controller or for a peer (R318, R365, R414). -/
def State.holdBack (s : State) (i : Instr) (k : Key) (m : LaneMask) (h : HeldAcc) : Eff :=
  let c := crewOf k
  (if h.dry.isSome && (tfind (s.crew c).thr 5).isNone then s.throttle c 5 16 else s).hold i k m { h with fifo := true }

/-- What a memory word does once its lanes are translated: it waits in a crossing FIFO, at a controller or for a peer, finds an error, or is
performed. An error in the data of a load or atomic is a delayed fault; one in the line that a store writes is found at issue
(R384, R419). -/
def State.accGo (s : State) (i : Instr) (k : Key) (m : LaneMask) (ep : Word) (st : Stamp) (tr : List (LaneAcc × Nat × Nat)) : Eff :=
  let s := s.stampLanes i k tr
  let pc := (s.wave k).pc
  if s.accHeld i k tr then s.holdBack i k m { heldOf i pc st ep 0 (tr.map (·.1)) with dry := s.accDry i k false tr }
  else
  match s.accEcc (accOf i) i k tr with
  | some (l, s1) =>
    if accOf i == .write then .faultIn s1 .eccfatal (BitVec.ofNat 64 (lineDet l))
    else s1.hold i k m { heldOf i pc st ep (lineDet l) (tr.map (·.1)) with bad := some .eccfatal }
  | none =>
  let ls := s.servedLanes (accOf i) k (accSize i) tr
  match s.waitingLanes (accOf i) k (accSize i) ls with
  | [] =>
    let (vals, s1) := s.accRun i k st ep ls
    .done (s1.dropOps .wave k) (accRes i m vals)
  | ws =>
    (ws.foldl (fun s a => s.sendPeer .wave k a.1.lane a.2.1 a.1.e.toNat (accOf i != .read) a.1.data (accSize i)) s).holdBack i k m
      (heldOf i pc st ep 0 (tr.map (·.1)))

/-- Body of a memory word with the epoch and the moment of its issue: address checks, translation, and the access, or its parking
(R34, R244). An ACCESS that the core's TLB shows is precise; a fault that a walk finds is delayed (R419). -/
def accBody (i : Instr) (m : LaneMask) (ep : Word) (st : Stamp) (s : State) (k : Key) (w : Wave) : Eff :=
  let ls := accLanes i w
  match accFault (accSize i) ls with
  | some (c, e) => .fault c e
  | none =>
    match trLanes k (accSize i) (accOf i) ls s with
    | .bad c det known =>
      if known then .fault c (BitVec.ofNat 64 det)
      else (s.stampIssue i k ls).hold i k m { heldOf i w.pc st ep det ls with bad := some c }
    | .ok s1 tr => s1.accGo i k m ep st tr
    | .busy => (s.stampIssue i k ls).holdBack i k m (heldOf i w.pc st ep 0 ls)
    | .miss va =>
      match s.ctxOf k with
      | none => .fault .xlate (BitVec.ofNat 64 va)
      | some c => ((s.stampIssue i k ls).reportMiss c va (.data k)).hold i k m (heldOf i w.pc st ep va ls)

/-- LD and ST have no scope. -/
def plainBody (i : Instr) (x : MF) (s : State) (k : Key) (w : Wave) : Eff := accBody i (w.act x.pr x.pn) 0 (s.stampNow k) s k w

/-- LD through vector addresses (R246). -/
def execLdVector (sz : MSize) (x : MF) (s : State) : Host.Outcome State Fault Refusal :=
  .next (s.issue (.ldVector sz x) (memGate 0 (plainBody (.ldVector sz x) x)))

/-- LD through a scalar address (R246). -/
def execLdScalar (sz : MSize) (x : MF) (s : State) : Host.Outcome State Fault Refusal :=
  .next (s.issue (.ldScalar sz x) (memGate 0 (plainBody (.ldScalar sz x) x)))

/-- ST through vector addresses (R246). -/
def execStVector (sz : MSize) (x : MF) (s : State) : Host.Outcome State Fault Refusal :=
  .next (s.issue (.stVector sz x) (memGate 0 (plainBody (.stVector sz x) x)))

/-- ST through a scalar address (R246). -/
def execStScalar (sz : MSize) (x : MF) (s : State) : Host.Outcome State Fault Refusal :=
  .next (s.issue (.stScalar sz x) (memGate 0 (plainBody (.stScalar sz x) x)))

/-- ScopeCheck, regardless of the mask, then the body with the epoch carried and the instance (R250). -/
def withScope (x : MF) (body : Word → ScopeInst → State → Key → Wave → Eff) (s : State) (k : Key) (w : Wave) : Eff :=
  match s.scopeCheck k x.sc.toNat with
  | .inl c => .fault c (x.sc.setWidth 64)
  | .inr (ep, inst) => body ep inst s k w

/-- Body of the atomic words (R250). -/
def atomBody (i : Instr) (x : MF) (s : State) (k : Key) (w : Wave) : Eff :=
  withScope x (fun ep _ s k w => accBody i (w.act x.pr x.pn) ep (s.stampNow k) s k w) s k w

/-- ATOM (R249, R250). -/
def execAtom (op : AtomOp) (x : MF) (s : State) : Host.Outcome State Fault Refusal :=
  .next (s.issue (.atom op x) (memGate 0 (atomBody (.atom op x) x)))

/-- ATOMCAS (R251). -/
def execAtomcas (x : MF) (s : State) : Host.Outcome State Fault Refusal :=
  .next (s.issue (.atomcas x) (memGate 0 (atomBody (.atomcas x) x)))

/-- RED (R249, R250). -/
def execRed (op : AtomOp) (x : MF) (s : State) : Host.Outcome State Fault Refusal :=
  .next (s.issue (.red op x) (memGate 0 (atomBody (.red op x) x)))

-- Held accesses, performed later.

/-- The accesses of a held word as they were at its issue. -/
def HeldAcc.lanes (h : HeldAcc) : List LaneAcc :=
  (lanesOf h.mask).map fun l =>
    { lane := l.val, live := inMask h.live l, e := h.addrs[l], data := (h.data[l]).toNat }

/-- The first pending entry that waits for a held access receives its data. -/
def fillPend (rs : List Res) : List Pend → List Pend
  | [] => []
  | p :: r =>
    if !p.arrived && p.why.isNone then
      { p with arrived := true, data := match rs with | [] => p.data | d :: _ => if p.n = 0 then [] else d.data } :: r
    else p :: fillPend rs r

/-- The held accesses of a wave are issued again in program order until one misses, faults or waits. -/
def State.replayGo (s : State) (k : Key) : (fuel : Nat) → State
  | 0 => s
  | fuel + 1 =>
    let w := s.wave k
    match w.held with
    | [] => s
    | h :: rest =>
      match decodeWave (isReeveCore (coreOf k)) h.word with
      | .ok i =>
        let ls := h.lanes
        let keep (h : HeldAcc) (s : State) : State := s.modWave k fun w => { w with held := h :: rest }
        let h0 := { h with bad := none, fifo := false, dry := none }
        match trLanes k (accSize i) (accOf i) ls s with
        | .miss va =>
          match s.ctxOf k with
          | some c => (keep { h0 with va := va } s).reportMiss c va (.data k)
          | none => keep { h0 with va := va, bad := some .xlate } s
        | .bad c det _ => keep { h0 with va := det, bad := some c } s
        | .busy => keep { h0 with fifo := true } s
        | .ok s0 tr =>
          let s1 := s0.stampLanes i k tr
          let dry := s1.accDry i k h.dry.isSome tr
          if s1.accStuck (accOf i) i k tr || dry.isSome then keep { h0 with fifo := true, dry := dry } s1
          else
          match s1.accEcc (accOf i) i k tr with
          | some (l, s2) => keep { h0 with va := lineDet l, bad := some .eccfatal } s2
          | none =>
          let ls := s1.servedLanes (accOf i) k (accSize i) tr
          match s1.waitingLanes (accOf i) k (accSize i) ls with
          | [] =>
            let (vals, s2) := s1.accRun i k h.stamp h.epoch ls
            let rs := accRes i h.mask vals
            let s3 := (s2.dropOps .wave k).modWave k fun w => { w with held := rest, pend := fillPend rs w.pend }
            s3.replayGo k fuel
          | ws => keep { h0 with fifo := true }
              (ws.foldl (fun s a => s.sendPeer .wave k a.1.lane a.2.1 a.1.e.toNat (accOf i != .read) a.1.data (accSize i)) s1)
      | .clause | .access | .illegal => s

/-- The held accesses of a wave are issued again in program order (R374, R420); an access that waited as tokenless may be served as one
(R365). -/
def State.replay (s : State) (k : Key) (fuel : Nat) : State := (s.replayGo k fuel).settleDry (crewOf k)

/-- DELAYED_FAULT: the fault found for a wave's oldest held access is raised, attributed to its word without precision
(R419); the access stays held. -/
def execDelayedFault (w : Key) (s : State) : Host.Outcome State Fault Refusal :=
  .next <|
    match (s.wave w).held with
    | h :: _ =>
      match h.bad with
      | some c =>
        if (s.wave w).stopped && (isReeveCore (coreOf w)
            || (s.ctx (s.crew (crewOf w)).ctx).recs.any (fun r => r.eng == .wave && r.key == w && r.word == h.word))
        then s
        else s.raiseWave w c (BitVec.ofNat 64 h.va) h.word false false
      | none => s
    | [] => s

-- LDWATCH.

/-- How the reads of LDWATCH reach memory: from the cluster's caches, or at home (R252). -/
def watchAcc : Meet → Acc
  | .l1 | .cluster => .read
  | .home | .system => .rmw

/-- The value of one watched word, read at the meeting point (R252). -/
def State.watchLane (s : State) (k : Key) (meet : Meet) (pa home : Nat) : Nat × State :=
  let cl := clusterOf (coreOf k)
  if home = devHome then (s.devRead pa 4, s)
  else
    match meet with
    | .l1 | .cluster => (s.touch (s.ctxOf k) (coreOf k) 0 pa 4 home).lsuRead cl pa 4 home
    | .home | .system => (s.l2Touch (s.ctxOf k) pa 4 home).meetRead cl pa 4

/-- The reads of LDWATCH: the values by lane. -/
def watchLanes (k : Key) (meet : Meet) : List (LaneAcc × Nat × Nat) → State → Tab Nat × State
  | [], s => ([], s)
  | a :: r, s =>
    let (v, s1) := s.watchLane k meet a.2.1 a.2.2
    let (vs, s2) := watchLanes k meet r s1
    ((a.1.lane, v) :: vs, s2)

/-- The lanes of LDWATCH. -/
def ldwatchLanes (x : MF) (w : Wave) : List LaneAcc :=
  (lanesOf (w.act x.pr x.pn)).map fun l => { lane := l.val, live := w.lst[l] == .live, e := w.addrA x l, data := 0 }

/-- LDWATCH leaves: a live lane's value differs from its last seen value, or there is no live lane (R252). -/
def watchChanged (x : MF) (w : Wave) (vals : Tab Nat) : Bool :=
  let live := w.liveOf (w.act x.pr x.pn)
  live.isEmpty || live.any fun l => tget vals 0 l.val ≠ (w.rv x.d.toNat l).toNat

/-- The results of LDWATCH: values and the timeout indication. -/
def watchRes (x : MF) (m : LaneMask) (vals : Tab Nat) (tmo : Nat) : List Res :=
  [resV x.d.toNat 2 m fun l => tget vals 0 l.val + 2 ^ 32 * tmo]

/-- Answer of the reads of a LDWATCH: the values, a miss, a fault, or that a read waits for a clock or a peer. -/
inductive WatchRead
  | ok (s : State) (vals : Tab Nat)
  | miss (va : Nat)
  | fault (s : State) (cls : FClass) (det : Nat)
  | wait (s : State)

/-- The reads of a LDWATCH, each lane of M at the meeting point (R252, R384, R414). -/
def State.watchReads (s : State) (t : BitVec 4) (x : MF) (k : Key) (w : Wave) (meet : Meet) : WatchRead :=
  let i := Instr.ldwatch t x
  match trLanes k 4 .read (ldwatchLanes x w) s with
  | .miss va => .miss va
  | .busy => .wait s
  | .bad c det _ => .fault s c det
  | .ok s1 tr =>
    if s1.accStuck (watchAcc meet) i k tr then .wait s
    else
      match s1.accEcc (watchAcc meet) i k tr with
      | some (l, s2) => .fault s2 .eccfatal (lineDet l)
      | none =>
        let ls := s1.servedLanes (watchAcc meet) k 4 tr
        match s1.waitingLanes (watchAcc meet) k 4 ls with
        | [] =>
          let (vals, s2) := watchLanes k meet ls s1
          .ok (s2.dropOps .wave k) vals
        | ws => .wait (ws.foldl (fun s a => s.sendPeer .wave k a.1.lane a.2.1 a.1.e.toNat false 0 4) s1)

/-- Body of LDWATCH (R252). The deadline runs from its issue. -/
def ldwatchBody (t : BitVec 4) (x : MF) (ep : Word) (inst : ScopeInst) (s : State) (k : Key) (w : Wave) : Eff :=
  let m := w.act x.pr x.pn
  let dl := if t = 0 then none else some (s.reft + 2 ^ (t.toNat + 6))
  let late := lateRes (watchRes x m [] 0)
  if m = 0 then .done s []
  else
    match accFault 4 (ldwatchLanes x w) with
    | some (c, e) => .fault c e
    | none =>
      match s.watchReads t x k w inst.meet with
      | .fault s1 c det => .faultIn s1 c (BitVec.ofNat 64 det)
      | .miss va =>
        match s.ctxOf k with
        | none => .fault .xlate (BitVec.ofNat 64 va)
        | some c => .wait (s.reportMiss c va (.front k)) (.watchMiss va dl ep) late
      | .wait s1 => .wait s1 (.ldwatch dl ep) late
      | .ok s2 vals =>
        if watchChanged x w vals then
          .done (if ordAcq (mfOrd x) then s2.acquire (clusterOf (coreOf k)) inst else s2) (watchRes x m vals 0)
        else .wait s2 (.ldwatch dl ep) late

/-- LDWATCH (R252). -/
def execLdwatch (t : BitVec 4) (x : MF) (s : State) : Host.Outcome State Fault Refusal :=
  .next (s.issue (.ldwatch t x) (memGate 0 (withScope x (ldwatchBody t x))))

/-- LDWATCH_WAKE: a parked LDWATCH reads its words again and leaves if a value differs or its deadline is reached (R252);
where a page is no longer mapped it waits for the page, its deadline and epoch kept. -/
def execLdwatchWake (w : Key) (s : State) : Host.Outcome State Fault Refusal :=
  let v := s.wave w
  .next <|
    match v.park, v.parkI with
    | some (.ldwatch dl ep), some (.ldwatch t x) =>
      if v.stopped || !s.clockOn (coreOf w) then s
      else
        let inst := s.scopeInst w x.sc.toNat ep
        let word := (encodeWave (.ldwatch t x)).getD 0
        match s.watchReads t x w v inst.meet with
        | .fault s1 c det => s1.raiseWave w c (BitVec.ofNat 64 det) word
        | .miss va =>
          match s.ctxOf w with
          | none => s.raiseWave w .xlate (BitVec.ofNat 64 va) word
          | some c => (s.reportMiss c va (.front w)).modWave w fun y => { y with park := some (.watchMiss va dl ep) }
        | .wait s1 => s1
        | .ok s2 vals =>
          let late := match dl with | some d => decide (d ≤ s.reft) | none => false
          let changed := watchChanged x v vals
          if changed || late then
            (if ordAcq (mfOrd x) then s2.acquire (clusterOf (coreOf w)) inst else s2).finish w
              (watchRes x (v.act x.pr x.pn) vals (if changed then 0 else 1))
          else s2
    | _, _ => s

-- Fences.

/-- Body of FENCE (R253). -/
def fenceBody (x : MF) (_ : Word) (inst : ScopeInst) (s : State) (k : Key) (w : Wave) : Eff :=
  if w.act x.pr x.pn = 0 then .done s []
  else
    let cl := clusterOf (coreOf k)
    if ordRel (mfOrd x) && (inst.meet == .home || inst.meet == .system) && s.linkBusy cl then .hold
    else
    let s1 := if ordRel (mfOrd x) then (s.release cl inst).waveReleases k else s
    .done (if ordAcq (mfOrd x) then s1.acquire cl inst else s1) []

/-- FENCE (R253): ScopeCheck regardless of the mask. -/
def execFence (x : MF) (s : State) : Host.Outcome State Fault Refusal :=
  .next (s.issue (.fence x) (memGate 0 (withScope x (fenceBody x))))

/-- Ids of the copy commands of a wave that have not completed. -/
def State.waveCopies (s : State) (k : Key) : List Nat :=
  ((s.core (coreOf k)).copyq.filter fun e => e.cslot == cslotOf (crewOf k) && e.wave == waveIdOf k).map (·.id)

/-- What copies have written becomes visible on the core's other paths (R125, R132, R133, R135): clean bytes that its caches hold are
dropped, all of them (DESIGN CHOICE, log 57). -/
def State.seeCopies (s : State) (k : Key) : State := s.dropClean (clusterOf (coreOf k)) fun _ => true

/-- A fence that waits for copy commands: its slot counts until they are complete (R52, R254). -/
def fenceRes (ids : List Nat) : Res :=
  { file := .v, reg := 0, data := [], mask := BitVec.allOnes 32, arrived := false, why := some (.copies ids) }

/-- Body of PFENCE (R132, R254): with a = COPY the later path-b accesses wait for the wave's commands; LSU accesses are
performed already, and matrix accesses that the wave can have observed are complete. -/
def pfenceBody (x : MF) (s : State) (k : Key) (w : Wave) : Eff :=
  let a := x.d.toNat
  let b := x.ar.toNat
  let ids := s.waveCopies k
  if w.act x.pr x.pn = 0 || a ≠ 1 || b = 1 then .done s []
  else if ids = [] then .done (s.seeCopies k) []
  else .done (s.modWave k fun w => { w with fences := w.fences ++ [(b, ids)] }) [fenceRes ids]

/-- A copy command is over for its wave: the path fences that waited for it open (R254). -/
def Wave.copyOver (w : Wave) (id : Nat) : Wave :=
  { w with
    fences := (w.fences.map fun f => (f.1, f.2.filter (· ≠ id))).filter fun f => f.2 ≠ [],
    pend := w.pend.map fun p =>
      match p.why with
      | some (.copies ids) =>
        let left := ids.filter (· ≠ id)
        { p with why := some (.copies left), arrived := p.arrived || left.isEmpty }
      | _ => p }

/-- A copy command of a wave is over (R254). -/
def State.copyOver (s : State) (k : Key) (id : Nat) : State :=
  let s1 := s.modWave k fun w => w.copyOver id
  if (s.wave k).fences.any fun f => f.2.all (· == id) then s1.seeCopies k else s1

/-- PFENCE (R254). -/
def execPfence (x : MF) (s : State) : Host.Outcome State Fault Refusal :=
  .next (s.issue (.pfence x) (memGate 8 (pfenceBody x)))

-- Cache control and prefetch.

/-- The mapped parts of [va, va + n) that the access kind may use: address, bytes and HOME, page by page (R255, R257, R371); none
where a walk waits for a stopped clock (R318). -/
def rangeParts (c : Option Nat) (core : Nat) (a : Acc) : (pages va n : Nat) → State → Option (List (Nat × Nat × Nat) × State)
  | 0, _, _, s => some ([], s)
  | p + 1, va, n, s =>
    let len := min n (4096 - va % 4096)
    if n = 0 ∨ 2 ^ 57 ≤ va then some ([], s)
    else
      match s.translate c core va a with
      | .ok s1 pa home => (rangeParts c core a p (va + len) (n - len) s1).map fun r => ((pa, len, home) :: r.1, r.2)
      | .miss | .access | .ecc _ => rangeParts c core a p (va + len) (n - len) s
      | .busy => none

/-- The parts of the range that a wave-level range word names: base from AR and OFF, length from D. -/
def State.wordRange (s : State) (k : Key) (x : MF) (a : Acc) : Option (List (Nat × Nat × Nat) × State) :=
  let w := s.wave k
  let n := (w.rs x.d.toNat).toNat
  let e := (w.addrS x).toNat
  rangeParts (s.ctxOf k) (coreOf k) a (n / 4096 + 2) e n s

/-- A range word of no active lane does nothing; else it acts on the parts of its range. -/
def rangeBody (x : MF) (a : Acc) (f : List (Nat × Nat × Nat) → State → Eff) (s : State) (k : Key) (w : Wave) : Eff :=
  if w.act x.pr x.pn = 0 then .done s []
  else
    match s.wordRange k x a with
    | none => .hold
    | some (ps, s1) => f ps s1

/-- The line of an address overlaps a part. -/
def inParts (ps : List (Nat × Nat × Nat)) (pa : Nat) : Bool :=
  ps.any fun p => decide (p.1 / 128 ≤ pa / 128) && decide (pa / 128 ≤ (p.1 + p.2.1 - 1) / 128)

/-- Body of CFLUSH (R255). -/
def cflushBody (x : MF) (_ : Word) (inst : ScopeInst) (s : State) (k : Key) (w : Wave) : Eff :=
  rangeBody x .any (fun ps s1 =>
    match inst.meet with
    | .l1 | .cluster => .done s1 []
    | .home | .system =>
      if s1.linkBusy (clusterOf (coreOf k)) then .hold
      else .done (s1.writeBack (clusterOf (coreOf k)) fun a => inParts ps a && s1.covers inst a) []) s k w

/-- CFLUSH (R255). -/
def execCflush (x : MF) (s : State) : Host.Outcome State Fault Refusal :=
  .next (s.issue (.cflush x) (memGate 0 (withScope x (cflushBody x))))

/-- Instruction lines of a table that a CINV names: unpinned ones go, pinned ones are refilled from what the cluster sees of
memory as the next fetch comes to them (R104, R255). -/
def cinvLines (ps : List (Nat × Nat × Nat)) (t : Tab ILine) : Tab ILine :=
  t.filterMap fun e =>
    if inParts ps (e.1 * 128) then (if e.2.pins = [] then none else some (e.1, { e.2 with bytes := [] })) else some e

/-- Body of CINV (R255). -/
def cinvBody (x : MF) (_ : Word) (inst : ScopeInst) (s : State) (k : Key) (w : Wave) : Eff :=
  rangeBody x .any (fun ps s1 =>
    let cl := clusterOf (coreOf k)
    let s2 := match inst.meet with
      | .l1 | .cluster => s1
      | .home | .system => s1.dropClean cl fun a => inParts ps a && s1.covers inst a
    .done (s2.modPkg fun p =>
      { p with icore := tset p.icore (coreOf k) (cinvLines ps (tget p.icore [] (coreOf k))),
               iclus := tset p.iclus cl (cinvLines ps (tget p.iclus [] cl)) }) []) s k w

/-- CINV (R255). -/
def execCinv (x : MF) (s : State) : Host.Outcome State Fault Refusal :=
  .next (s.issue (.cinv x) (memGate 0 (withScope x (cinvBody x))))

/-- PREF of one lane (R256): the line is requested at the level, unless it cannot come; no fault and no park. -/
def State.prefLane (s : State) (lvl : PrefLvl) (k : Key) (e : Dword) : State :=
  let core := coreOf k
  let cl := clusterOf core
  if e.toNat / 2 ^ 57 ≠ 0 then s
  else
    match s.translate (s.ctxOf k) core e.toNat .read with
    | .ok s1 pa home =>
      let line := pa / 128
      if s1.fifoHeld (s.ctxOf k) core (line * 128) 128 home .read || (s1.eccLine cl (line * 128) 128 home .read).isSome then s1
      else
        let s2 := s1.l2Touch (s.ctxOf k) pa 128 home
        if lvl == .l2 || decide (2 ≤ home) then s2
        else
          let s3 := (s2.roomFor cl line).fillLine cl pa
          if lvl == .l1 then s3.l1Touch core line else s3
    | .miss | .access | .ecc _ | .busy => s

/-- PREF (R256). -/
def execPref (lvl : PrefLvl) (x : MF) (s : State) : Host.Outcome State Fault Refusal :=
  .next (s.issue (.pref lvl x) (memGate 0 fun s k w =>
    .done ((lanesOf (w.act x.pr x.pn)).foldl (fun s l => s.prefLane lvl k (w.addrV x l)) s) []))

/-- Lines of parts, those of pages that the caches keep (R100): with HOME. -/
def partLines (ps : List (Nat × Nat × Nat)) : List (Nat × Nat) :=
  ((ps.filter fun p => decide (p.2.2 < 2)).flatMap fun p =>
    (List.range ((p.1 + p.2.1 - 1) / 128 - p.1 / 128 + 1)).map fun i => (p.1 / 128 + i, p.2.2)).dedup

/-- Fetches an instruction line into a cluster's cache, or into a core's L1I as well (R103). -/
def State.icFetch (s : State) (c : Option Nat) (cc : Bool) (core line home : Nat) : State :=
  if s.fetchBad core line home || s.fetchHeld c core (line * 128) home then s
  else if cc then (s.clusterLine c (clusterOf core) line home).2
  else (s.fetchLine c core line home).2

/-- Lines that the crews of a core have pinned, both levels together (R103). -/
def State.pinned (s : State) (core : Nat) : Nat :=
  let mine (t : Tab ILine) : Nat := (t.filter fun e => e.2.pins.any fun c => coreOfCrew c == core).length
  mine (tget s.pkg.icore [] core) + mine (tget s.pkg.iclus [] (clusterOf core))

/-- The instruction-cache table of a level. -/
def State.icTab (s : State) (cc : Bool) (core : Nat) : Tab ILine :=
  if cc then tget s.pkg.iclus [] (clusterOf core) else tget s.pkg.icore [] core
/-- Replaces it. -/
def State.setIcTab (s : State) (cc : Bool) (core : Nat) (t : Tab ILine) : State :=
  s.modPkg fun p =>
    if cc then { p with iclus := tset p.iclus (clusterOf core) t } else { p with icore := tset p.icore core t }

/-- Pins a line for a crew, within the budget of 16 KiB; beyond it the line is counted and not pinned (R103). -/
def State.pinLine (s : State) (cc : Bool) (crew line : Nat) : State :=
  let core := coreOfCrew crew
  let t := s.icTab cc core
  match tfind t line with
  | none => s
  | some l =>
    if l.pins.contains crew then s
    else if (l.pins.any fun c => coreOfCrew c == core) || decide (s.pinned core < 128) then
      s.setIcTab cc core (tset t line { l with pins := l.pins ++ [crew] })
    else s.modCore core fun c => { c with pinDrop := c.pinDrop + 1 }

/-- Removes a crew's pins from the lines that satisfy p. -/
def State.unpin (s : State) (cc : Bool) (crew : Nat) (p : Nat → Bool) : State :=
  let core := coreOfCrew crew
  s.setIcTab cc core ((s.icTab cc core).map fun e =>
    if p e.1 then (e.1, { e.2 with pins := e.2.pins.filter (· ≠ crew) }) else e)

/-- Body of ICPRE and ICPIN (R103, R257). -/
def icBody (cc pin : Bool) (x : MF) (s : State) (k : Key) (w : Wave) : Eff :=
  rangeBody x .fetch (fun ps s1 =>
    .done ((partLines ps).foldl (fun s l =>
      let s2 := s.icFetch (s.ctxOf k) cc (coreOf k) l.1 l.2
      if pin then s2.pinLine cc (crewOf k) l.1 else s2) s1) []) s k w

/-- ICPRE (R257). -/
def execIcpre (cc : Bool) (x : MF) (s : State) : Host.Outcome State Fault Refusal :=
  .next (s.issue (.icpre cc x) (memGate 0 (icBody cc false x)))

/-- ICPIN (R257). -/
def execIcpin (cc : Bool) (x : MF) (s : State) : Host.Outcome State Fault Refusal :=
  .next (s.issue (.icpin cc x) (memGate 0 (icBody cc true x)))

/-- Body of ICUNPIN (R257). -/
def icunpinBody (cc : Bool) (x : MF) (s : State) (k : Key) (w : Wave) : Eff :=
  rangeBody x .fetch (fun ps s1 => .done (s1.unpin cc (crewOf k) fun l => inParts ps (l * 128)) []) s k w

/-- ICUNPIN (R257). -/
def execIcunpin (cc : Bool) (x : MF) (s : State) : Host.Outcome State Fault Refusal :=
  .next (s.issue (.icunpin cc x) (memGate 0 (icunpinBody cc x)))

end Sys2Proof.Machine
end

