-- ==== Sys2Proof/Machine/Copy.lean ====
section
/-! DEFINITION. The copy engine (R222, R260 to R272, R383) and the operand-buffer reservations (R94, R95, R258, R259). -/

namespace Sys2Proof.Machine

-- The checks of the fourth push.

/-- Bits [hi:lo] of a word are zero. -/
def zeroBits (w : Dword) (hi lo : Nat) : Bool := bits w hi lo == 0

/-- An address word names only the bits of its space (R262). -/
def addrWordOk (space : Nat) (w : Dword) : Bool := if space = 1 then zeroBits w 63 18 else zeroBits w 63 57

/-- LEN of kinds 0 and 4 is in its range (R263). -/
def lenOk (n : Nat) : Bool := decide (4 ≤ n) && decide (n ≤ 0xFFFFFFFC)

end Sys2Proof.Machine
namespace Sys2Proof
open Machine

/-- The ILLEGAL cases of R268 that depend on the words alone do not hold; a transpose whose rows are a multiple of 4 bytes that its
element size does not divide, whose columns are none, or whose destination rows are no multiple of 4 bytes (R264), is out of range with
them (DEDUCED, log 13). -/
def CopyCmd.formOk (c : CopyCmd) : Bool :=
  let ssp := c.ssp.toNat
  let dsp := c.dsp.toNat
  (if c.we then decide (1 ≤ c.wcnt.toNat) && decide (c.wcnt.toNat ≤ 33) else c.weir == 0 && c.wcnt == 0) &&
  match c.kind.toNat with
  | 0 => decide (ssp ≤ 1) && decide (dsp ≤ 1) && c.kf == 0 && c.kx == 0 && c.kw == 0 && addrWordOk ssp c.w1
      && addrWordOk dsp c.w2 && zeroBits c.w3 63 32 && lenOk c.len
  | 1 => decide (ssp ≤ 1) && decide (dsp ≤ 1) && !c.kf.getLsbD 0 && addrWordOk ssp c.w1 && addrWordOk dsp c.w2
      && decide (4 ≤ c.rowb) && decide (c.rowb ≤ 65532) && decide (1 ≤ c.rows) && (c.tr || c.esz == 4)
      && (!c.tr || ((c.rowb % 4 != 0 || c.rowb % c.esz == 0) && c.drow % 4 == 0)) && decide (c.drow + 4 * c.padw ≤ c.dstr)
  | 2 => ssp == 0 && decide (dsp ≤ 1) && c.kf == 0 && c.kw == 0 && addrWordOk 0 c.w1 && addrWordOk dsp c.w2
      && zeroBits c.w3 63 50 && zeroBits c.w3 31 20 && decide (1 ≤ c.count)
  | 3 => ssp == 0 && dsp == 2 && c.kf.extractLsb' 0 2 == 0 && c.kx == 0 && addrWordOk 0 c.w1
      && zeroBits c.w2 63 52 && zeroBits c.w2 47 9 && zeroBits c.w3 63 48 && zeroBits c.w3 39 32
      && decide (1 ≤ c.lines) && (!c.fold || c.conv)
  | 4 => ssp == 0 && dsp == 0 && c.kf.extractLsb' 0 3 == 0 && c.kx.extractLsb' 4 4 == 0 && c.kw == 0
      && addrWordOk 0 c.w1 && addrWordOk 0 c.w2 && zeroBits c.w3 63 32 && lenOk c.len
  | _ => false

/-- Addresses, lengths and strides that must be multiples of 4 (R268). -/
def CopyCmd.aligned (c : CopyCmd) : List Nat :=
  match c.kind.toNat with
  | 1 => [c.src, c.dst, c.rowb, c.sstr, c.dstr]
  | 2 => [c.src, c.dst, c.ixa]
  | 3 => [c.src, c.lstr]
  | _ => [c.src, c.dst, c.len]

/-- Scratchpad byte ranges that a command names: start and end. K is the number of smoothing words (R266). -/
def CopyCmd.spRanges (c : CopyCmd) (k : Nat) : List (Nat × Nat) :=
  let srcEnd := if c.kind = 1 then c.src + (c.rows - 1) * c.sstr + c.rowb else c.src + c.len
  let dstEnd :=
    match c.kind.toNat with
    | 1 => c.dst + (c.drows - 1) * c.dstr + c.drow + 4 * c.padw
    | 2 => c.dst + c.count * c.eb
    | _ => c.dst + c.len
  (if c.ssp = 1 then [(c.src, srcEnd)] else []) ++ (if c.dsp = 1 then [(c.dst, dstEnd)] else [])
    ++ (if c.kind = 2 then [(c.ixa, c.ixa + 4 * c.count)] else [])
    ++ (if c.kind = 3 && c.fold then [(4 * c.smw, 4 * c.smw + 4 * k)] else [])

end Sys2Proof
namespace Sys2Proof.Machine

/-- A reservation record of a core. -/
def CoreSt.obRecOf (c : CoreSt) (n : Nat) : ObRec := tget c.obrec {} n

/-- Peers in the list of a wave's polder; firmware has none. -/
def State.peerCount (s : State) (k : Key) : Nat :=
  match s.ctxOf k with | some c => s.peerLen (polderOf c) | none => 0

/-- Smoothing words of a line: K of R266, 0 for the formats that CONV does not take. -/
def foldWords (fmt : Nat) : Nat := if fmt ≤ 1 then 32 else if fmt ≤ 3 then 64 else 0

/-- The first check of R268 that a command fails, with its detail; none if it is accepted. -/
def State.copyCheck (s : State) (k : Key) (c : CopyCmd) : Option (FClass × Dword) :=
  let limit := (s.crew (crewOf k)).spLimit
  let r := (s.core (coreOf k)).obRecOf c.res
  let mine := r.v && r.own == cslotOf (crewOf k)
  if !c.formOk then some (.illegal, 0)
  else
    match c.aligned.find? fun a => a % 4 ≠ 0 with
    | some a => some (.align, BitVec.ofNat 64 a)
    | none =>
      if c.kind = 3 && (!mine || decide (r.len < c.uoff + (c.lines + 3) / 4)) then some (.access, BitVec.ofNat 64 c.res)
      else
        match (c.spRanges (foldWords r.fmt)).find? fun p => decide (limit < p.2) with
        | some p => some (.access, BitVec.ofNat 64 (max p.1 limit))
        | none =>
          if c.kind = 4 && decide (s.peerCount k ≤ c.peer) then some (.access, BitVec.ofNat 64 c.peer)
          else if c.kind = 3 && c.conv && decide (4 ≤ r.fmt) then some (.illegal, 0)
          else none

-- Acceptance.

/-- Commands of a wave with TK = 1 whose tokens it has not popped (R260). -/
def State.tkOut (s : State) (k : Key) : Nat :=
  (s.wave k).tokens.length +
    ((s.core (coreOf k)).copyq.filter fun e =>
      e.cslot == cslotOf (crewOf k) && e.wave == waveIdOf k && e.cmd.tk && e.st != .posted).length

end Sys2Proof.Machine
namespace Sys2Proof
open Machine

/-- The scratchpad words that a command writes (R89). -/
def CopyCmd.dstWords (c : CopyCmd) : List Nat :=
  if c.dsp = 1 then (List.range (c.total / 4)).map fun i => c.dstAt 0 (4 * i) / 4 else []

end Sys2Proof
namespace Sys2Proof.Machine

/-- R89 at acceptance: every destination word EMPTY, every destination bank awake or waking. -/
def State.fillBegin (s : State) (k : Key) (c : CopyCmd) : State :=
  let ck := crewOf k
  let s1 := s.modCrew ck fun x => c.dstBanks.foldl (fun x b =>
    let y := x.bank b
    x.setBank b (if y.st == .full then { y with idle := none } else { y with waking := true, idle := none })) x
  c.dstWords.foldl (fun s n =>
    let y := (s.crew ck).word n
    if y.full then s.putWord ck n { y with full := false } else s) s1

/-- The copy engine of a core has stopped for a context at its floodgate (R375). -/
def State.copyHalted (s : State) (c core : Nat) : Bool :=
  (s.ctx c).up && (s.ctx c).recs.any fun r => r.eng == .copy && r.key == core

/-- A command enters the queue (R260); it carries the unit and format of its record (R266). An engine that has stopped for the
context does not start it (R270). -/
def State.copyAccept (s : State) (k : Key) (c : CopyCmd) : State :=
  let r := (s.core (coreOf k)).obRecOf c.res
  let halted := match s.ctxOf k with | some x => s.copyHalted x (coreOf k) | none => false
  let s1 := s.modCore (coreOf k) fun x =>
    { x with copyId := x.copyId + 1,
             q0wait := x.q0wait.filter (· ≠ k),
             copyq := x.copyq ++ [{ cmd := c, cslot := cslotOf (crewOf k), wave := waveIdOf k, id := x.copyId,
                                    base := r.base, fmt := r.fmt, stopped := halted }] }
  (s1.modWave k fun w => { w with stage := [] }).fillBegin k c

/-- Waves that wait for space in the queue, those of stopped waves apart. -/
def State.q0first (s : State) (core : Nat) : Option Key :=
  (s.core core).q0wait.find? fun k => !(s.wave k).stopped

/-- A fourth push finds room: space in the queue, and no wave that has waited for space longer (R260). -/
def State.q0room (s : State) (k : Key) : Bool :=
  decide ((s.core (coreOf k)).copyq.length < 64) &&
    match s.q0first (coreOf k) with
    | none => true
    | some h => h == k

/-- An acquire of the wave is held: a copy command pushed after it is an access after it in program order (R118). -/
def Wave.heldAcquire (w : Wave) : Bool :=
  w.held.any fun h => match decodeWave false h.word with | .ok i => accAcquires i | _ => false

/-- Body of `mov.b64 q0` (R222, R260): a push under a mask without a live lane is discarded (R12, log 12); with LOOK it
opens a window that has no destination (R50). -/
def q0Body (x : VF) (s : State) (k : Key) (w : Wave) : Eff :=
  let v : Dword := BitVec.ofNat 64 (w.rsn x.a.toNat 2)
  let win : List Res := if x.look = 0 then [] else [{ file := .v, reg := 0, data := [], mask := BitVec.allOnes 32 }]
  if w.act x.pr x.pn &&& w.liveMask = 0 then .done s []
  else
    match w.stage with
    | [w0, w1, w2] =>
      let c := unpackCopy w0 w1 w2 v
      match s.copyCheck k c with
      | some (cls, det) => .fault cls det
      | none =>
        if w.heldAcquire then (if w.missHeld then .park s .miss else .hold)
        else if w.fabricFence c then .hold
        else if 16 ≤ s.tkOut k then .park s .q0
        else if s.q0room k then .done (s.copyAccept k c) win
        else
          .park (s.modCore (coreOf k) fun y =>
            if y.q0wait.contains k then y else { y with q0wait := y.q0wait ++ [k] }) .q0
    | ws => .done (s.modWave k fun w => { w with stage := ws ++ [v] }) win

/-- MOV_Q0_PUSH (R260). -/
def execMovQ0Push (x : VF) (s : State) : Host.Outcome State Fault Refusal := .next (s.issue (.movQ0Push x) (q0Body x))

/-- A wave has a command with TK = 1 whose token is still to come. -/
def State.tkComing (s : State) (k : Key) : Bool := decide ((s.wave k).tokens.length < s.tkOut k)

/-- What a pop answers when no command with TK = 1 is outstanding: STAT 2 (R271, R272). -/
def noToken : Nat := 0x200000000000

/-- Body of `mov.b64 sD:, q1` (R272). -/
def q1Body (x : VF) (s : State) (k : Key) (w : Wave) : Eff :=
  let m := w.act x.pr x.pn
  if m = 0 then .done s []
  else
    match w.tokens with
    | t :: r => .done (s.modWave k fun w => { w with tokens := r }) [resS x.d.toNat 2 m t.toNat]
    | [] => if s.tkComing k then .park s .q1 else .done s [resS x.d.toNat 2 m noToken]

/-- MOV_Q1_POP (R272). -/
def execMovQ1Pop (x : VF) (s : State) : Host.Outcome State Fault Refusal := .next (s.issue (.movQ1Pop x) (q1Body x))

-- Beats.

/-- Context of an entry's crew; none on a reeve core. -/
def State.copyCtx (s : State) (core : Nat) (e : CopyEnt) : Option Nat :=
  if isReeveCore core then none else some (s.crew (crewKey core e.cslot)).ctx

/-- A fault of the copy engine at a command (R270); on a reeve core it is taken by the wave that pushed it (R331). -/
def State.faultCopy (s : State) (core pos : Nat) (cls : FClass) (det : Dword) : State :=
  match (s.core core).copyq[pos]? with
  | none => s
  | some e =>
    if isReeveCore core then
      (s.modCore core fun x => { x with copyq := x.copyq.modify pos fun y => { y with stopped := true } }).raiseWave
        (waveKey (crewKey core e.cslot) e.wave) cls det (packCopyW0 e.cmd) false false
    else s.raiseCopy core pos cls det

/-- What keeps an access of a beat or of a stream word from being performed: a miss, ACCESS, a line that cannot be corrected
(R384), a crossing FIFO of a die that relocks (R318), a controller without a token (R365), or a peer that does not respond now (R414). -/
inductive Halt
  | miss (va : Nat)
  | access (va : Nat)
  | ecc (line : Nat)
  | busy
  | dry (at' : Nat × Nat)
  | peer (pa va : Nat) (write : Bool)

/-- What a read or a translation of a beat answers. -/
inductive BeatRes (α : Type)
  | ok (s : State) (v : α)
  | halt (h : Halt)

/-- What stands in the way of an access to n bytes at an address on the bus, the engine's own being va, by an engine of a core; `again` says that it has waited as
tokenless, `forced` that its peer has answered. -/
def State.inTheWay (s : State) (c : Option Nat) (core pa va n home : Nat) (a : Acc) (again forced : Bool) : Option Halt :=
  if s.fifoHeld c core pa n home a then some .busy
  else if !forced && s.portDown c pa && s.atHome (clusterOf core) pa n home a then some (.peer pa va (a == .write))
  else
    match (s.asksToken c core pa n home a).filter fun x => s.dryFor again x 1 with
    | some x => some (.dry x)
    | none => (s.eccLine (clusterOf core) pa n home a).map .ecc

/-- n bytes of the global space as a copy source (R269): through the cluster cache of the core. -/
def State.copyRead (s : State) (c : Option Nat) (core va n : Nat) (again forced : Bool) : BeatRes Nat :=
  if 2 ^ 57 ≤ va then .halt (.access va)
  else
    match s.translate c core va .read with
    | .miss => .halt (.miss va)
    | .access => .halt (.access va)
    | .ecc l => .halt (.ecc l)
    | .busy => .halt .busy
    | .ok s1 pa home =>
      match s1.inTheWay c core pa va n home .read again forced with
      | some h => .halt h
      | none =>
      let s2 := s1.touchL2 c core pa n home
      let (v, s3) := (if 2 ≤ home then s2 else s2.roomFor (clusterOf core) (pa / 128)).lsuRead (clusterOf core) pa n home
      .ok s3 v

/-- Base of a peer's window (R407). -/
def peerBase (n : Nat) : Nat := 0xC000000000000 + n * 0x100000000000

/-- n bytes of a peer's window as a source (R267): the peer must be one of the polder's. -/
def State.peerRead (s : State) (c : Option Nat) (peer va n : Nat) : BeatRes Nat :=
  match c with
  | none => .halt (.access va)
  | some c =>
    let a := s.busOf (some c) (peerBase peer + va)
    if 2 ^ 44 ≤ va || !s.peerValid (polderOf c) peer then .halt (.access va)
    else .ok (s.charge (some c) a n) (ofBytes (s.homeBytes a n))

/-- A word of the crew's scratchpad as a plain LDS reads it (R87, R269): its bank wakes. -/
def State.copySp (s : State) (ck : Key) (a : Nat) : State × Nat :=
  (s.modCrew ck fun c => c.spWake (a / 8192), ((s.crew ck).word (a / 4)).data.toNat)

/-- n bytes of a source space. -/
def State.copySrc (s : State) (e : CopyEnt) (core a n : Nat) : BeatRes Nat :=
  if e.cmd.ssp = 1 then
    let (s1, v) := s.copySp (crewKey core e.cslot) a
    .ok s1 (v / 2 ^ (8 * (a % 4)) % 2 ^ (8 * n))
  else if e.cmd.kind = 4 && e.cmd.dir then s.peerRead (s.copyCtx core e) e.cmd.peer a n
  else s.copyRead (s.copyCtx core e) core a n e.dry.isSome (s.answered .copy core e.id)

/-- Pieces of a value read one after another, the first lowest; `n` bytes each. -/
def readPieces (f : Nat → State → BeatRes Nat) (n : Nat) : List Nat → State → BeatRes Nat
  | [], s => .ok s 0
  | a :: r, s =>
    match f a s with
    | .ok s1 v =>
      match readPieces f n r s1 with
      | .ok s2 u => .ok s2 (v + 2 ^ (8 * n) * u)
      | .halt h => .halt h
    | .halt h => .halt h

/-- Format of the elements of an operand load (R94). -/
def obFmt (fmt : Nat) : Fmt := match fmt with | 0 => fmt16 | 1 => fmtBf | 2 => fmtE4 | _ => fmtE5

/-- An element that a converting load writes (R266, R68, R69): `sc` is the smoothing word of FOLD. -/
def convElem (fmt : Nat) (x : Nat) (sc : Option Nat) : Nat :=
  let f := obFmt fmt
  let v := fdecode fmt32 x
  let scaled (s : Dy) : Nat :=
    match v with
    | .nan _ => canonNaN f
    | .inf neg => if f.inf then finf f neg else canonNaN f
    | .zero neg => fzero f neg
    | .fin y => (roundTo f .rne (Dy.mul y s)).1
  match sc with
  | none => scaled (Dy.int 1)
  | some w =>
    if w < 0x80000000 && decide (0x00800000 ≤ w) && decide (w < 0x7F800000) then scaled (fdecode fmt32 w).real else canonNaN f

/-- The element with index k of a line and FP32 address a. -/
def State.convAt (s : State) (e : CopyEnt) (core k a : Nat) : BeatRes Nat :=
  match s.copySrc e core a 4 with
  | .ok s1 x =>
    if e.cmd.fold then
      let (s2, w) := s1.copySp (crewKey core e.cslot) (4 * (e.cmd.smw + k))
      .ok s2 (convElem e.fmt x (some w))
    else .ok s1 (convElem e.fmt x none)
  | .halt h => .halt h

/-- The destination word at destination byte n (a multiple of 4) of a command, read from its source, unless another beat has read it with
its aligned 64-bit part (R136). -/
def State.copyWord (s : State) (e : CopyEnt) (core n : Nat) : BeatRes Nat :=
  let c := e.cmd
  match tfind e.carry n with
  | some v => .ok s v.toNat
  | none =>
  match c.kind.toNat with
  | 2 =>
    let (s1, ix) := s.copySp (crewKey core e.cslot) (c.ixa + 4 * (n / c.eb))
    s1.copySrc e core ((c.src + ix * c.eb + n % c.eb) % 2 ^ 57) 4
  | 3 =>
    if c.conv then
      let es := if e.fmt ≤ 1 then 2 else 1
      readPieces (fun j s => s.convAt e core (n % 64 / es + j) ((c.srcAt e.fmt (n + es * j)).getD 0)) es
        (List.range (4 / es)) s
    else s.copySrc e core ((c.srcAt e.fmt n).getD 0) 4
  | _ =>
    match c.srcAt e.fmt n with
    | none => .ok s 0
    | some a =>
      if c.tr && decide (c.esz < 4) then
        readPieces (fun j s => s.copySrc e core ((c.srcAt e.fmt (n + c.esz * j)).getD 0) c.esz) c.esz
          (List.range (4 / c.esz)) s
      else s.copySrc e core a 4

/-- Source address of the destination word at destination byte n, where that word is one word of its source. -/
def State.srcOf (s : State) (e : CopyEnt) (core n : Nat) : Option Nat :=
  let c := e.cmd
  match c.kind.toNat with
  | 2 =>
    let ix := ((s.crew (crewKey core e.cslot)).word ((c.ixa + 4 * (n / c.eb)) / 4)).data.toNat
    some ((c.src + ix * c.eb + n % c.eb) % 2 ^ 57)
  | 3 => if c.conv then none else c.srcAt e.fmt n
  | _ => if c.tr && decide (c.esz < 4) then none else c.srcAt e.fmt n

/-- The destination byte of the word that shares an aligned 64-bit part of a global source with the word at destination byte n. -/
def State.otherHalf (s : State) (e : CopyEnt) (core n : Nat) : Option Nat :=
  match s.srcOf e core n with
  | none => none
  | some a =>
    let (m, b) := if a % 8 = 0 then (n + 4, a + 4) else (n - 4, a - 4)
    if e.cmd.ssp = 0 && (a % 8 == 0 || decide (4 ≤ n)) && decide (m < e.cmd.total) && s.srcOf e core m == some b then some m else none

/-- The other halves of aligned 64-bit source parts of which a beat has read one, for the beats that write them (R136). -/
def State.carryOver (s : State) (e : CopyEnt) (core : Nat) (ns : List Nat) : Tab Word :=
  ((ns.head?.toList ++ ns.getLast?.toList).filterMap fun n => s.otherHalf e core n).foldl
    (fun t m =>
      if ns.contains m || (tfind t m).isSome then t
      else match s.copyWord e core m with
        | .ok _ v => tset t m (BitVec.ofNat 32 v)
        | .halt _ => t) (e.carry.filter fun x => !ns.contains x.1)

/-- Where a destination word goes: an address on the bus with HOME for the global space, else the address itself. -/
def State.copyDst (s : State) (e : CopyEnt) (core n : Nat) : BeatRes (Nat × Nat) :=
  let a := e.cmd.dstAt e.base n
  let c := s.copyCtx core e
  if e.cmd.dsp ≠ 0 then .ok s (a, 0)
  else if e.cmd.kind = 4 && !e.cmd.dir then
    match c with
    | none => .halt (.access a)
    | some x =>
      if 2 ^ 44 ≤ a || !s.peerValid (polderOf x) e.cmd.peer then .halt (.access a) else .ok s (s.busOf c (peerBase e.cmd.peer + a), 3)
  else if 2 ^ 57 ≤ a then .halt (.access a)
  else
    match s.translate c core a .write with
    | .miss => .halt (.miss a)
    | .access => .halt (.access a)
    | .ecc l => .halt (.ecc l)
    | .busy => .halt .busy
    | .ok s1 pa home =>
      match s1.inTheWay c core pa a 4 3 .write e.dry.isSome (s.answered .copy core e.id) with
      | some h => .halt h
      | none => .ok s1 (pa, home)

/-- The words of a beat with where they go: every source and destination is translated before any word is written. -/
def beatWords (e : CopyEnt) (core : Nat) : List Nat → State → BeatRes (List ((Nat × Nat) × Nat))
  | [], s => .ok s []
  | n :: r, s =>
    match s.copyWord e core n with
    | .halt h => .halt h
    | .ok s1 v =>
      match s1.copyDst e core n with
      | .halt h => .halt h
      | .ok s2 d =>
        match beatWords e core r s2 with
        | .ok s3 ws => .ok s3 ((d, v) :: ws)
        | .halt h => .halt h

/-- Bytes that a cluster has written and a copy overwrites at home are coherence-earlier: they stay in its caches as clean copies,
which a wave may read until a fence or an acquire (R107, R135). -/
def State.passBytes (s : State) (cl pa n : Nat) : State :=
  s.setDcache cl ((s.dcache cl).map fun e =>
    if decide (pa ≤ e.1) && decide (e.1 < pa + n) then (e.1, { e.2 with dirty := false }) else e)

/-- Number of a core's copy command as an agent that writes (R104). -/
def copyAgent (core id : Nat) : Nat := id * 256 + core
/-- Number of a command as an agent that writes. -/
def CopyEnt.agent (e : CopyEnt) (core : Nat) : Nat := copyAgent core e.id

/-- Writes one destination word (R269): at home, into the scratchpad with its tag FULL (R89), or into the operand buffer. -/
def State.copyPut (s : State) (e : CopyEnt) (core : Nat) (p : (Nat × Nat) × Nat) : State :=
  let a := p.1.1
  match e.cmd.dsp.toNat with
  | 0 =>
    let c := s.copyCtx core e
    let cl := clusterOf core
    ((((s.noteStore .copy (e.agent core) cl (a / 128)).l2Touch c a 4 p.1.2).homeStore c a (bytesOf p.2 4))).passBytes cl a 4
  | 1 =>
    let ck := crewKey core e.cslot
    (s.modCrew ck fun c => c.spWake (a / 8192)).putWord ck (a / 4) { data := BitVec.ofNat 32 p.2, full := true }
  | _ => s.modCore core fun c =>
      { c with ob := (List.range 4).foldl (fun t i => tset t (a + i) (BitVec.ofNat 8 (p.2 >>> (8 * i)))) c.ob }

end Sys2Proof.Machine
namespace Sys2Proof
open Machine

/-- Words of a beat, by their first destination byte. -/
def CopyCmd.beatStarts (c : CopyCmd) (b : Nat) : List Nat := (c.beatBytes b).filter fun n => n % 4 == 0

end Sys2Proof
namespace Sys2Proof.Machine

/-- Scratchpad banks that a beat touches (R93). -/
def CopyEnt.beatBanks (e : CopyEnt) (b : Nat) : List Nat :=
  let c := e.cmd
  let ns := c.beatStarts b
  let src := if c.ssp = 1 then ns.filterMap fun n => (c.srcAt e.fmt n).map (· / 8192) else []
  let dst := if c.dsp = 1 then ns.map fun n => c.dstAt 0 n / 8192 else []
  let ix := if c.kind = 2 then ns.map fun n => (c.ixa + 4 * (n / c.eb)) / 8192 else []
  let sm := if c.kind = 3 && c.fold then (List.range (foldWords e.fmt)).map fun k => 4 * (c.smw + k) / 8192 else []
  (src ++ dst ++ ix ++ sm).dedup

/-- Lines of the global space that a beat writes whole, from where its words go. -/
def CopyEnt.wholeLines (e : CopyEnt) (ds : List Nat) : List Nat :=
  if e.cmd.dsp ≠ 0 then []
  else ((ds.map (· / 128)).dedup).filter fun l => (List.range 32).all fun i => ds.contains (l * 128 + 4 * i)

/-- Replaces an entry of a core's queue. -/
def State.modCopy (s : State) (core pos : Nat) (f : CopyEnt → CopyEnt) : State :=
  s.modCore core fun x => { x with copyq := x.copyq.modify pos f }

/-- The peer of a remote command does not respond now (R414): its beats wait. -/
def State.copyPortDown (s : State) (core : Nat) (e : CopyEnt) : Bool :=
  e.cmd.kind = 4 && s.portDown (s.copyCtx core e) (s.busOf (s.copyCtx core e) (peerBase e.cmd.peer))

/-- An entry of a core's queue waits as tokenless at a controller, or no longer (R365). -/
def State.copyDry (s : State) (core pos : Nat) (e : CopyEnt) (d : Option (Nat × Nat)) : State :=
  if e.dry = d then s else (s.modCopy core pos fun e => { e with dry := d }).settleDry (crewKey core e.cslot)

/-- The peer operation of a command is done with. -/
def State.dropCopyOp (s : State) (core id : Nat) : State :=
  if (s.peerOp .copy core id).isNone then s
  else s.modPkg fun p => { p with peerOps := p.peerOps.filter fun o => !(o.eng == .copy && o.key == core && o.lane == id) }

/-- The next beat of a command: the first that is not performed. -/
def CopyEnt.nextBeat (e : CopyEnt) : Nat := (((List.range 16).map (e.mark + ·)).find? fun b => !e.did b).getD e.mark

/-- Performs one beat (R269): a bank found wrong at its wake is RETLOSS (R93), a miss parks the command at the beat, a bad
access faults it (R270); a beat for a peer that does not respond waits for its answer (R414). -/
def State.beat (s : State) (core pos b : Nat) : State :=
  match (s.core core).copyq[pos]? with
  | none => s
  | some e =>
    let ck := crewKey core e.cslot
    let ns := e.cmd.beatStarts b
    if !s.clockOn core || e.st != .running || e.stopped || e.did b || decide (e.cmd.beats ≤ b) || decide (e.mark + 16 ≤ b) then s
    else
      match firstLost (s.crew ck) (e.beatBanks b) with
      | some k => (s.modCrew ck fun c => c.spOff k).faultCopy core pos .retloss (spLossDet k)
      | none =>
        if s.copyPortDown core e && !s.answered .copy core e.id then
          let va := (if e.cmd.dir then e.cmd.src else e.cmd.dst) + 256 * b
          s.sendPeer .copy core e.id (s.busOf (s.copyCtx core e) (peerBase e.cmd.peer + va)) va (!e.cmd.dir) 0 256
        else
          match beatWords e core ns s with
          | .halt .busy => s
          | .halt (.dry d) => s.copyDry core pos e (some d)
          | .halt (.peer pa va w) => s.sendPeer .copy core e.id pa va w 0 256
          | .halt (.ecc l) => (s.discardBad (clusterOf core) l).faultCopy core pos .eccfatal (BitVec.ofNat 64 (lineDet l))
          | .halt (.access va) => s.faultCopy core pos .access (BitVec.ofNat 64 va)
          | .halt (.miss va) =>
            match s.copyCtx core e with
            | none => s.faultCopy core pos .xlate (BitVec.ofNat 64 va)
            | some c => (s.modCopy core pos fun e => { e with st := .missed, missVa := va }).reportMiss c va (.copy core e.id)
          | .ok s1 ws =>
            let s2 := (ws.foldl (fun s p => s.copyPut e core p) s1).heal (e.wholeLines (ws.map (·.1.1)))
            let carry := s1.carryOver e core ns
            ((s2.modCopy core pos fun e => { e.mark1 b with carry := carry }).dropCopyOp core e.id).copyDry core pos e none

/-- The beats of a command that are still to be performed, in order, as far as they go. -/
def State.beats (s : State) (core pos : Nat) (kind : Nat) : State :=
  match (s.core core).copyq[pos]? with
  | none => s
  | some e =>
    if e.cmd.kind.toNat ≠ kind then s
    else (List.range (e.cmd.beats - e.mark)).foldl (fun s i => s.beat core pos (e.mark + i)) s

/-- COPY_1D: the 1-D command moves its data (R263). -/
def execCopy1d (core pos : Nat) (s : State) : Host.Outcome State Fault Refusal := .next (s.beats core pos 0)
/-- COPY_2D: the 2-D command moves its data (R264). -/
def execCopy2d (core pos : Nat) (s : State) : Host.Outcome State Fault Refusal := .next (s.beats core pos 1)
/-- COPY_GATHER: the gather moves its data (R265). -/
def execCopyGather (core pos : Nat) (s : State) : Host.Outcome State Fault Refusal := .next (s.beats core pos 2)
/-- COPY_OPERAND_LOAD: the operand load moves its data (R266). -/
def execCopyOperandLoad (core pos : Nat) (s : State) : Host.Outcome State Fault Refusal := .next (s.beats core pos 3)
/-- COPY_REMOTE: the remote copy moves its data (R267). -/
def execCopyRemote (core pos : Nat) (s : State) : Host.Outcome State Fault Refusal := .next (s.beats core pos 4)
/-- COPY_BEAT_DONE: one beat of a running command is performed (R269, R383). -/
def execCopyBeatDone (core pos beat : Nat) (s : State) : Host.Outcome State Fault Refusal := .next (s.beat core pos beat)

/-- COPY_COMMAND_START: the oldest command not yet started starts, if fewer than four run (R260) and its context's floodgate is
down (R270). -/
def execCopyCommandStart (core : Nat) (s : State) : Host.Outcome State Fault Refusal :=
  let q := (s.core core).copyq
  .next <|
    if !s.clockOn core || decide (4 ≤ (q.filter fun e => e.st != .queued).length) then s
    else
      match q.findIdx? fun e => e.st == .queued && !e.stopped
          && (match s.copyCtx core e with | some c => !(s.ctx c).up | none => true) with
      | none => s
      | some pos => s.modCopy core pos fun e => { e with st := .running }

end Sys2Proof.Machine
namespace Sys2Proof
open Machine

/-- Token of a completed command (R271). -/
def CopyCmd.token (c : CopyCmd) : Dword := BitVec.ofNat 64 (c.tag.toNat * 2 ^ 48 + c.total % 2 ^ 32)

end Sys2Proof
namespace Sys2Proof.Machine

/-- A command is over: it leaves the queue, what it has written is released (R104), and the path fences that waited for it open (R254). -/
def State.copyLeave (s : State) (core pos : Nat) (e : CopyEnt) : State :=
  (((s.modCore core fun x => { x with copyq := x.copyq.eraseIdx pos }).dropCopyOp core e.id).releaseLines
    fun g n => g == .copy && n == e.agent core).copyOver (waveKey (crewKey core e.cslot) e.wave) e.id

/-- COPY_COMPLETION (R271): the token, then the arrival, a release of what it wrote to the paths of its core (R125, R133); a mismatch is
WEIRCOUNT of the copy engine. -/
def execCopyCompletion (core pos : Nat) (s : State) : Host.Outcome State Fault Refusal :=
  .next <|
    match (s.core core).copyq[pos]? with
    | none => s
    | some e =>
      let ck := crewKey core e.cslot
      let k := waveKey ck e.wave
      if !s.clockOn core || e.stopped || !(e.st == .posted || (e.st == .running && e.allDone)) then s
      else
        let s1 := if e.cmd.tk && e.st != .posted then s.modWave k fun w => { w with tokens := w.tokens ++ [e.cmd.token] } else s
        if !e.cmd.we then s1.copyLeave core pos e
        else
          let n := e.cmd.weir.toNat
          match s1.arrive ck n e.cmd.wcnt.toNat with
          | some s2 => (s2.copyLeave core pos e).seeCopies k
          | none =>
            (s1.modCopy core pos fun e => { e with st := .posted }).faultCopy core pos .weircount
              (weirDet n ((s1.crew ck).weir n).armed e.cmd.wcnt.toNat)

-- Operand-buffer reservations.

/-- The record that OBRES's two words describe, for a crew slot (R94, R258). -/
def unpackOb (own : Nat) (w0 w1 : Dword) : ObRec :=
  { v := true, own := own, fmt := bits w0 58 55, blk := w0.getLsbD 54, base := bits w0 53 45, len := bits w0 44 35,
    asb := bits w1 63 52, astr := bits w1 51 40, bsb := bits w1 31 20, bstr := bits w1 19 8 }

/-- The two words of a record (R94). -/
def ObRec.words (r : ObRec) : Dword × Dword :=
  (BitVec.ofNat 64 ((if r.v then 2 ^ 63 else 0) + r.own * 2 ^ 59 + r.fmt * 2 ^ 55 + (if r.blk then 2 ^ 54 else 0)
      + r.base * 2 ^ 45 + r.len * 2 ^ 35),
   BitVec.ofNat 64 (r.asb * 2 ^ 52 + r.astr * 2 ^ 40 + r.bsb * 2 ^ 20 + r.bstr * 2 ^ 8))

/-- Two records' ranges overlap. -/
def ObRec.meets (a b : ObRec) : Bool := decide (a.base < b.base + b.len) && decide (b.base < a.base + a.len)

/-- A copy command has units of a range of the operand buffer still to fill or to report (R258). -/
def CopyEnt.fills (e : CopyEnt) (base len : Nat) : Bool :=
  e.cmd.kind == 3 && decide (e.base + e.cmd.uoff < base + len) && decide (base < e.base + e.cmd.uoff + (e.cmd.lines + 3) / 4)

/-- A copy command into the range of a record has not completed, or a product issued under it has not read its operands (R95,
R258, R259). -/
def CoreSt.obBusy (c : CoreSt) (n : Nat) : Bool :=
  let r := c.obRecOf n
  (c.copyq.any fun e => e.fills r.base r.len)
    || c.issued.any fun p => p.cslot == r.own && (p.ra == n || p.rb == n)

/-- Context number of the crew of a core's slot, 512 for firmware. -/
def State.obCtx (s : State) (core own : Nat) : Nat :=
  if isReeveCore core then fwCtx else (s.crew (crewKey core own)).ctx

/-- A record is installed: units last reserved by another context are zeroed (R95). -/
def State.obInstall (s : State) (core n : Nat) (r : ObRec) : State :=
  let cx := s.obCtx core r.own + 1
  s.modCore core fun c =>
    let us := (List.range r.len).map (r.base + ·)
    let old := us.filter fun u => tget c.obOwner 0 u ≠ 0 && tget c.obOwner 0 u ≠ cx
    { c with obrec := tset c.obrec n r, obWait := tdel c.obWait n,
             obOwner := us.foldl (fun t u => tset t u cx) c.obOwner,
             ob := if old = [] then c.ob else c.ob.filter fun e => !old.contains (e.1 / 256) }

/-- A record is cleared (R259). -/
def State.obClear (s : State) (core n : Nat) : State :=
  s.modCore core fun c => { c with obrec := tdel c.obrec n, obWait := tdel c.obWait n }

/-- The words of a crew that waited for a record are accepted by their path. -/
def State.obArrived (s : State) (crew : Key) (n : Nat) : State :=
  { s with waves := s.waves.map fun e =>
      if crewOf e.1 = crew then
        (e.1, { e.2 with pend := e.2.pend.map fun p => if p.why == some (.ob n) then { p with arrived := true } else p })
      else e }

/-- The pending entry of a word that waits for a record. -/
def obPending (n : Nat) : List Res :=
  [{ file := .v, reg := 0, data := [], mask := BitVec.allOnes 32, arrived := false, why := some (.ob n) }]

/-- Body of OBRES (R95, R258). -/
def obresBody (n : Nat) (x : MF) (s : State) (k : Key) (w : Wave) : Eff :=
  let w0 : Dword := BitVec.ofNat 64 (w.rsn x.d.toNat 2)
  let w1 : Dword := BitVec.ofNat 64 (w.rsn (x.d.toNat + 2) 2)
  let own := cslotOf (crewOf k)
  let core := coreOf k
  let c := s.core core
  let r := unpackOb own w0 w1
  let old := c.obRecOf n
  if w.act x.pr x.pn = 0 then .done s []
  else if decide (6 ≤ r.fmt) || r.len == 0 || !zeroBits w0 34 0 || !zeroBits w1 39 32 || !zeroBits w1 7 0 then
    .fault .illegal 0
  else if 512 < r.base + r.len then .fault .access (BitVec.ofNat 64 r.base)
  else if (old.v && old.own != own) || c.obrec.any fun e => e.2.v && e.2.own != own && e.2.meets r then
    .fault .access (BitVec.ofNat 64 n)
  else if (tfind c.obWait n).isSome ||
      c.obWait.any fun e => match e.2 with | some y => y.own != own && y.meets r | none => false then .hold
  else if old.v && c.obBusy n then
    .done (s.modCore core fun c => { c with obWait := tset c.obWait n (some r) }) (obPending n)
  else .done (s.obInstall core n r) []

/-- OBRES (R258). -/
def execObres (n : BitVec 4) (x : MF) (s : State) : Host.Outcome State Fault Refusal :=
  .next (s.issue (.obres n x) (memGate 8 (obresBody n.toNat x)))

/-- OBRES_INSTALL: nothing waits on the older record any longer, so the waiting record is installed (R258). -/
def execObresInstall (core n : Nat) (s : State) : Host.Outcome State Fault Refusal :=
  let c := s.core core
  .next <|
    match tfind c.obWait n with
    | some (some r) =>
      if c.obBusy n then s else (s.obInstall core n r).obArrived (crewKey core r.own) n
    | _ => s

/-- Body of OBREL (R259). -/
def obrelBody (n : Nat) (x : MF) (s : State) (k : Key) (w : Wave) : Eff :=
  let own := cslotOf (crewOf k)
  let core := coreOf k
  let c := s.core core
  let old := c.obRecOf n
  if w.act x.pr x.pn = 0 || !old.v then .done s []
  else if old.own != own then .fault .access (BitVec.ofNat 64 n)
  else if (tfind c.obWait n).isSome then .hold
  else if c.obBusy n then
    .done (s.modCore core fun c => { c with obWait := tset c.obWait n none }) (obPending n)
  else .done (s.obClear core n) []

/-- OBREL (R259). -/
def execObrel (n : BitVec 4) (x : MF) (s : State) : Host.Outcome State Fault Refusal :=
  .next (s.issue (.obrel n x) (memGate 8 (obrelBody n.toNat x)))

/-- OBREL_CLEAR: nothing waits on a released record any longer, and V clears (R259). -/
def execObrelClear (core n : Nat) (s : State) : Host.Outcome State Fault Refusal :=
  let c := s.core core
  .next <|
    match tfind c.obWait n with
    | some none =>
      if c.obBusy n then s
      else (s.obClear core n).obArrived (crewKey core (c.obRecOf n).own) n
    | _ => s

end Sys2Proof.Machine
end

