-- ==== Sys2Proof/Machine/Flags.lean ====
section
/-! DEFINITION. The computations of FPFLAGS (R74, R75, R77). -/

namespace Sys2Proof.Machine

/-- ORs flags into FPFLAGS: those of each live lane of m (R75). -/
def State.flagLanes (s : State) (k : Key) (m : LaneMask) (f : Fin 32 → Flags) : State :=
  s.modWave k fun w => w.raiseFlags m f

/-- DZ of a division (R77). -/
def divFlags (w b : Nat) : Flags := if b % 2 ^ w = 0 then fDZ else 0

end Sys2Proof.Machine
end

