-- ==== Sys2Proof/Machine/CrossLane.lean ====
section
/-! DEFINITION. Cross-lane words (R273 to R284): votes, matches, reductions and scans over tiles, pulls, quad exchanges. -/

namespace Sys2Proof.Machine

/-- Tile size of PART (R13). -/
def tileOf (part : Word) : Nat :=
  match part.toNat % 8 with
  | 1 => 2 | 2 => 4 | 3 => 8 | 4 => 16 | _ => 32

/-- Lanes of the tile of lane l, for a tile size (R14). -/
def tileMask (t l : Nat) : LaneMask := laneMask fun j => j.val / t == l / t

/-- The B operand of a cross-lane word in a lane, as 32 bits (R276). -/
def State.bLane (s : State) (k : Key) (w : Wave) (x : VF) (l : Fin 32) : Nat := s.bInt k w x 1 l

/-- The lanes of M that contribute, whatever their tile (R273). -/
def State.members (s : State) (k : Key) (w : Wave) (x : VF) : LaneMask :=
  w.act x.pr x.pn &&& w.liveMask &&& BitVec.ofNat 32 (s.bLane k w x 0)

-- Votes.

/-- VOTE's result (R278): for each bit, the vote of its lane or of its tile. -/
def voteVal (op : VoteOp) (t : Nat) (c bits : LaneMask) : LaneMask :=
  laneMask fun l =>
    let tile := tileMask t l.val
    match op with
    | .ballot => inMask c l && inMask bits l
    | .any => (c &&& tile &&& bits) != 0
    | .all => (c &&& tile &&& ~~~bits) == 0

/-- Body of VOTE (R278). -/
def voteBody (op : VoteOp) (x : VF) (s : State) (k : Key) (w : Wave) : Eff :=
  let m := w.act x.pr x.pn
  .done s [resS x.d.toNat 1 m (voteVal op (tileOf w.partreg) (s.members k w x) (w.k x.a.toNat)).toNat]

/-- VOTE (R278). -/
def execVote (op : VoteOp) (x : VF) (s : State) : Host.Outcome State Fault Refusal :=
  .next (s.issue (.vote op x) (voteBody op x))

/-- MATCH's result in a lane (R279). -/
def matchVal (all : Bool) (t : Nat) (c : LaneMask) (a : Fin 32 → Nat) (l : Fin 32) : LaneMask :=
  let ct := c &&& tileMask t l.val
  if all then
    match lanesOf ct with
    | [] => 0
    | j :: r => if r.all fun i => a i == a j then ct else 0
  else ct &&& laneMask fun j => a j == a l

/-- Body of MATCH (R279). -/
def matchBody (ty : ITy) (all : Bool) (x : VF) (s : State) (k : Key) (w : Wave) : Eff :=
  .done s [resV x.d.toNat 1 (w.act x.pr x.pn) fun l =>
    (matchVal all (tileOf w.partreg) (s.members k w x) (w.rvn x.a.toNat ty.regs) l).toNat]

/-- MATCH (R279). -/
def execMatchLanes (ty : ITy) (all : Bool) (x : VF) (s : State) : Host.Outcome State Fault Refusal :=
  .next (s.issue (.matchLanes ty all x) (matchBody ty all x))

-- Reductions and scans.

/-- An integer combination of values of width w (R280). -/
def combineInt (t : ITy) (op : RedOp) (vs : List Nat) : Nat :=
  let w := tyBits t
  let le (a b : Nat) : Bool := if t.signed then decide (sgnOf w a ≤ sgnOf w b) else decide (a ≤ b)
  match op with
  | .add => vs.foldl (fun a b => (a + b) % 2 ^ w) 0
  | .min => vs.foldl (fun a b => if le a b then a else b) (if t.signed then 2 ^ (w - 1) - 1 else 2 ^ w - 1)
  | .max => vs.foldl (fun a b => if le b a then a else b) (if t.signed then 2 ^ (w - 1) else 0)
  | .and => vs.foldl (fun a b => a &&& b) (2 ^ w - 1)
  | .or => vs.foldl (fun a b => a ||| b) 0
  | .xor => vs.foldl (fun a b => a ^^^ b) 0

/-- The exact sum of FP32 values, rounded once (R281). -/
def sumF32 (vs : List Nat) : Nat × Flags :=
  let fs := vs.map (fdecode fmt32)
  let infs := fs.filter FV.isInf
  let both := infs.any FV.neg && infs.any fun v => !v.neg
  if vs = [] then (0, 0)
  else if fs.any FV.isNan || both then (canonNaN fmt32, snanFlag fs ||| (if both then fNV else 0))
  else
    match infs with
    | v :: _ => (finf fmt32 v.neg, 0)
    | [] =>
      let x := fs.foldl (fun a v => Dy.add a v.real) (Dy.int 0)
      roundReal fmt32 .rne x (fs.all fun v => v.isZero && v.neg)

/-- The smallest or largest of FP32 values (R230, R281). -/
def pickF32 (isMax : Bool) (vs : List Nat) : Nat × Flags :=
  let nv := snanFlag (vs.map (fdecode fmt32))
  match vs.filter fun v => !(fdecode fmt32 v).isNan with
  | [] => (if vs = [] then finf fmt32 isMax else canonNaN fmt32, nv)
  | v :: r => (r.foldl (fun a b => (fMinMax fmt32 isMax a b).1) v, nv)

/-- A combination of a type (R280, R281). -/
def combine (ty : RTy) (op : RedOp) (vs : List Nat) : Nat × Flags :=
  match ty with
  | .int t => (combineInt t op vs, 0)
  | .f32 =>
    match op with
    | .min => pickF32 false vs
    | .max => pickF32 true vs
    | _ => sumF32 vs

/-- Which lanes a lane's result combines (R280): the tile's, or those up to or before it. -/
inductive ScanKind | whole | incl | excl
  deriving DecidableEq, Repr

/-- Combined value of lane l. -/
def redLane (ty : RTy) (op : RedOp) (kd : ScanKind) (t : Nat) (c : LaneMask) (a : Fin 32 → Nat) (l : Fin 32) : Nat × Flags :=
  let set := lanesOf (c &&& tileMask t l.val)
  let s := match kd with
    | .whole => set
    | .incl => set.filter fun j => decide (j.val ≤ l.val)
    | .excl => set.filter fun j => decide (j.val < l.val)
  combine ty op (s.map a)

/-- Body of REDUX and SCAN (R280, R281). -/
def redBody (ty : RTy) (op : RedOp) (kd : ScanKind) (x : VF) (s : State) (k : Key) (w : Wave) : Eff :=
  let m := w.act x.pr x.pn
  let r := redLane ty op kd (tileOf w.partreg) (s.members k w x) (w.rvn x.a.toNat ty.regs)
  .done (s.flagLanes k m fun l => (r l).2) [resV x.d.toNat ty.regs m fun l => (r l).1]

/-- REDUX (R280). -/
def execRedux (ty : RTy) (op : RedOp) (x : VF) (s : State) : Host.Outcome State Fault Refusal :=
  .next (s.issue (.redux ty op x) (redBody ty op .whole x))

/-- SCAN (R280). -/
def execScan (ty : RTy) (op : RedOp) (excl : Bool) (x : VF) (s : State) : Host.Outcome State Fault Refusal :=
  .next (s.issue (.scan ty op excl x) (redBody ty op (if excl then .excl else .incl) x))

-- Pulls and quad exchanges.

/-- The value that source lane s supplies (R274). -/
def Wave.pullFrom (w : Wave) (r s : Nat) : Nat :=
  match (List.finRange 32)[s]? with
  | none => 0
  | some l => if w.lst[l] == .live || w.lst[l] == .helper then (w.rv r l).toNat else 0

/-- Source lane of PULL (R282); none: the lane's own value. -/
def pullSrc (sel : PullSel) (t l b : Nat) : Option Nat :=
  let t0 := l / t * t
  match sel with
  | .lane => some (t0 + b % t)
  | .lower => if b ≤ l - t0 then some (l - b) else none
  | .upper => if l - t0 + b < t then some (l + b) else none
  | .flip => some (t0 + ((l - t0) ^^^ (b % t)))

/-- Body of PULL (R282). -/
def pullBody (sel : PullSel) (x : VF) (s : State) (k : Key) (w : Wave) : Eff :=
  .done s [resV x.d.toNat 1 (w.act x.pr x.pn) fun l =>
    match pullSrc sel (tileOf w.partreg) l.val (s.bLane k w x l) with
    | some j => w.pullFrom x.a.toNat j
    | none => (w.rv x.a.toNat l).toNat]

/-- PULL (R282). -/
def execPull (sel : PullSel) (x : VF) (s : State) : Host.Outcome State Fault Refusal :=
  .next (s.issue (.pull sel x) (pullBody sel x))

/-- Body of PERM (R283). -/
def permBody (x : VF) (s : State) (k : Key) (w : Wave) : Eff :=
  let t := tileOf w.partreg
  .done s [resV x.d.toNat 1 (w.act x.pr x.pn) fun l =>
    let i := s.bLane k w x l % (2 * t)
    let t0 := l.val / t * t
    if i < t then w.pullFrom x.a.toNat (t0 + i) else w.pullFrom x.c.toNat (t0 + i - t)]

/-- PERM (R283). -/
def execPerm (x : VF) (s : State) : Host.Outcome State Fault Refusal := .next (s.issue (.perm x) (permBody x))

/-- What QSWAP flips in the lane number (R284). -/
def quadXor : QuadSel → Nat
  | .horizontal => 1 | .vertical => 2 | .diagonal => 3

/-- QSWAP (R284). -/
def execQswap (sel : QuadSel) (x : VF) (s : State) : Host.Outcome State Fault Refusal :=
  .next (s.issue (.qswap sel x) fun s _ w =>
    .done s [resV x.d.toNat 1 (w.act x.pr x.pn) fun l => w.pullFrom x.a.toNat (l.val ^^^ quadXor sel)])

/-- QBCAST (R284). -/
def execQbcast (x : VF) (s : State) : Host.Outcome State Fault Refusal :=
  .next (s.issue (.qbcast x) fun s k w =>
    .done s [resV x.d.toNat 1 (w.act x.pr x.pn) fun l => w.pullFrom x.a.toNat (l.val / 4 * 4 + s.bLane k w x l % 4)])

end Sys2Proof.Machine
end

