-- ==== Sys2Proof/Machine/Launch.lean ====
section
/-! DEFINITION. Launch records (R15, R16), launch queues (R353, R354), status words (R18), LAUNCH (R19, R20, R197) and the
dispatcher's reading of records. -/

namespace Sys2Proof.Machine

-- Launch records.

/-- Word n of a record. -/
def recW (r : List Dword) (n : Nat) : Dword := r.getD n 0
/-- GRID + 1: units of a launch. -/
def recUnits (r : List Dword) : Nat := bits (recW r 0) 63 32 + 1
/-- CL + 1: crews of a unit. -/
def recCl (r : List Dword) : Nat := bits (recW r 0) 31 29 + 1
/-- ARGW. -/
def recArgw (r : List Dword) : Nat := bits (recW r 0) 23 18
/-- REGION. -/
def recRegion (r : List Dword) : Nat := bits (recW r 0) 17 16
/-- LID. -/
def recLid (r : List Dword) : Bool := (recW r 0).getLsbD 15
/-- MSTR. -/
def recMstr (r : List Dword) : Bool := (recW r 0).getLsbD 14
/-- IDEM. -/
def recIdem (r : List Dword) : Bool := (recW r 0).getLsbD 13
/-- ROLES. -/
def recRoles (r : List Dword) : Bool := (recW r 0).getLsbD 12
/-- CLUS. -/
def recClus (r : List Dword) : Bool := (recW r 0).getLsbD 11
/-- COOP. -/
def recCoop (r : List Dword) : Bool := (recW r 0).getLsbD 10
/-- An address field of word n. -/
def recAddr (r : List Dword) (n : Nat) : Nat := bits (recW r n) 56 0
/-- MENTRY. -/
def recMentry (r : List Dword) : Nat := recAddr r 3
/-- Waves of role 0, and of role 1 (0 without it). -/
def recWaves (r : List Dword) (role : Nat) : Nat :=
  if role = 0 then bits (recW r 4) 4 0 + 1 else if recRoles r then bits (recW r 4) 36 32 + 1 else 0
/-- Base allotment of a role. -/
def recBreg (r : List Dword) (role : Nat) : Nat :=
  8 * ((if role = 0 then bits (recW r 4) 9 5 else bits (recW r 4) 41 37) + 1)
/-- LASTL of a role. -/
def recLast (r : List Dword) (role : Nat) : Nat := if role = 0 then bits (recW r 4) 15 10 else bits (recW r 4) 47 42
/-- SCNT. -/
def recScnt (r : List Dword) : Nat := bits (recW r 5) 28 16
/-- XBLK. -/
def recXblk (r : List Dword) : Nat := bits (recW r 5) 11 8
/-- SPB. -/
def recSpb (r : List Dword) : Nat := bits (recW r 5) 5 0
/-- SCHED. -/
def recSched (r : List Dword) : Nat := recAddr r 6
/-- ARGS. -/
def recArgs (r : List Dword) : Nat := recAddr r 7
/-- DONE. -/
def recDone (r : List Dword) : Nat := recAddr r 8
/-- Waves of a crew. -/
def recNwave (r : List Dword) : Nat := recWaves r 0 + recWaves r 1
/-- Role of the wave with WAVEID i (R21). -/
def recRole (r : List Dword) (i : Nat) : Nat := if i < recWaves r 0 then 0 else 1
/-- Crews of a launch. -/
def recCrews (r : List Dword) : Nat := recUnits r * recCl r

/-- The reserved fields of a record are zero (R15). -/
def recReserved (r : List Dword) : Bool :=
  let z (n hi lo : Nat) : Bool := bits (recW r n) hi lo == 0
  z 0 28 24 && z 0 9 8 && z 1 63 57 && z 2 63 57 && z 3 63 57 && z 4 31 16 && z 4 63 48 && z 5 63 29 && z 5 15 12 && z 5 7 6
    && z 6 63 57 && z 7 63 57 && z 8 63 57 && (List.range 7).all fun i => recW r (9 + i) == 0

/-- The checks of R16 on the record's own bits. -/
def recForm (r : List Dword) : Bool :=
  let lastOk (n : Nat) : Bool := decide (1 ≤ n) && decide (n ≤ 32)
  let room (role : Nat) : Bool := decide (recBreg r role + 32 * ((recXblk r + 3) / 4) ≤ 256)
  bits (recW r 0) 7 0 == 1 && recReserved r && recRegion r != 3
    && decide (recArgw r ≤ 48) && decide (recXblk r ≤ 8) && decide (recSpb r ≤ 32) && decide (recScnt r ≤ 4096)
    && lastOk (recLast r 0) && (!recRoles r || lastOk (recLast r 1)) && (recClus r || recCl r == 1)
    && decide (recNwave r ≤ 32) && decide (recCrews r ≤ 2 ^ 32) && room 0 && (!recRoles r || room 1)
    && recAddr r 1 % 8 == 0 && (!recRoles r || recAddr r 2 % 8 == 0) && (!recMstr r || recMentry r % 8 == 0)
    && recSched r % 4 == 0 && recArgs r % 4 == 0 && recDone r % 8 == 0

/-- Number by which the dispatcher's translations are cached: it is no core, and belongs to no cluster (DESIGN CHOICE, log 62). -/
def dispCore : Nat := 256

/-- Every page of [va, va + n) has a translation that allows the access (R16); judged without effect. -/
def State.mapped (s : State) (c : Nat) (a : Acc) : (pages va n : Nat) → Bool
  | 0, _, n => n == 0
  | p + 1, va, n =>
    n == 0 ||
      (decide (va < 2 ^ 57) &&
        match s.translate (some c) dispCore va a with
        | .ok _ _ _ =>
          let len := min n (4096 - va % 4096)
          s.mapped c a p (va + len) (n - len)
        | .miss | .access | .ecc _ | .busy => false)

/-- A byte range is mapped. -/
def State.rangeMapped (s : State) (c : Nat) (a : Acc) (va n : Nat) : Bool := s.mapped c a (n / 4096 + 2) va n

/-- R16, every check that does not depend on capacity, in the space of context c. -/
def State.recOk (s : State) (c : Nat) (r : List Dword) : Bool :=
  recForm r
    && s.rangeMapped c .fetch (recAddr r 1) 8 && (!recRoles r || s.rangeMapped c .fetch (recAddr r 2) 8)
    && (!recMstr r || s.rangeMapped c .fetch (recMentry r) 8)
    && s.rangeMapped c .read (recArgs r) (4 * recArgw r)
    && (!recMstr r || s.rangeMapped c .read (recArgs r + 0xC0) 64)
    && s.rangeMapped c .read (recSched r) (4 * recScnt r * recCrews r)
    && s.rangeMapped c .write (recDone r) 8

-- Queues.

/-- Word n of a queue descriptor (R353). -/
def State.queueWord (s : State) (q n : Nat) : Dword := s.home64 (qtBase + 32 * q + 8 * n)
/-- Stores a word of a queue descriptor. -/
def State.setQueueWord (s : State) (q n : Nat) (v : Dword) : State := s.poke64 (qtBase + 32 * q + 8 * n) v
/-- LOG2N. -/
def State.qLog (s : State) (q : Nat) : Nat := bits (s.queueWord q 0) 12 8
/-- The queue is in service: V, and LOG2N from 1 to 16. -/
def State.qServes (s : State) (q : Nat) : Bool :=
  (s.queueWord q 0).getLsbD 63 && decide (1 ≤ s.qLog q) && decide (s.qLog q ≤ 16)
/-- DEVQ. -/
def State.qDev (s : State) (q : Nat) : Bool := (s.queueWord q 0).getLsbD 62
/-- CTX. -/
def State.qCtx (s : State) (q : Nat) : Nat := bits (s.queueWord q 0) 56 48
/-- PRIO. -/
def State.qPrio (s : State) (q : Nat) : Nat := bits (s.queueWord q 0) 3 0
/-- RDIX. -/
def State.qRdix (s : State) (q : Nat) : Nat := bits (s.queueWord q 2) 31 0
/-- WRIX. -/
def State.qWrix (s : State) (q : Nat) : Nat := bits (s.queueWord q 3) 31 0
/-- FLT. -/
def State.qFlt (s : State) (q : Nat) : Bool := (s.queueWord q 3).getLsbD 63
/-- Records written and not yet read. -/
def State.qFill (s : State) (q : Nat) : Nat := (s.qWrix q + 2 ^ 32 - s.qRdix q) % 2 ^ 32
/-- Address of ring slot i of a queue. -/
def State.qSlot (s : State) (q i : Nat) : Nat := bits (s.queueWord q 1) 56 7 * 128 + 128 * (i % 2 ^ s.qLog q)
/-- Sets WRIX. -/
def State.setWrix (s : State) (q v : Nat) : State := s.setQueueWord q 3 (putBits (s.queueWord q 3) 31 0 v)
/-- Sets RDIX. -/
def State.setRdix (s : State) (q v : Nat) : State := s.setQueueWord q 2 (putBits (s.queueWord q 2) 31 0 v)

/-- Detail of an event of kind 0x0A (R339). -/
def queueDet (cause q idx : Nat) : Dword := BitVec.ofNat 64 (cause * 2 ^ 60 + q * 2 ^ 32 + idx % 2 ^ 32)

/-- Some die relocks: a record is neither judged nor read until that is over, since its walks may cross (R318). -/
def State.relocking (s : State) : Bool := (List.range 4).any fun d => (s.die d).rel

/-- A ring slot that cannot be read: FLT, and the event with cause 1 (R354). -/
def State.queueFault (s : State) (q : Nat) : State :=
  let c := s.qCtx q
  let s1 := (s.setQueueWord q 3 (putBits (s.queueWord q 3) 63 63 1)).modCtx c fun x => { x with qwait := tdel x.qwait q }
  (s1.forgetMiss c (.queue q)).event (s.homeDie c) 0x0A (ctxHandle c) (queueDet 1 q (s.qRdix q)) q

/-- A status word would lie across a stopped crossing: it is written later (R318). -/
def State.statusHeld (s : State) (c done : Nat) : Bool :=
  s.relocking && match s.translate (some c) dispCore done .write with
    | .ok s1 pa _ => s1.crosses (some c) dispCore pa
    | .busy => true
    | .miss | .access | .ecc _ => false

/-- The status word of a launch (R18); where DONE cannot take it, the event with cause 2. -/
def State.writeStatus (s : State) (q idx c done status : Nat) : State :=
  let word := BitVec.ofNat 64 (status * 2 ^ 60 + s.reft % 2 ^ 60)
  let bad := s.event (s.homeDie c) 0x0A (ctxHandle c) (queueDet 2 q idx) q
  if done % 8 ≠ 0 ∨ 2 ^ 57 ≤ done then bad
  else
    match s.translate (some c) dispCore done .write with
    | .ok s1 pa _ => (((s1.noteExt (some c) pa).chargeHome (some c) pa 8).poke64 pa word).modCtx c fun x => { x with stsSince := true }
    | .miss | .access | .ecc _ | .busy => bad

-- LAUNCH.

/-- Context in whose space a wave's parked word misses: for the ring slot of a LAUNCH the queue's (R20). -/
def State.frontCtx (s : State) (k : Key) : Option Nat :=
  let w := s.wave k
  match w.park, w.parkI with
  | some (.fetchMiss va), some (.launch x) =>
    if va = (w.addrS x).toNat then s.ctxOf k else some (s.qCtx (w.rs x.d.toNat).toNat)
  | _, _ => s.ctxOf k

/-- Body of LAUNCH (R19, R20, R197). -/
def launchBody (x : MF) (s : State) (k : Key) (w : Wave) : Eff :=
  let e := w.addrS x
  let q := (w.rs x.d.toNat).toNat
  let cl := clusterOf (coreOf k)
  let bad : Eff := .fault .launch (BitVec.ofNat 64 q)
  match addrCheck e 128 with
  | some c => .fault c e
  | none =>
    match s.ctxOf k with
    | none => bad
    | some c =>
      if decide (1024 ≤ q) || polderOf (s.qCtx q) != polderOf c || !s.qDev q || !s.qServes q then bad
      else
        match s.wordAccess k e 128 .read with
        | .inl x => x
        | .inr (s1, pa, home) =>
          let (r, s2) := s1.readWords cl pa home 16
          let qc := s.qCtx q
          if s2.relocking then .hold
          else if !s2.recOk qc r then bad
          else
            let slot := s2.qSlot q (s2.qWrix q)
            match s2.translate (some qc) (coreOf k) slot .write with
            | .miss => .park (s2.reportMiss qc slot (.front k)) (.fetchMiss slot)
            | .access => .fault .access (BitVec.ofNat 64 slot)
            | .ecc l => .fault .eccfatal (BitVec.ofNat 64 (lineDet l))
            | .busy => .hold
            | .ok s3 spa _ =>
              if 2 ^ s3.qLog q ≤ s3.qFill q then .park s3 .launch
              else if s3.linkBusy cl || s3.crosses (some qc) (coreOf k) spa then .hold
              else
                let s4 := ((s3.release cl scope4).waveReleases k).chargeHome (some qc) spa 128
                let s5 := (s4.heal [spa / 128]).homeStore (some c) spa (r.flatMap fun v => bytesOf v.toNat 8)
                .done (s5.setWrix q ((s5.qWrix q + 1) % 2 ^ 32)) []

/-- LAUNCH (R197). -/
def execLaunch (x : MF) (s : State) : Host.Outcome State Fault Refusal :=
  .next (s.issue (.launch x) (waveLevel x.pr x.pn (memGate 0 (launchBody x))))

-- Fit and capacity.

/-- Waves of a crew in quadrant q (R21). -/
def recQuadWaves (r : List Dword) (q : Nat) : List Nat := (List.range (recNwave r)).filter fun i => i % 4 == q
/-- Registers that a crew takes in quadrant q (R22). -/
def recQuadRegs (r : List Dword) (q : Nat) : Nat :=
  ((recQuadWaves r q).map fun i => recBreg r (recRole r i)).sum
    + 32 * ((List.range (recXblk r)).filter fun b => b % 4 == q).length

/-- Room on a core: crew slots, sequencers, scratchpad banks, and by quadrant waves and registers (R22). -/
structure Room where
  slots : Nat := 16
  seqs : Nat := 2
  banks : Nat := 32
  waves : Nat → Nat := fun _ => 16
  regs : Nat → Nat := fun _ => 1024

/-- A crew of a record fits into the room (R22). -/
def Room.fits (m : Room) (r : List Dword) : Bool :=
  decide (1 ≤ m.slots) && (!recMstr r || decide (1 ≤ m.seqs)) && decide (recSpb r ≤ m.banks)
    && (List.range 4).all fun q =>
      decide ((recQuadWaves r q).length ≤ m.waves q) && decide (recQuadRegs r q ≤ m.regs q)

/-- The room left after a crew of a record. -/
def Room.less (m : Room) (r : List Dword) : Room :=
  { slots := m.slots - 1, seqs := if recMstr r then m.seqs - 1 else m.seqs, banks := m.banks - recSpb r,
    waves := fun q => m.waves q - (recQuadWaves r q).length, regs := fun q => m.regs q - recQuadRegs r q }

/-- Room left on a core (R22). -/
def State.room (s : State) (core : Nat) : Room :=
  (s.residents core).foldl (fun m c => m.less (s.crew c).lrec) {}

/-- Crews of a record that fit on one core that the room describes. -/
def Room.count (m : Room) (r : List Dword) : (fuel : Nat) → Nat
  | 0 => 0
  | n + 1 => if m.fits r then (m.less r).count r n + 1 else 0

/-- Crews of a record that fit on an empty core (R28). -/
def perCore (r : List Dword) : Nat := Room.count {} r 16

/-- CTXB of a context (R350). -/
def State.ctxBudget (s : State) (c : Nat) : Dword := s.polderWord (polderOf c) (32 + c % 16)
/-- CTXB.CORES (R350). -/
def State.ctxCores (s : State) (c : Nat) : Nat := bits (s.ctxBudget c) 7 0
/-- CTXB.BORROW with the polder's BORR (R362). -/
def State.mayBorrow (s : State) (c : Nat) : Bool :=
  (s.ctxBudget c).getLsbD 24 && (s.polderWord (polderOf c) 0).getLsbD 61
/-- Global clusters that a polder owns. -/
def State.ownClusters (s : State) (p : Nat) : List Nat := (List.range 32).filter fun c => s.ownsCluster p c

/-- Capacity of a COOP launch in units (R28). -/
def State.capacity (s : State) (c : Nat) (r : List Dword) : Nat :=
  let own := s.ownClusters (polderOf c)
  if recClus r then
    perCore r * min (s.ctxCores c / recCl r) (own.filter fun g => decide (recCl r ≤ (coresOfCluster g).length)).length
  else perCore r * min (s.ctxCores c) (own.flatMap coresOfCluster).length

/-- The refusal of a record: 2 malformed, 3 no core of the context holds a crew, 1 beyond the co-residency capacity
(R16, R28); `none` when it is accepted. -/
def State.refusal (s : State) (c : Nat) (r : List Dword) : Option Nat :=
  if !s.recOk c r then some 2
  else if perCore r = 0 then some 3
  else if recCoop r && decide (s.capacity c r < recUnits r) then some 1
  else if s.ctxCores c = 0 || ((s.ownClusters (polderOf c)).isEmpty && !s.mayBorrow c) then some 3
  else none

-- Reading of records.

/-- The queue's launch that still has crews to dispatch (R355). -/
def State.current (s : State) (q : Nat) : Option Launch :=
  s.launches.find? fun l => l.queue == q && decide (l.next < recUnits l.lrec)

/-- Words of a record at home. -/
def State.homeWords (s : State) (pa n : Nat) : List Dword := (List.range n).map fun i => s.home64 (pa + 8 * i)

/-- The dispatcher reads n 64-bit words at home (R364). -/
def State.dispRead (s : State) (c pa n : Nat) : List Dword × State := (s.homeWords pa n, s.chargeHome (some c) pa (8 * n))

/-- LAUNCH_RECORD_READ (R16, R19, R354, R355): the dispatcher reads the record at RDIX of a queue whose current launch is
wholly dispatched, and accepts or refuses it. A slot in a line that memory cannot correct is one that cannot be read, and ECCFATAL of
the queue's context, with a record of the memory side (R384; DESIGN CHOICE, log 63). -/
def execLaunchRecordRead (q : Nat) (s : State) : Host.Outcome State Fault Refusal :=
  let c := s.qCtx q
  .next <|
    if decide (1024 ≤ q) || !s.qServes q || s.qFill q == 0 || s.qFlt q || (s.current q).isSome || !s.ctxValid c
        || (tfind (s.ctx c).qwait q).isSome || s.relocking then s
    else
      let idx := s.qRdix q
      let va := s.qSlot q idx
      match (if 2 ^ 57 ≤ va then .access else s.translate (some c) dispCore va .read) with
      | .miss => (s.modCtx c fun x => { x with qwait := tset x.qwait q va }).reportMiss c va (.queue q)
      | .access | .busy => s.queueFault q
      | .ecc l => (s.queueFault q).memLoss c l
      | .ok s1 pa _ =>
        if s1.homeBad (pa / 128) then ((s1.l2Discard (pa / 128)).queueFault q).memLoss c (pa / 128)
        else
        let (r, s0) := s1.dispRead c pa 16
        let s2 := s0.setRdix q ((idx + 1) % 2 ^ 32)
        match s2.refusal c r with
        | some st => s2.writeStatus q idx c (recDone r) st
        | none =>
          { s2 with launchId := s2.launchId + 1,
                    launches := s2.launches ++
                      [{ id := s2.launchId, queue := q, idx := idx, ctx := c, lrec := r, device := s.qDev q,
                         prio := s.qPrio q }] }

end Sys2Proof.Machine
end

