-- ==== Sys2Proof/Machine/Matrix.lean ====
section
/-! DEFINITION. The matrix engine (R138 to R160): operands (R142), element values (R66, R78, R79), the latch (R144), scale
indices (R145), the check (R149), attempts, correction and completion (R150 to R157), and a core's injection slot (R159). -/

namespace Sys2Proof.Machine

-- Operands.

/-- K of a format (R141). -/
def mmaK (fmt : Nat) : Nat := if fmt ≤ 1 then 32 else if fmt ≤ 4 then 64 else 128

/-- Consecutive groups of n elements. -/
def chunks {α : Type} (n : Nat) : (count : Nat) → List α → List (List α)
  | 0, _ => []
  | c + 1, l => l.take n :: chunks n c (l.drop n)

/-- Element codes of one row of A or column of B: 64 bytes with K contiguous (R142, R64). -/
def rowCodes (fmt : Nat) (bs : List Byte) : List Nat :=
  if fmt ≤ 1 then (chunks 2 32 bs).map ofBytes
  else if fmt ≤ 4 then bs.map (·.toNat)
  else bs.flatMap fun b => [b.toNat % 16, b.toNat / 16]

/-- The 4 KiB at a unit of the operand buffer. -/
def CoreSt.operand (c : CoreSt) (unit : Nat) : List Byte := (List.range 4096).map fun i => tget c.ob 0 (unit * 256 + i)

/-- A code of a format without block scales as a value; INT8 codes are read by `codeInt`. -/
def codeVal (fmt code : Nat) : FV :=
  match fmt with
  | 0 => fdecode fmt16 code
  | 1 => fdecode fmtBf code
  | 2 => fdecode fmtE4 code
  | _ => fdecode fmtE5 code

/-- An INT8 code. -/
def codeInt (code : Nat) : Int := sgnOf 8 code

/-- A code of a scaled block as a value (R66): X4 under the scale's TYPE, else E4M3. -/
def scaledCode (fmt : Nat) (w : BitVec 16) (code : Nat) : FV :=
  scaledVal w (if fmt = 5 then x4fv (scaleType w) code else fdecode fmtE4 code)

/-- The values of the 64 rows of A or columns of B; `sc` are their scales by row and block, `blk` the block length. -/
def operandVals (fmt : Nat) (scaled : Bool) (blk : Nat) (bs : List Byte) (sc : List (BitVec 16)) : List (List FV) :=
  let nb := mmaK fmt / blk
  let rows := chunks 64 64 bs
  if scaled then
    (rows.zip (chunks nb 64 sc)).map fun p =>
      (rowCodes fmt p.1).zipIdx.map fun c => scaledCode fmt (p.2.getD (c.2 / blk) 0) c.1
  else rows.map fun r => (rowCodes fmt r).map (codeVal fmt)

/-- The INT8 values of the 64 rows of A or columns of B. -/
def operandInts (bs : List Byte) : List (List Int) := (chunks 64 64 bs).map fun r => r.map fun b => codeInt b.toNat

-- The sum rule.

/-- An exact product (R78): NaN also for 0 times infinity. -/
def fvMul (a b : FV) : FV :=
  let n := a.neg != b.neg
  if a.isNan || b.isNan || (a.isZero && b.isInf) || (a.isInf && b.isZero) then .nan false
  else if a.isInf || b.isInf then .inf n
  else if a.isZero || b.isZero then .zero n
  else .fin (Dy.mul a.real b.real)

/-- Sum of reals. -/
def dySum (xs : List Dy) : Dy := xs.foldl Dy.add (Dy.int 0)

/-- MmaElement of R78: `c` is the old element as FP32. -/
def mmaElem (c : FV) (as bs : List FV) : Nat :=
  let ps := List.zipWith fvMul as bs
  let all := c :: ps
  if all.any FV.isNan then canonNaN fmt32
  else if (all.any fun v => v.isInf && v.neg) && (all.any fun v => v.isInf && !v.neg) then canonNaN fmt32
  else
    match all.find? FV.isInf with
    | some v => finf fmt32 v.neg
    | none =>
      let s := dySum (all.map FV.real)
      if s.m = 0 then fzero fmt32 (all.all fun v => v.isZero && v.neg) else (roundTo fmt32 .rne s).1

/-- The update of R79. -/
def intElem (c : Word) (as bs : List Int) : Nat := wrapOf 32 (c.toInt + (List.zipWith (· * ·) as bs).foldl (· + ·) 0)

/-- The old tile as a product reads it: zeros under Z (R143). -/
def Tile.elems (t : Tile) : List Word := (List.range 4096).map fun i => tget t.el 0 i

/-- Every element of the product as R78 and R79 give it, by 64i + j. -/
def Attempt.exact (m : Attempt) : List Word :=
  if m.fmt = 4 then
    let a := operandInts m.aOp
    let b := operandInts m.bOp
    ((a.zip (chunks 64 64 m.old)).flatMap fun r => (b.zip r.2).map fun p => BitVec.ofNat 32 (intElem p.2 r.1 p.1))
  else
    let a := operandVals m.fmt m.scaled m.aBlk m.aOp m.aSc
    let b := operandVals m.fmt m.scaled m.blk m.bOp m.bSc
    ((a.zip (chunks 64 64 m.old)).flatMap fun r =>
      (b.zip r.2).map fun p => BitVec.ofNat 32 (mmaElem (fdecode fmt32 p.2.toNat) r.1 p.1))

-- The check (R149).

/-- The value is neither infinite nor NaN. -/
def FV.isReal (v : FV) : Bool := !v.isInf && !v.isNan

/-- Columns of a matrix given by rows. -/
def columns {α : Type} (d : α) (rows : List (List α)) (n : Nat) : List (List α) :=
  (List.range n).map fun j => rows.map fun r => r.getD j d

/-- Tolerance of a line under FP32 accumulation. -/
def lineTol (c : List FV) : Dy := Dy.add (Dy.scale (dySum (c.map fun v => Dy.abs v.real)) (-23)) { m := 64, e := -149 }

/-- Whether a line of elements fails against its reference under FP32 accumulation. -/
def lineFails (c : List FV) (ref : Dy) : Bool :=
  (c.any fun v => !v.isReal) || Dy.lt (lineTol c) (Dy.abs (Dy.add (dySum (c.map FV.real)) (Dy.neg ref)))

/-- Failing rows and columns of an FP32 product. -/
def fpFails (a b : List (List FV)) (old c : List FV) (k : Nat) : List Nat × List Nat :=
  let oR := chunks 64 64 old
  let cR := chunks 64 64 c
  let zero : FV := .zero false
  let aSum := (columns zero a k).map fun v => dySum (v.map FV.real)
  let bSum := (columns zero b k).map fun v => dySum (v.map FV.real)
  let dot (v : List FV) (s : List Dy) : Dy := dySum (List.zipWith (fun x y => Dy.mul x.real y) v s)
  let allReal (v : List FV) : Bool := v.all FV.isReal
  let aReal := a.all allReal
  let bReal := b.all allReal
  let bad (os vs cs : List FV) (sums : List Dy) (other : Bool) : Bool :=
    allReal os && allReal vs && other && lineFails cs (Dy.add (dySum (os.map FV.real)) (dot vs sums))
  let rows := (List.range 64).filter fun i => bad (oR.getD i []) (a.getD i []) (cR.getD i []) bSum bReal
  let oC := columns zero oR 64
  let cC := columns zero cR 64
  let cols := (List.range 64).filter fun j => bad (oC.getD j []) (b.getD j []) (cC.getD j []) aSum aReal
  (rows, cols)

/-- Failing rows and columns of an INT32 product. -/
def intFails (a b : List (List Int)) (old c : List Word) : List Nat × List Nat :=
  let sum (l : List Int) : Int := l.foldl (· + ·) 0
  let dot (v s : List Int) : Int := sum (List.zipWith (· * ·) v s)
  let oR := chunks 64 64 (old.map BitVec.toInt)
  let cR := chunks 64 64 (c.map BitVec.toInt)
  let aSum := (columns 0 a 64).map sum
  let bSum := (columns 0 b 64).map sum
  let bad (o v cs s : List Int) : Bool := (sum cs - sum o - dot v s) % (2 ^ 32 : Int) != 0
  let oC := columns 0 oR 64
  let cC := columns 0 cR 64
  ((List.range 64).filter fun i => bad (oR.getD i []) (a.getD i []) (cR.getD i []) bSum,
   (List.range 64).filter fun j => bad (oC.getD j []) (b.getD j []) (cC.getD j []) aSum)

/-- FailingLines of R149. -/
def Attempt.fails (m : Attempt) : List Nat × List Nat :=
  if m.fmt = 4 then intFails (operandInts m.aOp) (operandInts m.bOp) m.old m.got
  else
    fpFails (operandVals m.fmt m.scaled m.aBlk m.aOp m.aSc) (operandVals m.fmt m.scaled m.blk m.bOp m.bSc)
      (m.old.map fun w => fdecode fmt32 w.toNat) (m.got.map fun w => fdecode fmt32 w.toNat) (mmaK m.fmt)

/-- Element n of the attempt differs from its exact value by no more than R154 allows. -/
def Attempt.allowed (m : Attempt) (i j : Nat) : Bool :=
  let fv (w : Word) : FV := fdecode fmt32 w.toNat
  let rows := chunks 64 64 (m.got.map fv)
  let v := m.got.getD (64 * i + j) 0
  let x := m.exact.getD (64 * i + j) 0
  let big := Dy.max (lineTol (rows.getD i [])) (lineTol ((columns (fv 0) rows 64).getD j []))
  v == x || (m.fmt != 4 && (fv v).isReal && (fv x).isReal &&
    Dy.le (Dy.abs (Dy.add (fv v).real (Dy.neg (fv x).real))) (Dy.scale (Dy.mul (Dy.int 3) big) (-1)))

/-- Row i and column j fail. -/
def Attempt.found (m : Attempt) (i j : Nat) : Bool := m.fails.1.contains i && m.fails.2.contains j

-- The sequencer's words.

/-- The crew whose sequencer is in focus. -/
def State.seqKey (s : State) : Key := if s.onSeq then s.cur else crewOf s.cur

/-- What a stream word's body answers: done, going on at the next word or elsewhere; a fault, perhaps with a line lost (R384); nothing
yet; a miss. -/
inductive SeqEff
  | done (s : State) (next : Option Nat)
  | fault (cls : FClass) (det : Dword)
  | faultIn (s : State) (cls : FClass) (det : Dword)
  | wait (s : State)
  | miss (va : Nat)

/-- A sequencer may issue a word: it runs, or waits at an MWAIT. -/
def Seq.live (q : Seq) : Bool := !q.stopped && (q.st == .run || (q.st == .parked && q.missVa.isNone))

/-- Changes a crew's sequencer. -/
def State.modSeq (s : State) (c : Key) (f : Seq → Seq) : State := s.modCrew c fun x => { x with seq := f x.seq }

/-- The sequencer goes on at an address. -/
def State.seqAt (s : State) (c : Key) (va : Nat) : State :=
  s.modSeq c fun q => { q with mpc := va % 2 ^ 57, st := if q.st == .ended then .ended else .run }

/-- Tiles that an accumulator word or a tile move names. -/
def tilesOf : Instr → List Nat
  | .azero t => [t.acc.toNat]
  | .aadd t => [t.acc.toNat, t.ta.toNat, t.tb.toNat]
  | .acvt t => [t.acc.toNat, t.ta.toNat]
  | .aloadTile a | .astore _ a => [a.acc.toNat]
  | _ => []

/-- Words that wait for every earlier word to complete (R287). -/
def waitsAll : Instr → Bool
  | .marv .. | .mend | .mchk .. => true
  | .msrd sel _ _ => decide (sel.toNat < 8)
  | _ => false

/-- Products of a crew slot that have not been executed: they wait for the engine, or are in it. -/
def CoreSt.openFor (c : CoreSt) (cslot : Nat) : Bool :=
  (c.issued.any fun p => p.cslot == cslot) || (match c.attempt with | some m => m.cslot == cslot | none => false)

/-- Products of a crew slot that are not complete. -/
def CoreSt.prods (c : CoreSt) (cslot : Nat) : List Product :=
  (c.issued ++ c.attempt.toList.map (·.toProduct) ++ c.fixing.map (·.toProduct)).filter fun p => p.cslot == cslot

/-- SCLD, which waits for an earlier MMAS to have read its scales (R287). -/
def isScld : Instr → Bool
  | .scld .. => true
  | _ => false

/-- A stream word is not ready (R287): an earlier product writes a tile that it names or has its scales still to read, or it waits for
every earlier word. Every other word goes ahead of the products that are not complete (log 59). -/
def CoreSt.seqHeld (c : CoreSt) (cslot : Nat) (i : Instr) : Bool :=
  (waitsAll i && c.prods cslot != []) || ((c.prods cslot).any fun p => (tilesOf i).contains p.acc)
    || (isScld i && c.issued.any fun p => p.cslot == cslot && p.scaled)

/-- ISSUE of a stream word of the sequencer in focus (R287, R288): it runs when it is ready. A fault is precise, so it waits until every
earlier product has been executed. -/
def State.seqIssue (s : State) (i : Instr) (body : State → Key → Crew → SeqEff) : State :=
  let c := s.seqKey
  let x := s.crew c
  let y := s.core (coreOfCrew c)
  if !x.seq.live || y.seqHeld (cslotOf c) i then s
  else
    match body s c x with
    | .done s1 next => s1.seqAt c (next.getD (x.seq.mpc + 8))
    | .fault cls det => if y.openFor (cslotOf c) then s else s.raiseSeq c cls det ((encodeSeq i).getD 0)
    | .faultIn s1 cls det => if y.openFor (cslotOf c) then s else s1.raiseSeq c cls det ((encodeSeq i).getD 0)
    | .wait s1 => s1
    | .miss va => (s.modSeq c fun q => { q with st := .parked, missVa := some va }).reportMiss x.ctx va (.seq c)

-- Tiles and scale memory.

/-- A tile of a core. -/
def CoreSt.tile (c : CoreSt) (t : Nat) : Tile := tget c.tiles {} t
/-- The tile is owned by another crew than that of the slot (R96). -/
def CoreSt.tileForeign (c : CoreSt) (cslot t : Nat) : Bool :=
  match (c.tile t).own with | some o => o != cslot | none => false
/-- Takes tiles for a crew (R96). -/
def State.takeTiles (s : State) (core cslot : Nat) (ts : List Nat) : State :=
  s.modCore core fun c => { c with tiles := ts.foldl (fun m t => tset m t { tget m {} t with own := some cslot }) c.tiles }
/-- Writes every element of a tile. -/
def State.putTile (s : State) (core t : Nat) (es : List Word) : State :=
  s.modCore core fun c =>
    { c with tiles := tset c.tiles t { c.tile t with el := (es.zipIdx.filter fun e => e.1 ≠ 0).map fun e => (e.2, e.1) } }
/-- A scale of a sequencer's half (R97). -/
def CoreSt.scaleAt (c : CoreSt) (half i : Nat) : BitVec 16 := tget c.scale 0 (half * 4096 + i)

-- Starting a product.

/-- Format of a matrix product word and whether it is an MMAS (R290). -/
def mmaKind : Instr → Nat × Bool
  | .mmaF16 _ => (0, false) | .mmaBf16 _ => (1, false) | .mmaE4m3 _ => (2, false) | .mmaE5m2 _ => (3, false)
  | .mmaI8 _ => (4, false) | .mmasE4m3 _ => (2, true) | _ => (5, true)

/-- Scale indices of one side (R145). -/
def scaleIdx (base stride scol nb : Nat) : List Nat :=
  (List.range 64).flatMap fun i => (List.range nb).map fun b => base + stride * i + scol + b

/-- What the next product of a crew slot finds in the latch (R144): reservation, offset and format, and whether A-side scales are
latched with them. A product issued before it that still waits for the engine decides; else the latch itself. -/
def CoreSt.latchKey (c : CoreSt) (cslot : Nat) (l : Option Latch) : Option (Nat × Nat × Nat × Bool) :=
  match (c.issued.filter fun p => p.cslot == cslot).getLast? with
  | some p => if p.hold then some (p.ra, p.aoff, p.fmt, p.kept) else none
  | none => l.map fun l => (l.ra, l.aoff, l.fmt, l.scales.isSome)

/-- What a product's checks give: the records, the block length, the scale indices of both sides, and what the latch holds for
it. DESIGN CHOICE (log 60): an MMAS whose A operand an MMA without scales latched forms its A-side indices itself. -/
structure MmaPlan where
  ra : ObRec
  rb : ObRec
  blk : Nat
  aIdx : List Nat
  bIdx : List Nat
  latched : Bool
  kept : Bool

/-- The checks of R291, in order. -/
def State.mmaCheck (s : State) (c : Key) (x : Crew) (fmt : Nat) (scaled : Bool) (q : QF) : (FClass × Dword) ⊕ MmaPlan :=
  let core := s.core (coreOfCrew c)
  let own := cslotOf c
  let ra := core.obRecOf q.ra.toNat
  let rb := core.obRecOf q.rb.toNat
  let bad (r : ObRec) (off : Nat) : Bool := !r.v || r.own != own || r.fmt != fmt || decide (r.len < off + 16)
  let key := core.latchKey own x.seq.latch
  let mismatch := match key with
    | some l => l.1 != q.ra.toNat || l.2.1 != q.aoff.toNat || l.2.2.1 != fmt
    | none => false
  let known := match key with | some l => l.2.2.2 | none => false
  let blk := if rb.blk then 32 else 16
  let nb := mmaK fmt / blk
  let aIdx := if scaled && !known then scaleIdx ra.asb ra.astr q.scol.toNat nb else []
  let bIdx := if scaled then scaleIdx rb.bsb rb.bstr q.scol.toNat nb else []
  if mismatch then .inl (.illegal, 0)
  else if bad ra q.aoff.toNat then .inl (.access, q.ra.setWidth 64)
  else if bad rb q.boff.toNat then .inl (.access, q.rb.setWidth 64)
  else if scaled && ra.blk != rb.blk then .inl (.access, q.rb.setWidth 64)
  else
    match (aIdx ++ bIdx).find? fun i => decide (4095 < i) with
    | some i => .inl (.access, BitVec.ofNat 64 i)
    | none =>
      if scaled && fmt == 2 && ((aIdx ++ bIdx).any fun i => scaleType (core.scaleAt x.seq.half i) != 0) then .inl (.illegal, 0)
      else if core.tileForeign own q.acc.toNat then .inl (.access, q.acc.setWidth 64)
      else .inr { ra := ra, rb := rb, blk := blk, aIdx := aIdx, bIdx := bIdx, latched := key.isSome, kept := known || scaled }

/-- The mode of a product (R147): 0 exact, 1 checked, 2 tolerant. -/
def mmaMode (x : Crew) (q : QF) : Nat := if q.rgn = 0 then x.regionMode.toNat else q.rgn.toNat - 1

/-- The product that a word issues once it has passed its checks (R147, R258, R291). -/
def mmaProduct (c : Key) (x : Crew) (i : Instr) (q : QF) (p : MmaPlan) : Product :=
  { cslot := cslotOf c, word := (encodeSeq i).getD 0, mpc := x.seq.mpc, mode := mmaMode x q, fmt := (mmaKind i).1,
    scaled := (mmaKind i).2, blk := p.blk, acc := q.acc.toNat, zero := q.z, hold := q.h, ra := q.ra.toNat, rb := q.rb.toNat,
    aoff := q.aoff.toNat, aUnit := p.ra.base + q.aoff.toNat, bUnit := p.rb.base + q.boff.toNat, aIdx := p.aIdx, bIdx := p.bIdx,
    latched := p.latched, kept := p.kept, back := x.seq }

/-- A product takes the engine: its operands and scales are read (R287). -/
def State.mmaStart (s : State) (core : Nat) (p : Product) : Attempt :=
  let y := s.core core
  let q := (s.crew (crewKey core p.cslot)).seq
  let read (is : List Nat) : List (BitVec 16) := is.map fun n => y.scaleAt q.half n
  let l := if p.latched then q.latch else none
  { toProduct := p,
    aOp := match l with | some l => l.bytes | none => y.operand p.aUnit,
    bOp := y.operand p.bUnit,
    aSc := (l.bind (·.scales)).getD (read p.aIdx),
    bSc := read p.bIdx,
    aBlk := (l.bind fun l => l.scales.map fun _ => l.blk).getD p.blk,
    old := if p.zero then List.replicate 4096 0 else (y.tile p.acc).elems, got := [], below := false, counted := false,
    before := q.latch }

/-- The latch as a product leaves it once it has read its operands (R144). -/
def Attempt.latchAfter (m : Attempt) : Option Latch :=
  if m.hold then
    some { ra := m.ra, aoff := m.aoff, fmt := m.fmt, bytes := m.aOp,
           scales := if m.scaled then some m.aSc else m.before.bind fun l => if m.latched then l.scales else none,
           blk := m.aBlk }
  else none

/-- VNOW is below the guarded point (R157). -/
def State.belowVg (s : State) (core : Nat) : Bool := decide (s.vnowOf core < s.vgNow core)

/-- Inverts a bit of an element. -/
def flipBit (es : List Word) (i b : Nat) : List Word := es.modify i fun w => w ^^^ BitVec.twoPow 32 b

/-- A later attempt of a product that carried an injected bit: what late bits do to that element is found by the check or within the
allowance of R154 (DEDUCED from R314, log 58). -/
def Attempt.unstruck (m : Attempt) : Attempt :=
  match m.strike with
  | none => m
  | some (i, j) =>
    if m.allowed i j || m.found i j then m else { m with got := m.got.set (64 * i + j) (m.exact.getD (64 * i + j) 0) }

/-- The result of the current attempt (R150): at the guarded point as the sum rules give it, below it with whatever bits came
late (R154). -/
def State.runAttempt (s : State) (core : Nat) (m : Attempt) : State × Attempt :=
  let below := s.belowVg core
  let ex := m.exact
  let (n, s1) := s.free
  let got := if below then ex.zipIdx.map fun e => e.1 ^^^ Config.lateBits n e.2 else ex
  (if below then s1 else s,
   Attempt.unstruck { m with got := got, below := below,
                             counted := below && s.islandMode core == .over && !s.holdWanted core })

/-- Attempt 1 carried an injected bit (R155). -/
def Attempt.injected (m : Attempt) : Bool := m.strike.isSome

/-- The elements of an attempt, those of a row and a column without late bits. -/
def Attempt.bare (m : Attempt) (i j : Nat) : List Word :=
  m.got.zipIdx.map fun e => if e.2 / 64 = i ∨ e.2 % 64 = j then m.exact.getD e.2 0 else e.1

/-- An injected bit shows in the verdict: in a checked product its row and column fail and its element is wrong, in a tolerant one some
line fails (R314, R316). -/
def Attempt.shown (m : Attempt) (i j : Nat) : Bool :=
  if m.mode = 2 then m.fails.1 != [] || m.fails.2 != []
  else m.found i j && m.got.getD (64 * i + j) 0 != m.exact.getD (64 * i + j) 0

/-- The result of attempt 1 with an armed bit inverted (R159). Where the bit alone would show in the verdict, late bits in its row and
column do not hide it (DEDUCED from R314 and R316, log 58). -/
def Attempt.struck (m : Attempt) (j : Inject) : Attempt :=
  let n := 64 * j.row + j.col
  let a : Attempt := { m with got := flipBit m.got n j.bit, strike := some (j.row, j.col), counted := false }
  let b : Attempt := { a with got := flipBit (m.bare j.row j.col) n j.bit }
  if a.shown j.row j.col || !b.shown j.row j.col then a else b

/-- Attempt 1 consumes an armed injection for its tile before its verdict (R159). -/
def State.inject (s : State) (core : Nat) (m : Attempt) : State × Attempt :=
  match (s.core core).inj with
  | some j =>
    if m.num = 1 ∧ j.ctx = (s.crew (crewKey core m.cslot)).ctx ∧ j.tile = m.acc then
      (s.modCore core fun c => { c with inj := none }, m.struck j)
    else (s, m)
  | none => (s, m)

/-- Adds to a crew's counter, CHKCNT to INJCNT by 0 to 7 (R157). -/
def Crew.count (x : Crew) (i n : Nat) : Crew := { x with ctrs := tset x.ctrs i (tget x.ctrs 0 i + n) }

/-- Adds to a counter of a polder's reliability block (R404). -/
def State.relCount (s : State) (p i n : Nat) : State :=
  s.modPolder p fun x => { x with rel := tset x.rel i (tget x.rel 0 i + n) }


/-- A check record (R155). -/
def Attempt.record (m : Attempt) (seq : Word) (act : Nat) : List Dword :=
  [ m.rowf, m.colf,
    BitVec.ofNat 64 (seq.toNat * 2 ^ 32 + act % 8 * 2 ^ 29 + m.num % 8 * 2 ^ 26 + m.mode % 4 * 2 ^ 24 + m.acc % 16 * 2 ^ 20
      + m.fmt % 16 * 2 ^ 16 + (if m.injected then 2 ^ 15 else 0)),
    BitVec.ofNat 64 m.mpc ]

/-- Puts a record into a crew's ring of 8 (R155). -/
def Crew.putCheck (x : Crew) (r : List Dword) : Crew :=
  let slot := x.chkSeq.toNat % 8
  { x with chkSeq := x.chkSeq + 1,
           chk := (List.range (max x.chk.length (slot + 1))).map fun i => if i = slot then r else x.chk.getD i [] }

/-- Bit set of line numbers. -/
def lineBits (ls : List Nat) : Dword := ls.foldl (fun m i => m ||| BitVec.twoPow 64 i) 0

/-- A product completes (R150 to R157): tile, check record and counters, with the counts of all its attempts at once.
`act` is none for an exact product. -/
def State.mmaDone (s : State) (core : Nat) (m : Attempt) (es : List Word) (act : Option Nat) : State :=
  let c := crewKey core m.cslot
  let p := polderOf (s.crew c).ctx
  let s2 := (s.putTile core m.acc es).meter p (1 + m.fmt) 1
  let s3 :=
    match act with
    | none => s2
    | some a =>
      let one (b : Bool) : Nat := if b then 1 else 0
      let s3 := s2.modCrew c fun x =>
        ((((((((x.count 0 1).count 1 m.det).count 2 (one (a == 1))).count 3 (one (a == 4))).count 4 (m.num - 1)).count 5
          (one (a == 3))).count 6 (one (a == 5))).count 7 (one m.injected)).putCheck (m.record (x.chkSeq + 1) a)
      (s3.modCore core fun y =>
        { y with island := { y.island with wn := y.island.wn + m.ran, wo := y.island.wo + m.ovt,
                                           ovtot := y.island.ovtot + m.ovt } }).relCount p 0 m.ran |>.relCount p 1 m.ovt
  s3.islandSettle core

/-- A guard step begins, unless one is in progress (R397). -/
def State.guardStep (s : State) (core : Nat) (p : Nat) : State :=
  if (s.core core).island.mode == .step then s
  else
    (s.modCore core fun y =>
      { y with island := { y.island with mode := .step, gsteps := y.island.gsteps + 1 } }).relCount p 2 1

/-- The first product that waits of each sequencer (R140): its products take effect in stream order. -/
def CoreSt.heads (c : CoreSt) : List Product :=
  c.issued.foldl (fun hs p => if hs.any fun h => h.cslot == p.cslot then hs else hs ++ [p]) []

/-- No correction of the same tile is in progress (R143, R151). -/
def CoreSt.tileFree (c : CoreSt) (p : Product) : Bool := !(c.fixing.any fun m => m.acc == p.acc)

/-- The crew's sequencer has been stopped by its floodgate (R160). -/
def State.seqStopped (s : State) (core cslot : Nat) : Bool := (s.crew (crewKey core cslot)).seq.stopped

/-- A product may take the engine: its sequencer is not stopped (R160), its tile is ready, the island has power, and for an exact product
stands at its guarded point (R148, R287). -/
def State.mmaReady (s : State) (core : Nat) (p : Product) : Bool :=
  !s.seqStopped core p.cslot && (s.core core).tileFree p && (s.core core).island.mode != .off && (p.mode != 0 || !s.belowVg core)

/-- The product that takes the engine next: the sequencers alternate where both have one ready (R140). -/
def State.mmaNext (s : State) (core : Nat) : Option Product :=
  let c := s.core core
  let hs := c.heads.filter fun p => s.mmaReady core p
  (hs.find? fun p => c.engLast != some p.cslot).orElse fun _ => hs.head?

/-- An exact product that finds the island below its guarded point asks for a guard step (R148, R397). -/
def State.askGuard (s : State) (core : Nat) : State :=
  match (s.core core).heads.find? fun p => p.mode == 0 && (s.core core).tileFree p && !s.seqStopped core p.cslot with
  | some p =>
    if (s.core core).island.mode == .over && s.belowVg core then s.guardStep core (polderOf (s.crew (crewKey core p.cslot)).ctx)
    else s
  | none => s

/-- A product takes the engine (R140, R144, R150): an exact one is delivered at the guarded point, any other runs attempt 1. -/
def State.takeEngine (s : State) (core : Nat) (p : Product) : State :=
  let m := s.mmaStart core p
  let s1 := (s.modCore core fun y => { y with issued := y.issued.erase p, engLast := some p.cslot }).modSeq
    (crewKey core p.cslot) fun q => { q with latch := m.latchAfter }
  if p.mode = 0 then s1.mmaDone core m m.exact none
  else
    let (s2, m1) := s1.runAttempt core m
    s2.modCore core fun y => { y with attempt := some m1 }

/-- The engine takes the products that are ready, one at a time (R140). -/
def State.engineRun (s : State) (core : Nat) : (fuel : Nat) → State
  | 0 => s
  | n + 1 =>
    if (s.core core).issued = [] || !s.clockOn core then s
    else
      let s1 := s.askGuard core
      if (s1.core core).attempt.isSome then s1
      else
        match s1.mmaNext core with
        | none => s1
        | some p => (s1.takeEngine core p).engineRun core n

/-- The engine goes on with what waits for it. -/
def State.engineGo (s : State) (core : Nat) : State := s.engineRun core ((s.core core).issued.length + 1)

/-- A record of the crew waits to be installed or cleared (R258, R259). -/
def CoreSt.obPends (c : CoreSt) (own n : Nat) : Bool :=
  match tfind c.obWait n with
  | some (some r) => r.own == own
  | some none => (c.obRecOf n).own == own
  | none => false

/-- Body of MMA and MMAS (R291): a word that names a record which waits to be installed or cleared waits for that (R258, R259); the
product is issued, its mode and records fixed; the sequencer goes on, and the engine takes
the product when it is ready. -/
def mmaBody (i : Instr) (q : QF) (s : State) (c : Key) (x : Crew) : SeqEff :=
  let core := coreOfCrew c
  if (s.core core).obPends (cslotOf c) q.ra.toNat || (s.core core).obPends (cslotOf c) q.rb.toNat then .wait s
  else
  match s.mmaCheck c x (mmaKind i).1 (mmaKind i).2 q with
  | .inl f => .fault f.1 f.2
  | .inr p =>
    let s1 := (s.takeTiles core (cslotOf c) [q.acc.toNat]).modCore core fun y =>
      { y with issued := y.issued ++ [mmaProduct c x i q p] }
    .done ((s1.islandSettle core).engineGo core) none

/-- MMA of FP16 (R290, R291). -/
def execMmaF16 (q : QF) (s : State) : Host.Outcome State Fault Refusal := .next (s.seqIssue (.mmaF16 q) (mmaBody (.mmaF16 q) q))
/-- MMA of BF16 (R290, R291). -/
def execMmaBf16 (q : QF) (s : State) : Host.Outcome State Fault Refusal :=
  .next (s.seqIssue (.mmaBf16 q) (mmaBody (.mmaBf16 q) q))
/-- MMA of E4M3 (R290, R291). -/
def execMmaE4m3 (q : QF) (s : State) : Host.Outcome State Fault Refusal :=
  .next (s.seqIssue (.mmaE4m3 q) (mmaBody (.mmaE4m3 q) q))
/-- MMA of E5M2 (R290, R291). -/
def execMmaE5m2 (q : QF) (s : State) : Host.Outcome State Fault Refusal :=
  .next (s.seqIssue (.mmaE5m2 q) (mmaBody (.mmaE5m2 q) q))
/-- MMA of INT8 (R290, R291). -/
def execMmaI8 (q : QF) (s : State) : Host.Outcome State Fault Refusal := .next (s.seqIssue (.mmaI8 q) (mmaBody (.mmaI8 q) q))
/-- MMAS of E4M3 (R290, R291). -/
def execMmasE4m3 (q : QF) (s : State) : Host.Outcome State Fault Refusal :=
  .next (s.seqIssue (.mmasE4m3 q) (mmaBody (.mmasE4m3 q) q))
/-- MMAS of X4 (R290, R291). -/
def execMmasX4 (q : QF) (s : State) : Host.Outcome State Fault Refusal :=
  .next (s.seqIssue (.mmasX4 q) (mmaBody (.mmasX4 q) q))

-- Verdict, correction, guard step.

/-- The lines that failed on attempt 1 go into the record (R155). -/
def Attempt.noteFirst (m : Attempt) (fr fc : List Nat) : Attempt :=
  if m.num = 1 then { m with rowf := lineBits fr, colf := lineBits fc } else m

/-- Counts of an attempt that has had its verdict (R157, R395): `confirmed` says that it ended in CONFIRM. DESIGN CHOICE (log 61): a
failing attempt of a tolerant product adds to DETCNT too. -/
def Attempt.tally (m : Attempt) (failed confirmed : Bool) : Attempt :=
  let overtop := m.below && failed && !(m.injected && m.num == 1) && !confirmed
  { m with ran := m.ran + (if m.counted then 1 else 0), det := m.det + (if overtop then 1 else 0),
           ovt := m.ovt + (if overtop && m.counted then 1 else 0) }

/-- Attempt 4 at the guarded point is delivered without a verdict (R150); the setpoint rises (R397). -/
def State.mmaGuarded (s : State) (core : Nat) (m : Attempt) : State :=
  let p := polderOf (s.crew (crewKey core m.cslot)).ctx
  let s1 := (s.mmaDone core m m.exact (some 3)).relCount p 3 1
  s1.modCore core fun y =>
    { y with island := { y.island with vset := min (s.vsetOf core + 20) (s.vgNow core), cred := 0 } }

/-- One to two lines. -/
def fewLines (l : List Nat) : Bool := decide (1 ≤ l.length) && decide (l.length ≤ 2)

/-- The engine is free again. -/
def State.leaveEngine (s : State) (core : Nat) : State := s.modCore core fun y => { y with attempt := none }

/-- The product in a core's engine is abandoned: its tile keeps the old values, and it waits again, as it was issued, before those issued
after it (R160). -/
def State.dropAttempt (s : State) (core : Nat) (m : Attempt) : State :=
  ((s.leaveEngine core).modCore core fun y => { y with issued := m.toProduct :: y.issued }).modSeq (crewKey core m.cslot)
    fun q => { q with latch := m.before }

/-- Where a sequencer stands: at its first product that is not executed (R160), else at its next word. -/
def State.seqPc (s : State) (c : Key) : Nat :=
  (((s.core (coreOfCrew c)).issued.find? fun p => p.cslot == cslotOf c).map (·.mpc)).getD (s.crew c).seq.mpc

/-- The verdict on the current attempt (R149, R150, R152), an armed bit inverted before it: delivered, to be corrected, or
re-issued; at a floodgate no re-issue is run (R160). A correction leaves the engine free for other tiles (R151). -/
def State.verdict (s : State) (core : Nat) (m : Attempt) : State :=
  let (s, m) := s.inject core m
  let (fr, fc) := m.fails
  let failed := fr ≠ [] || fc ≠ []
  let m1 := { m.noteFirst fr fc with failRows := fr, failCols := fc }
  if m.mode = 2 then (s.leaveEngine core).mmaDone core (m1.tally failed false) m.got (some (if failed then 5 else 0))
  else if !failed then (s.leaveEngine core).mmaDone core (m1.tally false false) m.got (some (if m.num = 1 then 0 else 2))
  else if fewLines fr && fewLines fc then
    s.modCore core fun y => { y with attempt := none, fixing := y.fixing ++ [{ m1 with phase := .correct }] }
  else if s.seqStopped core m.cslot then s.dropAttempt core m
  else
    let m2 := { m1.tally true false with num := m.num + 1 }
    if m2.num < 4 then
      let (s1, m3) := s.runAttempt core m2
      s1.modCore core fun y => { y with attempt := some m3 }
    else if s.belowVg core then
      (s.guardStep core (polderOf (s.crew (crewKey core m.cslot)).ctx)).modCore core fun y =>
        { y with attempt := some { m2 with phase := .reissue } }
    else (s.leaveEngine core).mmaGuarded core m2

/-- MMA_ATTEMPT_VERDICT: the verdict of an attempt is formed (R149 to R152). -/
def execMmaAttemptVerdict (core : Nat) (s : State) : Host.Outcome State Fault Refusal :=
  .next <|
    match (s.core core).attempt with
    | none => s
    | some m => if m.phase == .attempt && s.clockOn core then (s.verdict core m).engineGo core else s

/-- The correction of R150: the crossings of the failing lines take their exact values; CONFIRM if none changes. -/
def State.correct (s : State) (core : Nat) (m : Attempt) : State :=
  let ex := m.exact
  let at' := m.failRows.flatMap fun i => m.failCols.map fun j => 64 * i + j
  let same := at'.all fun n => m.got.getD n 0 == ex.getD n 0
  let es := at'.foldl (fun l n => l.set n (ex.getD n 0)) m.got
  (s.modCore core fun y => { y with fixing := y.fixing.erase m }).mmaDone core (m.tally true same) es (some (if same then 4 else 1))

/-- MMA_CORRECTION_DONE: the elements at the crossings of failing lines are recomputed, and the product completes (R150). -/
def execMmaCorrectionDone (core : Nat) (s : State) : Host.Outcome State Fault Refusal :=
  .next <|
    match (s.core core).fixing with
    | [] => s
    | m :: _ => if s.clockOn core then (s.correct core m).engineGo core else s

/-- GUARD_STEP_DONE: the island has reached its guarded point (R397); a fourth attempt is run there and delivered, unless the
floodgate is up (R160), and exact products that waited start. -/
def execGuardStepDone (core : Nat) (s : State) : Host.Outcome State Fault Refusal :=
  .next <|
    if (s.core core).island.mode != .step || !s.clockOn core then s
    else
      let s1 := s.modCore core fun y => { y with island := { y.island with mode := .guarded } }
      let s2 := match (s.core core).attempt with
        | some m =>
          if m.phase != MmaPhase.reissue then s1
          else if s.seqStopped core m.cslot then s1.dropAttempt core m
          else (s1.leaveEngine core).mmaGuarded core m
        | none => s1
      (s2.engineGo core).islandSettle core

end Sys2Proof.Machine
end

