-- ==== Sys2Proof/Machine/Stream.lean ====
section
/-! DEFINITION. The matrix stream's other words (R287 to R306): accumulator arithmetic, tiles and pointers in memory, scales,
weirs, stream control, reports and injection; the start of a stream and the fetch of its next word (R138, R285). -/

namespace Sys2Proof.Machine

-- Accumulator arithmetic (R292, R293).

/-- RM of the m-stream, two bits (R292, R294). -/
def rmOf2 (r : BitVec 2) : Rm := match r.toNat with | 0 => .rne | 1 => .rtz | 2 => .rup | _ => .rdn

/-- A word over tiles: ownership, then the destination from the sources (R292). -/
def tileBody (named : List Nat) (dst : Nat) (f : State → List Word) (s : State) (c : Key) (_ : Crew) : SeqEff :=
  let core := coreOfCrew c
  match named.find? fun t => (s.core core).tileForeign (cslotOf c) t with
  | some t => .fault .access (BitVec.ofNat 64 t)
  | none =>
    let s1 := s.takeTiles core (cslotOf c) named.dedup
    .done (s1.putTile core dst (f s1)) none

/-- Elements of a tile of the core of a crew. -/
def State.tileOf (s : State) (c : Key) (t : Nat) : List Word := ((s.core (coreOfCrew c)).tile t).elems

/-- AZERO (R293). -/
def execAzero (t : TF) (s : State) : Host.Outcome State Fault Refusal :=
  .next (s.seqIssue (.azero t) (tileBody [t.acc.toNat] t.acc.toNat fun _ => List.replicate 4096 0))

/-- One element of AADD (R293). -/
def aaddElem (t : TF) (a b : Word) : Word :=
  if t.fn = 1 then a + b else BitVec.ofNat 32 (fAdd fmt32 (rmOf2 t.rm) a.toNat b.toNat).1

/-- AADD (R293). -/
def execAadd (t : TF) (s : State) : Host.Outcome State Fault Refusal :=
  .next (s.seqIssue (.aadd t) fun s c x =>
    tileBody [t.acc.toNat, t.ta.toNat, t.tb.toNat] t.acc.toNat
      (fun s => List.zipWith (aaddElem t) (s.tileOf c t.ta.toNat) (s.tileOf c t.tb.toNat)) s c x)

/-- One element of ACVT (R293). -/
def acvtElem (t : TF) (a : Word) : Word :=
  let e := t.e.toInt
  if t.fn = 0 then BitVec.ofNat 32 (roundReal fmt32 (rmOf2 t.rm) { m := a.toInt, e := e } false).1
  else
    let v := match fdecode fmt32 a.toNat with
      | .fin x => FV.fin (Dy.scale x e)
      | v => v
    BitVec.ofInt 32 (floatToInt 32 true (rmOf2 t.rm) v).1

/-- ACVT (R293). -/
def execAcvt (t : TF) (s : State) : Host.Outcome State Fault Refusal :=
  .next (s.seqIssue (.acvt t) fun s c x =>
    tileBody [t.acc.toNat, t.ta.toNat] t.acc.toNat (fun s => (s.tileOf c t.ta.toNat).map (acvtElem t)) s c x)

-- Memory words (R289).

/-- Address register n. -/
def Seq.maReg (q : Seq) (n : Nat) : Dword := tget q.ma 0 n
/-- Sets address register n. -/
def Seq.setMa (q : Seq) (n : Nat) (v : Dword) : Seq := { q with ma := tset q.ma n v }
/-- The post-increment of R289. -/
def State.bumpMa (s : State) (c : Key) (n : Nat) (inc : BitVec 16) (unit : Nat) : State :=
  s.modSeq c fun q => q.setMa n (q.maReg n + inc.signExtend 64 * BitVec.ofNat 64 unit)

/-- Translates the parts of an access of a sequencer: physical addresses and HOME, or what stops it. -/
def seqParts (c : Nat) (core : Nat) (a : Acc) : List Nat → State → BeatRes (List (Nat × Nat))
  | [], s => .ok s []
  | va :: r, s =>
    if 2 ^ 57 ≤ va then .halt (.access va)
    else
      match s.translate (some c) core va a with
      | .miss => .halt (.miss va)
      | .access => .halt (.access va)
      | .ecc l => .halt (.ecc l)
      | .busy => .halt .busy
      | .ok s1 pa home =>
        match seqParts c core a r s1 with
        | .ok s2 ps => .ok s2 ((pa, home) :: ps)
        | .halt h => .halt h

/-- Reads n bytes at each part. -/
def readParts (c core n : Nat) : List (Nat × Nat) → State → List Byte × State
  | [], s => ([], s)
  | p :: r, s =>
    let (v, s1) := (s.touch (some c) core 0 p.1 n p.2).lsuRead (clusterOf core) p.1 n p.2
    let (vs, s2) := readParts c core n r s1
    (bytesOf v n ++ vs, s2)

/-- Writes n bytes at each part by a crew's sequencer. -/
def writeParts (c : Nat) (crew : Key) (n : Nat) : List (Nat × Nat) → List Byte → State → State
  | [], _, s => s
  | p :: r, bs, s =>
    let core := coreOfCrew crew
    writeParts c crew n r (bs.drop n)
      (((s.noteStore .seq crew (clusterOf core) (p.1 / 128)).touch (some c) core 0 p.1 n p.2).lsuWrite (some c) (clusterOf core) p.1 p.2
        (bs.take n))

/-- The check of an address register (R289): ACCESS above bit 56, ALIGN. -/
def maCheck (a : Dword) (align : Nat) : Option FClass := addrCheck a align

/-- What stands in the way of the first part of a sequencer's access that cannot be performed, from their addresses and where these
lie. -/
def partsBlocked (s : State) (c : Option Nat) (crew : Key) (a : Acc) (vas : List Nat) (ps : List (Nat × Nat)) : Option Halt :=
  (vas.zip ps).findSome? fun x => s.inTheWay c (coreOfCrew crew) x.2.1 x.1 8 x.2.2 a (s.crew crew).seq.dry.isSome (s.answered .seq crew 0)

/-- A sequencer waits as tokenless at a controller, or no longer (R365). -/
def State.seqDry (s : State) (c : Key) (d : Option (Nat × Nat)) : State :=
  if (s.crew c).seq.dry = d then s else (s.modSeq c fun q => { q with dry := d }).settleDry c

/-- The accesses of a word are performed: they wait for no peer and no token any longer. -/
def State.seqServed (s : State) (c : Key) : State := (s.dropOps .seq c).seqDry c none

/-- What a stream word does where an access cannot be performed: it waits for its crossing, its token, or its peer, which is sent to once
(R318, R365, R414). -/
def haltSeqEff (s : State) (c : Key) : Halt → SeqEff
  | .miss va => .miss va
  | .access va => .fault .access (BitVec.ofNat 64 va)
  | .ecc l => .faultIn (s.discardBad (clusterOf (coreOfCrew c)) l) .eccfatal (BitVec.ofNat 64 (lineDet l))
  | .busy => .wait s
  | .dry d => .wait (s.seqDry c (some d))
  | .peer pa va w => .wait (s.sendPeer .seq c 0 pa va w 0 8)

/-- A memory word: the parts at the given addresses are translated, then the word acts. -/
def memWord (a : Dword) (align : Nat) (acc : Acc) (vas : List Nat)
    (go : State → Nat → List (Nat × Nat) → SeqEff) (s : State) (c : Key) (x : Crew) : SeqEff :=
  match maCheck a align with
  | some f => .fault f a
  | none =>
    let core := coreOfCrew c
    match seqParts x.ctx core acc vas s with
    | .halt h => haltSeqEff s c h
    | .ok s1 ps =>
      match partsBlocked s1 (some x.ctx) c acc vas ps with
      | some h => haltSeqEff s c h
      | none => go (s1.seqServed c) core ps

/-- Addresses of the parts of 64 rows of `len` bytes at a stride, n bytes each. -/
def rowParts (base stride len n : Nat) : List Nat :=
  (List.range 64).flatMap fun i => (List.range (len / n)).map fun j => base + stride * i + n * j

/-- STR in bytes. -/
def strBytes (a : AF) : Nat := a.str.toNat * 16

/-- Body of ALOAD (R295): the tile is written once every row has been read. -/
def aloadBody (a : AF) (s : State) (c : Key) (x : Crew) : SeqEff :=
  let core := coreOfCrew c
  let m := x.seq.maReg a.areg.toNat
  let t := a.acc.toNat
  if (s.core core).tileForeign (cslotOf c) t then .fault .access (a.acc.setWidth 64)
  else
    memWord m 16 .read (rowParts m.toNat (strBytes a) 256 16)
      (fun s core ps =>
        let (bs, s1) := readParts x.ctx core 16 ps (s.takeTiles core (cslotOf c) [t])
        .done ((s1.putTile core t ((chunks 4 4096 bs).map fun b => BitVec.ofNat 32 (ofBytes b))).bumpMa c a.areg.toNat a.inc 64)
          none) s c x

/-- ALOAD, tile form (R295). -/
def execAloadTile (a : AF) (s : State) : Host.Outcome State Fault Refusal := .next (s.seqIssue (.aloadTile a) (aloadBody a))

/-- Body of ALOAD.ma (R295): a loaded register is not post-incremented. -/
def aloadMaBody (a : AF) (s : State) (c : Key) (x : Crew) : SeqEff :=
  let m := x.seq.maReg a.areg.toNat
  let d := a.acc.toNat % 8
  memWord m 8 .read [m.toNat]
    (fun s core ps =>
      let (bs, s1) := readParts x.ctx core 8 ps s
      let s2 := if d = a.areg.toNat then s1 else s1.bumpMa c a.areg.toNat a.inc 8
      .done (s2.modSeq c fun q => q.setMa d (BitVec.ofNat 64 (ofBytes bs))) none) s c x

/-- ALOAD, pointer form (R295). -/
def execAloadMa (a : AF) (s : State) : Host.Outcome State Fault Refusal := .next (s.seqIssue (.aloadMa a) (aloadMaBody a))

/-- An element as ASTORE writes it (R296, R68, R69). -/
def astElem (f : AstFmt) (m : Rm) (w : Word) : List Byte :=
  let conv (g : Fmt) : Nat :=
    match fdecode fmt32 w.toNat with
    | .nan _ => canonNaN g
    | .inf n => if g.inf then finf g n else canonNaN g
    | .zero n => fzero g n
    | .fin x => (roundTo g m x).1
  match f with
  | .b32 => bytesOf w.toNat 4
  | .f16 => bytesOf (conv fmt16) 2
  | .bf16 => bytesOf (conv fmtBf) 2
  | .e4m3 => bytesOf (conv fmtE4) 1
  | .e5m2 => bytesOf (conv fmtE5) 1

/-- Stores the rows `rs` of a tile, `ps` the parts of all 64 rows (R296). -/
def storeRows (f : AstFmt) (a : AF) (c : Key) (x : Crew) (ps : List (Nat × Nat)) (rs : List Nat) (s : State) : State :=
  let n := rowBytes f / 16
  let rows := chunks 64 64 (s.tileOf c a.acc.toNat)
  rs.foldl (fun s i =>
    writeParts x.ctx c 16 ((ps.drop (n * i)).take n) ((rows.getD i []).flatMap (astElem f (rmOf2 a.rm))) s) s

/-- Body of ASTORE (R296), as far as the rows `rs` (R307): those that it has stored already are not stored again, and its register
is increased when every row is stored. -/
def astoreBody (f : AstFmt) (a : AF) (rs : List Nat) (s : State) (c : Key) (x : Crew) : SeqEff :=
  let core := coreOfCrew c
  let m := x.seq.maReg a.areg.toNat
  let t := a.acc.toNat
  if (s.core core).tileForeign (cslotOf c) t then .fault .access (a.acc.setWidth 64)
  else
    memWord m 16 .write (rowParts m.toNat (strBytes a) (rowBytes f) 16)
      (fun s _ ps =>
        let todo := rs.filter fun i => decide (i < 64) && !x.seq.rows.contains i
        let s1 := storeRows f a c x ps todo (s.takeTiles core (cslotOf c) [t])
        let did := x.seq.rows ++ todo
        if did.length < 64 then .wait (s1.modSeq c fun q => { q with rows := did })
        else .done ((s1.modSeq c fun q => { q with rows := [] }).bumpMa c a.areg.toNat a.inc 64) none) s c x

/-- ASTORE (R296). -/
def execAstore (fmt : AstFmt) (a : AF) (s : State) : Host.Outcome State Fault Refusal :=
  .next (s.seqIssue (.astore fmt a) (astoreBody fmt a (List.range 64)))

/-- The sequencer in focus, at an ASTORE, stores some of its rows (R307). -/
def State.someRows (s : State) (i : Instr) (rs : List Nat) : State :=
  match i with
  | .astore f a => s.seqIssue i (astoreBody f a rs.dedup)
  | _ => s

/-- Body of SCLD (R297): every scale is read before any is written. -/
def scldBody (e4 : Bool) (areg idx cnt : Nat) (inc : BitVec 16) (s : State) (c : Key) (x : Crew) : SeqEff :=
  let n := cnt + 1
  let m := x.seq.maReg areg
  if 4096 < idx + n then .fault .access (BitVec.ofNat 64 (idx + n - 1))
  else
    memWord m 2 .read ((List.range n).map fun i => m.toNat + 2 * i)
      (fun s core ps =>
        let (bs, s1) := readParts x.ctx core 2 ps s
        let ws : List (BitVec 16) := (chunks 2 n bs).map fun b => BitVec.ofNat 16 (ofBytes b)
        if e4 && ws.any fun w => scaleType w != 0 then .fault .illegal 0
        else
          let s2 := s1.modCore (coreOfCrew c) fun y =>
            { y with scale := ws.zipIdx.foldl (fun t w => tset t (x.seq.half * 4096 + idx + w.2) w.1) y.scale }
          .done (s2.bumpMa c areg inc 64) none) s c x

/-- SCLD (R297). -/
def execScld (e4 : Bool) (areg : BitVec 3) (idx cnt : BitVec 12) (inc : BitVec 16) (s : State) :
    Host.Outcome State Fault Refusal :=
  .next (s.seqIssue (.scld e4 areg idx cnt inc) (scldBody e4 areg.toNat idx.toNat cnt.toNat inc))

-- Meeting the waves (R298, R299).

/-- SEEN of a weir. -/
def Seq.seenAt (q : Seq) (n : Nat) : Word := tget q.seen 0 n

/-- What a sequencer has written is released (R104, R125). -/
def State.seqReleases (s : State) (c : Key) : State := s.releaseLines fun e n => e == .seq && n == c

/-- Body of MARV (R298). -/
def marvBody (n cnt : Nat) (s : State) (c : Key) (x : Crew) : SeqEff :=
  let y := x.weir n
  match s.arrive c n cnt with
  | none => .fault .weircount (weirDet n y.armed cnt)
  | some s1 => .done ((s1.seqReleases c).modSeq c fun q => { q with seen := tset q.seen n y.p }) none

/-- MARV (R298). -/
def execMarv (weir : BitVec 4) (cnt : BitVec 6) (s : State) : Host.Outcome State Fault Refusal :=
  .next (s.seqIssue (.marv weir cnt) (marvBody weir.toNat cnt.toNat))

/-- A completed phase of the weir waits to be consumed (R299). -/
def Crew.phaseReady (x : Crew) (n : Nat) : Bool :=
  let d := ((x.weir n).p - x.seq.seenAt n).toNat
  decide (1 ≤ d) && decide (d ≤ 2 ^ 31)

/-- Body of MWAIT (R299). -/
def mwaitBody (n : Nat) (s : State) (c : Key) (x : Crew) : SeqEff :=
  if x.phaseReady n then .done (s.modSeq c fun q => { q with seen := tset q.seen n (q.seenAt n + 1) }) none
  else .wait (s.modSeq c fun q => { q with st := .parked, missVa := none })

/-- MWAIT (R299). -/
def execMwait (weir : BitVec 4) (s : State) : Host.Outcome State Fault Refusal :=
  .next (s.seqIssue (.mwait weir) (mwaitBody weir.toNat))

-- Stream control (R300 to R303).

/-- MREGION (R300). -/
def execMregion (mode : BitVec 2) (s : State) : Host.Outcome State Fault Refusal :=
  .next (s.seqIssue (.mregion mode) fun s c _ =>
    .done ((s.modCrew c fun x => { x with regionMode := mode }).islandSettle (coreOfCrew c)) none)

/-- A target of the stream: the word's address + OFF. -/
def seqTarget (x : Crew) (off : BitVec 32) : Nat := (BitVec.ofNat 64 x.seq.mpc + off.signExtend 64).toNat % 2 ^ 57

/-- Body of MLOOP (R301). -/
def mloopBody (lc n : Nat) (off : BitVec 32) (s : State) (c : Key) (x : Crew) : SeqEff :=
  let cnt := (if tget x.seq.lcAct false lc then tget x.seq.lcCnt 0 lc else n) - 1
  .done (s.modSeq c fun q => { q with lcCnt := tset q.lcCnt lc cnt, lcAct := tset q.lcAct lc (decide (0 < cnt)) })
    (if 0 < cnt then some (seqTarget x off) else none)

/-- MLOOP (R301). -/
def execMloop (lc : BitVec 2) (cnt : BitVec 16) (off : BitVec 32) (s : State) : Host.Outcome State Fault Refusal :=
  .next (s.seqIssue (.mloop lc cnt off) (mloopBody lc.toNat (cnt.toNat + 1) off))

/-- MJMP (R302). -/
def execMjmp (clr : BitVec 4) (off : BitVec 32) (s : State) : Host.Outcome State Fault Refusal :=
  .next (s.seqIssue (.mjmp clr off) fun s c x =>
    .done (s.modSeq c fun q =>
      { q with lcAct := (List.range 4).foldl (fun t n => if clr.getLsbD n then tset t n false else t) q.lcAct })
      (some (seqTarget x off)))

/-- MEND (R303). -/
def execMend (s : State) : Host.Outcome State Fault Refusal :=
  .next (s.seqIssue .mend fun s c _ =>
    .done ((s.seqReleases c).modSeq c fun q => { q with st := .ended, latch := none }) none)

-- Reports (R304, R305).

/-- The n newest check records, newest first; a slot never written is zeros (R304). -/
def Crew.newestChecks (x : Crew) (n : Nat) : List (List Dword) :=
  (List.range n).map fun k => x.chk.getD ((x.chkSeq.toNat + 2 ^ 32 - 1 - k) % 8) []

/-- Bytes of check records. -/
def checkBytes (rs : List (List Dword)) : List Byte :=
  rs.flatMap fun r => (List.range 4).flatMap fun i => bytesOf (r.getD i 0).toNat 8

/-- MCHK (R304). -/
def execMchk (n : BitVec 3) (areg : BitVec 3) (inc : BitVec 16) (s : State) : Host.Outcome State Fault Refusal :=
  .next (s.seqIssue (.mchk n areg inc) fun s c x =>
    let m := x.seq.maReg areg.toNat
    let k := n.toNat + 1
    memWord m 32 .write ((List.range (4 * k)).map fun i => m.toNat + 8 * i)
      (fun s _ ps =>
        .done ((writeParts x.ctx c 8 ps (checkBytes (x.newestChecks k)) s).bumpMa c areg.toNat inc 64) none) s c x)

/-- The value of MSRD (R305). -/
def State.msrdVal (s : State) (c : Key) (x : Crew) (sel : Nat) : Nat :=
  let d := s.die (dieOf (coreOfCrew c))
  match sel with
  | 8 => s.reft
  | 9 => d.cyc
  | 10 => d.ncyc
  | n => tget x.ctrs 0 n

/-- MSRD (R305). -/
def execMsrd (sel : BitVec 4) (areg : BitVec 3) (inc : BitVec 16) (s : State) : Host.Outcome State Fault Refusal :=
  .next (s.seqIssue (.msrd sel areg inc) fun s c x =>
    let m := x.seq.maReg areg.toNat
    memWord m 8 .write [m.toNat]
      (fun s _ ps =>
        .done ((writeParts x.ctx c 8 ps (bytesOf (s.msrdVal c x sel.toNat) 8) s).bumpMa c areg.toNat inc 8) none) s c x)

-- Injection (R306).

/-- INJ (R159, R306). -/
def execInj (acc : BitVec 4) (core : BitVec 8) (row col : BitVec 6) (bit : BitVec 5) (s : State) :
    Host.Outcome State Fault Refusal :=
  .next (s.seqIssue (.inj acc core row col bit) fun s _ x =>
    let n := core.toNat
    if decide (252 ≤ n) || !s.ownsCluster (polderOf x.ctx) (clusterOf n) || !s.ctxDbg x.ctx then
      .fault .access (core.setWidth 64)
    else
      .done (s.modCore n fun y =>
        { y with inj := some { ctx := x.ctx, tile := acc.toNat, row := row.toNat, col := col.toNat, bit := bit.toNat } }) none)

-- The start of a stream and its next word.

/-- The sequencer reads its pointer block at dispatch, or before its first word where it could not (R285). -/
def State.seqBegin (s : State) (c : Key) : State :=
  let x := s.crew c
  let a := recAddrOf x.lrec + 0xC0
  let halt (s : State) : Halt → State
    | .miss va => (s.modSeq c fun q => { q with st := .parked, missVa := some va }).reportMiss x.ctx va (.seq c)
    | .access _ => s.raiseSeq c .access (BitVec.ofNat 64 a)
    | .ecc l => (s.discardBad (clusterOf (coreOfCrew c)) l).raiseSeq c .eccfatal (BitVec.ofNat 64 (lineDet l))
    | .busy => s
    | .dry d => s.seqDry c (some d)
    | .peer pa va w => s.sendPeer .seq c 0 pa va w 0 8
  let vas := (List.range 16).map fun i => a + 4 * i
  match seqParts x.ctx (coreOfCrew c) .read vas s with
  | .halt h => halt s h
  | .ok s1 ps =>
    match partsBlocked s1 (some x.ctx) c .read vas ps with
    | some h => halt s1 h
    | none =>
      let (bs, s2) := readParts x.ctx (coreOfCrew c) 4 ps (s1.seqServed c)
      s2.modSeq c fun q =>
        { q with begun := true, ma := (chunks 8 8 bs).zipIdx.map fun b => (b.2, BitVec.ofNat 64 (ofBytes b.1)) }
where
  /-- ARGS of a launch record. -/
  recAddrOf (r : List Dword) : Nat := bits (r.getD 7 0) 56 0

/-- The next word of a crew's sequencer: fetched through the core's L1 instruction cache (R138) and decoded (R288). -/
def State.nextSeq (s : State) (c : Key) : Front :=
  let x := s.crew c
  if !x.seq.live || x.st != .running then .idle
  else if !x.seq.begun then .other (s.seqBegin c)
  else
    match s.fetchWord (some x.ctx) (coreOfCrew c) x.seq.mpc with
    | .wait => .idle
    | .miss => .other ((s.modSeq c fun q => { q with st := .parked, missVa := some x.seq.mpc }).reportMiss x.ctx x.seq.mpc (.seq c))
    | .access => late (.other (s.raiseSeq c .access (BitVec.ofNat 64 x.seq.mpc)))
    | .ecc l => late (.other (s.raiseSeq c .eccfatal (BitVec.ofNat 64 (lineDet l))))
    | .ok s1 w =>
      match decodeSeq w with
      | .ok i => .run s1 i
      | .clause | .access | .illegal => late (.other (s1.raiseSeq c .illegal 0 w))
where
  /-- A fault is precise: it waits until every earlier product has been executed. -/
  late (f : Front) : Front := if (s.core (coreOfCrew c)).openFor (cslotOf c) then .idle else f

end Sys2Proof.Machine
end

