-- ==== Sys2Proof/Machine/Engine.lean ====
section
/-! DEFINITION. Steps of a core's own logic: commits (R49), register banks (R45 to R48), the ends of parks (R27, R206), event
entry of reeve waves (R340), and the stops of engines at a floodgate (R160, R375 to R377). -/

namespace Sys2Proof.Machine

-- Results.

/-- A wave that has exited, its slots reading 0, counts as exited (R52). -/
def Wave.exitDone (w : Wave) : Wave := if w.exitWait && w.quiet then { w with exitWait := false, done := true } else w

/-- The oldest result of a wave that may commit commits (R49); a bank found wrong at its wake is RETLOSS at commit, attributed to the
word that wrote it (R48, R378). -/
def State.commitNext (s : State) (k : Key) : State :=
  let w := s.wave k
  match nextCommit w.pend with
  | none => s
  | some (p, rest) =>
    let (w1, lost) := ({ w with pend := rest }).commitPend p
    let s1 := s.sinceReady k (s.setWave k w1.exitDone)
    match lost with
    | some b => s1.raiseWave k .retloss (BitVec.ofNat 64 b) p.word true false
    | none => s1

/-- RESULT_COMMIT (R49, R57): a pending result whose data has arrived and whose window is closed commits. -/
def execResultCommit (w : Key) (s : State) : Host.Outcome State Fault Refusal :=
  .next (if s.clockOn (coreOf w) then s.commitNext w else s)

/-- Every result that may commit commits. -/
def State.commitAll (s : State) (k : Key) : State :=
  (List.range (s.wave k).pend.length).foldl (fun s _ => s.commitNext k) s

-- Register banks.

/-- BANK_WAKE_DONE (R45, R47, R48): the wake of a bank that a write began ends. -/
def execBankWakeDone (w : Key) (bank : Nat) (s : State) : Host.Outcome State Fault Refusal :=
  let x := s.wave w
  .next <|
    if !(x.bank bank).waking || !s.clockOn (coreOf w) then s
    else
      let (x1, lost) := x.wake [bank]
      match lost with
      | some b => (s.setWave w x1).raiseWave w .retloss (BitVec.ofNat 64 b) (x.bank bank).waker true false
      | none => s.setWave w x1

/-- BANK_OFF_IDLE (R45): the count of 16 cycles with every register DEAD begins, or, when it is full, the bank goes OFF. -/
def execBankOffIdle (w : Key) (bank : Nat) (s : State) : Host.Outcome State Fault Refusal :=
  let x := s.wave w
  let b := x.bank bank
  let now := s.cycles (coreOf w)
  .next <|
    if b.st == .off || x.bankLive bank || x.bankPend bank || b.waking then
      (if b.idle.isSome then s.setWave w (x.setBank bank { b with idle := none }) else s)
    else
      match b.idle with
      | none => s.setWave w (x.setBank bank { b with idle := some now })
      | some t => if t + 16 ≤ now then s.setWave w (x.setBank bank {}) else s

/-- BANK_RETAIN_HEADER (R46): a wave has waited 16 cycles at a header whose WAIT slots are not clear, and a bank of its RTN
groups enters RETAIN. -/
def execBankRetainHeader (w : Key) (bank : Nat) (s : State) : Host.Outcome State Fault Refusal :=
  let x := s.wave w
  .next <|
    match x.hwait, s.peek w x.pc with
    | some t, some h =>
      let hd := unpackH h
      if isHeader h && !x.waitClear hd.wait && hd.rtn.getLsbD (bank / 4) && decide (t + 16 ≤ s.cycles (coreOf w))
          && decide (8 * bank < x.allot) && x.canRun then s.setWave w (x.retain bank)
      else s
    | _, _ => s

/-- BANK_RETAIN_PARKED (R46, R57): a wave parked or stopped for longer than the retention threshold; a bank enters RETAIN. -/
def execBankRetainParked (w : Key) (bank : Nat) (s : State) : Host.Outcome State Fault Refusal :=
  let x := s.wave w
  let th := s.retth (crewOf w)
  .next <|
    if decide (th ≠ 0) && (x.park.isSome || x.stopped) && decide (x.parkSince + th < s.reft) then s.setWave w (x.retain bank)
    else s

-- Event entry of reeve waves.

/-- The words of an event record (R339). -/
def Event.words (e : Event) : List Dword := [BitVec.ofNat 64 (e.kind * 2 ^ 56 + e.handle.toNat), e.w1, e.w2, 0]

/-- The access that the event names, the oldest unreported one, is reported; the next one raises an event at once (R373). -/
def State.reported (s : State) (c : Nat) : State :=
  (s.modCtx c fun x => { x with unrep := x.unrep.drop 1 }).tellMiss c

/-- A reeve wave as an event enters it (R340): s0 to s7 hold the record, every other register is DEAD, every lane stands at
EVEC. DESIGN CHOICE (log 95): all else that the wave holds stays: lanes parked on rejoin registers, call records, masks, FPFLAGS, PART,
pending results. -/
def Wave.enterEvent (w : Wave) (evec : Dword) (e : Event) : Wave :=
  let ws : List Word := e.words.flatMap fun (d : Dword) => [d.setWidth 32, (d >>> 32).setWidth 32]
  { w with sreg := ws.zipIdx.map fun p => (p.2, p.1), slive := 0xFF, vlive := 0, lpc := Vector.replicate 32 evec,
           lhdr := Vector.replicate 32 none, clause := none, group := 0, park := none, parkI := none }

/-- TAKING AN EVENT: a reeve wave takes the oldest event of its die (R340, R373). -/
def State.takeEvent (s : State) (k : Key) : State :=
  let d := dieOf (coreOf k)
  match (s.die d).evq with
  | [] => s
  | e :: r =>
    let s1 := (s.modDie d fun x => { x with evq := r }).modWave k fun w => w.enterEvent (s.die d).evec e
    if e.kind = 0x02 then s1.reported (e.handle >>> 23).toNat else s1

/-- No reeve wave with a lower number is parked for an event (R340, R421). -/
def State.lowestIdle (s : State) (k : Key) : Bool :=
  (List.range 64).all fun i =>
    let j := waveKey (crewKey (coreOf k) (i / 32)) (i % 32)
    decide (k ≤ j) || (s.wave j).park != some .event || (s.wave j).stopped

-- The ends of parks.

/-- The mask of an LSU access word. -/
def accActive (i : Instr) (w : Wave) : LaneMask := w.act (lkOf i).pr (lkOf i).pn

/-- The access of a wave that waits for a peer, for a token, or in a crossing FIFO, is tried again, even in a stopped wave (R318, R365,
R375, R414). -/
def State.retryHeld (s : State) (k : Key) : State :=
  match (s.wave k).held with
  | h :: _ => if h.fifo && s.clockOn (coreOf k) then s.replay k 17 else s
  | [] => s

/-- The ring of a parked LAUNCH has room (R354). -/
def State.ringRoom (s : State) (k : Key) : Bool :=
  match (s.wave k).parkI with
  | some (.launch x) => let q := ((s.wave k).rs x.d.toNat).toNat; decide (s.qFill q < 2 ^ s.qLog q)
  | _ => true

/-- The condition of a wave's park clears, if it has (R27, R206). -/
def State.unparkWave (s : State) (k : Key) : State :=
  let w := s.wave k
  let c := crewOf k
  match w.park with
  | some p =>
    if w.stopped || !s.clockOn (coreOf k) then s
    else
      match p with
      | .weir n ph _ => if ((s.crew c).weir n).p ≠ ph then s.finish k [] else s
      | .cbwait n ph => if (s.cbar k n).p ≠ ph then s.finish k [] else s
      | .cbarv n ph => if (s.cbar k n).p ≠ ph then s.reissue k else s
      | .q0 => if decide (s.tkOut k < 16) && s.q0room k then s.reissue k else s
      | .q1 => if w.tokens ≠ [] || !s.tkComing k then s.reissue k else s
      | .launch => if s.ringRoom k then s.reissue k else s
      | .tag => s.tagDone k
      | .miss => if w.held = [] then s.reissue k else s
      | .event => if s.lowestIdle k then s.takeEvent k else s
      | .acqx _ | .ldwatch _ _ | .sleep _ | .fetchMiss _ | .watchMiss _ _ _ => s
  | none => s

/-- WAVE_UNPARK (R27, R206, R340): an access of the wave that waited in a crossing FIFO, for a token or for a peer is tried again, and
its park ends if its condition has cleared. -/
def execWaveUnpark (w : Key) (s : State) : Host.Outcome State Fault Refusal := .next ((s.retryHeld w).unparkWave w)

-- Stops at a floodgate.

/-- The corrections of a crew slot are made. -/
def State.correctAll (s : State) (core cslot : Nat) : State :=
  (((s.core core).fixing.filter fun m => m.cslot == cslot)).foldl (fun s m => s.correct core m) s

/-- The engine at the stop of a crew's sequencer: the verdict of its attempt and the corrections are completed, no re-issue is run,
and what has not started waits (R160). -/
def State.settleEngine (s : State) (core cslot : Nat) : State :=
  let s1 := match (s.core core).attempt with
    | none => s
    | some m =>
      if m.cslot ≠ cslot then s
      else match m.phase with
        | .attempt => s.verdict core m
        | .correct | .reissue => s.dropAttempt core m
  s1.correctAll core cslot

/-- A crew's sequencer stops at a word (R160, R375): the engine goes on with what the others have issued, and an exact product no
longer holds the island. -/
def State.haltSeq (s : State) (c : Key) : State :=
  if (s.crew c).seq.st == .off then s
  else
    let core := coreOfCrew c
    let s1 := (s.modSeq c fun q => { q with stopped := true, rows := [] }).settleEngine core (cslotOf c)
    (s1.islandSettle core).engineGo core

/-- The class of the record of an engine that the floodgate stops: FLOOD where the FLOOD word raised it (R342, R349). -/
def State.stopCls (s : State) (c : Nat) : Option FClass := if (s.ctx c).byFlood then some .flood else none

/-- An engine has written its record for the context's stop. -/
def State.hasRec (s : State) (c : Nat) (e : EngKind) (key : Nat) : Bool := (s.ctx c).recs.any fun r => r.eng == e && r.key == key

/-- Adds a stop record to the context's stop (R376). -/
def State.addRec (s : State) (c : Nat) (r : StopRec) : State :=
  (s.modCtx c fun x => { x with recs := x.recs ++ [{ r with reft := s.reft }] }).tellClass c

/-- A wave stops at its word boundary and writes its record (R375, R377); a stuck one has faulted before that (R188, R376). One that
ROLLBK has restored under this stop, whose records it has discarded, writes none (R348). -/
def State.stopWave (s : State) (k : Key) : State :=
  let s := if (s.wave k).standing.group = 0 then s.reach k else s
  let w := s.wave k
  let c := (s.crew (crewOf k)).ctx
  if !w.here || w.nonExited = 0 || (w.stopped && (s.ctx c).discarded) || s.hasRec c .wave k then s
  else
    (((s.leaveAcq k).leaveQuad k).modWave k fun w =>
      { w with stopped := true, parkSince := if w.park.isSome || w.stopped then w.parkSince else s.reft }).addRec c
      (s.waveRec k (s.stopCls c) 0 0 false)

/-- A sequencer stops and writes its record, which names the word at which it stands, or its first product that is not executed (R160,
R375, R377). -/
def State.stopSeq (s : State) (c : Key) : State :=
  let x := s.crew c
  if x.seq.st == .off || x.seq.st == .ended || (x.seq.stopped && (s.ctx x.ctx).discarded) || s.hasRec x.ctx .seq c then s
  else
    let s1 := s.haltSeq c
    if (s1.crew c).seq.st == .ended then s1
    else s1.addRec x.ctx { cls := s.stopCls x.ctx, eng := .seq, key := c, handle := s.crewHandle c, pc := s1.seqPc c }

/-- Crews of a context on a core, by CSLOT. -/
def State.crewsOn (s : State) (c core : Nat) : List Key := (s.residents core).filter fun k => (s.crew k).ctx == c

/-- The copy engine of a core stops for a context and writes its record (R270, R375, R377, R378). -/
def State.stopCopy (s : State) (c core : Nat) : State :=
  let mine := (s.crewsOn c core).filter fun k => (s.crew k).st == .running || !(s.ctx c).discarded
  if mine = [] || s.hasRec c .copy core then s
  else
    let q := (s.core core).copyq
    let own (e : CopyEnt) : Bool := (s.crew (crewKey core e.cslot)).ctx == c
    let pos := q.findIdx? fun e => own e && e.st != .queued
    let e := pos.bind fun i => q[i]?
    (s.modCore core fun x => { x with copyq := x.copyq.map fun e => if own e then { e with stopped := true } else e }).addRec c
      { cls := s.stopCls c, eng := .copy, key := core, handle := s.crewHandle (mine.headD 0),
        word := match e with | some e => packCopyW0 e.cmd | none => 0, mask := BitVec.ofNat 32 (pos.getD 0),
        beats := match e with | some e => e.mark + e.more.length | none => 0 }

/-- Context of the engine that sent an operation to a peer. -/
def State.opCtx (s : State) (o : PeerOp) : Nat :=
  match o.eng with
  | .wave => (s.crew (crewOf o.key)).ctx
  | .seq => (s.crew o.key).ctx
  | _ => match (s.core o.key).copyq.find? fun e => e.id == o.lane with
    | some e => (s.crew (crewKey o.key e.cslot)).ctx
    | none => fwCtx

/-- Die of the engine that sent an operation. -/
def opDie (o : PeerOp) : Nat :=
  match o.eng with
  | .wave => dieOf (coreOf o.key)
  | .seq => dieOf (coreOfCrew o.key)
  | _ => dieOf o.key

/-- The fabric record of a die on which operations of the context are in flight (R377). -/
def State.stopFabric (s : State) (c die : Nat) : State :=
  if s.hasRec c .fabric die || !(s.pkg.peerOps.any fun o => s.opCtx o == c && opDie o == die) then s
  else s.addRec c { cls := s.stopCls c, eng := .fabric, key := die, handle := ctxHandle c }

/-- The waves of a crew. -/
def wavesOf (c : Key) : List Key := (List.range 32).map fun i => waveKey c i

/-- Every engine of a context stops and writes its record (R375, R377). -/
def State.stopAll (s : State) (c : Nat) : State :=
  let ks := s.ctxCrews c
  let s1 := ks.foldl (fun s k => (wavesOf k).foldl State.stopWave (s.stopSeq k)) s
  let s2 := ((ks.map coreOfCrew).dedup).foldl (fun s n => s.stopCopy c n) s1
  (List.range 4).foldl (fun s d => s.stopFabric c d) s2

/-- FLOODGATE_STOP (R375 to R377): a raised floodgate reaches one engine: 0 a wave, 1 a sequencer, 2 the copy engine of a core,
3 the fabric operations of a die. -/
def execFloodgateStop (eng key : Nat) (s : State) : Host.Outcome State Fault Refusal :=
  let up (c : Nat) : Bool := (s.ctx c).up
  .next <|
    match eng with
    | 0 => if up (s.crew (crewOf key)).ctx && !isReeveCore (coreOf key) then s.stopWave key else s
    | 1 => if up (s.crew key).ctx && !isReeveCore (coreOfCrew key) && s.clockOn (coreOfCrew key) then s.stopSeq key else s
    | 2 => (((s.residents key).map fun k => (s.crew k).ctx).dedup).foldl (fun s c => if up c && !isReeveCore key then s.stopCopy c key else s) s
    | 3 => ((List.range 512).filter up).foldl (fun s c => s.stopFabric c key) s
    | _ => s

end Sys2Proof.Machine
end

