-- ==== Sys2Proof/Machine/Integer.lean ====
section
/-! DEFINITION. The integer and bit words (R208 to R225), OPC 0x20 to 0x47, except the queue ports. -/

namespace Sys2Proof.Machine

-- Values (w is the operand width in bits).

/-- R211. -/
def iaddVal (w a b : Nat) : Nat := (a + b) % 2 ^ w
/-- R211. -/
def isubVal (w a b : Nat) : Nat := (a + (2 ^ w - b % 2 ^ w)) % 2 ^ w
/-- R211. -/
def imulVal (w a b : Nat) : Nat := a * b % 2 ^ w
/-- R211. -/
def imulhVal (sg : Bool) (w a b : Nat) : Nat :=
  if sg then wrapOf w (sgnOf w a * sgnOf w b / (2 ^ w : Nat)) else a * b / 2 ^ w % 2 ^ w
/-- R211. -/
def imadVal (w a b c : Nat) : Nat := (a * b + c) % 2 ^ w
/-- R212: the factors extended to 64 bits under the type. -/
def imadwVal (sg : Bool) (a b c : Nat) : Nat :=
  if sg then wrapOf 64 (sgnOf 32 a * sgnOf 32 b + c) else (a * b + c) % 2 ^ 64
/-- a < b, compared under the type. -/
def iLt (sg : Bool) (w a b : Nat) : Bool := if sg then decide (sgnOf w a < sgnOf w b) else decide (a < b)
/-- R211. -/
def iminVal (sg : Bool) (w a b : Nat) : Nat := if iLt sg w b a then b else a
/-- R211. -/
def imaxVal (sg : Bool) (w a b : Nat) : Nat := if iLt sg w a b then b else a
/-- R211. -/
def inegVal (w a : Nat) : Nat := wrapOf w (-(sgnOf w a))
/-- R211. -/
def iabsVal (w a : Nat) : Nat := if 0 ≤ sgnOf w a then a else inegVal w a
/-- R77, R213: quotient rounded toward zero, with the edge results. -/
def idivVal (sg : Bool) (w a b : Nat) : Nat :=
  if b = 0 then
    if !sg then 2 ^ w - 1 else if 0 ≤ sgnOf w a then 2 ^ (w - 1) - 1 else 2 ^ (w - 1)
  else if sg then wrapOf w (Int.tdiv (sgnOf w a) (sgnOf w b)) else a / b
/-- R77, R213: dividend minus divisor times quotient. -/
def iremVal (sg : Bool) (w a b : Nat) : Nat :=
  if b = 0 then a else if sg then wrapOf w (Int.tmod (sgnOf w a) (sgnOf w b)) else a % b
/-- R214. -/
def icmpVal (c : Cond) (sg : Bool) (w a b : Nat) : Bool :=
  match c with
  | .eq => decide (a = b)
  | .ne => decide (a ≠ b)
  | .lt => iLt sg w a b
  | .le => !iLt sg w b a
  | .gt => iLt sg w b a
  | .ge => !iLt sg w a b
/-- R216. -/
def notVal (w a : Nat) : Nat := 2 ^ w - 1 - a % 2 ^ w
/-- A number from its w lowest bits. -/
def ofBits (w : Nat) (f : Nat → Bool) : Nat := (List.range w).foldl (fun acc n => acc + if f n then 2 ^ n else 0) 0
/-- R217: A is the least significant bit of the table index. -/
def tlogVal (t : BitVec 8) (a b c : Nat) : Nat :=
  ofBits 32 fun n => t.getLsbD ((a / 2 ^ n % 2) + 2 * (b / 2 ^ n % 2) + 4 * (c / 2 ^ n % 2))
/-- R218. -/
def shlVal (w a s : Nat) : Nat := if w ≤ s then 0 else a * 2 ^ s % 2 ^ w
/-- R218. -/
def shrVal (w a s : Nat) : Nat := if w ≤ s then 0 else a / 2 ^ s
/-- R218. -/
def sarVal (w a s : Nat) : Nat :=
  if w ≤ s then (if sgnOf w a < 0 then 2 ^ w - 1 else 0) else wrapOf w (sgnOf w a / (2 ^ s : Nat))
/-- R218. -/
def rotVal (w a s : Nat) : Nat := (a * 2 ^ (s % w) + a / 2 ^ (w - s % w)) % 2 ^ w
/-- R218. -/
def fshfVal (w a s c : Nat) : Nat := (c * 2 ^ w + a) / 2 ^ (s % w) % 2 ^ w
/-- R219: LEN, at most w, of a control operand. -/
def bfLen (w ctl : Nat) : Nat := min (ctl / 256 % 256) w
/-- R219: POS of a control operand. -/
def bfPos (ctl : Nat) : Nat := ctl % 256
/-- R219. -/
def bfeVal (sg : Bool) (w a ctl : Nat) : Nat :=
  let n := bfLen w ctl
  let x : Int := if sg then sgnOf w a else (a : Int)
  let f := x / (2 ^ bfPos ctl : Nat) % (2 ^ n : Nat)
  if n = 0 then 0 else if sg then wrapOf w (sgnOf n f.toNat) else f.toNat
/-- R219. -/
def bfiVal (w a ctl c : Nat) : Nat :=
  let m := (2 ^ bfLen w ctl - 1) * 2 ^ bfPos ctl % 2 ^ w
  (c &&& notVal w m) ||| (a * 2 ^ bfPos ctl % 2 ^ w &&& m)
/-- R220. -/
def popcVal (w a : Nat) : Nat := ((List.range w).filter fun n => a.testBit n).length
/-- R220. -/
def clzVal (w a : Nat) : Nat := if a = 0 then w else w - 1 - Nat.log2 a
/-- R220. -/
def ctzVal (w a : Nat) : Nat := ((List.range w).find? fun n => a.testBit n).getD w
/-- R220. -/
def brevVal (w a : Nat) : Nat := ofBits w fun n => a.testBit (w - 1 - n)
/-- R221: one byte of the result. -/
def bpermByte (ab sel : Nat) : Nat :=
  let x := ab / 256 ^ (sel % 8) % 256
  match sel / 16 % 4 with
  | 0 => x
  | 1 => 0
  | 2 => if 128 ≤ x then 255 else 0
  | _ => brevVal 8 x
/-- R221. -/
def bpermVal (a b c : Nat) : Nat :=
  let ab := a + 2 ^ 32 * b
  bpermByte ab (c % 256) + 256 * bpermByte ab (c / 256 % 256) + 65536 * bpermByte ab (c / 65536 % 256)
    + 16777216 * bpermByte ab (c / 16777216 % 256)

-- The words.

/-- IADD (R211). -/
def execIadd (sf : Bool) (ty : ITy) (x : VF) (s : State) : Host.Outcome State Fault Refusal :=
  .next (s.issue (.iadd sf ty x)
    (intBody (.iadd sf ty x) sf x fun o => iaddVal (tyBits ty) o.a o.b))

/-- ISUB (R211). -/
def execIsub (sf : Bool) (ty : ITy) (x : VF) (s : State) : Host.Outcome State Fault Refusal :=
  .next (s.issue (.isub sf ty x)
    (intBody (.isub sf ty x) sf x fun o => isubVal (tyBits ty) o.a o.b))

/-- IMUL (R211). -/
def execImul (sf : Bool) (ty : ITy) (x : VF) (s : State) : Host.Outcome State Fault Refusal :=
  .next (s.issue (.imul sf ty x)
    (intBody (.imul sf ty x) sf x fun o => imulVal (tyBits ty) o.a o.b))

/-- IMULH (R211). -/
def execImulh (sf : Bool) (ty : ITy) (x : VF) (s : State) : Host.Outcome State Fault Refusal :=
  .next (s.issue (.imulh sf ty x)
    (intBody (.imulh sf ty x) sf x fun o => imulhVal ty.signed (tyBits ty) o.a o.b))

/-- IMAD (R211). -/
def execImad (sf : Bool) (ty : ITy) (x : VF) (s : State) : Host.Outcome State Fault Refusal :=
  .next (s.issue (.imad sf ty x)
    (intBody (.imad sf ty x) sf x fun o => imadVal (tyBits ty) o.a o.b o.c))

/-- IMADW (R212). -/
def execImadw (sf : Bool) (ty : ITy) (x : VF) (s : State) : Host.Outcome State Fault Refusal :=
  .next (s.issue (.imadw sf ty x)
    (intBody (.imadw sf ty x) sf x fun o => imadwVal ty.signed o.a o.b o.c))

/-- IMIN (R211). -/
def execImin (sf : Bool) (ty : ITy) (x : VF) (s : State) : Host.Outcome State Fault Refusal :=
  .next (s.issue (.imin sf ty x)
    (intBody (.imin sf ty x) sf x fun o => iminVal ty.signed (tyBits ty) o.a o.b))

/-- IMAX (R211). -/
def execImax (sf : Bool) (ty : ITy) (x : VF) (s : State) : Host.Outcome State Fault Refusal :=
  .next (s.issue (.imax sf ty x)
    (intBody (.imax sf ty x) sf x fun o => imaxVal ty.signed (tyBits ty) o.a o.b))

/-- IABS (R211). -/
def execIabs (sf : Bool) (ty : ITy) (x : VF) (s : State) : Host.Outcome State Fault Refusal :=
  .next (s.issue (.iabs sf ty x)
    (intBody (.iabs sf ty x) sf x fun o => iabsVal (tyBits ty) o.a))

/-- INEG (R211). -/
def execIneg (sf : Bool) (ty : ITy) (x : VF) (s : State) : Host.Outcome State Fault Refusal :=
  .next (s.issue (.ineg sf ty x)
    (intBody (.ineg sf ty x) sf x fun o => inegVal (tyBits ty) o.a))

/-- A division word: the result, and DZ of the live active lanes whose divisor is 0; a scalar form raises it once
(R77, R213). -/
def divBody (i : Instr) (sf : Bool) (ty : ITy) (x : VF) (op : Srcs → Nat) (s : State) (k : Key) (w : Wave) : Eff :=
  let (na, nb, nc, _) := widths i
  let s1 := s.flagLanes k (w.act x.pr x.pn) fun l =>
    divFlags (tyBits ty) (if sf then (s.srcS k w x na nb nc).b else (s.srcV k w x na nb nc l).b)
  intBody i sf x op s1 k w

/-- IDIV (R77, R213). -/
def execIdiv (sf : Bool) (ty : ITy) (x : VF) (s : State) : Host.Outcome State Fault Refusal :=
  .next (s.issue (.idiv sf ty x)
    (divBody (.idiv sf ty x) sf ty x fun o => idivVal ty.signed (tyBits ty) o.a o.b))

/-- IREM (R77, R213). -/
def execIrem (sf : Bool) (ty : ITy) (x : VF) (s : State) : Host.Outcome State Fault Refusal :=
  .next (s.issue (.irem sf ty x)
    (divBody (.irem sf ty x) sf ty x fun o => iremVal ty.signed (tyBits ty) o.a o.b))

/-- ICMP (R214). -/
def execIcmp (sf : Bool) (ty : ITy) (cond : Cond) (x : VF) (s : State) : Host.Outcome State Fault Refusal :=
  .next (s.issue (.icmp sf ty cond x)
    (intMaskBody (.icmp sf ty cond x) sf x fun o => icmpVal cond ty.signed (tyBits ty) o.a o.b))

/-- Body of ISEL (R215): the mask bit of the lane, or of the lowest lane of M in the scalar form. -/
def iselBody (sf : Bool) (ty : ITy) (x : VF) (s : State) (k : Key) (w : Wave) : Eff :=
  let m := w.act x.pr x.pn
  let n := ty.regs
  let kc := w.k x.c.toNat
  .done s [if sf then
      let o := s.srcS k w x n n 0
      resS x.d.toNat n m (if inMask kc (lowLane m) then o.a else o.b)
    else resV x.d.toNat n m fun l =>
      let o := s.srcV k w x n n 0 l
      if inMask kc l then o.a else o.b]

/-- ISEL (R215). -/
def execIsel (sf : Bool) (ty : ITy) (x : VF) (s : State) : Host.Outcome State Fault Refusal :=
  .next (s.issue (.isel sf ty x) (iselBody sf ty x))

/-- AND (R216). -/
def execAnd (sf : Bool) (ty : ITy) (x : VF) (s : State) : Host.Outcome State Fault Refusal :=
  .next (s.issue (.and sf ty x)
    (intBody (.and sf ty x) sf x fun o => o.a &&& o.b))

/-- OR (R216). -/
def execOr (sf : Bool) (ty : ITy) (x : VF) (s : State) : Host.Outcome State Fault Refusal :=
  .next (s.issue (.or sf ty x)
    (intBody (.or sf ty x) sf x fun o => o.a ||| o.b))

/-- XOR (R216). -/
def execXor (sf : Bool) (ty : ITy) (x : VF) (s : State) : Host.Outcome State Fault Refusal :=
  .next (s.issue (.xor sf ty x)
    (intBody (.xor sf ty x) sf x fun o => o.a ^^^ o.b))

/-- NOT (R216). -/
def execNot (sf : Bool) (ty : ITy) (x : VF) (s : State) : Host.Outcome State Fault Refusal :=
  .next (s.issue (.not sf ty x)
    (intBody (.not sf ty x) sf x fun o => notVal (tyBits ty) o.a))

/-- TLOG (R217). -/
def execTlog (sf : Bool) (t : BitVec 8) (x : VF) (s : State) : Host.Outcome State Fault Refusal :=
  .next (s.issue (.tlog sf t x) (intBody (.tlog sf t x) sf x fun o => tlogVal t o.a o.b o.c))

/-- SHL (R218). -/
def execShl (sf : Bool) (ty : ITy) (x : VF) (s : State) : Host.Outcome State Fault Refusal :=
  .next (s.issue (.shl sf ty x)
    (intBody (.shl sf ty x) sf x fun o => shlVal (tyBits ty) o.a o.b))

/-- SHR (R218). -/
def execShr (sf : Bool) (ty : ITy) (x : VF) (s : State) : Host.Outcome State Fault Refusal :=
  .next (s.issue (.shr sf ty x)
    (intBody (.shr sf ty x) sf x fun o => shrVal (tyBits ty) o.a o.b))

/-- SAR (R218). -/
def execSar (sf : Bool) (ty : ITy) (x : VF) (s : State) : Host.Outcome State Fault Refusal :=
  .next (s.issue (.sar sf ty x)
    (intBody (.sar sf ty x) sf x fun o => sarVal (tyBits ty) o.a o.b))

/-- ROT (R218). -/
def execRot (sf : Bool) (ty : ITy) (x : VF) (s : State) : Host.Outcome State Fault Refusal :=
  .next (s.issue (.rot sf ty x)
    (intBody (.rot sf ty x) sf x fun o => rotVal (tyBits ty) o.a o.b))

/-- FSHF (R218). -/
def execFshf (sf : Bool) (ty : ITy) (x : VF) (s : State) : Host.Outcome State Fault Refusal :=
  .next (s.issue (.fshf sf ty x)
    (intBody (.fshf sf ty x) sf x fun o => fshfVal (tyBits ty) o.a o.b o.c))

/-- BFE (R219). -/
def execBfe (sf : Bool) (ty : ITy) (x : VF) (s : State) : Host.Outcome State Fault Refusal :=
  .next (s.issue (.bfe sf ty x)
    (intBody (.bfe sf ty x) sf x fun o => bfeVal ty.signed (tyBits ty) o.a o.b))

/-- BFI (R219). -/
def execBfi (sf : Bool) (ty : ITy) (x : VF) (s : State) : Host.Outcome State Fault Refusal :=
  .next (s.issue (.bfi sf ty x)
    (intBody (.bfi sf ty x) sf x fun o => bfiVal (tyBits ty) o.a o.b o.c))

/-- POPC (R220). -/
def execPopc (sf : Bool) (ty : ITy) (x : VF) (s : State) : Host.Outcome State Fault Refusal :=
  .next (s.issue (.popc sf ty x)
    (intBody (.popc sf ty x) sf x fun o => popcVal (tyBits ty) o.a))

/-- CLZ (R220). -/
def execClz (sf : Bool) (ty : ITy) (x : VF) (s : State) : Host.Outcome State Fault Refusal :=
  .next (s.issue (.clz sf ty x)
    (intBody (.clz sf ty x) sf x fun o => clzVal (tyBits ty) o.a))

/-- CTZ (R220). -/
def execCtz (sf : Bool) (ty : ITy) (x : VF) (s : State) : Host.Outcome State Fault Refusal :=
  .next (s.issue (.ctz sf ty x)
    (intBody (.ctz sf ty x) sf x fun o => ctzVal (tyBits ty) o.a))

/-- BREV (R220). -/
def execBrev (sf : Bool) (ty : ITy) (x : VF) (s : State) : Host.Outcome State Fault Refusal :=
  .next (s.issue (.brev sf ty x)
    (intBody (.brev sf ty x) sf x fun o => brevVal (tyBits ty) o.a))

/-- BPERM (R221). -/
def execBperm (sf : Bool) (ty : ITy) (x : VF) (s : State) : Host.Outcome State Fault Refusal :=
  .next (s.issue (.bperm sf ty x)
    (intBody (.bperm sf ty x) sf x fun o => bpermVal o.a o.b o.c))

/-- MOV (R222). -/
def execMov (sf : Bool) (ty : ITy) (x : VF) (s : State) : Host.Outcome State Fault Refusal :=
  .next (s.issue (.mov sf ty x)
    (intBody (.mov sf ty x) sf x fun o => o.a))

/-- The value MOVI writes (R223). -/
def moviVal (kind : MoviKind) (imm : BitVec 32) : Nat :=
  match kind with
  | .b32 | .n64 => imm.toNat
  | .i64 => (imm.signExtend 64).toNat

/-- Body of MOVI (R223). -/
def moviBody (sf : Bool) (kind : MoviKind) (x : IF) (s : State) (_ : Key) (w : Wave) : Eff :=
  let m := w.act x.pr x.pn
  let n := if kind == .b32 then 1 else 2
  .done s [if sf then resS x.d.toNat n m (moviVal kind x.imm)
    else resV x.d.toNat n m fun _ => moviVal kind x.imm]

/-- MOVI (R223). -/
def execMovi (sf : Bool) (kind : MoviKind) (x : IF) (s : State) : Host.Outcome State Fault Refusal :=
  .next (s.issue (.movi sf kind x) (moviBody sf kind x))

/-- Body of RDLANE (R224): an exited or never launched lane reads 0. -/
def rdlaneBody (ty : ITy) (x : VF) (s : State) (k : Key) (w : Wave) : Eff :=
  let m := w.act x.pr x.pn
  let l : Fin 32 := Fin.ofNat 32 (s.bInt k w x 1 0)
  .done s [resS x.d.toNat ty.regs m (if inMask w.nonExited l then w.rvn x.a.toNat ty.regs l else 0)]

/-- RDLANE (R224). -/
def execRdlane (ty : ITy) (x : VF) (s : State) : Host.Outcome State Fault Refusal :=
  .next (s.issue (.rdlane ty x) (rdlaneBody ty x))

/-- Body of BCAST (R225). -/
def bcastBody (ty : ITy) (x : VF) (s : State) (_ : Key) (w : Wave) : Eff :=
  .done s [resV x.d.toNat ty.regs (w.act x.pr x.pn) fun _ => w.rsn x.a.toNat ty.regs]

/-- BCAST (R225). -/
def execBcast (ty : ITy) (x : VF) (s : State) : Host.Outcome State Fault Refusal :=
  .next (s.issue (.bcast ty x) (bcastBody ty x))

end Sys2Proof.Machine
end

