-- ==== Sys2Proof/Machine/Float.lean ====
section
/-! DEFINITION. The floating words (R226 to R243), the paired word (R170), quantisation (R80 to R84, R240 to R243). -/

namespace Sys2Proof.Machine

/-- Format of a type code (R172). -/
def ftFmt : FTy → Fmt
  | .f32 => fmt32
  | .f64 => fmt64
  | .f16 => fmt16
  | .bf16 => fmtBf

/-- An 8-bit immediate converted exactly to a format (R226), in both elements of a packed one. -/
def immFloat (ft : FTy) (b : BitVec 8) : Nat :=
  let c := (roundReal (ftFmt ft) .rne (Dy.int (immOf b)) false).1
  if ft.isScalarFmt then c else c + 65536 * c

/-- Operand B of a floating word in a lane (R226). -/
def Wave.bFloat (w : Wave) (ft : FTy) (x : VF) (n : Nat) (l : Fin 32) : Nat :=
  if x.bk = 0 then w.rvn x.b.toNat n l
  else if x.bk = 1 then w.rsn x.b.toNat n
  else immFloat ft x.b

/-- Sources of a floating word in a lane. -/
def Wave.srcF (w : Wave) (ft : FTy) (x : VF) (na nb nc : Nat) (l : Fin 32) : Srcs :=
  { a := w.rvn x.a.toNat na l, b := w.bFloat ft x nb l, c := w.rvn x.c.toNat nc l }

/-- FloatExec of R227: value and flags per lane of M. -/
def floatBody (i : Instr) (ft : FTy) (x : VF) (op : Srcs → Nat × Flags) (s : State) (k : Key) (w : Wave) : Eff :=
  let m := w.act x.pr x.pn
  let (na, nb, nc, nd) := widths i
  .done (s.flagLanes k m fun l => (op (w.srcF ft x na nb nc l)).2)
    [resV x.d.toNat nd m fun l => (op (w.srcF ft x na nb nc l)).1]

/-- Applies an operation to both elements of packed operands (R234). -/
def packedOp (op : Nat → Nat → Nat → Nat × Flags) (o : Srcs) : Nat × Flags :=
  let r0 := op (o.a % 65536) (o.b % 65536) (o.c % 65536)
  let r1 := op (o.a / 65536 % 65536) (o.b / 65536 % 65536) (o.c / 65536 % 65536)
  (r0.1 + 65536 * r1.1, r0.2 ||| r1.2)

-- The arithmetic words.

/-- FADD (R229). -/
def execFadd (ft : FTy) (rm : Rm) (x : VF) (s : State) : Host.Outcome State Fault Refusal :=
  .next (s.issue (.fadd ft rm x) (floatBody (.fadd ft rm x) ft x fun o => fAdd (ftFmt ft) rm o.a o.b))

/-- FMUL (R229). -/
def execFmul (ft : FTy) (rm : Rm) (x : VF) (s : State) : Host.Outcome State Fault Refusal :=
  .next (s.issue (.fmul ft rm x) (floatBody (.fmul ft rm x) ft x fun o => fMul (ftFmt ft) rm o.a o.b))

/-- FFMA (R229). -/
def execFfma (ft : FTy) (rm : Rm) (x : VF) (s : State) : Host.Outcome State Fault Refusal :=
  .next (s.issue (.ffma ft rm x) (floatBody (.ffma ft rm x) ft x fun o => fFma (ftFmt ft) rm o.a o.b o.c))

/-- FMIN (R230). -/
def execFmin (ft : FTy) (x : VF) (s : State) : Host.Outcome State Fault Refusal :=
  .next (s.issue (.fmin ft x) (floatBody (.fmin ft x) ft x fun o => fMinMax (ftFmt ft) false o.a o.b))

/-- FMAX (R230). -/
def execFmax (ft : FTy) (x : VF) (s : State) : Host.Outcome State Fault Refusal :=
  .next (s.issue (.fmax ft x) (floatBody (.fmax ft x) ft x fun o => fMinMax (ftFmt ft) true o.a o.b))

/-- Body of FCMP (R231): bit L of kD per lane of M. -/
def fcmpBody (ft : FTy) (cond : FCond) (x : VF) (s : State) (k : Key) (w : Wave) : Eff :=
  let m := w.act x.pr x.pn
  let r (l : Fin 32) := let o := w.srcF ft x ft.regs ft.regs 0 l; fCompare (ftFmt ft) cond o.a o.b
  .done (s.flagLanes k m fun l => (r l).2) [resK x.d.toNat m fun l => (r l).1]

/-- FCMP (R231). -/
def execFcmp (ft : FTy) (cond : FCond) (x : VF) (s : State) : Host.Outcome State Fault Refusal :=
  .next (s.issue (.fcmp ft cond x) (fcmpBody ft cond x))

/-- FCLASS (R232). -/
def execFclass (ft : FTy) (x : VF) (s : State) : Host.Outcome State Fault Refusal :=
  .next (s.issue (.fclass ft x) (floatBody (.fclass ft x) ft x fun o => (fClass (ftFmt ft) o.a, 0)))

/-- FRND (R233). -/
def execFrnd (ft : FTy) (rm : Rm) (x : VF) (s : State) : Host.Outcome State Fault Refusal :=
  .next (s.issue (.frnd ft rm x) (floatBody (.frnd ft rm x) ft x fun o => fRnd (ftFmt ft) rm o.a))

/-- Body of FSCALE (R233): B is read as `.i32`, an immediate sign-extended. -/
def fscaleBody (ft : FTy) (rm : Rm) (x : VF) (s : State) (k : Key) (w : Wave) : Eff :=
  let m := w.act x.pr x.pn
  let r (l : Fin 32) := fScale (ftFmt ft) rm (w.rvn x.a.toNat ft.regs l) (sgnOf 32 (s.bInt k w x 1 l))
  .done (s.flagLanes k m fun l => (r l).2) [resV x.d.toNat ft.regs m fun l => (r l).1]

/-- FSCALE (R233). -/
def execFscale (ft : FTy) (rm : Rm) (x : VF) (s : State) : Host.Outcome State Fault Refusal :=
  .next (s.issue (.fscale ft rm x) (fscaleBody ft rm x))

/-- FGETEXP (R233). -/
def execFgetexp (ft : FTy) (x : VF) (s : State) : Host.Outcome State Fault Refusal :=
  .next (s.issue (.fgetexp ft x) (floatBody (.fgetexp ft x) ft x fun o => ((fGetExp (ftFmt ft) o.a).1.toNat, (fGetExp (ftFmt ft) o.a).2)))

/-- PADD (R234). -/
def execPadd (ft : FTy) (rm : Rm) (x : VF) (s : State) : Host.Outcome State Fault Refusal :=
  .next (s.issue (.padd ft rm x) (floatBody (.padd ft rm x) ft x (packedOp fun a b _ => fAdd (ftFmt ft) rm a b)))

/-- PMUL (R234). -/
def execPmul (ft : FTy) (rm : Rm) (x : VF) (s : State) : Host.Outcome State Fault Refusal :=
  .next (s.issue (.pmul ft rm x) (floatBody (.pmul ft rm x) ft x (packedOp fun a b _ => fMul (ftFmt ft) rm a b)))

/-- PFMA (R234). -/
def execPfma (ft : FTy) (rm : Rm) (x : VF) (s : State) : Host.Outcome State Fault Refusal :=
  .next (s.issue (.pfma ft rm x) (floatBody (.pfma ft rm x) ft x (packedOp fun a b c => fFma (ftFmt ft) rm a b c)))

/-- RCP (R235, R237). -/
def execRcp (ft : FTy) (rm : Rm) (x : VF) (s : State) : Host.Outcome State Fault Refusal :=
  .next (s.issue (.rcp ft rm x) (floatBody (.rcp ft rm x) ft x fun o => fRcp (ftFmt ft) rm o.a))

/-- RSQ (R236, R237). -/
def execRsq (ft : FTy) (x : VF) (s : State) : Host.Outcome State Fault Refusal :=
  .next (s.issue (.rsq ft x) (floatBody (.rsq ft x) ft x fun o => fRsq (ftFmt ft) (if ft == .f64 then 1 else 0) o.a))

/-- SQRT (R235, R237). -/
def execSqrt (ft : FTy) (rm : Rm) (x : VF) (s : State) : Host.Outcome State Fault Refusal :=
  .next (s.issue (.sqrt ft rm x) (floatBody (.sqrt ft rm x) ft x fun o => fSqrt (ftFmt ft) rm o.a))

/-- FDIV (R235, R237). -/
def execFdiv (ft : FTy) (rm : Rm) (x : VF) (s : State) : Host.Outcome State Fault Refusal :=
  .next (s.issue (.fdiv ft rm x) (floatBody (.fdiv ft rm x) ft x fun o => fDiv (ftFmt ft) rm o.a o.b))

/-- EXP2 (R236, R237). -/
def execExp2 (x : VF) (s : State) : Host.Outcome State Fault Refusal :=
  .next (s.issue (.exp2 x) (floatBody (.exp2 x) .f32 x fun o => fExp2 o.a))

/-- LOG2 (R236, R237). -/
def execLog2 (x : VF) (s : State) : Host.Outcome State Fault Refusal :=
  .next (s.issue (.log2 x) (floatBody (.log2 x) .f32 x fun o => fLog2 o.a))

/-- SIN (R236, R237). -/
def execSin (x : VF) (s : State) : Host.Outcome State Fault Refusal :=
  .next (s.issue (.sin x) (floatBody (.sin x) .f32 x fun o => fSin o.a))

/-- COS (R236, R237). -/
def execCos (x : VF) (s : State) : Host.Outcome State Fault Refusal :=
  .next (s.issue (.cos x) (floatBody (.cos x) .f32 x fun o => fCos o.a))

/-- TANH (R236, R237). -/
def execTanh (x : VF) (s : State) : Host.Outcome State Fault Refusal :=
  .next (s.issue (.tanh x) (floatBody (.tanh x) .f32 x fun o => fTanh o.a))

-- Conversions.

/-- Width in bits of an integer type code of R173. -/
def cvtWidth (code : Nat) : Nat := 8 * 2 ^ (code % 4)
/-- The type code is a signed integer's. -/
def cvtSigned (code : Nat) : Bool := decide (code < 4)
/-- Floating format of a type code (R173). -/
def cvtFmt (code : Nat) : Option Fmt :=
  match code with
  | 8 => some fmt16 | 9 => some fmtBf | 10 => some fmt32 | 11 => some fmt64 | 12 => some fmtE4 | 13 => some fmtE5
  | _ => none

/-- The exact value of the low bits of a source (R238); t is the X4 TYPE. -/
def cvtVal (code t v : Nat) : FV :=
  match cvtFmt code with
  | some f => fdecode f (v % pow2 (fwidth f))
  | none =>
    if code = 14 then x4fv t (v % 16)
    else
      let w := cvtWidth code
      let n : Int := if cvtSigned code then sgnOf w v else ((v % 2 ^ w : Nat) : Int)
      if n = 0 then .zero false else .fin (Dy.int n)

/-- An integer result as its register holds it (R238): narrow results sign- or zero-extended to 32 bits. -/
def cvtReg (code : Nat) (n : Int) : Nat :=
  let w := cvtWidth code
  if w = 64 then wrapOf 64 n
  else if cvtSigned code then wrapOf 32 (sgnOf w (wrapOf w n)) else wrapOf w n

/-- Largest code of an X4 type with a sign (R68, R238). -/
def x4top (t : Nat) (neg : Bool) : Nat := if t = 0 then (if neg then 8 else 7) else (if neg then 15 else 7)

/-- A value rounded to an X4 type (R68, R238). -/
def toX4 (t : Nat) (m : Rm) (v : FV) (g : Word) : Nat × Flags :=
  match v with
  | .nan _ => (0, fNV)
  | .inf n => (x4top t n, fSAT ||| fNV)
  | .zero n => (if n && t ≠ 0 then 8 else 0, 0)
  | .fin x => roundX4 t m x g

/-- A value rounded to a floating format (R68, R69). -/
def toFmt (f : Fmt) (m : Rm) (v : FV) (g : Word) : Nat × Flags :=
  match v with
  | .nan sg => (canonNaN f, if sg then fNV else 0)
  | .inf n => if f.inf then (finf f n, 0) else (canonNaN f, fNV)
  | .zero n => (fzero f n, 0)
  | .fin x => roundTo f m x g

/-- Cvt of R238 for one element: destination and source codes, mode, X4 TYPE, generator state, source bits. -/
def cvtOne (dst src : Nat) (m : Rm) (t : Nat) (g : Word) (v : Nat) : Nat × Flags :=
  let x := cvtVal src t v
  match cvtFmt dst with
  | some f => toFmt f m x g
  | none =>
    if dst = 14 then toX4 t m x g
    else if src < 8 then
      let w := cvtWidth src
      (cvtReg dst (if cvtSigned src then sgnOf w v else ((v % 2 ^ w : Nat) : Int)), 0)
    else
      let r := floatToInt (cvtWidth dst) (cvtSigned dst) m x
      (cvtReg dst r.1, r.2)

/-- n steps of a generator (R71, R72). -/
def xorN (g : Word) : Nat → Word
  | 0 => g
  | n + 1 => xorN (xorshift g) n

/-- Steps the generators of the lanes of m, n times each (R72). -/
def State.stepSeeds (s : State) (k : Key) (m : LaneMask) (n : Nat) : State :=
  s.modWave k fun w =>
    { w with srseed := Vector.ofFn fun l => if inMask m l then xorN w.srseed[l] n else w.srseed[l] }

/-- Body of CVT (R238). -/
def cvtBody (rm : Rm) (x : VF) (s : State) (k : Key) (w : Wave) : Eff :=
  let m := w.act x.pr x.pn
  let r (l : Fin 32) :=
    cvtOne (cvtDst x) (cvtSrc x) rm x.b.toNat (xorshift w.srseed[l]) (w.rvn x.a.toNat (cvtRegs (cvtSrc x)) l)
  let s1 := if rm == .sr then s.stepSeeds k m 1 else s
  .done (s1.flagLanes k m fun l => (r l).2) [resV x.d.toNat (cvtRegs (cvtDst x)) m fun l => (r l).1]

/-- CVT (R238). -/
def execCvt (rm : Rm) (x : VF) (s : State) : Host.Outcome State Fault Refusal :=
  .next (s.issue (.cvt rm x) (cvtBody rm x))

/-- The FP32 elements that CVTP packs, in a lane (R239). -/
def cvtpElems (x : VF) (w : Wave) (l : Fin 32) : List Nat :=
  if cvtDst x = 12 ∨ cvtDst x = 13 then
    let a := w.rvn x.a.toNat 2 l
    let b := w.bFloat .f32 x 2 l
    [a % 2 ^ 32, a / 2 ^ 32, b % 2 ^ 32, b / 2 ^ 32]
  else [w.rvn x.a.toNat 1 l, w.bFloat .f32 x 1 l]

/-- The packed result of CVTP and its flags: each element converted, its generator stepped in element order. -/
def cvtpVal (dst : Nat) (m : Rm) (g : Word) : List Nat → Nat × Flags
  | [] => (0, 0)
  | e :: es =>
    let g' := xorshift g
    let r := cvtOne dst 10 m 0 g' e
    let q := cvtpVal dst m g' es
    (r.1 + 2 ^ (if 12 ≤ dst then 8 else 16) * q.1, r.2 ||| q.2)

/-- Body of CVTP (R239). -/
def cvtpBody (rm : Rm) (x : VF) (s : State) (k : Key) (w : Wave) : Eff :=
  let m := w.act x.pr x.pn
  let r (l : Fin 32) := cvtpVal (cvtDst x) rm w.srseed[l] (cvtpElems x w l)
  let s1 := if rm == .sr then s.stepSeeds k m (if 12 ≤ cvtDst x then 4 else 2) else s
  .done (s1.flagLanes k m fun l => (r l).2) [resV x.d.toNat 1 m fun l => (r l).1]

/-- CVTP (R239). -/
def execCvtp (rm : Rm) (x : VF) (s : State) : Host.Outcome State Fault Refusal :=
  .next (s.issue (.cvtp rm x) (cvtpBody rm x))

-- Quantisation.

/-- A code is a positive finite normal FP32 number (R80). -/
def posNormal (c : Nat) : Bool := decide (0x00800000 ≤ c) && decide (c < 0x7F800000)
/-- An FP32 code is NaN or infinite. -/
def nonFinite (c : Nat) : Bool := decide (0x7F800000 ≤ c % 0x80000000)

/-- What QNT makes of a block: codes by element, scale word, NV or NX (R80 to R83). -/
structure Quant where
  codes : List Nat
  scale : BitVec 16
  flags : Flags
  deriving DecidableEq, Repr

/-- Named TYPE of a selection; none for `.auto`. -/
def selType : QSel → Option Nat
  | .t0 => some 0 | .t1 => some 1 | .t2 => some 2 | .t3 => some 3 | .auto => none

/-- QNT of one block: elements x_j, smoothing entries s_j and generator states, all by element (R80 to R83). -/
def quantBlock (sel : QSel) (m : Rm) (xs ss : List Nat) (gs : List Word) : Quant :=
  let ys := (xs.zip ss).map fun p => (fDiv fmt32 .rne p.1 p.2).1
  if ss.any (fun c => !posNormal c) || xs.any nonFinite || ys.any nonFinite then
    { codes := xs.map fun _ => 0, scale := 0x3FC0, flags := fNV }
  else
    let yv := ys.map fun c => fdecode fmt32 c
    match blockScale (selType sel) (yv.map FV.real) with
    | none => { codes := xs.map fun _ => 0, scale := 0, flags := 0 }
    | some (sc, t) =>
      let one (y : FV) (g : Word) : Nat :=
        match y with
        | .fin d => (roundX4 t m (Dy.div d (scaleVal sc)) g).1
        | .zero n => if n && t ≠ 0 then 8 else 0
        | _ => 0
      let codes := (yv.zip gs).map fun p => one p.1 p.2
      let same := (yv.zip codes).all fun p => Dy.eqv (Dy.mul (scaleVal sc) (x4val t p.2)) p.1.real
      { codes := codes, scale := sc, flags := if same then 0 else fNX }

/-- Packed word g of a block (R64, R242). -/
def packCodes (cs : List Nat) (g : Nat) : Nat := ((cs.drop (8 * g)).take 8).foldr (fun c acc => c + 16 * acc) 0

/-- Lane e of block b of length bl. -/
def blkLane (bl b e : Nat) : Fin 32 := Fin.ofNat 32 (bl * b + e)

/-- QNT of block b (R241): x_j and s_j are taken from the live lanes of M, +0 and 1.0 elsewhere. -/
def qntBlock (nosm : Bool) (sel : QSel) (rm : Rm) (x : VF) (c : Crew) (w : Wave) (m : LaneMask) (bl b : Nat) : Quant :=
  let inIt (e : Nat) : Bool := inMask (m &&& w.liveMask) (blkLane bl b e)
  let base := (w.rs x.b.toNat).toNat
  let xs := (List.range bl).map fun e => if inIt e then (w.rv x.a.toNat (blkLane bl b e)).toNat else 0
  let ss := (List.range bl).map fun e =>
    if inIt e && !nosm then c.data (base + 4 * e) 1 else 0x3F800000
  let gs := (List.range bl).map fun e => xorshift w.srseed[blkLane bl b e]
  quantBlock sel rm xs ss gs

/-- Lanes of block b. -/
def blkMask (bl b : Nat) : LaneMask := laneMask fun l => l.val / bl == b

/-- Body of QNT (R240 to R242). DESIGN CHOICE (log 94): the smoothing address B + 4j does not wrap, so that a sum of 2^32 or more is
ACCESS; R241 gives no modulus. -/
def qntBody (nosm : Bool) (sel : QSel) (rm : Rm) (x : VF) (s : State) (k : Key) (w : Wave) : Eff :=
  let m := w.act x.pr x.pn
  let tile := (w.partreg &&& 7).toNat
  if tile ≠ 0 ∧ tile ≠ 4 then .fault .illegal 0
  else
    let bl := if tile = 0 then 32 else 16
    let ck := crewOf k
    let c := s.crew ck
    let addr (l : Fin 32) := (w.rs x.b.toNat).toNat + 4 * (l.val % bl)
    let readers := if nosm then [] else w.liveOf m
    match readers.findSome? fun l => (spCheck c.spLimit (addr l) 4).map fun cl => (cl, BitVec.ofNat 64 (addr l)) with
    | some (cls, det) => .fault cls det
    | none =>
      if c.wakeBusy (readers.map fun l => addr l / 8192) then .hold else
      match firstLost c (readers.map fun l => addr l / 8192) with
      | some b => .faultIn (s.modCrew ck fun c => c.spOff b) .retloss (spLossDet b)
      | none =>
        let s1 := readers.foldl (fun s l => s.modCrew ck fun c => c.spWake (addr l / 8192)) s
        let q (b : Nat) := qntBlock nosm sel rm x c w m bl b
        let q0 := q 0
        let q1 := if bl = 16 then q 1 else q0
        let s2 := if rm == .sr then s1.stepSeeds k m 1 else s1
        let pick (l : Fin 32) := if l.val / bl = 0 then q0 else q1
        .done (s2.flagLanes k m fun l => (pick l).flags)
          [resV x.d.toNat 2 m fun l => packCodes (pick l).codes (l.val % bl / 8) + 2 ^ 32 * (pick l).scale.toNat]

/-- QNT (R240 to R242); its reads are plain LDS on the LSU path. -/
def execQnt (nosm : Bool) (sel : QSel) (rm : Rm) (x : VF) (s : State) : Host.Outcome State Fault Refusal :=
  .next (s.issue (.qnt nosm sel rm x)
    (if nosm then qntBody nosm sel rm x else memGate 0 (qntBody nosm sel rm x)))

/-- DQNT of one element (R84, R243). -/
def dqntVal (code : Nat) (sc : BitVec 16) : Nat × Flags :=
  match scaledVal sc (x4fv (scaleType sc) code) with
  | .nan _ => (canonNaN fmt32, 0)
  | .inf n => (finf fmt32 n, 0)
  | .zero n => (fzero fmt32 n, 0)
  | .fin d => roundTo fmt32 .rne d

/-- Body of DQNT (R243). -/
def dqntBody (x : VF) (s : State) (k : Key) (w : Wave) : Eff :=
  let m := w.act x.pr x.pn
  let r (l : Fin 32) :=
    dqntVal ((w.rv x.a.toNat l).toNat / 16 ^ (l.val % 8) % 16) (BitVec.ofNat 16 (w.bFloat .f32 x 1 l))
  .done (s.flagLanes k m fun l => (r l).2) [resV x.d.toNat 1 m fun l => (r l).1]

/-- DQNT (R243). -/
def execDqnt (x : VF) (s : State) : Host.Outcome State Fault Refusal :=
  .next (s.issue (.dqnt x) (dqntBody x))

-- The paired word.

/-- Result and flags of a compact operation (R170): a, b and the old D. -/
def popVal (pop : BitVec 6) (a b d : Nat) : Nat × Flags :=
  let o : Srcs := { a := a, b := b, c := d }
  match pop.toNat with
  | 1 => fAdd fmt32 .rne a b
  | 2 => fMul fmt32 .rne a b
  | 3 => fFma fmt32 .rne a b d
  | 4 => packedOp (fun a b _ => fAdd fmt16 .rne a b) o
  | 5 => packedOp (fun a b _ => fMul fmt16 .rne a b) o
  | 6 => packedOp (fun a b c => fFma fmt16 .rne a b c) o
  | 7 => packedOp (fun a b _ => fAdd fmtBf .rne a b) o
  | 8 => packedOp (fun a b _ => fMul fmtBf .rne a b) o
  | 9 => packedOp (fun a b c => fFma fmtBf .rne a b c) o
  | 0x10 => (iaddVal 32 a b, 0)
  | 0x11 => (isubVal 32 a b, 0)
  | 0x12 => (iminVal true 32 a b, 0)
  | 0x13 => (imaxVal true 32 a b, 0)
  | 0x14 => (iminVal false 32 a b, 0)
  | 0x15 => (imaxVal false 32 a b, 0)
  | 0x16 => (a &&& b, 0)
  | 0x17 => (a ||| b, 0)
  | 0x18 => (a ^^^ b, 0)
  | 0x19 => (shlVal 32 a b, 0)
  | 0x1A => (shrVal 32 a b, 0)
  | 0x1B => (sarVal 32 a b, 0)
  | 0x1C => fMinMax fmt32 false a b
  | 0x1D => fMinMax fmt32 true a b
  | _ => (a, 0)

/-- Result and flags of one half in a lane, from the state before the word. -/
def Wave.half (w : Wave) (h : PHalf) (l : Fin 32) : Nat × Flags :=
  popVal h.pop (w.rv h.a.toNat l).toNat (if h.bs then (w.rs h.b.toNat).toNat else (w.rv h.b.toNat l).toNat)
    (w.rv h.d.toNat l).toNat

/-- Result of one half; none of an empty one. -/
def Wave.halfRes (w : Wave) (h : PHalf) : List Res :=
  if h.pop = 0 then [] else [resV h.d.toNat 1 w.group fun l => (w.half h l).1]

/-- Flags of one half. -/
def Wave.halfFlags (w : Wave) (h : PHalf) (l : Fin 32) : Flags := if h.pop = 0 then 0 else (w.half h l).2

/-- Body of a paired word (R170): both halves read the state before it. -/
def pairedBody (h l : PHalf) (s : State) (k : Key) (w : Wave) : Eff :=
  .done (s.flagLanes k w.group fun n => w.halfFlags h n ||| w.halfFlags l n) (w.halfRes h ++ w.halfRes l)

/-- PAIRED_WORD (R170). -/
def execPairedWord (h l : PHalf) (s : State) : Host.Outcome State Fault Refusal :=
  .next (s.issue (.pairedWord h l) (pairedBody h l))

end Sys2Proof.Machine
end

