-- ==== Sys2Proof/Machine/Image.lean ====
section
/-! DEFINITION. Crew images (R54 to R56, R338, R380 to R383, R420): the state of a saved crew as words of memory, the save that
brings a crew to a point where it can be written (R160, R206, R343), its removal from its core, and its restoration. -/

namespace Sys2Proof.Machine

-- Words.

/-- 32-bit words packed two by two, the first lower. -/
def pack32 : List Word → List Dword
  | [] => []
  | [a] => [a.setWidth 64]
  | a :: b :: r => (a.setWidth 64 ||| (b.setWidth 64 <<< 32)) :: pack32 r
/-- Exactly n words: cut, or filled with zeros. -/
def padW (n : Nat) (ws : List Dword) : List Dword := ws.take n ++ List.replicate (n - ws.length) 0
/-- The 32 lanes of a register as words. -/
def laneWords (v : LaneVec) : List Dword := pack32 v.toList

/-- The 64-bit word at a byte offset of an image. -/
def rdI (a : Array Dword) (o : Nat) : Dword := a.getD (o / 8) 0
/-- The 32-bit word at a byte offset. -/
def rd32 (a : Array Dword) (o : Nat) : Word := ((rdI a o) >>> (8 * (o % 8))).setWidth 32
/-- The byte at a byte offset. -/
def rdByte (a : Array Dword) (o : Nat) : Nat := ((rdI a o) >>> (8 * (o % 8))).toNat % 256
/-- The 32 lanes at a byte offset. -/
def rdLanes (a : Array Dword) (o : Nat) : LaneVec := Vector.ofFn fun l : Fin 32 => rd32 a (o + 4 * l.val)

-- The wave save record (R54, R55, R338).

/-- The result keeps an entry of the commit buffer: its window is open (R51), or it has arrived and may not commit yet, behind one
whose window is open (log 20). That of a held access with a closed window is told by the access, that of a parked word by its park. -/
def Pend.kept (p : Pend) : Bool := p.why.isNone && (p.remain != 0 || (p.arrived && p.n != 0))

/-- An entry of the commit buffer (R55, R420). -/
def Pend.words (p : Pend) : List Dword :=
  let kind := if p.n = 0 then 2 else match p.file with | .s => 1 | _ => 0
  let data := if p.arrived then p.data else []
  let lanes (v : LaneVec) : List Dword := if kind = 1 then padW 16 [(v[(0 : Fin 32)]).setWidth 64] else laneWords v
  [ BitVec.ofNat 64 (p.reg % 256 + kind * 256 + p.n * 1024), p.mask.setWidth 64, BitVec.ofNat 64 p.remain,
    BitVec.ofNat 64 (match p.slot with | some n => n + 8 | none => 0), (if p.arrived then 1 else 0), 0, 0, 0 ]
    ++ padW 64 (data.flatMap lanes)

/-- The special-register block (R338). -/
def Wave.specials (w : Wave) : List Dword :=
  let sleep := match w.park with | some (.sleep d) => d | _ => 0
  pack32 [w.partreg, w.fpflags, w.view.setWidth 32, 0] ++ pack32 ((List.range 10).map fun i => tget w.acked 0 (6 + i))
    ++ [BitVec.ofNat 64 sleep] ++ laneWords w.srseed ++ List.replicate 8 0

/-- Banks that hold a LIVE register. -/
def Wave.liveBanks (w : Wave) : List Nat := (List.range 32).filter fun b => w.bankLive b

/-- The wave save record (R54). -/
def Wave.saveRecord (w : Wave) : List Dword :=
  let banks := w.liveBanks
  let cbs := w.pend.filter Pend.kept
  let live (b : Bool) (x : Word) : Word := if b then x else 0
  [ BitVec.ofNat 64 (banks.length * 2 ^ 56 + cbs.length % 16 * 2 ^ 52 + (w.breg / 8 - 1) % 32 * 2 ^ 47 + w.xb % 8 * 2 ^ 44),
    BitVec.ofNat 64 ((List.range 8).foldl (fun x n => x + tget w.sb 0 n % 16 * 16 ^ n) 0) ]
    ++ (List.range 4).map (fun i => (w.vlive >>> (64 * i)).setWidth 64) ++ [w.slive, 0]
    ++ pack32 ((List.range 64).map fun r => live (w.slive.getLsbD r) (w.rs r))
    ++ pack32 ((List.range 8).map fun n => w.k n) ++ pack32 ((List.range 8).map fun n => w.j n)
    ++ w.specials ++ cbs.flatMap Pend.words
    ++ banks.flatMap fun b => (groupRegs (8 * b) 8).flatMap fun r =>
        if w.vlive.getLsbD r then laneWords (tget w.v zeroLanes r) else List.replicate 16 0

-- The wave entry (R381, R420).

/-- A lane parked last by a JWAIT, where the wave has no lane left to run (R188). -/
def Wave.stuckAt (w : Wave) : Option (Fin 32) :=
  match w.clause, w.nextGroup with
  | none, .stuck _ => w.jlast.head?.bind fun j => (lanesOf j.2).head?
  | _, _ => none

/-- The wait code of a park, and its operand (R381). -/
def Wave.waitCode (w : Wave) : Nat × Nat :=
  match w.park with
  | some (.weir n _ sync) => (if sync then 3 else 2, n)
  | some (.cbwait n _) => (4, n)
  | some (.cbarv n _) => (5, n)
  | some (.acqx n) => (6, n)
  | some (.ldwatch _ _) | some (.watchMiss _ _ _) => (7, 0)
  | some (.sleep _) => (8, 0)
  | some .q0 => (9, 0)
  | some .q1 => (10, 0)
  | some .launch => (11, 0)
  | some .tag => (12, 0)
  | some (.fetchMiss _) => (match w.parkI with | some (.launch _) => (11, 0) | _ => (0, 0))
  | some .miss | some .event => (0, 0)
  | none => match w.stuckAt with | some l => (1, (w.jpark[l]).getD 0) | none => (0, 0)

/-- A helper lane that waits at EXIT is written as standing before it (log 11). -/
def Wave.lpcOut (w : Wave) (l : Fin 32) : Dword := if w.jpark[l] == some atExit then w.lpc[l] - 8 else w.lpc[l]

/-- The byte of a lane (R381). -/
def Wave.laneByte (w : Wave) (l : Fin 32) : Nat :=
  (match w.lst[l] with | .live => 0 | .helper => 1 | .exited => 2 | .never => 3)
    + (match w.jpark[l] with | some n => if n < 8 then 4 + 8 * n else 0 | none => 0)
    + (if w.calls.any fun r => inMask r.held l then 64 else 0)

/-- A call record (R381). -/
def CallRec.words (r : CallRec) : List Dword := BitVec.ofNat 64 r.ret :: pack32 [r.held, r.waiting, r.running, 0]

/-- Data of 128 bits for each lane. -/
def wideWords (f : Fin 32 → BitVec 128) : List Dword :=
  (List.finRange 32).flatMap fun l => [(f l).setWidth 64, ((f l) >>> 64).setWidth 64]

/-- The parked access (R207, R381, R420): the oldest held access or the word-level access at which the wave waits, a fetch, or a
scratchpad tag access. -/
def Wave.parkedBlock (w : Wave) (wid : Nat) (tagq : List TagWait) : List Dword :=
  let head (kind : Nat) (ep : Word) : Dword := BitVec.ofNat 64 (2 ^ 63 + kind * 2 ^ 60 + ep.toNat)
  let mine (l : Fin 32) : Option TagWait := tagq.find? fun t => t.wave == wid && t.lane == l.val
  match w.held, w.park with
  | h :: _, _ => [head 0 h.epoch, h.word, BitVec.ofNat 64 h.pc, h.mask.setWidth 64] ++ h.addrs.toList ++ wideWords fun l => h.data[l]
  | [], some .tag =>
    [head 2 0, (w.parkI.bind encodeWave).getD 0, BitVec.ofNat 64 w.pc, w.tagLeft.setWidth 64]
      ++ (List.finRange 32).map (fun l => BitVec.ofNat 64 (match mine l with | some t => 4 * t.word | none => 0))
      ++ wideWords fun l => match mine l with
        | some t => if t.kind == .stse then t.data.setWidth 128 else 0
        | none => (w.tagGot[l]).setWidth 128
  | [], some (.fetchMiss va) =>
    let word := (w.parkI.bind encodeWave).getD 0
    let data := match w.parkI with | some (.launch _) | some (.scw _) | some (.scr _) => true | _ => false
    if data then padW 100 ([head 0 0, word, BitVec.ofNat 64 w.pc, 1] ++ [BitVec.ofNat 64 va])
    else padW 100 [head 1 0, word, BitVec.ofNat 64 va, 0]
  | [], _ => padW 100 []

/-- A queued-access block (R420). -/
def HeldAcc.words (h : HeldAcc) : List Dword :=
  padW 128 ([h.word, h.mask.setWidth 64 ||| (h.epoch.setWidth 64 <<< 32), 0, 0] ++ h.addrs.toList ++ wideWords fun l => h.data[l])

/-- Address of the clause header of a wave's running group, between clauses of its next one; of a stuck wave that of the JWAIT which
parked its last lane (R381). -/
def State.hdrOf (s : State) (k : Key) : Nat :=
  let w := (s.wave k).standing
  match w.clause, w.stuckAt, w.jlast with
  | some c, _, _ => c.hdrAt
  | none, some _, (a, _) :: _ => s.headerBefore k a
  | none, _, _ => (w.midHdr).getD w.pc

/-- The 2 KiB control block of a wave (R381), its clause header at `hdr`. -/
def Wave.control (w : Wave) (hdr wid : Nat) (tagq : List TagWait) : List Dword :=
  let (code, opnd) := w.waitCode
  let dl := match w.park with | some (.ldwatch d _) | some (.watchMiss _ d _) => d.getD 0 | _ => 0
  let has {α : Type} (t : Tab α) (n i : Nat) : Nat := if (tfind t n).isSome then 2 ^ i else 0
  padW 256 ([BitVec.ofNat 64 hdr, BitVec.ofNat 64 dl, BitVec.ofNat 64 (code + opnd * 256), 0]
    ++ (List.finRange 32).map w.lpcOut
    ++ (List.range 4).map (fun i => BitVec.ofNat 64 ((List.range 8).foldl
        (fun x j => x + (if h : 8 * i + j < 32 then w.laneByte ⟨8 * i + j, h⟩ else 0) * 256 ^ j) 0))
    ++ [BitVec.ofNat 64 w.calls.length] ++ padW 24 (w.calls.reverse.flatMap CallRec.words)
    ++ pack32 ((List.range 16).map fun n => tget w.weirLast 0 n)
    ++ [BitVec.ofNat 64 ((List.range 16).foldl (fun x n => x + has w.weirLast n n) 0
        + (List.range 4).foldl (fun x n => x + has w.cbLast n (16 + n)) 0)]
    ++ pack32 ((List.range 4).map fun n => tget w.cbLast 0 n)
    ++ padW 4 (BitVec.ofNat 64 w.stage.length :: w.stage)
    ++ padW 100 (w.parkedBlock wid tagq) ++ [BitVec.ofNat 64 (w.held.length - 1)])

/-- The entry of a wave: control block, save record to the next KiB, queued accesses. -/
def Wave.entry (w : Wave) (hdr wid : Nat) (tagq : List TagWait) : List Dword :=
  let r := w.saveRecord
  w.control hdr wid tagq ++ padW ((r.length + 127) / 128 * 128) r ++ (w.held.drop 1).flatMap HeldAcc.words

-- The other sections (R380 to R383).

/-- The words of a saved scratchpad bank, then its tags. -/
def Crew.bankWords (c : Crew) (b : Nat) : List Dword :=
  let ws := (c.sp.filter fun e => bankOfWord e.1 == b).foldl
    (fun (a : Array Word) e => a.setIfInBounds (e.1 % 2048) e.2.data) (Array.replicate 2048 0)
  let tags := (c.sp.filter fun e => bankOfWord e.1 == b && e.2.full).foldl
    (fun (a : Array Dword) e => a.modify (e.1 % 2048 / 64) fun w => w ||| BitVec.twoPow 64 (e.1 % 64)) (Array.replicate 32 0)
  pack32 ws.toList ++ tags.toList

/-- Scratchpad banks that are not OFF. -/
def Crew.savedBanks (c : Crew) : List Nat := (List.range (min 32 c.spbN)).filter fun b => (c.bank b).st != .off

/-- Half-words of the latched A-side scales of a format that fewer than 512 scales serve: 256 of E4M3 (R144). -/
def latchedScales : Nat := 256

/-- The latch (R382). DESIGN CHOICE (log 64): in the half of the scale area that E4M3 leaves unused, the first half-word says whether
scales are latched. -/
def latchWords (l : Option Latch) : List Dword :=
  let at8 (bs : List Byte) (i : Nat) : Dword := BitVec.ofNat 64 (ofBytes ((bs.drop (8 * i)).take 8))
  match l with
  | none => List.replicate 641 0
  | some l =>
    let ws : List (BitVec 16) := match l.scales with
      | some ws => if l.fmt = 5 then ws else (ws.take latchedScales ++ List.replicate (latchedScales - ws.length) 0) ++ [1]
      | none => []
    let sc := ws.flatMap fun s => bytesOf s.toNat 2
    BitVec.ofNat 64 (2 ^ 63 + l.ra * 2 ^ 48 + l.aoff * 2 ^ 36 + l.fmt * 2 ^ 32) :: ((List.range 512).map (at8 l.bytes)
      ++ (List.range 128).map (at8 sc))

/-- Tiles of a crew slot. -/
def CoreSt.tilesOf (c : CoreSt) (cslot : Nat) : List Nat := (List.range 16).filter fun t => (c.tile t).own == some cslot

/-- Where a sequencer stands, as its image tells it (R160, R307, R382): as it stood at its first product that is not executed, else at
its next word; a stream that has ended stands before its MEND. -/
def Seq.position (q : Seq) : List Dword :=
  [BitVec.ofNat 64 (if q.st == .ended then q.mpc - 8 else q.mpc)] ++ (List.range 8).map (fun n => tget q.ma 0 n)
    ++ pack32 ((List.range 4).map fun n => BitVec.ofNat 32 (tget q.lcCnt 0 n + if tget q.lcAct false n then 2 ^ 17 else 0))
    ++ pack32 ((List.range 16).map fun n => tget q.seen 0 n)

/-- The products of a crew that are issued and not executed. -/
def State.waiting (s : State) (c : Key) : List Product := (s.core (coreOfCrew c)).issued.filter fun p => p.cslot == cslotOf c

/-- The position of a crew's sequencer for its image. -/
def State.seqPosition (s : State) (c : Key) : List Dword :=
  (((s.waiting c).head?.map (·.back)).getD (s.crew c).seq).position

/-- A crew's stream as a save finds it (R160, R287). -/
def State.stream (s : State) (c : Key) : Option Stream :=
  if (s.crew c).seq.st == .off then none
  else some { words := s.seqPosition c, seq := (s.crew c).seq, prods := s.waiting c }

/-- The matrix section (R382). -/
def State.matrixWords (s : State) (c : Key) : List Dword :=
  let x := s.crew c
  let q := x.seq
  let core := s.core (coreOfCrew c)
  padW 768 (s.seqPosition c ++ latchWords q.latch
    ++ (List.range 8).flatMap (fun i => padW 4 (x.chk.getD i []))
    ++ [BitVec.ofNat 64 ((if x.newest.isNone then 0 else (x.chkSeq - 1).toNat % 8) + x.chkSeq.toNat * 2 ^ 32)])
    ++ (core.tilesOf (cslotOf c)).flatMap (fun t => pack32 ((List.range 4096).map fun i => tget (core.tile t).el 0 i))
    ++ (List.range 1024).map fun i =>
        BitVec.ofNat 64 ((List.range 4).foldl (fun x j => x + (core.scaleAt q.half (4 * i + j)).toNat * 65536 ^ j) 0)

/-- One command of the copy section (R383); above the mask stand the pushing wave, whether its token is posted, and the unit
and format it carries (log 20). -/
def CopyEnt.words (e : CopyEnt) : List Dword :=
  let st := match e.st with | .queued => 0 | .running | .posted => 1 | .missed => 2
  let mask := e.more.foldl (fun m b => m + 2 ^ (b - e.mark)) 0
  padW 8 [packCopyW0 e.cmd, e.cmd.w1, e.cmd.w2, e.cmd.w3, BitVec.ofNat 64 (st + e.mark * 2 ^ 32),
    BitVec.ofNat 64 (mask % 65536 + e.wave % 32 * 2 ^ 16 + (if e.st == .posted then 2 ^ 21 else 0) + e.base % 512 * 2 ^ 22
      + e.fmt % 16 * 2 ^ 32)]

/-- The copy section (R383). -/
def State.copyWords (s : State) (c : Key) : List Dword :=
  let es := (s.core (coreOfCrew c)).copyq.filter fun e => e.cslot == cslotOf c
  BitVec.ofNat 64 es.length :: (es.flatMap CopyEnt.words
    ++ (List.range (s.crew c).nwave).flatMap fun i =>
        let ts := (s.wave (waveKey c i)).tokens
        BitVec.ofNat 64 ts.length :: ts)

/-- The crew header (R380) for sections at the given offsets and an image of a given length. -/
def State.crewHeader (s : State) (c : Key) (offs : List Nat) (len : Nat) : List Dword :=
  let x := s.crew c
  let core := s.core (coreOfCrew c)
  let head := s.unitHead c == c
  let mask (l : List Nat) : Nat := l.foldl (fun m b => m + 2 ^ b) 0
  let rec' (n : Nat) : List Dword :=
    let r := core.obRecOf n
    if r.v && r.own == cslotOf c then [r.words.1, r.words.2] else [0, 0]
  padW 128 ([ BitVec.ofNat 64 (1 + x.nwave % 64 * 2 ^ 8 + (if x.seq.st == .off then 0 else 2 ^ 14) + x.spbN % 64 * 2 ^ 16
      + x.xblk % 16 * 2 ^ 24),
    BitVec.ofNat 64 (x.crewid.toNat + cslotOf c * 2 ^ 32 + coreOfCrew c * 2 ^ 36) ] ++ padW 16 x.lrec
    ++ pack32 [x.regionMode.setWidth 32, x.spauto, BitVec.ofNat 32 x.thrstat, BitVec.ofNat 32 x.chkstat, x.luign, x.uhmiss]
    ++ [BitVec.ofNat 64 x.cursor]
    ++ (List.range 16).map (fun n => let w := x.weir n; BitVec.ofNat 64 (w.armed + w.a * 256 + w.p.toNat * 2 ^ 32))
    ++ (List.range 4).map (fun n =>
        let b := tget x.cbars {} n
        if head then BitVec.ofNat 64 (b.arrived.length % 256 + b.p.toNat * 2 ^ 32) else 0)
    ++ [BitVec.ofNat 64 (mask x.savedBanks + mask (core.tilesOf (cslotOf c)) * 2 ^ 32)]
    ++ padW 4 (offs.map (BitVec.ofNat 64)) ++ (List.range 16).flatMap rec'
    ++ (List.range 8).map (fun n => BitVec.ofNat 64 (tget x.ctrs 0 n)) ++ [BitVec.ofNat 64 len, x.spdrop.setWidth 64])

/-- The image of a crew, to the next KiB (R380). -/
def State.crewImage (s : State) (c : Key) : List Dword :=
  let x := s.crew c
  let waves := (List.range x.nwave).flatMap fun i => (s.wave (waveKey c i)).entry (s.hdrOf (waveKey c i)) i x.tagq
  let sp := x.savedBanks.flatMap x.bankWords
  let mx := if x.seq.st == .off then [] else s.matrixWords c
  let cp := s.copyWords c
  let o1 := 1024
  let o2 := o1 + 8 * waves.length
  let o3 := o2 + 8 * sp.length
  let o4 := o3 + 8 * mx.length
  let len := (o4 + 8 * cp.length + 1023) / 1024 * 1024
  padW (len / 8) (s.crewHeader c [o1, if sp = [] then 0 else o2, if mx = [] then 0 else o3, o4] len ++ waves ++ sp ++ mx ++ cp)

-- Bringing a crew to a point where it can be saved.

/-- A stuck wave faults before it is saved (R188). Waits of a wave that are over end (R206), a reservation that it has made is made,
and results that may commit do; the slots of a PFENCE, an SCW and a parked word go on counting (R204, R254, R420). A wave stopped at
a TRAP or BKPT is saved past it, where RESUME continues (R379). -/
def State.settleWave (s : State) (k : Key) : State :=
  let s := if (s.wave k).here && (s.wave k).standing.group = 0 then s.reach k else s
  let done (p : Pend) : Bool := match p.why with | some (.ob _) => true | _ => false
  let ended := match (s.wave k).park with
    | some (.weir n ph _) => ((s.crew (crewOf k)).weir n).p != ph
    | some (.cbwait n ph) => (s.cbar k n).p != ph
    | _ => false
  let s1 := if ended then s.finish k [] else s
  (s1.modWave k fun w =>
    let w1 := if continuesPast (w.stopAs.map (·.1)) ((w.stopAs.map (·.2)).getD 0) then { w.advance with stopAs := none } else w
    { w1 with pend := w1.pend.map fun p => if done p then { p with arrived := true } else p }).commitAll k

/-- The reservations of a crew that wait are made (R258, R259). -/
def State.settleOb (s : State) (c : Key) : State :=
  let core := coreOfCrew c
  (s.core core).obWait.foldl (fun s e =>
    match e.2 with
    | some r => if r.own = cslotOf c then s.obInstall core e.1 r else s
    | none => if ((s.core core).obRecOf e.1).own = cslotOf c then s.obClear core e.1 else s) s

/-- A retained bank is woken to be saved; one found wrong is RETLOSS, attributed to the save (R54). -/
def State.saveBank (s : State) (k : Key) (b : Nat) : State :=
  let w := s.wave k
  if (w.bank b).st != .retain then s
  else
    let (w1, lost) := w.wake [b]
    match lost with
    | none => s.setWave k w1
    | some b => (s.setWave k w1).floodgate (s.crew (crewOf k)).ctx
        { s.waveRec k (some .retloss) (BitVec.ofNat 64 b) 0 false with atc := true }

/-- The same for a scratchpad bank (R93): the record is one of the memory side, unless a copy command has begun the wake. -/
def State.saveSp (s : State) (c : Key) : State :=
  (s.crew c).savedBanks.foldl (fun s b =>
    if ((s.crew c).bank b).waking then s.spWakeEnd c b
    else if (s.crew c).spLost b then
      (s.modCrew c fun x => x.spOff b).floodgate (s.crew c).ctx
        { cls := some .retloss, eng := .mem, key := c, atc := true, handle := s.crewHandle c, det := spLossDet b }
    else s) s

/-- A crew stops without a record and is brought to a point where its image holds everything (R343, R420); what it has stored goes
home, since it may be restored in another cluster (R107). -/
def State.settleCrew (s : State) (c : Key) : State :=
  let ws := wavesOf c
  let s1 := (ws.foldl State.settleWave (s.haltSeq c)).settleOb c
  let s2 := (ws.foldl (fun s k => (s.wave k).liveBanks.foldl (fun s b => s.saveBank k b) s) s1).saveSp c
  s2.writeBack (clusterOf (coreOfCrew c)) fun _ => true

/-- A crew's counters join the metering counters of its polder, what has joined them already apart (R368). -/
def State.meterCtrs (s : State) (c : Key) : State :=
  let x := s.crew c
  ((List.range 8).foldl (fun s i => s.meter (polderOf x.ctx) (12 + i) (tget x.ctrs 0 i - tget x.fedCtrs 0 i)) s).modCrew c
    fun y => { y with fedCtrs := y.ctrs }

/-- The counters of a crew are added into its context's and its polder's, and into the metering counters (R157, R368). -/
def State.addCounts (s : State) (c : Key) : State :=
  let s := s.meterCtrs c
  let x := s.crew c
  let p := polderOf x.ctx
  let add (t : Tab Nat) : Tab Nat := (List.range 8).foldl (fun t i => tset t i (tget t 0 i + tget x.ctrs 0 i)) t
  ((s.modCtx x.ctx fun y => { y with ctrs := add y.ctrs }).modPolder p fun y => { y with ctrs := add y.ctrs }).modCrew c
    fun y => { y with ctrs := [], fedCtrs := [] }

-- Scope epochs in use (R127).

/-- The entries and epochs that a wave's held accesses carry: those of atomic words. -/
def Wave.heldEpochs (w : Wave) : List (Nat × Word) :=
  (w.held.filter fun h => decide (0x88 ≤ (h.word.extractLsb' 56 8).toNat)).map fun h => (scField h.word, h.epoch)

/-- The entries and epochs that a wave's outstanding operations carry (R126, R127): held accesses, an LDWATCH that is parked. -/
def Wave.carries (w : Wave) : List (Nat × Word) :=
  let sc (i : Option Instr) : Nat := ((i.bind mfOf).map fun x => x.sc.toNat).getD 0
  w.heldEpochs
    ++ match w.park with
      | some (.ldwatch _ ep) | some (.watchMiss _ _ ep) => [(sc w.parkI, ep)]
      | _ => []

/-- The entries and epochs that a crew's held accesses carry into its image. -/
def State.crewCarries (s : State) (c : Key) : List (Nat × Word) :=
  ((wavesOf c).flatMap fun k => (s.wave k).heldEpochs).filter fun x => decide (6 ≤ x.1)

/-- A wave has an operation outstanding that carries an older epoch of entry n (R127). -/
def Wave.carriesOld (w : Wave) (n : Nat) (now : Word) : Bool := w.carries.any fun x => x.1 == n && x.2 != now

/-- Resident waves of a context that satisfy p carry an older epoch of entry n. -/
def State.residentOld (s : State) (ctx n : Nat) (p : Key → Bool) : Bool :=
  let now := (s.scopeEnt ctx n).epoch
  s.waves.any fun e => !isReeveCore (coreOf e.1) && (s.crew (crewOf e.1)).ctx == ctx && p e.1 && e.2.carriesOld n now

/-- A saved crew of a context carries an older epoch of entry n. -/
def State.savedOld (s : State) (ctx n : Nat) : Bool :=
  let now := (s.scopeEnt ctx n).epoch
  let old (l : List (Nat × Word)) : Bool := l.any fun x => x.1 == n && x.2 != now
  ((s.ctx ctx).imgs.any fun i => old i.carries) || s.saved.any fun e => e.ctx == ctx && old e.carries

/-- SCW_COMPLETE: every operation carrying an older epoch of entry n has completed, so the SCW completes (R127 step 4) and
the old sets are dropped. -/
def execScwComplete (ctx n : Nat) (s : State) : Host.Outcome State Fault Refusal :=
  .next <|
    if s.residentOld ctx n (fun _ => true) || s.savedOld ctx n then s
    else
      let s1 := s.modCtx ctx fun y =>
        { y with scopes := tset y.scopes n { tget y.scopes {} n with old := [] } }
      { s1 with waves := s1.waves.map fun e =>
          (e.1, { e.2 with pend := e.2.pend.map fun p => if p.why == some (.scw ctx n) then { p with arrived := true } else p }) }

/-- The SCWs of a crew's waves that are not complete, whose slots go on counting (R204): wave, slot and entry. -/
def State.crewScws (s : State) (c : Key) : List (Nat × Nat × Nat) :=
  (wavesOf c).flatMap fun k => (s.wave k).pend.filterMap fun p =>
    match p.why, p.slot with
    | some (.scw _ n), some t => if p.arrived then none else some (waveIdOf k, t, n)
    | _, _ => none

/-- A crew cannot be written yet: a peer has not answered one of its engines, an access or a write-back waits in a crossing FIFO, or a
wave has more results than NCB can count (log 20). -/
def State.saveHeld (s : State) (c : Key) : Bool :=
  s.linkBusy (clusterOf (coreOfCrew c)) || (s.pkg.peerOps.any fun o =>
      (o.eng == .wave && crewOf o.key == c) || (o.eng == .seq && o.key == c)
        || (o.eng == .copy && o.key == coreOfCrew c
            && (s.core o.key).copyq.any fun e => e.id == o.lane && e.cslot == cslotOf c))
    || (wavesOf c).any fun k =>
        decide (15 < ((s.wave k).pend.filter Pend.kept).length) || (s.wave k).held.any (·.fifo)

-- Removal.

/-- A parked access belongs to a crew. -/
def MissWho.ofCrew (w : MissWho) (c : Key) (ids : List Nat) : Bool :=
  match w with
  | .data k | .front k => crewOf k == c
  | .seq k => k == c
  | .copy n i => n == coreOfCrew c && ids.contains i
  | .queue _ => false

/-- The unreported accesses of a crew are forgotten (R373). -/
def State.forgetCrew (s : State) (c : Key) (ids : List Nat) : State :=
  s.forgetMisses (s.crew c).ctx fun w => w.ofCrew c ids

/-- Instruction lines pinned for a crew are pinned no longer (R103). -/
def State.unpinCrew (s : State) (c : Key) : State :=
  let clear (t : Tab (Tab ILine)) (n : Nat) : Tab (Tab ILine) :=
    match tfind t n with
    | none => t
    | some ls => tset t n (ls.map fun e => (e.1, { e.2 with pins := e.2.pins.filter (· ≠ c) }))
  s.modPkg fun p => { p with icore := clear p.icore (coreOfCrew c), iclus := clear p.iclus (clusterOf (coreOfCrew c)) }

/-- What a core holds of a crew that leaves: records, tiles, scales, sequencer, commands, waits and issue marks
(R45, R92, R95 to R97, R260). -/
def CoreSt.without (x : CoreSt) (c : Key) (half : Option Nat) : CoreSt :=
  let n := cslotOf c
  let mine (k : Key) : Bool := crewOf k == c
  { x with
    obrec := x.obrec.filter fun e => e.2.own != n
    obWait := x.obWait.filter fun e => match e.2 with | some r => r.own != n | none => (x.obRecOf e.1).own != n
    tiles := x.tiles.filter fun e => e.2.own != some n
    scale := match half with | some h => x.scale.filter fun e => e.1 / 4096 != h | none => x.scale
    seqs := x.seqs.filter fun e => e.2 != n + 1
    issued := x.issued.filter fun p => p.cslot != n
    attempt := x.attempt.filter fun m => m.cslot != n
    fixing := x.fixing.filter fun m => m.cslot != n
    engLast := if x.engLast = some n then none else x.engLast
    copyq := x.copyq.filter fun e => e.cslot != n
    q0wait := x.q0wait.filter fun k => !mine k
    quads := x.quads.map fun e =>
      (e.1, { e.2 with last := e.2.last.filter fun k => !mine k, inClause := e.2.inClause.filter fun k => !mine k,
                       acq := e.2.acq.filter fun k => !mine k }) }

/-- Whether the crew holds a matrix sequencer; its island is idle from then on (R392). -/
def State.noteIdle (s : State) (c : Key) : State :=
  if (s.crew c).seq.st == .off then s
  else s.modCore (coreOfCrew c) fun y => { y with island := { y.island with idleAt := s.reft } }

/-- Metering is enabled from DEPLOYED on (R417). -/
def State.metering (s : State) : Bool := s.pkg.life == .deployed || s.pkg.life == .returned

/-- OWNER of a polder (R350). -/
def State.ownerId (s : State) (p : Nat) : Nat := bits (s.polderWord p 0) 47 32

/-- Adds counts to counts. -/
def addTab (a b : Tab Nat) : Tab Nat := b.foldl (fun t e => tset t e.1 (tget t 0 e.1 + e.2)) a

/-- A polder's counts reach the Zesis controller (R368). -/
def State.pour (s : State) (p : Nat) : State :=
  let m := (s.polder p).meter
  let s1 := s.modPolder p fun x => { x with meter := [], total := if s.metering then addTab x.total m else x.total }
  if s.metering then
    s1.modPkg fun k => { k with ownMeter := tset k.ownMeter (s.ownerId p) (addTab (tget k.ownMeter [] (s.ownerId p)) m) }
  else s1

/-- The time since a core's crews were last looked at is counted: as run on a borrowed core for polders that do not own its cluster,
and as lent for the owner while there are such (R362, R369); in ns. -/
def State.useCore (s : State) (core : Nat) : State :=
  let cl := clusterOf core
  let t := s.reft - (s.core core).usedAt
  let ps := (((s.residents core).map fun k => polderOf (s.crew k).ctx).dedup).filter fun p => !s.ownsCluster p cl
  let s1 := ps.foldl (fun s p => s.meter p 20 t) s
  let s2 := match (List.range 32).find? fun p => s.ownsCluster p cl with
    | some o => if ps = [] then s1 else s1.meter o 21 t
    | none => s1
  s2.modCore core fun y => { y with usedAt := s.reft }

/-- A crew's counts reach the Zesis controller as it leaves (R368). -/
def State.meterCrew (s : State) (c : Key) : State :=
  let x := s.crew c
  (((s.useCore (coreOfCrew c)).meter (polderOf x.ctx) 0 (x.issued - x.metered)).meterCtrs c).pour (polderOf x.ctx)

/-- An agent of a crew: a wave, its sequencer, or its copy commands of the given ids. -/
def ofCrew (c : Key) (ids : List Nat) (e : EngKind) (key lane : Nat) : Bool :=
  (e == .wave && crewOf key == c) || (e == .seq && key == c) || (e == .copy && key == coreOfCrew c && ids.contains lane)

/-- A crew leaves its core: everything it held there is freed, what it has written is released (R104), and its counts reach the Zesis
controller (R368). The barriers of a cluster launch go to its lowest rank left, and the engine to what the others have issued. -/
def State.dropCrew (s : State) (c : Key) : State :=
  let x := s.crew c
  let core := coreOfCrew c
  let s := s.meterCrew c
  let ids := ((s.core core).copyq.filter fun e => e.cslot == cslotOf c).map (·.id)
  let heirs := (s.unitCrews c).filter (· ≠ c)
  let s1 := (s.unpinCrew c).forgetCrew c ids
  let s2 := (s1.noteIdle c).modCore core fun y => y.without c (if x.seq.st == .off then none else some x.seq.half)
  let ops := (s2.modPkg fun p => { p with peerOps := p.peerOps.filter fun o => !ofCrew c ids o.eng o.key o.lane }).releaseLines
    fun e n => (e != .copy && ofCrew c [] e n 0) || (e == .copy && ids.any fun i => n == copyAgent core i)
  let s3 := { ops with waves := ops.waves.filter fun e => crewOf e.1 ≠ c, crews := tdel ops.crews c }
  let s4 := match heirs with
    | [] => s3
    | h :: _ => if s.unitHead c = c then s3.modCrew (s3.unitHead h) fun y => { y with cbars := x.cbars } else s3
  ((s4.islandSettle core).engineGo core).barrierLeave

-- Restoration.

/-- A pending result from an entry of the commit buffer (R55). -/
def pendOf (a : Array Dword) (o : Nat) : Pend :=
  let h := rdI a o
  let kind := bits h 9 8
  let n := if kind = 2 then 0 else bits h 12 10
  let sl := rdI a (o + 0x18)
  { file := if kind = 1 then .s else .v, reg := bits h 7 0, n := n, mask := (rdI a (o + 8)).setWidth 32,
    data := (List.range n).map fun r =>
      if kind = 1 then Vector.replicate 32 (rd32 a (o + 64 + 128 * r)) else rdLanes a (o + 64 + 128 * r),
    remain := bits (rdI a (o + 0x10)) 3 0, slot := if sl.getLsbD 3 then some (bits sl 2 0) else none, counts := kind != 2,
    arrived := (rdI a (o + 0x20)).getLsbD 0 }

/-- A 128-bit value of a lane. -/
def rdWide (a : Array Dword) (o : Nat) : BitVec 128 := (rdI a o).setWidth 128 ||| ((rdI a (o + 8)).setWidth 128 <<< 64)

/-- A held access from a block: its word, mask and epoch stand at given places, its addresses and data after them. -/
def heldAt (a : Array Dword) (word mask : Dword) (ep : Word) (pc addrs : Nat) : HeldAcc :=
  { word := word, pc := pc, mask := mask.setWidth 32, epoch := ep,
    addrs := Vector.ofFn fun l : Fin 32 => rdI a (addrs + 8 * l.val),
    data := Vector.ofFn fun l : Fin 32 => rdWide a (addrs + 0x100 + 16 * l.val) }

/-- The held accesses of a wave's entry, oldest first (R420); a LAUNCH, SCW or SCR there is a word that issues again. -/
def heldsOf (a : Array Dword) (cb queued : Nat) : List HeldAcc :=
  let h := rdI a (cb + 0x280)
  let word := rdI a (cb + 0x288)
  let front := match decodeWave false word with | .ok (.launch _) | .ok (.scw _) | .ok (.scr _) => true | _ => false
  if !h.getLsbD 63 || bits h 61 60 ≠ 0 || front then []
  else
    heldAt a word (rdI a (cb + 0x298)) (h.setWidth 32) (rdI a (cb + 0x290)).toNat (cb + 0x2A0) ::
      (List.range (bits (rdI a (cb + 0x5A0)) 4 0)).map fun i =>
        let q := queued + 1024 * i
        heldAt a (rdI a q) (rdI a (q + 8)) (rd32 a (q + 12)) 0 (q + 0x20)

/-- The result of a held access whose window is closed. -/
def heldPend (h : HeldAcc) : Option Pend :=
  match decodeWave false h.word with
  | .ok i => (pendsOf i (heldRes i h.mask)).head?.map fun p => { p with remain := 0 }
  | .clause | .access | .illegal => none

/-- Two entries are of one destination, mask and slot. -/
def Pend.alike (p q : Pend) : Bool := p.file == q.file && p.reg == q.reg && p.n == q.n && p.mask == q.mask && p.slot == q.slot

/-- The results of held accesses, newest first, each with the entry of the commit buffer that is its own, if its window is open. -/
def matchHeld : List Pend → List Pend → List (Pend × Bool)
  | [], _ => []
  | e :: r, [] => (e, false) :: matchHeld r []
  | e :: r, c :: cs => if e.alike c then (c, true) :: matchHeld r cs else (e, false) :: matchHeld r (c :: cs)

/-- Results in their order: the entries of the commit buffer, and before each that waits for a held access those of the accesses before
it. -/
def weave : List Pend → List (Pend × Bool) → List Pend
  | [], us => us.map (·.1)
  | c :: cs, us =>
    if c.arrived then c :: weave cs us
    else (us.takeWhile fun u => !u.2).map (·.1) ++ c :: weave cs ((us.dropWhile fun u => !u.2).drop 1)

/-- The pending results of a restored wave: the commit buffer, and the results of its held accesses with a closed window (R51, R420). -/
def mergePend (cbs : List Pend) (hs : List HeldAcc) : List Pend :=
  weave cbs (matchHeld (hs.filterMap heldPend).reverse (cbs.filter fun c => !c.arrived).reverse).reverse

/-- The pending results of the word in whose park a wave is restored (R44, R52, R206). -/
def parkedPend (w : Wave) : List Pend :=
  match w.park, w.parkI with
  | some .tag, some (.lds mode sz x) =>
    pendsOf (.lds mode sz x) (lateRes [resV x.d.toNat sz.regs (w.act x.pr x.pn) fun _ => 0])
  | some .tag, some (.sts e sz x) => pendsOf (.sts e sz x) (lateRes [])
  | some (.ldwatch _ _), some (.ldwatch t x) => pendsOf (.ldwatch t x) (lateRes (watchRes x (w.act x.pr x.pn) [] 0))
  | _, _ => []

/-- An LDWATCH that is issued again from its word instead of resuming its park leaves the slot that it had taken (R52, R206). -/
def Wave.unwatch (w : Wave) (code : Nat) (i : Option Instr) : Wave :=
  match code, w.park, i with
  | 7, none, some (.ldwatch _ x) => w.slotAdd (lkM x).slot false
  | _, _, _ => w

/-- SCWs of a restored wave that are not complete (R127, R204). -/
def scwPend (ctx : Nat) (busy : Nat → Bool) (l : List (Nat × Nat)) : List Pend :=
  l.map fun e => { mask := BitVec.allOnes 32, slot := some e.1, arrived := !busy e.2, why := some (.scw ctx e.2) }

/-- Results without a destination for what SBCNT counts beyond the other results: a PFENCE that waits for the wave's copy commands
(R254, R420). -/
def fencePend (sb : Tab Nat) (ps : List Pend) (ids : List Nat) : List Pend :=
  (List.range 8).flatMap fun n =>
    List.replicate (tget sb 0 n - (ps.filter fun p => p.counts && p.slot == some n).length)
      { mask := BitVec.allOnes 32, slot := some n, arrived := ids.isEmpty, why := some (.copies ids) }

/-- The word of a wait code with its operand (R381). -/
def waitsAt (code opnd : Nat) (i : Instr) : Bool :=
  match code, i with
  | 2, .weirwait x | 3, .weirsync x => weirNo x == opnd
  | 4, .cbwait x | 5, .cbarv x => barNo x == opnd
  | 6, .acqx x => x.imm.toNat == opnd
  | 7, .ldwatch _ _ | 8, .sleep _ => true
  | 9, .movQ0Push _ | 10, .movQ1Pop _ | 11, .launch _ => true
  | 12, .lds _ _ _ | 12, .sts _ _ _ => true
  | _, _ => false

/-- The word is a scalar load or store. -/
def isScalarAcc (word : Dword) : Bool :=
  match decodeWave false word with
  | .ok (.ldScalar ..) | .ok (.stScalar ..) => true
  | _ => false

/-- The lanes of a restored held access that are checked: all but helper lanes. DESIGN CHOICE (log 82): a lane that has exited since
is one that was live. -/
def HeldAcc.withLive (h : HeldAcc) (helpers : LaneMask) : HeldAcc :=
  { h with live := if isScalarAcc h.word then h.mask else h.mask &&& ~~~helpers }

/-- The clause header before a word in the middle of a clause: the nearest one below it (DEDUCED, log 20). -/
def headerBefore (peek : Nat → Option Dword) (pc : Nat) : Option Nat :=
  let hdr (a : Nat) : Bool := match peek a with | some w => isHeader w | none => false
  if hdr pc then none else ((List.range 16).map fun i => pc - 8 * (i + 1)).find? hdr

/-- A park as the image records it (R206, R381), for a wave that stands at its word; none where the word issues again. -/
def parkOf (code opnd : Nat) (a : Array Dword) (cb rec' : Nat) (i : Option Instr) (weir : Nat → Word) (phase : Option Word)
    (view : BitVec 16) (epoch : Nat → Word) : Option (Park × Instr) :=
  let imm : IF := { imm := BitVec.ofNat 32 opnd }
  match code with
  | 2 => some (.weir opnd (phase.getD (weir opnd)) false, i.getD (.weirwait imm))
  | 3 => some (.weir opnd (phase.getD (weir opnd)) true, i.getD (.weirsync imm))
  | 7 =>
    match i with
    | some (.ldwatch t x) =>
      let n := x.sc.toNat
      if 6 ≤ n && !view.getLsbD n then none
      else
        let d := (rdI a (cb + 8)).toNat
        some (.ldwatch (if d = 0 then none else some d) (if n < 6 then 0 else epoch n), .ldwatch t x)
    | _ => none
  | 8 => some (.sleep (rdI a (rec' + 0x1B8)).toNat, i.getD (.sleep {}))
  | 12 => (match decodeWave false (rdI a (cb + 0x288)) with | .ok j => some (.tag, j) | _ => none)
  | _ => none

/-- Whether the saved data of a tag access is what its lanes have received. -/
def tagLoad (i : Option Instr) : Bool := match i with | some (.lds _ _ _) => true | _ => false

/-- The JWAITs at which lanes are parked, as a restored wave knows them (R188): those of the clause at `hdr`, where the wave was stuck
there, then the highest address first (DESIGN CHOICE, log 66). -/
def jlastOf (w : Wave) (stuck : Bool) (hdr : Nat) : List (Nat × LaneMask) :=
  let parked : LaneMask := laneMask fun l => match w.jpark[l] with | some n => decide (n < 8) | none => false
  let as := (((lanesOf parked).map fun l => (w.lpc[l]).toNat - 8).dedup).insertionSort (· ≥ ·)
  let near (a : Nat) : Bool := stuck && decide (hdr < a) && decide (a ≤ hdr + 128)
  ((as.filter near) ++ as.filter fun a => !near a).map fun a => (a, w.lanesAt parked (a + 8))

/-- Where the running group of a saved wave stands inside the clause at `hdr` (R381): among the places there at which eligible lanes
stand, that of the tag access, or the first at a word of its wait code, else the lowest; none where it stands at the header (log 20). -/
def groupAt (w : Wave) (hdr code opnd tagAt : Nat) (inst : Nat → Option Instr) : Option Nat :=
  let ps := (((lanesOf w.eligible).map fun l => (w.lpc[l]).toNat).dedup).insertionSort (· ≤ ·)
  let here := ps.filter fun p => decide (hdr < p) && decide (p ≤ hdr + 128) && (p - hdr) % 8 == 0
  if code = 12 then here.find? (· == tagAt)
  else
    (here.find? fun p => match inst p with | some i => waitsAt code opnd i | none => false).orElse fun _ =>
      if code ≤ 1 && ps.contains hdr then none else here.head?

/-- A wave from its entry at `cb` (R56, R130, R381, R420): `peek` reads a word of the context's code. DESIGN CHOICE (log 8): an SRSEED
word of 0 is loaded as it stands. -/
def waveOf (a : Array Dword) (cb : Nat) (peek : Nat → Option Dword) (epoch : Nat → Word) (weir : Nat → Word)
    (cyc reft : Nat) (toks : List Dword) (stop : Bool) : Wave :=
  let r := cb + 0x800
  let whdr := rdI a r
  let sp := r + 0x180
  let ncb := bits whdr 55 52
  let vl (i : Nat) : BitVec 256 := (rdI a (r + 0x10 + 8 * i)).setWidth 256 <<< (64 * i)
  let vlive := vl 0 ||| vl 1 ||| vl 2 ||| vl 3
  let banks := (List.range 32).filter fun b => vlive.extractLsb' (8 * b) 8 != 0
  let data := r + 0x280 + 576 * ncb
  let queued := cb + 0x800 + (0x280 + 576 * ncb + 1024 * bits whdr 63 56 + 1023) / 1024 * 1024
  let lane (l : Nat) : Nat := rdByte a (cb + 0x120 + l)
  let helds := (heldsOf a cb queued).map fun h => h.withLive (laneMask fun l => lane l.val % 4 == 1)
  let calls := (List.range (bits (rdI a (cb + 0x140)) 3 0)).map fun i =>
    let o := cb + 0x148 + 24 * i
    ({ ret := (rdI a o).toNat, held := rd32 a (o + 8), waiting := rd32 a (o + 12), running := rd32 a (o + 16) } : CallRec)
  let view0 : BitVec 16 := (rd32 a (sp + 8)).setWidth 16 ||| 0x3F
  let ack (n : Nat) : Word := rd32 a (sp + 0x10 + 4 * (n - 6))
  let view := (List.range 10).foldl (fun v i => if ack (6 + i) = epoch (6 + i) then v else v &&& ~~~(BitVec.twoPow 16 (6 + i))) view0
  let has (n : Nat) : Bool := (rdI a (cb + 0x248)).getLsbD n
  let wait := rdI a (cb + 0x10)
  let code := bits wait 3 0
  let opnd := bits wait 15 8
  let w0 : Wave :=
    { here := true, breg := 8 * (bits whdr 51 47 + 1), xb := bits whdr 46 44,
      v := banks.zipIdx.flatMap fun p => (List.range 8).map fun i => (8 * p.1 + i, rdLanes a (data + 1024 * p.2 + 128 * i)),
      vlive := vlive, sreg := (List.range 64).map fun n => (n, rd32 a (r + 0x40 + 4 * n)), slive := rdI a (r + 0x30),
      kreg := (List.range 8).map fun n => (n, rd32 a (r + 0x140 + 4 * n)),
      jreg := (List.range 8).map fun n => (n, rd32 a (r + 0x160 + 4 * n)),
      sb := (List.range 8).map fun n => (n, bits (rdI a (r + 8)) (4 * n + 3) (4 * n)),
      partreg := rd32 a sp &&& 7, fpflags := rd32 a (sp + 4) &&& 0x3F, view := view,
      acked := (List.range 10).map fun i => (6 + i, ack (6 + i)), srseed := rdLanes a (sp + 0x40),
      lst := Vector.ofFn fun l : Fin 32 => match lane l.val % 4 with | 0 => .live | 1 => .helper | 2 => .exited | _ => .never,
      lpc := Vector.ofFn fun l : Fin 32 => rdI a (cb + 0x20 + 8 * l.val),
      jpark := Vector.ofFn fun l : Fin 32 => if lane l.val / 4 % 2 = 1 then some (lane l.val / 8 % 8) else none,
      calls := calls.reverse, pend := mergePend ((List.range ncb).map fun i => pendOf a (r + 0x280 + 576 * i)) helds,
      banks := banks.map fun b => (b, { st := .full }),
      weirLast := ((List.range 16).filter has).map fun n => (n, rd32 a (cb + 0x208 + 4 * n)),
      cbLast := ((List.range 4).filter fun n => has (16 + n)).map fun n => (n, rd32 a (cb + 0x250 + 4 * n)),
      stage := (List.range (bits (rdI a (cb + 0x260)) 1 0)).map fun i => rdI a (cb + 0x268 + 8 * i),
      tokens := toks, held := helds, waited := cyc, parkSince := reft, stopped := stop }
  let hdr := (rdI a cb).toNat
  let inst (p : Nat) : Option Instr := (peek p).bind fun w => match decodeWave false w with | .ok i => some i | _ => none
  let at' := groupAt w0 hdr code opnd (rdI a (cb + 0x290)).toNat inst
  let mid := at'.isSome
  let p := at'.getD 0
  let group : LaneMask := if mid then w0.lanesAt w0.eligible p else 0
  let park := if mid then parkOf code opnd a cb r (inst p) weir ((tfind w0.weirLast opnd)) view epoch else none
  let w1 : Wave :=
    { w0 with
      group := group
      jlast := jlastOf w0 (code = 1) hdr
      clause := if mid then (peek hdr).map fun h => { hdrAt := hdr, hdr := h, pos := (p - hdr) / 8 - 1 } else none
      park := park.map (·.1)
      parkI := park.map (·.2)
      lhdr := Vector.ofFn fun l : Fin 32 =>
        if inMask w0.nonExited l then
          (if inMask group l then (if (peek hdr).isSome then none else some hdr) else headerBefore peek (w0.lpc[l]).toNat)
        else none
      tagLeft := if code = 12 then (rdI a (cb + 0x298)).setWidth 32 else 0
      tagGot := if code = 12 && tagLoad (park.map (·.2)) then
          Vector.ofFn fun l : Fin 32 => rd32 a (cb + 0x3A0 + 16 * l.val) else zeroLanes }
  let w2 : Wave := ({ w1 with pend := w1.pend ++ parkedPend w1 } : Wave).unwatch code (inst p)
  if w2.nonExited = 0 then { w2 with exitWait := !w2.quiet, done := w2.quiet } else w2

/-- The parked tag accesses of a wave re-enter the queues of their words (R207). -/
def tagsOf (a : Array Dword) (cb wid : Nat) : List TagWait :=
  let h := rdI a (cb + 0x280)
  let kind : Option TagKind :=
    match decodeWave false (rdI a (cb + 0x288)) with
    | .ok (.lds .take _ _) => some .ldst
    | .ok (.lds _ _ _) => some .ldsf
    | .ok (.sts _ _ _) => some .stse
    | _ => none
  match kind with
  | none => []
  | some k =>
    if !h.getLsbD 63 || bits h 61 60 ≠ 2 then []
    else
      (lanesOf ((rdI a (cb + 0x298)).setWidth 32)).map fun l =>
        { wave := wid, lane := l.val, word := (rdI a (cb + 0x2A0 + 8 * l.val)).toNat / 4, kind := k,
          data := rd32 a (cb + 0x3A0 + 16 * l.val) }

/-- The scratchpad words of the saved banks: those that hold data or are FULL. -/
def spOf (a : Array Dword) (banks : List Nat) (o : Nat) : Tab SpWord :=
  banks.zipIdx.flatMap fun p =>
    let b := o + 8448 * p.2
    (List.range 2048).filterMap fun i =>
      let d := rd32 a (b + 4 * i)
      let full := (rdI a (b + 8192 + 8 * (i / 64))).getLsbD (i % 64)
      if d = 0 && !full then none else some (2048 * p.1 + i, { data := d, full := full })

/-- The latch of the matrix section (R382), its scales of a block length. -/
def latchOf (a : Array Dword) (o blk : Nat) : Option Latch :=
  let w := rdI a o
  let sc := (List.range 512).map fun i => (BitVec.ofNat 16 (rdByte a (o + 0x1008 + 2 * i) + 256 * rdByte a (o + 0x1009 + 2 * i)) : BitVec 16)
  if w.getLsbD 63 then
    some { ra := bits w 51 48, aoff := bits w 47 36, fmt := bits w 35 32,
           bytes := (List.range 4096).map fun i => BitVec.ofNat 8 (rdByte a (o + 8 + i)),
           scales := if bits w 35 32 = 5 || sc.getD latchedScales 0 ≠ 0 then some sc else none, blk := blk }
  else none

/-- The sequencer of the matrix section (R382). The latched scales are those of the record that the latch names, as the image owns it
(DESIGN CHOICE, log 64). -/
def seqOf (a : Array Dword) (m half : Nat) (stop : Bool) : Seq :=
  let lc (n : Nat) : Nat := (rd32 a (m + 0x48 + 4 * n)).toNat
  let blk := if (rdI a (0x178 + 16 * bits (rdI a (m + 0x98)) 51 48)).getLsbD 54 then 32 else 16
  { st := .run, half := half, mpc := (rdI a m).toNat, ma := (List.range 8).map fun n => (n, rdI a (m + 8 + 8 * n)),
    lcCnt := (List.range 4).map fun n => (n, lc n % 2 ^ 17), lcAct := (List.range 4).map fun n => (n, lc n / 2 ^ 17 % 2 == 1),
    seen := (List.range 16).map fun n => (n, rd32 a (m + 0x58 + 4 * n)), latch := latchOf a (m + 0x98) blk,
    begun := true, stopped := stop }

/-- The stream with which an image was saved, where the image still names its position (R160, R287; DESIGN CHOICE, log 59). -/
def streamOf (a : Array Dword) (x : Option Stream) : Option Stream :=
  let m := (rdI a 0x168).toNat
  x.filter fun x => x.words == (List.range x.words.length).map fun i => rdI a (m + 8 * i)

/-- A sequencer goes on in another half, or stopped, as it was saved: it runs again from where it stands (R307). -/
def Seq.restored (q : Seq) (half : Nat) (stop : Bool) : Seq :=
  { q with half := half, stopped := stop, missVa := none, dry := none, rows := [],
           st := if q.st == .ended then .run else if q.st == .parked then .run else q.st,
           mpc := if q.st == .ended then q.mpc - 8 else q.mpc }

/-- A copy command of the copy section (R383). -/
def copyOf (a : Array Dword) (o cslot id : Nat) (stop : Bool) : CopyEnt :=
  let st := bits (rdI a (o + 32)) 31 0
  let x := rdI a (o + 40)
  let mark := bits (rdI a (o + 32)) 63 32
  { cmd := unpackCopy (rdI a o) (rdI a (o + 8)) (rdI a (o + 16)) (rdI a (o + 24)), cslot := cslot, wave := bits x 20 16, id := id,
    base := bits x 30 22, fmt := bits x 35 32,
    st := if x.getLsbD 21 then .posted else if st = 0 then .queued else .running,
    mark := mark, more := ((List.range 16).filter fun i => x.getLsbD i).map fun i => mark + i, stopped := stop }

/-- The bits of a token that are not reserved (R7, R271). -/
def tokenBits : Dword := 0xFFFFF000FFFFFFFF

/-- The bits of word j of a check record that are not reserved (R7, R155). -/
def checkBits (j : Nat) : Dword :=
  match j with
  | 2 => 0xFFFFFFFFFFFF8000
  | 3 => 0x01FFFFFFFFFFFFFF
  | _ => BitVec.allOnes 64

/-- Tokens of each wave after the commands: counts and tokens in order (R383). -/
def tokensOf (a : Array Dword) : (waves o : Nat) → List (List Dword)
  | 0, _ => []
  | n + 1, o =>
    let k := (rdI a o).toNat % 2 ^ 16
    (List.range k).map (fun i => rdI a (o + 8 + 8 * i) &&& tokenBits) :: tokensOf a n (o + 8 + 8 * k)

/-- The launch record of an image. -/
def imageRec (a : Array Dword) : List Dword := (List.range 16).map fun i => rdI a (0x10 + 8 * i)
/-- CREWID of an image. -/
def imageCrew (a : Array Dword) : Nat := bits (rdI a 8) 31 0
/-- Waves of an image. -/
def imageWaves (a : Array Dword) : Nat := bits (rdI a 0) 13 8
/-- The image holds a matrix section. -/
def imageMstr (a : Array Dword) : Bool := (rdI a 0).getLsbD 14
/-- Offset of the entry of wave i. -/
def entryAt (a : Array Dword) (i : Nat) : Nat := waveEntryAt (fun o => rdI a o) (rdI a 0x158).toNat i

/-- NBANK of every wave record is the number of its banks with a LIVE register (R56), and the header is one (R380). -/
def imageOk (a : Array Dword) : Bool :=
  let r := imageRec a
  bits (rdI a 0) 7 0 == 1 && recForm r && imageWaves a == recNwave r && imageMstr a == recMstr r
    && bits (rdI a 0) 21 16 == recSpb r && bits (rdI a 0) 27 24 == recXblk r && decide (imageCrew a < recCrews r)
    && (List.range (imageWaves a)).all fun i =>
      let e := entryAt a i + 0x800
      let live (b : Nat) : Bool := rdByte a (e + 0x10 + b) != 0
      bits (rdI a e) 63 56 == ((List.range 32).filter live).length

/-- Records that an image owns, with their numbers. -/
def imageRecs (a : Array Dword) (cslot : Nat) : List (Nat × ObRec) :=
  (List.range 16).filterMap fun n =>
    let w0 := rdI a (0x178 + 16 * n)
    if w0.getLsbD 63 then some (n, unpackOb cslot w0 (rdI a (0x180 + 16 * n))) else none

/-- The matrix resources that an image names are free on a core (R344). -/
def State.matrixFits (s : State) (a : Array Dword) (core : Nat) : Bool :=
  let c := s.core core
  ((List.range 16).all fun t => !(rdI a 0x150).getLsbD (32 + t) || (c.tile t).own.isNone)
    && (imageRecs a 0).all fun e =>
      !(c.obRecOf e.1).v && (c.obrec.all fun f => !f.2.v || !f.2.meets e.2)

/-- A free crew slot of a core: the lowest (log 20). -/
def State.freeSlot (s : State) (core : Nat) : Option Nat :=
  (List.range 16).find? fun n => (s.crew (crewKey core n)).st == .absent

/-- An image fits a core (R22, R344). -/
def State.imageFits (s : State) (a : Array Dword) (core : Nat) : Bool :=
  (s.room core).fits (imageRec a) && s.matrixFits a core && (s.freeSlot core).isSome

/-- Schedule entries of a crew as they stand in memory (R24); none where a page is missing. -/
def State.schedWords (s : State) (c : Nat) : (n va : Nat) → Option (List Word)
  | 0, _ => some []
  | n + 1, va =>
    match s.translate (some c) dispCore va .read with
    | .ok s1 pa _ => (s1.schedWords c n (va + 4)).map fun ws => BitVec.ofNat 32 (ofBytes (s.homeBytes pa 4)) :: ws
    | .miss | .access | .ecc _ | .busy => none

/-- The schedule segment of a crew (R24). -/
def State.segment (s : State) (c : Nat) (r : List Dword) (crewid : Nat) : Option (List Word) :=
  s.schedWords c (recScnt r) (recSched r + 4 * recScnt r * crewid)

/-- A sequencer half that is free. -/
def CoreSt.freeHalf (c : CoreSt) : Nat := if tget c.seqs 0 0 = 0 then 0 else 1

/-- What a crew is restored as: its launch, unit and rank, the instructions that it has issued (R359), the SCWs of its waves that
were not complete (R204), and its stream. -/
structure CrewId where
  launch : Nat
  queue : Nat
  idx : Nat
  unit : Nat
  rank : Nat
  issued : Nat := 0
  scws : List (Nat × Nat × Nat) := []
  stream : Option Stream := none
  deriving DecidableEq, Repr

/-- The crew of an image, its waves apart. DESIGN CHOICE (log 67): TAKEN of its banks is clear. -/
def State.crewOfImage (s : State) (a : Array Dword) (ctx : Nat) (i : CrewId) (sched : List Word) (half : Nat) (stop : Bool) :
    Crew :=
  let r := imageRec a
  let banks := (List.range 32).filter fun b => (rdI a 0x150).getLsbD b
  let thr := (rd32 a 0x98).toNat
  let m := (rdI a 0x168).toNat
  { st := if stop then .loaded else .running, ctx := ctx, lrec := r, queue := i.queue, recIdx := i.idx, launch := i.launch,
    unit := i.unit, rank := i.rank, crewid := BitVec.ofNat 32 (imageCrew a), nwave := recNwave r, spbN := recSpb r,
    xblk := recXblk r, regionMode := (rd32 a 0x90).setWidth 2, spauto := rd32 a 0x94, thrCause := thr / 2 ^ 28 % 8,
    thrEpis := thr % 2 ^ 16, luign := rd32 a 0xA0, uhmiss := rd32 a 0xA4, sched := sched, cursor := bits (rdI a 0xA8) 12 0,
    weirs := (List.range 16).map fun n =>
      let w := rdI a (0xB0 + 8 * n)
      (n, { armed := bits w 5 0, a := bits w 13 8, p := BitVec.ofNat 32 (bits w 63 32) }),
    cbars := (List.range 4).map fun n => (n, { p := BitVec.ofNat 32 (bits (rdI a (0x130 + 8 * n)) 63 32) }),
    sp := spOf a banks (rdI a 0x160).toNat, spb := banks.map fun b => (b, { st := .full }), spdrop := rd32 a 0x2C0,
    tagq := (List.range (imageWaves a)).flatMap fun w => tagsOf a (entryAt a w) w,
    issued := i.issued, metered := i.issued,
    chk := if imageMstr a then (List.range 8).map fun n => (List.range 4).map fun j => rdI a (m + 0x14A0 + 32 * n + 8 * j) &&& checkBits j else [],
    chkSeq := if imageMstr a then BitVec.ofNat 32 (bits (rdI a (m + 0x15A0)) 63 32) else 0,
    ctrs := (List.range 8).map fun n => (n, (rdI a (0x278 + 8 * n)).toNat),
    fedCtrs := (List.range 8).map fun n => (n, (rdI a (0x278 + 8 * n)).toNat),
    seq := if !imageMstr a then {}
      else ((streamOf a i.stream).map fun x => x.seq.restored half stop).getD (seqOf a m half stop), since := s.reft, idem := recIdem r }

/-- The tiles and scales of an image on a core. -/
def CoreSt.loadMatrix (c : CoreSt) (a : Array Dword) (cslot half : Nat) : CoreSt :=
  if !imageMstr a then c
  else
    let m := (rdI a 0x168).toNat
    let ts := (List.range 16).filter fun t => (rdI a 0x150).getLsbD (32 + t)
    let el (o : Nat) : Tab Word := (List.range 4096).filterMap fun i =>
      let w := rd32 a (o + 4 * i)
      if w = 0 then none else some (i, w)
    let sc := m + 0x1800 + 16384 * ts.length
    { c with
      tiles := ts.zipIdx.foldl (fun t p => tset t p.1 { own := some cslot, el := el (m + 0x1800 + 16384 * p.2) }) c.tiles
      scale := c.scale ++ (List.range 4096).filterMap (fun i =>
        let v := rdByte a (sc + 2 * i) + 256 * rdByte a (sc + 2 * i + 1)
        if v = 0 then none else some (half * 4096 + i, BitVec.ofNat 16 v))
      seqs := tset c.seqs half (cslot + 1) }

/-- A wave that recorded an arrival in the current phase of a cluster barrier has arrived (R195, R381). -/
def State.rejoinBarriers (s : State) (c : Key) : State :=
  let h := s.unitHead c
  let ks := (s.unitCrews c).flatMap wavesOf
  s.modCrew h fun x =>
    { x with cbars := (List.range 4).map fun n =>
        let b := tget x.cbars {} n
        (n, { b with arrived := ks.filter fun k => (s.wave k).here && tfind (s.wave k).cbLast n == some b.p }) }

/-- A crew is restored from its image into a slot of a core (R56, R92, R344, R383, R420): it sees what it stored elsewhere (R107), its
held accesses are issued again, its products go on, and it is held as its die and its island ask (R148, R320). -/
def State.loadCrew (s : State) (a : Array Dword) (ctx : Nat) (i : CrewId) (sched : List Word) (core cslot : Nat) (stop : Bool) :
    State :=
  let c := crewKey core cslot
  let half := (s.core core).freeHalf
  let stream := streamOf a i.stream
  let s0 := s.dropClean (clusterOf core) fun _ => true
  let s1 := (imageRecs a cslot).foldl (fun s e => s.obInstall core e.1 e.2) (s0.setCrew c (s.crewOfImage a ctx i sched half stop))
  let cp := (rdI a 0x170).toNat
  let ncmd := (rdI a cp).toNat % 128
  let s2 := s1.modCore core fun y =>
    let y1 := y.loadMatrix a cslot half
    { y1 with copyId := y1.copyId + ncmd,
              issued := y1.issued ++ ((stream.map (·.prods)).getD []).map fun p => { p with cslot := cslot },
              copyq := y1.copyq ++ (List.range ncmd).map fun n => copyOf a (cp + 8 + 64 * n) cslot (y.copyId + n) stop }
  let toks := tokensOf a (imageWaves a) (cp + 8 + 64 * ncmd)
  let peek (va : Nat) : Option Dword := match s2.fetchWord (some ctx) core va with | .ok _ w => some w | .miss | .access | .ecc _ | .wait => none
  let epoch (n : Nat) : Word := (s2.scopeEnt ctx n).epoch
  let weir (n : Nat) : Word := ((s2.crew c).weir n).p
  let s3 := (List.range (imageWaves a)).foldl (fun s n =>
    let k := waveKey c n
    let w := waveOf a (entryAt a n) peek epoch weir (s.quad k).cyc s.reft (toks.getD n []) stop
    let ids := s.waveCopies k
    let scws := scwPend ctx (fun e => (s.scopeEnt ctx e).old != []) ((i.scws.filter fun e => e.1 == n).map (·.2))
    let ps := w.pend ++ scws
    s.setWave k { w with held := w.held.map (fun h => { h with stamp := s.stampNow k }), fences := if ids = [] then [] else [(0, ids), (2, ids), (3, ids)],
                         pend := ps ++ fencePend w.sb ps ids }) s2
  let s4 := (wavesOf c).foldl (fun s k => s.replay k 17) (s3.rejoinBarriers c)
  ((s4.slowNew c).islandSettle core).engineGo core

end Sys2Proof.Machine
end

