-- ==== Sys2Proof/Machine/Privileged.lean ====
section
/-! DEFINITION. The privileged words (R340 to R349): event return, TLB invalidation with the re-walk of parked accesses (R374),
context save and load, stop records, RESUME, FLOOD, dirty harvest, checkpoint and rollback. -/

namespace Sys2Proof.Machine

-- Common form (R341).

/-- A result word: STATUS in [31:28], VALUE in [27:0]. -/
def resultWord (status value : Nat) : Nat := status % 16 * 2 ^ 28 + value % 2 ^ 28

/-- ISSUE of a privileged word: ACCESS in user mode (R164, R330), ALIGN of its area, then its effect with the result in sD+1;
no answer holds it at issue (R341). It waits while a die relocks, since what it walks and writes may lie across the crossing (R318;
DESIGN CHOICE, log 88). -/
def privIssue (i : Instr) (x : MF) (align : Nat) (go : State → Key → Wave → Option (State × Nat)) (s : State) : State :=
  s.issue i fun s k w =>
    if !isReeveCore (coreOf k) then .fault .access (BitVec.ofNat 64 w.pc)
    else
      waveLevel x.pr x.pn
        (fun s k w =>
          let e := w.addrS x
          if align ≠ 0 && e.toNat % align ≠ 0 then .fault .align e
          else if s.relocking then .hold
          else
            match go s k w with
            | none => .hold
            | some (s1, r) => .done s1 [resS (x.d.toNat + 1) 1 (w.act x.pr x.pn) r])
        s k w

/-- The handle of a privileged word. -/
def Wave.handle (w : Wave) (x : MF) : Word := w.rs x.d.toNat
/-- The context that a KIND 0 handle names. -/
def State.ctxOfHandle (s : State) (h : Word) : Option Nat := match s.obj h with | some (.ctx c) => some c | _ => none

/-- Physical parts of a range of the firmware space, if all of it allows the access. A page that is mapped and forbids it, a walk or a
source that meets a line which memory cannot correct, make the range one that cannot be used: STATUS 3, like an area that is not
mapped (DESIGN CHOICE, log 87). -/
def State.fwParts (s : State) (core : Nat) (a : Acc) : (pages va n : Nat) → Option (List (Nat × Nat))
  | 0, _, n => if n = 0 then some [] else none
  | p + 1, va, n =>
    if n = 0 then some []
    else if 2 ^ 57 ≤ va then none
    else
      match s.translate none core va a with
      | .ok _ pa _ =>
        let len := min n (4096 - va % 4096)
        if a == .read && (linesOf pa len).any s.homeBad then none
        else (s.fwParts core a p (va + len) (n - len)).map ((pa, len) :: ·)
      | .miss | .access | .ecc _ | .busy => none
/-- Parts of n bytes at an address. -/
def State.fwRange (s : State) (core : Nat) (a : Acc) (va n : Nat) : Option (List (Nat × Nat)) :=
  s.fwParts core a (n / 4096 + 2) va n

/-- Writes words over parts, past the caches of the issuing cluster; the lines that they fill hold no error any longer (R384). -/
def State.putParts (s : State) (core : Nat) : List (Nat × Nat) → List Dword → State
  | [], _ => s
  | p :: r, ws =>
    let bs := (ws.take (p.2 / 8)).flatMap fun w => bytesOf w.toNat 8
    (((s.heal (wholeOf p.1 p.2)).pokeBytes p.1 bs).dropCopies (clusterOf core) p.1 p.2).putParts core r (ws.drop (p.2 / 8))
/-- The words of parts, as the issuing core sees them. -/
def State.getParts (s : State) (core : Nat) (ps : List (Nat × Nat)) : List Dword :=
  ps.flatMap fun p => (List.range (p.2 / 8)).map fun i =>
    BitVec.ofNat 64 (ofBytes ((List.range 8).map fun j => s.meetByte (clusterOf core) (p.1 + 8 * i + j)))

-- ERET.

/-- Body of ERET (R340). -/
def eretBody (s : State) (k : Key) (w : Wave) : Eff :=
  if !isReeveCore (coreOf k) then .fault .access (BitVec.ofNat 64 w.pc)
  else if (s.die (dieOf (coreOf k))).evq = [] then .park s .event
  else .done (s.takeEvent k) [] .leave

/-- ERET, the return from an event (R340): the next event, or the wave parks. -/
def execEret (s : State) : Host.Outcome State Fault Refusal := .next (s.issue .eret eretBody)

-- TLBINV.

/-- An address lies in a range of 4 KiB granules; no granules stand for the whole space (R342). -/
def inRange (va n a : Nat) : Bool := n == 0 || (decide (va ≤ a) && decide (a < va + 4096 * n))

/-- Removes TLB entries and walk-cache entries of a context (R342, R372). -/
def State.dropTlb (s : State) (c va n : Nat) : State :=
  let hit (x : TlbEnt) : Bool :=
    if n = 0 then x.ctx == c && !x.g
    else (x.ctx == c || (x.g && x.polder == polderOf c)) && decide (x.va < va + 4096 * n) && decide (va < x.va + x.size)
  let leads (x : WalkEnt) : Bool :=
    let span := 2 ^ (9 * x.lvl + 12)
    x.ctx == c && (n = 0 || (decide (x.va * span < va + 4096 * n) && decide (va < (x.va + 1) * span)))
  s.modPkg fun p => { p with tlb := p.tlb.filter fun x => !hit x, walks := p.walks.filter fun x => !leads x }

/-- The address still misses in a context's space, for an engine of a core. -/
def State.misses (s : State) (c core va : Nat) : Bool := match s.translate (some c) core va .read with | .miss => true | _ => false

/-- The access of an engine is reported: firmware has taken the event that named it (R373). -/
def State.isReported (s : State) (c : Nat) (who : MissWho) : Bool := (s.ctx c).unrep.all fun e => e.1 != who

/-- What a walk that is made again may do where it misses: nothing (RESUME), or declare a reported address invalid
(TLBINV). -/
abbrev Declares := Bool

/-- The engine's record of this stop holds XLATE. -/
def State.xlated (s : State) (c : Nat) (e : EngKind) (key : Nat) : Bool :=
  (s.ctx c).recs.any fun r => r.eng == e && r.key == key && r.cls == some .xlate

/-- A wave's held accesses walk again (R374, R420). -/
def State.rewalkHeld (s : State) (c va n : Nat) (dec : Declares) (k : Key) : State :=
  match (s.wave k).held with
  | [] => s
  | h :: rest =>
    if h.bad.isSome || h.fifo || !inRange va n h.va then s
    else if !s.misses c (coreOf k) h.va then (s.forgetMiss c (.data k)).replay k 17
    else if dec && s.isReported c (.data k) then s.modWave k fun w => { w with held := { h with bad := some .xlate } :: rest }
    else s

/-- The address at which a wave's word waits for a page: of a fetch or word, or of an LDWATCH that is parked. -/
def Wave.frontVa (w : Wave) : Option Nat :=
  match w.park with
  | some (.fetchMiss a) | some (.watchMiss a _ _) => some a
  | _ => none

/-- A word that waited for a page goes on: it issues again, but an LDWATCH resumes its park (R126, R252). -/
def State.frontGo (s : State) (k : Key) : State :=
  match (s.wave k).park with
  | some (.watchMiss _ dl ep) => s.modWave k fun w => { w with park := some (.ldwatch dl ep) }
  | _ => s.reissue k

/-- A word or fetch at which a wave waits walks again; the wave has issued no later word, so that XLATE is precise (R197, R419). -/
def State.rewalkFront (s : State) (c va n : Nat) (dec : Declares) (k : Key) : State :=
  match (s.wave k).frontVa with
  | some a =>
    if s.frontCtx k != some c || !inRange va n a || s.xlated (s.crew (crewOf k)).ctx .wave k then s
    else if !s.misses c (coreOf k) a then (s.forgetMiss c (.front k)).frontGo k
    else if dec && s.isReported c (.front k) then
      s.raiseWave k .xlate (BitVec.ofNat 64 a) (((s.wave k).parkI.bind encodeWave).getD 0)
    else s
  | none => s

/-- The stream word at which a sequencer stands, once it has begun, where it can be fetched. -/
def State.seqWord (s : State) (k : Key) : Dword :=
  let x := s.crew k
  if !x.seq.begun then 0
  else match s.fetchWord (some x.ctx) (coreOfCrew k) x.seq.mpc with
    | .ok _ w => w
    | .miss | .access | .ecc _ | .wait => 0

/-- A sequencer's access walks again; a miss in its pointer block is named by the block's address (R285). -/
def State.rewalkSeq (s : State) (c va n : Nat) (dec : Declares) (k : Key) : State :=
  let q := (s.crew k).seq
  match q.missVa with
  | some a =>
    if q.st != .parked || !inRange va n a || s.xlated c .seq k then s
    else if !s.misses c (coreOfCrew k) a then
      (s.forgetMiss c (.seq k)).modSeq k fun q => { q with st := .run, missVa := none }
    else if dec && s.isReported c (.seq k) then
      s.raiseSeq k .xlate (BitVec.ofNat 64 (if q.begun then a else recArgs (s.crew k).lrec + 0xC0)) (s.seqWord k)
    else s
  | none => s

/-- A copy command's access walks again; that of a stopped engine is issued too, its beat and no further one (R374). -/
def State.rewalkCopy (s : State) (c va n : Nat) (dec : Declares) (core pos : Nat) : State :=
  match (s.core core).copyq[pos]? with
  | none => s
  | some e =>
    if e.st != .missed || (s.crew (crewKey core e.cslot)).ctx != c || !inRange va n e.missVa || s.xlated c .copy core then s
    else if !s.misses c core e.missVa then
      let s1 := (s.forgetMiss c (.copy core e.id)).modCopy core pos fun e => { e with st := .running, stopped := false }
      if e.stopped then (s1.beat core pos e.nextBeat).modCopy core pos fun e => { e with stopped := true } else s1
    else if dec && s.isReported c (.copy core e.id) then s.faultCopy core pos .xlate (BitVec.ofNat 64 e.missVa)
    else s

/-- A queue's ring slot walks again (R354). -/
def State.rewalkQueue (s : State) (c va n : Nat) (e : Nat × Nat) : State :=
  if !inRange va n e.2 then s
  else if !s.misses c dispCore e.2 then
    (s.forgetMiss c (.queue e.1)).modCtx c fun x => { x with qwait := tdel x.qwait e.1 }
  else if s.isReported c (.queue e.1) then s.queueFault e.1
  else s

/-- Waves of every polder whose LAUNCH waits at a ring slot of the context: their keys are those of the wave table. -/
def State.waveKeys (s : State) : List Key := (s.waves.map (·.1)).filter fun k => !isReeveCore (coreOf k)

/-- PARKED_ACCESS_REWALK (R374): every parked access of the context in the range walks again. -/
def State.rewalk (s : State) (c va n : Nat) (dec : Declares) : State :=
  let ks := s.ctxCrews c
  let s1 := ks.foldl (fun s k => (wavesOf k).foldl (fun s w => s.rewalkHeld c va n dec w) (s.rewalkSeq c va n dec k)) s
  let s2 := s1.waveKeys.foldl (fun s w => s.rewalkFront c va n dec w) s1
  ((ks.map coreOfCrew).dedup).foldl
    (fun s core => (List.range (s.core core).copyq.length).foldl (fun s pos => s.rewalkCopy c va n dec core pos) s) s2

/-- Effect of TLBINV (R342, R374). The count is that of sD+1 modulo 2^28; R342 gives none beyond 2^28 - 1 (DESIGN CHOICE, log 89). -/
def tlbinvGo (x : MF) (s : State) (_ : Key) (w : Wave) : Option (State × Nat) :=
  match s.ctxOfHandle (w.handle x) with
  | none => some (s, resultWord 1 0)
  | some c =>
    let n := (w.rs (x.d.toNat + 1)).toNat % 2 ^ 28
    let va := (w.addrS x).toNat
    let s1 := (s.dropTlb c va n).rewalk c va n true
    some ((s.ctx c).qwait.foldl (fun s e => s.rewalkQueue c va n e) s1, 0)

/-- TLBINV (R342). -/
def execTlbinv (x : MF) (s : State) : Host.Outcome State Fault Refusal := .next (privIssue (.tlbinv x) x 0 (tlbinvGo x) s)

-- Cleaning of a cluster (R362).

/-- The status of an island is reset, FORCE apart (R394): it is off. -/
def Island.clean (i : Island) : Island :=
  { i with mode := .off, vset := 0, riseBy := none, cred := 0, wovt := 0, watt := 0, gsteps := 0, ovtot := 0, wn := 0, wo := 0 }

/-- A cluster is cleaned: caches written back and invalidated, operand buffers, accumulators and scale memory zeroed, its TLB
entries removed, its islands' status reset (R362, R394). -/
def State.cleanCluster (s : State) (cl : Nat) : State :=
  let s1 := (s.writeBack cl fun _ => true).setDcache cl []
  let s2 := s1.modPkg fun p =>
    { p with lineBad := p.lineBad.filter fun e => e.1 != cl, iclus := tdel p.iclus cl, icore := (coresOfCluster cl).foldl tdel p.icore,
             l1 := (coresOfCluster cl).foldl tdel p.l1,
             tlb := p.tlb.filter fun x => match x.loc with | .core n => clusterOf n != cl | .cluster n => n != cl }
  (coresOfCluster cl).foldl (fun s n => s.modCore n fun c =>
    { c with ob := [], obOwner := [], obrec := [], obWait := [], tiles := [], scale := [], island := c.island.clean }) s2

/-- A polder comes to run on a cluster: it is cleaned if another ran there (R362). -/
def State.runOn (s : State) (cl p : Nat) : State :=
  if (s.cluster cl).runner = some p then s
  else
    let s1 := if (s.cluster cl).runner.isSome then s.cleanCluster cl else s
    s1.modCluster cl fun x => { x with runner := some p, lendable := none }

-- CTXSAVE.

/-- The crews that a handle names, by CREWID; none where it names a crew that may not be named alone (R342, R343). -/
def State.crewsNamed (s : State) (o : Obj) : Option (List Key) :=
  match o with
  | .ctx c => some ((s.ctxCrews c).insertionSort fun a b =>
      ((s.crew a).crewid.toNat, (s.crew a).launch) = ((s.crew b).crewid.toNat, (s.crew b).launch)
        ∨ (s.crew a).crewid.toNat < (s.crew b).crewid.toNat
        ∨ ((s.crew a).crewid = (s.crew b).crewid ∧ (s.crew a).launch < (s.crew b).launch))
  | .crew _ k =>
    let r := (s.crew k).lrec
    if recClus r ∨ (recCoop r ∧ 1 < recCrews r) then none else some [k]
  | .cluster _ k => some ((s.unitCrews k).insertionSort fun a b => (s.crew a).rank ≤ (s.crew b).rank)
  | .wave _ _ => none

/-- Which crew of which launch an image is of, at an address. -/
def State.refOf (s : State) (k : Key) (addr : Nat) : ImgRef :=
  let x := s.crew k
  { key := k, addr := addr, launch := x.launch, unit := x.unit, rank := x.rank, waves := List.range x.nwave, issued := x.issued,
    carries := s.crewCarries k, scws := s.crewScws k, stream := s.stream k }

/-- The images of settled crews, with where each goes from an address (R343). -/
def State.images (s : State) : (addr : Nat) → List Key → List (ImgRef × List Dword)
  | _, [] => []
  | addr, k :: r =>
    let i := s.crewImage k
    (s.refOf k addr, i) :: s.images (addr + 8 * i.length) r

/-- Words of all images. -/
def imageWords (is : List (ImgRef × List Dword)) : List Dword := is.flatMap (·.2)

/-- The same crew of the same launch. -/
def ImgRef.same (a b : ImgRef) : Bool := a.launch == b.launch && a.unit == b.unit && a.rank == b.rank

/-- Effect of CTXSAVE (R343, R349). -/
def ctxsaveGo (x : MF) (s : State) (k : Key) (w : Wave) : Option (State × Nat) :=
  match s.obj (w.handle x) with
  | none | some (.wave _ _) => some (s, resultWord 1 0)
  | some o =>
    match s.crewsNamed o with
    | none => some (s, resultWord 2 0)
    | some cs =>
      if cs.any s.saveHeld then none
      else
        let s1 := cs.foldl State.addCounts (cs.foldl State.settleCrew s)
        let e := (w.addrS x).toNat
        let is := s1.images e cs
        let ws := imageWords is
        match s.fwRange (coreOf k) .write e (8 * ws.length) with
        | none => some (s, resultWord 3 0)
        | some ps =>
          let s2 := s1.putParts (coreOf k) ps ws
          let s3 := s2.modCtx o.ctxNo fun y =>
            { y with imgs := (y.imgs.filter fun a => !(is.any fun b => a.same b.1)) ++ is.map (·.1) }
          some (cs.foldl State.dropCrew s3, resultWord 0 (ws.length / 8))

/-- CTXSAVE (R343). -/
def execCtxsave (x : MF) (s : State) : Host.Outcome State Fault Refusal :=
  .next (privIssue (.ctxsave x) x 4096 (ctxsaveGo x) s)

-- CTXLOAD.

/-- The image at an address of the firmware space: its words to its length, if all are mapped. -/
def State.fwImage (s : State) (core va : Nat) : Option (Array Dword) :=
  match s.fwRange core .read va 1024 with
  | none => none
  | some ps =>
    let len := (rdI (s.getParts core ps).toArray 0x2B8).toNat
    if len % 8 ≠ 0 ∨ len < 1024 ∨ 2 ^ 32 ≤ len then some (s.getParts core ps).toArray
    else (s.fwRange core .read va len).map fun ps => (s.getParts core ps).toArray

/-- n images one after another. -/
def State.fwImages (s : State) (core : Nat) : (n va : Nat) → Option (List (Nat × Array Dword))
  | 0, _ => some []
  | n + 1, va =>
    match s.fwImage core va with
    | none => none
    | some a => (s.fwImages core n (va + (8 * a.size + 1023) / 1024 * 1024)).map ((va, a) :: ·)

/-- The crew that an image is of: the image that CTXSAVE noted, preferably at its address; else the crew of a launch of the context
with its record that has been dispatched; else one of a launch of its own (log 20). -/
def State.claim (s : State) (c addr : Nat) (a : Array Dword) : CrewId × Option ImgRef :=
  let r := imageRec a
  let n := imageCrew a
  let u := n / recCl r
  let fits (i : ImgRef) : Bool := i.unit * recCl r + i.rank == n && s.launches.any fun l => l.id == i.launch && l.lrec == r
  let refs := (s.ctx c).imgs.filter fits
  match (refs.find? fun i => i.addr == addr).orElse fun _ => refs.head? with
  | some i =>
    let l := s.launches.find? fun l => l.id == i.launch
    ({ launch := i.launch, queue := (l.map (·.queue)).getD 0, idx := (l.map (·.idx)).getD 0, unit := i.unit, rank := i.rank,
       issued := i.issued, scws := i.scws, stream := i.stream }, some i)
  | none =>
    match s.launches.find? fun l => l.ctx == c && l.lrec == r && decide (u < l.next) with
    | some l => ({ launch := l.id, queue := l.queue, idx := l.idx, unit := u, rank := n % recCl r }, none)
    | none => ({ launch := s.launchId, queue := 1024, idx := 0, unit := u, rank := n % recCl r }, none)

/-- The context holds a crew already. -/
def State.holds (s : State) (c : Nat) (i : CrewId) : Bool :=
  (s.ctxCrews c).any fun k => (s.crew k).launch == i.launch && (s.crew k).unit == i.unit && (s.crew k).rank == i.rank

/-- Only crews of the polder are resident on a cluster. -/
def State.clusterClear (s : State) (p cl : Nat) : Bool :=
  (coresOfCluster cl).all fun n => (s.residents n).all fun k => polderOf (s.crew k).ctx == p

/-- A core of the context's polder on which an image fits (R344); a cluster where another polder ran before is cleaned (R362). -/
def State.loadable (s : State) (c : Nat) (a : Array Dword) (core : Nat) : Bool :=
  let cl := clusterOf core
  decide (core < 252) && s.ownsCluster (polderOf c) cl && s.clusterClear (polderOf c) cl && s.imageFits a core

/-- Loads one image on a core, stopped; none where its schedule segment cannot be read: CTXLOAD answers STATUS 4 (DESIGN CHOICE,
log 87). -/
def State.loadOne (s : State) (c core : Nat) (a : Array Dword) (i : CrewId) (ref : Option ImgRef) : Option State :=
  match s.segment c (imageRec a) (imageCrew a), s.freeSlot core with
  | some sched, some n =>
    let s0 := (s.useCore core).runOn (clusterOf core) (polderOf c)
    let s1 := { s0.modCluster (clusterOf core) fun x => { x with lent := false, lendable := none } with
      saved := s0.saved.filter fun e => !(e.launch == i.launch && e.unit == i.unit && e.rank == i.rank) }
    let s2 := s1.modCtx c fun y => { y with imgs := match ref with | some r => y.imgs.filter fun b => !b.same r | none => y.imgs }
    let s3 := if s2.launches.any fun l => l.id == i.launch then s2
      else { s2 with launchId := i.launch + 1,
                     launches := s2.launches ++ [{ id := i.launch, queue := 1024, idx := 0, ctx := c, lrec := imageRec a,
                                                   device := true, next := recUnits (imageRec a) }] }
    some (s3.loadCrew a c i sched core n true)
  | _, _ => none

/-- Loads images on the cores of a list, each on the next one that it fits (R344). -/
def State.loadAll (s : State) (c : Nat) : List (Nat × Array Dword) → List Nat → Option State
  | [], _ => some s
  | (addr, a) :: r, cores =>
    match cores.find? (s.loadable c a) with
    | some core =>
      match s.loadOne c core a (s.claim c addr a).1 (s.claim c addr a).2 with
      | some s1 => s1.loadAll c r (cores.filter fun n => decide (core < n))
      | none => none
    | none => none

/-- Effect of CTXLOAD (R344). -/
def ctxloadGo (x : MF) (s : State) (k : Key) (w : Wave) : Option (State × Nat) :=
  let h := w.handle x
  let c := hCtx h
  let e := (w.addrS x).toNat
  if !handleForm h || !s.ctxValid c || (hKind h != 1 && hKind h != 3) then some (s, resultWord 1 0)
  else
    match s.fwImage (coreOf k) e with
    | none => some (s, resultWord 3 0)
    | some a0 =>
      if !imageOk a0 then some (s, resultWord 4 0)
      else
        match s.fwImages (coreOf k) (if hKind h = 1 then 1 else recCl (imageRec a0)) e with
        | none => some (s, resultWord 3 0)
        | some is =>
          if is.any fun i => s.holds c (s.claim c i.1 i.2).1 then some (s, resultWord 2 0)
          else if is.any fun i => !imageOk i.2 then some (s, resultWord 4 0)
          else
            let cores := if hKind h = 1 then [hCore h] else coresOfCluster (clusterOf (hCore h))
            match s.loadAll c is cores with
            | some s1 => some (s1, 0)
            | none => some (s, resultWord 4 0)

/-- CTXLOAD (R344). -/
def execCtxload (x : MF) (s : State) : Host.Outcome State Fault Refusal :=
  .next (privIssue (.ctxload x) x 1024 (ctxloadGo x) s)

-- STOPRD.

/-- Code of ENG (R378). -/
def engCode : EngKind → Nat
  | .wave => 0 | .seq => 1 | .copy => 2 | .fabric => 3 | .mem => 4

/-- The words of a stop record (R378). -/
def StopRec.words (r : StopRec) : List Dword :=
  let b (p : Bool) (n : Nat) : Nat := if p then 2 ^ n else 0
  [ BitVec.ofNat 64 (2 ^ 63 + recCode r * 2 ^ 58 + engCode r.eng * 2 ^ 55 + b r.prec 54 + b r.atc 53 + b r.hdr 52
      + r.wpos % 16 * 2 ^ 48 + r.handle.toNat),
    BitVec.ofNat 64 r.pc, r.det, r.word, BitVec.ofNat 64 r.reft, BitVec.ofNat 64 (r.mask.toNat + r.beats % 2 ^ 32 * 2 ^ 32), 0, 0 ]

/-- Effect of STOPRD (R342, R377). -/
def stoprdGo (x : MF) (s : State) (k : Key) (w : Wave) : Option (State × Nat) :=
  match s.ctxOfHandle (w.handle x) with
  | none => some (s, resultWord 1 0)
  | some c =>
    if !(s.ctx c).up then some (s, resultWord 2 0)
    else
      let s1 := s.stopAll c
      let rs := (s1.ctx c).recs.insertionSort fun a b => a.place ≤ b.place
      let ws := rs.flatMap StopRec.words
      match s.fwRange (coreOf k) .write (w.addrS x).toNat (8 * ws.length) with
      | none => some (s, resultWord 3 0)
      | some ps => some (s1.putParts (coreOf k) ps ws, resultWord 0 rs.length)

/-- STOPRD (R342). -/
def execStoprd (x : MF) (s : State) : Host.Outcome State Fault Refusal := .next (privIssue (.stoprd x) x 64 (stoprdGo x) s)

-- RESUME.

/-- A wave continues from its stop (R345, R379, R420), its Waited counting from then (R25): accesses found bad are issued again, a word that waited for an invalid
address is tried again, and an ACQX joins its queue again (R206). -/
def State.resumeWave (s : State) (k : Key) : State :=
  let st := (s.wave k).stopAs
  let cls := st.map (·.1)
  let s1 := (s.returnWave k cls ((st.map (·.2)).getD 0)).woken k
  let s2 := match (s1.wave k).held with
    | h :: rest =>
      if h.bad.isSome then (s1.modWave k fun w => { w with held := { h with bad := none } :: rest }).replay k 17 else s1
    | [] => s1
  match (s2.wave k).park with
  | some (.fetchMiss _) | some (.watchMiss _ _ _) => if cls == some .xlate then s2.frontGo k else s2
  | some (.acqx _) => if (s.wave k).stopped then s2.reissue k else s2
  | _ => s2

/-- A sequencer is stopped no longer: its island is held as its products ask, and they go on (R148, R160). -/
def State.seqGoes (s : State) (k : Key) : State :=
  if (s.crew k).seq.st == .off then s else (s.islandSettle (coreOfCrew k)).engineGo (coreOfCrew k)

/-- A sequencer continues (R345). -/
def State.resumeSeq (s : State) (c : Nat) (k : Key) : State :=
  let x := s.xlated c .seq k
  (s.modSeq k fun q =>
    { q with stopped := false, st := if x && q.st == .parked then .run else q.st, missVa := if x then none else q.missVa }).seqGoes k

/-- A core's copy engine continues for a context (R270, R345). -/
def State.resumeCopy (s : State) (c core : Nat) : State :=
  let x := s.xlated c .copy core
  s.modCore core fun y =>
    { y with copyq := y.copyq.map fun e =>
        if (s.crew (crewKey core e.cslot)).ctx == c && (s.crew (crewKey core e.cslot)).st == .running then
          { e with stopped := false, st := if x && e.st == .missed then .running else e.st }
        else e }

/-- The running crews of a context continue from their stop records. -/
def State.resumeCrews (s : State) (c : Nat) (ks : List Key) : State :=
  let s1 := ks.foldl (fun s k => (wavesOf k).foldl (fun s w => s.resumeWave w) (s.resumeSeq c k)) s
  ((ks.map coreOfCrew).dedup).foldl (fun s n => s.resumeCopy c n) s1

/-- A crew of the same COOP or cluster launch is not resident (R345): one whose image is known, or one of a launch that this device did
not accept, whose crews are counted; how many of those completed elsewhere no image tells (a free value, log 83). -/
def State.crewMissing (s : State) (c : Nat) (k : Key) : Bool :=
  let x := s.crew k
  let with' (launch unit : Nat) : Bool := launch == x.launch && (recCoop x.lrec || unit == x.unit)
  let here := ((s.ctxCrews c).filter fun j => with' (s.crew j).launch (s.crew j).unit).length
  let whole := if recCoop x.lrec then recCrews x.lrec else recCl x.lrec
  let done := match s.launches.find? fun l => l.id == x.launch with
    | some l => if recCoop x.lrec then l.doneCrews else tget l.doneOf 0 x.unit
    | none => 0
  (1 < recCl x.lrec || recCoop x.lrec) &&
    ((s.ctx c).imgs.any (fun i => with' i.launch i.unit) || (s.saved.any fun i => with' i.launch i.unit)
      || (x.queue == 1024 && decide (here + done + Config.endedElsewhere (recArgs x.lrec) x.unit < whole)))

/-- Loaded crews start (R344, R345). -/
def State.startCrews (s : State) (ks : List Key) : State :=
  ks.foldl (fun s k => s.modCrew k fun x => { x with st := .running, since := s.reft }) s

/-- RESUME of a context: the floodgate lowers (R345). -/
def State.resumeCtx (s : State) (c : Nat) : State × Nat :=
  let s0 := s.stopAll c
  let ks := s0.ctxCrews c
  let loaded := ks.filter fun k => (s.crew k).st == .loaded
  if !(s.ctx c).up || (s0.ctx c).recs.any (·.atc) || loaded.any (s.crewMissing c) then (s, resultWord 2 0)
  else
    let s1 := ((s0.startCrews loaded).resumeCrews c ks).modCtx c fun x => { x with up := false, byFlood := false, recs := [], discarded := false }
    (s1.rewalk c 0 0 false, 0)

/-- RESUME of loaded crews (R345); under a raised floodgate they continue when it lowers. -/
def State.resumeLoaded (s : State) (c : Nat) (ks : List Key) : State × Nat :=
  let loaded := ks.filter fun k => (s.crew k).st == .loaded
  if loaded = [] || (s.ctx c).recs.any (·.atc) || loaded.any (s.crewMissing c) then (s, resultWord 2 0)
  else
    let s1 := s.startCrews loaded
    if (s.ctx c).up then (s1, 0) else ((s1.resumeCrews c loaded).rewalk c 0 0 false, 0)

/-- Effect of RESUME (R345). -/
def resumeGo (x : MF) (s : State) (_ : Key) (w : Wave) : Option (State × Nat) :=
  match s.obj (w.handle x) with
  | some (.ctx c) => some (s.resumeCtx c)
  | some (.crew c k) => some (s.resumeLoaded c [k])
  | some (.cluster c k) => some (s.resumeLoaded c (s.unitCrews k))
  | some (.wave _ _) | none => some (s, resultWord 1 0)

/-- RESUME (R345). -/
def execResume (x : MF) (s : State) : Host.Outcome State Fault Refusal := .next (privIssue (.resume x) x 0 (resumeGo x) s)

-- FLOOD.

/-- The floodgate rises by FLOOD: every engine stops and writes its record (R342, R349); where a fault has raised it already, those
that have not stopped yet carry FLOOD. -/
def State.flood (s : State) (c : Nat) : State :=
  let s1 := ((s.modCtx c fun x => { x with up := true, byFlood := true }).stopAll c).modCtx c fun x =>
    { x with byFlood := !(s.ctx c).up || (s.ctx c).byFlood }
  if (s.ctx c).up then s1
  else s1.event (s.homeDie c) 0x01 (ctxHandle c) (BitVec.ofNat 64 (eventClass (s1.ctx c).recs))

/-- Effect of FLOOD (R342). -/
def floodGo (x : MF) (s : State) (_ : Key) (w : Wave) : Option (State × Nat) :=
  match s.ctxOfHandle (w.handle x) with
  | none => some (s, resultWord 1 0)
  | some c => some (s.flood c, 0)

/-- FLOOD (R342). -/
def execFlood (x : MF) (s : State) : Host.Outcome State Fault Refusal := .next (privIssue (.flood x) x 0 (floodGo x) s)

-- DIRTYH.

/-- The page that holds an address: the addresses of its entries, its physical base, its first byte and its bytes
(R370, R371). -/
def State.pageAt (s : State) (c va : Nat) : Option (List Nat × Nat × Nat × Nat) :=
  match s.walkTo none c va 4 (s.ctxRoot c) with
  | .miss | .ecc _ | .busy => none
  | .leaf at' e lvl _ =>
    let frame := bits e 51 12
    if lvl = 0 ∧ e.getLsbD 9 then
      some ((List.range 16).map fun i => at' / 128 * 128 + 8 * i, frame / 16 * 0x10000, va / 0x10000 * 0x10000, 0x10000)
    else
      match lvl with
      | 0 => some ([at'], frame * 4096, va / 4096 * 4096, 4096)
      | 1 => some ([at'], frame * 4096, va / 0x200000 * 0x200000, 0x200000)
      | 2 => some ([at'], frame * 4096, va / 0x40000000 * 0x40000000, 0x40000000)
      | _ => none

/-- The granule at an address is dirty (R346). -/
def State.dirtyAt (s : State) (c va : Nat) : Bool :=
  match s.pageAt c va with
  | some (es, _) => es.any fun a => (s.home64 a).getLsbD 6
  | none => false

/-- Clears the dirty bits of the page at an address: its dirty lines are written back first, its TLB entries removed
(R346, R390). -/
def State.clearDirty (s : State) (c va : Nat) : State :=
  match s.pageAt c va with
  | none => s
  | some (es, pa, va0, n) =>
    if !(es.any fun a => (s.home64 a).getLsbD 6) then s
    else
      let s1 := (List.range 32).foldl (fun s cl => s.writeBack cl fun a => decide (pa ≤ a) && decide (a < pa + n)) s
      let s2 := es.foldl (fun s a => s.poke64 a (putBits (s.home64 a) 6 6 0)) s1
      s2.dropTlb c va0 (n / 4096)

/-- Words of a bitmap (R346). -/
def bitmapWords : (n : Nat) → List Bool → List Dword
  | 0, _ => []
  | n + 1, bs =>
    BitVec.ofNat 64 ((bs.take 64).foldr (fun b x => 2 * x + (if b then 1 else 0)) 0) :: bitmapWords n (bs.drop 64)

/-- A physical address lies in host or peer memory. -/
def isExternal (pa : Nat) : Bool := regionOf pa == .host || regionOf pa == .peer

/-- An address of the context's space is homed in host or peer memory. -/
def State.externalVa (s : State) (c va : Nat) : Bool :=
  match s.translate (some c) dispCore va .read with | .ok _ pa _ => isExternal pa | .miss | .access | .ecc _ | .busy => false

/-- A wave waits at a line homed in host or peer memory (R346). -/
def State.waitsOutside (s : State) (c : Nat) (k : Key) : Bool :=
  let w := s.wave k
  match w.park, w.parkI with
  | some (.ldwatch _ _), some (.ldwatch _ x) | some (.watchMiss _ _ _), some (.ldwatch _ x) => (ldwatchLanes x w).any fun a => a.live && s.externalVa c a.e.toNat
  | _, _ => s.pkg.peerOps.any fun o => o.eng == .wave && o.key == k

/-- Some part of a queue's ring is homed in host or peer memory (R346, R353). -/
def State.ringOutside (s : State) (c q : Nat) : Bool :=
  (List.range ((128 * 2 ^ s.qLog q + 4095) / 4096 + 1)).any fun i =>
    let n := min (32 * i) (2 ^ s.qLog q - 1)
    s.externalVa c (s.qSlot q n)

/-- BLOCKED-EXTERNAL (R346). -/
def State.blocked (s : State) (c : Nat) : Bool :=
  ((s.ctxCrews c).any fun k => (wavesOf k).any (s.waitsOutside c))
    || (List.range 1024).any fun q => (s.queueWord q 0).getLsbD 63 && s.qCtx q == c && s.ringOutside c q

/-- Granules that DIRTYH covers: at most 2^26 (log 21). -/
def dirtyCount (w : Wave) (x : MF) : Nat := min (w.rs (x.d.toNat + 1)).toNat (2 ^ 26)

/-- Effect of DIRTYH (R346, R390). -/
def dirtyhGo (final : Bool) (x : MF) (s : State) (k : Key) (w : Wave) : Option (State × Nat) :=
  match s.ctxOfHandle (w.handle x) with
  | none => some (s, resultWord 1 0)
  | some c =>
    let n := dirtyCount w x
    let va := w.rsn (x.d.toNat + 2) 2 / 4096 * 4096
    if final && !(s.ctx c).up then some (s, resultWord 2 0)
    else
      match s.fwRange (coreOf k) .write (w.addrS x).toNat (8 * ((n + 63) / 64)) with
      | none => some (s, resultWord 3 0)
      | some ps =>
        if final && s.blocked c then some (s, resultWord 6 0)
        else
          let gs := (List.range n).map fun g => va + 4096 * g
          let bs := gs.map (s.dirtyAt c)
          let s1 := gs.foldl (fun s a => s.clearDirty c a) s
          some (s1.putParts (coreOf k) ps (bitmapWords ((n + 63) / 64) bs), resultWord 0 (bs.filter (·)).length)

/-- DIRTYH (R346). -/
def execDirtyh (final : Bool) (x : MF) (s : State) : Host.Outcome State Fault Refusal :=
  .next (privIssue (.dirtyh final x) x 8 (dirtyhGo final x) s)

-- CKPT.

/-- The crews of a settled context go on after a checkpoint (R347). -/
def State.restartSeqs (s : State) (ks : List Key) : State :=
  ks.foldl (fun s k => if (s.crew k).st == .running then (s.modSeq k fun q => { q with stopped := false }).seqGoes k else s) s

/-- n bytes from a physical address lie in HBM or in boezem (R407). -/
def inDevice (pa n : Nat) : Bool :=
  let r := regionOf pa
  (r == .hbm || r == .boezem) && regionOf (pa + (n - 1)) == r

/-- The actions of CKPT on a context whose floodgate is down (R347, R386): the state and the STATUS; none while a crew cannot be
written yet. A write that fails, to an area that is not the device's memory, leaves the previous checkpoint. -/
def State.checkpoint (s : State) (c : Nat) : Option (State × Nat) :=
  let dir := s.ckArea c
  let (_, undoLen) := s.undoLog c
  match s.crewsNamed (.ctx c) with
  | none => some (s, 4)
  | some ks =>
    if ks.any s.saveHeld then none
    else
      let s1 := ks.foldl State.settleCrew s
      let d3 := s.home64 (dir + 24)
      let new := if d3.getLsbD 0 then 0 else 1
      let base := bits (s.home64 (dir + 8 * new)) 51 0
      let is := s1.images base ks
      let ws := imageWords is
      if dir = 0 || undoLen = 0 || !inDevice base (8 * ws.length) || decide (bits (s.home64 (dir + 16)) 31 0 * 4096 < 8 * ws.length) then some (s, 4)
      else if (s1.ctx c).up then some (s1, 2)
      else
        let s2 := ((ks.map fun k => clusterOf (coreOfCrew k)).dedup).foldl (fun s cl => s.writeBack cl fun _ => true) s1
        let s3 := s2.pokeBytes base (ws.flatMap fun w => bytesOf w.toNat 8)
        let s4 := s3.poke64 (dir + 24) (BitVec.ofNat 64 ((bits d3 63 32 + 1) % 2 ^ 32 * 2 ^ 32 + 2 + new))
        let s5 := (s4.setExtw c false).modCtx c fun x =>
          { x with undoFill := 0, logged := [], logging := true, ckTime := s.reft, stsSince := false, ckImgs := is.map (·.1),
                   ckLaunches := s.launches.filter (fun l => l.ctx == c), ckSaved := s.saved.filter fun e => e.ctx == c }
        some (s5.restartSeqs ks, 0)

/-- Effect of CKPT (R347, R349, R386). -/
def ckptGo (x : MF) (s : State) (_ : Key) (w : Wave) : Option (State × Nat) :=
  match s.ctxOfHandle (w.handle x) with
  | none => some (s, resultWord 1 0)
  | some c =>
    if (s.ctx c).up then some (s, resultWord 2 0)
    else (s.checkpoint c).map fun p => (p.1, resultWord p.2 0)

/-- CKPT (R347). -/
def execCkpt (x : MF) (s : State) : Host.Outcome State Fault Refusal := .next (privIssue (.ckpt x) x 0 (ckptGo x) s)

-- ROLLBK.

/-- Applies entry i of the undo log, and those before it (R348, R387): the newest first; what is read and written moves to and from
memory (R364). -/
def State.undo (s : State) (base : Nat) : (n : Nat) → State
  | 0 => s
  | n + 1 =>
    let o := base + 136 * n
    let line := bits (s.home64 o) 51 7
    ((((s.charge none o 136).heal [line]).pokeBytes (line * 128) (s.homeBytes (o + 8) 128)).charge none (line * 128) 128).undo base n

/-- The caches hold nothing that the context wrote, and no copy of a line that is undone. -/
def State.dropWrites (s : State) (c : Nat) (lines : List Nat) : State :=
  s.modPkg fun p =>
    { p with dcache := p.dcache.map fun t =>
        (t.1, t.2.filter fun e => if e.2.dirty then e.2.writer != c else !lines.contains (e.1 / 128)) }

/-- The launches of a context as its checkpoint holds them; those accepted since start again (log 20). -/
def rolledLaunches (c : Nat) (old now : List Launch) : List Launch :=
  now.filter (fun l => l.ctx != c) ++ old
    ++ (now.filter fun l => l.ctx == c && !(old.any fun o => o.id == l.id)).map fun l =>
        { l with next := 0, doneCrews := 0, doneOf := [], issuedSum := 0 }

/-- A complete checkpoint exists (R386). -/
def State.hasCheckpoint (s : State) (c : Nat) : Bool := decide (s.ckArea c ≠ 0) && (s.home64 (s.ckArea c + 24)).getLsbD 1

/-- Words of the image of a crew of the checkpoint. -/
def State.ckImage (s : State) (r : ImgRef) : List Dword :=
  let a := (s.homeWords r.addr 128).toArray
  s.homeWords r.addr ((rdI a 0x2B8).toNat / 8)

/-- A crew of the checkpoint is restored, stopped, where it was or on the first core of its polder that it fits; where none
does, it waits with the dispatcher (log 20). -/
def State.rollCrew (s : State) (c : Nat) (r : ImgRef) : State :=
  let a := (s.ckImage r).toArray
  let l := s.launches.find? fun l => l.id == r.launch
  let id : CrewId := { launch := r.launch, queue := (l.map (·.queue)).getD 0, idx := (l.map (·.idx)).getD 0, unit := r.unit, rank := r.rank, issued := r.issued, scws := r.scws, stream := r.stream }
  let home := coreOfCrew r.key
  let cores := home :: (s.ownClusters (polderOf c)).flatMap coresOfCluster
  match cores.find? (s.loadable c a) with
  | some core => (s.loadOne c core a id none).getD s
  | none =>
    { s with saved := s.saved ++
        [{ launch := r.launch, unit := r.unit, rank := r.rank, image := some a.toList, ctx := c, key := r.key,
           issued := r.issued, carries := r.carries, scws := r.scws, stream := r.stream }] }

/-- Memory and launches return to the checkpoint; no crew of the context is resident, and what its crews
have counted stays counted (R348, R368, R387). -/
def State.rollBase (s : State) (c : Nat) : State :=
  let x := s.ctx c
  let (base, _) := s.undoLog c
  let n := x.undoFill / 136
  let lines := (List.range n).map fun i => bits (s.home64 (base + 136 * i)) 51 7
  let s1 := (s.dropWrites c lines).undo base n
  let s2 := (s1.ctxCrews c).foldl State.dropCrew s1
  let s3 := { s2 with saved := s2.saved.filter (fun (e : SavedCrew) => e.ctx != c) ++ x.ckSaved,
                      launches := rolledLaunches c x.ckLaunches s2.launches }
  (s3.modCtx c fun y => { y with recs := [], discarded := y.up, byFlood := false, imgs := [] }).relCount (polderOf c) 9 1

/-- The actions of ROLLBK (R348, R387, R389): the crews of the checkpoint are restored, stopped. -/
def State.rollback (s : State) (c : Nat) : State :=
  (s.ctx c).ckImgs.foldl (fun (s : State) r => s.rollCrew c r) (s.rollBase c)

/-- Pre-emption by rollback (R359): the crews of the checkpoint wait with the dispatcher. -/
def State.rollAway (s : State) (c : Nat) (waitFor : Option (Nat × Nat)) : State :=
  let s1 := s.rollBase c
  { s1 with saved := s1.saved ++ (s.ctx c).ckImgs.map fun r =>
      { launch := r.launch, unit := r.unit, rank := r.rank, image := some (s1.ckImage r), ctx := c, key := r.key, waitFor := waitFor,
        issued := r.issued, carries := r.carries, scws := r.scws, stream := r.stream } }

/-- Effect of ROLLBK (R348). -/
def rollbkGo (x : MF) (s : State) (_ : Key) (w : Wave) : Option (State × Nat) :=
  match s.ctxOfHandle (w.handle x) with
  | none => some (s, resultWord 1 0)
  | some c =>
    if !(s.ctx c).up then some (s, resultWord 2 0)
    else if s.ctxExtw c || !s.hasCheckpoint c then some (s, resultWord 5 0)
    else some ((s.stopAll c).rollback c, 0)

/-- ROLLBK (R348). -/
def execRollbk (x : MF) (s : State) : Host.Outcome State Fault Refusal := .next (privIssue (.rollbk x) x 0 (rollbkGo x) s)

end Sys2Proof.Machine
end

