-- ==== Sys2Proof/Machine/Tenancy.lean ====
section
/-! DEFINITION. The dispatcher and the pre-emption unit: placing crews (R17, R19, R21, R22, R24, R356), their completion (R18),
slices (R357), dormant crews (R30), the methods of pre-emption (R359 to R361), lending and recall (R362, R363). -/

namespace Sys2Proof.Machine

-- What the dispatcher reads.

/-- Answer of the dispatcher's translation of a range. -/
inductive DispRes
  | ok (s : State)
  | miss (va : Nat)
  | access (va : Nat)
  | ecc (line : Nat)

/-- Translates every page of a range and reads it, as the dispatcher does (R364); a walk that waits for a die that relocks is made later,
when nothing is dispatched (R318). -/
def State.dispTouch (s : State) (c : Nat) : (pages va n : Nat) → DispRes
  | 0, _, _ => .ok s
  | p + 1, va, n =>
    if n = 0 then .ok s
    else if 2 ^ 57 ≤ va then .access va
    else
      match s.translate (some c) dispCore va .read with
      | .ok s1 pa _ =>
        let len := min n (4096 - va % 4096)
        match (linesOf pa len).find? s1.homeBad with
        | some l => .ecc l
        | none => (s1.chargeHome (some c) pa len).dispTouch c p (va + len) (n - len)
      | .miss => .miss va
      | .access => .access va
      | .ecc l => .ecc l
      | .busy => .ok s

/-- Translates each range of a list, address and bytes. -/
def State.dispRanges (s : State) (c : Nat) : List (Nat × Nat) → DispRes
  | [] => .ok s
  | (va, n) :: r => match s.dispTouch c (n / 4096 + 2) va n with | .ok s1 => s1.dispRanges c r | e => e

/-- The state after the dispatcher has read ranges, where it can. -/
def State.dispDone (s : State) (c : Nat) (rs : List (Nat × Nat)) : State :=
  match s.dispRanges c rs with
  | .ok s1 => s1
  | .miss _ | .access _ | .ecc _ => s

-- A wave and a crew at dispatch.

/-- Lane states of a wave launched with n live lanes (R11). -/
def launchLanes (n : Nat) : Vector LaneState 32 :=
  Vector.ofFn fun l : Fin 32 => if l.val < n then .live else if l.val / 4 = (n - 1) / 4 then .helper else .never

/-- Live lanes of the wave with WAVEID i (R11). -/
def recLanes (r : List Dword) (i : Nat) : Nat :=
  let role := recRole r i
  if i + 1 = (if role = 0 then recWaves r 0 else recNwave r) then recLast r role else 32

/-- The wave with WAVEID i of a crew as it starts (R11, R17, R21, R71). -/
def launchWave (r : List Dword) (i : Nat) (args : List Word) (epoch : Nat → Word) (cyc reft : Nat) : Wave :=
  let role := recRole r i
  { here := true, breg := recBreg r role,
    v := if recLid r then [(0, Vector.ofFn fun l : Fin 32 => BitVec.ofNat 32 l.val)] else [], vlive := if recLid r then 1 else 0,
    banks := if recLid r then [(0, { st := .full })] else [],
    sreg := args.zipIdx.map fun p => (p.2, p.1), slive := BitVec.ofNat 64 (2 ^ recArgw r - 1),
    acked := (List.range 10).map fun n => (6 + n, epoch (6 + n)), srseed := srseedReset i, lst := launchLanes (recLanes r i),
    lpc := Vector.replicate 32 (BitVec.ofNat 64 (recAddr r (1 + role))), waited := cyc, parkSince := reft }

/-- The crew of a launch record as it starts (R15, R17, R21, R24). -/
def launchCrew (l : Launch) (unit rank half : Nat) (sched : List Word) (reft : Nat) : Crew :=
  let r := l.lrec
  { st := .running, ctx := l.ctx, lrec := r, queue := l.queue, recIdx := l.idx, launch := l.id, unit := unit, rank := rank,
    crewid := BitVec.ofNat 32 (unit * recCl r + rank), nwave := recNwave r, spbN := recSpb r, xblk := recXblk r,
    regionMode := BitVec.ofNat 2 (recRegion r), sched := sched,
    seq := if recMstr r then { st := .run, half := half, mpc := recMentry r } else {}, since := reft, idem := recIdem r }

/-- Argument words of a launch. -/
def State.argWords (s : State) (l : Launch) : List Word := (s.schedWords l.ctx (recArgw l.lrec) (recArgs l.lrec)).getD []

/-- Places a crew of a launch record in a crew slot of a core, every wave beginning with an acquire at sc4 (R17, R19, R21). Its
sequencer reads its pointer block (R285), and it is held as its die and its island ask (R148, R320). -/
def State.startCrew (s : State) (l : Launch) (unit rank core cslot : Nat) : State :=
  let c := crewKey core cslot
  let r := l.lrec
  let half := (s.core core).freeHalf
  let sched := (s.segment l.ctx r (unit * recCl r + rank)).getD []
  let s1 := (s.acquire (clusterOf core) scope4).setCrew c (launchCrew l unit rank half sched s.reft)
  let s2 := if recMstr r then s1.modCore core fun y => { y with seqs := tset y.seqs half (cslot + 1) } else s1
  let epoch (n : Nat) : Word := (s2.scopeEnt l.ctx n).epoch
  let args := s.argWords l
  let s3 := (List.range (recNwave r)).foldl
    (fun s i => s.setWave (waveKey c i) (launchWave r i args epoch (s.quad (waveKey c i)).cyc s.reft)) s2
  (((if recMstr r then s3.seqBegin c else s3).slowNew c).islandSettle core)

-- Dispatchable crews.

/-- A crew that waits to be placed: its unit, its rank, and its image, or none where it starts from its record. -/
structure JobCrew where
  unit : Nat
  rank : Nat
  image : Option (List Dword) := none
  issued : Nat := 0
  scws : List (Nat × Nat × Nat) := []
  stream : Option Stream := none
  deriving DecidableEq, Repr

/-- Crews that are placed together: a crew, a cluster launch, or every crew of an accepted COOP launch (R28, R29). -/
structure Job where
  launch : Launch
  units : List (List JobCrew)
  saved : Bool
  deriving DecidableEq, Repr

/-- The next unit of a launch, or all of a COOP launch. -/
def Launch.job (l : Launch) : Job :=
  let unit (u : Nat) : List JobCrew := (List.range (recCl l.lrec)).map fun r => { unit := u, rank := r }
  { launch := l, saved := false,
    units := if recCoop l.lrec then (List.range (recUnits l.lrec - l.next)).map fun i => unit (l.next + i) else [unit l.next] }

/-- Two crews set aside are placed together (R29). -/
def SavedCrew.with' (r : List Dword) (a b : SavedCrew) : Bool :=
  a.launch == b.launch && (recCoop r || (a.unit == b.unit && (decide (1 < recCl r) || a.rank == b.rank)))

/-- The crew for which another made room has been placed, or can be placed there no longer (R356). -/
def State.released (s : State) (e : SavedCrew) : Bool :=
  match e.waitFor with
  | none => true
  | some (id, unit) =>
    match s.launches.find? fun l => l.id == id with
    | none => true
    | some l =>
      !(decide (l.next ≤ unit) || s.saved.any fun x => x.launch == id && x.unit == unit)
        || !(s.room (coreOfCrew e.key)).fits l.lrec

/-- The group of a crew set aside, if it may be placed: whole, and none of it elsewhere. -/
def State.savedJob (s : State) (e : SavedCrew) : Option Job :=
  match s.launches.find? fun l => l.id == e.launch with
  | none => none
  | some l =>
    let mates := s.saved.filter (SavedCrew.with' l.lrec e)
    let units := (mates.map (·.unit)).dedup
    let away := (s.ctx e.ctx).imgs.any fun i => mates.any fun m => i.launch == m.launch && (recCoop l.lrec || (decide (1 < recCl l.lrec) && i.unit == m.unit))
    if away || mates.any (fun m => !s.released m) || mates.head? != some e then none
    else
      some { launch := l, saved := true,
             units := units.map fun u => (mates.filter fun m => m.unit == u).map fun m =>
               { unit := m.unit, rank := m.rank, image := m.image, issued := m.issued, scws := m.scws, stream := m.stream } }

/-- Ranges that the dispatcher reads to place a job: schedule segments, and the arguments of crews that start (R17, R24). -/
def Job.ranges (j : Job) : List (Nat × Nat) :=
  let r := j.launch.lrec
  let crews := j.units.flatten
  (if crews.any fun c => c.image.isNone then [(recArgs r, 4 * recArgw r)] else [])
    ++ crews.map fun c => (recSched r + 4 * recScnt r * (c.unit * recCl r + c.rank), 4 * recScnt r)

/-- The dispatchable crews of a context, by queue: those set aside, then the next of each queue's current launch (R356). A
queue that waits for a page or stands with FLT is not served (R354). -/
def State.jobs (s : State) (c : Nat) : List Job :=
  let serves (j : Job) : Bool :=
    let q := j.launch.queue
    if q < 1024 then (tfind (s.ctx c).qwait q).isNone && !s.qFlt q
    else match s.dispRanges c j.ranges with | .ok _ => true | .miss _ | .access _ | .ecc _ => false
  let old := (s.saved.filter fun e => e.ctx == c).filterMap s.savedJob
  let new := (s.launches.filter fun l =>
    l.ctx == c && decide (l.next < recUnits l.lrec) && (s.current l.queue).map (·.id) == some l.id).map Launch.job
  if !s.ctxValid c || (s.ctx c).up then [] else (old ++ new).filter serves

-- Where they fit.

/-- A context's crews may be placed on a cluster: its polder's own, or one of the lend pool (R352, R362, R363). -/
def State.usable (s : State) (c : Nat) (coop : Bool) (cl : Nat) : Bool :=
  let p := polderOf c
  let x := s.cluster cl
  x.recallBy.isNone && s.clusterClear p cl && (s.ownsCluster p cl || (!coop && s.mayBorrow c && x.lent))

/-- Cores of a cluster that take new crews, those the context occupies first; a core on which a crew drains takes none (R359). -/
def State.openCores (s : State) (c cl : Nat) : List Nat :=
  let ns := (coresOfCluster cl).filter fun n => (s.residents n).all fun k => (s.crew k).drainBy.isNone
  let mine (n : Nat) : Bool := s.crewsOn c n ≠ []
  ns.filter mine ++ ns.filter fun n => !mine n

/-- Clusters on which a job of a context may be placed at an opportunity on a die; a COOP launch may span the dies (R28). -/
def State.jobClusters (s : State) (c d : Nat) (coop : Bool) : List Nat :=
  let here := (List.range 8).map fun i => 8 * d + i
  let all := if coop then here ++ (List.range 32).filter fun cl => cl / 8 != d else here
  all.filter (s.usable c coop)

/-- A crew fits a core (R22, R344). -/
def State.crewFits (s : State) (l : Launch) (j : JobCrew) (core : Nat) : Bool :=
  match j.image with
  | none => (s.room core).fits l.lrec && (s.freeSlot core).isSome
  | some a => s.imageFits a.toArray core

/-- Places one crew. -/
def State.placeOne (s : State) (l : Launch) (j : JobCrew) (core : Nat) : State :=
  let cl := clusterOf core
  let p := polderOf l.ctx
  let s1 := (s.useCore core).runOn cl p
  let s2 := if s.ownsCluster p cl then s1.modCluster cl fun x => { x with lent := false, lendable := none } else s1
  match s2.freeSlot core with
  | none => s
  | some n =>
    match j.image with
    | none => s2.startCrew l j.unit j.rank core n
    | some a =>
      let id : CrewId := { launch := l.id, queue := l.queue, idx := l.idx, unit := j.unit, rank := j.rank, issued := j.issued, scws := j.scws,
                           stream := j.stream }
      (s2.loadCrew a.toArray l.ctx id ((s2.segment l.ctx l.lrec (j.unit * recCl l.lrec + j.rank)).getD []) core n false)

/-- Places the crews of a unit on distinct cores of a list. -/
def State.placeUnit (s : State) (l : Launch) (cores : List Nat) : List JobCrew → Option State
  | [] => some s
  | j :: r =>
    match cores.find? (s.crewFits l j) with
    | none => none
    | some n => (s.placeOne l j n).placeUnit l (cores.filter (· ≠ n)) r

/-- Places units, each on the first group of cores that holds it. -/
def State.placeUnits (s : State) (l : Launch) (groups : List (List Nat)) : List (List JobCrew) → Option State
  | [] => some s
  | u :: r =>
    match groups.findSome? fun g => s.placeUnit l g u with
    | none => none
    | some s1 => s1.placeUnits l groups r

/-- Cores that a context occupies. -/
def State.occupied (s : State) (c : Nat) : Nat := ((s.ctxCrews c).map coreOfCrew).dedup.length

/-- Places a job at an opportunity on a die, if it fits on the clusters that satisfy p. -/
def State.placeIn (s : State) (p : Nat → Bool) (c d : Nat) (j : Job) : Option State :=
  let r := j.launch.lrec
  let cls := (s.jobClusters c d (recCoop r)).filter p
  let groups := cls.map (s.openCores c)
  let one := groups.flatten
  let mine (n : Nat) : Bool := s.crewsOn c n ≠ []
  s.placeUnits j.launch (if recClus r then groups else [one.filter mine ++ one.filter fun n => !mine n]) j.units

/-- Places a job at an opportunity on a die, if it fits. -/
def State.placeJob (s : State) (c d : Nat) (j : Job) : Option State := s.placeIn (fun _ => true) c d j

/-- A job fits some core of a cluster that its polder owns. -/
def State.fitsOwned (s : State) (c : Nat) (j : Job) : Bool :=
  (List.range 4).any fun d => (s.placeIn (s.ownsCluster (polderOf c)) c d j).isSome

/-- Places a job within CORES of its context (R350, R356). -/
def State.placeWithin (s : State) (c d : Nat) (j : Job) : Option State :=
  if s.ctxCores c ≤ s.occupied c then none
  else (s.placeJob c d j).filter fun s1 => decide (s1.occupied c ≤ s.ctxCores c)

-- The nested choice of R356.

/-- SHARE of a context (R350). -/
def State.share (s : State) (c : Nat) : Nat := max 1 (bits (s.ctxBudget c) 23 16)
/-- A credit of a die: a polder's, or at 32 + c a context's. -/
def Die.credit (x : Die) (i : Nat) : Int := tget x.credits 0 i
/-- Adds to a credit, which saturates at ±2^31 (R356). -/
def Die.addCredit (x : Die) (i : Nat) (n : Int) : Die :=
  { x with credits := tset x.credits i (max (-2147483648) (min 2147483648 (x.credit i + n))) }

/-- PRIO of a job's queue (R356). -/
def State.jobPrio (s : State) (j : Job) : Nat := if j.launch.queue < 1024 then s.qPrio j.launch.queue else j.launch.prio

/-- How far a queue stands behind the one served last, in the rotation of R356. -/
def rotOf (last q : Nat) : Nat := (q + 2048 - last - 1) % 2048

/-- The job of a context to be placed next on a die, and the state with it placed: by PRIO, then by rotation, those set aside
first. Only those that fit count: R356 does not say what a crew that does not fit keeps from going (DESIGN CHOICE, log 86). -/
def State.ctxJob (s : State) (d c : Nat) : Option (Job × State) :=
  if 2 ^ s.ctxSlice c ≤ (s.ctx c).slice then none
  else
    let fit := (s.jobs c).filterMap fun j => (s.placeWithin c d j).map fun s1 => (j, s1)
    let before (a b : Job) : Bool :=
      let ka := rotOf (s.die d).rot a.launch.queue
      let kb := rotOf (s.die d).rot b.launch.queue
      decide (s.jobPrio b < s.jobPrio a) || (s.jobPrio a == s.jobPrio b && decide (ka < kb))
    match fit with
    | [] => none
    | f :: r => some (r.foldl (fun b x => if before x.1 b.1 then x else b) f)

/-- The first element with the largest value. -/
def firstMax {α : Type} (f : α → Int) : List α → Option α
  | [] => none
  | a :: r => some (r.foldl (fun b x => if f b < f x then x else b) a)

/-- A placed job leaves what waits: its launch advances, its crews are set aside no longer. -/
def State.tookJob (s : State) (j : Job) : State :=
  if j.saved then
    { s with saved := s.saved.filter fun e =>
        !(e.launch == j.launch.id && j.units.flatten.any fun c => c.unit == e.unit && c.rank == e.rank) }
  else
    { s with launches := s.launches.map fun l => if l.id == j.launch.id then { l with next := l.next + j.units.length } else l }

/-- Credits are spent for placed crews, and renewed once every polder's has run out (R356). -/
def State.spend (s : State) (d p c n : Nat) (ps cs : List Nat) : State :=
  let s1 := s.modDie d fun x => (x.addCredit p (-n)).addCredit (32 + c) (-n)
  if ps.all fun q => decide ((s1.die d).credit q ≤ 0) then
    let s2 := ps.foldl (fun s q => s.modDie d fun x => x.addCredit q (s.weight q)) s1
    cs.foldl (fun s y => s.modDie d fun x => x.addCredit (32 + y) (s.share y)) s2
  else s1

/-- A dispatchable crew of a context fits some core of a die, whatever the context has left of its slice and its cores. -/
def State.ctxFits (s : State) (d c : Nat) : Bool :=
  s.polderValid (polderOf c) && (s.jobs c).any fun j => (s.placeJob c d j).isSome

/-- One turn of Dispatch(d) (R356), `out` the polders removed for this opportunity: nothing left to place; or a polder more removed;
or the next crews placed, or their queue waiting for a page that the dispatcher must read. -/
def State.dispatchTurn (s : State) (d : Nat) (out : List Nat) : Option (State × List Nat) :=
  let all := ((s.launches.map (·.ctx) ++ s.saved.map (·.ctx)).dedup).filter fun c => !out.contains (polderOf c) && s.ctxFits d c
  let ps := ((all.map polderOf).dedup).insertionSort (· ≤ ·)
  match firstMax (fun p => (s.die d).credit p) ps with
  | none => none
  | some p =>
    let cs := ((all.filter fun c => polderOf c == p).insertionSort (· ≤ ·)).filterMap fun c => (s.ctxJob d c).map fun x => (c, x)
    match firstMax (fun x => (s.die d).credit (32 + x.1)) cs with
    | none => some (s, p :: out)
    | some (c, j, placed) =>
      let q := j.launch.queue
      match s.dispRanges c j.ranges with
      | .miss va => some ((s.modCtx c fun x => { x with qwait := tset x.qwait q va }).reportMiss c va (.queue q), out)
      | .access _ => some (s.queueFault q, out)
      | .ecc l => some ((((s.l2Discard l).queueFault q).memLoss c l), out)
      | .ok _ =>
        some ((((placed.dispDone c j.ranges).tookJob j).spend d p c j.units.flatten.length ps all).modDie d fun x => { x with rot := q }, out)

/-- Dispatch(d) (R356). -/
def State.dispatchGo (s : State) (d : Nat) (out : List Nat) : (fuel : Nat) → State
  | 0 => s
  | n + 1 => match s.dispatchTurn d out with | none => s | some (s1, out1) => s1.dispatchGo d out1 n

/-- Turns that an opportunity can take at most: crew slots of a die, the queues that can come to wait, and the polders. -/
def dispatchFuel : Nat := 63 * 16 + 1024 + 32

/-- An opportunity on a die; the dispatcher places nothing while a die relocks, since what it reads may lie across the crossing (R318;
DESIGN CHOICE, log 88). -/
def State.dispatch (s : State) (d : Nat) : State := if s.relocking then s else s.dispatchGo d [] dispatchFuel

/-- DISPATCH_OPPORTUNITY (R356). -/
def execDispatchOpportunity (die : Nat) (s : State) : Host.Outcome State Fault Refusal := .next (s.dispatch die)

-- Completion.

/-- A crew has completed (R18). -/
def State.crewDone (s : State) (k : Key) : Bool :=
  let x := s.crew k
  !isReeveCore (coreOfCrew k) && x.st == .running
    && (List.range x.nwave).all (fun i => (s.wave (waveKey k i)).done)
    && (x.seq.st == .off || x.seq.st == .ended)
    && (s.core (coreOfCrew k)).copyq.all fun e => e.cslot != cslotOf k

/-- A crew completes: its counters join its context's and its polder's, its resources are freed; after the last crew of its
launch the status word is written (R18, R157). -/
def State.completeCrew (s : State) (k : Key) : State :=
  let x := s.crew k
  let s1 := (s.release (clusterOf (coreOfCrew k)) scope5).addCounts k
  let s3 := s1.dropCrew k
  let ls := s3.launches.map fun l =>
    if l.id == x.launch then { l with doneCrews := l.doneCrews + 1, doneOf := tset l.doneOf x.unit (tget l.doneOf 0 x.unit + 1), issuedSum := l.issuedSum + x.issued } else l
  match ls.find? fun l => l.id == x.launch with
  | some l =>
    if l.doneCrews = recCrews l.lrec then
      { s3 with launches := ls.filter fun l => l.id != x.launch }.writeStatus l.queue l.idx x.ctx (recDone l.lrec) 0
    else { s3 with launches := ls }
  | none => s3

/-- CREW_COMPLETE (R18). -/
def execCrewComplete (crew : Key) (s : State) : Host.Outcome State Fault Refusal :=
  .next (if s.crewDone crew && !s.linkBusy (clusterOf (coreOfCrew crew)) && !s.statusHeld (s.crew crew).ctx (recDone (s.crew crew).lrec) then s.completeCrew crew else s)

-- Pre-emption.

/-- Crews that leave with a crew: its cluster launch, or its COOP launch (R360). -/
def State.leaveWith (s : State) (k : Key) : List Key :=
  let x := s.crew k
  if recCoop x.lrec then (s.ctxCrews x.ctx).filter fun c => (s.crew c).launch == x.launch
  else if 1 < recCl x.lrec then s.unitCrews k
  else [k]

/-- A crew is dormant (R30). -/
def State.isDormant (s : State) (k : Key) : Bool :=
  let x := s.crew k
  let idle (w : Wave) : Bool :=
    w.nonExited = 0 || (w.group = 0 && w.clause.isNone && w.eligible = 0)
      || match w.park with
        | some (.ldwatch _ _) | some (.weir _ _ _) | some .tag | some (.sleep _) => true
        | _ => false
  x.st == .running && (wavesOf k).all (fun w => !(s.wave w).here || idle (s.wave w))
    && (wavesOf k).any (fun w => (s.wave w).here && (s.wave w).nonExited ≠ 0)
    && match x.seq.st with
      | .off | .ended => true
      | .parked => x.seq.missVa.isNone
      | .run | .faulted => false

/-- DRAIN of a polder in µs (R350). -/
def State.drainWindow (s : State) (p : Nat) : Nat := min 900 (bits (s.polderWord p 5) 47 32)

/-- A crew qualifies for a restart (R359). -/
def State.canRestart (s : State) (k : Key) : Bool := (s.crew k).idem && decide (s.reft - (s.crew k).since < 50000)

/-- A crew qualifies for drain (R359): (Mean - Issued) × Age / Issued ≤ DRAIN × 1,000, with the DRAIN of polder p: its own, or in a
recall that of the cluster's owner, as the recall example of the section has it. -/
def State.canDrain (s : State) (p : Nat) (k : Key) : Bool :=
  let x := s.crew k
  match s.launches.find? fun l => l.id == x.launch with
  | none => false
  | some l =>
    let n := l.doneCrews
    decide (4 ≤ n) && decide (x.issued ≠ 0) && !s.isDormant k
      && decide (((l.issuedSum : Int) - n * x.issued) * ((s.reft - x.since : Nat) : Int)
          ≤ s.drainWindow p * 1000 * x.issued * n)

/-- A context may be flushed by rollback (R359). -/
def State.canRollback (s : State) (c : Nat) (ks : List Key) : Bool :=
  (s.ctxCrews c).all (fun k => ks.contains k) && !s.ctxExtw c && s.hasCheckpoint c
    && decide (s.reft - (s.ctx c).ckTime < 50000) && !(s.ctx c).stsSince

/-- A crew leaves its core and waits with the dispatcher, to be restored from its image, or to start again. -/
def State.setAside (s : State) (k : Key) (image : Option (List Dword)) (waitFor : Option (Nat × Nat)) : State :=
  let x := s.crew k
  let s1 := s.dropCrew k
  let e : SavedCrew := { launch := x.launch, unit := x.unit, rank := x.rank, image := image, ctx := x.ctx, key := k, waitFor := waitFor }
  { s1 with saved := s1.saved ++
      [if image.isSome then
          { e with issued := x.issued, carries := s.crewCarries k, scws := s.crewScws k, stream := s.stream k }
        else e] }

/-- Flush, restart from crew start (R359): its counts stay counted (R368). -/
def State.restartCrew (s : State) (waitFor : Option (Nat × Nat)) (k : Key) : State := (s.haltSeq k).setAside k none waitFor

/-- Saves crews (R157, R359, R361); none while one of them cannot be written yet. -/
def State.saveCrews (s : State) (ks : List Key) (waitFor : Option (Nat × Nat)) : Option State :=
  if ks.any s.saveHeld then none
  else
    let s1 := ks.foldl State.addCounts (ks.foldl State.settleCrew s)
    let is := ks.map fun k => (k, s1.crewImage k)
    some (is.foldl (fun s i => s.setAside i.1 (some i.2) waitFor) s1)

/-- Drain: the crews run on until the window of polder p ends (R359, R361). -/
def State.drainCrews (s : State) (p : Nat) (ks : List Key) (waitFor : Option (Nat × Nat)) : State :=
  ks.foldl (fun s k => s.modCrew k fun x =>
    { x with drainBy := some (s.reft + 1000 * s.drainWindow p), drainFor := waitFor }) s

/-- A group of crews leaves by the first method that holds for each of them (R359, R360), judged by the DRAIN of polder p; under a raised
floodgate it is saved as it stands (R361). -/
def State.leaveGroup (s : State) (p : Nat) (waitFor : Option (Nat × Nat)) (ks : List Key) : Option State :=
  if ks.any fun k => (s.ctx (s.crew k).ctx).up then s.saveCrews ks waitFor
  else if ks.all s.canRestart then some (ks.foldl (State.restartCrew · waitFor) s)
  else if ks.all (s.canDrain p) then some (s.drainCrews p ks waitFor)
  else s.saveCrews ks waitFor

/-- The groups of a list of crews, each once. -/
def State.leaveGroups (s : State) : List Key → List (List Key)
  | [] => []
  | k :: r =>
    let rest := s.leaveGroups r
    if rest.any fun g => g.contains k then rest else s.leaveWith k :: rest

/-- Crews of one context are pre-empted (R359 to R361), judged by the DRAIN of polder p; those that drain already go on. -/
def State.preemptCtx (s : State) (p c : Nat) (ks : List Key) (waitFor : Option (Nat × Nat)) : Option State :=
  let gs := s.leaveGroups (ks.filter fun k => (s.crew k).drainBy.isNone)
  let all := gs.flatten
  if all ≠ [] && !(s.ctx c).up && !(all.all s.canRestart) && s.canRollback c all then some (s.rollAway c waitFor)
  else gs.foldl (fun s g => s.bind fun s => s.leaveGroup p waitFor g) (some s)

/-- Crews are pre-empted (R359 to R361), judged by the DRAIN of polder p; none while one of them cannot leave yet. -/
def State.preempt (s : State) (p : Nat) (ks : List Key) (waitFor : Option (Nat × Nat)) : Option State :=
  ((ks.map fun k => (s.crew k).ctx).dedup).foldl
    (fun o c => o.bind fun s => s.preemptCtx p c (ks.filter fun k => (s.crew k).ctx == c) waitFor) (some s)

/-- DRAIN_WINDOW_END (R361): a crew that has not completed in its window is saved, with the crews that leave with it. -/
def execDrainWindowEnd (crew : Key) (s : State) : Host.Outcome State Fault Refusal :=
  .next <|
    match (s.crew crew).drainBy with
    | some t => if t ≤ s.reft then (s.saveCrews (s.leaveWith crew) (s.crew crew).drainFor).getD s else s
    | none => s

-- Slices and dormant crews.

/-- The dispatchable crews of a context that wait for space: they can be placed on no die (R30). -/
def State.waitingJob (s : State) (c : Nat) : Option Job :=
  if s.ctxCores c = 0 then none
  else (s.jobs c).find? fun j => (List.range 4).all fun d => (s.placeWithin c d j).isNone

/-- Clusters on which a polder's crews run: its own, and those that it has borrowed. -/
def State.holdsCluster (s : State) (p cl : Nat) : Bool :=
  s.ownsCluster p cl || ((s.cluster cl).lent && (s.cluster cl).runner == some p)

/-- The dispatchable crews of a context, below its CORES, that fit none of the polder's free cores (R357). -/
def State.rotationJobs (s : State) (c : Nat) : List Job :=
  if s.ctxCores c ≤ s.occupied c then []
  else (s.jobs c).filter fun j => (List.range 4).all fun d => (s.placeIn (s.holdsCluster (polderOf c)) c d j).isNone

/-- The crew that waits, as a crew that makes room for it is told. -/
def Job.name (j : Job) : Option (Nat × Nat) := (j.units.flatten.head?).map fun c => (j.launch.id, c.unit)

/-- Room of a core without a context's crews. -/
def State.roomWithout (s : State) (c core : Nat) : Room :=
  ((s.residents core).filter fun k => (s.crew k).ctx != c).foldl (fun m k => m.less (s.crew k).lrec) {}

/-- Dispatches on every die. -/
def State.dispatchAll (s : State) : State := (List.range 4).foldl (fun s d => s.dispatch d) s

/-- SLICE_EXPIRY (R357): rotation for a waiting context of the same polder, else renewal. -/
def execSliceExpiry (ctx : Nat) (s : State) : Host.Outcome State Fault Refusal :=
  let renew (s : State) : State := s.modCtx ctx fun x => { x with slice := 0 }
  let others := (List.range 16).map (fun i => 16 * polderOf ctx + i) |>.filter (· ≠ ctx)
  .next <|
    if (s.ctx ctx).slice < 2 ^ s.ctxSlice ctx then s
    else
      let takes (j : Job) (k : Key) : Bool :=
        let n := coreOfCrew k
        s.usable j.launch.ctx (recCoop j.launch.lrec) (clusterOf n) && (s.roomWithout ctx n).fits j.launch.lrec
      let mine := s.ctxCrews ctx
      match (others.flatMap s.rotationJobs).find? fun j => mine.any (takes j) with
      | none => renew s
      | some j => match s.preempt (polderOf ctx) (mine.filter (takes j)) j.name with
        | none => s
        | some s1 => renew s1.dispatchAll

/-- DORMANT_SAVE (R30): a crew's dormancy begins to be counted, or, after 64 µs and with a crew of its context waiting for
space, it is saved with the crews that leave with it, all of them dormant as long. -/
def execDormantSave (crew : Key) (s : State) : Host.Outcome State Fault Refusal :=
  let x := s.crew crew
  .next <|
    if isReeveCore (coreOfCrew crew) || !s.isDormant crew then
      (if x.dormant.isSome then s.modCrew crew fun y => { y with dormant := none } else s)
    else
      match x.dormant with
      | none => s.modCrew crew fun y => { y with dormant := some s.reft }
      | some _ =>
        let ks := s.leaveWith crew
        let long (k : Key) : Bool :=
          s.isDormant k && match (s.crew k).dormant with | some t => decide (t + 64000 ≤ s.reft) | none => false
        match s.waitingJob x.ctx with
        | some j => if ks.all long then ((s.saveCrews ks j.name).map State.dispatchAll).getD s else s
        | none => s

-- Lending and recall.

/-- Owner of a cluster (R351). -/
def State.ownerOf (s : State) (cl : Nat) : Option Nat := (List.range 32).find? fun p => s.ownsCluster p cl

/-- Contexts of a polder. -/
def ctxsOf (p : Nat) : List Nat := (List.range 16).map fun i => 16 * p + i

/-- A dispatchable crew of the polder fits a free core that it owns. -/
def State.ownerFits (s : State) (p : Nat) : Bool :=
  (ctxsOf p).any fun c => (s.jobs c).any (s.fitsOwned c)

/-- A dispatchable crew of the polder fits no free core that it owns. -/
def State.ownerWaits (s : State) (p : Nat) : Bool := (ctxsOf p).any fun c => (s.jobs c).any fun j => !s.fitsOwned c j

/-- Crews resident on a cluster. -/
def State.crewsOfCluster (s : State) (cl : Nat) : List Key := (coresOfCluster cl).flatMap s.residents

/-- LEND_POOL_JOIN (R362): a cluster is lendable, and joins its die's lend pool after 100 µs. -/
def execLendPoolJoin (cluster : Nat) (s : State) : Host.Outcome State Fault Refusal :=
  let x := s.cluster cluster
  .next <|
    match s.ownerOf cluster with
    | none => s
    | some p =>
      if x.lent then s
      else if !(s.polderWord p 0).getLsbD 62 || s.crewsOfCluster cluster ≠ [] || s.ownerFits p then
        (if x.lendable.isSome then s.modCluster cluster fun y => { y with lendable := none } else s)
      else
        match x.lendable with
        | none => s.modCluster cluster fun y => { y with lendable := some s.reft }
        | some t =>
          if t + 100000 ≤ s.reft then s.modCluster cluster fun y => { y with lent := true, lendable := none } else s

/-- A recalled cluster without crews is cleaned and returns to its owner, who is dispatched (R363). -/
def State.recallDone (s : State) (cl : Nat) : State :=
  if s.crewsOfCluster cl ≠ [] then s
  else ((s.cleanCluster cl).modCluster cl fun y =>
    { y with runner := none, lent := false, lendable := none, recallBy := none }).dispatchAll

/-- RECALL (R363): it begins when the owner of a lent cluster waits for space, and ends when the borrower's crews have left. -/
def execRecall (cluster : Nat) (s : State) : Host.Outcome State Fault Refusal :=
  let x := s.cluster cluster
  .next <|
    match s.ownerOf cluster with
    | none => s
    | some p =>
      if !x.lent || (x.recallBy.isNone && !s.ownerWaits p) then s
      else
        let s1 := if x.recallBy.isNone then s.modCluster cluster fun y => { y with recallBy := some (s.reft + 1000000) } else s
        ((s1.preempt p (s1.crewsOfCluster cluster) none).getD s1).recallDone cluster

end Sys2Proof.Machine
end

