-- ==== Sys2Proof/Machine/Metering.lean ====
section
/-! DEFINITION. Shares of bandwidth and power (R364 to R366), throttle notices (R367), metering (R368) and the signed usage
report (R369), with the SM3 digest that it carries. -/

namespace Sys2Proof.Machine

-- Bandwidth.

/-- Tokens per µs of a memory controller: 0 to 31 HBM, 32 to 39 boezem (R364, R365). -/
def ctlCapacity (ctl : Nat) : Nat := if ctl < 32 then 9765 else 7812
/-- RATE of a polder at a controller (R350). -/
def State.tokenRate (s : State) (p ctl : Nat) : Nat :=
  if !s.polderValid p then 0
  else if ctl < 32 then bits (s.polderWord p 4) 15 0 else bits (s.polderWord p 4) 47 32
/-- BURST of a polder at a controller (R350). -/
def State.tokenBurst (s : State) (p ctl : Nat) : Nat :=
  if ctl < 32 then bits (s.polderWord p 4) 31 16 else bits (s.polderWord p 4) 63 48
/-- RATE′: scaled by capacity / sum where the valid polders' rates exceed the controller (R351, R365). -/
def State.scaledRate (s : State) (p ctl : Nat) : Nat :=
  let sum := ((List.range 32).map fun q => s.tokenRate q ctl).sum
  let r := s.tokenRate p ctl
  if ctlCapacity ctl < sum then r * ctlCapacity ctl / sum else r

/-- Crews of a polder, on every die. -/
def State.allCrews (s : State) (p : Nat) : List Key := (List.range 4).flatMap fun d => s.polderCrews p d

/-- BUCKET_REFILL (R365): at a REFT multiple of 1,000 a bucket is set to min(B + RATE′, BURST). -/
def execBucketRefill (polder ctl : Nat) (s : State) : Host.Outcome State Fault Refusal :=
  .next <|
    if s.reft % 1000 ≠ 0 || decide (32 ≤ polder) || decide (40 ≤ ctl) || tget (s.polder polder).refilled 0 ctl = s.reft + 1 then s
    else
      let b := tget (s.polder polder).buckets 0 ctl
      let b1 := min (b + s.scaledRate polder ctl) (s.tokenBurst polder ctl)
      s.modPolder polder fun x => { x with buckets := tset x.buckets ctl b1, refilled := tset x.refilled ctl (s.reft + 1) }

-- Power.

/-- Module design power in watts (R332, R366). -/
def designPower : Nat := 2800
/-- PWR of a polder, scaled down where the valid shares exceed the design power (R351, R366). -/
def State.powerShare (s : State) (p : Nat) : Nat :=
  let pwr (q : Nat) : Nat := if s.polderValid q then bits (s.polderWord q 3) 63 48 else 0
  let sum := ((List.range 32).map pwr).sum
  if designPower < sum then pwr p * designPower / sum else pwr p

/-- A share of power lent is not enough for what is borrowed, or the module exceeds its design power (R366). -/
def State.powerShort (s : State) : Bool :=
  let ps := List.range 32
  let drawn (p : Nat) : Nat := (s.polder p).drawn
  decide ((ps.map fun p => s.powerShare p - drawn p).sum < (ps.map fun p => drawn p - s.powerShare p).sum)
    || decide (designPower < (ps.map drawn).sum)

/-- A duty in sixteenths below full issue, as the power stage chooses it: free. -/
def State.freeDuty (s : State) : Nat × State := let (n, s1) := s.free; ((Config.outside n).toNat % 16, s1)

/-- Crews are held by a reduction. -/
def State.reduce (s : State) (cause : Nat) (ks : List Key) : State :=
  ks.foldl (fun s k => let (d, s1) := s.freeDuty; s1.throttle k cause d) s

/-- The reductions of a cause end for crews. -/
def State.unreduce (s : State) (cause : Nat) (ks : List Key) : State := ks.foldl (fun s k => s.unthrottle k cause) s

/-- A regulator phase comes in on a rail of a die (R406). -/
def State.phaseHeld (s : State) (d : Nat) : Bool := (List.range 4).any fun i => (tfind s.pkg.phaseStep (4 * d + i)).isSome

/-- The crews of a list that no regulator phase coming in holds. -/
def State.unphased (s : State) (ks : List Key) : List Key := ks.filter fun k => !s.phaseHeld (dieOf (coreOfCrew k))

/-- The module draws no more than its design power. -/
def State.powerFits (s : State) : Bool := decide (((List.range 32).map fun q => (s.polder q).drawn).sum ≤ designPower)

/-- POWER_MEASURE (R366): a polder's draw is measured; polders above their share are reduced while the lent shares do not cover
them, and no longer. -/
def execPowerMeasure (polder watts : Nat) (s : State) : Host.Outcome State Fault Refusal :=
  let s1 := s.modPolder polder fun x => { x with drawn := watts }
  .next <|
    (List.range 32).foldl
      (fun s p =>
        let ks := s.allCrews p
        let s2 := if s1.powerShort && decide (s1.powerShare p < (s1.polder p).drawn) then s.reduce 1 ks else s.unreduce 1 ks
        if s1.powerFits then s2.unreduce 2 (s2.unphased ks) else s2) s1

/-- THROTTLE_NOTICE (R367): a reduction by the power stage begins to hold a crew, a thermal one only on a die above its trip limit
(R399); or THRSTAT follows a request of the crew that waits, or waits no longer, as tokenless (R365); or, with cause 0, the reductions
of the power stage end for it, the thermal one where the die has cooled, and that of the whole module where no regulator phase is coming
in (R406). Cause 4 is the barrier unit's (R320). -/
def execThrottleNotice (crew : Key) (cause : Nat) (s : State) : Host.Outcome State Fault Refusal :=
  .next <|
    if isReeveCore (coreOfCrew crew) || (s.crew crew).st == .absent then s
    else
      let hot := (s.die (dieOf (coreOfCrew crew))).hotAt.isSome
      match cause with
      | 0 => ((s.unphased [crew]).foldl (fun s k => s.unthrottle k 2) (if hot then s else s.unthrottle crew 3)).unthrottle crew 1
      | 1 | 2 => s.reduce cause [crew]
      | 3 => if hot then s.reduce 3 [crew] else s
      | 5 => s.settleDry crew
      | _ => s

-- Metering.

/-- Issued instructions, and counts of checked products, that have not been counted yet join a polder's counts (R368). -/
def State.meterCrews (s : State) (p : Nat) : State :=
  (s.allCrews p).foldl
    (fun s k => ((s.meter p 0 ((s.crew k).issued - (s.crew k).metered)).meterCtrs k).modCrew k fun x => { x with metered := x.issued }) s

/-- The energy that a polder drew since the last feed: a free amount (R368). -/
def State.meterEnergy (s : State) (p : Nat) : State := let (n, s1) := s.free; s1.meter p 11 ((Config.outside n).toNat % 2 ^ 32)

/-- The cores' counts reach the Zesis controller (R368). -/
def State.feed (s : State) (p : Nat) : State :=
  let s1 := ((s.crews.map fun e => coreOfCrew e.1).dedup.filter (· < 252)).foldl State.useCore s
  (((s1.meterCrews p).meterEnergy p).pour p).modPolder p fun x => { x with fedAt := s.reft }

/-- METERING_FEED (R368). -/
def execMeteringFeed (polder : Nat) (s : State) : Host.Outcome State Fault Refusal :=
  .next (if polder < 32 then s.feed polder else s)

-- SM3 (PRESUMED, log 42: the standard's digest, which the spec names).

/-- Rotation left by n, taken modulo 32. -/
def rotl (x : Word) (n : Nat) : Word := x.rotateLeft (n % 32)
/-- P0 of SM3. -/
def sm3P0 (x : Word) : Word := x ^^^ rotl x 9 ^^^ rotl x 17
/-- P1 of SM3. -/
def sm3P1 (x : Word) : Word := x ^^^ rotl x 15 ^^^ rotl x 23
/-- The message words of a block, extended to 68. -/
def sm3Expand (ws : List Word) : List Word :=
  (List.range 52).foldl
    (fun w i =>
      let at' (d : Nat) : Word := w.getD (16 + i - d) 0
      w ++ [sm3P1 (at' 16 ^^^ at' 9 ^^^ rotl (at' 3) 15) ^^^ rotl (at' 13) 7 ^^^ at' 6]) ws
/-- One round of SM3 on the eight registers. -/
def sm3Round (w : List Word) (v : List Word) (j : Nat) : List Word :=
  match v with
  | [a, b, c, d, e, f, g, h] =>
    let t : Word := if j < 16 then 0x79cc4519 else 0x7a879d8a
    let ss1 := rotl (rotl a 12 + e + rotl t j) 7
    let ff := if j < 16 then a ^^^ b ^^^ c else (a &&& b) ||| (a &&& c) ||| (b &&& c)
    let gg := if j < 16 then e ^^^ f ^^^ g else (e &&& f) ||| (~~~e &&& g)
    let tt1 := ff + d + (ss1 ^^^ rotl a 12) + (w.getD j 0 ^^^ w.getD (j + 4) 0)
    let tt2 := gg + h + ss1 + w.getD j 0
    [tt1, a, rotl b 9, c, sm3P0 tt2, e, rotl f 19, g]
  | _ => v
/-- The compression of one block. -/
def sm3Block (v ws : List Word) : List Word :=
  let w := sm3Expand ws
  List.zipWith (· ^^^ ·) v ((List.range 64).foldl (sm3Round w) v)
/-- Big-endian words of bytes. -/
def bigWords : (n : Nat) → List Byte → List Word
  | 0, _ => []
  | n + 1, bs => BitVec.ofNat 32 (ofBytes (bs.take 4).reverse) :: bigWords n (bs.drop 4)
/-- Blocks of 16 words, one after another. -/
def sm3Blocks : (n : Nat) → List Word → List Word → List Word
  | 0, v, _ => v
  | n + 1, v, ws => sm3Blocks n (sm3Block v (ws.take 16)) (ws.drop 16)
/-- The SM3 digest of bytes, as eight words. -/
def sm3 (bs : List Byte) : List Word :=
  let zeros := (119 - bs.length % 64) % 64
  let msg := bs ++ [0x80] ++ List.replicate zeros 0 ++ (bytesOf (8 * bs.length) 8).reverse
  sm3Blocks (msg.length / 64) [0x7380166f, 0x4914b2b9, 0x172442d7, 0xda8a0600, 0xa96f30bc, 0x163138aa, 0xe38dee4d, 0xb0fb0e4e]
    (bigWords (msg.length / 4) msg)
/-- The digest in memory: its words big-endian, as 64-bit little-endian words. -/
def digestWords (ws : List Word) : List Dword :=
  let bs := ws.flatMap fun w => (bytesOf w.toNat 4).reverse
  (List.range 4).map fun i => BitVec.ofNat 64 (ofBytes ((bs.drop (8 * i)).take 8))

-- The usage report.

/-- The report without digest and signature (R369). -/
def State.reportBody (s : State) (owner seq : Nat) (n0 n1 : Dword) : List Dword :=
  let m := tget s.pkg.ownMeter [] owner
  let c (i : Nat) : Dword := BitVec.ofNat 64 (tget m 0 i)
  let mask := (List.range 32).foldl (fun x p => if s.polderValid p && s.ownerId p == owner then x + 2 ^ p else x) 0
  [1, BitVec.ofNat 64 (owner % 65536 + mask * 2 ^ 32), n0, n1, BitVec.ofNat 64 s.reft, BitVec.ofNat 64 seq, c 0]
    ++ ((List.range 6).map fun i => c (1 + i)) ++ ((List.range 4).map fun i => c (7 + i) <<< 6) ++ [c 11]
    ++ ((List.range 8).map fun i => c (12 + i)) ++ [BitVec.ofNat 64 (tget m 0 20 / 1000), BitVec.ofNat 64 (tget m 0 21 / 1000)]

/-- A report with its digest and the signature over it. -/
def State.signed (s : State) (body : List Dword) : List Dword × State :=
  let (n, s1) := s.free
  let digest := digestWords (sm3 (body.flatMap fun w => bytesOf w.toNat 8))
  (body ++ digest ++ (List.range 8).map fun i => Config.signature n i, s1)

/-- USAGE_REPORT (R369): the owner's counts are fed and reported, where the module meters and holds the key that signs:
in DEPLOYED (R417). -/
def execUsageReport (owner : Nat) (n0 n1 : BitVec 64) (s : State) : Host.Outcome State Fault Refusal :=
  .next <|
    if s.pkg.life != .deployed then s
    else
      let s1 := ((List.range 32).filter fun p => s.polderValid p && s.ownerId p == owner).foldl State.feed s
      let seq := tget s1.pkg.repSeq 0 owner + 1
      let (r, s2) := s1.signed (s1.reportBody owner seq n0 n1)
      s2.modPkg fun p => { p with repSeq := tset p.repSeq owner seq, outbox := p.outbox ++ [r] }

end Sys2Proof.Machine
end

