-- ==== Sys2Proof/Machine/Power.lean ====
section
/-! DEFINITION. Matrix islands and the freeboard loop (R392 to R397), the steps of die clocks (R318, R399), thermal trips (R399),
shadow replays (R401) and regulator phases (R406). -/

namespace Sys2Proof.Machine

-- Islands.

/-- A crew that holds a matrix sequencer is resident on the core (R392). -/
def State.matrixCrew (s : State) (core : Nat) : Bool := (s.residents core).any fun k => (s.crew k).seq.st != .off

/-- FBMAX of an island (R393): as provisioned, else without a bound (log 7). -/
def State.fbmax (s : State) (core : Nat) : Nat := tget s.pkg.fbmax 0xFFFF core

/-- Polder whose crews a core runs (R395). -/
def State.runnerOf (s : State) (core : Nat) : Option Nat :=
  match s.residents core with
  | k :: _ => some (polderOf (s.crew k).ctx)
  | [] => (s.cluster (clusterOf core)).runner

/-- T: FBTGT of the running polder, at most FBMAX (R393, R395). -/
def State.fbTarget (s : State) (core : Nat) : Nat :=
  match s.runnerOf core with
  | some p => min (bits (s.polderWord p 5) 31 16) (s.fbmax core)
  | none => 0

/-- CloseWindow (R396): the credit, and the setpoint, after a window of n counted attempts with o overtops. -/
def closeWindow (t n o cred vset vg vf : Nat) : Nat × Nat :=
  if cred + t * n < o * 2 ^ 20 then (0, min (vset + 5) vg)
  else
    let c := cred + t * n - o * 2 ^ 20
    if 2 ^ 21 ≤ c then (if vf + 5 ≤ vset then (0, vset - 5) else (2 ^ 21, vset)) else (c, vset)

/-- FREEBOARD_WINDOW_CLOSE (R395 to R397): at a REFT multiple of 10,000. A hold keeps VSET and the credit; during a relock a
window counts nothing. -/
def execFreeboardWindowClose (core : Nat) (s : State) : Host.Outcome State Fault Refusal :=
  let i := (s.core core).island
  .next <|
    if s.reft % 10000 ≠ 0 || decide (252 ≤ core) || i.closedAt == some s.reft then s
    else
      let closed : Island := { i with wovt := min i.wo 0xFFFF, watt := min i.wn 0xFFFF, wn := 0, wo := 0, closedAt := some s.reft }
      let t := s.fbTarget core
      let next : Island :=
        if (s.die (dieOf core)).rel then { closed with wovt := 0, watt := 0 }
        else if t = 0 then { closed with cred := 0 }
        else
          match s.islandMode core with
          | .guarded => closed
          | .step | .off => { closed with cred := 0 }
          | .over =>
            let (c, v) := closeWindow t i.wn i.wo i.cred (s.vsetOf core) (s.vgNow core) (s.vfNow core)
            { closed with cred := c, vset := v }
      s.modCore core fun y => { y with island := next }

/-- ISLAND_OFF (R392): no crew with a matrix sequencer for 100 µs. -/
def execIslandOff (core : Nat) (s : State) : Host.Outcome State Fault Refusal :=
  let i := (s.core core).island
  .next <|
    if i.mode == .off || s.matrixCrew core || (s.core core).attempt.isSome || (s.core core).fixing != [] || (s.core core).issued != []
        || decide (s.reft < i.idleAt + 100000) then s
    else s.modCore core fun y => { y with island := { i with mode := .off, riseBy := none } }

/-- ISLAND_POWER_UP (R392, R394): the island returns at its guarded point, its status reset but for FORCE; products that waited for
it start. -/
def execIslandPowerUp (core : Nat) (s : State) : Host.Outcome State Fault Refusal :=
  let i := (s.core core).island
  .next <|
    if i.mode != .off || !s.matrixCrew core then s
    else (s.modCore core fun y =>
      { y with island := { i.clean with mode := if s.holdWanted core then .guarded else .over } }).engineGo core

/-- ISLAND_FORCE_WRITE (R394). -/
def execIslandForceWrite (core : Nat) (force : Bool) (s : State) : Host.Outcome State Fault Refusal :=
  .next (if core < 252 then s.setForce core force else s)

-- Die clocks.

/-- DCLK_TGT_WRITE (R399): a write equal to CUR has no effect beyond TGT. -/
def execDclkTgtWrite (die : Nat) (tgt : BitVec 7) (s : State) : Host.Outcome State Fault Refusal :=
  .next (s.writeTgt die tgt.toNat false)

/-- VOLTAGE_RISE_DONE (R399): every rail and island has reached its point, and the relock begins. -/
def execVoltageRiseDone (die : Nat) (s : State) : Host.Outcome State Fault Refusal :=
  .next <|
    match (s.die die).stepping with
    | .rise m => s.beginRelock die m
    | .none | .relock _ => s

/-- Waves whose oldest access waits in a crossing FIFO, by the REFT of its issue. -/
def State.fifoWaves (s : State) : List Key :=
  let at' (k : Key) : Nat := (((s.wave k).held.head?).map (·.stamp.reft)).getD 0
  ((s.waves.map (·.1)).filter fun k => match (s.wave k).held with | h :: _ => h.fifo | [] => false).insertionSort
    fun a b => at' a ≤ at' b

/-- RELOCK_DONE (R318, R399 steps 3 and 4): the clock restarts at the new code, what the crossing FIFOs held is delivered, products go
on, and a TGT written meanwhile starts a further step. -/
def execRelockDone (die : Nat) (s : State) : Host.Outcome State Fault Refusal :=
  .next <|
    match (s.die die).stepping with
    | .relock m =>
      let s1 := s.modDie die fun x => { x with cur := m, rel := false, stepping := .none }
      let s2 := (s1.dieCrews die).foldl (fun s k => (s.unthrottle k 9).unthrottle k 11) s1
      let s3 := s2.fifoWaves.foldl State.retryHeld s2
      let s4 := (dieCores die).foldl (fun s n => if (s.core n).issued = [] then s else s.engineGo n) s3
      s4.beginStep die (s4.die die).tgt
    | .none | .rise _ => s

/-- Contexts with crews on a die. -/
def State.dieCtxs (s : State) (d : Nat) : List Nat := ((s.dieCrews d).map fun k => (s.crew k).ctx).dedup

/-- THERMAL_TRIP (R399): a die above its trip limit is held with cause 3; if it is still too hot after 100 µs the power stage
writes TGT = 24 and sets THM, and the notices follow (R367). -/
def execThermalTrip (die : Nat) (s : State) : Host.Outcome State Fault Refusal :=
  .next <|
    match (s.die die).hotAt with
    | none => (s.modDie die fun x => { x with hotAt := some s.reft }).reduce 3 (s.dieCrews die)
    | some t =>
      if s.reft < t + 100000 then s
      else
        let s1 := (s.modDie die fun x => { x with hotAt := some s.reft }).writeTgt die 24 true
        (s.dieCtxs die).foldl (fun s c => s.notice c 3) s1

/-- A die has cooled below its trip limit: its crews are held with cause 3 no longer (R399). -/
def State.cooled (s : State) (die : Nat) : State :=
  if (s.die die).hotAt.isNone then s else (s.modDie die fun x => { x with hotAt := none }).unreduce 3 (s.dieCrews die)

-- Vector pipes and regulators.

/-- SHADOW_REPLAY (R401, R404): a stage is replayed; nothing that a program can see changes. -/
def execShadowReplay (core : Nat) (s : State) : Host.Outcome State Fault Refusal :=
  let s1 := s.modDie (dieOf core) fun x => { x with replays := x.replays + 1 }
  .next <|
    match (if isReeveCore core then none else s.runnerOf core) with
    | some p => s1.relCount p 4 1
    | none => s1

/-- A crew borrows: its polder draws more power than its share, or its cluster is another's (R362, R366). -/
def State.borrows (s : State) (k : Key) : Bool :=
  let p := polderOf (s.crew k).ctx
  decide (s.powerShare p < (s.polder p).drawn) || !s.ownsCluster p (clusterOf (coreOfCrew k))

/-- REGULATOR_PHASE_SPARE (R406, R366): a spare phase comes in. The rail's limit is lowered, and the crews of its die are held with cause
2: the borrowers first, and then every polder's; at the third step the phase is in, and the hold ends. -/
def execRegulatorPhaseSpare (rail : Nat) (s : State) : Host.Outcome State Fault Refusal :=
  let ks := s.dieCrews (rail / 4)
  let at1 (n : Nat) : State := s.modPkg fun p => { p with phaseStep := tset p.phaseStep rail n }
  .next <|
    if 16 ≤ rail then s
    else
      match tfind s.pkg.phaseStep rail with
      | none => (at1 1).reduce 2 (ks.filter s.borrows)
      | some 1 => (at1 2).reduce 2 (ks.filter fun k => !s.borrows k)
      | some _ =>
        let s1 := s.modPkg fun p => { p with phases := tset p.phases rail (tget p.phases 0 rail + 1), phaseStep := tdel p.phaseStep rail }
        if s1.powerFits then s1.unreduce 2 (s1.unphased ks) else s1

end Sys2Proof.Machine
end

