-- ==== Sys2Proof/Machine/Reliability.lean ====
section
/-! DEFINITION. Data errors and scrubs (R384, R402, R403), checkpoint timers and the undo log (R386 to R388), aborts (R385), and
the faults of reeve waves (R331). -/

namespace Sys2Proof.Machine

-- Data errors.

/-- Counts an event on a line for the polder that owns it (R404). -/
def State.countLine (s : State) (line i : Nat) : State :=
  match s.rangeOwner (line * 128) with
  | some p => s.relCount p i 1
  | none => s

/-- Clusters that hold a dirty byte of a line. -/
def State.dirtyClusters (s : State) (line : Nat) : List Nat := (List.range 32).filter fun cl => s.dirtyIn cl line
/-- An L2 slice holds the line dirty. -/
def State.dirtyL2 (s : State) (line : Nat) : Bool := (s.l2At line).any fun x => x.2.old.isSome
/-- A clean line leaves the L2 slice that holds it, to be fetched again. -/
def State.l2Refetch (s : State) (line : Nat) : State :=
  match s.l2At line with
  | some (n, x) => if x.old.isNone then s.l2Remove n line else s
  | none => s

/-- DATA_ERROR_DETECT (R384, R402, R404), by kind: 0 a clean line fails its parity and is refetched; 1 a dirty line and 3 a line of
memory is corrected; 2 a dirty line that cannot be corrected is found by its write-back; 4 memory holds an error that the next
reader finds. Dirty lines are those of the clusters' caches and of the L2 slices. -/
def execDataErrorDetect (kind addr : Nat) (s : State) : Host.Outcome State Fault Refusal :=
  let line := addr / 128
  .next <|
    match kind with
    | 0 => (((List.range 32).foldl (fun s cl => s.dropClean cl fun a => a / 128 == line) s).l2Refetch line).countLine line 5
    | 1 => if s.dirtyClusters line = [] && !s.dirtyL2 line then s else s.countLine line 6
    | 2 =>
      let s1 := (s.dirtyClusters line).foldl (fun s cl => s.loseLine cl line) s
      if s.dirtyL2 line then s1.l2Lose line else s1
    | 3 => s.countLine line 6
    | 4 => s.modPkg fun p => { p with eccBad := line :: p.eccBad.filter (· ≠ line) }
    | _ => s

/-- CACHE_SCRUB (R403): a dirty line that cannot be corrected is found in the caches of a cluster (0 to 31) or in an L2 slice (32 + its
number); a scrub of memory (96) only counts it, and the next access to the line faults. -/
def execCacheScrub (cluster line : Nat) (s : State) : Host.Outcome State Fault Refusal :=
  .next <|
    if cluster < 32 then (if s.pkg.lineBad.contains (cluster, line) then s.loseLine cluster line else s)
    else if cluster < 96 then (if (s.l2At line).any fun x => x.1 == cluster - 32 && x.2.bad then s.l2Lose line else s)
    else if cluster = 96 && s.pkg.eccBad.contains line then s.modPkg fun p => { p with scrubBad := p.scrubBad + 1 }
    else s

-- Checkpoints.

/-- CHECKPOINT_TIMER (R386): the period of a context with CKEN has elapsed. -/
def execCheckpointTimer (ctx : Nat) (s : State) : Host.Outcome State Fault Refusal :=
  let period := 1000 * bits (s.ctxWord ctx 2) 63 32
  .next <|
    if !s.ctxValid ctx || !(s.ctxWord ctx 0).getLsbD 61 || decide (s.reft < (s.ctx ctx).ckptAt + period) then s
    else (s.event (s.homeDie ctx) 0x07 (ctxHandle ctx) 0).modCtx ctx fun x => { x with ckptAt := s.reft }

/-- UNDO_LOG_FORCED_CKPT (R388): at 7/8 of the log the actions of CKPT are performed, then event 0x06 is queued; not while the
floodgate is up. -/
def execUndoLogForcedCkpt (ctx : Nat) (s : State) : Host.Outcome State Fault Refusal :=
  let x := s.ctx ctx
  let (_, len) := s.undoLog ctx
  .next <|
    if x.up || !x.logging || len = 0 || decide (8 * x.undoFill < 7 * len) then s
    else
      match s.checkpoint ctx with
      | none => s
      | some (s1, _) => s1.event (s1.homeDie ctx) 0x06 (ctxHandle ctx) (BitVec.ofNat 64 x.undoFill)

/-- UNDO_LOG_FULL (R388): no further entry fits, and the checkpoint is discarded. -/
def execUndoLogFull (ctx : Nat) (s : State) : Host.Outcome State Fault Refusal :=
  .next (if (s.ctx ctx).logging && decide ((s.undoLog ctx).2 < (s.ctx ctx).undoFill + 136) then s.dropCheckpoint ctx else s)

-- Abort.

/-- STATUS 0x4 for each unread record of a queue, which are then passed over (R385). A slot that cannot be read queues the event
of R354. -/
def State.abortRecords (s : State) (q : Nat) : State :=
  let c := s.qCtx q
  let n := min (s.qFill q) (2 ^ s.qLog q)
  let one (s : State) (i : Nat) : State :=
    let idx := (s.qRdix q + i) % 2 ^ 32
    match (if 2 ^ 57 ≤ s.qSlot q idx then .access else s.translate (some c) dispCore (s.qSlot q idx) .read) with
    | .ok s1 pa _ =>
      if s1.homeBad (pa / 128) then s.event (s.homeDie c) 0x0A (ctxHandle c) (queueDet 1 q idx) q
      else
        let (r, s2) := s1.dispRead c pa 16
        s2.writeStatus q idx c (recDone r) 4
    | .miss | .access | .ecc _ | .busy => s.event (s.homeDie c) 0x0A (ctxHandle c) (queueDet 1 q idx) q
  let s1 := (List.range n).foldl one s
  s1.setRdix q (s1.qWrix q)

/-- Queues of a context, in service or taken out of it. -/
def State.ctxQueues (s : State) (c : Nat) : List Nat :=
  (List.range 1024).filter fun q => s.qCtx q == c && ((s.queueWord q 0).getLsbD 63 || s.qFill q != 0)

/-- A context without crews is aborted (R385): its queues go out of service, its launches end with STATUS 0x4. -/
def State.abortCtx (s : State) (c : Nat) : State :=
  let qs := s.ctxQueues c
  let s1 := qs.foldl State.abortRecords s
  let s2 := qs.foldl (fun s q => s.setQueueWord q 0 (putBits (s.queueWord q 0) 63 63 0)) s1
  let mine := s2.launches.filter fun l => l.ctx == c
  let s3 := mine.foldl (fun s l => s.writeStatus l.queue l.idx c (recDone l.lrec) 4) s2
  ({ s3 with launches := s3.launches.filter (fun l => l.ctx != c),
             saved := s3.saved.filter fun (e : SavedCrew) => e.ctx != c }.forgetMisses c fun _ => true).dropInj c |>.modCtx c
    fun x => { x with up := false, byFlood := false, recs := [], unrep := [], qwait := [], imgs := [], stsSince := true }

/-- Firmware has taken every queue of a stopped context out of service, and something of it is still to be ended (R385). -/
def State.abortsNow (s : State) (c : Nat) : Bool :=
  let qs := s.ctxQueues c
  (s.ctx c).up && s.ctxCrews c = [] && qs.all (fun q => !(s.queueWord q 0).getLsbD 63)
    && (qs != [] || s.launches.any fun l => l.ctx == c && decide (l.queue < 1024))

/-- CONTEXT_ABORT (R385): firmware has saved the context and discards the images; queues that it has not taken out of service yet
are taken out. It waits while a die relocks, since its reads and status words may lie across the crossing (R318; log 88). -/
def execContextAbort (ctx : Nat) (s : State) : Host.Outcome State Fault Refusal :=
  .next (if s.ctxCrews ctx = [] && !s.relocking then s.abortCtx ctx else s)

-- Reeve waves.

/-- REEVE_WAVE_FAULT (R331): a reeve wave takes the fault of its held access, or of its next word before it issues (R164): it stops
and event 0x08 is posted. -/
def execReeveWaveFault (w : Key) (s : State) : Host.Outcome State Fault Refusal :=
  .next <|
    if !isReeveCore (coreOf w) || (s.wave w).stopped then s
    else
      match ((s.wave w).held.head?).bind (·.bad) with
      | some c => s.raiseWave w c (BitVec.ofNat 64 (((s.wave w).held.head?).map (·.va) |>.getD 0))
      | none =>
        match s.nextWord w with
        | .other s1 => if (s1.wave w).stopped then s1 else s
        | .run _ _ | .idle => s

/-- The keys of the 64 reeve waves of a die (R421). -/
def reeveWaves (d : Nat) : List Key := (List.range 64).map fun w => waveKey (crewKey (reeveCore d) (w / 32)) (w % 32)

/-- FIRMWARE_RESTART (R331): with every reeve wave of a die stopped, the controller restarts its firmware: the waves and their core
are as after boot, and event 0x09 is delivered. -/
def execFirmwareRestart (die : Nat) (s : State) : Host.Outcome State Fault Refusal :=
  .next <|
    if !(reeveWaves die).all fun k => (s.wave k).stopped then s
    else
      let core := reeveCore die
      let mine (e : EngKind) (n : Nat) : Bool := e == .wave && coreOf n == core
      let s0 := (s.modPkg fun p => { p with peerOps := p.peerOps.filter fun o => !mine o.eng o.key }).releaseLines mine
      let s1 := { s0 with waves := s0.waves.filter fun (e : Nat × Wave) => coreOf e.1 ≠ core,
                          crews := s0.crews.filter fun (e : Nat × Crew) => coreOfCrew e.1 ≠ core, cores := tdel s0.cores core }
      s1.event die 0x09 0 0

end Sys2Proof.Machine
end

