-- ==== Sys2Proof/Machine/Outside.lean ====
section
/-! DEFINITION. What reaches the module from outside: the host link (R353, R354, R409 to R411), the fabric (R412 to R414), boot,
reset and life cycle (R415 to R418), wear records and attestation (R405, R416), and register writes (R7). -/

namespace Sys2Proof.Machine

-- Windows.

/-- Byte x of the concatenation of a polder's valid ranges, in index order (R410, R413); one in a granule that a lower-numbered polder
owns is not reached (R351, R352). -/
def State.windowByte (s : State) (p x : Nat) : Option Nat :=
  let go := (List.range 8).foldl
    (fun (acc : Option Nat × Nat) n =>
      match acc.1, s.rangeOf p n with
      | some a, _ => (some a, acc.2)
      | none, some (b, l, _) => if acc.2 < l then (some (b + acc.2), 0) else (none, acc.2 - l)
      | none, none => acc) ((none : Option Nat), x)
  go.1.filter fun a => (s.ownsRange p a).isSome

/-- The bytes of an access at offset x, if the window holds them all. -/
def State.window (s : State) (p x n : Nat) : Option (List Nat) := (List.range n).mapM fun i => s.windowByte p (x + i)

/-- An access at home cannot be performed yet: a home die's clock is stopped (R318). -/
def State.homeStopped (s : State) (p : Nat) (as : List Nat) : Bool := as.any fun a => (s.die (s.homeDieOf p a)).rel

/-- Lines that bytes at physical addresses fill. -/
def filledBy (as : List Nat) : List Nat :=
  ((as.map (· / 128)).dedup).filter fun l => (List.range 128).all fun i => as.contains (128 * l + i)

/-- Stores bytes at physical addresses one by one at their home slices, for the host or a peer: unlogged (R387), read-only fields of the
tables kept (R7), lines that are filled healed (R384). -/
def State.pokeEach (s : State) (as : List Nat) (bs : List Byte) : State :=
  let s1 := (((as.map (· / 128)).dedup).foldl (fun s l => s.l2Dirty fwCtx l) s).heal (filledBy as)
  (as.zip bs).foldl (fun s x => s.putByte (s.maskAt x.1) x.1 x.2) s1

/-- Bytes at physical addresses move for a polder over the fabric (40) or the host link (41): they are tokens of their controllers,
unless their slices hold them, and of the path (R364, R369). -/
def State.chargeEach (s : State) (p path : Nat) (as : List Nat) : State :=
  (as.foldl (fun s a => s.chargeHome none a 1) s).tokens p path as.length

/-- Value of bytes at physical addresses. -/
def State.peekEach (s : State) (as : List Nat) : Nat := ofBytes (as.map s.homeByte)

/-- Completion of PCI Express with its words of data; status 0 successful, 1 Unsupported Request, 2 Configuration Request Retry,
4 Completer Abort. -/
def State.complete (s : State) (status : Nat) (data : List Dword) : State :=
  s.modPkg fun p => { p with outbox := p.outbox ++ [BitVec.ofNat 64 status :: data] }

/-- Bytes as 64-bit words, the last one filled with zeros. -/
def wordsOf (bs : List Byte) : List Dword :=
  (List.range ((bs.length + 7) / 8)).map fun i => BitVec.ofNat 64 (ofBytes ((bs.drop (8 * i)).take 8))

/-- An answer to the fabric through a port: performed, or refused. -/
def State.answerPeer (s : State) (port : Nat) (ok : Bool) (data : Nat) : State :=
  s.modPkg fun p => { p with outbox := p.outbox ++
    [[BitVec.ofNat 64 (2 ^ 32 * (port + 1) + if ok then 0 else 1), BitVec.ofNat 64 data, BitVec.ofNat 64 (data / 2 ^ 64)]] }

/-- A polder's virtual function answers (R409, R415, R418). -/
def State.vfUp (s : State) (p : Nat) : Bool := s.pkg.boot == 6 && s.pkg.vfs.contains p

-- Host.

/-- A WRIX write of the host for a queue is accepted, or discarded and counted in ERR (R354, R410). -/
def State.ring (s : State) (q wrix : Nat) : State :=
  let d (v : Nat) : Nat := (v + 2 ^ 32 - s.qRdix q) % 2 ^ 32
  if s.qDev q || decide (2 ^ s.qLog q < d wrix) || decide (d wrix < d (s.qWrix q)) then
    s.setQueueWord q 2 (putBits (s.queueWord q 2) 63 32 ((bits (s.queueWord q 2) 63 32 + 1) % 2 ^ 32))
  else s.setWrix q wrix

/-- DOORBELL_WRITE (R354, R410): any access of 32 bits to BAR0 of a polder's virtual function. A read returns 0; a write at offset 8q is a
WRIX write of queue q where q belongs to a context of the polder, and is discarded elsewhere, and during a Function Level Reset (R411). -/
def execDoorbellWrite (polder : Nat) (a : Bar0Access) (s : State) : Host.Outcome State Fault Refusal :=
  let q := a.addr / 8
  .next <|
    if !s.vfUp polder || decide (65536 ≤ a.addr) then (if a.write then s else s.complete 1 [])
    else if !a.write then s.complete 0 [0]
    else if a.addr % 8 ≠ 0 || decide (1024 ≤ q) || polderOf (s.qCtx q) != polder || s.pkg.flr.contains polder then s
    else s.ring q a.v.toNat

/-- Largest payload of a write of the host, and largest read (R409). -/
def maxPayload : Nat := 512
/-- Largest read of the host (R409). -/
def maxRead : Nat := 4096

/-- HOST_BAR2_ACCESS (R134, R409, R410): an access through a polder's aperture is performed at the home slices. One larger than the link
carries is completed with Unsupported Request (DESIGN CHOICE, log 90). -/
def execHostBar2Access (polder : Nat) (write : Bool) (addr : Nat) (data : List Byte) (size : Nat) (s : State) :
    Host.Outcome State Fault Refusal :=
  let n := if write then data.length else size
  .next <|
    if !s.vfUp polder || decide ((if write then maxPayload else maxRead) < n) then s.complete 1 []
    else
      match s.window polder addr n with
      | none => s.complete 1 []
      | some as =>
        if s.homeStopped polder as then s
        else
          let s1 := s.chargeEach polder 41 as
          if write then s1.pokeEach as data else s1.complete 0 (wordsOf (as.map s.homeByte))

/-- New value of a PCI Express AtomicOp: 0 FetchAdd, 1 Swap, 2 CAS of a with b (R409). -/
def hostAtomic (op n old a b : Nat) : Nat :=
  match op with
  | 0 => (old + a) % 2 ^ (8 * n)
  | 1 => a % 2 ^ (8 * n)
  | _ => if old = a % 2 ^ (8 * n) then b % 2 ^ (8 * n) else old

/-- HOST_ATOMICOP (R134, R409): completed atomically at the home slice with the old value; a CAS of 128 bits with Completer
Abort. -/
def execHostAtomicop (polder op size addr : Nat) (a b : BitVec 64) (s : State) : Host.Outcome State Fault Refusal :=
  .next <|
    if !s.vfUp polder then s.complete 1 []
    else if op = 2 ∧ size = 16 then s.complete 4 []
    else if 2 < op ∨ (size ≠ 4 ∧ size ≠ 8) ∨ addr % size ≠ 0 then s.complete 1 []
    else
      match s.window polder addr size with
      | none => s.complete 1 []
      | some as =>
        if s.homeStopped polder as then s
        else
          let old := s.peekEach as
          ((s.chargeEach polder 41 as).pokeEach as (bytesOf (hostAtomic op size old a.toNat b.toNat) size)).complete 0 [BitVec.ofNat 64 old]

/-- Every crew of a context leaves without being saved. -/
def State.dropCrews (s : State) (c : Nat) : State := (s.ctxCrews c).foldl State.dropCrew s

/-- A byte of home memory lies in a range that a polder owns. -/
def State.inPolder (s : State) (p pa : Nat) : Bool := (s.ownsRange p pa).isSome

/-- A Function Level Reset of a polder begins (R411): firmware is told, and every context of the polder is aborted. -/
def State.flrBegin (s : State) (p : Nat) : State :=
  let (n, s0) := s.free
  let s1 := s0.event (s0.lowCluster p / 8) 0x03 (ctxHandle (16 * p)) (Config.outside n)
  ((ctxsOf p).foldl (fun s c => (s.dropCrews c).abortCtx c) s1).modPkg fun k => { k with flr := p :: k.flr }

/-- A Function Level Reset of a polder ends (R411): its clusters are cleaned, and its ranges and L2 slices zeroed; lines that were pinned
there are no longer (R100). A cluster on which another polder's crews run is cleaned when these have left it (R362, R363). -/
def State.flrEnd (s : State) (p : Nat) : State :=
  let cls := (List.range 32).filter fun cl =>
    (s.ownsCluster p cl || (s.cluster cl).runner == some p) && s.crewsOfCluster cl = []
  let s1 := cls.foldl (fun s cl => (s.cleanCluster cl).modCluster cl fun x => { x with runner := none, recallBy := none }) s
  { s1.unpinL2 p with
    mem := s1.mem.filter fun e => !s1.inPolder p e.1
    pkg := { (s1.unpinL2 p).pkg with l2 := (s1.unpinL2 p).pkg.l2.filter fun e => !s1.ownsSlice p e.1,
                                     eccBad := s1.pkg.eccBad.filter fun l => !s1.inPolder p (128 * l),
                                     flr := s1.pkg.flr.filter (· ≠ p) } }

/-- FUNCTION_LEVEL_RESET of VF p + 1 (R411): it begins; the next step of it, at most 100 ms later, ends it. It waits while a die relocks
(R318; log 88). -/
def execFunctionLevelReset (vf : Nat) (s : State) : Host.Outcome State Fault Refusal :=
  let p := vf - 1
  .next <|
    if vf = 0 || 32 < vf || !s.vfUp p || s.relocking then s
    else if s.pkg.flr.contains p then s.flrEnd p
    else s.flrBegin p

/-- HOST_COMMAND_DOORBELL (R339). -/
def execHostCommandDoorbell (idx : BitVec 64) (s : State) : Host.Outcome State Fault Refusal := .next (s.event 0 0x03 0 idx)

/-- Life-cycle code. -/
def lifeCode : LifeCycle → Nat
  | .manufacture => 0 | .provisioned => 1 | .deployed => 2 | .returned => 3

/-- An image is one that step 2 of the boot sequence accepts: its signature holds, and a returned module boots only diagnostic images
(R415, R417). -/
def imageBoots (l : LifeCycle) (i : BootImg) : Bool := i == .diagnostic || (i == .ordinary && l != .returned)

/-- Measurement words of the image that stopped the boot: the firmware's, verified first, else the reeve image's (R415). -/
def State.failingWords (s : State) : List Dword :=
  (List.range 4).map fun i => Config.measurement (if imageBoots s.pkg.life s.pkg.fwImg then 4 + i else i)

/-- CONFIGURATION_REQUEST to the PF (R415): retried until boot step 6; kind 1 enables the virtual functions of a mask. After a
failed boot the PF reports the life-cycle state and the failing measurement. -/
def execConfigurationRequest (kind : Nat) (v : BitVec 64) (s : State) : Host.Outcome State Fault Refusal :=
  .next <|
    if s.pkg.bootStopped then
      s.modPkg fun p => { p with outbox := p.outbox ++ [BitVec.ofNat 64 (lifeCode p.life) :: s.failingWords] }
    else if s.pkg.boot < 6 then s.complete 2 []
    else if kind = 1 then
      (s.modPkg fun p => { p with vfs := (List.range 32).filter fun i => v.getLsbD i }).complete 0 []
    else let (n, s1) := s.free; s1.complete 0 [Config.outside n]

-- Fabric.

/-- Polder that answers to a fabric identifier (R412): none until firmware has written it (DESIGN CHOICE, log 91). -/
def State.fidPolder (s : State) (fid : Nat) : Option Nat := (List.range 32).find? fun p => tfind s.pkg.fids p == some fid

/-- Changes a port. -/
def State.modPort (s : State) (n : Nat) (f : Port → Port) : State :=
  s.modPkg fun p => { p with ports := tset p.ports n (f (tget p.ports {} n)) }

/-- What a peer's operation writes over a value of n bytes: none for a load (R249, R251, R412). -/
def peerWrites (what : PeerIn) (n old data : Nat) : Option Nat :=
  match what with
  | .load => none
  | .store => some data
  | .atom op sg => some (atomNew op (8 * n) sg old (data % 2 ^ (8 * n)))
  | .cas x => if old = x.toNat % 2 ^ (8 * n) then some data else none

/-- A size that a peer's operation may have (R412): 8 to 128 bits, for an atomic 32 or 64 bits, naturally aligned. -/
def peerSizeOk (what : PeerIn) (addr n : Nat) : Bool :=
  match what with
  | .load | .store => decide (1 ≤ n) && decide (n ≤ 16)
  | .atom _ _ | .cas _ => (n == 4 || n == 8) && addr % n == 0

/-- PEER_ACCESS_IN (R134, R412, R413): performed at the home slice, an atomic in one step; refused and counted where the polder does
not own the port, refused beyond the window, in a size that the fabric does not carry, and before boot is complete (R418). While the
port retrains, its traffic waits (R406). -/
def execPeerAccessIn (port fid : Nat) (what : PeerIn) (addr : Nat) (data : BitVec 128) (size : Nat) (s : State) :
    Host.Outcome State Fault Refusal :=
  .next <|
    if s.pkg.boot ≠ 6 then s.answerPeer port false 0
    else if (tget s.pkg.ports {} port).down then s
    else
      match (s.fidPolder fid).filter fun p => s.ownsPort p port with
      | none => (s.modPort port fun x => { x with refused := x.refused + 1 }).answerPeer port false 0
      | some p =>
        match (s.window p addr size).filter fun _ => peerSizeOk what addr size with
        | none => s.answerPeer port false 0
        | some as =>
          if s.homeStopped p as then s
          else
            let old := s.peekEach as
            let s1 := s.chargeEach p 40 as
            match peerWrites what size old data.toNat with
            | some v => (s1.pokeEach as (bytesOf v size)).answerPeer port true (if what = PeerIn.store then 0 else old)
            | none => s1.answerPeer port true old

/-- The lane of a wave's word that an operation performs. -/
def State.opLane (s : State) (o : PeerOp) : Option (Instr × LaneAcc) :=
  let w := s.wave o.key
  let pick (i : Instr) (ls : List LaneAcc) : Option (Instr × LaneAcc) := (ls.find? fun a => a.lane == o.lane).map fun a => (i, a)
  if o.eng != .wave then none
  else
    match w.park, w.parkI, w.held with
    | some (.ldwatch ..), some (.ldwatch t x), _ => pick (.ldwatch t x) (ldwatchLanes x w)
    | _, _, h :: _ =>
      match decodeWave (isReeveCore (coreOf o.key)) h.word with
      | .ok i => pick i h.lanes
      | .clause | .access | .illegal => none
    | _, _, [] => none

/-- What a response brings of the peer's memory: the value that a lane's load or atomic finds there. -/
def State.peerSends (s : State) (o : PeerOp) (data : BitVec 128) : State :=
  if (s.opLane o).any fun p => !o.write || (atomMF p.1).isSome then s.pokeBytes o.addr (bytesOf data.toNat o.size) else s

/-- PEER_RESPONSE (R414): a response within 1 ms completes its operation; a later one is discarded with the operation. A wave's held
access is performed once all its lanes are answered; a word at issue, a sequencer and a copy command issue theirs again. -/
def execPeerResponse (op : Nat) (data : BitVec 128) (s : State) : Host.Outcome State Fault Refusal :=
  .next <|
    match s.pkg.peerOps.find? fun o => o.id == op with
    | none => s
    | some o =>
      if o.answered || decide (o.since + 1000000 < s.reft) then s
      else
        let s1 := (s.peerSends o data).modPkg fun p =>
          { p with peerOps := p.peerOps.map fun x => if x.id == op then { x with answered := true } else x }
        if o.eng == .wave then s1.retryHeld o.key else s1

/-- An operation is done with. -/
def State.dropOp (s : State) (op : Nat) : State := s.modPkg fun p => { p with peerOps := p.peerOps.filter fun o => o.id != op }

/-- Free values overwrite n bytes at a peer. -/
def State.pokeFree (s : State) (a n : Nat) : State :=
  (List.range n).foldl (fun s i => let (x, s1) := s.free; s1.pokeBytes (a + i) [(Config.outside x).setWidth 8]) s

/-- The beat of a copy command that waits for a peer is performed, and not counted. -/
def State.beatAnyway (s : State) (o : PeerOp) : State :=
  match (s.core o.key).copyq.findIdx? fun e => e.id == o.lane with
  | none => s
  | some pos =>
    match (s.core o.key).copyq[pos]? with
    | none => s
    | some e =>
      let s1 := s.modPkg fun p => { p with peerOps := p.peerOps.map fun x => if x.id == o.id then { x with answered := true } else x }
      (s1.beat o.key pos e.nextBeat).modCopy o.key pos fun _ => e

/-- Whether an operation that faulted was performed at its peer is free; EXTW is set where it writes (R389, R414). What a sequencer or a
wave-level word would have stored is left free (log 84). -/
def State.maybeDone (s : State) (o : PeerOp) : State :=
  let (n, s1) := s.free
  let c := s.opCtx o
  let s2 := if o.write && c < 512 then s1.setExtw c true else s1
  if !o.write || !Config.peerDone n then s2
  else
    match o.eng, s2.opLane o with
    | .wave, some (i, a) => (s2.accLane i o.key (s.stampNow o.key) a o.addr 3).2
    | .copy, _ => s2.beatAnyway o
    | _, _ => s2.pokeFree o.addr o.size

/-- The word at which a wave stands, where it can be fetched. -/
def State.standingWord (s : State) (k : Key) : Dword :=
  match s.fetchWave k (s.wave k).pc with
  | .ok _ w => w
  | .miss | .access | .ecc _ | .wait => 0

/-- The engine of an operation that has had no response takes ACCESS with the operation's address (R414): precise at the word of a wave or
sequencer, a held access as its delayed fault, a copy command under R270. -/
def State.faultOp (s : State) (o : PeerOp) : State :=
  let det : Dword := BitVec.ofNat 64 o.va
  match o.eng with
  | .copy =>
    match (s.core o.key).copyq.findIdx? fun e => e.id == o.lane with
    | some pos => (s.dropOp o.id).faultCopy o.key pos .access det
    | none => s.dropOp o.id
  | .seq => (s.dropOps .seq o.key).raiseSeq o.key .access det (s.seqWord o.key)
  | .wave | .fabric | .mem =>
    let w := s.wave o.key
    if o.lane = wordOp then (s.dropOp o.id).raiseWave o.key .access det (s.standingWord o.key)
    else
      let s1 := s.dropOps .wave o.key
      match w.park, w.held with
      | some (.ldwatch ..), _ => s1.raiseWave o.key .access det ((w.parkI.bind encodeWave).getD 0)
      | _, h :: rest => s1.modWave o.key fun w => { w with held := { h with va := o.va, fifo := false, bad := some .access } :: rest }
      | _, [] => s1

/-- PEER_TIMEOUT (R414): after 1 ms without a response the operation faults. -/
def execPeerTimeout (op : Nat) (s : State) : Host.Outcome State Fault Refusal :=
  .next <|
    match s.pkg.peerOps.find? fun o => o.id == op with
    | none => s
    | some o => if o.answered || decide (s.reft < o.since + 1000000) then s else (s.maybeDone o).faultOp o

/-- LANE_SPARE_RETRAIN (R406): the spare lane of a port comes in by a retrain; a port has one. -/
def execLaneSpareRetrain (port : Nat) (s : State) : Host.Outcome State Fault Refusal :=
  .next (if (tget s.pkg.ports {} port).spared then s else s.modPort port fun x => { x with spared := true, down := true })

/-- PORT_RETRAIN (R412): the port's traffic waits. -/
def execPortRetrain (port : Nat) (s : State) : Host.Outcome State Fault Refusal := .next (s.modPort port fun x => { x with down := true })

/-- What waited on a port is performed, once: held accesses at once, the words of other engines as they issue again (R406, R414). -/
def State.portGoes (s : State) (port : Nat) : State :=
  let ks := (s.pkg.peerOps.filter fun o => o.eng == .wave && s.portOf (s.opCtx o) o.addr == some port).map (·.key)
  ks.dedup.foldl State.retryHeld s

/-- PORT_RETRAIN_DONE (R406, R414). -/
def execPortRetrainDone (port : Nat) (s : State) : Host.Outcome State Fault Refusal :=
  .next ((s.modPort port fun x => { x with down := false }).portGoes port)

/-- The peers of a port fall silent, or answer again (R414). -/
def State.silence (s : State) (port : Nat) (on : Bool) : State :=
  let s1 := s.modPort port fun x => { x with silent := on }
  if on then s1 else s1.portGoes port

-- Wear, attestation.

/-- WEAR_RECORD_APPEND (R405): a record of an assigned KIND is appended. -/
def execWearRecordAppend (w0 w1 w2 w3 : BitVec 64) (s : State) : Host.Outcome State Fault Refusal :=
  .next (if 4 ≤ bits w0 63 60 then s else s.modPkg fun p => { p with wear := p.wear ++ [[w0, w1 &&& 0xFFFFFFFF, w2, w3]] })

/-- The part number of the module (R416), LN9-M4-384, as ASCII. -/
def partNumber : List Dword := wordsOf [0x4C, 0x4E, 0x39, 0x2D, 0x4D, 0x34, 0x2D, 0x33, 0x38, 0x34]

/-- The module holds a device key: from PROVISIONED on, until it is returned (R417). -/
def State.deviceKey (s : State) : Bool := s.pkg.life == .provisioned || s.pkg.life == .deployed

/-- ATTESTATION_REPORT (R416): none without the device key that signs it (R417). -/
def execAttestationReport (n0 n1 : BitVec 64) (s : State) : Host.Outcome State Fault Refusal :=
  .next <|
    if !s.deviceKey then s
    else
      let (n, s1) := s.free
      s1.modPkg fun p => { p with outbox := p.outbox ++
        [partNumber ++ [BitVec.ofNat 64 (lifeCode p.life)] ++ (List.range 8).map Config.measurement
          ++ [Config.fuseVersion, n0, n1] ++ (List.range 8).map fun i => Config.signature n i] }

-- Boot, reset, life cycle.

/-- A die as it starts at its BOOTM (R398, R415 step 5). -/
def State.bootDie (s : State) (d : Nat) : Die :=
  let m := max 24 (min 88 (tget s.pkg.bootm bootCode d))
  { cur := m, tgt := m }

/-- The map of logical to physical cores after a reset (R5, R406, R415 step 3): physical cores are 68 on a die, of which 64 to 67 are its
spares; each core that a wear record names, in the order of the records, is replaced by the next spare of its die that no record names
(DESIGN CHOICE: which worn cores firmware replaces is open, log 70). -/
def coreMapOf (wear : List (List Dword)) : Tab Nat :=
  let worn := (wear.filter fun r => bits (r.getD 0 0) 63 60 = 0).map fun r => bits (r.getD 0 0) 59 0
  worn.foldl
    (fun t u =>
      let at' (n : Nat) : Nat := tget t (dieOf n * 68 + if n < 252 then n % 63 else 63) n
      let d := u / 68
      let spare := ((List.range 4).map fun i => d * 68 + 64 + i).find? fun x => !worn.contains x && !t.any fun e => e.2 == x
      match (List.range 256).find? (fun n => at' n = u), spare with
      | some n, some x => tset t n x
      | _, _ => t) []

/-- Step 1 of R415 is entered: the engines stop, what the steps wipe reads as `memInit` gives it, and core spares are applied; what the
Zesis controller and the package keep stays (R417), and so does what lies outside the module. -/
def State.bootUp (s : State) (fw reeve : BootImg) : State :=
  let p := s.pkg
  { State.reset with
    agenda := s.agenda, freeCtr := s.freeCtr, mem := s.mem.filter fun e => isExternal e.1,
    dies := (List.range 4).map fun d => (d, s.bootDie d),
    polders := s.polders.map fun e => (e.1, { total := e.2.total }),
    pkg := { boot := 1, fwImg := fw, reeveImg := reeve, life := p.life, wear := p.wear, ownMeter := p.ownMeter,
             repSeq := p.repSeq, outbox := p.outbox, hostEvents := p.hostEvents, vg := p.vg, drop := p.drop, fbmax := p.fbmax,
             vnom := p.vnom, vmin := p.vmin, bootm := p.bootm, phases := p.phases, coreMap := coreMapOf p.wear,
             ports := p.ports.map fun e => (e.1, { spared := e.2.spared }) } }

/-- The boot step in progress ends (R415): at step 2 an image that does not verify stops the boot. -/
def State.bootStep (s : State) : State :=
  let p := s.pkg
  if p.bootStopped || decide (6 ≤ p.boot) then s
  else if p.boot = 2 && !(imageBoots p.life p.fwImg && imageBoots p.life p.reeveImg) then s.modPkg fun p => { p with bootStopped := true }
  else s.modPkg fun p => { p with boot := p.boot + 1 }

/-- POWER_GOOD_BOOT (R415): the boot sequence begins, with the images that it finds. -/
def execPowerGoodBoot (imgs : BootImgs) (s : State) : Host.Outcome State Fault Refusal := .next (s.bootUp imgs.fw imgs.reeve)

/-- MODULE_RESET (R418): step 1 of R415 is entered. The images are those of the last boot, also where that stopped (DESIGN CHOICE,
log 92). -/
def execModuleReset (s : State) : Host.Outcome State Fault Refusal := .next (s.bootUp s.pkg.fwImg s.pkg.reeveImg)

/-- Forward changes of the life cycle (R417), by code. -/
def lifeNext (l : LifeCycle) (target : Nat) : Option LifeCycle :=
  match l, target with
  | .manufacture, 1 => some .provisioned
  | .provisioned, 2 => some .deployed
  | .manufacture, 3 | .provisioned, 3 | .deployed, 3 => some .returned
  | _, _ => none

/-- LIFE_CYCLE_CHANGE (R417): only forward; it zeroes the memories and the metering counters before any engine runs. One that coincides
with a reset wipes once, the metering counters included (R418). -/
def execLifeCycleChange (target : Nat) (s : State) : Host.Outcome State Fault Refusal :=
  .next <|
    match lifeNext s.pkg.life target with
    | none => s
    | some l =>
      let s1 := s.bootUp s.pkg.fwImg s.pkg.reeveImg
      { s1 with polders := [], pkg := { s1.pkg with life := l, ownMeter := [] } }

-- Register writes (R7).

/-- Registers a barrier word, or with N = 0 removes it (R319, R320). -/
def State.setBarrier (s : State) (addr polder n thr : Nat) : State :=
  let rest := s.pkg.barriers.filter fun b => !(b.addr == addr && b.polder == polder)
  s.modPkg fun p =>
    { p with barriers := if n = 0 then rest else rest ++ [{ addr := addr, polder := polder, n := n, thr := thr, depart := (s.polder polder).ran }] }

/-- Provisioned values are written before the device leaves MANUFACTURE (R393, R417). -/
def State.provision (s : State) (f : Pkg → Pkg) : State := if s.pkg.life == .manufacture then s.modPkg f else s

/-- REGISTER_WRITE (R7): a register that has no row of its own. -/
def execRegisterWrite (t : RegTarget) (v : BitVec 64) (s : State) : Host.Outcome State Fault Refusal :=
  let n := v.toNat
  .next <|
    match t with
    | .evec die => s.modDie die fun x => { x with evec := v }
    | .islandForce core => if core < 252 then s.setForce core (v.getLsbD 0) else s
    | .dclkTgt die => s.writeTgt die (n % 128) false
    | .provVg core freq => s.provision fun p => { p with vg := tset p.vg (core * 128 + freq) n }
    | .provDrop core => s.provision fun p => { p with drop := tset p.drop core (min 120 n) }
    | .provFbmax core => s.provision fun p => { p with fbmax := tset p.fbmax core (n % 65536) }
    | .provVnom rail freq => s.provision fun p => { p with vnom := tset p.vnom (rail * 128 + freq) n }
    | .provVmin rail freq => s.provision fun p => { p with vmin := tset p.vmin (rail * 128 + freq) n }
    | .railPoint rail => s.modPkg fun p => { p with rail := tset p.rail rail n }
    | .bootm die => s.provision fun p => { p with bootm := tset p.bootm die (n % 128) }
    | .barrier addr polder k thr => s.setBarrier addr polder k thr
    | .refusedPeers port => s.modPort port fun x => { x with refused := n }
    | .fabricId polder => s.modPkg fun p => { p with fids := tset p.fids polder (n % 65536) }
    | .pinLimit slice => s.modPkg fun p => { p with pinLim := tset p.pinLim slice (min 24576 n) }

end Sys2Proof.Machine
end

