-- ==== Sys2Proof/Machine/Dispatch.lean ====
section
/-! DEFINITION. The dispatch: one arm for each constructor of the instruction set. -/

namespace Sys2Proof.Machine

/-- The meaning of one instruction. -/
def exec (i : Instr) (s : State) : Host.Outcome State Fault Refusal :=
  match i with
  | .nop => Sys2Proof.Machine.execNop s
  | .bra x => Sys2Proof.Machine.execBra x s
  | .brx x => Sys2Proof.Machine.execBrx x s
  | .call x => Sys2Proof.Machine.execCall x s
  | .callx x => Sys2Proof.Machine.execCallx x s
  | .ret x => Sys2Proof.Machine.execRet x s
  | .exit x => Sys2Proof.Machine.execExit x s
  | .yield => Sys2Proof.Machine.execYield s
  | .trap x => Sys2Proof.Machine.execTrap x s
  | .bkpt x => Sys2Proof.Machine.execBkpt x s
  | .sleep x => Sys2Proof.Machine.execSleep x s
  | .sleepDeadline w => Sys2Proof.Machine.execSleepDeadline w s
  | .jenr x => Sys2Proof.Machine.execJenr x s
  | .jwait x => Sys2Proof.Machine.execJwait x s
  | .jstrk x => Sys2Proof.Machine.execJstrk x s
  | .weirset x => Sys2Proof.Machine.execWeirset x s
  | .weirarv x => Sys2Proof.Machine.execWeirarv x s
  | .weirwait x => Sys2Proof.Machine.execWeirwait x s
  | .weirsync x => Sys2Proof.Machine.execWeirsync x s
  | .cbarv x => Sys2Proof.Machine.execCbarv x s
  | .cbwait x => Sys2Proof.Machine.execCbwait x s
  | .nexttile x => Sys2Proof.Machine.execNexttile x s
  | .launch x => Sys2Proof.Machine.execLaunch x s
  | .acqx x => Sys2Proof.Machine.execAcqx x s
  | .acqxGrant core q => Sys2Proof.Machine.execAcqxGrant core q s
  | .relx x => Sys2Proof.Machine.execRelx x s
  | .kill sf x => Sys2Proof.Machine.execKill sf x s
  | .rest x => Sys2Proof.Machine.execRest x s
  | .region x => Sys2Proof.Machine.execRegion x s
  | .part x => Sys2Proof.Machine.execPart x s
  | .srd x => Sys2Proof.Machine.execSrd x s
  | .swr x => Sys2Proof.Machine.execSwr x s
  | .scw x => Sys2Proof.Machine.execScw x s
  | .scwComplete ctx n => Sys2Proof.Machine.execScwComplete ctx n s
  | .scr x => Sys2Proof.Machine.execScr x s
  | .scack x => Sys2Proof.Machine.execScack x s
  | .iadd sf ty x => Sys2Proof.Machine.execIadd sf ty x s
  | .isub sf ty x => Sys2Proof.Machine.execIsub sf ty x s
  | .imul sf ty x => Sys2Proof.Machine.execImul sf ty x s
  | .imulh sf ty x => Sys2Proof.Machine.execImulh sf ty x s
  | .imad sf ty x => Sys2Proof.Machine.execImad sf ty x s
  | .imadw sf ty x => Sys2Proof.Machine.execImadw sf ty x s
  | .imin sf ty x => Sys2Proof.Machine.execImin sf ty x s
  | .imax sf ty x => Sys2Proof.Machine.execImax sf ty x s
  | .iabs sf ty x => Sys2Proof.Machine.execIabs sf ty x s
  | .ineg sf ty x => Sys2Proof.Machine.execIneg sf ty x s
  | .idiv sf ty x => Sys2Proof.Machine.execIdiv sf ty x s
  | .irem sf ty x => Sys2Proof.Machine.execIrem sf ty x s
  | .icmp sf ty cond x => Sys2Proof.Machine.execIcmp sf ty cond x s
  | .isel sf ty x => Sys2Proof.Machine.execIsel sf ty x s
  | .and sf ty x => Sys2Proof.Machine.execAnd sf ty x s
  | .or sf ty x => Sys2Proof.Machine.execOr sf ty x s
  | .xor sf ty x => Sys2Proof.Machine.execXor sf ty x s
  | .not sf ty x => Sys2Proof.Machine.execNot sf ty x s
  | .tlog sf t x => Sys2Proof.Machine.execTlog sf t x s
  | .shl sf ty x => Sys2Proof.Machine.execShl sf ty x s
  | .shr sf ty x => Sys2Proof.Machine.execShr sf ty x s
  | .sar sf ty x => Sys2Proof.Machine.execSar sf ty x s
  | .rot sf ty x => Sys2Proof.Machine.execRot sf ty x s
  | .fshf sf ty x => Sys2Proof.Machine.execFshf sf ty x s
  | .bfe sf ty x => Sys2Proof.Machine.execBfe sf ty x s
  | .bfi sf ty x => Sys2Proof.Machine.execBfi sf ty x s
  | .popc sf ty x => Sys2Proof.Machine.execPopc sf ty x s
  | .clz sf ty x => Sys2Proof.Machine.execClz sf ty x s
  | .ctz sf ty x => Sys2Proof.Machine.execCtz sf ty x s
  | .brev sf ty x => Sys2Proof.Machine.execBrev sf ty x s
  | .bperm sf ty x => Sys2Proof.Machine.execBperm sf ty x s
  | .mov sf ty x => Sys2Proof.Machine.execMov sf ty x s
  | .movQ0Push x => Sys2Proof.Machine.execMovQ0Push x s
  | .movQ1Pop x => Sys2Proof.Machine.execMovQ1Pop x s
  | .movi sf kind x => Sys2Proof.Machine.execMovi sf kind x s
  | .rdlane ty x => Sys2Proof.Machine.execRdlane ty x s
  | .bcast ty x => Sys2Proof.Machine.execBcast ty x s
  | .pairedWord h l => Sys2Proof.Machine.execPairedWord h l s
  | .fadd ft rm x => Sys2Proof.Machine.execFadd ft rm x s
  | .fmul ft rm x => Sys2Proof.Machine.execFmul ft rm x s
  | .ffma ft rm x => Sys2Proof.Machine.execFfma ft rm x s
  | .fmin ft x => Sys2Proof.Machine.execFmin ft x s
  | .fmax ft x => Sys2Proof.Machine.execFmax ft x s
  | .fcmp ft cond x => Sys2Proof.Machine.execFcmp ft cond x s
  | .fclass ft x => Sys2Proof.Machine.execFclass ft x s
  | .frnd ft rm x => Sys2Proof.Machine.execFrnd ft rm x s
  | .fscale ft rm x => Sys2Proof.Machine.execFscale ft rm x s
  | .fgetexp ft x => Sys2Proof.Machine.execFgetexp ft x s
  | .padd ft rm x => Sys2Proof.Machine.execPadd ft rm x s
  | .pmul ft rm x => Sys2Proof.Machine.execPmul ft rm x s
  | .pfma ft rm x => Sys2Proof.Machine.execPfma ft rm x s
  | .rcp ft rm x => Sys2Proof.Machine.execRcp ft rm x s
  | .rsq ft x => Sys2Proof.Machine.execRsq ft x s
  | .sqrt ft rm x => Sys2Proof.Machine.execSqrt ft rm x s
  | .fdiv ft rm x => Sys2Proof.Machine.execFdiv ft rm x s
  | .exp2 x => Sys2Proof.Machine.execExp2 x s
  | .log2 x => Sys2Proof.Machine.execLog2 x s
  | .sin x => Sys2Proof.Machine.execSin x s
  | .cos x => Sys2Proof.Machine.execCos x s
  | .tanh x => Sys2Proof.Machine.execTanh x s
  | .cvt rm x => Sys2Proof.Machine.execCvt rm x s
  | .cvtp rm x => Sys2Proof.Machine.execCvtp rm x s
  | .qnt nosm sel rm x => Sys2Proof.Machine.execQnt nosm sel rm x s
  | .dqnt x => Sys2Proof.Machine.execDqnt x s
  | .ldVector sz x => Sys2Proof.Machine.execLdVector sz x s
  | .ldScalar sz x => Sys2Proof.Machine.execLdScalar sz x s
  | .stVector sz x => Sys2Proof.Machine.execStVector sz x s
  | .stScalar sz x => Sys2Proof.Machine.execStScalar sz x s
  | .lds mode sz x => Sys2Proof.Machine.execLds mode sz x s
  | .sts e sz x => Sys2Proof.Machine.execSts e sz x s
  | .tagWaitServed core cslot word => Sys2Proof.Machine.execTagWaitServed core cslot word s
  | .sptag full x => Sys2Proof.Machine.execSptag full x s
  | .spdrop x => Sys2Proof.Machine.execSpdrop x s
  | .spdropComplete crew bank => Sys2Proof.Machine.execSpdropComplete crew bank s
  | .atom op x => Sys2Proof.Machine.execAtom op x s
  | .atomcas x => Sys2Proof.Machine.execAtomcas x s
  | .red op x => Sys2Proof.Machine.execRed op x s
  | .ldwatch t x => Sys2Proof.Machine.execLdwatch t x s
  | .ldwatchWake w => Sys2Proof.Machine.execLdwatchWake w s
  | .fence x => Sys2Proof.Machine.execFence x s
  | .pfence x => Sys2Proof.Machine.execPfence x s
  | .cflush x => Sys2Proof.Machine.execCflush x s
  | .cinv x => Sys2Proof.Machine.execCinv x s
  | .pref lvl x => Sys2Proof.Machine.execPref lvl x s
  | .icpre cc x => Sys2Proof.Machine.execIcpre cc x s
  | .icpin cc x => Sys2Proof.Machine.execIcpin cc x s
  | .icunpin cc x => Sys2Proof.Machine.execIcunpin cc x s
  | .obres n x => Sys2Proof.Machine.execObres n x s
  | .obresInstall core n => Sys2Proof.Machine.execObresInstall core n s
  | .obrel n x => Sys2Proof.Machine.execObrel n x s
  | .obrelClear core n => Sys2Proof.Machine.execObrelClear core n s
  | .vote op x => Sys2Proof.Machine.execVote op x s
  | .matchLanes ty all x => Sys2Proof.Machine.execMatchLanes ty all x s
  | .pull sel x => Sys2Proof.Machine.execPull sel x s
  | .perm x => Sys2Proof.Machine.execPerm x s
  | .qswap sel x => Sys2Proof.Machine.execQswap sel x s
  | .qbcast x => Sys2Proof.Machine.execQbcast x s
  | .redux ty op x => Sys2Proof.Machine.execRedux ty op x s
  | .scan ty op excl x => Sys2Proof.Machine.execScan ty op excl x s
  | .eret => Sys2Proof.Machine.execEret s
  | .tlbinv x => Sys2Proof.Machine.execTlbinv x s
  | .ctxsave x => Sys2Proof.Machine.execCtxsave x s
  | .ctxload x => Sys2Proof.Machine.execCtxload x s
  | .stoprd x => Sys2Proof.Machine.execStoprd x s
  | .resume x => Sys2Proof.Machine.execResume x s
  | .flood x => Sys2Proof.Machine.execFlood x s
  | .dirtyh final x => Sys2Proof.Machine.execDirtyh final x s
  | .ckpt x => Sys2Proof.Machine.execCkpt x s
  | .rollbk x => Sys2Proof.Machine.execRollbk x s
  | .mmaF16 q => Sys2Proof.Machine.execMmaF16 q s
  | .mmaBf16 q => Sys2Proof.Machine.execMmaBf16 q s
  | .mmaE4m3 q => Sys2Proof.Machine.execMmaE4m3 q s
  | .mmaE5m2 q => Sys2Proof.Machine.execMmaE5m2 q s
  | .mmaI8 q => Sys2Proof.Machine.execMmaI8 q s
  | .mmasE4m3 q => Sys2Proof.Machine.execMmasE4m3 q s
  | .mmasX4 q => Sys2Proof.Machine.execMmasX4 q s
  | .mmaAttemptVerdict core => Sys2Proof.Machine.execMmaAttemptVerdict core s
  | .mmaCorrectionDone core => Sys2Proof.Machine.execMmaCorrectionDone core s
  | .guardStepDone core => Sys2Proof.Machine.execGuardStepDone core s
  | .azero t => Sys2Proof.Machine.execAzero t s
  | .aadd t => Sys2Proof.Machine.execAadd t s
  | .acvt t => Sys2Proof.Machine.execAcvt t s
  | .aloadTile a => Sys2Proof.Machine.execAloadTile a s
  | .aloadMa a => Sys2Proof.Machine.execAloadMa a s
  | .astore fmt a => Sys2Proof.Machine.execAstore fmt a s
  | .scld e4 areg idx cnt inc => Sys2Proof.Machine.execScld e4 areg idx cnt inc s
  | .marv weir cnt => Sys2Proof.Machine.execMarv weir cnt s
  | .mwait weir => Sys2Proof.Machine.execMwait weir s
  | .mregion mode => Sys2Proof.Machine.execMregion mode s
  | .mloop lc cnt off => Sys2Proof.Machine.execMloop lc cnt off s
  | .mjmp clr off => Sys2Proof.Machine.execMjmp clr off s
  | .mend => Sys2Proof.Machine.execMend s
  | .mchk n areg inc => Sys2Proof.Machine.execMchk n areg inc s
  | .msrd sel areg inc => Sys2Proof.Machine.execMsrd sel areg inc s
  | .inj acc core row col bit => Sys2Proof.Machine.execInj acc core row col bit s
  | .copy1d core pos => Sys2Proof.Machine.execCopy1d core pos s
  | .copy2d core pos => Sys2Proof.Machine.execCopy2d core pos s
  | .copyGather core pos => Sys2Proof.Machine.execCopyGather core pos s
  | .copyOperandLoad core pos => Sys2Proof.Machine.execCopyOperandLoad core pos s
  | .copyRemote core pos => Sys2Proof.Machine.execCopyRemote core pos s
  | .copyCommandStart core => Sys2Proof.Machine.execCopyCommandStart core s
  | .copyBeatDone core pos beat => Sys2Proof.Machine.execCopyBeatDone core pos beat s
  | .copyCompletion core pos => Sys2Proof.Machine.execCopyCompletion core pos s
  | .clauseIssuePick core q => Sys2Proof.Machine.execClauseIssuePick core q s
  | .resultCommit w => Sys2Proof.Machine.execResultCommit w s
  | .waveUnpark w => Sys2Proof.Machine.execWaveUnpark w s
  | .bankWakeDone w bank => Sys2Proof.Machine.execBankWakeDone w bank s
  | .bankOffIdle w bank => Sys2Proof.Machine.execBankOffIdle w bank s
  | .bankRetainHeader w bank => Sys2Proof.Machine.execBankRetainHeader w bank s
  | .bankRetainParked w bank => Sys2Proof.Machine.execBankRetainParked w bank s
  | .spBankWakeDone crew bank => Sys2Proof.Machine.execSpBankWakeDone crew bank s
  | .spAutoDrop crew bank => Sys2Proof.Machine.execSpAutoDrop crew bank s
  | .spBankRetain crew bank => Sys2Proof.Machine.execSpBankRetain crew bank s
  | .delayedFault w => Sys2Proof.Machine.execDelayedFault w s
  | .floodgateStop eng key => Sys2Proof.Machine.execFloodgateStop eng key s
  | .launchRecordRead q => Sys2Proof.Machine.execLaunchRecordRead q s
  | .dispatchOpportunity die => Sys2Proof.Machine.execDispatchOpportunity die s
  | .crewComplete crew => Sys2Proof.Machine.execCrewComplete crew s
  | .dormantSave crew => Sys2Proof.Machine.execDormantSave crew s
  | .sliceExpiry ctx => Sys2Proof.Machine.execSliceExpiry ctx s
  | .drainWindowEnd crew => Sys2Proof.Machine.execDrainWindowEnd crew s
  | .lendPoolJoin cluster => Sys2Proof.Machine.execLendPoolJoin cluster s
  | .recall cluster => Sys2Proof.Machine.execRecall cluster s
  | .bucketRefill polder ctl => Sys2Proof.Machine.execBucketRefill polder ctl s
  | .powerMeasure polder watts => Sys2Proof.Machine.execPowerMeasure polder watts s
  | .throttleNotice crew cause => Sys2Proof.Machine.execThrottleNotice crew cause s
  | .meteringFeed polder => Sys2Proof.Machine.execMeteringFeed polder s
  | .usageReport owner n0 n1 => Sys2Proof.Machine.execUsageReport owner n0 n1 s
  | .freeboardWindowClose core => Sys2Proof.Machine.execFreeboardWindowClose core s
  | .islandOff core => Sys2Proof.Machine.execIslandOff core s
  | .islandPowerUp core => Sys2Proof.Machine.execIslandPowerUp core s
  | .islandForceWrite core force => Sys2Proof.Machine.execIslandForceWrite core force s
  | .dclkTgtWrite die tgt => Sys2Proof.Machine.execDclkTgtWrite die tgt s
  | .voltageRiseDone die => Sys2Proof.Machine.execVoltageRiseDone die s
  | .relockDone die => Sys2Proof.Machine.execRelockDone die s
  | .thermalTrip die => Sys2Proof.Machine.execThermalTrip die s
  | .shadowReplay core => Sys2Proof.Machine.execShadowReplay core s
  | .dataErrorDetect kind addr => Sys2Proof.Machine.execDataErrorDetect kind addr s
  | .cacheScrub cluster line => Sys2Proof.Machine.execCacheScrub cluster line s
  | .checkpointTimer ctx => Sys2Proof.Machine.execCheckpointTimer ctx s
  | .undoLogForcedCkpt ctx => Sys2Proof.Machine.execUndoLogForcedCkpt ctx s
  | .undoLogFull ctx => Sys2Proof.Machine.execUndoLogFull ctx s
  | .reeveWaveFault w => Sys2Proof.Machine.execReeveWaveFault w s
  | .firmwareRestart die => Sys2Proof.Machine.execFirmwareRestart die s
  | .doorbellWrite polder a => Sys2Proof.Machine.execDoorbellWrite polder a s
  | .hostBar2Access polder write addr data size => Sys2Proof.Machine.execHostBar2Access polder write addr data size s
  | .hostAtomicop polder op size addr a b => Sys2Proof.Machine.execHostAtomicop polder op size addr a b s
  | .functionLevelReset vf => Sys2Proof.Machine.execFunctionLevelReset vf s
  | .peerAccessIn port fid what addr data size => Sys2Proof.Machine.execPeerAccessIn port fid what addr data size s
  | .peerResponse op data => Sys2Proof.Machine.execPeerResponse op data s
  | .peerTimeout op => Sys2Proof.Machine.execPeerTimeout op s
  | .laneSpareRetrain port => Sys2Proof.Machine.execLaneSpareRetrain port s
  | .regulatorPhaseSpare rail => Sys2Proof.Machine.execRegulatorPhaseSpare rail s
  | .wearRecordAppend w0 w1 w2 w3 => Sys2Proof.Machine.execWearRecordAppend w0 w1 w2 w3 s
  | .attestationReport n0 n1 => Sys2Proof.Machine.execAttestationReport n0 n1 s
  | .powerGoodBoot imgs => Sys2Proof.Machine.execPowerGoodBoot imgs s
  | .moduleReset => Sys2Proof.Machine.execModuleReset s
  | .lifeCycleChange target => Sys2Proof.Machine.execLifeCycleChange target s
  | .registerWrite t v => Sys2Proof.Machine.execRegisterWrite t v s
  | .contextAbort ctx => Sys2Proof.Machine.execContextAbort ctx s
  | .portRetrain port => Sys2Proof.Machine.execPortRetrain port s
  | .portRetrainDone port => Sys2Proof.Machine.execPortRetrainDone port s
  | .hostCommandDoorbell idx => Sys2Proof.Machine.execHostCommandDoorbell idx s
  | .configurationRequest kind v => Sys2Proof.Machine.execConfigurationRequest kind v s

end Sys2Proof.Machine
end

