-- ==== Sys2Proof/Machine/Run.lean ====
section
/-! DEFINITION. How the machine runs: time (R399), the next word of an engine, the steps that are due, the engine whose turn it
is, and the choices that the agenda makes where the spec leaves an order open. -/

namespace Sys2Proof.Machine

-- Time.

/-- INC of a die at a clock code (R200): 512 over the frequency, 20480 / m rounded to the nearest. -/
def clockInc (m : Nat) : Nat := (2 * 20480 + m) / (2 * m)

/-- Cycles of a die's clock in n nanoseconds, at code / 40 GHz; it stands while the PLL relocks (R318, R399). -/
def Die.cycles (x : Die) (n : Nat) : Nat := if x.rel then 0 else (x.phase + n * x.cur) / 40

/-- A die's clock over n nanoseconds. -/
def Die.elapse (x : Die) (n : Nat) : Die :=
  if x.rel then x
  else
    { x with phase := (x.phase + n * x.cur) % 40, cyc := x.cyc + x.cycles n, ncyc := x.ncyc + x.cycles n * clockInc x.cur }

/-- The issue-enabled cycles of a polder on the dies, in sixteenths, over n nanoseconds (R320, R400). -/
def State.polderRuns (s : State) (n p : Nat) : State :=
  s.modPolder p fun x =>
    { x with ran := (List.range 4).foldl (fun t d => tset t d (tget t 0 d + (s.die d).cycles n * s.polderDuty p d)) x.ran }

/-- n nanoseconds pass: the dies' clocks run, and the issue-enabled cycles of polders with a registered barrier word are counted. -/
def State.elapse (s : State) (n : Nat) : State :=
  let s1 := ((s.pkg.barriers.map (·.polder)).dedup).foldl (fun s p => s.polderRuns n p) s
  { s1 with reft := s.reft + n, dies := (List.range 4).map fun d => (d, (s.die d).elapse n) }

-- The engine in focus.

/-- Die of the engine in focus. -/
def State.focusDie (s : State) : Nat := dieOf (if s.onSeq then coreOfCrew s.cur else coreOf s.cur)

/-- The next word of the engine in focus; none while its die's clock stands (R318). -/
def State.front (s : State) : Front :=
  if (s.die s.focusDie).rel then .idle else if s.onSeq then s.nextSeq s.cur else s.nextWord s.cur

/-- The next word of the engine in focus, without the time it takes. -/
def State.runFront (s : State) : Host.Outcome State Fault Refusal :=
  match s.front with
  | .run s1 i => exec i s1
  | .other s1 => .next s1
  | .idle => .next s

/-- Time passes after a step that has a next state. -/
def tick : Host.Outcome State Fault Refusal → Host.Outcome State Fault Refusal
  | .next s => .next (s.elapse 1)
  | .fault f => .fault f
  | .refused r => .refused r

/-- The next word of the engine in focus. -/
def State.runWord (s : State) : Host.Outcome State Fault Refusal := tick s.runFront

-- Choices made outside the model.

/-- A line leaves a cluster's caches, unless it would cross to or from a die whose clock is stopped (R98, R318). -/
def State.evictNow (s : State) (cl line : Nat) : State := if s.linkBusy cl then s else s.evict cl line

/-- An unpinned line leaves an instruction cache (R103). -/
def State.evictI (s : State) (core line : Nat) : State :=
  s.modPkg fun p => { p with icore := tset p.icore core (dropI (tget p.icore [] core) line) }

/-- An unpinned instruction line leaves a cluster cache (R103). -/
def State.evictIClus (s : State) (cl line : Nat) : State :=
  s.modPkg fun p => { p with iclus := tset p.iclus cl (dropI (tget p.iclus [] cl) line) }

/-- A line leaves an L1 data cache; its cluster cache keeps it (R98). -/
def State.evictL1 (s : State) (core line : Nat) : State :=
  s.modPkg fun p => { p with l1 := tset p.l1 core ((tget p.l1 [] core).filter (· ≠ line)) }

/-- A line that is not pinned leaves an L2 slice (R98, R100). -/
def State.evictL2 (s : State) (slice line : Nat) : State :=
  if (tget s.pkg.l2 [] slice).any fun x => x.line == line && s.pinHolds x then s else s.l2Evict slice line

-- Bulk copy engines (R2, R105, R350, R391).

/-- Firmware gives an idle bulk copy engine, four of a die, n bytes to copy for a polder. A die on which none works begins to count the
polders' shares anew. -/
def State.bulkStart (s : State) (e p src dst n : Nat) : State :=
  if decide (16 ≤ e) || (tfind s.pkg.bulk e).isSome || !s.polderValid p then s
  else
    let busy := s.pkg.bulk.any fun j => j.1 / 4 == e / 4
    s.modPkg fun k =>
      { k with bulk := tset k.bulk e { polder := p, src := src, dst := dst, left := n },
               bulkUsed := if busy then k.bulkUsed else k.bulkUsed.filter fun u => u.1 / 32 ≠ e / 4 }

/-- BULK of a polder (R350). -/
def State.bulkShare (s : State) (p : Nat) : Nat := bits (s.polderWord p 5) 7 0

/-- The engine may move bytes now: no other polder at work on its die has had less for its share. -/
def State.bulkTurn (s : State) (e : Nat) (j : BulkJob) : Bool :=
  let used (p : Nat) : Nat := tget s.pkg.bulkUsed 0 (e / 4 * 32 + p)
  s.pkg.bulk.all fun o => o.1 / 4 != e / 4 || o.2.polder == j.polder
    || decide (used j.polder * s.bulkShare o.2.polder ≤ used o.2.polder * s.bulkShare j.polder)

/-- A bulk copy engine moves up to 256 bytes at home (R105); one that meets an error in memory ends. -/
def State.bulkBeat (s : State) (e : Nat) : State :=
  match tfind s.pkg.bulk e with
  | none => s
  | some j =>
    let n := min 256 j.left
    let held := (s.die (e / 4)).rel || [j.src, j.dst].any fun a => (s.die (s.homeDieOf j.polder a)).rel
    if held || !s.bulkTurn e j then s
    else if (linesOf j.src n).any s.homeBad then
      s.modPkg fun k => { k with bulk := tdel k.bulk e }
    else
      let at' := e / 4 * 32 + j.polder
      let s1 := (s.chargeHome (some (16 * j.polder)) j.src n).chargeHome (some (16 * j.polder)) j.dst n
      ((s1.heal (wholeOf j.dst n)).homeStore none j.dst (s.homeBytes j.src n)).modPkg fun k =>
        { k with bulk := if j.left = n then tdel k.bulk e
                         else tset k.bulk e { j with src := j.src + n, dst := j.dst + n, left := j.left - n },
                 bulkUsed := tset k.bulkUsed at' (tget k.bulkUsed 0 at' + n) }

-- Errors and outside writes.

/-- A parity error arises in a register bank (R48): found at its next wake if the bank holds its contents in RETAIN. -/
def State.spoilBank (s : State) (w : Key) (b : Nat) : State :=
  s.modWave w fun x => if (x.bank b).st == .retain then x.setBank b { x.bank b with bad := true } else x

/-- A parity error arises in a scratchpad bank (R93). -/
def State.spoilSp (s : State) (c b : Nat) : State :=
  s.modCrew c fun x => if (x.bank b).st == .retain then x.setBank b { x.bank b with bad := true } else x

/-- An error that cannot be corrected arises in a dirty line of a cluster's caches (R384). -/
def State.spoilLine (s : State) (cl line : Nat) : State :=
  if (s.dcache cl).any fun e => e.1 / 128 == line && e.2.dirty then
    s.modPkg fun p => { p with lineBad := (cl, line) :: p.lineBad.filter (· ≠ (cl, line)) }
  else s

/-- An error that cannot be corrected arises in a dirty line of an L2 slice (R384, R402). -/
def State.spoilL2 (s : State) (line : Nat) : State :=
  s.modPkg fun p => { p with l2 := p.l2.map fun t =>
    (t.1, t.2.map fun x => if x.line == line && x.old.isSome then { x with bad := true } else x) }

/-- A debugger stops a running wave of a context with DBG as a breakpoint would (R207, R334). -/
def State.debugStop (s : State) (w : Key) : State :=
  match s.ctxOf w with
  | some c => if s.ctxDbg c && (s.wave w).here && !(s.wave w).stopped then s.raiseWave w .brk 0 else s
  | none => s

/-- A byte outside the module changes: host memory or a peer's (R408). -/
def State.outside (s : State) (addr : Nat) (b : Byte) : State :=
  if regionOf addr == .host || regionOf addr == .peer then s.pokeBytes addr [b] else s

/-- The sequencer in focus stores rows of its next ASTORE (R307). -/
def State.rowsOf (s : State) (rs : List Nat) : State :=
  match s.onSeq, s.front with
  | true, .run s1 i => s1.someRows i rs
  | _, _ => s

/-- What acts while the boot sequence runs, or has stopped (R415, R418): the controller's boot steps, requests of the host and of peers,
which are answered or refused, a further power-good or reset, and what lies outside; a life-cycle change unless boot has stopped. -/
def State.actsInBoot (s : State) : Act → Bool
  | .event i =>
    match i with
    | .configurationRequest .. | .hostBar2Access .. | .hostAtomicop .. | .doorbellWrite .. | .peerAccessIn .. | .powerGoodBoot ..
    | .moduleReset => true
    | .lifeCycleChange _ => !s.pkg.bootStopped
    | _ => false
  | .focus _ _ | .elapse _ | .outsideWrite _ _ | .bootStep => true
  | _ => false

/-- What an entry of the agenda does, the boot sequence being over. -/
def State.act1 (s : State) : Act → Host.Outcome State Fault Refusal
  | .event i => exec i s
  | .word => s.runWord
  | .focus k q => .next { s with cur := k, onSeq := q }
  | .elapse n => .next (s.elapse n)
  | .evictLine cl line => .next (s.evictNow cl line)
  | .evictILine core line => .next (s.evictI core line)
  | .evictIClus cl line => .next (s.evictIClus cl line)
  | .evictL1 core line => .next (s.evictL1 core line)
  | .evictL2 slice line => .next (s.evictL2 slice line)
  | .evictWalk i => .next (s.modPkg fun p => { p with walks := p.walks.eraseIdx i })
  | .bulkStart e p src dst n => .next (s.bulkStart e p src dst n)
  | .bulkBeat e => .next (s.bulkBeat e)
  | .evictTlb i => .next (s.modPkg fun p => { p with tlb := p.tlb.eraseIdx i })
  | .outsideWrite a b => .next (s.outside a b)
  | .bankParity w b => .next (s.spoilBank w b)
  | .spParity c b => .next (s.spoilSp c b)
  | .memError l => .next (s.modPkg fun p => { p with eccBad := l :: p.eccBad.filter (· ≠ l) })
  | .lineError cl l => .next (s.spoilLine cl l)
  | .debugStop w => .next (s.debugStop w)
  | .storeRows rs => .next (s.rowsOf rs)
  | .l2Error l => .next (s.spoilL2 l)
  | .portSilent port on => .next (s.silence port on)
  | .bootStep => .next s.bootStep
  | .cooled d => .next (s.cooled d)

/-- What an entry of the agenda does; during boot, and where boot has stopped, little does anything (R415, R418). -/
def State.act (s : State) (a : Act) : Host.Outcome State Fault Refusal :=
  if s.pkg.boot == 6 || s.actsInBoot a then s.act1 a else .next s

-- Steps that are due.

/-- What may be due for a wave. -/
def waveDue (k : Key) (w : Wave) : List Instr :=
  let held := match w.held with | h :: _ => h.bad.isSome | [] => false
  (if w.pend = [] && !w.exitWait then [] else [.resultCommit k])
    ++ (match w.park with
        | some (.ldwatch _ _) => [.ldwatchWake k]
        | some (.sleep _) => [.sleepDeadline k]
        | some (.acqx _) => [.acqxGrant (coreOf k) (quadOf k)]
        | some _ => [.waveUnpark k]
        | none => [])
    ++ (if w.held.head?.any (·.fifo) then [.waveUnpark k] else [])
    ++ (if held then [if isReeveCore (coreOf k) then .reeveWaveFault k else .delayedFault k] else [])
    ++ (w.banks.map (·.1)).flatMap (fun b => [.bankWakeDone k b, .bankOffIdle k b, .bankRetainHeader k b, .bankRetainParked k b])
    ++ (w.pend.filterMap fun p => match p.why with | some (.scw c n) => some (.scwComplete c n) | _ => none)

/-- What may be due for a crew. -/
def crewDue (c : Key) (x : Crew) : List Instr :=
  (x.spb.map (·.1)).flatMap (fun b => [.spBankWakeDone c b, .spdropComplete c b, .spAutoDrop c b, .spBankRetain c b])
    ++ (x.tagq.map fun t => .tagWaitServed (coreOfCrew c) (cslotOf c) t.word)
    ++ [.crewComplete c, .drainWindowEnd c, .dormantSave c]

/-- The row that moves the data of a copy command. -/
def copyRow (core pos kind : Nat) : Instr :=
  match kind with
  | 0 => .copy1d core pos
  | 1 => .copy2d core pos
  | 2 => .copyGather core pos
  | 3 => .copyOperandLoad core pos
  | _ => .copyRemote core pos

/-- What may be due for a core. -/
def coreDue (n : Nat) (x : CoreSt) : List Instr :=
  [.mmaAttemptVerdict n, .mmaCorrectionDone n, .guardStepDone n, .islandOff n, .islandPowerUp n]
    ++ [.copyCommandStart n]
    ++ (x.copyq.zipIdx.flatMap fun e => [copyRow n e.2 e.1.cmd.kind.toNat, .copyCompletion n e.2])
    ++ (x.obWait.map (·.1)).flatMap (fun i => [.obresInstall n i, .obrelClear n i])

/-- Objects whose table entries hold a byte that is not 0. -/
def State.listed (s : State) (base size count : Nat) : List Nat :=
  ((s.mem.filter fun e => decide (base ≤ e.1) && decide (e.1 < base + size * count)).map fun e => (e.1 - base) / size).dedup

/-- Contexts with a descriptor. -/
def State.listedCtxs (s : State) : List Nat := s.listed dtBase 64 512
/-- Polders with a table entry. -/
def State.listedPolders (s : State) : List Nat := s.listed ptBase 512 32
/-- Queues with a table entry. -/
def State.listedQueues (s : State) : List Nat := s.listed qtBase 32 1024

/-- What may be due for a polder: refills at each µs and feeds at each 100 µs (R365, R368). -/
def State.polderDue (s : State) (p : Nat) : List Instr :=
  (if s.reft % 1000 = 0 then ((List.range 40).filter fun c => s.tokenRate p c != 0).map (.bucketRefill p) else [])
    ++ (if (s.polder p).fedAt + 100000 ≤ s.reft then [.meteringFeed p] else [])

/-- What may be due for a die. -/
def State.dieDue (s : State) (d : Nat) : List Instr :=
  (if (s.die d).evq = [] then [] else (reeveWaves d).map .waveUnpark)
    ++ [.firmwareRestart d, .voltageRiseDone d]
    ++ (if (s.die d).relockAt + 2000 ≤ s.reft then [.relockDone d] else [])
    ++ (if s.launches = [] && s.saved = [] then [] else [.dispatchOpportunity d])

/-- A polder lends, or a cluster is lent (R362). -/
def State.mayLend (s : State) : Bool :=
  s.listedPolders.any (fun p => (s.polderWord p 0).getLsbD 62) || s.clusters.any fun e => e.2.lent || e.2.lendable.isSome

/-- The stops that a raised floodgate may still bring (R375 to R377). -/
def State.stopsDue (s : State) : List Instr :=
  if s.ctxs.any fun e => e.2.up then
    s.waves.map (fun e => .floodgateStop 0 e.1) ++ s.crews.map (fun e => .floodgateStop 1 e.1)
      ++ s.cores.map (fun e => .floodgateStop 2 e.1) ++ (List.range 4).map (.floodgateStop 3)
  else []

/-- Everything that may be due. -/
def State.candidates (s : State) : List Instr :=
  s.stopsDue ++ s.waves.flatMap (fun e => waveDue e.1 e.2)
    ++ s.crews.flatMap (fun e => crewDue e.1 e.2)
    ++ s.cores.flatMap (fun e => coreDue e.1 e.2)
    ++ (if s.reft % 10000 = 0 then s.cores.map fun e => .freeboardWindowClose e.1 else [])
    ++ s.ctxs.flatMap (fun e => [.undoLogForcedCkpt e.1, .undoLogFull e.1, .sliceExpiry e.1])
    ++ (s.ctxs.filter fun e => s.abortsNow e.1).map (fun e => .contextAbort e.1)
    ++ s.listedCtxs.map .checkpointTimer
    ++ s.listedQueues.map .launchRecordRead
    ++ s.listedPolders.flatMap s.polderDue
    ++ (List.range 4).flatMap s.dieDue
    ++ (if s.mayLend then (List.range 32).flatMap fun c => [.recall c, .lendPoolJoin c] else [])
    ++ s.pkg.peerOps.map (fun o => .peerTimeout o.id)
    ++ s.ctxs.flatMap (fun e => (e.2.scopes.filter fun x => x.2.old != []).map fun x => .scwComplete e.1 x.1)
    ++ s.pkg.flr.map (fun p => .functionLevelReset (p + 1))
    ++ s.pkg.phaseStep.map (fun e => .regulatorPhaseSpare e.1)

/-- The state after a step, if it changes. -/
def State.changed (s : State) (o : Host.Outcome State Fault Refusal) : Option State :=
  match o with
  | .next s1 => if s1 = s then none else some s1
  | .fault _ | .refused _ => none

/-- The first step that is due. -/
def State.due (s : State) : Option Instr := s.candidates.find? fun i => (s.changed (exec i s)).isSome

-- Turns.

/-- What takes turns: a quadrant of a core, or a crew's matrix sequencer. -/
inductive Turn
  | quad (core q : Nat)
  | seq (crew : Key)
  deriving DecidableEq, Repr

/-- The quadrants that hold waves, and the sequencers. -/
def State.turns (s : State) : List Turn :=
  (s.waves.map fun e => Turn.quad (coreOf e.1) (quadOf e.1)).dedup
    ++ (s.crews.filter fun e => e.2.seq.st != .off).map fun e => Turn.seq e.1

/-- Whose turn the engine in focus has. -/
def State.focusTurn (s : State) : Turn := if s.onSeq then .seq s.cur else .quad (coreOf s.cur) (quadOf s.cur)

/-- The turns in rotation, that of the engine in focus last. -/
def State.rotation (s : State) : List Turn :=
  let ts := s.turns
  (ts.dropWhile (· ≠ s.focusTurn)).drop 1 ++ ts.takeWhile (· ≠ s.focusTurn) ++ (if ts.contains s.focusTurn then [s.focusTurn] else [])

/-- A turn taken: the next word of a clause that a quadrant is inside, else its choice of the next clause (R25), or the next
word of a sequencer. None where nothing changes. -/
def State.take (s : State) (t : Turn) : Option State :=
  match t with
  | .seq c =>
    let s1 := { s with cur := c, onSeq := true }
    s1.changed s1.runFront
  | .quad core q =>
    if (s.die (dieOf core)).rel then none
    else
      let word := (tget (s.core core).quads {} q).inClause.bind fun k =>
        let s1 := { s with cur := k, onSeq := false }
        s1.changed s1.runFront
      match word with
      | some s1 => some s1
      | none => s.changed (exec (.clauseIssuePick core q) s)

/-- The clause of the engine in focus goes on. -/
def State.goOn (s : State) : Option State :=
  if s.onSeq || (s.wave s.cur).clause.isSome then s.changed s.runFront else none

/-- The turn that is taken: the clause in focus first, then in rotation. -/
def State.turn (s : State) : Option State :=
  match s.goOn with
  | some s1 => some s1
  | none => s.rotation.findSome? s.take

/-- What the machine does of itself: the next step of a boot in progress (R415); else a line leaves a cluster cache that is over full (R98), a step that is due is made, else a turn, else nothing but time passes. -/
def State.own (s : State) : Host.Outcome State Fault Refusal :=
  if s.pkg.boot ≠ 6 then .next (s.bootStep.elapse 1)
  else
  match s.overfull.filter fun cl => !s.linkBusy cl with
  | some cl => .next (s.makeRoom cl)
  | none =>
  match s.due with
  | some i => exec i s
  | none =>
    match s.turn with
    | some s1 => .next (s1.elapse 1)
    | none => .next (s.elapse 1)

-- Placing a word.

/-- A class and a place in a clause of two words that accept a word: the class, and whether the word is the clause's last (R163). -/
def placeFor (w : Dword) : Nat × Bool :=
  (((List.range 5).flatMap fun c => [(c, true), (c, false)]).find? fun p => classAccepts p.1 p.2 w).getD (0, true)

/-- Virtual page of a placed word. -/
def placeVa : Nat := 0x1000
/-- Frame that the page maps to. -/
def placeFrame : Nat := 0x0_1020_0

/-- A page-table entry: a frame, with V, and at a leaf RD, WR, EX, U, A. -/
def pteWord (frame : Nat) (leaf : Bool) : Dword := BitVec.ofNat 64 (frame * 4096 + if leaf then 0x3F else 0x1)

/-- The walk of R371 for the page: five levels of tables, one after another, above its frame. -/
def State.mapPlace (s : State) : State :=
  (List.range 5).foldl
    (fun s i => s.poke64 (pteAddr ((fwRoot + i) * 4096) (4 - i) placeVa)
      (if i = 4 then pteWord placeFrame true else pteWord (fwRoot + i + 1) false)) s

/-- A word stored after a clause header in the firmware address space, and reeve wave 0 of die 0 inside that clause, its quadrant's, with every
lane at the word (R161, R186). -/
def State.placeWord (s : State) (w : Dword) : State :=
  let k := waveKey (crewKey (reeveCore 0) 0) 0
  let (cls, last) := placeFor w
  let hdr := packH { count := if last then 0 else 1, cls := BitVec.ofNat 3 cls }
  let s1 := ((s.mapPlace).poke64 (placeFrame * 4096) hdr).poke64 (placeFrame * 4096 + 8) w
  let s2 := s1.modQuad (coreOf k) (quadOf k) fun q => { q with inClause := some k }
  { s2.modWave k (fun x => { x with clause := some { hdrAt := placeVa, hdr := hdr, pos := 0 }, group := BitVec.allOnes 32, calls := [],
                                    lst := Vector.replicate 32 LaneState.live, lpc := Vector.replicate 32 (BitVec.ofNat 64 (placeVa + 8)),
                                    jpark := Vector.replicate 32 none, park := none, parkI := none, stopped := false, exitWait := false,
                                    done := false }) with
    cur := k, onSeq := false, agenda := [.word] }

end Sys2Proof.Machine
end

