-- ==== Sys2Proof/Machine/Step.lean ====
section
/-! DEFINITION. One step of the machine, and the placing of a word where the next step fetches it. -/

/-- One step: what the agenda says next; without an agenda what the machine does of itself, and nothing where boot has stopped
(R415). -/
def Sys2Proof.Machine.step (s : Sys2Proof.Machine.State) :
    Host.Outcome Sys2Proof.Machine.State Sys2Proof.Machine.Fault Sys2Proof.Machine.Refusal :=
  match s.agenda with
  | a :: r => ({ s with agenda := r } : Sys2Proof.Machine.State).act a
  | [] => if s.pkg.bootStopped then .fault .bootStopped else s.own

/-- The state with an instruction word placed where the next step runs it. -/
def Sys2Proof.Machine.State.withFetchWord (s : Sys2Proof.Machine.State) (nbits w : Nat) : Sys2Proof.Machine.State :=
  s.placeWord (BitVec.ofNat 64 (w % 2 ^ nbits))
end

