-- ==== Sys2Proof/Safety.lean ====
section
/-! DEFINITION. The terms in which claims about the machine are made: when a word can issue, what a word that has issued
leaves as it was, and where its results stand. -/

namespace Sys2Proof.Machine

-- When a word can issue.

/-- Nothing keeps the word from issuing (R44, R49 to R52, R164 steps 4 to 6): no interlock, every vector register inside the
allotment, every register it reads LIVE, and no bank of the wave that lost its contents in RETAIN (R48). -/
def State.mayIssue (s : State) (i : Instr) : Prop :=
  interlock (s.wave s.cur) (opdsOf i) (lkOf i) = false ∧ budgetBad (s.wave s.cur) (opdsOf i) = none ∧
    deadReg (s.wave s.cur) (opdsOf i) = none ∧
    ∀ b, ((s.wave s.cur).bank b).st = .retain → ((s.wave s.cur).bank b).bad = false

/-- The lanes in which a word executes: those of the running group that satisfy its predicate (R165). -/
def State.actOf (s : State) (i : Instr) : LaneMask := (s.wave s.cur).act (lkOf i).pr (lkOf i).pn

/-- The wave in focus with the banks awake that the word reads (R45). -/
def State.readWave (s : State) (i : Instr) : Wave := ((s.wave s.cur).wake (banksOf (opdsOf i) fun o => o.reads)).1

/-- The wave in focus after the last uses of a word, which take effect where it executes in every lane that has not exited
(R43). -/
def State.usedWave (s : State) (i : Instr) : Wave :=
  if s.actOf i = (s.wave s.cur).nonExited then (s.wave s.cur).lastUses (opdsOf i) else s.wave s.cur

-- What a word leaves as it was.

/-- Outside the wave in focus a word changes only what counts it: LUIGN and the count of issued words of its crew (R43, R357),
its quadrant's count (R25), and the slice count of its context (R357). -/
structure OnlyCounts (s t : State) : Prop where
  rest : t = { s with waves := t.waves, crews := t.crews, cores := t.cores, ctxs := t.ctxs }
  waves : ∀ k, k ≠ s.cur → t.wave k = s.wave k
  crews : ∀ c, t.crew c =
    { s.crew c with luign := (t.crew c).luign, issued := (t.crew c).issued, dormant := (t.crew c).dormant }
  cores : ∀ n, t.core n = { s.core n with quads := (t.core n).quads }
  ctxs : ∀ c, t.ctx c = { s.ctx c with slice := (t.ctx c).slice }

/-- Of the wave in focus a word changes only its registers and their liveness, its banks' supply, its pending results and
slots, FPFLAGS and SRSEED, and where it stands: the running group goes on to the next word. -/
structure OnlyRegs (w u : Wave) : Prop where
  rest : u = { w with v := u.v, vlive := u.vlive, sreg := u.sreg, slive := u.slive, kreg := u.kreg, sb := u.sb, pend := u.pend,
                      banks := u.banks, fpflags := u.fpflags, srseed := u.srseed, lpc := u.lpc, clause := u.clause,
                      group := u.group, park := none, parkI := none }
  lpc : ∀ l : Fin 32, u.lpc[l] = if inMask w.group l then w.lpc[l] + 8 else w.lpc[l]

/-- The word has gone by: nothing outside its wave but counts, and in its wave nothing but registers and its place. -/
def State.ran (s t : State) : Prop := OnlyCounts s t ∧ OnlyRegs (s.wave s.cur) (t.wave s.cur)

/-- FPFLAGS, the generators and the slots are as they were, and every open window is one instruction shorter (R50, R71, R74). -/
def Wave.plain (w u : Wave) : Prop :=
  u.fpflags = w.fpflags ∧ u.srseed = w.srseed ∧ u.sb = w.sb ∧ u.pend = w.pend.map fun p => { p with remain := p.remain - 1 }

-- Where results stand.

/-- The n vector registers from r hold f in the lanes of m; in the other lanes they keep their values, or read 0 where the
register was DEAD (R41); all are LIVE. Every other register is as it was. -/
structure WroteV (w u : Wave) (r n : Nat) (m : LaneMask) (f : Fin 32 → Nat) : Prop where
  v : ∀ q l, u.rv q l =
    if r ≤ q ∧ q < r + n ∧ m ≠ 0 then
      if inMask m l then wordAt (f l) (q - r) else if w.isLive .v q then w.rv q l else 0
    else w.rv q l
  live : ∀ q, q < 256 → u.isLive .v q = (decide (r ≤ q ∧ q < r + n ∧ m ≠ 0) || w.isLive .v q)
  s : u.sreg = w.sreg ∧ u.slive = w.slive
  k : u.kreg = w.kreg

/-- The n scalar registers from r hold a value and are LIVE, unless the word executes in no lane; every other register is as it
was. -/
structure WroteS (w u : Wave) (r n : Nat) (m : LaneMask) (x : Nat) : Prop where
  s : ∀ q, u.rs q = if r ≤ q ∧ q < r + n ∧ m ≠ 0 then wordAt x (q - r) else w.rs q
  live : ∀ q, q < 64 → u.isLive .s q = (decide (r ≤ q ∧ q < r + n ∧ m ≠ 0) || w.isLive .s q)
  v : u.v = w.v ∧ u.vlive = w.vlive
  k : u.kreg = w.kreg

/-- Mask register d takes the bits f in the lanes of m; k0 stays all ones (R35). Every other register is as it was. -/
structure WroteK (w u : Wave) (d : Nat) (m : LaneMask) (f : Fin 32 → Bool) : Prop where
  k : ∀ q, u.k q = if q = d ∧ q ≠ 0 then (w.k q &&& ~~~m) ||| (laneMask f &&& m) else w.k q
  v : u.v = w.v ∧ u.vlive = w.vlive
  s : u.sreg = w.sreg ∧ u.slive = w.slive

/-- No register has been written. -/
structure WroteNone (w u : Wave) : Prop where
  v : u.v = w.v ∧ u.vlive = w.vlive
  s : u.sreg = w.sreg ∧ u.slive = w.slive
  k : u.kreg = w.kreg

/-- A long-latency word (R50) has left a result in the commit buffer: no register is written yet, the result stands behind the
older ones with the word's LOOK as its window, attributed to the word (R48), and its slot counts up. A word that executes in no lane leaves none. -/
structure Posted (w u : Wave) (i : Instr) (file : RFile) (r n : Nat) (m : LaneMask) (f : Fin 32 → Nat) : Prop where
  regs : WroteNone w u
  pend : u.pend = (w.pend.map fun p => { p with remain := p.remain - 1 }) ++
    if m = 0 then []
    else [{ file := file, reg := r, n := n, mask := m, remain := (lkOf i).look, slot := (lkOf i).slot,
            word := (encodeWave i).getD 0, data := (List.range n).map fun j => Vector.ofFn fun l => wordAt (f l) j }]
  sb : u.sb = if m = 0 then w.sb else match (lkOf i).slot with | some q => tset w.sb q (tget w.sb 0 q + 1) | none => w.sb

-- Words with effects of their own.

/-- The state in which the body of a word runs. -/
def State.begun (s : State) (i : Instr) : State := s.setWave s.cur (s.readWave i)

/-- The word i, whose effects have led to this state, retires with its results (R43, R44); what that changes is stated on its own
(`Obligations.RetirementFrame`). -/
def State.retired (s : State) (k : Key) (i : Instr) (res : List Res) (adv : Adv := .step) : State :=
  s.retire k i res adv

/-- A word runs to its end: its effects give s2, its results are res. -/
def runsTo (s : State) (i : Instr) (s2 : State) (res : List Res) (adv : Adv := .step) : Prop :=
  exec i s = .next (s2.retired s.cur i res adv)

/-- A wave-level word runs (R185): in no lane it only retires; else its effects are f on the state in which it began. -/
def waveLevelRuns (s : State) (i : Instr) (f : State → State) : Prop :=
  runsTo s i (if s.actOf i = 0 then s.begun i else f (s.begun i)) []

/-- A word parks its wave before it has issued (R27): nothing retires, and the wave waits at the word, its quadrant given up
(R25). -/
def parksAt (s : State) (i : Instr) (s2 : State) (p : Park) : Prop :=
  exec i s = .next
    ((s2.modWave s.cur fun w => { w with park := some p, parkI := some i, parkSince := s2.reft }).leaveQuad s.cur)

/-- A word issues and parks its wave, its results to come when the park ends (R44, R52): its last uses, its slots and its pending
results take effect now, but the last uses of LDWATCH, which reads its operands until it is complete (log 79). -/
def issuesAndParks (s : State) (i : Instr) (s2 : State) (p : Park) (res : List Res) : Prop :=
  exec i s = .next
    ((((if p.readsOn then s2 else s2.useSources s.cur i).takeEffect s.cur i res).modWave s.cur fun w =>
      { w with park := some p, parkI := some i, parkSince := s2.reft }).leaveQuad s.cur)

/-- A word faults: it has no effect but the exception (R44, R378). -/
def faultsWith (s : State) (i : Instr) (cls : FClass) (det : Dword) : Prop :=
  exec i s = .next (s.raiseWave s.cur cls det ((encodeWave i).getD 0))

/-- A memory word of the wave in focus waits neither behind a held access (R34) nor behind a path fence towards its path
(R254). -/
def State.gateOpen (s : State) (path : Nat) : Prop :=
  (s.wave s.cur).held = [] ∧ ((s.wave s.cur).fences.any fun f => f.1 == path) = false

/-- A wave-level word on a range of addresses runs (R185, R255, R257): in no lane it only retires; else it does f on the mapped parts of
its range that the access kind may use, or is held at issue while a walk waits for a stopped clock (R318). -/
def State.rangeRuns (s : State) (i : Instr) (x : MF) (a : Acc) (f : List (Nat × Nat × Nat) → State → State) : Prop :=
  (s.actOf i = 0 → runsTo s i (s.begun i) []) ∧
    (s.actOf i ≠ 0 → ∀ ps b, (s.begun i).wordRange s.cur x a = some (ps, b) → runsTo s i (f ps b) []) ∧
    (s.actOf i ≠ 0 → (s.begun i).wordRange s.cur x a = none → exec i s = .next s)

-- Privileged words.

/-- The privileged words but ERET, with their fields and the alignment of their areas (R342). -/
def privWord : Instr → Option (MF × Nat)
  | .tlbinv x | .resume x | .flood x | .ckpt x | .rollbk x => some (x, 0)
  | .ctxsave x => some (x, 4096)
  | .ctxload x => some (x, 1024)
  | .stoprd x => some (x, 64)
  | .dirtyh _ x => some (x, 8)
  | _ => none

/-- A privileged word runs to its end with the result r, STATUS and VALUE, in the scalar register behind its handle (R341). -/
def privRuns (s : State) (i : Instr) (x : MF) (s2 : State) (r : Nat) : Prop :=
  runsTo s i s2 [resS (x.d.toNat + 1) 1 (s.actOf i) r]

-- Stream words.

/-- The sequencer in focus may issue a word (R285, R288). -/
def State.seqLive (s : State) : Prop := (s.crew s.seqKey).seq.live = true

/-- The sequencer in focus issues this word when its turn comes: it runs, and the word waits for no product (R285, R287, R288). -/
def State.seqReady (s : State) (i : Instr) : Prop :=
  s.seqLive ∧ (s.core (coreOfCrew s.seqKey)).seqHeld (cslotOf s.seqKey) i = false

/-- A stream word acts, and the sequencer goes on at the next word or at a target (R288). -/
def seqRuns (s : State) (i : Instr) (s2 : State) (target : Option Nat) : Prop :=
  exec i s = .next (s2.seqAt s.seqKey (target.getD ((s.crew s.seqKey).seq.mpc + 8)))

/-- A stream word faults: it has no effect but the exception (R288). -/
def seqFaults (s : State) (i : Instr) (cls : FClass) (det : Dword) : Prop :=
  exec i s = .next (s.raiseSeq s.seqKey cls det ((encodeSeq i).getD 0))

/-- The matrix products, with their fields (R290). -/
def mmaWord : Instr → Option QF
  | .mmaF16 q | .mmaBf16 q | .mmaE4m3 q | .mmaE5m2 q | .mmaI8 q | .mmasE4m3 q | .mmasX4 q => some q
  | _ => none

-- Memory words.

/-- The lanes of a memory word can be performed at once: no checked lane faults (R244, R245), every page is mapped and allows the
access (R371), no lane is held by a relock (R318) or waits for a token (R365), no checked lane finds an error (R384), and none waits for
a peer (R414); s1 is the state once the addresses are translated and the arrivals at barrier words stamped (R319), ls the lanes that are
performed, with their addresses on the bus and HOMEs. -/
def State.accReady (s : State) (i : Instr) (s1 : State) (ls : List (LaneAcc × Nat × Nat)) : Prop :=
  accFault (accSize i) (accLanes i (s.wave s.cur)) = none ∧
    ∃ s0 tr, trLanes s.cur (accSize i) (accOf i) (accLanes i (s.wave s.cur)) (s.begun i) = .ok s0 tr ∧
      s1 = s0.stampLanes i s.cur tr ∧ s1.accHeld i s.cur tr = false ∧ s1.accEcc (accOf i) i s.cur tr = none ∧
      ls = s1.servedLanes (accOf i) s.cur (accSize i) tr ∧ s1.waitingLanes (accOf i) s.cur (accSize i) ls = []

/-- The plain loads and stores. -/
def plainAcc : Instr → Bool
  | .ldVector .. | .ldScalar .. | .stVector .. | .stScalar .. => true
  | _ => false

/-- The atomic words, with their fields. -/
def atomAcc : Instr → Option MF
  | .atom _ x | .atomcas x | .red _ x => some x
  | _ => none

/-- A write at home by an engine of a context, or by firmware (none), stores its bytes and does no more: outside the device EXTW is
set already (R389), and inside it the context's writes are not logged (R387). -/
def State.writesPlain (s : State) (c : Option Nat) (pa : Nat) : Prop :=
  ∀ x, c = some x →
    if regionOf pa = .host ∨ regionOf pa = .peer then s.ctxExtw x = true else (s.ctx x).logging = false

/-- What a byte reads as once the host or a peer has stored b over it: the bits that a store does not change stay (R7, R386). -/
def State.storedOver (s : State) (a : Nat) (b : Byte) : Byte := (s.homeByte a &&& ~~~s.maskAt a) ||| (b &&& s.maskAt a)

/-- Byte a is one of n from pa. -/
def within (pa n a : Nat) : Prop := pa ≤ a ∧ a < pa + n

/-- A store of n bytes creates no context with its first bytes whose checkpoint directory holds the later ones: it is of one byte, or
outside the table of descriptors. -/
def plainBytes (pa n : Nat) : Prop := n ≤ 1 ∨ ∀ a, within pa n a → ¬within dtBase (64 * 512) a

-- The values of the integer words.

/-- What the rules give a word of integer shape: its form (scalar or vector), its fields, the registers of its destination, and
the value of its operands. -/
structure IntRule where
  sf : Bool
  x : VF
  n : Nat
  op : Srcs → Nat

/-- The arithmetic words (R211, R212), w being the width of the type. -/
def arithRule : Instr → Option IntRule
  | .iadd sf ty x => some ⟨sf, x, ty.regs, fun o => (o.a + o.b) % 2 ^ tyBits ty⟩
  | .isub sf ty x => some ⟨sf, x, ty.regs, fun o => (o.a + (2 ^ tyBits ty - o.b % 2 ^ tyBits ty)) % 2 ^ tyBits ty⟩
  | .imul sf ty x => some ⟨sf, x, ty.regs, fun o => o.a * o.b % 2 ^ tyBits ty⟩
  | .imulh sf ty x => some ⟨sf, x, ty.regs, fun o =>
      if ty.signed then wrapOf (tyBits ty) (sgnOf (tyBits ty) o.a * sgnOf (tyBits ty) o.b / (2 ^ tyBits ty : Nat))
      else o.a * o.b / 2 ^ tyBits ty % 2 ^ tyBits ty⟩
  | .imad sf ty x => some ⟨sf, x, ty.regs, fun o => (o.a * o.b + o.c) % 2 ^ tyBits ty⟩
  | .imadw sf ty x => some ⟨sf, x, 2, fun o =>
      if ty.signed then wrapOf 64 (sgnOf 32 o.a * sgnOf 32 o.b + o.c) else (o.a * o.b + o.c) % 2 ^ 64⟩
  | .imin sf ty x => some ⟨sf, x, ty.regs, fun o =>
      if ty.signed then (if sgnOf (tyBits ty) o.b < sgnOf (tyBits ty) o.a then o.b else o.a) else (if o.b < o.a then o.b else o.a)⟩
  | .imax sf ty x => some ⟨sf, x, ty.regs, fun o =>
      if ty.signed then (if sgnOf (tyBits ty) o.a < sgnOf (tyBits ty) o.b then o.b else o.a) else (if o.a < o.b then o.b else o.a)⟩
  | .iabs sf ty x => some ⟨sf, x, ty.regs, fun o =>
      if 0 ≤ sgnOf (tyBits ty) o.a then o.a else wrapOf (tyBits ty) (-(sgnOf (tyBits ty) o.a))⟩
  | .ineg sf ty x => some ⟨sf, x, ty.regs, fun o => wrapOf (tyBits ty) (-(sgnOf (tyBits ty) o.a))⟩
  | _ => none

/-- The logical words and MOV (R216, R217, R222). -/
def logicRule : Instr → Option IntRule
  | .and sf ty x => some ⟨sf, x, ty.regs, fun o => o.a &&& o.b⟩
  | .or sf ty x => some ⟨sf, x, ty.regs, fun o => o.a ||| o.b⟩
  | .xor sf ty x => some ⟨sf, x, ty.regs, fun o => o.a ^^^ o.b⟩
  | .not sf ty x => some ⟨sf, x, ty.regs, fun o => 2 ^ tyBits ty - 1 - o.a % 2 ^ tyBits ty⟩
  | .tlog sf t x => some ⟨sf, x, 1, fun o =>
      ofBits 32 fun n => t.getLsbD ((o.a / 2 ^ n % 2) + 2 * (o.b / 2 ^ n % 2) + 4 * (o.c / 2 ^ n % 2))⟩
  | .mov sf ty x => some ⟨sf, x, ty.regs, fun o => o.a⟩
  | _ => none

/-- The shifts (R218): an amount of the width or more leaves nothing, or the sign; rotations and funnel shifts take it modulo the
width. -/
def shiftRule : Instr → Option IntRule
  | .shl sf ty x => some ⟨sf, x, ty.regs, fun o => if tyBits ty ≤ o.b then 0 else o.a * 2 ^ o.b % 2 ^ tyBits ty⟩
  | .shr sf ty x => some ⟨sf, x, ty.regs, fun o => if tyBits ty ≤ o.b then 0 else o.a / 2 ^ o.b⟩
  | .sar sf ty x => some ⟨sf, x, ty.regs, fun o =>
      if tyBits ty ≤ o.b then (if sgnOf (tyBits ty) o.a < 0 then 2 ^ tyBits ty - 1 else 0)
      else wrapOf (tyBits ty) (sgnOf (tyBits ty) o.a / (2 ^ o.b : Nat))⟩
  | .rot sf ty x => some ⟨sf, x, ty.regs, fun o =>
      (o.a * 2 ^ (o.b % tyBits ty) + o.a / 2 ^ (tyBits ty - o.b % tyBits ty)) % 2 ^ tyBits ty⟩
  | .fshf sf ty x => some ⟨sf, x, ty.regs, fun o => (o.c * 2 ^ tyBits ty + o.a) / 2 ^ (o.b % tyBits ty) % 2 ^ tyBits ty⟩
  | _ => none

/-- The bit words (R219 to R221). -/
def bitRule : Instr → Option IntRule
  | .bfe sf ty x => some ⟨sf, x, ty.regs, fun o => bfeVal ty.signed (tyBits ty) o.a o.b⟩
  | .bfi sf ty x => some ⟨sf, x, ty.regs, fun o => bfiVal (tyBits ty) o.a o.b o.c⟩
  | .popc sf ty x => some ⟨sf, x, 1, fun o => ((List.range (tyBits ty)).filter fun n => o.a.testBit n).length⟩
  | .clz sf ty x => some ⟨sf, x, 1, fun o => if o.a = 0 then tyBits ty else tyBits ty - 1 - Nat.log2 o.a⟩
  | .ctz sf ty x => some ⟨sf, x, 1, fun o => ((List.range (tyBits ty)).find? fun n => o.a.testBit n).getD (tyBits ty)⟩
  | .brev sf ty x => some ⟨sf, x, ty.regs, fun o => ofBits (tyBits ty) fun n => o.a.testBit (tyBits ty - 1 - n)⟩
  | .bperm sf _ x => some ⟨sf, x, 1, fun o => bpermVal o.a o.b o.c⟩
  | _ => none

/-- A word of integer shape: it completes, and its destination holds the value of its operands, lane by lane or once. -/
def intCompletes (s : State) (i : Instr) (r : IntRule) : Prop :=
  ∃ t, exec i s = .next t ∧ s.ran t ∧ (s.wave s.cur).plain (t.wave s.cur) ∧
    let (na, nb, nc, _) := widths i
    if r.sf then
      WroteS (s.usedWave i) (t.wave s.cur) r.x.d.toNat r.n (s.actOf i) (r.op (s.srcS s.cur (s.wave s.cur) r.x na nb nc))
    else
      WroteV (s.usedWave i) (t.wave s.cur) r.x.d.toNat r.n (s.actOf i) fun l =>
        r.op (s.srcV s.cur (s.wave s.cur) r.x na nb nc l)

-- Floating words.

/-- What the rules give a floating word with two or three FP operands: its fields, format, destination registers, and the value
and flags of its operands. -/
structure FloatRule where
  ft : FTy
  x : VF
  n : Nat
  op : Srcs → Nat × Flags

/-- The short floating words (R229, R230, R232 to R234). -/
def floatRule : Instr → Option FloatRule
  | .fadd ft rm x => some ⟨ft, x, ft.regs, fun o => fAdd (ftFmt ft) rm o.a o.b⟩
  | .fmul ft rm x => some ⟨ft, x, ft.regs, fun o => fMul (ftFmt ft) rm o.a o.b⟩
  | .ffma ft rm x => some ⟨ft, x, ft.regs, fun o => fFma (ftFmt ft) rm o.a o.b o.c⟩
  | .fmin ft x => some ⟨ft, x, ft.regs, fun o => fMinMax (ftFmt ft) false o.a o.b⟩
  | .fmax ft x => some ⟨ft, x, ft.regs, fun o => fMinMax (ftFmt ft) true o.a o.b⟩
  | .fclass ft x => some ⟨ft, x, 1, fun o => (fClass (ftFmt ft) o.a, 0)⟩
  | .frnd ft rm x => some ⟨ft, x, ft.regs, fun o => fRnd (ftFmt ft) rm o.a⟩
  | .fgetexp ft x => some ⟨ft, x, 1, fun o => ((fGetExp (ftFmt ft) o.a).1.toNat, (fGetExp (ftFmt ft) o.a).2)⟩
  | .padd ft rm x => some ⟨ft, x, ft.regs, packedOp fun a b _ => fAdd (ftFmt ft) rm a b⟩
  | .pmul ft rm x => some ⟨ft, x, ft.regs, packedOp fun a b _ => fMul (ftFmt ft) rm a b⟩
  | .pfma ft rm x => some ⟨ft, x, ft.regs, packedOp fun a b c => fFma (ftFmt ft) rm a b c⟩
  | _ => none

/-- The special functions (R235 to R237). -/
def sfuRule : Instr → Option FloatRule
  | .rcp ft rm x => some ⟨ft, x, ft.regs, fun o => fRcp (ftFmt ft) rm o.a⟩
  | .sqrt ft rm x => some ⟨ft, x, ft.regs, fun o => fSqrt (ftFmt ft) rm o.a⟩
  | .fdiv ft rm x => some ⟨ft, x, ft.regs, fun o => fDiv (ftFmt ft) rm o.a o.b⟩
  | .rsq ft x => some ⟨ft, x, ft.regs, fun o => fRsq (ftFmt ft) (if ft == .f64 then 1 else 0) o.a⟩
  | .exp2 x => some ⟨.f32, x, 1, fun o => fExp2 o.a⟩
  | .log2 x => some ⟨.f32, x, 1, fun o => fLog2 o.a⟩
  | .sin x => some ⟨.f32, x, 1, fun o => fSin o.a⟩
  | .cos x => some ⟨.f32, x, 1, fun o => fCos o.a⟩
  | .tanh x => some ⟨.f32, x, 1, fun o => fTanh o.a⟩
  | _ => none

/-- Value and flags of a floating word in a lane. -/
def State.floatAt (s : State) (i : Instr) (r : FloatRule) (l : Fin 32) : Nat × Flags :=
  let (na, nb, nc, _) := widths i
  r.op ((s.wave s.cur).srcF r.ft r.x na nb nc l)

/-- FPFLAGS after flags in the lanes of m: those of live lanes are ORed in (R75). -/
def Wave.flagsAfter (w : Wave) (m : LaneMask) (f : Fin 32 → Flags) : Word := (w.raiseFlags m f).fpflags

end Sys2Proof.Machine
end

