-- ==== Sys2Proof/Certificates/Slice0/Obligations.lean ====
section
/-! DEFINITION. The statements about the machine, for the provers. -/

open Sys2Proof Sys2Proof.Machine

-- Encoding.

/-- R165 to R171: the word written for a well-formed wave instruction decodes to that instruction, in the mode that assigns the
most words (R180). -/
def Obligations.WaveRoundTrip : Prop :=
  ∀ (i : Instr) (w : Dword), encodeWave i = some w → i.WellFormed true = true → decodeWave true w = .ok i

/-- R171, R292 to R306: the word written for a well-formed matrix-stream instruction decodes to that instruction. -/
def Obligations.SeqRoundTrip : Prop :=
  ∀ (i : Instr) (w : Dword), encodeSeq i = some w → i.WellFormed false = true → decodeSeq w = .ok i

/-- R164: a word that decodes is the word of the instruction it decodes to, so that no bit of it is ignored; and that instruction is
well formed. -/
def Obligations.WaveDecodesItsWord : Prop :=
  ∀ (reeve : Bool) (w : Dword) (i : Instr), decodeWave reeve w = .ok i →
    encodeWave i = some w ∧ i.WellFormed reeve = true

/-- Words written out from the encoding tables: IADD v2, v0, v1 of .b32 width n32 (R165, R208), MOVI v4, #5 (R167, R223), LD.b32 v6,
[v2:3 + 8] (R168, R246), BRA +16 (R169), EXIT (R192), and in the matrix stream MEND (R303). -/
def Obligations.DecodeWords : Prop :=
  decodeWave false 0x2020004000100000#64 = .ok (.iadd false .n32 { d := 2, a := 0, b := 1 }) ∧
  decodeWave false 0x4200040000000005#64 = .ok (.movi false .b32 { d := 4, imm := 5 }) ∧
  decodeWave false 0x8040060200000008#64 = .ok (.ldVector .b32 { d := 6, ar := 2, off := 8 }) ∧
  decodeWave false 0x0100000000000010#64 = .ok (.bra { off := 16 }) ∧
  decodeWave false 0x0600000000000000#64 = .ok (.exit {}) ∧
  decodeSeq 0x1500000000000000#64 = .ok .mend ∧
  decodeWave false 0xC000000000000000#64 = .access ∧ decodeWave true 0xC000000000000000#64 = .ok .eret ∧
  decodeWave false 0x1700000000000000#64 = .illegal ∧ decodeWave false 0xF000000000000000#64 = .clause

-- Arithmetic.

/-- R211, R212, R216 to R222: the integer arithmetic words, the logical words and MOV, the shifts and the bit words complete, and their
destination holds the value that the rules give of their operands: sum, difference, product, high product, multiply-add, widening
multiply-add, minimum, maximum, absolute value, negative; AND, OR, XOR, NOT, a table of three inputs, a copy; shifts, rotations,
funnel shifts; bit fields, counts and permutations. Nothing else changes but counts and the wave's place. -/
def Obligations.IntegerWords : Prop :=
  ∀ (i : Instr) (r : IntRule),
    arithRule i = some r ∨ logicRule i = some r ∨ shiftRule i = some r ∨ bitRule i = some r →
    ∀ s : State, s.mayIssue i → intCompletes s i r

/-- R216: AND, OR, XOR and NOT are OPC 0x32 and 0x33, sub 0 to 3, TY 4 or 5, and compute bitwise over the w bits of their type: a AND b,
a OR b, a XOR b, and NOT a; NOT reads only A. -/
def Obligations.BitwiseRule : Prop :=
  ∀ (sf : Bool) (ty : ITy) (x : VF) (i : Instr) (sub : BitVec 4) (f : Bool → Bool → Bool),
    (i = .and sf ty x ∧ sub = 0 ∧ f = and) ∨ (i = .or sf ty x ∧ sub = 1 ∧ f = or) ∨ (i = .xor sf ty x ∧ sub = 2 ∧ f = xor) ∨
      (i = .not sf ty x ∧ sub = 3 ∧ f = fun a _ => !a) →
    (∀ reeve, i.WellFormed reeve = true → ty = .b32 ∨ ty = .b64) ∧
    (∀ reeve w, decodeWave reeve w = .ok i → w.extractLsb' 56 8 = (if sf then 0x33 else 0x32) ∧ w.extractLsb' 49 4 = sub ∧
      (w.extractLsb' 53 3 = 4 ∨ w.extractLsb' 53 3 = 5)) ∧
    (i = .not sf ty x → ∀ reeve, i.WellFormed reeve = true → ∀ o ∈ opdsOf i, o.reads = true → o.file = formFile sf → o.reg = x.a.toNat) ∧
    ∀ s : State, i.WellFormed false = true → s.mayIssue i → ∃ t, exec i s = .next t ∧
      if sf then ∀ n, n < tyBits ty → s.actOf i ≠ 0 →
        ((t.wave s.cur).rsn x.d.toNat ty.regs).testBit n =
          let o := s.srcS s.cur (s.wave s.cur) x ty.regs ty.regs 0
          f (o.a.testBit n) (o.b.testBit n)
      else ∀ (l : Fin 32) (n : Nat), n < tyBits ty → inMask (s.actOf i) l = true →
        ((t.wave s.cur).rvn x.d.toNat ty.regs l).testBit n =
          let o := s.srcV s.cur (s.wave s.cur) x ty.regs ty.regs 0 l
          f (o.a.testBit n) (o.b.testBit n)

/-- R214, R223 to R225: ICMP writes the mask bits of its lanes, all 32 of them in the scalar form unless it executes in no lane. MOVI writes
its immediate, sign- or zero-extended in the 64-bit forms; RDLANE reads one lane, 0 where it has exited or was never launched; BCAST
copies a scalar group into the lanes in which it executes. -/
def Obligations.CompareAndMove : Prop :=
  (∀ (s : State) (sf : Bool) (ty : ITy) (c : Cond) (x : VF), s.mayIssue (.icmp sf ty c x) →
    let i := Instr.icmp sf ty c x
    let m := s.actOf i
    let test (a b : Nat) : Bool :=
      let a : Int := if ty.signed then sgnOf (tyBits ty) a else a
      let b : Int := if ty.signed then sgnOf (tyBits ty) b else b
      match c with
      | .eq => decide (a = b) | .ne => decide (a ≠ b) | .lt => decide (a < b)
      | .le => decide (a ≤ b) | .gt => decide (b < a) | .ge => decide (b ≤ a)
    ∃ t, exec i s = .next t ∧ s.ran t ∧ (s.wave s.cur).plain (t.wave s.cur) ∧
      if sf then WroteK (s.usedWave i) (t.wave s.cur) x.d.toNat (if m = 0 then 0 else BitVec.allOnes 32) fun _ =>
          let o := s.srcS s.cur (s.wave s.cur) x ty.regs ty.regs 0
          test o.a o.b
      else WroteK (s.usedWave i) (t.wave s.cur) x.d.toNat m fun l =>
          let o := s.srcV s.cur (s.wave s.cur) x ty.regs ty.regs 0 l
          test o.a o.b) ∧
  ((∀ (s : State) (sf : Bool) (kd : MoviKind) (x : IF), s.mayIssue (.movi sf kd x) →
    let i := Instr.movi sf kd x
    let n := if kd == .b32 then 1 else 2
    let v := if kd == .i64 then (x.imm.signExtend 64).toNat else x.imm.toNat
    ∃ t, exec i s = .next t ∧ s.ran t ∧ (s.wave s.cur).plain (t.wave s.cur) ∧
      if sf then WroteS (s.usedWave i) (t.wave s.cur) x.d.toNat n (s.actOf i) v
      else WroteV (s.usedWave i) (t.wave s.cur) x.d.toNat n (s.actOf i) fun _ => v) ∧
  (∀ (s : State) (ty : ITy) (x : VF), s.mayIssue (.rdlane ty x) →
    let i := Instr.rdlane ty x
    let l : Fin 32 := Fin.ofNat 32 (s.bInt s.cur (s.wave s.cur) x 1 0)
    ∃ t, exec i s = .next t ∧ s.ran t ∧ (s.wave s.cur).plain (t.wave s.cur) ∧
      WroteS (s.usedWave i) (t.wave s.cur) x.d.toNat ty.regs (s.actOf i)
        (if inMask (s.wave s.cur).nonExited l then (s.wave s.cur).rvn x.a.toNat ty.regs l else 0)) ∧
  (∀ (s : State) (ty : ITy) (x : VF), s.mayIssue (.bcast ty x) →
    let i := Instr.bcast ty x
    ∃ t, exec i s = .next t ∧ s.ran t ∧ (s.wave s.cur).plain (t.wave s.cur) ∧
      WroteV (s.usedWave i) (t.wave s.cur) x.d.toNat ty.regs (s.actOf i) fun _ => (s.wave s.cur).rsn x.a.toNat ty.regs))

-- Floating point.

/-- R215: ISEL, `isel.b32 vD, vA, B, kC`, is OPC 0x30 or 0x31 with TY 4 or 5; C names k0 to k7, with C[7:3] and LC zero: a word of these
OPCs with a bit of C[7:3] set, or with a last-use bit on C, is ILLEGAL. The vector form selects, in each lane of M, A where the lane's bit of kC is set, else B; the scalar form selects
by the bit of the lowest lane of M, unless M is empty. -/
def Obligations.SelectRule : Prop :=
  (∀ (reeve sf : Bool) (ty : ITy) (x : VF), (Instr.isel sf ty x).WellFormed reeve = true →
    (ty = .b32 ∨ ty = .b64) ∧ x.c.toNat < 8 ∧ x.lc = false) ∧
  (∀ (reeve : Bool) (w : Dword) (sf : Bool) (ty : ITy) (x : VF), decodeWave reeve w = .ok (.isel sf ty x) →
    w.extractLsb' 56 8 = if sf then 0x31 else 0x30) ∧
  (∀ (reeve : Bool) (w : Dword), w.extractLsb' 56 8 = 0x30 ∨ w.extractLsb' 56 8 = 0x31 →
    (w.extractLsb' 14 5 ≠ 0 ∨ w.getLsbD 10 = true) → decodeWave reeve w = .illegal) ∧
  (∀ (s : State) (sf : Bool) (ty : ITy) (x : VF), s.mayIssue (.isel sf ty x) →
    let i := Instr.isel sf ty x
    let m := s.actOf i
    let kc := (s.wave s.cur).k x.c.toNat
    ∃ t, exec i s = .next t ∧ s.ran t ∧ (s.wave s.cur).plain (t.wave s.cur) ∧
      if sf then
        let o := s.srcS s.cur (s.wave s.cur) x ty.regs ty.regs 0
        WroteS (s.usedWave i) (t.wave s.cur) x.d.toNat ty.regs m (if inMask kc (lowLane m) then o.a else o.b)
      else WroteV (s.usedWave i) (t.wave s.cur) x.d.toNat ty.regs m fun l =>
        let o := s.srcV s.cur (s.wave s.cur) x ty.regs ty.regs 0 l
        if inMask kc l then o.a else o.b)

/-- R77, R213: IDIV and IREM are long-latency words that leave the quotient rounded toward zero, and dividend minus divisor times
quotient, in the commit buffer; a divisor of 0 gives the edge results and raises DZ in FPFLAGS. -/
def Obligations.Division : Prop :=
  ∀ (s : State) (sf rem : Bool) (ty : ITy) (x : VF),
    let i := if rem then Instr.irem sf ty x else Instr.idiv sf ty x
    let w := tyBits ty
    let val (a b : Nat) : Nat :=
      if b = 0 then
        if rem then a
        else if !ty.signed then 2 ^ w - 1 else if 0 ≤ sgnOf w a then 2 ^ (w - 1) - 1 else 2 ^ (w - 1)
      else if ty.signed then wrapOf w (if rem then Int.tmod (sgnOf w a) (sgnOf w b) else Int.tdiv (sgnOf w a) (sgnOf w b))
      else if rem then a % b else a / b
    let src (l : Fin 32) : Srcs :=
      if sf then s.srcS s.cur (s.wave s.cur) x ty.regs ty.regs 0 else s.srcV s.cur (s.wave s.cur) x ty.regs ty.regs 0 l
    s.mayIssue i →
    ∃ t, exec i s = .next t ∧ s.ran t ∧
      Posted (s.usedWave i) (t.wave s.cur) i (formFile sf) x.d.toNat ty.regs (s.actOf i)
        (fun l => val (src l).a (src l).b) ∧
      (t.wave s.cur).srseed = (s.wave s.cur).srseed ∧
      (t.wave s.cur).fpflags =
        (s.wave s.cur).flagsAfter (s.actOf i) fun l => if (src l).b % 2 ^ w = 0 then fDZ else 0

/-- R227, R229, R230, R232 to R234: the eleven short floating words complete, write the value of their operands in every lane in
which they execute, and OR the flags of the live ones into FPFLAGS (R75). R231, R233: FCMP writes the mask bits of its lanes, and FSCALE scales by a power of two given as an integer. -/
def Obligations.FloatingWords : Prop :=
  (∀ (i : Instr) (r : FloatRule), floatRule i = some r → ∀ s : State, s.mayIssue i →
    ∃ t, exec i s = .next t ∧ s.ran t ∧
      WroteV (s.usedWave i) (t.wave s.cur) r.x.d.toNat r.n (s.actOf i) (fun l => (s.floatAt i r l).1) ∧
      (t.wave s.cur).srseed = (s.wave s.cur).srseed ∧ (t.wave s.cur).sb = (s.wave s.cur).sb ∧
      (t.wave s.cur).pend = ((s.wave s.cur).pend.map fun p => { p with remain := p.remain - 1 }) ∧
      (t.wave s.cur).fpflags = (s.wave s.cur).flagsAfter (s.actOf i) fun l => (s.floatAt i r l).2) ∧
  ((∀ (s : State) (ft : FTy) (c : FCond) (x : VF), s.mayIssue (.fcmp ft c x) →
    let i := Instr.fcmp ft c x
    let r (l : Fin 32) := let o := (s.wave s.cur).srcF ft x ft.regs ft.regs 0 l; fCompare (ftFmt ft) c o.a o.b
    ∃ t, exec i s = .next t ∧ s.ran t ∧ WroteK (s.usedWave i) (t.wave s.cur) x.d.toNat (s.actOf i) (fun l => (r l).1) ∧
      (t.wave s.cur).fpflags = (s.wave s.cur).flagsAfter (s.actOf i) fun l => (r l).2) ∧
  (∀ (s : State) (ft : FTy) (rm : Rm) (x : VF), s.mayIssue (.fscale ft rm x) →
    let i := Instr.fscale ft rm x
    let r (l : Fin 32) :=
      fScale (ftFmt ft) rm ((s.wave s.cur).rvn x.a.toNat ft.regs l) (sgnOf 32 (s.bInt s.cur (s.wave s.cur) x 1 l))
    ∃ t, exec i s = .next t ∧ s.ran t ∧
      WroteV (s.usedWave i) (t.wave s.cur) x.d.toNat ft.regs (s.actOf i) (fun l => (r l).1) ∧
      (t.wave s.cur).fpflags = (s.wave s.cur).flagsAfter (s.actOf i) fun l => (r l).2))

/-- R235 to R237: RCP, SQRT, FDIV, RSQ, EXP2, LOG2, SIN, COS and TANH are long-latency words: their value waits in the commit buffer,
their flags are in FPFLAGS. Where R236 allows several values, the value is a free choice among them (`Config.sfuPick`), and the
statement holds whichever it is. -/
def Obligations.SpecialFunctions : Prop :=
  ∀ (i : Instr) (r : FloatRule), sfuRule i = some r → ∀ s : State, s.mayIssue i →
    ∃ t, exec i s = .next t ∧ s.ran t ∧
      Posted (s.usedWave i) (t.wave s.cur) i .v r.x.d.toNat r.n (s.actOf i) (fun l => (s.floatAt i r l).1) ∧
      (t.wave s.cur).srseed = (s.wave s.cur).srseed ∧
      (t.wave s.cur).fpflags = (s.wave s.cur).flagsAfter (s.actOf i) fun l => (s.floatAt i r l).2

/-- R71, R72, R238, R239, R243: CVT converts the low bits of a source, CVTP packs FP32 elements, DQNT scales one code; a stochastic
rounding draws from the lane's generator, which steps once for each element, in the lanes in which the word executes. R78 to R83, R93, R240 to R242: QNT quantises the blocks of its tile of 32 or 16 lanes, any other tile being ILLEGAL: a long-latency
word that leaves, in each lane, the packed codes of its group and the scale of its block. With smoothing it divides each element
by the scratchpad word of its lane, whose bank wakes, once no copy command is waking it; a wrong address faults. -/
def Obligations.Conversions : Prop :=
  ((∀ (s : State) (rm : Rm) (x : VF), s.mayIssue (.cvt rm x) →
    let i := Instr.cvt rm x
    let w := s.wave s.cur
    let r (l : Fin 32) :=
      cvtOne (cvtDst x) (cvtSrc x) rm x.b.toNat (xorshift w.srseed[l]) (w.rvn x.a.toNat (cvtRegs (cvtSrc x)) l)
    ∃ t, exec i s = .next t ∧ s.ran t ∧
      WroteV (s.usedWave i) (t.wave s.cur) x.d.toNat (cvtRegs (cvtDst x)) (s.actOf i) (fun l => (r l).1) ∧
      (∀ l : Fin 32, (t.wave s.cur).srseed[l] =
        if rm = .sr ∧ inMask (s.actOf i) l then xorshift w.srseed[l] else w.srseed[l]) ∧
      (t.wave s.cur).fpflags = w.flagsAfter (s.actOf i) fun l => (r l).2) ∧
  (∀ (s : State) (rm : Rm) (x : VF), s.mayIssue (.cvtp rm x) →
    let i := Instr.cvtp rm x
    let w := s.wave s.cur
    let r (l : Fin 32) := cvtpVal (cvtDst x) rm w.srseed[l] (cvtpElems x w l)
    ∃ t, exec i s = .next t ∧ s.ran t ∧
      WroteV (s.usedWave i) (t.wave s.cur) x.d.toNat 1 (s.actOf i) (fun l => (r l).1) ∧
      (∀ l : Fin 32, (t.wave s.cur).srseed[l] =
        if rm = .sr ∧ inMask (s.actOf i) l then xorN w.srseed[l] (if 12 ≤ cvtDst x then 4 else 2) else w.srseed[l]) ∧
      (t.wave s.cur).fpflags = w.flagsAfter (s.actOf i) fun l => (r l).2) ∧
  (∀ (s : State) (x : VF), s.mayIssue (.dqnt x) →
    let i := Instr.dqnt x
    let w := s.wave s.cur
    let r (l : Fin 32) :=
      dqntVal ((w.rv x.a.toNat l).toNat / 16 ^ (l.val % 8) % 16) (BitVec.ofNat 16 (w.bFloat .f32 x 1 l))
    ∃ t, exec i s = .next t ∧ s.ran t ∧
      WroteV (s.usedWave i) (t.wave s.cur) x.d.toNat 1 (s.actOf i) (fun l => (r l).1) ∧
      (t.wave s.cur).srseed = w.srseed ∧ (t.wave s.cur).fpflags = w.flagsAfter (s.actOf i) fun l => (r l).2)) ∧
  (∀ (s : State) (nosm : Bool) (sel : QSel) (rm : Rm) (x : VF), s.mayIssue (.qnt nosm sel rm x) → (nosm = false → s.gateOpen 0) →
    let i := Instr.qnt nosm sel rm x
    let w := s.wave s.cur
    let c := s.crew (crewOf s.cur)
    let tile := (w.partreg &&& 7).toNat
    let bl := if tile = 0 then 32 else 16
    let q (l : Fin 32) := qntBlock nosm sel rm x c w (s.actOf i) bl (l.val / bl)
    let addr (l : Fin 32) := (w.rs x.b.toNat).toNat + 4 * (l.val % bl)
    let reads (l : Fin 32) : Prop := nosm = false ∧ inMask (s.actOf i &&& w.liveMask) l = true
    (tile ≠ 0 → tile ≠ 4 → faultsWith s i .illegal 0) ∧
    (tile = 0 ∨ tile = 4 → (∀ l, reads l → spCheck c.spLimit (addr l) 4 = none ∧ ((c.bank (addr l / 8192)).st = .retain →
          (c.bank (addr l / 8192)).waking = false ∧ (c.bank (addr l / 8192)).bad = false)) →
      ∃ t, exec i s = .next t ∧ (nosm = true → s.ran t) ∧ t.mem = s.mem ∧ (∀ k, k ≠ s.cur → t.wave k = s.wave k) ∧
        (t.crew (crewOf s.cur)).sp = c.sp ∧ (∀ l, reads l → ((t.crew (crewOf s.cur)).bank (addr l / 8192)).st = .full) ∧
        Posted (s.usedWave i) (t.wave s.cur) i .v x.d.toNat 2 (s.actOf i)
          (fun l => packCodes (q l).codes (l.val % bl / 8) + 2 ^ 32 * (q l).scale.toNat) ∧
        (∀ l : Fin 32, (t.wave s.cur).srseed[l] =
          if rm = .sr ∧ inMask (s.actOf i) l then xorshift w.srseed[l] else w.srseed[l]) ∧
        (t.wave s.cur).fpflags = w.flagsAfter (s.actOf i) fun l => (q l).flags))

/-- R170: both halves of a paired word read the state before it; each that is not empty writes its result in the lanes of the running
group, and the flags of both are ORed in. -/
def Obligations.PairedWords : Prop :=
  ∀ (s : State) (h l : PHalf), s.mayIssue (.pairedWord h l) → pairOk h l = true →
    let i := Instr.pairedWord h l
    let w := s.wave s.cur
    let val (p : PHalf) (n : Fin 32) : Nat × Flags :=
      popVal p.pop (w.rv p.a.toNat n).toNat (if p.bs then (w.rs p.b.toNat).toNat else (w.rv p.b.toNat n).toNat)
        (w.rv p.d.toNat n).toNat
    ∃ t, exec i s = .next t ∧ s.ran t ∧
      (∀ q n, (t.wave s.cur).rv q n =
        if h.pop ≠ 0 ∧ q = h.d.toNat ∧ inMask w.group n then wordAt (val h n).1 0
        else if l.pop ≠ 0 ∧ q = l.d.toNat ∧ inMask w.group n then wordAt (val l n).1 0
        else if w.group ≠ 0 ∧ ((h.pop ≠ 0 ∧ q = h.d.toNat) ∨ (l.pop ≠ 0 ∧ q = l.d.toNat)) ∧ !(s.usedWave i).isLive .v q then 0
        else w.rv q n) ∧
      (t.wave s.cur).sreg = w.sreg ∧ (t.wave s.cur).kreg = w.kreg ∧
      (t.wave s.cur).fpflags = w.flagsAfter w.group fun n =>
        (if h.pop = 0 then 0 else (val h n).2) ||| (if l.pop = 0 then 0 else (val l n).2)

-- Cross-lane words.

/-- R273 to R284: votes, matches, pulls, permutations, quad exchanges, reductions and scans are long-latency words; each leaves its
value, taken over the contributing lanes of the tile that PART names, in the commit buffer. -/
def Obligations.CrossLane : Prop :=
  (∀ (s : State) (op : VoteOp) (x : VF), s.mayIssue (.vote op x) →
    let i := Instr.vote op x
    let w := s.wave s.cur
    ∃ t, exec i s = .next t ∧ s.ran t ∧
      Posted (s.usedWave i) (t.wave s.cur) i .s x.d.toNat 1 (s.actOf i)
        (fun _ => (voteVal op (tileOf w.partreg) (s.members s.cur w x) (w.k x.a.toNat)).toNat) ∧
      (t.wave s.cur).fpflags = w.fpflags) ∧
  (∀ (s : State) (ty : ITy) (all : Bool) (x : VF), s.mayIssue (.matchLanes ty all x) →
    let i := Instr.matchLanes ty all x
    let w := s.wave s.cur
    ∃ t, exec i s = .next t ∧ s.ran t ∧
      Posted (s.usedWave i) (t.wave s.cur) i .v x.d.toNat 1 (s.actOf i)
        (fun l => (matchVal all (tileOf w.partreg) (s.members s.cur w x) (w.rvn x.a.toNat ty.regs) l).toNat) ∧
      (t.wave s.cur).fpflags = w.fpflags) ∧
  (∀ (s : State) (sel : PullSel) (x : VF), s.mayIssue (.pull sel x) →
    let i := Instr.pull sel x
    let w := s.wave s.cur
    ∃ t, exec i s = .next t ∧ s.ran t ∧
      Posted (s.usedWave i) (t.wave s.cur) i .v x.d.toNat 1 (s.actOf i)
        (fun l => match pullSrc sel (tileOf w.partreg) l.val (s.bLane s.cur w x l) with
          | some j => w.pullFrom x.a.toNat j
          | none => (w.rv x.a.toNat l).toNat) ∧
      (t.wave s.cur).fpflags = w.fpflags) ∧
  (∀ (s : State) (x : VF), s.mayIssue (.perm x) →
    let i := Instr.perm x
    let w := s.wave s.cur
    let tl := tileOf w.partreg
    ∃ t, exec i s = .next t ∧ s.ran t ∧
      Posted (s.usedWave i) (t.wave s.cur) i .v x.d.toNat 1 (s.actOf i)
        (fun l =>
          let j := s.bLane s.cur w x l % (2 * tl)
          if j < tl then w.pullFrom x.a.toNat (l.val / tl * tl + j) else w.pullFrom x.c.toNat (l.val / tl * tl + j - tl)) ∧
      (t.wave s.cur).fpflags = w.fpflags) ∧
  (∀ (s : State) (sel : QuadSel) (x : VF), s.mayIssue (.qswap sel x) →
    let i := Instr.qswap sel x
    let w := s.wave s.cur
    ∃ t, exec i s = .next t ∧ s.ran t ∧
      Posted (s.usedWave i) (t.wave s.cur) i .v x.d.toNat 1 (s.actOf i)
        (fun l => w.pullFrom x.a.toNat
          (match sel with | .horizontal => l.val ^^^ 1 | .vertical => l.val ^^^ 2 | .diagonal => l.val ^^^ 3)) ∧
      (t.wave s.cur).fpflags = w.fpflags) ∧
  (∀ (s : State) (x : VF), s.mayIssue (.qbcast x) →
    let i := Instr.qbcast x
    let w := s.wave s.cur
    ∃ t, exec i s = .next t ∧ s.ran t ∧
      Posted (s.usedWave i) (t.wave s.cur) i .v x.d.toNat 1 (s.actOf i)
        (fun l => w.pullFrom x.a.toNat (l.val / 4 * 4 + s.bLane s.cur w x l % 4)) ∧
      (t.wave s.cur).fpflags = w.fpflags) ∧
  (∀ (s : State) (ty : RTy) (op : RedOp) (x : VF), s.mayIssue (.redux ty op x) →
    let i := Instr.redux ty op x
    let w := s.wave s.cur
    let r := redLane ty op .whole (tileOf w.partreg) (s.members s.cur w x) (w.rvn x.a.toNat ty.regs)
    ∃ t, exec i s = .next t ∧ s.ran t ∧
      Posted (s.usedWave i) (t.wave s.cur) i .v x.d.toNat ty.regs (s.actOf i) (fun l => (r l).1) ∧
      (t.wave s.cur).fpflags = w.flagsAfter (s.actOf i) fun l => (r l).2) ∧
  (∀ (s : State) (ty : RTy) (op : RedOp) (excl : Bool) (x : VF), s.mayIssue (.scan ty op excl x) →
    let i := Instr.scan ty op excl x
    let w := s.wave s.cur
    let r := redLane ty op (if excl then .excl else .incl) (tileOf w.partreg) (s.members s.cur w x) (w.rvn x.a.toNat ty.regs)
    ∃ t, exec i s = .next t ∧ s.ran t ∧
      Posted (s.usedWave i) (t.wave s.cur) i .v x.d.toNat ty.regs (s.actOf i) (fun l => (r l).1) ∧
      (t.wave s.cur).fpflags = w.flagsAfter (s.actOf i) fun l => (r l).2)

-- Steps, exceptions, memory and reset.

/-- R164, R25, R289: where boot is over, the word at the program counter of the wave in focus decodes, and its quadrant is inside its
clause, a step whose agenda says so, and a step of the machine's own while no cache is over full and nothing else is due, is the
execution of that instruction, after which time has passed (log 2: one nanosecond a word). -/
def Obligations.StepRunsWord : Prop :=
  ∀ (s s1 : State) (c : ClauseSt) (x : Dword) (i : Instr),
    let w := s.wave s.cur
    s.pkg.boot = 6 → (s.die (dieOf (coreOf s.cur))).rel = false → s.onSeq = false → w.clause = some c → w.canRun = true →
    w.group ≠ 0 → (s.quad s.cur).inClause = some s.cur → s.fetchWave s.cur w.pc = .ok s1 x → isHeader x = false →
    classAccepts (unpackH c.hdr).cls.toNat (c.pos == (unpackH c.hdr).count.toNat) x = true →
    decodeWave (isReeveCore (coreOf s.cur)) x = .ok i →
    step { s with agenda := .word :: s.agenda } = tick (exec i s1) ∧
    (s.agenda = [] → s.pkg.bootStopped = false → s.overfull = none → s.due = none → ∀ s2, exec i s1 = .next s2 → s2 ≠ s →
      step s = .next (s2.elapse 1))

/-- R32, R331, R375, R376, R378, R379: a wave's exception stops it where it stands and keeps every register and every byte of
memory; it gives its quadrant up (R25), and a stopped ACQX leaves the queue of its quadrant (R206). In user mode the floodgate of its
context rises, a stop record tells the class, the engine, the detail, the word and the point, its REFT that at which the engine first
stopped, and the one event of kind 0x01 goes to the context's home die if the floodgate was down, and follows the first of its records
if it was up; in reeve mode no floodgate rises and an event of kind 0x08 goes to the wave's die. R345, R379: the return from an
exception clears the stop; after a TRAP and a BKPT word the wave goes on at the next word, after everything else it issues the word at
the recorded point again; nothing else changes. That the word continued past counts for no open window is the model's choice (log 50),
and so is that a wave which a debugger stopped issues its word again (log 80). -/
def Obligations.Exceptions : Prop :=
  (∀ (s : State) (k : Key) (cls : FClass) (det word : Dword) (atc prec : Bool),
    let t := s.raiseWave k cls det word atc prec
    let w := s.wave k
    let p := w.standing
    let c := (s.crew (crewOf k)).ctx
    let mine (r : StopRec) : Bool := r.eng == .wave && r.key == k
    t.mem = s.mem ∧ t.crews = s.crews ∧ (∀ j, j ≠ k → t.wave j = s.wave j) ∧
    t.wave k = { w with stopped := true, parkSince := if w.park.isSome then w.parkSince else s.reft,
                        stopAs := if w.stopped && !prec then w.stopAs else some (cls, word) } ∧
    (∀ n, t.core n = { s.core n with quads := (t.core n).quads }) ∧
    (∀ n q, tget (t.core n).quads {} q =
      let y := tget (s.core n).quads {} q
      let z := { y with inClause := y.inClause.filter (· ≠ k) }
      if n = coreOf k ∧ q = quadOf k then
        match w.park with
        | some (.acqx _) => { z with acq := y.acq.filter (· ≠ k) }
        | _ => z
      else y) ∧
    if isReeveCore (coreOf k) then
      t.ctxs = s.ctxs ∧
        t = ({ s with cores := t.cores, waves := t.waves } : State).event (dieOf (coreOf k)) 0x08 (s.waveHandle k)
          (BitVec.ofNat 64 (classCode cls))
    else
      (t.ctx c).up = true ∧ (∀ d, d ≠ c → t.ctx d = s.ctx d) ∧
      (∃ r ∈ (t.ctx c).recs, r.cls = some cls ∧ r.eng = .wave ∧ r.key = k ∧ r.pc = p.stopPoint.1 ∧ r.wpos = p.stopPoint.2.1 ∧
        r.hdr = p.stopPoint.2.2 ∧ r.handle = s.waveHandle k ∧ r.det = det ∧ r.word = word ∧ r.prec = prec ∧
        r.atc = (atc || cls == .eccfatal) ∧ r.mask = p.group ∧
        r.reft = (((s.ctx c).recs.find? mine).map (·.reft)).getD s.reft) ∧
      (∀ r ∈ (s.ctx c).recs, mine r = false → r ∈ (t.ctx c).recs) ∧
      (∀ d, d ≠ s.homeDie c → t.die d = s.die d) ∧
      ((s.ctx c).up = true → t.die (s.homeDie c) =
        { s.die (s.homeDie c) with evq := (s.die (s.homeDie c)).evq.map fun e =>
            if e.kind == 0x01 && e.handle == ctxHandle c then { e with w1 := BitVec.ofNat 64 (eventClass (t.ctx c).recs) } else e }) ∧
      ((s.ctx c).up = false → ∃ e ∈ (t.die (s.homeDie c)).evq, e.kind = 0x01 ∧ e.handle = ctxHandle c)) ∧
  (∀ (s : State) (k : Key) (cls : Option FClass) (word : Dword),
    let t := s.returnWave k cls word
    t = { s with waves := t.waves } ∧ (∀ j, j ≠ k → t.wave j = s.wave j) ∧
    t.wave k =
      if cls = some .swtrap ∨ (cls = some .brk ∧ word.extractLsb' 56 8 = 0x09) then
        ({ s.wave k with stopped := false, stopAs := none } : Wave).advance
      else { s.wave k with stopped := false, stopAs := none })

/-- R34, R42, R44, R49 to R52, R164 steps 4 to 6: a word that an interlock holds changes nothing, but that its wave parks where
the interlock is on the result of an access that missed; else a register outside the allotment
is BUDGET, and a DEAD one that is read RDEAD, with that register as detail, and the word has no effect; a word whose rules make
it a fault has none either. -/
def Obligations.IssueFaults : Prop :=
  ∀ (s : State) (i : Instr) (body : State → Key → Wave → Eff),
    let w := s.wave s.cur
    let raise (cls : FClass) (r : Nat) := s.raiseWave s.cur cls (BitVec.ofNat 64 r) ((encodeWave i).getD 0)
    (interlock w (opdsOf i) (lkOf i) = true → s.issue i body =
      if missLock w (opdsOf i) then
        (s.modWave s.cur fun w => { w with park := some .miss, parkI := none, parkSince := s.reft }).leaveQuad s.cur
      else s) ∧
    (interlock w (opdsOf i) (lkOf i) = false → ∀ r, budgetBad w (opdsOf i) = some r →
      s.issue i body = raise .budget r ∧ w.allot ≤ r ∧ ∃ o ∈ opdsOf i, o.file = .v ∧ o.reg ≤ r ∧ r < o.reg + o.n) ∧
    (interlock w (opdsOf i) (lkOf i) = false → budgetBad w (opdsOf i) = none → ∀ r, deadReg w (opdsOf i) = some r →
      s.issue i body = raise .rdead r ∧
        ∃ o ∈ opdsOf i, o.reads = true ∧ o.reg ≤ r ∧ r < o.reg + o.n ∧ w.isLive o.file r = false) ∧
    (s.mayIssue i → ∀ cls det, body (s.begun i) s.cur (s.readWave i) = .fault cls det →
      s.issue i body = s.raiseWave s.cur cls det ((encodeWave i).getD 0))

/-- R43, R44, R49 to R52, R161: the retirement of a word changes, outside its wave, only counts; in its wave only registers and
liveness, the supply of banks, pending results and slots, and its place: the group goes on to the next word, or, where the
word has set every LPC itself, leaves the clause. -/
def Obligations.RetirementFrame : Prop :=
  ∀ (s : State) (k : Key) (i : Instr) (res : List Res) (adv : Adv),
    let t := s.retired k i res adv
    let w := s.wave k
    let u := t.wave k
    t = { s with waves := t.waves, crews := t.crews, cores := t.cores, ctxs := t.ctxs } ∧
    (∀ q, q ≠ k → t.wave q = s.wave q) ∧
    (∀ c, t.crew c =
      { s.crew c with luign := (t.crew c).luign, issued := (t.crew c).issued, dormant := (t.crew c).dormant }) ∧
    (∀ n, t.core n = { s.core n with quads := (t.core n).quads }) ∧
    (∀ c, t.ctx c = { s.ctx c with slice := (t.ctx c).slice }) ∧
    u = { w with v := u.v, vlive := u.vlive, sreg := u.sreg, slive := u.slive, kreg := u.kreg, sb := u.sb, pend := u.pend,
                 banks := u.banks, lpc := u.lpc, clause := u.clause, group := u.group, park := none, parkI := none } ∧
    (adv = .leave → u.lpc = w.lpc ∧ u.clause = none ∧ u.group = 0) ∧
    (adv = .step → ∀ l : Fin 32, u.lpc[l] = if inMask w.group l then w.lpc[l] + 8 else w.lpc[l]) ∧
    (res = [] → u.v = w.v ∧ u.sreg = w.sreg ∧ u.kreg = w.kreg ∧ u.sb = w.sb ∧
      (((∀ b, (w.bank b).st = .retain → (w.bank b).bad = false) ∨ (lkOf i).long = true) →
        u.vlive = (if w.act (lkOf i).pr (lkOf i).pn = w.nonExited then w.lastUses (opdsOf i) else w).vlive ∧
        u.slive = (if w.act (lkOf i).pr (lkOf i).pn = w.nonExited then w.lastUses (opdsOf i) else w).slive))

/-- The memory keeps its canonical form, addresses rising and no byte listed that an unlisted address reads as, through every
step of every kind. -/
def Obligations.StepKeepsMemory : Prop :=
  ∀ s t : State, memWf s.mem = true → step s = .next t → memWf t.mem = true

/-- R35, R71, R334, R350, R398, R415, R421: the machine after boot. Memory is canonical and reads zero but in the tables of
descriptors and polders, whose fields stand at their reset values: SLICE 24, CKPER 4,000, DRAIN 500, WEIGHT and CTXB.SHARE 1; every die is at its boot clock with no
event; no crew of a compute core is resident; the reeve waves are parked for an event with every register DEAD, an allotment of
64, VIEW all ones and the generators at their reset values. That an unlisted byte of the module reads zero is R415 step 4; that one
of host memory or of a peer does is the model's choice (log 4), and so are BOOTM (log 7) and, of the reeve waves, the generators and
the vector base (log 8). -/
def Obligations.ResetState : Prop :=
  memWf State.reset.mem = true ∧
  (∀ a, ¬within dtBase (64 * 512) a → ¬within ptBase (512 * 32) a → State.reset.homeByte a = 0) ∧
  (∀ c, c < 512 → State.reset.ctxValid c = false ∧ State.reset.ctxSlice c = 24 ∧ bits (State.reset.ctxWord c 2) 63 32 = 4000) ∧
  (∀ p, p < 32 → State.reset.drainWindow p = 500 ∧ State.reset.weight p = 1 ∧
    ∀ i, i < 16 → bits (State.reset.polderWord p (32 + i)) 23 16 = 1) ∧
  (∀ d, State.reset.die d = { cur := 80, tgt := 80 }) ∧
  (∀ c, coreOfCrew c < 252 → (State.reset.crew c).st = .absent) ∧
  (∀ k, coreOf k < 252 → (State.reset.wave k).here = false) ∧
  (∀ d n, d < 4 → n < 64 →
    let w := State.reset.wave (waveKey (crewKey (reeveCore d) (n / 32)) (n % 32))
    w.here = true ∧ w.park = some .event ∧ w.vlive = 0 ∧ w.slive = 0 ∧ w.allot = 64 ∧ w.view = 0xFFFF ∧ w.partreg = 0 ∧
      w.fpflags = 0 ∧ w.k 0 = BitVec.allOnes 32 ∧
      ∀ l : Fin 32, w.srseed[l] =
        let x : Word := BitVec.ofNat 32 ((32 * (n % 32) + l.val) * 0x9E3779B9)
        if x = 0 then 1 else x)

-- Control.

/-- R46, R146, R148, R185, R199 to R201, R205: NOP and YIELD; KILL makes the listed registers DEAD whatever the mask; REST sends FULL
banks of its groups that hold a LIVE register and await no result into RETAIN; REGION writes MODE; PART writes PART. -/
def Obligations.ControlWords : Prop :=
  ∀ s : State,
    let k := s.cur
    (s.mayIssue .nop → runsTo s .nop (s.begun .nop) []) ∧
    (s.mayIssue .yield →
      runsTo s .yield (((s.begun .yield).modQuad (coreOf k) (quadOf k) fun q => { q with lastYld := true }).modWave k fun w =>
        { w with clause := w.clause.map fun c => { c with yld := true } }) []) ∧
    (∀ sf x, s.mayIssue (.kill sf x) → ∃ u : Wave,
      runsTo s (.kill sf x) ((s.begun (.kill sf x)).setWave k u) [] ∧
      u = { s.readWave (.kill sf x) with vlive := u.vlive, slive := u.slive } ∧
      (∀ r, r < 256 → u.isLive .v r = ((s.wave k).isLive .v r && !(!sf && (killRegs x).contains r))) ∧
      (∀ r, r < 64 → u.isLive .s r = ((s.wave k).isLive .s r && !(sf && (killRegs x).contains r)))) ∧
    (∀ x, s.mayIssue (.rest x) → s.actOf (.rest x) ≠ 0 → ∃ u : Wave,
      runsTo s (.rest x) ((s.begun (.rest x)).setWave k u) [] ∧ u = { s.readWave (.rest x) with banks := u.banks } ∧
      ∀ b, u.bank b =
        let w := s.readWave (.rest x)
        if b < 32 ∧ x.imm.getLsbD (b / 4) = true ∧ b / 4 < 8 ∧ 8 * b < w.allot ∧ (w.bank b).st = .full ∧ w.bankLive b = true ∧
            w.bankPend b = false then { w.bank b with st := .retain, waking := false, idle := none }
        else w.bank b) ∧
    (∀ x, s.mayIssue (.rest x) → s.actOf (.rest x) = 0 → runsTo s (.rest x) (s.begun (.rest x)) []) ∧
    (∀ x, s.mayIssue (.region x) → waveLevelRuns s (.region x) fun b =>
      (b.modCrew (crewOf k) fun c => { c with regionMode := x.imm.setWidth 2 }).islandSettle (coreOf k)) ∧
    (∀ x, s.mayIssue (.part x) → waveLevelRuns s (.part x) fun b => b.modWave k fun w => { w with partreg := x.imm &&& 7 })

/-- R200: REST, `[@k] rest #g`, is OPC 0x11 in the I format, its group mask in IMM[7:0] and the rest of IMM, D, A and LA zero; each
FULL bank in the named groups that holds a LIVE register and has no result pending to it enters RETAIN, and groups beyond the
allotment are ignored. -/
def Obligations.RestRule : Prop :=
  ∀ x : IF, (Instr.rest x).WellFormed false = true →
    (x.imm.extractLsb' 8 24 = 0 ∧ x.d = 0 ∧ x.a = 0 ∧ x.la = false) ∧
    (∃ w, encodeWave (.rest x) = some w ∧ w.extractLsb' 56 8 = 0x11 ∧ w.extractLsb' 0 32 = x.imm) ∧
    ∀ s : State, s.mayIssue (.rest x) → s.actOf (.rest x) ≠ 0 → ∃ t, exec (.rest x) s = .next t ∧
      ∀ b,
        let w := s.wave s.cur
        ((t.wave s.cur).bank b).st =
          if (w.bank b).st = .full ∧ b < 32 ∧ (x.imm.extractLsb' 0 8).getLsbD (b / 4) = true ∧ w.bankLive b = true ∧
              w.bankPend b = false ∧ 8 * b < w.allot then .retain
          else (w.bank b).st

/-- R27, R185, R205, R206: SLEEP issues and parks the wave until REFT has risen by IMM, then it goes on at the next word; SLEEP of 0
acts as YIELD. R185, R205, R378, R379: TRAP and BKPT take SWTRAP and BREAK with IMM as detail; in no lane they do nothing. -/
def Obligations.SleepsAndTraps : Prop :=
  ((∀ (s : State) (x : IF), s.mayIssue (.sleep x) → s.actOf (.sleep x) ≠ 0 → x.imm ≠ 0 →
    issuesAndParks s (.sleep x) (s.begun (.sleep x)) (.sleep (s.reft + x.imm.toNat)) []) ∧
  (∀ (s : State) (x : IF), s.mayIssue (.sleep x) → s.actOf (.sleep x) ≠ 0 → x.imm = 0 →
    runsTo s (.sleep x)
      (((s.begun (.sleep x)).modQuad (coreOf s.cur) (quadOf s.cur) fun q => { q with lastYld := true }).modWave s.cur fun w =>
        { w with clause := w.clause.map fun c => { c with yld := true } }) []) ∧
  (∀ (s : State) (x : IF), s.mayIssue (.sleep x) → s.actOf (.sleep x) = 0 → runsTo s (.sleep x) (s.begun (.sleep x)) []) ∧
  (∀ (s : State) (k : Key) (d : Nat) (i : Instr),
    (s.wave k).park = some (.sleep d) → (s.wave k).parkI = some i → (s.wave k).stopped = false → s.clockOn (coreOf k) = true →
    exec (.sleepDeadline k) s =
      .next (if d ≤ s.reft then s.modWave k fun w =>
        { ({ w with pend := fillParked [] w.pend } : Wave).goPast .step with waited := (s.quad k).cyc } else s))) ∧
  (∀ (s : State) (x : IF),
    (s.mayIssue (.trap x) → s.actOf (.trap x) ≠ 0 → faultsWith s (.trap x) .swtrap (x.imm.setWidth 64)) ∧
    (s.mayIssue (.bkpt x) → s.actOf (.bkpt x) ≠ 0 → faultsWith s (.bkpt x) .brk (x.imm.setWidth 64)) ∧
    (s.mayIssue (.trap x) → s.actOf (.trap x) = 0 → runsTo s (.trap x) (s.begun (.trap x)) []) ∧
    (s.mayIssue (.bkpt x) → s.actOf (.bkpt x) = 0 → runsTo s (.bkpt x) (s.begun (.bkpt x)) []))

/-- R163, R169, R186, R189, R190: BRA and BRX. Every target is fetched and must be a header. The lanes that meet the condition go to
their targets, the other lanes of the group to the next word; a word with JE enrols the group first; a hint of uniformity that
proves false is counted. R188, R193: JENR and JSTRK write a rejoin register, whose release is judged; JWAIT parks the lanes of the group that it names,
the rest of the group goes on. -/
def Obligations.BranchesAndRejoins : Prop :=
  (∀ (s : State) (x : BF) (pair : Bool),
    let i := if pair then Instr.brx x else Instr.bra x
    let k := s.cur
    let w := s.wave k
    let meet := w.group &&& w.pred x.pr x.pn
    let tg (l : Fin 32) : Dword :=
      (if pair then BitVec.ofNat 64 (w.rvn (bfTargets x).reg 2 l) else BitVec.ofNat 64 w.pc) + x.off.signExtend 64
    let ts := targetsOf meet tg
    s.mayIssue i →
    (∀ s1 hs, checkWords k isHeader id ts (s.begun i) = .inr (s1, hs) → ∃ t,
      exec i s = .next t ∧
      t = ((s1.hintMiss k x w.group meet ts.length).modWave k fun u =>
        (u.enrol x).moveLanes meet tg (w.pc + 8)).retired k i [] .leave) ∧
    (∀ c d, checkWords k isHeader id ts (s.begun i) = .inl (.fault c d) → faultsWith s i c d)) ∧
  (∀ (s : State) (x : VF),
    let k := s.cur
    let n := x.d.toNat
    (s.mayIssue (.jenr x) → runsTo s (.jenr x)
      ((s.begun (.jenr x)).modWave k fun w => ({ w with jreg := tset w.jreg n (s.actOf (.jenr x)) }).judge n) []) ∧
    (s.mayIssue (.jstrk x) → runsTo s (.jstrk x)
      ((s.begun (.jstrk x)).modWave k fun w =>
        ({ w with jreg := tset w.jreg n ((s.wave k).j n &&& ~~~s.actOf (.jstrk x)) }).judge n) []) ∧
    (s.mayIssue (.jwait x) →
      let u := (s.readWave (.jwait x)).jwait n (s.actOf (.jwait x))
      runsTo s (.jwait x) ((s.begun (.jwait x)).setWave k u) [] (if u.group = 0 then .leave else .step)))

/-- R53, R163, R169, R187, R189, R191: CALL and CALLX check the header and the function word of every target and its budget, write
the link in the lanes that take them, and open a record where the call diverges; a ninth record is ILLEGAL. A target that is not
aligned or whose word is no header is CLAUSE, and so is one without a function word before it; a budget larger than the allotment is
BUDGET, at the lowest target that has one. RET checks its target, goes to the link and closes what it returns from. -/
def Obligations.CallsAndReturns : Prop :=
  (∀ (s : State) (x : BF) (pair : Bool),
    let i := if pair then Instr.callx x else Instr.call x
    let k := s.cur
    let w := s.wave k
    let meet := w.group &&& w.pred x.pr x.pn
    let tg (l : Fin 32) : Dword :=
      (if pair then BitVec.ofNat 64 (w.rvn (bfTargets x).reg 2 l) else BitVec.ofNat 64 w.pc) + x.off.signExtend 64
    let ts := targetsOf meet tg
    let divergent : Prop := meet ≠ 0 ∧ (meet ≠ w.group ∨ 1 < ts.length)
    let before (a : Nat) : Nat := (a + 2 ^ 64 - 8) % 2 ^ 64
    let checkFunc := checkWords k (fun f => (funcWord f).isSome) (· + 8) (ts.map before)
    let fits (f : Dword) : Prop := 8 * ((funcWord f).getD 0 + 1) ≤ w.allot
    (s.mayIssue i → ∀ a r, ts = a :: r →
      (a % 8 ≠ 0 ∨ ∃ s1 h, (s.begun i).fetchWave k a = .ok s1 h ∧ isHeader h = false) →
      faultsWith s i .clause (BitVec.ofNat 64 a)) ∧
    (s.mayIssue i → ∀ c d, checkWords k isHeader id ts (s.begun i) = .inl (.fault c d) → faultsWith s i c d) ∧
    ∀ s1 hs, s.mayIssue i → checkWords k isHeader id ts (s.begun i) = .inr (s1, hs) →
      (∀ a r s2 f, ts = a :: r → before a % 8 = 0 → s1.fetchWave k (before a) = .ok s2 f → funcWord f = none →
        faultsWith s i .clause (BitVec.ofNat 64 (before a + 8))) ∧
      (∀ c d, checkFunc s1 = .inl (.fault c d) → faultsWith s i c d) ∧
      ∀ s2 fs, checkFunc s1 = .inr (s2, fs) →
      (∀ pre a f post, ts.zip fs = pre ++ (a, f) :: post → (∀ p ∈ pre, fits p.2) → ¬fits f →
        faultsWith s i .budget (BitVec.ofNat 64 (a - 8))) ∧
      ((∀ a f, (a, f) ∈ ts.zip fs → fits f) →
      (divergent → 8 ≤ w.calls.length → faultsWith s i .illegal 0) ∧
      (divergent → w.calls.length < 8 →
        runsTo s i ((s2.hintMiss k x w.group meet ts.length).modWave k fun u =>
          let u := (u.enrol x).moveLanes meet tg (w.pc + 8)
          let first := u.lanesAt meet (ts.headD 0)
          { u with calls := { ret := w.pc + 8, held := w.group &&& ~~~meet, running := first, waiting := meet &&& ~~~first } :: u.calls })
          [resS (bfLink x) 2 meet (w.pc + 8)] .leave) ∧
      (¬divergent →
        runsTo s i ((s2.hintMiss k x w.group meet ts.length).modWave k fun u => (u.enrol x).moveLanes meet tg (w.pc + 8))
          [resS (bfLink x) 2 meet (w.pc + 8)] .leave))) ∧
  (∀ (s : State) (x : BF),
    let i := Instr.ret x
    let k := s.cur
    let w := s.wave k
    let meet := w.group &&& w.pred x.pr x.pn
    let t := BitVec.ofNat 64 (w.rsn (bfLink x) 2)
    (s.mayIssue i → ∀ c d, checkWords k isHeader id (targetsOf meet fun _ => t) (s.begun i) = .inl (.fault c d) →
      faultsWith s i c d) ∧
    ∀ s1 hs, s.mayIssue i → checkWords k isHeader id (targetsOf meet fun _ => t) (s.begun i) = .inr (s1, hs) →
      runsTo s i ((s1.hintMiss k x w.group meet 1).modWave k fun u =>
        (u.moveLanes meet (fun _ => t) (w.pc + 8)).joinHeld meet t.toNat) [] .leave)

/-- R12, R50, R52, R186, R192: EXIT. The live lanes that meet its condition are exited, helper lanes follow their quads, the other
lanes of the group go on at the next word; a wave whose every lane has exited closes its windows and counts as exited once its
slots read 0. -/
def Obligations.Exit : Prop :=
  ∀ (s : State) (x : BF), s.mayIssue (.exit x) →
    let k := s.cur
    let w := s.wave k
    let meet := w.group &&& w.pred x.pr x.pn
    ∃ t, exec (.exit x) s = .next (t.waveExit k) ∧
      t = (((s.begun (.exit x)).hintMiss k x w.group meet 1).modWave k fun u =>
        (u.moveLanes 0 (fun _ => 0) (w.pc + 8)).exitLanes meet).retired k (.exit x) [] .leave ∧
      (∀ l : Fin 32, inMask meet l = true → w.lst[l] = .live → (t.wave k).lst[l] = .exited) ∧
      (∀ l : Fin 32, (t.wave k).lst[l] = w.lst[l] ∨ (t.wave k).lst[l] = .exited) ∧
      (∀ l : Fin 32, (t.wave k).lst[l] = .exited → w.lst[l] ≠ .exited →
        w.lst[l] = .live ∧ inMask meet l = true ∨ w.lst[l] = .helper) ∧
      (∀ l : Fin 32, inMask w.group l = true → (t.wave k).lpc[l] = BitVec.ofNat 64 (w.pc + 8)) ∧
      (t.wave k).clause = none ∧ (t.wave k).group = 0 ∧
      ((t.wave k).nonExited ≠ 0 → t.waveExit k = t)

/-- R185, R194, R254, R379: the weirs. WEIRSET arms a weir with no arrivals, is nothing where the count is the one armed, and is
WEIRCOUNT otherwise. An arrival whose count is not the armed one is WEIRCOUNT; the last arrival of a phase begins the next, and
the wave keeps the phase it arrived in. WEIRSYNC arrives and parks unless its arrival was the last; WEIRWAIT parks while the
phase of the wave's last arrival, or the present one, is not over. R185, R195: CBARV counts its wave in at a barrier of its cluster launch, and the phase ends when every non-exited wave of the
launch has arrived; a second arrival in one phase parks, as CBWAIT does until the phase of its wave's last arrival is over. -/
def Obligations.Barriers : Prop :=
  (∀ (s : State) (x : IF),
    let k := s.cur
    let c := crewOf k
    let n := (x.imm.extractLsb' 0 4).toNat
    let cnt := (x.imm.extractLsb' 8 6).toNat
    let y := (s.crew c).weir n
    let y1 : Weir := if y.a + 1 = y.armed then { y with p := y.p + 1, a := 0 } else { y with a := y.a + 1 }
    let bad : Dword := BitVec.ofNat 64 (n + y.armed * 256 + cnt * 65536)
    let arrived (b : State) : State :=
      ((b.modCrew c fun z => { z with weirs := tset z.weirs n y1 }).waveReleases k).modWave k fun w =>
        { w with weirLast := tset w.weirLast n y.p }
    let open' : Prop := (s.wave k).held = [] ∧ ∀ f ∈ (s.wave k).fences, f.1 ≠ 2
    (∀ i, (i = .weirarv x ∨ i = .weirsync x) → s.mayIssue i → s.actOf i ≠ 0 →
      ((s.wave k).missHeld = true → parksAt s i (s.begun i) .miss) ∧
      ((s.wave k).missHeld = false → ¬open' → exec i s = .next s)) ∧
    (s.mayIssue (.weirset x) → s.actOf (.weirset x) ≠ 0 →
      (y.a = 0 → runsTo s (.weirset x)
        ((s.begun (.weirset x)).modCrew c fun z => { z with weirs := tset z.weirs n { y with armed := cnt } }) []) ∧
      (y.a ≠ 0 → cnt = y.armed → runsTo s (.weirset x) (s.begun (.weirset x)) []) ∧
      (y.a ≠ 0 → cnt ≠ y.armed → faultsWith s (.weirset x) .weircount bad)) ∧
    (s.mayIssue (.weirarv x) → s.actOf (.weirarv x) ≠ 0 → open' →
      (cnt = y.armed → runsTo s (.weirarv x) (arrived (s.begun (.weirarv x))) []) ∧
      (cnt ≠ y.armed → faultsWith s (.weirarv x) .weircount bad)) ∧
    (s.mayIssue (.weirsync x) → s.actOf (.weirsync x) ≠ 0 → open' →
      (cnt = y.armed → y.a + 1 = y.armed → runsTo s (.weirsync x) (arrived (s.begun (.weirsync x))) []) ∧
      (cnt = y.armed → y.a + 1 ≠ y.armed → issuesAndParks s (.weirsync x) (arrived (s.begun (.weirsync x))) (.weir n y.p true) []) ∧
      (cnt ≠ y.armed → faultsWith s (.weirsync x) .weircount bad)) ∧
    (s.mayIssue (.weirwait x) → s.actOf (.weirwait x) ≠ 0 →
      let ph := (tfind (s.wave k).weirLast n).getD y.p
      (y.p ≠ ph → runsTo s (.weirwait x) (s.begun (.weirwait x)) []) ∧
      (y.p = ph → issuesAndParks s (.weirwait x) (s.begun (.weirwait x)) (.weir n ph false) [])) ∧
    (∀ i, (i = .weirset x ∨ i = .weirarv x ∨ i = .weirsync x ∨ i = .weirwait x) → s.mayIssue i → s.actOf i = 0 →
      runsTo s i (s.begun i) [])) ∧
  (∀ (s : State) (x : IF),
    let k := s.cur
    let n := (x.imm.extractLsb' 0 2).toNat
    let b := s.cbar k n
    let h := s.unitHead (crewOf k)
    (s.mayIssue (.cbarv x) → s.actOf (.cbarv x) ≠ 0 →
      ((s.wave k).missHeld = true → parksAt s (.cbarv x) (s.begun (.cbarv x)) .miss) ∧
      ((s.wave k).missHeld = false → (s.wave k).held ≠ [] → exec (.cbarv x) s = .next s)) ∧
    (s.mayIssue (.cbarv x) → s.actOf (.cbarv x) ≠ 0 → (s.wave k).held = [] →
      (tfind (s.wave k).cbLast n = some b.p → k ∈ b.arrived → parksAt s (.cbarv x) (s.begun (.cbarv x)) (.cbarv n b.p)) ∧
      (¬(tfind (s.wave k).cbLast n = some b.p ∧ k ∈ b.arrived) →
        runsTo s (.cbarv x)
          (((((s.begun (.cbarv x)).modCrew h fun c =>
              { c with cbars := tset c.cbars n { b with arrived := b.arrived ++ [k] } }).waveReleases k).modWave k fun w =>
              { w with cbLast := tset w.cbLast n b.p }).barrierCheck (crewOf k) n) [])) ∧
    (s.mayIssue (.cbwait x) → s.actOf (.cbwait x) ≠ 0 →
      let ph := (tfind (s.wave k).cbLast n).getD b.p
      (b.p ≠ ph → runsTo s (.cbwait x) (s.begun (.cbwait x)) []) ∧
      (b.p = ph → issuesAndParks s (.cbwait x) (s.begun (.cbwait x)) (.cbwait n ph) [])) ∧
    (∀ t : State, ∀ c m, let g := t.unitHead c
      let y := tget (t.crew g).cbars {} m
      y.arrived ≠ [] → (∀ j ∈ t.unitWaves c, j ∈ y.arrived) →
      t.barrierCheck c m = t.modCrew g fun z => { z with cbars := tset z.cbars m { arrived := [], p := y.p + 1 } }))

/-- R23, R24, R45, R185, R196, R198: NEXTTILE answers the entry at the crew's cursor, which moves on but at an entry of all ones and
past the end, where the answer is all ones. ACQX takes blocks at once where they are free and no request waits, with DEAD
registers, parks behind the others else, and is BUDGET for a wave that holds blocks or beyond what the crew carved in the
quadrant; a grant serves the oldest request once the blocks are free; RELX gives them back. -/
def Obligations.TilesAndBlocks : Prop :=
  (∀ (s : State) (x : VF), s.mayIssue (.nexttile x) →
    let c := crewOf s.cur
    let e := ((s.crew c).sched[(s.crew c).cursor]?).getD 0xFFFFFFFF
    (s.actOf (.nexttile x) = 0 → runsTo s (.nexttile x) (s.begun (.nexttile x)) []) ∧
    (s.actOf (.nexttile x) ≠ 0 →
      runsTo s (.nexttile x)
        (if e = 0xFFFFFFFF then s.begun (.nexttile x)
         else (s.begun (.nexttile x)).modCrew c fun y => { y with cursor := y.cursor + 1 })
        [resS x.d.toNat 1 (s.actOf (.nexttile x)) e.toNat])) ∧
  (∀ (s : State) (x : IF), s.mayIssue (.acqx x) →
    let k := s.cur
    let n := x.imm.toNat
    let beyond : Prop := (s.wave k).xb ≠ 0 ∨ (s.crew (crewOf k)).carved (quadOf k) < n
    let now : Prop := (s.quad k).acq = [] ∧ n ≤ s.poolFree (crewOf k) (quadOf k)
    (s.actOf (.acqx x) = 0 → runsTo s (.acqx x) (s.begun (.acqx x)) []) ∧
    (s.actOf (.acqx x) ≠ 0 → beyond → faultsWith s (.acqx x) .budget (BitVec.ofNat 64 (s.wave k).breg)) ∧
    (s.actOf (.acqx x) ≠ 0 → ¬beyond → now → runsTo s (.acqx x) ((s.begun (.acqx x)).modWave k fun w => w.takeBlocks n) []) ∧
    (s.actOf (.acqx x) ≠ 0 → ¬beyond → ¬now →
      parksAt s (.acqx x) ((s.begun (.acqx x)).modQuad (coreOf k) (quadOf k) fun y => { y with acq := y.acq ++ [k] }) (.acqx n))) ∧
  (∀ (s : State) (core q : Nat) (k : Key) (r : List Key) (n : Nat) (i : Instr),
    (tget (s.core core).quads {} q).acq = k :: r → (s.wave k).park = some (.acqx n) → (s.wave k).parkI = some i →
    (s.wave k).stopped = false → s.clockOn core = true → exec (.acqxGrant core q) s = .next
      (if n ≤ s.poolFree (crewOf k) q then
        let t := ((s.modQuad core q fun y => { y with acq := r }).modWave k fun w => w.takeBlocks n).retired k i []
        t.modWave k fun w => { w with waited := (t.quad k).cyc }
      else s)) ∧
  (∀ (s : State) (x : IF), s.mayIssue (.relx x) → waveLevelRuns s (.relx x) fun b => b.modWave s.cur Wave.release) ∧
  (∀ (w : Wave) (n : Nat),
    (w.takeBlocks n).xb = n ∧ w.release.xb = 0 ∧
    (∀ r, r < 256 → (w.takeBlocks n).isLive .v r = (w.isLive .v r && !(decide (w.breg ≤ r) && decide (r < w.breg + 32 * n)))) ∧
    (∀ r, r < 256 → w.release.isLive .v r = (w.isLive .v r && !(decide (w.breg ≤ r) && decide (r < w.breg + 32 * w.xb)))) ∧
    (∀ b, w.breg ≤ 8 * b → 8 * b < w.breg + 32 * w.xb → (w.release.bank b).st = .off))

/-- R13, R71, R75, R91, R202, R203: SRD reads a special register, a wide one into a pair; SWR of PART, FPFLAGS, SRSEED and SPAUTO
keeps what their fields hold, a reserved tile size is ILLEGAL, a seed of 0 is held as 1; a word in no lane writes nothing. R113, R114,
R127, R129, R130, R185, R204, R337: SCW reads an image, checks it against its polder, raises the epoch and installs the image, and its
slot counts until no operation carries an older epoch; SCR writes an image; SCACK sets the VIEW bit of its wave and takes over the
entry's epoch. In reeve mode SCW and SCR act on the context of the object in TGTW, and SCACK on the wave in it: a stopped wave, or one
of a crew that is saved, in its image; an object that does not serve is SCRANGE. -/
def Obligations.SpecialAndScopeWords : Prop :=
  ((∀ (s : State) (x : IF), s.mayIssue (.srd x) →
    runsTo s (.srd x) (s.begun (.srd x))
      [if sregScalar x then resS x.d.toNat (sregWidth x) (s.actOf (.srd x)) (s.sregVal s.cur (sregNum x) 0)
       else resV x.d.toNat (sregWidth x) (s.actOf (.srd x)) (s.sregVal s.cur (sregNum x))]) ∧
  (∀ (s : State) (k : Key) (l : Fin 32),
    let w := s.wave k
    let c := s.crew (crewOf k)
    let d := s.die (dieOf (coreOf k))
    s.sregVal k 0x000 l = w.partreg.toNat ∧ s.sregVal k 0x001 l = w.fpflags.toNat ∧ s.sregVal k 0x002 l = w.view.toNat ∧
    s.sregVal k 0x003 l = c.regionMode.toNat ∧ s.sregVal k 0x004 l = (w.srseed[l]).toNat ∧ s.sregVal k 0x005 l = c.spauto.toNat ∧
    s.sregVal k 0x008 l = c.luign.toNat ∧ s.sregVal k 0x009 l = c.uhmiss.toNat ∧ s.sregVal k 0x010 l = l.val ∧
    s.sregVal k 0x011 l = k % 32 ∧ s.sregVal k 0x014 l = dieOf (coreOf k) ∧ s.sregVal k 0x020 l = d.cyc % 2 ^ 64 ∧
    s.sregVal k 0x021 l = d.ncyc % 2 ^ 64 ∧ s.sregVal k 0x022 l = s.reft % 2 ^ 64 ∧ s.sregVal k 0x100 l = w.tgtw.toNat ∧
    s.sregVal k 0x101 l = d.evec.toNat ∧ s.sregVal k 0x102 l = d.evq.length) ∧
  (∀ (s : State) (x : IF), s.mayIssue (.swr x) →
    let i := Instr.swr x
    let k := s.cur
    let w := s.wave k
    let m := s.actOf i
    let v := if sregScalar x then w.rsn x.a.toNat (sregWidth x) else w.rvn x.a.toNat (sregWidth x) (lowLane m)
    let v32 : Word := BitVec.ofNat 32 v
    (m = 0 → runsTo s i (s.begun i) []) ∧
    (m ≠ 0 → sregNum x = 0x000 → 5 ≤ v % 8 → faultsWith s i .illegal 0) ∧
    (m ≠ 0 → sregNum x = 0x000 → v % 8 < 5 → runsTo s i ((s.begun i).modWave k fun w => { w with partreg := v32 &&& 7 }) []) ∧
    (m ≠ 0 → sregNum x = 0x001 → runsTo s i ((s.begun i).modWave k fun w => { w with fpflags := v32 &&& 0x3F }) []) ∧
    (m ≠ 0 → sregNum x = 0x004 → ∃ t, exec i s = .next t ∧ ∀ l : Fin 32, (t.wave k).srseed[l] =
      if inMask m l then (let y := if sregScalar x then v32 else w.rv x.a.toNat l; if y = 0 then 1 else y) else w.srseed[l]) ∧
    (m ≠ 0 → sregNum x = 0x005 →
      runsTo s i ((s.begun i).modCrew (crewOf k) fun c => { c with spauto := v32 &&& BitVec.ofNat 32 (2 ^ min c.spbN 32 - 1) }) []) ∧
    (m ≠ 0 → sregNum x = 0x100 → runsTo s i ((s.begun i).modWave k fun w => { w with tgtw := v32 }) []) ∧
    (m ≠ 0 → sregNum x = 0x101 →
      runsTo s i ((s.begun i).modDie (dieOf (coreOf k)) fun d => { d with evec := BitVec.ofNat 64 v }) []))) ∧
  ((∀ (s : State) (x : MF),
    let i := Instr.scw x
    let k := s.cur
    let b := s.begun i
    s.mayIssue i → s.actOf i ≠ 0 → s.gateOpen 0 →
    (∀ c, s.ctxOf k = some c → b.scopeTarget k = some (.wave c k)) ∧
    (s.ctxOf k = none → b.scopeTarget k = b.obj (s.wave k).tgtw) ∧
    (b.scopeTarget k = none ∨ x.sc.toNat < 6 → faultsWith s i .scrange (x.sc.setWidth 64)) ∧
    ∀ o s1 pa home, b.scopeTarget k = some o → 6 ≤ x.sc.toNat →
      b.wordAccess k ((s.wave k).addrS x) 64 .read = .inr (s1, pa, home) →
      let rd := s1.readWords (clusterOf (coreOf k)) pa home 8
      let img := scopeOfImage rd.1
      (rd.2.imageOk (polderOf o.ctxNo) img = false → faultsWith s i .scrange (x.sc.setWidth 64)) ∧
      (rd.2.imageOk (polderOf o.ctxNo) img = true →
        runsTo s i (rd.2.installScope o.ctxNo x.sc.toNat img)
          [{ file := .v, reg := 0, data := [], mask := BitVec.allOnes 32, arrived := false,
             why := some (.scw o.ctxNo x.sc.toNat) }])) ∧
  (∀ (s : State) (c n : Nat) (img : Scope),
    let t := s.installScope c n img
    (t.scopeEnt c n).epoch = (s.scopeEnt c n).epoch + 1 ∧ (t.scopeEnt c n).img = img ∧
    (∀ m, m ≠ n → t.scopeEnt c m = s.scopeEnt c m)) ∧
  (∀ (s : State) (c n : Nat),
    (∀ e ∈ s.waves, isReeveCore (coreOf e.1) = false → (s.crew (crewOf e.1)).ctx = c →
      e.2.carriesOld n (s.scopeEnt c n).epoch = false) → s.savedOld c n = false →
    ∃ t, exec (.scwComplete c n) s = .next t ∧ t.scopeEnt c n = { s.scopeEnt c n with old := [] } ∧
      ∀ e ∈ t.waves, ∀ p ∈ e.2.pend, p.why = some (.scw c n) → p.arrived = true) ∧
  (∀ (s : State) (x : MF) (img : List Dword) (s1 : State) (pa home : Nat),
    let i := Instr.scr x
    let k := s.cur
    s.mayIssue i → s.actOf i ≠ 0 → s.gateOpen 0 →
    ((s.begun i).scopeTarget k).bind (fun o => (s.begun i).scrImage o x.sc.toNat) = some img →
    (s.begun i).wordAccess k ((s.wave k).addrS x) 64 .write = .inr (s1, pa, home) →
    runsTo s i (s1.writeWords (s.ctxOf k) (clusterOf (coreOf k)) home pa img) []) ∧
  (∀ (s : State) (x : MF) (c : Nat), s.mayIssue (.scack x) → s.ctxOf s.cur = some c →
    let n := x.sc.toNat
    waveLevelRuns s (.scack x) fun b => b.modWave s.cur fun w =>
      if n < 6 ∨ w.view.getLsbD n = true then w
      else { w with view := w.view ||| BitVec.twoPow 16 n, acked := tset w.acked n (s.scopeEnt c n).epoch }) ∧
  (∀ (s : State) (x : MF),
    let i := Instr.scack x
    let n := x.sc.toNat
    let b := s.begun i
    let o := b.obj (s.wave s.cur).tgtw
    s.mayIssue i → s.actOf i ≠ 0 → s.ctxOf s.cur = none →
    ((∀ c t, o ≠ some (.wave c t)) → faultsWith s i .scrange (x.sc.setWidth 64)) ∧
    ∀ c t, o = some (.wave c t) →
      let ep := (s.scopeEnt c n).epoch
      (b.crewHere c (crewOf t) = true → (b.wave t).stopped = true → runsTo s i (b.modWave t fun w =>
        if n < 6 ∨ w.view.getLsbD n = true then w
        else { w with view := w.view ||| BitVec.twoPow 16 n, acked := tset w.acked n ep }) []) ∧
      (b.crewHere c (crewOf t) = true → (b.wave t).stopped = false → faultsWith s i .scrange (x.sc.setWidth 64)) ∧
      (b.crewHere c (crewOf t) = false →
        (∀ a, b.imgOf c (crewOf t) = some a → runsTo s i (b.ackImage (coreOf s.cur) a.addr (waveIdOf t) n ep) []) ∧
        (b.imgOf c (crewOf t) = none → runsTo s i (b.ackAside c (crewOf t) (waveIdOf t) n ep) []))))

-- Memory.

/-- R12, R34, R98, R244 to R246, R318, R371, R379, R384, R414, R419: LD and ST, vector and scalar, and, with the epoch their scope check
answers, the atomic words. Behind an access that missed the wave parks; behind one that waits for a clock, a controller or a peer, or
a path fence, the word is held at issue. The first checked lane with a wrong address faults before anything is done, and a page that
the core's TLB holds and that forbids the access is ACCESS; a fault that only a walk or the data show, and a lane that misses, hold the
access, and the wave goes on with the result pending, as it does where a lane waits for a stopped clock, for tokens or for a peer; an
error in the line that a store writes is ECCFATAL; else the lanes are performed in ascending order, helper lanes whose load would
fault left out, and the loaded values are the result. -/
def Obligations.LoadsAndStores : Prop :=
  (∀ (s : State) (i : Instr), plainAcc i = true ∨ (atomAcc i).isSome = true → s.mayIssue i →
    ((s.wave s.cur).missHeld = true → parksAt s i (s.begun i) .miss) ∧
    ((s.wave s.cur).missHeld = false → ¬s.gateOpen 0 → exec i s = .next s)) ∧
  (∀ (s : State) (i : Instr) (k : Key) (stamp : Stamp) (ep : Word) (ls : List (LaneAcc × Nat × Nat)), plainAcc i = true →
    s.accRun i k stamp ep ls = accLanesRun i k stamp ls s) ∧
  (∀ (s : State) (i : Instr) (ep : Word),
    (plainAcc i = true ∧ ep = 0) ∨
      (∃ x inst, atomAcc i = some x ∧ (s.begun i).scopeCheck s.cur x.sc.toNat = .inr (ep, inst)) →
    s.mayIssue i → s.gateOpen 0 →
    let k := s.cur
    let pc := (s.wave k).pc
    let ls := accLanes i (s.wave k)
    let st := s.stampNow k
    let begun := (s.begun i).stampIssue i k ls
    let lanes := trLanes k (accSize i) (accOf i) ls (s.begun i)
    let holds (b : State) (h : HeldAcc) : Prop :=
      runsTo s i (b.modWave k fun w => { w with held := w.held ++ [h] }) (heldRes i (s.actOf i))
    (∀ s1 ls, s.accReady i s1 ls →
      let r := s1.accRun i k st ep ls
      runsTo s i (r.2.dropOps .wave k) (accRes i (s.actOf i) r.1)) ∧
    (∀ c e, accFault (accSize i) ls = some (c, e) → faultsWith s i c e) ∧
    (accFault (accSize i) ls = none →
      (∀ c det, lanes = .bad c det true → faultsWith s i c (BitVec.ofNat 64 det)) ∧
      (∀ c det, lanes = .bad c det false → holds begun { heldOf i pc st ep det ls with bad := some c }) ∧
      (lanes = .busy → holds begun { heldOf i pc st ep 0 ls with fifo := true }) ∧
      (∀ va c, lanes = .miss va → s.ctxOf k = some c →
        holds (begun.reportMiss c va (.data k)) (heldOf i pc st ep va ls)) ∧
      (∀ va, lanes = .miss va → s.ctxOf k = none → faultsWith s i .xlate (BitVec.ofNat 64 va)) ∧
      ∀ s0 tr, lanes = .ok s0 tr →
        let s1 := s0.stampLanes i k tr
        let held (va : Nat) : HeldAcc := heldOf i pc st ep va (tr.map (·.1))
        (s1.accHeld i k tr = true → s1.accDry i k false tr = none → holds s1 { held 0 with fifo := true }) ∧
        (∀ d, s1.accDry i k false tr = some d →
          holds (if tfind (s1.crew (crewOf k)).thr 5 = none then s1.throttle (crewOf k) 5 16 else s1)
            { held 0 with fifo := true, dry := some d }) ∧
        (s1.accHeld i k tr = false → ∀ l s2, s1.accEcc (accOf i) i k tr = some (l, s2) →
          if accOf i = .write then
            exec i s = .next (s2.raiseWave k .eccfatal (BitVec.ofNat 64 (lineDet l)) ((encodeWave i).getD 0))
          else holds s2 { held (lineDet l) with bad := some .eccfatal }) ∧
        (s1.accHeld i k tr = false → s1.accEcc (accOf i) i k tr = none →
          let ws := s1.waitingLanes (accOf i) k (accSize i) (s1.servedLanes (accOf i) k (accSize i) tr)
          ws ≠ [] → holds
            (ws.foldl (fun s a => s.sendPeer .wave k a.1.lane a.2.1 a.1.e.toNat (accOf i != .read) a.1.data (accSize i)) s1)
            { held 0 with fifo := true })))

/-- R6, R98, R100, R108, R246: what a scalar store leaves in memory. Once the lines it uses have found room, it stores the low bytes of
its scalar registers, little-endian, at the physical address to which its address translates; an engine of its cluster sees these
bytes there afterwards and every other byte as before; home memory is unchanged where the page is cached (HOME 0 and 1). A scalar load
at the address returns what its cluster sees afterwards, sign-extended from the narrow signed sizes: what its caches held where they
held every byte of it, and else in what they did not hold dirty what home holds. Finding room changes no byte that anyone sees, and
memory only by what it turns out: nothing where the caches are not full. R98, R100, R387: the bytes of a store as the cluster sees
them: those stored hold the new values, all others are as before, in this cluster and in every other. R7, R334, R386, R389: an uncached
store is in home memory at once, but in the read-only bits of the tables and of a checkpoint directory, and changes no other byte, of a
context whose writes are not logged and which need not raise EXTW. -/
def Obligations.StoredBytes : Prop :=
  ((∀ (s s1 : State) (sz : MSize) (x : MF) (pa home : Nat),
    let i := Instr.stScalar sz x
    let k := s.cur
    let w := s.wave k
    let cl := clusterOf (coreOf k)
    let a : LaneAcc := { lane := 0, live := true, e := w.addrS x, data := w.rsn x.d.toNat sz.regs }
    let b := s1.touch (s.ctxOf k) (coreOf k) x.ch pa sz.bytes home
    s.mayIssue i → s.gateOpen 0 → s.actOf i ≠ 0 → home ≤ 1 →
    s.accReady i s1 [(a, pa, home)] →
    ∃ t, exec i s = .next t ∧ t.mem = b.mem ∧
      (∀ n, n < sz.bytes → t.seenByte cl (pa + n) = BitVec.ofNat 8 (w.rsn x.d.toNat sz.regs >>> (8 * n))) ∧
      (∀ j, ¬within pa sz.bytes j → t.seenByte cl j = b.seenByte cl j) ∧
      ∀ c j, c ≠ cl → t.seenByte c j = b.seenByte c j) ∧
  (∀ (s s1 : State) (sz : MSize) (x : MF) (pa home : Nat),
    let i := Instr.ldScalar sz x
    let k := s.cur
    let w := s.wave k
    let cl := clusterOf (coreOf k)
    let a : LaneAcc := { lane := 0, live := true, e := w.addrS x, data := 0 }
    let b := s1.touch (s.ctxOf k) (coreOf k) x.ch pa sz.bytes home
    s.mayIssue i → s.gateOpen 0 → s.actOf i ≠ 0 → home ≤ 3 → s.accReady i s1 [(a, pa, home)] →
    ∃ s2, let v := ofBytes ((List.range sz.bytes).map fun n => s2.seenByte cl (pa + n))
      runsTo s i s2 [resS x.d.toNat sz.regs (s.actOf i)
        (match sz with | .i8 => wrapOf 32 (sgnOf 8 v) | .i16 => wrapOf 32 (sgnOf 16 v) | _ => v)] ∧
      s2.mem = b.mem ∧ (∀ c j, c ≠ cl → s2.seenByte c j = b.seenByte c j) ∧
      (∀ j, s2.seenByte cl j = b.seenByte cl j ∨ s2.seenByte cl j = b.homeByte j) ∧
      (home ≤ 2 → b.holdsAll cl pa sz.bytes = true → ∀ j, s2.seenByte cl j = b.seenByte cl j)) ∧
  (∀ (s : State) (c : Option Nat) (core : Nat) (ch : BitVec 2) (pa n home : Nat),
    s.mayOverfill (clusterOf core) = false → (∀ q, (tget s.pkg.l2 [] q).length < sliceLines) →
    let b := s.touch c core ch pa n home
    b.mem = s.mem ∧ ∀ cl j, b.seenByte cl j = s.seenByte cl j)) ∧
  ((∀ (s : State) (c : Option Nat) (cl pa home : Nat) (bs : List Byte), home ≤ 1 →
    let t := s.lsuWrite c cl pa home bs
    t.mem = s.mem ∧
    (∀ n, n < bs.length → t.seenByte cl (pa + n) = bs.getD n 0) ∧
    (∀ b, ¬within pa bs.length b → t.seenByte cl b = s.seenByte cl b) ∧
    (∀ d b, d ≠ cl → t.seenByte d b = s.seenByte d b)) ∧
  (∀ (s : State) (c : Option Nat) (cl pa : Nat) (bs : List Byte), memWf s.mem = true → s.writesPlain c pa → plainBytes pa bs.length →
    let t := s.lsuWrite c cl pa 3 bs
    let m (a : Nat) : Byte := s.maskAt a &&& storeMask a
    (∀ n, n < bs.length → t.homeByte (pa + n) &&& m (pa + n) = bs.getD n 0 &&& m (pa + n)) ∧
    (∀ n, n < bs.length → t.seenByte cl (pa + n) = t.homeByte (pa + n)) ∧
    ∀ b, ¬within pa bs.length b → storeMask b ≠ 0 → t.homeByte b = s.homeByte b))

/-- R107, R110, R117, R118, R128, R137, R249 to R251: ATOM, ATOMCAS and RED. A scope the wave may not use is SCSTALE or SCRANGE,
whatever the mask; else the lanes are performed one after another at home, with the release before and the acquire after that ORD
asks for, and ATOM and ATOMCAS return the old values. One lane's step stores the operation's new value and returns the old, and no
copy in its cluster stays behind (R107); it changes no other byte, of a context whose writes are not logged and which need not raise
EXTW (R387, R389). R111, R112, R115, R252: LDWATCH reads its words; where a live lane's value differs from the one it last saw, or no
lane is live, it returns them, else it parks with its deadline and epoch, as it does where a page is not mapped or a read waits. A
parked LDWATCH reads again, and leaves when a value differs or its deadline has come, with the timeout indication in the second case.
That its last uses take effect when it leaves is the model's reading (log 79). -/
def Obligations.AtomicsAndWatches : Prop :=
  (((∀ (s : State) (i : Instr) (x : MF), atomAcc i = some x → s.mayIssue i → s.gateOpen 0 →
    let k := s.cur
    (∀ c, (s.begun i).scopeCheck k x.sc.toNat = .inl c → faultsWith s i c (x.sc.setWidth 64)) ∧
    (∀ ep inst s1 ls, (s.begun i).scopeCheck k x.sc.toNat = .inr (ep, inst) → s.accReady i s1 ls →
      let r := s1.accRun i k (s.stampNow k) ep ls
      runsTo s i (r.2.dropOps .wave k) (accRes i (s.actOf i) r.1))) ∧
  (∀ (s : State) (k : Key) (pa n : Nat) (f : Nat → Option Nat), memWf s.mem = true → s.writesPlain (s.ctxOf k) pa → plainBytes pa n →
    let cl := clusterOf (coreOf k)
    let old := ofBytes ((List.range n).map fun i => s.meetByte cl (pa + i))
    let r := s.atomAt k pa n f
    let m (a : Nat) : Byte := s.maskAt a &&& storeMask a
    r.1 = old ∧ (f old = none → r.2.mem = s.mem) ∧
    (∀ j x, j < n → tfind (r.2.dcache cl) (pa + j) = some x →
      x.val = if (f old).isSome then r.2.homeByte (pa + j) else BitVec.ofNat 8 (old >>> (8 * j))) ∧
    ∀ v, f old = some v →
      (∀ j, j < n → r.2.homeByte (pa + j) &&& m (pa + j) = BitVec.ofNat 8 (v >>> (8 * j)) &&& m (pa + j)) ∧
      ∀ b, ¬within pa n b → storeMask b ≠ 0 → r.2.homeByte b = s.homeByte b) ∧
  (∀ (w a b : Nat) (sg : Bool), a < 2 ^ w → b < 2 ^ w →
    let lt : Prop := if sg then sgnOf w a < sgnOf w b else a < b
    atomNew .add w sg a b = (a + b) % 2 ^ w ∧ atomNew .and w sg a b = a &&& b ∧ atomNew .or w sg a b = a ||| b ∧
    atomNew .xor w sg a b = a ^^^ b ∧ atomNew .xchg w sg a b = b ∧
    (lt → atomNew .min w sg a b = a ∧ atomNew .max w sg a b = b) ∧ (¬lt → atomNew .min w sg a b = b ∧ atomNew .max w sg a b = a) ∧
    (a < b → atomNew .inc w sg a b = a + 1) ∧ (b ≤ a → atomNew .inc w sg a b = 0) ∧
    (a = 0 ∨ b < a → atomNew .dec w sg a b = b) ∧ (a ≠ 0 → a ≤ b → atomNew .dec w sg a b = a - 1))) ∧
  ((∀ (s : State) (t : BitVec 4) (x : MF) (ep : Word) (inst : ScopeInst),
    let i := Instr.ldwatch t x
    let k := s.cur
    s.mayIssue i → s.gateOpen 0 → (s.begun i).scopeCheck k x.sc.toNat = .inr (ep, inst) →
    (s.actOf i = 0 → runsTo s i (s.begun i) []) ∧
    (s.actOf i ≠ 0 → accFault 4 (ldwatchLanes x (s.wave k)) = none →
      let dl := if t = 0 then none else some (s.reft + 2 ^ (t.toNat + 6))
      let late := lateRes (watchRes x (s.actOf i) [] 0)
      (∀ s2 vals, (s.begun i).watchReads t x k (s.readWave i) inst.meet = .ok s2 vals →
        (watchChanged x (s.wave k) vals = true →
          runsTo s i (if ordAcq (mfOrd x) then s2.acquire (clusterOf (coreOf k)) inst else s2) (watchRes x (s.actOf i) vals 0)) ∧
        (watchChanged x (s.wave k) vals = false → issuesAndParks s i s2 (.ldwatch dl ep) late)) ∧
      (∀ s2, (s.begun i).watchReads t x k (s.readWave i) inst.meet = .wait s2 → issuesAndParks s i s2 (.ldwatch dl ep) late) ∧
      ∀ va c, (s.begun i).watchReads t x k (s.readWave i) inst.meet = .miss va → s.ctxOf k = some c →
        issuesAndParks s i ((s.begun i).reportMiss c va (.front k)) (.watchMiss va dl ep) late)) ∧
  (∀ (s s1 : State) (k : Key) (t : BitVec 4) (x : MF) (w : Wave) (meet : Meet) (tr : List (LaneAcc × Nat × Nat)),
    let i := Instr.ldwatch t x
    let ls := s1.servedLanes (watchAcc meet) k 4 tr
    trLanes k 4 .read (ldwatchLanes x w) s = .ok s1 tr → s1.accStuck (watchAcc meet) i k tr = false →
    s1.accEcc (watchAcc meet) i k tr = none → s1.waitingLanes (watchAcc meet) k 4 ls = [] →
    s.watchReads t x k w meet = .ok ((watchLanes k meet ls s1).2.dropOps .wave k) (watchLanes k meet ls s1).1) ∧
  (∀ (s s2 : State) (k : Key) (dl : Option Nat) (ep : Word) (t : BitVec 4) (x : MF) (vals : Tab Nat),
    let w := s.wave k
    let inst := s.scopeInst k x.sc.toNat ep
    w.park = some (.ldwatch dl ep) → w.parkI = some (.ldwatch t x) → w.stopped = false → s.clockOn (coreOf k) = true →
    s.watchReads t x k w inst.meet = .ok s2 vals →
    let late := match dl with | some d => decide (d ≤ s.reft) | none => false
    let changed := watchChanged x w vals
    exec (.ldwatchWake k) s = .next
      (if changed || late then
        (if ordAcq (mfOrd x) then s2.acquire (clusterOf (coreOf k)) inst else s2).finish k
          (watchRes x (w.act x.pr x.pn) vals (if changed then 0 else 1))
      else s2))))

/-- R101, R103, R104, R117, R118, R132, R253 to R257: FENCE releases and acquires at its scope; PFENCE holds the later accesses of a path
behind the wave's copy commands, its slot counting until they are complete, and lets what they wrote be seen; CFLUSH writes back, CINV
drops, PREF, ICPRE and ICPIN fetch, ICUNPIN unpins; in no lane they do nothing. That CFLUSH and CINV act on pages with any permission
is the model's choice (log 13), as is what of the cluster's copies a path fence drops (log 57). -/
def Obligations.FencesAndCaches : Prop :=
  (∀ (s : State) (x : MF) (ep : Word) (inst : ScopeInst),
    let k := s.cur
    let cl := clusterOf (coreOf k)
    let far : Prop := inst.meet = .home ∨ inst.meet = .system
    (s.mayIssue (.fence x) → s.gateOpen 0 → (∀ d, (s.die d).rel = false) → (s.begun (.fence x)).scopeCheck k x.sc.toNat = .inr (ep, inst) →
      waveLevelRuns s (.fence x) fun b =>
        let b1 := if 2 ≤ mfOrd x then (b.release cl inst).waveReleases k else b
        if mfOrd x = 1 ∨ 3 ≤ mfOrd x then b1.acquire cl inst else b1) ∧
    (s.mayIssue (.cflush x) → s.gateOpen 0 → (∀ d, (s.die d).rel = false) → (s.begun (.cflush x)).scopeCheck k x.sc.toNat = .inr (ep, inst) →
      s.rangeRuns (.cflush x) x .any fun ps b =>
        if far then b.writeBack cl fun a => inParts ps a && b.covers inst a else b) ∧
    (s.mayIssue (.cinv x) → s.gateOpen 0 → (s.begun (.cinv x)).scopeCheck k x.sc.toNat = .inr (ep, inst) →
      s.rangeRuns (.cinv x) x .any fun ps b =>
        (if far then b.dropClean cl fun a => inParts ps a && b.covers inst a else b).modPkg fun p =>
          { p with icore := tset p.icore (coreOf k) (cinvLines ps (tget p.icore [] (coreOf k))),
                   iclus := tset p.iclus cl (cinvLines ps (tget p.iclus [] cl)) })) ∧
  (∀ (s : State) (x : MF),
    let k := s.cur
    let i := Instr.pfence x
    let ids := s.waveCopies k
    let copies : Prop := s.actOf i ≠ 0 ∧ x.d.toNat = 1 ∧ x.ar.toNat ≠ 1
    s.mayIssue i → s.gateOpen 8 →
      (¬copies → runsTo s i (s.begun i) []) ∧
      (copies → ids = [] → runsTo s i ((s.begun i).seeCopies k) []) ∧
      (copies → ids ≠ [] →
        runsTo s i ((s.begun i).modWave k fun w => { w with fences := w.fences ++ [(x.ar.toNat, ids)] }) [fenceRes ids])) ∧
  (∀ (s : State) (lvl : PrefLvl) (x : MF), s.mayIssue (.pref lvl x) → s.gateOpen 0 →
    runsTo s (.pref lvl x)
      ((lanesOf (s.actOf (.pref lvl x))).foldl (fun b l => b.prefLane lvl s.cur ((s.wave s.cur).addrV x l)) (s.begun (.pref lvl x))) []) ∧
  (∀ (s : State) (cc : Bool) (x : MF),
    let k := s.cur
    (s.mayIssue (.icpre cc x) → s.gateOpen 0 → s.rangeRuns (.icpre cc x) x .fetch fun ps b =>
      (partLines ps).foldl (fun t l => t.icFetch (t.ctxOf k) cc (coreOf k) l.1 l.2) b) ∧
    (s.mayIssue (.icpin cc x) → s.gateOpen 0 → s.rangeRuns (.icpin cc x) x .fetch fun ps b =>
      (partLines ps).foldl (fun t l => (t.icFetch (t.ctxOf k) cc (coreOf k) l.1 l.2).pinLine cc (crewOf k) l.1) b) ∧
    (s.mayIssue (.icunpin cc x) → s.gateOpen 0 → s.rangeRuns (.icunpin cc x) x .fetch fun ps b =>
      b.unpin cc (crewOf k) fun l => inParts ps (l * 128)))

/-- R85 to R88, R90, R93, R245, R247: LDS and STS. The first live lane with a wrong address faults; LDS.NOW of an OFF bank is SPOFF; else
the lanes act in ascending order on the words of the crew, each access waking its bank. A word whose every lane is served
completes; lanes that must wait for a tag park the wave, and are served in their order when the word lets them. -/
def Obligations.Scratchpad : Prop :=
  (∀ (s : State) (mode : LdsMode) (sz : SpSize) (x : MF),
    let i := Instr.lds mode sz x
    let k := s.cur
    let w := s.wave k
    let c := s.crew (crewOf k)
    let m := s.actOf i
    let r := ldsLanes mode sz.regs x (s.begun i) k (s.readWave i) m
    s.mayIssue i → s.gateOpen 0 →
    (∀ f d, spFault c.spLimit (4 * sz.regs) w x m = some (f, d) → faultsWith s i f d) ∧
    (spFault c.spLimit (4 * sz.regs) w x m = none →
      (∀ l ∈ w.liveOf m, (mode = .now → (c.bank (w.spAddr x l / 8192)).st ≠ .off) ∧ ((c.bank (w.spAddr x l / 8192)).st = .retain →
        (c.bank (w.spAddr x l / 8192)).waking = false ∧ (c.bank (w.spAddr x l / 8192)).bad = false)) →
      (r.2.2 = 0 → runsTo s i r.1 [resV x.d.toNat sz.regs m fun l => tget r.2.1 0 l.val]) ∧
      (r.2.2 ≠ 0 → issuesAndParks s i (r.1.modWave k fun w =>
        { w with tagLeft := w.tagLeft ||| r.2.2,
                 tagGot := Vector.ofFn fun l => if inMask r.2.2 l then w.tagGot[l] else BitVec.ofNat 32 (tget r.2.1 0 l.val) })
        .tag (lateRes [resV x.d.toNat sz.regs m fun _ => 0])))) ∧
  (∀ (s : State) (e : Bool) (sz : SpSize) (x : MF),
    let i := Instr.sts e sz x
    let k := s.cur
    let w := s.wave k
    let c := s.crew (crewOf k)
    let m := s.actOf i
    let r := stsLanes e sz.regs x (s.begun i) k (s.readWave i) m
    s.mayIssue i → s.gateOpen 0 →
    (∀ f d, spFault c.spLimit (4 * sz.regs) w x m = some (f, d) → faultsWith s i f d) ∧
    (spFault c.spLimit (4 * sz.regs) w x m = none → (∀ l ∈ w.liveOf m, (c.bank (w.spAddr x l / 8192)).st = .retain →
        (c.bank (w.spAddr x l / 8192)).waking = false ∧ (c.bank (w.spAddr x l / 8192)).bad = false) →
      (r.2 = 0 → runsTo s i r.1 []) ∧
      (r.2 ≠ 0 → issuesAndParks s i (r.1.modWave k fun w => { w with tagLeft := w.tagLeft ||| r.2 }) .tag (lateRes [])))) ∧
  (∀ (s : State) (n : Nat) (ck : Key) (wid a l : Nat),
    let r := ldsLane .plain n ck wid true a l s
    r.2 = some ((s.crew ck).data a n) ∧ (r.1.crew ck).sp = (s.crew ck).sp ∧ ((r.1.crew ck).bank (a / 8192)).st = .full ∧ r.1.mem = s.mem) ∧
  (∀ (s : State) (ck : Key) (wid a l v : Nat), (s.crew ck).tagq = [] →
    let r := stsLane false 1 ck wid a l v s
    r.2 = true ∧ (r.1.crew ck).word (a / 4) = { data := wordAt v 0, full := true } ∧ r.1.mem = s.mem ∧
      ∀ n, n ≠ a / 4 → (r.1.crew ck).word n = (s.crew ck).word n) ∧
  (∀ (s : State) (core slot n : Nat),
    let c := crewKey core slot
    exec (.tagWaitServed core slot n) s = .next
      (if s.clockOn core then (List.range 32).foldl (fun s w => s.tagDone (waveKey c w)) (s.serveWord c n) else s)) ∧
  (∀ (c : Crew) (n fuel : Nat), (c.word n).full = true →
    (∀ t ∈ c.tagq, t.word = n → t.kind = .ldsf → (t.wave, t.lane, (c.word n).data) ∈ (c.serve n (fuel + 1)).2) ∧
    (∀ t, c.tagq.find? (fun t => t.word == n && t.kind == .ldst) = some t → (t.wave, t.lane, (c.word n).data) ∈ (c.serve n (fuel + 1)).2))

/-- R86, R90 to R93, R248: SPTAG sets or clears the tags of a range, SPDROP turns banks off, at once or when the copy beats pending into
them have landed; banks end their wakes, are dropped when they have been taken and stand empty for 16 cycles, and are retained in
a quiet crew. -/
def Obligations.ScratchpadBanks : Prop :=
  (∀ (s : State) (full : Bool) (x : MF),
    let i := Instr.sptag full x
    let k := s.cur
    let ck := crewOf k
    let c := s.crew ck
    let base := (s.wave k).spAddrS x
    let len := ((s.wave k).rs x.d.toNat).toNat
    let ws := (List.range (len / 4)).map fun j => base / 4 + j
    let woken := ((ws.map bankOfWord).dedup).filter fun b => full || (c.bank b).st ≠ .off
    s.mayIssue i → s.gateOpen 0 →
    (s.actOf i = 0 → runsTo s i (s.begun i) []) ∧
    (s.actOf i ≠ 0 → base % 4 ≠ 0 ∨ len % 4 ≠ 0 → faultsWith s i .align (BitVec.ofNat 64 base)) ∧
    (s.actOf i ≠ 0 → base % 4 = 0 → len % 4 = 0 → len = 0 → runsTo s i (s.begun i) []) ∧
    (s.actOf i ≠ 0 → base % 4 = 0 → len % 4 = 0 → len ≠ 0 → c.spLimit < base + len →
      faultsWith s i .access (BitVec.ofNat 64 base)) ∧
    (s.actOf i ≠ 0 → base % 4 = 0 → len % 4 = 0 → len ≠ 0 → base + len ≤ c.spLimit → (∀ b ∈ woken, (c.bank b).st = .retain →
        (c.bank b).waking = false ∧ (c.bank b).bad = false) →
      runsTo s i
        (ws.foldl (fun t n => if full || ((t.crew ck).word n).full then t.putWord ck n { (t.crew ck).word n with full := full } else t)
          (woken.foldl (fun t b => t.modCrew ck fun y => y.spWake b) (s.begun i))) [])) ∧
  (∀ (s : State) (x : MF), s.mayIssue (.spdrop x) → s.gateOpen 0 → waveLevelRuns s (.spdrop x) fun b =>
    ((List.range (min 32 (s.crew (crewOf s.cur)).spbN)).filter fun n => ((s.wave s.cur).rs x.d.toNat).getLsbD n).foldl
      (fun t n => t.dropBank (crewOf s.cur) n) b) ∧
  (∀ (s : State) (c : Key) (b : Nat),
    (s.copyPends c b = true → s.dropBank c b = s.modCrew c fun x => { x with spdrop := x.spdrop ||| BitVec.twoPow 32 b }) ∧
    (s.copyPends c b = false →
      (((s.dropBank c b).crew c).bank b).st = .off ∧ ∀ n, bankOfWord n = b → ((s.dropBank c b).crew c).word n = {}) ∧
    exec (.spdropComplete c b) s = .next (if (s.crew c).spdrop.getLsbD b then s.dropBank c b else s)) ∧
  (∀ (s : State) (c : Key) (b : Nat), ((s.crew c).bank b).waking = true → s.clockOn (coreOfCrew c) = true → (s.crew c).spLost b = false →
    exec (.spBankWakeDone c b) s = .next (s.modCrew c fun x => x.spWake b)) ∧
  (∀ (s : State) (c : Key) (b : Nat), s.dropDue c b = true →
    exec (.spAutoDrop c b) s = .next
      (match ((s.crew c).bank b).idle with
       | none => s.modCrew c fun x => x.setBank b { (s.crew c).bank b with idle := some (s.cycles (coreOfCrew c)) }
       | some t => if t + 16 ≤ s.cycles (coreOfCrew c) then s.modCrew c fun x => x.spOff b else s)) ∧
  (∀ (s : State) (c : Key) (b : Nat), ((s.crew c).bank b).st = .full → s.retth c ≠ 0 → s.crewQuiet c (s.retth c) = true →
    s.copyPends c b = false →
    exec (.spBankRetain c b) s = .next (s.modCrew c fun x => x.setBank b { (s.crew c).bank b with st := .retain, idle := none }))

-- The matrix engine and its stream.

/-- R96, R104, R125, R287 to R289, R292 to R306: the words of a stream but for products, MARV and MWAIT (`MatrixProducts`,
`StreamMeetings`). Each acts and the sequencer goes on at the next word, or where MLOOP and MJMP say; a tile of another crew is ACCESS.
Memory words post-increment their address register; nothing stands in their way here (a relock, a spent bucket, a peer's answer). MEND
releases what the sequencer has stored. -/
def Obligations.StreamWords : Prop :=
  (∀ (s : State) (t : TF) (i : Instr) (named : List Nat) (f : State → List Word),
    let c := s.seqKey
    (i = .azero t ∧ named = [t.acc.toNat] ∧ f = (fun _ => List.replicate 4096 0)) ∨
    (i = .aadd t ∧ named = [t.acc.toNat, t.ta.toNat, t.tb.toNat] ∧
      f = fun s => List.zipWith (aaddElem t) (s.tileOf c t.ta.toNat) (s.tileOf c t.tb.toNat)) ∨
    (i = .acvt t ∧ named = [t.acc.toNat, t.ta.toNat] ∧ f = fun s => (s.tileOf c t.ta.toNat).map (acvtElem t)) →
    s.seqReady i →
    ((∀ n ∈ named, (s.core (coreOfCrew c)).tileForeign (cslotOf c) n = false) →
      let s1 := s.takeTiles (coreOfCrew c) (cslotOf c) named.dedup
      seqRuns s i (s1.putTile (coreOfCrew c) t.acc.toNat (f s1)) none) ∧
    (∀ n, named.find? (fun n => (s.core (coreOfCrew c)).tileForeign (cslotOf c) n) = some n →
      seqFaults s i .access (BitVec.ofNat 64 n))) ∧
  (∀ (s s1 : State) (a : AF) (ps : List (Nat × Nat)),
    let c := s.seqKey
    let x := s.crew c
    let core := coreOfCrew c
    let m := x.seq.maReg a.areg.toNat
    let t := a.acc.toNat
    (s.core core).tileForeign (cslotOf c) t = false → maCheck m 16 = none →
    let from16 (n : Nat) : List Nat := rowParts m.toNat (strBytes a) n 16
    (s.seqReady (.aloadTile a) → seqParts x.ctx core .read (from16 256) s = .ok s1 ps →
      partsBlocked s1 (some x.ctx) c .read (from16 256) ps = none →
      let r := readParts x.ctx core 16 ps ((s1.seqServed c).takeTiles core (cslotOf c) [t])
      seqRuns s (.aloadTile a)
        ((r.2.putTile core t ((chunks 4 4096 r.1).map fun b => BitVec.ofNat 32 (ofBytes b))).bumpMa c a.areg.toNat a.inc 64) none) ∧
    (∀ f, s.seqReady (.astore f a) →
      seqParts x.ctx core .write (from16 (rowBytes f)) s = .ok s1 ps →
      partsBlocked s1 (some x.ctx) c .write (from16 (rowBytes f)) ps = none → x.seq.rows.Nodup → (∀ r ∈ x.seq.rows, r < 64) →
      let s2 := storeRows f a c x ps ((List.range 64).filter fun r => !x.seq.rows.contains r)
        ((s1.seqServed c).takeTiles core (cslotOf c) [t])
      seqRuns s (.astore f a) ((s2.modSeq c fun q => { q with rows := [] }).bumpMa c a.areg.toNat a.inc 64) none)) ∧
  (∀ (s s1 : State) (a : AF) (ps : List (Nat × Nat)),
    let c := s.seqKey
    let x := s.crew c
    let core := coreOfCrew c
    let m := x.seq.maReg a.areg.toNat
    let d := a.acc.toNat % 8
    s.seqReady (.aloadMa a) → maCheck m 8 = none → seqParts x.ctx core .read [m.toNat] s = .ok s1 ps →
    partsBlocked s1 (some x.ctx) c .read [m.toNat] ps = none →
    let r := readParts x.ctx core 8 ps (s1.seqServed c)
    seqRuns s (.aloadMa a)
      ((if d = a.areg.toNat then r.2 else r.2.bumpMa c a.areg.toNat a.inc 8).modSeq c fun q =>
        q.setMa d (BitVec.ofNat 64 (ofBytes r.1))) none) ∧
  (∀ (s s1 : State) (e4 : Bool) (areg : BitVec 3) (idx cnt : BitVec 12) (inc : BitVec 16) (ps : List (Nat × Nat)),
    let i := Instr.scld e4 areg idx cnt inc
    let c := s.seqKey
    let x := s.crew c
    let core := coreOfCrew c
    let n := cnt.toNat + 1
    let m := x.seq.maReg areg.toNat
    s.seqReady i → idx.toNat + n ≤ 4096 → maCheck m 2 = none →
    let vas := (List.range n).map fun j => m.toNat + 2 * j
    seqParts x.ctx core .read vas s = .ok s1 ps → partsBlocked s1 (some x.ctx) c .read vas ps = none →
    let r := readParts x.ctx core 2 ps (s1.seqServed c)
    let ws : List (BitVec 16) := (chunks 2 n r.1).map fun b => BitVec.ofNat 16 (ofBytes b)
    (e4 = false ∨ (∀ w ∈ ws, scaleType w = 0) →
      seqRuns s i ((r.2.modCore core fun y =>
        { y with scale := ws.zipIdx.foldl (fun t w => tset t (x.seq.half * 4096 + idx.toNat + w.2) w.1) y.scale }).bumpMa c areg.toNat inc 64) none) ∧
    (e4 = true → (∃ w ∈ ws, scaleType w ≠ 0) → seqFaults s i .illegal 0)) ∧
  (∀ (s s1 : State) (areg : BitVec 3) (inc : BitVec 16) (ps : List (Nat × Nat)),
    let c := s.seqKey
    let x := s.crew c
    let core := coreOfCrew c
    let m := x.seq.maReg areg.toNat
    (∀ n : BitVec 3, s.seqReady (.mchk n areg inc) → maCheck m 32 = none →
      let vas := (List.range (4 * (n.toNat + 1))).map fun j => m.toNat + 8 * j
      seqParts x.ctx core .write vas s = .ok s1 ps → partsBlocked s1 (some x.ctx) c .write vas ps = none →
      seqRuns s (.mchk n areg inc)
        ((writeParts x.ctx c 8 ps (checkBytes (x.newestChecks (n.toNat + 1))) (s1.seqServed c)).bumpMa c areg.toNat inc 64) none) ∧
    (∀ sel : BitVec 4, s.seqReady (.msrd sel areg inc) → maCheck m 8 = none → seqParts x.ctx core .write [m.toNat] s = .ok s1 ps →
      partsBlocked s1 (some x.ctx) c .write [m.toNat] ps = none →
      let s2 := s1.seqServed c
      seqRuns s (.msrd sel areg inc) ((writeParts x.ctx c 8 ps (bytesOf (s2.msrdVal c x sel.toNat) 8) s2).bumpMa c areg.toNat inc 8) none)) ∧
  (∀ s : State,
    let c := s.seqKey
    let x := s.crew c
    (∀ mode, s.seqReady (.mregion mode) → seqRuns s (.mregion mode)
      ((s.modCrew c fun x => { x with regionMode := mode }).islandSettle (coreOfCrew c)) none) ∧
    (∀ lc cnt off, s.seqReady (.mloop lc cnt off) →
      let n := (if tget x.seq.lcAct false lc.toNat then tget x.seq.lcCnt 0 lc.toNat else cnt.toNat + 1) - 1
      seqRuns s (.mloop lc cnt off)
        (s.modSeq c fun q => { q with lcCnt := tset q.lcCnt lc.toNat n, lcAct := tset q.lcAct lc.toNat (decide (0 < n)) })
        (if 0 < n then some (seqTarget x off) else none)) ∧
    (∀ clr off, s.seqReady (.mjmp clr off) → seqRuns s (.mjmp clr off)
      (s.modSeq c fun q =>
        { q with lcAct := (List.range 4).foldl (fun t n => if clr.getLsbD n then tset t n false else t) q.lcAct })
      (some (seqTarget x off))) ∧
    (s.seqReady .mend → seqRuns s .mend ((s.seqReleases c).modSeq c fun q => { q with st := .ended, latch := none }) none) ∧
    (∀ acc core row col bit, s.seqReady (.inj acc core row col bit) →
      let own : Prop := core.toNat < 252 ∧ s.ownsCluster (polderOf x.ctx) (clusterOf core.toNat) = true ∧ s.ctxDbg x.ctx = true
      (own → seqRuns s (.inj acc core row col bit)
        (s.modCore core.toNat fun y =>
          { y with inj := some { ctx := x.ctx, tile := acc.toNat, row := row.toNat, col := col.toNat, bit := bit.toNat } }) none) ∧
      (¬own → seqFaults s (.inj acc core row col bit) .access (core.setWidth 64))))

/-- R104, R125, R298, R299: MARV is an arrival at a weir, releases what the sequencer has stored, and notes the phase; MWAIT consumes one completed phase that the sequencer has not seen, and
parks the sequencer while there is none. -/
def Obligations.StreamMeetings : Prop :=
  ∀ s : State,
    let c := s.seqKey
    let x := s.crew c
    (∀ (weir : BitVec 4) (cnt : BitVec 6), s.seqReady (.marv weir cnt) →
      let y := x.weir weir.toNat
      let y1 : Weir := if y.a + 1 = y.armed then { y with p := y.p + 1, a := 0 } else { y with a := y.a + 1 }
      (cnt.toNat = y.armed → seqRuns s (.marv weir cnt)
        (((s.modCrew c fun z => { z with weirs := tset z.weirs weir.toNat y1 }).seqReleases c).modSeq c fun q =>
          { q with seen := tset q.seen weir.toNat y.p }) none) ∧
      (cnt.toNat ≠ y.armed → seqFaults s (.marv weir cnt) .weircount
        (BitVec.ofNat 64 (weir.toNat + y.armed * 256 + cnt.toNat * 65536)))) ∧
    (∀ weir : BitVec 4, s.seqReady (.mwait weir) →
      let d := ((x.weir weir.toNat).p - tget x.seq.seen 0 weir.toNat).toNat
      (1 ≤ d → d ≤ 2 ^ 31 → seqRuns s (.mwait weir)
        (s.modSeq c fun q => { q with seen := tset q.seen weir.toNat (tget q.seen 0 weir.toNat + 1) }) none) ∧
      (¬(1 ≤ d ∧ d ≤ 2 ^ 31) →
        exec (.mwait weir) s = .next (s.modSeq c fun q => { q with st := .parked, missVa := none })))

/-- R78, R79, R140 to R160, R258, R259, R287, R290, R291, R397: the matrix products. A word waits for a record that is to be installed or
cleared. One that fails its checks faults, once no earlier product
can be taken back; one that passes them is issued with its mode and records, and the sequencer goes on. The engine takes the first
waiting product of each sequencer, the two alternating. An exact product is delivered at once; in the other modes an attempt begins,
which at the guarded point is the exact product. A verdict without a failing line delivers the attempt, and in tolerant mode always;
one or two failing rows and columns are corrected while the engine goes on; more are run again, the fourth time at the guarded point. An
armed injection inverts one bit of attempt 1; what late bits do beside it is the model's reading of R314 and R316 (log 58): elements
outside its row and column are left as they came, and where the bit alone would show in the verdict it shows. -/
def Obligations.MatrixProducts : Prop :=
  (∀ (s : State) (i : Instr) (q : QF), mmaWord i = some q → s.seqReady i →
    let c := s.seqKey
    let x := s.crew c
    let core := coreOfCrew c
    let pends : Prop := ∃ n ∈ [q.ra.toNat, q.rb.toNat], (s.core core).obPends (cslotOf c) n = true
    (pends → exec i s = .next s) ∧
    (∀ f d, ¬pends → s.mmaCheck c x (mmaKind i).1 (mmaKind i).2 q = .inl (f, d) → (s.core core).openFor (cslotOf c) = false →
      seqFaults s i f d) ∧
    (∀ p, ¬pends → s.mmaCheck c x (mmaKind i).1 (mmaKind i).2 q = .inr p →
      let s1 := (s.takeTiles core (cslotOf c) [q.acc.toNat]).modCore core fun y =>
        { y with issued := y.issued ++ [mmaProduct c x i q p] }
      (mmaProduct c x i q p).mode = mmaMode x q ∧ seqRuns s i ((s1.islandSettle core).engineGo core) none)) ∧
  (∀ (s : State) (core : Nat) (p : Product), s.mmaNext core = some p →
    p ∈ (s.core core).heads ∧ s.mmaReady core p = true ∧
    ((s.core core).engLast = some p.cslot → ∀ r ∈ (s.core core).heads, s.mmaReady core r = true → r.cslot = p.cslot)) ∧
  (∀ (s : State) (core : Nat) (p : Product),
    let m := s.mmaStart core p
    let t := s.takeEngine core p
    (t.core core).engLast = some p.cslot ∧ t.mem = s.mem ∧
    (p.mode = 0 → m.exact.length = 4096 → ((t.core core).tile p.acc).elems = m.exact ∧ (t.core core).attempt = (s.core core).attempt) ∧
    (p.mode ≠ 0 → ∃ a, (t.core core).attempt = some a ∧ a.toProduct = p ∧ a.num = 1 ∧ a.phase = .attempt ∧ a.exact = m.exact ∧
      (a.below = false → a.got = m.exact) ∧ (∀ n, (t.core core).tile n = (s.core core).tile n))) ∧
  (∀ (s : State) (core : Nat) (m : Attempt) (es : List Word) (act : Option Nat), es.length = 4096 →
    let t := s.mmaDone core m es act
    ((t.core core).tile m.acc).elems = es ∧ (t.core core).attempt = (s.core core).attempt ∧ t.mem = s.mem ∧
    (∀ n, n ≠ m.acc → (t.core core).tile n = (s.core core).tile n)) ∧
  (∀ (s : State) (core : Nat) (m : Attempt), (s.core core).attempt = some m → m.phase = .attempt → s.clockOn core = true →
    (s.core core).inj = none →
    let f := m.fails
    let m1 := { m.noteFirst f.1 f.2 with failRows := f.1, failCols := f.2 }
    let m2 := { m1.tally true false with num := m.num + 1 }
    let verdictIs (t : State) : Prop := exec (.mmaAttemptVerdict core) s = .next (t.engineGo core)
    (m.mode ≠ 2 → f.1 = [] → f.2 = [] →
      verdictIs ((s.leaveEngine core).mmaDone core (m1.tally false false) m.got (some (if m.num = 1 then 0 else 2)))) ∧
    (m.mode = 2 → verdictIs ((s.leaveEngine core).mmaDone core (m1.tally (decide (f.1 ≠ []) || decide (f.2 ≠ [])) false) m.got
      (some (if f.1 ≠ [] ∨ f.2 ≠ [] then 5 else 0)))) ∧
    (m.mode ≠ 2 → 1 ≤ f.1.length → f.1.length ≤ 2 → 1 ≤ f.2.length → f.2.length ≤ 2 →
      verdictIs (s.modCore core fun y => { y with attempt := none, fixing := y.fixing ++ [{ m1 with phase := .correct }] })) ∧
    (m.mode ≠ 2 → (f.1 ≠ [] ∨ f.2 ≠ []) → ¬(1 ≤ f.1.length ∧ f.1.length ≤ 2 ∧ 1 ≤ f.2.length ∧ f.2.length ≤ 2) →
      s.seqStopped core m.cslot = false →
      (m.num < 3 → verdictIs ((s.runAttempt core m2).1.modCore core fun y => { y with attempt := some (s.runAttempt core m2).2 })) ∧
      (3 ≤ m.num → s.belowVg core = false → verdictIs ((s.leaveEngine core).mmaGuarded core m2)) ∧
      (3 ≤ m.num → s.belowVg core = true →
        verdictIs ((s.guardStep core (polderOf (s.crew (crewKey core m.cslot)).ctx)).modCore core fun y =>
          { y with attempt := some { m2 with phase := .reissue } })))) ∧
  (∀ (s : State) (core : Nat) (m : Attempt) (j : Inject), (s.core core).inj = some j → m.num = 1 →
    j.ctx = (s.crew (crewKey core m.cslot)).ctx → j.tile = m.acc → m.got.length = 4096 → j.row < 64 → j.col < 64 →
    let n := 64 * j.row + j.col
    let a := (s.inject core m).2
    let alone : Attempt :=
      { m with got := flipBit (m.bare j.row j.col) n j.bit, strike := some (j.row, j.col), counted := false }
    (s.inject core m).1 = (s.modCore core fun y => { y with inj := none }) ∧ a.injected = true ∧ a.toProduct = m.toProduct ∧
    (a.got.getD n 0 = m.got.getD n 0 ^^^ BitVec.twoPow 32 j.bit ∨ a.got = alone.got) ∧
    (∀ r < 64, ∀ d < 64, r ≠ j.row → d ≠ j.col → a.got.getD (64 * r + d) 0 = m.got.getD (64 * r + d) 0) ∧
    (alone.shown j.row j.col = true → a.shown j.row j.col = true)) ∧
  (∀ (s : State) (core : Nat) (m : Attempt) (r : List Attempt), (s.core core).fixing = m :: r → s.clockOn core = true →
    let ex := m.exact
    let at' := m.failRows.flatMap fun r => m.failCols.map fun j => 64 * r + j
    let same := at'.all fun n => m.got.getD n 0 == ex.getD n 0
    exec (.mmaCorrectionDone core) s = .next
      (((s.modCore core fun y => { y with fixing := r }).mmaDone core (m.tally true same)
        (at'.foldl (fun l n => l.set n (ex.getD n 0)) m.got) (some (if same then 4 else 1))).engineGo core)) ∧
  (∀ (s : State) (core : Nat), (s.core core).island.mode = .step → s.clockOn core = true →
    let s1 := s.modCore core fun y => { y with island := { y.island with mode := .guarded } }
    ((s.core core).attempt = none → exec (.guardStepDone core) s = .next ((s1.engineGo core).islandSettle core)) ∧
    (∀ m, (s.core core).attempt = some m → m.phase = .reissue → s.seqStopped core m.cslot = false →
      exec (.guardStepDone core) s = .next ((((s1.leaveEngine core).mmaGuarded core m).engineGo core).islandSettle core)))

-- Privileged words and events.

/-- R152: a tolerant MMA runs attempt 1 only and computes its verdict under R149; it delivers C as computed, with action PASS or COUNTED.
The verdict step is the one that R149's failing lines decide; whatever they are, the product is over and its tile holds the elements
of its attempt, with an injected bit inverted (R159). No other product waits for the engine. -/
def Obligations.TolerantRule : Prop :=
  ∀ (s : State) (core : Nat) (m : Attempt), (s.core core).attempt = some m → m.phase = .attempt → m.mode = 2 →
    s.clockOn core = true → (s.core core).issued = [] →
    let a := (s.inject core m).2
    a.got.length = 4096 →
    ∃ t, exec (.mmaAttemptVerdict core) s = .next t ∧ (t.core core).attempt = none ∧ ((t.core core).tile m.acc).elems = a.got ∧
      let pass : Prop := a.fails.1 = [] ∧ a.fails.2 = []
      let c := crewKey core m.cslot
      ∃ r, (t.crew c).chk[(s.crew c).chkSeq.toNat % 8]? = some r ∧
        (pass → bits (r.getD 2 0) 31 29 = 0) ∧ (¬pass → bits (r.getD 2 0) 31 29 = 5)

/-- R300: MREGION, `mregion exact|checked|tolerant`, is MOPC 0x12 with MODE in [55:54] and every other bit zero; MODE 3 is ILLEGAL;
`mregion checked` is 0x1240_0000_0000_0000. It writes the crew's MODE for every MMA that issues after it; an MMA already issued keeps
the mode it was given. -/
def Obligations.RegionRule : Prop :=
  (∀ (w : Dword) (mode : BitVec 2), decodeSeq w = .ok (.mregion mode) ↔ mode ≠ 3 ∧ w = (0x12#8 ++ mode ++ 0#54)) ∧
  decodeSeq (0x12#8 ++ 3#2 ++ 0#54) = .illegal ∧
  decodeSeq 0x1240000000000000#64 = .ok (.mregion 1) ∧
  (∀ (s : State) (mode : BitVec 2), s.seqReady (.mregion mode) → ∃ t, exec (.mregion mode) s = .next t ∧
    (t.crew s.seqKey).regionMode = mode ∧ (∀ c, c ≠ s.seqKey → (t.crew c).regionMode = (s.crew c).regionMode) ∧
    (∀ n, (t.core n).attempt = (s.core n).attempt ∧ (t.core n).issued = (s.core n).issued) ∧ t.mem = s.mem ∧ t.waves = s.waves) ∧
  (∀ (x : Crew) (q : QF), mmaMode x q = if q.rgn = 0 then x.regionMode.toNat else q.rgn.toNat - 1)

/-- R164, R180, R330, R341: privileged words belong to reeve mode. In user mode they do not decode, and one that is issued there
takes ACCESS, its DET the address of the word (the model's choice, log 19); in reeve mode a word whose area is not aligned takes ALIGN,
in no lane it does nothing, and a handle that names no object answers STATUS 1. While a die relocks the word waits (the model's choice,
log 88). -/
def Obligations.PrivilegeRules : Prop :=
  (∀ w i, decodeWave false w = .ok i → privWord i = none ∧ i ≠ .eret) ∧
  (∀ w i, decodeWave true w = .ok i → (privWord i).isSome = true ∨ i = .eret → decodeWave false w = .access) ∧
  (∀ (s : State) (i : Instr) (p : MF × Nat), privWord i = some p → s.mayIssue i →
    (isReeveCore (coreOf s.cur) = false → faultsWith s i .access (BitVec.ofNat 64 (s.wave s.cur).pc)) ∧
    (isReeveCore (coreOf s.cur) = true →
      (s.actOf i = 0 → runsTo s i (s.begun i) []) ∧
      (s.actOf i ≠ 0 → p.2 ≠ 0 → ((s.wave s.cur).addrS p.1).toNat % p.2 ≠ 0 → faultsWith s i .align ((s.wave s.cur).addrS p.1)) ∧
      (s.actOf i ≠ 0 → (p.2 = 0 ∨ ((s.wave s.cur).addrS p.1).toNat % p.2 = 0) → s.relocking = true → exec i s = .next s) ∧
      (s.actOf i ≠ 0 → (p.2 = 0 ∨ ((s.wave s.cur).addrS p.1).toNat % p.2 = 0) → s.relocking = false → (∀ y, i ≠ .ctxload y) →
        s.obj ((s.wave s.cur).handle p.1) = none → privRuns s i p.1 (s.begun i) (2 ^ 28)))) ∧
  (∀ s : State, s.mayIssue .eret → isReeveCore (coreOf s.cur) = false → faultsWith s .eret .access (BitVec.ofNat 64 (s.wave s.cur).pc))

/-- R340, R373, R421: ERET of a reeve wave takes the oldest event of its die, or parks the wave. A wave that takes an event holds its
record in s0 to s7, every other register DEAD, and stands at the vector base with every lane; all else that it holds stays (the
model's choice, log 95). An event of kind 0x02 reports the oldest unreported access of its context, and a new one is queued at once
where another remains. -/
def Obligations.EventEntry : Prop :=
  (∀ s : State, s.mayIssue .eret → isReeveCore (coreOf s.cur) = true →
    ((s.die (dieOf (coreOf s.cur))).evq = [] → parksAt s .eret (s.begun .eret) .event) ∧
    ((s.die (dieOf (coreOf s.cur))).evq ≠ [] → runsTo s .eret ((s.begun .eret).takeEvent s.cur) [] .leave)) ∧
  (∀ (s : State) (k : Key) (e : Event) (r : List Event),
    let d := dieOf (coreOf k)
    (s.die d).evq = e :: r →
    let t := s.takeEvent k
    let w := t.wave k
    let c := (e.handle >>> 23).toNat
    (e.kind ≠ 0x02 → (t.die d).evq = r ∧ t.ctxs = s.ctxs) ∧
    (e.kind = 0x02 → (t.ctx c).unrep = (s.ctx c).unrep.drop 1 ∧
      (e.handle = ctxHandle c → s.homeDie c = d → (∀ x ∈ r, ¬(x.kind = 0x02 ∧ x.handle = e.handle)) →
        ((s.ctx c).unrep.length ≤ 1 → (t.die d).evq = r) ∧
        (∀ x who va rest, (s.ctx c).unrep = x :: (who, va) :: rest → ∃ n, (t.die d).evq = r ++ [n] ∧ n.kind = 0x02 ∧
          n.handle = e.handle ∧ n.w1 = BitVec.ofNat 64 va))) ∧
    (∀ j, j ≠ k → t.wave j = s.wave j) ∧ t.mem = s.mem ∧
    w.fpflags = (s.wave k).fpflags ∧ w.pend = (s.wave k).pend ∧ w.kreg = (s.wave k).kreg ∧ w.calls = (s.wave k).calls ∧
    w.slive = 0xFF ∧ w.vlive = 0 ∧ w.park = none ∧ w.clause = none ∧ (∀ l : Fin 32, w.lpc[l] = (s.die d).evec) ∧
    w.rs 0 = e.handle ∧ w.rs 1 = BitVec.ofNat 32 (e.kind % 256 * 2 ^ 24) ∧
    w.rs 2 = e.w1.setWidth 32 ∧ w.rs 3 = (e.w1 >>> 32).setWidth 32 ∧ w.rs 4 = e.w2.setWidth 32 ∧ w.rs 5 = (e.w2 >>> 32).setWidth 32 ∧
    w.rs 6 = 0 ∧ w.rs 7 = 0) ∧
  (∀ (s : State) (k : Key), (s.wave k).park = some .event → (s.wave k).stopped = false → (s.wave k).held = [] →
    s.lowestIdle k = true →
    s.clockOn (coreOf k) = true →
    exec (.waveUnpark k) s = .next (s.takeEvent k))

/-- R342, R345, R346, R349, R374, R377, R378: while no die relocks, TLBINV removes a range's entries and walks its parked accesses again (a
count of 2^28 or more is taken modulo 2^28, log 89); STOPRD stops the
engines of a context whose floodgate is up and writes their records; RESUME lowers it and walks again the accesses that are parked,
declaring none invalid (the model's reading, log 38); it answers STATUS 2 where the floodgate is down, a record carries ATC, or a crew of a
loaded COOP or cluster launch is not resident; FLOOD raises the floodgate; DIRTYH writes the bitmap of dirty granules and clears them, for
2^26 granules at most (the model's reading, log 21). -/
def Obligations.ContextWords : Prop :=
  ∀ (s : State) (x : MF) (c : Nat), isReeveCore (coreOf s.cur) = true →
    let k := s.cur
    let w := s.wave k
    let e := (w.addrS x).toNat
    let named (i : Instr) : Prop := s.mayIssue i ∧ s.actOf i ≠ 0 ∧ s.relocking = false ∧ s.ctxOfHandle (w.handle x) = some c
    (named (.tlbinv x) →
      let n := (w.rs (x.d.toNat + 1)).toNat % 2 ^ 28
      privRuns s (.tlbinv x) x
        ((s.ctx c).qwait.foldl (fun t q => t.rewalkQueue c e n q) (((s.begun (.tlbinv x)).dropTlb c e n).rewalk c e n true)) 0) ∧
    (named (.stoprd x) → e % 64 = 0 →
      ((s.ctx c).up = false → privRuns s (.stoprd x) x (s.begun (.stoprd x)) (2 * 2 ^ 28)) ∧
      ((s.ctx c).up = true →
        let s1 := (s.begun (.stoprd x)).stopAll c
        let rs := (s1.ctx c).recs.insertionSort fun a b => a.place ≤ b.place
        let ws := rs.flatMap StopRec.words
        ((s.begun (.stoprd x)).fwRange (coreOf k) .write e (8 * ws.length) = none → privRuns s (.stoprd x) x (s.begun (.stoprd x)) (3 * 2 ^ 28)) ∧
        (∀ ps, (s.begun (.stoprd x)).fwRange (coreOf k) .write e (8 * ws.length) = some ps →
          privRuns s (.stoprd x) x (s1.putParts (coreOf k) ps ws) (rs.length % 2 ^ 28)))) ∧
    (named (.resume x) → ((s.ctx c).up = false → privRuns s (.resume x) x (s.begun (.resume x)) (2 * 2 ^ 28)) ∧
      (let b := s.begun (.resume x)
       let s0 := b.stopAll c
       let ks := s0.ctxCrews c
       let loaded := ks.filter fun k => (b.crew k).st == .loaded
       (s.ctx c).up = true →
       ((s0.ctx c).recs.any (·.atc) = true ∨ loaded.any (b.crewMissing c) = true → privRuns s (.resume x) x b (2 * 2 ^ 28)) ∧
       ((s0.ctx c).recs.any (·.atc) = false → loaded.any (b.crewMissing c) = false →
         privRuns s (.resume x) x
           ((((s0.startCrews loaded).resumeCrews c ks).modCtx c fun y =>
             { y with up := false, byFlood := false, recs := [], discarded := false }).rewalk c 0 0 false) 0))) ∧
    (named (.flood x) →
      let b := s.begun (.flood x)
      let s1 := ((b.modCtx c fun y => { y with up := true, byFlood := true }).stopAll c).modCtx c fun y =>
        { y with byFlood := !(s.ctx c).up || (s.ctx c).byFlood }
      ((s.ctx c).up = true → privRuns s (.flood x) x s1 0) ∧
      ((s.ctx c).up = false →
        privRuns s (.flood x) x
          (s1.event (s.homeDie c) 0x01 (ctxHandle c) (BitVec.ofNat 64 (eventClass (s1.ctx c).recs))) 0)) ∧
    (∀ final : Bool, named (.dirtyh final x) → e % 8 = 0 →
      let b := s.begun (.dirtyh final x)
      let n := min (w.rs (x.d.toNat + 1)).toNat (2 ^ 26)
      let gs := (List.range n).map fun g => w.rsn (x.d.toNat + 2) 2 / 4096 * 4096 + 4096 * g
      (final = true → (s.ctx c).up = false → privRuns s (.dirtyh final x) x b (2 * 2 ^ 28)) ∧
      (∀ ps, final = false ∨ ((s.ctx c).up = true ∧ b.blocked c = false) →
        b.fwRange (coreOf k) .write e (8 * ((n + 63) / 64)) = some ps →
        privRuns s (.dirtyh final x) x
          ((gs.foldl (fun t a => t.clearDirty c a) b).putParts (coreOf k) ps (bitmapWords ((n + 63) / 64) (gs.map (b.dirtyAt c))))
          (((gs.map (b.dirtyAt c)).filter (·)).length % 2 ^ 28)))

/-- R337, R343, R344, R347, R348, R380 to R383, R386, R387, R389: while no die relocks, CTXSAVE writes the images of the crews a handle names and frees them;
CTXLOAD brings images back, stopped; CKPT writes a checkpoint; ROLLBK of a stopped context without outside effects returns it to the
checkpoint, and is STATUS 5 else. -/
def Obligations.ContextImages : Prop :=
  (∀ (s : State) (x : MF) (o : Obj) (cs : List Key),
    let i := Instr.ctxsave x
    let k := s.cur
    let w := s.wave k
    let e := (w.addrS x).toNat
    s.mayIssue i → isReeveCore (coreOf k) = true → s.actOf i ≠ 0 → s.relocking = false → e % 4096 = 0 → s.obj (w.handle x) = some o →
    (∀ c j, o ≠ .wave c j) →
    (s.begun i).crewsNamed o = some cs → cs.any (s.begun i).saveHeld = false →
    let s1 := cs.foldl State.addCounts (cs.foldl State.settleCrew (s.begun i))
    let is := s1.images e cs
    let ws := imageWords is
    (∀ ps, (s.begun i).fwRange (coreOf k) .write e (8 * ws.length) = some ps →
      privRuns s i x
        (cs.foldl State.dropCrew ((s1.putParts (coreOf k) ps ws).modCtx o.ctxNo fun y =>
          { y with imgs := (y.imgs.filter fun a => !(is.any fun b => a.same b.1)) ++ is.map (·.1) }))
        (ws.length / 8 % 2 ^ 28)) ∧
    ((s.begun i).fwRange (coreOf k) .write e (8 * ws.length) = none → privRuns s i x (s.begun i) (3 * 2 ^ 28))) ∧
  (∀ (s : State) (x : MF) (a : Array Dword) (is : List (Nat × Array Dword)) (s1 : State),
    let i := Instr.ctxload x
    let b := s.begun i
    let k := s.cur
    let w := s.wave k
    let h := w.handle x
    let c := hCtx h
    s.mayIssue i → isReeveCore (coreOf k) = true → s.actOf i ≠ 0 → s.relocking = false → (w.addrS x).toNat % 1024 = 0 →
    handleForm h = true →
    s.ctxValid c = true → hKind h = 1 ∨ hKind h = 3 → b.fwImage (coreOf k) (w.addrS x).toNat = some a →
    (imageOk a = false → privRuns s i x b (4 * 2 ^ 28)) ∧
    (imageOk a = true → b.fwImages (coreOf k) (if hKind h = 1 then 1 else recCl (imageRec a)) (w.addrS x).toNat = some is →
      let held : Prop := ∃ j ∈ is, b.holds c (b.claim c j.1 j.2).1 = true
      (held → privRuns s i x b (2 * 2 ^ 28)) ∧
      (¬held → (∃ j ∈ is, imageOk j.2 = false) → privRuns s i x b (4 * 2 ^ 28)) ∧
      (¬held → (∀ j ∈ is, imageOk j.2 = true) →
        b.loadAll c is (if hKind h = 1 then [hCore h] else coresOfCluster (clusterOf (hCore h))) = some s1 →
        privRuns s i x s1 0))) ∧
  (∀ (s : State) (x : MF) (c : Nat),
    let k := s.cur
    let w := s.wave k
    let named (i : Instr) : Prop :=
      s.mayIssue i ∧ isReeveCore (coreOf k) = true ∧ s.actOf i ≠ 0 ∧ s.relocking = false ∧ s.ctxOfHandle (w.handle x) = some c
    (named (.ckpt x) →
      ((s.ctx c).up = true → privRuns s (.ckpt x) x (s.begun (.ckpt x)) (2 * 2 ^ 28)) ∧
      (∀ t st, (s.ctx c).up = false → (s.begun (.ckpt x)).checkpoint c = some (t, st) →
        privRuns s (.ckpt x) x t (st % 16 * 2 ^ 28))) ∧
    (named (.rollbk x) →
      ((s.ctx c).up = false → privRuns s (.rollbk x) x (s.begun (.rollbk x)) (2 * 2 ^ 28)) ∧
      ((s.ctx c).up = true → s.ctxExtw c = true ∨ s.hasCheckpoint c = false →
        privRuns s (.rollbk x) x (s.begun (.rollbk x)) (5 * 2 ^ 28)) ∧
      ((s.ctx c).up = true → s.ctxExtw c = false → s.hasCheckpoint c = true →
        privRuns s (.rollbk x) x (((s.begun (.rollbk x)).stopAll c).rollback c) 0)))

-- Copies and the operand buffer.

/-- R12, R50, R118, R132, R222, R260, R262, R268, R270 to R272: a push stages a word of a command, the fourth has it checked and accepted
into the queue of the core, or faults; the first three do not wait. The fourth is parked behind a held acquire that waits for a page,
with sixteen tokens to come, or without room in the queue; it waits at issue behind any other held acquire, and a remote copy for a
fence towards FABRIC. What an engine that has stopped accepts does not start. A pop takes the oldest token; it
waits while one is still to come, and else answers STAT 2. -/
def Obligations.CopyQueueWords : Prop :=
  (∀ (s : State) (x : VF),
    let i := Instr.movQ0Push x
    let k := s.cur
    let w := s.wave k
    let v : Dword := BitVec.ofNat 64 (w.rsn x.a.toNat 2)
    let win : List Res := if x.look = 0 then [] else [{ file := .v, reg := 0, data := [], mask := BitVec.allOnes 32 }]
    s.mayIssue i →
    (s.actOf i &&& w.liveMask = 0 → runsTo s i (s.begun i) []) ∧
    (s.actOf i &&& w.liveMask ≠ 0 → w.stage.length ≠ 3 →
      runsTo s i ((s.begun i).modWave k fun w => { w with stage := w.stage ++ [v] }) win) ∧
    (∀ w0 w1 w2, s.actOf i &&& w.liveMask ≠ 0 → w.stage = [w0, w1, w2] →
      let c := unpackCopy w0 w1 w2 v
      let goes : Prop := s.copyCheck k c = none ∧ w.heldAcquire = false ∧ w.fabricFence c = false
      (∀ f d, s.copyCheck k c = some (f, d) → faultsWith s i f d) ∧
      (s.copyCheck k c = none → w.heldAcquire = true → w.missHeld = true → parksAt s i (s.begun i) .miss) ∧
      (s.copyCheck k c = none → w.heldAcquire = true → w.missHeld = false → exec i s = .next s) ∧
      (s.copyCheck k c = none → w.heldAcquire = false → w.fabricFence c = true → exec i s = .next s) ∧
      (goes → s.tkOut k < 16 → s.q0room k = true →
        runsTo s i ((s.begun i).copyAccept k c) win) ∧
      (goes → 16 ≤ s.tkOut k → parksAt s i (s.begun i) .q0) ∧
      (goes → s.tkOut k < 16 → s.q0room k = false →
        parksAt s i ((s.begun i).modCore (coreOf k) fun y =>
          if y.q0wait.contains k then y else { y with q0wait := y.q0wait ++ [k] }) .q0))) ∧
  (∀ (s : State) (k : Key) (c : CopyCmd),
    let n := coreOf k
    let r := (s.core n).obRecOf c.res
    let t := s.copyAccept k c
    let halted := match s.ctxOf k with | some x => s.copyHalted x n | none => false
    (t.core n).copyq = (s.core n).copyq ++
      [{ cmd := c, cslot := cslotOf (crewOf k), wave := waveIdOf k, id := (s.core n).copyId, base := r.base, fmt := r.fmt,
         stopped := halted }] ∧
    (t.core n).copyId = (s.core n).copyId + 1 ∧ (t.wave k).stage = [] ∧ t.mem = s.mem) ∧
  (∀ (s : State) (x : VF),
    let i := Instr.movQ1Pop x
    let k := s.cur
    s.mayIssue i →
    (s.actOf i = 0 → runsTo s i (s.begun i) []) ∧
    (∀ t r, s.actOf i ≠ 0 → (s.wave k).tokens = t :: r →
      runsTo s i ((s.begun i).modWave k fun w => { w with tokens := r }) [resS x.d.toNat 2 (s.actOf i) t.toNat]) ∧
    (s.actOf i ≠ 0 → (s.wave k).tokens = [] → s.tkComing k = true → parksAt s i (s.begun i) .q1) ∧
    (s.actOf i ≠ 0 → (s.wave k).tokens = [] → s.tkComing k = false →
      runsTo s i (s.begun i) [resS x.d.toNat 2 (s.actOf i) 0x200000000000]))

/-- R260, R263 to R271, R318, R383, R384: the copy engine of a core whose clock runs. The oldest waiting command of a context whose
floodgate is down starts while fewer than four run. A beat reads every
source word and translates every destination before it writes, and is performed once; what it has read of an aligned 64-bit part whose
other half another beat writes is kept for that beat (R136); a miss parks the command, a page that
forbids the access or a line that cannot be corrected faults it; behind a relock it waits, at a spent bucket as tokenless, and for a peer
that does not respond it is sent once and waits for the answer. A command whose beats are done posts its token, arrives at its weir, a
release of what it wrote, and leaves the queue; where the weir's count differs the token is posted and the engine faults with WEIRCOUNT, and
the arrival is tried again. -/
def Obligations.CopyEngine : Prop :=
  (∀ (s : State) (core pos : Nat),
    let q := (s.core core).copyq
    let up (e : CopyEnt) : Bool := match s.copyCtx core e with | some c => (s.ctx c).up | none => false
    s.clockOn core = true → (q.filter fun e => e.st != .queued).length < 4 →
    q.findIdx? (fun e => e.st == .queued && !e.stopped && !up e) = some pos →
    exec (.copyCommandStart core) s = .next (s.modCopy core pos fun e => { e with st := .running })) ∧
  (∀ (s : State) (core pos b : Nat) (e : CopyEnt),
    s.clockOn core = true → (s.core core).copyq[pos]? = some e → e.st = .running → e.stopped = false → e.did b = false → b < e.cmd.beats →
    b < e.mark + 16 → firstLost (s.crew (crewKey core e.cslot)) (e.beatBanks b) = none →
    s.copyPortDown core e = false ∨ s.answered .copy core e.id = true →
    (∀ s1 ws, beatWords e core (e.cmd.beatStarts b) s = .ok s1 ws →
      exec (.copyBeatDone core pos b) s = .next
        (((((ws.foldl (fun t p => t.copyPut e core p) s1).heal (e.wholeLines (ws.map (·.1.1)))).modCopy core pos fun y =>
          { y.mark1 b with carry := s1.carryOver e core (e.cmd.beatStarts b) }).dropCopyOp core e.id).copyDry core pos e none)) ∧
    (∀ d, beatWords e core (e.cmd.beatStarts b) s = .halt (.dry d) →
      exec (.copyBeatDone core pos b) s = .next (s.copyDry core pos e (some d))) ∧
    (∀ pa va w, beatWords e core (e.cmd.beatStarts b) s = .halt (.peer pa va w) →
      exec (.copyBeatDone core pos b) s = .next (s.sendPeer .copy core e.id pa va w 0 256)) ∧
    (∀ va, beatWords e core (e.cmd.beatStarts b) s = .halt (.access va) →
      exec (.copyBeatDone core pos b) s = .next (s.faultCopy core pos .access (BitVec.ofNat 64 va))) ∧
    (∀ l, beatWords e core (e.cmd.beatStarts b) s = .halt (.ecc l) → exec (.copyBeatDone core pos b) s =
      .next ((s.discardBad (clusterOf core) l).faultCopy core pos .eccfatal (BitVec.ofNat 64 (lineDet l)))) ∧
    (beatWords e core (e.cmd.beatStarts b) s = .halt .busy → exec (.copyBeatDone core pos b) s = .next s) ∧
    (∀ va c, beatWords e core (e.cmd.beatStarts b) s = .halt (.miss va) → s.copyCtx core e = some c →
      exec (.copyBeatDone core pos b) s = .next
        ((s.modCopy core pos fun e => { e with st := .missed, missVa := va }).reportMiss c va (.copy core e.id)))) ∧
  (∀ (s : State) (core pos : Nat) (e : CopyEnt) (i : Instr), (s.core core).copyq[pos]? = some e →
    (i = .copy1d core pos ∧ e.cmd.kind = 0) ∨ (i = .copy2d core pos ∧ e.cmd.kind = 1) ∨ (i = .copyGather core pos ∧ e.cmd.kind = 2) ∨
      (i = .copyOperandLoad core pos ∧ e.cmd.kind = 3) ∨ (i = .copyRemote core pos ∧ e.cmd.kind = 4) →
    exec i s = .next ((List.range (e.cmd.beats - e.mark)).foldl (fun t n => t.beat core pos (e.mark + n)) s)) ∧
  (∀ (s : State) (core pos : Nat) (e : CopyEnt), (s.core core).copyq[pos]? = some e → e.stopped = false →
    s.clockOn core = true → (e.st = .running ∧ e.allDone = true) ∨ e.st = .posted →
    let k := waveKey (crewKey core e.cslot) e.wave
    let c := crewKey core e.cslot
    let n := e.cmd.weir.toNat
    let s1 := if e.cmd.tk ∧ e.st = .running then s.modWave k fun w => { w with tokens := w.tokens ++ [e.cmd.token] } else s
    (e.cmd.we = false → exec (.copyCompletion core pos) s = .next (s1.copyLeave core pos e)) ∧
    (∀ s2, e.cmd.we = true → s1.arrive c n e.cmd.wcnt.toNat = some s2 →
      exec (.copyCompletion core pos) s = .next ((s2.copyLeave core pos e).seeCopies k)) ∧
    (e.cmd.we = true → s1.arrive c n e.cmd.wcnt.toNat = none →
      exec (.copyCompletion core pos) s = .next ((s1.modCopy core pos fun y => { y with st := .posted }).faultCopy core pos .weircount
        (BitVec.ofNat 64 (n + ((s.crew c).weir n).armed * 256 + e.cmd.wcnt.toNat * 65536))))) ∧
  (∀ (s : State) (core pos : Nat) (e : CopyEnt) (b : Nat), (s.core core).copyq[pos]? = some e → s.clockOn core = true →
    e.st = .running → e.stopped = false → e.did b = false → b < e.cmd.beats → b < e.mark + 16 →
    (∀ k, firstLost (s.crew (crewKey core e.cslot)) (e.beatBanks b) = some k → exec (.copyBeatDone core pos b) s =
      .next ((s.modCrew (crewKey core e.cslot) fun c => c.spOff k).faultCopy core pos .retloss (spLossDet k))) ∧
    (firstLost (s.crew (crewKey core e.cslot)) (e.beatBanks b) = none → s.copyPortDown core e = true →
      s.answered .copy core e.id = false →
      let va := (if e.cmd.dir then e.cmd.src else e.cmd.dst) + 256 * b
      exec (.copyBeatDone core pos b) s = .next (s.sendPeer .copy core e.id
        (s.busOf (s.copyCtx core e) (peerBase e.cmd.peer + va)) va (!e.cmd.dir) 0 256))) ∧
  (∀ (s : State) (e : CopyEnt) (core : Nat) (p : (Nat × Nat) × Nat), e.cmd.dsp = 2 →
    let t := s.copyPut e core p
    (∀ j, j < 4 → tget (t.core core).ob 0 (p.1.1 + j) = BitVec.ofNat 8 (p.2 >>> (8 * j))) ∧
    (∀ a, ¬within p.1.1 4 a → tget (t.core core).ob 0 a = tget (s.core core).ob 0 a) ∧ t.mem = s.mem)

/-- R94, R95, R258, R259: OBRES checks its record and installs it, zeroing units that another context had, or leaves it waiting while a
copy into the older record's range runs or a product issued under it waits for the engine; OBREL clears a record, or leaves the clearing waiting; what waited is done when the last such copy
has left. -/
def Obligations.OperandBuffer : Prop :=
  (∀ (s : State) (n : BitVec 4) (x : MF),
    let i := Instr.obres n x
    let k := s.cur
    let w := s.wave k
    let c := s.core (coreOf k)
    let own := cslotOf (crewOf k)
    let w0 : Dword := BitVec.ofNat 64 (w.rsn x.d.toNat 2)
    let w1 : Dword := BitVec.ofNat 64 (w.rsn (x.d.toNat + 2) 2)
    let r := unpackOb own w0 w1
    let old := c.obRecOf n.toNat
    let ok : Prop := r.fmt < 6 ∧ r.len ≠ 0 ∧ zeroBits w0 34 0 = true ∧ zeroBits w1 39 32 = true ∧ zeroBits w1 7 0 = true
    let free : Prop := (old.v = false ∨ old.own = own) ∧ ∀ e ∈ c.obrec, e.2.v = true → e.2.own ≠ own → e.2.meets r = false
    s.mayIssue i → s.gateOpen 8 →
    (s.actOf i = 0 → runsTo s i (s.begun i) []) ∧
    (s.actOf i ≠ 0 → ¬ok → faultsWith s i .illegal 0) ∧
    (s.actOf i ≠ 0 → ok → 512 < r.base + r.len → faultsWith s i .access (BitVec.ofNat 64 r.base)) ∧
    (s.actOf i ≠ 0 → ok → r.base + r.len ≤ 512 → ¬free → faultsWith s i .access (BitVec.ofNat 64 n.toNat)) ∧
    (s.actOf i ≠ 0 → ok → r.base + r.len ≤ 512 → free → c.obWait = [] → old.v = false ∨ c.obBusy n.toNat = false →
      runsTo s i ((s.begun i).obInstall (coreOf k) n.toNat r) []) ∧
    (s.actOf i ≠ 0 → ok → r.base + r.len ≤ 512 → free → c.obWait = [] → old.v = true → c.obBusy n.toNat = true →
      runsTo s i ((s.begun i).modCore (coreOf k) fun c => { c with obWait := tset c.obWait n.toNat (some r) }) (obPending n.toNat))) ∧
  (∀ (s : State) (n : BitVec 4) (x : MF),
    let i := Instr.obrel n x
    let k := s.cur
    let c := s.core (coreOf k)
    let own := cslotOf (crewOf k)
    let old := c.obRecOf n.toNat
    s.mayIssue i → s.gateOpen 8 →
    (s.actOf i = 0 ∨ old.v = false → runsTo s i (s.begun i) []) ∧
    (s.actOf i ≠ 0 → old.v = true → old.own ≠ own → faultsWith s i .access (BitVec.ofNat 64 n.toNat)) ∧
    (s.actOf i ≠ 0 → old.v = true → old.own = own → tfind c.obWait n.toNat = none →
      (c.obBusy n.toNat = false → runsTo s i ((s.begun i).obClear (coreOf k) n.toNat) []) ∧
      (c.obBusy n.toNat = true →
        runsTo s i ((s.begun i).modCore (coreOf k) fun c => { c with obWait := tset c.obWait n.toNat none }) (obPending n.toNat)))) ∧
  (∀ (s : State) (core n : Nat) (r : ObRec),
    let t := s.obInstall core n r
    (t.core core).obRecOf n = r ∧ (∀ m, m ≠ n → (t.core core).obRecOf m = (s.core core).obRecOf m) ∧ t.mem = s.mem ∧
    (∀ a, r.base ≤ a / 256 → a / 256 < r.base + r.len → tget (s.core core).obOwner 0 (a / 256) ≠ 0 →
      tget (s.core core).obOwner 0 (a / 256) ≠ s.obCtx core r.own + 1 → tget (t.core core).ob 0 a = 0) ∧
    (∀ a, ¬(r.base ≤ a / 256 ∧ a / 256 < r.base + r.len) → tget (t.core core).ob 0 a = tget (s.core core).ob 0 a) ∧
    ((s.obClear core n).core core).obRecOf n = {}) ∧
  (∀ (s : State) (core n : Nat) (r : ObRec), tfind (s.core core).obWait n = some (some r) → (s.core core).obBusy n = false →
    exec (.obresInstall core n) s = .next ((s.obInstall core n r).obArrived (crewKey core r.own) n)) ∧
  (∀ (s : State) (core n : Nat),
    let r := (s.core core).obRecOf n
    tfind (s.core core).obWait n = some none → (s.core core).obBusy n = false →
    exec (.obrelClear core n) s = .next ((s.obClear core n).obArrived (crewKey core r.own) n))

-- Steps of a core's own logic.

/-- R25, R161, R163, R186: at a clause boundary a quadrant's waves come to their next groups; the best ready one is picked and enters its
clause, and the core goes on with it; where none is ready the quadrant is in no clause. A wave at a well-formed header stands
inside its clause afterwards, its group at the first word; one that is no header is CLAUSE; a group that stands in the middle of a
clause goes on there under its header, and one that left its clause where it stands goes on in it, still a YLD clause if a word of it made
it one (R205). A wave that stands at a word which interlocks on the result of an access that a miss holds is parked (R27, R34). -/
def Obligations.ClausePick : Prop :=
  (∀ (s : State) (core q : Nat),
    let qd := tget (s.core core).quads {} q
    let ks := (quadWaves core q).filter fun k => (s.wave k).here
    let s1 := ks.foldl (fun t k => t.reach k) s
    (∀ k, qd.inClause = some k → (s.wave k).canRun = false ∨ (s.wave k).clause = none) →
    (s1.pickBest qd (ks.filter fun k => s1.ready k) = none →
      exec (.clauseIssuePick core q) s = .next (s1.modQuad core q fun x => { x with inClause := none })) ∧
    (∀ k, s1.pickBest qd (ks.filter fun k => s1.ready k) = some k →
      let s2 := (s1.modQuad core q fun x => { x with last := some k, lastYld := false, inClause := some k }).modWave k fun w =>
        { w with waited := qd.cyc }
      exec (.clauseIssuePick core q) s = .next { s2.enterClause k with cur := k, onSeq := false })) ∧
  (∀ (s : State) (qd : Quad) (ks : List Key) (k : Key), s.pickBest qd ks = some k → k ∈ ks) ∧
  (∀ (s s1 : State) (k : Key) (h : Dword),
    let w := s.wave k
    let hd := unpackH h
    w.clause = none → w.midHdr = none → w.pc % 8 = 0 → s.fetchWave k w.pc = .ok s1 h → s1.wave k = w →
    (isHeader h = true → hd.cls.toNat < 5 → hd.res = 0 → hd.res2 = 0 →
      let t := s.enterClause k
      (t.wave k).clause = some { hdrAt := w.pc, hdr := h, pos := 0 } ∧ (t.wave k).group = w.group ∧
      (∀ l : Fin 32, (t.wave k).lpc[l] = if inMask w.group l then w.lpc[l] + 8 else w.lpc[l]) ∧ t.mem = s1.mem) ∧
    (isHeader h = false → s.enterClause k = s1.raiseWave k .clause (BitVec.ofNat 64 w.pc) h)) ∧
  (∀ (s s1 : State) (k : Key) (a : Nat) (h : Dword),
    let w := s.wave k
    w.clause = none → w.midHdr = some a → a % 8 = 0 → s.fetchWave k a = .ok s1 h → s1.wave k = w →
    let t := s.enterClause k
    (t.wave k).clause = some { hdrAt := a, hdr := h, pos := (w.pc - a) / 8 - 1 } ∧ (t.wave k).group = w.group ∧
    (t.wave k).lpc = w.lpc ∧ (t.quad k).lastYld = (unpackH h).yld ∧ t.mem = s1.mem) ∧
  (∀ (s : State) (k : Key) (c : ClauseSt), (s.wave k).clause = some c →
    (s.enterClause k).wave k = s.wave k ∧ ((s.enterClause k).quad k).lastYld = (c.yld || (unpackH c.hdr).yld) ∧
    ((s.quad k).inClause ≠ some k → (s.wave k).canRun = true →
      s.reach k = if s.locksAt k (s.wave k) (s.wave k).pc then s.parkWave k .miss none else s))

/-- R41, R47, R49, R50, R52: the oldest closed result that has arrived commits: in the lanes of its mask its registers take its data
and are LIVE, its slot counts down, and the entry leaves; nothing outside the wave changes. -/
def Obligations.ResultCommit : Prop :=
  ∀ (s : State) (k : Key) (p : Pend) (rest : List Pend),
    let w := s.wave k
    s.clockOn (coreOf k) = true → nextCommit w.pend = some (p, rest) → w.exitWait = false → (∀ b, (w.bank b).st = .retain → (w.bank b).bad = false) →
    ∃ t, exec (.resultCommit k) s = .next t ∧ t = s.setWave k (t.wave k) ∧
      let u := t.wave k
      p ∈ w.pend ∧ p.remain = 0 ∧ p.arrived = true ∧ u.pend = rest ∧
      (∀ n, p.slot = some n → p.counts = true → tget u.sb 0 n = tget w.sb 0 n - 1) ∧
      (p.slot = none ∨ p.counts = false → u.sb = w.sb) ∧
      (p.file = .v → ∀ q (l : Fin 32), u.rv q l =
        if p.reg ≤ q ∧ q < p.reg + p.data.length then
          if inMask p.mask l then (p.data.getD (q - p.reg) zeroLanes)[l] else if w.isLive .v q then w.rv q l else 0
        else w.rv q l) ∧
      (p.file = .v → ∀ q, q < 256 →
        u.isLive .v q = (decide (p.reg ≤ q ∧ q < p.reg + p.data.length) || w.isLive .v q)) ∧
      (p.file = .s → ∀ q, u.rs q =
        if p.reg ≤ q ∧ q < p.reg + p.data.length then (p.data.getD (q - p.reg) zeroLanes)[(0 : Fin 32)] else w.rs q) ∧
      (p.file ≠ .v → u.v = w.v ∧ u.vlive = w.vlive) ∧ (p.file ≠ .s → u.sreg = w.sreg ∧ u.slive = w.slive) ∧
      (p.file ≠ .k → u.kreg = w.kreg) ∧ u.fpflags = w.fpflags ∧ u.srseed = w.srseed ∧ u.lpc = w.lpc

/-- R27, R49, R88, R194, R195, R206, R354, R373: the end of a wave's park, of a wave with no access of its own to try again. A parked weir
word or CBWAIT, which has issued, completes once its phase is over: its pending entry has arrived and the wave goes on at the next word;
a second arrival at a cluster barrier, a push, a pop, a LAUNCH or a memory word behind a miss issues again once there is reason
to; a wave whose condition has not come stays as it is. -/
def Obligations.ParksEnd : Prop :=
  ∀ (s : State) (k : Key), (s.wave k).stopped = false → s.clockOn (coreOf k) = true → (∀ h r, (s.wave k).held = h :: r → h.fifo = false) →
    let w := s.wave k
    let c := crewOf k
    let ended := (s.modWave k fun w => { ({ w with pend := fillParked [] w.pend }).advance with park := none, parkI := none }).woken k
    let again := ((s.modWave k fun w => { w with park := none, parkI := none }).modWave k fun w => { w with waited := (s.quad k).cyc })
    (∀ n ph sync, w.park = some (.weir n ph sync) →
      exec (.waveUnpark k) s = .next (if ((s.crew c).weir n).p = ph then s else ended)) ∧
    (∀ n ph, w.park = some (.cbwait n ph) →
      exec (.waveUnpark k) s = .next (if (s.cbar k n).p = ph then s else ended)) ∧
    (∀ n ph, w.park = some (.cbarv n ph) → exec (.waveUnpark k) s = .next (if (s.cbar k n).p = ph then s else again)) ∧
    (w.park = some .q0 → exec (.waveUnpark k) s = .next (if s.tkOut k < 16 ∧ s.q0room k = true then again else s)) ∧
    (w.park = some .q1 → exec (.waveUnpark k) s = .next (if w.tokens ≠ [] ∨ s.tkComing k = false then again else s)) ∧
    (w.park = some .launch → exec (.waveUnpark k) s = .next (if s.ringRoom k = true then again else s)) ∧
    (w.park = some .miss → exec (.waveUnpark k) s = .next (if w.held = [] then again else s)) ∧
    (w.park = some .tag → exec (.waveUnpark k) s = .next (s.tagDone k)) ∧
    (w.park = none → exec (.waveUnpark k) s = .next s)

/-- R38, R39, R45 to R48, R54, R57: the supply of register banks. A wake that a result began ends with the bank FULL, or is RETLOSS of the
word whose result began it; a save wakes a bank in RETAIN; a bank whose every
register has been DEAD for 16 cycles goes OFF; a wave that waits 16 cycles at a header, or is parked beyond the threshold of its
context, has banks in RETAIN. No such step changes a register. -/
def Obligations.RegisterBanks : Prop :=
  (∀ (s : State) (k : Key) (b : Nat), ((s.wave k).bank b).waking = true → s.clockOn (coreOf k) = true →
    (∀ n, ((s.wave k).bank n).bad = false) →
    ∃ t, exec (.bankWakeDone k b) s = .next t ∧ t = s.setWave k { s.wave k with banks := (t.wave k).banks } ∧
      ((t.wave k).bank b).st = .full ∧ ∀ n, n ≠ b → (t.wave k).bank n = (s.wave k).bank n) ∧
  (∀ (s : State) (k : Key) (b : Nat),
    let w := s.wave k
    (w.bank b).waking = true → s.clockOn (coreOf k) = true → (w.bank b).st = .retain → (w.bank b).bad = true →
    exec (.bankWakeDone k b) s =
      .next ((s.setWave k (w.wake [b]).1).raiseWave k .retloss (BitVec.ofNat 64 b) (w.bank b).waker true false)) ∧
  (∀ (s : State) (k : Key) (b : Nat), ((s.wave k).bank b).st = .retain → ((s.wave k).bank b).bad = false →
    (((s.saveBank k b).wave k).bank b).st = .full ∧ (s.saveBank k b).ctxs = s.ctxs) ∧
  (∀ (s : State) (k : Key) (b : Nat) (t0 : Nat),
    let w := s.wave k
    let now := s.cycles (coreOf k)
    (w.bank b).st ≠ .off → w.bankLive b = false → w.bankPend b = false → (w.bank b).waking = false →
    ((w.bank b).idle = none → exec (.bankOffIdle k b) s = .next (s.setWave k (w.setBank b { w.bank b with idle := some now }))) ∧
    ((w.bank b).idle = some t0 → t0 + 16 ≤ now → exec (.bankOffIdle k b) s = .next (s.setWave k (w.setBank b {}))) ∧
    ((w.bank b).idle = some t0 → now < t0 + 16 → exec (.bankOffIdle k b) s = .next s)) ∧
  (∀ (s : State) (k : Key) (b t0 : Nat) (h : Dword),
    let w := s.wave k
    let hd := unpackH h
    w.hwait = some t0 → s.peek k w.pc = some h → isHeader h = true → w.waitClear hd.wait = false →
    hd.rtn.getLsbD (b / 4) = true → t0 + 16 ≤ s.cycles (coreOf k) → 8 * b < w.allot → w.canRun = true →
    exec (.bankRetainHeader k b) s = .next (s.setWave k (w.retain b))) ∧
  (∀ (s : State) (k : Key) (b : Nat),
    let w := s.wave k
    s.retth (crewOf k) ≠ 0 → w.park.isSome = true ∨ w.stopped = true → w.parkSince + s.retth (crewOf k) < s.reft →
    exec (.bankRetainParked k b) s = .next (s.setWave k (w.retain b))) ∧
  (∀ (w : Wave) (b : Nat),
    w.retain b = (if (w.bank b).st = .full ∧ w.bankLive b = true ∧ w.bankPend b = false
      then w.setBank b { w.bank b with st := .retain, waking := false, idle := none } else w))

/-- R375, R376, R377, R419: a fault found for a held access is raised without precision at its word; under a raised floodgate a wave
stops at its word boundary with a record of its own, once; one that is stopped when the floodgate rises, as CTXLOAD leaves it, has a
record too, unless a rollback has taken the records of this floodgate (R348). -/
def Obligations.StopsAndDelayedFaults : Prop :=
  (∀ (s : State) (k : Key) (h : HeldAcc) (r : List HeldAcc) (c : FClass), (s.wave k).held = h :: r → h.bad = some c →
    (s.wave k).stopped = false →
    exec (.delayedFault k) s = .next (s.raiseWave k c (BitVec.ofNat 64 h.va) h.word false false)) ∧
  (∀ (s : State) (k : Key),
    let w := s.wave k
    let c := (s.crew (crewOf k)).ctx
    isReeveCore (coreOf k) = false → (s.ctx c).up = true → w.here = true → w.nonExited ≠ 0 → w.standing.group ≠ 0 →
    ((w.stopped = true ∧ (s.ctx c).discarded = true) ∨ s.hasRec c .wave k = true → exec (.floodgateStop 0 k) s = .next s) ∧
    (w.stopped = false ∨ (s.ctx c).discarded = false → s.hasRec c .wave k = false → ∃ t, exec (.floodgateStop 0 k) s = .next t ∧ t.mem = s.mem ∧
      (∀ j, j ≠ k → t.wave j = s.wave j) ∧
      t.wave k = { w with stopped := true, parkSince := if w.park.isSome ∨ w.stopped then w.parkSince else s.reft } ∧
      (t.quad k).inClause ≠ some k ∧
      (∀ q, w.park = some (.acqx q) → k ∉ (t.quad k).acq) ∧
      ∃ r, (t.ctx c).recs = (s.ctx c).recs ++ [r] ∧ r.eng = .wave ∧ r.key = k ∧ r.prec = false ∧ r.reft = s.reft ∧
        r.pc = w.standing.stopPoint.1 ∧ r.mask = w.standing.group ∧ r.cls = if (s.ctx c).byFlood then some .flood else none)) ∧
  (∀ (s : State) (n : Nat), isReeveCore (coreOfCrew n) = false → (s.ctx (s.crew n).ctx).up = true → s.clockOn (coreOfCrew n) = true →
    exec (.floodgateStop 1 n) s = .next (s.stopSeq n))

-- Launches, placement and tenancy.

/-- R19, R20, R197: LAUNCH reads its record, judges the queue and the record, and stores the record into the queue's next slot, ordered
after the wave's earlier writes, then counts WRIX up. A queue that is none of the polder's device queues, or a record that R16
refuses, is LAUNCH; while the ring is full, or its slot has no page, the wave is parked; while a die relocks it waits (R318, log 88). -/
def Obligations.LaunchWord : Prop :=
  ∀ (s : State) (x : MF),
    let i := Instr.launch x
    let k := s.cur
    let e := (s.wave k).addrS x
    let q := ((s.wave k).rs x.d.toNat).toNat
    let cl := clusterOf (coreOf k)
    let qc := s.qCtx q
    s.mayIssue i → s.gateOpen 0 →
    (s.actOf i = 0 → runsTo s i (s.begun i) []) ∧
    (∀ f, s.actOf i ≠ 0 → addrCheck e 128 = some f → faultsWith s i f e) ∧
    (∀ c, s.actOf i ≠ 0 → addrCheck e 128 = none → s.ctxOf k = some c →
      let mine : Prop := q < 1024 ∧ polderOf qc = polderOf c ∧ s.qDev q = true ∧ s.qServes q = true
      (¬mine → faultsWith s i .launch (BitVec.ofNat 64 q)) ∧
      (∀ s1 pa home, mine → (s.begun i).wordAccess k e 128 .read = .inr (s1, pa, home) →
        let r := (s1.readWords cl pa home 16).1
        let s2 := (s1.readWords cl pa home 16).2
        let slot := s2.qSlot q (s2.qWrix q)
        (s2.relocking = true → exec i s = .next s) ∧
        (s2.relocking = false → s2.recOk qc r = false → faultsWith s i .launch (BitVec.ofNat 64 q)) ∧
        (s2.relocking = false → s2.recOk qc r = true →
          (s2.translate (some qc) (coreOf k) slot .write = .miss → parksAt s i (s2.reportMiss qc slot (.front k)) (.fetchMiss slot)) ∧
          (s2.translate (some qc) (coreOf k) slot .write = .access → faultsWith s i .access (BitVec.ofNat 64 slot)) ∧
          (∀ s3 spa h, s2.translate (some qc) (coreOf k) slot .write = .ok s3 spa h →
            let relock : Prop := s3.linkBusy cl = true ∨ s3.crosses (some qc) (coreOf k) spa = true
            (2 ^ s3.qLog q ≤ s3.qFill q → parksAt s i s3 .launch) ∧
            (s3.qFill q < 2 ^ s3.qLog q → relock → exec i s = .next s) ∧
            (s3.qFill q < 2 ^ s3.qLog q → ¬relock →
              let s4 := ((s3.release cl scope4).waveReleases k).chargeHome (some qc) spa 128
              let s5 := (s4.heal [spa / 128]).homeStore (some c) spa (r.flatMap fun v => bytesOf v.toNat 8)
              runsTo s i (s5.setWrix q ((s5.qWrix q + 1) % 2 ^ 32)) [])))))

/-- R11, R15 to R19, R21, R285, R354 to R356: the dispatcher. It reads the record at RDIX once the queue's launch before it is wholly dispatched, and
refuses it with a status word or accepts it; it places crews until none fits; a crew starts with every wave at its role's
entry, its arguments in scalar registers, its lanes as LASTL says, and its sequencer reads its pointer block. A crew that has completed leaves its core; with the last one
of a launch the launch is over and its status word written. While a die relocks the dispatcher reads and places nothing (the model's
choice, log 88). -/
def Obligations.Dispatching : Prop :=
  (∀ (s s1 : State) (q pa h : Nat),
    let c := s.qCtx q
    let va := s.qSlot q (s.qRdix q)
    q < 1024 → s.qServes q = true → s.qFill q ≠ 0 → s.qFlt q = false → s.current q = none → s.ctxValid c = true →
    tfind (s.ctx c).qwait q = none → va < 2 ^ 57 → s.translate (some c) dispCore va .read = .ok s1 pa h →
    s.relocking = false → s1.homeBad (pa / 128) = false →
    let r := s1.homeWords pa 16
    let s2 := (s1.chargeHome (some c) pa 128).setRdix q ((s.qRdix q + 1) % 2 ^ 32)
    (s2.recOk c r = false → exec (.launchRecordRead q) s = .next (s2.writeStatus q (s.qRdix q) c (recDone r) 2)) ∧
    (∀ st, s2.refusal c r = some st → exec (.launchRecordRead q) s = .next (s2.writeStatus q (s.qRdix q) c (recDone r) st)) ∧
    (s2.refusal c r = none → ∃ t l, exec (.launchRecordRead q) s = .next t ∧
      t = { s2 with launches := s2.launches ++ [l], launchId := s2.launchId + 1 } ∧ l.id = s2.launchId ∧
      l.queue = q ∧ l.idx = s.qRdix q ∧ l.ctx = c ∧ l.lrec = r ∧ l.next = 0 ∧ l.doneCrews = 0)) ∧
  (∀ (s : State) (d : Nat),
    (s.relocking = true ∨ s.dispatchTurn d [] = none → exec (.dispatchOpportunity d) s = .next s) ∧
    (∀ s1 out, s.relocking = false → s.dispatchTurn d [] = some (s1, out) →
      exec (.dispatchOpportunity d) s = .next (s1.dispatchGo d out (dispatchFuel - 1)))) ∧
  (∀ (s : State) (l : Launch) (unit rank core cslot : Nat),
    let t := s.startCrew l unit rank core cslot
    let r := l.lrec
    let x := t.crew (crewKey core cslot)
    x.st = .running ∧ x.ctx = l.ctx ∧ x.lrec = r ∧ x.crewid = BitVec.ofNat 32 (unit * recCl r + rank) ∧ x.cursor = 0 ∧
    (recMstr r = true → x.seq.mpc = recMentry r ∧ (x.seq.st = .run ∨ (x.seq.st = .parked ∧ x.seq.missVa.isSome = true))) ∧ (recMstr r = false → x.seq.st = .off) ∧
    (∀ i, i < recNwave r →
      let w := t.wave (waveKey (crewKey core cslot) i)
      w.here = true ∧ w.breg = recBreg r (recRole r i) ∧ w.clause = none ∧ w.park = none ∧
      w.vlive = (if recLid r then 1 else 0) ∧ w.slive = BitVec.ofNat 64 (2 ^ recArgw r - 1) ∧
      (∀ n, w.rs n = (s.argWords l).getD n 0) ∧
      (recLid r = true → ∀ n : Fin 32, w.rv 0 n = BitVec.ofNat 32 n.val) ∧
      (∀ n : Fin 32, w.lpc[n] = BitVec.ofNat 64 (recAddr r (1 + recRole r i))) ∧
      (∀ n : Fin 32, w.lst[n] =
        if n.val < recLanes r i then .live else if n.val / 4 = (recLanes r i - 1) / 4 then .helper else .never))) ∧
  (∀ (s s1 : State) (c : Key) (ps : List (Nat × Nat)),
    let x := s.crew c
    let core := coreOfCrew c
    let a := recArgs x.lrec + 0xC0
    let vas := (List.range 16).map fun i => a + 4 * i
    seqParts x.ctx core .read vas s = .ok s1 ps → partsBlocked s1 (some x.ctx) c .read vas ps = none →
    let r := readParts x.ctx core 4 ps (s1.seqServed c)
    s.seqBegin c = r.2.modSeq c fun q =>
      { q with begun := true, ma := (chunks 8 8 r.1).zipIdx.map fun b => (b.2, BitVec.ofNat 64 (ofBytes b.1)) }) ∧
  (∀ (s : State) (k : Key),
    let held : Bool := s.linkBusy (clusterOf (coreOfCrew k)) || s.statusHeld (s.crew k).ctx (recDone (s.crew k).lrec)
    let u := (s.crew k).unit
    (s.crewDone k = false ∨ held = true → exec (.crewComplete k) s = .next s) ∧
    (∀ l, s.crewDone k = true → held = false → s.launches.find? (fun l => l.id == (s.crew k).launch) = some l →
      ∃ t, exec (.crewComplete k) s = .next t ∧ (t.crew k).st = .absent ∧
        (∀ i, i < 32 → (t.wave (waveKey k i)).here = false) ∧
        (l.doneCrews + 1 = recCrews l.lrec → t.launches = s.launches.filter fun y => y.id != l.id) ∧
        (l.doneCrews + 1 ≠ recCrews l.lrec → t.launches = s.launches.map fun y =>
          if y.id = l.id then { y with doneCrews := y.doneCrews + 1, doneOf := tset y.doneOf u (tget y.doneOf 0 u + 1), issuedSum := y.issuedSum + (s.crew k).issued } else y))) ∧
  (∀ (s s1 : State) (q idx c done status pa h : Nat), done % 8 = 0 → done < 2 ^ 57 → status < 16 →
    s.translate (some c) dispCore done .write = .ok s1 pa h → memWf s1.mem = true → regionOf pa ≠ .host → regionOf pa ≠ .peer →
    (s.writeStatus q idx c done status).home64 pa = BitVec.ofNat 64 (status * 2 ^ 60 + s.reft % 2 ^ 60))

/-- R30, R357, R359 to R363: what takes crews off their cores. A dormant crew is noted, and saved with its group after 64 µs where
another waits; a slice that has run out is renewed, or makes room for a crew of another context of the polder; a drain that has
not ended in its window ends in a save; in a recall the owner's DRAIN gives the window. A cluster without crews joins the lend pool after 100 µs, and is recalled when its owner
waits. A crew that is saved or restarts waits with the dispatcher. -/
def Obligations.Preemption : Prop :=
  (∀ (s : State) (k : Key),
    (isReeveCore (coreOfCrew k) = false → s.isDormant k = true → (s.crew k).dormant = none →
      exec (.dormantSave k) s = .next (s.modCrew k fun y => { y with dormant := some s.reft })) ∧
    (s.isDormant k = false → (s.crew k).dormant ≠ none →
      exec (.dormantSave k) s = .next (s.modCrew k fun y => { y with dormant := none })) ∧
    (∀ t j s1, isReeveCore (coreOfCrew k) = false → s.isDormant k = true → (s.crew k).dormant = some t →
      s.waitingJob (s.crew k).ctx = some j →
      (∀ c ∈ s.leaveWith k, s.isDormant c = true ∧ ∃ u, (s.crew c).dormant = some u ∧ u + 64000 ≤ s.reft) →
      s.saveCrews (s.leaveWith k) j.name = some s1 → exec (.dormantSave k) s = .next s1.dispatchAll)) ∧
  (∀ (s : State) (c : Nat),
    let others := ((List.range 16).map fun i => 16 * polderOf c + i).filter (· ≠ c)
    let takes (j : Job) (k : Key) : Bool := s.usable j.launch.ctx (recCoop j.launch.lrec) (clusterOf (coreOfCrew k)) &&
      (s.roomWithout c (coreOfCrew k)).fits j.launch.lrec
    ((s.ctx c).slice < 2 ^ s.ctxSlice c → exec (.sliceExpiry c) s = .next s) ∧
    (2 ^ s.ctxSlice c ≤ (s.ctx c).slice → (∀ j ∈ others.flatMap s.rotationJobs, ∀ k ∈ s.ctxCrews c, takes j k = false) →
      exec (.sliceExpiry c) s = .next (s.modCtx c fun x => { x with slice := 0 })) ∧
    (∀ j s1, 2 ^ s.ctxSlice c ≤ (s.ctx c).slice →
      (others.flatMap s.rotationJobs).find? (fun j => (s.ctxCrews c).any (takes j)) = some j →
      s.preempt (polderOf c) ((s.ctxCrews c).filter (takes j)) j.name = some s1 →
      exec (.sliceExpiry c) s = .next (s1.dispatchAll.modCtx c fun x => { x with slice := 0 }))) ∧
  (∀ (s s1 : State) (k : Key) (t : Nat), (s.crew k).drainBy = some t →
    (s.reft < t → exec (.drainWindowEnd k) s = .next s) ∧
    (t ≤ s.reft → s.saveCrews (s.leaveWith k) (s.crew k).drainFor = some s1 → exec (.drainWindowEnd k) s = .next s1)) ∧
  (∀ (s : State) (cl p : Nat), s.ownerOf cl = some p → (s.cluster cl).lent = false →
    let may : Prop := (s.polderWord p 0).getLsbD 62 = true ∧ s.crewsOfCluster cl = [] ∧ s.ownerFits p = false
    (may → (s.cluster cl).lendable = none →
      exec (.lendPoolJoin cl) s = .next (s.modCluster cl fun y => { y with lendable := some s.reft })) ∧
    (∀ t, may → (s.cluster cl).lendable = some t → t + 100000 ≤ s.reft →
      exec (.lendPoolJoin cl) s = .next (s.modCluster cl fun y => { y with lent := true, lendable := none })) ∧
    (¬may → ∃ t, exec (.lendPoolJoin cl) s = .next t ∧ (t.cluster cl).lent = false)) ∧
  (∀ (s : State) (cl p : Nat), s.ownerOf cl = some p →
    ((s.cluster cl).lent = false → exec (.recall cl) s = .next s) ∧
    (∀ s2, (s.cluster cl).lent = true → (s.cluster cl).recallBy = none → s.ownerWaits p = true →
      let s1 := s.modCluster cl fun y => { y with recallBy := some (s.reft + 1000000) }
      s1.preempt p (s1.crewsOfCluster cl) none = some s2 → exec (.recall cl) s = .next (s2.recallDone cl)) ∧
    (∀ t s2, (s.cluster cl).lent = true → (s.cluster cl).recallBy = some t →
      s.preempt p (s.crewsOfCluster cl) none = some s2 → exec (.recall cl) s = .next (s2.recallDone cl))) ∧
  (∀ (s s1 : State) (ks : List Key) (wf : Option (Nat × Nat)), (∀ k ∈ ks, isReeveCore (coreOfCrew k) = false) →
    s.saveCrews ks wf = some s1 →
    ∀ k ∈ ks, (s1.crew k).st = .absent ∧ ∃ e ∈ s1.saved, e.key = k ∧ e.image.isSome = true ∧ e.waitFor = wf) ∧
  (∀ (s : State) (k : Key) (wf : Option (Nat × Nat)), isReeveCore (coreOfCrew k) = false →
    let t := s.restartCrew wf k
    (t.crew k).st = .absent ∧ ∃ e ∈ t.saved, e.key = k ∧ e.image = none ∧ e.launch = (s.crew k).launch ∧ e.unit = (s.crew k).unit)

-- Shares, metering and power.

/-- R202, R351, R364 to R369, R417: each 64 bytes that a polder moves at a controller, over the fabric or the host link are a token (those
of a path add up, log 74), counted, and spent where its bucket holds it; a request that finds no token waits as tokenless, and once
it has waited it waits on only while a polder with a higher WEIGHT waits at the controller; a bucket is refilled at a REFT multiple of 1,000 up to BURST. A measured draw holds the polders above their share while the lent shares do not cover them (who is held for cause 1: log 32). A notice holds a
crew for its cause, the thermal one on a hot die, or ends its holds; cause 5 holds it while a request of it waits as tokenless. A feed moves a polder's counts to the controller's totals, which the signed report of an
owner gives with its sequence number. -/
def Obligations.SharesAndMetering : Prop :=
  (∀ (s : State) (p ctl : Nat), p < 32 → ctl < 40 →
    (s.reft % 1000 ≠ 0 → exec (.bucketRefill p ctl) s = .next s) ∧
    (s.reft % 1000 = 0 → tget (s.polder p).refilled 0 ctl ≠ s.reft + 1 → ∃ t, exec (.bucketRefill p ctl) s = .next t ∧
      tget (t.polder p).buckets 0 ctl = min (tget (s.polder p).buckets 0 ctl + s.scaledRate p ctl) (s.tokenBurst p ctl) ∧
      (∀ n, n ≠ ctl → tget (t.polder p).buckets 0 n = tget (s.polder p).buckets 0 n) ∧ t.mem = s.mem ∧ t.waves = s.waves)) ∧
  (∀ (s : State) (p path n : Nat),
    let had := tget (s.polder p).moved 0 path + n
    let t := s.tokens p path n
    (path < 40 → tget (t.polder p).buckets 0 path = tget (s.polder p).buckets 0 path - had / 64) ∧
    (40 ≤ path → (t.polder p).buckets = (s.polder p).buckets) ∧
    (∀ kind, kind = (if path < 32 then 7 else if path < 40 then 8 else if path = 40 then 9 else 10) →
      tget (t.polder p).meter 0 kind = tget (s.polder p).meter 0 kind + had / 64 ∧
      ∀ m, m ≠ kind → tget (t.polder p).meter 0 m = tget (s.polder p).meter 0 m) ∧
    (∀ q, q ≠ p → t.polder q = s.polder q) ∧ t = { s with polders := t.polders }) ∧
  (∀ (s : State) (again : Bool) (ctl p n : Nat), s.dryFor again (ctl, p) n = true ↔
    tget (s.polder p).buckets 0 ctl < n ∧ (again = true → ∃ o ∈ s.dryAll, o.1 = ctl ∧ s.weight p < s.weight o.2)) ∧
  (∀ (s : State) (p watts : Nat), ∃ t, exec (.powerMeasure p watts) s = .next t ∧ (t.polder p).drawn = watts ∧
    (∀ q, q ≠ p → t.polder q = s.polder q) ∧ t.mem = s.mem ∧ t.waves = s.waves ∧
    (s.crews.Pairwise (fun a b => a.1 < b.1) → ∀ q k, q < 32 → k ∈ s.allCrews q →
      (tfind (t.crew k).thr 1).isSome =
        ((s.modPolder p fun x => { x with drawn := watts }).powerShort && decide (s.powerShare q < (t.polder q).drawn)))) ∧
  (∀ (s : State) (k : Key) (cause : Nat), isReeveCore (coreOfCrew k) = false → (s.crew k).st ≠ .absent →
    let hot := (s.die (dieOf (coreOfCrew k))).hotAt.isSome
    (cause = 5 → ∃ t, exec (.throttleNotice k cause) s = .next t ∧ (tfind (t.crew k).thr 5).isSome = s.crewDry k) ∧
    (cause = 3 → hot = false → exec (.throttleNotice k cause) s = .next s) ∧
    (cause = 1 ∨ cause = 2 ∨ (cause = 3 ∧ hot = true) → ∃ t duty, exec (.throttleNotice k cause) s = .next t ∧ duty < 16 ∧
      tfind (t.crew k).thr cause = some duty ∧ (t.crew k).thrCause = cause ∧ (∀ c, c ≠ k → t.crew c = s.crew c)) ∧
    (cause = 0 → ∃ t, exec (.throttleNotice k cause) s = .next t ∧ tfind (t.crew k).thr 1 = none ∧
      tfind (t.crew k).thr 2 = (if s.phaseHeld (dieOf (coreOfCrew k)) then tfind (s.crew k).thr 2 else none) ∧
      tfind (t.crew k).thr 3 = (if hot then tfind (s.crew k).thr 3 else none) ∧
      ∀ n, n = 4 ∨ n = 5 → tfind (t.crew k).thr n = tfind (s.crew k).thr n)) ∧
  (∀ (s : State) (p : Nat), p < 32 → ∃ t, exec (.meteringFeed p) s = .next t ∧ (t.polder p).meter = [] ∧ (t.polder p).fedAt = s.reft ∧
    (s.metering = false → (t.polder p).total = (s.polder p).total ∧ t.pkg = s.pkg) ∧
    (∀ k ∈ s.allCrews p, (t.crew k).metered = (s.crew k).issued) ∧
    (s.metering = true → (s.polder p).meter.Pairwise (fun a b => a.1 < b.1) → s.crews.Pairwise (fun a b => a.1 < b.1) →
      (∀ n, 1 ≤ n → n < 7 → tget (t.polder p).total 0 n = tget (s.polder p).total 0 n + tget (s.polder p).meter 0 n) ∧
      (∀ i, i < 8 → tget (t.polder p).total 0 (12 + i) = tget (s.polder p).total 0 (12 + i) + tget (s.polder p).meter 0 (12 + i)
        + ((s.allCrews p).map fun k => tget (s.crew k).ctrs 0 i - tget (s.crew k).fedCtrs 0 i).sum))) ∧
  (∀ (s : State) (owner : Nat) (n0 n1 : BitVec 64),
    (s.pkg.life ≠ .deployed → exec (.usageReport owner n0 n1) s = .next s) ∧
    (s.pkg.life = .deployed → ∃ t r, exec (.usageReport owner n0 n1) s = .next t ∧ t.pkg.outbox = s.pkg.outbox ++ [r] ∧
      r.length = 40 ∧ r.getD 0 0 = 1 ∧ r.getD 2 0 = n0 ∧ r.getD 3 0 = n1 ∧ r.getD 4 0 = BitVec.ofNat 64 s.reft ∧
      r.getD 5 0 = BitVec.ofNat 64 (tget s.pkg.repSeq 0 owner + 1) ∧ tget t.pkg.repSeq 0 owner = tget s.pkg.repSeq 0 owner + 1 ∧
      t.mem = s.mem))

/-- R318, R366, R392 to R399, R401, R406: islands, die clocks and what supplies them. The freeboard window closes at a REFT multiple of
10,000 by its rule; an island without a matrix crew goes off after 100 µs and returns at its guarded point; FORCE holds it there. A
target frequency is clamped, an upward step waits for the rails, a relock stops the die's clock and ends in the new one. A hot
die is held, and stepped to its lowest clock after 100 µs, until it has cooled. Replays are counted; while a spare regulator phase comes in,
the borrowers of its die are held, and then every crew there, until it is in. -/
def Obligations.IslandsAndClocks : Prop :=
  (∀ (s : State) (core : Nat), core < 252 → s.reft % 10000 = 0 → (s.core core).island.closedAt ≠ some s.reft →
    let i := (s.core core).island
    ∃ t, exec (.freeboardWindowClose core) s = .next t ∧
      t = s.modCore core (fun y => { y with island := (t.core core).island }) ∧
      let u := (t.core core).island
      u.closedAt = some s.reft ∧ u.wn = 0 ∧ u.wo = 0 ∧ u.mode = i.mode ∧ u.force = i.force ∧
      ((s.die (dieOf core)).rel = true → u.wovt = 0 ∧ u.watt = 0 ∧ u.cred = i.cred ∧ u.vset = i.vset) ∧
      ((s.die (dieOf core)).rel = false → u.wovt = min i.wo 0xFFFF ∧ u.watt = min i.wn 0xFFFF ∧
        (s.fbTarget core = 0 → u.cred = 0 ∧ u.vset = i.vset) ∧
        (s.fbTarget core ≠ 0 → s.islandMode core = .guarded → u.cred = i.cred ∧ u.vset = i.vset) ∧
        (s.fbTarget core ≠ 0 → s.islandMode core = .over →
          let o := i.wo * 2 ^ 20
          let c := i.cred + s.fbTarget core * i.wn
          (c < o → u.cred = 0 ∧ u.vset = min (s.vsetOf core + 5) (s.vgNow core)) ∧
          (o ≤ c → c - o < 2 ^ 21 → u.cred = c - o ∧ u.vset = s.vsetOf core) ∧
          (o ≤ c → 2 ^ 21 ≤ c - o → s.vfNow core + 5 ≤ s.vsetOf core → u.cred = 0 ∧ u.vset = s.vsetOf core - 5) ∧
          (o ≤ c → 2 ^ 21 ≤ c - o → s.vsetOf core < s.vfNow core + 5 → u.cred = 2 ^ 21 ∧ u.vset = s.vsetOf core)))) ∧
  (∀ (s : State) (core : Nat),
    let i := (s.core core).island
    (i.mode ≠ .off → s.matrixCrew core = false → (s.core core).attempt = none → (s.core core).fixing = [] →
      (s.core core).issued = [] → i.idleAt + 100000 ≤ s.reft →
      exec (.islandOff core) s = .next (s.modCore core fun y => { y with island := { i with mode := .off, riseBy := none } })) ∧
    (s.reft < i.idleAt + 100000 → exec (.islandOff core) s = .next s) ∧
    (i.mode = .off → s.matrixCrew core = true → (s.core core).issued = [] → ∃ t u, exec (.islandPowerUp core) s = .next t ∧
      t = s.modCore core (fun y => { y with island := u }) ∧ u.force = i.force ∧ u.vset = 0 ∧ u.cred = 0 ∧ u.gsteps = 0 ∧ u.ovtot = 0 ∧
      u.wovt = 0 ∧ u.watt = 0 ∧ u.mode = (if s.holdWanted core then .guarded else .over)) ∧
    (∀ b, core < 252 → ∃ t, exec (.islandForceWrite core b) s = .next t ∧ (t.core core).island.force = b ∧
      (b = true → i.mode = .over ∨ i.mode = .guarded → t.islandMode core = .guarded) ∧
      (i.mode = .off ∨ i.mode = .step → (t.core core).island.mode = i.mode) ∧
      ∀ n, n ≠ core → t.core n = s.core n)) ∧
  (∀ (s : State) (d : Nat) (tgt : BitVec 7),
    let m := max 24 (min 88 tgt.toNat)
    (m = (s.die d).cur → (s.die d).stepping = .none → exec (.dclkTgtWrite d tgt) s =
      .next (s.modDie d fun x => { x with tgt := m, tgtHot := false })) ∧
    (∃ t, exec (.dclkTgtWrite d tgt) s = .next t ∧ (t.die d).tgt = m ∧ 24 ≤ (t.die d).tgt ∧ (t.die d).tgt ≤ 88 ∧
      (t.die d).cur = (s.die d).cur ∧
      ((s.die d).stepping ≠ .none → (t.die d).stepping = (s.die d).stepping ∧ (t.die d).thm = (s.die d).thm) ∧
      ((s.die d).stepping = .none → m < (s.die d).cur → (t.die d).rel = true ∧ (t.die d).stepping = .relock m ∧
        (t.die d).thm = false))) ∧
  (∀ (s : State) (d m : Nat),
    ((s.die d).stepping = .rise m → ∃ t, exec (.voltageRiseDone d) s = .next t ∧ (t.die d).rel = true ∧
      (t.die d).stepping = .relock m ∧ (t.die d).relockAt = s.reft ∧
      (∀ n, n < 63 → (t.core (d * 63 + n)).island.vset = s.vgAt (d * 63 + n) m ∧ (t.core (d * 63 + n)).island.cred = 0)) ∧
    ((s.die d).stepping = .relock m → (s.die d).tgt = m → s.fifoWaves = [] → (∀ n, n < 63 → (s.core (d * 63 + n)).issued = []) → ∃ t, exec (.relockDone d) s = .next t ∧
      (t.die d).rel = false ∧ (t.die d).cur = m ∧ (t.die d).stepping = .none ∧ t.mem = s.mem ∧
      (∀ k ∈ s.dieCrews d, tfind (t.crew k).thr 9 = none ∧ tfind (t.crew k).thr 11 = none))) ∧
  (∀ (s : State) (d : Nat),
    ((s.die d).hotAt = none → ∃ t, exec (.thermalTrip d) s = .next t ∧ (t.die d).hotAt = some s.reft ∧
      ∀ k ∈ s.dieCrews d, (tfind (t.crew k).thr 3).isSome = true) ∧
    (∀ h, (s.die d).hotAt = some h → h + 100000 ≤ s.reft → ∃ t, exec (.thermalTrip d) s = .next t ∧ (t.die d).tgt = 24 ∧
      (t.die d).hotAt = some s.reft ∧ (t.die d).tgtHot = true ∧
      ((s.die d).stepping = .none → (s.die d).cur ≠ 24 → (t.die d).thm = true)) ∧
    ((s.cooled d).die d).hotAt = none ∧
    ((s.die d).hotAt.isSome = true → ∀ k ∈ s.dieCrews d, tfind ((s.cooled d).crew k).thr 3 = none)) ∧
  (∀ (s : State) (core : Nat), ∃ t, exec (.shadowReplay core) s = .next t ∧
    (t.die (dieOf core)).replays = (s.die (dieOf core)).replays + 1 ∧
    (∀ p, isReeveCore core = false → s.runnerOf core = some p → tget (t.polder p).rel 0 4 = tget (s.polder p).rel 0 4 + 1) ∧
    t.mem = s.mem ∧ t.waves = s.waves ∧ t.crews = s.crews) ∧
  (∀ (s : State) (rail : Nat), rail < 16 → ∃ t, exec (.regulatorPhaseSpare rail) s = .next t ∧
    let ks := s.dieCrews (rail / 4)
    let at' (u : State) : Option Nat := tfind u.pkg.phaseStep rail
    let in' (u : State) : Nat := tget u.pkg.phases 0 rail
    (at' s = none → at' t = some 1 ∧ in' t = in' s ∧ ∀ k ∈ ks, s.borrows k = true → (tfind (t.crew k).thr 2).isSome = true) ∧
    (at' s = some 1 → at' t = some 2 ∧ in' t = in' s ∧ ∀ k ∈ ks, s.borrows k = false → (tfind (t.crew k).thr 2).isSome = true) ∧
    (at' s ≠ none → at' s ≠ some 1 → at' t = none ∧ in' t = in' s + 1 ∧
      (s.powerFits = true → t.phaseHeld (rail / 4) = false → ∀ k ∈ ks, tfind (t.crew k).thr 2 = none)))

-- Reliability.

/-- R331, R384 to R388, R402 to R406, R412, R414: errors and what answers them. A clean copy that fails its parity is dropped; a dirty line
of a cluster or of an L2 slice that cannot be corrected is discarded where it is found, memory keeping its older contents, and the context
that wrote it takes ECCFATAL; a scrub of memory counts a line that cannot be corrected. The checkpoint timer and the filling undo log of a
context act when they are due, and not before. A context that is aborted, whatever V and its floodgate say (the model's choice, log 78),
has its floodgate lowered and no launch, no crew set aside and no record left (the model's choice, log 29); the abort waits while a die
relocks (log 88). A stopped reeve die restarts with its waves as after boot. Wear records of an
assigned kind are kept; a port that retrains is down until it is done, and then what waited on it is tried again. -/
def Obligations.ErrorsAndRecovery : Prop :=
  (∀ (s : State) (addr : Nat),
    let line := addr / 128
    (∃ t, exec (.dataErrorDetect 0 addr) s = .next t ∧ t.mem = s.mem ∧
      ∀ cl, cl < 32 → ∀ e, e ∈ t.dcache cl ↔ e ∈ s.dcache cl ∧ (e.2.dirty = true ∨ e.1 / 128 ≠ line)) ∧
    (∃ t, exec (.dataErrorDetect 2 addr) s = .next t ∧ (s.dirtyL2 line = false → t.mem = s.mem) ∧
      (∀ n x bs, s.l2At line = some (n, x) → x.old = some bs → memWf s.mem = true → bs.length = 128 →
        ∀ i, i < 128 → t.homeByte (128 * line + i) = bs.getD i 0) ∧
      ∀ cl, cl < 32 → ∀ e ∈ t.dcache cl, e.1 / 128 = line → e.2.dirty = false) ∧
    (∃ t, exec (.dataErrorDetect 4 addr) s = .next t ∧ line ∈ t.pkg.eccBad ∧ t.mem = s.mem ∧ t.waves = s.waves)) ∧
  (∀ (s : State) (cl line : Nat),
    (cl < 32 → (cl, line) ∉ s.pkg.lineBad → exec (.cacheScrub cl line) s = .next s) ∧
    (∀ n x, n < 64 → s.l2At line = some (n, x) → x.bad = true → exec (.cacheScrub (32 + n) line) s = .next (s.l2Lose line)) ∧
    (exec (.cacheScrub 96 line) s = .next
      (if line ∈ s.pkg.eccBad then s.modPkg fun p => { p with scrubBad := p.scrubBad + 1 } else s)) ∧
    (cl < 32 → (cl, line) ∈ s.pkg.lineBad → ∃ t, exec (.cacheScrub cl line) s = .next t ∧ t.mem = s.mem ∧ (cl, line) ∉ t.pkg.lineBad ∧
      (∀ e ∈ t.dcache cl, e.1 / 128 ≠ line) ∧
      ∀ e, (s.dcache cl).find? (fun e => e.1 / 128 == line && e.2.dirty) = some e → e.2.writer ≠ fwCtx →
        (t.ctx e.2.writer).up = true ∧ ∃ r ∈ (t.ctx e.2.writer).recs,
          r.cls = some .eccfatal ∧ r.eng = .mem ∧ r.atc = true ∧ r.det = BitVec.ofNat 64 (line * 128 % 2 ^ 52))) ∧
  (∀ (s : State) (c : Nat),
    let period := 1000 * bits (s.ctxWord c 2) 63 32
    let len := (s.undoLog c).2
    let x := s.ctx c
    (s.reft < x.ckptAt + period → exec (.checkpointTimer c) s = .next s) ∧
    (s.ctxValid c = true → (s.ctxWord c 0).getLsbD 61 = true → x.ckptAt + period ≤ s.reft →
      ∃ t, exec (.checkpointTimer c) s = .next t ∧ (t.ctx c).ckptAt = s.reft ∧ t.mem = s.mem ∧ t.waves = s.waves ∧
        ∃ e ∈ (t.die (s.homeDie c)).evq, e.kind = 0x07 ∧ e.handle = ctxHandle c) ∧
    (8 * x.undoFill < 7 * len → exec (.undoLogForcedCkpt c) s = .next s) ∧
    (∀ s1 st, x.up = false → x.logging = true → len ≠ 0 → 7 * len ≤ 8 * x.undoFill → s.checkpoint c = some (s1, st) →
      exec (.undoLogForcedCkpt c) s = .next (s1.event (s1.homeDie c) 0x06 (ctxHandle c) (BitVec.ofNat 64 x.undoFill))) ∧
    (x.undoFill + 136 ≤ len → exec (.undoLogFull c) s = .next s) ∧
    (x.logging = true → len < x.undoFill + 136 →
      ∃ t, exec (.undoLogFull c) s = .next t ∧ (t.ctx c).logging = false ∧ t = s.dropCheckpoint c) ∧
    (s.ctxCrews c ≠ [] ∨ s.relocking = true → exec (.contextAbort c) s = .next s) ∧
    (s.ctxCrews c = [] → s.relocking = false → ∃ t, exec (.contextAbort c) s = .next t ∧ (t.ctx c).up = false ∧ (t.ctx c).recs = [] ∧
      (t.ctx c).imgs = [] ∧ (∀ l ∈ t.launches, l.ctx ≠ c) ∧ (∀ e ∈ t.saved, e.ctx ≠ c) ∧ t.waves = s.waves ∧ t.crews = s.crews)) ∧
  (∀ (s : State) (k : Key), isReeveCore (coreOf k) = true →
    ((s.wave k).stopped = true → exec (.reeveWaveFault k) s = .next s) ∧
    (∀ h r f, (s.wave k).stopped = false → (s.wave k).held = h :: r → h.bad = some f →
      exec (.reeveWaveFault k) s = .next (s.raiseWave k f (BitVec.ofNat 64 h.va)))) ∧
  (∀ (s : State) (d : Nat), d < 4 →
    ((∃ k ∈ reeveWaves d, (s.wave k).stopped = false) → exec (.firmwareRestart d) s = .next s) ∧
    ((∀ k ∈ reeveWaves d, (s.wave k).stopped = true) → ∃ t, exec (.firmwareRestart d) s = .next t ∧ t.mem = s.mem ∧
      (∀ k ∈ reeveWaves d, t.wave k = State.reset.wave k) ∧ (∀ k, coreOf k ≠ reeveCore d → t.wave k = s.wave k) ∧
      ∃ e ∈ (t.die d).evq, e.kind = 0x09)) ∧
  (∀ (s : State) (w0 w1 w2 w3 : BitVec 64),
    (bits w0 63 60 < 4 → ∃ t, exec (.wearRecordAppend w0 w1 w2 w3) s = .next t ∧
      t.pkg.wear = s.pkg.wear ++ [[w0, w1 &&& 0xFFFFFFFF, w2, w3]] ∧ t.mem = s.mem) ∧
    (4 ≤ bits w0 63 60 → exec (.wearRecordAppend w0 w1 w2 w3) s = .next s)) ∧
  (∀ (s : State) (n : Nat),
    let p (t : State) : Port := tget t.pkg.ports {} n
    ((p s).spared = true → exec (.laneSpareRetrain n) s = .next s) ∧
    ((p s).spared = false → ∃ t, exec (.laneSpareRetrain n) s = .next t ∧ p t = { p s with spared := true, down := true }) ∧
    (∃ t, exec (.portRetrain n) s = .next t ∧ p t = { p s with down := true } ∧
      ∀ m, m ≠ n → tget t.pkg.ports {} m = tget s.pkg.ports {} m) ∧
    (let s1 := s.modPort n fun x => { x with down := false }
     let ks := ((s.pkg.peerOps.filter fun o => o.eng == .wave && s.portOf (s.opCtx o) o.addr == some n).map (·.key)).dedup
     p s1 = { p s with down := false } ∧ exec (.portRetrainDone n) s = .next (ks.foldl State.retryHeld s1)))

-- Outside.

/-- R7, R134, R319, R339, R354, R393, R399, R406, R409 to R415, R418, R419: the host and the fabric. A doorbell of a polder's virtual
function moves WRIX of a queue of the polder forward within the ring or counts an error; it reads 0, and elsewhere a write does nothing. A
register write sets its register, a provisioned one only in MANUFACTURE, and registers or removes a barrier
word; accesses and atomics of the host and of peers are performed at home in the window of their polder, whole or not at all, and refused
else; a function-level reset begins by ending what its polder runs, and ends by zeroing the polder's ranges. A peer's response lets the
engine that waits perform its access; after 1 ms without one it is ACCESS. The model's choices and readings in it: the codes of
completions and the words of answers (log 36); that a doorbell counts whatever V says and that a host command goes to die 0 with handle 0
(log 37); that a reset lowers the floodgate (logs 29, 37) and waits while a die relocks (log 88); how barrier words are registered (log
34); what is completed with Unsupported Request beyond the largest payload (log 90); that a fabric identifier names no polder before
firmware has written it (log 91); what an operation that timed out has done at its peer (log 84). -/
def Obligations.HostAndFabric : Prop :=
  (∀ (s : State) (p addr : Nat) (write : Bool) (v : BitVec 32),
    let q := addr / 8
    let d (v : Nat) : Nat := (v + 2 ^ 32 - s.qRdix q) % 2 ^ 32
    let there : Prop := s.vfUp p = true ∧ addr < 65536
    let hits : Prop := addr % 8 = 0 ∧ q < 1024 ∧ polderOf (s.qCtx q) = p ∧ p ∉ s.pkg.flr
    let ok : Prop := s.qDev q = false ∧ d v.toNat ≤ 2 ^ s.qLog q ∧ d (s.qWrix q) ≤ d v.toNat
    (¬there → exec (.doorbellWrite p ⟨write, addr, v⟩) s = .next (if write then s else s.complete 1 [])) ∧
    (there → write = false → exec (.doorbellWrite p ⟨write, addr, v⟩) s = .next (s.complete 0 [0])) ∧
    (there → write = true → ¬hits → exec (.doorbellWrite p ⟨write, addr, v⟩) s = .next s) ∧
    (there → write = true → hits → memWf s.mem = true → ∃ t, exec (.doorbellWrite p ⟨write, addr, v⟩) s = .next t ∧
      (ok → t.qWrix q = v.toNat) ∧
      (¬ok → t.qWrix q = s.qWrix q ∧ bits (t.queueWord q 2) 63 32 = (bits (s.queueWord q 2) 63 32 + 1) % 2 ^ 32))) ∧
  (∀ (s : State) (v : BitVec 64),
    (∀ die, exec (.registerWrite (.evec die) v) s = .next (s.modDie die fun x => { x with evec := v })) ∧
    (∀ core, core < 252 → ∃ t, exec (.registerWrite (.islandForce core) v) s = .next t ∧
      (t.core core).island.force = v.getLsbD 0) ∧
    (∀ die, ∃ t, exec (.registerWrite (.dclkTgt die) v) s = .next t ∧ (t.die die).tgt = max 24 (min 88 (v.toNat % 128))) ∧
    (∀ tg core freq, tg = .provVg core freq ∨ tg = .provDrop core ∨ tg = .provFbmax core ∨ tg = .provVnom core freq ∨
      tg = .provVmin core freq ∨ tg = .bootm core → s.pkg.life ≠ .manufacture → exec (.registerWrite tg v) s = .next s) ∧
    (∀ core freq, s.pkg.life = .manufacture → ∃ t, exec (.registerWrite (.provVg core freq) v) s = .next t ∧
      tget t.pkg.vg 800 (core * 128 + freq) = v.toNat) ∧
    (∀ addr p n thr, ∃ t, exec (.registerWrite (.barrier addr p n thr) v) s = .next t ∧
      (∀ b, b.addr ≠ addr ∨ b.polder ≠ p → (b ∈ t.pkg.barriers ↔ b ∈ s.pkg.barriers)) ∧
      (n = 0 → ∀ b ∈ t.pkg.barriers, b.addr ≠ addr ∨ b.polder ≠ p) ∧
      (n ≠ 0 → ∃ b ∈ t.pkg.barriers, b.addr = addr ∧ b.polder = p ∧ b.n = n ∧ b.thr = thr ∧ b.round = 0 ∧ b.arrivals = [] ∧
        b.depart = (s.polder p).ran)) ∧
    (∀ port, ∃ t, exec (.registerWrite (.refusedPeers port) v) s = .next t ∧ (tget t.pkg.ports {} port).refused = v.toNat) ∧
    (∀ slice, ∃ t, exec (.registerWrite (.pinLimit slice) v) s = .next t ∧ tfind t.pkg.pinLim slice = some (min 24576 v.toNat)) ∧
    (∀ p, ∃ t, exec (.registerWrite (.fabricId p) v) s = .next t ∧ tfind t.pkg.fids p = some (v.toNat % 65536))) ∧
  (∀ (s : State) (idx : BitVec 64), ∃ t, exec (.hostCommandDoorbell idx) s = .next t ∧ t = { s with dies := t.dies } ∧
    (∃ e ∈ (t.die 0).evq, e.kind = 0x03 ∧ e.handle = 0) ∧ ∀ d, d ≠ 0 → t.die d = s.die d) ∧
  (∀ (s : State) (p addr size : Nat) (write : Bool) (data : List Byte),
    let n := if write then data.length else size
    let big : Prop := if write then 512 < data.length else 4096 < size
    (s.vfUp p = false ∨ big ∨ s.window p addr n = none → exec (.hostBar2Access p write addr data size) s = .next (s.complete 1 [])) ∧
    (∀ as, s.vfUp p = true → ¬big → s.window p addr n = some as →
      (s.homeStopped p as = true → exec (.hostBar2Access p write addr data size) s = .next s) ∧
      (s.homeStopped p as = false → write = false →
        exec (.hostBar2Access p write addr data size) s =
          .next ((s.chargeEach p 41 as).complete 0 (wordsOf (as.map s.homeByte)))) ∧
      (s.homeStopped p as = false → write = true →
        ∃ t, exec (.hostBar2Access p write addr data size) s = .next t ∧ t.waves = s.waves ∧ t.crews = s.crews ∧ t.dies = s.dies ∧
          (memWf s.mem = true → as.Nodup → (∀ a ∈ as, ¬within dtBase (64 * 512) a) →
            (∀ i, i < as.length → t.homeByte (as.getD i 0) = s.storedOver (as.getD i 0) (data.getD i 0)) ∧
            ∀ a, a ∉ as → t.homeByte a = s.homeByte a)))) ∧
  (∀ (s : State) (p op size addr : Nat) (a b : BitVec 64) (as : List Nat),
    (s.vfUp p = false → exec (.hostAtomicop p op size addr a b) s = .next (s.complete 1 [])) ∧
    (s.vfUp p = true → op = 2 → size = 16 → exec (.hostAtomicop p op size addr a b) s = .next (s.complete 4 [])) ∧
    (s.vfUp p = true → op ≤ 2 → size = 4 ∨ size = 8 → addr % size = 0 → s.window p addr size = some as →
      s.homeStopped p as = false →
      let old := ofBytes (as.map s.homeByte)
      let new := if op = 0 then (old + a.toNat) % 2 ^ (8 * size) else if op = 1 then a.toNat % 2 ^ (8 * size)
        else if old = a.toNat % 2 ^ (8 * size) then b.toNat % 2 ^ (8 * size) else old
      ∃ t, exec (.hostAtomicop p op size addr a b) s = .next t ∧ t.pkg.outbox = s.pkg.outbox ++ [[0, BitVec.ofNat 64 old]] ∧
        (memWf s.mem = true → as.Nodup → (∀ a ∈ as, ¬within dtBase (64 * 512) a) →
          (∀ i, i < as.length → t.homeByte (as.getD i 0) = s.storedOver (as.getD i 0) (BitVec.ofNat 8 (new >>> (8 * i)))) ∧
          ∀ a, a ∉ as → t.homeByte a = s.homeByte a))) ∧
  (∀ (s : State) (p : Nat), p < 32 → s.vfUp p = true → s.relocking = false →
    (p ∉ s.pkg.flr → ∃ t, exec (.functionLevelReset (p + 1)) s = .next t ∧ p ∈ t.pkg.flr ∧
      ∀ c, c / 16 = p → (t.ctx c).up = false ∧ (t.ctx c).recs = [] ∧ (∀ l ∈ t.launches, l.ctx ≠ c) ∧ ∀ e ∈ t.saved, e.ctx ≠ c) ∧
    (p ∈ s.pkg.flr → s.pkg.dcache = [] → ∃ t, exec (.functionLevelReset (p + 1)) s = .next t ∧ p ∉ t.pkg.flr ∧
      ∀ a, t.homeByte a = if s.inPolder p a then memInit a else s.homeByte a)) ∧
  (∀ (s : State) (v : BitVec 64) (kind : Nat),
    (s.pkg.bootStopped = true → ∃ t, exec (.configurationRequest kind v) s = .next t ∧
      t.pkg.outbox = s.pkg.outbox ++ [BitVec.ofNat 64 (lifeCode s.pkg.life) :: s.failingWords]) ∧
    (s.pkg.bootStopped = false → s.pkg.boot < 6 → exec (.configurationRequest kind v) s = .next (s.complete 2 [])) ∧
    (s.pkg.bootStopped = false → 6 ≤ s.pkg.boot →
      ∃ t, exec (.configurationRequest 1 v) s = .next t ∧ ∀ p, p < 32 → (p ∈ t.pkg.vfs ↔ v.getLsbD p = true))) ∧
  (∀ (s : State) (port fid addr size : Nat) (what : PeerIn) (data : BitVec 128),
    (s.pkg.boot ≠ 6 → exec (.peerAccessIn port fid what addr data size) s = .next (s.answerPeer port false 0)) ∧
    (s.pkg.boot = 6 → (tget s.pkg.ports {} port).down = true → exec (.peerAccessIn port fid what addr data size) s = .next s)) ∧
  (∀ (s : State) (port fid addr size p : Nat) (what : PeerIn) (data : BitVec 128), s.pkg.boot = 6 →
    (tget s.pkg.ports {} port).down = false →
    (s.fidPolder fid = none ∨ (s.fidPolder fid = some p ∧ s.ownsPort p port = false) →
      ∃ t, exec (.peerAccessIn port fid what addr data size) s = .next t ∧ t.mem = s.mem ∧
        (tget t.pkg.ports {} port).refused = (tget s.pkg.ports {} port).refused + 1) ∧
    (s.fidPolder fid = some p → s.ownsPort p port = true → s.window p addr size = none ∨ peerSizeOk what addr size = false →
      exec (.peerAccessIn port fid what addr data size) s = .next (s.answerPeer port false 0)) ∧
    (∀ as, s.fidPolder fid = some p → s.ownsPort p port = true → s.window p addr size = some as → peerSizeOk what addr size = true →
      s.homeStopped p as = false →
      let old := ofBytes (as.map s.homeByte)
      let answers (x : Nat) (v : Option Nat) : Prop := ∃ t, exec (.peerAccessIn port fid what addr data size) s = .next t ∧
        t.pkg.outbox = s.pkg.outbox ++ [[BitVec.ofNat 64 (2 ^ 32 * (port + 1)), BitVec.ofNat 64 x, BitVec.ofNat 64 (x / 2 ^ 64)]] ∧
        (v = none → t.mem = s.mem) ∧
        (∀ y, v = some y → memWf s.mem = true → as.Nodup → (∀ a ∈ as, ¬within dtBase (64 * 512) a) →
          (∀ i, i < as.length → t.homeByte (as.getD i 0) = s.storedOver (as.getD i 0) (BitVec.ofNat 8 (y >>> (8 * i)))) ∧
          ∀ a, a ∉ as → t.homeByte a = s.homeByte a)
      (what = .load → answers old none) ∧ (what = .store → answers 0 (some data.toNat)) ∧
      (∀ op sg, what = .atom op sg → answers old (some (atomNew op (8 * size) sg old (data.toNat % 2 ^ (8 * size))))) ∧
      (∀ c, what = .cas c → answers old (if old = c.toNat % 2 ^ (8 * size) then some data.toNat else none)))) ∧
  (∀ (s : State) (o : PeerOp) (data : BitVec 128), s.pkg.peerOps.find? (fun x => x.id == o.id) = some o → o.answered = false →
    let s1 := (s.peerSends o data).modPkg fun p =>
      { p with peerOps := p.peerOps.map fun x => if x.id == o.id then { x with answered := true } else x }
    let s2 : State := { s with freeCtr := s.freeCtr + 1 }
    let det : Dword := BitVec.ofNat 64 o.va
    (o.since + 1000000 < s.reft → exec (.peerResponse o.id data) s = .next s) ∧
    (s.reft ≤ o.since + 1000000 → exec (.peerResponse o.id data) s = .next (if o.eng = .wave then s1.retryHeld o.key else s1)) ∧
    (s.reft < o.since + 1000000 → exec (.peerTimeout o.id) s = .next s) ∧
    (∀ c, o.since + 1000000 ≤ s.reft → o.write = true → s.opCtx o = c → c < 512 →
      (Config.peerDone s.freeCtr = false ∧ exec (.peerTimeout o.id) s = .next ((s2.setExtw c true).faultOp o)) ∨
      (Config.peerDone s.freeCtr = true ∧ exec (.peerTimeout o.id) s = .next ((s.maybeDone o).faultOp o))) ∧
    (o.since + 1000000 ≤ s.reft → o.write = false → exec (.peerTimeout o.id) s = .next (s2.faultOp o)) ∧
    (∀ pos, o.eng = .copy → (s.core o.key).copyq.findIdx? (fun e => e.id == o.lane) = some pos →
      s.faultOp o = (s.dropOp o.id).faultCopy o.key pos .access det) ∧
    (o.eng = .seq → s.faultOp o = (s.dropOps .seq o.key).raiseSeq o.key .access det (s.seqWord o.key)) ∧
    (o.eng = .wave → o.lane = 32 → s.faultOp o = (s.dropOp o.id).raiseWave o.key .access det (s.standingWord o.key)) ∧
    (∀ h r, o.eng = .wave → o.lane ≠ 32 → (s.wave o.key).park = none → (s.wave o.key).held = h :: r →
      s.faultOp o = (s.dropOps .wave o.key).modWave o.key fun w =>
        { w with held := { h with va := o.va, fifo := false, bad := some .access } :: r }) ∧
    (∀ t x d ep, o.eng = .wave → o.lane ≠ 32 → (s.wave o.key).park = some (.ldwatch d ep) →
      (s.wave o.key).parkI = some (.ldwatch t x) →
      s.faultOp o = (s.dropOps .wave o.key).raiseWave o.key .access det ((encodeWave (.ldwatch t x)).getD 0)))

/-- R398, R405, R415 to R418: boot, reset, life cycle and attestation. As boot begins, every memory of the module
reads zero but in the tables of descriptors and polders, whose fields stand at their reset values (R334, R350); every die runs at its
boot clock, every wave is as after reset; worn cores are replaced by spares as log 70 chooses, the
model's choice. The boot steps follow one another; one with an image that does not verify, or on a returned module an image that is not
diagnostic, stops at step 2 and the module does nothing more of itself. A reset enters step 1 with the images of the last boot (the
model's choice, log 92) and keeps what log 44 names. A change of the life cycle goes
forward only, clears the memories in the same way and zeroes the counters of metering; a report carries the part number and the nonce, while
the device has its key. -/
def Obligations.BootAndLifeCycle : Prop :=
  (∀ (s : State) (fw reeve : BootImg), ∃ t, exec (.powerGoodBoot ⟨fw, reeve⟩) s = .next t ∧
    exec .moduleReset s = exec (.powerGoodBoot ⟨s.pkg.fwImg, s.pkg.reeveImg⟩) s ∧
    (memWf s.mem = true → memWf t.mem = true ∧ ∀ a, t.homeByte a = if isExternal a then s.homeByte a else memInit a) ∧
    (∀ k, t.wave k = State.reset.wave k) ∧ (∀ c, t.crew c = State.reset.crew c) ∧ (∀ n, t.core n = State.reset.core n) ∧
    (∀ c, t.ctx c = State.reset.ctx c) ∧ t.launches = [] ∧ t.saved = [] ∧ t.pkg.dcache = [] ∧ t.pkg.tlb = [] ∧
    t.pkg.life = s.pkg.life ∧ t.pkg.wear = s.pkg.wear ∧ t.pkg.repSeq = s.pkg.repSeq ∧ t.pkg.coreMap = coreMapOf s.pkg.wear ∧
    (∀ p, (t.polder p).total = (s.polder p).total) ∧
    (∀ d, d < 4 → (t.die d).cur = max 24 (min 88 (tget s.pkg.bootm bootCode d)) ∧ (t.die d).tgt = (t.die d).cur ∧
      (t.die d).evq = []) ∧
    t.pkg.boot = 1 ∧ t.pkg.bootStopped = false ∧ t.pkg.fwImg = fw ∧ t.pkg.reeveImg = reeve) ∧
  (∀ s : State,
    let ok : Prop := ∀ i ∈ [s.pkg.fwImg, s.pkg.reeveImg], i = .diagnostic ∨ (i = .ordinary ∧ s.pkg.life ≠ .returned)
    (s.agenda = [] → s.pkg.bootStopped = true → step s = .fault .bootStopped) ∧
    (s.agenda = [] → s.pkg.bootStopped = false → s.pkg.boot < 6 → step s = .next (s.bootStep.elapse 1)) ∧
    (s.pkg.bootStopped = false → s.pkg.boot < 6 → s.pkg.boot ≠ 2 ∨ ok →
      s.bootStep = s.modPkg fun p => { p with boot := p.boot + 1 }) ∧
    (s.pkg.bootStopped = false → s.pkg.boot = 2 → ¬ok → s.bootStep = s.modPkg fun p => { p with bootStopped := true })) ∧
  (∀ (s : State) (target : Nat),
    (lifeNext s.pkg.life target = none → exec (.lifeCycleChange target) s = .next s) ∧
    (∀ l, lifeNext s.pkg.life target = some l →
      lifeCode s.pkg.life < lifeCode l ∧ lifeCode l = target ∧
      ∃ t, exec (.lifeCycleChange target) s = .next t ∧ t.pkg.life = l ∧ t.pkg.ownMeter = [] ∧ t.pkg.boot = 1 ∧ (∀ p, t.polder p = {}) ∧
        (memWf s.mem = true → ∀ a, isExternal a = false → t.homeByte a = memInit a))) ∧
  (∀ (s : State) (n0 n1 : BitVec 64),
    let key : Prop := s.pkg.life = .provisioned ∨ s.pkg.life = .deployed
    (¬key → exec (.attestationReport n0 n1) s = .next s) ∧
    (key → ∃ t r, exec (.attestationReport n0 n1) s = .next t ∧ t.pkg.outbox = s.pkg.outbox ++ [r] ∧
      r.length = 22 ∧ r.getD 0 0 = 0x332D344D2D394E4C ∧ r.getD 1 0 = 0x3438 ∧ r.getD 2 0 = BitVec.ofNat 64 (lifeCode s.pkg.life) ∧
      r.getD 12 0 = n0 ∧ r.getD 13 0 = n1 ∧ t.mem = s.mem))
end

