-- ==== Sys2Proof/Laws/Tab.lean ====
section
/-! SUPPORT. Reading a table after setting or removing an entry. -/

namespace Sys2Proof.Machine

theorem tget_nil {α : Type} (d : α) (k : Nat) : tget ([] : Tab α) d k = d := rfl

/-- An entry reads as it was set; every other entry reads as before. -/
theorem tget_tset {α : Type} (t : Tab α) (d : α) (k q : Nat) (v : α) :
    tget (tset t k v) d q = if q = k then v else tget t d q := by
  induction t with
  | nil => simp [tset, tget]
  | cons e r ih =>
    obtain ⟨k', v'⟩ := e
    simp only [tset]
    split
    · simp [tget]
    · split
      · rename_i h; subst h; by_cases hq : q = k <;> simp [tget, hq]
      · rename_i h1 h2
        simp only [tget]
        split
        · rename_i hq; subst hq; simp [Ne.symm h2]
        · exact ih

@[simp] theorem tget_tset_same {α : Type} (t : Tab α) (d : α) (k : Nat) (v : α) : tget (tset t k v) d k = v := by
  simp [tget_tset]

theorem tget_tset_ne {α : Type} (t : Tab α) (d : α) (k q : Nat) (v : α) (h : q ≠ k) :
    tget (tset t k v) d q = tget t d q := by
  simp [tget_tset, h]

theorem tfind_tset {α : Type} (t : Tab α) (k q : Nat) (v : α) :
    tfind (tset t k v) q = if q = k then some v else tfind t q := by
  induction t with
  | nil => simp [tset, tfind]
  | cons e r ih =>
    obtain ⟨k', v'⟩ := e
    simp only [tset]
    split
    · simp [tfind]
    · split
      · rename_i h; subst h; by_cases hq : q = k <;> simp [tfind, hq]
      · rename_i h1 h2
        simp only [tfind]
        split
        · rename_i hq; subst hq; simp [Ne.symm h2]
        · exact ih

/-- A removed entry reads as the default; every other entry reads as before. -/
theorem tget_tdel {α : Type} (t : Tab α) (d : α) (k q : Nat) :
    tget (tdel t k) d q = if q = k then d else tget t d q := by
  unfold tdel
  induction t with
  | nil => simp [tget]
  | cons e r ih =>
    obtain ⟨k', v'⟩ := e
    rw [List.filter_cons]
    split
    · rename_i h
      have hk : k' ≠ k := by simpa using h
      simp only [tget]
      split
      · rename_i hq; subst hq; simp [hk]
      · exact ih
    · rename_i h
      have hk : k' = k := by simpa using h
      subst hk
      rw [ih]
      by_cases hq : q = k' <;> simp [tget, hq]

end Sys2Proof.Machine
end

