-- ==== Sys2Proof/Laws/State.lean ====
section
/-! SUPPORT. What each update of the state leaves, field by field and object by object, so that no proof unfolds a record
update. -/

namespace Sys2Proof.Machine

-- setWave

@[simp] theorem State.setWave_agenda (s : State) (k : Key) (w : Wave) : (s.setWave k w).agenda = s.agenda := rfl
@[simp] theorem State.setWave_cur (s : State) (k : Key) (w : Wave) : (s.setWave k w).cur = s.cur := rfl
@[simp] theorem State.setWave_onSeq (s : State) (k : Key) (w : Wave) : (s.setWave k w).onSeq = s.onSeq := rfl
@[simp] theorem State.setWave_freeCtr (s : State) (k : Key) (w : Wave) : (s.setWave k w).freeCtr = s.freeCtr := rfl
@[simp] theorem State.setWave_reft (s : State) (k : Key) (w : Wave) : (s.setWave k w).reft = s.reft := rfl
@[simp] theorem State.setWave_mem (s : State) (k : Key) (w : Wave) : (s.setWave k w).mem = s.mem := rfl
@[simp] theorem State.setWave_pkg (s : State) (k : Key) (w : Wave) : (s.setWave k w).pkg = s.pkg := rfl
@[simp] theorem State.setWave_dies (s : State) (k : Key) (w : Wave) : (s.setWave k w).dies = s.dies := rfl
@[simp] theorem State.setWave_ctxs (s : State) (k : Key) (w : Wave) : (s.setWave k w).ctxs = s.ctxs := rfl
@[simp] theorem State.setWave_polders (s : State) (k : Key) (w : Wave) : (s.setWave k w).polders = s.polders := rfl
@[simp] theorem State.setWave_launches (s : State) (k : Key) (w : Wave) : (s.setWave k w).launches = s.launches := rfl
@[simp] theorem State.setWave_saved (s : State) (k : Key) (w : Wave) : (s.setWave k w).saved = s.saved := rfl
@[simp] theorem State.setWave_launchId (s : State) (k : Key) (w : Wave) : (s.setWave k w).launchId = s.launchId := rfl
@[simp] theorem State.setWave_cores (s : State) (k : Key) (w : Wave) : (s.setWave k w).cores = s.cores := rfl
@[simp] theorem State.setWave_clusters (s : State) (k : Key) (w : Wave) : (s.setWave k w).clusters = s.clusters := rfl
@[simp] theorem State.setWave_crews (s : State) (k : Key) (w : Wave) : (s.setWave k w).crews = s.crews := rfl
@[simp] theorem State.setWave_crew (s : State) (k : Key) (w : Wave) (q : Key) : (s.setWave k w).crew q = s.crew q := rfl
@[simp] theorem State.setWave_core (s : State) (k : Key) (w : Wave) (q : Nat) : (s.setWave k w).core q = s.core q := rfl
@[simp] theorem State.setWave_die (s : State) (k : Key) (w : Wave) (q : Nat) : (s.setWave k w).die q = s.die q := rfl
@[simp] theorem State.setWave_ctx (s : State) (k : Key) (w : Wave) (q : Nat) : (s.setWave k w).ctx q = s.ctx q := rfl
@[simp] theorem State.setWave_polder (s : State) (k : Key) (w : Wave) (q : Nat) : (s.setWave k w).polder q = s.polder q := rfl
@[simp] theorem State.setWave_cluster (s : State) (k : Key) (w : Wave) (q : Nat) : (s.setWave k w).cluster q = s.cluster q := rfl
@[simp] theorem State.setWave_home64 (s : State) (k : Key) (w : Wave) (x : Nat) : (s.setWave k w).home64 x = s.home64 x := rfl

-- modWave

@[simp] theorem State.modWave_agenda (s : State) (k : Key) (f : Wave → Wave) : (s.modWave k f).agenda = s.agenda := rfl
@[simp] theorem State.modWave_cur (s : State) (k : Key) (f : Wave → Wave) : (s.modWave k f).cur = s.cur := rfl
@[simp] theorem State.modWave_onSeq (s : State) (k : Key) (f : Wave → Wave) : (s.modWave k f).onSeq = s.onSeq := rfl
@[simp] theorem State.modWave_freeCtr (s : State) (k : Key) (f : Wave → Wave) : (s.modWave k f).freeCtr = s.freeCtr := rfl
@[simp] theorem State.modWave_reft (s : State) (k : Key) (f : Wave → Wave) : (s.modWave k f).reft = s.reft := rfl
@[simp] theorem State.modWave_mem (s : State) (k : Key) (f : Wave → Wave) : (s.modWave k f).mem = s.mem := rfl
@[simp] theorem State.modWave_pkg (s : State) (k : Key) (f : Wave → Wave) : (s.modWave k f).pkg = s.pkg := rfl
@[simp] theorem State.modWave_dies (s : State) (k : Key) (f : Wave → Wave) : (s.modWave k f).dies = s.dies := rfl
@[simp] theorem State.modWave_ctxs (s : State) (k : Key) (f : Wave → Wave) : (s.modWave k f).ctxs = s.ctxs := rfl
@[simp] theorem State.modWave_polders (s : State) (k : Key) (f : Wave → Wave) : (s.modWave k f).polders = s.polders := rfl
@[simp] theorem State.modWave_launches (s : State) (k : Key) (f : Wave → Wave) : (s.modWave k f).launches = s.launches := rfl
@[simp] theorem State.modWave_saved (s : State) (k : Key) (f : Wave → Wave) : (s.modWave k f).saved = s.saved := rfl
@[simp] theorem State.modWave_launchId (s : State) (k : Key) (f : Wave → Wave) : (s.modWave k f).launchId = s.launchId := rfl
@[simp] theorem State.modWave_cores (s : State) (k : Key) (f : Wave → Wave) : (s.modWave k f).cores = s.cores := rfl
@[simp] theorem State.modWave_clusters (s : State) (k : Key) (f : Wave → Wave) : (s.modWave k f).clusters = s.clusters := rfl
@[simp] theorem State.modWave_crews (s : State) (k : Key) (f : Wave → Wave) : (s.modWave k f).crews = s.crews := rfl
@[simp] theorem State.modWave_crew (s : State) (k : Key) (f : Wave → Wave) (q : Key) : (s.modWave k f).crew q = s.crew q := rfl
@[simp] theorem State.modWave_core (s : State) (k : Key) (f : Wave → Wave) (q : Nat) : (s.modWave k f).core q = s.core q := rfl
@[simp] theorem State.modWave_die (s : State) (k : Key) (f : Wave → Wave) (q : Nat) : (s.modWave k f).die q = s.die q := rfl
@[simp] theorem State.modWave_ctx (s : State) (k : Key) (f : Wave → Wave) (q : Nat) : (s.modWave k f).ctx q = s.ctx q := rfl
@[simp] theorem State.modWave_polder (s : State) (k : Key) (f : Wave → Wave) (q : Nat) : (s.modWave k f).polder q = s.polder q := rfl
@[simp] theorem State.modWave_cluster (s : State) (k : Key) (f : Wave → Wave) (q : Nat) : (s.modWave k f).cluster q = s.cluster q := rfl
@[simp] theorem State.modWave_home64 (s : State) (k : Key) (f : Wave → Wave) (x : Nat) : (s.modWave k f).home64 x = s.home64 x := rfl

-- setCrew

@[simp] theorem State.setCrew_agenda (s : State) (c : Key) (w : Crew) : (s.setCrew c w).agenda = s.agenda := rfl
@[simp] theorem State.setCrew_cur (s : State) (c : Key) (w : Crew) : (s.setCrew c w).cur = s.cur := rfl
@[simp] theorem State.setCrew_onSeq (s : State) (c : Key) (w : Crew) : (s.setCrew c w).onSeq = s.onSeq := rfl
@[simp] theorem State.setCrew_freeCtr (s : State) (c : Key) (w : Crew) : (s.setCrew c w).freeCtr = s.freeCtr := rfl
@[simp] theorem State.setCrew_reft (s : State) (c : Key) (w : Crew) : (s.setCrew c w).reft = s.reft := rfl
@[simp] theorem State.setCrew_mem (s : State) (c : Key) (w : Crew) : (s.setCrew c w).mem = s.mem := rfl
@[simp] theorem State.setCrew_pkg (s : State) (c : Key) (w : Crew) : (s.setCrew c w).pkg = s.pkg := rfl
@[simp] theorem State.setCrew_dies (s : State) (c : Key) (w : Crew) : (s.setCrew c w).dies = s.dies := rfl
@[simp] theorem State.setCrew_ctxs (s : State) (c : Key) (w : Crew) : (s.setCrew c w).ctxs = s.ctxs := rfl
@[simp] theorem State.setCrew_polders (s : State) (c : Key) (w : Crew) : (s.setCrew c w).polders = s.polders := rfl
@[simp] theorem State.setCrew_launches (s : State) (c : Key) (w : Crew) : (s.setCrew c w).launches = s.launches := rfl
@[simp] theorem State.setCrew_saved (s : State) (c : Key) (w : Crew) : (s.setCrew c w).saved = s.saved := rfl
@[simp] theorem State.setCrew_launchId (s : State) (c : Key) (w : Crew) : (s.setCrew c w).launchId = s.launchId := rfl
@[simp] theorem State.setCrew_cores (s : State) (c : Key) (w : Crew) : (s.setCrew c w).cores = s.cores := rfl
@[simp] theorem State.setCrew_clusters (s : State) (c : Key) (w : Crew) : (s.setCrew c w).clusters = s.clusters := rfl
@[simp] theorem State.setCrew_waves (s : State) (c : Key) (w : Crew) : (s.setCrew c w).waves = s.waves := rfl
@[simp] theorem State.setCrew_wave (s : State) (c : Key) (w : Crew) (q : Key) : (s.setCrew c w).wave q = s.wave q := rfl
@[simp] theorem State.setCrew_core (s : State) (c : Key) (w : Crew) (q : Nat) : (s.setCrew c w).core q = s.core q := rfl
@[simp] theorem State.setCrew_die (s : State) (c : Key) (w : Crew) (q : Nat) : (s.setCrew c w).die q = s.die q := rfl
@[simp] theorem State.setCrew_ctx (s : State) (c : Key) (w : Crew) (q : Nat) : (s.setCrew c w).ctx q = s.ctx q := rfl
@[simp] theorem State.setCrew_polder (s : State) (c : Key) (w : Crew) (q : Nat) : (s.setCrew c w).polder q = s.polder q := rfl
@[simp] theorem State.setCrew_cluster (s : State) (c : Key) (w : Crew) (q : Nat) : (s.setCrew c w).cluster q = s.cluster q := rfl
@[simp] theorem State.setCrew_home64 (s : State) (c : Key) (w : Crew) (x : Nat) : (s.setCrew c w).home64 x = s.home64 x := rfl

-- modCrew

@[simp] theorem State.modCrew_agenda (s : State) (c : Key) (f : Crew → Crew) : (s.modCrew c f).agenda = s.agenda := rfl
@[simp] theorem State.modCrew_cur (s : State) (c : Key) (f : Crew → Crew) : (s.modCrew c f).cur = s.cur := rfl
@[simp] theorem State.modCrew_onSeq (s : State) (c : Key) (f : Crew → Crew) : (s.modCrew c f).onSeq = s.onSeq := rfl
@[simp] theorem State.modCrew_freeCtr (s : State) (c : Key) (f : Crew → Crew) : (s.modCrew c f).freeCtr = s.freeCtr := rfl
@[simp] theorem State.modCrew_reft (s : State) (c : Key) (f : Crew → Crew) : (s.modCrew c f).reft = s.reft := rfl
@[simp] theorem State.modCrew_mem (s : State) (c : Key) (f : Crew → Crew) : (s.modCrew c f).mem = s.mem := rfl
@[simp] theorem State.modCrew_pkg (s : State) (c : Key) (f : Crew → Crew) : (s.modCrew c f).pkg = s.pkg := rfl
@[simp] theorem State.modCrew_dies (s : State) (c : Key) (f : Crew → Crew) : (s.modCrew c f).dies = s.dies := rfl
@[simp] theorem State.modCrew_ctxs (s : State) (c : Key) (f : Crew → Crew) : (s.modCrew c f).ctxs = s.ctxs := rfl
@[simp] theorem State.modCrew_polders (s : State) (c : Key) (f : Crew → Crew) : (s.modCrew c f).polders = s.polders := rfl
@[simp] theorem State.modCrew_launches (s : State) (c : Key) (f : Crew → Crew) : (s.modCrew c f).launches = s.launches := rfl
@[simp] theorem State.modCrew_saved (s : State) (c : Key) (f : Crew → Crew) : (s.modCrew c f).saved = s.saved := rfl
@[simp] theorem State.modCrew_launchId (s : State) (c : Key) (f : Crew → Crew) : (s.modCrew c f).launchId = s.launchId := rfl
@[simp] theorem State.modCrew_cores (s : State) (c : Key) (f : Crew → Crew) : (s.modCrew c f).cores = s.cores := rfl
@[simp] theorem State.modCrew_clusters (s : State) (c : Key) (f : Crew → Crew) : (s.modCrew c f).clusters = s.clusters := rfl
@[simp] theorem State.modCrew_waves (s : State) (c : Key) (f : Crew → Crew) : (s.modCrew c f).waves = s.waves := rfl
@[simp] theorem State.modCrew_wave (s : State) (c : Key) (f : Crew → Crew) (q : Key) : (s.modCrew c f).wave q = s.wave q := rfl
@[simp] theorem State.modCrew_core (s : State) (c : Key) (f : Crew → Crew) (q : Nat) : (s.modCrew c f).core q = s.core q := rfl
@[simp] theorem State.modCrew_die (s : State) (c : Key) (f : Crew → Crew) (q : Nat) : (s.modCrew c f).die q = s.die q := rfl
@[simp] theorem State.modCrew_ctx (s : State) (c : Key) (f : Crew → Crew) (q : Nat) : (s.modCrew c f).ctx q = s.ctx q := rfl
@[simp] theorem State.modCrew_polder (s : State) (c : Key) (f : Crew → Crew) (q : Nat) : (s.modCrew c f).polder q = s.polder q := rfl
@[simp] theorem State.modCrew_cluster (s : State) (c : Key) (f : Crew → Crew) (q : Nat) : (s.modCrew c f).cluster q = s.cluster q := rfl
@[simp] theorem State.modCrew_home64 (s : State) (c : Key) (f : Crew → Crew) (x : Nat) : (s.modCrew c f).home64 x = s.home64 x := rfl

-- setCore

@[simp] theorem State.setCore_agenda (s : State) (n : Nat) (c : CoreSt) : (s.setCore n c).agenda = s.agenda := rfl
@[simp] theorem State.setCore_cur (s : State) (n : Nat) (c : CoreSt) : (s.setCore n c).cur = s.cur := rfl
@[simp] theorem State.setCore_onSeq (s : State) (n : Nat) (c : CoreSt) : (s.setCore n c).onSeq = s.onSeq := rfl
@[simp] theorem State.setCore_freeCtr (s : State) (n : Nat) (c : CoreSt) : (s.setCore n c).freeCtr = s.freeCtr := rfl
@[simp] theorem State.setCore_reft (s : State) (n : Nat) (c : CoreSt) : (s.setCore n c).reft = s.reft := rfl
@[simp] theorem State.setCore_mem (s : State) (n : Nat) (c : CoreSt) : (s.setCore n c).mem = s.mem := rfl
@[simp] theorem State.setCore_pkg (s : State) (n : Nat) (c : CoreSt) : (s.setCore n c).pkg = s.pkg := rfl
@[simp] theorem State.setCore_dies (s : State) (n : Nat) (c : CoreSt) : (s.setCore n c).dies = s.dies := rfl
@[simp] theorem State.setCore_ctxs (s : State) (n : Nat) (c : CoreSt) : (s.setCore n c).ctxs = s.ctxs := rfl
@[simp] theorem State.setCore_polders (s : State) (n : Nat) (c : CoreSt) : (s.setCore n c).polders = s.polders := rfl
@[simp] theorem State.setCore_launches (s : State) (n : Nat) (c : CoreSt) : (s.setCore n c).launches = s.launches := rfl
@[simp] theorem State.setCore_saved (s : State) (n : Nat) (c : CoreSt) : (s.setCore n c).saved = s.saved := rfl
@[simp] theorem State.setCore_launchId (s : State) (n : Nat) (c : CoreSt) : (s.setCore n c).launchId = s.launchId := rfl
@[simp] theorem State.setCore_clusters (s : State) (n : Nat) (c : CoreSt) : (s.setCore n c).clusters = s.clusters := rfl
@[simp] theorem State.setCore_crews (s : State) (n : Nat) (c : CoreSt) : (s.setCore n c).crews = s.crews := rfl
@[simp] theorem State.setCore_waves (s : State) (n : Nat) (c : CoreSt) : (s.setCore n c).waves = s.waves := rfl
@[simp] theorem State.setCore_wave (s : State) (n : Nat) (c : CoreSt) (q : Key) : (s.setCore n c).wave q = s.wave q := rfl
@[simp] theorem State.setCore_crew (s : State) (n : Nat) (c : CoreSt) (q : Key) : (s.setCore n c).crew q = s.crew q := rfl
@[simp] theorem State.setCore_die (s : State) (n : Nat) (c : CoreSt) (q : Nat) : (s.setCore n c).die q = s.die q := rfl
@[simp] theorem State.setCore_ctx (s : State) (n : Nat) (c : CoreSt) (q : Nat) : (s.setCore n c).ctx q = s.ctx q := rfl
@[simp] theorem State.setCore_polder (s : State) (n : Nat) (c : CoreSt) (q : Nat) : (s.setCore n c).polder q = s.polder q := rfl
@[simp] theorem State.setCore_cluster (s : State) (n : Nat) (c : CoreSt) (q : Nat) : (s.setCore n c).cluster q = s.cluster q := rfl
@[simp] theorem State.setCore_home64 (s : State) (n : Nat) (c : CoreSt) (x : Nat) : (s.setCore n c).home64 x = s.home64 x := rfl

-- modCore

@[simp] theorem State.modCore_agenda (s : State) (n : Nat) (f : CoreSt → CoreSt) : (s.modCore n f).agenda = s.agenda := rfl
@[simp] theorem State.modCore_cur (s : State) (n : Nat) (f : CoreSt → CoreSt) : (s.modCore n f).cur = s.cur := rfl
@[simp] theorem State.modCore_onSeq (s : State) (n : Nat) (f : CoreSt → CoreSt) : (s.modCore n f).onSeq = s.onSeq := rfl
@[simp] theorem State.modCore_freeCtr (s : State) (n : Nat) (f : CoreSt → CoreSt) : (s.modCore n f).freeCtr = s.freeCtr := rfl
@[simp] theorem State.modCore_reft (s : State) (n : Nat) (f : CoreSt → CoreSt) : (s.modCore n f).reft = s.reft := rfl
@[simp] theorem State.modCore_mem (s : State) (n : Nat) (f : CoreSt → CoreSt) : (s.modCore n f).mem = s.mem := rfl
@[simp] theorem State.modCore_pkg (s : State) (n : Nat) (f : CoreSt → CoreSt) : (s.modCore n f).pkg = s.pkg := rfl
@[simp] theorem State.modCore_dies (s : State) (n : Nat) (f : CoreSt → CoreSt) : (s.modCore n f).dies = s.dies := rfl
@[simp] theorem State.modCore_ctxs (s : State) (n : Nat) (f : CoreSt → CoreSt) : (s.modCore n f).ctxs = s.ctxs := rfl
@[simp] theorem State.modCore_polders (s : State) (n : Nat) (f : CoreSt → CoreSt) : (s.modCore n f).polders = s.polders := rfl
@[simp] theorem State.modCore_launches (s : State) (n : Nat) (f : CoreSt → CoreSt) : (s.modCore n f).launches = s.launches := rfl
@[simp] theorem State.modCore_saved (s : State) (n : Nat) (f : CoreSt → CoreSt) : (s.modCore n f).saved = s.saved := rfl
@[simp] theorem State.modCore_launchId (s : State) (n : Nat) (f : CoreSt → CoreSt) : (s.modCore n f).launchId = s.launchId := rfl
@[simp] theorem State.modCore_clusters (s : State) (n : Nat) (f : CoreSt → CoreSt) : (s.modCore n f).clusters = s.clusters := rfl
@[simp] theorem State.modCore_crews (s : State) (n : Nat) (f : CoreSt → CoreSt) : (s.modCore n f).crews = s.crews := rfl
@[simp] theorem State.modCore_waves (s : State) (n : Nat) (f : CoreSt → CoreSt) : (s.modCore n f).waves = s.waves := rfl
@[simp] theorem State.modCore_wave (s : State) (n : Nat) (f : CoreSt → CoreSt) (q : Key) : (s.modCore n f).wave q = s.wave q := rfl
@[simp] theorem State.modCore_crew (s : State) (n : Nat) (f : CoreSt → CoreSt) (q : Key) : (s.modCore n f).crew q = s.crew q := rfl
@[simp] theorem State.modCore_die (s : State) (n : Nat) (f : CoreSt → CoreSt) (q : Nat) : (s.modCore n f).die q = s.die q := rfl
@[simp] theorem State.modCore_ctx (s : State) (n : Nat) (f : CoreSt → CoreSt) (q : Nat) : (s.modCore n f).ctx q = s.ctx q := rfl
@[simp] theorem State.modCore_polder (s : State) (n : Nat) (f : CoreSt → CoreSt) (q : Nat) : (s.modCore n f).polder q = s.polder q := rfl
@[simp] theorem State.modCore_cluster (s : State) (n : Nat) (f : CoreSt → CoreSt) (q : Nat) : (s.modCore n f).cluster q = s.cluster q := rfl
@[simp] theorem State.modCore_home64 (s : State) (n : Nat) (f : CoreSt → CoreSt) (x : Nat) : (s.modCore n f).home64 x = s.home64 x := rfl

-- modDie

@[simp] theorem State.modDie_agenda (s : State) (d : Nat) (f : Die → Die) : (s.modDie d f).agenda = s.agenda := rfl
@[simp] theorem State.modDie_cur (s : State) (d : Nat) (f : Die → Die) : (s.modDie d f).cur = s.cur := rfl
@[simp] theorem State.modDie_onSeq (s : State) (d : Nat) (f : Die → Die) : (s.modDie d f).onSeq = s.onSeq := rfl
@[simp] theorem State.modDie_freeCtr (s : State) (d : Nat) (f : Die → Die) : (s.modDie d f).freeCtr = s.freeCtr := rfl
@[simp] theorem State.modDie_reft (s : State) (d : Nat) (f : Die → Die) : (s.modDie d f).reft = s.reft := rfl
@[simp] theorem State.modDie_mem (s : State) (d : Nat) (f : Die → Die) : (s.modDie d f).mem = s.mem := rfl
@[simp] theorem State.modDie_pkg (s : State) (d : Nat) (f : Die → Die) : (s.modDie d f).pkg = s.pkg := rfl
@[simp] theorem State.modDie_ctxs (s : State) (d : Nat) (f : Die → Die) : (s.modDie d f).ctxs = s.ctxs := rfl
@[simp] theorem State.modDie_polders (s : State) (d : Nat) (f : Die → Die) : (s.modDie d f).polders = s.polders := rfl
@[simp] theorem State.modDie_launches (s : State) (d : Nat) (f : Die → Die) : (s.modDie d f).launches = s.launches := rfl
@[simp] theorem State.modDie_saved (s : State) (d : Nat) (f : Die → Die) : (s.modDie d f).saved = s.saved := rfl
@[simp] theorem State.modDie_launchId (s : State) (d : Nat) (f : Die → Die) : (s.modDie d f).launchId = s.launchId := rfl
@[simp] theorem State.modDie_cores (s : State) (d : Nat) (f : Die → Die) : (s.modDie d f).cores = s.cores := rfl
@[simp] theorem State.modDie_clusters (s : State) (d : Nat) (f : Die → Die) : (s.modDie d f).clusters = s.clusters := rfl
@[simp] theorem State.modDie_crews (s : State) (d : Nat) (f : Die → Die) : (s.modDie d f).crews = s.crews := rfl
@[simp] theorem State.modDie_waves (s : State) (d : Nat) (f : Die → Die) : (s.modDie d f).waves = s.waves := rfl
@[simp] theorem State.modDie_wave (s : State) (d : Nat) (f : Die → Die) (q : Key) : (s.modDie d f).wave q = s.wave q := rfl
@[simp] theorem State.modDie_crew (s : State) (d : Nat) (f : Die → Die) (q : Key) : (s.modDie d f).crew q = s.crew q := rfl
@[simp] theorem State.modDie_core (s : State) (d : Nat) (f : Die → Die) (q : Nat) : (s.modDie d f).core q = s.core q := rfl
@[simp] theorem State.modDie_ctx (s : State) (d : Nat) (f : Die → Die) (q : Nat) : (s.modDie d f).ctx q = s.ctx q := rfl
@[simp] theorem State.modDie_polder (s : State) (d : Nat) (f : Die → Die) (q : Nat) : (s.modDie d f).polder q = s.polder q := rfl
@[simp] theorem State.modDie_cluster (s : State) (d : Nat) (f : Die → Die) (q : Nat) : (s.modDie d f).cluster q = s.cluster q := rfl
@[simp] theorem State.modDie_home64 (s : State) (d : Nat) (f : Die → Die) (x : Nat) : (s.modDie d f).home64 x = s.home64 x := rfl

-- modCtx

@[simp] theorem State.modCtx_agenda (s : State) (c : Nat) (f : Ctx → Ctx) : (s.modCtx c f).agenda = s.agenda := rfl
@[simp] theorem State.modCtx_cur (s : State) (c : Nat) (f : Ctx → Ctx) : (s.modCtx c f).cur = s.cur := rfl
@[simp] theorem State.modCtx_onSeq (s : State) (c : Nat) (f : Ctx → Ctx) : (s.modCtx c f).onSeq = s.onSeq := rfl
@[simp] theorem State.modCtx_freeCtr (s : State) (c : Nat) (f : Ctx → Ctx) : (s.modCtx c f).freeCtr = s.freeCtr := rfl
@[simp] theorem State.modCtx_reft (s : State) (c : Nat) (f : Ctx → Ctx) : (s.modCtx c f).reft = s.reft := rfl
@[simp] theorem State.modCtx_mem (s : State) (c : Nat) (f : Ctx → Ctx) : (s.modCtx c f).mem = s.mem := rfl
@[simp] theorem State.modCtx_pkg (s : State) (c : Nat) (f : Ctx → Ctx) : (s.modCtx c f).pkg = s.pkg := rfl
@[simp] theorem State.modCtx_dies (s : State) (c : Nat) (f : Ctx → Ctx) : (s.modCtx c f).dies = s.dies := rfl
@[simp] theorem State.modCtx_polders (s : State) (c : Nat) (f : Ctx → Ctx) : (s.modCtx c f).polders = s.polders := rfl
@[simp] theorem State.modCtx_launches (s : State) (c : Nat) (f : Ctx → Ctx) : (s.modCtx c f).launches = s.launches := rfl
@[simp] theorem State.modCtx_saved (s : State) (c : Nat) (f : Ctx → Ctx) : (s.modCtx c f).saved = s.saved := rfl
@[simp] theorem State.modCtx_launchId (s : State) (c : Nat) (f : Ctx → Ctx) : (s.modCtx c f).launchId = s.launchId := rfl
@[simp] theorem State.modCtx_cores (s : State) (c : Nat) (f : Ctx → Ctx) : (s.modCtx c f).cores = s.cores := rfl
@[simp] theorem State.modCtx_clusters (s : State) (c : Nat) (f : Ctx → Ctx) : (s.modCtx c f).clusters = s.clusters := rfl
@[simp] theorem State.modCtx_crews (s : State) (c : Nat) (f : Ctx → Ctx) : (s.modCtx c f).crews = s.crews := rfl
@[simp] theorem State.modCtx_waves (s : State) (c : Nat) (f : Ctx → Ctx) : (s.modCtx c f).waves = s.waves := rfl
@[simp] theorem State.modCtx_wave (s : State) (c : Nat) (f : Ctx → Ctx) (q : Key) : (s.modCtx c f).wave q = s.wave q := rfl
@[simp] theorem State.modCtx_crew (s : State) (c : Nat) (f : Ctx → Ctx) (q : Key) : (s.modCtx c f).crew q = s.crew q := rfl
@[simp] theorem State.modCtx_core (s : State) (c : Nat) (f : Ctx → Ctx) (q : Nat) : (s.modCtx c f).core q = s.core q := rfl
@[simp] theorem State.modCtx_die (s : State) (c : Nat) (f : Ctx → Ctx) (q : Nat) : (s.modCtx c f).die q = s.die q := rfl
@[simp] theorem State.modCtx_polder (s : State) (c : Nat) (f : Ctx → Ctx) (q : Nat) : (s.modCtx c f).polder q = s.polder q := rfl
@[simp] theorem State.modCtx_cluster (s : State) (c : Nat) (f : Ctx → Ctx) (q : Nat) : (s.modCtx c f).cluster q = s.cluster q := rfl
@[simp] theorem State.modCtx_home64 (s : State) (c : Nat) (f : Ctx → Ctx) (x : Nat) : (s.modCtx c f).home64 x = s.home64 x := rfl

-- modPolder

@[simp] theorem State.modPolder_agenda (s : State) (p : Nat) (f : Polder → Polder) : (s.modPolder p f).agenda = s.agenda := rfl
@[simp] theorem State.modPolder_cur (s : State) (p : Nat) (f : Polder → Polder) : (s.modPolder p f).cur = s.cur := rfl
@[simp] theorem State.modPolder_onSeq (s : State) (p : Nat) (f : Polder → Polder) : (s.modPolder p f).onSeq = s.onSeq := rfl
@[simp] theorem State.modPolder_freeCtr (s : State) (p : Nat) (f : Polder → Polder) : (s.modPolder p f).freeCtr = s.freeCtr := rfl
@[simp] theorem State.modPolder_reft (s : State) (p : Nat) (f : Polder → Polder) : (s.modPolder p f).reft = s.reft := rfl
@[simp] theorem State.modPolder_mem (s : State) (p : Nat) (f : Polder → Polder) : (s.modPolder p f).mem = s.mem := rfl
@[simp] theorem State.modPolder_pkg (s : State) (p : Nat) (f : Polder → Polder) : (s.modPolder p f).pkg = s.pkg := rfl
@[simp] theorem State.modPolder_dies (s : State) (p : Nat) (f : Polder → Polder) : (s.modPolder p f).dies = s.dies := rfl
@[simp] theorem State.modPolder_ctxs (s : State) (p : Nat) (f : Polder → Polder) : (s.modPolder p f).ctxs = s.ctxs := rfl
@[simp] theorem State.modPolder_launches (s : State) (p : Nat) (f : Polder → Polder) : (s.modPolder p f).launches = s.launches := rfl
@[simp] theorem State.modPolder_saved (s : State) (p : Nat) (f : Polder → Polder) : (s.modPolder p f).saved = s.saved := rfl
@[simp] theorem State.modPolder_launchId (s : State) (p : Nat) (f : Polder → Polder) : (s.modPolder p f).launchId = s.launchId := rfl
@[simp] theorem State.modPolder_cores (s : State) (p : Nat) (f : Polder → Polder) : (s.modPolder p f).cores = s.cores := rfl
@[simp] theorem State.modPolder_clusters (s : State) (p : Nat) (f : Polder → Polder) : (s.modPolder p f).clusters = s.clusters := rfl
@[simp] theorem State.modPolder_crews (s : State) (p : Nat) (f : Polder → Polder) : (s.modPolder p f).crews = s.crews := rfl
@[simp] theorem State.modPolder_waves (s : State) (p : Nat) (f : Polder → Polder) : (s.modPolder p f).waves = s.waves := rfl
@[simp] theorem State.modPolder_wave (s : State) (p : Nat) (f : Polder → Polder) (q : Key) : (s.modPolder p f).wave q = s.wave q := rfl
@[simp] theorem State.modPolder_crew (s : State) (p : Nat) (f : Polder → Polder) (q : Key) : (s.modPolder p f).crew q = s.crew q := rfl
@[simp] theorem State.modPolder_core (s : State) (p : Nat) (f : Polder → Polder) (q : Nat) : (s.modPolder p f).core q = s.core q := rfl
@[simp] theorem State.modPolder_die (s : State) (p : Nat) (f : Polder → Polder) (q : Nat) : (s.modPolder p f).die q = s.die q := rfl
@[simp] theorem State.modPolder_ctx (s : State) (p : Nat) (f : Polder → Polder) (q : Nat) : (s.modPolder p f).ctx q = s.ctx q := rfl
@[simp] theorem State.modPolder_cluster (s : State) (p : Nat) (f : Polder → Polder) (q : Nat) : (s.modPolder p f).cluster q = s.cluster q := rfl
@[simp] theorem State.modPolder_home64 (s : State) (p : Nat) (f : Polder → Polder) (x : Nat) : (s.modPolder p f).home64 x = s.home64 x := rfl

-- modCluster

@[simp] theorem State.modCluster_agenda (s : State) (c : Nat) (f : Cluster → Cluster) : (s.modCluster c f).agenda = s.agenda := rfl
@[simp] theorem State.modCluster_cur (s : State) (c : Nat) (f : Cluster → Cluster) : (s.modCluster c f).cur = s.cur := rfl
@[simp] theorem State.modCluster_onSeq (s : State) (c : Nat) (f : Cluster → Cluster) : (s.modCluster c f).onSeq = s.onSeq := rfl
@[simp] theorem State.modCluster_freeCtr (s : State) (c : Nat) (f : Cluster → Cluster) : (s.modCluster c f).freeCtr = s.freeCtr := rfl
@[simp] theorem State.modCluster_reft (s : State) (c : Nat) (f : Cluster → Cluster) : (s.modCluster c f).reft = s.reft := rfl
@[simp] theorem State.modCluster_mem (s : State) (c : Nat) (f : Cluster → Cluster) : (s.modCluster c f).mem = s.mem := rfl
@[simp] theorem State.modCluster_pkg (s : State) (c : Nat) (f : Cluster → Cluster) : (s.modCluster c f).pkg = s.pkg := rfl
@[simp] theorem State.modCluster_dies (s : State) (c : Nat) (f : Cluster → Cluster) : (s.modCluster c f).dies = s.dies := rfl
@[simp] theorem State.modCluster_ctxs (s : State) (c : Nat) (f : Cluster → Cluster) : (s.modCluster c f).ctxs = s.ctxs := rfl
@[simp] theorem State.modCluster_polders (s : State) (c : Nat) (f : Cluster → Cluster) : (s.modCluster c f).polders = s.polders := rfl
@[simp] theorem State.modCluster_launches (s : State) (c : Nat) (f : Cluster → Cluster) : (s.modCluster c f).launches = s.launches := rfl
@[simp] theorem State.modCluster_saved (s : State) (c : Nat) (f : Cluster → Cluster) : (s.modCluster c f).saved = s.saved := rfl
@[simp] theorem State.modCluster_launchId (s : State) (c : Nat) (f : Cluster → Cluster) : (s.modCluster c f).launchId = s.launchId := rfl
@[simp] theorem State.modCluster_cores (s : State) (c : Nat) (f : Cluster → Cluster) : (s.modCluster c f).cores = s.cores := rfl
@[simp] theorem State.modCluster_crews (s : State) (c : Nat) (f : Cluster → Cluster) : (s.modCluster c f).crews = s.crews := rfl
@[simp] theorem State.modCluster_waves (s : State) (c : Nat) (f : Cluster → Cluster) : (s.modCluster c f).waves = s.waves := rfl
@[simp] theorem State.modCluster_wave (s : State) (c : Nat) (f : Cluster → Cluster) (q : Key) : (s.modCluster c f).wave q = s.wave q := rfl
@[simp] theorem State.modCluster_crew (s : State) (c : Nat) (f : Cluster → Cluster) (q : Key) : (s.modCluster c f).crew q = s.crew q := rfl
@[simp] theorem State.modCluster_core (s : State) (c : Nat) (f : Cluster → Cluster) (q : Nat) : (s.modCluster c f).core q = s.core q := rfl
@[simp] theorem State.modCluster_die (s : State) (c : Nat) (f : Cluster → Cluster) (q : Nat) : (s.modCluster c f).die q = s.die q := rfl
@[simp] theorem State.modCluster_ctx (s : State) (c : Nat) (f : Cluster → Cluster) (q : Nat) : (s.modCluster c f).ctx q = s.ctx q := rfl
@[simp] theorem State.modCluster_polder (s : State) (c : Nat) (f : Cluster → Cluster) (q : Nat) : (s.modCluster c f).polder q = s.polder q := rfl
@[simp] theorem State.modCluster_home64 (s : State) (c : Nat) (f : Cluster → Cluster) (x : Nat) : (s.modCluster c f).home64 x = s.home64 x := rfl

-- modPkg

@[simp] theorem State.modPkg_agenda (s : State) (f : Pkg → Pkg) : (s.modPkg f).agenda = s.agenda := rfl
@[simp] theorem State.modPkg_cur (s : State) (f : Pkg → Pkg) : (s.modPkg f).cur = s.cur := rfl
@[simp] theorem State.modPkg_onSeq (s : State) (f : Pkg → Pkg) : (s.modPkg f).onSeq = s.onSeq := rfl
@[simp] theorem State.modPkg_freeCtr (s : State) (f : Pkg → Pkg) : (s.modPkg f).freeCtr = s.freeCtr := rfl
@[simp] theorem State.modPkg_reft (s : State) (f : Pkg → Pkg) : (s.modPkg f).reft = s.reft := rfl
@[simp] theorem State.modPkg_mem (s : State) (f : Pkg → Pkg) : (s.modPkg f).mem = s.mem := rfl
@[simp] theorem State.modPkg_dies (s : State) (f : Pkg → Pkg) : (s.modPkg f).dies = s.dies := rfl
@[simp] theorem State.modPkg_ctxs (s : State) (f : Pkg → Pkg) : (s.modPkg f).ctxs = s.ctxs := rfl
@[simp] theorem State.modPkg_polders (s : State) (f : Pkg → Pkg) : (s.modPkg f).polders = s.polders := rfl
@[simp] theorem State.modPkg_launches (s : State) (f : Pkg → Pkg) : (s.modPkg f).launches = s.launches := rfl
@[simp] theorem State.modPkg_saved (s : State) (f : Pkg → Pkg) : (s.modPkg f).saved = s.saved := rfl
@[simp] theorem State.modPkg_launchId (s : State) (f : Pkg → Pkg) : (s.modPkg f).launchId = s.launchId := rfl
@[simp] theorem State.modPkg_cores (s : State) (f : Pkg → Pkg) : (s.modPkg f).cores = s.cores := rfl
@[simp] theorem State.modPkg_clusters (s : State) (f : Pkg → Pkg) : (s.modPkg f).clusters = s.clusters := rfl
@[simp] theorem State.modPkg_crews (s : State) (f : Pkg → Pkg) : (s.modPkg f).crews = s.crews := rfl
@[simp] theorem State.modPkg_waves (s : State) (f : Pkg → Pkg) : (s.modPkg f).waves = s.waves := rfl
@[simp] theorem State.modPkg_wave (s : State) (f : Pkg → Pkg) (q : Key) : (s.modPkg f).wave q = s.wave q := rfl
@[simp] theorem State.modPkg_crew (s : State) (f : Pkg → Pkg) (q : Key) : (s.modPkg f).crew q = s.crew q := rfl
@[simp] theorem State.modPkg_core (s : State) (f : Pkg → Pkg) (q : Nat) : (s.modPkg f).core q = s.core q := rfl
@[simp] theorem State.modPkg_die (s : State) (f : Pkg → Pkg) (q : Nat) : (s.modPkg f).die q = s.die q := rfl
@[simp] theorem State.modPkg_ctx (s : State) (f : Pkg → Pkg) (q : Nat) : (s.modPkg f).ctx q = s.ctx q := rfl
@[simp] theorem State.modPkg_polder (s : State) (f : Pkg → Pkg) (q : Nat) : (s.modPkg f).polder q = s.polder q := rfl
@[simp] theorem State.modPkg_cluster (s : State) (f : Pkg → Pkg) (q : Nat) : (s.modPkg f).cluster q = s.cluster q := rfl
@[simp] theorem State.modPkg_home64 (s : State) (f : Pkg → Pkg) (x : Nat) : (s.modPkg f).home64 x = s.home64 x := rfl

-- pokeBytes

@[simp] theorem State.pokeBytes_agenda (s : State) (a : Nat) (bs : List Byte) : (s.pokeBytes a bs).agenda = s.agenda := rfl
@[simp] theorem State.pokeBytes_cur (s : State) (a : Nat) (bs : List Byte) : (s.pokeBytes a bs).cur = s.cur := rfl
@[simp] theorem State.pokeBytes_onSeq (s : State) (a : Nat) (bs : List Byte) : (s.pokeBytes a bs).onSeq = s.onSeq := rfl
@[simp] theorem State.pokeBytes_freeCtr (s : State) (a : Nat) (bs : List Byte) : (s.pokeBytes a bs).freeCtr = s.freeCtr := rfl
@[simp] theorem State.pokeBytes_reft (s : State) (a : Nat) (bs : List Byte) : (s.pokeBytes a bs).reft = s.reft := rfl
@[simp] theorem State.pokeBytes_pkg (s : State) (a : Nat) (bs : List Byte) : (s.pokeBytes a bs).pkg = s.pkg := rfl
@[simp] theorem State.pokeBytes_dies (s : State) (a : Nat) (bs : List Byte) : (s.pokeBytes a bs).dies = s.dies := rfl
@[simp] theorem State.pokeBytes_ctxs (s : State) (a : Nat) (bs : List Byte) : (s.pokeBytes a bs).ctxs = s.ctxs := rfl
@[simp] theorem State.pokeBytes_polders (s : State) (a : Nat) (bs : List Byte) : (s.pokeBytes a bs).polders = s.polders := rfl
@[simp] theorem State.pokeBytes_launches (s : State) (a : Nat) (bs : List Byte) : (s.pokeBytes a bs).launches = s.launches := rfl
@[simp] theorem State.pokeBytes_saved (s : State) (a : Nat) (bs : List Byte) : (s.pokeBytes a bs).saved = s.saved := rfl
@[simp] theorem State.pokeBytes_launchId (s : State) (a : Nat) (bs : List Byte) : (s.pokeBytes a bs).launchId = s.launchId := rfl
@[simp] theorem State.pokeBytes_cores (s : State) (a : Nat) (bs : List Byte) : (s.pokeBytes a bs).cores = s.cores := rfl
@[simp] theorem State.pokeBytes_clusters (s : State) (a : Nat) (bs : List Byte) : (s.pokeBytes a bs).clusters = s.clusters := rfl
@[simp] theorem State.pokeBytes_crews (s : State) (a : Nat) (bs : List Byte) : (s.pokeBytes a bs).crews = s.crews := rfl
@[simp] theorem State.pokeBytes_waves (s : State) (a : Nat) (bs : List Byte) : (s.pokeBytes a bs).waves = s.waves := rfl
@[simp] theorem State.pokeBytes_wave (s : State) (a : Nat) (bs : List Byte) (q : Key) : (s.pokeBytes a bs).wave q = s.wave q := rfl
@[simp] theorem State.pokeBytes_crew (s : State) (a : Nat) (bs : List Byte) (q : Key) : (s.pokeBytes a bs).crew q = s.crew q := rfl
@[simp] theorem State.pokeBytes_core (s : State) (a : Nat) (bs : List Byte) (q : Nat) : (s.pokeBytes a bs).core q = s.core q := rfl
@[simp] theorem State.pokeBytes_die (s : State) (a : Nat) (bs : List Byte) (q : Nat) : (s.pokeBytes a bs).die q = s.die q := rfl
@[simp] theorem State.pokeBytes_ctx (s : State) (a : Nat) (bs : List Byte) (q : Nat) : (s.pokeBytes a bs).ctx q = s.ctx q := rfl
@[simp] theorem State.pokeBytes_polder (s : State) (a : Nat) (bs : List Byte) (q : Nat) : (s.pokeBytes a bs).polder q = s.polder q := rfl
@[simp] theorem State.pokeBytes_cluster (s : State) (a : Nat) (bs : List Byte) (q : Nat) : (s.pokeBytes a bs).cluster q = s.cluster q := rfl

-- poke64

@[simp] theorem State.poke64_agenda (s : State) (a : Nat) (v : Dword) : (s.poke64 a v).agenda = s.agenda := rfl
@[simp] theorem State.poke64_cur (s : State) (a : Nat) (v : Dword) : (s.poke64 a v).cur = s.cur := rfl
@[simp] theorem State.poke64_onSeq (s : State) (a : Nat) (v : Dword) : (s.poke64 a v).onSeq = s.onSeq := rfl
@[simp] theorem State.poke64_freeCtr (s : State) (a : Nat) (v : Dword) : (s.poke64 a v).freeCtr = s.freeCtr := rfl
@[simp] theorem State.poke64_reft (s : State) (a : Nat) (v : Dword) : (s.poke64 a v).reft = s.reft := rfl
@[simp] theorem State.poke64_pkg (s : State) (a : Nat) (v : Dword) : (s.poke64 a v).pkg = s.pkg := rfl
@[simp] theorem State.poke64_dies (s : State) (a : Nat) (v : Dword) : (s.poke64 a v).dies = s.dies := rfl
@[simp] theorem State.poke64_ctxs (s : State) (a : Nat) (v : Dword) : (s.poke64 a v).ctxs = s.ctxs := rfl
@[simp] theorem State.poke64_polders (s : State) (a : Nat) (v : Dword) : (s.poke64 a v).polders = s.polders := rfl
@[simp] theorem State.poke64_launches (s : State) (a : Nat) (v : Dword) : (s.poke64 a v).launches = s.launches := rfl
@[simp] theorem State.poke64_saved (s : State) (a : Nat) (v : Dword) : (s.poke64 a v).saved = s.saved := rfl
@[simp] theorem State.poke64_launchId (s : State) (a : Nat) (v : Dword) : (s.poke64 a v).launchId = s.launchId := rfl
@[simp] theorem State.poke64_cores (s : State) (a : Nat) (v : Dword) : (s.poke64 a v).cores = s.cores := rfl
@[simp] theorem State.poke64_clusters (s : State) (a : Nat) (v : Dword) : (s.poke64 a v).clusters = s.clusters := rfl
@[simp] theorem State.poke64_crews (s : State) (a : Nat) (v : Dword) : (s.poke64 a v).crews = s.crews := rfl
@[simp] theorem State.poke64_waves (s : State) (a : Nat) (v : Dword) : (s.poke64 a v).waves = s.waves := rfl
@[simp] theorem State.poke64_wave (s : State) (a : Nat) (v : Dword) (q : Key) : (s.poke64 a v).wave q = s.wave q := rfl
@[simp] theorem State.poke64_crew (s : State) (a : Nat) (v : Dword) (q : Key) : (s.poke64 a v).crew q = s.crew q := rfl
@[simp] theorem State.poke64_core (s : State) (a : Nat) (v : Dword) (q : Nat) : (s.poke64 a v).core q = s.core q := rfl
@[simp] theorem State.poke64_die (s : State) (a : Nat) (v : Dword) (q : Nat) : (s.poke64 a v).die q = s.die q := rfl
@[simp] theorem State.poke64_ctx (s : State) (a : Nat) (v : Dword) (q : Nat) : (s.poke64 a v).ctx q = s.ctx q := rfl
@[simp] theorem State.poke64_polder (s : State) (a : Nat) (v : Dword) (q : Nat) : (s.poke64 a v).polder q = s.polder q := rfl
@[simp] theorem State.poke64_cluster (s : State) (a : Nat) (v : Dword) (q : Nat) : (s.poke64 a v).cluster q = s.cluster q := rfl

-- modQuad

@[simp] theorem State.modQuad_agenda (s : State) (n i : Nat) (f : Quad → Quad) : (s.modQuad n i f).agenda = s.agenda := rfl
@[simp] theorem State.modQuad_cur (s : State) (n i : Nat) (f : Quad → Quad) : (s.modQuad n i f).cur = s.cur := rfl
@[simp] theorem State.modQuad_onSeq (s : State) (n i : Nat) (f : Quad → Quad) : (s.modQuad n i f).onSeq = s.onSeq := rfl
@[simp] theorem State.modQuad_freeCtr (s : State) (n i : Nat) (f : Quad → Quad) : (s.modQuad n i f).freeCtr = s.freeCtr := rfl
@[simp] theorem State.modQuad_reft (s : State) (n i : Nat) (f : Quad → Quad) : (s.modQuad n i f).reft = s.reft := rfl
@[simp] theorem State.modQuad_mem (s : State) (n i : Nat) (f : Quad → Quad) : (s.modQuad n i f).mem = s.mem := rfl
@[simp] theorem State.modQuad_pkg (s : State) (n i : Nat) (f : Quad → Quad) : (s.modQuad n i f).pkg = s.pkg := rfl
@[simp] theorem State.modQuad_dies (s : State) (n i : Nat) (f : Quad → Quad) : (s.modQuad n i f).dies = s.dies := rfl
@[simp] theorem State.modQuad_ctxs (s : State) (n i : Nat) (f : Quad → Quad) : (s.modQuad n i f).ctxs = s.ctxs := rfl
@[simp] theorem State.modQuad_polders (s : State) (n i : Nat) (f : Quad → Quad) : (s.modQuad n i f).polders = s.polders := rfl
@[simp] theorem State.modQuad_launches (s : State) (n i : Nat) (f : Quad → Quad) : (s.modQuad n i f).launches = s.launches := rfl
@[simp] theorem State.modQuad_saved (s : State) (n i : Nat) (f : Quad → Quad) : (s.modQuad n i f).saved = s.saved := rfl
@[simp] theorem State.modQuad_launchId (s : State) (n i : Nat) (f : Quad → Quad) : (s.modQuad n i f).launchId = s.launchId := rfl
@[simp] theorem State.modQuad_clusters (s : State) (n i : Nat) (f : Quad → Quad) : (s.modQuad n i f).clusters = s.clusters := rfl
@[simp] theorem State.modQuad_crews (s : State) (n i : Nat) (f : Quad → Quad) : (s.modQuad n i f).crews = s.crews := rfl
@[simp] theorem State.modQuad_waves (s : State) (n i : Nat) (f : Quad → Quad) : (s.modQuad n i f).waves = s.waves := rfl
@[simp] theorem State.modQuad_wave (s : State) (n i : Nat) (f : Quad → Quad) (q : Key) : (s.modQuad n i f).wave q = s.wave q := rfl
@[simp] theorem State.modQuad_crew (s : State) (n i : Nat) (f : Quad → Quad) (q : Key) : (s.modQuad n i f).crew q = s.crew q := rfl
@[simp] theorem State.modQuad_die (s : State) (n i : Nat) (f : Quad → Quad) (q : Nat) : (s.modQuad n i f).die q = s.die q := rfl
@[simp] theorem State.modQuad_ctx (s : State) (n i : Nat) (f : Quad → Quad) (q : Nat) : (s.modQuad n i f).ctx q = s.ctx q := rfl
@[simp] theorem State.modQuad_polder (s : State) (n i : Nat) (f : Quad → Quad) (q : Nat) : (s.modQuad n i f).polder q = s.polder q := rfl
@[simp] theorem State.modQuad_cluster (s : State) (n i : Nat) (f : Quad → Quad) (q : Nat) : (s.modQuad n i f).cluster q = s.cluster q := rfl
@[simp] theorem State.modQuad_home64 (s : State) (n i : Nat) (f : Quad → Quad) (x : Nat) : (s.modQuad n i f).home64 x = s.home64 x := rfl

-- The object that an update changes.

@[simp] theorem State.setWave_wave (s : State) (k : Key) (w : Wave) (q : Nat) :
    (s.setWave k w).wave q = if q = k then w else s.wave q := by
  simp [State.setWave, State.wave, tget_tset]
@[simp] theorem State.modWave_wave (s : State) (k : Key) (f : Wave → Wave) (q : Nat) :
    (s.modWave k f).wave q = if q = k then f (s.wave k) else s.wave q := by
  simp [State.modWave, State.wave, State.setWave, tget_tset]
@[simp] theorem State.setCrew_crew (s : State) (k : Key) (w : Crew) (q : Nat) :
    (s.setCrew k w).crew q = if q = k then w else s.crew q := by
  simp [State.setCrew, State.crew, tget_tset]
@[simp] theorem State.modCrew_crew (s : State) (k : Key) (f : Crew → Crew) (q : Nat) :
    (s.modCrew k f).crew q = if q = k then f (s.crew k) else s.crew q := by
  simp [State.modCrew, State.crew, State.setCrew, tget_tset]
@[simp] theorem State.setCore_core (s : State) (k : Nat) (w : CoreSt) (q : Nat) :
    (s.setCore k w).core q = if q = k then w else s.core q := by
  simp [State.setCore, State.core, tget_tset]
@[simp] theorem State.modCore_core (s : State) (k : Nat) (f : CoreSt → CoreSt) (q : Nat) :
    (s.modCore k f).core q = if q = k then f (s.core k) else s.core q := by
  simp [State.modCore, State.core, State.setCore, tget_tset]
@[simp] theorem State.modDie_die (s : State) (k : Nat) (f : Die → Die) (q : Nat) :
    (s.modDie k f).die q = if q = k then f (s.die k) else s.die q := by
  simp [State.modDie, State.die, tget_tset]
@[simp] theorem State.modCtx_ctx (s : State) (k : Nat) (f : Ctx → Ctx) (q : Nat) :
    (s.modCtx k f).ctx q = if q = k then f (s.ctx k) else s.ctx q := by
  simp [State.modCtx, State.ctx, tget_tset]
@[simp] theorem State.modPolder_polder (s : State) (k : Nat) (f : Polder → Polder) (q : Nat) :
    (s.modPolder k f).polder q = if q = k then f (s.polder k) else s.polder q := by
  simp [State.modPolder, State.polder, tget_tset]
@[simp] theorem State.modCluster_cluster (s : State) (k : Nat) (f : Cluster → Cluster) (q : Nat) :
    (s.modCluster k f).cluster q = if q = k then f (s.cluster k) else s.cluster q := by
  simp [State.modCluster, State.cluster, tget_tset]

@[simp] theorem State.modPkg_pkg (s : State) (f : Pkg → Pkg) : (s.modPkg f).pkg = f s.pkg := rfl

-- Setting the same object twice.

theorem tset_tset {α : Type} (t : Tab α) (k : Nat) (a b : α) : tset (tset t k a) k b = tset t k b := by
  induction t with
  | nil => simp [tset]
  | cons e r ih =>
    obtain ⟨k', v'⟩ := e
    simp only [tset]
    split
    · simp [tset]
    · split
      · rename_i h; subst h; simp [tset]
      · rename_i h1 h2
        simp [tset, h1, h2, ih]

@[simp] theorem State.setWave_setWave (s : State) (k : Key) (v w : Wave) : (s.setWave k v).setWave k w = s.setWave k w := by
  simp [State.setWave, tset_tset]

-- leaveQuad

@[simp] theorem State.leaveQuad_agenda (s : State) (k : Key) : (s.leaveQuad k).agenda = s.agenda := rfl
@[simp] theorem State.leaveQuad_cur (s : State) (k : Key) : (s.leaveQuad k).cur = s.cur := rfl
@[simp] theorem State.leaveQuad_onSeq (s : State) (k : Key) : (s.leaveQuad k).onSeq = s.onSeq := rfl
@[simp] theorem State.leaveQuad_freeCtr (s : State) (k : Key) : (s.leaveQuad k).freeCtr = s.freeCtr := rfl
@[simp] theorem State.leaveQuad_reft (s : State) (k : Key) : (s.leaveQuad k).reft = s.reft := rfl
@[simp] theorem State.leaveQuad_mem (s : State) (k : Key) : (s.leaveQuad k).mem = s.mem := rfl
@[simp] theorem State.leaveQuad_pkg (s : State) (k : Key) : (s.leaveQuad k).pkg = s.pkg := rfl
@[simp] theorem State.leaveQuad_dies (s : State) (k : Key) : (s.leaveQuad k).dies = s.dies := rfl
@[simp] theorem State.leaveQuad_ctxs (s : State) (k : Key) : (s.leaveQuad k).ctxs = s.ctxs := rfl
@[simp] theorem State.leaveQuad_polders (s : State) (k : Key) : (s.leaveQuad k).polders = s.polders := rfl
@[simp] theorem State.leaveQuad_launches (s : State) (k : Key) : (s.leaveQuad k).launches = s.launches := rfl
@[simp] theorem State.leaveQuad_saved (s : State) (k : Key) : (s.leaveQuad k).saved = s.saved := rfl
@[simp] theorem State.leaveQuad_launchId (s : State) (k : Key) : (s.leaveQuad k).launchId = s.launchId := rfl
@[simp] theorem State.leaveQuad_clusters (s : State) (k : Key) : (s.leaveQuad k).clusters = s.clusters := rfl
@[simp] theorem State.leaveQuad_crews (s : State) (k : Key) : (s.leaveQuad k).crews = s.crews := rfl
@[simp] theorem State.leaveQuad_waves (s : State) (k : Key) : (s.leaveQuad k).waves = s.waves := rfl
@[simp] theorem State.leaveQuad_wave (s : State) (k : Key) (q : Key) : (s.leaveQuad k).wave q = s.wave q := rfl
@[simp] theorem State.leaveQuad_crew (s : State) (k : Key) (q : Key) : (s.leaveQuad k).crew q = s.crew q := rfl
@[simp] theorem State.leaveQuad_die (s : State) (k : Key) (q : Nat) : (s.leaveQuad k).die q = s.die q := rfl
@[simp] theorem State.leaveQuad_ctx (s : State) (k : Key) (q : Nat) : (s.leaveQuad k).ctx q = s.ctx q := rfl
@[simp] theorem State.leaveQuad_polder (s : State) (k : Key) (q : Nat) : (s.leaveQuad k).polder q = s.polder q := rfl
@[simp] theorem State.leaveQuad_cluster (s : State) (k : Key) (q : Nat) : (s.leaveQuad k).cluster q = s.cluster q := rfl

-- parkWave

@[simp] theorem State.parkWave_agenda (s : State) (k : Key) (p : Park) (i : Option Instr) : (s.parkWave k p i).agenda = s.agenda := rfl
@[simp] theorem State.parkWave_cur (s : State) (k : Key) (p : Park) (i : Option Instr) : (s.parkWave k p i).cur = s.cur := rfl
@[simp] theorem State.parkWave_onSeq (s : State) (k : Key) (p : Park) (i : Option Instr) : (s.parkWave k p i).onSeq = s.onSeq := rfl
@[simp] theorem State.parkWave_freeCtr (s : State) (k : Key) (p : Park) (i : Option Instr) : (s.parkWave k p i).freeCtr = s.freeCtr := rfl
@[simp] theorem State.parkWave_reft (s : State) (k : Key) (p : Park) (i : Option Instr) : (s.parkWave k p i).reft = s.reft := rfl
@[simp] theorem State.parkWave_mem (s : State) (k : Key) (p : Park) (i : Option Instr) : (s.parkWave k p i).mem = s.mem := rfl
@[simp] theorem State.parkWave_pkg (s : State) (k : Key) (p : Park) (i : Option Instr) : (s.parkWave k p i).pkg = s.pkg := rfl
@[simp] theorem State.parkWave_dies (s : State) (k : Key) (p : Park) (i : Option Instr) : (s.parkWave k p i).dies = s.dies := rfl
@[simp] theorem State.parkWave_ctxs (s : State) (k : Key) (p : Park) (i : Option Instr) : (s.parkWave k p i).ctxs = s.ctxs := rfl
@[simp] theorem State.parkWave_polders (s : State) (k : Key) (p : Park) (i : Option Instr) : (s.parkWave k p i).polders = s.polders := rfl
@[simp] theorem State.parkWave_launches (s : State) (k : Key) (p : Park) (i : Option Instr) : (s.parkWave k p i).launches = s.launches := rfl
@[simp] theorem State.parkWave_saved (s : State) (k : Key) (p : Park) (i : Option Instr) : (s.parkWave k p i).saved = s.saved := rfl
@[simp] theorem State.parkWave_launchId (s : State) (k : Key) (p : Park) (i : Option Instr) : (s.parkWave k p i).launchId = s.launchId := rfl
@[simp] theorem State.parkWave_clusters (s : State) (k : Key) (p : Park) (i : Option Instr) : (s.parkWave k p i).clusters = s.clusters := rfl
@[simp] theorem State.parkWave_crews (s : State) (k : Key) (p : Park) (i : Option Instr) : (s.parkWave k p i).crews = s.crews := rfl
@[simp] theorem State.parkWave_crew (s : State) (k : Key) (p : Park) (i : Option Instr) (q : Key) : (s.parkWave k p i).crew q = s.crew q := rfl
@[simp] theorem State.parkWave_die (s : State) (k : Key) (p : Park) (i : Option Instr) (q : Nat) : (s.parkWave k p i).die q = s.die q := rfl
@[simp] theorem State.parkWave_ctx (s : State) (k : Key) (p : Park) (i : Option Instr) (q : Nat) : (s.parkWave k p i).ctx q = s.ctx q := rfl
@[simp] theorem State.parkWave_polder (s : State) (k : Key) (p : Park) (i : Option Instr) (q : Nat) : (s.parkWave k p i).polder q = s.polder q := rfl
@[simp] theorem State.parkWave_cluster (s : State) (k : Key) (p : Park) (i : Option Instr) (q : Nat) : (s.parkWave k p i).cluster q = s.cluster q := rfl

-- disownOb

@[simp] theorem State.disownOb_agenda (s : State) (c : Nat) : (s.disownOb c).agenda = s.agenda := rfl
@[simp] theorem State.disownOb_cur (s : State) (c : Nat) : (s.disownOb c).cur = s.cur := rfl
@[simp] theorem State.disownOb_onSeq (s : State) (c : Nat) : (s.disownOb c).onSeq = s.onSeq := rfl
@[simp] theorem State.disownOb_freeCtr (s : State) (c : Nat) : (s.disownOb c).freeCtr = s.freeCtr := rfl
@[simp] theorem State.disownOb_reft (s : State) (c : Nat) : (s.disownOb c).reft = s.reft := rfl
@[simp] theorem State.disownOb_mem (s : State) (c : Nat) : (s.disownOb c).mem = s.mem := rfl
@[simp] theorem State.disownOb_pkg (s : State) (c : Nat) : (s.disownOb c).pkg = s.pkg := rfl
@[simp] theorem State.disownOb_dies (s : State) (c : Nat) : (s.disownOb c).dies = s.dies := rfl
@[simp] theorem State.disownOb_ctxs (s : State) (c : Nat) : (s.disownOb c).ctxs = s.ctxs := rfl
@[simp] theorem State.disownOb_polders (s : State) (c : Nat) : (s.disownOb c).polders = s.polders := rfl
@[simp] theorem State.disownOb_launches (s : State) (c : Nat) : (s.disownOb c).launches = s.launches := rfl
@[simp] theorem State.disownOb_saved (s : State) (c : Nat) : (s.disownOb c).saved = s.saved := rfl
@[simp] theorem State.disownOb_launchId (s : State) (c : Nat) : (s.disownOb c).launchId = s.launchId := rfl
@[simp] theorem State.disownOb_clusters (s : State) (c : Nat) : (s.disownOb c).clusters = s.clusters := rfl
@[simp] theorem State.disownOb_crews (s : State) (c : Nat) : (s.disownOb c).crews = s.crews := rfl
@[simp] theorem State.disownOb_waves (s : State) (c : Nat) : (s.disownOb c).waves = s.waves := rfl
@[simp] theorem State.disownOb_wave (s : State) (c : Nat) (q : Key) : (s.disownOb c).wave q = s.wave q := rfl
@[simp] theorem State.disownOb_crew (s : State) (c : Nat) (q : Key) : (s.disownOb c).crew q = s.crew q := rfl
@[simp] theorem State.disownOb_die (s : State) (c : Nat) (q : Nat) : (s.disownOb c).die q = s.die q := rfl
@[simp] theorem State.disownOb_ctx (s : State) (c : Nat) (q : Nat) : (s.disownOb c).ctx q = s.ctx q := rfl
@[simp] theorem State.disownOb_polder (s : State) (c : Nat) (q : Nat) : (s.disownOb c).polder q = s.polder q := rfl
@[simp] theorem State.disownOb_cluster (s : State) (c : Nat) (q : Nat) : (s.disownOb c).cluster q = s.cluster q := rfl

end Sys2Proof.Machine
end

