-- ==== Sys2Proof/Laws/Issue.lean ====
section
/-! SUPPORT. What the issue and the retirement of a word can do: when it may issue it runs its body and retires (R44), its
results stand where `WroteV`, `WroteS`, `WroteK` and `Posted` say, and nothing else changes but counts. -/

namespace Sys2Proof.Machine

/-- No bank of the wave lost its contents in RETAIN (R48). -/
def Wave.sound (w : Wave) : Prop := ∀ b, (w.bank b).st = .retain → (w.bank b).bad = false

theorem wake_step (w : Wave) (b : Nat) (h : w.sound) :
    ∃ bk, (w.wake [b]) = ({ w with banks := bk }, none) ∧ ({ w with banks := bk } : Wave).sound := by
  have hb := h b
  have key : ∀ x : Bank, x.st = .full → (w.setBank b x).sound := by
    intro x hx c hc
    simp only [Wave.setBank, Wave.bank, tget_tset] at hc ⊢
    split at hc
    · rw [hx] at hc; exact absurd hc (by simp)
    · rename_i hn; rw [if_neg hn]; exact h c hc
  simp only [Wave.wake, List.foldl_cons, List.foldl_nil]
  generalize hx : w.bank b = x at hb
  obtain ⟨st, wk, wr, idle, bad, tk⟩ := x
  cases st with
  | full => exact ⟨_, rfl, key _ rfl⟩
  | off => exact ⟨_, rfl, key _ rfl⟩
  | retain =>
    have : bad = false := hb rfl
    subst this
    exact ⟨_, rfl, key _ rfl⟩

/-- Waking banks of a sound wave changes only their supply, and nothing is lost (R45, R48). -/
theorem wake_spec (w : Wave) (bs : List Nat) (h : w.sound) :
    ∃ bk, w.wake bs = ({ w with banks := bk }, none) ∧ ({ w with banks := bk } : Wave).sound := by
  induction bs generalizing w with
  | nil => exact ⟨w.banks, rfl, h⟩
  | cons b r ih =>
    obtain ⟨bk, h1, h2⟩ := wake_step w b h
    obtain ⟨bk2, h3, h4⟩ := ih _ h2
    refine ⟨bk2, ?_, h4⟩
    have : w.wake (b :: r) = ({ w with banks := bk } : Wave).wake r := by
      simp only [Wave.wake, List.foldl_cons, List.foldl_nil] at h1 ⊢
      rw [h1]
    rw [this, h3]

/-- The wakes of pending results change only the supply of banks (R45). -/
theorem beginWake_spec (w : Wave) (word : Dword) (bs : List Nat) : ∃ bk, w.beginWake word bs = { w with banks := bk } := by
  induction bs generalizing w with
  | nil => exact ⟨w.banks, rfl⟩
  | cons b r ih =>
    simp only [Wave.beginWake, List.foldl_cons] at ih ⊢
    split
    · obtain ⟨bk, h⟩ := ih (w.setBank b { w.bank b with idle := none })
      exact ⟨bk, by rw [h]; rfl⟩
    · obtain ⟨bk, h⟩ := ih (w.setBank b
        { w.bank b with waking := true, waker := if (w.bank b).waking then (w.bank b).waker else word, idle := none })
      exact ⟨bk, by rw [h]; rfl⟩

/-- Marking registers changes only their liveness. -/
theorem setLive_spec (w : Wave) (f : RFile) (r : Nat) (b : Bool) :
    ∃ v s, w.setLive f r b = { w with vlive := v, slive := s } := by
  cases f <;> simp only [Wave.setLive] <;> exact ⟨_, _, rfl⟩

theorem setLive_fold (w : Wave) (f : RFile) (rs : List Nat) (b : Bool) :
    ∃ v s, rs.foldl (fun w r => w.setLive f r b) w = { w with vlive := v, slive := s } := by
  induction rs generalizing w with
  | nil => exact ⟨w.vlive, w.slive, rfl⟩
  | cons r rs ih =>
    obtain ⟨v, s, h⟩ := setLive_spec w f r b
    obtain ⟨v2, s2, h2⟩ := ih (w.setLive f r b)
    refine ⟨v2, s2, ?_⟩
    rw [List.foldl_cons, h2, h]

/-- Last uses change only liveness (R43). -/
theorem lastUses_spec (w : Wave) (os : List Opd) :
    ∃ v s, w.lastUses os = { w with vlive := v, slive := s } := by
  unfold Wave.lastUses
  generalize os.filter (fun o => o.last) = ls
  induction ls generalizing w with
  | nil => exact ⟨w.vlive, w.slive, rfl⟩
  | cons o r ih =>
    obtain ⟨v, s, h⟩ := setLive_fold w o.file (groupRegs o.reg o.n) false
    obtain ⟨v2, s2, h2⟩ := ih ((groupRegs o.reg o.n).foldl (fun w r => w.setLive o.file r false) w)
    refine ⟨v2, s2, ?_⟩
    rw [List.foldl_cons, h2, h]

/-- Last uses read nothing but the liveness. -/
theorem setLive_fold_congr (w u : Wave) (f : RFile) (rs : List Nat) (b : Bool) (hv : w.vlive = u.vlive) (hs : w.slive = u.slive) :
    (rs.foldl (fun w r => w.setLive f r b) w).vlive = (rs.foldl (fun w r => w.setLive f r b) u).vlive ∧
    (rs.foldl (fun w r => w.setLive f r b) w).slive = (rs.foldl (fun w r => w.setLive f r b) u).slive := by
  induction rs generalizing w u with
  | nil => exact ⟨hv, hs⟩
  | cons r rs ih =>
    simp only [List.foldl_cons]
    apply ih <;> cases f <;> simp [Wave.setLive, hv, hs]

theorem lastUses_congr (w u : Wave) (os : List Opd) (hv : w.vlive = u.vlive) (hs : w.slive = u.slive) :
    (w.lastUses os).vlive = (u.lastUses os).vlive ∧ (w.lastUses os).slive = (u.lastUses os).slive := by
  unfold Wave.lastUses
  generalize os.filter (fun o => o.last) = ls
  induction ls generalizing w u with
  | nil => exact ⟨hv, hs⟩
  | cons o r ih =>
    simp only [List.foldl_cons]
    have h := setLive_fold_congr w u o.file (groupRegs o.reg o.n) false hv hs
    exact ih _ _ h.1 h.2

/-- A word that may issue runs its body and retires (R44). -/
theorem issue_run (s s2 : State) (i : Instr) (body : State → Key → Wave → Eff) (res : List Res) (adv : Adv)
    (h : s.mayIssue i)
    (hb : body (s.setWave s.cur (s.readWave i)) s.cur (s.readWave i) = .done s2 res adv)
    (hs : (s2.wave s.cur).sound) :
    s.issue i body = s2.retire s.cur i res adv := by
  obtain ⟨h1, h2, h3, h4⟩ := h
  obtain ⟨bk, hw, -⟩ := wake_spec (s.wave s.cur) (banksOf (opdsOf i) fun o => o.reads) h4
  have hr : (s.wave s.cur).wake (banksOf (opdsOf i) fun o => o.reads) = (s.readWave i, none) := by
    rw [hw]; simp [State.readWave, hw]
  obtain ⟨bk2, hw2, -⟩ := wake_spec (s2.wave s.cur) (banksOf (opdsOf i) fun o => o.writes) hs
  simp [State.issue, h1, h2, h3, hr, hb, hw2]

/-- A word that may not issue yet changes nothing, but where it waits for an access that missed its wave parks (R34). -/
theorem issue_wait (s : State) (i : Instr) (body : State → Key → Wave → Eff)
    (h : interlock (s.wave s.cur) (opdsOf i) (lkOf i) = true) :
    s.issue i body = if missLock (s.wave s.cur) (opdsOf i) then s.parkWave s.cur .miss none else s := by
  simp [State.issue, h]

-- Results.

theorem writeV_rv (w : Wave) (r : Nat) (m : LaneMask) (d : LaneVec) (q : Nat) (l : Fin 32) :
    (w.writeV r m d).rv q l =
      if q = r then if inMask m l then d[l] else if w.isLive .v r then w.rv r l else 0 else w.rv q l := by
  simp only [Wave.writeV, Wave.setLive, Wave.rv, tget_tset]
  by_cases h : q = r
  · subst h; simp [Wave.isLive]; rfl
  · simp [h]

theorem writeV_live (w : Wave) (r : Nat) (m : LaneMask) (d : LaneVec) (q : Nat) (hq : q < 256) :
    (w.writeV r m d).isLive .v q = (decide (q = r) || w.isLive .v q) := by
  simp only [Wave.writeV, Wave.setLive, Wave.isLive, if_true, BitVec.getLsbD_or, BitVec.getLsbD_twoPow]
  by_cases h : q = r
  · subst h; simp [hq]
  · have : ¬ r = q := fun e => h e.symm
    simp [h, this]

theorem writeS_rs (w : Wave) (r : Nat) (x : Word) (q : Nat) : (w.writeS r x).rs q = if q = r then x else w.rs q := by
  simp [Wave.writeS, Wave.setLive, Wave.rs, tget_tset]

theorem writeS_live (w : Wave) (r : Nat) (x : Word) (q : Nat) (hq : q < 64) :
    (w.writeS r x).isLive .s q = (decide (q = r) || w.isLive .s q) := by
  simp only [Wave.writeS, Wave.setLive, Wave.isLive, if_true, BitVec.getLsbD_or, BitVec.getLsbD_twoPow]
  by_cases h : q = r
  · subst h; simp [hq]
  · have : ¬ r = q := fun e => h e.symm
    simp [h, this]

theorem commit_v (w : Wave) (r : Nat) (ds : List LaneVec) (m : LaneMask) :
    (∃ v lv, w.commit .v r ds m = { w with v := v, vlive := lv }) ∧
    (∀ q l, (w.commit .v r ds m).rv q l =
      if r ≤ q ∧ q < r + ds.length then
        if inMask m l then (ds[q - r]?.getD zeroLanes)[l] else if w.isLive .v q then w.rv q l else 0
      else w.rv q l) ∧
    ∀ q, q < 256 → (w.commit .v r ds m).isLive .v q = (decide (r ≤ q ∧ q < r + ds.length) || w.isLive .v q) := by
  induction ds generalizing w r with
  | nil =>
    refine ⟨⟨w.v, w.vlive, rfl⟩, fun q l => ?_, fun q _ => ?_⟩
    · have : ¬(r ≤ q ∧ q < r + ([] : List LaneVec).length) := by simp
      rw [if_neg this]; rfl
    · simp [Wave.commit]
  | cons d ds ih =>
    obtain ⟨⟨v, lv, h1⟩, h2, h3⟩ := ih (w.writeV r m d) (r + 1)
    have hc : w.commit .v r (d :: ds) m = (w.writeV r m d).commit .v (r + 1) ds m := rfl
    refine ⟨⟨v, lv, by rw [hc, h1]; rfl⟩, fun q l => ?_, fun q hq => ?_⟩
    · rw [hc, h2, writeV_rv]
      simp only [List.length_cons]
      by_cases hq : q = r
      · subst hq
        have a : ¬(q + 1 ≤ q ∧ q < q + 1 + ds.length) := by omega
        have b : q ≤ q ∧ q < q + (ds.length + 1) := by omega
        rw [if_neg a, if_pos b, if_pos rfl]; simp
      · by_cases hin : r + 1 ≤ q ∧ q < r + 1 + ds.length
        · have b : r ≤ q ∧ q < r + (ds.length + 1) := by omega
          rw [if_pos hin, if_pos b]
          obtain ⟨j, rfl⟩ : ∃ j, q = r + 1 + j := ⟨q - (r + 1), by omega⟩
          have e1 : r + 1 + j - (r + 1) = j := by omega
          have e2 : r + 1 + j - r = j + 1 := by omega
          rw [e1, e2, if_neg hq]
          have : (w.writeV r m d).isLive .v (r + 1 + j) = w.isLive .v (r + 1 + j) := by
            simp only [Wave.writeV, Wave.setLive, Wave.isLive, if_true, BitVec.getLsbD_or, BitVec.getLsbD_twoPow]
            have : ¬ r = r + 1 + j := by omega
            simp [this]
          rw [this]; rfl
        · have b : ¬(r ≤ q ∧ q < r + (ds.length + 1)) := by omega
          rw [if_neg hin, if_neg b, if_neg hq]
    · rw [hc, h3 q hq, writeV_live _ _ _ _ _ hq, ← Bool.or_assoc]
      congr 1
      rw [List.length_cons, ← Bool.decide_or]
      congr 1
      apply propext
      omega

theorem commit_s (w : Wave) (r : Nat) (ds : List LaneVec) (m : LaneMask) :
    (∃ v lv, w.commit .s r ds m = { w with sreg := v, slive := lv }) ∧
    (∀ q, (w.commit .s r ds m).rs q =
      if r ≤ q ∧ q < r + ds.length then (ds[q - r]?.getD zeroLanes)[(0 : Fin 32)] else w.rs q) ∧
    ∀ q, q < 64 → (w.commit .s r ds m).isLive .s q = (decide (r ≤ q ∧ q < r + ds.length) || w.isLive .s q) := by
  induction ds generalizing w r with
  | nil =>
    refine ⟨⟨w.sreg, w.slive, rfl⟩, fun q => ?_, fun q _ => ?_⟩
    · have : ¬(r ≤ q ∧ q < r + ([] : List LaneVec).length) := by simp
      rw [if_neg this]; rfl
    · simp [Wave.commit]
  | cons d ds ih =>
    obtain ⟨⟨v, lv, h1⟩, h2, h3⟩ := ih (w.writeS r d[(0 : Fin 32)]) (r + 1)
    have hc : w.commit .s r (d :: ds) m = (w.writeS r d[(0 : Fin 32)]).commit .s (r + 1) ds m := rfl
    refine ⟨⟨v, lv, by rw [hc, h1]; rfl⟩, fun q => ?_, fun q hq => ?_⟩
    · rw [hc, h2, writeS_rs]
      simp only [List.length_cons]
      by_cases hq : q = r
      · subst hq
        have a : ¬(q + 1 ≤ q ∧ q < q + 1 + ds.length) := by omega
        have b : q ≤ q ∧ q < q + (ds.length + 1) := by omega
        rw [if_neg a, if_pos b, if_pos rfl]; simp
      · by_cases hin : r + 1 ≤ q ∧ q < r + 1 + ds.length
        · have b : r ≤ q ∧ q < r + (ds.length + 1) := by omega
          rw [if_pos hin, if_pos b]
          obtain ⟨j, rfl⟩ : ∃ j, q = r + 1 + j := ⟨q - (r + 1), by omega⟩
          have e1 : r + 1 + j - (r + 1) = j := by omega
          have e2 : r + 1 + j - r = j + 1 := by omega
          rw [e1, e2]; rfl
        · have b : ¬(r ≤ q ∧ q < r + (ds.length + 1)) := by omega
          rw [if_neg hin, if_neg b, if_neg hq]
    · rw [hc, h3 q hq, writeS_live _ _ _ _ hq, ← Bool.or_assoc]
      congr 1
      rw [List.length_cons, ← Bool.decide_or]
      congr 1
      apply propext
      omega

theorem commit_k (w : Wave) (r : Nat) (d : LaneVec) (m : LaneMask) :
    (∃ k, w.commit .k r [d] m = { w with kreg := k }) ∧
    ∀ q, (w.commit .k r [d] m).k q =
      if q = r ∧ q ≠ 0 then (w.k q &&& ~~~m) ||| (laneMask (fun l => d[l].getLsbD 0) &&& m) else w.k q := by
  constructor
  · simp only [Wave.commit, Wave.setK]
    split
    · exact ⟨w.kreg, rfl⟩
    · exact ⟨_, rfl⟩
  · intro q
    simp only [Wave.commit, Wave.setK]
    by_cases hr : r = 0
    · subst hr
      have : ¬(q = 0 ∧ q ≠ 0) := by omega
      simp [this]
    · by_cases hq : q = r
      · subst hq; simp [Wave.k, hr]
      · simp [Wave.k, hr, hq, tget_tset]

-- Counts.

/-- Counting an issued word changes only counts (R25, R357). -/
theorem countIssue_counts (s : State) (k : Key) :
    (s.countIssue k).waves = s.waves ∧
    s.countIssue k = { s with crews := (s.countIssue k).crews, cores := (s.countIssue k).cores, ctxs := (s.countIssue k).ctxs } ∧
    (∀ c, (s.countIssue k).crew c =
      { s.crew c with issued := ((s.countIssue k).crew c).issued, dormant := ((s.countIssue k).crew c).dormant }) ∧
    (∀ n, (s.countIssue k).core n = { s.core n with quads := ((s.countIssue k).core n).quads }) ∧
    ∀ c, (s.countIssue k).ctx c = { s.ctx c with slice := ((s.countIssue k).ctx c).slice } := by
  simp only [State.countIssue]
  split
  · refine ⟨rfl, rfl, fun c => ?_, fun n => ?_, fun c => rfl⟩
    · simp only [State.modQuad_crew, State.modCrew_crew]; split <;> (try subst_vars) <;> rfl
    · simp only [State.modQuad, State.modCore_core, State.modCrew_core]; split <;> (try subst_vars) <;> rfl
  · refine ⟨rfl, rfl, fun c => ?_, fun n => ?_, fun c => ?_⟩
    · simp only [State.modCtx_crew, State.modQuad_crew, State.modCrew_crew]; split <;> (try subst_vars) <;> rfl
    · simp only [State.modCtx_core, State.modQuad, State.modCore_core, State.modCrew_core]; split <;> (try subst_vars) <;> rfl
    · simp only [State.modCtx_ctx, State.modQuad_ctx, State.modCrew_ctx]; split <;> (try subst_vars) <;> rfl

/-- The wave after the last uses of a word (R43, R44). -/
def Wave.used (w : Wave) (i : Instr) : Wave :=
  if w.act (lkOf i).pr (lkOf i).pn == w.nonExited then w.lastUses (opdsOf i) else w

/-- The wave after the other effects of issue (R44, R52). -/
def Wave.took (w : Wave) (i : Instr) (res : List Res) : Wave :=
  let dst := banksOf (opdsOf i) fun o => o.writes
  if (lkOf i).long then ((w.beginWake ((encodeWave i).getD 0) dst).countWindows).addPends (pendsOf i res)
  else ((res.filter fun r => r.mask != 0).foldl (fun w r => w.commit r.file r.reg r.data r.mask) (w.wake dst).1).countWindows

/-- The wave that a retirement leaves, step by step (R43, R44). -/
def Wave.retired (w : Wave) (i : Instr) (res : List Res) (adv : Adv) : Wave := ((w.used i).took i res).goPast adv

/-- Last uses change their wave, or count in LUIGN (R43). -/
theorem useSources_spec (s : State) (k : Key) (i : Instr) :
    let t := s.useSources k i
    t = { s with waves := t.waves, crews := t.crews } ∧
    (∀ q, t.wave q = if q = k then (s.wave k).used i else s.wave q) ∧
    ∀ c, t.crew c = { s.crew c with luign := (t.crew c).luign } := by
  simp only [State.useSources, Wave.used]
  split
  · exact ⟨rfl, fun q => by rw [State.setWave_wave], fun c => rfl⟩
  · split
    · exact ⟨rfl, fun q => by split <;> (try subst_vars) <;> rfl, fun c => rfl⟩
    · refine ⟨rfl, fun q => ?_, fun c => ?_⟩
      · rw [State.modCrew_wave]; split <;> (try subst_vars) <;> rfl
      · rw [State.modCrew_crew]; split <;> (try subst_vars) <;> rfl

/-- The effects of issue change their wave and what counts the word (R44). -/
theorem takeEffect_spec (s : State) (k : Key) (i : Instr) (res : List Res) :
    let t := s.takeEffect k i res
    t = { s with waves := t.waves, crews := t.crews, cores := t.cores, ctxs := t.ctxs } ∧
    (∀ q, t.wave q = if q = k then (s.wave k).took i res else s.wave q) ∧
    (∀ c, t.crew c = { s.crew c with issued := (t.crew c).issued, dormant := (t.crew c).dormant }) ∧
    (∀ n, t.core n = { s.core n with quads := (t.core n).quads }) ∧
    ∀ c, t.ctx c = { s.ctx c with slice := (t.ctx c).slice } := by
  intro t
  have e : t = (s.setWave k ((s.wave k).took i res)).countIssue k := rfl
  obtain ⟨c1, c2, c3, c4, c5⟩ := countIssue_counts (s.setWave k ((s.wave k).took i res)) k
  rw [← e] at c1 c2 c3 c4 c5
  refine ⟨?_, fun q => ?_, fun c => ?_, fun n => ?_, fun c => ?_⟩
  · rw [← c1] at c2; exact c2
  · have : t.wave q = (s.setWave k ((s.wave k).took i res)).wave q := by simp only [State.wave, c1]
    rw [this, State.setWave_wave]
  · exact (c3 c).trans (by rw [State.setWave_crew])
  · exact (c4 n).trans (by rw [State.setWave_core])
  · exact (c5 c).trans (by rw [State.setWave_ctx])

/-- A retirement sets its wave and counts the word (R44). -/
theorem retire_counts (s : State) (k : Key) (i : Instr) (res : List Res) (adv : Adv) :
    let t := s.retire k i res adv
    (t = { s with waves := t.waves, crews := t.crews, cores := t.cores, ctxs := t.ctxs }) ∧
    (∀ q, t.wave q = if q = k then (s.wave k).retired i res adv else s.wave q) ∧
    (∀ c, t.crew c =
      { s.crew c with luign := (t.crew c).luign, issued := (t.crew c).issued, dormant := (t.crew c).dormant }) ∧
    (∀ n, t.core n = { s.core n with quads := (t.core n).quads }) ∧
    ∀ c, t.ctx c = { s.ctx c with slice := (t.ctx c).slice } := by
  intro t
  obtain ⟨a1, a2, a3⟩ := useSources_spec s k i
  obtain ⟨b1, b2, b3, b4, b5⟩ := takeEffect_spec (s.useSources k i) k i res
  refine ⟨?_, fun q => ?_, fun c => ?_, fun n => ?_, fun c => ?_⟩
  · show ((s.useSources k i).takeEffect k i res).modWave k _ = _
    rw [State.modWave, State.setWave]
    have : (s.useSources k i).takeEffect k i res = { s with
        waves := ((s.useSources k i).takeEffect k i res).waves, crews := ((s.useSources k i).takeEffect k i res).crews,
        cores := ((s.useSources k i).takeEffect k i res).cores, ctxs := ((s.useSources k i).takeEffect k i res).ctxs } := by
      rw [b1, a1]
    rw [this]; rfl
  · show (((s.useSources k i).takeEffect k i res).modWave k _).wave q = _
    rw [State.modWave_wave]
    split
    · rename_i hq; subst hq
      rw [b2 q, if_pos rfl, a2 q, if_pos rfl]; rfl
    · rename_i hq
      rw [b2 q, if_neg hq, a2 q, if_neg hq]
  · show ((s.useSources k i).takeEffect k i res).crew c = _
    have l : (((s.useSources k i).takeEffect k i res).crew c).luign = ((s.useSources k i).crew c).luign := by rw [b3 c]
    rw [b3 c, a3 c]
    simp only []
    exact congrArg (fun x => ({ s.crew c with
      luign := x, issued := (((s.useSources k i).takeEffect k i res).crew c).issued,
      dormant := (((s.useSources k i).takeEffect k i res).crew c).dormant } : Crew)) l.symm
  · show ((s.useSources k i).takeEffect k i res).core n = _
    have e : (s.useSources k i).core n = s.core n := by rw [a1]; rfl
    exact (b4 n).trans (by rw [e]; rfl)
  · show ((s.useSources k i).takeEffect k i res).ctx c = _
    have e : (s.useSources k i).ctx c = s.ctx c := by rw [a1]; rfl
    exact (b5 c).trans (by rw [e]; rfl)

end Sys2Proof.Machine
end

