-- ==== Sys2Proof/Laws/Memory.lean ====
section
/-! SUPPORT. Home memory: reading after writing, and the canonical form. -/

namespace Sys2Proof.Machine

/-- Every address listed lies above a. -/
def memAbove (a : Nat) : List Host.Cell → Prop
  | [] => True
  | (b, _) :: _ => a < b

theorem memWf_cons (a : Nat) (b : Byte) (r : List Host.Cell) :
    memWf ((a, b) :: r) = true ↔ b ≠ memInit a ∧ memAbove a r ∧ memWf r = true := by
  cases r with
  | nil => simp [memWf, memAbove]
  | cons e r => obtain ⟨a', b'⟩ := e; simp [memWf, memAbove, and_assoc]

theorem memAbove_trans (a b : Nat) (m : List Host.Cell) (h : a ≤ b) (hm : memAbove b m) : memAbove a m := by
  cases m with
  | nil => trivial
  | cons e r => obtain ⟨c, _⟩ := e; simp only [memAbove] at *; omega

theorem memGet_above (a : Nat) (m : List Host.Cell) (h : memAbove a m) : memGet m a = memInit a := by
  cases m with
  | nil => rfl
  | cons e r =>
    obtain ⟨c, v⟩ := e
    simp only [memAbove] at h
    have h1 : a ≠ c := by omega
    simp [memGet, h, h1]

theorem memAbove_memSet (a x : Nat) (b : Byte) (m : List Host.Cell) (hx : a < x) (h : memAbove a m)
    (hm : memWf m = true) : memAbove a (memSet m x b) := by
  cases m with
  | nil => simp only [memSet]; split <;> simp [memAbove, hx]
  | cons e r =>
    obtain ⟨c, v⟩ := e
    rw [memWf_cons] at hm
    simp only [memAbove] at h
    simp only [memSet]
    split
    · split
      · exact h
      · exact hx
    · split
      · rename_i hc
        subst hc
        split
        · exact memAbove_trans a x r (by omega) hm.2.1
        · exact hx
      · exact h

/-- A write keeps the canonical form. -/
theorem memWf_memSet (m : List Host.Cell) (x : Nat) (b : Byte) (hm : memWf m = true) : memWf (memSet m x b) = true := by
  induction m with
  | nil => simp only [memSet]; split <;> simp_all [memWf]
  | cons e r ih =>
    obtain ⟨c, v⟩ := e
    have hm' := (memWf_cons _ _ _).mp hm
    simp only [memSet]
    split
    · rename_i hx
      split
      · exact hm
      · rename_i hb; rw [memWf_cons]; exact ⟨hb, hx, hm⟩
    · split
      · rename_i hc
        subst hc
        split
        · exact hm'.2.2
        · rename_i hb; rw [memWf_cons]; exact ⟨hb, hm'.2.1, hm'.2.2⟩
      · rename_i h1 h2
        rw [memWf_cons]
        exact ⟨hm'.1, memAbove_memSet c x b r (by omega) hm'.2.1 hm'.2.2, ih hm'.2.2⟩

/-- A byte written is read back; every other byte reads as before. -/
theorem memGet_memSet (m : List Host.Cell) (x a : Nat) (b : Byte) (hm : memWf m = true) :
    memGet (memSet m x b) a = if a = x then b else memGet m a := by
  induction m with
  | nil =>
    simp only [memSet]
    split
    · rename_i h; subst h; split
      · rename_i h; subst h; rfl
      · rfl
    · by_cases h : a = x <;> simp [memGet, h]
  | cons e r ih =>
    obtain ⟨c, v⟩ := e
    have hm' := (memWf_cons _ _ _).mp hm
    simp only [memSet]
    split
    · rename_i hx
      split
      · rename_i hb
        subst hb
        split
        · rename_i ha; subst ha
          have : a ≠ c := by omega
          simp [memGet, this, hx]
        · rfl
      · by_cases h : a = x
        · simp [memGet, h]
        · by_cases h2 : a < x
          · have h3 : a ≠ c := by omega
            have h4 : a < c := by omega
            simp [memGet, h, h2, h3, h4]
          · simp [memGet, h, h2]
    · split
      · rename_i hc
        subst hc
        split
        · rename_i hb
          subst hb
          by_cases h : a = x
          · subst h; simp [memGet_above a r hm'.2.1]
          · by_cases h2 : a < x
            · simp [memGet, h, h2, memGet_above a r (memAbove_trans a x r (by omega) hm'.2.1)]
            · simp [memGet, h, h2]
        · by_cases h : a = x <;> simp [memGet, h]
      · rename_i h1 h2
        by_cases h : a = c
        · subst h
          have : a ≠ x := fun e => h2 e.symm
          simp [memGet, this]
        · by_cases h3 : a < c
          · have : a ≠ x := by omega
            simp [memGet, h, h3, this]
          · simp [memGet, h, h3, ih hm'.2.2]

/-- Two memories in canonical form that read alike are equal. -/
theorem memWf_ext (m n : List Host.Cell) (hm : memWf m = true) (hn : memWf n = true)
    (h : ∀ a, memGet m a = memGet n a) : m = n := by
  induction m generalizing n with
  | nil =>
    cases n with
    | nil => rfl
    | cons e r =>
      obtain ⟨a, b⟩ := e
      have := h a
      have hb := ((memWf_cons _ _ _).mp hn).1
      simp [memGet] at this
      exact absurd this.symm hb
  | cons e r ih =>
    obtain ⟨a, b⟩ := e
    have hm' := (memWf_cons _ _ _).mp hm
    cases n with
    | nil => have := h a; simp [memGet] at this; exact absurd this hm'.1
    | cons e' r' =>
      obtain ⟨a', b'⟩ := e'
      have hn' := (memWf_cons _ _ _).mp hn
      have haa : a = a' := by
        rcases Nat.lt_trichotomy a a' with hlt | heq | hgt
        · have := h a
          have hne : a ≠ a' := by omega
          simp [memGet, hne, hlt] at this; exact absurd this hm'.1
        · exact heq
        · have := h a'
          have hne : a' ≠ a := by omega
          simp [memGet, hne, hgt] at this; exact absurd this.symm hn'.1
      subst haa
      have hbb : b = b' := by have := h a; simpa [memGet] using this
      subst hbb
      have : r = r' := by
        apply ih r' hm'.2.2 hn'.2.2
        intro x
        by_cases hx : x = a
        · subst hx; rw [memGet_above x r hm'.2.1, memGet_above x r' hn'.2.1]
        · have := h x
          by_cases hlt : x < a
          · rw [memGet_above x r (memAbove_trans x a r (by omega) hm'.2.1),
              memGet_above x r' (memAbove_trans x a r' (by omega) hn'.2.1)]
          · simpa [memGet, hx, hlt] using this
      rw [this]

/-- Storing bytes one after another. -/
theorem pokeBytes_fold (bs : List Byte) (a : Nat) (m : List Host.Cell) (hm : memWf m = true) :
    memWf (bs.foldl (fun (p : Nat × List Host.Cell) b => (p.1 + 1, memSet p.2 p.1 b)) (a, m)).2 = true ∧
      ∀ x, memGet (bs.foldl (fun (p : Nat × List Host.Cell) b => (p.1 + 1, memSet p.2 p.1 b)) (a, m)).2 x =
        if a ≤ x ∧ x < a + bs.length then bs[x - a]?.getD 0 else memGet m x := by
  induction bs generalizing a m with
  | nil =>
    refine ⟨hm, fun x => ?_⟩
    have : ¬(a ≤ x ∧ x < a + ([] : List Byte).length) := by simp
    rw [if_neg this]; rfl
  | cons b bs ih =>
    simp only [List.foldl_cons]
    have h := ih (a + 1) (memSet m a b) (memWf_memSet m a b hm)
    refine ⟨h.1, fun x => ?_⟩
    rw [h.2 x, memGet_memSet m a x b hm]
    simp only [List.length_cons]
    by_cases hx : x = a
    · subst hx
      have h1 : ¬(x + 1 ≤ x ∧ x < x + 1 + bs.length) := by omega
      have h2 : x ≤ x ∧ x < x + (bs.length + 1) := by omega
      rw [if_neg h1, if_pos h2]; simp
    · by_cases hin : a + 1 ≤ x ∧ x < a + 1 + bs.length
      · have h2 : a ≤ x ∧ x < a + (bs.length + 1) := by omega
        rw [if_pos hin, if_pos h2]
        obtain ⟨j, rfl⟩ : ∃ j, x = a + 1 + j := ⟨x - (a + 1), by omega⟩
        have e1 : a + 1 + j - (a + 1) = j := by omega
        have e2 : a + 1 + j - a = j + 1 := by omega
        rw [e1, e2]; rfl
      · have h2 : ¬(a ≤ x ∧ x < a + (bs.length + 1)) := by omega
        rw [if_neg hin, if_neg h2, if_neg hx]

/-- Storing bytes keeps the canonical form. -/
theorem pokeBytes_memWf (s : State) (a : Nat) (bs : List Byte) (hm : memWf s.mem = true) :
    memWf (s.pokeBytes a bs).mem = true := (pokeBytes_fold bs a s.mem hm).1

/-- Bytes stored are read back; every other byte reads as before. -/
theorem pokeBytes_homeByte (s : State) (a : Nat) (bs : List Byte) (hm : memWf s.mem = true) (x : Nat) :
    (s.pokeBytes a bs).homeByte x = if a ≤ x ∧ x < a + bs.length then bs[x - a]?.getD 0 else s.homeByte x :=
  (pokeBytes_fold bs a s.mem hm).2 x

/-- Memory at reset is in canonical form. -/
theorem reset_memWf : memWf State.reset.mem = true := rfl

end Sys2Proof.Machine
end

