-- ==== Sys2Proof/Laws/Word.lean ====
section
/-! SUPPORT. One lemma for each shape of word: what stands in its wave once it has gone by. -/

namespace Sys2Proof.Machine

/-- The group goes on to the next word (R161). -/
theorem advance_spec (w : Wave) :
    (∃ c g, w.advance = { w with lpc := w.advance.lpc, clause := c, group := g }) ∧
    ∀ l : Fin 32, w.advance.lpc[l] = if inMask w.group l then w.lpc[l] + 8 else w.lpc[l] := by
  unfold Wave.advance
  split
  · exact ⟨⟨w.clause, w.group, rfl⟩, fun l => by simp⟩
  · split
    · exact ⟨⟨_, _, rfl⟩, fun l => by simp⟩
    · exact ⟨⟨_, w.group, rfl⟩, fun l => by simp⟩

/-- A wave with other banks, flags, generators and liveness. -/
def Wave.basis (w : Wave) (bk : Tab Bank) (a : Word) (b : LaneVec) (v : BitVec 256) (sl : BitVec 64) : Wave :=
  { w with banks := bk, fpflags := a, srseed := b, vlive := v, slive := sl }

/-- The wave in focus with other flags and generators, and the banks awake that a word reads (R45, R71, R75). -/
def State.bodyWave (s : State) (i : Instr) (a : Word) (b : LaneVec) : Wave :=
  { s.readWave i with fpflags := a, srseed := b }

/-- The state in which the body of a word answers. -/
def State.bodyState (s : State) (i : Instr) (a : Word) (b : LaneVec) : State := s.setWave s.cur (s.bodyWave i a b)

/-- A sound wave stays sound where its banks are the same. -/
theorem sound_of_banks (w u : Wave) (h : w.sound) (e : u.banks = w.banks) : u.sound := by
  intro b
  have : u.bank b = w.bank b := by simp [Wave.bank, e]
  rw [this]; exact h b

theorem readWave_spec (s : State) (i : Instr) (h : s.mayIssue i) :
    ∃ bk, s.readWave i = { s.wave s.cur with banks := bk } ∧ (s.readWave i).sound := by
  obtain ⟨bk, hw, hs⟩ := wake_spec (s.wave s.cur) (banksOf (opdsOf i) fun o => o.reads) h.2.2.2
  have e : s.readWave i = { s.wave s.cur with banks := bk } := by simp [State.readWave, hw]
  exact ⟨bk, e, by rw [e]; exact hs⟩

theorem bodyWave_spec (s : State) (i : Instr) (a : Word) (b : LaneVec) (h : s.mayIssue i) :
    ∃ bk, s.bodyWave i a b = (s.wave s.cur).basis bk a b (s.wave s.cur).vlive (s.wave s.cur).slive ∧
      (s.bodyWave i a b).sound := by
  obtain ⟨bk, e, hs⟩ := readWave_spec s i h
  refine ⟨bk, ?_, sound_of_banks _ _ hs rfl⟩
  unfold State.bodyWave
  rw [e]; rfl

theorem lastUses_basis (w : Wave) (os : List Opd) (bk : Tab Bank) (a : Word) (b : LaneVec) :
    (w.basis bk a b w.vlive w.slive).lastUses os = w.basis bk a b (w.lastUses os).vlive (w.lastUses os).slive := by
  obtain ⟨v, sl, e⟩ := lastUses_spec (w.basis bk a b w.vlive w.slive) os
  obtain ⟨c1, c2⟩ := lastUses_congr (w.basis bk a b w.vlive w.slive) w os rfl rfl
  rw [e] at c1 c2 ⊢
  simp only [] at c1 c2
  rw [← c1, ← c2]; rfl

theorem usedWave_spec (s : State) (i : Instr) :
    s.usedWave i = { s.wave s.cur with vlive := (s.usedWave i).vlive, slive := (s.usedWave i).slive } := by
  unfold State.usedWave
  split
  · obtain ⟨v, sl, e⟩ := lastUses_spec (s.wave s.cur) (opdsOf i)
    rw [e]
  · rfl

/-- The wave before its results are written: last uses have taken effect, and the banks of the results are awake or waking (R43,
R45). -/
def Wave.primed (w : Wave) (i : Instr) : Wave :=
  let dst := banksOf (opdsOf i) fun o => o.writes
  if (lkOf i).long then (w.used i).beginWake ((encodeWave i).getD 0) dst else ((w.used i).wake dst).1

theorem primed_spec (s : State) (i : Instr) (h : s.mayIssue i) (a : Word) (b : LaneVec) :
    ∃ bk, (s.bodyWave i a b).primed i =
      (s.wave s.cur).basis bk a b (s.usedWave i).vlive (s.usedWave i).slive := by
  obtain ⟨bk, e, hs⟩ := bodyWave_spec s i a b h
  have h1 : (if (s.bodyWave i a b).act (lkOf i).pr (lkOf i).pn == (s.bodyWave i a b).nonExited
      then (s.bodyWave i a b).lastUses (opdsOf i) else s.bodyWave i a b) =
      (s.wave s.cur).basis bk a b (s.usedWave i).vlive (s.usedWave i).slive := by
    have c : ((s.bodyWave i a b).act (lkOf i).pr (lkOf i).pn == (s.bodyWave i a b).nonExited) =
        (s.actOf i == (s.wave s.cur).nonExited) := by rw [e]; rfl
    rw [c]
    unfold State.usedWave
    by_cases hf : s.actOf i = (s.wave s.cur).nonExited
    · rw [if_pos hf, if_pos (by simpa using hf), e, lastUses_basis]
    · rw [if_neg hf, if_neg (by simpa using hf), e]
  unfold Wave.primed Wave.used
  rw [h1]
  have hso : ((s.wave s.cur).basis bk a b (s.usedWave i).vlive (s.usedWave i).slive).sound :=
    sound_of_banks _ _ hs (by rw [e]; rfl)
  split
  · obtain ⟨bk2, e2⟩ := beginWake_spec ((s.wave s.cur).basis bk a b (s.usedWave i).vlive (s.usedWave i).slive)
      ((encodeWave i).getD 0) (banksOf (opdsOf i) fun o => o.writes)
    exact ⟨bk2, by dsimp only; rw [e2]; rfl⟩
  · obtain ⟨bk2, e2, -⟩ := wake_spec _ (banksOf (opdsOf i) fun o => o.writes) hso
    exact ⟨bk2, by dsimp only; rw [e2]; rfl⟩

/-- A short word writes its results, and the group goes on (R44, R50). -/
theorem retired_short (w : Wave) (i : Instr) (res : List Res) (h : (lkOf i).long = false) :
    w.retired i res .step =
      { ((res.filter fun r => r.mask != 0).foldl (fun w r => w.commit r.file r.reg r.data r.mask)
          (w.primed i)).countWindows.advance with park := none, parkI := none } := by
  unfold Wave.retired Wave.took Wave.primed
  simp only [h]
  rfl

/-- A long-latency word of one result leaves it in the commit buffer, and the group goes on (R44, R50, R52). -/
theorem retired_long (w : Wave) (i : Instr) (r : Res) (h : (lkOf i).long = true) (hr : r.data ≠ [])
    (ha : r.arrived = true) (hy : r.why = none) :
    w.retired i [r] .step =
      { (if r.mask = 0 then (w.primed i).countWindows
         else { ((w.primed i).countWindows.slotAdd (lkOf i).slot true) with
                pend := ((w.primed i).pend.map fun p => { p with remain := p.remain - 1 }) ++
                  [{ file := r.file, reg := r.reg, n := r.data.length, data := r.data, mask := r.mask, remain := (lkOf i).look,
                     slot := (lkOf i).slot, word := (encodeWave i).getD 0 }] }).advance with park := none, parkI := none } := by
  unfold Wave.retired Wave.took Wave.primed pendsOf
  have hc : (!(r.data.length == 0 && true)) = true := by simp [hr]
  by_cases hm : r.mask = 0
  · have hf : ([r].filter fun r => r.mask != 0) = [] := by simp [hm]
    simp only [h, if_true, hf, List.map_nil, hm, Wave.addPends, List.foldl_nil, List.append_nil]
    rfl
  · have hf : ([r].filter fun r => r.mask != 0) = [r] := by
      have : (r.mask != 0) = true := bne_iff_ne.mpr hm
      rw [List.filter_cons, if_pos this]; rfl
    rw [if_neg hm]
    simp only [h, if_true, hf, List.map_cons, List.map_nil, ha, hy, hc, Wave.addPends, List.foldl_cons, List.foldl_nil]
    cases (lkOf i).slot <;> rfl

/-- The frame of a word whose wave changes only in what `OnlyRegs` names. -/
theorem ran_of (s : State) (i : Instr) (a : Word) (b : LaneVec) (res : List Res) (adv : Adv)
    (hw : OnlyRegs (s.wave s.cur) ((s.bodyWave i a b).retired i res adv)) :
    let t := (s.bodyState i a b).retire s.cur i res adv
    s.ran t ∧ t.wave s.cur = (s.bodyWave i a b).retired i res adv := by
  intro t
  obtain ⟨h1, h2, h3, h4, h5⟩ := retire_counts (s.bodyState i a b) s.cur i res adv
  have hk : (s.bodyState i a b).wave s.cur = s.bodyWave i a b := by simp [State.bodyState]
  have e : t.wave s.cur = (s.bodyWave i a b).retired i res adv := by
    have := h2 s.cur
    rw [if_pos rfl, hk] at this
    exact this
  refine ⟨⟨⟨h1, fun k hk => ?_, h3, h4, h5⟩, ?_⟩, e⟩
  · have := h2 k
    rw [if_neg hk] at this
    rw [this]; simp [State.bodyState, hk]
  · rw [e]; exact hw

theorem wordAt_get (n j : Nat) (f : Fin 32 → Nat) (l : Fin 32) (h : j < n) :
    (((List.range n).map fun i => Vector.ofFn fun l => wordAt (f l) i)[j]?.getD zeroLanes)[l] = wordAt (f l) j := by
  simp [List.getElem?_map, List.getElem?_range h]

/-- The results of a short word, written over its wave (R41). -/
def Wave.written (w : Wave) (res : List Res) : Wave :=
  (res.filter fun r => r.mask != 0).foldl (fun w r => w.commit r.file r.reg r.data r.mask) w

theorem written_v (w : Wave) (r n : Nat) (m : LaneMask) (f : Fin 32 → Nat) :
    (∃ v lv, w.written [resV r n m f] = { w with v := v, vlive := lv }) ∧ WroteV w (w.written [resV r n m f]) r n m f := by
  by_cases hm : m = 0#32
  · have e : w.written [resV r n m f] = w := by simp [Wave.written, resV, hm]
    rw [e]
    exact ⟨⟨w.v, w.vlive, rfl⟩, ⟨fun q l => by simp [hm], fun q _ => by simp [hm], ⟨rfl, rfl⟩, rfl⟩⟩
  · have e : w.written [resV r n m f] =
        w.commit .v r ((List.range n).map fun i => Vector.ofFn fun l => wordAt (f l) i) m := by
      simp [Wave.written, resV, hm]
    obtain ⟨⟨v, lv, h1⟩, h2, h3⟩ := commit_v w r ((List.range n).map fun i => Vector.ofFn fun l => wordAt (f l) i) m
    rw [e]
    refine ⟨⟨v, lv, h1⟩, ⟨fun q l => ?_, fun q hq => ?_, ?_, ?_⟩⟩
    · rw [h2 q l]
      simp only [List.length_map, List.length_range]
      by_cases hq : r ≤ q ∧ q < r + n
      · have hq2 : r ≤ q ∧ q < r + n ∧ m ≠ 0 := ⟨hq.1, hq.2, hm⟩
        rw [if_pos hq, if_pos hq2, wordAt_get n (q - r) f l (by omega)]
      · rw [if_neg hq, if_neg (fun c => hq ⟨c.1, c.2.1⟩)]
    · rw [h3 q hq]; simp [hm]
    · rw [h1]; exact ⟨rfl, rfl⟩
    · rw [h1]

theorem written_s (w : Wave) (r n : Nat) (m : LaneMask) (x : Nat) :
    (∃ v lv, w.written [resS r n m x] = { w with sreg := v, slive := lv }) ∧ WroteS w (w.written [resS r n m x]) r n m x := by
  by_cases hm : m = 0#32
  · have e : w.written [resS r n m x] = w := by simp [Wave.written, resS, hm]
    rw [e]
    exact ⟨⟨w.sreg, w.slive, rfl⟩, ⟨fun q => by simp [hm], fun q _ => by simp [hm], ⟨rfl, rfl⟩, rfl⟩⟩
  · have e : w.written [resS r n m x] = w.commit .s r ((List.range n).map fun i => Vector.replicate 32 (wordAt x i)) m := by
      simp [Wave.written, resS, hm]
    obtain ⟨⟨v, lv, h1⟩, h2, h3⟩ := commit_s w r ((List.range n).map fun i => Vector.replicate 32 (wordAt x i)) m
    rw [e]
    refine ⟨⟨v, lv, h1⟩, ⟨fun q => ?_, fun q hq => ?_, ?_, ?_⟩⟩
    · rw [h2 q]
      simp only [List.length_map, List.length_range]
      by_cases hq : r ≤ q ∧ q < r + n
      · have hj : q - r < n := by omega
        have hq2 : r ≤ q ∧ q < r + n ∧ m ≠ 0 := ⟨hq.1, hq.2, hm⟩
        rw [if_pos hq, if_pos hq2]
        simp [List.getElem?_map, List.getElem?_range hj]
      · rw [if_neg hq, if_neg (fun c => hq ⟨c.1, c.2.1⟩)]
    · rw [h3 q hq]; simp [hm]
    · rw [h1]; exact ⟨rfl, rfl⟩
    · rw [h1]

theorem written_k (w : Wave) (d : Nat) (m : LaneMask) (f : Fin 32 → Bool) :
    (∃ k, w.written [resK d m f] = { w with kreg := k }) ∧ WroteK w (w.written [resK d m f]) d m f := by
  by_cases hm : m = 0#32
  · have e : w.written [resK d m f] = w := by simp [Wave.written, resK, hm]
    rw [e]
    have hk (q : Nat) : (w.k q &&& ~~~m) ||| (laneMask f &&& m) = w.k q := by
      subst hm
      have e1 : (~~~(0#32) : BitVec 32) = BitVec.allOnes 32 := by decide
      rw [e1, BitVec.and_allOnes, BitVec.and_zero, BitVec.or_zero]
    exact ⟨⟨w.kreg, rfl⟩, ⟨fun q => by rw [hk]; simp, ⟨rfl, rfl⟩, ⟨rfl, rfl⟩⟩⟩
  · have e : w.written [resK d m f] = w.commit .k d [Vector.ofFn fun l => if f l then 1 else 0] m := by
      simp [Wave.written, resK, hm]
    obtain ⟨⟨k, h1⟩, h2⟩ := commit_k w d (Vector.ofFn fun l => if f l then 1 else 0) m
    rw [e]
    refine ⟨⟨k, h1⟩, ⟨fun q => ?_, ?_, ?_⟩⟩
    · rw [h2 q]
      have : (laneMask fun l => (Vector.ofFn (n := 32) fun l => if f l then (1 : Word) else 0)[l].getLsbD 0) = laneMask f := by
        congr 1; funext l; by_cases h : f l <;> simp [h]
      rw [this]
    · rw [h1]; exact ⟨rfl, rfl⟩
    · rw [h1]; exact ⟨rfl, rfl⟩

/-- What every short word leaves in its wave: nothing but its results, and its place (R44, R50). -/
theorem short_word (s : State) (i : Instr) (body : State → Key → Wave → Eff) (a : Word) (b : LaneVec) (res : List Res)
    (h : s.mayIssue i) (hl : (lkOf i).long = false)
    (hb : body (s.setWave s.cur (s.readWave i)) s.cur (s.readWave i) = .done (s.bodyState i a b) res)
    (hr : ∀ w : Wave, ∃ v lv sr sl k, w.written res = { w with v := v, vlive := lv, sreg := sr, slive := sl, kreg := k }) :
    let t := s.issue i body
    s.ran t ∧ (t.wave s.cur).fpflags = a ∧ (t.wave s.cur).srseed = b ∧ (t.wave s.cur).sb = (s.wave s.cur).sb ∧
      ((t.wave s.cur).pend = (s.wave s.cur).pend.map fun p => { p with remain := p.remain - 1 }) ∧
      ∃ bk, let u := ((s.wave s.cur).basis bk a b (s.usedWave i).vlive (s.usedWave i).slive).written res
        (t.wave s.cur).v = u.v ∧ (t.wave s.cur).vlive = u.vlive ∧ (t.wave s.cur).sreg = u.sreg ∧
        (t.wave s.cur).slive = u.slive ∧ (t.wave s.cur).kreg = u.kreg := by
  intro t
  obtain ⟨bk0, e0, hso⟩ := bodyWave_spec s i a b h
  have hso : ((s.bodyState i a b).wave s.cur).sound := by
    simpa only [State.bodyState, State.setWave_wave, if_true] using hso
  have ht : t = (s.bodyState i a b).retire s.cur i res .step := issue_run s _ i body _ _ h hb hso
  obtain ⟨bk, hp⟩ := primed_spec s i h a b
  have he : (s.bodyWave i a b).retired i res .step =
      { (((s.wave s.cur).basis bk a b (s.usedWave i).vlive (s.usedWave i).slive).written res).countWindows.advance with
        park := none, parkI := none } := by
    rw [retired_short _ _ _ hl, hp]; rfl
  obtain ⟨v, lv, sr, sl, k, hw⟩ := hr ((s.wave s.cur).basis bk a b (s.usedWave i).vlive (s.usedWave i).slive)
  obtain ⟨⟨c, g, ha⟩, hlpc⟩ :=
    advance_spec (((s.wave s.cur).basis bk a b (s.usedWave i).vlive (s.usedWave i).slive).written res).countWindows
  have hreg : OnlyRegs (s.wave s.cur) ((s.bodyWave i a b).retired i res .step) := by
    rw [he]
    constructor
    · rw [ha, hw]; rfl
    · intro l
      have := hlpc l
      rw [hw] at this ⊢
      exact this
  obtain ⟨g1, g2⟩ := ran_of s i a b res .step hreg
  rw [ht]
  refine ⟨g1, ?_⟩
  rw [g2, he, ha, hw]
  exact ⟨rfl, rfl, rfl, rfl, bk, by rw [hw]; exact ⟨rfl, rfl, rfl, rfl, rfl⟩⟩

theorem rv_congr (w u : Wave) (h : w.v = u.v) (q : Nat) (l : Fin 32) : w.rv q l = u.rv q l := by simp [Wave.rv, h]
theorem rs_congr (w u : Wave) (h : w.sreg = u.sreg) (q : Nat) : w.rs q = u.rs q := by simp [Wave.rs, h]
theorem k_congr (w u : Wave) (h : w.kreg = u.kreg) (q : Nat) : w.k q = u.k q := by simp [Wave.k, h]
theorem live_congr (w u : Wave) (hv : w.vlive = u.vlive) (hs : w.slive = u.slive) (f : RFile) (q : Nat) :
    w.isLive f q = u.isLive f q := by cases f <;> simp [Wave.isLive, hv, hs]

/-- A short word that writes a vector group. -/
theorem short_v (s : State) (i : Instr) (body : State → Key → Wave → Eff) (a : Word) (b : LaneVec) (r n : Nat) (m : LaneMask)
    (f : Fin 32 → Nat) (h : s.mayIssue i) (hl : (lkOf i).long = false)
    (hb : body (s.setWave s.cur (s.readWave i)) s.cur (s.readWave i) = .done (s.bodyState i a b) [resV r n m f]) :
    let t := s.issue i body
    s.ran t ∧ WroteV (s.usedWave i) (t.wave s.cur) r n m f ∧ (t.wave s.cur).fpflags = a ∧ (t.wave s.cur).srseed = b ∧
      (t.wave s.cur).sb = (s.wave s.cur).sb ∧
      (t.wave s.cur).pend = (s.wave s.cur).pend.map fun p => { p with remain := p.remain - 1 } := by
  intro t
  obtain ⟨h1, h2, h3, h4, h5, bk, hv, hlv, hs, hsl, hk⟩ := short_word s i body a b _ h hl hb (fun w => by
    obtain ⟨⟨v, lv, e⟩, -⟩ := written_v w r n m f
    exact ⟨v, lv, w.sreg, w.slive, w.kreg, e⟩)
  obtain ⟨⟨v, lv, e⟩, e1, e2, e3, e4⟩ :=
    written_v ((s.wave s.cur).basis bk a b (s.usedWave i).vlive (s.usedWave i).slive) r n m f
  have hu := usedWave_spec s i
  have uv : (s.usedWave i).v = (s.wave s.cur).v := by rw [hu]
  have us : (s.usedWave i).sreg = (s.wave s.cur).sreg := by rw [hu]
  have uk : (s.usedWave i).kreg = (s.wave s.cur).kreg := by rw [hu]
  refine ⟨h1, ⟨fun q l => ?_, fun q hq => ?_, ⟨?_, ?_⟩, ?_⟩, h2, h3, h4, h5⟩
  · rw [rv_congr _ _ hv, e1 q l]
    have c1 : ((s.wave s.cur).basis bk a b (s.usedWave i).vlive (s.usedWave i).slive).rv q l = (s.usedWave i).rv q l :=
      rv_congr _ _ uv.symm q l
    have c2 : ((s.wave s.cur).basis bk a b (s.usedWave i).vlive (s.usedWave i).slive).isLive .v q =
      (s.usedWave i).isLive .v q := rfl
    rw [c1, c2]
  · rw [live_congr _ _ hlv hsl, e2 q hq]; rfl
  · rw [hs, e3.1]; exact us.symm
  · rw [hsl, e3.2]; rfl
  · rw [hk, e4]; exact uk.symm

/-- A short word that writes a scalar group. -/
theorem short_s (s : State) (i : Instr) (body : State → Key → Wave → Eff) (a : Word) (b : LaneVec) (r n : Nat) (m : LaneMask)
    (x : Nat) (h : s.mayIssue i) (hl : (lkOf i).long = false)
    (hb : body (s.setWave s.cur (s.readWave i)) s.cur (s.readWave i) = .done (s.bodyState i a b) [resS r n m x]) :
    let t := s.issue i body
    s.ran t ∧ WroteS (s.usedWave i) (t.wave s.cur) r n m x ∧ (t.wave s.cur).fpflags = a ∧ (t.wave s.cur).srseed = b ∧
      (t.wave s.cur).sb = (s.wave s.cur).sb ∧
      (t.wave s.cur).pend = (s.wave s.cur).pend.map fun p => { p with remain := p.remain - 1 } := by
  intro t
  obtain ⟨h1, h2, h3, h4, h5, bk, hv, hlv, hs, hsl, hk⟩ := short_word s i body a b _ h hl hb (fun w => by
    obtain ⟨⟨v, lv, e⟩, -⟩ := written_s w r n m x
    exact ⟨w.v, w.vlive, v, lv, w.kreg, e⟩)
  obtain ⟨⟨v, lv, e⟩, e1, e2, e3, e4⟩ :=
    written_s ((s.wave s.cur).basis bk a b (s.usedWave i).vlive (s.usedWave i).slive) r n m x
  have hu := usedWave_spec s i
  have uv : (s.usedWave i).v = (s.wave s.cur).v := by rw [hu]
  have us : (s.usedWave i).sreg = (s.wave s.cur).sreg := by rw [hu]
  have uk : (s.usedWave i).kreg = (s.wave s.cur).kreg := by rw [hu]
  refine ⟨h1, ⟨fun q => ?_, fun q hq => ?_, ⟨?_, ?_⟩, ?_⟩, h2, h3, h4, h5⟩
  · rw [rs_congr _ _ hs, e1 q]
    have c1 : ((s.wave s.cur).basis bk a b (s.usedWave i).vlive (s.usedWave i).slive).rs q = (s.usedWave i).rs q :=
      rs_congr _ _ us.symm q
    rw [c1]
  · rw [live_congr _ _ hlv hsl, e2 q hq]; rfl
  · rw [hv, e3.1]; exact uv.symm
  · rw [hlv, e3.2]; rfl
  · rw [hk, e4]; exact uk.symm

/-- A short word that writes a mask register. -/
theorem short_k (s : State) (i : Instr) (body : State → Key → Wave → Eff) (a : Word) (b : LaneVec) (d : Nat) (m : LaneMask)
    (f : Fin 32 → Bool) (h : s.mayIssue i) (hl : (lkOf i).long = false)
    (hb : body (s.setWave s.cur (s.readWave i)) s.cur (s.readWave i) = .done (s.bodyState i a b) [resK d m f]) :
    let t := s.issue i body
    s.ran t ∧ WroteK (s.usedWave i) (t.wave s.cur) d m f ∧ (t.wave s.cur).fpflags = a ∧ (t.wave s.cur).srseed = b ∧
      (t.wave s.cur).sb = (s.wave s.cur).sb ∧
      (t.wave s.cur).pend = (s.wave s.cur).pend.map fun p => { p with remain := p.remain - 1 } := by
  intro t
  obtain ⟨h1, h2, h3, h4, h5, bk, hv, hlv, hs, hsl, hk⟩ := short_word s i body a b _ h hl hb (fun w => by
    obtain ⟨⟨k, e⟩, -⟩ := written_k w d m f
    exact ⟨w.v, w.vlive, w.sreg, w.slive, k, e⟩)
  obtain ⟨⟨k, e⟩, e1, e2, e3⟩ :=
    written_k ((s.wave s.cur).basis bk a b (s.usedWave i).vlive (s.usedWave i).slive) d m f
  have hu := usedWave_spec s i
  have uv : (s.usedWave i).v = (s.wave s.cur).v := by rw [hu]
  have us : (s.usedWave i).sreg = (s.wave s.cur).sreg := by rw [hu]
  have uk : (s.usedWave i).kreg = (s.wave s.cur).kreg := by rw [hu]
  refine ⟨h1, ⟨fun q => ?_, ⟨?_, ?_⟩, ⟨?_, ?_⟩⟩, h2, h3, h4, h5⟩
  · rw [k_congr _ _ hk, e1 q]
    have c1 : ((s.wave s.cur).basis bk a b (s.usedWave i).vlive (s.usedWave i).slive).k q = (s.usedWave i).k q :=
      k_congr _ _ uk.symm q
    rw [c1]
  · rw [hv, e2.1]; exact uv.symm
  · rw [hlv, e2.2]; rfl
  · rw [hs, e3.1]; exact us.symm
  · rw [hsl, e3.2]; rfl

/-- A short word without a result. -/
theorem short_none (s : State) (i : Instr) (body : State → Key → Wave → Eff) (a : Word) (b : LaneVec) (h : s.mayIssue i)
    (hl : (lkOf i).long = false)
    (hb : body (s.setWave s.cur (s.readWave i)) s.cur (s.readWave i) = .done (s.bodyState i a b) []) :
    let t := s.issue i body
    s.ran t ∧ WroteNone (s.usedWave i) (t.wave s.cur) ∧ (t.wave s.cur).fpflags = a ∧ (t.wave s.cur).srseed = b ∧
      (t.wave s.cur).sb = (s.wave s.cur).sb ∧
      (t.wave s.cur).pend = (s.wave s.cur).pend.map fun p => { p with remain := p.remain - 1 } := by
  intro t
  obtain ⟨h1, h2, h3, h4, h5, bk, hv, hlv, hs, hsl, hk⟩ := short_word s i body a b _ h hl hb (fun w =>
    ⟨w.v, w.vlive, w.sreg, w.slive, w.kreg, rfl⟩)
  have hu := usedWave_spec s i
  have uv : (s.usedWave i).v = (s.wave s.cur).v := by rw [hu]
  have us : (s.usedWave i).sreg = (s.wave s.cur).sreg := by rw [hu]
  have uk : (s.usedWave i).kreg = (s.wave s.cur).kreg := by rw [hu]
  exact ⟨h1, ⟨⟨hv.trans uv.symm, hlv⟩, ⟨hs.trans us.symm, hsl⟩, hk.trans uk.symm⟩, h2, h3, h4, h5⟩

/-- A long-latency word of one result. -/
theorem long_word (s : State) (i : Instr) (body : State → Key → Wave → Eff) (a : Word) (b : LaneVec) (r : Res)
    (h : s.mayIssue i) (hl : (lkOf i).long = true) (hr : r.data ≠ []) (ha : r.arrived = true) (hy : r.why = none)
    (hb : body (s.setWave s.cur (s.readWave i)) s.cur (s.readWave i) = .done (s.bodyState i a b) [r]) :
    let t := s.issue i body
    s.ran t ∧ WroteNone (s.usedWave i) (t.wave s.cur) ∧ (t.wave s.cur).fpflags = a ∧ (t.wave s.cur).srseed = b ∧
      (t.wave s.cur).pend = ((s.wave s.cur).pend.map fun p => { p with remain := p.remain - 1 }) ++
        (if r.mask = 0 then []
         else [{ file := r.file, reg := r.reg, n := r.data.length, data := r.data, mask := r.mask, remain := (lkOf i).look,
                 slot := (lkOf i).slot, word := (encodeWave i).getD 0 }]) ∧
      (t.wave s.cur).sb = (if r.mask = 0 then (s.wave s.cur).sb else
        match (lkOf i).slot with
        | some q => tset (s.wave s.cur).sb q (tget (s.wave s.cur).sb 0 q + 1)
        | none => (s.wave s.cur).sb) := by
  intro t
  obtain ⟨bk0, e0, hso⟩ := bodyWave_spec s i a b h
  have hso : ((s.bodyState i a b).wave s.cur).sound := by
    simpa only [State.bodyState, State.setWave_wave, if_true] using hso
  have ht : t = (s.bodyState i a b).retire s.cur i [r] .step := issue_run s _ i body _ _ h hb hso
  obtain ⟨bk, hp⟩ := primed_spec s i h a b
  have he := retired_long (s.bodyWave i a b) i r hl hr ha hy
  rw [hp] at he
  have hu := usedWave_spec s i
  have uv : (s.usedWave i).v = (s.wave s.cur).v := by rw [hu]
  have us : (s.usedWave i).sreg = (s.wave s.cur).sreg := by rw [hu]
  have uk : (s.usedWave i).kreg = (s.wave s.cur).kreg := by rw [hu]
  -- the wave before the group goes on
  have key : ∀ x : Wave, (∃ p q, x = { ((s.wave s.cur).basis bk a b (s.usedWave i).vlive (s.usedWave i).slive) with
        pend := p, sb := q }) →
      (s.bodyWave i a b).retired i [r] .step = { x.advance with park := none, parkI := none } →
      s.ran t ∧ WroteNone (s.usedWave i) (t.wave s.cur) ∧ (t.wave s.cur).fpflags = a ∧ (t.wave s.cur).srseed = b ∧
        (t.wave s.cur).pend = x.pend ∧ (t.wave s.cur).sb = x.sb := by
    rintro x ⟨p, q, hx⟩ hret
    obtain ⟨⟨c, g, hadv⟩, hlpc⟩ := advance_spec x
    have hreg : OnlyRegs (s.wave s.cur) ((s.bodyWave i a b).retired i [r] .step) := by
      rw [hret]
      constructor
      · rw [hadv, hx]; rfl
      · intro l
        have := hlpc l
        rw [hx] at this ⊢
        exact this
    obtain ⟨g1, g2⟩ := ran_of s i a b [r] .step hreg
    rw [ht]
    refine ⟨g1, ?_⟩
    rw [g2, hret, hadv, hx]
    exact ⟨⟨⟨uv.symm, rfl⟩, ⟨us.symm, rfl⟩, uk.symm⟩, rfl, rfl, rfl, rfl⟩
  by_cases hm : r.mask = 0
  · obtain ⟨g1, g2, g3, g4, g5, g6⟩ := key
      ((s.wave s.cur).basis bk a b (s.usedWave i).vlive (s.usedWave i).slive).countWindows ⟨_, _, rfl⟩ (by rw [he, if_pos hm])
    refine ⟨g1, g2, g3, g4, ?_, ?_⟩
    · rw [g5, if_pos hm, List.append_nil]; rfl
    · rw [g6, if_pos hm]; rfl
  · rw [if_neg hm] at he
    obtain ⟨g1, g2, g3, g4, g5, g6⟩ := key _ (by
      cases hs : (lkOf i).slot with
      | none => exact ⟨_, _, rfl⟩
      | some q => exact ⟨_, _, rfl⟩) he
    refine ⟨g1, g2, g3, g4, ?_, ?_⟩
    · rw [g5, if_neg hm]; rfl
    · rw [g6, if_neg hm]
      cases (lkOf i).slot <;> rfl

-- How a word ends.

/-- A word whose body is done runs to its end. -/
theorem runs_of (s s2 : State) (i : Instr) (body) (res) (adv) (h : s.mayIssue i)
  (he : exec i s = .next (s.issue i body))
  (hb : body (s.begun i) s.cur (s.readWave i) = .done s2 res adv) (hs : (s2.wave s.cur).sound) :
  runsTo s i s2 res adv := by
  unfold runsTo; rw [he, issue_run s s2 i body res adv h hb hs]; rfl

/-- A word whose body parks leaves its wave parked at it. -/
theorem parks_of (s s2 : State) (i : Instr) (body) (p) (h : s.mayIssue i)
  (he : exec i s = .next (s.issue i body))
  (hb : body (s.begun i) s.cur (s.readWave i) = .park s2 p)  :
  parksAt s i s2 p := by
  unfold parksAt; rw [he]
  obtain ⟨h1, h2, h3, h4⟩ := h
  obtain ⟨bk, hw, -⟩ := wake_spec (s.wave s.cur) (banksOf (opdsOf i) fun o => o.reads) h4
  have hr : (s.wave s.cur).wake (banksOf (opdsOf i) fun o => o.reads) = (s.readWave i, none) := by
    rw [hw]; simp [State.readWave, hw]
  have hb' : body (s.setWave s.cur (s.readWave i)) s.cur (s.readWave i) = .park s2 p := hb
  simp only [State.issue, h1, h2, h3, hr, hb']
  rfl

/-- A word whose body waits has issued, and its wave is parked at it. -/
theorem waits_of (s s2 : State) (i : Instr) (body) (p) (res) (h : s.mayIssue i)
  (he : exec i s = .next (s.issue i body))
  (hb : body (s.begun i) s.cur (s.readWave i) = .wait s2 p res) :
  issuesAndParks s i s2 p res := by
  unfold issuesAndParks; rw [he]
  obtain ⟨h1, h2, h3, h4⟩ := h
  obtain ⟨bk, hw, -⟩ := wake_spec (s.wave s.cur) (banksOf (opdsOf i) fun o => o.reads) h4
  have hr : (s.wave s.cur).wake (banksOf (opdsOf i) fun o => o.reads) = (s.readWave i, none) := by
    rw [hw]; simp [State.readWave, hw]
  have hb' : body (s.setWave s.cur (s.readWave i)) s.cur (s.readWave i) = .wait s2 p res := hb
  have hu : (if p.readsOn then s2 else s2.useSources s.cur i).reft = s2.reft := by
    split
    · rfl
    · obtain ⟨e, -⟩ := useSources_spec s2 s.cur i
      rw [e]
  have ht : ((if p.readsOn then s2 else s2.useSources s.cur i).takeEffect s.cur i res).reft = s2.reft := by
    obtain ⟨e, -⟩ := takeEffect_spec (if p.readsOn then s2 else s2.useSources s.cur i) s.cur i res
    rw [e, ← hu]
  simp only [State.issue, h1, h2, h3, hr, hb']
  simp only [Bool.false_eq_true, if_false, State.parkWave, ht]

/-- A word whose body faults takes the exception. -/
theorem faults_of (s : State) (i : Instr) (body) (c d) (h : s.mayIssue i)
  (he : exec i s = .next (s.issue i body))
  (hb : body (s.begun i) s.cur (s.readWave i) = .fault c d)  :
  faultsWith s i c d := by
  unfold faultsWith; rw [he]
  obtain ⟨h1, h2, h3, h4⟩ := h
  obtain ⟨bk, hw, -⟩ := wake_spec (s.wave s.cur) (banksOf (opdsOf i) fun o => o.reads) h4
  have hr : (s.wave s.cur).wake (banksOf (opdsOf i) fun o => o.reads) = (s.readWave i, none) := by
    rw [hw]; simp [State.readWave, hw]
  have hb' : body (s.setWave s.cur (s.readWave i)) s.cur (s.readWave i) = .fault c d := hb
  simp only [State.issue, h1, h2, h3, hr, hb']
  rfl

/-- The wave in which a body runs. -/
theorem begun_wave (s : State) (i) : (s.begun i).wave s.cur = s.readWave i := by simp [State.begun]

/-- Waking the banks that a word reads leaves no bank that lost its contents. -/
theorem readWave_sound (s : State) (i) (h : s.mayIssue i) : (s.readWave i).sound := by
  obtain ⟨_, _, h⟩ := readWave_spec s i h; exact h

/-- Waking banks does not change the lanes of a word. -/
theorem readWave_act (s : State) (i) (h : s.mayIssue i) (a b) : (s.readWave i).act a b = (s.wave s.cur).act a b := by
  obtain ⟨_, e, _⟩ := readWave_spec s i h; rw [e]; rfl

/-- A wave-level word whose body does f runs to f. -/
theorem wl_of (s : State) (i : Instr) (pr pn) (body) (f : State → State) (h : s.mayIssue i)
  (he : exec i s = .next (s.issue i (waveLevel pr pn body))) (hp : (lkOf i).pr = pr) (hn : (lkOf i).pn = pn)
  (hb : body (s.begun i) s.cur (s.readWave i) = .done (f (s.begun i)) [] .step)
  (hs : ((f (s.begun i)).wave s.cur).sound) : waveLevelRuns s i f := by
  unfold waveLevelRuns
  apply runs_of s _ i _ [] .step h he
  · unfold waveLevel
    rw [readWave_act s i h]
    have : (s.wave s.cur).act pr pn = s.actOf i := by rw [State.actOf, hp, hn]
    rw [this]
    split
    · rfl
    · exact hb
  · split
    · rw [begun_wave]; exact readWave_sound s i h
    · exact hs

end Sys2Proof.Machine
end

