-- ==== Sys2Proof/Tests/Slice0.lean ====
section
/-! SUPPORT. Tests: ill-formed words, words the spec writes out, results the spec works out, and for each statement with
hypotheses a state and operands that meet them. -/

namespace Sys2Proof.Tests

open Sys2Proof Sys2Proof.Machine

set_option maxRecDepth 100000

-- Well-formedness: one ill-formed word for each kind of check (R164 step 3), beside a well-formed one.

/-- Control words: offset not a multiple of 8, a field that must be zero, a rejoin register, a weir count, a barrier number. -/
theorem test_illFormed_control :
    (∀ i ∈ ([.bra { off := 12 }, .exit { off := 8 }, .ret { off := 16 }, .trap { d := 1 }, .jenr { d := 8 }, .jwait { d := 1, sv := true },
        .weirset { imm := 0x0003 }, .weirset { imm := 0x2200 }, .weirwait { imm := 0x0100 }, .cbarv { imm := 4 }, .acqx { imm := 0 },
        .acqx { imm := 5 }, .relx { imm := 1 }, .kill true { a := 60, imm := 0x10 }, .kill false { d := 1 }, .rest { imm := 0x100 },
        .region { imm := 3 }, .part { imm := 5 }, .srd { imm := 0x0FF }, .callx { fn := 0x041 }] : List Instr),
      i.WellFormed false = false) ∧
    ∀ i ∈ ([.bra { off := 16 }, .exit {}, .ret {}, .trap { imm := 7 }, .jenr { d := 7 }, .weirset { imm := 0x2103 }, .weirwait { imm := 3 },
        .cbarv { imm := 3 }, .acqx { imm := 4 }, .relx {}, .kill true { a := 60, imm := 0x8 }, .rest { imm := 0xFF }, .region { imm := 2 },
        .part { imm := 4 }, .callx { fn := 0x080 }] : List Instr),
      i.WellFormed false = true := by decide

/-- Arithmetic words: a reserved type, a misaligned group, an unused operand, a last use on a mask register, LOOK on a short word, a
format, a rounding mode, equal conversion types. -/
theorem test_illFormed_arithmetic :
    (∀ i ∈ ([.iadd false .b32 {}, .iadd false .i64 { d := 3 }, .iabs false .n32 {}, .imadw false .i64 {}, .ineg false .i32 { b := 1 },
        .isel false .b32 { c := 8 }, .isel false .b32 { lc := true }, .iadd false .i32 { look := 1 }, .iadd true .i32 { d := 0x42 },
        .fadd .f16 .rne {}, .fadd .f32 .sr {}, .padd .f32 .rne {}, .cvt .rne { c := 0xAA }, .bperm false .b64 {},
        .mov false .b32 { lb := true }] : List Instr),
      i.WellFormed false = false) ∧
    ∀ i ∈ ([.iadd false .i32 {}, .iadd false .i64 { d := 2 }, .iabs false .i32 {}, .isel false .b32 { c := 7 }, .fadd .f32 .rtz {},
        .padd .f16 .rne {}, .cvt .rne { c := 0x8A }, .bperm false .b32 {}, .idiv false .i32 { look := 3 }] : List Instr),
      i.WellFormed false = true := by decide

/-- Memory words: a size, an order, an address pair; a pairing violation; a matrix word's tile, count or offset. -/
theorem test_illFormed_memory :
    (∀ i ∈ ([.ldScalar .i8 {}, .stVector .i16 {}, .ldVector .b32 { ar := 3 }, .ldVector .b32 { ld := true }, .lds .full .b64 {},
        .atomcas { off := 0xA000 }, .red .xchg {}, .fence { off := 0 }, .fence { off := 0xA000 }, .pfence { d := 5 },
        .pairedWord { pop := 1, d := 8 } { pop := 1, d := 17 },
        .marv 1 0, .marv 1 34, .mregion 3, .mloop 0 0 4, .mjmp 0 12] : List Instr),
      i.WellFormed false = false) ∧
    ∀ i ∈ ([.ldScalar .b64 {}, .stVector .b32 {}, .ldVector .b32 { ar := 2 }, .lds .full .b32 {}, .fence { off := 0x4000 }, .pfence { d := 4 },
        .pairedWord { pop := 1, d := 8, a := 1, b := 2 } { pop := 0x10, d := 17, a := 1, b := 3 }, .marv 1 33, .mregion 2,
        .mloop 0 0 8] : List Instr),
      i.WellFormed false = true := by decide

-- Words that the spec writes out, by family.

/-- The instruction a word is read as. -/
def read (w : Nat) : Option Instr := decodeTableWord 64 w

/-- The clause of R179's example, header included. -/
theorem test_decode_example :
    unpackH 0xF440000000000000 = { count := 4, cls := 2 } ∧
    read 0x80400C0400230000 = some (.ldVector .b32 { d := 12, ar := 4, look := 2, slot := 1, sv := true }) ∧
    read 0x2000028180100200 = some (.iadd false .i32 { d := 20, a := 12, b := 1, bk := 2 }) ∧
    read 0x2000018050000200 = some (.iadd false .i32 { d := 12, a := 2, la := true, bk := 2 }) ∧
    read 0x200002C291580000 = some (.iadd false .i32 { d := 22, a := 20, la := true, b := 21, lb := true }) := by decide

/-- R179, R186 to R205: control words. -/
theorem test_decode_control :
    read 0x01C00000FFFFFFC0 = some (.bra { hint := 3, off := 0xFFFFFFC0 }) ∧
    read 0x019CC00000000080 = some (.bra { hint := 2, pr := 3, pn := true, j := 1, je := true, off := 0x80 }) ∧
    read 0x0400028400000000 = some (.callx { fn := 0x284 }) ∧
    read 0x0A02004000000000 = some (.jwait { d := 2 }) ∧
    read 0x0B60000000000903 = some (.weirsync { imm := 0x903 }) ∧
    read 0x1000001000000013 = some (.kill false { a := 16, imm := 0x13 }) ∧
    read 0x1400060080000022 = some (.srd { d := 6, imm := 0x80000022 }) ∧
    read 0x1500000418050000 = some (.scw { ar := 4, sc := 6, slot := 2, sv := true }) := by decide

/-- R211 to R223: integer words. -/
theorem test_decode_integer :
    read 0x2622014040306000 = some (.imadw false .n32 { d := 10, a := 2, b := 3, c := 12 }) ∧
    read 0x362C002040302000 = some (.tlog false 0x96 { d := 1, a := 2, b := 3, c := 4 }) ∧
    read 0x3A0000A0C0200100 = some (.bfe false .i32 { d := 5, a := 6, b := 2, bk := 1 }) ∧
    read 0x4300020000000508 = some (.movi true .b32 { d := 2, imm := 0x508 }) ∧
    read 0x41A0080080000000 = some (.movQ0Push { d := 0x40, a := 4 }) := by decide

/-- R170, R229, R231, R238, R240: floating, conversion and paired words. -/
theorem test_decode_float :
    read 0x5208002040302000 = some (.ffma .f32 .rtz { d := 1, a := 2, b := 3, c := 4 }) ∧
    read 0x54100040A0000200 = some (.fcmp .f32 .lt { d := 2, a := 5, bk := 2 }) ∧
    read 0x700800E060065000 = some (.cvt .sr { d := 7, a := 3, c := 0xCA }) ∧
    read 0x7240008040600103 = some (.qnt false .auto .rne { d := 4, a := 2, b := 6, bk := 1, slot := 1, sv := true }) ∧
    read 0xE04401021022040C = some (.pairedWord { pop := 1, d := 8, a := 1, b := 2 } { pop := 0x10, d := 17, a := 1, b := 3 }) := by
  decide

/-- R246, R249, R252, R253, R254: memory words. -/
theorem test_decode_memory :
    read 0x8250080440000010 = some (.stVector .b64 { d := 8, ar := 4, ld := true, off := 0x10 }) ∧
    read 0x8800060411052000 = some (.atom .add { d := 6, ar := 4, sc := 4, ch := 1, slot := 2, sv := true, off := 0x2000 }) ∧
    read 0x8BA0060411002000 = some (.ldwatch 10 { d := 6, ar := 4, sc := 4, ch := 1, off := 0x2000 }) ∧
    read 0x8C00000018004000 = some (.fence { sc := 6, off := 0x4000 }) ∧
    read 0x8D00010000000000 = some (.pfence { d := 1 }) := by decide

/-- R278, R282: cross-lane words; R341: a privileged word, which user mode does not decode. -/
theorem test_decode_lanes :
    read 0xB00400602FF00200 = some (.vote .ballot { d := 3, a := 1, b := 0xFF, bk := 2 }) ∧
    read 0xB206004021000200 = some (.pull .flip { d := 2, a := 1, b := 0x10, bk := 2 }) ∧
    read 0xC000000000000000 = some .eret ∧ decodeWave false 0xC000000000000000 = .access := by decide

/-- R179, R290 to R306: matrix-stream words. -/
theorem test_decode_stream :
    decodeSeq 0x0132010500000040 = .ok (.mmaF16 { acc := 3, ra := 2, aoff := 16, rb := 5, z := true }) ∧
    decodeSeq 0x0700000100001200 = .ok (.mmasX4 { rb := 1, scol := 4, rgn := 2 }) ∧
    decodeSeq 0x0A34400100000200 = .ok (.astore .f16 { acc := 3, areg := 2, str := 256, inc := 2 }) ∧
    decodeSeq 0x0D068007FF004000 = .ok (.scld false 3 2048 2047 64) ∧
    decodeSeq 0x1010090000000000 = .ok (.marv 1 9) ∧
    decodeSeq 0x18046083D8000000 = .ok (.inj 0 70 2 3 27) := by decide

-- Results that the spec works out.

/-- A full register. -/
def all (x : Word) : LaneVec := Vector.replicate 32 x

/-- A user wave with every register LIVE, 64 vector registers, inside a clause. -/
def wave0 : Wave :=
  { here := true, breg := 64, vlive := BitVec.allOnes 256, slive := BitVec.allOnes 64, lst := Vector.replicate 32 .live,
    srseed := all 1, group := BitVec.allOnes 32, lpc := Vector.replicate 32 0x1008,
    clause := some { hdrAt := 0x1000, hdr := 0xF500000000000000, pos := 0 } }

/-- A crew on core 0, in focus with its wave 0. -/
def st (w : Wave) (c : Crew := { st := .running, nwave := 1, spbN := 1 }) : State :=
  { State.reset with cur := 0, waves := [(0, w)], crews := [(0, c)] }

/-- The next state, if there is one. -/
def nx (o : Host.Outcome State Fault Refusal) : State := match o with | .next s => s | _ => State.reset

/-- The wave of `st` after an instruction. -/
def after (i : Instr) (w : Wave) : Wave := (nx (exec i (st w))).wave 0

/-- R212's table for IMADW. -/
theorem test_imadw :
    let w := { wave0 with v := [(2, all 0xFFFFFFFF), (3, all 0xFFFFFFFF), (13, all 1)] }
    let u := after (.imadw false .n32 { d := 10, a := 2, b := 3, c := 12 }) w
    let t := after (.imadw false .i32 { d := 10, a := 2, b := 3, c := 12 }) w
    (u.rv 10 5, u.rv 11 5) = (1, 0xFFFFFFFF) ∧ (t.rv 10 5, t.rv 11 5) = (1, 1) := by decide

/-- R217's example of TLOG, and R219's of BFE. -/
theorem test_tlog_bfe :
    (after (.tlog false 0x96 { d := 1, a := 2, b := 3, c := 4 })
      { wave0 with v := [(2, all 0x0000FFFF), (3, all 0x00FF00FF), (4, all 0x0F0F0F0F)] }).rv 1 0 = 0x0FF0F00F ∧
    (after (.bfe false .i32 { d := 5, a := 6, b := 2, bk := 1 })
      { wave0 with v := [(6, all 0x1F00)], sreg := [(2, 0x508)] }).rv 5 31 = 0xFFFFFFFF := by decide

/-- R77: division by zero gives the edge results and raises DZ. -/
theorem test_idiv_zero :
    let u := after (.idiv false .i32 { d := 1, a := 2, b := 3 }) { wave0 with v := [(2, all 5)] }
    (u.pend.map fun p => p.data.map fun x => x[(4 : Fin 32)]) = [[0x7FFFFFFF]] ∧ u.fpflags = fDZ.setWidth 32 ∧ u.rv 1 4 = 0 := by
  decide

/-- R229's example of FFMA: the exact sum is delivered, and no flag. -/
theorem test_ffma :
    let u := after (.ffma .f32 .rtz { d := 1, a := 2, b := 3, c := 4 })
      { wave0 with v := [(2, all 0x3F800001), (3, all 0x3F7FFFFE), (4, all 0xBF800000)] }
    u.rv 1 9 = 0xA8800000 ∧ u.fpflags = 0 := by decide

/-- R73's worked stochastic conversion. -/
theorem test_cvt_sr :
    let u := after (.cvt .sr { d := 7, a := 3, c := 0xCA }) { wave0 with v := [(3, all 0x3F8FFFC0)] }
    u.rv 7 0 = 0x39 ∧ u.rv 8 0 = 0 := by decide

/-- R194: a weir is armed, and the arrival that is not the last leaves the phase. -/
theorem test_weir :
    let s1 := nx (exec (.weirset { imm := 0x0903 }) (st wave0))
    let s2 := nx (exec (.weirarv { imm := 0x0903 }) s1)
    (s2.crew 0).weir 3 = { armed := 9, a := 1, p := 0 } := by decide

/-- R205: TRAP stops the wave where it stands, raises the floodgate and posts the event. -/
theorem test_trap :
    let t := nx (exec (.trap { imm := 7 }) (st wave0))
    (t.wave 0).stopped = true ∧ (t.ctx 0).up = true ∧ ((t.ctx 0).recs.map fun r => (r.cls, r.det, r.pc, r.wpos)) =
      [(some .swtrap, 7, 0x1000, 0)] := by decide

/-- R42: a DEAD register that is read is RDEAD, and nothing is written. -/
theorem test_rdead :
    let t := nx (exec (.iadd false .i32 { d := 1, a := 2, b := 3 }) (st { wave0 with vlive := 0xF }))
    let u := nx (exec (.iadd false .i32 { d := 1, a := 2, b := 9 }) (st { wave0 with vlive := 0xF }))
    (t.wave 0).stopped = false ∧ (u.wave 0).stopped = true ∧ ((u.ctx 0).recs.map fun r => (r.cls, r.det)) = [(some .rdead, 9)] := by
  decide

/-- R161, R164: a step of the machine fetches, decodes and runs the word that stands at the program counter. -/
theorem test_step :
    let t := nx (step (State.reset.withFetchWord 64 0x4200040000000005))
    (t.wave t.cur).rv 4 3 = 5 ∧ (t.wave t.cur).isLive .v 4 = true ∧ t.reft = 1 := by decide

-- Witnesses: for each statement with hypotheses, a state and operands that meet them.

/-- Whether a word may issue, where no bank has been in use. -/
def mayB (s : State) (i : Instr) : Bool :=
  !interlock (s.wave s.cur) (opdsOf i) (lkOf i) && (budgetBad (s.wave s.cur) (opdsOf i)).isNone &&
    (deadReg (s.wave s.cur) (opdsOf i)).isNone && (s.wave s.cur).banks.isEmpty

theorem may_of (s : State) (i : Instr) (h : mayB s i = true) : s.mayIssue i := by
  simp only [mayB, Bool.and_eq_true, Bool.not_eq_true', Option.isNone_iff_eq_none, List.isEmpty_iff] at h
  obtain ⟨⟨⟨h1, h2⟩, h3⟩, h4⟩ := h
  refine ⟨h1, h2, h3, fun b hb => ?_⟩
  rw [Wave.bank, h4]; rfl

theorem may_all (s : State) (l : List Instr) (h : l.all (mayB s) = true) : ∀ i ∈ l, s.mayIssue i :=
  fun i hi => may_of s i (List.all_eq_true.mp h i hi)

theorem some_of {α : Type} (o : Option α) (p : α → Bool) (h : o.any p = true) : ∃ a, o = some a ∧ p a = true := by
  cases o with
  | none => cases h
  | some a => exact ⟨a, rfl, h⟩

theorem inr_of {α β : Type} (o : α ⊕ β) (p : β → Bool) (h : o.elim (fun _ => false) p = true) : ∃ b, o = .inr b ∧ p b = true := by
  cases o with
  | inl a => cases h
  | inr b => exact ⟨b, rfl, h⟩

theorem inl_of {α β : Type} (o : α ⊕ β) (p : α → Bool) (h : o.elim p (fun _ => false) = true) : ∃ b, o = .inl b ∧ p b = true := by
  cases o with
  | inr a => cases h
  | inl b => exact ⟨b, rfl, h⟩

theorem decodes (i : Instr) (h : (encodeWave i).any (fun w => decide (decodeWave false w = .ok i)) = true) :
    ∃ w, encodeWave i = some w ∧ decodeWave false w = .ok i := by
  obtain ⟨w, h1, h2⟩ := some_of _ _ h
  exact ⟨w, h1, of_decide_eq_true h2⟩

/-- A held access of lane 0, of the context's address space. -/
def held0 : HeldAcc := { word := 0, mask := 1, addrs := Vector.replicate 32 0, data := Vector.replicate 32 0 }

/-- A user wave in focus whose k1 names no lane, so that a word predicated by it executes in none. -/
def U : State := st wave0

theorem wit_WaveRoundTrip : encodeWave (.movi false .b32 { d := 4, imm := 5 }) = some 0x4200040000000005 ∧
    (Instr.movi false .b32 { d := 4, imm := 5 }).WellFormed true = true := by decide

theorem wit_SeqRoundTrip : encodeSeq (.mregion 1) = some 0x1240000000000000 ∧ (Instr.mregion 1).WellFormed false = true := by decide

theorem wit_WaveDecodesItsWord : decodeWave true 0xC000000000000000 = .ok .eret := by decide

theorem wit_IntegerWords :
    (∀ i ∈ ([.imadw false .i32 { d := 10, a := 2, b := 3, c := 12 }, .xor true .b64 { d := 2, a := 4, b := 6 },
        .fshf false .n32 { d := 1, a := 2, b := 3, c := 4 }, .popc false .n64 { d := 1, a := 2 }] : List Instr), U.mayIssue i) ∧
    (∃ r, arithRule (.imadw false .i32 { d := 10, a := 2, b := 3, c := 12 }) = some r) ∧
    (∃ r, logicRule (.xor true .b64 { d := 2, a := 4, b := 6 }) = some r) ∧
    (∃ r, shiftRule (.fshf false .n32 { d := 1, a := 2, b := 3, c := 4 }) = some r) ∧
    ∃ r, bitRule (.popc false .n64 { d := 1, a := 2 }) = some r :=
  ⟨may_all _ _ (by decide), ⟨_, rfl⟩, ⟨_, rfl⟩, ⟨_, rfl⟩, _, rfl⟩

theorem wit_BitwiseRule :
    let i := Instr.not false .b64 { d := 2, a := 4 }
    let j := Instr.and true .b32 { d := 2, a := 4, b := 6, bk := 2 }
    i.WellFormed false = true ∧ j.WellFormed false = true ∧ U.mayIssue i ∧ U.mayIssue j ∧ (∃ w, encodeWave i = some w ∧ decodeWave false w = .ok i) ∧
    (∃ o ∈ opdsOf i, o.reads = true) ∧ 63 < tyBits .b64 ∧ U.actOf j ≠ 0 ∧ inMask (U.actOf i) 31 = true :=
  ⟨by decide, by decide, may_of _ _ (by decide), may_of _ _ (by decide), decodes _ (by decide), by decide, by decide, by decide, by decide⟩

theorem wit_CompareAndMove : ∀ i ∈ ([.icmp true .n64 .le { d := 7, a := 4, b := 6 }, .icmp false .i32 .gt { d := 0, a := 4, b := 6 },
    .movi true .i64 { d := 62, imm := 0x80000000 }, .rdlane .b64 { d := 62, a := 60, b := 1 }, .bcast .b32 { d := 63, a := 63 }] : List Instr),
    U.mayIssue i := may_all _ _ (by decide)

theorem wit_SelectRule :
    let i := Instr.isel false .b32 { d := 1, a := 2, b := 3, c := 7 }
    i.WellFormed false = true ∧ (∃ w, encodeWave i = some w ∧ decodeWave false w = .ok i) ∧ U.mayIssue i ∧ U.mayIssue (.isel true .b64 { d := 2, a := 4, b := 6, c := 0 }) :=
  ⟨by decide, decodes _ (by decide), may_of _ _ (by decide), may_of _ _ (by decide)⟩

theorem wit_Division : ∀ i ∈ ([.idiv false .n64 { d := 2, a := 4, b := 6 }, .irem true .i32 { d := 1, a := 2, b := 3, bk := 2 }] : List Instr),
    U.mayIssue i := may_all _ _ (by decide)

theorem wit_FloatingWords :
    (∀ i ∈ ([.pfma .f16 .rtz { d := 1, a := 2, b := 3, c := 4 }, .fcmp .f64 .lt { d := 2, a := 4, b := 6 },
        .fscale .f32 .rne { d := 1, a := 2, b := 3 }] : List Instr), U.mayIssue i) ∧
    ∃ r, floatRule (.pfma .f16 .rtz { d := 1, a := 2, b := 3, c := 4 }) = some r := ⟨may_all _ _ (by decide), _, rfl⟩

theorem wit_SpecialFunctions : U.mayIssue (.sin { d := 1, a := 2, slot := 7, sv := true }) ∧
    ∃ r, sfuRule (.sin { d := 1, a := 2, slot := 7, sv := true }) = some r := ⟨may_of _ _ (by decide), _, rfl⟩

theorem wit_Conversions :
    (∀ i ∈ ([.cvt .sr { d := 7, a := 3, c := 0xCA }, .cvtp .rne { d := 1, a := 2, b := 3, c := 0xC0 }, .dqnt { d := 1, a := 2, b := 3 },
        .qnt true .auto .rne { d := 4, a := 2 }, .qnt false .auto .sr { d := 4, a := 2, b := 6, bk := 1 }] : List Instr), U.mayIssue i) ∧
    U.gateOpen 0 ∧
    (∀ l : Fin 32, spCheck (U.crew (crewOf U.cur)).spLimit (((U.wave U.cur).rs 6).toNat + 4 * (l.val % 32)) 4 = none ∧
      (U.crew (crewOf U.cur)).spLost ((((U.wave U.cur).rs 6).toNat + 4 * (l.val % 32)) / 8192) = false) ∧
    (({ wave0 with partreg := 2 } : Wave).partreg &&& 7).toNat = 2 ∧ (st { wave0 with partreg := 2 }).mayIssue (.qnt true .auto .rne { d := 4, a := 2 }) :=
  ⟨may_all _ _ (by decide), ⟨by decide, by decide⟩, by decide, by decide, may_of _ _ (by decide)⟩

theorem wit_PairedWords :
    let h : PHalf := { pop := 1, d := 8, a := 1, b := 2 }
    let l : PHalf := { pop := 0x10, d := 17, a := 1, b := 3 }
    U.mayIssue (.pairedWord h l) ∧ pairOk h l = true := ⟨may_of _ _ (by decide), by decide⟩

theorem wit_CrossLane : ∀ i ∈ ([.vote .ballot { d := 3, a := 1 }, .matchLanes .b64 true { d := 1, a := 2 }, .pull .flip { d := 2, a := 1 },
    .perm { d := 1, a := 2, b := 3, c := 4 }, .qswap .diagonal { d := 1, a := 2 }, .qbcast { d := 1, a := 2 }, .redux .f32 .add { d := 1, a := 2 },
    .scan (.int .n64) .max true { d := 2, a := 4 }] : List Instr), U.mayIssue i := may_all _ _ (by decide)

/-- Context 0 has one page of every right, at the virtual addresses from 0 and from 0x100000 on in memory. -/
def page0 : TlbEnt :=
  { ctx := 0, polder := 0, g := false, va := 0, size := 0x100000, pa := 0x100000, rd := true, wr := true, ex := true, u := true, home := 0,
    t := 0, d := true, loc := .core 0 }

/-- A wave with memory: the page, whose first lines are in an L2 slice, and words at their addresses in it. -/
def M (w : Wave) (ws : List (Nat × Nat) := []) : State :=
  ws.foldl (fun s p => s.pokeBytes (0x100000 + p.1) (bytesOf p.2 8))
    { st w with pkg := { State.reset.pkg with tlb := [page0], l2 := [(0, (List.range 512).map fun n => { line := 0x2000 + n, polder := 0 })] } }

theorem fetch_of (r : FetchRes) (p : State → Dword → Bool) (h : (match r with | .ok s w => p s w | _ => false) = true) :
    ∃ s w, r = .ok s w ∧ p s w = true := by
  cases r <;> first | exact ⟨_, _, rfl, h⟩ | cases h

theorem wit_StepRunsWord :
    let s := { (M wave0 [(0x1008, 0x4200040000000005)]).modQuad 0 0 fun q => { q with inClause := some 0 } with reft := 1 }
    let w := s.wave s.cur
    let c : ClauseSt := { hdrAt := 0x1000, hdr := 0xF500000000000000, pos := 0 }
    s.pkg.boot = 6 ∧ (s.die (dieOf (coreOf s.cur))).rel = false ∧ s.onSeq = false ∧ w.clause = some c ∧ w.canRun = true ∧ w.group ≠ 0 ∧
      (∃ s1 x, s.fetchWave s.cur w.pc = .ok s1 x ∧ decide (isHeader x = false ∧
        classAccepts (unpackH c.hdr).cls.toNat (c.pos == (unpackH c.hdr).count.toNat) x = true ∧
        decodeWave (isReeveCore (coreOf s.cur)) x = .ok (.movi false .b32 { d := 4, imm := 5 })) = true) ∧
      (s.quad s.cur).inClause = some s.cur ∧ s.agenda = [] ∧ s.pkg.bootStopped = false ∧ s.overfull = none ∧ s.due = none :=
  ⟨by decide, by decide, by decide, by decide, by decide, by decide, fetch_of _ _ (by decide), by decide, by decide, by decide, by decide, by decide⟩

theorem wit_Exceptions : (U.ctx 0).up = false ∧ ((U.modCtx 0 fun y => { y with up := true }).ctx 0).up = true ∧
    isReeveCore (coreOf 0) = false ∧ isReeveCore (coreOf State.reset.cur) = true := by decide

theorem wit_RetirementFrame : (∀ b, ((U.wave 0).bank b).st = .retain → ((U.wave 0).bank b).bad = false) ∧
    (lkOf (.idiv false .i32 {})).long = true := ⟨fun _ _ => rfl, rfl⟩

theorem wit_IssueFaults :
    let busy := st { wave0 with pend := [{ reg := 2, n := 1, data := [zeroLanes], mask := 1 }] }
    let i := Instr.iadd false .i32 { d := 1, a := 2, b := 200 }
    interlock (busy.wave busy.cur) (opdsOf i) (lkOf i) = true ∧ missLock (busy.wave busy.cur) (opdsOf i) = false ∧
    (let s := st { wave0 with held := [held0], pend := [{ reg := 2, n := 1, mask := 1, arrived := false }] }
     interlock (s.wave 0) (opdsOf i) (lkOf i) = true ∧ missLock (s.wave 0) (opdsOf i) = true) ∧
    interlock (U.wave U.cur) (opdsOf i) (lkOf i) = false ∧ budgetBad (U.wave U.cur) (opdsOf i) = some 200 ∧
    (let s := st { wave0 with vlive := 0 }
     let j := Instr.iadd false .i32 { d := 1, a := 2, b := 3 }
     interlock (s.wave s.cur) (opdsOf j) (lkOf j) = false ∧ budgetBad (s.wave s.cur) (opdsOf j) = none ∧
       (deadReg (s.wave s.cur) (opdsOf j)).isSome = true) ∧
    U.mayIssue (.trap {}) :=
  ⟨by decide, by decide, by decide, by decide, by decide, by decide, may_of _ _ (by decide)⟩

theorem next_of (o : Host.Outcome State Fault Refusal) (h : (match o with | .next _ => true | _ => false) = true) : ∃ t, o = .next t := by
  cases o <;> first | exact ⟨_, rfl⟩ | cases h

theorem wit_StepKeepsMemory : memWf State.reset.mem = true ∧ ∃ t, step State.reset = .next t := ⟨by decide, next_of _ (by decide)⟩

theorem wit_ControlWords :
    (∀ i ∈ ([.nop, .yield, .kill true { a := 60, imm := 0x8 }, .rest { imm := 0xFF }, .rest { pr := 1, imm := 0xFF }, .region { imm := 2 },
        .part { imm := 4 }] : List Instr), U.mayIssue i) ∧
    U.actOf (.rest { imm := 0xFF }) ≠ 0 ∧ U.actOf (.rest { pr := 1, imm := 0xFF }) = 0 :=
  ⟨may_all _ _ (by decide), by decide, by decide⟩

theorem wit_RestRule : (Instr.rest { imm := 0xFF }).WellFormed false = true ∧ U.mayIssue (.rest { imm := 0xFF }) ∧
    U.actOf (.rest { imm := 0xFF }) ≠ 0 := ⟨by decide, may_of _ _ (by decide), by decide⟩

theorem wit_SleepsAndTraps :
    (∀ i ∈ ([.sleep { imm := 0xFFFFFFFF }, .sleep {}, .sleep { pr := 1 }, .trap { imm := 7 }, .trap { pr := 1 }, .bkpt {}, .bkpt { pr := 1 }] :
        List Instr), U.mayIssue i) ∧
    U.actOf (.sleep {}) ≠ 0 ∧ U.actOf (.sleep { pr := 1 }) = 0 ∧ U.actOf (.trap {}) ≠ 0 ∧ U.actOf (.bkpt { pr := 1 }) = 0 ∧
    (let s := st { wave0 with park := some (.sleep 5), parkI := some (.sleep { imm := 5 }) }
     (s.wave 0).park = some (.sleep 5) ∧ (s.wave 0).parkI = some (.sleep { imm := 5 }) ∧ (s.wave 0).stopped = false ∧
       s.clockOn (coreOf 0) = true) :=
  ⟨may_all _ _ (by decide), by decide, by decide, by decide, by decide, by decide⟩

/-- A wave whose next words are a header, at 0x1048, behind a function word, and code around them. -/
def J : State := M wave0 [(0x1048, 0xF100000000000000), (0x1040, 0x0F00070000000000)]

theorem wit_BranchesAndRejoins :
    (∀ i ∈ ([.bra { off := 0x40 }, .bra {}, .brx { off := 0x40 }, .jenr { d := 7 }, .jstrk { d := 0 }, .jwait { d := 3 }] : List Instr),
      J.mayIssue i) ∧
    (∃ r, checkWords 0 isHeader id [0x1048] (J.begun (.bra { off := 0x40 })) = .inr r ∧ true = true) ∧
    (∃ e, checkWords 0 isHeader id [0x1008] (J.begun (.bra {})) = .inl e ∧ (match e with | .fault c _ => c == .clause | _ => false) = true) ∧
    targetsOf ((J.wave 0).group) (fun _ => 0x1048) = [0x1048] :=
  ⟨may_all _ _ (by decide), inr_of _ (fun _ => true) (by decide), inl_of _ _ (by decide), by decide⟩

theorem wit_CallsAndReturns :
    let i := Instr.call { off := 0x40 }
    J.mayIssue i ∧ J.mayIssue (.ret {}) ∧
    (∃ r, checkWords 0 isHeader id [0x1048] (J.begun i) = .inr r ∧ (match checkWords 0 (fun f => (funcWord f).isSome) (· + 8) [0x1040] r.1 with
      | .inr q => q.2.all fun f => decide (8 * ((funcWord f).getD 0 + 1) ≤ (J.wave 0).allot)
      | .inl _ => false) = true) ∧
    (let s := st { wave0 with group := 0xFF, kreg := [(1, 0xF)] }
     (s.wave 0).group &&& (s.wave 0).pred 1 false ≠ (s.wave 0).group ∧ (s.wave 0).calls.length < 8) ∧
    (M { wave0 with sreg := [(60, 0x1048)] } [(0x1048, 0xF100000000000000)]).mayIssue (.ret {}) ∧
    (∃ e, checkWords 0 isHeader id [0x1008] (J.begun (.ret {})) = .inl e ∧ (match e with | .fault c _ => c == .clause | _ => false) = true) ∧
    (J.mayIssue (.call {}) ∧ targetsOf (J.wave 0).group (fun _ => BitVec.ofNat 64 (J.wave 0).pc) = [0x1008] ∧
      ∃ s1 h, (J.begun (.call {})).fetchWave 0 0x1008 = .ok s1 h ∧ decide (isHeader h = false) = true) ∧
    (let s := M wave0 [(0x1048, 0xF100000000000000)]
     s.mayIssue i ∧ ∃ r, checkWords 0 isHeader id [0x1048] (s.begun i) = .inr r ∧ (match r.1.fetchWave 0 0x1040 with
       | .ok _ f => (funcWord f).isNone | _ => false) = true) ∧
    (let s := M { wave0 with breg := 8 } [(0x1048, 0xF100000000000000), (0x1040, 0x0F00070000000000)]
     s.mayIssue i ∧ ∃ r, checkWords 0 isHeader id [0x1048] (s.begun i) = .inr r ∧
       (match checkWords 0 (fun f => (funcWord f).isSome) (· + 8) [0x1040] r.1 with
        | .inr q => q.2.all fun f => decide ((s.wave 0).allot < 8 * ((funcWord f).getD 0 + 1)) | .inl _ => false) = true) :=
  ⟨may_of _ _ (by decide), may_of _ _ (by decide), inr_of _ _ (by decide), by decide, may_of _ _ (by decide), inl_of _ _ (by decide),
    ⟨may_of _ _ (by decide), by decide, fetch_of _ _ (by decide)⟩, ⟨may_of _ _ (by decide), inr_of _ _ (by decide)⟩,
    may_of _ _ (by decide), inr_of _ _ (by decide)⟩

theorem wit_Exit : U.mayIssue (.exit {}) ∧ (st { wave0 with group := 0x8000000F }).mayIssue (.exit { pr := 1 }) :=
  ⟨may_of _ _ (by decide), may_of _ _ (by decide)⟩

/-- A crew with weir 15 armed with 2 and one arrival, and weir 3 armed with 1. -/
def W : State := st wave0 { st := .running, nwave := 2, spbN := 1, weirs := [(3, { armed := 1 }), (15, { armed := 2, a := 1 })] }

theorem wit_Barriers :
    (∀ i ∈ ([.weirset { imm := 0x2000 }, .weirset { imm := 0x020F }, .weirset { imm := 0x030F }, .weirset { pr := 1 }, .weirarv { imm := 0x0103 },
        .weirarv { imm := 0x0203 }, .weirsync { imm := 0x020F }, .weirsync { imm := 0x010F }, .weirwait { imm := 15 }, .cbarv { imm := 3 },
        .cbwait { imm := 3 }] : List Instr), W.mayIssue i ∧ (W.actOf i = 0 ↔ i = .weirset { pr := 1 })) ∧
    ((W.crew 0).weir 0).a = 0 ∧ ((W.crew 0).weir 15).a = 1 ∧ ((W.crew 0).weir 15).armed = 2 ∧ ((W.crew 0).weir 3).armed = 1 ∧
    ((W.wave 0).held = [] ∧ ∀ f ∈ (W.wave 0).fences, f.1 ≠ 2) ∧
    (let s := st { wave0 with cbLast := [(3, 0)] } { st := .running, nwave := 1, cbars := [(3, { arrived := [0] })] }
     tfind (s.wave 0).cbLast 3 = some (s.cbar 0 3).p ∧ 0 ∈ (s.cbar 0 3).arrived ∧ ∀ j ∈ s.unitWaves 0, j ∈ (s.cbar 0 3).arrived) ∧
    (∀ b ∈ [true, false], let s := W.modWave 0 fun w => { w with held := [{ held0 with fifo := b }] }
     (s.mayIssue (.weirarv { imm := 0x0103 }) ∧ s.mayIssue (.cbarv { imm := 3 })) ∧ (s.wave 0).missHeld = !b ∧ (s.wave 0).held ≠ []) :=
  ⟨fun i h => ⟨may_all W _ (by decide) i h, by revert i; decide⟩, by decide, by decide, by decide, by decide, by decide, by decide,
    fun b h => ⟨⟨may_of _ _ (by revert b; decide), may_of _ _ (by revert b; decide)⟩, by revert b; decide⟩⟩

theorem wit_TilesAndBlocks :
    let s := st { wave0 with breg := 32 } { st := .running, nwave := 1, xblk := 1, sched := [5] }
    (∀ i ∈ ([.nexttile { d := 3 }, .nexttile { pr := 1, d := 3 }, .acqx { imm := 1 }, .acqx { imm := 4 }, .acqx { pr := 1, imm := 1 }, .relx {}] :
        List Instr), s.mayIssue i) ∧
    s.actOf (.acqx { imm := 1 }) ≠ 0 ∧ s.actOf (.nexttile { pr := 1, d := 3 }) = 0 ∧
    (s.wave 0).xb = 0 ∧ (s.crew 0).carved (quadOf 0) < 4 ∧ 1 ≤ (s.crew 0).carved (quadOf 0) ∧ (s.quad 0).acq = [] ∧ 1 ≤ s.poolFree 0 (quadOf 0) ∧
    (let t := st { wave0 with park := some (.acqx 1), parkI := some (.acqx { imm := 1 }) }
     let u := t.modQuad 0 0 fun y => { y with acq := [0] }
     (tget (u.core 0).quads {} 0).acq = [0] ∧ (u.wave 0).park = some (.acqx 1) ∧ (u.wave 0).parkI = some (.acqx { imm := 1 }) ∧ (u.wave 0).stopped = false ∧ u.clockOn 0 = true) :=
  ⟨may_all _ _ (by decide), by decide, by decide, by decide, by decide, by decide, by decide, by decide, by decide⟩

theorem wit_SpecialAndScopeWords :
    let s := M { wave0 with sreg := [(4, 0x2000)], v := [(2, all 3)] }
    (∀ i ∈ ([.srd { d := 6, imm := 0x80000022 }, .srd { d := 6, imm := 0x010 }, .swr { a := 2, imm := 0 }, .swr { a := 2, imm := 1 },
        .swr { a := 2, imm := 4 }, .swr { a := 2, imm := 5 }, .scw { ar := 4, sc := 15 }, .scr { ar := 4, sc := 0 }, .scack { sc := 15 },
        .scack { sc := 0 }] : List Instr), s.mayIssue i ∧ s.actOf i ≠ 0) ∧
    s.mayIssue (.swr { pr := 1, a := 2 }) ∧ s.actOf (.swr { pr := 1, a := 2 }) = 0 ∧ s.gateOpen 0 ∧ s.ctxOf 0 = some 0 ∧
    sregNum { a := 2, imm := 1 } = 1 ∧ (s.wave 0).rvn 2 1 0 % 8 < 5 ∧ 5 ≤ (M { wave0 with v := [(2, all 5)] } |>.wave 0).rvn 2 1 0 % 8 ∧
    (∃ r, (s.begun (.scw { ar := 4, sc := 15 })).wordAccess 0 0x2000 64 .read = .inr r ∧
      ((r.1.readWords 0 r.2.1 r.2.2 8).2.imageOk 0 (scopeOfImage (r.1.readWords 0 r.2.1 r.2.2 8).1)) = true) ∧
    (∃ r, (s.begun (.scr { ar := 4, sc := 0 })).wordAccess 0 0x2000 64 .write = .inr r ∧ true = true) ∧
    (∃ img, ((s.begun (.scr { ar := 4, sc := 0 })).scopeTarget 0).bind (fun o => (s.begun (.scr { ar := 4, sc := 0 })).scrImage o 0) = some img ∧ true = true) ∧
    (∀ e ∈ s.waves, e.2.carriesOld 15 (s.scopeEnt 0 15).epoch = false) ∧ s.savedOld 0 15 = false :=
  ⟨fun i h => ⟨may_all _ _ (by decide +kernel) i h, by revert i; decide⟩, may_of _ _ (by decide +kernel), by decide +kernel, ⟨by decide +kernel, by decide +kernel⟩, by decide +kernel, by decide +kernel,
    by decide +kernel, by decide +kernel, inr_of _ _ (by decide +kernel), inr_of _ (fun _ => true) (by decide +kernel), some_of _ (fun _ => true) (by decide +kernel), by decide +kernel, by decide +kernel⟩

/-- Whether a memory word's lanes can be performed at once, and what of their places. -/
def readyB (s : State) (i : Instr) (p : List (LaneAcc × Nat × Nat) → Bool) : Bool :=
  (accFault (accSize i) (accLanes i (s.wave s.cur))).isNone &&
    match trLanes s.cur (accSize i) (accOf i) (accLanes i (s.wave s.cur)) (s.begun i) with
    | .ok s0 tr =>
      let s1 := s0.stampLanes i s.cur tr
      let ls := s1.servedLanes (accOf i) s.cur (accSize i) tr
      !s1.accHeld i s.cur tr && (s1.accEcc (accOf i) i s.cur tr).isNone && (s1.waitingLanes (accOf i) s.cur (accSize i) ls).isEmpty && p ls
    | _ => false

theorem ready_of (s : State) (i : Instr) (p : List (LaneAcc × Nat × Nat) → Bool) (h : readyB s i p = true) :
    ∃ s1 ls, s.accReady i s1 ls ∧ p ls = true := by
  simp only [readyB, Bool.and_eq_true, Option.isNone_iff_eq_none] at h
  obtain ⟨h0, h⟩ := h
  split at h
  · rename_i s0 tr e
    simp only [Bool.and_eq_true, Bool.not_eq_true', Option.isNone_iff_eq_none, List.isEmpty_iff] at h
    exact ⟨_, _, ⟨h0, s0, tr, e, rfl, h.1.1.1, h.1.1.2, rfl, h.1.2⟩, h.2⟩
  · cases h

/-- A wave with addresses: [s4:5] = 0x2000, inside its page; [s8:9] and [v6:7] outside it; v2 and v3 a pair of addresses inside. -/
def A : State := M { wave0 with sreg := [(4, 0x2000), (8, 0x200000)], v := [(2, all 0x2010), (6, all 0x200000)] }

/-- `A` with a TLB given, and in its tables one page of 2 MiB, at 0x200000 in both spaces, that may be read and not written. -/
def V (tlb : List TlbEnt) : State :=
  let s := { A with pkg := { A.pkg with tlb := tlb } }
  let s := (((s.poke64 dtBase (2 ^ 63)).poke64 (dtBase + 8) 0x10000).poke64 ptBase (2 ^ 63)).poke64 (ptBase + 64) (2 ^ 63 + 2 ^ 21)
  ((((s.poke64 (ptBase + 72) 1).poke64 0x10000 0x11001).poke64 0x11000 0x12001).poke64 0x12000 0x13001).poke64 0x13008 0x200113

theorem wit_LoadsAndStores :
    (∀ i ∈ ([.ldVector .b64 { d := 8, ar := 2 }, .stVector .b32 { d := 8, ar := 2 }, .ldScalar .i16 { d := 8, ar := 4 },
        .stScalar .b64 { d := 8, ar := 4, off := 0x7FF8 }, .ldScalar .b32 { d := 8, ar := 4, off := 1 }, .ldVector .b32 { d := 8, ar := 6 }] :
      List Instr), plainAcc i = true ∧ A.mayIssue i) ∧ A.gateOpen 0 ∧
    (∃ s1 tr, A.accReady (.ldVector .b64 { d := 8, ar := 2 }) s1 tr ∧ decide (tr.length = 32) = true) ∧
    (∃ s1 tr, A.accReady (.stScalar .b64 { d := 8, ar := 4, off := 0x7FF8 }) s1 tr ∧ decide (tr.map (·.2) = [(0x109FF8, 0)]) = true) ∧
    accFault 4 (accLanes (.ldScalar .b32 { d := 8, ar := 4, off := 1 }) (A.wave 0)) = some (.align, 0x2001) ∧
    (accFault 4 (accLanes (.ldVector .b32 { d := 8, ar := 6 }) (A.wave 0)) = none ∧
      (match trLanes 0 4 .read (accLanes (.ldVector .b32 { d := 8, ar := 6 }) (A.wave 0)) (A.begun (.ldVector .b32 { d := 8, ar := 6 })) with
        | .miss va => va == 0x200000 | _ => false) = true) ∧
    A.ctxOf 0 = some 0 ∧
    (let i := Instr.stScalar .b64 { d := 8, ar := 8 }
     let s := V [{ page0 with va := 0x200000, pa := 0x200000, size := 0x200000, wr := false }]
     s.mayIssue i ∧ accFault 8 (accLanes i (s.wave 0)) = none ∧ (match trLanes 0 8 .write (accLanes i (s.wave 0)) (s.begun i) with
        | .bad c det known => c == .access && det == 0x200000 && known | _ => false) = true) ∧
    (let i := Instr.stScalar .b64 { d := 8, ar := 8 }
     let s := V []
     s.mayIssue i ∧ accFault 8 (accLanes i (s.wave 0)) = none ∧ (match trLanes 0 8 .write (accLanes i (s.wave 0)) (s.begun i) with
        | .bad c det known => c == .access && det == 0x200000 && !known | _ => false) = true) ∧
    (∀ i ∈ ([.stScalar .b64 { d := 8, ar := 4 }, .ldScalar .b64 { d := 8, ar := 4 }] : List Instr),
      let s := { A with pkg := { A.pkg with lineBad := [(0, 0x102000 / 128)] } }
      s.mayIssue i ∧ (match trLanes 0 8 (accOf i) (accLanes i (s.wave 0)) (s.begun i) with
        | .ok s1 tr => !s1.accHeld i 0 tr && (s1.accEcc (accOf i) i 0 tr).any fun r => r.1 == 0x102000 / 128 | _ => false) = true) ∧
    (let s := A.modWave 0 fun w => { w with held := [held0] }
     s.mayIssue (.ldScalar .b32 { d := 8, ar := 4 }) ∧ (s.wave 0).missHeld = true) ∧
    (let s := A.modWave 0 fun w => { w with held := [{ held0 with fifo := true }] }
     s.mayIssue (.atom .add { d := 8, ar := 2 }) ∧ (s.wave 0).missHeld = false ∧ (s.wave 0).held ≠ []) :=
  ⟨fun i h => ⟨by revert i; decide +kernel, may_all _ _ (by decide +kernel) i h⟩, ⟨by decide +kernel, by decide +kernel⟩, ready_of _ _ _ (by decide +kernel), ready_of _ _ _ (by decide +kernel),
    by decide +kernel, by decide +kernel, by decide +kernel, ⟨may_of _ _ (by decide +kernel), by decide +kernel, by decide +kernel⟩, ⟨may_of _ _ (by decide +kernel), by decide +kernel, by decide +kernel⟩,
    fun i h => ⟨may_all _ _ (by decide +kernel) i h, by revert i; decide +kernel⟩, ⟨may_of _ _ (by decide +kernel), by decide +kernel⟩,
    may_of _ _ (by decide +kernel), by decide +kernel, by decide +kernel⟩

/-- `A` with its page in the memory of another die, whose clock is stopped. -/
def Ax : State := { A with pkg := { A.pkg with tlb := [{ page0 with pa := 0x1800000000 }], l2 := [(16, [{ line := 0x30000040, polder := 0 }])] } }.modDie 1
    fun d => { d with rel := true }

/-- `A` with its page in the memory of peer 0 of its polder, at port 0, which is retraining. -/
def Ap : State :=
  let s := { A with pkg := { A.pkg with tlb := [{ page0 with pa := 0xC000000000000 }], ports := [(0, { down := true })] } }
  ((s.poke64 ptBase (2 ^ 63)).poke64 (ptBase + 16) (2 ^ 32 + 1)).poke64 (ptBase + 192) 0x80000005

theorem wit_LoadsAndStores_waits :
    (∀ i ∈ ([.ldScalar .b64 { d := 8, ar := 4 }, .stScalar .b64 { d := 8, ar := 4 }, .atom .add { d := 8, ar := 2 }] : List Instr),
      Ax.mayIssue i ∧ Ap.mayIssue i) ∧ Ax.gateOpen 0 ∧ Ap.gateOpen 0 ∧
    (let i := Instr.atom .add { d := 8, ar := 2 }
     match trLanes 0 4 .rmw (accLanes i (Ax.wave 0)) (Ax.begun i) with
     | .ok s tr => s.accHeld i 0 tr && (s.accDry i 0 false tr).isNone | _ => false) = true ∧
    (let i := Instr.ldScalar .b64 { d := 8, ar := 4 }
     match trLanes 0 8 .read (accLanes i (Ap.wave 0)) (Ap.begun i) with
     | .ok s tr => !s.accHeld i 0 tr && (s.accEcc .read i 0 tr).isNone && !(s.waitingLanes .read 0 8 (s.servedLanes .read 0 8 tr)).isEmpty
     | _ => false) = true ∧
    (let i := Instr.ldScalar .b64 { d := 8, ar := 8 }
     let s := ((V []).poke64 (dtBase + 8) 0x1800010000).modDie 1 fun d => { d with rel := true }
     (match trLanes 0 8 .read (accLanes i (s.wave 0)) (s.begun i) with | .busy => true | _ => false) = true) ∧
    (let i := Instr.ldScalar .b64 { d := 8, ar := 4 }
     let s : State := { A with cur := 252 * 512, waves := [(252 * 512, A.wave 0)], pkg := { A.pkg with tlb := [] } }
     s.ctxOf s.cur = none ∧ (match trLanes s.cur 8 .read (accLanes i (s.wave s.cur)) (s.begun i) with | .miss _ => true | _ => false) = true) :=
  ⟨fun i h => ⟨may_all _ _ (by decide +kernel) i h, may_all _ _ (by decide +kernel) i h⟩,
    ⟨by decide +kernel, by decide +kernel⟩, ⟨by decide +kernel, by decide +kernel⟩,
    by decide +kernel, by decide +kernel, by decide +kernel, by decide +kernel, by decide +kernel⟩

theorem dry_of (s : State) (i : Instr) (k : Key) (l : LaneAcc) (pa home : Nat) (c : Nat × Nat) (hd : home ≠ devHome)
    (ha : s.asksToken (s.ctxOf k) (coreOf k) pa (accSize i) home (accOf i) = some c) (hb : s.bucket c.2 c.1 = 0) :
    s.accDry i k false [(l, pa, home)] = some c := by
  simp [State.accDry, hd, ha, State.dryFor, hb, List.dedup_cons_of_notMem]

theorem wit_LoadsAndStores_dry :
    let i := Instr.ldScalar .b64 { d := 8, ar := 4 }
    let s := { A with pkg := { A.pkg with l2 := [] } }
    ∃ s0 tr d, trLanes 0 8 .read (accLanes i (s.wave 0)) (s.begun i) = .ok s0 tr ∧ s0.accDry i 0 false tr = some d ∧ tfind (s0.crew 0).thr 5 = none :=
  ⟨_, _, _, rfl, dry_of _ _ _ _ _ _ _ (by decide) rfl rfl, rfl⟩

theorem wit_StoredBytes :
    let i := Instr.stScalar .b64 { d := 8, ar := 4 }
    let j := Instr.ldScalar .i8 { d := 8, ar := 4, off := 0x7FFF }
    A.mayIssue i ∧ A.mayIssue j ∧ A.gateOpen 0 ∧ A.actOf i ≠ 0 ∧ A.actOf j ≠ 0 ∧
    (∃ s1 tr, A.accReady i s1 tr ∧ decide (tr = [({ lane := 0, live := true, e := 0x2000, data := 0x200000 }, 0x102000, 0)]) = true) ∧
    (∃ s1 tr, A.accReady j s1 tr ∧ decide (tr = [({ lane := 0, live := true, e := 0x9FFF, data := 0 }, 0x109FFF, 0)]) = true) ∧
    A.mayOverfill 0 = false ∧ (A.touch (some 0) 0 0 0x102000 8 0).holdsAll 0 0x102000 8 = false ∧
    ({ A with pkg := { A.pkg with dcache := [(0, (List.range 8).map fun n => (0x102000 + n, { val := 1, dirty := true, writer := 0 }))] } } :
      State).holdsAll 0 0x102000 8 = true ∧
    memWf A.mem = true ∧ A.writesPlain (some 0) 0x102000 ∧ plainBytes 0x102000 64 ∧
    (∃ s, s = A.poke64 (dtBase + 40) (2 ^ 63) ∧ regionOf 0x8000000000000 = .host ∧ s.ctxExtw 0 = true) :=
  ⟨may_of _ _ (by decide +kernel), may_of _ _ (by decide +kernel), ⟨by decide +kernel, by decide +kernel⟩, by decide +kernel, by decide +kernel,
    ready_of _ _ _ (by decide +kernel), ready_of _ _ _ (by decide +kernel), by decide +kernel, by decide +kernel, by decide +kernel, by decide +kernel,
    fun x h => by obtain rfl := (Option.some.inj h).symm; decide +kernel,
    Or.inr fun a h => by simp only [within, dtBase] at h ⊢; omega, _, rfl, by decide +kernel, by decide +kernel⟩

theorem watchOk_of (r : WatchRead) (p : Tab Nat → Bool) (h : (match r with | .ok _ v => !p v | _ => false) = true) :
    ∃ s v, r = .ok s v ∧ p v = false := by
  cases r <;> first | exact ⟨_, _, rfl, by simpa using h⟩ | cases h

theorem watchWait_of (r : WatchRead) (h : (match r with | .wait _ => true | _ => false) = true) : ∃ s, r = .wait s := by
  cases r <;> first | exact ⟨_, rfl⟩ | cases h

theorem watchMiss_of (r : WatchRead) (h : (match r with | .miss _ => true | _ => false) = true) : ∃ va, r = .miss va := by
  cases r <;> first | exact ⟨_, rfl⟩ | cases h

theorem wit_AtomicsAndWatches :
    let i := Instr.atom .add { d := 8, ar := 2, sc := 5 }
    let j := Instr.ldwatch 10 { d := 8, ar := 2, sc := 4 }
    A.mayIssue i ∧ atomAcc i = some { d := 8, ar := 2, sc := 5 } ∧ A.gateOpen 0 ∧ (∃ c, (A.begun i).scopeCheck 0 15 = .inl c ∧ true = true) ∧
    (∃ r, (A.begun i).scopeCheck 0 5 = .inr r ∧ true = true) ∧ (∃ s1 tr, A.accReady i s1 tr ∧ decide (tr.length = 32) = true) ∧
    memWf A.mem = true ∧ A.ctxOf 0 = some 0 ∧ A.writesPlain (A.ctxOf 0) 0x102010 ∧ plainBytes 0x102010 8 ∧
    A.mayIssue j ∧ A.actOf j ≠ 0 ∧ (∃ r, (A.begun j).scopeCheck 0 4 = .inr r ∧ true = true) ∧
    (A.mayIssue (.ldwatch 0 { pr := 1, d := 8, ar := 2 }) ∧ A.actOf (.ldwatch 0 { pr := 1, d := 8, ar := 2 }) = 0) ∧
    accFault 4 (ldwatchLanes { d := 8, ar := 2, sc := 4 } (A.wave 0)) = none ∧
    (match trLanes 0 4 .read (ldwatchLanes { d := 8, ar := 2, sc := 4 } (A.wave 0)) (A.begun j) with
      | .ok s1 tr => !s1.accStuck (watchAcc .cluster) j 0 tr && (s1.accEcc (watchAcc .cluster) j 0 tr).isNone &&
          (s1.waitingLanes (watchAcc .cluster) 0 4 (s1.servedLanes (watchAcc .cluster) 0 4 tr)).isEmpty | _ => false) = true ∧
    (Ap.mayIssue j ∧ ∃ s2, (Ap.begun j).watchReads 10 { d := 8, ar := 2, sc := 4 } 0 (Ap.readWave j) ((Ap.begun j).scopeInst 0 4 0).meet = .wait s2) ∧
    (let s := M { wave0 with v := [(2, all 0x2010)], park := some (.ldwatch (some 5) 0), parkI := some j }
     (s.wave 0).park = some (.ldwatch (some 5) 0) ∧ (s.wave 0).parkI = some j ∧ (s.wave 0).stopped = false ∧ s.clockOn 0 = true ∧
     (∃ s2 vals, s.watchReads 10 { d := 8, ar := 2, sc := 4 } 0 (s.wave 0) (s.scopeInst 0 4 0).meet = .ok s2 vals ∧
       watchChanged { d := 8, ar := 2, sc := 4 } (s.wave 0) vals = false)) ∧
    (∃ s2 vals, (A.begun j).watchReads 10 { d := 8, ar := 2, sc := 4 } 0 (A.readWave j) ((A.begun j).scopeInst 0 4 0).meet = .ok s2 vals ∧
      watchChanged { d := 8, ar := 2, sc := 4 } (A.wave 0) vals = false) ∧
    (let j := Instr.ldwatch 10 { d := 8, ar := 6, sc := 4 }
     A.mayIssue j ∧ ∃ va, (A.begun j).watchReads 10 { d := 8, ar := 6, sc := 4 } 0 (A.readWave j) ((A.begun j).scopeInst 0 4 0).meet = .miss va) :=
  ⟨may_of _ _ (by decide +kernel), by decide +kernel, ⟨by decide +kernel, by decide +kernel⟩, inl_of _ (fun _ => true) (by decide +kernel), inr_of _ (fun _ => true) (by decide +kernel),
    ready_of _ _ _ (by decide +kernel), by decide +kernel, by decide +kernel,
    fun x h => by obtain rfl := (Option.some.inj (show some 0 = some x from h)).symm; decide +kernel,
    Or.inr fun a h => by simp only [within, dtBase] at h ⊢; omega,
    may_of _ _ (by decide +kernel), by decide +kernel, inr_of _ (fun _ => true) (by decide +kernel), ⟨may_of _ _ (by decide +kernel), by decide +kernel⟩,
    by decide +kernel, by decide +kernel, ⟨may_of _ _ (by decide +kernel), watchWait_of _ (by decide +kernel)⟩, ⟨by decide +kernel, by decide +kernel, by decide +kernel, by decide +kernel, watchOk_of _ _ (by decide +kernel)⟩, watchOk_of _ _ (by decide +kernel),
    may_of _ _ (by decide +kernel), watchMiss_of _ (by decide +kernel)⟩

theorem wit_FencesAndCaches :
    (∀ i ∈ ([.fence { sc := 5, off := 0x6000 }, .cflush { d := 2, ar := 4, sc := 4 }, .cinv { d := 2, ar := 4, sc := 4 }, .pfence { d := 1, ar := 2 },
        .pref .l1 { ar := 2 }, .icpre false { d := 2, ar := 4 }, .icpin true { d := 2, ar := 4 }, .icunpin true { d := 2, ar := 4 }] : List Instr),
      A.mayIssue i) ∧ A.gateOpen 0 ∧ A.gateOpen 8 ∧ (∀ d, (A.die d).rel = false) ∧
    (∃ r, (A.begun (.fence { sc := 5, off := 0x6000 })).scopeCheck 0 5 = .inr r ∧ true = true) ∧
    (∃ r, (A.begun (.cflush { d := 2, ar := 4, sc := 4 })).scopeCheck 0 4 = .inr r ∧ decide (r.2.meet = .home) = true) ∧
    (let s := A.modCore 0 fun y => { y with copyq := [{ cmd := {}, cslot := 0, wave := 0, id := 7, st := .running }] }
     s.mayIssue (.pfence { d := 1, ar := 2 }) ∧ s.gateOpen 8 ∧ s.actOf (.pfence { d := 1, ar := 2 }) ≠ 0 ∧ s.waveCopies 0 = [7] ∧
       A.waveCopies 0 = []) :=
  ⟨may_all _ _ (by decide), ⟨by decide, by decide⟩, ⟨by decide, by decide⟩, fun _ => rfl, inr_of _ (fun _ => true) (by decide), inr_of _ _ (by decide),
    may_of _ _ (by decide), ⟨by decide, by decide⟩, by decide⟩

theorem wit_FencesAndCaches_range :
    let x : MF := { d := 2, ar := 4, sc := 4 }
    let s := (({ V [] with waves := [(0, { wave0 with sreg := [(2, 0x100), (4, 0x200000)] })] } : State).poke64 (dtBase + 8) 0x1800010000).modDie 1
      fun d => { d with rel := true }
    A.actOf (.cinv x) ≠ 0 ∧ A.actOf (.icpin true { x with pr := 1 }) = 0 ∧ s.actOf (.cinv x) ≠ 0 ∧ s.mayIssue (.cinv x) ∧
    (∃ r, (A.begun (.cinv x)).wordRange 0 x .any = some r ∧ true = true) ∧ (s.begun (.cinv x)).wordRange 0 x .any = none :=
  ⟨by decide +kernel, by decide +kernel, by decide +kernel, may_of _ _ (by decide +kernel), some_of _ (fun _ => true) (by decide +kernel), by decide +kernel⟩

theorem wit_Scratchpad_waits :
    let s := st { wave0 with group := 1, v := [(2, all 0x1FF8)] } { st := .running, nwave := 1, spbN := 1, spb := [(0, { st := .full })], sp := [(0x7FE, { full := true })] }
    let i := Instr.lds .full .b32 { d := 8, ar := 2, off := 4 }
    let j := Instr.sts true .b32 { d := 8, ar := 2 }
    s.mayIssue i ∧ s.mayIssue j ∧ (ldsLanes .full 1 { d := 8, ar := 2, off := 4 } (s.begun i) 0 (s.readWave i) (s.actOf i)).2.2 ≠ 0 ∧
    (stsLanes true 1 { d := 8, ar := 2 } (s.begun j) 0 (s.readWave j) (s.actOf j)).2 ≠ 0 :=
  ⟨may_of _ _ (by decide +kernel), may_of _ _ (by decide +kernel), by decide +kernel, by decide +kernel⟩

theorem wit_Scratchpad :
    let s := st { wave0 with group := 1, sreg := [(4, 0x1FFF)], v := [(2, all 0x1FF8), (3, all 0x2000)] }
      { st := .running, nwave := 1, spbN := 1, spb := [(0, { st := .full })], sp := [(0x7FE, { data := 3, full := true })] }
    (∀ i ∈ ([.lds .full .b64 { d := 8, ar := 2 }, .lds .plain .b32 { d := 8, ar := 3 }, .lds .take .b32 { d := 8, ar := 2, off := 4 },
        .sts true .b64 { d := 8, ar := 2 }, .sts false .b32 { d := 8, ar := 3 }] : List Instr), s.mayIssue i) ∧ s.gateOpen 0 ∧
    spFault (s.crew 0).spLimit 8 (s.wave 0) { d := 8, ar := 2 } 1 = none ∧
    (spFault (s.crew 0).spLimit 4 (s.wave 0) { d := 8, ar := 3 } 1).isSome = true ∧
    (∀ l ∈ (s.wave 0).liveOf 1, ((s.crew 0).bank ((s.wave 0).spAddr { d := 8, ar := 2 } l / 8192)).st ≠ .off ∧
      (s.crew 0).spLost ((s.wave 0).spAddr { d := 8, ar := 2 } l / 8192) = false) ∧
    (s.crew 0).tagq = [] ∧ ((s.crew 0).word 0x7FE).full = true :=
  ⟨may_all _ _ (by decide), ⟨by decide, by decide⟩, by decide, by decide, by decide, by decide, by decide⟩

theorem wit_ScratchpadBanks :
    let s := st { wave0 with sreg := [(2, 0x2000), (3, 0x1FFE), (4, 0), (5, 4), (6, 0x1FFC), (7, 1)] } { st := .running, nwave := 1, spbN := 1, spb := [(0, { st := .retain, waking := true })] }
    (∀ i ∈ ([.sptag true { d := 2, ar := 4 }, .sptag false { d := 3, ar := 4 }, .sptag true { d := 4, ar := 4 }, .sptag true { d := 2, ar := 5 },
        .sptag true { pr := 1, d := 2, ar := 4 }, .spdrop { d := 7 }] : List Instr), s.mayIssue i) ∧ s.gateOpen 0 ∧
    s.actOf (.sptag true { d := 2, ar := 4 }) ≠ 0 ∧ s.actOf (.sptag true { pr := 1, d := 2, ar := 4 }) = 0 ∧
    (s.wave 0).spAddrS { d := 2, ar := 4 } = 0 ∧ (s.wave 0).spAddrS { d := 2, ar := 5 } + 0x2000 > (s.crew 0).spLimit ∧
    s.copyPends 0 0 = false ∧ ((s.crew 0).bank 0).waking = true ∧ (s.crew 0).spLost 0 = false ∧
    (let c : Crew := { st := .running, nwave := 1, spbN := 1, spb := [(0, { st := .full, taken := true })], spauto := 1 }
     (st wave0 c).dropDue 0 0 = true) ∧
    (let t := st { wave0 with park := some (.sleep 1000) } { st := .running, nwave := 1, spbN := 1, spb := [(0, { st := .full })] }
     let t := { t.poke64 (dtBase + 16) 5 with reft := 100000 }
     ((t.crew 0).bank 0).st = .full ∧ t.retth 0 ≠ 0 ∧ t.crewQuiet 0 (t.retth 0) = true ∧ t.copyPends 0 0 = false) :=
  ⟨may_all _ _ (by decide), ⟨by decide, by decide⟩, by decide, by decide, by decide, by decide, by decide, by decide, by decide, by decide, by decide⟩

theorem beat_of {α : Type} (r : BeatRes α) (p : State → α → Bool) (h : (match r with | .ok s a => p s a | .halt _ => false) = true) :
    ∃ s a, r = .ok s a ∧ p s a = true := by
  cases r with
  | ok s a => exact ⟨s, a, rfl, h⟩
  | halt x => cases h

theorem halt_of {α : Type} (r : BeatRes α) (p : Halt → Bool) (h : (match r with | .halt x => p x | .ok _ _ => false) = true) :
    ∃ x, r = .halt x ∧ p x = true := by
  cases r with
  | halt x => exact ⟨x, rfl, h⟩
  | ok s a => cases h

/-- A sequencer that runs, with ma0 = 0x2000 in the page; tile 4 is another crew's. Operand-buffer records 0 and 1 are its own. -/
def Q : State :=
  let s := M wave0
  { s with onSeq := true,
           crews := [(0, { st := .running, nwave := 1, spbN := 1, seq := { st := .run, mpc := 0x1000, ma := [(0, 0x2000)], seen := [(1, 4)] },
                           weirs := [(1, { armed := 1, p := 5 }), (2, { armed := 33, a := 32 })] })],
           cores := [(0, { tiles := [(4, { own := some 1 })], obrec := [(0, { v := true, len := 16 }), (1, { v := true, base := 16, len := 16 })],
                           island := { mode := .over } })] }

theorem wit_StreamWords :
    (∀ i ∈ ([.azero { acc := 3 }, .aadd { acc := 3, ta := 0, tb := 15 }, .acvt { acc := 4 }, .aloadTile { acc := 3 }, .aloadMa { acc := 7 },
        .astore .f16 { acc := 3 }, .scld true 0 4095 0 0, .mchk 7 0 0, .msrd 8 0 0, .mregion 2, .mloop 3 0 8, .mjmp 15 8, .mend, .inj 0 0 63 63 31] :
        List Instr), Q.seqReady i) ∧ (∀ n ∈ [3, 0, 15], (Q.core 0).tileForeign 0 n = false) ∧
    [0, 4].find? (fun n => (Q.core 0).tileForeign 0 n) = some 4 ∧
    maCheck ((Q.crew 0).seq.maReg 0) 16 = none ∧ maCheck ((Q.crew 0).seq.maReg 0) 32 = none ∧ (Q.crew 0).seq.rows = [] ∧
    (∃ s1 ps, seqParts 0 0 .read (rowParts 0x2000 (strBytes { str := 16 }) 256 16) Q = .ok s1 ps ∧
      (partsBlocked s1 (some 0) 0 .read (rowParts 0x2000 (strBytes { str := 16 }) 256 16) ps).isNone = true) ∧
    (∃ s1 ps, seqParts 0 0 .write (rowParts 0x2000 (strBytes { str := 8 }) (rowBytes .f16) 16) Q = .ok s1 ps ∧
      (partsBlocked s1 (some 0) 0 .write (rowParts 0x2000 (strBytes { str := 8 }) (rowBytes .f16) 16) ps).isNone = true) ∧
    (∃ s1 ps, seqParts 0 0 .read [0x2000] Q = .ok s1 ps ∧ (partsBlocked s1 (some 0) 0 .read [0x2000] ps).isNone = true) ∧
    (4095 : BitVec 12).toNat + ((0 : BitVec 12).toNat + 1) ≤ 4096 ∧
    (∃ s1 ps, seqParts 0 0 .write ((List.range 32).map fun j => 0x2000 + 8 * j) Q = .ok s1 ps ∧
      (partsBlocked s1 (some 0) 0 .write ((List.range 32).map fun j => 0x2000 + 8 * j) ps).isNone = true) ∧
    (let s := (Q.poke64 ptBase (2 ^ 63)).poke64 (ptBase + 8) 0xFF |>.poke64 dtBase (2 ^ 63 + 2 ^ 62)
     s.ctxDbg 0 = true) ∧ Q.ctxDbg 0 = false :=
  ⟨fun i h => ⟨rfl, by revert i; decide⟩, by decide +kernel, by decide +kernel, by decide +kernel, by decide +kernel, by decide +kernel, beat_of _ _ (by decide +kernel), beat_of _ _ (by decide +kernel),
    beat_of _ _ (by decide +kernel), by decide +kernel, beat_of _ _ (by decide +kernel), by decide +kernel, by decide +kernel⟩

theorem wit_StreamMeetings :
    Q.seqReady (.marv 1 1) ∧ Q.seqReady (.marv 2 33) ∧ Q.seqReady (.mwait 1) ∧ Q.seqReady (.mwait 2) ∧
    ((Q.crew 0).weir 1).armed = 1 ∧ ((Q.crew 0).weir 2).armed = 33 ∧
    (((Q.crew 0).weir 1).p - tget (Q.crew 0).seq.seen 0 1).toNat = 1 ∧ (((Q.crew 0).weir 2).p - tget (Q.crew 0).seq.seen 0 2).toNat = 0 :=
  ⟨⟨rfl, by decide⟩, ⟨rfl, by decide⟩, ⟨rfl, by decide⟩, ⟨rfl, by decide⟩, by decide, by decide, by decide, by decide⟩

/-- A product of crew 0 that accumulates onto tile 3. -/
def prod (mode : Nat) : Product :=
  { cslot := 0, word := 0, mpc := 0x1000, mode := mode, fmt := 0, scaled := false, blk := 16, acc := 3, zero := true, hold := false, ra := 0,
    rb := 1, aoff := 0, aUnit := 0, bUnit := 0, aIdx := [], bIdx := [], latched := false, kept := false, back := {} }

/-- An attempt without operands. -/
def att (mode : Nat) (phase : MmaPhase := .attempt) (num : Nat := 1) : Attempt :=
  { prod mode with phase := phase, num := num, aOp := [], bOp := [], aSc := [], bSc := [], old := List.replicate 4096 0,
                   got := List.replicate 4096 0, below := false, counted := false }

/-- `Q` with an attempt in its engine. -/
def Qa (m : Attempt) (mode : IslandMode := .over) : State :=
  Q.modCore 0 fun y => { y with attempt := some m, island := { y.island with mode := mode } }

theorem wit_MatrixProducts :
    let q : QF := { acc := 3, ra := 0, rb := 1, z := true }
    mmaWord (.mmaF16 q) = some q ∧ Q.seqReady (.mmaF16 q) ∧ (∃ p, Q.mmaCheck 0 (Q.crew 0) 0 false q = .inr p ∧ true = true) ∧
    (∃ e, Q.mmaCheck 0 (Q.crew 0) 0 false { q with acc := 4 } = .inl e ∧ decide (e.1 = .access) = true) ∧ (Q.core 0).openFor 0 = false ∧
    (let s := Q.modCore 0 fun y => { y with issued := [prod 1] }
     s.mmaNext 0 = some (prod 1)) ∧
    (Q.mmaStart 0 (prod 0)).exact.length = 4096 ∧ (prod 0).mode = 0 ∧ (prod 1).mode ≠ 0 ∧ (List.replicate 4096 (0 : Word)).length = 4096 ∧
    ((Qa (att 1)).core 0).attempt = some (att 1) ∧ (att 1).phase = .attempt ∧ (Qa (att 1)).clockOn 0 = true ∧ ((Qa (att 1)).core 0).inj = none ∧
    (Qa (att 1)).seqStopped 0 0 = false ∧ (att 1 .attempt 2).num < 3 ∧ 3 ≤ (att 1 .attempt 3).num ∧ (att 2).mode = 2 ∧
    (Qa (att 1)).belowVg 0 = false ∧
    (let s := (Qa (att 1)).modCore 0 fun y => { y with inj := some { ctx := 0, tile := 3, row := 63, col := 63, bit := 31 } }
     (s.core 0).inj = some { ctx := 0, tile := 3, row := 63, col := 63, bit := 31 } ∧ (s.crew (crewKey 0 (att 1).cslot)).ctx = 0) ∧
    (att 1).got.length = 4096 ∧
    (let s := Q.modCore 0 fun y => { y with fixing := [att 1 .correct] }
     (s.core 0).fixing = [att 1 .correct] ∧ s.clockOn 0 = true) ∧
    ((Qa (att 1 .reissue) .step).core 0).island.mode = .step ∧ ((Qa (att 1 .reissue) .step).core 0).attempt = some (att 1 .reissue) ∧
    (Qa (att 1 .reissue) .step).seqStopped 0 0 = false ∧ (Qa (att 1 .reissue) .step).clockOn 0 = true ∧ (Q.core 0).attempt = none ∧
    (let s := Q.modCore 0 fun y => { y with obWait := [(1, none)] }
     s.seqReady (.mmaF16 q) ∧ (s.core 0).obPends 0 1 = true ∧ (Q.core 0).obPends 0 0 = false ∧ (Q.core 0).obPends 0 1 = false) :=
  ⟨rfl, ⟨rfl, by decide⟩, inr_of _ (fun _ => true) (by decide), inl_of _ _ (by decide), by decide, by decide, by decide +kernel, rfl, by decide,
    List.length_replicate, rfl, rfl, by decide, rfl, by decide, by decide, by decide, rfl, by decide, by decide, List.length_replicate,
    ⟨rfl, by decide⟩, rfl, rfl, by decide, by decide, rfl, ⟨rfl, by decide⟩, by decide⟩

theorem wit_TolerantRule : ((Qa (att 2)).core 0).attempt = some (att 2) ∧ (att 2).phase = .attempt ∧ (att 2).mode = 2 ∧
    (Qa (att 2)).clockOn 0 = true ∧ ((Qa (att 2)).core 0).issued = [] ∧ ((Qa (att 2)).inject 0 (att 2)).2.got.length = 4096 :=
  ⟨rfl, rfl, rfl, by decide, rfl, List.length_replicate⟩

theorem wit_RegionRule : Q.seqReady (.mregion 2) ∧ (2 : BitVec 2) ≠ 3 := ⟨⟨rfl, by decide⟩, by decide⟩

/-- The wave of the reeve core of die 0 in focus, with registers. -/
def R (sreg : Tab Word) (f : State → State := id) : State :=
  let k := waveKey (crewKey 252 0) 0
  f { State.reset with cur := k, waves := [(k, { wave0 with sreg := sreg })],
                       pkg := { State.reset.pkg with tlb := [{ page0 with ctx := 512, loc := .core 252 }] } }

/-- Makes a context valid. -/
def valid (c : Nat) (s : State) : State := (s.poke64 (dtBase + 64 * c) (2 ^ 63)).poke64 (ptBase + 512 * (c / 16)) (2 ^ 63)

theorem wit_SpecialAndScopeWords_reeve :
    let r (f : State → State) := R [(4, 0x2000)] fun s => f ((valid 0 s).modWave s.cur fun w => { w with tgtw := 2 })
    let none' := R [(4, 0x2000)]
    let here (stop : Bool) := r fun s => { s with crews := [(0, { st := .running, nwave := 1, spbN := 1 })], waves := s.waves ++ [(0, { wave0 with stopped := stop })] }
    let saved := r fun s => s.modCtx 0 fun x => { x with imgs := [{ key := 0, addr := 0x8000, launch := 0, unit := 0, rank := 0, waves := [0] }] }
    let aside := r fun s => { s with saved := [{ ctx := 0, key := 0, launch := 0, unit := 0, rank := 0, image := some [0x100] }] }
    (∀ s ∈ [none', here true, here false, saved, aside], s.ctxOf s.cur = none ∧ s.actOf (.scack { sc := 7 }) ≠ 0) ∧
    (∀ s ∈ [none', here true, here false, saved, aside], s.mayIssue (.scack { sc := 7 }) ∧ s.mayIssue (.scw { ar := 4, sc := 7 })) ∧
    none'.obj 0 = none ∧ none'.gateOpen 0 ∧ (here true).gateOpen 0 ∧
    (∀ s ∈ [here true, here false, saved, aside], s.obj ((s.wave s.cur).tgtw) = some (.wave 0 0)) ∧
    (here true).crewHere 0 0 = true ∧ ((here true).wave 0).stopped = true ∧ ((here false).wave 0).stopped = false ∧ saved.crewHere 0 0 = false ∧
    (saved.imgOf 0 0).isSome = true ∧ aside.crewHere 0 0 = false ∧ aside.imgOf 0 0 = none ∧
    (∃ a, ((here true).begun (.scw { ar := 4, sc := 7 })).wordAccess (here true).cur 0x2000 64 .read = .inr a ∧
      ((a.1.readWords 7 a.2.1 a.2.2 8).2.imageOk 0 (scopeOfImage (a.1.readWords 7 a.2.1 a.2.2 8).1)) = true) := by
  refine ⟨by decide +kernel, fun s h => ⟨may_of _ _ (by revert s; decide +kernel), may_of _ _ (by revert s; decide +kernel)⟩, by decide +kernel,
    ⟨by decide +kernel, by decide +kernel⟩, ⟨by decide +kernel, by decide +kernel⟩, by decide +kernel, by decide +kernel, by decide +kernel,
    by decide +kernel, by decide +kernel, by decide +kernel, by decide +kernel, by decide +kernel, inr_of _ _ (by decide +kernel)⟩

theorem wit_PrivilegeRules :
    (∀ i ∈ ([.tlbinv { d := 8, ar := 4 }, .ctxsave { d := 8, ar := 4 }, .flood { d := 8, ar := 4 }, .eret] : List Instr),
      U.mayIssue i ∧ (R []).mayIssue i) ∧
    isReeveCore (coreOf U.cur) = false ∧ isReeveCore (coreOf (R []).cur) = true ∧ (privWord (.ctxsave { d := 8, ar := 4 })).isSome = true ∧
    (R []).actOf (.ctxsave { d := 8, ar := 4 }) ≠ 0 ∧ (R []).actOf (.ctxsave { pr := 1, d := 8, ar := 4 }) = 0 ∧
    (((R [(4, 8)]).wave (R []).cur).addrS { d := 8, ar := 4 }).toNat % 4096 ≠ 0 ∧ (R []).obj (((R []).wave (R []).cur).handle { d := 8 }) = none ∧
    decodeWave true 0xC000000000000000 = .ok .eret ∧ (R []).relocking = false ∧
    ((R []).modDie 2 fun d => { d with rel := true }).relocking = true :=
  ⟨fun i h => ⟨may_all U _ (by decide) i h, may_all (R []) _ (by decide) i h⟩, by decide, by decide, by decide, by decide, by decide, by decide,
    by decide, by decide, by decide, by decide⟩

theorem wit_EventEntry :
    (R []).mayIssue .eret ∧ isReeveCore (coreOf (R []).cur) = true ∧ ((R []).die 0).evq = [] ∧
    (let s := (R []).event 0 0x01 0 0
     s.mayIssue .eret ∧ (∃ e r, (s.die 0).evq = e :: r ∧ e.kind ≠ 0x02)) ∧
    (let k := State.reset.cur
     (State.reset.wave k).park = some .event ∧ (State.reset.wave k).stopped = false ∧ (State.reset.wave k).held = [] ∧
       State.reset.lowestIdle k = true ∧ State.reset.clockOn (coreOf k) = true) ∧
    (∀ us ∈ ([[(.data 0, 4096)], [(.data 0, 4096), (.data 1, 8192)]] : List (List (MissWho × Nat))),
     let s := ((R []).modCtx 0 fun x => { x with unrep := us }).event 0 0x02 (ctxHandle 0) 4096
     s.mayIssue .eret ∧ s.homeDie 0 = 0 ∧ (s.ctx 0).unrep = us ∧
       ∃ e, (s.die 0).evq = [e] ∧ e.kind = 0x02 ∧ e.handle = ctxHandle (e.handle >>> 23).toNat ∧ (e.handle >>> 23).toNat = 0) :=
  ⟨may_of _ _ (by decide), by decide, by decide, ⟨may_of _ _ (by decide), _, _, rfl, by decide⟩, by decide,
    fun us h => ⟨may_of _ _ (by revert us; decide), by revert us; decide, rfl, ⟨2, ctxHandle 0, 4096, BitVec.ofNat 64 (R []).reft, 0⟩, by revert us; decide⟩⟩

theorem wit_ContextWords :
    let s := R [(4, 0x2000), (9, 0x10)] (valid 0)
    let f := R [(4, 0x2000), (9, 0x10)] fun s => (valid 0 s).modCtx 0 fun y => { y with up := true }
    (∀ i ∈ ([.tlbinv { d := 8, ar := 4 }, .stoprd { d := 8, ar := 4 }, .resume { d := 8, ar := 4 }, .flood { d := 8, ar := 4 },
        .dirtyh false { d := 8, ar := 4 }, .dirtyh true { d := 8, ar := 4 }] : List Instr),
      s.mayIssue i ∧ f.mayIssue i ∧ s.actOf i ≠ 0) ∧
    isReeveCore (coreOf s.cur) = true ∧ s.ctxOfHandle ((s.wave s.cur).handle { d := 8, ar := 4 }) = some 0 ∧
    f.ctxOfHandle ((f.wave f.cur).handle { d := 8, ar := 4 }) = some 0 ∧ ((s.wave s.cur).addrS { d := 8, ar := 4 }).toNat % 64 = 0 ∧
    (s.ctx 0).up = false ∧ (f.ctx 0).up = true ∧ (((f.begun (.resume { d := 8, ar := 4 })).stopAll 0).ctx 0).recs.any (·.atc) = false ∧
    f.blocked 0 = false ∧ s.relocking = false ∧ f.relocking = false ∧
    ((((f.modCtx 0 fun y => { y with recs := [{ cls := some .eccfatal, eng := .mem, atc := true }] }).begun
      (.resume { d := 8, ar := 4 })).stopAll 0).ctx 0).recs.any (·.atc) = true ∧
    (let g := (f.modCrew 0 fun y => { y with st := .loaded, lrec := [0x400, 0, 0, 0, 0, 2], nwave := 1 }).modCtx 0 fun y =>
       { y with imgs := [{ key := 1, addr := 0x8000, launch := 0, unit := 0, rank := 1 }] }
     (g.begun (.resume { d := 8, ar := 4 })).crewMissing 0 0 = true ∧ ((g.begun (.resume { d := 8, ar := 4 })).crew 0).st = .loaded) ∧
    (∃ ps, (f.begun (.stoprd { d := 8, ar := 4 })).fwRange 252 .write 0x2000 0 = some ps ∧ true = true) ∧
    (∃ ps, s.fwRange 252 .write 0x2000 8 = some ps ∧ true = true) :=
  ⟨fun i h => ⟨may_all _ _ (by decide +kernel) i h, may_all _ _ (by decide +kernel) i h, by revert i; decide⟩, by decide +kernel, by decide +kernel, by decide +kernel, by decide +kernel, by decide +kernel,
    by decide +kernel, by decide +kernel, by decide +kernel, by decide +kernel, by decide +kernel, by decide +kernel, by decide +kernel,
    some_of _ (fun _ => true) (by decide +kernel), some_of _ (fun _ => true) (by decide +kernel)⟩

theorem wit_ContextImages :
    (∀ i ∈ ([.ctxsave { d := 8, ar := 4 }, .ctxload { d := 8, ar := 4 }, .ckpt { d := 8, ar := 4 }, .rollbk { d := 8, ar := 4 }] : List Instr),
      (R [(4, 0x2000)] (valid 0)).mayIssue i ∧ (R [(4, 0x2000)] (valid 0)).actOf i ≠ 0) ∧
    (let s := R [(4, 0x2000)] (valid 0)
     isReeveCore (coreOf s.cur) = true ∧ s.relocking = false ∧ s.obj ((s.wave s.cur).handle { d := 8 }) = some (.ctx 0) ∧ s.crewsNamed (.ctx 0) = some [] ∧
       ((s.begun (.ctxsave { d := 8, ar := 4 })).fwRange 252 .write 0x2000 0).isSome = true ∧ s.ctxOfHandle ((s.wave s.cur).handle { d := 8 }) = some 0 ∧ (s.ctx 0).up = false ∧
       (s.checkpoint 0).isSome = true ∧ s.hasCheckpoint 0 = false) ∧
    (let s := R [(4, 0x2000), (8, 1)] (valid 0)
     handleForm ((s.wave s.cur).handle { d := 8 }) = true ∧ hKind ((s.wave s.cur).handle { d := 8 }) = 1 ∧
       (∃ a, s.fwImage 252 0x2000 = some a ∧ imageOk a = false)) ∧
    (let s := R [(8, 0)] fun s => ((((valid 0 s).poke64 (dtBase + 24) 0x300000).poke64 (0x300000 + 24) 2).modCtx 0 fun y => { y with up := true })
     (s.ctx 0).up = true ∧ s.ctxExtw 0 = false ∧ s.hasCheckpoint 0 = true) :=
  ⟨fun i h => ⟨may_all _ _ (by decide) i h, by revert i; decide⟩, by decide,
    ⟨by decide, by decide, by
      obtain ⟨a, h, e⟩ := some_of ((R [(4, 0x2000), (8, 1)] (valid 0)).fwImage 252 0x2000) (fun a => !imageOk a) (by decide)
      exact ⟨a, h, by simpa using e⟩⟩, by decide⟩

theorem wit_CopyQueueWords :
    let s := st { wave0 with stage := [0x0080000000000000, 0, 0x100], sreg := [(2, 0x200)] } { st := .running, nwave := 1, spbN := 32 }
    (∀ i ∈ ([.movQ0Push { d := 0x40, a := 2 }, .movQ0Push { pr := 1, d := 0x40, a := 2 }, .movQ0Push { d := 0x40, a := 2, look := 1 },
        .movQ1Pop { d := 2, a := 0x41 }, .movQ1Pop { pr := 1, d := 2, a := 0x41 }] : List Instr), s.mayIssue i ∧ U.mayIssue i) ∧
    s.actOf (.movQ0Push { pr := 1, d := 0x40, a := 2 }) = 0 ∧ s.actOf (.movQ0Push { d := 0x40, a := 2 }) &&& (s.wave 0).liveMask ≠ 0 ∧
    (U.wave 0).stage.length ≠ 3 ∧ (s.wave 0).stage = [0x0080000000000000, 0, 0x100] ∧
    s.copyCheck 0 { ssp := 1, dsp := 1, tk := true, w2 := 0x100, w3 := 0x200 } = none ∧
    (s.copyCheck 0 { ssp := 3, tk := true, w2 := 0x100, w3 := 0x200 }).isSome = true ∧ s.tkOut 0 < 16 ∧ s.q0room 0 = true ∧
    (let t := st { wave0 with tokens := List.replicate 16 5 }
     16 ≤ t.tkOut 0 ∧ (t.wave 0).tokens ≠ []) ∧
    (U.wave 0).tokens = [] ∧ U.tkComing 0 = false ∧
    (let t := U.modCore 0 fun y => { y with copyq := [{ cmd := { tk := true }, cslot := 0, wave := 0, id := 0 }] }
     t.tkComing 0 = true) ∧
    (U.wave 0).heldAcquire = false ∧ (s.wave 0).fabricFence { ssp := 1, dsp := 1, tk := true, w2 := 0x100, w3 := 0x200 } = false ∧
    (let t := st { wave0 with held := [{ held0 with word := 0x8800080204002000 }] }
     t.mayIssue (.movQ0Push { d := 0x40, a := 2 }) ∧ (t.wave 0).heldAcquire = true ∧ (t.wave 0).missHeld = true ∧
       ((t.modWave 0 fun w => { w with held := w.held.map fun h => { h with fifo := true } }).wave 0).heldAcquire = true ∧
       ((t.modWave 0 fun w => { w with held := w.held.map fun h => { h with fifo := true } }).wave 0).missHeld = false) ∧
    ({ wave0 with fences := [(3, [0])] } : Wave).fabricFence { kind := 4 } = true ∧
    (let t := s.modCore 0 fun y => { y with q0wait := [1] }
     let t := { t with waves := t.waves ++ [(1, { wave0 with park := some .q0 })] }
     t.q0room 0 = false) :=
  ⟨fun i h => ⟨may_all _ _ (by decide) i h, may_all _ _ (by decide) i h⟩, by decide, by decide, by decide, by decide, by decide, by decide, by decide,
    by decide, by decide, by decide, by decide, by decide, by decide, by decide, ⟨may_of _ _ (by decide), by decide⟩, by decide, by decide⟩

/-- A copy of 0x200 bytes from 0x2000 to the scratchpad, in the queue of core 0. -/
def cp (src : Dword := 0x2000) (st : CopySt := .running) (mark : Nat := 0) : CopyEnt :=
  { cmd := { dsp := 1, tk := true, w1 := src, w3 := 0x200 }, cslot := 0, wave := 0, id := 0, st := st, mark := mark }

/-- `M` with a copy. -/
def C (e : CopyEnt) : State := (M wave0).modCore 0 fun y => { y with copyq := [e] }

theorem wit_CopyEngine_access :
    let e : CopyEnt := { cp with cmd := { w1 := 0x2000, w2 := 0x200000, w3 := 4 } }
    ∃ x, beatWords e 0 (e.cmd.beatStarts 0) ((V [page0]).modCore 0 fun y => { y with copyq := [e] }) = .halt x ∧
      (match x with | .access va => va == 0x200000 | _ => false) = true := halt_of _ _ (by decide +kernel)

theorem wit_CopyEngine_ecc :
    ∃ x, beatWords cp 0 (cp.cmd.beatStarts 0) { C cp with pkg := { (C cp).pkg with l2 := [(0, [{ line := 0x102000 / 128, polder := 0, bad := true }])] } } = .halt x ∧
      (match x with | .ecc l => l == 0x102000 / 128 | _ => false) = true := halt_of _ _ (by decide)

theorem wit_CopyEngine_busy :
    ∃ x, beatWords cp 0 (cp.cmd.beatStarts 0)
      ({ C cp with pkg := { (C cp).pkg with tlb := [{ page0 with pa := 0x1800000000 }] } }.modDie 1 fun d => { d with rel := true }) = .halt x ∧
      (match x with | .busy => true | _ => false) = true := halt_of _ _ (by decide)

theorem wit_CopyEngine_waits :
    (∃ x, beatWords cp 0 (cp.cmd.beatStarts 0) (Ap.modCore 0 fun y => { y with copyq := [cp] }) = .halt x ∧
      (match x with | .peer .. => true | _ => false) = true) ∧
    (let e : CopyEnt := { cp with cmd := { cp.cmd with kind := 4 } }
     let s := { C e with pkg := { (C e).pkg with ports := [(0, { down := true })] } }
     let s := ((s.poke64 ptBase (2 ^ 63)).poke64 (ptBase + 16) (2 ^ 32 + 1)).poke64 (ptBase + 192) 0x80000005
     s.copyPortDown 0 e = true ∧ s.answered .copy 0 e.id = false ∧ firstLost (s.crew 0) (e.beatBanks 0) = none) ∧
    (let e : CopyEnt := { cp 0x2000 .posted with cmd := { cp.cmd with we := true, weir := 1, wcnt := 3 } }
     let s := C e
     (s.core 0).copyq[0]? = some e ∧ e.st = .posted ∧ e.stopped = false ∧ s.arrive 0 1 3 = none) :=
  ⟨halt_of _ _ (by decide +kernel), by decide +kernel, by decide +kernel⟩

theorem wit_CopyEngine_dry : ∃ d, beatWords cp 0 (cp.cmd.beatStarts 0) { C cp with pkg := { (C cp).pkg with l2 := [] } } = .halt (.dry d) :=
  ⟨_, rfl⟩

theorem wit_CopyEngine :
    (let q := ((C (cp 0x2000 .queued)).core 0).copyq
     (q.filter fun e => e.st != .queued).length < 4 ∧ (C cp).clockOn 0 = true ∧ ((C cp).ctx 0).up = false ∧
       q.findIdx? (fun e => e.st == .queued && !e.stopped && !(match (C cp).copyCtx 0 e with | some c => ((C cp).ctx c).up | none => false)) =
         some 0) ∧
    ((C cp).core 0).copyq[0]? = some cp ∧ cp.st = .running ∧ cp.stopped = false ∧ cp.did 1 = false ∧ 1 < cp.cmd.beats ∧ 1 < cp.mark + 16 ∧
    firstLost ((C cp).crew 0) (cp.beatBanks 1) = none ∧ (C cp).copyPortDown 0 cp = false ∧
    (∃ s1 ws, beatWords cp 0 (cp.cmd.beatStarts 1) (C cp) = .ok s1 ws ∧ decide (ws.length = 64) = true) ∧
    (∃ x, beatWords (cp 0x200000) 0 ((cp 0x200000).cmd.beatStarts 0) (C (cp 0x200000)) = .halt x ∧
      (match x with | .miss va => va == 0x200000 | _ => false) = true) ∧
    (∃ x, beatWords (cp 0x2000) 0 (cp.cmd.beatStarts 0) { C cp with pkg := { State.reset.pkg with tlb := [] } } = .halt x ∧ true = true) ∧
    (C cp).copyCtx 0 cp = some 0 ∧ cp.cmd.kind = 0 ∧ (cp 0x2000 .running 2).allDone = true ∧ cp.cmd.we = false ∧
    (let s := W
     (s.arrive 0 15 2).isSome = true) ∧
    ({ cp with cmd := { cp.cmd with dsp := 2 } } : CopyEnt).cmd.dsp = 2 :=
  ⟨by decide +kernel, by decide +kernel, by decide +kernel, by decide +kernel, by decide +kernel, by decide +kernel, by decide +kernel, by decide +kernel, by decide +kernel, beat_of _ _ (by decide +kernel), halt_of _ _ (by decide +kernel),
    halt_of _ (fun _ => true) (by decide +kernel), by decide +kernel, by decide +kernel, by decide +kernel,
    by decide +kernel, by decide +kernel, by decide +kernel⟩

theorem wit_OperandBuffer :
    let w := { wave0 with sreg := [(4, 0x00000000), (5, 8), (8, 0), (9, 0x00001F00), (12, 0)] }
    let s := st w
    let t := s.modCore 0 fun y => { y with obrec := [(1, { v := true, own := 0, base := 0, len := 4 }), (2, { v := true, own := 1, base := 0, len := 512 })] }
    (∀ i ∈ ([.obres 15 { d := 4 }, .obres 15 { pr := 1, d := 4 }, .obres 2 { d := 4 }, .obrel 15 {}, .obrel 1 {}, .obrel 2 {}] : List Instr),
      s.mayIssue i ∧ t.mayIssue i) ∧ s.gateOpen 8 ∧ t.gateOpen 8 ∧
    (let r := unpackOb 0 (BitVec.ofNat 64 ((s.wave 0).rsn 4 2)) (BitVec.ofNat 64 ((s.wave 0).rsn 6 2))
     r.fmt < 6 ∧ r.len ≠ 0 ∧ r.base + r.len ≤ 512 ∧ ((t.core 0).obRecOf 2).meets r = true) ∧
    (s.core 0).obWait = [] ∧ ((s.core 0).obRecOf 15).v = false ∧ ((t.core 0).obRecOf 1).v = true ∧ ((t.core 0).obRecOf 1).own = 0 ∧
    ((t.core 0).obRecOf 2).own ≠ 0 ∧ (t.core 0).obBusy 1 = false ∧
    (let u := t.modCore 0 fun y => { y with copyq := [{ cmd := { kind := 3, w2 := 0x0001000000000000, w3 := 0x0000040000000000 }, cslot := 0, wave := 0, id := 0, st := .running }],
                                            obWait := [(1, none), (3, some { v := true, len := 1 })] }
     (u.core 0).obBusy 1 = true ∧ tfind (u.core 0).obWait 1 = some none ∧ tfind (u.core 0).obWait 3 = some (some { v := true, len := 1 }) ∧
       (u.core 0).obBusy 3 = false) :=
  ⟨fun i h => ⟨may_all _ _ (by decide) i h, may_all _ _ (by decide) i h⟩, ⟨by decide, by decide⟩, ⟨by decide, by decide⟩, by decide, by decide,
    by decide, by decide, by decide, by decide, by decide, by decide⟩

theorem wit_ClausePick :
    let w := { wave0 with clause := none, lpc := Vector.replicate 32 0x1048 }
    let s := M w [(0x1048, 0xF100000000000000)]
    (∀ k, (tget (s.core 0).quads {} 0).inClause = some k → (s.wave k).canRun = false ∨ (s.wave k).clause = none) ∧
    (let ks := (quadWaves 0 0).filter fun k => (s.wave k).here
     let s1 := ks.foldl (fun t k => t.reach k) s
     s1.pickBest {} (ks.filter fun k => s1.ready k) = some 0) ∧
    (let ks := (quadWaves 0 1).filter fun k => (s.wave k).here
     let s1 := ks.foldl (fun t k => t.reach k) s
     s1.pickBest {} (ks.filter fun k => s1.ready k) = none) ∧
    (s.wave 0).clause = none ∧ (s.wave 0).midHdr = none ∧ (s.wave 0).pc % 8 = 0 ∧
    (∃ s1 h, s.fetchWave 0 (s.wave 0).pc = .ok s1 h ∧ decide (s1.wave 0 = s.wave 0 ∧ isHeader h = true ∧ (unpackH h).cls.toNat < 5 ∧
      (unpackH h).res = 0 ∧ (unpackH h).res2 = 0) = true) ∧
    (∃ s1 h, (M w).fetchWave 0 0x1048 = .ok s1 h ∧ decide (isHeader h = false) = true) ∧
    (let w := { w with lhdr := Vector.replicate 32 (some 0x1040) }
     let s := M w [(0x1040, 0xF500000000000000)]
     (s.wave 0).clause = none ∧ (s.wave 0).midHdr = some 0x1040 ∧
       ∃ s1 h, s.fetchWave 0 0x1040 = .ok s1 h ∧ decide (s1.wave 0 = s.wave 0 ∧ (unpackH h).yld = false) = true) :=
  ⟨(fun _ h => by cases h), by decide, by decide, by decide, by decide, by decide, fetch_of _ _ (by decide), fetch_of _ _ (by decide),
    by decide, by decide, fetch_of _ _ (by decide)⟩

theorem wit_ClausePick_inside :
    (U.wave 0).clause = some { hdrAt := 0x1000, hdr := 0xF500000000000000, pos := 0 } ∧ (U.quad 0).inClause ≠ some 0 ∧ (U.wave 0).canRun = true ∧
    (let s := st { wave0 with held := [held0], pend := [{ reg := 2, n := 1, mask := 1, arrived := false }] }
     (s.wave 0).canRun = true ∧ (s.wave 0).clause.isSome = true) := by decide

theorem wit_ResultCommit :
    let p : Pend := { reg := 254, n := 2, data := [zeroLanes, zeroLanes], mask := 1, slot := some 7 }
    let w := { wave0 with pend := [p, { p with remain := 15 }], sb := [(7, 2)] }
    (st w).clockOn (coreOf 0) = true ∧ nextCommit w.pend = some (p, [{ p with remain := 15 }]) ∧ w.exitWait = false ∧ ∀ b, (w.bank b).st = .retain → (w.bank b).bad = false :=
  ⟨by decide, by decide, by decide, fun _ _ => rfl⟩

theorem wit_ParksEnd : ∀ p ∈ ([.weir 15 0 true, .cbwait 3 0, .cbarv 3 0, .q0, .q1, .launch, .miss, .tag] : List Park),
    let s := st { wave0 with park := some p, parkI := some .nop }
    let w := s.wave 0
    w.stopped = false ∧ s.clockOn (coreOf 0) = true ∧ w.park = some p ∧ w.parkI = some .nop := by decide

theorem wit_RegisterBanks :
    (let w := { wave0 with banks := [(31, { st := .retain, waking := true })] }
     (w.bank 31).waking = true ∧ (st w).clockOn (coreOf 0) = true ∧ ∀ n ∈ w.banks, n.2.bad = false) ∧
    (let w := { wave0 with banks := [(31, { st := .retain, waking := true, bad := true })] }
     (w.bank 31).waking = true ∧ (w.bank 31).st = .retain ∧ (w.bank 31).bad = true) ∧
    (let w := { wave0 with vlive := 0, banks := [(3, { st := .full }), (4, { st := .full, idle := some 0 })] }
     (w.bank 3).st ≠ .off ∧ w.bankLive 3 = false ∧ w.bankPend 3 = false ∧ (w.bank 3).waking = false ∧ (w.bank 3).idle = none ∧
       (w.bank 4).idle = some 0) ∧
    (let w := { wave0 with banks := [(31, { st := .retain })] }
     (w.bank 31).st = .retain ∧ (w.bank 31).bad = false) ∧
    (let w := { wave0 with clause := none, lpc := Vector.replicate 32 0x1048, hwait := some 0, sb := [(0, 1)],
                           pend := [{ reg := 1, n := 1, data := [zeroLanes], mask := 1, slot := some 0, arrived := false }] }
     let s := (M w [(0x1048, 0xF100200100000000)]).modDie 0 fun d => { d with cyc := 16 }
     (s.wave 0).hwait = some 0 ∧ (s.wave 0).canRun = true ∧ s.peek 0 0x1048 = some 0xF100200100000000 ∧ (s.wave 0).pc = 0x1048 ∧
       isHeader 0xF100200100000000 = true ∧ (s.wave 0).waitClear (unpackH 0xF100200100000000).wait = false ∧
       (unpackH 0xF100200100000000).rtn.getLsbD 0 = true ∧ 0 + 16 ≤ s.cycles 0) ∧
    (let s := { (st { wave0 with park := some (.sleep 1000) }).poke64 (dtBase + 16) 5 with reft := 100000 }
     s.retth 0 ≠ 0 ∧ (s.wave 0).park.isSome = true ∧ (s.wave 0).parkSince + s.retth 0 < s.reft) := by decide

theorem wit_StopsAndDelayedFaults :
    (let h : HeldAcc := { word := 0, mask := 1, addrs := Vector.replicate 32 0, data := Vector.replicate 32 0, bad := some .access }
     let s := st { wave0 with held := [h] }
     (s.wave 0).held = [h] ∧ h.bad = some .access ∧ (s.wave 0).stopped = false) ∧
    (let s := U.modCtx 0 fun y => { y with up := true }
     isReeveCore (coreOf 0) = false ∧ (s.ctx 0).up = true ∧ (s.wave 0).here = true ∧ (s.wave 0).nonExited ≠ 0 ∧ s.hasRec 0 .wave 0 = false ∧
       (s.wave 0).standing.group ≠ 0 ∧ (s.wave 0).stopped = false) ∧
    (let s := (U.modCtx 0 fun y => { y with up := true }).modWave 0 fun w => { w with stopped := true, park := some (.acqx 1) }
     (s.wave 0).stopped = true ∧ (s.wave 0).standing.group ≠ 0 ∧ (s.ctx 0).discarded = false ∧ s.hasRec 0 .wave 0 = false ∧
       ((s.modCtx 0 fun y => { y with discarded := true }).ctx 0).discarded = true ∧ s.clockOn (coreOfCrew 0) = true) := by decide

/-- A record of one crew of one wave with a scratchpad bank, its entry at 0x1000 and its status word at 0x3000. -/
def rec1 : List Dword := [1, 0x1000, 0, 0, 32 * 1024, 1, 0, 0, 0x3000, 0, 0, 0, 0, 0, 0, 0]

/-- Context 0 with a polder that owns die 0, a queue whose ring has two slots at 0x4000 and holds one record, and the record at
0x5000 as well. `k`: the bits of the descriptor's first word. -/
def D (k : Nat) (w : Wave := wave0) (wrix : Nat := 1) : State :=
  let s := st w { st := .running, nwave := 1, spbN := 1 }
  let s := { s with pkg := { State.reset.pkg with tlb := [page0, { page0 with loc := .core dispCore }] } }
  let s := ((s.poke64 dtBase (2 ^ 63)).poke64 ptBase (2 ^ 63 + 0xFF)).poke64 (ptBase + 256) 8
  let s := ((s.poke64 qtBase (BitVec.ofNat 64 (k + 0x100))).poke64 (qtBase + 8) 0x4000).poke64 (qtBase + 24) (BitVec.ofNat 64 wrix)
  rec1.zipIdx.foldl (fun s p => (s.poke64 (0x104000 + 8 * p.2) p.1).poke64 (0x105000 + 8 * p.2) p.1) s

theorem wit_LaunchWord :
    let w := { wave0 with sreg := [(4, 0x5000)] }
    let s := D (2 ^ 63 + 2 ^ 62) w
    let full := D (2 ^ 63 + 2 ^ 62) w 2
    let i := Instr.launch { d := 8, ar := 4 }
    s.mayIssue i ∧ full.mayIssue i ∧ s.mayIssue (.launch { pr := 1, d := 8, ar := 4 }) ∧ s.gateOpen 0 ∧ s.actOf i ≠ 0 ∧
    s.actOf (.launch { pr := 1, d := 8, ar := 4 }) = 0 ∧ addrCheck ((s.wave 0).addrS { d := 8, ar := 4 }) 128 = none ∧
    (addrCheck ((s.wave 0).addrS { d := 8, ar := 4, off := 8 }) 128).isSome = true ∧ s.ctxOf 0 = some 0 ∧
    s.qDev 0 = true ∧ s.qServes 0 = true ∧ (D (2 ^ 63) w).qDev 0 = false ∧
    (let s1 := s.begun i
     (match s1.translate (some 0) 0 0x5000 .read with
      | .ok s1 pa home =>
        let s2 := (s1.readWords 0 pa home 16).2
        !s2.relocking && (s2.modDie 3 fun d => { d with rel := true }).relocking && s2.recOk 0 (s1.readWords 0 pa home 16).1 && (match s2.translate (some 0) 0 (s2.qSlot 0 (s2.qWrix 0)) .write with
          | .ok s3 pa _ => decide (s3.qFill 0 < 2 ^ s3.qLog 0) && !s3.linkBusy 0 && !s3.crosses (some 0) 0 pa
          | _ => false)
      | _ => false) = true) ∧
    (∃ r, (s.begun i).wordAccess 0 0x5000 128 .read = .inr r ∧ true = true) ∧
    2 ^ full.qLog 0 ≤ full.qFill 0 :=
  ⟨may_of _ _ (by decide +kernel), may_of _ _ (by decide +kernel), may_of _ _ (by decide +kernel), ⟨by decide +kernel, by decide +kernel⟩, by decide +kernel, by decide +kernel, by decide +kernel, by decide +kernel,
    by decide +kernel, by decide +kernel, by decide +kernel, by decide +kernel, by decide +kernel, inr_of _ (fun _ => true) (by decide +kernel), by decide +kernel⟩

theorem tr_of (r : TrRes) (p : State → Nat → Nat → Bool) (h : (match r with | .ok s a b => p s a b | _ => false) = true) :
    ∃ s a b, r = .ok s a b ∧ p s a b = true := by
  cases r <;> first | exact ⟨_, _, _, rfl, h⟩ | cases h

theorem wit_Dispatching :
    let s := D (2 ^ 63)
    s.qServes 0 = true ∧ s.qFill 0 ≠ 0 ∧ s.qFlt 0 = false ∧ s.current 0 = none ∧ s.ctxValid 0 = true ∧ tfind (s.ctx 0).qwait 0 = none ∧
    s.qSlot 0 (s.qRdix 0) < 2 ^ 57 ∧
    (∃ s1 pa h, s.translate (some 0) dispCore (s.qSlot 0 (s.qRdix 0)) .read = .ok s1 pa h ∧
      ((s1.setRdix 0 1).recOk 0 (s1.homeWords pa 16) && ((s1.setRdix 0 1).refusal 0 (s1.homeWords pa 16)).isNone &&
        !s1.homeBad (pa / 128)) = true) ∧ s.linkBusy 0 = false ∧ s.relocking = false ∧ (({ s with launches := [{ id := 0, queue := 0, idx := 0, ctx := 0, lrec := rec1, device := false, next := 0 }] } : State).dispatchTurn 0 []).isSome = true ∧
    (s.modDie 3 fun d => { d with rel := true }).relocking = true ∧ State.reset.dispatchTurn 0 [] = none ∧ s.statusHeld 0 0x3000 = false ∧
    (let t := D (2 ^ 63) { wave0 with done := true }
     let t := { t with launches := [{ id := 0, queue := 0, idx := 0, ctx := 0, lrec := rec1, device := false, next := 1 }] }
     t.crewDone 0 = true ∧ ∃ l, t.launches.find? (fun l => l.id == (t.crew 0).launch) = some l ∧ decide (l.doneCrews + 1 = recCrews l.lrec) = true) ∧
    s.crewDone 0 = false ∧ (∃ s1 pa h, s.translate (some 0) dispCore 0x3000 .write = .ok s1 pa h ∧
      decide (memWf s1.mem = true ∧ regionOf pa ≠ .host ∧ regionOf pa ≠ .peer) = true) :=
  ⟨by decide +kernel, by decide +kernel, by decide +kernel, by decide +kernel, by decide +kernel, by decide +kernel, by decide +kernel, tr_of _ _ (by decide +kernel),
    by decide +kernel, by decide +kernel, by decide +kernel, by decide +kernel, by decide +kernel, by decide +kernel, ⟨by decide +kernel, some_of _ _ (by decide +kernel)⟩, by decide +kernel, tr_of _ _ (by decide +kernel)⟩

/-- Polder 0 owns cluster 0; launch 0 of context 0 has a crew that sleeps on each of its cores and fills its scratchpad, launch 1, of
context 1, and launch 2, of context 0, wait. -/
def T : State :=
  let r := rec1.set 5 32
  let w := { wave0 with park := some (.sleep 5) }
  let l : Launch := { id := 0, queue := 0, idx := 0, ctx := 0, lrec := r, device := false, next := 1 }
  let s := D (2 ^ 63) w
  let s := ((((s.poke64 ptBase (2 ^ 63 + 1)).poke64 (ptBase + 264) 8).poke64 (dtBase + 64) (2 ^ 63)).poke64 qtBase 0).poke64 (qtBase + 64) (2 ^ 63 + 0x100 + 1)
  { s with crews := (List.range 8).map fun n => (crewKey n 0, { st := .running, nwave := 1, spbN := 32, lrec := r, dormant := some 0 }),
           waves := (List.range 8).map fun n => (waveKey (crewKey n 0) 0, w), reft := 64000,
           launches := [l, { l with id := 1, ctx := 1, queue := 1, next := 0 }, { l with id := 2, queue := 2, next := 0 }] }
theorem wit_Preemption_dormant :
    isReeveCore (coreOfCrew 0) = false ∧ T.isDormant 0 = true ∧ (T.crew 0).dormant = some 0 ∧ (T.waitingJob (T.crew 0).ctx).isSome = true ∧
    (∀ c ∈ T.leaveWith 0, T.isDormant c = true ∧ ∃ u, (T.crew c).dormant = some u ∧ u + 64000 ≤ T.reft) ∧
    (T.saveCrews (T.leaveWith 0) (some (2, 0))).isSome = true := by
  have h : T.leaveWith 0 = [0] := by decide +kernel
  refine ⟨by decide, by decide +kernel, by decide +kernel, by decide +kernel, ?_, by rw [h]; decide +kernel⟩
  rw [h]
  intro c hc
  obtain rfl := List.mem_singleton.mp hc
  exact ⟨by decide +kernel, 0, by decide +kernel, by decide +kernel⟩

theorem wit_Preemption_rotation :
    let takes (j : Job) (k : Key) : Bool := T.usable j.launch.ctx (recCoop j.launch.lrec) (clusterOf (coreOfCrew k)) &&
      (T.roomWithout 0 (coreOfCrew k)).fits j.launch.lrec
    ((T.rotationJobs 1).find? fun j => (T.ctxCrews 0).any (takes j)).isSome = true := by decide +kernel

/-- The head of an image of a crew of the record `rec1`, whose status word is at 0x3000: 1,024 bytes, by word. -/
def img1 : List (Nat × Nat) := [(0, 0x10101), (2, 1), (3, 0x1000), (6, 0x8000), (7, 1), (10, 0x3000), (87, 1024)]

/-- A reeve wave, a context whose polder owns cluster 0, and the image at 0x6000. -/
def I : State := R [(4, 0x6000), (8, 1)] fun s =>
  img1.foldl (fun s p => s.poke64 (0x106000 + 8 * p.1) (BitVec.ofNat 64 p.2)) ((valid 0 s).poke64 ptBase (2 ^ 63 + 1))

theorem wit_ContextImages_load :
    (∃ a, I.fwImage 252 0x6000 = some a ∧ imageOk a = true) ∧
    ∃ is, I.fwImages 252 1 0x6000 = some is ∧ (is.all (fun j => imageOk j.2) && !(is.any fun j => I.holds 0 (I.claim 0 j.1 j.2).1) &&
      (I.loadAll 0 is [0]).isSome) = true :=
  ⟨some_of _ _ (by decide +kernel), some_of _ _ (by decide +kernel)⟩

theorem wit_Preemption :
    let s := st { wave0 with park := some (.sleep 5) }
    s.isDormant 0 = true ∧ (s.crew 0).dormant = none ∧ U.isDormant 0 = false ∧ (U.ctx 0).slice < 2 ^ U.ctxSlice 0 ∧
    (let t := U.modCtx 0 fun x => { x with slice := 2 ^ 24 }
     2 ^ t.ctxSlice 0 ≤ (t.ctx 0).slice) ∧
    (let t := D (2 ^ 63)
     t.ownerOf 0 = some 0 ∧ (t.cluster 0).lent = false) ∧
    (let t := (D (2 ^ 63)).modCluster 1 fun y => { y with lent := true }
     t.ownerOf 1 = some 0 ∧ (t.cluster 1).lent = true ∧ (t.cluster 1).recallBy = none ∧ t.crewsOfCluster 1 = []) ∧
    isReeveCore (coreOfCrew 0) = false ∧
    (let t := st wave0 { st := .running, nwave := 1, spbN := 1, drainBy := some 0 }
     (t.crew 0).drainBy = some 0 ∧ 0 ≤ t.reft) :=
  by decide

theorem wit_SharesAndMetering :
    State.reset.reft % 1000 = 0 ∧ tget (State.reset.polder 31).refilled 0 39 ≠ State.reset.reft + 1 ∧ (State.reset.elapse 1).reft % 1000 ≠ 0 ∧
    U.crews.Pairwise (fun a b => a.1 < b.1) ∧ (0 : Nat) ∈ U.allCrews 0 ∧ isReeveCore (coreOfCrew 0) = false ∧ (U.crew 0).st ≠ .absent ∧
    State.reset.dryFor false (0, 0) 1 = true ∧
    (let s := (U.modWave 0 fun w => { w with held := [{ held0 with fifo := true, dry := some (0, 1) }] }).poke64 (ptBase + 512 + 24) 2
     s.dryAll = [(0, 1)] ∧ s.weight 0 < s.weight 1 ∧ s.crewDry 0 = true ∧ U.crewDry 0 = false) ∧
    ((U.modDie 0 fun d => { d with hotAt := some 0 }).die 0).hotAt.isSome = true ∧ (U.die 0).hotAt.isSome = false ∧
    U.phaseHeld 0 = false ∧ (tfind U.pkg.phaseStep 3, tfind (U.modPkg fun p => { p with phaseStep := [(3, 1)] }).pkg.phaseStep 3) = (none, some 1) ∧
    (U.modPkg fun p => { p with phaseStep := [(3, 2)] }).phaseHeld 0 = true ∧ State.reset.powerFits = true ∧ State.reset.metering = true ∧ (State.reset.polder 0).meter.Pairwise (fun a b => a.1 < b.1) ∧
    State.reset.crews.Pairwise (fun a b => a.1 < b.1) ∧
    ({ State.reset with pkg := { State.reset.pkg with life := .deployed } } : State).pkg.life = .deployed ∧ State.reset.pkg.life ≠ .manufacture := by decide

theorem wit_IslandsAndClocks :
    State.reset.reft % 10000 = 0 ∧ (State.reset.core 251).island.closedAt ≠ some State.reset.reft ∧
    (let s := { State.reset.modCore 0 (fun y => { y with island := { y.island with mode := .over } }) with reft := 100000 }
     (s.core 0).island.mode ≠ .off ∧ s.matrixCrew 0 = false ∧ (s.core 0).attempt = none ∧ (s.core 0).fixing = [] ∧ (s.core 0).issued = [] ∧
       (s.core 0).island.idleAt + 100000 ≤ s.reft) ∧
    (let s := Q.modCore 0 fun y => { y with island := {} }
     (s.core 0).island.mode = .off ∧ s.matrixCrew 0 = true ∧ (s.core 0).issued = []) ∧
    (State.reset.die 3).stepping = .none ∧ max 24 (min 88 (80 : BitVec 7).toNat) = (State.reset.die 3).cur ∧
    ((State.reset.modDie 1 fun x => { x with stepping := .rise 88 }).die 1).stepping = .rise 88 ∧
    (let s := State.reset.modDie 1 fun x => { x with stepping := .relock 88, tgt := 88, rel := true }
     (s.die 1).stepping = .relock 88 ∧ (s.die 1).tgt = 88 ∧ s.fifoWaves = [] ∧
       ∀ n, n < 63 → (s.core (63 + n)).issued = []) ∧
    (State.reset.die 0).hotAt = none ∧
    (let s := { State.reset.modDie 0 (fun x => { x with hotAt := some 0 }) with reft := 100000 }
     (s.die 0).hotAt = some 0 ∧ 0 + 100000 ≤ s.reft) := by decide

/-- Line 5 lies dirty in the caches of cluster 0, written by context 0, and line 0x2000 in L2 slice 0; both fail beyond correction. -/
def E : State :=
  { U with pkg := { U.pkg with lineBad := [(0, 5)], dcache := [(0, [(640, { val := 1, dirty := true, writer := 0 })])], eccBad := [9],
                               l2 := [(0, [{ line := 0x2000, polder := 0, old := some (List.replicate 128 7), writer := 0, bad := true }])] } }

theorem wit_ErrorsAndRecovery :
    (0, 5) ∈ E.pkg.lineBad ∧ (0, 6) ∉ E.pkg.lineBad ∧ ((E.dcache 0).find? (fun e => e.1 / 128 == 5 && e.2.dirty)).isSome = true ∧
    ((E.dcache 0).find? (fun e => e.1 / 128 == 5 && e.2.dirty)).all (fun e => e.2.writer != fwCtx) = true ∧
    ((E.l2At 0x2000).map fun y => (y.1, y.2.bad, y.2.old)) = some (0, true, some (List.replicate 128 7)) ∧ memWf E.mem = true ∧
    E.dirtyL2 5 = false ∧ 9 ∈ E.pkg.eccBad ∧ 5 ∉ E.pkg.eccBad ∧ U.relocking = false ∧
    (U.modDie 3 fun d => { d with rel := true }).relocking = true ∧
    (let s := { (U.poke64 dtBase (2 ^ 63 + 2 ^ 61)).poke64 (dtBase + 16) (2 ^ 32) with reft := 1000 }
     s.ctxValid 0 = true ∧ (s.ctxWord 0 0).getLsbD 61 = true ∧ (s.ctx 0).ckptAt + 1000 * bits (s.ctxWord 0 2) 63 32 ≤ s.reft) ∧
    (let s := (U.poke64 (dtBase + 40) 1).modCtx 0 fun x => { x with logging := true, undoFill := 4096 }
     (s.ctx 0).up = false ∧ (s.ctx 0).logging = true ∧ (s.undoLog 0).2 = 4096 ∧ 7 * (s.undoLog 0).2 ≤ 8 * (s.ctx 0).undoFill ∧
       (s.checkpoint 0).isSome = true) ∧
    State.reset.ctxCrews 5 = [] ∧ U.ctxCrews 0 ≠ [] ∧
    (let k := waveKey (crewKey 252 0) 0
     let s := (R []).modWave k fun w => { w with held := [{ word := 0, mask := 1, addrs := Vector.replicate 32 0, data := Vector.replicate 32 0, bad := some .access }] }
     isReeveCore (coreOf k) = true ∧ (s.wave k).stopped = false ∧ (s.wave k).held.any (fun h => h.bad == some .access) = true) ∧
    (∃ k ∈ reeveWaves 0, (State.reset.wave k).stopped = false) ∧
    (let s := (reeveWaves 3).foldl (fun s k => s.modWave k fun w => { w with stopped := true }) State.reset
     ∀ k ∈ reeveWaves 3, (s.wave k).stopped = true) ∧
    bits (3 * 2 ^ 60 : Dword) 63 60 < 4 ∧ 4 ≤ bits (4 * 2 ^ 60 : Dword) 63 60 ∧ (tget State.reset.pkg.ports {} 31).spared = false := by decide

/-- The virtual functions of polders 0 and 1 are enabled; polder 0 has a window of 4 MiB from 0x200000 and owns port 0; its identifier is 77. -/
def H : State :=
  let s := D (2 ^ 63)
  let s := { s with pkg := { s.pkg with vfs := [0, 1], fids := [(0, 77), (1, 78)] } }
  let s := (s.poke64 (ptBase + 8) 0xFFFF).poke64 (ptBase + 16) 1
  (s.poke64 (ptBase + 64) (2 ^ 63 + 2 ^ 21)).poke64 (ptBase + 72) 1

theorem wit_HostAndFabric :
    H.vfUp 0 = true ∧ H.vfUp 2 = false ∧ polderOf (H.qCtx 0) = 0 ∧ polderOf (H.qCtx 0) ≠ 1 ∧ 0 ∉ H.pkg.flr ∧ H.qDev 0 = false ∧ memWf H.mem = true ∧
    (H.qRdix 0, H.qWrix 0, 2 ^ H.qLog 0) = (0, 1, 2) ∧
    (H.window 0 0x1FFFF8 8).isSome = true ∧ H.window 0 0x1FFFF9 8 = none ∧ H.window 0 8 2 = some [0x200008, 0x200009] ∧
    H.homeStopped 0 [0x200008, 0x200009] = false ∧ (H.modDie 0 fun d => { d with rel := true }).homeStopped 0 [0x200008] = true ∧
    H.window 0 0x1FFFF0 16 = some ((List.range 16).map fun n => 0x3FFFF0 + n) ∧ H.window 0 8 4 = some ((List.range 4).map fun n => 0x200008 + n) ∧
    peerSizeOk (.atom .add false) 0x1FFFF8 8 = true ∧ peerSizeOk (.atom .add false) 0x1FFFF9 8 = false ∧ peerSizeOk .load 8 2 = true ∧
    [0x200008, 0x200009].Nodup ∧ H.ownsPort 0 0 = true ∧ H.ownsPort 1 0 = false ∧ H.fidPolder 77 = some 0 ∧
    H.fidPolder 78 = some 1 ∧ H.fidPolder 79 = none ∧ H.pkg.bootStopped = false ∧ H.pkg.boot = 6 ∧ H.relocking = false ∧ H.pkg.dcache = [] ∧
    (H.modPkg fun p => { p with flr := [0], boot := 5 }).pkg.flr = [0] ∧ (tget H.pkg.ports {} 0).down = false ∧ H.inPolder 0 0x200008 = true ∧
    H.inPolder 0 0x100000 = false ∧
    (let o : PeerOp := { id := 3, eng := .wave, key := 0, lane := 31, addr := 2 ^ 51, va := 0x2000, write := true, data := 0, size := 8, since := 0 }
     let s := { st { wave0 with held := [{ held0 with fifo := true }] } with reft := 1000000 }
     let s := s.modPkg fun p => { p with peerOps := [o, { o with id := 4, lane := 32, write := false }, { o with id := 5, eng := .seq },
       { o with id := 6, eng := .copy, lane := 9 }] }
     let s := s.modCore 0 fun y => { y with copyq := [{ cmd := {}, cslot := 0, wave := 0, id := 9 }] }
     let l := s.modWave 0 fun w => { w with park := some (.ldwatch none 0), parkI := some (.ldwatch 10 { d := 6, ar := 4 }) }
     s.pkg.peerOps.find? (fun x => x.id == o.id) = some o ∧ o.answered = false ∧ s.reft ≤ o.since + 1000000 ∧ o.since + 1000000 ≤ s.reft ∧
       (s.opCtx o) < 512 ∧ (s.core o.key).copyq.findIdx? (fun e => e.id == 9) = some 0 ∧ (s.wave o.key).park = none ∧ (s.wave 0).held ≠ [] ∧
       (l.wave o.key).park = some (.ldwatch none 0) ∧ (l.wave o.key).parkI = some (.ldwatch 10 { d := 6, ar := 4 })) ∧
    State.reset.pkg.life ≠ .manufacture ∧ State.reset.window 0 0 8 = none ∧ ∀ a ∈ [0x200008, 0x200009], ¬within dtBase (64 * 512) a := by
  unfold within
  decide

theorem wit_BootAndLifeCycle : memWf State.reset.mem = true ∧ State.reset.agenda = [] ∧ lifeNext .deployed 3 = some .returned ∧
    lifeNext .returned 2 = none ∧ isExternal 0 = false ∧ State.reset.pkg.life ≠ .returned ∧ State.reset.pkg.fwImg = .ordinary ∧
    (∀ n, n < 6 → let s := State.reset.modPkg fun p => { p with boot := n }
      s.pkg.bootStopped = false ∧ s.pkg.boot < 6 ∧ s.agenda = []) ∧
    (let s := State.reset.modPkg fun p => { p with boot := 2, life := .returned, reeveImg := .diagnostic, bootStopped := true }
     s.agenda = [] ∧ s.pkg.bootStopped = true ∧ ¬(s.pkg.fwImg = .diagnostic ∨ (s.pkg.fwImg = .ordinary ∧ s.pkg.life ≠ .returned)) ∧
       (s.pkg.life ≠ .provisioned ∧ s.pkg.life ≠ .deployed)) ∧ State.reset.pkg.life = .deployed := by decide

end Sys2Proof.Tests
end

section
/-! The tolerant matrix product (R152): what a completed product leaves in its tile and in its crew's check ring, and the
verdict step of the engine built from it. -/

namespace Sys2Proof.Machine

-- Tiles: the elements written are the elements read (R96).

/-- The table that lists the entries of l that differ from d, numbered from n, reads as l from n on. -/
theorem tget_listed {α : Type} [DecidableEq α] (d : α) (l : List α) (n k : Nat) :
    tget (((l.zipIdx n).filter fun e => e.1 ≠ d).map fun e => (e.2, e.1)) d k = if k < n then d else l.getD (k - n) d := by
  induction l generalizing n with
  | nil => simp [tget]
  | cons a l ih =>
    have rest := ih (n + 1)
    rw [List.zipIdx_cons, List.filter_cons]
    rcases Nat.lt_trichotomy k n with h | rfl | h
    · have hk : k < n + 1 := by omega
      split <;> simp_all [tget, h.ne]
    · split <;> simp_all [tget]
    · have hk : k - n = k - (n + 1) + 1 := by omega
      have hn : ¬k < n := by omega
      have hn' : ¬k < n + 1 := by omega
      rw [hk, List.getD_cons_succ, if_neg hn]
      rw [if_neg hn'] at rest
      split
      · rw [List.map_cons, tget, if_neg h.ne', rest]
      · exact rest

theorem putTile_elems (s : State) (core t : Nat) (es : List Word) (h : es.length = 4096) :
    (((s.putTile core t es).core core).tile t).elems = es := by
  have read (k : Nat) : tget (((s.putTile core t es).core core).tile t).el 0 k = es.getD k 0 := by
    simp only [State.putTile, CoreSt.tile, State.modCore_core, if_true, tget_tset_same]
    exact tget_listed 0 es 0 k
  apply List.ext_getElem
  · simp [Tile.elems, h]
  · intro k _ hk
    rw [← List.getD_eq_getElem es 0 hk, ← read k]
    simp only [Tile.elems, List.getElem_map, List.getElem_range]

@[simp] theorem putTile_attempt (s : State) (core t : Nat) (es : List Word) :
    ((s.putTile core t es).core core).attempt = (s.core core).attempt := by simp [State.putTile]

@[simp] theorem putTile_issued (s : State) (core t : Nat) (es : List Word) :
    ((s.putTile core t es).core core).issued = (s.core core).issued := by simp [State.putTile]

@[simp] theorem putTile_crew (s : State) (core t : Nat) (es : List Word) (c : Key) :
    (s.putTile core t es).crew c = s.crew c := rfl

-- An island's settling changes the island alone (R397).

theorem islandSettle_core (s : State) (core n : Nat) :
    ∃ i, (s.islandSettle core).core n = { s.core n with island := i } := by
  have changed (f : CoreSt → Island) :
      ∃ i, (s.modCore core fun c => { c with island := f c }).core n = { s.core n with island := i } := by
    by_cases hn : n = core
    · subst hn; exact ⟨f (s.core n), by simp⟩
    · exact ⟨(s.core n).island, by simp [hn]⟩
  unfold State.islandSettle
  dsimp only
  split
  · split
    · exact changed _
    · exact ⟨_, rfl⟩
  · split
    · exact changed _
    · exact ⟨_, rfl⟩

@[simp] theorem islandSettle_crew (s : State) (core : Nat) (c : Key) : (s.islandSettle core).crew c = s.crew c := by
  unfold State.islandSettle
  dsimp only
  split_ifs <;> rfl

-- A product that completes (R150 to R157).

/-- The core of a completed product: its tile is written, and its island counts. -/
theorem mmaDone_core (s : State) (core : Nat) (m : Attempt) (es : List Word) (act : Option Nat) :
    ∃ i, (s.mmaDone core m es act).core core = { (s.putTile core m.acc es).core core with island := i } := by
  unfold State.mmaDone
  obtain ⟨i, hi⟩ := islandSettle_core _ core core
  refine ⟨i, hi.trans ?_⟩
  cases act <;> simp [State.meter, State.relCount]

theorem mmaDone_elems (s : State) (core : Nat) (m : Attempt) (es : List Word) (act : Option Nat) (h : es.length = 4096) :
    (((s.mmaDone core m es act).core core).tile m.acc).elems = es := by
  obtain ⟨i, hi⟩ := mmaDone_core s core m es act
  rw [hi]
  exact putTile_elems s core m.acc es h

theorem mmaDone_attempt (s : State) (core : Nat) (m : Attempt) (es : List Word) (act : Option Nat) :
    ((s.mmaDone core m es act).core core).attempt = (s.core core).attempt := by
  obtain ⟨i, hi⟩ := mmaDone_core s core m es act
  rw [hi]
  exact putTile_attempt s core m.acc es

theorem mmaDone_issued (s : State) (core : Nat) (m : Attempt) (es : List Word) (act : Option Nat) :
    ((s.mmaDone core m es act).core core).issued = (s.core core).issued := by
  obtain ⟨i, hi⟩ := mmaDone_core s core m es act
  rw [hi]
  exact putTile_issued s core m.acc es

@[simp] theorem Crew.count_chkSeq (x : Crew) (i n : Nat) : (x.count i n).chkSeq = x.chkSeq := rfl

/-- The record just put into the ring stands in the slot of the crew's check number (R155). -/
theorem Crew.putCheck_slot (x : Crew) (r : List Dword) (seq : Word) (hseq : x.chkSeq = seq) :
    (x.putCheck r).chk[seq.toNat % 8]? = some r := by
  subst hseq
  have h : x.chkSeq.toNat % 8 < max x.chk.length (x.chkSeq.toNat % 8 + 1) := by omega
  simp [Crew.putCheck, h]

/-- A product that completes with action a leaves its record in the ring of its crew (R155). -/
theorem mmaDone_record (s : State) (core : Nat) (m : Attempt) (es : List Word) (a : Nat) :
    ((s.mmaDone core m es (some a)).crew (crewKey core m.cslot)).chk[(s.crew (crewKey core m.cslot)).chkSeq.toNat % 8]? =
      some (m.record ((s.crew (crewKey core m.cslot)).chkSeq + 1) a) := by
  unfold State.mmaDone
  simp only [islandSettle_crew, State.relCount, State.meter, State.modPolder_crew, State.modCore_crew, State.modCrew_crew,
    putTile_crew, if_true]
  exact Crew.putCheck_slot _ _ _ (by simp only [Crew.count_chkSeq])

/-- Bits [31:29] of the third word of a check record hold the action (R155). -/
theorem Attempt.record_action (m : Attempt) (seq : Word) (act : Nat) :
    bits ((m.record seq act).getD 2 0) 31 29 = act % 8 := by
  have hinj : (if m.injected then 2 ^ 15 else 0) ≤ 2 ^ 15 := by split <;> omega
  have hseq := seq.isLt
  simp only [Attempt.record, bits, List.getD_cons_succ, List.getD_cons_zero, BitVec.toNat_ushiftRight, BitVec.toNat_ofNat,
    Nat.shiftRight_eq_div_pow]
  omega

-- The verdict of a tolerant attempt (R152).

theorem Attempt.struck_toProduct (m : Attempt) (j : Inject) : (m.struck j).toProduct = m.toProduct := by
  unfold Attempt.struck
  dsimp only
  split <;> rfl

theorem inject_toProduct (s : State) (core : Nat) (m : Attempt) : (s.inject core m).2.toProduct = m.toProduct := by
  unfold State.inject
  split
  · split_ifs
    · exact Attempt.struck_toProduct _ _
    · rfl
  · rfl

theorem inject_issued (s : State) (core : Nat) (m : Attempt) :
    ((s.inject core m).1.core core).issued = (s.core core).issued := by
  unfold State.inject
  split
  · split_ifs <;> simp
  · rfl

theorem inject_crew (s : State) (core : Nat) (m : Attempt) (c : Key) : (s.inject core m).1.crew c = s.crew c := by
  unfold State.inject
  split
  · split_ifs <;> rfl
  · rfl

/-- The attempt as its verdict notes it: the failing lines, and the counts of R157. -/
def Attempt.judged (m : Attempt) : Attempt :=
  { m.noteFirst m.fails.1 m.fails.2 with failRows := m.fails.1, failCols := m.fails.2 }.tally
    (m.fails.1 ≠ [] || m.fails.2 ≠ []) false

theorem Attempt.judged_toProduct (m : Attempt) : m.judged.toProduct = m.toProduct := by
  unfold Attempt.judged Attempt.noteFirst
  split <;> rfl

/-- The action of a tolerant product: PASS, or COUNTED when some line fails. -/
def Attempt.tolerantAction (m : Attempt) : Nat := if m.fails.1 ≠ [] || m.fails.2 ≠ [] then 5 else 0

/-- A tolerant attempt is delivered as computed, whatever its verdict. -/
theorem verdict_tolerant (s : State) (core : Nat) (m : Attempt) (hmode : m.mode = 2) :
    s.verdict core m = (((s.inject core m).1).leaveEngine core).mmaDone core (s.inject core m).2.judged
      (s.inject core m).2.got (some (s.inject core m).2.tolerantAction) := by
  have hm : (s.inject core m).2.mode = 2 := by rw [inject_toProduct, hmode]
  unfold State.verdict
  simp only [hm, if_true]
  rfl

theorem engineGo_of_issued_nil (s : State) (core : Nat) (h : (s.core core).issued = []) : s.engineGo core = s := by
  simp [State.engineGo, State.engineRun, h]

/-- The verdict step of an attempt, with nothing that waits for the engine. -/
theorem exec_mmaAttemptVerdict (s : State) (core : Nat) (m : Attempt) (ha : (s.core core).attempt = some m)
    (hp : m.phase = .attempt) (hc : s.clockOn core = true) :
    exec (.mmaAttemptVerdict core) s = .next ((s.verdict core m).engineGo core) := by
  have hexec : exec (.mmaAttemptVerdict core) s = execMmaAttemptVerdict core s := rfl
  simp [hexec, execMmaAttemptVerdict, ha, hp, hc]

/-- Settles O39: the verdict step delivers the attempt (`verdict_tolerant`), and the completed product's tile and record are
those of `mmaDone_elems` and `mmaDone_record`. -/
theorem tolerantRule : Obligations.TolerantRule := by
  unfold Obligations.TolerantRule
  intro s core m hattempt hphase hmode hclock hissued a hlen
  let u := (s.inject core m).1.leaveEngine core
  let t := u.mmaDone core a.judged a.got (some a.tolerantAction)
  have hprod : a.judged.toProduct = m.toProduct := (Attempt.judged_toProduct a).trans (inject_toProduct s core m)
  have hrest : (u.core core).attempt = none ∧ (u.core core).issued = [] := by
    simp [u, State.leaveEngine, inject_issued, hissued]
  have hcrew : u.crew (crewKey core m.cslot) = s.crew (crewKey core m.cslot) := inject_crew s core m _
  have hgo : t.engineGo core = t := engineGo_of_issued_nil t core (by rw [mmaDone_issued, hrest.2])
  have hexec : exec (.mmaAttemptVerdict core) s = .next t := by
    rw [exec_mmaAttemptVerdict s core m hattempt hphase hclock, verdict_tolerant s core m hmode, hgo]
  have helems := mmaDone_elems u core a.judged a.got (some a.tolerantAction) hlen
  have hrecord := mmaDone_record u core a.judged a.got a.tolerantAction
  rw [hprod] at helems hrecord
  rw [hcrew] at hrecord
  refine ⟨t, hexec, by rw [mmaDone_attempt, hrest.1], helems, _, hrecord, ?_, ?_⟩
  · rintro ⟨hrows, hcols⟩
    rw [Attempt.record_action, Attempt.tolerantAction]
    simp [hrows, hcols]
  · intro hfail
    rw [Attempt.record_action, Attempt.tolerantAction]
    simp [not_and_or.mp hfail]

end Sys2Proof.Machine
end

section
/-! REST (R46, R200): the fields of its word, the banks that the fold over its groups sends into RETAIN, and the step that
leaves them so. -/

namespace Sys2Proof.Machine

-- The I format (R167): the opcode on top, IMM at the bottom.

theorem packI_opc (opc : BitVec 8) (fn : BitVec 3) (x : IF) : (packI opc fn x).extractLsb' 56 8 = opc := by
  unfold packI
  iterate 6 refine (BitVec.extractLsb'_append_eq_of_le (by decide)).trans ?_
  exact BitVec.extractLsb'_append_eq_left

theorem packI_imm (opc : BitVec 8) (fn : BitVec 3) (x : IF) : (packI opc fn x).extractLsb' 0 32 = x.imm :=
  BitVec.extractLsb'_append_eq_right

theorem ifBare_iff (x : IF) : ifBare x = true ↔ x.d = 0 ∧ x.a = 0 ∧ x.la = false := by
  simp [ifBare, and_assoc]

/-- A value below 2^n has no bit from bit n on. -/
theorem extractLsb'_high_eq_zero {w : Nat} (v : BitVec w) (n m : Nat) (h : v.toNat < 2 ^ n) : v.extractLsb' n m = 0 := by
  apply BitVec.eq_of_toNat_eq
  rw [BitVec.extractLsb'_toNat, Nat.shiftRight_eq_div_pow, Nat.div_eq_of_lt h]
  simp

theorem rest_wellFormed_iff (reeve : Bool) (x : IF) :
    (Instr.rest x).WellFormed reeve = true ↔ (x.d = 0 ∧ x.a = 0 ∧ x.la = false) ∧ x.imm.toNat ≤ 255 := by
  have h : (Instr.rest x).WellFormed reeve = (ifBare x && decide (x.imm.toNat ≤ 255)) := rfl
  rw [h, Bool.and_eq_true, ifBare_iff, decide_eq_true_iff]

-- Banks sent into RETAIN (R46).

/-- A bank as it enters RETAIN. -/
def Bank.retained (x : Bank) : Bank := { x with st := .retain, waking := false, idle := none }

theorem canRetain_iff (w : Wave) (b : Nat) :
    w.canRetain b = true ↔ (w.bank b).st = .full ∧ w.bankLive b = true ∧ w.bankPend b = false := by
  simp [Wave.canRetain, and_assoc]

@[simp] theorem setBank_bank (w : Wave) (b c : Nat) (x : Bank) :
    (w.setBank b x).bank c = if c = b then x else w.bank c := by
  simp [Wave.setBank, Wave.bank, tget_tset]

theorem retain_bank (w : Wave) (b c : Nat) :
    (w.retain b).bank c = if c = b ∧ w.canRetain c = true then (w.bank c).retained else w.bank c := by
  unfold Wave.retain
  by_cases hb : w.canRetain b = true <;> by_cases hc : c = b <;> simp [hb, hc, Bank.retained]

/-- A bank's liveness and its pending results are not the supply's: only the bank itself decides whether it may enter RETAIN
after another has. -/
theorem retain_canRetain (w : Wave) (b c : Nat) :
    (w.retain b).canRetain c = (w.canRetain c && decide (c ≠ b)) := by
  have hlive : (w.retain b).bankLive c = w.bankLive c := by unfold Wave.retain; split <;> rfl
  have hpend : (w.retain b).bankPend c = w.bankPend c := by unfold Wave.retain; split <;> rfl
  rw [Wave.canRetain, hlive, hpend, retain_bank]
  by_cases hb : c = b
  · subst hb
    by_cases hc : w.canRetain c = true
    · simp [hc, Bank.retained]
    · rw [if_neg (fun h => hc h.2)]; simpa [Wave.canRetain] using hc
  · simp [hb, Wave.canRetain]

/-- A list of banks enters RETAIN: each of them that may, and no other. -/
theorem retain_fold_bank (w : Wave) (bs : List Nat) (c : Nat) :
    (bs.foldl Wave.retain w).bank c = if c ∈ bs ∧ w.canRetain c = true then (w.bank c).retained else w.bank c := by
  induction bs generalizing w with
  | nil => simp
  | cons b bs ih =>
    rw [List.foldl_cons, ih, retain_canRetain, retain_bank]
    by_cases hb : c = b <;> by_cases hc : w.canRetain c = true <;> simp [hb, hc]

theorem mem_groupBanks (w : Wave) (g : BitVec 8) (b : Nat) :
    b ∈ groupBanks w g ↔ b < 32 ∧ g.getLsbD (b / 4) = true ∧ 8 * b < w.allot := by
  simp [groupBanks]

-- A word without vector operands wakes no bank (R45).

theorem bank_congr (w u : Wave) (h : w.banks = u.banks) (b : Nat) : w.bank b = u.bank b := by simp [Wave.bank, h]

theorem used_banks (w : Wave) (i : Instr) : (w.used i).banks = w.banks := by
  unfold Wave.used
  split
  · obtain ⟨v, sl, h⟩ := lastUses_spec w (opdsOf i)
    rw [h]
  · rfl

theorem goPast_banks (w : Wave) (adv : Adv) : (w.goPast adv).banks = w.banks := by
  cases adv with
  | leave => rfl
  | step =>
    obtain ⟨⟨c, g, h⟩, -⟩ := advance_spec w
    show w.advance.banks = w.banks
    rw [h]

/-- A short word that writes no vector register retires, without a result, and leaves the supply of every bank as it was. -/
theorem retired_banks (w : Wave) (i : Instr) (adv : Adv) (hl : (lkOf i).long = false)
    (hd : (banksOf (opdsOf i) fun o => o.writes) = []) : (w.retired i [] adv).banks = w.banks := by
  have took (u : Wave) : (u.took i []).banks = u.banks := by
    simp [Wave.took, hl, hd, Wave.wake, Wave.countWindows]
  rw [Wave.retired, goPast_banks, took, used_banks]

/-- A word that may issue and writes no vector register runs its body and retires, whatever banks its body leaves in RETAIN: no
wake of a destination meets them (R44, R48). -/
theorem issue_run_of_no_destination (s s2 : State) (i : Instr) (body : State → Key → Wave → Eff) (res : List Res) (adv : Adv)
    (h : s.mayIssue i) (hd : (banksOf (opdsOf i) fun o => o.writes) = [])
    (hb : body (s.begun i) s.cur (s.readWave i) = .done s2 res adv) :
    s.issue i body = s2.retire s.cur i res adv := by
  obtain ⟨hlock, hbudget, hdead, hsound⟩ := h
  obtain ⟨bk, hwake, -⟩ := wake_spec (s.wave s.cur) (banksOf (opdsOf i) fun o => o.reads) hsound
  have hread : (s.wave s.cur).wake (banksOf (opdsOf i) fun o => o.reads) = (s.readWave i, none) := by
    rw [State.readWave, hwake]
  have hdone : body (s.setWave s.cur (s.readWave i)) s.cur (s.readWave i) = .done s2 res adv := hb
  have hnone : ((s2.wave s.cur).wake []).2 = none := rfl
  simp [State.issue, hlock, hbudget, hdead, hread, hdone, hd, hnone]

-- The step of REST (R200).

/-- The wave once the banks of a word's groups have entered RETAIN. -/
def Wave.rested (w : Wave) (x : IF) : Wave := (groupBanks w (x.imm.setWidth 8)).foldl Wave.retain w

theorem rested_bank (w : Wave) (x : IF) (b : Nat) :
    (w.rested x).bank b =
      if b ∈ groupBanks w (x.imm.setWidth 8) ∧ w.canRetain b = true then (w.bank b).retained else w.bank b :=
  retain_fold_bank w _ b

/-- The conditions of R200, with IMM[7:0] as the group mask. -/
theorem rests_iff (w : Wave) (x : IF) (b : Nat) :
    (b ∈ groupBanks w (x.imm.setWidth 8) ∧ w.canRetain b = true) ↔
      (w.bank b).st = .full ∧ b < 32 ∧ (x.imm.extractLsb' 0 8).getLsbD (b / 4) = true ∧ w.bankLive b = true ∧
        w.bankPend b = false ∧ 8 * b < w.allot := by
  rw [mem_groupBanks, canRetain_iff, BitVec.setWidth_eq_extractLsb' (by omega)]
  tauto

/-- REST names no vector register: at most the mask register of its predicate. -/
theorem rest_banksOf (x : IF) (p : Opd → Bool) : banksOf (opdsOf (.rest x)) p = [] := by
  have h : opdsOf (.rest x) = if x.pr = 0 then [] else [{ file := .k, reg := x.pr.toNat, reads := true }] := rfl
  rw [h]
  split <;> simp [banksOf]

theorem rest_readWave (s : State) (x : IF) : s.readWave (.rest x) = s.wave s.cur := by
  rw [State.readWave, rest_banksOf]
  rfl

/-- REST in some lane: the banks rest, and the word retires. -/
theorem rest_runsTo (s : State) (x : IF) (h : s.mayIssue (.rest x)) (hact : s.actOf (.rest x) ≠ 0) :
    runsTo s (.rest x) ((s.begun (.rest x)).modWave s.cur fun w => w.rested x) [] := by
  have hexec : exec (.rest x) s = execRest x s := rfl
  have hlanes : (s.readWave (.rest x)).act x.pr x.pn ≠ 0 := by rw [rest_readWave]; exact hact
  unfold runsTo
  rw [hexec, execRest, issue_run_of_no_destination s _ (.rest x) _ [] .step h (rest_banksOf x _) (if_neg hlanes)]
  rfl

/-- Retiring REST moves no bank further: they stand as its body left them. -/
theorem rest_wave_bank (s : State) (x : IF) (b : Nat) :
    ((((s.begun (.rest x)).modWave s.cur fun w => w.rested x).retired s.cur (.rest x) []).wave s.cur).bank b =
      ((s.wave s.cur).rested x).bank b := by
  obtain ⟨-, hwave, -⟩ :=
    retire_counts ((s.begun (.rest x)).modWave s.cur fun w => w.rested x) s.cur (.rest x) [] .step
  apply bank_congr
  rw [State.retired, hwave, if_pos rfl, retired_banks _ _ _ rfl (rest_banksOf x _), State.modWave_wave, if_pos rfl,
    begun_wave, rest_readWave]

/-- Settles O22: the word by `packI_opc` and `packI_imm`, the step by `rest_runsTo`, its banks by `rested_bank`. -/
theorem restRule : Obligations.RestRule := by
  unfold Obligations.RestRule
  intro x hwf
  obtain ⟨hbare, himm⟩ := (rest_wellFormed_iff false x).mp hwf
  refine ⟨⟨extractLsb'_high_eq_zero x.imm 8 24 (by omega), hbare⟩, ⟨_, rfl, packI_opc _ _ x, packI_imm _ _ x⟩, ?_⟩
  intro s hissue hact
  refine ⟨_, rest_runsTo s x hissue hact, fun b => ?_⟩
  rw [rest_wave_bank, rested_bank, apply_ite Bank.st]
  exact if_congr (rests_iff (s.wave s.cur) x b) rfl rfl

end Sys2Proof.Machine
end

section
/-! Integer words of a vector or a scalar form (R209): the operands that their bodies read, the registers in which their
results stand, and the words that are decoded from OPC 0x20 to 0x47 with a type and a sub-function (R172). -/

namespace Sys2Proof.Machine

-- Groups of registers as numbers (R36).

/-- The n words of f from r as one number, the first lowest. -/
def joinWords (f : Nat → Word) (r : Nat) : Nat → Nat
  | 0 => 0
  | n + 1 => (f r).toNat + 2 ^ 32 * joinWords f (r + 1) n

theorem rvn_eq_joinWords (w : Wave) (r n : Nat) (l : Fin 32) : w.rvn r n l = joinWords (fun q => w.rv q l) r n := by
  induction n generalizing r with
  | zero => rfl
  | succ n ih => rw [Wave.rvn, joinWords, ih]

theorem rsn_eq_joinWords (w : Wave) (r n : Nat) : w.rsn r n = joinWords w.rs r n := by
  induction n generalizing r with
  | zero => rfl
  | succ n ih => rw [Wave.rsn, joinWords, ih]

/-- The words of a number, joined again, are the number as far as they reach. -/
theorem joinWords_of_wordAt (f : Nat → Word) (r n v : Nat) (h : ∀ q, r ≤ q → q < r + n → f q = wordAt v (q - r)) :
    joinWords f r n = v % 2 ^ (32 * n) := by
  induction n generalizing r v with
  | zero => simp [joinWords, Nat.mod_one]
  | succ n ih =>
    have hfirst : (f r).toNat = v % 2 ^ 32 := by
      rw [h r (by omega) (by omega), Nat.sub_self, wordAt]
      simp
    have hrest : joinWords f (r + 1) n = v / 2 ^ 32 % 2 ^ (32 * n) := by
      refine ih (r + 1) (v / 2 ^ 32) fun q h1 h2 => ?_
      have hq : 32 * (q - r) = 32 + 32 * (q - (r + 1)) := by omega
      rw [h q (by omega) (by omega), wordAt, wordAt, hq, Nat.shiftRight_add, Nat.shiftRight_eq_div_pow v]
    have hpow : 2 ^ (32 * (n + 1)) = 2 ^ 32 * 2 ^ (32 * n) := by rw [← pow_add]; congr 1; omega
    rw [joinWords, hfirst, hrest, hpow, Nat.mod_mul]

/-- A vector group reads in a lane of the mask as the number written into it. -/
theorem WroteV.rvn_eq {w u : Wave} {r n : Nat} {m : LaneMask} {f : Fin 32 → Nat} (h : WroteV w u r n m f) (l : Fin 32)
    (hl : inMask m l = true) : u.rvn r n l = f l % 2 ^ (32 * n) := by
  have hm : m ≠ 0 := fun h0 => by simp [inMask, h0] at hl
  rw [rvn_eq_joinWords]
  refine joinWords_of_wordAt _ r n (f l) fun q h1 h2 => ?_
  rw [h.v q l, if_pos ⟨h1, h2, hm⟩, if_pos hl]

/-- A scalar group reads as the number written into it. -/
theorem WroteS.rsn_eq {w u : Wave} {r n : Nat} {m : LaneMask} {v : Nat} (h : WroteS w u r n m v) (hm : m ≠ 0) :
    u.rsn r n = v % 2 ^ (32 * n) := by
  rw [rsn_eq_joinWords]
  refine joinWords_of_wordAt _ r n v fun q h1 h2 => ?_
  rw [h.s q, if_pos ⟨h1, h2, hm⟩]

-- A body reads the operands of the state at issue: waking banks changes no register.

theorem rvn_congr (w u : Wave) (h : w.v = u.v) (r n : Nat) (l : Fin 32) : w.rvn r n l = u.rvn r n l := by
  rw [rvn_eq_joinWords, rvn_eq_joinWords, funext fun q => rv_congr w u h q l]

theorem rsn_congr (w u : Wave) (h : w.sreg = u.sreg) (r n : Nat) : w.rsn r n = u.rsn r n := by
  rw [rsn_eq_joinWords, rsn_eq_joinWords, funext (rs_congr w u h)]

theorem readWave_rvn (s : State) (i : Instr) (h : s.mayIssue i) (r n : Nat) (l : Fin 32) :
    (s.readWave i).rvn r n l = (s.wave s.cur).rvn r n l := by
  obtain ⟨bk, hread, -⟩ := readWave_spec s i h
  exact rvn_congr _ _ (by rw [hread]) r n l

theorem readWave_rsn (s : State) (i : Instr) (h : s.mayIssue i) (r n : Nat) :
    (s.readWave i).rsn r n = (s.wave s.cur).rsn r n := by
  obtain ⟨bk, hread, -⟩ := readWave_spec s i h
  exact rsn_congr _ _ (by rw [hread]) r n

theorem readWave_k (s : State) (i : Instr) (h : s.mayIssue i) (q : Nat) : (s.readWave i).k q = (s.wave s.cur).k q := by
  obtain ⟨bk, hread, -⟩ := readWave_spec s i h
  exact k_congr _ _ (by rw [hread]) q

theorem bInt_begun (s : State) (i : Instr) (h : s.mayIssue i) (x : VF) (n : Nat) (l : Fin 32) :
    (s.begun i).bInt s.cur (s.readWave i) x n l = s.bInt s.cur (s.wave s.cur) x n l := by
  have hspecial : (s.begun i).special s.cur x.b.toNat l = s.special s.cur x.b.toNat l := rfl
  rw [State.bInt, State.bInt, hspecial, readWave_rvn s i h, readWave_rsn s i h]

theorem srcV_begun (s : State) (i : Instr) (h : s.mayIssue i) (x : VF) (na nb nc : Nat) (l : Fin 32) :
    (s.begun i).srcV s.cur (s.readWave i) x na nb nc l = s.srcV s.cur (s.wave s.cur) x na nb nc l := by
  simp only [State.srcV, bInt_begun s i h, readWave_rvn s i h]

theorem srcS_begun (s : State) (i : Instr) (h : s.mayIssue i) (x : VF) (na nb nc : Nat) :
    (s.begun i).srcS s.cur (s.readWave i) x na nb nc = s.srcS s.cur (s.wave s.cur) x na nb nc := by
  simp only [State.srcS, bInt_begun s i h, readWave_rsn s i h]

-- The step of a word of two forms.

/-- Where a body leaves flags and generators alone, its state is the one in which it began. -/
theorem bodyState_same (s : State) (i : Instr) (h : s.mayIssue i) :
    s.bodyState i (s.wave s.cur).fpflags (s.wave s.cur).srseed = s.begun i := by
  obtain ⟨bk, hread, -⟩ := readWave_spec s i h
  rw [State.bodyState, State.bodyWave, State.begun, hread]

/-- A short word whose body answers one result, of its scalar or of its vector form, and does no more. -/
theorem short_form (s : State) (i : Instr) (body : State → Key → Wave → Eff) (sf : Bool) (r n : Nat) (m : LaneMask) (v : Nat)
    (f : Fin 32 → Nat) (h : s.mayIssue i) (hl : (lkOf i).long = false)
    (hb : body (s.begun i) s.cur (s.readWave i) = .done (s.begun i) [if sf then resS r n m v else resV r n m f]) :
    let t := s.issue i body
    s.ran t ∧ (s.wave s.cur).plain (t.wave s.cur) ∧
      if sf then WroteS (s.usedWave i) (t.wave s.cur) r n m v else WroteV (s.usedWave i) (t.wave s.cur) r n m f := by
  have hbody : body (s.begun i) s.cur (s.readWave i) =
      .done (s.bodyState i (s.wave s.cur).fpflags (s.wave s.cur).srseed) [if sf then resS r n m v else resV r n m f] := by
    rw [bodyState_same s i h]; exact hb
  cases sf with
  | true =>
    obtain ⟨hran, hwrote, hfl, hsr, hsb, hpend⟩ := short_s s i body _ _ r n m v h hl hbody
    exact ⟨hran, ⟨hfl, hsr, hsb, hpend⟩, hwrote⟩
  | false =>
    obtain ⟨hran, hwrote, hfl, hsr, hsb, hpend⟩ := short_v s i body _ _ r n m f h hl hbody
    exact ⟨hran, ⟨hfl, hsr, hsb, hpend⟩, hwrote⟩

theorem lkOf_of_vfOf (i : Instr) (x : VF) (hx : vfOf i = some x) : lkOf i = lkV i x := by
  rw [lkOf, hx]

/-- The lanes in which the body of a V word executes (R165). -/
theorem act_begun (s : State) (i : Instr) (x : VF) (hx : vfOf i = some x) (h : s.mayIssue i) :
    (s.readWave i).act x.pr x.pn = s.actOf i := by
  rw [readWave_act s i h, State.actOf, lkOf_of_vfOf i x hx]
  rfl

/-- IntExec of R209, on a short word: its destination holds the value of its operands. -/
theorem intBody_completes (s : State) (i : Instr) (sf : Bool) (x : VF) (n : Nat) (op : Srcs → Nat)
    (hx : vfOf i = some x) (hl : (vshape i).long = false) (hn : (vshape i).d.width = n)
    (he : exec i s = .next (s.issue i (intBody i sf x op))) (h : s.mayIssue i) :
    intCompletes s i ⟨sf, x, n, op⟩ := by
  have hlong : (lkOf i).long = false := by rw [lkOf_of_vfOf i x hx]; exact hl
  refine ⟨_, he, short_form s i _ sf _ n _ _ _ h hlong ?_⟩
  simp only [intBody, widths, act_begun s i x hx h, srcV_begun s i h, srcS_begun s i h, hn]

/-- The logical words and MOV complete with the value of their rule (R216, R217, R222). -/
theorem logicRule_completes (s : State) (i : Instr) (r : IntRule) (hr : logicRule i = some r) (h : s.mayIssue i) :
    intCompletes s i r := by
  unfold logicRule at hr
  split at hr <;> cases hr <;> exact intBody_completes s _ _ _ _ _ rfl rfl rfl rfl h

end Sys2Proof.Machine
end

section
/-! The words of ISEL and of the bitwise operations (R172, R215, R216): what the decoder assigns to them, by opcode, type and
sub-function, and the words of ISEL's opcodes that are ILLEGAL. -/

namespace Sys2Proof.Machine

/-- A word that decodes carries its opcode and function codes, and is well formed (R164). -/
theorem parseWave_of_decodeWave (reeve : Bool) (w : Dword) (i : Instr) (h : decodeWave reeve w = .ok i) :
    parseWave w = some i ∧ i.WellFormed reeve = true := by
  unfold decodeWave at h
  split at h
  · cases h
  split at h
  · cases h
  split at h
  · cases h
  next j hj =>
    split at h
    next hwf => cases h; exact ⟨hj, hwf⟩
    next => cases h

/-- What R172 assigns to ISEL and to the bitwise words: the even opcode, the form, the type and the sub-function. -/
def typedForm : Instr → Option (Nat × Bool × ITy × Nat)
  | .isel sf ty _ => some (0x30, sf, ty, 0)
  | .and sf ty _ => some (0x32, sf, ty, 0)
  | .or sf ty _ => some (0x32, sf, ty, 1)
  | .xor sf ty _ => some (0x32, sf, ty, 2)
  | .not sf ty _ => some (0x32, sf, ty, 3)
  | _ => none

-- The parsers of control, floating, converting, memory, cross-lane and privileged words assign no word of these.

theorem parseControl_typedForm (opc : Nat) (w : Dword) : (parseControl opc w).bind typedForm = none := by
  unfold parseControl
  dsimp only
  repeat' split
  all_goals rfl

theorem parseFloat_typedForm (opc : Nat) (ft : FTy) (mode sub : Nat) (x : VF) : (parseFloat opc ft mode sub x).bind typedForm = none := by
  unfold parseFloat
  dsimp only
  repeat' split
  all_goals simp [typedForm]

theorem parseConvert_typedForm (opc : Nat) (w : Dword) : (parseConvert opc w).bind typedForm = none := by
  unfold parseConvert
  dsimp only
  repeat' split
  all_goals simp [typedForm, Option.bind_assoc]

theorem parseMem_typedForm (opc : Nat) (w : Dword) : (parseMem opc w).bind typedForm = none := by
  unfold parseMem
  dsimp only
  repeat' split
  all_goals simp [typedForm]

theorem parseCross_typedForm (opc : Nat) (w : Dword) : (parseCross opc w).bind typedForm = none := by
  unfold parseCross
  dsimp only
  repeat' split
  all_goals simp [typedForm, Option.bind_assoc]

theorem parsePriv_typedForm (opc : Nat) (w : Dword) : (parsePriv opc w).bind typedForm = none := by
  unfold parsePriv
  dsimp only
  repeat' split
  all_goals rfl

theorem parseIntTy_typedForm (base : Nat) (sf : Bool) (ty : ITy) (sub : Nat) (x : VF) (c : Nat × Bool × ITy × Nat)
    (h : (parseIntTy base sf ty sub x).bind typedForm = some c) : c = (base, sf, ty, sub) := by
  unfold parseIntTy at h
  repeat' split at h
  all_goals simp_all [typedForm, Option.bind_eq_some_iff]

theorem parseInt_typedForm (opc : Nat) (w : Dword) (b n : Nat) (sf : Bool) (ty : ITy)
    (h : (parseInt opc w).bind typedForm = some (b, sf, ty, n)) :
    b = opc / 2 * 2 ∧ sf = (opc % 2 == 1) ∧ itype (fld w 53 3).toNat = some ty ∧ n = (fld w 49 4).toNat := by
  unfold parseInt at h
  dsimp only at h
  split at h
  · cases h
  · cases h
  · simp [typedForm, Option.bind_eq_some_iff] at h
  · rw [Option.bind_assoc, Option.bind_eq_some_iff] at h
    obtain ⟨ty', hty, hform⟩ := h
    cases parseIntTy_typedForm _ _ _ _ _ _ hform
    exact ⟨rfl, rfl, hty, rfl⟩

/-- Only the opcodes of the integer words are assigned to ISEL and the bitwise words. -/
theorem parseWave_typedForm (w : Dword) (b n : Nat) (sf : Bool) (ty : ITy)
    (h : (parseWave w).bind typedForm = some (b, sf, ty, n)) :
    b = opcOf w / 2 * 2 ∧ sf = (opcOf w % 2 == 1) ∧ itype (fld w 53 3).toNat = some ty ∧ n = (fld w 49 4).toNat := by
  unfold parseWave at h
  dsimp only at h
  split at h
  · rw [parseControl_typedForm] at h
    cases h
  split at h
  · exact parseInt_typedForm _ _ _ _ _ _ h
  · simp only [apply_ite (Option.bind · typedForm), parseFloat_typedForm, parseConvert_typedForm, parseMem_typedForm,
      parseCross_typedForm, parsePriv_typedForm] at h
    simp [typedForm] at h

/-- The opcode, the type and the sub-function in the word of ISEL or of a bitwise operation (R172). -/
theorem decodeWave_typedForm (reeve : Bool) (w : Dword) (i : Instr) (b n : Nat) (sf : Bool) (ty : ITy)
    (h : decodeWave reeve w = .ok i) (hform : typedForm i = some (b, sf, ty, n)) :
    (w.extractLsb' 56 8).toNat = b + sf.toNat ∧ itype (w.extractLsb' 53 3).toNat = some ty ∧
      (w.extractLsb' 49 4).toNat = n := by
  obtain ⟨hparse, -⟩ := parseWave_of_decodeWave reeve w i h
  obtain ⟨hb, hsf, hty, hn⟩ := parseWave_typedForm w b n sf ty (by rw [hparse, Option.bind_some, hform])
  refine ⟨?_, hty, hn.symm⟩
  have hopc : opcOf w = b + sf.toNat := by
    rcases Nat.mod_two_eq_zero_or_one (opcOf w) with h2 | h2 <;> simp [hsf, h2] <;> omega
  exact hopc

theorem itype_eq_some (n : Nat) (ty : ITy) (h : itype n = some ty) : n = (itypeCode ty).toNat := by
  unfold itype at h
  split at h <;> cases h <;> rfl

theorem isBits_iff (ty : ITy) : ty.isBits = true ↔ ty = .b32 ∨ ty = .b64 := by
  cases ty <;> decide

/-- The opcode's high half is the word's TAG: below 0xF0 it is no header's (R161). -/
theorem isHeader_of_opcOf (w : Dword) (h : opcOf w < 0xF0) : isHeader w = false := by
  have hw := w.isLt
  have htag : (fld w 60 4).toNat ≠ 15 := by
    unfold opcOf at h
    simp only [fld, BitVec.extractLsb'_toNat, Nat.shiftRight_eq_div_pow] at h ⊢
    omega
  rw [isHeader, beq_eq_false_iff_ne]
  exact fun heq => htag (by rw [heq]; rfl)

/-- A word of no privileged opcode is ILLEGAL where what it is assigned to is not well formed (R164). -/
theorem decodeWave_illegal (reeve : Bool) (w : Dword) (hopc : opcOf w < 0xC0)
    (h : ∀ i, parseWave w = some i → i.WellFormed reeve = false) : decodeWave reeve w = .illegal := by
  have hpriv : ¬0xC0 ≤ opcOf w := by omega
  rw [decodeWave, isHeader_of_opcOf w (by omega)]
  cases hp : parseWave w with
  | none => simp [hpriv]
  | some i => simp [hpriv, h i hp]

/-- The opcodes 0x30 and 0x31 are assigned to ISEL alone. -/
theorem parseWave_isel (w : Dword) (i : Instr) (hopc : opcOf w / 2 * 2 = 0x30) (h : parseWave w = some i) :
    ∃ sf ty, i = .isel sf ty (unpackV w) := by
  have hint : parseWave w = parseInt (opcOf w) w := by
    rw [parseWave, if_neg (by omega), if_pos (by omega)]
  rw [hint, parseInt, hopc] at h
  obtain ⟨ty, -, hty⟩ := Option.bind_eq_some_iff.mp h
  rw [parseIntTy] at hty
  split at hty
  · exact ⟨_, ty, (Option.some.inj hty).symm⟩
  · cases hty

theorem isel_wellFormed (reeve sf : Bool) (ty : ITy) (x : VF) (h : (Instr.isel sf ty x).WellFormed reeve = true) :
    (ty = .b32 ∨ ty = .b64) ∧ x.c.toNat < 8 ∧ x.lc = false := by
  have hshape : (Instr.isel sf ty x).WellFormed reeve = (ty.isBits && (vshape (.isel sf ty x)).ok x) := rfl
  rw [hshape, Bool.and_eq_true, isBits_iff] at h
  obtain ⟨hty, hok⟩ := h
  have hc : fieldOk (.reg .k 1) true x.c x.lc = true := by
    simp only [VShape.ok, Bool.and_eq_true] at hok
    exact hok.1.2
  refine ⟨hty, ?_⟩
  simpa [fieldOk, groupOk] using hc

/-- C[7:3] is zero where C names a mask register. -/
theorem maskField_high (w : Dword) (h : (unpackV w).c.toNat < 8) : w.extractLsb' 14 5 = 0 := by
  have hc : (fld w 11 8).toNat < 8 := h
  apply BitVec.eq_of_toNat_eq
  simp only [fld, BitVec.extractLsb'_toNat, Nat.shiftRight_eq_div_pow] at hc ⊢
  simp only [BitVec.ofNat_eq_ofNat, BitVec.toNat_ofNat]
  omega

/-- ISEL completes: each lane of its mask takes A or B by the bit of the mask register, and so does the scalar form by the bit of
the lowest lane (R215). -/
theorem isel_completes (s : State) (sf : Bool) (ty : ITy) (x : VF) (h : s.mayIssue (.isel sf ty x)) :
    let t := s.issue (.isel sf ty x) (iselBody sf ty x)
    let m := s.actOf (.isel sf ty x)
    let kc := (s.wave s.cur).k x.c.toNat
    s.ran t ∧ (s.wave s.cur).plain (t.wave s.cur) ∧
      if sf then WroteS (s.usedWave (.isel sf ty x)) (t.wave s.cur) x.d.toNat ty.regs m
        (if inMask kc (lowLane m) then (s.srcS s.cur (s.wave s.cur) x ty.regs ty.regs 0).a
          else (s.srcS s.cur (s.wave s.cur) x ty.regs ty.regs 0).b)
      else WroteV (s.usedWave (.isel sf ty x)) (t.wave s.cur) x.d.toNat ty.regs m fun l =>
        if inMask kc l then (s.srcV s.cur (s.wave s.cur) x ty.regs ty.regs 0 l).a
          else (s.srcV s.cur (s.wave s.cur) x ty.regs ty.regs 0 l).b := by
  refine short_form s _ _ sf _ _ _ _ _ h rfl ?_
  simp only [iselBody, act_begun s _ x rfl h, srcV_begun s _ h, srcS_begun s _ h, readWave_k s _ h]

/-- Settles O8: the fields by `isel_wellFormed`, the opcode by `decodeWave_typedForm`, the ILLEGAL words by `decodeWave_illegal`
and `parseWave_isel`, the step by `isel_completes`. -/
theorem selectRule : Obligations.SelectRule := by
  unfold Obligations.SelectRule
  refine ⟨isel_wellFormed, fun reeve w sf ty x h => ?_, fun reeve w hopc hbits => ?_, fun s sf ty x h => ?_⟩
  · obtain ⟨hopc, -, -⟩ := decodeWave_typedForm reeve w _ _ _ sf ty h rfl
    apply BitVec.eq_of_toNat_eq
    rw [hopc]
    cases sf <;> rfl
  · have hopc' : opcOf w = 0x30 ∨ opcOf w = 0x31 := hopc.imp (congrArg BitVec.toNat) (congrArg BitVec.toNat)
    refine decodeWave_illegal reeve w (by omega) fun i hi => ?_
    obtain ⟨sf, ty, rfl⟩ := parseWave_isel w i (by omega) hi
    refine Bool.eq_false_iff.mpr fun hwf => ?_
    obtain ⟨-, hc, hlc⟩ := isel_wellFormed reeve sf ty _ hwf
    rcases hbits with hbits | hbits
    · exact hbits (maskField_high w hc)
    · exact absurd hbits (Bool.eq_false_iff.mp hlc)
  · exact ⟨_, rfl, isel_completes s sf ty x h⟩

end Sys2Proof.Machine
end

section
/-! AND, OR, XOR and NOT (R216): the bits of their values, and what their words hold. -/

namespace Sys2Proof.Machine

/-- The four bitwise words, each with its sub-function and its operation on a bit (R216). -/
def IsBitwise (sf : Bool) (ty : ITy) (x : VF) (i : Instr) (sub : BitVec 4) (f : Bool → Bool → Bool) : Prop :=
  (i = .and sf ty x ∧ sub = 0 ∧ f = and) ∨ (i = .or sf ty x ∧ sub = 1 ∧ f = or) ∨ (i = .xor sf ty x ∧ sub = 2 ∧ f = xor) ∨
    (i = .not sf ty x ∧ sub = 3 ∧ f = fun a _ => !a)

theorem intB_width (sf : Bool) (n : Nat) : max (intB sf n).v (intB sf n).s = n := by
  cases sf <;> simp [intB]

section
variable {sf : Bool} {ty : ITy} {x : VF} {i : Instr} {sub : BitVec 4} {f : Bool → Bool → Bool}

theorem IsBitwise.typedForm_eq (h : IsBitwise sf ty x i sub f) : typedForm i = some (0x32, sf, ty, sub.toNat) := by
  rcases h with ⟨rfl, rfl, -⟩ | ⟨rfl, rfl, -⟩ | ⟨rfl, rfl, -⟩ | ⟨rfl, rfl, -⟩ <;> rfl

theorem IsBitwise.type_eq (h : IsBitwise sf ty x i sub f) (reeve : Bool) (hwf : i.WellFormed reeve = true) :
    ty = .b32 ∨ ty = .b64 := by
  have hshape : i.WellFormed reeve = (ty.isBits && (vshape i).ok x) := by
    rcases h with ⟨rfl, -⟩ | ⟨rfl, -⟩ | ⟨rfl, -⟩ | ⟨rfl, -⟩ <;> rfl
  rw [hshape, Bool.and_eq_true] at hwf
  exact (isBits_iff ty).mp hwf.1

/-- A is read at the width of the type, and so is B where the operation depends on it. -/
theorem IsBitwise.widths_eq (h : IsBitwise sf ty x i sub f) :
    (widths i).1 = ty.regs ∧ ((widths i).2.1 = ty.regs ∨ ∀ a b c, f a b = f a c) := by
  rcases h with ⟨rfl, -, rfl⟩ | ⟨rfl, -, rfl⟩ | ⟨rfl, -, rfl⟩ | ⟨rfl, -, rfl⟩
  · exact ⟨rfl, .inl (intB_width sf ty.regs)⟩
  · exact ⟨rfl, .inl (intB_width sf ty.regs)⟩
  · exact ⟨rfl, .inl (intB_width sf ty.regs)⟩
  · exact ⟨rfl, .inr fun _ _ _ => rfl⟩

/-- The complement to 2^w - 1 inverts each of the w bits. -/
theorem testBit_complement (w a n : Nat) (hn : n < w) : (2 ^ w - 1 - a % 2 ^ w).testBit n = !a.testBit n := by
  have hlt : a % 2 ^ w < 2 ^ w := Nat.mod_lt _ (Nat.two_pow_pos w)
  rw [Nat.sub_sub, Nat.add_comm 1, Nat.testBit_two_pow_sub_succ hlt, Nat.testBit_mod_two_pow]
  simp [hn]

/-- The rule of a bitwise word takes the operation on each bit. -/
theorem IsBitwise.logicRule_eq (h : IsBitwise sf ty x i sub f) :
    ∃ op, logicRule i = some ⟨sf, x, ty.regs, op⟩ ∧
      ∀ (o : Srcs) (n : Nat), n < tyBits ty → (op o).testBit n = f (o.a.testBit n) (o.b.testBit n) := by
  rcases h with ⟨rfl, -, rfl⟩ | ⟨rfl, -, rfl⟩ | ⟨rfl, -, rfl⟩ | ⟨rfl, -, rfl⟩
  · exact ⟨_, rfl, fun o n _ => Nat.testBit_and o.a o.b n⟩
  · exact ⟨_, rfl, fun o n _ => Nat.testBit_or o.a o.b n⟩
  · exact ⟨_, rfl, fun o n _ => Nat.testBit_xor o.a o.b n⟩
  · exact ⟨_, rfl, fun o n hn => testBit_complement _ _ n hn⟩

/-- A bitwise word completes, and each bit of its destination is the operation on the bits of its operands. -/
theorem IsBitwise.completes (h : IsBitwise sf ty x i sub f) (s : State) (hissue : s.mayIssue i) :
    ∃ t, exec i s = .next t ∧
      if sf then ∀ n, n < tyBits ty → s.actOf i ≠ 0 →
        ((t.wave s.cur).rsn x.d.toNat ty.regs).testBit n =
          f ((s.srcS s.cur (s.wave s.cur) x ty.regs ty.regs 0).a.testBit n)
            ((s.srcS s.cur (s.wave s.cur) x ty.regs ty.regs 0).b.testBit n)
      else ∀ (l : Fin 32) (n : Nat), n < tyBits ty → inMask (s.actOf i) l = true →
        ((t.wave s.cur).rvn x.d.toNat ty.regs l).testBit n =
          f ((s.srcV s.cur (s.wave s.cur) x ty.regs ty.regs 0 l).a.testBit n)
            ((s.srcV s.cur (s.wave s.cur) x ty.regs ty.regs 0 l).b.testBit n) := by
  obtain ⟨op, hrule, hop⟩ := h.logicRule_eq
  obtain ⟨hna, hnb⟩ := h.widths_eq
  have hbit : ∀ (o o' : Srcs) (n : Nat), n < tyBits ty → o.a = o'.a → ((widths i).2.1 = ty.regs → o.b = o'.b) →
      (op o % 2 ^ (32 * ty.regs)).testBit n = f (o'.a.testBit n) (o'.b.testBit n) := by
    intro o o' n hn ha hb
    rw [Nat.testBit_mod_two_pow, decide_eq_true (show n < 32 * ty.regs from hn), Bool.true_and, hop o n hn, ha]
    rcases hnb with hnb | hnb
    · rw [hb hnb]
    · exact hnb _ _ _
  obtain ⟨t, hexec, -, -, hwrote⟩ := logicRule_completes s i _ hrule hissue
  refine ⟨t, hexec, ?_⟩
  cases sf with
  | true =>
    intro n hn hm
    rw [WroteS.rsn_eq hwrote hm]
    exact hbit _ _ n hn (congrArg ((s.wave s.cur).rsn x.a.toNat) hna) (congrArg (s.bInt s.cur (s.wave s.cur) x · 0))
  | false =>
    intro l n hn hl
    rw [WroteV.rvn_eq hwrote l hl]
    exact hbit _ _ n hn (congrArg ((s.wave s.cur).rvn x.a.toNat · l) hna)
      (congrArg (s.bInt s.cur (s.wave s.cur) x · l))

end

/-- NOT reads A, and at most the mask register of its predicate beside it. -/
theorem not_reads (sf : Bool) (ty : ITy) (x : VF) (o : Opd) (ho : o ∈ opdsOf (.not sf ty x)) (hr : o.reads = true)
    (hf : o.file = formFile sf) : o.reg = x.a.toNat := by
  have hopds : opdsOf (.not sf ty x) =
      [{ file := formFile sf, reg := x.a.toNat, n := ty.regs, reads := true, last := x.la },
        { file := formFile sf, reg := x.d.toNat, n := ty.regs, writes := true }] ++
      if x.pr = 0 then [] else [{ file := .k, reg := x.pr.toNat, reads := true }] := rfl
  rw [hopds, List.mem_append, List.mem_cons, List.mem_singleton] at ho
  rcases ho with (rfl | rfl) | ho
  · rfl
  · cases hr
  · split at ho
    · cases ho
    · rw [List.mem_singleton.mp ho] at hf
      cases sf <;> cases hf

/-- Settles O6: the type and the fields by `IsBitwise.type_eq` and `decodeWave_typedForm`, the operands of NOT by `not_reads`, the
bits of the result by `IsBitwise.completes`. -/
theorem bitwiseRule : Obligations.BitwiseRule := by
  unfold Obligations.BitwiseRule
  intro sf ty x i sub f h
  have hword : IsBitwise sf ty x i sub f := h
  refine ⟨hword.type_eq, fun reeve w hdec => ?_, ?_, fun s _ hissue => hword.completes s hissue⟩
  · obtain ⟨hopc, hty, hsub⟩ := decodeWave_typedForm reeve w i _ _ sf ty hdec hword.typedForm_eq
    refine ⟨?_, BitVec.eq_of_toNat_eq hsub, ?_⟩
    · apply BitVec.eq_of_toNat_eq
      rw [hopc]
      cases sf <;> rfl
    · have hcode : w.extractLsb' 53 3 = itypeCode ty := BitVec.eq_of_toNat_eq (itype_eq_some _ ty hty)
      rw [hcode]
      obtain ⟨-, hwf⟩ := parseWave_of_decodeWave reeve w i hdec
      exact (hword.type_eq reeve hwf).imp (congrArg itypeCode) (congrArg itypeCode)
  · rintro rfl _ _ o ho hr hf
    exact not_reads sf ty x o ho hr hf

end Sys2Proof.Machine
end

section
/-! MREGION (R300): the words that carry it, and the step that writes the MODE of its crew and leaves the products already issued
as they are. -/

namespace Sys2Proof.Machine

-- The word: the decoder of the matrix stream (R288) and the fields of MREGION.

theorem decodeSeq_eq_ok_iff (w : Dword) (i : Instr) :
    decodeSeq w = .ok i ↔ parseSeq w = some i ∧ i.WellFormed false = true := by
  unfold decodeSeq
  split
  next hnone => simp [hnone]
  next j hsome =>
    rw [hsome, Option.some.injEq]
    split
    next hwf => exact ⟨by rintro ⟨⟩; exact ⟨rfl, hwf⟩, fun ⟨hj, _⟩ => by rw [hj]⟩
    next hwf => exact ⟨by rintro ⟨⟩, fun ⟨hj, hi⟩ => absurd (hj ▸ hi) hwf⟩

theorem decodeSeq_eq_illegal (w : Dword) (i : Instr) (hparse : parseSeq w = some i) (hwf : i.WellFormed false = false) :
    decodeSeq w = .illegal := by
  simp [decodeSeq, hparse, hwf]

theorem mregion_wellFormed_iff (reeve : Bool) (mode : BitVec 2) : (Instr.mregion mode).WellFormed reeve = true ↔ mode ≠ 3 := by
  have h : (Instr.mregion mode).WellFormed reeve = decide (mode.toNat ≤ 2) := rfl
  rw [h, decide_eq_true_iff]
  bv_omega

/-- MOPC 0x12 alone is assigned to MREGION. -/
theorem opcOf_of_parseSeq_mregion (w : Dword) (mode : BitVec 2) (h : parseSeq w = some (.mregion mode)) : opcOf w = 0x12 := by
  by_contra hopc
  revert h
  unfold parseSeq
  repeat' split
  all_goals simp_all

theorem parseSeq_eq_mregion_iff (w : Dword) (mode : BitVec 2) :
    parseSeq w = some (.mregion mode) ↔ opcOf w = 0x12 ∧ fld w 0 54 = 0 ∧ fld w 54 2 = mode := by
  have harm (hopc : opcOf w = 0x12) : parseSeq w = if fld w 0 54 == 0 then some (.mregion (fld w 54 2)) else none := by
    simp [parseSeq, hopc]
  constructor
  · intro h
    have hopc := opcOf_of_parseSeq_mregion w mode h
    rw [harm hopc] at h
    simpa [hopc] using h
  · rintro ⟨hopc, hlow, hmode⟩
    simp [harm hopc, hlow, hmode]

/-- MOPC, MODE and the zero bits fill the word. -/
theorem mregion_fields_iff (w : Dword) (mode : BitVec 2) :
    (opcOf w = 0x12 ∧ fld w 0 54 = 0 ∧ fld w 54 2 = mode) ↔ w = (0x12#8 ++ mode ++ 0#54) := by
  constructor
  · rintro ⟨hopc, hlow, hmode⟩
    have htop : fld w 56 8 = 0x12#8 := BitVec.eq_of_toNat_eq hopc
    have hhigh : fld w 56 8 ++ fld w 54 2 = w.extractLsb' 54 10 := BitVec.extractLsb'_append_extractLsb'_eq_extractLsb' rfl
    have hall : w.extractLsb' 54 10 ++ fld w 0 54 = w :=
      (BitVec.extractLsb'_append_extractLsb'_eq_extractLsb' rfl).trans BitVec.extractLsb'_eq_self
    rw [← htop, ← hmode, hhigh]
    exact (hlow ▸ hall).symm
  · rintro rfl
    have htop : fld (0x12#8 ++ mode ++ 0#54) 56 8 = 0x12#8 :=
      (BitVec.extractLsb'_append_eq_of_le (by decide)).trans BitVec.extractLsb'_append_eq_left
    have hmode : fld (0x12#8 ++ mode ++ 0#54) 54 2 = mode :=
      (BitVec.extractLsb'_append_eq_of_le (by decide)).trans BitVec.extractLsb'_append_eq_right
    exact ⟨congrArg BitVec.toNat htop, BitVec.extractLsb'_append_eq_right, hmode⟩

theorem parseSeq_eq_mregion_iff_word (w : Dword) (mode : BitVec 2) :
    parseSeq w = some (.mregion mode) ↔ w = (0x12#8 ++ mode ++ 0#54) :=
  (parseSeq_eq_mregion_iff w mode).trans (mregion_fields_iff w mode)

theorem decodeSeq_eq_mregion_iff (w : Dword) (mode : BitVec 2) :
    decodeSeq w = .ok (.mregion mode) ↔ mode ≠ 3 ∧ w = (0x12#8 ++ mode ++ 0#54) := by
  rw [decodeSeq_eq_ok_iff, parseSeq_eq_mregion_iff_word, mregion_wellFormed_iff, and_comm]

-- The sequencer goes on at a word (R288): its crew keeps its MODE, and nothing outside the crew changes.

@[simp] theorem seqAt_mem (s : State) (c : Key) (va : Nat) : (s.seqAt c va).mem = s.mem := rfl
@[simp] theorem seqAt_waves (s : State) (c : Key) (va : Nat) : (s.seqAt c va).waves = s.waves := rfl
@[simp] theorem seqAt_core (s : State) (c : Key) (va n : Nat) : (s.seqAt c va).core n = s.core n := rfl
@[simp] theorem seqAt_regionMode (s : State) (c : Key) (va : Nat) (q : Key) :
    ((s.seqAt c va).crew q).regionMode = (s.crew q).regionMode := by
  rw [State.seqAt, State.modSeq, State.modCrew_crew]
  split
  next h => rw [h]
  next => rfl

/-- A ready word whose body is done acts, and the sequencer goes on. -/
theorem seqIssue_done {s s1 : State} {i : Instr} {body : State → Key → Crew → SeqEff} {next : Option Nat} (h : s.seqReady i)
    (hbody : body s s.seqKey (s.crew s.seqKey) = .done s1 next) :
    s.seqIssue i body = s1.seqAt s.seqKey (next.getD ((s.crew s.seqKey).seq.mpc + 8)) := by
  obtain ⟨hlive, hheld⟩ := h
  rw [State.seqLive] at hlive
  simp [State.seqIssue, hlive, hheld, hbody]

-- The MODE of a crew is written, and the island of its core settles to it (R146, R148).

@[simp] theorem islandSettle_mem (s : State) (core : Nat) : (s.islandSettle core).mem = s.mem := by
  unfold State.islandSettle
  dsimp only
  split_ifs <;> rfl

@[simp] theorem islandSettle_waves (s : State) (core : Nat) : (s.islandSettle core).waves = s.waves := by
  unfold State.islandSettle
  dsimp only
  split_ifs <;> rfl

/-- What MREGION writes. -/
def State.withMode (s : State) (c : Key) (mode : BitVec 2) : State :=
  (s.modCrew c fun x => { x with regionMode := mode }).islandSettle (coreOfCrew c)

@[simp] theorem withMode_mem (s : State) (c : Key) (mode : BitVec 2) : (s.withMode c mode).mem = s.mem := by
  simp [State.withMode]

@[simp] theorem withMode_waves (s : State) (c : Key) (mode : BitVec 2) : (s.withMode c mode).waves = s.waves := by
  simp [State.withMode]

theorem withMode_regionMode (s : State) (c q : Key) (mode : BitVec 2) :
    ((s.withMode c mode).crew q).regionMode = if q = c then mode else (s.crew q).regionMode := by
  rw [State.withMode, islandSettle_crew, State.modCrew_crew]
  split <;> rfl

/-- The products that wait for the engine, and the one in it, stay as they were issued, their modes with them (R147). -/
theorem withMode_products (s : State) (c : Key) (mode : BitVec 2) (n : Nat) :
    ((s.withMode c mode).core n).attempt = (s.core n).attempt ∧ ((s.withMode c mode).core n).issued = (s.core n).issued := by
  obtain ⟨i, hi⟩ := islandSettle_core (s.modCrew c fun x => { x with regionMode := mode }) (coreOfCrew c) n
  rw [State.withMode, hi]
  exact ⟨rfl, rfl⟩

theorem mregion_runs (s : State) (mode : BitVec 2) (h : s.seqReady (.mregion mode)) :
    seqRuns s (.mregion mode) (s.withMode s.seqKey mode) none := by
  have hexec : exec (.mregion mode) s = execMregion mode s := rfl
  unfold seqRuns
  rw [hexec, execMregion, seqIssue_done h rfl]
  rfl

/-- Settles O40: the word by `decodeSeq_eq_mregion_iff`, MODE 3 by `decodeSeq_eq_illegal`, the step by `mregion_runs` and the
lemmas about `State.withMode`. -/
theorem regionRule : Obligations.RegionRule := by
  unfold Obligations.RegionRule
  refine ⟨decodeSeq_eq_mregion_iff, ?_, ?_, fun s mode h => ⟨_, mregion_runs s mode h, ?_, fun c hc => ?_, fun n => ?_, ?_, ?_⟩,
    fun _ _ => rfl⟩
  · exact decodeSeq_eq_illegal _ _ ((parseSeq_eq_mregion_iff_word _ 3).mpr rfl) rfl
  · exact (decodeSeq_eq_mregion_iff _ 1).mpr ⟨by decide, rfl⟩
  · rw [seqAt_regionMode, withMode_regionMode, if_pos rfl]
  · rw [seqAt_regionMode, withMode_regionMode, if_neg hc]
  · rw [seqAt_core]
    exact withMode_products s s.seqKey mode n
  · rw [seqAt_mem, withMode_mem]
  · rw [seqAt_waves, withMode_waves]

end Sys2Proof.Machine
end

section
/-! The formats of the wave stream (R165 to R170): each word is the word of its own fields, and a word's fields are those it was
packed from. -/

namespace Sys2Proof.Machine

-- Joining and cutting bit fields.

theorem b1_bitOf (w : Dword) (n : Nat) : b1 (bitOf w n) = w.extractLsb' n 1 := by
  apply BitVec.eq_of_getElem_eq
  intro i hi
  obtain rfl : i = 0 := by omega
  simp [b1, bitOf]

theorem b1_inj (a b : Bool) : b1 a = b1 b ↔ a = b := by cases a <;> cases b <;> decide

theorem append_inj_iff {m n : Nat} (x x' : BitVec m) (y y' : BitVec n) : x ++ y = x' ++ y' ↔ x = x' ∧ y = y' := by
  constructor
  · intro h
    have hl := congrArg (BitVec.extractLsb' n m) h
    have hr := congrArg (BitVec.extractLsb' 0 n) h
    rw [BitVec.extractLsb'_append_eq_left, BitVec.extractLsb'_append_eq_left] at hl
    rw [BitVec.extractLsb'_append_eq_right, BitVec.extractLsb'_append_eq_right] at hr
    exact ⟨hl, hr⟩
  · rintro ⟨rfl, rfl⟩
    rfl

/-- A field of a field is a field of the word. -/
theorem fld_extract (w : Dword) (lo len lo' len' : Nat) (h : lo' + len' ≤ len) :
    (fld w lo len).extractLsb' lo' len' = fld w (lo + lo') len' := by
  apply BitVec.eq_of_getLsbD_eq
  intro i hi
  have hlen : lo' + i < len := by omega
  simp [fld, hi, hlen, Nat.add_assoc]

/-- A bit of a field is a bit of the word. -/
theorem fld_bit (w : Dword) (lo len n : Nat) (h : n < len) : (fld w lo len).getLsbD n = bitOf w (lo + n) := by
  simp [fld, bitOf, h]

-- V words.

theorem packV_unpackV (w : Dword) : packV (fld w 56 8) (fld w 49 7) (unpackV w) = w := by
  simp (disch := decide) only [unpackV, packV, fld, b1_bitOf, BitVec.extractLsb'_append_extractLsb'_eq_extractLsb']
  exact BitVec.extractLsb'_eq_self

theorem packV_inj (opc opc' : BitVec 8) (fn fn' : BitVec 7) (x x' : VF) (h : packV opc fn x = packV opc' fn' x') :
    opc = opc' ∧ fn = fn' ∧ x = x' := by
  obtain ⟨h, h0⟩ := (append_inj_iff _ _ _ _).mp h
  simp only [append_inj_iff, b1_inj] at h h0
  obtain ⟨⟩ := x
  obtain ⟨⟩ := x'
  simp_all only [and_self]

theorem fields_packV (opc : BitVec 8) (fn : BitVec 7) (x : VF) :
    fld (packV opc fn x) 56 8 = opc ∧ fld (packV opc fn x) 49 7 = fn ∧ unpackV (packV opc fn x) = x :=
  packV_inj _ _ _ _ _ _ (packV_unpackV (packV opc fn x))

@[simp] theorem opcOf_packV (opc : BitVec 8) (fn : BitVec 7) (x : VF) : opcOf (packV opc fn x) = opc.toNat :=
  congrArg BitVec.toNat (fields_packV opc fn x).1

@[simp] theorem fn_packV (opc : BitVec 8) (fn : BitVec 7) (x : VF) : fld (packV opc fn x) 49 7 = fn := (fields_packV opc fn x).2.1

@[simp] theorem unpackV_packV (opc : BitVec 8) (fn : BitVec 7) (x : VF) : unpackV (packV opc fn x) = x := (fields_packV opc fn x).2.2

/-- A field of FN of a packed V word. -/
theorem fnField_packV (opc : BitVec 8) (fn : BitVec 7) (x : VF) (lo len : Nat) (h : lo + len ≤ 7) :
    fld (packV opc fn x) (49 + lo) len = fn.extractLsb' lo len := by
  rw [← fld_extract _ _ 7 _ _ h, fn_packV]

/-- A word is packed from its fields, where OPC and FN are these. -/
theorem packV_unpackV_of (w : Dword) (opc : BitVec 8) (fn : BitVec 7) (hopc : opcOf w = opc.toNat) (hfn : fld w 49 7 = fn) :
    packV opc fn (unpackV w) = w := by
  rw [← BitVec.eq_of_toNat_eq hopc, ← hfn]
  exact packV_unpackV w

-- I words.

theorem packI_unpackI (w : Dword) : packI (fld w 56 8) (fld w 53 3) (unpackI w) = w := by
  simp (disch := decide) only [unpackI, packI, fld, b1_bitOf, BitVec.extractLsb'_append_extractLsb'_eq_extractLsb']
  exact BitVec.extractLsb'_eq_self

theorem packI_inj (opc opc' : BitVec 8) (fn fn' : BitVec 3) (x x' : IF) (h : packI opc fn x = packI opc' fn' x') :
    opc = opc' ∧ fn = fn' ∧ x = x' := by
  obtain ⟨h, h0⟩ := (append_inj_iff _ _ _ _).mp h
  simp only [append_inj_iff, b1_inj] at h h0
  obtain ⟨⟩ := x
  obtain ⟨⟩ := x'
  simp_all only [and_self]

theorem fields_packI (opc : BitVec 8) (fn : BitVec 3) (x : IF) :
    fld (packI opc fn x) 56 8 = opc ∧ fld (packI opc fn x) 53 3 = fn ∧ unpackI (packI opc fn x) = x :=
  packI_inj _ _ _ _ _ _ (packI_unpackI (packI opc fn x))

@[simp] theorem opcOf_packI (opc : BitVec 8) (fn : BitVec 3) (x : IF) : opcOf (packI opc fn x) = opc.toNat :=
  congrArg BitVec.toNat (fields_packI opc fn x).1

@[simp] theorem fn_packI (opc : BitVec 8) (fn : BitVec 3) (x : IF) : fld (packI opc fn x) 53 3 = fn := (fields_packI opc fn x).2.1

@[simp] theorem unpackI_packI (opc : BitVec 8) (fn : BitVec 3) (x : IF) : unpackI (packI opc fn x) = x := (fields_packI opc fn x).2.2

theorem packI_unpackI_of (w : Dword) (opc : BitVec 8) (fn : BitVec 3) (hopc : opcOf w = opc.toNat)
    (hfn : (fld w 53 3).toNat = fn.toNat) : packI opc fn (unpackI w) = w := by
  rw [← BitVec.eq_of_toNat_eq hopc, ← BitVec.eq_of_toNat_eq hfn]
  exact packI_unpackI w

-- M words.

theorem packM_unpackM (w : Dword) : packM (fld w 56 8) (fld w 52 4) (unpackM w) = w := by
  simp (disch := decide) only [unpackM, packM, fld, b1_bitOf, BitVec.extractLsb'_append_extractLsb'_eq_extractLsb']
  exact BitVec.extractLsb'_eq_self

theorem packM_inj (opc opc' : BitVec 8) (fn fn' : BitVec 4) (x x' : MF) (h : packM opc fn x = packM opc' fn' x') :
    opc = opc' ∧ fn = fn' ∧ x = x' := by
  obtain ⟨h, h0⟩ := (append_inj_iff _ _ _ _).mp h
  simp only [append_inj_iff, b1_inj] at h h0
  obtain ⟨⟩ := x
  obtain ⟨⟩ := x'
  simp_all only [and_self]

theorem fields_packM (opc : BitVec 8) (fn : BitVec 4) (x : MF) :
    fld (packM opc fn x) 56 8 = opc ∧ fld (packM opc fn x) 52 4 = fn ∧ unpackM (packM opc fn x) = x :=
  packM_inj _ _ _ _ _ _ (packM_unpackM (packM opc fn x))

@[simp] theorem opcOf_packM (opc : BitVec 8) (fn : BitVec 4) (x : MF) : opcOf (packM opc fn x) = opc.toNat :=
  congrArg BitVec.toNat (fields_packM opc fn x).1

@[simp] theorem fn_packM (opc : BitVec 8) (fn : BitVec 4) (x : MF) : fld (packM opc fn x) 52 4 = fn := (fields_packM opc fn x).2.1

@[simp] theorem unpackM_packM (opc : BitVec 8) (fn : BitVec 4) (x : MF) : unpackM (packM opc fn x) = x := (fields_packM opc fn x).2.2

/-- A field of FN of a packed M word. -/
theorem fnField_packM (opc : BitVec 8) (fn : BitVec 4) (x : MF) (lo len : Nat) (h : lo + len ≤ 4) :
    fld (packM opc fn x) (52 + lo) len = fn.extractLsb' lo len := by
  rw [← fld_extract _ _ 4 _ _ h, fn_packM]

theorem packM_unpackM_of (w : Dword) (opc : BitVec 8) (fn : BitVec 4) (hopc : opcOf w = opc.toNat)
    (hfn : (fld w 52 4).toNat = fn.toNat) : packM opc fn (unpackM w) = w := by
  rw [← BitVec.eq_of_toNat_eq hopc, ← BitVec.eq_of_toNat_eq hfn]
  exact packM_unpackM w

-- B words.

theorem packB_unpackB (w : Dword) : packB (fld w 56 8) (unpackB w) = w := by
  simp (disch := decide) only [unpackB, packB, fld, b1_bitOf, BitVec.extractLsb'_append_extractLsb'_eq_extractLsb']
  exact BitVec.extractLsb'_eq_self

theorem packB_inj (opc opc' : BitVec 8) (x x' : BF) (h : packB opc x = packB opc' x') : opc = opc' ∧ x = x' := by
  obtain ⟨h, h0⟩ := (append_inj_iff _ _ _ _).mp h
  simp only [append_inj_iff, b1_inj] at h h0
  obtain ⟨⟩ := x
  obtain ⟨⟩ := x'
  simp_all only [and_self]

theorem fields_packB (opc : BitVec 8) (x : BF) : fld (packB opc x) 56 8 = opc ∧ unpackB (packB opc x) = x :=
  packB_inj _ _ _ _ (packB_unpackB (packB opc x))

@[simp] theorem opcOf_packB (opc : BitVec 8) (x : BF) : opcOf (packB opc x) = opc.toNat :=
  congrArg BitVec.toNat (fields_packB opc x).1

@[simp] theorem unpackB_packB (opc : BitVec 8) (x : BF) : unpackB (packB opc x) = x := (fields_packB opc x).2

theorem packB_unpackB_of (w : Dword) (opc : BitVec 8) (hopc : opcOf w = opc.toNat) : packB opc (unpackB w) = w := by
  rw [← BitVec.eq_of_toNat_eq hopc]
  exact packB_unpackB w

-- P words.

theorem packP_unpackP (w : Dword) (lo : Nat) : packP (unpackP w lo) = fld w lo 30 := by
  simp (disch := omega) only [unpackP, packP, fld, b1_bitOf, BitVec.extractLsb'_append_extractLsb'_eq_extractLsb']

theorem packP_inj (h h' : PHalf) (e : packP h = packP h') : h = h' := by
  obtain ⟨e, e0⟩ := (append_inj_iff _ _ _ _).mp e
  simp only [append_inj_iff, b1_inj] at e e0
  obtain ⟨⟩ := h
  obtain ⟨⟩ := h'
  simp_all only

theorem paired_unpackP (w : Dword) : fld w 60 4 ++ packP (unpackP w 30) ++ packP (unpackP w 0) = w := by
  simp (disch := decide) only [packP_unpackP, fld, BitVec.extractLsb'_append_extractLsb'_eq_extractLsb']
  exact BitVec.extractLsb'_eq_self

/-- The tag and the halves of a packed P word. -/
theorem fields_packP (h l : PHalf) :
    let w : Dword := 14#4 ++ packP h ++ packP l
    fld w 60 4 = 14 ∧ unpackP w 30 = h ∧ unpackP w 0 = l := by
  intro w
  obtain ⟨e, e0⟩ := (append_inj_iff _ _ _ _).mp (paired_unpackP w)
  obtain ⟨e2, e1⟩ := (append_inj_iff _ _ _ _).mp e
  exact ⟨e2, packP_inj _ _ e1, packP_inj _ _ e0⟩

/-- The opcode's high half is the tag. -/
theorem opcOf_div (w : Dword) : opcOf w / 16 = (fld w 60 4).toNat := by
  rw [opcOf, ← fld_extract w 56 8 4 4 (by decide), BitVec.extractLsb'_toNat, Nat.shiftRight_eq_div_pow]
  have := (fld w 56 8).isLt
  omega

end Sys2Proof.Machine
end

section
/-! The decoder of the wave stream reads back what the encoder writes (R164 to R172). -/

namespace Sys2Proof.Machine

-- The codes of the enumerated fields are read back.

@[simp] theorem itype_code (t : ITy) : itype (itypeCode t).toNat = some t := by cases t <;> rfl
@[simp] theorem ftype_code (t : FTy) : ftype (ftypeCode t).toNat = t := by cases t <;> rfl
@[simp] theorem rmode_code (m : Rm) : rmode (rmodeCode m).toNat = some m := by cases m <;> rfl
@[simp] theorem icond_code (c : Cond) : icond (icondCode c).toNat = some c := by cases c <;> rfl
@[simp] theorem fcond_code (c : FCond) : fcond (fcondCode c).toNat = c := by cases c <;> rfl
@[simp] theorem movik_code (k : MoviKind) : movik (movikCode k).toNat = some k := by cases k <;> rfl
@[simp] theorem msize_code (m : MSize) : msize (msizeCode m).toNat = some m := by cases m <;> rfl
@[simp] theorem spsize_code (m : SpSize) : spsize (spsizeCode m).toNat = some m := by cases m <;> rfl
@[simp] theorem ldsmode_code (m : LdsMode) : ldsmode (ldsmodeCode m).toNat = m := by cases m <;> rfl
@[simp] theorem atomop_code (o : AtomOp) : atomop (atomopCode o).toNat = some o := by cases o <;> rfl
@[simp] theorem preflvl_code (l : PrefLvl) : preflvl (preflvlCode l).toNat = some l := by cases l <;> rfl
@[simp] theorem qsel_code (q : QSel) : qsel (qselCode q).toNat = some q := by cases q <;> rfl
@[simp] theorem voteop_code (o : VoteOp) : voteop (voteopCode o).toNat = some o := by cases o <;> rfl
@[simp] theorem pullsel_code (o : PullSel) : pullsel (pullselCode o).toNat = some o := by cases o <;> rfl
@[simp] theorem quadsel_code (o : QuadSel) : quadsel (quadselCode o).toNat = some o := by cases o <;> rfl
@[simp] theorem rtype_code (t : RTy) : rtype (rtypeCode t).toNat = some t := by
  cases t with
  | int t => cases t <;> rfl
  | f32 => rfl
@[simp] theorem redop_code (o : RedOp) : redop (redopCode o).toNat = some o := by cases o <;> rfl

-- A word with a known opcode is parsed by its group, and read back from its fields.

theorem opcOf_encI (even : BitVec 8) (sub : BitVec 4) (sf : Bool) (ty : ITy) (x : VF) :
    opcOf (encI even sub sf ty x) = (opF even sf).toNat := opcOf_packV _ _ _

theorem opF_toNat (even : BitVec 8) (sf : Bool) (h : even.toNat < 255) : (opF even sf).toNat = even.toNat + sf.toNat := by
  cases sf
  · rfl
  · have hlt : even.toNat + 1 < 2 ^ 8 := by omega
    simp only [opF, if_true, BitVec.toNat_add, Bool.toNat_true]
    exact Nat.mod_eq_of_lt hlt

/-- A typed integer word is parsed by its even opcode, its form, type and sub-function (R172). -/
theorem parseWave_encI (even : BitVec 8) (sub : BitVec 4) (sf : Bool) (ty : ITy) (x : VF) (hlo : 0x20 ≤ even.toNat)
    (hhi : even.toNat < 0x47) (heven : even.toNat % 2 = 0) (h34 : even.toNat ≠ 0x34) (h36 : even.toNat ≠ 0x36)
    (h42 : even.toNat ≠ 0x42) : parseWave (encI even sub sf ty x) = parseIntTy even.toNat sf ty sub.toNat x := by
  have hopc : opcOf (encI even sub sf ty x) = even.toNat + sf.toNat := by rw [opcOf_encI, opF_toNat even sf (by omega)]
  have hsf : sf.toNat ≤ 1 := Bool.toNat_le sf
  have hbase : (even.toNat + sf.toNat) / 2 * 2 = even.toNat := by omega
  have hform : ((even.toNat + sf.toNat) % 2 == 1) = sf := by
    cases sf <;> simp [Nat.add_mod, heven]
  have hty : fld (encI even sub sf ty x) 53 3 = itypeCode ty :=
    (fnField_packV _ _ _ 4 3 (by decide)).trans BitVec.extractLsb'_append_eq_left
  have hsub : fld (encI even sub sf ty x) 49 4 = sub :=
    (fnField_packV _ _ _ 0 4 (by decide)).trans BitVec.extractLsb'_append_eq_right
  have hx : unpackV (encI even sub sf ty x) = x := unpackV_packV _ _ _
  rw [parseWave, hopc, if_neg (by omega), if_pos (by omega), parseInt, hbase, hform, hty, hsub, hx]
  split
  · contradiction
  · contradiction
  · contradiction
  · rw [itype_code]; rfl

/-- A floating word is parsed by its opcode, format, mode and sub-function (R172). -/
theorem parseWave_fnF (opc : BitVec 8) (ft : FTy) (mode : BitVec 3) (sub : BitVec 2) (x : VF) (hlo : 0x50 ≤ opc.toNat)
    (hhi : opc.toNat < 0x70) : parseWave (packV opc (fnF ft mode sub) x) = parseFloat opc.toNat ft mode.toNat sub.toNat x := by
  have hft : fld (packV opc (fnF ft mode sub) x) 54 2 = ftypeCode ft := by
    refine (fnField_packV _ _ _ 5 2 (by decide)).trans ?_
    exact (BitVec.extractLsb'_append_eq_of_le (by decide)).trans BitVec.extractLsb'_append_eq_left
  have hmode : fld (packV opc (fnF ft mode sub) x) 51 3 = mode := by
    refine (fnField_packV _ _ _ 2 3 (by decide)).trans ?_
    exact (BitVec.extractLsb'_append_eq_of_le (by decide)).trans BitVec.extractLsb'_append_eq_right
  have hsub : fld (packV opc (fnF ft mode sub) x) 49 2 = sub :=
    (fnField_packV _ _ _ 0 2 (by decide)).trans BitVec.extractLsb'_append_eq_right
  rw [parseWave, opcOf_packV, if_neg (by omega), if_neg (by omega), if_neg (by omega), if_pos hhi, hft, hmode, hsub,
    unpackV_packV, ftype_code]

theorem parseWave_control (w : Dword) (n : Nat) (h : opcOf w = n) (hn : n < 0x20) : parseWave w = parseControl n w := by
  rw [parseWave, h, if_pos hn]

theorem parseWave_convert (w : Dword) (n : Nat) (h : opcOf w = n) (hlo : 0x70 ≤ n) (hhi : n < 0x80) :
    parseWave w = parseConvert n w := by
  rw [parseWave, h, if_neg (by omega), if_neg (by omega), if_neg (by omega), if_neg (by omega), if_pos hhi]

theorem parseWave_mem (w : Dword) (n : Nat) (h : opcOf w = n) (hlo : 0x80 ≤ n) (hhi : n < 0xB0) :
    parseWave w = parseMem n w := by
  rw [parseWave, h, if_neg (by omega), if_neg (by omega), if_neg (by omega), if_neg (by omega), if_neg (by omega), if_pos hhi]

theorem parseWave_cross (w : Dword) (n : Nat) (h : opcOf w = n) (hlo : 0xB0 ≤ n) (hhi : n < 0xC0) :
    parseWave w = parseCross n w := by
  rw [parseWave, h, if_neg (by omega), if_neg (by omega), if_neg (by omega), if_neg (by omega), if_neg (by omega),
    if_neg (by omega), if_pos hhi]

theorem parseWave_priv (w : Dword) (n : Nat) (h : opcOf w = n) (hlo : 0xC0 ≤ n) (hhi : n < 0xE0) :
    parseWave w = parsePriv n w := by
  rw [parseWave, h, if_neg (by omega), if_neg (by omega), if_neg (by omega), if_neg (by omega), if_neg (by omega),
    if_neg (by omega), if_neg (by omega), if_pos hhi]

-- The parts of FN.

theorem fn_4_3 (opc : BitVec 8) (a : BitVec 4) (b : BitVec 3) (x : VF) :
    fld (packV opc (a ++ b) x) 52 4 = a ∧ fld (packV opc (a ++ b) x) 49 3 = b :=
  ⟨(fnField_packV _ _ _ 3 4 (by decide)).trans BitVec.extractLsb'_append_eq_left,
    (fnField_packV _ _ _ 0 3 (by decide)).trans BitVec.extractLsb'_append_eq_right⟩

theorem fn_1_3_3 (opc : BitVec 8) (n : Bool) (a b : BitVec 3) (x : VF) :
    bitOf (packV opc (b1 n ++ a ++ b) x) 55 = n ∧ fld (packV opc (b1 n ++ a ++ b) x) 52 3 = a ∧
      fld (packV opc (b1 n ++ a ++ b) x) 49 3 = b := by
  refine ⟨(b1_inj _ _).mp ?_, ?_, ?_⟩
  · rw [b1_bitOf]
    exact (fnField_packV _ _ _ 6 1 (by decide)).trans
      ((BitVec.extractLsb'_append_eq_of_le (by decide)).trans BitVec.extractLsb'_append_eq_left)
  · exact (fnField_packV _ _ _ 3 3 (by decide)).trans
      ((BitVec.extractLsb'_append_eq_of_le (by decide)).trans BitVec.extractLsb'_append_eq_right)
  · exact (fnField_packV _ _ _ 0 3 (by decide)).trans BitVec.extractLsb'_append_eq_right

theorem fn_3_1_3 (opc : BitVec 8) (a b : BitVec 3) (n : Bool) (x : VF) :
    fld (packV opc (a ++ b1 n ++ b) x) 53 3 = a ∧ bitOf (packV opc (a ++ b1 n ++ b) x) 52 = n ∧
      fld (packV opc (a ++ b1 n ++ b) x) 49 3 = b := by
  refine ⟨?_, (b1_inj _ _).mp ?_, ?_⟩
  · exact (fnField_packV _ _ _ 4 3 (by decide)).trans
      ((BitVec.extractLsb'_append_eq_of_le (by decide)).trans BitVec.extractLsb'_append_eq_left)
  · rw [b1_bitOf]
    exact (fnField_packV _ _ _ 3 1 (by decide)).trans
      ((BitVec.extractLsb'_append_eq_of_le (by decide)).trans BitVec.extractLsb'_append_eq_right)
  · exact (fnField_packV _ _ _ 0 3 (by decide)).trans BitVec.extractLsb'_append_eq_right

theorem fn_3_4 (opc : BitVec 8) (a : BitVec 3) (b : BitVec 4) (x : VF) :
    fld (packV opc (a ++ b) x) 53 3 = a ∧ fld (packV opc (a ++ b) x) 49 4 = b :=
  ⟨(fnField_packV _ _ _ 4 3 (by decide)).trans BitVec.extractLsb'_append_eq_left,
    (fnField_packV _ _ _ 0 4 (by decide)).trans BitVec.extractLsb'_append_eq_right⟩

theorem fn_2_2 (opc : BitVec 8) (a b : BitVec 2) (x : MF) :
    fld (packM opc (a ++ b) x) 54 2 = a ∧ fld (packM opc (a ++ b) x) 52 2 = b :=
  ⟨(fnField_packM _ _ _ 2 2 (by decide)).trans BitVec.extractLsb'_append_eq_left,
    (fnField_packM _ _ _ 0 2 (by decide)).trans BitVec.extractLsb'_append_eq_right⟩

theorem fn_1_1_2 (opc : BitVec 8) (n e : Bool) (b : BitVec 2) (x : MF) :
    bitOf (packM opc (b1 n ++ b1 e ++ b) x) 55 = n ∧ bitOf (packM opc (b1 n ++ b1 e ++ b) x) 54 = e ∧
      fld (packM opc (b1 n ++ b1 e ++ b) x) 52 2 = b := by
  refine ⟨(b1_inj _ _).mp ?_, (b1_inj _ _).mp ?_, ?_⟩
  · rw [b1_bitOf]
    exact (fnField_packM _ _ _ 3 1 (by decide)).trans
      ((BitVec.extractLsb'_append_eq_of_le (by decide)).trans BitVec.extractLsb'_append_eq_left)
  · rw [b1_bitOf]
    exact (fnField_packM _ _ _ 2 1 (by decide)).trans
      ((BitVec.extractLsb'_append_eq_of_le (by decide)).trans BitVec.extractLsb'_append_eq_right)
  · exact (fnField_packM _ _ _ 0 2 (by decide)).trans BitVec.extractLsb'_append_eq_right

/-- MOVI is parsed by its form and kind (R223). -/
theorem parseWave_movi (sf : Bool) (k : MoviKind) (x : IF) :
    parseWave (packI (opF 0x42 sf) (movikCode k) x) = some (.movi sf k x) := by
  cases sf <;> simp [parseWave, opF, parseInt]

/-- TLOG is parsed by its form; its table's high bit is in the opcode (R216). -/
theorem parseWave_tlog (sf : Bool) (t : BitVec 8) (x : VF) :
    parseWave (packV (opF (if t.getLsbD 7 then 0x36 else 0x34) sf) (t.extractLsb' 0 7) x) = some (.tlog sf t x) := by
  have ht : b1 (t.getLsbD 7) ++ t.extractLsb' 0 7 = t := by
    have h7 : b1 (t.getLsbD 7) = t.extractLsb' 7 1 := by
      apply BitVec.eq_of_getElem_eq
      intro i hi
      obtain rfl : i = 0 := by omega
      simp [b1]
    rw [h7]
    exact (BitVec.extractLsb'_append_extractLsb'_eq_extractLsb' rfl).trans BitVec.extractLsb'_eq_self
  generalize t.getLsbD 7 = high at ht ⊢
  generalize t.extractLsb' 0 7 = low at ht ⊢
  subst ht
  cases high <;> cases sf <;> simp [parseWave, opF, parseInt, b1]

/-- A MOV of a pair whose D or A names a queue is no MOV (R166, R222). -/
theorem mov_names_no_queue (ty : ITy) (x : VF) (h : (Instr.mov true ty x).WellFormed true = true) (hty : ty = .b64) :
    x.d ≠ 0x40#8 ∧ x.a ≠ 0x41#8 := by
  subst hty
  have hok : (shDA true .b64).ok x = true := h
  simp only [VShape.ok, shDA, formFile, if_true, ITy.regs, Bool.and_eq_true, fieldOk] at hok
  constructor <;> intro hq
  · rw [hq] at hok
    exact absurd hok.1.1.1.1.1 (by decide)
  · rw [hq] at hok
    exact absurd hok.1.1.1.2.1 (by decide)

theorem parseWave_mov (sf : Bool) (ty : ITy) (x : VF) (h : (Instr.mov sf ty x).WellFormed true = true) :
    parseWave (encI 0x40 0 sf ty x) = some (.mov sf ty x) := by
  rw [parseWave_encI _ _ _ _ _ (by decide) (by decide) (by decide) (by decide) (by decide) (by decide)]
  by_cases hq : sf = true ∧ ty = .b64
  · obtain ⟨rfl, hty⟩ := hq
    obtain ⟨hd, ha⟩ := mov_names_no_queue ty x h hty
    simp [parseIntTy, hd, ha]
  · have hno : (sf && ty == .b64) = false := by simpa using hq
    simp [parseIntTy, hno]

/-- A pop's D is a scalar pair, so it names no queue (R222). -/
theorem parseWave_queue (i : Instr) (x : VF) (h : i.WellFormed true = true) (hi : i = .movQ0Push x ∨ i = .movQ1Pop x) :
    parseWave (encI 0x40 0 true .b64 x) = some i := by
  rw [parseWave_encI _ _ _ _ _ (by decide) (by decide) (by decide) (by decide) (by decide) (by decide)]
  rcases hi with rfl | rfl
  · have hd : x.d = 0x40 := by
      have hok : (x.d == 0x40 && (vshape (.movQ0Push x)).ok x) = true := h
      rw [Bool.and_eq_true, beq_iff_eq] at hok
      exact hok.1
    simp [parseIntTy, hd]
  · have hok : (x.a == 0x41 && (vshape (.movQ1Pop x)).ok x) = true := h
    simp only [Bool.and_eq_true, beq_iff_eq, VShape.ok, vshape, fieldOk] at hok
    have ha : x.a = 0x41 := hok.1
    have hd : x.d ≠ 0x40#8 := by
      intro hq
      rw [hq] at hok
      exact absurd hok.2.1.1.1.1.1 (by decide)
    simp [parseIntTy, hd, ha]

/-- A P word is parsed by its tag (R170). -/
theorem parseWave_paired (h l : PHalf) : parseWave (14#4 ++ packP h ++ packP l) = some (.pairedWord h l) := by
  obtain ⟨htag, hh, hl⟩ := fields_packP h l
  have hopc := opcOf_div (14#4 ++ packP h ++ packP l)
  rw [htag] at hopc
  have h16 : opcOf (14#4 ++ packP h ++ packP l) / 16 = 14 := hopc
  rw [parseWave, if_neg (by omega), if_neg (by omega), if_neg (by omega), if_neg (by omega), if_neg (by omega), if_neg (by omega),
    if_neg (by omega), if_neg (by omega), if_pos (by omega), hh, hl]

theorem parseWave_of_encodeWave (i : Instr) (w : Dword) (h : encodeWave i = some w) (hwf : i.WellFormed true = true) :
    parseWave w = some i := by
  cases i with
  | bra x | brx x | call x | callx x | ret x | exit x =>
    obtain rfl := Option.some.inj h
    rw [parseWave_control _ _ (opcOf_packB _ _) (by decide)]
    simp [parseControl]
  | trap x | bkpt x | sleep x | weirset x | weirarv x | weirwait x | weirsync x | cbarv x | cbwait x | acqx x | relx x
  | rest x | region x | part x | srd x | swr x =>
    obtain rfl := Option.some.inj h
    rw [parseWave_control _ _ (opcOf_packI _ _ _) (by decide)]
    simp [parseControl]
  | jenr x | jwait x | jstrk x | nexttile x => 
    obtain rfl := Option.some.inj h
    rw [parseWave_control _ _ (opcOf_packV _ _ _) (by decide)]
    simp [parseControl]
  | launch x | scw x | scr x | scack x => 
    obtain rfl := Option.some.inj h
    rw [parseWave_control _ _ (opcOf_packM _ _ _) (by decide)]
    simp [parseControl]
  | kill sf x =>
    obtain rfl := Option.some.inj h
    rw [parseWave_control _ _ (opcOf_packI _ _ _) (by decide)]
    cases sf <;> simp [parseControl]
  | nop | yield | eret =>
    obtain rfl := Option.some.inj h
    rfl
  | iadd sf ty x | isub sf ty x | imul sf ty x | imulh sf ty x | imad sf ty x | imadw sf ty x | imin sf ty x | imax sf ty x
  | iabs sf ty x | ineg sf ty x | idiv sf ty x | irem sf ty x | isel sf ty x | and sf ty x | or sf ty x | xor sf ty x 
  | not sf ty x | shl sf ty x | shr sf ty x | sar sf ty x | rot sf ty x | fshf sf ty x | bfe sf ty x | bfi sf ty x
  | popc sf ty x | clz sf ty x | ctz sf ty x | brev sf ty x | bperm sf ty x =>
    obtain rfl := Option.some.inj h
    rw [parseWave_encI _ _ _ _ _ (by decide) (by decide) (by decide) (by decide) (by decide) (by decide)]
    rfl
  | icmp sf ty c x =>
    obtain rfl := Option.some.inj h
    rw [parseWave_encI _ _ _ _ _ (by decide) (by decide) (by decide) (by decide) (by decide) (by decide)]
    simp [parseIntTy]
  | rdlane ty x | bcast ty x =>
    obtain rfl := Option.some.inj h
    rw [parseWave_encI _ _ _ _ _ (by decide) (by decide) (by decide) (by decide) (by decide) (by decide)]
    rfl
  | mov sf ty x =>
    obtain rfl := Option.some.inj h
    exact parseWave_mov sf ty x hwf
  | movQ0Push x =>
    obtain rfl := Option.some.inj h
    exact parseWave_queue _ x hwf (.inl rfl)
  | movQ1Pop x =>
    obtain rfl := Option.some.inj h
    exact parseWave_queue _ x hwf (.inr rfl)
  | movi sf k x =>
    obtain rfl := Option.some.inj h
    exact parseWave_movi sf k x
  | tlog sf t x =>
    obtain rfl := Option.some.inj h
    exact parseWave_tlog sf t x
  | pairedWord h' l' =>
    obtain rfl := Option.some.inj h
    exact parseWave_paired h' l'
  | fadd ft m x | fmul ft m x | ffma ft m x | frnd ft m x | fscale ft m x | padd ft m x | pmul ft m x | pfma ft m x | rcp ft m x
  | sqrt ft m x | fdiv ft m x =>
    obtain rfl := Option.some.inj h
    rw [encF, parseWave_fnF _ _ _ _ _ (by decide) (by decide)]
    simp [parseFloat]
  | fcmp ft c x | fmin ft x | fmax ft x | fclass ft x | fgetexp ft x | rsq ft x =>
    obtain rfl := Option.some.inj h
    rw [parseWave_fnF _ _ _ _ _ (by decide) (by decide)]
    simp [parseFloat]
  | exp2 x | log2 x | sin x | cos x | tanh x =>
    obtain rfl := Option.some.inj h
    exact parseWave_fnF _ .f32 0 0 x (by decide) (by decide)
  | cvt m x | cvtp m x =>
    obtain rfl := Option.some.inj h
    rw [parseWave_convert _ _ (opcOf_packV _ _ _) (by decide) (by decide)]
    simp [parseConvert, fn_4_3]
  | qnt n q m x =>
    obtain rfl := Option.some.inj h
    obtain ⟨hn, hq, hm⟩ := fn_1_3_3 0x72#8 n (qselCode q) (rmodeCode m) x
    rw [parseWave_convert _ _ (opcOf_packV _ _ _) (by decide) (by decide)]
    simp [parseConvert, hq, hm, hn]
  | dqnt x =>
    obtain rfl := Option.some.inj h
    rw [parseWave_convert _ _ (opcOf_packV _ _ _) (by decide) (by decide)]
    simp [parseConvert]
  | ldVector m x | ldScalar m x | stVector m x | stScalar m x | spdrop x | atom o x | atomcas x | red o x | ldwatch t x | fence x
  | pfence x | cflush x | cinv x | pref l x | obres n x | obrel n x =>
    obtain rfl := Option.some.inj h
    rw [parseWave_mem _ _ (opcOf_packM _ _ _) (by decide) (by decide)]
    simp [parseMem]
  | lds m z x =>
    obtain rfl := Option.some.inj h
    obtain ⟨hm, hz⟩ := fn_2_2 0x84#8 (ldsmodeCode m) (spsizeCode z) x
    rw [parseWave_mem _ _ (opcOf_packM _ _ _) (by decide) (by decide)]
    simp [parseMem, hm, hz]
  | sts e z x =>
    obtain rfl := Option.some.inj h
    obtain ⟨hu, he, hz⟩ := fn_1_1_2 0x85#8 false e (spsizeCode z) x
    have hu : bitOf (packM 0x85#8 (0#1 ++ b1 e ++ spsizeCode z) x) 55 = false := hu
    have he : bitOf (packM 0x85#8 (0#1 ++ b1 e ++ spsizeCode z) x) 54 = e := he
    have hz : fld (packM 0x85#8 (0#1 ++ b1 e ++ spsizeCode z) x) 52 2 = spsizeCode z := hz
    rw [parseWave_mem _ _ (opcOf_packM _ _ _) (by decide) (by decide)]
    simp [parseMem, hu, he, hz]
  | sptag f x | icpre f x | icpin f x | icunpin f x =>
    obtain rfl := Option.some.inj h
    rw [parseWave_mem _ _ (opcOf_packM _ _ _) (by decide) (by decide)]
    cases f <;> simp [parseMem, b1]
  | vote o x | pull o x | qswap o x | perm x | qbcast x =>
    obtain rfl := Option.some.inj h
    rw [parseWave_cross _ _ (opcOf_packV _ _ _) (by decide) (by decide)]
    simp [parseCross]
  | matchLanes ty a x =>
    obtain rfl := Option.some.inj h
    have happ : itypeCode ty ++ 0#3 ++ b1 a = (itypeCode ty ++ (0#3 ++ b1 a) : BitVec 7) := BitVec.append_assoc
    rw [happ, parseWave_cross _ _ (opcOf_packV _ _ _) (by decide) (by decide)]
    cases a <;> simp [parseCross, fn_3_4, b1]
  | redux ty o x =>
    obtain rfl := Option.some.inj h
    obtain ⟨hty, he, ho⟩ := fn_3_1_3 0xB6#8 (rtypeCode ty) (redopCode o) false x
    have hty : fld (packV 0xB6#8 (rtypeCode ty ++ 0#1 ++ redopCode o) x) 53 3 = rtypeCode ty := hty
    have he : bitOf (packV 0xB6#8 (rtypeCode ty ++ 0#1 ++ redopCode o) x) 52 = false := he
    have ho : fld (packV 0xB6#8 (rtypeCode ty ++ 0#1 ++ redopCode o) x) 49 3 = redopCode o := ho
    rw [parseWave_cross _ _ (opcOf_packV _ _ _) (by decide) (by decide)]
    simp [parseCross, hty, he, ho]
  | scan ty o e x =>
    obtain rfl := Option.some.inj h
    obtain ⟨hty, he, ho⟩ := fn_3_1_3 0xB7#8 (rtypeCode ty) (redopCode o) e x
    rw [parseWave_cross _ _ (opcOf_packV _ _ _) (by decide) (by decide)]
    simp [parseCross, hty, he, ho]
  | tlbinv x | ctxsave x | ctxload x | stoprd x | resume x | flood x | ckpt x | rollbk x =>
    obtain rfl := Option.some.inj h
    rw [parseWave_priv _ _ (opcOf_packM _ _ _) (by decide) (by decide)]
    simp [parsePriv]
  | dirtyh f x =>
    obtain rfl := Option.some.inj h
    rw [parseWave_priv _ _ (opcOf_packM _ _ _) (by decide) (by decide)]
    cases f <;> simp [parsePriv, b1]
  | _ => cases h

theorem isHeader_opcOf_lt (w : Dword) (h : isHeader w = true) : 0xF0 ≤ opcOf w := by
  have htag : fld w 60 4 = 15 := by simpa [isHeader] using h
  have hdiv := opcOf_div w
  rw [htag] at hdiv
  have h15 : opcOf w / 16 = 15 := hdiv
  omega

theorem parseWave_opcOf_lt (w : Dword) (i : Instr) (h : parseWave w = some i) : opcOf w < 0xF0 := by
  by_contra hhi
  rw [parseWave, if_neg (by omega), if_neg (by omega), if_neg (by omega), if_neg (by omega), if_neg (by omega),
    if_neg (by omega), if_neg (by omega), if_neg (by omega), if_neg hhi] at h
  cases h

/-- Settles O1: the decoder parses the word that the encoder writes (`parseWave_of_encodeWave`), and in reeve mode nothing stands in
its way. -/
theorem waveRoundTrip : Obligations.WaveRoundTrip := by
  unfold Obligations.WaveRoundTrip
  intro i w h hwf
  have hparse := parseWave_of_encodeWave i w h hwf
  have hhead : isHeader w = false := by
    by_contra hh
    have hlo := isHeader_opcOf_lt w (by simpa using hh)
    have hhi := parseWave_opcOf_lt w i hparse
    omega
  simp [decodeWave, hhead, hparse, hwf]

/-- Settles O4: the decoder evaluates on each of the ten words. -/
theorem decodeWords : Obligations.DecodeWords := by
  unfold Obligations.DecodeWords
  decide

end Sys2Proof.Machine
end

section
/-! A word of the wave stream that is parsed is the word of its instruction: no bit of it is ignored (R164). -/

namespace Sys2Proof.Machine

-- The codes of the enumerated fields are all that is read.

theorem rmode_eq_some (n : Nat) (m : Rm) (h : rmode n = some m) : n = (rmodeCode m).toNat := by
  unfold rmode at h
  split at h <;> cases h <;> rfl

theorem icond_eq_some (n : Nat) (m : Cond) (h : icond n = some m) : n = (icondCode m).toNat := by
  unfold icond at h
  split at h <;> cases h <;> rfl

theorem movik_eq_some (n : Nat) (m : MoviKind) (h : movik n = some m) : n = (movikCode m).toNat := by
  unfold movik at h
  split at h <;> cases h <;> rfl

theorem msize_eq_some (n : Nat) (m : MSize) (h : msize n = some m) : n = (msizeCode m).toNat := by
  unfold msize at h
  split at h <;> cases h <;> rfl

theorem spsize_eq_some (n : Nat) (m : SpSize) (h : spsize n = some m) : n = (spsizeCode m).toNat := by
  unfold spsize at h
  split at h <;> cases h <;> rfl

theorem atomop_eq_some (n : Nat) (m : AtomOp) (h : atomop n = some m) : n = (atomopCode m).toNat := by
  unfold atomop at h
  split at h <;> cases h <;> rfl

theorem preflvl_eq_some (n : Nat) (m : PrefLvl) (h : preflvl n = some m) : n = (preflvlCode m).toNat := by
  unfold preflvl at h
  split at h <;> cases h <;> rfl

theorem qsel_eq_some (n : Nat) (m : QSel) (h : qsel n = some m) : n = (qselCode m).toNat := by
  unfold qsel at h
  split at h <;> cases h <;> rfl

theorem voteop_eq_some (n : Nat) (m : VoteOp) (h : voteop n = some m) : n = (voteopCode m).toNat := by
  unfold voteop at h
  split at h <;> cases h <;> rfl

theorem pullsel_eq_some (n : Nat) (m : PullSel) (h : pullsel n = some m) : n = (pullselCode m).toNat := by
  unfold pullsel at h
  split at h <;> cases h <;> rfl

theorem quadsel_eq_some (n : Nat) (m : QuadSel) (h : quadsel n = some m) : n = (quadselCode m).toNat := by
  unfold quadsel at h
  split at h <;> cases h <;> rfl

theorem rtype_eq_some (n : Nat) (m : RTy) (h : rtype n = some m) : n = (rtypeCode m).toNat := by
  unfold rtype at h
  split at h <;> cases h <;> rfl

theorem redop_eq_some (n : Nat) (m : RedOp) (h : redop n = some m) : n = (redopCode m).toNat := by
  unfold redop at h
  split at h <;> cases h <;> rfl

theorem ftype_codes (v : BitVec 2) : ftypeCode (ftype v.toNat) = v := by revert v; decide

theorem fcond_codes (n : Nat) (h : n < 8) : (fcondCode (fcond n)).toNat = n := by revert n h; decide

theorem ldsmode_codes (v : BitVec 2) : ldsmodeCode (ldsmode v.toNat) = v := by revert v; decide

-- FN from its parts.

theorem fn_eq_3_4 (w : Dword) (a : BitVec 3) (b : BitVec 4) (ha : fld w 53 3 = a) (hb : fld w 49 4 = b) : fld w 49 7 = a ++ b := by
  rw [← ha, ← hb]
  exact (BitVec.extractLsb'_append_extractLsb'_eq_extractLsb' (start₁ := 49) (len₁ := 4) (len₂ := 3) rfl).symm

theorem fn_eq_4_3 (w : Dword) (a : BitVec 4) (b : BitVec 3) (ha : fld w 52 4 = a) (hb : fld w 49 3 = b) : fld w 49 7 = a ++ b := by
  rw [← ha, ← hb]
  exact (BitVec.extractLsb'_append_extractLsb'_eq_extractLsb' (start₁ := 49) (len₁ := 3) (len₂ := 4) rfl).symm

theorem fn_eq_1_3_3 (w : Dword) (n : Bool) (a b : BitVec 3) (hn : bitOf w 55 = n) (ha : fld w 52 3 = a) (hb : fld w 49 3 = b) :
    fld w 49 7 = b1 n ++ a ++ b := by
  rw [← hn, ← ha, ← hb]
  simp (disch := decide) only [b1_bitOf, fld, BitVec.extractLsb'_append_extractLsb'_eq_extractLsb']

theorem fn_eq_3_1_3 (w : Dword) (a : BitVec 3) (n : Bool) (b : BitVec 3) (ha : fld w 53 3 = a) (hn : bitOf w 52 = n)
    (hb : fld w 49 3 = b) : fld w 49 7 = a ++ b1 n ++ b := by
  rw [← hn, ← ha, ← hb]
  simp (disch := decide) only [b1_bitOf, fld, BitVec.extractLsb'_append_extractLsb'_eq_extractLsb']

theorem fn_eq_2_2 (w : Dword) (a b : BitVec 2) (ha : fld w 54 2 = a) (hb : fld w 52 2 = b) : fld w 52 4 = a ++ b := by
  rw [← ha, ← hb]
  exact (BitVec.extractLsb'_append_extractLsb'_eq_extractLsb' (start₁ := 52) (len₁ := 2) (len₂ := 2) rfl).symm

theorem fn_eq_1_1_2 (w : Dword) (n e : Bool) (b : BitVec 2) (hn : bitOf w 55 = n) (he : bitOf w 54 = e) (hb : fld w 52 2 = b) :
    fld w 52 4 = b1 n ++ b1 e ++ b := by
  rw [← hn, ← he, ← hb]
  simp (disch := decide) only [b1_bitOf, fld, BitVec.extractLsb'_append_extractLsb'_eq_extractLsb']

theorem encI_of (w : Dword) (even : BitVec 8) (sub : BitVec 4) (sf : Bool) (ty : ITy) (hopc : opcOf w = (opF even sf).toNat)
    (hty : itype (fld w 53 3).toNat = some ty) (hsub : (fld w 49 4).toNat = sub.toNat) : encI even sub sf ty (unpackV w) = w :=
  packV_unpackV_of w _ _ hopc (fn_eq_3_4 w _ _ (BitVec.eq_of_toNat_eq (itype_eq_some _ _ hty)) (BitVec.eq_of_toNat_eq hsub))

theorem encF_of (w : Dword) (opc : BitVec 8) (mode : BitVec 3) (sub : BitVec 2) (hopc : opcOf w = opc.toNat)
    (hmode : (fld w 51 3).toNat = mode.toNat) (hsub : (fld w 49 2).toNat = sub.toNat) :
    packV opc (fnF (ftype (fld w 54 2).toNat) mode sub) (unpackV w) = w := by
  refine packV_unpackV_of w _ _ hopc ?_
  rw [fnF, ftype_codes, ← BitVec.eq_of_toNat_eq hmode, ← BitVec.eq_of_toNat_eq hsub]
  simp (disch := decide) only [fld, BitVec.extractLsb'_append_extractLsb'_eq_extractLsb']

theorem packV_unpackV_of_toNat (w : Dword) (opc : BitVec 8) (fn : BitVec 7) (hopc : opcOf w = opc.toNat)
    (hfn : (fld w 49 7).toNat = fn.toNat) : packV opc fn (unpackV w) = w :=
  packV_unpackV_of w opc fn hopc (BitVec.eq_of_toNat_eq hfn)

/-- A word whose bits below its opcode are zero. -/
theorem bare_of (w : Dword) (opc : BitVec 8) (hopc : opcOf w = opc.toNat) (h : fld w 0 56 = 0) : opc ++ 0#56 = w := by
  rw [← BitVec.eq_of_toNat_eq hopc]
  have hall : fld w 56 8 ++ fld w 0 56 = w :=
    (BitVec.extractLsb'_append_extractLsb'_eq_extractLsb' rfl).trans BitVec.extractLsb'_eq_self
  rw [h] at hall
  exact hall

/-- A control word that is parsed is its instruction's word. -/
theorem encodeWave_of_parseControl (w : Dword) (i : Instr) (n : Nat) (hn : opcOf w = n) (h : parseControl n w = some i) :
    encodeWave i = some w := by
  unfold parseControl at h
  dsimp only at h
  split at h
  case h_1 =>
    obtain ⟨hz, hi⟩ := Option.ite_none_right_eq_some.mp h
    cases hi
    exact congrArg some (bare_of w 0 hn (by simpa using hz))
  case h_8 =>
    obtain ⟨hz, hi⟩ := Option.ite_none_right_eq_some.mp h
    cases hi
    exact congrArg some (bare_of w 7 hn (by simpa using hz))
  all_goals
    repeat' split at h
    all_goals
      cases h <;> simp_all [encodeWave, packB_unpackB_of, packI_unpackI_of, packV_unpackV_of_toNat, packM_unpackM_of]

/-- A typed integer word that is parsed is its instruction's word. -/
theorem encodeWave_of_parseIntTy (w : Dword) (i : Instr) (base : Nat) (sf : Bool) (ty : ITy) (hopc : opcOf w = base + sf.toNat)
    (hty : itype (fld w 53 3).toNat = some ty)
    (h : parseIntTy base sf ty (fld w 49 4).toNat (unpackV w) = some i) : encodeWave i = some w := by
  have enc (even : BitVec 8) (sub : BitVec 4) (heven : even.toNat < 255) (hbase : base = even.toNat)
      (hsub : (fld w 49 4).toNat = sub.toNat) : encI even sub sf ty (unpackV w) = w :=
    encI_of w even sub sf ty (by rw [hopc, opF_toNat even sf heven, hbase]) hty hsub
  unfold parseIntTy at h
  split at h
  case h_8 =>
    obtain ⟨c, hc, rfl⟩ := Option.map_eq_some_iff.mp h
    exact congrArg some (enc 0x2E _ (by decide) rfl (icond_eq_some _ _ hc))
  case h_15 =>
    split at h
    · cases h
    rename_i hsub
    have hw := enc 0x40 0 (by decide) rfl (by simpa using hsub)
    repeat' split at h
    all_goals
      cases h <;> simp_all [encodeWave]
  all_goals
    repeat' split at h
    all_goals
      cases h <;> simp_all [encodeWave]

/-- A TLOG word, from the high bit of its table and its form (R216). -/
theorem tlog_of (w : Dword) (high sf : Bool) (hopc : opcOf w = (opF (if high then 0x36 else 0x34) sf).toNat) :
    encodeWave (.tlog sf (b1 high ++ fld w 49 7) (unpackV w)) = some w := by
  have h7 : (b1 high ++ fld w 49 7).getLsbD 7 = high := by
    rw [BitVec.getLsbD_append]
    simp [b1]
  have hlow : (b1 high ++ fld w 49 7).extractLsb' 0 7 = fld w 49 7 := BitVec.extractLsb'_append_eq_right
  refine congrArg some ?_
  rw [hlow, h7]
  exact packV_unpackV_of w _ _ hopc rfl

/-- An integer word that is parsed is its instruction's word. -/
theorem encodeWave_of_parseInt (w : Dword) (i : Instr) (n : Nat) (hn : opcOf w = n) (h : parseInt n w = some i) :
    encodeWave i = some w := by
  have hopc : opcOf w = n / 2 * 2 + (n % 2 == 1).toNat := by
    rcases Nat.mod_two_eq_zero_or_one n with hm | hm <;> rw [hn, hm] <;> simp <;> omega
  unfold parseInt at h
  dsimp only at h
  split at h
  case h_1 hb =>
    cases h
    exact tlog_of w false _ (by rw [hopc, hb, opF_toNat _ _ (by decide)]; rfl)
  case h_2 hb =>
    cases h
    exact tlog_of w true _ (by rw [hopc, hb, opF_toNat _ _ (by decide)]; rfl)
  case h_3 hb =>
    obtain ⟨k, hk, rfl⟩ := Option.map_eq_some_iff.mp h
    refine congrArg some (packI_unpackI_of w _ _ ?_ (movik_eq_some _ _ hk))
    rw [hopc, hb, opF_toNat _ _ (by decide)]
    rfl
  case h_4 hb =>
    obtain ⟨ty, hty, h⟩ := Option.bind_eq_some_iff.mp h
    exact encodeWave_of_parseIntTy w i _ _ ty hopc hty h

/-- A floating word that is parsed is its instruction's word. -/
theorem encodeWave_of_parseFloat (w : Dword) (i : Instr) (n : Nat) (hn : opcOf w = n)
    (h : parseFloat n (ftype (fld w 54 2).toNat) (fld w 51 3).toNat (fld w 49 2).toNat (unpackV w) = some i) :
    encodeWave i = some w := by
  have hf := encF_of w
  have hc : (fcondCode (fcond (fld w 51 3).toNat)).toNat = (fld w 51 3).toNat := fcond_codes _ (fld w 51 3).isLt
  have hm := rmode_eq_some (fld w 51 3).toNat
  generalize ftype (fld w 54 2).toNat = ft at h hf
  unfold parseFloat at h
  dsimp only at h
  split at h
  case h_1 | h_2 | h_3 | h_7 | h_8 | h_10 | h_11 | h_12 | h_13 | h_15 | h_16 =>
    obtain ⟨hsub, h⟩ := Option.ite_none_right_eq_some.mp h
    obtain ⟨m, hmode, rfl⟩ := Option.map_eq_some_iff.mp h
    exact congrArg some (hf _ _ 0 hn (hm m hmode) (by simpa using hsub))
  case h_17 | h_18 | h_19 | h_20 | h_21 =>
    obtain ⟨hft, h⟩ := Option.ite_none_right_eq_some.mp h
    obtain ⟨⟨hsub, hmode⟩, h⟩ := Option.ite_none_right_eq_some.mp h
    cases h
    rw [beq_iff_eq] at hft
    subst hft
    exact congrArg some (hf _ 0 0 hn (by simpa using hmode) (by simpa using hsub))
  all_goals
    repeat' split at h
    all_goals cases h <;> simp_all [encodeWave]

/-- A conversion word that is parsed is its instruction's word. -/
theorem encodeWave_of_parseConvert (w : Dword) (i : Instr) (n : Nat) (hn : opcOf w = n) (h : parseConvert n w = some i) :
    encodeWave i = some w := by
  unfold parseConvert at h
  dsimp only at h
  split at h
  case h_1 | h_2 =>
    obtain ⟨hz, h⟩ := Option.ite_none_right_eq_some.mp h
    obtain ⟨m, hm, rfl⟩ := Option.map_eq_some_iff.mp h
    refine congrArg some (packV_unpackV_of w _ _ hn ?_)
    exact fn_eq_4_3 w _ _ (by simpa using hz) (BitVec.eq_of_toNat_eq (rmode_eq_some _ _ hm))
  case h_3 =>
    obtain ⟨q, hq, h⟩ := Option.bind_eq_some_iff.mp h
    obtain ⟨m, hm, rfl⟩ := Option.map_eq_some_iff.mp h
    refine congrArg some (packV_unpackV_of w _ _ hn ?_)
    exact fn_eq_1_3_3 w _ _ _ rfl (BitVec.eq_of_toNat_eq (qsel_eq_some _ _ hq)) (BitVec.eq_of_toNat_eq (rmode_eq_some _ _ hm))
  case h_4 =>
    obtain ⟨hz, h⟩ := Option.ite_none_right_eq_some.mp h
    cases h
    exact congrArg some (packV_unpackV_of w _ _ hn (by simpa using hz))
  case h_5 => cases h

/-- A memory word that is parsed is its instruction's word. -/
theorem encodeWave_of_parseMem (w : Dword) (i : Instr) (n : Nat) (hn : opcOf w = n) (h : parseMem n w = some i) :
    encodeWave i = some w := by
  unfold parseMem at h
  dsimp only at h
  split at h
  case h_1 | h_2 | h_3 | h_4 =>
    obtain ⟨m, hm, rfl⟩ := Option.map_eq_some_iff.mp h
    exact congrArg some (packM_unpackM_of w _ _ hn (msize_eq_some _ _ hm))
  case h_5 =>
    obtain ⟨z, hz, rfl⟩ := Option.map_eq_some_iff.mp h
    refine congrArg some (packM_unpackM_of w _ _ hn (congrArg BitVec.toNat ?_))
    exact fn_eq_2_2 w _ _ (ldsmode_codes _).symm (BitVec.eq_of_toNat_eq (spsize_eq_some _ _ hz))
  case h_6 =>
    obtain ⟨hb, h⟩ := Option.ite_none_left_eq_some.mp h
    obtain ⟨z, hz, rfl⟩ := Option.map_eq_some_iff.mp h
    refine congrArg some (packM_unpackM_of w _ _ hn (congrArg BitVec.toNat ?_))
    exact fn_eq_1_1_2 w false _ _ (by simpa using hb) rfl (BitVec.eq_of_toNat_eq (spsize_eq_some _ _ hz))
  case h_9 | h_11 =>
    obtain ⟨o, ho, rfl⟩ := Option.map_eq_some_iff.mp h
    exact congrArg some (packM_unpackM_of w _ _ hn (atomop_eq_some _ _ ho))
  case h_17 =>
    obtain ⟨l, hl, rfl⟩ := Option.map_eq_some_iff.mp h
    exact congrArg some (packM_unpackM_of w _ _ hn (preflvl_eq_some _ _ hl))
  all_goals
    repeat' split at h
    all_goals cases h <;> simp_all [encodeWave, packM_unpackM_of, b1]

/-- A cross-lane word that is parsed is its instruction's word. -/
theorem encodeWave_of_parseCross (w : Dword) (i : Instr) (n : Nat) (hn : opcOf w = n) (h : parseCross n w = some i) :
    encodeWave i = some w := by
  unfold parseCross at h
  dsimp only at h
  split at h
  case h_1 =>
    obtain ⟨o, ho, rfl⟩ := Option.map_eq_some_iff.mp h
    exact congrArg some (packV_unpackV_of_toNat w _ _ hn (voteop_eq_some _ _ ho))
  case h_2 =>
    obtain ⟨ty, hty, h⟩ := Option.bind_eq_some_iff.mp h
    have hfn (a : Bool) (ha : (fld w 49 4).toNat = (0#3 ++ b1 a).toNat) : packV 0xB1 (itypeCode ty ++ 0#3 ++ b1 a) (unpackV w) = w := by
      refine packV_unpackV_of w _ _ hn ?_
      rw [fn_eq_3_4 w _ _ (BitVec.eq_of_toNat_eq (itype_eq_some _ _ hty)) (BitVec.eq_of_toNat_eq ha)]
      exact (BitVec.append_assoc (x₁ := itypeCode ty) (x₂ := 0#3) (x₃ := b1 a)).symm
    split at h
    case h_1 ha => cases h; exact congrArg some (hfn false ha)
    case h_2 ha => cases h; exact congrArg some (hfn true ha)
    case h_3 => cases h
  case h_3 =>
    obtain ⟨o, ho, rfl⟩ := Option.map_eq_some_iff.mp h
    exact congrArg some (packV_unpackV_of_toNat w _ _ hn (pullsel_eq_some _ _ ho))
  case h_5 =>
    obtain ⟨o, ho, rfl⟩ := Option.map_eq_some_iff.mp h
    exact congrArg some (packV_unpackV_of_toNat w _ _ hn (quadsel_eq_some _ _ ho))
  case h_7 =>
    obtain ⟨ty, hty, h⟩ := Option.bind_eq_some_iff.mp h
    obtain ⟨hb, h⟩ := Option.ite_none_left_eq_some.mp h
    obtain ⟨o, ho, rfl⟩ := Option.map_eq_some_iff.mp h
    refine congrArg some (packV_unpackV_of w _ _ hn ?_)
    exact fn_eq_3_1_3 w _ false _ (BitVec.eq_of_toNat_eq (rtype_eq_some _ _ hty)) (by simpa using hb)
      (BitVec.eq_of_toNat_eq (redop_eq_some _ _ ho))
  case h_8 =>
    obtain ⟨ty, hty, h⟩ := Option.bind_eq_some_iff.mp h
    obtain ⟨o, ho, rfl⟩ := Option.map_eq_some_iff.mp h
    refine congrArg some (packV_unpackV_of w _ _ hn ?_)
    exact fn_eq_3_1_3 w _ _ _ (BitVec.eq_of_toNat_eq (rtype_eq_some _ _ hty)) rfl (BitVec.eq_of_toNat_eq (redop_eq_some _ _ ho))
  all_goals
    repeat' split at h
    all_goals cases h <;> simp_all [encodeWave, packV_unpackV_of_toNat]

/-- A privileged word that is parsed is its instruction's word. -/
theorem encodeWave_of_parsePriv (w : Dword) (i : Instr) (n : Nat) (hn : opcOf w = n) (h : parsePriv n w = some i) :
    encodeWave i = some w := by
  unfold parsePriv at h
  dsimp only at h
  split at h
  case h_1 =>
    obtain ⟨hz, hi⟩ := Option.ite_none_right_eq_some.mp h
    cases hi
    exact congrArg some (bare_of w 0xC0 hn (by simpa using hz))
  all_goals
    repeat' split at h
    all_goals
      cases h <;> simp_all [encodeWave, packM_unpackM_of, b1]

theorem encodeWave_of_parseWave (w : Dword) (i : Instr) (h : parseWave w = some i) : encodeWave i = some w := by
  unfold parseWave at h
  dsimp only at h
  split at h
  · exact encodeWave_of_parseControl w i _ rfl h
  split at h
  · exact encodeWave_of_parseInt w i _ rfl h
  split at h
  · cases h
  split at h
  · exact encodeWave_of_parseFloat w i _ rfl h
  split at h
  · exact encodeWave_of_parseConvert w i _ rfl h
  split at h
  · exact encodeWave_of_parseMem w i _ rfl h
  split at h
  · exact encodeWave_of_parseCross w i _ rfl h
  split at h
  · exact encodeWave_of_parsePriv w i _ rfl h
  split at h
  · cases h
    have htag : fld w 60 4 = 14#4 := by
      apply BitVec.eq_of_toNat_eq
      rw [← opcOf_div]
      show opcOf w / 16 = 14
      omega
    have hw := paired_unpackP w
    rw [htag] at hw
    exact congrArg some hw
  · cases h

/-- Settles O3: what is decoded is what is parsed, and a word that is parsed is its instruction's (`encodeWave_of_parseWave`). -/
theorem waveDecodesItsWord : Obligations.WaveDecodesItsWord := by
  unfold Obligations.WaveDecodesItsWord
  intro reeve w i h
  obtain ⟨hparse, hwf⟩ := parseWave_of_decodeWave reeve w i h
  exact ⟨encodeWave_of_parseWave w i hparse, hwf⟩

end Sys2Proof.Machine
end

section
/-! The decoder of the matrix stream reads back what its encoder writes (R171, R292 to R306). -/

namespace Sys2Proof.Machine

-- The fields of a packed word are those it was packed from.

theorem append_eq_fld_iff {m n : Nat} (w : Dword) (lo : Nat) (x : BitVec m) (y : BitVec n) :
    x ++ y = fld w lo (m + n) ↔ x = fld w (lo + n) m ∧ y = fld w lo n := by
  rw [← append_inj_iff]
  simp only [fld, BitVec.extractLsb'_append_extractLsb'_eq_extractLsb']

/-- A word as the field of all its bits. -/
theorem fld_all (w v : Dword) (h : v = w) : v = fld w 0 64 := h.trans BitVec.extractLsb'_eq_self.symm

theorem fields_packQ (opc : BitVec 8) (q : QF) :
    opcOf (packQ opc q) = opc.toNat ∧ unpackQ (packQ opc q) = q ∧ fld (packQ opc q) 0 6 = 0#6 := by
  generalize hw : packQ opc q = w
  obtain ⟨h, h0⟩ := (append_eq_fld_iff _ _ _ _).mp (fld_all w _ hw)
  simp only [append_eq_fld_iff] at h
  obtain ⟨⟩ := q
  simp_all [unpackQ, opcOf, ← b1_inj, b1_bitOf, fld]

theorem fields_packT (opc : BitVec 8) (t : TF) :
    opcOf (packT opc t) = opc.toNat ∧ unpackT (packT opc t) = t ∧ fld (packT opc t) 0 32 = 0#32 := by
  generalize hw : packT opc t = w
  obtain ⟨h, h0⟩ := (append_eq_fld_iff _ _ _ _).mp (fld_all w _ hw)
  simp only [append_eq_fld_iff] at h
  obtain ⟨⟩ := t
  simp_all [unpackT, opcOf]

theorem fields_packA (opc : BitVec 8) (fn : BitVec 3) (a : AF) :
    opcOf (packA opc fn a) = opc.toNat ∧ fld (packA opc fn a) 46 3 = fn ∧ unpackA (packA opc fn a) = a ∧
      fld (packA opc fn a) 0 8 = 0#8 := by
  generalize hw : packA opc fn a = w
  obtain ⟨h, h0⟩ := (append_eq_fld_iff _ _ _ _).mp (fld_all w _ hw)
  simp only [append_eq_fld_iff] at h
  obtain ⟨⟩ := a
  simp_all [unpackA, opcOf]

@[simp] theorem astfmt_code (f : AstFmt) : astfmt (astfmtCode f).toNat = some f := by cases f <;> rfl

-- Words of a layout of their own: their fields, read off their row.

theorem parseSeq_scld (e4 : Bool) (r : BitVec 3) (i c : BitVec 12) (n : BitVec 16) :
    parseSeq (0x0D#8 ++ b1 e4 ++ 0#3 ++ r ++ 0#1 ++ i ++ c ++ n ++ 0#8) = some (.scld e4 r i c n) := by
  generalize hw : (0x0D#8 ++ b1 e4 ++ 0#3 ++ r ++ 0#1 ++ i ++ c ++ n ++ 0#8 : Dword) = w
  obtain ⟨h, h0⟩ := (append_eq_fld_iff _ _ _ _).mp (fld_all w _ hw)
  simp only [append_eq_fld_iff] at h
  have he : bitOf w 55 = e4 := by
    rw [← b1_inj, b1_bitOf]
    exact h.1.1.1.1.1.1.2.symm
  simp [parseSeq, opcOf, ← h, ← h0, he]

theorem parseSeq_marv (v : BitVec 4) (c : BitVec 6) : parseSeq (0x10#8 ++ v ++ 0#6 ++ c ++ 0#40) = some (.marv v c) := by
  generalize hw : (0x10#8 ++ v ++ 0#6 ++ c ++ 0#40 : Dword) = w
  obtain ⟨h, h0⟩ := (append_eq_fld_iff _ _ _ _).mp (fld_all w _ hw)
  simp only [append_eq_fld_iff] at h
  simp [parseSeq, opcOf, ← h, ← h0]

theorem parseSeq_mwait (v : BitVec 4) : parseSeq (0x11#8 ++ v ++ 0#52) = some (.mwait v) := by
  generalize hw : (0x11#8 ++ v ++ 0#52 : Dword) = w
  obtain ⟨h, h0⟩ := (append_eq_fld_iff _ _ _ _).mp (fld_all w _ hw)
  simp only [append_eq_fld_iff] at h
  simp [parseSeq, opcOf, ← h, ← h0]

theorem parseSeq_mloop (l : BitVec 2) (c : BitVec 16) (o : BitVec 32) :
    parseSeq (0x13#8 ++ l ++ c ++ 0#6 ++ o) = some (.mloop l c o) := by
  generalize hw : (0x13#8 ++ l ++ c ++ 0#6 ++ o : Dword) = w
  obtain ⟨h, h0⟩ := (append_eq_fld_iff _ _ _ _).mp (fld_all w _ hw)
  simp only [append_eq_fld_iff] at h
  simp [parseSeq, opcOf, ← h, ← h0]

theorem parseSeq_mjmp (c : BitVec 4) (o : BitVec 32) : parseSeq (0x14#8 ++ c ++ 0#20 ++ o) = some (.mjmp c o) := by
  generalize hw : (0x14#8 ++ c ++ 0#20 ++ o : Dword) = w
  obtain ⟨h, h0⟩ := (append_eq_fld_iff _ _ _ _).mp (fld_all w _ hw)
  simp only [append_eq_fld_iff] at h
  simp [parseSeq, opcOf, ← h, ← h0]

/-- The reserved bits of MCHK and MSRD (R304, R305). -/
theorem parseSeq_mchk (n r : BitVec 3) (i : BitVec 16) :
    parseSeq (0x16#8 ++ 0#1 ++ n ++ r ++ 0#25 ++ i ++ 0#8) = some (.mchk n r i) := by
  generalize hw : (0x16#8 ++ 0#1 ++ n ++ r ++ 0#25 ++ i ++ 0#8 : Dword) = w
  obtain ⟨h, h0⟩ := (append_eq_fld_iff _ _ _ _).mp (fld_all w _ hw)
  simp only [append_eq_fld_iff] at h
  simp [parseSeq, opcOf, ← h, ← h0]

theorem parseSeq_msrd (v : BitVec 4) (r : BitVec 3) (i : BitVec 16) :
    parseSeq (0x17#8 ++ v ++ r ++ 0#25 ++ i ++ 0#8) = some (.msrd v r i) := by
  generalize hw : (0x17#8 ++ v ++ r ++ 0#25 ++ i ++ 0#8 : Dword) = w
  obtain ⟨h, h0⟩ := (append_eq_fld_iff _ _ _ _).mp (fld_all w _ hw)
  simp only [append_eq_fld_iff] at h
  simp [parseSeq, opcOf, ← h, ← h0]

theorem parseSeq_inj (t : BitVec 4) (c : BitVec 8) (i j : BitVec 6) (b : BitVec 5) :
    parseSeq (0x18#8 ++ t ++ c ++ i ++ j ++ b ++ 0#27) = some (.inj t c i j b) := by
  generalize hw : (0x18#8 ++ t ++ c ++ i ++ j ++ b ++ 0#27 : Dword) = w
  obtain ⟨h, h0⟩ := (append_eq_fld_iff _ _ _ _).mp (fld_all w _ hw)
  simp only [append_eq_fld_iff] at h
  simp [parseSeq, opcOf, ← h, ← h0]

theorem parseSeq_of_encodeSeq (i : Instr) (w : Dword) (h : encodeSeq i = some w) : parseSeq w = some i := by
  cases i with
  | mmaF16 q | mmaBf16 q | mmaE4m3 q | mmaE5m2 q | mmaI8 q | mmasE4m3 q | mmasX4 q =>
    obtain rfl := Option.some.inj h
    simp [parseSeq, fields_packQ]
  | azero t | aadd t | acvt t =>
    obtain rfl := Option.some.inj h
    simp [parseSeq, fields_packT]
  | aloadTile a | aloadMa a | astore f a =>
    obtain rfl := Option.some.inj h
    simp [parseSeq, fields_packA]
  | scld e4 r i c n => exact Option.some.inj h ▸ parseSeq_scld e4 r i c n
  | marv v c => exact Option.some.inj h ▸ parseSeq_marv v c
  | mwait v => exact Option.some.inj h ▸ parseSeq_mwait v
  | mregion m => exact (parseSeq_eq_mregion_iff_word w m).mpr (Option.some.inj h).symm
  | mloop l c o => exact Option.some.inj h ▸ parseSeq_mloop l c o
  | mjmp c o => exact Option.some.inj h ▸ parseSeq_mjmp c o
  | mend => exact Option.some.inj h ▸ rfl
  | mchk n r i => exact Option.some.inj h ▸ parseSeq_mchk n r i
  | msrd v r i => exact Option.some.inj h ▸ parseSeq_msrd v r i
  | inj t c i j b => exact Option.some.inj h ▸ parseSeq_inj t c i j b
  | _ => cases h

/-- Settles O2: the decoder parses the word that the encoder writes (`parseSeq_of_encodeSeq`). -/
theorem seqRoundTrip : Obligations.SeqRoundTrip := by
  unfold Obligations.SeqRoundTrip
  intro i w h hwf
  simp [decodeSeq, parseSeq_of_encodeSeq i w h, hwf]

end Sys2Proof.Machine
end

section
/-! Integer words (R208 to R225): the values of their rules, the range of their operands, and division, which leaves its result in
the commit buffer and raises DZ (R77, R213). -/

namespace Sys2Proof.Machine

-- Values.

theorem iminVal_eq (sg : Bool) (w a b : Nat) :
    iminVal sg w a b = if sg then (if sgnOf w b < sgnOf w a then b else a) else (if b < a then b else a) := by
  cases sg <;> simp [iminVal, iLt]

theorem imaxVal_eq (sg : Bool) (w a b : Nat) :
    imaxVal sg w a b = if sg then (if sgnOf w a < sgnOf w b then b else a) else (if a < b then b else a) := by
  cases sg <;> simp [imaxVal, iLt]

theorem intBody_congr (i : Instr) (sf : Bool) (x : VF) (f g : Srcs → Nat) (h : ∀ o, f o = g o) : intBody i sf x f = intBody i sf x g := by
  rw [funext h]

/-- The arithmetic words complete with the value of their rule (R211, R212). -/
theorem arithRule_completes (s : State) (i : Instr) (r : IntRule) (hr : arithRule i = some r) (h : s.mayIssue i) :
    intCompletes s i r := by
  unfold arithRule at hr
  split at hr <;> cases hr
  case h_7 sf ty x =>
    exact intBody_completes s _ _ _ _ _ rfl rfl rfl
      (congrArg (fun b => Host.Outcome.next (s.issue (.imin sf ty x) b)) (intBody_congr _ sf x _ _ fun o => iminVal_eq _ _ o.a o.b)) h
  case h_8 sf ty x =>
    exact intBody_completes s _ _ _ _ _ rfl rfl rfl
      (congrArg (fun b => Host.Outcome.next (s.issue (.imax sf ty x) b)) (intBody_congr _ sf x _ _ fun o => imaxVal_eq _ _ o.a o.b)) h
  all_goals exact intBody_completes s _ _ _ _ _ rfl rfl rfl rfl h

/-- The shifts complete with the value of their rule (R218). -/
theorem shiftRule_completes (s : State) (i : Instr) (r : IntRule) (hr : shiftRule i = some r) (h : s.mayIssue i) :
    intCompletes s i r := by
  unfold shiftRule at hr
  split at hr <;> cases hr <;> exact intBody_completes s _ _ _ _ _ rfl rfl rfl rfl h

/-- The bit words complete with the value of their rule (R219 to R221). -/
theorem bitRule_completes (s : State) (i : Instr) (r : IntRule) (hr : bitRule i = some r) (h : s.mayIssue i) :
    intCompletes s i r := by
  unfold bitRule at hr
  split at hr <;> cases hr <;> exact intBody_completes s _ _ _ _ _ rfl rfl rfl rfl h

/-- Settles O5, rule by rule. -/
theorem integerWords : Obligations.IntegerWords := by
  unfold Obligations.IntegerWords
  rintro i r (hr | hr | hr | hr) s h
  · exact arithRule_completes s i r hr h
  · exact logicRule_completes s i r hr h
  · exact shiftRule_completes s i r hr h
  · exact bitRule_completes s i r hr h

-- Operands are numbers of the width of their type.

theorem joinWords_lt (f : Nat → Word) (r n : Nat) : joinWords f r n < 2 ^ (32 * n) := by
  induction n generalizing r with
  | zero => simp [joinWords]
  | succ n ih =>
    have hpow : 2 ^ (32 * (n + 1)) = 2 ^ 32 * 2 ^ (32 * n) := by rw [← pow_add]; congr 1; omega
    have hw := (f r).isLt
    have hr := ih (r + 1)
    rw [joinWords, hpow]
    nlinarith

theorem rvn_lt (w : Wave) (r n : Nat) (l : Fin 32) : w.rvn r n l < 2 ^ (32 * n) := by
  rw [rvn_eq_joinWords]
  exact joinWords_lt _ r n

theorem rsn_lt (w : Wave) (r n : Nat) : w.rsn r n < 2 ^ (32 * n) := by
  rw [rsn_eq_joinWords]
  exact joinWords_lt _ r n

theorem wrapOf_lt (w : Nat) (i : Int) : wrapOf w i < 2 ^ w := by
  have hpos : (0 : Int) < ((2 ^ w : Nat) : Int) := by exact_mod_cast Nat.two_pow_pos w
  have hlt := Int.emod_lt_of_pos i hpos
  have hnn := Int.emod_nonneg i hpos.ne'
  rw [wrapOf]
  omega

theorem special_lt (s : State) (k : Key) (b : Nat) (l : Fin 32) : s.special k b l < 2 ^ 32 := by
  unfold State.special
  split
  · have := l.isLt; omega
  · have : waveIdOf k < 32 := Nat.mod_lt _ (by decide)
    omega
  · exact BitVec.isLt _
  · exact BitVec.isLt _
  · omega
  · decide

theorem bInt_lt (s : State) (k : Key) (w : Wave) (x : VF) (n : Nat) (l : Fin 32) (hn : 1 ≤ n) : s.bInt k w x n l < 2 ^ (32 * n) := by
  have hpow : 2 ^ 32 ≤ 2 ^ (32 * n) := Nat.pow_le_pow_right (by decide) (by omega)
  unfold State.bInt
  split
  · exact rvn_lt w _ n l
  split
  · exact rsn_lt w _ n
  split
  · exact wrapOf_lt _ _
  · exact (special_lt s k _ l).trans_le hpow

theorem regs_pos (ty : ITy) : 1 ≤ ty.regs := by cases ty <;> decide

-- ICMP.

/-- Two numbers of w bits are equal as signed numbers where they are equal. -/
theorem sgnOf_inj (w a b : Nat) (ha : a < 2 ^ w) (hb : b < 2 ^ w) : sgnOf w a = sgnOf w b ↔ a = b := by
  refine ⟨fun h => ?_, fun h => by rw [h]⟩
  unfold sgnOf at h
  rw [Nat.mod_eq_of_lt ha, Nat.mod_eq_of_lt hb] at h
  split at h <;> split at h <;> omega

/-- A number of a type, compared under it. -/
def tyVal (ty : ITy) (a : Nat) : Int := if ty.signed then sgnOf (tyBits ty) a else a

/-- The condition of ICMP, on the values of its operands (R214). -/
theorem icmpVal_eq (c : Cond) (ty : ITy) (a b : Nat) (ha : a < 2 ^ tyBits ty) (hb : b < 2 ^ tyBits ty) :
    icmpVal c ty.signed (tyBits ty) a b =
      match c with
      | .eq => decide (tyVal ty a = tyVal ty b) | .ne => decide (tyVal ty a ≠ tyVal ty b) | .lt => decide (tyVal ty a < tyVal ty b)
      | .le => decide (tyVal ty a ≤ tyVal ty b) | .gt => decide (tyVal ty b < tyVal ty a)
      | .ge => decide (tyVal ty b ≤ tyVal ty a) := by
  have heq : a = b ↔ tyVal ty a = tyVal ty b := by
    unfold tyVal
    split
    · exact (sgnOf_inj _ a b ha hb).symm
    · exact Int.ofNat_inj.symm
  have hlt (p q : Nat) : iLt ty.signed (tyBits ty) p q = decide (tyVal ty p < tyVal ty q) := by
    unfold iLt tyVal
    split
    · rfl
    · exact decide_eq_decide.mpr Int.ofNat_lt.symm
  have hnot (p q : Nat) : (!decide (tyVal ty p < tyVal ty q)) = decide (tyVal ty q ≤ tyVal ty p) := by
    rw [← decide_not]
    exact decide_eq_decide.mpr not_lt
  cases c <;> simp only [icmpVal, hlt, hnot]
  · exact decide_eq_decide.mpr heq
  · exact decide_eq_decide.mpr (not_congr heq)

/-- A short word whose body answers one mask result and does no more. -/
theorem short_mask (s : State) (i : Instr) (body : State → Key → Wave → Eff) (d : Nat) (m : LaneMask) (f : Fin 32 → Bool)
    (h : s.mayIssue i) (hl : (lkOf i).long = false)
    (hb : body (s.begun i) s.cur (s.readWave i) = .done (s.begun i) [resK d m f]) :
    let t := s.issue i body
    s.ran t ∧ (s.wave s.cur).plain (t.wave s.cur) ∧ WroteK (s.usedWave i) (t.wave s.cur) d m f := by
  have hbody : body (s.begun i) s.cur (s.readWave i) =
      .done (s.bodyState i (s.wave s.cur).fpflags (s.wave s.cur).srseed) [resK d m f] := by
    rw [bodyState_same s i h]; exact hb
  obtain ⟨hran, hwrote, hfl, hsr, hsb, hpend⟩ := short_k s i body _ _ d m f h hl hbody
  exact ⟨hran, ⟨hfl, hsr, hsb, hpend⟩, hwrote⟩

/-- The condition that ICMP tests, on its operands as numbers of their type (R214). -/
def icmpTest (ty : ITy) (c : Cond) (o : Srcs) : Bool :=
  match c with
  | .eq => decide (tyVal ty o.a = tyVal ty o.b) | .ne => decide (tyVal ty o.a ≠ tyVal ty o.b)
  | .lt => decide (tyVal ty o.a < tyVal ty o.b) | .le => decide (tyVal ty o.a ≤ tyVal ty o.b)
  | .gt => decide (tyVal ty o.b < tyVal ty o.a) | .ge => decide (tyVal ty o.b ≤ tyVal ty o.a)

theorem icmp_completes (s : State) (sf : Bool) (ty : ITy) (c : Cond) (x : VF) (h : s.mayIssue (.icmp sf ty c x)) :
    let i := Instr.icmp sf ty c x
    let m := s.actOf i
    ∃ t, exec i s = .next t ∧ s.ran t ∧ (s.wave s.cur).plain (t.wave s.cur) ∧
      if sf then WroteK (s.usedWave i) (t.wave s.cur) x.d.toNat (if m = 0 then 0 else BitVec.allOnes 32) fun _ =>
          icmpTest ty c (s.srcS s.cur (s.wave s.cur) x ty.regs ty.regs 0)
      else WroteK (s.usedWave i) (t.wave s.cur) x.d.toNat m fun l =>
          icmpTest ty c (s.srcV s.cur (s.wave s.cur) x ty.regs ty.regs 0 l) := by
  intro i m
  have hb := bInt_lt s s.cur (s.wave s.cur) x ty.regs
  have hS := icmpVal_eq c ty _ _ (rsn_lt (s.wave s.cur) x.a.toNat ty.regs) (hb 0 (regs_pos ty))
  have hV (l : Fin 32) := icmpVal_eq c ty _ _ (rvn_lt (s.wave s.cur) x.a.toNat ty.regs l) (hb l (regs_pos ty))
  have hact : (s.readWave i).act x.pr x.pn = m := act_begun s i x rfl h
  have hw : widths (.icmp sf ty c x) = (ty.regs, ty.regs, 0, 1) := by
    simp only [widths, vshape, shDAB, intB_width, FieldUse.width]
  refine ⟨_, rfl, ?_⟩
  cases sf with
  | true =>
    refine short_mask s i _ _ _ _ h rfl ?_
    simp only [intMaskBody, hw, hact, srcS_begun s i h, if_true]
    exact congrArg (fun b => Eff.done (s.begun i) [resK x.d.toNat (if m = 0 then 0 else BitVec.allOnes 32) fun _ => b]) hS
  | false =>
    refine short_mask s i _ _ _ _ h rfl ?_
    simp only [intMaskBody, hw, hact, srcV_begun s i h]
    exact congrArg (fun f => Eff.done (s.begun i) [resK x.d.toNat m f]) (funext hV)

-- Moves.

/-- The lanes in which the body of an I word executes. -/
theorem act_begun_I (s : State) (i : Instr) (x : IF) (hv : vfOf i = none) (hm : mfOf i = none) (hx : ifOf i = some x)
    (h : s.mayIssue i) : (s.readWave i).act x.pr x.pn = s.actOf i := by
  have hlk : lkOf i = lkI x := by rw [lkOf, hv, hm, hx]
  rw [readWave_act s i h, State.actOf, hlk]
  rfl

theorem moviVal_eq (kd : MoviKind) (imm : BitVec 32) :
    moviVal kd imm = if kd == .i64 then (imm.signExtend 64).toNat else imm.toNat := by cases kd <;> rfl

theorem movi_completes (s : State) (sf : Bool) (kd : MoviKind) (x : IF) (h : s.mayIssue (.movi sf kd x)) :
    let i := Instr.movi sf kd x
    let n := if kd == .b32 then 1 else 2
    let v := if kd == .i64 then (x.imm.signExtend 64).toNat else x.imm.toNat
    ∃ t, exec i s = .next t ∧ s.ran t ∧ (s.wave s.cur).plain (t.wave s.cur) ∧
      if sf then WroteS (s.usedWave i) (t.wave s.cur) x.d.toNat n (s.actOf i) v
      else WroteV (s.usedWave i) (t.wave s.cur) x.d.toNat n (s.actOf i) fun _ => v := by
  intro i n v
  refine ⟨_, rfl, short_form s i _ sf _ n _ v _ h rfl ?_⟩
  simp only [moviBody, act_begun_I s i x rfl rfl rfl h, moviVal_eq]
  rfl

theorem rdlane_completes (s : State) (ty : ITy) (x : VF) (h : s.mayIssue (.rdlane ty x)) :
    let i := Instr.rdlane ty x
    let l : Fin 32 := Fin.ofNat 32 (s.bInt s.cur (s.wave s.cur) x 1 0)
    ∃ t, exec i s = .next t ∧ s.ran t ∧ (s.wave s.cur).plain (t.wave s.cur) ∧
      WroteS (s.usedWave i) (t.wave s.cur) x.d.toNat ty.regs (s.actOf i)
        (if inMask (s.wave s.cur).nonExited l then (s.wave s.cur).rvn x.a.toNat ty.regs l else 0) := by
  intro i l
  obtain ⟨bk, hread, -⟩ := readWave_spec s i h
  have hlive : (s.readWave i).nonExited = (s.wave s.cur).nonExited := by rw [hread]; rfl
  refine ⟨_, rfl, short_form s i _ true _ ty.regs _ _ (fun _ => 0) h rfl ?_⟩
  simp only [rdlaneBody, act_begun s i x rfl h, bInt_begun s i h, readWave_rvn s i h, hlive, if_true]
  rfl

theorem bcast_completes (s : State) (ty : ITy) (x : VF) (h : s.mayIssue (.bcast ty x)) :
    let i := Instr.bcast ty x
    ∃ t, exec i s = .next t ∧ s.ran t ∧ (s.wave s.cur).plain (t.wave s.cur) ∧
      WroteV (s.usedWave i) (t.wave s.cur) x.d.toNat ty.regs (s.actOf i) fun _ => (s.wave s.cur).rsn x.a.toNat ty.regs := by
  intro i
  refine ⟨_, rfl, short_form s i _ false _ ty.regs _ 0 _ h rfl ?_⟩
  simp only [bcastBody, act_begun s i x rfl h, readWave_rsn s i h]
  rfl

/-- Settles O7, word by word. -/
theorem compareAndMove : Obligations.CompareAndMove := by
  unfold Obligations.CompareAndMove
  exact ⟨icmp_completes, movi_completes, rdlane_completes, bcast_completes⟩

-- Flags and results in the commit buffer.

/-- Flags that a body raises first leave its state as it began, with FPFLAGS as R75 says. -/
theorem flagLanes_begun (s : State) (i : Instr) (h : s.mayIssue i) (m : LaneMask) (f : Fin 32 → Flags) :
    (s.begun i).flagLanes s.cur m f = s.bodyState i ((s.wave s.cur).flagsAfter m f) (s.wave s.cur).srseed := by
  obtain ⟨bk, hread, -⟩ := readWave_spec s i h
  have hwave : (s.readWave i).raiseFlags m f = s.bodyWave i ((s.wave s.cur).flagsAfter m f) (s.wave s.cur).srseed := by
    rw [State.bodyWave, hread]
    rfl
  rw [State.flagLanes, State.modWave, begun_wave, hwave, State.begun, State.setWave_setWave, State.bodyState]

/-- A long-latency word that answers one vector or scalar result leaves it in the commit buffer (R50). -/
theorem long_posted (s : State) (i : Instr) (body : State → Key → Wave → Eff) (a : Word) (b : LaneVec) (file : RFile) (r n : Nat)
    (m : LaneMask) (f : Fin 32 → Nat) (h : s.mayIssue i) (hl : (lkOf i).long = true) (hn : 1 ≤ n)
    (hb : body (s.begun i) s.cur (s.readWave i) = .done (s.bodyState i a b)
      [{ file := file, reg := r, mask := m, data := (List.range n).map fun j => Vector.ofFn fun l => wordAt (f l) j }]) :
    let t := s.issue i body
    s.ran t ∧ Posted (s.usedWave i) (t.wave s.cur) i file r n m f ∧ (t.wave s.cur).srseed = b ∧ (t.wave s.cur).fpflags = a := by
  have hdata : ((List.range n).map fun j => Vector.ofFn fun l => wordAt (f l) j) ≠ [] := by
    intro h0
    have hlen := congrArg List.length h0
    simp only [List.length_map, List.length_range, List.length_nil] at hlen
    omega
  obtain ⟨hran, hregs, hfl, hsr, hpend, hsb⟩ := long_word s i body a b _ h hl hdata rfl rfl hb
  have hu := usedWave_spec s i
  have hupend : (s.usedWave i).pend = (s.wave s.cur).pend := by rw [hu]
  have husb : (s.usedWave i).sb = (s.wave s.cur).sb := by rw [hu]
  refine ⟨hran, ⟨hregs, ?_, ?_⟩, hsr, hfl⟩
  · rw [hupend]
    simp only [List.length_map, List.length_range] at hpend
    exact hpend
  · rw [husb]
    exact hsb

theorem resS_eq (r n : Nat) (m : LaneMask) (v : Nat) :
    resS r n m v =
      { file := .s, reg := r, mask := m, data := (List.range n).map fun j => Vector.ofFn fun _ => wordAt v j } := by
  have hv (j : Nat) : Vector.replicate 32 (wordAt v j) = Vector.ofFn fun _ : Fin 32 => wordAt v j := by
    ext l hl
    simp
  simp only [resS, hv]

theorem srcS_bodyState (s : State) (i : Instr) (h : s.mayIssue i) (a : Word) (b : LaneVec) (x : VF) (na nb nc : Nat) :
    (s.bodyState i a b).srcS s.cur (s.readWave i) x na nb nc = s.srcS s.cur (s.wave s.cur) x na nb nc :=
  srcS_begun s i h x na nb nc

theorem srcV_bodyState (s : State) (i : Instr) (h : s.mayIssue i) (a : Word) (b : LaneVec) (x : VF) (na nb nc : Nat) (l : Fin 32) :
    (s.bodyState i a b).srcV s.cur (s.readWave i) x na nb nc l = s.srcV s.cur (s.wave s.cur) x na nb nc l :=
  srcV_begun s i h x na nb nc l

/-- The result of a division (R77, R213). -/
def divVal (rem : Bool) (ty : ITy) (a b : Nat) : Nat :=
  if rem then iremVal ty.signed (tyBits ty) a b else idivVal ty.signed (tyBits ty) a b

theorem division_completes (s : State) (sf rem : Bool) (ty : ITy) (x : VF) (i : Instr) (hx : vfOf i = some x)
    (hi : vshape i = { shDAB sf ty with long := true })
    (he : exec i s = .next (s.issue i (divBody i sf ty x fun o => divVal rem ty o.a o.b))) (h : s.mayIssue i) :
    let src (l : Fin 32) : Srcs :=
      if sf then s.srcS s.cur (s.wave s.cur) x ty.regs ty.regs 0 else s.srcV s.cur (s.wave s.cur) x ty.regs ty.regs 0 l
    ∃ t, exec i s = .next t ∧ s.ran t ∧
      Posted (s.usedWave i) (t.wave s.cur) i (formFile sf) x.d.toNat ty.regs (s.actOf i)
        (fun l => divVal rem ty (src l).a (src l).b) ∧
      (t.wave s.cur).srseed = (s.wave s.cur).srseed ∧
      (t.wave s.cur).fpflags =
        (s.wave s.cur).flagsAfter (s.actOf i) fun l => if (src l).b % 2 ^ tyBits ty = 0 then fDZ else 0 := by
  intro src
  have hlong : (lkOf i).long = true := by rw [lkOf_of_vfOf i x hx, lkV, hi]
  have hw : widths i = (ty.regs, ty.regs, 0, ty.regs) := by
    simp only [widths, hi, shDAB, intB_width, FieldUse.width]
  have hbody : divBody i sf ty x (fun o => divVal rem ty o.a o.b) (s.begun i) s.cur (s.readWave i) =
      .done (s.bodyState i ((s.wave s.cur).flagsAfter (s.actOf i) fun l => divFlags (tyBits ty) (src l).b) (s.wave s.cur).srseed)
        [{ file := formFile sf, reg := x.d.toNat, mask := s.actOf i,
           data := (List.range ty.regs).map fun j => Vector.ofFn fun l => wordAt (divVal rem ty (src l).a (src l).b) j }] := by
    have hflags : (fun l => divFlags (tyBits ty)
        (if sf then ((s.begun i).srcS s.cur (s.readWave i) x ty.regs ty.regs 0).b
         else ((s.begun i).srcV s.cur (s.readWave i) x ty.regs ty.regs 0 l).b)) = fun l => divFlags (tyBits ty) (src l).b := by
      funext l
      rw [srcS_begun s i h, srcV_begun s i h]
      cases sf <;> rfl
    simp only [divBody, intBody, hw, act_begun s i x hx h, hflags, flagLanes_begun s i h]
    cases sf with
    | true => simp only [if_true, srcS_bodyState s i h, resS_eq]; rfl
    | false => simp only [srcV_bodyState s i h]; rfl
  exact ⟨_, he, long_posted s i _ _ _ _ _ _ _ _ h hlong (regs_pos ty) hbody⟩

/-- Settles O9: both words are divisions (`division_completes`). -/
theorem division : Obligations.Division := by
  unfold Obligations.Division
  intro s sf rem ty x
  cases rem with
  | true => exact fun h => division_completes s sf true ty x (.irem sf ty x) rfl rfl rfl h
  | false => exact fun h => division_completes s sf false ty x (.idiv sf ty x) rfl rfl rfl h

end Sys2Proof.Machine
end

section
/-! Floating and conversion words (R226 to R243): their values stand in their destinations or in the commit buffer, and the flags of
their live lanes are ORed into FPFLAGS (R75). -/

namespace Sys2Proof.Machine

theorem readWave_srcF (s : State) (i : Instr) (h : s.mayIssue i) (ft : FTy) (x : VF) (na nb nc : Nat) (l : Fin 32) :
    (s.readWave i).srcF ft x na nb nc l = (s.wave s.cur).srcF ft x na nb nc l := by
  simp only [Wave.srcF, Wave.bFloat, readWave_rvn s i h, readWave_rsn s i h]

/-- The value and the flags of a floating word, once it has begun (R227). -/
theorem floatBody_begun (s : State) (i : Instr) (r : FloatRule) (hx : vfOf i = some r.x) (hn : (vshape i).d.width = r.n)
    (h : s.mayIssue i) :
    floatBody i r.ft r.x r.op (s.begun i) s.cur (s.readWave i) =
      .done (s.bodyState i ((s.wave s.cur).flagsAfter (s.actOf i) fun l => (s.floatAt i r l).2) (s.wave s.cur).srseed)
        [resV r.x.d.toNat r.n (s.actOf i) fun l => (s.floatAt i r l).1] := by
  simp only [floatBody, widths, hn, act_begun s i r.x hx h, readWave_srcF s i h, flagLanes_begun s i h, State.floatAt]

/-- FloatExec of R227, on a short word. -/
theorem floatBody_completes (s : State) (i : Instr) (r : FloatRule) (hx : vfOf i = some r.x) (hl : (vshape i).long = false)
    (hn : (vshape i).d.width = r.n) (he : exec i s = .next (s.issue i (floatBody i r.ft r.x r.op))) (h : s.mayIssue i) :
    ∃ t, exec i s = .next t ∧ s.ran t ∧
      WroteV (s.usedWave i) (t.wave s.cur) r.x.d.toNat r.n (s.actOf i) (fun l => (s.floatAt i r l).1) ∧
      (t.wave s.cur).srseed = (s.wave s.cur).srseed ∧ (t.wave s.cur).sb = (s.wave s.cur).sb ∧
      (t.wave s.cur).pend = ((s.wave s.cur).pend.map fun p => { p with remain := p.remain - 1 }) ∧
      (t.wave s.cur).fpflags = (s.wave s.cur).flagsAfter (s.actOf i) fun l => (s.floatAt i r l).2 := by
  have hshort : (lkOf i).long = false := by rw [lkOf_of_vfOf i r.x hx, lkV, hl]
  obtain ⟨hran, hwrote, hfl, hsr, hsb, hpend⟩ :=
    short_v s i _ _ _ _ _ _ _ h hshort (floatBody_begun s i r hx hn h)
  exact ⟨_, he, hran, hwrote, hsr, hsb, hpend, hfl⟩

/-- FloatExec of R227, on a special function. -/
theorem floatBody_posts (s : State) (i : Instr) (r : FloatRule) (hx : vfOf i = some r.x) (hl : (vshape i).long = true)
    (hn : (vshape i).d.width = r.n) (hpos : 1 ≤ r.n) (he : exec i s = .next (s.issue i (floatBody i r.ft r.x r.op)))
    (h : s.mayIssue i) :
    ∃ t, exec i s = .next t ∧ s.ran t ∧
      Posted (s.usedWave i) (t.wave s.cur) i .v r.x.d.toNat r.n (s.actOf i) (fun l => (s.floatAt i r l).1) ∧
      (t.wave s.cur).srseed = (s.wave s.cur).srseed ∧
      (t.wave s.cur).fpflags = (s.wave s.cur).flagsAfter (s.actOf i) fun l => (s.floatAt i r l).2 := by
  have hlong : (lkOf i).long = true := by rw [lkOf_of_vfOf i r.x hx, lkV, hl]
  exact ⟨_, he, long_posted s i _ _ _ _ _ _ _ _ h hlong hpos (floatBody_begun s i r hx hn h)⟩

theorem ftyRegs_pos (ft : FTy) : 1 ≤ ft.regs := by cases ft <;> decide

theorem floatRule_completes (i : Instr) (r : FloatRule) (hr : floatRule i = some r) (s : State) (h : s.mayIssue i) :
    ∃ t, exec i s = .next t ∧ s.ran t ∧
      WroteV (s.usedWave i) (t.wave s.cur) r.x.d.toNat r.n (s.actOf i) (fun l => (s.floatAt i r l).1) ∧
      (t.wave s.cur).srseed = (s.wave s.cur).srseed ∧ (t.wave s.cur).sb = (s.wave s.cur).sb ∧
      (t.wave s.cur).pend = ((s.wave s.cur).pend.map fun p => { p with remain := p.remain - 1 }) ∧
      (t.wave s.cur).fpflags = (s.wave s.cur).flagsAfter (s.actOf i) fun l => (s.floatAt i r l).2 := by
  unfold floatRule at hr
  split at hr <;> cases hr <;> exact floatBody_completes s _ _ rfl rfl rfl rfl h

theorem sfuRule_posts (i : Instr) (r : FloatRule) (hr : sfuRule i = some r) (s : State) (h : s.mayIssue i) :
    ∃ t, exec i s = .next t ∧ s.ran t ∧
      Posted (s.usedWave i) (t.wave s.cur) i .v r.x.d.toNat r.n (s.actOf i) (fun l => (s.floatAt i r l).1) ∧
      (t.wave s.cur).srseed = (s.wave s.cur).srseed ∧
      (t.wave s.cur).fpflags = (s.wave s.cur).flagsAfter (s.actOf i) fun l => (s.floatAt i r l).2 := by
  have hpos : 1 ≤ r.n := by
    unfold sfuRule at hr
    split at hr <;> cases hr
    case h_1 ft _ _ | h_2 ft _ _ | h_3 ft _ _ | h_4 ft _ => exact ftyRegs_pos ft
    all_goals exact le_rfl
  unfold sfuRule at hr
  split at hr <;> cases hr <;> exact floatBody_posts s _ _ rfl rfl rfl hpos rfl h

/-- FCMP writes the mask bits of its lanes (R231). -/
theorem fcmp_completes (s : State) (ft : FTy) (c : FCond) (x : VF) (h : s.mayIssue (.fcmp ft c x)) :
    let i := Instr.fcmp ft c x
    let r (l : Fin 32) := let o := (s.wave s.cur).srcF ft x ft.regs ft.regs 0 l; fCompare (ftFmt ft) c o.a o.b
    ∃ t, exec i s = .next t ∧ s.ran t ∧ WroteK (s.usedWave i) (t.wave s.cur) x.d.toNat (s.actOf i) (fun l => (r l).1) ∧
      (t.wave s.cur).fpflags = (s.wave s.cur).flagsAfter (s.actOf i) fun l => (r l).2 := by
  intro i r
  have hbody : fcmpBody ft c x (s.begun i) s.cur (s.readWave i) =
      .done (s.bodyState i ((s.wave s.cur).flagsAfter (s.actOf i) fun l => (r l).2) (s.wave s.cur).srseed)
        [resK x.d.toNat (s.actOf i) fun l => (r l).1] := by
    simp only [fcmpBody, act_begun s i x rfl h, readWave_srcF s i h, flagLanes_begun s i h]
    rfl
  obtain ⟨hran, hwrote, hfl, -⟩ := short_k s i _ _ _ _ _ _ h rfl hbody
  exact ⟨_, rfl, hran, hwrote, hfl⟩

/-- FSCALE scales by a power of two (R233). -/
theorem fscale_completes (s : State) (ft : FTy) (rm : Rm) (x : VF) (h : s.mayIssue (.fscale ft rm x)) :
    let i := Instr.fscale ft rm x
    let r (l : Fin 32) :=
      fScale (ftFmt ft) rm ((s.wave s.cur).rvn x.a.toNat ft.regs l) (sgnOf 32 (s.bInt s.cur (s.wave s.cur) x 1 l))
    ∃ t, exec i s = .next t ∧ s.ran t ∧
      WroteV (s.usedWave i) (t.wave s.cur) x.d.toNat ft.regs (s.actOf i) (fun l => (r l).1) ∧
      (t.wave s.cur).fpflags = (s.wave s.cur).flagsAfter (s.actOf i) fun l => (r l).2 := by
  intro i r
  have hbody : fscaleBody ft rm x (s.begun i) s.cur (s.readWave i) =
      .done (s.bodyState i ((s.wave s.cur).flagsAfter (s.actOf i) fun l => (r l).2) (s.wave s.cur).srseed)
        [resV x.d.toNat ft.regs (s.actOf i) fun l => (r l).1] := by
    simp only [fscaleBody, act_begun s i x rfl h, readWave_rvn s i h, bInt_begun s i h, flagLanes_begun s i h]
    rfl
  obtain ⟨hran, hwrote, hfl, -⟩ := short_v s i _ _ _ _ _ _ _ h rfl hbody
  exact ⟨_, rfl, hran, hwrote, hfl⟩

/-- Settles O10, rule by rule, then FCMP and FSCALE. -/
theorem floatingWords : Obligations.FloatingWords := by
  unfold Obligations.FloatingWords
  exact ⟨floatRule_completes, fcmp_completes, fscale_completes⟩

/-- Settles O11: every special function is a floating word that posts its value (`floatBody_posts`). -/
theorem specialFunctions : Obligations.SpecialFunctions := by
  unfold Obligations.SpecialFunctions
  exact sfuRule_posts

end Sys2Proof.Machine
end

section
/-! Cross-lane words (R273 to R284): each leaves its value over the tile in the commit buffer. -/

namespace Sys2Proof.Machine

-- What waking banks leaves of the wave in focus.

theorem readWave_partreg (s : State) (i : Instr) (h : s.mayIssue i) : (s.readWave i).partreg = (s.wave s.cur).partreg := by
  obtain ⟨bk, hread, -⟩ := readWave_spec s i h
  rw [hread]

theorem readWave_lst (s : State) (i : Instr) (h : s.mayIssue i) : (s.readWave i).lst = (s.wave s.cur).lst := by
  obtain ⟨bk, hread, -⟩ := readWave_spec s i h
  rw [hread]

theorem readWave_liveMask (s : State) (i : Instr) (h : s.mayIssue i) : (s.readWave i).liveMask = (s.wave s.cur).liveMask := by
  simp only [Wave.liveMask, Wave.lanesIn, readWave_lst s i h]

theorem readWave_rv (s : State) (i : Instr) (h : s.mayIssue i) (r : Nat) (l : Fin 32) :
    (s.readWave i).rv r l = (s.wave s.cur).rv r l := by
  obtain ⟨bk, hread, -⟩ := readWave_spec s i h
  exact rv_congr _ _ (by rw [hread]) r l

theorem readWave_pullFrom (s : State) (i : Instr) (h : s.mayIssue i) (r n : Nat) :
    (s.readWave i).pullFrom r n = (s.wave s.cur).pullFrom r n := by
  simp only [Wave.pullFrom, readWave_lst s i h, readWave_rv s i h]

theorem bLane_begun (s : State) (i : Instr) (h : s.mayIssue i) (x : VF) (l : Fin 32) :
    (s.begun i).bLane s.cur (s.readWave i) x l = s.bLane s.cur (s.wave s.cur) x l := bInt_begun s i h x 1 l

theorem members_begun (s : State) (i : Instr) (h : s.mayIssue i) (x : VF) :
    (s.begun i).members s.cur (s.readWave i) x = s.members s.cur (s.wave s.cur) x := by
  simp only [State.members, readWave_act s i h, readWave_liveMask s i h, bLane_begun s i h]

-- The shapes of a cross-lane word's answer.

/-- A long-latency word that answers a vector result and raises no flag. -/
theorem long_vector (s : State) (i : Instr) (x : VF) (body : State → Key → Wave → Eff) (n : Nat) (f : Fin 32 → Nat)
    (hx : vfOf i = some x) (hl : (vshape i).long = true) (hn : 1 ≤ n) (he : exec i s = .next (s.issue i body)) (h : s.mayIssue i)
    (hb : body (s.begun i) s.cur (s.readWave i) = .done (s.begun i) [resV x.d.toNat n (s.actOf i) f]) :
    ∃ t, exec i s = .next t ∧ s.ran t ∧ Posted (s.usedWave i) (t.wave s.cur) i .v x.d.toNat n (s.actOf i) f ∧
      (t.wave s.cur).fpflags = (s.wave s.cur).fpflags := by
  have hlong : (lkOf i).long = true := by rw [lkOf_of_vfOf i x hx, lkV, hl]
  have hbody : body (s.begun i) s.cur (s.readWave i) =
      .done (s.bodyState i (s.wave s.cur).fpflags (s.wave s.cur).srseed) [resV x.d.toNat n (s.actOf i) f] := by
    rw [bodyState_same s i h, hb]
  obtain ⟨hran, hposted, -, hfl⟩ := long_posted s i body _ _ _ _ _ _ _ h hlong hn hbody
  exact ⟨_, he, hran, hposted, hfl⟩

theorem vote_completes (s : State) (op : VoteOp) (x : VF) (h : s.mayIssue (.vote op x)) :
    let i := Instr.vote op x
    let w := s.wave s.cur
    ∃ t, exec i s = .next t ∧ s.ran t ∧
      Posted (s.usedWave i) (t.wave s.cur) i .s x.d.toNat 1 (s.actOf i)
        (fun _ => (voteVal op (tileOf w.partreg) (s.members s.cur w x) (w.k x.a.toNat)).toNat) ∧
      (t.wave s.cur).fpflags = w.fpflags := by
  intro i w
  have hbody : voteBody op x (s.begun i) s.cur (s.readWave i) =
      .done (s.bodyState i w.fpflags w.srseed)
        [resS x.d.toNat 1 (s.actOf i) (voteVal op (tileOf w.partreg) (s.members s.cur w x) (w.k x.a.toNat)).toNat] := by
    simp only [voteBody, act_begun s i x rfl h, readWave_partreg s i h, members_begun s i h, readWave_k s i h,
      bodyState_same s i h, w]
  rw [resS_eq] at hbody
  obtain ⟨hran, hposted, -, hfl⟩ := long_posted s i (voteBody op x) _ _ .s _ 1 _
    (fun _ => (voteVal op (tileOf w.partreg) (s.members s.cur w x) (w.k x.a.toNat)).toNat) h rfl le_rfl hbody
  exact ⟨_, rfl, hran, hposted, hfl⟩

theorem match_completes (s : State) (ty : ITy) (all : Bool) (x : VF) (h : s.mayIssue (.matchLanes ty all x)) :
    let i := Instr.matchLanes ty all x
    let w := s.wave s.cur
    ∃ t, exec i s = .next t ∧ s.ran t ∧
      Posted (s.usedWave i) (t.wave s.cur) i .v x.d.toNat 1 (s.actOf i)
        (fun l => (matchVal all (tileOf w.partreg) (s.members s.cur w x) (w.rvn x.a.toNat ty.regs) l).toNat) ∧
      (t.wave s.cur).fpflags = w.fpflags := by
  intro i w
  have hreg : (s.readWave i).rvn x.a.toNat ty.regs = w.rvn x.a.toNat ty.regs := funext (readWave_rvn s i h _ _)
  refine long_vector s i x _ 1 _ rfl rfl le_rfl rfl h ?_
  simp only [matchBody, act_begun s i x rfl h, readWave_partreg s i h, members_begun s i h, hreg, w]

theorem pull_completes (s : State) (sel : PullSel) (x : VF) (h : s.mayIssue (.pull sel x)) :
    let i := Instr.pull sel x
    let w := s.wave s.cur
    ∃ t, exec i s = .next t ∧ s.ran t ∧
      Posted (s.usedWave i) (t.wave s.cur) i .v x.d.toNat 1 (s.actOf i)
        (fun l => match pullSrc sel (tileOf w.partreg) l.val (s.bLane s.cur w x l) with
          | some j => w.pullFrom x.a.toNat j
          | none => (w.rv x.a.toNat l).toNat) ∧
      (t.wave s.cur).fpflags = w.fpflags := by
  intro i w
  refine long_vector s i x _ 1 _ rfl rfl le_rfl rfl h ?_
  simp only [pullBody, act_begun s i x rfl h, readWave_partreg s i h, bLane_begun s i h, readWave_pullFrom s i h,
    readWave_rv s i h]
  rfl

theorem perm_completes (s : State) (x : VF) (h : s.mayIssue (.perm x)) :
    let i := Instr.perm x
    let w := s.wave s.cur
    let tl := tileOf w.partreg
    ∃ t, exec i s = .next t ∧ s.ran t ∧
      Posted (s.usedWave i) (t.wave s.cur) i .v x.d.toNat 1 (s.actOf i)
        (fun l =>
          let j := s.bLane s.cur w x l % (2 * tl)
          if j < tl then w.pullFrom x.a.toNat (l.val / tl * tl + j) else w.pullFrom x.c.toNat (l.val / tl * tl + j - tl)) ∧
      (t.wave s.cur).fpflags = w.fpflags := by
  intro i w tl
  refine long_vector s i x _ 1 _ rfl rfl le_rfl rfl h ?_
  simp only [permBody, act_begun s i x rfl h, readWave_partreg s i h, bLane_begun s i h, readWave_pullFrom s i h]
  rfl

theorem qswap_completes (s : State) (sel : QuadSel) (x : VF) : s.mayIssue (.qswap sel x) →
    let i := Instr.qswap sel x
    let w := s.wave s.cur
    ∃ t, exec i s = .next t ∧ s.ran t ∧
      Posted (s.usedWave i) (t.wave s.cur) i .v x.d.toNat 1 (s.actOf i)
        (fun l => w.pullFrom x.a.toNat
          (match sel with | .horizontal => l.val ^^^ 1 | .vertical => l.val ^^^ 2 | .diagonal => l.val ^^^ 3)) ∧
      (t.wave s.cur).fpflags = w.fpflags := by
  intro h i w
  refine long_vector s i x _ 1 _ rfl rfl le_rfl rfl h ?_
  simp only [act_begun s i x rfl h, readWave_pullFrom s i h, w]
  cases sel <;> rfl

theorem qbcast_completes (s : State) (x : VF) (h : s.mayIssue (.qbcast x)) :
    let i := Instr.qbcast x
    let w := s.wave s.cur
    ∃ t, exec i s = .next t ∧ s.ran t ∧
      Posted (s.usedWave i) (t.wave s.cur) i .v x.d.toNat 1 (s.actOf i)
        (fun l => w.pullFrom x.a.toNat (l.val / 4 * 4 + s.bLane s.cur w x l % 4)) ∧
      (t.wave s.cur).fpflags = w.fpflags := by
  intro i w
  refine long_vector s i x _ 1 _ rfl rfl le_rfl rfl h ?_
  simp only [act_begun s i x rfl h, readWave_pullFrom s i h, bLane_begun s i h, w]

theorem rtyRegs_pos (ty : RTy) : 1 ≤ ty.regs := by
  cases ty with
  | int t => exact regs_pos t
  | f32 => exact le_rfl

/-- REDUX and SCAN: the combined values of the lanes, and their flags (R280, R281). -/
theorem redBody_posts (s : State) (i : Instr) (ty : RTy) (op : RedOp) (kd : ScanKind) (x : VF) (hx : vfOf i = some x)
    (hl : (vshape i).long = true) (he : exec i s = .next (s.issue i (redBody ty op kd x))) (h : s.mayIssue i) :
    let w := s.wave s.cur
    let r := redLane ty op kd (tileOf w.partreg) (s.members s.cur w x) (w.rvn x.a.toNat ty.regs)
    ∃ t, exec i s = .next t ∧ s.ran t ∧
      Posted (s.usedWave i) (t.wave s.cur) i .v x.d.toNat ty.regs (s.actOf i) (fun l => (r l).1) ∧
      (t.wave s.cur).fpflags = w.flagsAfter (s.actOf i) fun l => (r l).2 := by
  intro w r
  have hlong : (lkOf i).long = true := by rw [lkOf_of_vfOf i x hx, lkV, hl]
  have hreg : (s.readWave i).rvn x.a.toNat ty.regs = w.rvn x.a.toNat ty.regs := funext (readWave_rvn s i h _ _)
  have hbody : redBody ty op kd x (s.begun i) s.cur (s.readWave i) =
      .done (s.bodyState i (w.flagsAfter (s.actOf i) fun l => (r l).2) w.srseed)
        [resV x.d.toNat ty.regs (s.actOf i) fun l => (r l).1] := by
    simp only [redBody, act_begun s i x hx h, readWave_partreg s i h, members_begun s i h, hreg, flagLanes_begun s i h, r, w]
  obtain ⟨hran, hposted, -, hfl⟩ := long_posted s i _ _ _ _ _ _ _ _ h hlong (rtyRegs_pos ty) hbody
  exact ⟨_, he, hran, hposted, hfl⟩

/-- Settles O14, word by word. -/
theorem crossLane : Obligations.CrossLane := by
  unfold Obligations.CrossLane
  refine ⟨vote_completes, match_completes, pull_completes, perm_completes, qswap_completes, qbcast_completes, ?_, ?_⟩
  · exact fun s ty op x h => redBody_posts s _ ty op .whole x rfl rfl rfl h
  · exact fun s ty op excl x h => redBody_posts s _ ty op (if excl then .excl else .incl) x rfl rfl rfl h

end Sys2Proof.Machine
end

section
/-! Conversions, quantisation and paired words (R170, R238 to R243). -/

namespace Sys2Proof.Machine

-- Generators.

/-- The generators of a wave, stepped n times in the lanes of m (R72). -/
def Wave.seedsAfter (w : Wave) (m : LaneMask) (n : Nat) : LaneVec :=
  Vector.ofFn fun l => if inMask m l then xorN w.srseed[l] n else w.srseed[l]

theorem seedsAfter_get (w : Wave) (m : LaneMask) (n : Nat) (l : Fin 32) :
    (w.seedsAfter m n)[l] = if inMask m l then xorN w.srseed[l] n else w.srseed[l] := by
  simp [Wave.seedsAfter]

/-- The generators after a word of a rounding mode: only a stochastic one draws (R72, R238). -/
def Wave.drawn (w : Wave) (rm : Rm) (m : LaneMask) (n : Nat) : LaneVec := if rm == .sr then w.seedsAfter m n else w.srseed

theorem drawn_get (w : Wave) (rm : Rm) (m : LaneMask) (n : Nat) (l : Fin 32) :
    (w.drawn rm m n)[l] = if rm = .sr ∧ inMask m l then xorN w.srseed[l] n else w.srseed[l] := by
  unfold Wave.drawn
  by_cases hsr : rm = .sr
  · subst hsr
    rw [if_pos (by decide), seedsAfter_get]
    simp only [true_and]
  · rw [if_neg (by simpa using hsr), if_neg fun hc => hsr hc.1]

/-- A state after a word's draws. -/
def State.draw (s : State) (rm : Rm) (k : Key) (m : LaneMask) (n : Nat) : State := if rm == .sr then s.stepSeeds k m n else s

theorem stepSeeds_eq (s : State) (k : Key) (m : LaneMask) (n : Nat) :
    s.stepSeeds k m n = s.modWave k fun w => { w with srseed := w.seedsAfter m n } := rfl

theorem raiseFlags_eq (w : Wave) (m : LaneMask) (f : Fin 32 → Flags) :
    w.raiseFlags m f = { w with fpflags := w.flagsAfter m f } := rfl

/-- Draws and flags leave of the wave in which a body runs everything but FPFLAGS and the generators. -/
theorem draw_flagLanes_wave (s s1 : State) (i : Instr) (h : s.mayIssue i) (hw : s1.wave s.cur = s.readWave i) (rm : Rm)
    (m : LaneMask) (n : Nat) (f : Fin 32 → Flags) :
    ((s1.draw rm s.cur m n).flagLanes s.cur m f).wave s.cur =
      s.bodyWave i ((s.wave s.cur).flagsAfter m f) ((s.wave s.cur).drawn rm m n) := by
  obtain ⟨bk, hread, -⟩ := readWave_spec s i h
  have hflags (b : LaneVec) : ({ s.readWave i with srseed := b } : Wave).flagsAfter m f = (s.wave s.cur).flagsAfter m f := by
    rw [hread]; rfl
  have hseeds : (s.readWave i).seedsAfter m n = (s.wave s.cur).seedsAfter m n := by rw [hread]; rfl
  unfold State.draw Wave.drawn
  cases rm == .sr with
  | true =>
    simp only [if_true, State.flagLanes, stepSeeds_eq, State.modWave_wave, hw, raiseFlags_eq, hflags, hseeds, State.bodyWave]
  | false =>
    have hsame : (s.readWave i).srseed = (s.wave s.cur).srseed := by rw [hread]
    simp only [Bool.false_eq_true, if_true, if_false, State.flagLanes, State.modWave_wave, hw, raiseFlags_eq, State.bodyWave,
      ← hsame]
    exact congrArg (fun a => ({ s.readWave i with fpflags := a } : Wave)) (hflags _)

/-- Draws and flags change only the wave in focus: the state in which the body answers. -/
theorem draw_flagLanes_begun (s : State) (i : Instr) (h : s.mayIssue i) (rm : Rm) (m : LaneMask) (n : Nat) (f : Fin 32 → Flags) :
    ((s.begun i).draw rm s.cur m n).flagLanes s.cur m f =
      s.bodyState i ((s.wave s.cur).flagsAfter m f) ((s.wave s.cur).drawn rm m n) := by
  rw [State.bodyState, ← draw_flagLanes_wave s (s.begun i) i h (begun_wave s i)]
  unfold State.draw
  cases rm == .sr with
  | true =>
    simp only [if_true, State.flagLanes, State.stepSeeds, State.modWave, State.begun, State.setWave_setWave, State.setWave_wave]
  | false =>
    simp only [if_true, Bool.false_eq_true, if_false, State.flagLanes, State.modWave, State.begun, State.setWave_setWave,
      State.setWave_wave]

/-- Draws and flags touch nothing but the wave. -/
theorem draw_flagLanes_frame (s : State) (k : Key) (rm : Rm) (m : LaneMask) (n : Nat) (f : Fin 32 → Flags) :
    let t := (s.draw rm k m n).flagLanes k m f
    t.mem = s.mem ∧ (∀ c, t.crew c = s.crew c) ∧ ∀ j, j ≠ k → t.wave j = s.wave j := by
  unfold State.draw
  cases rm == .sr with
  | true =>
    refine ⟨rfl, fun _ => rfl, fun j hj => ?_⟩
    simp only [if_true, State.flagLanes, stepSeeds_eq, State.modWave_wave, if_neg hj]
  | false =>
    refine ⟨rfl, fun _ => rfl, fun j hj => ?_⟩
    simp only [Bool.false_eq_true, if_false, State.flagLanes, State.modWave_wave, if_neg hj]

-- Words that convert.

theorem readWave_srseed (s : State) (i : Instr) (h : s.mayIssue i) : (s.readWave i).srseed = (s.wave s.cur).srseed := by
  obtain ⟨bk, hread, -⟩ := readWave_spec s i h
  rw [hread]

theorem readWave_bFloat (s : State) (i : Instr) (h : s.mayIssue i) (ft : FTy) (x : VF) (n : Nat) (l : Fin 32) :
    (s.readWave i).bFloat ft x n l = (s.wave s.cur).bFloat ft x n l := by
  simp only [Wave.bFloat, readWave_rvn s i h, readWave_rsn s i h]

theorem readWave_rs (s : State) (i : Instr) (h : s.mayIssue i) (r : Nat) : (s.readWave i).rs r = (s.wave s.cur).rs r := by
  obtain ⟨bk, hread, -⟩ := readWave_spec s i h
  exact rs_congr _ _ (by rw [hread]) r

theorem cvt_completes (s : State) (rm : Rm) (x : VF) (h : s.mayIssue (.cvt rm x)) :
    let i := Instr.cvt rm x
    let w := s.wave s.cur
    let r (l : Fin 32) :=
      cvtOne (cvtDst x) (cvtSrc x) rm x.b.toNat (xorshift w.srseed[l]) (w.rvn x.a.toNat (cvtRegs (cvtSrc x)) l)
    ∃ t, exec i s = .next t ∧ s.ran t ∧
      WroteV (s.usedWave i) (t.wave s.cur) x.d.toNat (cvtRegs (cvtDst x)) (s.actOf i) (fun l => (r l).1) ∧
      (∀ l : Fin 32, (t.wave s.cur).srseed[l] =
        if rm = .sr ∧ inMask (s.actOf i) l then xorshift w.srseed[l] else w.srseed[l]) ∧
      (t.wave s.cur).fpflags = w.flagsAfter (s.actOf i) fun l => (r l).2 := by
  intro i w r
  have hbody : cvtBody rm x (s.begun i) s.cur (s.readWave i) =
      .done (s.bodyState i (w.flagsAfter (s.actOf i) fun l => (r l).2) (w.drawn rm (s.actOf i) 1))
        [resV x.d.toNat (cvtRegs (cvtDst x)) (s.actOf i) fun l => (r l).1] := by
    simp only [cvtBody, act_begun s i x rfl h, readWave_srseed s i h, readWave_rvn s i h]
    exact congrArg (fun b => Eff.done b _) (draw_flagLanes_begun s i h rm _ 1 _)
  obtain ⟨hran, hwrote, hfl, hsr, -⟩ := short_v s i _ _ _ _ _ _ _ h rfl hbody
  exact ⟨_, rfl, hran, hwrote, fun l => by rw [hsr, drawn_get]; rfl, hfl⟩

theorem readWave_cvtpElems (s : State) (i : Instr) (h : s.mayIssue i) (x : VF) (l : Fin 32) :
    cvtpElems x (s.readWave i) l = cvtpElems x (s.wave s.cur) l := by
  simp only [cvtpElems, readWave_rvn s i h, readWave_bFloat s i h]

theorem cvtp_completes (s : State) (rm : Rm) (x : VF) (h : s.mayIssue (.cvtp rm x)) :
    let i := Instr.cvtp rm x
    let w := s.wave s.cur
    let r (l : Fin 32) := cvtpVal (cvtDst x) rm w.srseed[l] (cvtpElems x w l)
    ∃ t, exec i s = .next t ∧ s.ran t ∧
      WroteV (s.usedWave i) (t.wave s.cur) x.d.toNat 1 (s.actOf i) (fun l => (r l).1) ∧
      (∀ l : Fin 32, (t.wave s.cur).srseed[l] =
        if rm = .sr ∧ inMask (s.actOf i) l then xorN w.srseed[l] (if 12 ≤ cvtDst x then 4 else 2) else w.srseed[l]) ∧
      (t.wave s.cur).fpflags = w.flagsAfter (s.actOf i) fun l => (r l).2 := by
  intro i w r
  have hbody : cvtpBody rm x (s.begun i) s.cur (s.readWave i) =
      .done (s.bodyState i (w.flagsAfter (s.actOf i) fun l => (r l).2)
          (w.drawn rm (s.actOf i) (if 12 ≤ cvtDst x then 4 else 2)))
        [resV x.d.toNat 1 (s.actOf i) fun l => (r l).1] := by
    simp only [cvtpBody, act_begun s i x rfl h, readWave_srseed s i h, readWave_cvtpElems s i h]
    exact congrArg (fun b => Eff.done b _) (draw_flagLanes_begun s i h rm _ _ _)
  have hshort : (lkOf i).long = false := by
    show (if cvtDst x = 12 ∨ cvtDst x = 13 then _ else _ : VShape).long = false
    split <;> rfl
  obtain ⟨hran, hwrote, hfl, hsr, -⟩ := short_v s i _ _ _ _ _ _ _ h hshort hbody
  exact ⟨_, rfl, hran, hwrote, fun l => by rw [hsr, drawn_get], hfl⟩

theorem dqnt_completes (s : State) (x : VF) (h : s.mayIssue (.dqnt x)) :
    let i := Instr.dqnt x
    let w := s.wave s.cur
    let r (l : Fin 32) :=
      dqntVal ((w.rv x.a.toNat l).toNat / 16 ^ (l.val % 8) % 16) (BitVec.ofNat 16 (w.bFloat .f32 x 1 l))
    ∃ t, exec i s = .next t ∧ s.ran t ∧
      WroteV (s.usedWave i) (t.wave s.cur) x.d.toNat 1 (s.actOf i) (fun l => (r l).1) ∧
      (t.wave s.cur).srseed = w.srseed ∧ (t.wave s.cur).fpflags = w.flagsAfter (s.actOf i) fun l => (r l).2 := by
  intro i w r
  have hbody : dqntBody x (s.begun i) s.cur (s.readWave i) =
      .done (s.bodyState i (w.flagsAfter (s.actOf i) fun l => (r l).2) w.srseed)
        [resV x.d.toNat 1 (s.actOf i) fun l => (r l).1] := by
    simp only [dqntBody, act_begun s i x rfl h, readWave_rv s i h, readWave_bFloat s i h, flagLanes_begun s i h]
    rfl
  obtain ⟨hran, hwrote, hfl, hsr, -⟩ := short_v s i _ _ _ _ _ _ _ h rfl hbody
  exact ⟨_, rfl, hran, hwrote, hsr, hfl⟩

-- A word whose body has effects outside its wave.

/-- A body that leaves its wave in focus as a plain body would: the word retires, and its wave stands as after the plain one. -/
theorem issue_of_done (s s2 : State) (i : Instr) (body : State → Key → Wave → Eff) (res : List Res) (a : Word) (b : LaneVec)
    (h : s.mayIssue i) (hb : body (s.begun i) s.cur (s.readWave i) = .done s2 res) (hw : s2.wave s.cur = s.bodyWave i a b) :
    s.issue i body = s2.retire s.cur i res .step ∧
      (s.issue i body).wave s.cur = (s.issue i fun _ _ _ => .done (s.bodyState i a b) res).wave s.cur := by
  obtain ⟨-, -, hsound⟩ := bodyWave_spec s i a b h
  have hplainWave : (s.bodyState i a b).wave s.cur = s.bodyWave i a b := by simp [State.bodyState]
  have hrun := issue_run s s2 i body res .step h hb (by rw [hw]; exact hsound)
  have hplain := issue_run s (s.bodyState i a b) i (fun _ _ _ => .done (s.bodyState i a b) res) res .step h rfl
    (by rw [hplainWave]; exact hsound)
  obtain ⟨-, hwave, -⟩ := retire_counts s2 s.cur i res .step
  obtain ⟨-, hwave', -⟩ := retire_counts (s.bodyState i a b) s.cur i res .step
  refine ⟨hrun, ?_⟩
  rw [hrun, hplain, hwave s.cur, hwave' s.cur, if_pos rfl, if_pos rfl, hw, hplainWave]

theorem mem_lanesOf (m : LaneMask) (l : Fin 32) : l ∈ lanesOf m ↔ inMask m l = true := by
  simp [lanesOf, List.mem_finRange]

/-- An open gate lets the body of a memory word run (R34, R254). -/
theorem memGate_begun (s : State) (i : Instr) (path : Nat) (body : State → Key → Wave → Eff) (h : s.mayIssue i)
    (hg : s.gateOpen path) : memGate path body (s.begun i) s.cur (s.readWave i) = body (s.begun i) s.cur (s.readWave i) := by
  obtain ⟨bk, hread, -⟩ := readWave_spec s i h
  obtain ⟨hheld, hfences⟩ := hg
  have hheld' : (s.readWave i).held = [] := by rw [hread]; exact hheld
  have hfences' : ((s.readWave i).fences.any fun f => f.1 == path) = false := by rw [hread]; exact hfences
  have hmiss : (s.readWave i).missHeld = false := by rw [Wave.missHeld, hheld']; rfl
  simp only [memGate, hmiss, hheld', hfences']
  rfl

/-- A word that has a gate in some of its forms, where the gate is open. -/
theorem gated_begun (s : State) (i : Instr) (free : Bool) (path : Nat) (body : State → Key → Wave → Eff) (h : s.mayIssue i)
    (hg : free = false → s.gateOpen path) :
    (if free then body else memGate path body) (s.begun i) s.cur (s.readWave i) = body (s.begun i) s.cur (s.readWave i) := by
  cases free with
  | true => rfl
  | false => exact memGate_begun s i path body h (hg rfl)

-- Scratchpad banks that an access wakes.

theorem spWake_bank (c : Crew) (b q : Nat) :
    (c.spWake b).bank q = if q = b then { c.bank b with st := .full, waking := false, idle := none, bad := false } else c.bank q := by
  simp [Crew.spWake, Crew.setBank, Crew.bank, tget_tset]

/-- Waking banks of a crew one after another changes only their supply (R87, R93). -/
theorem spWake_fold {α : Type} (s : State) (ck : Key) (bk : α → Nat) (ls : List α) :
    let t := ls.foldl (fun s l => s.modCrew ck fun c => c.spWake (bk l)) s
    t.waves = s.waves ∧ t.mem = s.mem ∧ (t.crew ck).sp = (s.crew ck).sp ∧
      (∀ b, ((s.crew ck).bank b).st = .full → ((t.crew ck).bank b).st = .full) ∧
      ∀ l ∈ ls, ((t.crew ck).bank (bk l)).st = .full := by
  induction ls generalizing s with
  | nil => exact ⟨rfl, rfl, rfl, fun _ h => h, fun _ h => absurd h List.not_mem_nil⟩
  | cons l ls ih =>
    have hcrew : (s.modCrew ck fun c => c.spWake (bk l)).crew ck = (s.crew ck).spWake (bk l) := by simp
    obtain ⟨hwaves, hmem, hsp, hfull, hread⟩ := ih (s.modCrew ck fun c => c.spWake (bk l))
    rw [hcrew] at hsp hfull
    refine ⟨hwaves, hmem, hsp, fun b hb => hfull b ?_, fun q hq => ?_⟩
    · rw [spWake_bank]
      split
      · rfl
      · exact hb
    · cases hq with
      | head => exact hfull _ (by rw [spWake_bank, if_pos rfl])
      | tail _ hq => exact hread q hq

-- QNT.

/-- The lanes whose smoothing entries QNT reads (R241). -/
def qntReaders (nosm : Bool) (w : Wave) (m : LaneMask) : List (Fin 32) := if nosm then [] else w.liveOf m

theorem mem_qntReaders (nosm : Bool) (w : Wave) (m : LaneMask) (l : Fin 32) :
    l ∈ qntReaders nosm w m ↔ nosm = false ∧ inMask (m &&& w.liveMask) l = true := by
  cases nosm <;> simp [qntReaders, Wave.liveOf, mem_lanesOf]

theorem qntReaders_begun (s : State) (i : Instr) (h : s.mayIssue i) (nosm : Bool) (m : LaneMask) :
    qntReaders nosm (s.readWave i) m = qntReaders nosm (s.wave s.cur) m := by
  simp only [qntReaders, Wave.liveOf, readWave_liveMask s i h]

theorem qntBlock_begun (s : State) (i : Instr) (h : s.mayIssue i) (nosm : Bool) (sel : QSel) (rm : Rm) (x : VF) (c : Crew)
    (m : LaneMask) (bl b : Nat) :
    qntBlock nosm sel rm x c (s.readWave i) m bl b = qntBlock nosm sel rm x c (s.wave s.cur) m bl b := by
  simp only [qntBlock, readWave_liveMask s i h, readWave_rs s i h, readWave_rv s i h, readWave_srseed s i h]

/-- The block of a lane, out of the two that a tile of 32 lanes can hold. -/
theorem qnt_pick (tile : Nat) (q : Nat → Quant) (l : Fin 32) :
    let bl := if tile = 0 then 32 else 16
    (if l.val / bl = 0 then q 0 else if bl = 16 then q 1 else q 0) = q (l.val / bl) := by
  intro bl
  have hl := l.isLt
  by_cases ht : tile = 0
  · have hb : bl = 32 := if_pos ht
    have hzero : l.val / 32 = 0 := Nat.div_eq_of_lt hl
    rw [hb, hzero, if_pos rfl]
  · have hb : bl = 16 := if_neg ht
    have htwo : l.val / 16 = 0 ∨ l.val / 16 = 1 := by omega
    rw [hb]
    rcases htwo with h0 | h1
    · rw [h0, if_pos rfl]
    · rw [h1, if_neg (by decide), if_pos rfl]

/-- The body of QNT on a tile that it knows, where every reading lane finds its address in the scratchpad and its bank whole. -/
theorem qntBody_begun (s : State) (nosm : Bool) (sel : QSel) (rm : Rm) (x : VF) (h : s.mayIssue (.qnt nosm sel rm x)) :
    let i := Instr.qnt nosm sel rm x
    let w := s.wave s.cur
    let c := s.crew (crewOf s.cur)
    let tile := (w.partreg &&& 7).toNat
    let bl := if tile = 0 then 32 else 16
    let q (l : Fin 32) := qntBlock nosm sel rm x c w (s.actOf i) bl (l.val / bl)
    let addr (l : Fin 32) := (w.rs x.b.toNat).toNat + 4 * (l.val % bl)
    tile = 0 ∨ tile = 4 →
    (∀ l ∈ qntReaders nosm w (s.actOf i), spCheck c.spLimit (addr l) 4 = none ∧ ((c.bank (addr l / 8192)).st = .retain →
      (c.bank (addr l / 8192)).waking = false ∧ (c.bank (addr l / 8192)).bad = false)) →
    qntBody nosm sel rm x (s.begun i) s.cur (s.readWave i) =
      .done ((((qntReaders nosm w (s.actOf i)).foldl (fun t l => t.modCrew (crewOf s.cur) fun c => c.spWake (addr l / 8192))
          (s.begun i)).draw rm s.cur (s.actOf i) 1).flagLanes s.cur (s.actOf i) fun l => (q l).flags)
        [resV x.d.toNat 2 (s.actOf i) fun l => packCodes (q l).codes (l.val % bl / 8) + 2 ^ 32 * (q l).scale.toNat] := by
  intro i w c tile bl q addr htile hreads
  have hfind : ((qntReaders nosm w (s.actOf i)).findSome? fun l =>
      (spCheck c.spLimit (addr l) 4).map fun cl => (cl, BitVec.ofNat 64 (addr l))) = none := by
    rw [List.findSome?_eq_none_iff]
    intro l hl
    rw [(hreads l hl).1]
    rfl
  have hbusy : c.wakeBusy ((qntReaders nosm w (s.actOf i)).map fun l => addr l / 8192) = false := by
    rw [Crew.wakeBusy, List.any_map, List.any_eq_false]
    intro l hl hc
    simp only [Function.comp, Bool.and_eq_true, beq_iff_eq] at hc
    exact absurd hc.2 (by simp [((hreads l hl).2 hc.1).1])
  have hlost : firstLost c ((qntReaders nosm w (s.actOf i)).map fun l => addr l / 8192) = none := by
    rw [firstLost, List.find?_eq_none]
    intro b hb hc
    obtain ⟨l, hl, rfl⟩ := List.mem_map.mp hb
    simp only [Crew.spLost, Bool.and_eq_true, beq_iff_eq] at hc
    exact absurd hc.2 (by simp [((hreads l hl).2 hc.1).2])
  have hpart : ((s.readWave i).partreg &&& 7).toNat = tile := by rw [readWave_partreg s i h]
  have htile' : ¬(tile ≠ 0 ∧ tile ≠ 4) := by omega
  have hpick (l : Fin 32) := qnt_pick tile (fun b => qntBlock nosm sel rm x c w (s.actOf i) bl b) l
  have hread := qntReaders_begun s i h nosm (s.actOf i)
  have hcrew : (s.begun i).crew (crewOf s.cur) = c := rfl
  simp only [qntReaders] at hread hfind hbusy hlost ⊢
  simp only [qntBody, act_begun s i x rfl h, hpart, if_neg htile', readWave_rs s i h, qntBlock_begun s i h, hread, hcrew]
  simp only [addr, w, bl] at hfind hbusy hlost
  simp only [bl, w] at hpick
  simp only [hfind, hbusy, hlost, Bool.false_eq_true, if_false, hpick]
  rfl

/-- QNT leaves codes and scales in the commit buffer, or faults with ILLEGAL (R240 to R242). -/
theorem qnt_completes (s : State) (nosm : Bool) (sel : QSel) (rm : Rm) (x : VF) (h : s.mayIssue (.qnt nosm sel rm x))
    (hgate : nosm = false → s.gateOpen 0) :
    let i := Instr.qnt nosm sel rm x
    let w := s.wave s.cur
    let c := s.crew (crewOf s.cur)
    let tile := (w.partreg &&& 7).toNat
    let bl := if tile = 0 then 32 else 16
    let q (l : Fin 32) := qntBlock nosm sel rm x c w (s.actOf i) bl (l.val / bl)
    let addr (l : Fin 32) := (w.rs x.b.toNat).toNat + 4 * (l.val % bl)
    let reads (l : Fin 32) : Prop := nosm = false ∧ inMask (s.actOf i &&& w.liveMask) l = true
    (tile ≠ 0 → tile ≠ 4 → faultsWith s i .illegal 0) ∧
    (tile = 0 ∨ tile = 4 → (∀ l, reads l → spCheck c.spLimit (addr l) 4 = none ∧ ((c.bank (addr l / 8192)).st = .retain →
          (c.bank (addr l / 8192)).waking = false ∧ (c.bank (addr l / 8192)).bad = false)) →
      ∃ t, exec i s = .next t ∧ (nosm = true → s.ran t) ∧ t.mem = s.mem ∧ (∀ k, k ≠ s.cur → t.wave k = s.wave k) ∧
        (t.crew (crewOf s.cur)).sp = c.sp ∧ (∀ l, reads l → ((t.crew (crewOf s.cur)).bank (addr l / 8192)).st = .full) ∧
        Posted (s.usedWave i) (t.wave s.cur) i .v x.d.toNat 2 (s.actOf i)
          (fun l => packCodes (q l).codes (l.val % bl / 8) + 2 ^ 32 * (q l).scale.toNat) ∧
        (∀ l : Fin 32, (t.wave s.cur).srseed[l] =
          if rm = .sr ∧ inMask (s.actOf i) l then xorshift w.srseed[l] else w.srseed[l]) ∧
        (t.wave s.cur).fpflags = w.flagsAfter (s.actOf i) fun l => (q l).flags) := by
  intro i w c tile bl q addr reads
  let body := if nosm then qntBody nosm sel rm x else memGate 0 (qntBody nosm sel rm x)
  have hexec : exec i s = .next (s.issue i body) := rfl
  have hopen : body (s.begun i) s.cur (s.readWave i) = qntBody nosm sel rm x (s.begun i) s.cur (s.readWave i) :=
    gated_begun s i nosm 0 (qntBody nosm sel rm x) h hgate
  refine ⟨fun h0 h4 => ?_, fun htile hreads => ?_⟩
  · refine faults_of s i body _ _ h hexec (hopen.trans ?_)
    have hpart : ((s.readWave i).partreg &&& 7).toNat = tile := by rw [readWave_partreg s i h]
    simp only [qntBody, hpart]
    exact if_pos ⟨h0, h4⟩
  · have hmem (l : Fin 32) : l ∈ qntReaders nosm w (s.actOf i) ↔ reads l := mem_qntReaders nosm w (s.actOf i) l
    have hbody := hopen.trans (qntBody_begun s nosm sel rm x h htile fun l hl => hreads l ((hmem l).mp hl))
    have hfold := spWake_fold (s.begun i) (crewOf s.cur) (fun l => addr l / 8192) (qntReaders nosm w (s.actOf i))
    dsimp only at hfold
    obtain ⟨s1, hs1⟩ : ∃ s1, s1 = (qntReaders nosm w (s.actOf i)).foldl
        (fun t l => t.modCrew (crewOf s.cur) fun c => c.spWake (addr l / 8192)) (s.begun i) := ⟨_, rfl⟩
    rw [← hs1] at hbody hfold
    obtain ⟨hwaves, hmemory, hsp, -, hfull⟩ := hfold
    have hs1wave (k : Key) : s1.wave k = (s.begun i).wave k := by rw [State.wave, State.wave, hwaves]
    have hbodyWave := draw_flagLanes_wave s s1 i h ((hs1wave s.cur).trans (begun_wave s i)) rm (s.actOf i) 1 fun l => (q l).flags
    obtain ⟨hmem2, hcrew2, hwave2⟩ := draw_flagLanes_frame s1 s.cur rm (s.actOf i) 1 fun l => (q l).flags
    obtain ⟨hrun, hwave⟩ := issue_of_done s _ i body _ _ _ h hbody hbodyWave
    obtain ⟨hran, hposted, hsr, hfl⟩ := long_posted s i (fun _ _ _ => .done (s.bodyState i
        (w.flagsAfter (s.actOf i) fun l => (q l).flags) (w.drawn rm (s.actOf i) 1)) [resV x.d.toNat 2 (s.actOf i) fun l =>
          packCodes (q l).codes (l.val % bl / 8) + 2 ^ 32 * (q l).scale.toNat]) _ _ .v x.d.toNat 2 (s.actOf i)
      (fun l => packCodes (q l).codes (l.val % bl / 8) + 2 ^ 32 * (q l).scale.toNat) h rfl (by decide) rfl
    rw [← hwave] at hposted hsr hfl
    obtain ⟨hrest, hother, hcrews, -, -⟩ := retire_counts (((s1.draw rm s.cur (s.actOf i) 1).flagLanes s.cur (s.actOf i)
      fun l => (q l).flags)) s.cur i [resV x.d.toNat 2 (s.actOf i) fun l =>
          packCodes (q l).codes (l.val % bl / 8) + 2 ^ 32 * (q l).scale.toNat] .step
    rw [← hrun] at hrest hother hcrews
    have hcrew : (s.issue i body).crew (crewOf s.cur) = { s1.crew (crewOf s.cur) with
        luign := ((s.issue i body).crew (crewOf s.cur)).luign, issued := ((s.issue i body).crew (crewOf s.cur)).issued,
        dormant := ((s.issue i body).crew (crewOf s.cur)).dormant } := by
      rw [← hcrew2]; exact hcrews (crewOf s.cur)
    refine ⟨_, hexec, fun hno => ?_, ?_, fun k hk => ?_, ?_, fun l hl => ?_, hposted, fun l => ?_, hfl⟩
    · have hnone : s1 = s.begun i := by rw [hs1, hno]; rfl
      rw [hnone, draw_flagLanes_begun s i h] at hbody
      exact (long_posted s i body _ _ .v _ 2 _ _ h rfl (by decide) hbody).1
    · rw [hrest]; exact hmem2.trans hmemory
    · rw [hother k, if_neg hk, hwave2 k hk, hs1wave k]; simp [State.begun, hk]
    · rw [hcrew]; exact hsp
    · rw [hcrew]; exact hfull l ((hmem l).mpr hl)
    · rw [hsr, drawn_get]; rfl

/-- Settles O12, word by word. -/
theorem conversions : Obligations.Conversions := by
  unfold Obligations.Conversions
  exact ⟨⟨cvt_completes, cvtp_completes, dqnt_completes⟩, qnt_completes⟩

end Sys2Proof.Machine
end

section
/-! The paired word (R170): two results of the state before it. -/

namespace Sys2Proof.Machine

theorem written_append (w : Wave) (r1 r2 : List Res) : w.written (r1 ++ r2) = (w.written r1).written r2 := by
  simp only [Wave.written, List.filter_append, List.foldl_append]

/-- What one half of a paired word writes. -/
def halfWrite (p : PHalf) (m : LaneMask) (f : Fin 32 → Nat) : List Res := if p.pop = 0 then [] else [resV p.d.toNat 1 m f]

/-- The destination of a half after it: the word's value in its lanes, and 0 in the others where it was DEAD (R41). -/
theorem written_half (w : Wave) (p : PHalf) (m : LaneMask) (f : Fin 32 → Nat) :
    (∃ v lv, w.written (halfWrite p m f) = { w with v := v, vlive := lv }) ∧
    (∀ q n, (w.written (halfWrite p m f)).rv q n =
      if p.pop ≠ 0 ∧ q = p.d.toNat ∧ inMask m n then wordAt (f n) 0
      else if m ≠ 0 ∧ (p.pop ≠ 0 ∧ q = p.d.toNat) ∧ !w.isLive .v q then 0 else w.rv q n) ∧
    ∀ q, q < 256 → ¬(p.pop ≠ 0 ∧ q = p.d.toNat) → (w.written (halfWrite p m f)).isLive .v q = w.isLive .v q := by
  unfold halfWrite
  by_cases hp : p.pop = 0
  · rw [if_pos hp]
    refine ⟨⟨w.v, w.vlive, rfl⟩, fun q n => ?_, fun q _ _ => rfl⟩
    rw [if_neg fun hc => hc.1 hp, if_neg fun hc => hc.2.1.1 hp]
    rfl
  · rw [if_neg hp]
    obtain ⟨hframe, hv, hlive, -, -⟩ := written_v w p.d.toNat 1 m f
    refine ⟨hframe, fun q n => ?_, fun q hq hne => ?_⟩
    · rw [hv q n]
      by_cases hq : q = p.d.toNat
      · subst hq
        by_cases hm : m = 0#32
        · subst hm
          simp [inMask]
        · have hin : p.d.toNat ≤ p.d.toNat ∧ p.d.toNat < p.d.toNat + 1 ∧ m ≠ 0 := ⟨le_rfl, by omega, hm⟩
          rw [if_pos hin, Nat.sub_self]
          have hm' : m ≠ 0 := hm
          cases inMask m n <;> cases w.isLive .v p.d.toNat <;>
            simp only [hp, hm', ne_eq, not_false_eq_true, and_true, and_false, Bool.not_true, Bool.not_false, Bool.false_eq_true,
              if_true, if_false]
      · rw [if_neg (by omega), if_neg fun hc => hq hc.2.1, if_neg fun hc => hq hc.2.1.2]
    · rw [hlive q hq]
      have hout : ¬(p.d.toNat ≤ q ∧ q < p.d.toNat + 1 ∧ m ≠ 0) := fun hc => hne ⟨hp, by omega⟩
      rw [decide_eq_false hout, Bool.false_or]

theorem pairOk_dests (h l : PHalf) (hok : pairOk h l = true) (hh : h.pop ≠ 0) (hl : l.pop ≠ 0) : h.d.toNat ≠ l.d.toNat := by
  have hbank : h.d.getLsbD 3 ≠ l.d.getLsbD 3 := by
    simp only [pairOk, Bool.and_eq_true, Bool.or_eq_true, beq_iff_eq, bne_iff_ne] at hok
    tauto
  exact fun hc => hbank (by rw [BitVec.eq_of_toNat_eq hc])

/-- The value of a half in a lane, from the state before the word. -/
theorem readWave_half (s : State) (i : Instr) (h : s.mayIssue i) (p : PHalf) (n : Fin 32) :
    (s.readWave i).half p n = (s.wave s.cur).half p n := by
  simp only [Wave.half, readWave_rv s i h, readWave_rs s i h]

/-- The body of a paired word, once it has begun. -/
theorem pairedBody_begun (s : State) (h l : PHalf) (hi : s.mayIssue (.pairedWord h l)) :
    let i := Instr.pairedWord h l
    let w := s.wave s.cur
    pairedBody h l (s.begun i) s.cur (s.readWave i) =
      .done (s.bodyState i (w.flagsAfter w.group fun n => w.halfFlags h n ||| w.halfFlags l n) w.srseed)
        (halfWrite h w.group (fun n => (w.half h n).1) ++ halfWrite l w.group fun n => (w.half l n).1) := by
  intro i w
  obtain ⟨bk, hread, -⟩ := readWave_spec s i hi
  have hgroup : (s.readWave i).group = w.group := by rw [hread]
  simp only [pairedBody, Wave.halfRes, Wave.halfFlags, readWave_half s i hi, hgroup, flagLanes_begun s i hi, halfWrite]
  rfl

/-- Settles O13: the low half writes over the wave that the high half leaves, and their destinations differ. -/
theorem pairedWords : Obligations.PairedWords := by
  unfold Obligations.PairedWords
  intro s h l hissue hok i w val
  obtain ⟨hran, hfl, -, -, -, bk, hv, -, hs, -, hk⟩ := short_word s i _ _ _ _ hissue rfl (pairedBody_begun s h l hissue) fun u => by
    obtain ⟨⟨v1, lv1, e1⟩, -⟩ := written_half u h w.group fun n => (w.half h n).1
    obtain ⟨⟨v2, lv2, e2⟩, -⟩ := written_half (u.written (halfWrite h w.group fun n => (w.half h n).1)) l w.group
      fun n => (w.half l n).1
    exact ⟨v2, lv2, u.sreg, u.slive, u.kreg, by rw [written_append, e2, e1]⟩
  refine ⟨_, rfl, hran, fun q n => ?_, ?_, ?_, hfl⟩
  · let base := w.basis bk (w.flagsAfter w.group fun n => w.halfFlags h n ||| w.halfFlags l n) w.srseed (s.usedWave i).vlive
      (s.usedWave i).slive
    have hbaseLive : base.isLive .v q = (s.usedWave i).isLive .v q := rfl
    have hbase : base.rv q n = w.rv q n := rfl
    have hval (p : PHalf) : w.half p n = val p n := rfl
    obtain ⟨-, hv1, hlive1⟩ := written_half base h w.group fun n => (w.half h n).1
    obtain ⟨-, hv2, -⟩ := written_half (base.written (halfWrite h w.group fun n => (w.half h n).1)) l w.group fun n => (w.half l n).1
    rw [rv_congr _ _ hv, written_append, hv2 q n, hv1 q n, hbaseLive, hbase, hval h, hval l]
    by_cases hql : l.pop ≠ 0 ∧ q = l.d.toNat
    · have hqh : ¬(h.pop ≠ 0 ∧ q = h.d.toNat) := fun hc => pairOk_dests h l hok hc.1 hql.1 (hc.2.symm.trans hql.2)
      have hlt : q < 256 := by rw [hql.2]; have := l.d.isLt; omega
      rw [hlive1 q hlt hqh, hbaseLive]
      grind
    · grind
  · obtain ⟨⟨v1, lv1, e1⟩, -⟩ := written_half _ h w.group fun n => (w.half h n).1
    obtain ⟨⟨v2, lv2, e2⟩, -⟩ := written_half _ l w.group fun n => (w.half l n).1
    rw [hs, written_append, e2, e1]
    rfl
  · obtain ⟨⟨v1, lv1, e1⟩, -⟩ := written_half _ h w.group fun n => (w.half h n).1
    obtain ⟨⟨v2, lv2, e2⟩, -⟩ := written_half _ l w.group fun n => (w.half l n).1
    rw [hk, written_append, e2, e1]
    rfl

end Sys2Proof.Machine
end

section
/-! What a word that does not issue leaves (R42, R44, R164), and what the retirement of one can change (R43, R49 to R52). -/

namespace Sys2Proof.Machine

-- Words that do not issue.

theorem mem_groupRegs (r n q : Nat) : q ∈ groupRegs r n ↔ r ≤ q ∧ q < r + n := by
  simp only [groupRegs, List.mem_map, List.mem_range]
  constructor
  · rintro ⟨j, hj, rfl⟩
    omega
  · exact fun h => ⟨q - r, by omega, by omega⟩

/-- The register that a BUDGET fault names lies outside the allotment, and is one of a vector operand (R42). -/
theorem budgetBad_spec (w : Wave) (os : List Opd) (r : Nat) (h : budgetBad w os = some r) :
    w.allot ≤ r ∧ ∃ o ∈ os, o.file = .v ∧ o.reg ≤ r ∧ r < o.reg + o.n := by
  unfold budgetBad at h
  have hallot := List.find?_some h
  refine ⟨of_decide_eq_true hallot, ?_⟩
  obtain ⟨o, ho, hr⟩ := List.mem_flatMap.mp (List.mem_of_find?_eq_some h)
  obtain ⟨hmem, hfile⟩ := List.mem_filter.mp ho
  exact ⟨o, hmem, beq_iff_eq.mp hfile, (mem_groupRegs o.reg o.n r).mp hr⟩

/-- The register that an RDEAD fault names is DEAD, and one that the word reads (R42). -/
theorem deadReg_spec (w : Wave) (os : List Opd) (r : Nat) (h : deadReg w os = some r) :
    ∃ o ∈ os, o.reads = true ∧ o.reg ≤ r ∧ r < o.reg + o.n ∧ w.isLive o.file r = false := by
  obtain ⟨o, ho, hfind⟩ := List.exists_of_findSome?_eq_some h
  split at hfind
  case isTrue hreads =>
    obtain ⟨hlo, hhi⟩ := (mem_groupRegs o.reg o.n r).mp (List.mem_of_find?_eq_some hfind)
    exact ⟨o, ho, hreads, hlo, hhi, by simpa using List.find?_some hfind⟩
  case isFalse => cases hfind

theorem issue_budget (s : State) (i : Instr) (body : State → Key → Wave → Eff) (r : Nat)
    (hlock : interlock (s.wave s.cur) (opdsOf i) (lkOf i) = false) (hbudget : budgetBad (s.wave s.cur) (opdsOf i) = some r) :
    s.issue i body = s.raiseWave s.cur .budget (BitVec.ofNat 64 r) ((encodeWave i).getD 0) := by
  simp only [State.issue, hlock, hbudget, Bool.false_eq_true, if_false]

theorem issue_rdead (s : State) (i : Instr) (body : State → Key → Wave → Eff) (r : Nat)
    (hlock : interlock (s.wave s.cur) (opdsOf i) (lkOf i) = false) (hbudget : budgetBad (s.wave s.cur) (opdsOf i) = none)
    (hdead : deadReg (s.wave s.cur) (opdsOf i) = some r) :
    s.issue i body = s.raiseWave s.cur .rdead (BitVec.ofNat 64 r) ((encodeWave i).getD 0) := by
  simp only [State.issue, hlock, hbudget, hdead, Bool.false_eq_true, if_false]

theorem issue_fault (s : State) (i : Instr) (body : State → Key → Wave → Eff) (cls : FClass) (det : Dword) (h : s.mayIssue i)
    (hb : body (s.begun i) s.cur (s.readWave i) = .fault cls det) :
    s.issue i body = s.raiseWave s.cur cls det ((encodeWave i).getD 0) := by
  obtain ⟨hlock, hbudget, hdead, hsound⟩ := h
  obtain ⟨bk, hwake, -⟩ := wake_spec (s.wave s.cur) (banksOf (opdsOf i) fun o => o.reads) hsound
  have hread : (s.wave s.cur).wake (banksOf (opdsOf i) fun o => o.reads) = (s.readWave i, none) := by
    rw [State.readWave, hwake]
  have hbody : body (s.setWave s.cur (s.readWave i)) s.cur (s.readWave i) = .fault cls det := hb
  simp only [State.issue, hlock, hbudget, hdead, hread, hbody, Bool.false_eq_true, if_false]

/-- Settles O17, check by check in the order of R164. -/
theorem issueFaults : Obligations.IssueFaults := by
  unfold Obligations.IssueFaults
  intro s i body w raise
  refine ⟨issue_wait s i body, fun hlock r hr => ?_, fun hlock hbudget r hr => ?_, fun h cls det hb => ?_⟩
  · exact ⟨issue_budget s i body r hlock hr, budgetBad_spec w _ r hr⟩
  · exact ⟨issue_rdead s i body r hlock hbudget hr, deadReg_spec w _ r hr⟩
  · exact issue_fault s i body cls det h hb

-- Retirement.

/-- The wave with other registers, liveness, supply of banks, slots and pending results: what results and their waking can change. -/
def Wave.regsAs (w u : Wave) : Wave :=
  { w with v := u.v, vlive := u.vlive, sreg := u.sreg, slive := u.slive, kreg := u.kreg, sb := u.sb, pend := u.pend,
           banks := u.banks }

/-- Of a wave only registers, liveness, supply, slots and pending results have changed. -/
def Wave.onlyRegs (w u : Wave) : Prop := u = w.regsAs u

theorem Wave.onlyRegs.trans {w u x : Wave} (h1 : w.onlyRegs u) (h2 : u.onlyRegs x) : w.onlyRegs x := by
  unfold Wave.onlyRegs at h1 h2 ⊢
  rw [h1] at h2
  exact h2

theorem Wave.onlyRegs.refl (w : Wave) : w.onlyRegs w := rfl

/-- A fold whose steps change only registers changes only registers. -/
theorem onlyRegs_foldl {α : Type} (f : Wave → α → Wave) (hf : ∀ (w : Wave) a, w.onlyRegs (f w a)) (ls : List α) (w : Wave) :
    w.onlyRegs (ls.foldl f w) := by
  induction ls generalizing w with
  | nil => exact .refl w
  | cons a ls ih => exact (hf w a).trans (ih (f w a))

/-- A bank ends its wake (R45, R47, R48): one step of `Wave.wake`. -/
def Wave.wakeOne (p : Wave × Option Nat) (b : Nat) : Wave × Option Nat :=
  let x := p.1.bank b
  match x.st with
  | .full => (p.1.setBank b { x with idle := none }, p.2)
  | .off => (p.1.setBank b { st := .full }, p.2)
  | .retain =>
    if x.bad then ((p.1.setBank b { st := .full }).killBank b, p.2.orElse fun _ => some b)
    else (p.1.setBank b { st := .full }, p.2)

theorem wake_eq_foldl (w : Wave) (bs : List Nat) : w.wake bs = bs.foldl Wave.wakeOne (w, none) := rfl

/-- Waking banks changes their supply, and the liveness of registers in a bank that was lost (R48). -/
theorem wake_frame (w : Wave) (bs : List Nat) : ∃ bk vl, (w.wake bs).1 = { w with banks := bk, vlive := vl } := by
  rw [wake_eq_foldl]
  generalize (none : Option Nat) = o
  induction bs generalizing w o with
  | nil => exact ⟨w.banks, w.vlive, rfl⟩
  | cons b bs ih =>
    have hstep : ∃ bk vl, (Wave.wakeOne (w, o) b).1 = { w with banks := bk, vlive := vl } := by
      unfold Wave.wakeOne
      dsimp only
      split
      · exact ⟨_, _, rfl⟩
      · exact ⟨_, _, rfl⟩
      · split <;> exact ⟨_, _, rfl⟩
    obtain ⟨bk1, vl1, h1⟩ := hstep
    obtain ⟨bk2, vl2, h2⟩ := ih (Wave.wakeOne (w, o) b).1 (Wave.wakeOne (w, o) b).2
    refine ⟨bk2, vl2, ?_⟩
    rw [List.foldl_cons]
    refine h2.trans ?_
    rw [h1]

theorem wake_onlyRegs (w : Wave) (bs : List Nat) : w.onlyRegs (w.wake bs).1 := by
  obtain ⟨bk, vl, h⟩ := wake_frame w bs
  rw [h]
  rfl

theorem beginWake_onlyRegs (w : Wave) (word : Dword) (bs : List Nat) : w.onlyRegs (w.beginWake word bs) := by
  obtain ⟨bk, h⟩ := beginWake_spec w word bs
  rw [h]
  rfl

theorem commit_onlyRegs (w : Wave) (file : RFile) (r : Nat) (ds : List LaneVec) (m : LaneMask) :
    w.onlyRegs (w.commit file r ds m) := by
  induction ds generalizing w r with
  | nil => exact .refl w
  | cons d ds ih =>
    refine Wave.onlyRegs.trans ?_ (ih _ _)
    cases file with
    | v => rfl
    | s => rfl
    | k =>
      simp only [Wave.setK]
      split <;> rfl
    | j => rfl

theorem slotAdd_onlyRegs (w : Wave) (slot : Option Nat) (up : Bool) : w.onlyRegs (w.slotAdd slot up) := by
  cases slot <;> rfl

theorem addPends_onlyRegs (w : Wave) (ps : List Pend) : w.onlyRegs (w.addPends ps) := by
  have hfold := onlyRegs_foldl (fun (w : Wave) (p : Pend) => if p.counts then w.slotAdd p.slot true else w) (fun w p => by
    split
    · exact slotAdd_onlyRegs w p.slot true
    · exact .refl w) ps w
  exact hfold.trans rfl

theorem countWindows_onlyRegs (w : Wave) : w.onlyRegs w.countWindows := rfl

theorem took_onlyRegs (w : Wave) (i : Instr) (res : List Res) : w.onlyRegs (w.took i res) := by
  unfold Wave.took
  dsimp only
  split
  · exact ((beginWake_onlyRegs w _ _).trans (countWindows_onlyRegs _)).trans (addPends_onlyRegs _ _)
  · exact ((wake_onlyRegs w _).trans
      (onlyRegs_foldl _ (fun w (r : Res) => commit_onlyRegs w r.file r.reg r.data r.mask) _ _)).trans (countWindows_onlyRegs _)

theorem used_spec (w : Wave) (i : Instr) : w.used i = { w with vlive := (w.used i).vlive, slive := (w.used i).slive } := by
  unfold Wave.used
  split
  · obtain ⟨v, sl, h⟩ := lastUses_spec w (opdsOf i)
    rw [h]
  · rfl

theorem used_onlyRegs (w : Wave) (i : Instr) : w.onlyRegs (w.used i) := by
  unfold Wave.onlyRegs
  rw [used_spec]
  rfl

/-- A word without a result writes no register, and awakes no slot. -/
theorem took_nil (w : Wave) (i : Instr) :
    let u := w.took i []
    u.v = w.v ∧ u.sreg = w.sreg ∧ u.kreg = w.kreg ∧ u.sb = w.sb ∧
      (w.sound ∨ (lkOf i).long = true → u.vlive = w.vlive ∧ u.slive = w.slive) := by
  intro u
  cases hl : (lkOf i).long with
  | true =>
    have hu : u = (w.beginWake ((encodeWave i).getD 0) (banksOf (opdsOf i) fun o => o.writes)).countWindows.addPends [] := by
      simp only [u, Wave.took, hl, if_true, pendsOf, List.filter_nil, List.map_nil]
    obtain ⟨bk, h⟩ := beginWake_spec w ((encodeWave i).getD 0) (banksOf (opdsOf i) fun o => o.writes)
    rw [hu, h]
    exact ⟨rfl, rfl, rfl, rfl, fun _ => ⟨rfl, rfl⟩⟩
  | false =>
    have hu : u = (w.wake (banksOf (opdsOf i) fun o => o.writes)).1.countWindows := by
      simp only [u, Wave.took, hl, Bool.false_eq_true, if_false, List.filter_nil, List.foldl_nil]
    obtain ⟨bk, vl, h⟩ := wake_frame w (banksOf (opdsOf i) fun o => o.writes)
    have hsame : w.sound ∨ false = true → vl = w.vlive := fun hc => by
      obtain ⟨bk', h', -⟩ := wake_spec w (banksOf (opdsOf i) fun o => o.writes) (hc.resolve_right Bool.false_ne_true)
      rw [h'] at h
      exact (congrArg Wave.vlive h).symm
    rw [hu, h]
    exact ⟨rfl, rfl, rfl, rfl, fun hc => ⟨hsame hc, rfl⟩⟩

/-- Where the wave goes after a word (R161). -/
theorem goPast_frame (w : Wave) (adv : Adv) :
    ∃ p c g, w.goPast adv = { w with lpc := p, clause := c, group := g, park := none, parkI := none } := by
  cases adv with
  | leave => exact ⟨w.lpc, none, 0, rfl⟩
  | step =>
    obtain ⟨⟨c, g, h⟩, -⟩ := advance_spec w
    refine ⟨w.advance.lpc, c, g, ?_⟩
    unfold Wave.goPast
    dsimp only
    rw [h]

theorem used_sound (w : Wave) (i : Instr) (h : w.sound) : (w.used i).sound := sound_of_banks _ _ h (used_banks w i)

/-- What the retirement of a word without a result leaves of the registers (R49, R52). -/
theorem retired_nil (w : Wave) (i : Instr) (adv : Adv) :
    let u := w.retired i [] adv
    u.v = w.v ∧ u.sreg = w.sreg ∧ u.kreg = w.kreg ∧ u.sb = w.sb ∧
      (w.sound ∨ (lkOf i).long = true → u.vlive = (w.used i).vlive ∧ u.slive = (w.used i).slive) := by
  intro u
  obtain ⟨hv, hs, hk, hsb, hlive⟩ := took_nil (w.used i) i
  obtain ⟨p, c, g, hgo⟩ := goPast_frame ((w.used i).took i []) adv
  have hu : u = { (w.used i).took i [] with lpc := p, clause := c, group := g, park := none, parkI := none } := hgo
  have hsame : (w.used i).v = w.v ∧ (w.used i).sreg = w.sreg ∧ (w.used i).kreg = w.kreg ∧ (w.used i).sb = w.sb := by
    rw [used_spec]
    exact ⟨rfl, rfl, rfl, rfl⟩
  obtain ⟨huv, hus, huk, husb⟩ := hsame
  rw [hu]
  exact ⟨hv.trans huv, hs.trans hus, hk.trans huk, hsb.trans husb, fun hc => hlive (hc.imp_left (used_sound w i))⟩

/-- What the retirement of a word can change in its wave. -/
theorem retired_frame (w : Wave) (i : Instr) (res : List Res) (adv : Adv) :
    let u := w.retired i res adv
    u = { w with v := u.v, vlive := u.vlive, sreg := u.sreg, slive := u.slive, kreg := u.kreg, sb := u.sb, pend := u.pend,
                 banks := u.banks, lpc := u.lpc, clause := u.clause, group := u.group, park := none, parkI := none } := by
  intro u
  have hregs : w.onlyRegs ((w.used i).took i res) := (used_onlyRegs w i).trans (took_onlyRegs (w.used i) i res)
  obtain ⟨p, c, g, hgo⟩ := goPast_frame ((w.used i).took i res) adv
  have hu : u = { (w.used i).took i res with lpc := p, clause := c, group := g, park := none, parkI := none } := hgo
  rw [hu, hregs]
  rfl

/-- Settles O18. -/
theorem retirementFrame : Obligations.RetirementFrame := by
  unfold Obligations.RetirementFrame
  intro s k i res adv t w u
  obtain ⟨hrest, hwave, hcrew, hcore, hctx⟩ := retire_counts s k i res adv
  have hu : u = w.retired i res adv := (hwave k).trans (if_pos rfl)
  have hregs : w.onlyRegs ((w.used i).took i res) := (used_onlyRegs w i).trans (took_onlyRegs (w.used i) i res)
  have hgroup : ((w.used i).took i res).group = w.group := by rw [hregs]; rfl
  have hlpc : ((w.used i).took i res).lpc = w.lpc := by rw [hregs]; rfl
  rw [hu]
  refine ⟨hrest, fun q hq => (hwave q).trans (if_neg hq), hcrew, hcore, hctx, retired_frame w i res adv, ?_, ?_, ?_⟩
  · rintro rfl
    exact ⟨hlpc, rfl, rfl⟩
  · rintro rfl l
    obtain ⟨-, hadv⟩ := advance_spec ((w.used i).took i res)
    rw [← hgroup, ← hlpc]
    exact hadv l
  · rintro rfl
    have hw : (if w.act (lkOf i).pr (lkOf i).pn = w.nonExited then w.lastUses (opdsOf i) else w) = w.used i := by
      simp only [Wave.used, beq_iff_eq]
    rw [hw]
    exact retired_nil w i adv

end Sys2Proof.Machine
end

section
/-! Taking an exception and returning from one (R32, R331, R345, R375 to R379). -/

namespace Sys2Proof.Machine

-- Events, counts of faults and the floodgate.

/-- A queued event changes only its die (R339). -/
theorem event_frame (s : State) (d kind : Nat) (h : Word) (w1 : Dword) (key : Nat) :
    s.event d kind h w1 key = { s with dies := (s.event d kind h w1 key).dies } ∧
      ∀ q, q ≠ d → (s.event d kind h w1 key).die q = s.die q :=
  ⟨rfl, fun q hq => by rw [State.event, State.modDie_die, if_neg hq]⟩

/-- A queued event is pending, or was (R339). -/
theorem event_queued (s : State) (d kind : Nat) (h : Word) (w1 : Dword) (key : Nat) :
    ∃ e ∈ ((s.event d kind h w1 key).die d).evq, e.kind = kind ∧ e.handle = h := by
  rw [State.event, State.modDie_die, if_pos rfl]
  split
  case isTrue hany =>
    obtain ⟨e, he, hkey⟩ := List.any_eq_true.mp hany
    simp only [Bool.and_eq_true, beq_iff_eq] at hkey
    exact ⟨e, he, hkey.1.1, hkey.1.2⟩
  case isFalse => exact ⟨_, List.mem_append_right _ (List.mem_singleton_self _), rfl, rfl⟩

/-- Counting a lost or uncorrectable word changes only its polder (R404). -/
theorem countLoss_frame (s : State) (c : Nat) (cls : Option FClass) :
    s.countLoss c cls = { s with polders := (s.countLoss c cls).polders } := by
  unfold State.countLoss
  dsimp only
  split <;> rfl

/-- The pending event of a context is told its class: only the context's home die changes (R376). -/
theorem tellClass_frame (s : State) (c : Nat) :
    s.tellClass c = { s with dies := (s.tellClass c).dies } ∧ ∀ q, q ≠ s.homeDie c → (s.tellClass c).die q = s.die q :=
  ⟨rfl, fun q hq => by rw [State.tellClass, State.modDie_die, if_neg hq]⟩

/-- The same engine has written a record for this stop (R376, R378). -/
def sameStop (r y : StopRec) : Bool := y.eng == r.eng && y.key == r.key && r.eng != .mem

/-- The record that a floodgate takes: it keeps the REFT at which its engine first stopped. -/
def State.recTaken (s : State) (c : Nat) (r : StopRec) : StopRec :=
  { r with reft := (((s.ctx c).recs.find? (sameStop r)).map (·.reft)).getD s.reft }

/-- A context whose floodgate is up, with the record of an engine in place of its older one. -/
def Ctx.stoppedBy (x : Ctx) (r : StopRec) : Ctx :=
  { x with up := true, recs := x.recs.filter (fun y => !sameStop r y) ++ [r] }

/-- The state whose floodgate has risen, before anyone is told (R375, R404). -/
def State.gateUp (s : State) (c : Nat) (r : StopRec) : State :=
  (s.modCtx c fun x => x.stoppedBy (s.recTaken c r)).countLoss c r.cls

theorem floodgate_eq (s : State) (c : Nat) (r : StopRec) :
    s.floodgate c r =
      if (s.ctx c).up then (s.gateUp c r).tellClass c
      else (s.gateUp c r).event (s.homeDie c) 0x01 (ctxHandle c)
        (BitVec.ofNat 64 (eventClass ((s.ctx c).stoppedBy (s.recTaken c r)).recs)) := rfl

/-- The home die of a context is what memory says. -/
theorem homeDie_congr (s t : State) (c : Nat) (h : t.mem = s.mem) : t.homeDie c = s.homeDie c := by
  have hmem : t.homeDie c = ({ s with mem := t.mem } : State).homeDie c := rfl
  rw [hmem, h]

theorem gateUp_frame (s : State) (c : Nat) (r : StopRec) :
    s.gateUp c r = { s with ctxs := (s.modCtx c fun x => x.stoppedBy (s.recTaken c r)).ctxs, polders := (s.gateUp c r).polders } := by
  unfold State.gateUp
  rw [countLoss_frame]
  rfl

theorem gateUp_ctx (s : State) (c : Nat) (r : StopRec) (q : Nat) :
    (s.gateUp c r).ctx q = if q = c then (s.ctx c).stoppedBy (s.recTaken c r) else s.ctx q := by
  rw [gateUp_frame]
  exact State.modCtx_ctx s c (fun x => x.stoppedBy (s.recTaken c r)) q

/-- What a rising floodgate changes: its context, a polder's counts, and dies. -/
theorem floodgate_frame (s : State) (c : Nat) (r : StopRec) :
    s.floodgate c r = { s with ctxs := (s.modCtx c fun x => x.stoppedBy (s.recTaken c r)).ctxs,
                               polders := (s.gateUp c r).polders, dies := (s.floodgate c r).dies } := by
  rw [floodgate_eq]
  split
  · exact congrArg (fun t : State => { t with dies := ((s.gateUp c r).tellClass c).dies }) (gateUp_frame s c r)
  · exact congrArg (fun t : State => { t with dies := ((s.gateUp c r).event (s.homeDie c) 0x01 (ctxHandle c)
      (BitVec.ofNat 64 (eventClass ((s.ctx c).stoppedBy (s.recTaken c r)).recs))).dies }) (gateUp_frame s c r)

theorem floodgate_ctx (s : State) (c : Nat) (r : StopRec) (q : Nat) :
    (s.floodgate c r).ctx q = if q = c then (s.ctx c).stoppedBy (s.recTaken c r) else s.ctx q := by
  rw [floodgate_frame]
  exact State.modCtx_ctx s c (fun x => x.stoppedBy (s.recTaken c r)) q

theorem gateUp_die (s : State) (c : Nat) (r : StopRec) (q : Nat) : (s.gateUp c r).die q = s.die q := by
  rw [gateUp_frame]
  rfl

theorem gateUp_homeDie (s : State) (c : Nat) (r : StopRec) : (s.gateUp c r).homeDie c = s.homeDie c :=
  homeDie_congr s _ c (by rw [gateUp_frame])

/-- Only the context's home die is told (R376). -/
theorem floodgate_die_ne (s : State) (c : Nat) (r : StopRec) (q : Nat) (hq : q ≠ s.homeDie c) :
    (s.floodgate c r).die q = s.die q := by
  rw [floodgate_eq]
  split
  · rw [(tellClass_frame _ _).2 q (by rwa [gateUp_homeDie]), gateUp_die]
  · rw [(event_frame _ _ _ _ _ _).2 q hq, gateUp_die]

/-- Under a floodgate that is up, the pending event follows the first of its records (R376). -/
theorem floodgate_die_up (s : State) (c : Nat) (r : StopRec) (hup : (s.ctx c).up = true) :
    (s.floodgate c r).die (s.homeDie c) =
      { s.die (s.homeDie c) with evq := (s.die (s.homeDie c)).evq.map fun e =>
          if e.kind == 0x01 && e.handle == ctxHandle c
          then { e with w1 := BitVec.ofNat 64 (eventClass ((s.floodgate c r).ctx c).recs) } else e } := by
  have hctx : (s.floodgate c r).ctx c = (s.gateUp c r).ctx c := by rw [floodgate_ctx, gateUp_ctx]
  rw [hctx, floodgate_eq, if_pos hup, State.tellClass, gateUp_homeDie, State.modDie_die, if_pos rfl, gateUp_die]

/-- A floodgate that rises queues its one event (R376). -/
theorem floodgate_event (s : State) (c : Nat) (r : StopRec) (hdown : (s.ctx c).up = false) :
    ∃ e ∈ ((s.floodgate c r).die (s.homeDie c)).evq, e.kind = 0x01 ∧ e.handle = ctxHandle c := by
  have hnot : ¬(s.ctx c).up = true := by rw [hdown]; exact Bool.false_ne_true
  rw [floodgate_eq, if_neg hnot]
  exact event_queued _ _ _ _ _ _

-- Taking an exception.

/-- The wave that an exception stops. -/
def State.stoppedWave (s : State) (k : Key) (cls : FClass) (word : Dword) (prec : Bool) : Wave :=
  let w := s.wave k
  { w with stopped := true, parkSince := if w.park.isSome then w.parkSince else s.reft,
           stopAs := if w.stopped && !prec then w.stopAs else some (cls, word) }

/-- The state with the wave stopped, its quadrant and its place in the queue of ACQX given up (R25, R206). -/
def State.waveStops (s : State) (k : Key) (cls : FClass) (word : Dword) (prec : Bool) : State :=
  ((s.leaveAcq k).leaveQuad k).setWave k (s.stoppedWave k cls word prec)

theorem leaveAcq_frame (s : State) (k : Key) : s.leaveAcq k = { s with cores := (s.leaveAcq k).cores } := by
  unfold State.leaveAcq
  split <;> rfl

theorem leaveAcq_wave (s : State) (k j : Key) : (s.leaveAcq k).wave j = s.wave j := by rw [leaveAcq_frame]; rfl

theorem raiseWave_eq (s : State) (k : Key) (cls : FClass) (det word : Dword) (atc prec : Bool) :
    s.raiseWave k cls det word atc prec =
      if isReeveCore (coreOf k) then
        (s.waveStops k cls word prec).event (dieOf (coreOf k)) 0x08 (s.waveHandle k) (BitVec.ofNat 64 (classCode cls))
      else
        (s.waveStops k cls word prec).floodgate (s.crew (crewOf k)).ctx
          { s.waveRec k (some cls) det word prec with atc := atc || cls == .eccfatal } := by
  have hstops : (((s.leaveAcq k).leaveQuad k).modWave k fun w =>
      { w with stopped := true, parkSince := if w.park.isSome then w.parkSince else s.reft,
               stopAs := if w.stopped && !prec then w.stopAs else some (cls, word) }) = s.waveStops k cls word prec := by
    rw [State.modWave, State.leaveQuad_wave, leaveAcq_wave]
    rfl
  unfold State.raiseWave
  rw [hstops]

/-- Only the cores' quadrants and the wave change where it stops. -/
theorem waveStops_frame (s : State) (k : Key) (cls : FClass) (word : Dword) (prec : Bool) :
    s.waveStops k cls word prec = { s with cores := (s.waveStops k cls word prec).cores,
                                           waves := (s.setWave k (s.stoppedWave k cls word prec)).waves } := by
  unfold State.waveStops
  rw [leaveAcq_frame]
  rfl

theorem waveStops_wave (s : State) (k : Key) (cls : FClass) (word : Dword) (prec : Bool) (j : Key) :
    (s.waveStops k cls word prec).wave j = if j = k then s.stoppedWave k cls word prec else s.wave j := by
  rw [waveStops_frame]
  exact State.setWave_wave s k (s.stoppedWave k cls word prec) j

/-- A quadrant whose queue of ACQX a stopping wave leaves, where it waits in it (R206). -/
def acqLeft (w : Wave) (k : Key) (y : Quad) : Quad :=
  match w.park with
  | some (.acqx _) => { y with acq := y.acq.filter (· ≠ k) }
  | _ => y

theorem leaveAcq_core (s : State) (k : Key) (n : Nat) :
    (s.leaveAcq k).core n = { s.core n with quads := ((s.leaveAcq k).core n).quads } := by
  unfold State.leaveAcq
  split
  · simp only [State.modQuad, State.modCore_core]
    split
    · subst_vars; rfl
    · rfl
  · rfl

theorem waveStops_core (s : State) (k : Key) (cls : FClass) (word : Dword) (prec : Bool) (n : Nat) :
    (s.waveStops k cls word prec).core n =
      { s.core n with quads := ((s.waveStops k cls word prec).core n).quads } := by
  simp only [State.waveStops, State.setWave_core, State.leaveQuad, State.modQuad, State.modCore_core]
  split
  · subst_vars
    rw [leaveAcq_core]
  · rw [leaveAcq_core]

theorem modQuad_quads (s : State) (c q0 : Nat) (f : Quad → Quad) (n q : Nat) :
    tget ((s.modQuad c q0 f).core n).quads {} q =
      if n = c ∧ q = q0 then f (tget (s.core n).quads {} q) else tget (s.core n).quads {} q := by
  rw [State.modQuad, State.modCore_core]
  by_cases hn : n = c
  · subst hn
    by_cases hq : q = q0
    · subst hq
      simp
    · simp [hq, tget_tset]
  · simp [hn]

theorem leaveAcq_quads (s : State) (k : Key) (n q : Nat) :
    tget ((s.leaveAcq k).core n).quads {} q =
      if n = coreOf k ∧ q = quadOf k then acqLeft (s.wave k) k (tget (s.core n).quads {} q) else tget (s.core n).quads {} q := by
  unfold State.leaveAcq acqLeft
  cases (s.wave k).park with
  | none => exact (ite_self _).symm
  | some p =>
    cases p
    case acqx => exact modQuad_quads s (coreOf k) (quadOf k) (fun q => { q with acq := q.acq.filter (· ≠ k) }) n q
    all_goals exact (ite_self _).symm

/-- The quadrant of a wave that stops is given up, and its ACQX leaves the queue (R25, R206). -/
theorem waveStops_quad (s : State) (k : Key) (cls : FClass) (word : Dword) (prec : Bool) (n q : Nat) :
    tget ((s.waveStops k cls word prec).core n).quads {} q =
      let y := tget (s.core n).quads {} q
      let z := { y with inClause := y.inClause.filter (· ≠ k) }
      if n = coreOf k ∧ q = quadOf k then
        match (s.wave k).park with
        | some (.acqx _) => { z with acq := y.acq.filter (· ≠ k) }
        | _ => z
      else y := by
  rw [State.waveStops, State.setWave_core, State.leaveQuad, modQuad_quads, leaveAcq_quads]
  by_cases hq : n = coreOf k ∧ q = quadOf k
  · simp only [if_pos hq, acqLeft]
    split <;> rfl
  · simp only [if_neg hq]

/-- What an exception changes beside the wave, its quadrant, its context and a polder's counts: dies. -/
theorem raiseWave_frame (s : State) (k : Key) (cls : FClass) (det word : Dword) (atc prec : Bool) :
    let t := s.raiseWave k cls det word atc prec
    t = { s.waveStops k cls word prec with ctxs := t.ctxs, polders := t.polders, dies := t.dies } := by
  intro t
  have ht : t = _ := raiseWave_eq s k cls det word atc prec
  rw [ht]
  split
  · rfl
  · rw [floodgate_frame]

/-- The record of a wave that an exception stops (R378). -/
def State.raisedRec (s : State) (k : Key) (cls : FClass) (det word : Dword) (atc prec : Bool) : StopRec :=
  { s.waveRec k (some cls) det word prec with atc := atc || cls == .eccfatal }

/-- In user mode the record joins those of the context, in the place of an older one of the wave (R376, R378). -/
theorem raiseWave_ctx (s : State) (k : Key) (cls : FClass) (det word : Dword) (atc prec : Bool)
    (hu : isReeveCore (coreOf k) = false) (q : Nat) :
    let c := (s.crew (crewOf k)).ctx
    (s.raiseWave k cls det word atc prec).ctx q =
      if q = c then (s.ctx c).stoppedBy (s.recTaken c (s.raisedRec k cls det word atc prec)) else s.ctx q := by
  intro c
  have hctx (d : Nat) : (s.waveStops k cls word prec).ctx d = s.ctx d := by rw [waveStops_frame]; rfl
  have hreft : (s.waveStops k cls word prec).reft = s.reft := by rw [waveStops_frame]
  rw [raiseWave_eq, if_neg (by rw [hu]; exact Bool.false_ne_true), floodgate_ctx, hctx, hctx, State.recTaken, hctx, hreft]
  rfl

/-- In reeve mode no floodgate rises, and the wave's die has the event (R331). -/
theorem raiseWave_reeve (s : State) (k : Key) (cls : FClass) (det word : Dword) (atc prec : Bool)
    (hr : isReeveCore (coreOf k) = true) :
    let t := s.raiseWave k cls det word atc prec
    t.ctxs = s.ctxs ∧
      t = ({ s with cores := t.cores, waves := t.waves } : State).event (dieOf (coreOf k)) 0x08 (s.waveHandle k)
        (BitVec.ofNat 64 (classCode cls)) := by
  intro t
  have ht : t = (s.waveStops k cls word prec).event (dieOf (coreOf k)) 0x08 (s.waveHandle k) (BitVec.ofNat 64 (classCode cls)) :=
    (raiseWave_eq s k cls det word atc prec).trans (if_pos hr)
  have hstops := waveStops_frame s k cls word prec
  have hcores : t.cores = (s.waveStops k cls word prec).cores := by rw [ht]; rfl
  have hwaves : t.waves = (s.waveStops k cls word prec).waves := by rw [ht]; rfl
  have hsame : ({ s with cores := t.cores, waves := t.waves } : State) = s.waveStops k cls word prec := by
    have hw : (s.setWave k (s.stoppedWave k cls word prec)).waves = (s.waveStops k cls word prec).waves := by rw [hstops]
    rw [hcores, hwaves, ← hw]
    exact hstops.symm
  exact ⟨by rw [ht, hstops]; rfl, by rw [hsame]; exact ht⟩

/-- The fields of a wave's record (R378). -/
theorem waveRec_eq (s : State) (k : Key) (cls : Option FClass) (det word : Dword) (prec : Bool) :
    let p := (s.wave k).standing
    s.waveRec k cls det word prec =
      { cls := cls, eng := .wave, key := k, prec := prec, hdr := p.stopPoint.2.2, wpos := p.stopPoint.2.1,
        handle := s.waveHandle k, pc := p.stopPoint.1, det := det, word := word, mask := p.group } := rfl

theorem sameStop_wave (r y : StopRec) (k : Key) (he : r.eng = .wave) (hk : r.key = k) :
    sameStop r y = (y.eng == .wave && y.key == k) := by
  rw [sameStop, he, hk]
  exact Bool.and_true _

/-- Settles O16. -/
theorem exceptions : Obligations.Exceptions := by
  unfold Obligations.Exceptions
  refine ⟨fun s k cls det word atc prec => ?_, fun s k cls word => ?_⟩
  · intro t w p c mine
    have hframe : t = { s.waveStops k cls word prec with ctxs := t.ctxs, polders := t.polders, dies := t.dies } :=
      raiseWave_frame s k cls det word atc prec
    have hstops := waveStops_frame s k cls word prec
    have hwave (j : Key) : t.wave j = if j = k then s.stoppedWave k cls word prec else s.wave j := by
      rw [hframe]; exact waveStops_wave s k cls word prec j
    have hcore (n : Nat) : t.core n = (s.waveStops k cls word prec).core n := by rw [hframe]; rfl
    refine ⟨by rw [hframe, hstops], by rw [hframe, hstops], fun j hj => (hwave j).trans (if_neg hj), (hwave k).trans (if_pos rfl),
      fun n => ?_, fun n q => ?_, ?_⟩
    · rw [hcore]; exact waveStops_core s k cls word prec n
    · rw [hcore]; exact waveStops_quad s k cls word prec n q
    · split
      case isTrue hreeve => exact raiseWave_reeve s k cls det word atc prec hreeve
      case isFalse huser =>
        have hu : isReeveCore (coreOf k) = false := by simpa using huser
        have ht : t = (s.waveStops k cls word prec).floodgate c (s.raisedRec k cls det word atc prec) :=
          (raiseWave_eq s k cls det word atc prec).trans (if_neg huser)
        have hctx (q : Nat) : t.ctx q = _ := raiseWave_ctx s k cls det word atc prec hu q
        have hrecs : (t.ctx c).recs = (s.ctx c).recs.filter (fun y => !mine y) ++
            [s.recTaken c (s.raisedRec k cls det word atc prec)] := by
          have hmine : sameStop (s.recTaken c (s.raisedRec k cls det word atc prec)) = mine :=
            funext fun y => sameStop_wave _ y k rfl rfl
          rw [hctx, if_pos rfl, Ctx.stoppedBy, hmine]
        have hreft : (s.recTaken c (s.raisedRec k cls det word atc prec)).reft =
            (((s.ctx c).recs.find? mine).map (·.reft)).getD s.reft := by
          have hmine : sameStop (s.raisedRec k cls det word atc prec) = mine := funext fun y => sameStop_wave _ y k rfl rfl
          rw [State.recTaken, hmine]
        have hup : (s.waveStops k cls word prec).ctx c = s.ctx c := by rw [hstops]; rfl
        have hdie (d : Nat) : (s.waveStops k cls word prec).die d = s.die d := by rw [hstops]; rfl
        have hhome : (s.waveStops k cls word prec).homeDie c = s.homeDie c := homeDie_congr s _ c (by rw [hstops])
        refine ⟨by rw [hctx, if_pos rfl]; rfl, fun d hd => (hctx d).trans (if_neg hd), ?_, fun r hr hm => ?_, fun d hd => ?_,
          fun h => ?_, fun h => ?_⟩
        · refine ⟨_, by rw [hrecs]; exact List.mem_append_right _ (List.mem_singleton_self _), rfl, rfl, rfl, rfl, rfl, rfl, rfl, rfl,
            rfl, rfl, rfl, rfl, hreft⟩
        · rw [hrecs]
          exact List.mem_append_left _ (List.mem_filter.mpr ⟨hr, by rw [hm]; rfl⟩)
        · rw [ht, floodgate_die_ne _ _ _ _ (by rwa [hhome]), hdie]
        · rw [ht, ← hhome, floodgate_die_up _ _ _ (by rwa [hup]), hhome, hdie]
        · rw [ht, ← hhome]
          exact floodgate_event _ _ _ (by rwa [hup])
  · intro t
    refine ⟨rfl, fun j hj => ?_, ?_⟩
    · exact (State.modWave_wave s k _ j).trans (if_neg hj)
    · refine (State.modWave_wave s k _ k).trans ((if_pos rfl).trans ?_)
      simp only [continuesPast, Bool.or_eq_true, Bool.and_eq_true, beq_iff_eq]

end Sys2Proof.Machine
end

section
/-! Control words without a place of their own (R185, R199 to R201, R205): NOP, YIELD, KILL, REST, REGION, PART, SLEEP, TRAP and BKPT. -/

namespace Sys2Proof.Machine

-- Liveness after registers have been killed.

theorem setLive_false_live (w : Wave) (f : RFile) (r q : Nat) (hq : (f = .v → q < 256) ∧ (f = .s → q < 64)) (hf : f = .v ∨ f = .s) :
    (w.setLive f r false).isLive f q = (w.isLive f q && !decide (q = r)) := by
  rcases hf with rfl | rfl
  · have hlt := hq.1 rfl
    simp [Wave.setLive, Wave.isLive, hlt, eq_comm]
  · have hlt := hq.2 rfl
    simp [Wave.setLive, Wave.isLive, hlt, eq_comm]

theorem setLive_fold_live (w : Wave) (f : RFile) (rs : List Nat) (q : Nat) (hq : (f = .v → q < 256) ∧ (f = .s → q < 64))
    (hf : f = .v ∨ f = .s) :
    (rs.foldl (fun w r => w.setLive f r false) w).isLive f q = (w.isLive f q && !rs.contains q) := by
  induction rs generalizing w with
  | nil => simp
  | cons r rs ih =>
    rw [List.foldl_cons, ih, setLive_false_live w f r q hq hf, List.contains_cons, Bool.and_assoc, Bool.not_or]
    rfl

/-- Killing registers of one file leaves the liveness of the other. -/
theorem setLive_fold_frame (w : Wave) (sf : Bool) (rs : List Nat) :
    let u := rs.foldl (fun w r => w.setLive (formFile sf) r false) w
    u = { w with vlive := u.vlive, slive := u.slive } ∧ (sf = true → u.vlive = w.vlive) ∧ (sf = false → u.slive = w.slive) := by
  induction rs generalizing w with
  | nil => exact ⟨rfl, fun _ => rfl, fun _ => rfl⟩
  | cons r rs ih =>
    obtain ⟨h1, h2, h3⟩ := ih (w.setLive (formFile sf) r false)
    cases sf with
    | true => exact ⟨h1, fun _ => h2 rfl, fun h => absurd h (by simp)⟩
    | false => exact ⟨h1, fun h => absurd h (by simp), fun _ => h3 rfl⟩

theorem readWave_isLive (s : State) (i : Instr) (h : s.mayIssue i) (f : RFile) (r : Nat) :
    (s.readWave i).isLive f r = (s.wave s.cur).isLive f r := by
  obtain ⟨bk, hread, -⟩ := readWave_spec s i h
  exact live_congr _ _ (by rw [hread]) (by rw [hread]) f r

/-- A change of the wave in which a body runs sets that wave. -/
theorem begun_modWave (s : State) (i : Instr) (f : Wave → Wave) :
    (s.begun i).modWave s.cur f = (s.begun i).setWave s.cur (f (s.readWave i)) := by
  rw [State.modWave, begun_wave]

theorem begun_modWave_sound (s : State) (i : Instr) (h : s.mayIssue i) (f : Wave → Wave) (hf : ∀ w : Wave, (f w).banks = w.banks) :
    (((s.begun i).modWave s.cur f).wave s.cur).sound := by
  rw [State.modWave_wave, if_pos rfl, begun_wave]
  exact sound_of_banks _ _ (readWave_sound s i h) (hf _)

/-- A wave-level word in no lane only retires (R185). -/
theorem waveLevel_none (s : State) (i : Instr) (pr : BitVec 3) (pn : Bool) (body : State → Key → Wave → Eff) (h : s.mayIssue i)
    (he : exec i s = .next (s.issue i (waveLevel pr pn body))) (hp : (lkOf i).pr = pr) (hn : (lkOf i).pn = pn)
    (hact : s.actOf i = 0) : runsTo s i (s.begun i) [] := by
  have hlanes : (s.readWave i).act pr pn = 0 := by rw [readWave_act s i h, ← hp, ← hn]; exact hact
  exact runs_of s _ i _ [] .step h he (if_pos hlanes) (by rw [begun_wave]; exact readWave_sound s i h)

/-- A wave-level word in some lane runs its body. -/
theorem waveLevel_some (s : State) (i : Instr) (pr : BitVec 3) (pn : Bool) (body : State → Key → Wave → Eff) (h : s.mayIssue i)
    (hp : (lkOf i).pr = pr) (hn : (lkOf i).pn = pn) (hact : s.actOf i ≠ 0) :
    waveLevel pr pn body (s.begun i) s.cur (s.readWave i) = body (s.begun i) s.cur (s.readWave i) := by
  have hlanes : (s.readWave i).act pr pn ≠ 0 := by rw [readWave_act s i h, ← hp, ← hn]; exact hact
  exact if_neg hlanes

-- NOP, YIELD, KILL.

theorem nop_runsTo (s : State) (h : s.mayIssue .nop) : runsTo s .nop (s.begun .nop) [] :=
  runs_of s _ .nop _ [] .step h rfl rfl (by rw [begun_wave]; exact readWave_sound s .nop h)

/-- The state once a word has yielded (R205). -/
def State.yielded (s : State) (k : Key) : State :=
  (s.modQuad (coreOf k) (quadOf k) fun q => { q with lastYld := true }).modWave k fun w =>
    { w with clause := w.clause.map fun c => { c with yld := true } }

theorem yielded_sound (s : State) (i : Instr) (h : s.mayIssue i) : (((s.begun i).yielded s.cur).wave s.cur).sound := by
  rw [State.yielded, State.modWave_wave, if_pos rfl, State.modQuad_wave, begun_wave]
  exact sound_of_banks _ _ (readWave_sound s i h) rfl

theorem yield_runsTo (s : State) (h : s.mayIssue .yield) : runsTo s .yield ((s.begun .yield).yielded s.cur) [] :=
  runs_of s _ .yield _ [] .step h rfl rfl (yielded_sound s .yield h)

theorem kill_runsTo (s : State) (sf : Bool) (x : IF) (h : s.mayIssue (.kill sf x)) :
    ∃ u : Wave, runsTo s (.kill sf x) ((s.begun (.kill sf x)).setWave s.cur u) [] ∧
      u = { s.readWave (.kill sf x) with vlive := u.vlive, slive := u.slive } ∧
      (∀ r, r < 256 → u.isLive .v r = ((s.wave s.cur).isLive .v r && !(!sf && (killRegs x).contains r))) ∧
      (∀ r, r < 64 → u.isLive .s r = ((s.wave s.cur).isLive .s r && !(sf && (killRegs x).contains r))) := by
  have hlive := setLive_fold_live (s.readWave (.kill sf x)) (formFile sf) (killRegs x)
  obtain ⟨hframe, hv, hs⟩ := setLive_fold_frame (s.readWave (.kill sf x)) sf (killRegs x)
  refine ⟨(killRegs x).foldl (fun w r => w.setLive (formFile sf) r false) (s.readWave (.kill sf x)), ?_, hframe, fun r hr => ?_,
    fun r hr => ?_⟩
  · rw [← begun_modWave s (.kill sf x) fun w => (killRegs x).foldl (fun w r => w.setLive (formFile sf) r false) w]
    refine runs_of s _ (.kill sf x) _ [] .step h rfl rfl (begun_modWave_sound s _ h _ fun w => ?_)
    rw [(setLive_fold_frame w sf (killRegs x)).1]
  · rw [← readWave_isLive s (.kill sf x) h]
    cases sf with
    | true => simp only [Wave.isLive, hv rfl, Bool.not_true, Bool.false_and, Bool.not_false, Bool.and_true]
    | false => exact hlive r ⟨fun _ => hr, fun hc => absurd hc (by decide)⟩ (.inl rfl)
  · rw [← readWave_isLive s (.kill sf x) h]
    cases sf with
    | true => exact hlive r ⟨fun hc => absurd hc (by decide), fun _ => hr⟩ (.inr rfl)
    | false => simp only [Wave.isLive, hs rfl, Bool.false_and, Bool.not_false, Bool.and_true]

-- REST, REGION, PART.

theorem retain_frame (w : Wave) (b : Nat) : w.retain b = { w with banks := (w.retain b).banks } := by
  unfold Wave.retain
  split <;> rfl

theorem rested_frame (w : Wave) (x : IF) : w.rested x = { w with banks := (w.rested x).banks } := by
  have hfold (bs : List Nat) (u : Wave) : bs.foldl Wave.retain u = { u with banks := (bs.foldl Wave.retain u).banks } := by
    induction bs generalizing u with
    | nil => rfl
    | cons b bs ih =>
      rw [List.foldl_cons, ih (u.retain b)]
      exact congrArg (fun y : Wave => { y with banks := (bs.foldl Wave.retain (u.retain b)).banks }) (retain_frame u b)
  exact hfold _ w

theorem rest_rested (s : State) (x : IF) (h : s.mayIssue (.rest x)) (hact : s.actOf (.rest x) ≠ 0) :
    ∃ u : Wave, runsTo s (.rest x) ((s.begun (.rest x)).setWave s.cur u) [] ∧ u = { s.readWave (.rest x) with banks := u.banks } ∧
      ∀ b, u.bank b =
        let w := s.readWave (.rest x)
        if b < 32 ∧ x.imm.getLsbD (b / 4) = true ∧ b / 4 < 8 ∧ 8 * b < w.allot ∧ (w.bank b).st = .full ∧ w.bankLive b = true ∧
            w.bankPend b = false then { w.bank b with st := .retain, waking := false, idle := none }
        else w.bank b := by
  refine ⟨(s.readWave (.rest x)).rested x, ?_, rested_frame _ x, fun b => ?_⟩
  · rw [← begun_modWave s (.rest x) fun w => w.rested x]
    exact rest_runsTo s x h hact
  · rw [rested_bank]
    refine if_congr ?_ rfl rfl
    rw [mem_groupBanks, canRetain_iff, BitVec.getLsbD_setWidth]
    simp only [Bool.and_eq_true, decide_eq_true_eq]
    constructor
    · rintro ⟨⟨hb, ⟨hlow, hbit⟩, hallot⟩, hfull, hlive, hpend⟩
      exact ⟨hb, hbit, hlow, hallot, hfull, hlive, hpend⟩
    · rintro ⟨hb, hbit, hlow, hallot, hfull, hlive, hpend⟩
      exact ⟨⟨hb, ⟨hlow, hbit⟩, hallot⟩, hfull, hlive, hpend⟩

theorem islandSettle_wave (s : State) (core : Nat) (k : Key) : (s.islandSettle core).wave k = s.wave k := by
  unfold State.islandSettle
  dsimp only
  split
  · split <;> rfl
  · split <;> rfl

theorem region_runs (s : State) (x : IF) (h : s.mayIssue (.region x)) : waveLevelRuns s (.region x) fun b =>
    (b.modCrew (crewOf s.cur) fun c => { c with regionMode := x.imm.setWidth 2 }).islandSettle (coreOf s.cur) := by
  refine wl_of s (.region x) x.pr x.pn _ _ h rfl rfl rfl rfl ?_
  rw [islandSettle_wave, State.modCrew_wave, begun_wave]
  exact readWave_sound s _ h

theorem part_runs (s : State) (x : IF) (h : s.mayIssue (.part x)) :
    waveLevelRuns s (.part x) fun b => b.modWave s.cur fun w => { w with partreg := x.imm &&& 7 } :=
  wl_of s (.part x) x.pr x.pn _ _ h rfl rfl rfl rfl (begun_modWave_sound s _ h _ fun _ => rfl)

/-- Settles O21, word by word. -/
theorem controlWords : Obligations.ControlWords := by
  unfold Obligations.ControlWords
  intro s k
  refine ⟨nop_runsTo s, yield_runsTo s, kill_runsTo s, rest_rested s, fun x h hact => ?_, region_runs s, part_runs s⟩
  exact waveLevel_none s (.rest x) x.pr x.pn _ h rfl rfl rfl hact

-- SLEEP, TRAP, BKPT.

theorem sleep_waits (s : State) (x : IF) (h : s.mayIssue (.sleep x)) (hact : s.actOf (.sleep x) ≠ 0) (himm : x.imm ≠ 0) :
    issuesAndParks s (.sleep x) (s.begun (.sleep x)) (.sleep (s.reft + x.imm.toNat)) [] :=
  waits_of s _ (.sleep x) _ _ [] h rfl ((waveLevel_some s (.sleep x) x.pr x.pn _ h rfl rfl hact).trans (if_neg himm))

theorem sleep_yields (s : State) (x : IF) (h : s.mayIssue (.sleep x)) (hact : s.actOf (.sleep x) ≠ 0) (himm : x.imm = 0) :
    runsTo s (.sleep x) ((s.begun (.sleep x)).yielded s.cur) [] :=
  runs_of s _ (.sleep x) _ [] .step h rfl ((waveLevel_some s (.sleep x) x.pr x.pn _ h rfl rfl hact).trans (if_pos himm))
    (yielded_sound s _ h)

theorem modWave_modWave (s : State) (k : Key) (f g : Wave → Wave) : (s.modWave k f).modWave k g = s.modWave k fun w => g (f w) := by
  simp only [State.modWave, State.setWave_wave, if_true, State.setWave_setWave]

/-- A parked word that has issued and has read its operands is complete (R27, R49). -/
theorem finish_of_not_readsOn (s : State) (k : Key) (p : Park) (i : Instr) (res : List Res) (hp : (s.wave k).park = some p)
    (hi : (s.wave k).parkI = some i) (hr : p.readsOn = false) :
    s.finish k res = s.modWave k fun w =>
      { ({ w with pend := fillParked res w.pend } : Wave).goPast .step with waited := (s.quad k).cyc } := by
  simp only [State.finish, hp, hi, hr, Bool.false_eq_true, if_false, State.woken, modWave_modWave]
  rfl

theorem sleepDeadline_step (s : State) (k : Key) (d : Nat) (i : Instr) (hp : (s.wave k).park = some (.sleep d))
    (hi : (s.wave k).parkI = some i) (hstop : (s.wave k).stopped = false) (hclock : s.clockOn (coreOf k) = true) :
    exec (.sleepDeadline k) s =
      .next (if d ≤ s.reft then s.modWave k fun w =>
        { ({ w with pend := fillParked [] w.pend } : Wave).goPast .step with waited := (s.quad k).cyc } else s) := by
  have hexec : exec (.sleepDeadline k) s = execSleepDeadline k s := rfl
  rw [hexec, execSleepDeadline, hp, ← finish_of_not_readsOn s k _ i [] hp hi rfl]
  simp only [hstop, hclock, Bool.not_false, Bool.and_true, decide_eq_true_eq]

/-- A wave-level word whose body faults, in some lane and in none. -/
theorem waveLevel_faults (s : State) (i : Instr) (pr : BitVec 3) (pn : Bool) (cls : FClass) (det : Dword)
    (he : exec i s = .next (s.issue i (waveLevel pr pn fun _ _ _ => .fault cls det))) (hp : (lkOf i).pr = pr) (hn : (lkOf i).pn = pn)
    (h : s.mayIssue i) (hact : s.actOf i ≠ 0) : faultsWith s i cls det :=
  faults_of s i _ _ _ h he (waveLevel_some s i pr pn _ h hp hn hact)

/-- Settles O23. -/
theorem sleepsAndTraps : Obligations.SleepsAndTraps := by
  unfold Obligations.SleepsAndTraps
  refine ⟨⟨sleep_waits, sleep_yields, fun s x h hact => ?_, sleepDeadline_step⟩, fun s x => ⟨?_, ?_, ?_, ?_⟩⟩
  · exact waveLevel_none s (.sleep x) x.pr x.pn _ h rfl rfl rfl hact
  · exact waveLevel_faults s (.trap x) x.pr x.pn _ _ rfl rfl rfl
  · exact waveLevel_faults s (.bkpt x) x.pr x.pn _ _ rfl rfl rfl
  · exact fun h hact => waveLevel_none s (.trap x) x.pr x.pn _ h rfl rfl rfl hact
  · exact fun h hact => waveLevel_none s (.bkpt x) x.pr x.pn _ h rfl rfl rfl hact

end Sys2Proof.Machine
end


section
/-! What the memory side of an engine can change: memory, the package's caches and tables, dies, contexts, polders and cores. No
wave, crew, cluster or launch changes, and memory keeps its canonical form. -/

namespace Sys2Proof.Machine

/-- The memory side has acted: no wave, crew, cluster or launch has changed, and memory is canonical if it was. -/
structure MemSide (s t : State) : Prop where
  frame : t = { s with mem := t.mem, pkg := t.pkg, dies := t.dies, ctxs := t.ctxs, polders := t.polders, cores := t.cores,
                       freeCtr := t.freeCtr }
  canon : memWf s.mem = true → memWf t.mem = true

namespace MemSide

theorem refl (s : State) : MemSide s s := ⟨rfl, id⟩

theorem trans {s t u : State} (h1 : MemSide s t) (h2 : MemSide t u) : MemSide s u where
  frame := h2.frame.trans (congrArg (fun x : State => { x with
    mem := u.mem, pkg := u.pkg, dies := u.dies, ctxs := u.ctxs, polders := u.polders, cores := u.cores, freeCtr := u.freeCtr }) h1.frame)
  canon := fun h => h2.canon (h1.canon h)

theorem waves {s t : State} (h : MemSide s t) : t.waves = s.waves := by rw [h.frame]
theorem wave {s t : State} (h : MemSide s t) (k : Key) : t.wave k = s.wave k := by rw [State.wave, h.waves]; rfl
theorem crews {s t : State} (h : MemSide s t) : t.crews = s.crews := by rw [h.frame]
theorem crew {s t : State} (h : MemSide s t) (k : Key) : t.crew k = s.crew k := by rw [State.crew, h.crews]; rfl
theorem cur {s t : State} (h : MemSide s t) : t.cur = s.cur := by rw [h.frame]

/-- A step of each element, one after another. -/
theorem foldl {α : Type} {f : State → α → State} (hf : ∀ s a, MemSide s (f s a)) (ls : List α) (s : State) :
    MemSide s (ls.foldl f s) := by
  induction ls generalizing s with
  | nil => exact refl s
  | cons a r ih => exact (hf s a).trans (ih (f s a))

theorem ite {s t u : State} {p : Prop} [Decidable p] (h1 : MemSide s t) (h2 : MemSide s u) : MemSide s (if p then t else u) := by
  split
  · exact h1
  · exact h2

-- The updates of the state.

theorem modPkg (s : State) (f : Pkg → Pkg) : MemSide s (s.modPkg f) := ⟨rfl, id⟩
theorem modCtx (s : State) (c : Nat) (f : Ctx → Ctx) : MemSide s (s.modCtx c f) := ⟨rfl, id⟩
theorem modPolder (s : State) (p : Nat) (f : Polder → Polder) : MemSide s (s.modPolder p f) := ⟨rfl, id⟩
theorem modDie (s : State) (d : Nat) (f : Die → Die) : MemSide s (s.modDie d f) := ⟨rfl, id⟩
theorem setPolders (s : State) (p : Tab Polder) : MemSide s { s with polders := p } := ⟨rfl, id⟩
theorem pokeBytes (s : State) (a : Nat) (bs : List Byte) : MemSide s (s.pokeBytes a bs) := ⟨rfl, pokeBytes_memWf s a bs⟩
theorem poke64 (s : State) (a : Nat) (v : Dword) : MemSide s (s.poke64 a v) := pokeBytes s a _
theorem setDcache (s : State) (cl : Nat) (t : Tab CByte) : MemSide s (s.setDcache cl t) := modPkg s _
theorem event (s : State) (d kind : Nat) (h : Word) (w1 : Dword) (key : Nat) : MemSide s (s.event d kind h w1 key) := ⟨rfl, id⟩

theorem floodgate (s : State) (c : Nat) (r : StopRec) : MemSide s (s.floodgate c r) := by
  rw [floodgate_frame]
  exact ⟨rfl, id⟩

-- Stores at home (R7, R387, R389).

theorem entryChanged (s : State) (a : Nat) (old new : Byte) : MemSide s (s.entryChanged a old new) := by
  unfold State.entryChanged
  dsimp only
  refine ite (ite ?_ ⟨rfl, id⟩) (ite (modPolder s _ _) (refl s))
  refine trans ?_ (pokeBytes _ _ _)
  exact ⟨rfl, id⟩

theorem putByte (s : State) (m : Byte) (a : Nat) (b : Byte) : MemSide s (s.putByte m a b) :=
  (pokeBytes s _ _).trans (entryChanged _ _ _ _)

/-- A step of each element, with something counted beside the state. -/
theorem foldl_snd {α β : Type} {f : β × State → α → β × State} (hf : ∀ p a, MemSide p.2 (f p a).2) (ls : List α) (p : β × State) :
    MemSide p.2 (ls.foldl f p).2 := by
  induction ls generalizing p with
  | nil => exact refl p.2
  | cons a r ih => exact (hf p a).trans (ih (f p a))

theorem putBytes (s : State) (pa : Nat) (bs : List Byte) : MemSide s (s.putBytes pa bs) :=
  foldl_snd (fun p b => putByte p.2 _ p.1 b) bs (pa, s)

theorem setExtw (s : State) (c : Nat) (b : Bool) : MemSide s (s.setExtw c b) := poke64 s _ _

theorem noteExt (s : State) (c : Option Nat) (pa : Nat) : MemSide s (s.noteExt c pa) := by
  cases c with
  | none => exact refl s
  | some c => exact ite (setExtw s c true) (refl s)

theorem tokens (s : State) (p path n : Nat) : MemSide s (s.tokens p path n) := by
  unfold State.tokens State.meter
  dsimp only
  exact trans (modPolder s _ _) (modPolder _ _ _)
theorem charge (s : State) (c : Option Nat) (pa n : Nat) : MemSide s (s.charge c pa n) := by
  unfold State.charge
  exact setPolders s _

theorem dropCheckpoint (s : State) (c : Nat) : MemSide s (s.dropCheckpoint c) := by
  unfold State.dropCheckpoint
  exact (poke64 s _ _).trans (modCtx _ _ _)

theorem logLine (s : State) (c line : Nat) : MemSide s (s.logLine c line) := by
  unfold State.logLine
  dsimp only
  refine ite (refl s) (ite (dropCheckpoint s c) ?_)
  exact (((poke64 s _ _).trans (pokeBytes _ _ _)).trans (charge _ _ _ _)).trans (modCtx _ _ _)

theorem l2Dirty (s : State) (w line : Nat) : MemSide s (s.l2Dirty w line) := by
  unfold State.l2Dirty
  split
  · exact refl s
  · exact modPkg s _

theorem homeStore (s : State) (c : Option Nat) (pa : Nat) (bs : List Byte) : MemSide s (s.homeStore c pa bs) := by
  unfold State.homeStore
  dsimp only
  refine (foldl (fun s l => l2Dirty s (c.getD fwCtx) l) (linesOf pa bs.length) s).trans (trans ?_ (putBytes _ _ _))
  cases c with
  | none => exact refl _
  | some x => exact ite (noteExt _ _ _) (foldl (fun s l => logLine s x l) _ _)

-- Translation (R371, R372).

theorem tlbFill (s : State) (core : Nat) (e : TlbEnt) : MemSide s (s.tlbFill core e) := modPkg s _

theorem walkFill (s : State) (die ctx va : Nat) (new : List (Nat × Nat × Nat)) : MemSide s (s.walkFill die ctx va new) :=
  ite (refl s) (modPkg s _)

/-- An answer that is not the first branch's is the second's. -/
theorem of_ite_ne {α : Type} {p : Prop} [Decidable p] {x y z : α} (h : (if p then x else y) = z) (hx : x ≠ z) : y = z := by
  split at h
  · exact absurd h hx
  · exact h

theorem walk {s t : State} {c : Option Nat} {core va : Nat} {a : Acc} {pa home : Nat} (h : s.walk c core va a = .ok t pa home) :
    MemSide s t := by
  unfold State.walk at h
  extract_lets root at h
  split at h
  case h_4 at' e lvl new _ =>
    extract_lets s64 size frame at h
    have h := of_ite_ne (of_ite_ne (of_ite_ne h (by simp)) (by simp)) (by simp)
    split at h
    case h_3 =>
      split at h
      case isTrue =>
        injection h with h1
        rw [← h1]
        have h0 := foldl (f := fun s a => s.charge none a 8) (fun s a => charge s _ _ _) (at' :: new.map (·.2.2)) s
        refine trans ?_ (tlbFill _ _ _)
        exact (ite h0 ((h0.trans (poke64 _ _ _)).trans (charge _ _ _ _))).trans (walkFill _ _ _ _ _)
      case isFalse => exact absurd h (by simp)
    all_goals exact absurd h (by simp)
  all_goals exact absurd h (by simp)

theorem of_onBus {f : Nat → Nat} {r : TrRes} {t : State} {pa home : Nat} (h : r.onBus f = .ok t pa home) :
    ∃ p, r = .ok t p home := by
  cases r with
  | ok s p m =>
    injection h with h1 h2 h3
    exact ⟨p, by rw [h1, h3]⟩
  | miss | access | ecc _ | busy => exact absurd h (by simp [TrRes.onBus])

theorem translate {s t : State} {c : Option Nat} {core va : Nat} {a : Acc} {pa home : Nat}
    (h : s.translate c core va a = .ok t pa home) : MemSide s t := by
  obtain ⟨p, hp⟩ := of_onBus h
  split at hp
  · injection hp with h1
    rw [← h1]
    exact refl s
  · split at hp
    · injection hp with h1
      rw [← h1]
      exact modPkg s _
    · exact walk hp

-- The slices and the caches of a cluster (R98, R100, R384).

theorem fillLine (s : State) (cl pa : Nat) : MemSide s (s.fillLine cl pa) := by
  unfold State.fillLine
  exact ite (refl s) (setDcache s _ _)

theorem freshen (s : State) (cl pa n : Nat) : MemSide s (s.freshen cl pa n) := ite (setDcache s _ _) (refl s)

theorem meetRead (s : State) (cl pa n : Nat) : MemSide s (s.meetRead cl pa n).2 := freshen s cl pa n

theorem lsuRead (s : State) (cl pa n home : Nat) : MemSide s (s.lsuRead cl pa n home).2 := by
  unfold State.lsuRead
  split
  · exact meetRead s cl pa n
  · exact ite (refl s) (fillLine s cl pa)

theorem dropCopies (s : State) (cl pa n : Nat) : MemSide s (s.dropCopies cl pa n) := setDcache s _ _

theorem lsuWrite (s : State) (c : Option Nat) (cl pa home : Nat) (bs : List Byte) : MemSide s (s.lsuWrite c cl pa home bs) :=
  ite (((homeStore s c pa bs).trans (dropCopies _ _ _ _)).trans (freshen _ _ _ _)) (setDcache s _ _)

theorem heal (s : State) (lines : List Nat) : MemSide s (s.heal lines) := by
  unfold State.heal
  dsimp only
  have h : MemSide s (if s.pkg.eccBad = [] then s
      else s.modPkg fun p => { p with eccBad := p.eccBad.filter fun l => !lines.contains l }) := ite (refl s) (modPkg s _)
  exact ite (h.trans (modPkg _ _)) h

theorem discardLine (s : State) (cl line : Nat) : MemSide s (s.discardLine cl line) := (setDcache s _ _).trans (modPkg _ _)

theorem l2Remove (s : State) (n line : Nat) : MemSide s (s.l2Remove n line) := modPkg s _

theorem l2Discard (s : State) (line : Nat) : MemSide s (s.l2Discard line) := by
  unfold State.l2Discard
  split
  · exact refl s
  · dsimp only
    split
    · exact (l2Remove s _ _).trans (pokeBytes _ _ _)
    · exact l2Remove s _ _

theorem memLoss (s : State) (w line : Nat) : MemSide s (s.memLoss w line) := ite (refl s) (floodgate s _ _)

theorem loseLine (s : State) (cl line : Nat) : MemSide s (s.loseLine cl line) := (discardLine s cl line).trans (memLoss _ _ _)

theorem l2Lose (s : State) (line : Nat) : MemSide s (s.l2Lose line) := (l2Discard s line).trans (memLoss _ _ _)

theorem discardBad (s : State) (cl line : Nat) : MemSide s (s.discardBad cl line) :=
  ite (discardLine s _ _) (ite (l2Discard s _) (refl s))

theorem l2Evict (s : State) (n line : Nat) : MemSide s (s.l2Evict n line) := by
  unfold State.l2Evict
  split
  · exact refl s
  · exact ite (l2Lose s line) (ite (l2Remove s n line) (((l2Remove s n line).trans (heal _ _)).trans (charge _ _ _ _)))

theorem l2Fit (s : State) (n : Nat) : MemSide s (s.l2Fit n) := by
  unfold State.l2Fit
  dsimp only
  refine ite (refl s) ?_
  split
  · exact l2Evict s n _
  · exact refl s

theorem l2Touch (s : State) (c : Option Nat) (pa size home : Nat) : MemSide s (s.l2Touch c pa size home) := by
  unfold State.l2Touch
  dsimp only
  refine ite (charge s _ _ _) ?_
  have h := ((ite (p := ((tget s.pkg.l2 [] (s.homeSlice (polderOf (c.getD 0)) pa)).find? fun x => x.line == pa / 128).isSome = true)
    (refl s) (charge s c (pa / 128 * 128) 128)))
  exact ite (((h.trans (modPkg _ _)).trans (l2Fit _ _)).trans (modPolder _ _ _)) ((h.trans (modPkg _ _)).trans (l2Fit _ _))

theorem unpinL2 (s : State) (p : Nat) : MemSide s (s.unpinL2 p) := modPkg s _

theorem l2Bring (s : State) (t : Tab CByte) : MemSide s (s.l2Bring t) := by
  unfold State.l2Bring
  refine foldl (fun s l => ?_) _ s
  split
  · exact refl s
  · exact l2Touch s _ _ _ _

theorem writeBack (s : State) (cl : Nat) (p : Nat → Bool) : MemSide s (s.writeBack cl p) := by
  unfold State.writeBack
  dsimp only
  refine (heal s (s.fullLines cl)).trans ((foldl (fun s l => loseLine s cl l) (s.failing cl p) _).trans ?_)
  exact ((l2Bring _ _).trans (foldl (fun s e => homeStore s _ _ _) _ _)).trans (setDcache _ _ _)

theorem dropClean (s : State) (cl : Nat) (p : Nat → Bool) : MemSide s (s.dropClean cl p) := setDcache s _ _

theorem evict (s : State) (cl line : Nat) : MemSide s (s.evict cl line) := (writeBack s _ _).trans (dropClean _ _ _)

theorem l1Touch (s : State) (core line : Nat) : MemSide s (s.l1Touch core line) := modPkg s _

theorem free (s : State) : MemSide s s.free.2 := ⟨rfl, id⟩

theorem makeRoom (s : State) (cl : Nat) : MemSide s (s.makeRoom cl) := by
  unfold State.makeRoom
  exact (free s).trans (ite (evict _ _ _) (modPkg _ _))

theorem roomFor (s : State) (cl line : Nat) : MemSide s (s.roomFor cl line) := ite (refl s) (ite (refl s) (makeRoom s cl))

theorem release (s : State) (cl : Nat) (x : ScopeInst) : MemSide s (s.release cl x) := by
  unfold State.release
  split
  · exact refl s
  · exact refl s
  · exact writeBack s _ _
  · exact writeBack s _ _

theorem acquire (s : State) (cl : Nat) (x : ScopeInst) : MemSide s (s.acquire cl x) := by
  unfold State.acquire
  split
  · exact refl s
  · exact refl s
  · exact dropClean s _ _
  · exact dropClean s _ _

theorem noteStore (s : State) (eng : EngKind) (key cl line : Nat) : MemSide s (s.noteStore eng key cl line) :=
  ite (refl s) (modPkg s _)

theorem releaseLines (s : State) (f : EngKind → Nat → Bool) : MemSide s (s.releaseLines f) := ite (refl s) (modPkg s _)

theorem waveReleases (s : State) (k : Key) : MemSide s (s.waveReleases k) := releaseLines s _

theorem chargeHome (s : State) (c : Option Nat) (pa n : Nat) : MemSide s (s.chargeHome c pa n) := ite (refl s) (charge s _ _ _)

theorem touchL2 (s : State) (c : Option Nat) (core pa size home : Nat) : MemSide s (s.touchL2 c core pa size home) :=
  ite (refl s) (l2Touch s _ _ _ _)

theorem touch (s : State) (c : Option Nat) (core : Nat) (ch : BitVec 2) (pa size home : Nat) :
    MemSide s (s.touch c core ch pa size home) := by
  unfold State.touch
  have h0 := touchL2 s c core pa size home
  have h1 := ite (p := 2 ≤ home) h0 (h0.trans (roomFor _ (clusterOf core) (pa / 128)))
  exact ite h1 (h1.trans (l1Touch _ _ _))

theorem sendPeer (s : State) (eng : EngKind) (key lane addr va : Nat) (write : Bool) (data size : Nat) :
    MemSide s (s.sendPeer eng key lane addr va write data size) := ite (refl s) (modPkg s _)

-- Parked accesses (R373).

theorem tellMiss (s : State) (c : Nat) : MemSide s (s.tellMiss c) := by
  unfold State.tellMiss
  dsimp only
  split
  · exact modDie s _ _
  · exact (modDie s _ _).trans (event _ _ _ _ _ _)

theorem reportMiss (s : State) (c va : Nat) (who : MissWho) : MemSide s (s.reportMiss c va who) :=
  ite (refl s) ((modCtx s _ _).trans (tellMiss _ _))

theorem forgetMisses (s : State) (c : Nat) (p : MissWho → Bool) : MemSide s (s.forgetMisses c p) :=
  ite ((modCtx s _ _).trans (tellMiss _ _)) (refl s)

-- Instruction fetch (R103, R104).

theorem clusterLine (s : State) (c : Option Nat) (cl line home : Nat) : MemSide s (s.clusterLine c cl line home).2 := by
  unfold State.clusterLine
  split
  · exact refl s
  · dsimp only
    exact ((l2Touch s _ _ _ _).trans (roomFor _ _ _)).trans (modPkg _ _)

theorem fetchLine (s : State) (c : Option Nat) (core line home : Nat) : MemSide s (s.fetchLine c core line home).2 := by
  unfold State.fetchLine
  dsimp only
  split
  · exact refl s
  · split
    · exact refl s
    · dsimp only
      exact modPkg s _
  · split
    · exact l2Touch s _ _ _ _
    · dsimp only
      exact (clusterLine s c _ _ _).trans (modPkg _ _)

theorem fetchWord {s t : State} {c : Option Nat} {core va : Nat} {w : Dword} (h : s.fetchWord c core va = .ok t w) : MemSide s t := by
  unfold State.fetchWord at h
  split at h
  · exact absurd h (by simp)
  split at h
  case h_5 s1 pa home htr =>
    split at h
    · exact absurd h (by simp)
    split at h
    · exact absurd h (by simp)
    injection h with h1 h2
    rw [← h1]
    exact (translate htr).trans (fetchLine s1 _ _ _ _)
  all_goals exact absurd h (by simp)

theorem fetchWave {s t : State} {k : Key} {va : Nat} {w : Dword} (h : s.fetchWave k va = .ok t w) : MemSide s t := fetchWord h

theorem checkWords {k : Key} {ok : Dword → Bool} {det : Nat → Nat} {as : List Nat} {s t : State} {ws : List Dword}
    (h : checkWords k ok det as s = .inr (t, ws)) : MemSide s t := by
  induction as generalizing s ws with
  | nil =>
    injection h with h
    injection h with h1 h2
    rw [← h1]
    exact refl s
  | cons a r ih =>
    unfold Machine.checkWords at h
    split at h
    · exact absurd h (by simp)
    split at h
    case h_5 s1 x hf =>
      split at h
      · split at h
        · exact absurd h (by simp)
        · rename_i s2 xs hr
          injection h with h
          injection h with h1 h2
          subst h1
          exact (fetchWave hf).trans (ih hr)
      · exact absurd h (by simp)
    all_goals exact absurd h (by simp)

end MemSide

end Sys2Proof.Machine
end


section
/-! Branches, rejoin registers, calls, returns and EXIT: what their bodies answer once every target is checked. -/

namespace Sys2Proof.Machine

-- The wave in which the body of a transfer runs.

theorem modWave_congr (s : State) (k : Key) (f g : Wave → Wave) (h : f (s.wave k) = g (s.wave k)) : s.modWave k f = s.modWave k g := by
  rw [State.modWave, State.modWave, h]

theorem done_modWave_congr (s : State) (k : Key) (f g : Wave → Wave) (res : List Res) (adv : Adv) (h : f (s.wave k) = g (s.wave k)) :
    Eff.done (s.modWave k f) res adv = .done (s.modWave k g) res adv := by rw [modWave_congr s k f g h]

theorem hintMiss_wave (s : State) (k : Key) (x : BF) (m meet : LaneMask) (n : Nat) (q : Key) :
    (s.hintMiss k x m meet n).wave q = s.wave q := by
  rw [State.hintMiss]
  split
  · exact State.modCrew_wave s _ _ q
  · rfl

theorem judge_banks (w : Wave) (n : Nat) : (w.judge n).banks = w.banks := by
  unfold Wave.judge
  dsimp only
  split <;> rfl

theorem enrol_banks (w : Wave) (x : BF) : (w.enrol x).banks = w.banks := by
  unfold Wave.enrol
  split
  · exact judge_banks _ _
  · rfl

theorem moveLanes_banks (w : Wave) (meet : LaneMask) (tg : Fin 32 → Dword) (ret : Nat) : (w.moveLanes meet tg ret).banks = w.banks := by
  unfold Wave.moveLanes
  rfl

theorem moved_banks (w : Wave) (x : BF) (meet : LaneMask) (tg : Fin 32 → Dword) (ret : Nat) :
    ((w.enrol x).moveLanes meet tg ret).banks = w.banks := by
  rw [moveLanes_banks, enrol_banks]

/-- What a target depends on: the wave but for its banks. -/
def sameTargets (tg : Wave → Fin 32 → Dword) : Prop := ∀ (w : Wave) (bk : Tab Bank), tg { w with banks := bk } = tg w

theorem offTarget_same (x : BF) : sameTargets (offTarget x) := fun _ _ => rfl
theorem pairTarget_same (x : BF) : sameTargets (pairTarget x) := fun _ _ => rfl

section
variable {s s2 : State} {i : Instr} {f : Wave → Wave}

/-- A body that has only fetched, counted, and moved the lanes of its wave leaves the wave in focus sound. -/
theorem fetched_sound (h : s.mayIssue i) (hwave : s2.wave s.cur = s.readWave i) (hf : ∀ w : Wave, (f w).banks = w.banks) :
    ((s2.modWave s.cur f).wave s.cur).sound := by
  rw [State.modWave_wave, if_pos rfl, hwave]
  exact sound_of_banks _ _ (readWave_sound s i h) (hf _)

theorem checked_wave {ok : Dword → Bool} {det : Nat → Nat} {as : List Nat} {s1 : State} {ws : List Dword}
    (hc : checkWords s.cur ok det as (s.begun i) = .inr (s1, ws)) : s1.wave s.cur = s.readWave i := by
  rw [(MemSide.checkWords hc).wave, begun_wave]

end

-- BRA, BRX.

section
variable {s : State} {i : Instr} {x : BF} {tg : Wave → Fin 32 → Dword}

/-- The targets of the word in focus, ascending. -/
def State.targets (s : State) (x : BF) (tg : Wave → Fin 32 → Dword) : List Nat :=
  targetsOf ((s.wave s.cur).meets x) (tg (s.wave s.cur))

/-- The wave of the word's body names the same group, lanes, place and targets as the wave in focus. -/
theorem readWave_transfer (h : s.mayIssue i) (x : BF) (htg : sameTargets tg) :
    (s.readWave i).group = (s.wave s.cur).group ∧ (s.readWave i).meets x = (s.wave s.cur).meets x ∧
      (s.readWave i).pc = (s.wave s.cur).pc ∧ tg (s.readWave i) = tg (s.wave s.cur) := by
  obtain ⟨bk, hread, -⟩ := readWave_spec s i h
  rw [hread]
  exact ⟨rfl, rfl, rfl, htg _ bk⟩

/-- What BRA and BRX answer once their targets are checked (R189). -/
theorem branchBody_checked (h : s.mayIssue i) (htg : sameTargets tg) {s1 : State} {hs : List Dword}
    (hc : checkWords s.cur isHeader id (s.targets x tg) (s.begun i) = .inr (s1, hs)) :
    branchBody x tg (s.begun i) s.cur (s.readWave i) =
      .done ((s1.hintMiss s.cur x (s.wave s.cur).group ((s.wave s.cur).meets x) (s.targets x tg).length).modWave s.cur fun u =>
        (u.enrol x).moveLanes ((s.wave s.cur).meets x) (tg (s.wave s.cur)) ((s.wave s.cur).pc + 8)) [] .leave := by
  obtain ⟨hgroup, hmeets, hpc, htargets⟩ := readWave_transfer h x htg
  have hts : targetsOf ((s.wave s.cur).meets x) (tg (s.wave s.cur)) = s.targets x tg := rfl
  rw [branchBody, hgroup, hmeets, htargets, hts, hc]
  dsimp only
  have hmove := modWave_congr (s1.hintMiss s.cur x (s.wave s.cur).group ((s.wave s.cur).meets x) (s.targets x tg).length) s.cur
    (fun u => (u.enrol x).moveLanes ((s.wave s.cur).meets x) (tg u) (u.pc + 8))
    (fun u => (u.enrol x).moveLanes ((s.wave s.cur).meets x) (tg (s.wave s.cur)) ((s.wave s.cur).pc + 8))
    (by rw [hintMiss_wave, checked_wave hc, hpc, htargets])
  rw [hmove]

theorem branch_runs (he : exec i s = .next (s.issue i (branchBody x tg))) (h : s.mayIssue i) (htg : sameTargets tg)
    {s1 : State} {hs : List Dword} (hc : checkWords s.cur isHeader id (s.targets x tg) (s.begun i) = .inr (s1, hs)) :
    runsTo s i ((s1.hintMiss s.cur x (s.wave s.cur).group ((s.wave s.cur).meets x) (s.targets x tg).length).modWave s.cur fun u =>
      (u.enrol x).moveLanes ((s.wave s.cur).meets x) (tg (s.wave s.cur)) ((s.wave s.cur).pc + 8)) [] .leave :=
  runs_of s _ i _ [] .leave h he (branchBody_checked h htg hc)
    (fetched_sound h ((hintMiss_wave _ _ _ _ _ _ _).trans (checked_wave hc)) fun w => moved_banks w x _ _ _)

theorem branch_faults (he : exec i s = .next (s.issue i (branchBody x tg))) (h : s.mayIssue i) (htg : sameTargets tg)
    {c : FClass} {d : Dword} (hc : checkWords s.cur isHeader id (s.targets x tg) (s.begun i) = .inl (.fault c d)) :
    faultsWith s i c d := by
  obtain ⟨hgroup, hmeets, hpc, htargets⟩ := readWave_transfer h x htg
  have hts : targetsOf ((s.wave s.cur).meets x) (tg (s.wave s.cur)) = s.targets x tg := rfl
  refine faults_of s i _ c d h he ?_
  rw [branchBody, hmeets, htargets, hts, hc]

end

-- JENR, JSTRK, JWAIT.

theorem putJ_banks (w : Wave) (n : Nat) (m : LaneMask) : (w.putJ n m).banks = w.banks := judge_banks _ n

/-- A word that writes a rejoin register from the wave's own state (R193). -/
theorem putJ_runs (s : State) (i : Instr) (n : Nat) (m : Wave → LaneMask) (h : s.mayIssue i)
    (he : exec i s = .next (s.issue i fun s k _ => .done (s.modWave k fun w => w.putJ n (m w)) []))
    (hm : m (s.readWave i) = m (s.wave s.cur)) :
    runsTo s i ((s.begun i).modWave s.cur fun w => ({ w with jreg := tset w.jreg n (m (s.wave s.cur)) }).judge n) [] := by
  rw [modWave_congr _ s.cur _ (fun w => w.putJ n (m w)) (by rw [begun_wave, hm]; rfl)]
  exact runs_of s _ i _ [] .step h he rfl (begun_modWave_sound s i h _ fun w => putJ_banks w n _)

theorem readWave_j (s : State) (i : Instr) (h : s.mayIssue i) (n : Nat) : (s.readWave i).j n = (s.wave s.cur).j n := by
  obtain ⟨bk, hread, -⟩ := readWave_spec s i h
  rw [hread]
  rfl

theorem jwait_banks (w : Wave) (n : Nat) (m : LaneMask) : (w.jwait n m).banks = w.banks := by
  unfold Wave.jwait
  dsimp only
  split
  · rw [judge_banks]
  · rw [judge_banks]

theorem jwait_runs (s : State) (x : VF) (h : s.mayIssue (.jwait x)) :
    let u := (s.readWave (.jwait x)).jwait x.d.toNat (s.actOf (.jwait x))
    runsTo s (.jwait x) ((s.begun (.jwait x)).setWave s.cur u) [] (if u.group = 0 then .leave else .step) := by
  refine runs_of s _ (.jwait x) _ [] _ h rfl ?_ ?_
  · rw [jwaitBody, readWave_act s _ h]
    rfl
  · rw [State.setWave_wave, if_pos rfl]
    exact sound_of_banks _ _ (readWave_sound s _ h) (jwait_banks _ _ _)

/-- Settles O24: the two branches, then the three words of the rejoin registers. -/
theorem branchesAndRejoins : Obligations.BranchesAndRejoins := by
  unfold Obligations.BranchesAndRejoins
  refine ⟨fun s x pair => ?_, fun s x => ⟨fun h => ?_, fun h => ?_, fun h => ?_⟩⟩
  · cases pair with
    | false =>
      exact fun h => ⟨fun s1 hs hc => ⟨_, branch_runs (tg := offTarget x) rfl h (offTarget_same x) hc, rfl⟩,
        fun c d hc => branch_faults (tg := offTarget x) rfl h (offTarget_same x) hc⟩
    | true =>
      exact fun h => ⟨fun s1 hs hc => ⟨_, branch_runs (tg := pairTarget x) rfl h (pairTarget_same x) hc, rfl⟩,
        fun c d hc => branch_faults (tg := pairTarget x) rfl h (pairTarget_same x) hc⟩
  · exact putJ_runs s (.jenr x) x.d.toNat (fun w => w.act x.pr x.pn) h rfl (readWave_act s _ h _ _)
  · exact putJ_runs s (.jstrk x) x.d.toNat (fun w => w.j x.d.toNat &&& ~~~w.act x.pr x.pn) h rfl
      (by rw [readWave_j s _ h, readWave_act s _ h])
  · exact jwait_runs s x h

-- CALL, CALLX.

theorem checkWords_misaligned (k : Key) (ok : Dword → Bool) (det : Nat → Nat) (a : Nat) (r : List Nat) (s : State) (h : a % 8 ≠ 0) :
    checkWords k ok det (a :: r) s = .inl (.fault .clause (BitVec.ofNat 64 (det a))) := by
  rw [checkWords, if_pos h]

theorem checkWords_refused (k : Key) (ok : Dword → Bool) (det : Nat → Nat) (a : Nat) (r : List Nat) (s s1 : State) (x : Dword)
    (hf : s.fetchWave k a = .ok s1 x) (hx : ok x = false) :
    checkWords k ok det (a :: r) s = .inl (.fault .clause (BitVec.ofNat 64 (det a))) := by
  rw [checkWords]
  split
  · rfl
  · rw [hf]
    simp only [hx, Bool.false_eq_true, if_false]

/-- A target whose function word asks for more registers than the allotment (R53). -/
def overBudget (allot : Nat) (p : Nat × Dword) : Bool := decide (allot < 8 * ((funcWord p.2).getD 0 + 1))

/-- The address before a target, where its function word stands (R187). -/
def beforeTarget (a : Nat) : Nat := (a + 2 ^ 64 - 8) % 2 ^ 64

/-- Checks the function words of the targets (R187). -/
def checkFuncs (k : Key) (ts : List Nat) (s : State) : Eff ⊕ (State × List Dword) :=
  checkWords k (fun f => (funcWord f).isSome) (· + 8) (ts.map beforeTarget) s

/-- The word diverges: it takes some lanes, and not the whole group to one target (R187). -/
def Wave.diverges (w : Wave) (x : BF) (targets : Nat) : Bool :=
  w.meets x ≠ 0 && (w.meets x ≠ w.group || decide (1 < targets))

/-- A call moves the lanes of its wave, and opens a record where it diverges (R187). -/
def Wave.called (w u : Wave) (x : BF) (tg : Fin 32 → Dword) (ts : List Nat) : Wave :=
  let u := (u.enrol x).moveLanes (w.meets x) tg (w.pc + 8)
  if w.diverges x ts.length then
    let first := u.lanesAt (w.meets x) (ts.headD 0)
    { u with calls := { ret := w.pc + 8, held := w.group &&& ~~~w.meets x, running := first,
                        waiting := w.meets x &&& ~~~first } :: u.calls }
  else u

theorem called_banks (w u : Wave) (x : BF) (tg : Fin 32 → Dword) (ts : List Nat) : (w.called u x tg ts).banks = u.banks := by
  unfold Wave.called
  dsimp only
  split
  · rw [moved_banks]
  · rw [moved_banks]

section
variable {s : State} {i : Instr} {x : BF} {tg : Wave → Fin 32 → Dword}

theorem readWave_calls (h : s.mayIssue i) :
    (s.readWave i).allot = (s.wave s.cur).allot ∧ (s.readWave i).calls = (s.wave s.cur).calls := by
  obtain ⟨bk, hread, -⟩ := readWave_spec s i h
  rw [hread]
  exact ⟨rfl, rfl⟩

theorem callBody_unchecked (h : s.mayIssue i) (htg : sameTargets tg) {e : Eff}
    (hc : checkWords s.cur isHeader id (s.targets x tg) (s.begun i) = .inl e) :
    callBody x tg (s.begun i) s.cur (s.readWave i) = e := by
  obtain ⟨hgroup, hmeets, hpc, htargets⟩ := readWave_transfer h x htg
  have hts : targetsOf ((s.wave s.cur).meets x) (tg (s.wave s.cur)) = s.targets x tg := rfl
  rw [callBody, hmeets, htargets, hts, hc]

/-- What a call answers once its targets are headers: the judgement of the function words (R53, R187). -/
theorem callBody_checked (h : s.mayIssue i) (htg : sameTargets tg) {s1 : State} {hs : List Dword}
    (hc : checkWords s.cur isHeader id (s.targets x tg) (s.begun i) = .inr (s1, hs)) :
    callBody x tg (s.begun i) s.cur (s.readWave i) =
      match checkFuncs s.cur (s.targets x tg) s1 with
      | .inl e => e
      | .inr (s2, fs) =>
        match ((s.targets x tg).zip fs).find? (overBudget (s.wave s.cur).allot) with
        | some p => .fault .budget (BitVec.ofNat 64 (p.1 - 8))
        | none =>
          if (s.wave s.cur).diverges x (s.targets x tg).length && decide (8 ≤ (s.wave s.cur).calls.length) then .fault .illegal 0
          else .done ((s2.hintMiss s.cur x (s.wave s.cur).group ((s.wave s.cur).meets x) (s.targets x tg).length).modWave s.cur fun u =>
              (s.wave s.cur).called u x (tg (s.wave s.cur)) (s.targets x tg))
            [resS (bfLink x) 2 ((s.wave s.cur).meets x) ((s.wave s.cur).pc + 8)] .leave := by
  obtain ⟨hgroup, hmeets, hpc, htargets⟩ := readWave_transfer h x htg
  obtain ⟨hallot, hcalls⟩ := readWave_calls h
  have hts : targetsOf ((s.wave s.cur).meets x) (tg (s.wave s.cur)) = s.targets x tg := rfl
  rw [callBody, hgroup, hmeets, htargets, hpc, hallot, hcalls, hts, hc]
  dsimp only
  have hfuncs : checkWords s.cur (fun f => (funcWord f).isSome) (· + 8) ((s.targets x tg).map fun a => (a + 2 ^ 64 - 8) % 2 ^ 64) s1 =
      checkFuncs s.cur (s.targets x tg) s1 := rfl
  rw [hfuncs]
  cases hcf : checkFuncs s.cur (s.targets x tg) s1 with
  | inl e => rfl
  | inr p =>
    obtain ⟨s2, fs⟩ := p
    have hwave : (s2.hintMiss s.cur x (s.wave s.cur).group ((s.wave s.cur).meets x) (s.targets x tg).length).wave s.cur =
        s.readWave i := by rw [hintMiss_wave, (MemSide.checkWords hcf).wave, checked_wave hc]
    have hover : (fun p : Nat × Dword => decide ((s.wave s.cur).allot < 8 * ((funcWord p.2).getD 0 + 1))) =
        overBudget (s.wave s.cur).allot := rfl
    dsimp only
    rw [hover]
    cases hfind : ((s.targets x tg).zip fs).find? (overBudget (s.wave s.cur).allot) with
    | some p => rfl
    | none =>
      dsimp only
      refine if_congr Iff.rfl rfl ?_
      refine done_modWave_congr _ s.cur _ _ _ _ ?_
      rw [hwave, htargets]
      rfl

theorem call_faults (he : exec i s = .next (s.issue i (callBody x tg))) (h : s.mayIssue i) (htg : sameTargets tg) {c : FClass} {d : Dword}
    (hc : checkWords s.cur isHeader id (s.targets x tg) (s.begun i) = .inl (.fault c d)) : faultsWith s i c d :=
  faults_of s i _ c d h he (callBody_unchecked h htg hc)

/-- A target that is not aligned, or whose word is no header, is CLAUSE (R163, R189). -/
theorem call_target_faults (he : exec i s = .next (s.issue i (callBody x tg))) (h : s.mayIssue i) (htg : sameTargets tg)
    {a : Nat} {r : List Nat} (hts : s.targets x tg = a :: r)
    (hbad : a % 8 ≠ 0 ∨ ∃ s1 hd, (s.begun i).fetchWave s.cur a = .ok s1 hd ∧ isHeader hd = false) :
    faultsWith s i .clause (BitVec.ofNat 64 a) := by
  refine call_faults he h htg ?_
  rw [hts]
  rcases hbad with hodd | ⟨s1, hd, hf, hx⟩
  · exact checkWords_misaligned _ _ _ _ _ _ hodd
  · exact checkWords_refused _ _ _ _ _ _ _ _ hf hx

section
variable {s1 : State} {hs : List Dword}

theorem call_func_faults (he : exec i s = .next (s.issue i (callBody x tg))) (h : s.mayIssue i) (htg : sameTargets tg)
    (hc : checkWords s.cur isHeader id (s.targets x tg) (s.begun i) = .inr (s1, hs)) {c : FClass} {d : Dword}
    (hf : checkFuncs s.cur (s.targets x tg) s1 = .inl (.fault c d)) : faultsWith s i c d := by
  refine faults_of s i _ c d h he ?_
  rw [callBody_checked h htg hc, hf]

/-- A target without a function word before it is CLAUSE (R187, R189). -/
theorem call_no_func_faults (he : exec i s = .next (s.issue i (callBody x tg))) (h : s.mayIssue i) (htg : sameTargets tg)
    (hc : checkWords s.cur isHeader id (s.targets x tg) (s.begun i) = .inr (s1, hs)) {a : Nat} {r : List Nat} {s2 : State} {f : Dword}
    (hts : s.targets x tg = a :: r) (hf : s1.fetchWave s.cur (beforeTarget a) = .ok s2 f)
    (hno : funcWord f = none) : faultsWith s i .clause (BitVec.ofNat 64 (beforeTarget a + 8)) := by
  refine call_func_faults he h htg hc ?_
  rw [hts, checkFuncs, List.map_cons]
  exact checkWords_refused _ _ _ _ _ _ _ _ hf (by rw [hno]; rfl)

variable {s2 : State} {fs : List Dword}

/-- BUDGET names the lowest target whose function word asks for too much (R53). -/
theorem call_budget_faults (he : exec i s = .next (s.issue i (callBody x tg))) (h : s.mayIssue i) (htg : sameTargets tg)
    (hc : checkWords s.cur isHeader id (s.targets x tg) (s.begun i) = .inr (s1, hs))
    (hf : checkFuncs s.cur (s.targets x tg) s1 = .inr (s2, fs)) {pre post : List (Nat × Dword)} {a : Nat} {f : Dword}
    (hzip : (s.targets x tg).zip fs = pre ++ (a, f) :: post)
    (hpre : ∀ p ∈ pre, 8 * ((funcWord p.2).getD 0 + 1) ≤ (s.wave s.cur).allot)
    (hbad : ¬8 * ((funcWord f).getD 0 + 1) ≤ (s.wave s.cur).allot) : faultsWith s i .budget (BitVec.ofNat 64 (a - 8)) := by
  have hfind : ((s.targets x tg).zip fs).find? (overBudget (s.wave s.cur).allot) = some (a, f) := by
    rw [List.find?_eq_some_iff_append]
    refine ⟨by simpa [overBudget] using hbad, pre, post, hzip, fun p hp => ?_⟩
    simpa [overBudget] using hpre p hp
  refine faults_of s i _ _ _ h he ?_
  rw [callBody_checked h htg hc, hf]
  dsimp only
  rw [hfind]

theorem find_overBudget {ts : List Nat} {allot : Nat} (hfit : ∀ a f, (a, f) ∈ ts.zip fs → 8 * ((funcWord f).getD 0 + 1) ≤ allot) :
    (ts.zip fs).find? (overBudget allot) = none := by
  rw [List.find?_eq_none]
  intro p hp
  simpa [overBudget] using hfit p.1 p.2 hp

/-- A ninth record is ILLEGAL (R187). -/
theorem call_ninth_faults (he : exec i s = .next (s.issue i (callBody x tg))) (h : s.mayIssue i) (htg : sameTargets tg)
    (hc : checkWords s.cur isHeader id (s.targets x tg) (s.begun i) = .inr (s1, hs))
    (hf : checkFuncs s.cur (s.targets x tg) s1 = .inr (s2, fs))
    (hfit : ∀ a f, (a, f) ∈ (s.targets x tg).zip fs → 8 * ((funcWord f).getD 0 + 1) ≤ (s.wave s.cur).allot)
    (hdiv : (s.wave s.cur).diverges x (s.targets x tg).length = true) (hfull : 8 ≤ (s.wave s.cur).calls.length) :
    faultsWith s i .illegal 0 := by
  refine faults_of s i _ _ _ h he ?_
  rw [callBody_checked h htg hc, hf]
  dsimp only
  rw [find_overBudget hfit]
  dsimp only
  rw [if_pos (by simp [hdiv, hfull])]

theorem call_runs (he : exec i s = .next (s.issue i (callBody x tg))) (h : s.mayIssue i) (htg : sameTargets tg)
    (hc : checkWords s.cur isHeader id (s.targets x tg) (s.begun i) = .inr (s1, hs))
    (hf : checkFuncs s.cur (s.targets x tg) s1 = .inr (s2, fs))
    (hfit : ∀ a f, (a, f) ∈ (s.targets x tg).zip fs → 8 * ((funcWord f).getD 0 + 1) ≤ (s.wave s.cur).allot)
    (hroom : (s.wave s.cur).diverges x (s.targets x tg).length = true → (s.wave s.cur).calls.length < 8) :
    runsTo s i ((s2.hintMiss s.cur x (s.wave s.cur).group ((s.wave s.cur).meets x) (s.targets x tg).length).modWave s.cur fun u =>
        (s.wave s.cur).called u x (tg (s.wave s.cur)) (s.targets x tg))
      [resS (bfLink x) 2 ((s.wave s.cur).meets x) ((s.wave s.cur).pc + 8)] .leave := by
  refine runs_of s _ i _ _ .leave h he ?_
    (fetched_sound h (((hintMiss_wave _ _ _ _ _ _ _).trans ((MemSide.checkWords hf).wave _)).trans (checked_wave hc))
      fun u => called_banks _ u x _ _)
  rw [callBody_checked h htg hc, hf]
  dsimp only
  rw [find_overBudget hfit]
  dsimp only
  rw [if_neg]
  simp only [Bool.and_eq_true, decide_eq_true_eq, not_and, Nat.not_le]
  exact hroom

end

theorem diverges_iff (w : Wave) (x : BF) (n : Nat) :
    w.diverges x n = true ↔ w.meets x ≠ 0 ∧ (w.meets x ≠ w.group ∨ 1 < n) := by
  simp [Wave.diverges]

end

/-- The clauses of a call for one rule of targets (R187, R189). -/
theorem call_clauses (s : State) (i : Instr) (x : BF) (tg : Wave → Fin 32 → Dword) (he : exec i s = .next (s.issue i (callBody x tg)))
    (htg : sameTargets tg) :
    let k := s.cur
    let w := s.wave k
    let meet := w.group &&& w.pred x.pr x.pn
    let ts := targetsOf meet (tg w)
    let divergent : Prop := meet ≠ 0 ∧ (meet ≠ w.group ∨ 1 < ts.length)
    let before (a : Nat) : Nat := (a + 2 ^ 64 - 8) % 2 ^ 64
    let checkFunc := checkWords k (fun f => (funcWord f).isSome) (· + 8) (ts.map before)
    let fits (f : Dword) : Prop := 8 * ((funcWord f).getD 0 + 1) ≤ w.allot
    (s.mayIssue i → ∀ a r, ts = a :: r →
      (a % 8 ≠ 0 ∨ ∃ s1 h, (s.begun i).fetchWave k a = .ok s1 h ∧ isHeader h = false) →
      faultsWith s i .clause (BitVec.ofNat 64 a)) ∧
    (s.mayIssue i → ∀ c d, checkWords k isHeader id ts (s.begun i) = .inl (.fault c d) → faultsWith s i c d) ∧
    ∀ s1 hs, s.mayIssue i → checkWords k isHeader id ts (s.begun i) = .inr (s1, hs) →
      (∀ a r s2 f, ts = a :: r → before a % 8 = 0 → s1.fetchWave k (before a) = .ok s2 f → funcWord f = none →
        faultsWith s i .clause (BitVec.ofNat 64 (before a + 8))) ∧
      (∀ c d, checkFunc s1 = .inl (.fault c d) → faultsWith s i c d) ∧
      ∀ s2 fs, checkFunc s1 = .inr (s2, fs) →
      (∀ pre a f post, ts.zip fs = pre ++ (a, f) :: post → (∀ p ∈ pre, fits p.2) → ¬fits f →
        faultsWith s i .budget (BitVec.ofNat 64 (a - 8))) ∧
      ((∀ a f, (a, f) ∈ ts.zip fs → fits f) →
      (divergent → 8 ≤ w.calls.length → faultsWith s i .illegal 0) ∧
      (divergent → w.calls.length < 8 →
        runsTo s i ((s2.hintMiss k x w.group meet ts.length).modWave k fun u =>
          let u := (u.enrol x).moveLanes meet (tg w) (w.pc + 8)
          let first := u.lanesAt meet (ts.headD 0)
          { u with calls := { ret := w.pc + 8, held := w.group &&& ~~~meet, running := first, waiting := meet &&& ~~~first } :: u.calls })
          [resS (bfLink x) 2 meet (w.pc + 8)] .leave) ∧
      (¬divergent →
        runsTo s i ((s2.hintMiss k x w.group meet ts.length).modWave k fun u => (u.enrol x).moveLanes meet (tg w) (w.pc + 8))
          [resS (bfLink x) 2 meet (w.pc + 8)] .leave)) := by
  intro k w meet ts divergent before checkFunc fits
  refine ⟨fun h a r hts hbad => call_target_faults he h htg hts hbad, fun h c d hc => call_faults he h htg hc,
    fun s1 hs h hc => ⟨fun a r s2 f hts _ hf hno => call_no_func_faults he h htg hc hts hf hno,
      fun c d hf => call_func_faults he h htg hc hf, fun s2 fs hf =>
        ⟨fun pre a f post hzip hpre hbad => call_budget_faults he h htg hc hf hzip hpre hbad, fun hfit => ⟨fun hdiv hfull => ?_, fun hdiv hroom => ?_,
          fun hnot => ?_⟩⟩⟩⟩
  · exact call_ninth_faults he h htg hc hf hfit ((diverges_iff w x ts.length).mpr hdiv) hfull
  · have hd : w.diverges x ts.length = true := (diverges_iff w x ts.length).mpr hdiv
    have hrun := call_runs he h htg hc hf hfit fun _ => hroom
    have hgo : (fun u => w.called u x (tg w) ts) = fun u : Wave =>
        let u := (u.enrol x).moveLanes meet (tg w) (w.pc + 8)
        let first := u.lanesAt meet (ts.headD 0)
        { u with calls := { ret := w.pc + 8, held := w.group &&& ~~~meet, running := first, waiting := meet &&& ~~~first } :: u.calls } := by
      funext u
      exact if_pos hd
    rw [← hgo]
    exact hrun
  · have hd : ¬w.diverges x ts.length = true := fun hd => hnot ((diverges_iff w x ts.length).mp hd)
    have hrun := call_runs he h htg hc hf hfit fun hd' => absurd hd' hd
    have hgo : (fun u => w.called u x (tg w) ts) = fun u : Wave => (u.enrol x).moveLanes meet (tg w) (w.pc + 8) := by
      funext u
      exact if_neg hd
    rw [← hgo]
    exact hrun

-- RET.

theorem joinHeld_banks (w : Wave) (meet : LaneMask) (target : Nat) : (w.joinHeld meet target).banks = w.banks := by
  unfold Wave.joinHeld
  split
  · split <;> rfl
  · rfl

section
variable {s : State} {x : BF}

theorem readWave_link (h : s.mayIssue (.ret x)) :
    (s.readWave (.ret x)).rsn (bfLink x) 2 = (s.wave s.cur).rsn (bfLink x) 2 := readWave_rsn s _ h _ _

theorem ret_faults (h : s.mayIssue (.ret x)) {c : FClass} {d : Dword}
    (hc : checkWords s.cur isHeader id (targetsOf ((s.wave s.cur).meets x) fun _ => BitVec.ofNat 64 ((s.wave s.cur).rsn (bfLink x) 2))
      (s.begun (.ret x)) = .inl (.fault c d)) : faultsWith s (.ret x) c d := by
  obtain ⟨hgroup, hmeets, hpc, -⟩ := readWave_transfer h x (offTarget_same x)
  refine faults_of s (.ret x) _ c d h rfl ?_
  rw [retBody, hmeets, readWave_link h, hc]

theorem ret_runs (h : s.mayIssue (.ret x)) {s1 : State} {hs : List Dword}
    (hc : checkWords s.cur isHeader id (targetsOf ((s.wave s.cur).meets x) fun _ => BitVec.ofNat 64 ((s.wave s.cur).rsn (bfLink x) 2))
      (s.begun (.ret x)) = .inr (s1, hs)) :
    runsTo s (.ret x) ((s1.hintMiss s.cur x (s.wave s.cur).group ((s.wave s.cur).meets x) 1).modWave s.cur fun u =>
      (u.moveLanes ((s.wave s.cur).meets x) (fun _ => BitVec.ofNat 64 ((s.wave s.cur).rsn (bfLink x) 2)) ((s.wave s.cur).pc + 8)).joinHeld
        ((s.wave s.cur).meets x) (BitVec.ofNat 64 ((s.wave s.cur).rsn (bfLink x) 2)).toNat) [] .leave := by
  obtain ⟨hgroup, hmeets, hpc, -⟩ := readWave_transfer h x (offTarget_same x)
  have hwave : (s1.hintMiss s.cur x (s.wave s.cur).group ((s.wave s.cur).meets x) 1).wave s.cur = s.readWave (.ret x) := by
    rw [hintMiss_wave, checked_wave hc]
  refine runs_of s _ (.ret x) _ [] .leave h rfl ?_ (fetched_sound h hwave fun w => by rw [joinHeld_banks, moveLanes_banks])
  rw [retBody, hgroup, hmeets, readWave_link h, hc]
  dsimp only
  refine done_modWave_congr _ s.cur _ _ _ _ ?_
  rw [hwave, hpc]

end

/-- Settles O25: the two calls by the rule of their targets, then the return. -/
theorem callsAndReturns : Obligations.CallsAndReturns := by
  unfold Obligations.CallsAndReturns
  refine ⟨fun s x pair => ?_, fun s x => ⟨fun h c d hc => ret_faults h hc, fun s1 hs h hc => ret_runs h hc⟩⟩
  cases pair with
  | false => exact call_clauses s (.call x) x (offTarget x) rfl (offTarget_same x)
  | true => exact call_clauses s (.callx x) x (pairTarget x) rfl (pairTarget_same x)

-- EXIT.

theorem judge_frame (w : Wave) (n : Nat) : ∃ p j, w.judge n = { w with jpark := p, jlast := j } := by
  unfold Wave.judge
  dsimp only
  split
  · exact ⟨_, _, rfl⟩
  · exact ⟨w.jpark, w.jlast, rfl⟩

theorem judgeAll_frame (w : Wave) : ∃ p j, w.judgeAll = { w with jpark := p, jlast := j } := by
  unfold Wave.judgeAll
  generalize List.range 8 = ns
  induction ns generalizing w with
  | nil => exact ⟨w.jpark, w.jlast, rfl⟩
  | cons n r ih =>
    obtain ⟨p, j, h⟩ := judge_frame w n
    obtain ⟨p', j', h'⟩ := ih (w.judge n)
    exact ⟨p', j', by rw [List.foldl_cons, h', h]⟩

/-- The lanes that meet EXIT, the live ones among them exited. -/
def Wave.exitMet (w : Wave) (meet : LaneMask) : Wave :=
  { w with lst := Vector.ofFn fun l => if inMask meet l && w.lst[l] == LaneState.live then .exited else w.lst[l],
           jpark := Vector.ofFn fun l => if inMask meet l && w.lst[l] == LaneState.helper then some atExit else w.jpark[l] }

theorem exitHelpers_lst (w : Wave) (l : Fin 32) :
    w.exitHelpers.lst[l] = w.lst[l] ∨ w.lst[l] = .helper ∧ w.exitHelpers.lst[l] = .exited := by
  simp only [Wave.exitHelpers, Fin.getElem_fin, Vector.getElem_ofFn]
  split
  case isTrue h =>
    obtain ⟨hhelper, -⟩ := (Bool.and_eq_true _ _).mp h
    exact .inr ⟨eq_of_beq hhelper, rfl⟩
  case isFalse => exact .inl rfl

theorem exitMet_lst (w : Wave) (meet : LaneMask) (l : Fin 32) :
    (w.exitMet meet).lst[l] = if inMask meet l = true ∧ w.lst[l] = .live then .exited else w.lst[l] := by
  simp [Wave.exitMet]

/-- EXIT changes lane states and rejoin parks, and nothing else of its wave (R12, R192). -/
theorem exitLanes_frame (w : Wave) (meet : LaneMask) :
    ∃ p j, w.exitLanes meet = { w with lst := (w.exitMet meet).exitHelpers.lst, jpark := p, jlast := j } := by
  obtain ⟨p, j, h⟩ := judgeAll_frame (w.exitMet meet).exitHelpers
  refine ⟨p, j, ?_⟩
  have hjudged : w.exitLanes meet = (w.exitMet meet).exitHelpers.judgeAll := by
    unfold Wave.exitLanes Wave.exitMet
    rfl
  rw [hjudged, h]
  unfold Wave.exitHelpers Wave.exitMet
  rfl

/-- Where a word that has set every LPC itself leaves its wave (R161). -/
theorem retired_leave (w : Wave) (i : Instr) (res : List Res) :
    (w.retired i res .leave).lpc = w.lpc ∧ (w.retired i res .leave).clause = none ∧ (w.retired i res .leave).group = 0 ∧
      (w.retired i res .leave).lst = w.lst := by
  have hregs : w.onlyRegs ((w.used i).took i res) := (used_onlyRegs w i).trans (took_onlyRegs (w.used i) i res)
  refine ⟨?_, rfl, rfl, ?_⟩
  · have : ((w.used i).took i res).lpc = w.lpc := by rw [hregs]; rfl
    exact this
  · have : ((w.used i).took i res).lst = w.lst := by rw [hregs]; rfl
    exact this

/-- The wave of EXIT, its lanes moved and exited. -/
def Wave.exiting (w : Wave) (meet : LaneMask) (ret : Nat) : Wave := (w.moveLanes 0 (fun _ => 0) ret).exitLanes meet

theorem exiting_banks (w : Wave) (meet : LaneMask) (ret : Nat) : (w.exiting meet ret).banks = w.banks := by
  obtain ⟨p, j, h⟩ := exitLanes_frame (w.moveLanes 0 (fun _ => 0) ret) meet
  rw [Wave.exiting, h]
  dsimp only
  rw [moveLanes_banks]

theorem exiting_lpc (w : Wave) (meet : LaneMask) (ret : Nat) (l : Fin 32) (hl : inMask w.group l = true) :
    (w.exiting meet ret).lpc[l] = BitVec.ofNat 64 ret := by
  obtain ⟨p, j, h⟩ := exitLanes_frame (w.moveLanes 0 (fun _ => 0) ret) meet
  have hnone : inMask 0#32 l = false := by simp [inMask]
  rw [Wave.exiting, h]
  simp [Wave.moveLanes, hl, hnone]

/-- The lane states that EXIT leaves (R12, R192). -/
theorem exiting_lst (w : Wave) (meet : LaneMask) (ret : Nat) (l : Fin 32) :
    (inMask meet l = true → w.lst[l] = .live → (w.exiting meet ret).lst[l] = .exited) ∧
      ((w.exiting meet ret).lst[l] = w.lst[l] ∨ (w.exiting meet ret).lst[l] = .exited) ∧
      ((w.exiting meet ret).lst[l] = .exited → w.lst[l] ≠ .exited →
        w.lst[l] = .live ∧ inMask meet l = true ∨ w.lst[l] = .helper) := by
  obtain ⟨p, j, h⟩ := exitLanes_frame (w.moveLanes 0 (fun _ => 0) ret) meet
  have hlst : (w.exiting meet ret).lst = ((w.moveLanes 0 (fun _ => 0) ret).exitMet meet).exitHelpers.lst := by
    rw [Wave.exiting, h]
  have hmoved : (w.moveLanes 0 (fun _ => 0) ret).lst = w.lst := by
    unfold Wave.moveLanes
    rfl
  have hmet := exitMet_lst (w.moveLanes 0 (fun _ => 0) ret) meet l
  have hhelp := exitHelpers_lst ((w.moveLanes 0 (fun _ => 0) ret).exitMet meet) l
  rw [hmoved] at hmet
  rw [hlst]
  by_cases hexit : inMask meet l = true ∧ w.lst[l] = .live
  · rw [if_pos hexit] at hmet
    rw [hmet] at hhelp
    rcases hhelp with hsame | ⟨hbad, -⟩
    · exact ⟨fun _ _ => hsame, .inr hsame, fun _ _ => .inl ⟨hexit.2, hexit.1⟩⟩
    · exact absurd hbad (by decide)
  · rw [if_neg hexit] at hmet
    rw [hmet] at hhelp
    refine ⟨fun hm hl => absurd ⟨hm, hl⟩ hexit, ?_⟩
    rcases hhelp with hsame | ⟨hhelper, hgone⟩
    · exact ⟨.inl hsame, fun hx hne => absurd (hsame.symm.trans hx) hne⟩
    · exact ⟨.inr hgone, fun _ _ => .inr hhelper⟩

section
variable {s : State} {x : BF}

/-- The state in which the body of EXIT leaves the hint counted and the lanes exited. -/
def State.exitedState (s : State) (x : BF) : State :=
  ((s.begun (.exit x)).hintMiss s.cur x (s.wave s.cur).group ((s.wave s.cur).meets x) 1).modWave s.cur fun u =>
    u.exiting ((s.wave s.cur).meets x) ((s.wave s.cur).pc + 8)

theorem exit_hint_wave (s : State) (x : BF) :
    ((s.begun (.exit x)).hintMiss s.cur x (s.wave s.cur).group ((s.wave s.cur).meets x) 1).wave s.cur = s.readWave (.exit x) := by
  rw [hintMiss_wave, begun_wave]

theorem exit_issue (h : s.mayIssue (.exit x)) :
    s.issue (.exit x) (exitBody x) = (s.exitedState x).retire s.cur (.exit x) [] .leave := by
  obtain ⟨hgroup, hmeets, hpc, -⟩ := readWave_transfer h x (offTarget_same x)
  refine issue_run s _ (.exit x) (exitBody x) [] .leave h ?_
    (fetched_sound h (exit_hint_wave s x) fun u => exiting_banks u _ _)
  have hbegun : s.setWave s.cur (s.readWave (.exit x)) = s.begun (.exit x) := rfl
  rw [hbegun, exitBody, hgroup, hmeets]
  refine done_modWave_congr _ s.cur _ _ _ _ ?_
  rw [exit_hint_wave, hpc]
  rfl

/-- The wave that EXIT leaves. -/
theorem exit_wave (s : State) (x : BF) : ((s.exitedState x).retire s.cur (.exit x) [] .leave).wave s.cur =
    ((s.readWave (.exit x)).exiting ((s.wave s.cur).meets x) ((s.wave s.cur).pc + 8)).retired (.exit x) [] .leave := by
  obtain ⟨-, hwave, -⟩ := retire_counts (s.exitedState x) s.cur (.exit x) [] .leave
  have hk : (s.exitedState x).wave s.cur = (s.readWave (.exit x)).exiting ((s.wave s.cur).meets x) ((s.wave s.cur).pc + 8) := by
    rw [State.exitedState, State.modWave_wave, if_pos rfl, exit_hint_wave]
  rw [hwave s.cur, if_pos rfl, hk]

end

/-- Settles O26. -/
theorem exit : Obligations.Exit := by
  unfold Obligations.Exit
  intro s x h k w meet
  obtain ⟨bk, hread, -⟩ := readWave_spec s (.exit x) h
  obtain ⟨hlpc, hclause, hgroup, hlst⟩ := retired_leave ((s.readWave (.exit x)).exiting meet (w.pc + 8)) (.exit x) []
  have hstates := exiting_lst (s.readWave (.exit x)) meet (w.pc + 8)
  have hplace := exiting_lpc (s.readWave (.exit x)) meet (w.pc + 8)
  have hwlst : (s.readWave (.exit x)).lst = w.lst := by rw [hread]
  have hwgroup : (s.readWave (.exit x)).group = w.group := by rw [hread]
  rw [hwlst] at hstates
  rw [hwgroup] at hplace
  refine ⟨(s.exitedState x).retire k (.exit x) [] .leave, congrArg (fun t : State => Host.Outcome.next (t.waveExit k)) (exit_issue h), rfl, ?_⟩
  rw [exit_wave s x]
  rw [← hlst] at hstates
  rw [← hlpc] at hplace
  refine ⟨fun l => (hstates l).1, fun l => (hstates l).2.1, fun l => (hstates l).2.2, hplace, hclause, hgroup, fun hne => ?_⟩
  exact if_pos (by rw [exit_wave s x]; exact hne)

end Sys2Proof.Machine
end


section
/-! Weirs, cluster barriers, the schedule cursor and the register pool: what the bodies of their words answer. -/

namespace Sys2Proof.Machine

/-- A body that does not look at the banks of its wave answers as for the wave in focus. -/
theorem body_begun (s : State) (i : Instr) (body : State → Key → Wave → Eff) (h : s.mayIssue i)
    (hb : ∀ bk, body (s.begun i) s.cur { s.wave s.cur with banks := bk } = body (s.begun i) s.cur (s.wave s.cur)) :
    body (s.begun i) s.cur (s.readWave i) = body (s.begun i) s.cur (s.wave s.cur) := by
  obtain ⟨bk, hread, -⟩ := readWave_spec s i h
  rw [hread]
  exact hb bk

/-- A word whose body holds it changes nothing. -/
theorem holds_of (s : State) (i : Instr) (body : State → Key → Wave → Eff) (h : s.mayIssue i) (he : exec i s = .next (s.issue i body))
    (hb : body (s.begun i) s.cur (s.readWave i) = .hold) : exec i s = .next s := by
  obtain ⟨h1, h2, h3, h4⟩ := h
  obtain ⟨bk, hw, -⟩ := wake_spec (s.wave s.cur) (banksOf (opdsOf i) fun o => o.reads) h4
  have hread : s.readWave i = { s.wave s.cur with banks := bk } := by simp [State.readWave, hw]
  have hbegun : s.setWave s.cur { s.wave s.cur with banks := bk } = s.begun i := by rw [State.begun, hread]
  rw [hread] at hb
  simp [he, State.issue, h1, h2, h3, hw, hbegun, hb]

-- Arrivals at a weir (R194).

/-- No held access, and no path fence towards MATRIX, stands in the way of an arrival (R117, R254). -/
def Wave.openToMatrix (w : Wave) : Prop := w.held = [] ∧ ∀ f ∈ w.fences, f.1 ≠ 2

/-- The state once wave k has arrived at weir n of its crew. -/
def State.weirArrived (s : State) (k : Key) (n : Nat) : State :=
  let y := (s.crew (crewOf k)).weir n
  ((s.modCrew (crewOf k) fun z => { z with weirs := tset z.weirs n y.arrive }).waveReleases k).modWave k fun w =>
    { w with weirLast := tset w.weirLast n y.p }

section
variable {s : State} {k : Key} {w : Wave} {x : IF} {sync : Bool}

theorem openToMatrix_iff : w.openToMatrix ↔ ¬(decide (w.held ≠ []) || w.fences.any fun f => f.1 == 2) = true := by
  simp only [Wave.openToMatrix, Bool.or_eq_true, decide_eq_true_eq, List.any_eq_true, beq_iff_eq, not_or, not_not, not_exists,
    not_and, ne_eq]

theorem openToMatrix_miss (hopen : w.openToMatrix) : ¬w.missHeld = true := by
  rw [Wave.missHeld, hopen.1]
  exact Bool.false_ne_true

theorem arriveBody_miss (hmiss : w.missHeld = true) : arriveBody sync x s k w = .park s .miss := if_pos hmiss

theorem arriveBody_hold (hmiss : w.missHeld = false) (hopen : ¬w.openToMatrix) : arriveBody sync x s k w = .hold := by
  rw [arriveBody, hmiss]
  exact (if_neg Bool.false_ne_true).trans (if_pos (by_contra fun h => hopen (openToMatrix_iff.mpr h)))

theorem arriveBody_wrong (hopen : w.openToMatrix) (hcount : weirCount x ≠ ((s.crew (crewOf k)).weir (weirNo x)).armed) :
    arriveBody sync x s k w =
      .fault .weircount (weirDet (weirNo x) ((s.crew (crewOf k)).weir (weirNo x)).armed (weirCount x)) := by
  rw [arriveBody, if_neg (openToMatrix_miss hopen), if_neg (openToMatrix_iff.mp hopen), State.arrive]
  rw [if_pos hcount]

theorem weirArrived_phase (s : State) (k : Key) (n : Nat) :
    decide ((((s.weirArrived k n).crew (crewOf k)).weir n).p = ((s.crew (crewOf k)).weir n).p) =
      decide (((s.crew (crewOf k)).weir n).a + 1 ≠ ((s.crew (crewOf k)).weir n).armed) := by
  have hcrew : (((s.weirArrived k n).crew (crewOf k)).weir n) = ((s.crew (crewOf k)).weir n).arrive := by
    rw [State.weirArrived, State.modWave_crew, (MemSide.waveReleases _ k).crew, State.modCrew_crew, if_pos rfl]
    exact tget_tset_same _ _ _ _
  rw [hcrew, Weir.arrive]
  split
  case isTrue hlast =>
    simp [hlast]
  case isFalse hlast => simp [hlast]

/-- An arrival with the right count parks a WEIRSYNC unless it is the last of its phase. -/
theorem arriveBody_counted (hopen : w.openToMatrix) (hcount : weirCount x = ((s.crew (crewOf k)).weir (weirNo x)).armed) :
    arriveBody sync x s k w =
      if sync = true ∧ ((s.crew (crewOf k)).weir (weirNo x)).a + 1 ≠ ((s.crew (crewOf k)).weir (weirNo x)).armed then
        .wait (s.weirArrived k (weirNo x)) (.weir (weirNo x) ((s.crew (crewOf k)).weir (weirNo x)).p true) []
      else .done (s.weirArrived k (weirNo x)) [] := by
  rw [arriveBody, if_neg (openToMatrix_miss hopen), if_neg (openToMatrix_iff.mp hopen), State.arrive]
  rw [if_neg (not_not_intro hcount)]
  refine if_congr ?_ rfl rfl
  rw [Bool.and_eq_true]
  refine and_congr Iff.rfl ?_
  rw [← decide_eq_true_eq (p := _ + 1 ≠ _)]
  exact Bool.eq_iff_iff.mp (weirArrived_phase s k (weirNo x))

end

-- The words of the weirs.

section
variable {s : State} {x : IF} {i : Instr}

theorem arriveBody_begun (sync : Bool) (h : s.mayIssue i) :
    arriveBody sync x (s.begun i) s.cur (s.readWave i) = arriveBody sync x (s.begun i) s.cur (s.wave s.cur) :=
  body_begun s i (arriveBody sync x) h fun _ => rfl

theorem weirArrived_sound (h : s.mayIssue i) (n : Nat) : (((s.begun i).weirArrived s.cur n).wave s.cur).sound := by
  rw [State.weirArrived, State.modWave_wave, if_pos rfl, (MemSide.waveReleases _ s.cur).wave, State.modCrew_wave, begun_wave]
  exact sound_of_banks _ _ (readWave_sound s i h) rfl

/-- What an arrival word does (R194), `sync` where it is WEIRSYNC. -/
theorem arrival_word (sync : Bool) (he : exec i s = .next (s.issue i (waveLevel x.pr x.pn (arriveBody sync x))))
    (hp : (lkOf i).pr = x.pr) (hn : (lkOf i).pn = x.pn) (h : s.mayIssue i) (hact : s.actOf i ≠ 0) :
    let y := (s.crew (crewOf s.cur)).weir (weirNo x)
    ((s.wave s.cur).missHeld = true → parksAt s i (s.begun i) .miss) ∧
    ((s.wave s.cur).missHeld = false → ¬(s.wave s.cur).openToMatrix → exec i s = .next s) ∧
    ((s.wave s.cur).openToMatrix → weirCount x ≠ y.armed → faultsWith s i .weircount (weirDet (weirNo x) y.armed (weirCount x))) ∧
    ((s.wave s.cur).openToMatrix → weirCount x = y.armed → ¬(sync = true ∧ y.a + 1 ≠ y.armed) →
      runsTo s i ((s.begun i).weirArrived s.cur (weirNo x)) []) ∧
    ((s.wave s.cur).openToMatrix → weirCount x = y.armed → sync = true → y.a + 1 ≠ y.armed →
      issuesAndParks s i ((s.begun i).weirArrived s.cur (weirNo x)) (.weir (weirNo x) y.p true) []) := by
  intro y
  have hbody := (waveLevel_some s i x.pr x.pn (arriveBody sync x) h hp hn hact).trans (arriveBody_begun sync h)
  refine ⟨fun hm => ?_, fun hm ho => ?_, fun ho hc => ?_, fun ho hc hs => ?_, fun ho hc hs ha => ?_⟩
  · exact parks_of s _ i _ _ h he (hbody.trans (arriveBody_miss hm))
  · exact holds_of s i _ h he (hbody.trans (arriveBody_hold hm ho))
  · exact faults_of s i _ _ _ h he (hbody.trans (arriveBody_wrong ho hc))
  · exact runs_of s _ i _ [] .step h he (hbody.trans ((arriveBody_counted (s := s.begun i) (k := s.cur) ho hc).trans (if_neg hs))) (weirArrived_sound h _)
  · exact waits_of s _ i _ _ [] h he (hbody.trans ((arriveBody_counted (s := s.begun i) (k := s.cur) ho hc).trans (if_pos ⟨hs, ha⟩)))

theorem begun_sound (h : s.mayIssue i) : ((s.begun i).wave s.cur).sound := by
  rw [begun_wave]
  exact readWave_sound s i h

theorem weirset_word (h : s.mayIssue (.weirset x)) (hact : s.actOf (.weirset x) ≠ 0) :
    let y := (s.crew (crewOf s.cur)).weir (weirNo x)
    (y.a = 0 → runsTo s (.weirset x) ((s.begun (.weirset x)).modCrew (crewOf s.cur) fun z =>
      { z with weirs := tset z.weirs (weirNo x) { y with armed := weirCount x } }) []) ∧
    (y.a ≠ 0 → weirCount x = y.armed → runsTo s (.weirset x) (s.begun (.weirset x)) []) ∧
    (y.a ≠ 0 → weirCount x ≠ y.armed → faultsWith s (.weirset x) .weircount (weirDet (weirNo x) y.armed (weirCount x))) := by
  intro y
  have hbody := waveLevel_some s (.weirset x) x.pr x.pn (weirsetBody x) h rfl rfl hact
  refine ⟨fun ha => ?_, fun ha hc => ?_, fun ha hc => ?_⟩
  · exact runs_of s _ _ _ [] .step h rfl (hbody.trans (if_pos ha)) (begun_sound h)
  · exact runs_of s _ _ _ [] .step h rfl (hbody.trans ((if_neg ha).trans (if_pos hc))) (begun_sound h)
  · exact faults_of s _ _ _ _ h rfl (hbody.trans ((if_neg ha).trans (if_neg hc)))

theorem weirwait_word (h : s.mayIssue (.weirwait x)) (hact : s.actOf (.weirwait x) ≠ 0) :
    let y := (s.crew (crewOf s.cur)).weir (weirNo x)
    let ph := (tfind (s.wave s.cur).weirLast (weirNo x)).getD y.p
    (y.p ≠ ph → runsTo s (.weirwait x) (s.begun (.weirwait x)) []) ∧
    (y.p = ph → issuesAndParks s (.weirwait x) (s.begun (.weirwait x)) (.weir (weirNo x) ph false) []) := by
  intro y ph
  have hbody := (waveLevel_some s (.weirwait x) x.pr x.pn (weirwaitBody x) h rfl rfl hact).trans
    (body_begun s (.weirwait x) (weirwaitBody x) h fun _ => rfl)
  refine ⟨fun hp => ?_, fun hp => ?_⟩
  · exact runs_of s _ _ _ [] .step h rfl (hbody.trans (if_neg hp)) (begun_sound h)
  · exact waits_of s _ _ _ _ [] h rfl (hbody.trans (if_pos hp))

/-- A word of the weirs in no lane only retires (R185). -/
theorem weir_none (hi : i = .weirset x ∨ i = .weirarv x ∨ i = .weirsync x ∨ i = .weirwait x) (h : s.mayIssue i) (hact : s.actOf i = 0) :
    runsTo s i (s.begun i) [] := by
  rcases hi with rfl | rfl | rfl | rfl
  · exact waveLevel_none s _ x.pr x.pn _ h rfl rfl rfl hact
  · exact waveLevel_none s _ x.pr x.pn _ h rfl rfl rfl hact
  · exact waveLevel_none s _ x.pr x.pn _ h rfl rfl rfl hact
  · exact waveLevel_none s _ x.pr x.pn _ h rfl rfl rfl hact

-- The cluster barriers (R195).

/-- The state once wave k is counted in at barrier n of its cluster launch. -/
def State.barrierArrived (s : State) (k : Key) (n : Nat) : State :=
  let b := s.cbar k n
  (((s.modCrew (s.unitHead (crewOf k)) fun c => { c with cbars := tset c.cbars n { b with arrived := b.arrived ++ [k] } }).waveReleases
    k).modWave k fun w => { w with cbLast := tset w.cbLast n b.p }).barrierCheck (crewOf k) n

theorem barrierCheck_wave (s : State) (c : Key) (n : Nat) (q : Key) : (s.barrierCheck c n).wave q = s.wave q := by
  unfold State.barrierCheck
  dsimp only
  split
  · exact State.modCrew_wave _ _ _ q
  · rfl

theorem barrierArrived_sound (h : s.mayIssue i) (n : Nat) : (((s.begun i).barrierArrived s.cur n).wave s.cur).sound := by
  rw [State.barrierArrived, barrierCheck_wave, State.modWave_wave, if_pos rfl, (MemSide.waveReleases _ s.cur).wave, State.modCrew_wave,
    begun_wave]
  exact sound_of_banks _ _ (readWave_sound s i h) rfl

theorem begun_cbar (s : State) (i : Instr) (k : Key) (n : Nat) : (s.begun i).cbar k n = s.cbar k n := rfl
theorem begun_unitHead (s : State) (i : Instr) (c : Key) : (s.begun i).unitHead c = s.unitHead c := rfl

theorem cbarv_word (h : s.mayIssue (.cbarv x)) (hact : s.actOf (.cbarv x) ≠ 0) :
    let b := s.cbar s.cur (barNo x)
    ((s.wave s.cur).missHeld = true → parksAt s (.cbarv x) (s.begun (.cbarv x)) .miss) ∧
    ((s.wave s.cur).missHeld = false → (s.wave s.cur).held ≠ [] → exec (.cbarv x) s = .next s) ∧
    ((s.wave s.cur).held = [] → tfind (s.wave s.cur).cbLast (barNo x) = some b.p → s.cur ∈ b.arrived →
      parksAt s (.cbarv x) (s.begun (.cbarv x)) (.cbarv (barNo x) b.p)) ∧
    ((s.wave s.cur).held = [] → ¬(tfind (s.wave s.cur).cbLast (barNo x) = some b.p ∧ s.cur ∈ b.arrived) →
      runsTo s (.cbarv x) ((s.begun (.cbarv x)).barrierArrived s.cur (barNo x)) []) := by
  intro b
  have hbody := (waveLevel_some s (.cbarv x) x.pr x.pn (cbarvBody x) h rfl rfl hact).trans
    (body_begun s (.cbarv x) (cbarvBody x) h fun _ => rfl)
  have hno (hheld : (s.wave s.cur).held = []) : ¬(s.wave s.cur).missHeld = true := by
    rw [Wave.missHeld, hheld]
    exact Bool.false_ne_true
  refine ⟨fun hm => ?_, fun hm hheld => ?_, fun hheld hlast harr => ?_, fun hheld hnew => ?_⟩
  · exact parks_of s _ _ _ _ h rfl (hbody.trans (if_pos hm))
  · exact holds_of s _ _ h rfl (hbody.trans ((if_neg (by rw [hm]; exact Bool.false_ne_true)).trans (if_pos hheld)))
  · refine parks_of s _ _ _ _ h rfl (hbody.trans ((if_neg (hno hheld)).trans ((if_neg (not_not_intro hheld)).trans (if_pos ?_))))
    exact (Bool.and_eq_true _ _).mpr ⟨decide_eq_true hlast, List.contains_iff_mem.mpr harr⟩
  · refine runs_of s _ _ _ [] .step h rfl (hbody.trans ((if_neg (hno hheld)).trans ((if_neg (not_not_intro hheld)).trans (if_neg ?_))))
      (barrierArrived_sound h _)
    intro hagain
    obtain ⟨hlast, harr⟩ := (Bool.and_eq_true _ _).mp hagain
    exact hnew ⟨of_decide_eq_true hlast, List.contains_iff_mem.mp harr⟩

theorem cbwait_word (h : s.mayIssue (.cbwait x)) (hact : s.actOf (.cbwait x) ≠ 0) :
    let b := s.cbar s.cur (barNo x)
    let ph := (tfind (s.wave s.cur).cbLast (barNo x)).getD b.p
    (b.p ≠ ph → runsTo s (.cbwait x) (s.begun (.cbwait x)) []) ∧
    (b.p = ph → issuesAndParks s (.cbwait x) (s.begun (.cbwait x)) (.cbwait (barNo x) ph) []) := by
  intro b ph
  have hbody := (waveLevel_some s (.cbwait x) x.pr x.pn (cbwaitBody x) h rfl rfl hact).trans
    (body_begun s (.cbwait x) (cbwaitBody x) h fun _ => rfl)
  refine ⟨fun hp => ?_, fun hp => ?_⟩
  · exact runs_of s _ _ _ [] .step h rfl (hbody.trans (if_neg hp)) (begun_sound h)
  · exact waits_of s _ _ _ _ [] h rfl (hbody.trans (if_pos hp))

end

theorem barrierCheck_all (t : State) (c : Key) (m : Nat) (hsome : (tget (t.crew (t.unitHead c)).cbars {} m).arrived ≠ [])
    (hall : ∀ j ∈ t.unitWaves c, j ∈ (tget (t.crew (t.unitHead c)).cbars {} m).arrived) :
    t.barrierCheck c m = t.modCrew (t.unitHead c) fun z =>
      { z with cbars := tset z.cbars m { arrived := [], p := (tget (t.crew (t.unitHead c)).cbars {} m).p + 1 } } := by
  refine if_pos ?_
  simp only [Bool.and_eq_true, decide_eq_true_eq, List.all_eq_true, List.contains_iff_mem]
  exact ⟨hsome, hall⟩

/-- Settles O27: the weirs word by word, then the cluster barriers. -/
theorem barriers : Obligations.Barriers := by
  unfold Obligations.Barriers
  refine ⟨fun s x => ⟨?_, ?_, ?_, ?_, ?_, ?_⟩, fun s x => ⟨?_, ?_, ?_, barrierCheck_all⟩⟩
  · rintro i (rfl | rfl) h hact
    · obtain ⟨hmiss, hhold, -⟩ := arrival_word false rfl rfl rfl h hact
      exact ⟨hmiss, hhold⟩
    · obtain ⟨hmiss, hhold, -⟩ := arrival_word true rfl rfl rfl h hact
      exact ⟨hmiss, hhold⟩
  · exact weirset_word
  · intro h hact hopen
    obtain ⟨-, -, hwrong, hruns, -⟩ := arrival_word false rfl rfl rfl h hact
    exact ⟨fun hc => hruns hopen hc fun hs => Bool.false_ne_true hs.1, hwrong hopen⟩
  · intro h hact hopen
    obtain ⟨-, -, hwrong, hruns, hwaits⟩ := arrival_word true rfl rfl rfl h hact
    exact ⟨fun hc ha => hruns hopen hc fun hs => hs.2 ha, fun hc ha => hwaits hopen hc rfl ha, hwrong hopen⟩
  · exact weirwait_word
  · exact fun i => weir_none
  · intro h hact
    obtain ⟨hmiss, hhold, -⟩ := cbarv_word h hact
    exact ⟨hmiss, hhold⟩
  · intro h hact hheld
    obtain ⟨-, -, hagain, hruns⟩ := cbarv_word h hact
    exact ⟨hagain hheld, hruns hheld⟩
  · exact cbwait_word

-- NEXTTILE (R24, R196).

theorem tile_spec (c : Crew) :
    c.tile.1 = (c.sched[c.cursor]?).getD 0xFFFFFFFF ∧ (c.tile.2 = true ↔ (c.sched[c.cursor]?).getD 0xFFFFFFFF ≠ 0xFFFFFFFF) := by
  unfold Crew.tile
  cases c.sched[c.cursor]? with
  | none => exact ⟨rfl, by simp⟩
  | some e => exact ⟨rfl, by simp⟩

section
variable {s : State}

theorem nexttile_none (x : VF) (h : s.mayIssue (.nexttile x)) (hact : s.actOf (.nexttile x) = 0) :
    runsTo s (.nexttile x) (s.begun (.nexttile x)) [] := by
  refine runs_of s _ (.nexttile x) _ [] .step h rfl ?_ (begun_sound h)
  rw [nexttileBody, readWave_act s _ h]
  exact if_pos hact

theorem nexttile_some (x : VF) (h : s.mayIssue (.nexttile x)) (hact : s.actOf (.nexttile x) ≠ 0) :
    let e := ((s.crew (crewOf s.cur)).sched[(s.crew (crewOf s.cur)).cursor]?).getD 0xFFFFFFFF
    runsTo s (.nexttile x)
      (if e = 0xFFFFFFFF then s.begun (.nexttile x)
       else (s.begun (.nexttile x)).modCrew (crewOf s.cur) fun y => { y with cursor := y.cursor + 1 })
      [resS x.d.toNat 1 (s.actOf (.nexttile x)) e.toNat] := by
  intro e
  obtain ⟨hval, hmoves⟩ := tile_spec (s.crew (crewOf s.cur))
  refine runs_of s _ (.nexttile x) _ _ .step h rfl ?_ ?_
  · rw [nexttileBody, readWave_act s _ h]
    refine (if_neg hact).trans ?_
    have htile : ((s.begun (.nexttile x)).crew (crewOf s.cur)).tile = (s.crew (crewOf s.cur)).tile := rfl
    rw [htile, hval]
    by_cases he : e = 0xFFFFFFFF
    · rw [if_pos he, if_neg (fun hm => hmoves.mp hm he)]
      rfl
    · rw [if_neg he, if_pos (hmoves.mpr he)]
      rfl
  · split
    · exact begun_sound h
    · rw [State.modCrew_wave]
      exact begun_sound h

-- The register pool (R23, R198).

theorem takeBlocks_frame (w : Wave) (n : Nat) : ∃ v sl, w.takeBlocks n = { w with xb := n, vlive := v, slive := sl } :=
  setLive_fold { w with xb := n } .v (groupRegs w.breg (32 * n)) false

theorem begun_poolFree (i : Instr) (h : s.mayIssue i) (c : Key) (q : Nat) : (s.begun i).poolFree c q = s.poolFree c q := by
  obtain ⟨bk, hread, -⟩ := readWave_spec s i h
  have hxb : ∀ k, ((s.begun i).wave k).xb = (s.wave k).xb := by
    intro k
    rw [State.begun, State.setWave_wave]
    split
    case isTrue hk => rw [hk, hread]
    case isFalse => rfl
  simp only [State.poolFree, hxb]
  rfl

theorem acqx_word (x : IF) (h : s.mayIssue (.acqx x)) :
    let k := s.cur
    let n := x.imm.toNat
    let beyond : Prop := (s.wave k).xb ≠ 0 ∨ (s.crew (crewOf k)).carved (quadOf k) < n
    let now : Prop := (s.quad k).acq = [] ∧ n ≤ s.poolFree (crewOf k) (quadOf k)
    (s.actOf (.acqx x) = 0 → runsTo s (.acqx x) (s.begun (.acqx x)) []) ∧
    (s.actOf (.acqx x) ≠ 0 → beyond → faultsWith s (.acqx x) .budget (BitVec.ofNat 64 (s.wave k).breg)) ∧
    (s.actOf (.acqx x) ≠ 0 → ¬beyond → now → runsTo s (.acqx x) ((s.begun (.acqx x)).modWave k fun w => w.takeBlocks n) []) ∧
    (s.actOf (.acqx x) ≠ 0 → ¬beyond → ¬now →
      parksAt s (.acqx x) ((s.begun (.acqx x)).modQuad (coreOf k) (quadOf k) fun y => { y with acq := y.acq ++ [k] }) (.acqx n)) := by
  intro k n beyond now
  have hbeyond : (decide ((s.wave k).xb ≠ 0) || decide ((s.crew (crewOf k)).carved (quadOf k) < n)) = true ↔ beyond := by simp [beyond]
  have hnow : (decide ((s.quad k).acq ≠ []) || decide (s.poolFree (crewOf k) (quadOf k) < n)) = true ↔ ¬now := by
    simp only [Bool.or_eq_true, decide_eq_true_eq, now, not_and_or, Nat.not_le, ne_eq]
  have hbody (hact : s.actOf (.acqx x) ≠ 0) : waveLevel x.pr x.pn (acqxBody x) (s.begun (.acqx x)) k (s.readWave (.acqx x)) =
      if (decide ((s.wave k).xb ≠ 0) || decide ((s.crew (crewOf k)).carved (quadOf k) < n)) = true
      then .fault .budget (BitVec.ofNat 64 (s.wave k).breg)
      else if (decide ((s.quad k).acq ≠ []) || decide (s.poolFree (crewOf k) (quadOf k) < n)) = true
      then .park ((s.begun (.acqx x)).modQuad (coreOf k) (quadOf k) fun y => { y with acq := y.acq ++ [k] }) (.acqx n)
      else .done ((s.begun (.acqx x)).modWave k fun w => w.takeBlocks n) [] := by
    refine (waveLevel_some s (.acqx x) x.pr x.pn (acqxBody x) h rfl rfl hact).trans
      ((body_begun s (.acqx x) (acqxBody x) h fun _ => rfl).trans ?_)
    rw [acqxBody, begun_poolFree _ h]
    rfl
  refine ⟨fun hact => ?_, fun hact hb => ?_, fun hact hb hn => ?_, fun hact hb hn => ?_⟩
  · exact waveLevel_none s (.acqx x) x.pr x.pn _ h rfl rfl rfl hact
  · exact faults_of s _ _ _ _ h rfl ((hbody hact).trans (if_pos (hbeyond.mpr hb)))
  · refine runs_of s _ _ _ [] .step h rfl ((hbody hact).trans ((if_neg (hb ∘ hbeyond.mp)).trans (if_neg fun hc => hnow.mp hc hn)))
      (begun_modWave_sound s _ h _ fun w => ?_)
    obtain ⟨v, sl, htake⟩ := takeBlocks_frame w n
    rw [htake]
  · exact parks_of s _ _ _ _ h rfl ((hbody hact).trans ((if_neg (hb ∘ hbeyond.mp)).trans (if_pos (hnow.mpr hn))))

theorem acqxGrant_step (core q : Nat) (k : Key) (r : List Key) (n : Nat) (i : Instr)
    (hacq : (tget (s.core core).quads {} q).acq = k :: r) (hp : (s.wave k).park = some (.acqx n)) (hi : (s.wave k).parkI = some i)
    (hstop : (s.wave k).stopped = false) (hclock : s.clockOn core = true) :
    exec (.acqxGrant core q) s = .next
      (if n ≤ s.poolFree (crewOf k) q then
        let t := ((s.modQuad core q fun y => { y with acq := r }).modWave k fun w => w.takeBlocks n).retired k i []
        t.modWave k fun w => { w with waited := (t.quad k).cyc }
      else s) := by
  have hexec : exec (.acqxGrant core q) s = execAcqxGrant core q s := rfl
  have hi' : (((s.modQuad core q fun y => { y with acq := r }).modWave k fun w => w.takeBlocks n).wave k).parkI = some i := by
    obtain ⟨v, sl, htake⟩ := takeBlocks_frame (s.wave k) n
    rw [State.modWave_wave, if_pos rfl, State.modQuad_wave, htake]
    exact hi
  rw [hexec, execAcqxGrant, hacq]
  dsimp only
  rw [hp]
  simp only [hstop, hclock, Bool.not_false, Bool.and_true, decide_eq_true_eq, State.grant, hi']
  rfl

end

-- RELX (R45, R198).

theorem tget_filter {α : Type} (t : Tab α) (p : Nat → Bool) (d : α) (k : Nat) :
    tget (t.filter fun e => p e.1) d k = if p k then tget t d k else d := by
  induction t with
  | nil => simp [tget]
  | cons e r ih =>
    obtain ⟨q, v⟩ := e
    rw [List.filter_cons]
    by_cases hq : k = q
    · subst hq
      cases hp : p k <;> simp [tget, hp, ih]
    · cases hp : p q <;> simp [tget, hq, ih]

theorem release_bank (w : Wave) (b : Nat) :
    w.release.bank b = if (groupRegs w.breg (32 * w.xb)).contains (8 * b) then {} else w.bank b := by
  have hfilter : w.release.bank b =
      tget (w.banks.filter fun e => !(groupRegs w.breg (32 * w.xb)).contains (8 * e.1)) {} b := rfl
  rw [hfilter, tget_filter w.banks (fun n => !(groupRegs w.breg (32 * w.xb)).contains (8 * n)) {} b]
  cases (groupRegs w.breg (32 * w.xb)).contains (8 * b) <;> rfl

theorem release_sound (w : Wave) (h : w.sound) : w.release.sound := by
  intro b
  rw [release_bank]
  split
  · exact fun hst => absurd hst (by decide)
  · exact h b

theorem contains_groupRegs (r n q : Nat) : (groupRegs r n).contains q = (decide (r ≤ q) && decide (q < r + n)) := by
  rw [Bool.eq_iff_iff, List.contains_iff_mem, mem_groupRegs]
  simp

/-- Settles O28. -/
theorem tilesAndBlocks : Obligations.TilesAndBlocks := by
  unfold Obligations.TilesAndBlocks
  refine ⟨fun s x h => ⟨nexttile_none x h, nexttile_some x h⟩, fun s x => acqx_word x, fun s core q k r n i => acqxGrant_step core q k r n i,
    fun s x h => ?_, fun w n => ⟨?_, rfl, fun r hr => ?_, fun r hr => ?_, fun b h1 h2 => ?_⟩⟩
  · refine wl_of s (.relx x) x.pr x.pn _ _ h rfl rfl rfl rfl ?_
    rw [State.modWave_wave, if_pos rfl]
    exact release_sound _ (begun_sound h)
  · obtain ⟨v, sl, htake⟩ := takeBlocks_frame w n
    rw [htake]
  · rw [← contains_groupRegs]
    exact setLive_fold_live { w with xb := n } .v _ r ⟨fun _ => hr, fun hc => absurd hc (by decide)⟩ (.inl rfl)
  · rw [← contains_groupRegs]
    exact setLive_fold_live w .v _ r ⟨fun _ => hr, fun hc => absurd hc (by decide)⟩ (.inl rfl)
  · have hgone : (groupRegs w.breg (32 * w.xb)).contains (8 * b) = true := by
      rw [contains_groupRegs]
      simp [h1, h2]
    rw [release_bank, if_pos hgone]

end Sys2Proof.Machine
end


section
/-! Special registers and the words of the scope table. -/

namespace Sys2Proof.Machine

-- SRD and SWR (R202, R337).

theorem begun_sregVal (s : State) (i : Instr) (h : s.mayIssue i) (n : Nat) (l : Fin 32) :
    (s.begun i).sregVal s.cur n l = s.sregVal s.cur n l := by
  obtain ⟨bk, hread, -⟩ := readWave_spec s i h
  unfold State.sregVal
  rw [begun_wave, hread]
  rfl

theorem srd_runs (s : State) (x : IF) (h : s.mayIssue (.srd x)) :
    runsTo s (.srd x) (s.begun (.srd x))
      [if sregScalar x then resS x.d.toNat (sregWidth x) (s.actOf (.srd x)) (s.sregVal s.cur (sregNum x) 0)
       else resV x.d.toNat (sregWidth x) (s.actOf (.srd x)) (s.sregVal s.cur (sregNum x))] := by
  refine runs_of s _ (.srd x) _ _ .step h rfl ?_ (begun_sound h)
  have hval : (s.begun (.srd x)).sregVal s.cur (sregNum x) = s.sregVal s.cur (sregNum x) :=
    funext fun l => begun_sregVal s _ h _ l
  rw [srdBody, readWave_act s _ h, hval]
  rfl

section
variable {s : State} {x : IF}

/-- The value that SWR writes: a scalar group, or that of the lowest lane. -/
def State.swrVal (s : State) (x : IF) : Nat :=
  if sregScalar x then (s.wave s.cur).rsn x.a.toNat (sregWidth x)
  else (s.wave s.cur).rvn x.a.toNat (sregWidth x) (lowLane (s.actOf (.swr x)))

/-- The generators that SWR writes, lane by lane. -/
def State.swrSeeds (s : State) (x : IF) (l : Fin 32) : Word :=
  if sregScalar x then BitVec.ofNat 32 (s.swrVal x) else (s.wave s.cur).rv x.a.toNat l

theorem swrBody_begun (h : s.mayIssue (.swr x)) :
    swrBody x (s.begun (.swr x)) s.cur (s.readWave (.swr x)) = swrBody x (s.begun (.swr x)) s.cur (s.wave s.cur) :=
  by simp only [swrBody, readWave_act s _ h, readWave_rsn s _ h, readWave_rvn s _ h]

theorem swr_none (h : s.mayIssue (.swr x)) (hact : s.actOf (.swr x) = 0) : runsTo s (.swr x) (s.begun (.swr x)) [] :=
  runs_of s _ (.swr x) _ [] .step h rfl ((swrBody_begun h).trans (if_pos hact)) (begun_sound h)

theorem swr_reserved (h : s.mayIssue (.swr x)) (hact : s.actOf (.swr x) ≠ 0) (hn : sregNum x = 0x000) (hv : 5 ≤ s.swrVal x % 8) :
    faultsWith s (.swr x) .illegal 0 := by
  refine faults_of s (.swr x) _ _ _ h rfl ((swrBody_begun h).trans ((if_neg hact).trans ?_))
  rw [hn]
  exact if_pos hv

theorem swr_part (h : s.mayIssue (.swr x)) (hact : s.actOf (.swr x) ≠ 0) (hn : sregNum x = 0x000) (hv : s.swrVal x % 8 < 5) :
    runsTo s (.swr x) ((s.begun (.swr x)).modWave s.cur fun w => { w with partreg := BitVec.ofNat 32 (s.swrVal x) &&& 7 }) [] := by
  refine runs_of s _ (.swr x) _ [] .step h rfl ((swrBody_begun h).trans ((if_neg hact).trans ?_))
    (begun_modWave_sound s _ h _ fun _ => rfl)
  rw [hn]
  exact if_neg (Nat.not_le.mpr hv)

theorem swr_flags (h : s.mayIssue (.swr x)) (hact : s.actOf (.swr x) ≠ 0) (hn : sregNum x = 0x001) :
    runsTo s (.swr x) ((s.begun (.swr x)).modWave s.cur fun w => { w with fpflags := BitVec.ofNat 32 (s.swrVal x) &&& 0x3F }) [] := by
  refine runs_of s _ (.swr x) _ [] .step h rfl ((swrBody_begun h).trans ((if_neg hact).trans ?_))
    (begun_modWave_sound s _ h _ fun _ => rfl)
  rw [hn]
  rfl

theorem setSeed_banks (w : Wave) (m : LaneMask) (f : Fin 32 → Word) : (w.setSeed m f).banks = w.banks := by
  unfold Wave.setSeed
  rfl

theorem swr_seed (h : s.mayIssue (.swr x)) (hact : s.actOf (.swr x) ≠ 0) (hn : sregNum x = 0x004) :
    ∃ t, exec (.swr x) s = .next t ∧ ∀ l : Fin 32, (t.wave s.cur).srseed[l] =
      if inMask (s.actOf (.swr x)) l then
        (let y := if sregScalar x then BitVec.ofNat 32 (s.swrVal x) else (s.wave s.cur).rv x.a.toNat l; if y = 0 then 1 else y)
      else (s.wave s.cur).srseed[l] := by
  obtain ⟨bk, hread, -⟩ := readWave_spec s (.swr x) h
  have hrun : runsTo s (.swr x) ((s.begun (.swr x)).modWave s.cur fun w => w.setSeed (s.actOf (.swr x)) (s.swrSeeds x)) [] := by
    refine runs_of s _ (.swr x) _ [] .step h rfl ((swrBody_begun h).trans ((if_neg hact).trans ?_))
      (begun_modWave_sound s _ h _ fun w => setSeed_banks w _ _)
    rw [hn]
    refine done_modWave_congr _ s.cur _ _ _ _ ?_
    rw [begun_wave, hread]
    rfl
  refine ⟨_, hrun, fun l => ?_⟩
  obtain ⟨-, hwave, -⟩ := retire_counts ((s.begun (.swr x)).modWave s.cur fun w => w.setSeed (s.actOf (.swr x)) (s.swrSeeds x)) s.cur (.swr x) []
    .step
  rw [State.retired, hwave s.cur, if_pos rfl, retired_frame, State.modWave_wave, if_pos rfl, begun_wave, hread]
  simp only [Wave.setSeed, Fin.getElem_fin, Vector.getElem_ofFn]
  rfl

theorem swr_spauto (h : s.mayIssue (.swr x)) (hact : s.actOf (.swr x) ≠ 0) (hn : sregNum x = 0x005) :
    runsTo s (.swr x) ((s.begun (.swr x)).modCrew (crewOf s.cur) fun c =>
      { c with spauto := BitVec.ofNat 32 (s.swrVal x) &&& BitVec.ofNat 32 (2 ^ min c.spbN 32 - 1) }) [] := by
  refine runs_of s _ (.swr x) _ [] .step h rfl ((swrBody_begun h).trans ((if_neg hact).trans ?_)) ?_
  · rw [hn]
    rfl
  · rw [State.modCrew_wave]
    exact begun_sound h

theorem swr_target (h : s.mayIssue (.swr x)) (hact : s.actOf (.swr x) ≠ 0) (hn : sregNum x = 0x100) :
    runsTo s (.swr x) ((s.begun (.swr x)).modWave s.cur fun w => { w with tgtw := BitVec.ofNat 32 (s.swrVal x) }) [] := by
  refine runs_of s _ (.swr x) _ [] .step h rfl ((swrBody_begun h).trans ((if_neg hact).trans ?_))
    (begun_modWave_sound s _ h _ fun _ => rfl)
  rw [hn]
  rfl

theorem swr_vector (h : s.mayIssue (.swr x)) (hact : s.actOf (.swr x) ≠ 0) (hn : sregNum x = 0x101) :
    runsTo s (.swr x) ((s.begun (.swr x)).modDie (dieOf (coreOf s.cur)) fun d => { d with evec := BitVec.ofNat 64 (s.swrVal x) }) [] := by
  refine runs_of s _ (.swr x) _ [] .step h rfl ((swrBody_begun h).trans ((if_neg hact).trans ?_)) ?_
  · rw [hn]
    rfl
  · exact begun_sound h

end

theorem swr_word (s : State) (x : IF) (h : s.mayIssue (.swr x)) :
    let i := Instr.swr x
    let k := s.cur
    let w := s.wave k
    let m := s.actOf i
    let v := if sregScalar x then w.rsn x.a.toNat (sregWidth x) else w.rvn x.a.toNat (sregWidth x) (lowLane m)
    let v32 : Word := BitVec.ofNat 32 v
    (m = 0 → runsTo s i (s.begun i) []) ∧
    (m ≠ 0 → sregNum x = 0x000 → 5 ≤ v % 8 → faultsWith s i .illegal 0) ∧
    (m ≠ 0 → sregNum x = 0x000 → v % 8 < 5 → runsTo s i ((s.begun i).modWave k fun w => { w with partreg := v32 &&& 7 }) []) ∧
    (m ≠ 0 → sregNum x = 0x001 → runsTo s i ((s.begun i).modWave k fun w => { w with fpflags := v32 &&& 0x3F }) []) ∧
    (m ≠ 0 → sregNum x = 0x004 → ∃ t, exec i s = .next t ∧ ∀ l : Fin 32, (t.wave k).srseed[l] =
      if inMask m l then (let y := if sregScalar x then v32 else w.rv x.a.toNat l; if y = 0 then 1 else y) else w.srseed[l]) ∧
    (m ≠ 0 → sregNum x = 0x005 →
      runsTo s i ((s.begun i).modCrew (crewOf k) fun c => { c with spauto := v32 &&& BitVec.ofNat 32 (2 ^ min c.spbN 32 - 1) }) []) ∧
    (m ≠ 0 → sregNum x = 0x100 → runsTo s i ((s.begun i).modWave k fun w => { w with tgtw := v32 }) []) ∧
    (m ≠ 0 → sregNum x = 0x101 →
      runsTo s i ((s.begun i).modDie (dieOf (coreOf k)) fun d => { d with evec := BitVec.ofNat 64 v }) []) :=
  ⟨swr_none h, swr_reserved h, swr_part h, swr_flags h, swr_seed h, swr_spauto h, swr_target h, swr_vector h⟩

/-- What the special registers read as (R202, R337). -/
theorem sregVal_spec (s : State) (k : Key) (l : Fin 32) :
    let w := s.wave k
    let c := s.crew (crewOf k)
    let d := s.die (dieOf (coreOf k))
    s.sregVal k 0x000 l = w.partreg.toNat ∧ s.sregVal k 0x001 l = w.fpflags.toNat ∧ s.sregVal k 0x002 l = w.view.toNat ∧
    s.sregVal k 0x003 l = c.regionMode.toNat ∧ s.sregVal k 0x004 l = (w.srseed[l]).toNat ∧ s.sregVal k 0x005 l = c.spauto.toNat ∧
    s.sregVal k 0x008 l = c.luign.toNat ∧ s.sregVal k 0x009 l = c.uhmiss.toNat ∧ s.sregVal k 0x010 l = l.val ∧
    s.sregVal k 0x011 l = k % 32 ∧ s.sregVal k 0x014 l = dieOf (coreOf k) ∧ s.sregVal k 0x020 l = d.cyc % 2 ^ 64 ∧
    s.sregVal k 0x021 l = d.ncyc % 2 ^ 64 ∧ s.sregVal k 0x022 l = s.reft % 2 ^ 64 ∧ s.sregVal k 0x100 l = w.tgtw.toNat ∧
    s.sregVal k 0x101 l = d.evec.toNat ∧ s.sregVal k 0x102 l = d.evq.length :=
  ⟨rfl, rfl, rfl, rfl, rfl, rfl, rfl, rfl, rfl, rfl, rfl, rfl, rfl, rfl, rfl, rfl, rfl⟩

-- The memory side of the scope words.

theorem MemSide.dropWordOp (s : State) (k : Key) : MemSide s (s.dropWordOp k) := ite (refl s) (modPkg s _)

theorem MemSide.wordAccess {s t : State} {k : Key} {e : Dword} {size : Nat} {a : Acc} {pa home : Nat}
    (h : s.wordAccess k e size a = .inr (t, pa, home)) : MemSide s t := by
  unfold State.wordAccess at h
  split at h
  · exact absurd h (by simp)
  split at h
  case h_5 s1 _ _ htr =>
    split at h
    · exact absurd h (by simp)
    split at h
    · exact absurd h (by simp)
    split at h
    · exact absurd h (by simp)
    · injection h with h
      injection h with h1 h2
      rw [← h1]
      exact ((translate htr).trans (dropWordOp s1 k)).trans (touchL2 _ _ _ _ _ _)
  all_goals exact absurd h (by simp)

theorem MemSide.readWords (s : State) (cl pa home n : Nat) : MemSide s (s.readWords cl pa home n).2 := by
  induction n generalizing s pa with
  | zero => exact refl s
  | succ n ih => exact (lsuRead s cl pa 8 home).trans (ih _ _)

theorem MemSide.writeWords (s : State) (c : Option Nat) (cl home pa : Nat) (ws : List Dword) :
    MemSide s (s.writeWords c cl home pa ws) := by
  induction ws generalizing s pa with
  | nil => exact refl s
  | cons w ws ih => exact (lsuWrite s c cl pa home _).trans (ih _ _)

theorem MemSide.fwWrite (s : State) (core va : Nat) (v : Dword) : MemSide s (s.fwWrite core va v) := by
  unfold State.fwWrite
  split
  case h_1 htr => exact (translate htr).trans (poke64 _ _ _)
  all_goals exact refl s

theorem MemSide.ackImage (s : State) (core img wave n : Nat) (epoch : Word) : MemSide s (s.ackImage core img wave n epoch) :=
  foldl (fun s p => fwWrite s _ _ _) _ s

-- SCW and its completion (R127, R204).

/-- A field that a change of every entry keeps reads as before. -/
theorem tget_map_keeps {α β : Type} (t : Tab α) (f : Nat × α → Nat × α) (g : α → β) (d : α) (k : Nat)
    (hf : ∀ e, (f e).1 = e.1 ∧ g (f e).2 = g e.2) : g (tget (t.map f) d k) = g (tget t d k) := by
  induction t with
  | nil => rfl
  | cons e r ih =>
    obtain ⟨hkey, hval⟩ := hf e
    obtain ⟨q, v⟩ := e
    rw [List.map_cons]
    have hfe : f (q, v) = (q, (f (q, v)).2) := Prod.ext hkey rfl
    rw [hfe]
    simp only [tget]
    split
    · exact hval
    · exact ih

theorem installScope_banks (s : State) (c n : Nat) (x : Scope) (k : Key) :
    ((s.installScope c n x).wave k).banks = (s.wave k).banks := by
  unfold State.installScope State.wave
  refine tget_map_keeps s.waves _ Wave.banks _ k fun e => ?_
  dsimp only
  split
  · exact ⟨rfl, rfl⟩
  · exact ⟨rfl, rfl⟩

/-- The entry that SCW leaves: the image at the next epoch, the older one kept while operations carry its epoch (R127). -/
def State.installedEnt (s : State) (c n : Nat) (img : Scope) : ScopeEnt :=
  { img := img, epoch := (s.scopeEnt c n).epoch + 1, old := ((s.scopeEnt c n).epoch, (s.scopeEnt c n).img) :: (s.scopeEnt c n).old }

theorem installScope_ent (s : State) (c n : Nat) (img : Scope) (m : Nat) :
    (s.installScope c n img).scopeEnt c m = if m = n then s.installedEnt c n img else s.scopeEnt c m := by
  have hctx : (s.installScope c n img).ctx c = { s.ctx c with scopes := tset (s.ctx c).scopes n (s.installedEnt c n img) } :=
    tget_tset_same s.ctxs _ c _
  rw [State.scopeEnt, hctx]
  exact tget_tset _ _ _ _ _

theorem installScope_spec (s : State) (c n : Nat) (img : Scope) :
    let t := s.installScope c n img
    (t.scopeEnt c n).epoch = (s.scopeEnt c n).epoch + 1 ∧ (t.scopeEnt c n).img = img ∧
    (∀ m, m ≠ n → t.scopeEnt c m = s.scopeEnt c m) := by
  intro t
  have hn : t.scopeEnt c n = s.installedEnt c n img := (installScope_ent s c n img n).trans (if_pos rfl)
  rw [hn]
  exact ⟨rfl, rfl, fun m hm => (installScope_ent s c n img m).trans (if_neg hm)⟩

/-- A result of the SCWs of entry n has arrived. -/
def Pend.scwDone (c n : Nat) (p : Pend) : Pend := if p.why == some (.scw c n) then { p with arrived := true } else p

/-- The state in which the SCWs of entry n are complete (R127 step 4). -/
def State.scwDone (s : State) (c n : Nat) : State :=
  let s1 := s.modCtx c fun y => { y with scopes := tset y.scopes n { tget y.scopes {} n with old := [] } }
  { s1 with waves := s1.waves.map fun e => (e.1, { e.2 with pend := e.2.pend.map (Pend.scwDone c n) }) }

theorem scwDone_ent (s : State) (c n : Nat) : (s.scwDone c n).scopeEnt c n = { s.scopeEnt c n with old := [] } := by
  have hctx : (s.scwDone c n).ctx c =
      { s.ctx c with scopes := tset (s.ctx c).scopes n { tget (s.ctx c).scopes {} n with old := [] } } :=
    tget_tset_same s.ctxs _ c _
  rw [State.scopeEnt, hctx]
  exact tget_tset_same _ _ _ _

theorem scwDone_arrived (s : State) (c n : Nat) :
    ∀ e ∈ (s.scwDone c n).waves, ∀ p ∈ e.2.pend, p.why = some (.scw c n) → p.arrived = true := by
  intro e he p hp hwhy
  obtain ⟨e0, -, rfl⟩ := List.mem_map.mp he
  obtain ⟨p0, -, rfl⟩ := List.mem_map.mp hp
  unfold Pend.scwDone at hwhy ⊢
  split
  case isTrue => rfl
  case isFalse hne =>
    rw [if_neg hne] at hwhy
    exact absurd (beq_iff_eq.mpr hwhy) hne

theorem scwComplete_spec (s : State) (c n : Nat)
    (hwaves : ∀ e ∈ s.waves, isReeveCore (coreOf e.1) = false → (s.crew (crewOf e.1)).ctx = c →
      e.2.carriesOld n (s.scopeEnt c n).epoch = false) (hsaved : s.savedOld c n = false) :
    ∃ t, exec (.scwComplete c n) s = .next t ∧ t.scopeEnt c n = { s.scopeEnt c n with old := [] } ∧
      ∀ e ∈ t.waves, ∀ p ∈ e.2.pend, p.why = some (.scw c n) → p.arrived = true := by
  have hexec : exec (.scwComplete c n) s = execScwComplete c n s := rfl
  have hresident : s.residentOld c n (fun _ => true) = false := by
    simp only [State.residentOld, List.any_eq_false, Bool.and_eq_true, Bool.not_eq_true', beq_iff_eq, not_and]
    rintro e he ⟨⟨hcore, hctx⟩, -⟩
    rw [hwaves e he hcore hctx]
    exact Bool.false_ne_true
  refine ⟨s.scwDone c n, ?_, scwDone_ent s c n, scwDone_arrived s c n⟩
  rw [hexec, execScwComplete, hresident, hsaved]
  rfl

section
variable {s : State} {x : MF}

theorem scw_begun (h : s.mayIssue (.scw x)) (hact : s.actOf (.scw x) ≠ 0) (hg : s.gateOpen 0) :
    waveLevel x.pr x.pn (memGate 0 (scwBody x)) (s.begun (.scw x)) s.cur (s.readWave (.scw x)) =
      scwBody x (s.begun (.scw x)) s.cur (s.wave s.cur) :=
  (waveLevel_some s (.scw x) x.pr x.pn _ h rfl rfl hact).trans
    ((memGate_begun s (.scw x) 0 (scwBody x) h hg).trans (body_begun s (.scw x) (scwBody x) h fun _ => rfl))

theorem scw_refused (h : s.mayIssue (.scw x)) (hact : s.actOf (.scw x) ≠ 0) (hg : s.gateOpen 0)
    (hbad : (s.begun (.scw x)).scopeTarget s.cur = none ∨ x.sc.toNat < 6) : faultsWith s (.scw x) .scrange (x.sc.setWidth 64) := by
  refine faults_of s _ _ _ _ h rfl ((scw_begun h hact hg).trans ?_)
  rw [scwBody]
  cases hobj : (s.begun (.scw x)).scopeTarget s.cur with
  | none => rfl
  | some o =>
    rw [hobj] at hbad
    exact if_pos (hbad.resolve_left (by simp))

/-- What SCW answers once it has read its image (R127, R204). -/
theorem scwBody_read {o : Obj} {s1 : State} {pa home : Nat} (hobj : (s.begun (.scw x)).scopeTarget s.cur = some o)
    (hn : 6 ≤ x.sc.toNat) (hacc : (s.begun (.scw x)).wordAccess s.cur ((s.wave s.cur).addrS x) 64 .read = .inr (s1, pa, home)) :
    scwBody x (s.begun (.scw x)) s.cur (s.wave s.cur) =
      let rd := s1.readWords (clusterOf (coreOf s.cur)) pa home 8
      if !rd.2.imageOk (polderOf o.ctxNo) (scopeOfImage rd.1) then .fault .scrange (x.sc.setWidth 64)
      else .done (rd.2.installScope o.ctxNo x.sc.toNat (scopeOfImage rd.1))
        [{ file := .v, reg := 0, data := [], mask := BitVec.allOnes 32, arrived := false, why := some (.scw o.ctxNo x.sc.toNat) }] := by
  rw [scwBody, hobj]
  refine (if_neg (Nat.not_lt.mpr hn)).trans ?_
  rw [hacc]

theorem scw_installs (h : s.mayIssue (.scw x)) (hact : s.actOf (.scw x) ≠ 0) (hg : s.gateOpen 0) {o : Obj} {s1 : State} {pa home : Nat}
    (hobj : (s.begun (.scw x)).scopeTarget s.cur = some o) (hn : 6 ≤ x.sc.toNat)
    (hacc : (s.begun (.scw x)).wordAccess s.cur ((s.wave s.cur).addrS x) 64 .read = .inr (s1, pa, home)) :
    let rd := s1.readWords (clusterOf (coreOf s.cur)) pa home 8
    let img := scopeOfImage rd.1
    (rd.2.imageOk (polderOf o.ctxNo) img = false → faultsWith s (.scw x) .scrange (x.sc.setWidth 64)) ∧
    (rd.2.imageOk (polderOf o.ctxNo) img = true →
      runsTo s (.scw x) (rd.2.installScope o.ctxNo x.sc.toNat img)
        [{ file := .v, reg := 0, data := [], mask := BitVec.allOnes 32, arrived := false, why := some (.scw o.ctxNo x.sc.toNat) }]) := by
  intro rd img
  have hbody := (scw_begun h hact hg).trans (scwBody_read hobj hn hacc)
  refine ⟨fun hbad => ?_, fun hok => ?_⟩
  · exact faults_of s _ _ _ _ h rfl (hbody.trans (if_pos (by rw [hbad]; rfl)))
  · refine runs_of s _ _ _ _ .step h rfl (hbody.trans (if_neg (by rw [hok]; exact Bool.false_ne_true))) ?_
    have hwave : rd.2.wave s.cur = (s.begun (.scw x)).wave s.cur :=
      ((MemSide.wordAccess hacc).trans (MemSide.readWords s1 _ pa home 8)).wave s.cur
    exact sound_of_banks _ _ (begun_sound h) (by rw [installScope_banks, hwave])

-- SCR (R113, R204).

theorem scr_runs (h : s.mayIssue (.scr x)) (hact : s.actOf (.scr x) ≠ 0) (hg : s.gateOpen 0) {img : List Dword} {s1 : State} {pa home : Nat}
    (himg : ((s.begun (.scr x)).scopeTarget s.cur).bind (fun o => (s.begun (.scr x)).scrImage o x.sc.toNat) = some img)
    (hacc : (s.begun (.scr x)).wordAccess s.cur ((s.wave s.cur).addrS x) 64 .write = .inr (s1, pa, home)) :
    runsTo s (.scr x) (s1.writeWords (s.ctxOf s.cur) (clusterOf (coreOf s.cur)) home pa img) [] := by
  have hbody := (waveLevel_some s (.scr x) x.pr x.pn _ h rfl rfl hact).trans
    ((memGate_begun s (.scr x) 0 (scrBody x) h hg).trans (body_begun s (.scr x) (scrBody x) h fun _ => rfl))
  refine runs_of s _ _ _ [] .step h rfl (hbody.trans ?_) ?_
  · rw [scrBody, himg]
    dsimp only
    rw [hacc]
    rfl
  · rw [((MemSide.wordAccess hacc).trans (MemSide.writeWords s1 _ _ home pa img)).wave]
    exact begun_sound h

-- SCACK (R129, R337).

theorem ack_eq (w : Wave) (n : Nat) (epoch : Word) :
    w.ack n epoch = if n < 6 ∨ w.view.getLsbD n = true then w
      else { w with view := w.view ||| BitVec.twoPow 16 n, acked := tset w.acked n epoch } := by
  unfold Wave.ack
  refine if_congr ?_ rfl rfl
  simp only [Bool.or_eq_true, decide_eq_true_eq]

theorem ack_banks (w : Wave) (n : Nat) (epoch : Word) : (w.ack n epoch).banks = w.banks := by
  unfold Wave.ack
  split
  · rfl
  · rfl

theorem modWave_sound (t : State) (k j : Key) (f : Wave → Wave) (hf : ∀ w : Wave, (f w).banks = w.banks) (h : (t.wave j).sound) :
    ((t.modWave k f).wave j).sound := by
  rw [State.modWave_wave]
  split
  case isTrue hj => exact sound_of_banks _ _ h (by rw [hf, hj])
  case isFalse => exact h

theorem scack_user (h : s.mayIssue (.scack x)) {c : Nat} (hc : s.ctxOf s.cur = some c) :
    waveLevelRuns s (.scack x) fun b => b.modWave s.cur fun w => w.ack x.sc.toNat (s.scopeEnt c x.sc.toNat).epoch := by
  refine wl_of s (.scack x) x.pr x.pn _ _ h rfl rfl rfl ?_ (modWave_sound _ _ _ _ (fun w => ack_banks w _ _) (begun_sound h))
  have hctx : (s.begun (.scack x)).ctxOf s.cur = some c := hc
  rw [scackBody, hctx]
  rfl

section
variable (h : s.mayIssue (.scack x)) (hact : s.actOf (.scack x) ≠ 0) (hc : s.ctxOf s.cur = none)
include h hact hc

theorem scack_begun : waveLevel x.pr x.pn (scackBody x) (s.begun (.scack x)) s.cur (s.readWave (.scack x)) =
    match (s.begun (.scack x)).obj (s.wave s.cur).tgtw with
    | some (.wave c t) =>
      if (s.begun (.scack x)).crewHere c (crewOf t) then
        if ((s.begun (.scack x)).wave t).stopped then
          .done ((s.begun (.scack x)).modWave t fun w => w.ack x.sc.toNat (s.scopeEnt c x.sc.toNat).epoch) []
        else .fault .scrange (x.sc.setWidth 64)
      else
        match (s.begun (.scack x)).imgOf c (crewOf t) with
        | some a => .done ((s.begun (.scack x)).ackImage (coreOf s.cur) a.addr (waveIdOf t) x.sc.toNat (s.scopeEnt c x.sc.toNat).epoch) []
        | none => .done ((s.begun (.scack x)).ackAside c (crewOf t) (waveIdOf t) x.sc.toNat (s.scopeEnt c x.sc.toNat).epoch) []
    | _ => .fault .scrange (x.sc.setWidth 64) := by
  obtain ⟨bk, hread, -⟩ := readWave_spec s (.scack x) h
  have hctx : (s.begun (.scack x)).ctxOf s.cur = none := hc
  have htgt : ((s.begun (.scack x)).wave s.cur).tgtw = (s.wave s.cur).tgtw := by rw [begun_wave, hread]
  refine (waveLevel_some s (.scack x) x.pr x.pn (scackBody x) h rfl rfl hact).trans ?_
  rw [scackBody, hctx]
  dsimp only
  rw [htgt]
  rfl

theorem scack_no_wave (hobj : ∀ c t, (s.begun (.scack x)).obj (s.wave s.cur).tgtw ≠ some (.wave c t)) :
    faultsWith s (.scack x) .scrange (x.sc.setWidth 64) := by
  refine faults_of s _ _ _ _ h rfl ((scack_begun h hact hc).trans ?_)
  split
  case h_1 c t ho => exact absurd ho (hobj c t)
  case h_2 => rfl

theorem scack_wave {c : Nat} {t : Key} (hobj : (s.begun (.scack x)).obj (s.wave s.cur).tgtw = some (.wave c t)) :
    let i := Instr.scack x
    let n := x.sc.toNat
    let b := s.begun i
    let ep := (s.scopeEnt c n).epoch
    (b.crewHere c (crewOf t) = true → (b.wave t).stopped = true → runsTo s i (b.modWave t fun w => w.ack n ep) []) ∧
    (b.crewHere c (crewOf t) = true → (b.wave t).stopped = false → faultsWith s i .scrange (x.sc.setWidth 64)) ∧
    (b.crewHere c (crewOf t) = false →
      (∀ a, b.imgOf c (crewOf t) = some a → runsTo s i (b.ackImage (coreOf s.cur) a.addr (waveIdOf t) n ep) []) ∧
      (b.imgOf c (crewOf t) = none → runsTo s i (b.ackAside c (crewOf t) (waveIdOf t) n ep) [])) := by
  intro i n b ep
  have hbody := scack_begun h hact hc
  rw [hobj] at hbody
  refine ⟨fun hhere hstop => ?_, fun hhere hstop => ?_, fun haway => ⟨fun a hi => ?_, fun hi => ?_⟩⟩
  · exact runs_of s _ _ _ [] .step h rfl (hbody.trans ((if_pos hhere).trans (if_pos hstop)))
      (modWave_sound _ _ _ _ (fun w => ack_banks w _ _) (begun_sound h))
  · exact faults_of s _ _ _ _ h rfl (hbody.trans ((if_pos hhere).trans (if_neg (by rw [hstop]; exact Bool.false_ne_true))))
  · refine runs_of s _ _ _ [] .step h rfl (hbody.trans ((if_neg (by rw [haway]; exact Bool.false_ne_true)).trans ?_)) ?_
    · rw [hi]
    · rw [(MemSide.ackImage b _ _ _ _ _).wave]
      exact begun_sound h
  · refine runs_of s _ _ _ [] .step h rfl (hbody.trans ((if_neg (by rw [haway]; exact Bool.false_ne_true)).trans ?_)) (begun_sound h)
    rw [hi]

end

end

/-- Settles O29. -/
theorem specialAndScopeWords : Obligations.SpecialAndScopeWords := by
  unfold Obligations.SpecialAndScopeWords
  refine ⟨⟨srd_runs, sregVal_spec, swr_word⟩, fun s x h hact hg => ⟨fun c hc => ?_, fun hc => ?_, scw_refused h hact hg,
    fun o s1 pa home hobj hn hacc => scw_installs h hact hg hobj hn hacc⟩, installScope_spec, scwComplete_spec,
    fun s x img s1 pa home h hact hg himg hacc => scr_runs h hact hg himg hacc, fun s x c h hc => ?_,
    fun s x h hact hc => ⟨scack_no_wave h hact hc, fun c t hobj => ?_⟩⟩
  · have hctx : (s.begun (.scw x)).ctxOf s.cur = some c := hc
    rw [State.scopeTarget, hctx]
  · obtain ⟨bk, hread, -⟩ := readWave_spec s (.scw x) h
    have hctx : (s.begun (.scw x)).ctxOf s.cur = none := hc
    rw [State.scopeTarget, hctx, begun_wave, hread]
  · have hrun := scack_user h hc
    simp only [ack_eq] at hrun
    exact hrun
  · have hrun := scack_wave h hact hc hobj
    simp only [ack_eq] at hrun
    exact hrun

end Sys2Proof.Machine
end


section
/-! What the clocks, islands, throttles and barrier words can change beside memory: crews too, and still no wave. -/

namespace Sys2Proof.Machine

/-- The engines outside the waves have acted: no wave has changed, and memory is canonical if it was. -/
structure OffWave (s t : State) : Prop where
  frame : t = { s with mem := t.mem, pkg := t.pkg, dies := t.dies, ctxs := t.ctxs, polders := t.polders, cores := t.cores,
                       crews := t.crews, freeCtr := t.freeCtr }
  canon : memWf s.mem = true → memWf t.mem = true

theorem MemSide.off {s t : State} (h : MemSide s t) : OffWave s t where
  frame := by
    rw [h.frame]
  canon := h.canon

namespace OffWave

theorem refl (s : State) : OffWave s s := ⟨rfl, id⟩

theorem trans {s t u : State} (h1 : OffWave s t) (h2 : OffWave t u) : OffWave s u where
  frame := h2.frame.trans (congrArg (fun x : State => { x with
    mem := u.mem, pkg := u.pkg, dies := u.dies, ctxs := u.ctxs, polders := u.polders, cores := u.cores, crews := u.crews,
    freeCtr := u.freeCtr }) h1.frame)
  canon := fun h => h2.canon (h1.canon h)

theorem waves {s t : State} (h : OffWave s t) : t.waves = s.waves := by rw [h.frame]
theorem wave {s t : State} (h : OffWave s t) (k : Key) : t.wave k = s.wave k := by rw [State.wave, h.waves]; rfl

theorem foldl {α : Type} {f : State → α → State} (hf : ∀ s a, OffWave s (f s a)) (ls : List α) (s : State) :
    OffWave s (ls.foldl f s) := by
  induction ls generalizing s with
  | nil => exact refl s
  | cons a r ih => exact (hf s a).trans (ih (f s a))

theorem ite {s t u : State} {p : Prop} [Decidable p] (h1 : OffWave s t) (h2 : OffWave s u) : OffWave s (if p then t else u) := by
  split
  · exact h1
  · exact h2

theorem modCrew (s : State) (k : Key) (f : Crew → Crew) : OffWave s (s.modCrew k f) := ⟨rfl, id⟩
theorem modCore (s : State) (n : Nat) (f : CoreSt → CoreSt) : OffWave s (s.modCore n f) := ⟨rfl, id⟩
theorem modDie (s : State) (d : Nat) (f : Die → Die) : OffWave s (s.modDie d f) := ⟨rfl, id⟩
theorem modPkg (s : State) (f : Pkg → Pkg) : OffWave s (s.modPkg f) := ⟨rfl, id⟩
theorem event (s : State) (d kind : Nat) (h : Word) (w1 : Dword) (key : Nat) : OffWave s (s.event d kind h w1 key) := ⟨rfl, id⟩

-- Throttles (R367).

theorem notice (s : State) (c c8 : Nat) : OffWave s (s.notice c c8) := ite (refl s) ((event s _ _ _ _ _).trans (modPkg _ _))

theorem throttle (s : State) (k : Key) (cause duty : Nat) : OffWave s (s.throttle k cause duty) := by
  unfold State.throttle
  dsimp only
  exact ite (modCrew s _ _) ((modCrew s _ _).trans (notice _ _ _))

theorem unthrottle (s : State) (k : Key) (cause : Nat) : OffWave s (s.unthrottle k cause) := modCrew s _ _

theorem settleDry (s : State) (c : Key) : OffWave s (s.settleDry c) := by
  unfold State.settleDry
  exact ite (ite (refl s) (throttle s _ _ _)) (ite (unthrottle s _ _) (refl s))

-- Barrier words (R319, R320).

theorem holdSlow (s : State) (p d : Nat) : OffWave s (s.holdSlow p d) := by
  unfold State.holdSlow
  refine foldl (fun s k => ?_) _ s
  split
  · exact throttle s _ _ _
  · exact unthrottle s _ _

theorem closeRound (s : State) (i : Nat) (b : Barrier) (last : Nat) : OffWave s (s.closeRound i b last) := by
  unfold State.closeRound
  exact ((modPkg s _).trans (event _ _ _ _ _ _)).trans (foldl (fun s d => holdSlow s _ _) _ _)

theorem barrierStamp (s : State) (pa p : Nat) (k : Key) : OffWave s (s.barrierStamp pa p k) := by
  unfold State.barrierStamp
  split
  · exact refl s
  · exact (modPkg s _).trans (holdSlow _ _ _)

theorem barrierArrive (s : State) (pa p die : Nat) (stamp : Stamp) : OffWave s (s.barrierArrive pa p die stamp) := by
  unfold State.barrierArrive
  split
  · exact refl s
  · split
    · exact refl s
    · exact ite ((modPkg s _).trans (closeRound _ _ _ _)) (modPkg s _)

theorem barrierLeave (s : State) : OffWave s s.barrierLeave := by
  unfold State.barrierLeave
  exact ite (refl s) ((modPkg s _).trans (foldl (fun s e => holdSlow s _ _) _ _))

theorem slowNew (s : State) (k : Key) : OffWave s (s.slowNew k) := by
  unfold State.slowNew
  cases ((s.slowing (polderOf (s.crew k).ctx) (dieOf (coreOfCrew k))).min?) with
  | none => exact refl s
  | some d => exact throttle s _ _ _

-- Islands and clocks (R397 to R399).

theorem islandSettle (s : State) (core : Nat) : OffWave s (s.islandSettle core) := by
  unfold State.islandSettle
  dsimp only
  exact ite (ite (modCore s _ _) (refl s)) (ite (modCore s _ _) (refl s))

theorem beginRelock (s : State) (d m : Nat) : OffWave s (s.beginRelock d m) := by
  unfold State.beginRelock
  exact ((modDie s _ _).trans (foldl (fun s n => modCore s _ _) _ _)).trans (foldl (fun s k => throttle s _ _ _) _ _)

theorem beginStep (s : State) (d m : Nat) : OffWave s (s.beginStep d m) := by
  unfold State.beginStep
  dsimp only
  exact ite (refl s) (ite ((modDie s _ _).trans (modDie _ _ _)) ((modDie s _ _).trans (beginRelock _ _ _)))

theorem writeTgt (s : State) (d m : Nat) (thermal : Bool) : OffWave s (s.writeTgt d m thermal) := by
  unfold State.writeTgt
  dsimp only
  split
  · exact (modDie s _ _).trans (beginStep _ _ _)
  · exact modDie s _ _
  · exact modDie s _ _

theorem setForce (s : State) (core : Nat) (b : Bool) : OffWave s (s.setForce core b) := (modCore s _ _).trans (islandSettle _ _)

theorem devWrite (s : State) (va n v : Nat) : OffWave s (s.devWrite va n v) := by
  unfold State.devWrite
  exact ite (setForce s _ _) (foldl (fun s d => writeTgt s _ _ _) _ s)

end OffWave

end Sys2Proof.Machine
end

section
/-! The access of a memory word: translation of its lanes, one lane's step, and the release and acquire around them. -/

namespace Sys2Proof.Machine

namespace MemSide

theorem trLane {s t : State} {k : Key} {e : Dword} {a : Acc} {pa home : Nat} (h : s.trLane k e a = .ok t pa home) : MemSide s t := by
  unfold State.trLane at h
  split at h
  · injection h with h1
    rw [← h1]
    exact refl s
  · exact translate h

theorem trLanes {k : Key} {size : Nat} {a : Acc} {ls : List LaneAcc} {s t : State} {tr : List (LaneAcc × Nat × Nat)}
    (h : trLanes k size a ls s = .ok t tr) : MemSide s t := by
  induction ls generalizing s tr with
  | nil =>
    injection h with h1
    rw [← h1]
    exact refl s
  | cons l r ih =>
    unfold Machine.trLanes at h
    dsimp only at h
    split at h
    case h_1 s1 pa home htr =>
      have h1 : MemSide s s1 := by
        split at htr
        · exact absurd htr (by simp)
        · exact trLane htr
      split at h
      case h_1 s2 ls2 hr =>
        injection h with h2
        subst h2
        exact h1.trans (ih hr)
      case h_2 hno => exact absurd h (hno _ _)
    all_goals
      split at h
      · exact absurd h (by simp)
      · exact ih h

theorem dropOps (s : State) (eng : EngKind) (key : Nat) : MemSide s (s.dropOps eng key) := ite (refl s) (modPkg s _)

theorem loadLane (s : State) (k : Key) (pa home size : Nat) : MemSide s (s.loadLane k pa home size).2 := by
  unfold State.loadLane
  split
  · exact refl s
  · exact lsuRead s _ _ _ _

theorem cleanCopies (s : State) (cl pa n : Nat) : MemSide s (s.cleanCopies cl pa n) := setDcache s _ _

theorem atomAt (s : State) (k : Key) (pa n : Nat) (f : Nat → Option Nat) : MemSide s (s.atomAt k pa n f).2 := by
  unfold State.atomAt
  dsimp only
  split
  · exact (meetRead s _ _ _).trans (noteExt _ _ _)
  · exact ((((meetRead s _ _ _).trans (homeStore _ _ _ _)).trans (chargeHome _ _ _ _)).trans (cleanCopies _ _ _ _)).trans
      (freshen _ _ _ _)

theorem publish (s : State) (others : BitVec 32) (lines : List Nat) : MemSide s (s.publish others lines) := by
  unfold State.publish
  exact (foldl (fun s c => writeBack s _ _) _ s).trans (modPkg _ _)

theorem markNarrow (s : State) (cl : Nat) (lines : List Nat) : MemSide s (s.markNarrow cl lines) := modPkg s _

theorem accEcc {s t : State} {a : Acc} {i : Instr} {k : Key} {ls : List (LaneAcc × Nat × Nat)} {l : Nat}
    (h : s.accEcc a i k ls = some (l, t)) : MemSide s t := by
  unfold State.accEcc at h
  split at h
  · exact absurd h (by simp)
  · obtain ⟨n, -, hn⟩ := Option.map_eq_some_iff.mp h
    injection hn with _ hn
    rw [← hn]
    exact discardBad s _ _

end MemSide

namespace OffWave

theorem storeLane (s : State) (k : Key) (pa home size v : Nat) : OffWave s (s.storeLane k pa home size v) :=
  ite (devWrite s _ _ _) ((MemSide.noteStore s _ _ _ _).trans (MemSide.lsuWrite _ _ _ _ _ _)).off

theorem arrivals (s : State) (i : Instr) (k : Key) (pa : Nat) (stamp : Stamp) : OffWave s (s.arrivals i k pa stamp) := by
  unfold State.arrivals
  split
  · exact barrierArrive s _ _ _ _
  · exact refl s

theorem stampLanes (s : State) (i : Instr) (k : Key) (ls : List (LaneAcc × Nat × Nat)) : OffWave s (s.stampLanes i k ls) := by
  unfold State.stampLanes
  split
  · exact foldl (fun s a => barrierStamp s _ _ _) _ s
  · exact refl s

theorem stampIssue (s : State) (i : Instr) (k : Key) (ls : List LaneAcc) : OffWave s (s.stampIssue i k ls) :=
  ite (refl s) (stampLanes s _ _ _)

theorem accLane (s : State) (i : Instr) (k : Key) (stamp : Stamp) (a : LaneAcc) (pa home : Nat) :
    OffWave s (s.accLane i k stamp a pa home).2 := by
  unfold State.accLane
  split
  case h_1 | h_2 => exact ((MemSide.touch s _ _ _ _ _ _).trans (MemSide.loadLane _ _ _ _ _)).off
  case h_3 | h_4 => exact (MemSide.touch s _ _ _ _ _ _).off.trans (storeLane _ _ _ _ _ _)
  case h_5 | h_6 | h_7 =>
    dsimp only
    exact (((MemSide.noteStore s _ _ _ _).trans (MemSide.l2Touch _ _ _ _ _)).trans (MemSide.atomAt _ _ _ _ _)).off.trans
      (arrivals _ _ _ _ _)
  case h_8 => exact refl s

theorem accLanesRun (i : Instr) (k : Key) (stamp : Stamp) (ls : List (LaneAcc × Nat × Nat)) (s : State) :
    OffWave s (accLanesRun i k stamp ls s).2 := by
  induction ls generalizing s with
  | nil => exact refl s
  | cons a r ih => exact (accLane s i k stamp _ _ _).trans (ih _)

theorem accRun (s : State) (i : Instr) (k : Key) (stamp : Stamp) (ep : Word) (ls : List (LaneAcc × Nat × Nat)) :
    OffWave s (s.accRun i k stamp ep ls).2 := by
  unfold State.accRun
  split
  · exact accLanesRun i k stamp ls s
  · rename_i x _
    extract_lets cl n inst rel acq lines s1 others s2
    have h1 : MemSide s s1 := MemSide.ite ((MemSide.release s cl inst).trans (MemSide.waveReleases _ k)) (MemSide.refl s)
    have h2 : MemSide s s2 := MemSide.ite h1 (h1.trans (MemSide.publish _ _ _))
    have h3 := h2.off.trans (accLanesRun i k stamp ls s2)
    have h4 := ite (p := (rel && n != 4 && n != 5) = true)
      (h3.trans (MemSide.markNarrow _ cl (wroteLines i ls (Machine.accLanesRun i k stamp ls s2).1)).off) h3
    have h5 := ite (p := acq = true) (h4.trans (MemSide.acquire _ cl inst).off) h4
    exact ite h5 (h5.trans (MemSide.acquire _ _ _).off)

end OffWave

end Sys2Proof.Machine
end

section
/-! O30, loads and stores: what a memory word does, case by case of its body. -/

namespace Sys2Proof.Machine

/-- A word whose body faults in a state of its own raises the fault there. -/
theorem faultsIn_of (s s2 : State) (i : Instr) (body : State → Key → Wave → Eff) (c : FClass) (d : Dword) (h : s.mayIssue i)
    (he : exec i s = .next (s.issue i body)) (hb : body (s.begun i) s.cur (s.readWave i) = .faultIn s2 c d) :
    exec i s = .next (s2.raiseWave s.cur c d ((encodeWave i).getD 0)) := by
  obtain ⟨h1, h2, h3, h4⟩ := h
  obtain ⟨bk, hw, -⟩ := wake_spec (s.wave s.cur) (banksOf (opdsOf i) fun o => o.reads) h4
  have hread : s.readWave i = { s.wave s.cur with banks := bk } := by simp [State.readWave, hw]
  have hbegun : s.setWave s.cur { s.wave s.cur with banks := bk } = s.begun i := by rw [State.begun, hread]
  rw [hread] at hb
  simp [he, State.issue, h1, h2, h3, hw, hbegun, hb]

/-- The epoch with which the lanes of a memory word run: 0 for a load or store, that of the scope check for an atomic word. -/
def State.accEpoch (s : State) (i : Instr) (ep : Word) : Prop :=
  (plainAcc i = true ∧ ep = 0) ∨ ∃ x inst, atomAcc i = some x ∧ (s.begun i).scopeCheck s.cur x.sc.toNat = .inr (ep, inst)

/-- Every memory word of this family issues through the gate of path a. -/
theorem accWord_gated (s : State) (i : Instr) (hi : plainAcc i = true ∨ (atomAcc i).isSome = true) :
    ∃ body, exec i s = .next (s.issue i (memGate 0 body)) := by
  rcases hi with hi | hi
  · cases i <;> simp only [plainAcc, reduceCtorEq] at hi <;> exact ⟨_, rfl⟩
  · cases i <;> simp only [atomAcc, Option.isSome_none, reduceCtorEq] at hi <;> exact ⟨_, rfl⟩

theorem accLanes_banks (i : Instr) (w : Wave) (bk : Tab Bank) : accLanes i { w with banks := bk } = accLanes i w := by
  have hv : Wave.rvn { w with banks := bk } = w.rvn := by
    funext r n l
    exact rvn_congr { w with banks := bk } w rfl r n l
  have hs : Wave.rsn { w with banks := bk } = w.rsn := by
    funext r n
    exact rsn_congr { w with banks := bk } w rfl r n
  cases i
  case stVector | stScalar | atom | red | atomcas =>
    simp only [accLanes, hv, hs]
    rfl
  all_goals rfl

theorem accBody_banks (i : Instr) (m : LaneMask) (ep : Word) (st : Stamp) (s : State) (k : Key) (w : Wave) (bk : Tab Bank) :
    accBody i m ep st s k { w with banks := bk } = accBody i m ep st s k w := by
  simp only [accBody, accLanes_banks]
  rfl

/-- Behind an open gate a memory word does what `accBody` says, with the lanes, the epoch and the moment of its issue. -/
theorem accWord_body (s : State) (i : Instr) (ep : Word) (hep : s.accEpoch i ep) (h : s.mayIssue i) (hg : s.gateOpen 0) :
    ∃ body, exec i s = .next (s.issue i body) ∧
      body (s.begun i) s.cur (s.readWave i) = accBody i (s.actOf i) ep (s.stampNow s.cur) (s.begun i) s.cur (s.wave s.cur) := by
  obtain ⟨bk, hread, -⟩ := readWave_spec s i h
  rcases hep with ⟨hi, rfl⟩ | ⟨x, inst, hi, hsc⟩
  · have hbanks := accBody_banks i (s.actOf i) 0 (s.stampNow s.cur) (s.begun i) s.cur (s.wave s.cur) bk
    cases i <;> simp only [plainAcc, reduceCtorEq] at hi
    all_goals
      refine ⟨_, rfl, (memGate_begun s _ 0 _ h hg).trans ?_⟩
      rw [hread]
      exact hbanks
  · have hbanks := accBody_banks i (s.actOf i) ep (s.stampNow s.cur) (s.begun i) s.cur (s.wave s.cur) bk
    cases i <;> simp only [atomAcc, reduceCtorEq, Option.some.injEq] at hi <;> subst hi
    all_goals
      refine ⟨_, rfl, (memGate_begun s _ 0 _ h hg).trans ?_⟩
      simp only [atomBody, withScope, hsc]
      rw [hread]
      exact hbanks

/-- Whatever acts beside the waves keeps the wave in focus sound. -/
theorem off_sound {s t : State} {i : Instr} (h : s.mayIssue i) (ht : OffWave (s.begun i) t) : (t.wave s.cur).sound := by
  rw [ht.wave, begun_wave]
  exact readWave_sound s i h

/-- A held access leaves the wave's banks as they are. -/
theorem hold_sound {s t : State} {i : Instr} (h : s.mayIssue i) (ht : OffWave (s.begun i) t) (a : HeldAcc) :
    ((t.modWave s.cur fun w => { w with held := w.held ++ [a] }).wave s.cur).sound := by
  rw [State.modWave_wave, if_pos rfl]
  exact off_sound h ht

/-- The lanes of a memory word have been translated and its arrivals stamped: no wave has changed. -/
theorem stamped_off {s s0 : State} {i : Instr} {k : Key} {size : Nat} {a : Acc} {ls : List LaneAcc} {tr : List (LaneAcc × Nat × Nat)}
    (htr : trLanes k size a ls s = .ok s0 tr) : OffWave s (s0.stampLanes i k tr) :=
  (MemSide.trLanes htr).off.trans (OffWave.stampLanes s0 i k tr)

theorem accReady_off {s s1 : State} {i : Instr} {ls : List (LaneAcc × Nat × Nat)} (h : s.accReady i s1 ls) : OffWave (s.begun i) s1 := by
  obtain ⟨-, s0, tr, htr, rfl, -⟩ := h
  exact stamped_off htr

/-- Where its lanes are ready, a memory word performs them. -/
theorem accBody_ready {s s1 : State} {i : Instr} {ls : List (LaneAcc × Nat × Nat)} (m : LaneMask) (ep : Word) (st : Stamp)
    (h : s.accReady i s1 ls) : accBody i m ep st (s.begun i) s.cur (s.wave s.cur) =
      .done ((s1.accRun i s.cur st ep ls).2.dropOps .wave s.cur) (accRes i m (s1.accRun i s.cur st ep ls).1) := by
  obtain ⟨hfault, s0, tr, htr, rfl, hheld, hecc, rfl, hwait⟩ := h
  simp only [accBody, hfault, htr, State.accGo, hheld, hecc, hwait, Bool.false_eq_true, if_false]

/-- The place of the wave in focus while its memory word acts. -/
theorem off_pc {s t : State} {i : Instr} (h : s.mayIssue i) (ht : OffWave (s.begun i) t) : (t.wave s.cur).pc = (s.wave s.cur).pc := by
  obtain ⟨bk, hread, -⟩ := readWave_spec s i h
  rw [ht.wave, begun_wave, hread]
  rfl

/-- A memory word whose body leaves its access held goes on with its result pending. -/
theorem holds_access {s b : State} {i : Instr} {body : State → Key → Wave → Eff} {a : HeldAcc} (h : s.mayIssue i)
    (hexec : exec i s = .next (s.issue i body)) (hb : OffWave (s.begun i) b)
    (hbody : body (s.begun i) s.cur (s.readWave i) = b.hold i s.cur (s.actOf i) a) :
    runsTo s i (b.modWave s.cur fun w => { w with held := w.held ++ [a] }) (heldRes i (s.actOf i)) :=
  runs_of s _ i body _ _ h hexec hbody (hold_sound h hb a)

/-- O30, the gate: behind a held access that missed the wave parks, behind another the word waits at issue. -/
theorem accWord_gate (s : State) (i : Instr) (hi : plainAcc i = true ∨ (atomAcc i).isSome = true) (h : s.mayIssue i) :
    ((s.wave s.cur).missHeld = true → parksAt s i (s.begun i) .miss) ∧
    ((s.wave s.cur).missHeld = false → ¬s.gateOpen 0 → exec i s = .next s) := by
  obtain ⟨body, hexec⟩ := accWord_gated s i hi
  obtain ⟨bk, hread, -⟩ := readWave_spec s i h
  have hmiss : (s.readWave i).missHeld = (s.wave s.cur).missHeld := by
    rw [hread]
    rfl
  refine ⟨fun hm => parks_of s _ i _ _ h hexec ?_, fun hm hgate => holds_of s i _ h hexec ?_⟩
  · rw [memGate, if_pos (hmiss.trans hm)]
  · have hshut : (s.readWave i).held ≠ [] ∨ ((s.readWave i).fences.any fun f => f.1 == 0) = true := by
      rw [hread]
      by_cases hheld : (s.wave s.cur).held = []
      · exact .inr (Bool.eq_true_of_not_eq_false fun hf => hgate ⟨hheld, hf⟩)
      · exact .inl hheld
    rw [memGate, if_neg (by rw [hmiss, hm]; simp), if_pos (by simpa using hshut)]

/-- Settles O30: the cases of `accBody` and `accGo`, each with the state in which the word retires. -/
theorem loadsAndStores : Obligations.LoadsAndStores := by
  unfold Obligations.LoadsAndStores
  refine ⟨accWord_gate, ?_, ?_⟩
  · intro s i k stamp ep ls hi
    cases i <;> simp only [plainAcc, reduceCtorEq] at hi <;> rfl
  · intro s i ep hep h hgate
    obtain ⟨body, hexec, hbody⟩ := accWord_body s i ep hep h hgate
    have hstamp : OffWave (s.begun i) ((s.begun i).stampIssue i s.cur (accLanes i (s.wave s.cur))) := OffWave.stampIssue _ _ _ _
    refine ⟨?ready, ?fault, fun hfault => ⟨?known, ?late, ?busy, ?miss, ?nowhere, ?ok⟩⟩
    case ready =>
      intro s1 ls hready
      exact runs_of s _ i body _ _ h hexec (hbody.trans (accBody_ready _ _ _ hready))
        (off_sound h (((accReady_off hready).trans (OffWave.accRun _ _ _ _ _ _)).trans (MemSide.dropOps _ _ _).off))
    case fault =>
      intro c e hf
      refine faults_of s i body c e h hexec (hbody.trans ?_)
      simp only [accBody, hf]
    case known =>
      intro c det htr
      refine faults_of s i body _ _ h hexec (hbody.trans ?_)
      simp only [accBody, hfault, htr, if_true]
    case late =>
      intro c det htr
      refine holds_access h hexec hstamp (hbody.trans ?_)
      simp only [accBody, hfault, htr, Bool.false_eq_true, if_false]
    case busy =>
      intro htr
      refine holds_access h hexec hstamp (hbody.trans ?_)
      simp only [accBody, hfault, htr]
      rfl
    case miss =>
      intro va c htr hctx
      refine holds_access h hexec (hstamp.trans (MemSide.reportMiss _ _ _ _).off) (hbody.trans ?_)
      have hctx' : (s.begun i).ctxOf s.cur = some c := hctx
      simp only [accBody, hfault, htr, hctx']
    case nowhere =>
      intro va htr hctx
      refine faults_of s i body _ _ h hexec (hbody.trans ?_)
      have hctx' : (s.begun i).ctxOf s.cur = none := hctx
      simp only [accBody, hfault, htr, hctx']
    case ok =>
      intro s0 tr htr
      have hoff : OffWave (s.begun i) (s0.stampLanes i s.cur tr) := stamped_off htr
      have hpc := off_pc h hoff
      refine ⟨?held, ?dry, ?ecc, ?peer⟩
      case held =>
        intro hheld hdry
        refine holds_access h hexec hoff (hbody.trans ?_)
        simp only [accBody, hfault, htr, State.accGo, hheld, hdry, hpc, if_true]
        rfl
      case dry =>
        intro d hdry
        have hheld : (s0.stampLanes i s.cur tr).accHeld i s.cur tr = true := by
          rw [State.accHeld, hdry]
          simp
        refine holds_access h hexec (hoff.trans (OffWave.ite (OffWave.throttle _ _ _ _) (OffWave.refl _))) (hbody.trans ?_)
        simp only [accBody, hfault, htr, State.accGo, hheld, hdry, hpc, if_true, State.holdBack]
        simp
      case ecc =>
        intro hheld l s2 hecc
        split
        case isTrue hw =>
          refine faultsIn_of s s2 i body _ _ h hexec (hbody.trans ?_)
          have hw' : (accOf i == .write) = true := by simpa using hw
          simp only [accBody, hfault, htr, State.accGo, hheld, hecc, hw', Bool.false_eq_true, if_false, if_true]
        case isFalse hw =>
          refine holds_access h hexec (hoff.trans (MemSide.accEcc hecc).off) (hbody.trans ?_)
          have hw' : (accOf i == .write) = false := by simpa using hw
          simp only [accBody, hfault, htr, State.accGo, hheld, hecc, hw', hpc, Bool.false_eq_true, if_false]
      case peer =>
        intro hheld hecc ws hws
        refine holds_access h hexec (hoff.trans (MemSide.foldl (fun s a => MemSide.sendPeer s _ _ _ _ _ _ _ _) _ _).off) (hbody.trans ?_)
        simp only [accBody, hfault, htr, State.accGo, hheld, hecc, hpc, Bool.false_eq_true, if_false]
        split
        case h_1 hnil => exact absurd hnil hws
        case h_2 => rfl

end Sys2Proof.Machine
end


section
/-! O33, fences, cache control and prefetch: what these words do beside the waves, and their bodies behind an open gate. -/

namespace Sys2Proof.Machine

-- A translation leaves the clocks as they are, and so the crossings.

theorem walk_dies {s t : State} {c : Option Nat} {core va : Nat} {a : Acc} {pa home : Nat} (h : s.walk c core va a = .ok t pa home) :
    t.dies = s.dies := by
  unfold State.walk at h
  extract_lets root at h
  split at h
  case h_4 at' e lvl new _ =>
    extract_lets s64 size frame at h
    have h := MemSide.of_ite_ne (MemSide.of_ite_ne (MemSide.of_ite_ne h (by simp)) (by simp)) (by simp)
    split at h
    case h_3 =>
      split at h
      case isTrue =>
        injection h with h1
        rw [← h1]
        have hcharge (ls : List Nat) (s : State) : (ls.foldl (fun (s : State) a => s.charge none a 8) s).dies = s.dies := by
          induction ls generalizing s with
          | nil => rfl
          | cons a r ih => exact ih (s.charge none a 8)
        have hfill (s : State) (d c v : Nat) (n : List (Nat × Nat × Nat)) : (s.walkFill d c v n).dies = s.dies := by
          unfold State.walkFill
          split <;> rfl
        refine (hfill _ _ _ _ _).trans ?_
        split
        · exact hcharge _ _
        · exact hcharge (at' :: new.map (·.2.2)) s
      case isFalse => exact absurd h (by simp)
    all_goals exact absurd h (by simp)
  all_goals exact absurd h (by simp)

theorem translate_dies {s t : State} {c : Option Nat} {core va : Nat} {a : Acc} {pa home : Nat}
    (h : s.translate c core va a = .ok t pa home) : t.dies = s.dies := by
  obtain ⟨p, hp⟩ := MemSide.of_onBus h
  split at hp
  · injection hp with h1
    rw [← h1]
  · split at hp
    · injection hp with h1
      rw [← h1]
      rfl
    · exact walk_dies hp

/-- The translation of a range: beside the waves, and no clock changes. -/
theorem rangeParts_spec {c : Option Nat} {core : Nat} {a : Acc} {p va n : Nat} {s t : State} {ps : List (Nat × Nat × Nat)}
    (h : rangeParts c core a p va n s = some (ps, t)) : MemSide s t ∧ t.dies = s.dies := by
  induction p generalizing va n s ps with
  | zero =>
    injection h with h
    injection h with _ h
    subst h
    exact ⟨MemSide.refl s, rfl⟩
  | succ p ih =>
    unfold rangeParts at h
    dsimp only at h
    split at h
    · injection h with h
      injection h with _ h
      subst h
      exact ⟨MemSide.refl s, rfl⟩
    · split at h
      case h_1 s1 pa home htr =>
        obtain ⟨r, hr, hrt⟩ := Option.map_eq_some_iff.mp h
        injection hrt with _ hrt
        subst hrt
        obtain ⟨hside, hdies⟩ := ih (s := s1) (ps := r.1) hr
        exact ⟨(MemSide.translate htr).trans hside, hdies.trans (translate_dies htr)⟩
      case h_5 => exact absurd h (by simp)
      all_goals exact ih h

theorem linkBusy_of_clocks {s : State} (h : ∀ d, (s.die d).rel = false) (cl : Nat) : s.linkBusy cl = false := by
  simp only [State.linkBusy, h]
  rfl

-- What the cache words do is beside the waves.

namespace MemSide

theorem icFetch (s : State) (c : Option Nat) (cc : Bool) (core line home : Nat) : MemSide s (s.icFetch c cc core line home) :=
  ite (refl s) (ite (clusterLine s _ _ _ _) (fetchLine s _ _ _ _))

theorem setIcTab (s : State) (cc : Bool) (core : Nat) (t : Tab ILine) : MemSide s (s.setIcTab cc core t) := modPkg s _

theorem unpin (s : State) (cc : Bool) (crew : Nat) (p : Nat → Bool) : MemSide s (s.unpin cc crew p) := setIcTab s _ _ _

theorem seeCopies (s : State) (k : Key) : MemSide s (s.seeCopies k) := dropClean s _ _

theorem prefLane (s : State) (lvl : PrefLvl) (k : Key) (e : Dword) : MemSide s (s.prefLane lvl k e) := by
  unfold State.prefLane
  dsimp only
  split
  · exact refl s
  · split
    case h_1 s1 pa home htr =>
      refine (translate htr).trans ?_
      split
      · exact refl s1
      · refine (l2Touch s1 (s.ctxOf k) pa 128 home).trans ?_
        split
        · exact refl _
        · refine ((roomFor _ (clusterOf (coreOf k)) (pa / 128)).trans (fillLine _ (clusterOf (coreOf k)) pa)).trans ?_
          split
          · exact l1Touch _ _ _
          · exact refl _
    all_goals exact refl s

end MemSide

theorem OffWave.pinLine (s : State) (cc : Bool) (crew line : Nat) : OffWave s (s.pinLine cc crew line) := by
  unfold State.pinLine
  dsimp only
  split
  · exact OffWave.refl s
  · exact OffWave.ite (OffWave.refl s) (OffWave.ite (MemSide.setIcTab s _ _ _).off (OffWave.modCore s _ _))

-- Bodies.

/-- Behind an open gate, and with a scope that it may use, a word's body runs with its epoch and its scope. -/
theorem scoped_begun {s : State} {i : Instr} {x : MF} {ep : Word} {inst : ScopeInst} (body : Word → ScopeInst → State → Key → Wave → Eff)
    (h : s.mayIssue i) (hg : s.gateOpen 0) (hsc : (s.begun i).scopeCheck s.cur x.sc.toNat = .inr (ep, inst)) :
    memGate 0 (withScope x body) (s.begun i) s.cur (s.readWave i) = body ep inst (s.begun i) s.cur (s.readWave i) := by
  rw [memGate_begun s i 0 _ h hg, withScope, hsc]

/-- A word on a range of addresses does what its function says on the parts of its range. -/
theorem range_of {s : State} {i : Instr} {x : MF} {a : Acc} {f : List (Nat × Nat × Nat) → State → State}
    {g : List (Nat × Nat × Nat) → State → Eff} {body : State → Key → Wave → Eff} (h : s.mayIssue i)
    (hexec : exec i s = .next (s.issue i body)) (hlk : (lkOf i).pr = x.pr ∧ (lkOf i).pn = x.pn)
    (hbody : body (s.begun i) s.cur (s.readWave i) = rangeBody x a g (s.begun i) s.cur (s.readWave i))
    (hg : ∀ ps b, b.dies = s.dies → g ps b = .done (f ps b) []) (hf : ∀ ps b, OffWave b (f ps b)) : s.rangeRuns i x a f := by
  obtain ⟨hpr, hpn⟩ := hlk
  have hact : (s.readWave i).act x.pr x.pn = s.actOf i := by rw [readWave_act s i h, State.actOf, hpr, hpn]
  refine ⟨fun h0 => ?_, fun h0 ps b hr => ?_, fun h0 hr => ?_⟩
  · refine runs_of s _ i body _ _ h hexec (hbody.trans ?_) (begun_sound h)
    rw [rangeBody, hact, if_pos h0]
  · obtain ⟨hside, hdies⟩ := rangeParts_spec hr
    refine runs_of s _ i body _ _ h hexec (hbody.trans ?_) (off_sound h (hside.off.trans (hf ps b)))
    rw [rangeBody, hact, if_neg h0, hr]
    exact hg ps b hdies
  · refine holds_of s i body h hexec (hbody.trans ?_)
    rw [rangeBody, hact, if_neg h0, hr]

theorem fence_runs {s : State} {x : MF} {ep : Word} {inst : ScopeInst} (h : s.mayIssue (.fence x)) (hg : s.gateOpen 0)
    (hclk : ∀ d, (s.die d).rel = false) (hsc : (s.begun (.fence x)).scopeCheck s.cur x.sc.toNat = .inr (ep, inst)) :
    waveLevelRuns s (.fence x) fun b =>
      let b1 := if 2 ≤ mfOrd x then (b.release (clusterOf (coreOf s.cur)) inst).waveReleases s.cur else b
      if mfOrd x = 1 ∨ 3 ≤ mfOrd x then b1.acquire (clusterOf (coreOf s.cur)) inst else b1 := by
  have hact : (s.readWave (.fence x)).act x.pr x.pn = s.actOf (.fence x) := readWave_act s _ h _ _
  have hlink : (s.begun (.fence x)).linkBusy (clusterOf (coreOf s.cur)) = false := linkBusy_of_clocks hclk _
  have hrel : ordRel (mfOrd x) = decide (2 ≤ mfOrd x) := rfl
  have hacq : ordAcq (mfOrd x) = decide (mfOrd x = 1 ∨ 3 ≤ mfOrd x) := by
    rw [ordAcq, Bool.decide_or]
    rfl
  have hbody := scoped_begun (fenceBody x) h hg hsc
  refine runs_of s _ _ (memGate 0 (withScope x (fenceBody x))) _ _ h rfl (hbody.trans ?_) ?_
  · simp only [fenceBody, hact, hlink, hrel, hacq, Bool.and_false, Bool.false_eq_true, if_false, decide_eq_true_eq]
    split <;> rfl
  · refine off_sound h (OffWave.ite (OffWave.refl _) ?_)
    have h1 : MemSide (s.begun (.fence x)) (if 2 ≤ mfOrd x then
        ((s.begun (.fence x)).release (clusterOf (coreOf s.cur)) inst).waveReleases s.cur else s.begun (.fence x)) :=
      MemSide.ite ((MemSide.release _ _ _).trans (MemSide.waveReleases _ _)) (MemSide.refl _)
    exact (MemSide.ite (h1.trans (MemSide.acquire _ _ _)) h1).off

theorem cflush_runs {s : State} {x : MF} {ep : Word} {inst : ScopeInst} (h : s.mayIssue (.cflush x)) (hg : s.gateOpen 0)
    (hclk : ∀ d, (s.die d).rel = false) (hsc : (s.begun (.cflush x)).scopeCheck s.cur x.sc.toNat = .inr (ep, inst)) :
    s.rangeRuns (.cflush x) x .any fun ps b =>
      if inst.meet = .home ∨ inst.meet = .system then
        b.writeBack (clusterOf (coreOf s.cur)) fun a => inParts ps a && b.covers inst a
      else b := by
  refine range_of h rfl ⟨rfl, rfl⟩ (scoped_begun (cflushBody x) h hg hsc) (fun ps b hdies => ?_)
    fun ps b => (MemSide.ite (MemSide.writeBack b _ _) (MemSide.refl b)).off
  have hlink : b.linkBusy (clusterOf (coreOf s.cur)) = false := linkBusy_of_clocks (fun d => by rw [State.die, hdies]; exact hclk d) _
  cases hm : inst.meet <;> simp [hlink]

theorem cinv_runs {s : State} {x : MF} {ep : Word} {inst : ScopeInst} (h : s.mayIssue (.cinv x)) (hg : s.gateOpen 0)
    (hsc : (s.begun (.cinv x)).scopeCheck s.cur x.sc.toNat = .inr (ep, inst)) :
    s.rangeRuns (.cinv x) x .any fun ps b =>
      (if inst.meet = .home ∨ inst.meet = .system then
        b.dropClean (clusterOf (coreOf s.cur)) fun a => inParts ps a && b.covers inst a
      else b).modPkg fun p =>
        { p with icore := tset p.icore (coreOf s.cur) (cinvLines ps (tget p.icore [] (coreOf s.cur))),
                 iclus := tset p.iclus (clusterOf (coreOf s.cur)) (cinvLines ps (tget p.iclus [] (clusterOf (coreOf s.cur)))) } := by
  refine range_of h rfl ⟨rfl, rfl⟩ (scoped_begun (cinvBody x) h hg hsc) (fun ps b _ => ?_)
    fun ps b => ((MemSide.ite (MemSide.dropClean b _ _) (MemSide.refl b)).trans (MemSide.modPkg _ _)).off
  cases hm : inst.meet <;> simp

theorem pfence_runs (s : State) (x : MF) (h : s.mayIssue (.pfence x)) (hg : s.gateOpen 8) :
    let i := Instr.pfence x
    let ids := s.waveCopies s.cur
    let copies : Prop := s.actOf i ≠ 0 ∧ x.d.toNat = 1 ∧ x.ar.toNat ≠ 1
    (¬copies → runsTo s i (s.begun i) []) ∧
    (copies → ids = [] → runsTo s i ((s.begun i).seeCopies s.cur) []) ∧
    (copies → ids ≠ [] →
      runsTo s i ((s.begun i).modWave s.cur fun w => { w with fences := w.fences ++ [(x.ar.toNat, ids)] }) [fenceRes ids]) := by
  intro i ids copies
  have hact : (s.readWave i).act x.pr x.pn = s.actOf i := readWave_act s _ h _ _
  have hbody := memGate_begun s i 8 (pfenceBody x) h hg
  have hids : (s.begun i).waveCopies s.cur = ids := rfl
  have hcond : ((s.readWave i).act x.pr x.pn = 0 || x.d.toNat ≠ 1 || x.ar.toNat = 1) = true ↔ ¬copies := by
    rw [hact]
    simp only [copies, Bool.or_eq_true, decide_eq_true_eq]
    constructor
    · rintro ((h1 | h1) | h1) ⟨h2, h3, h4⟩
      · exact h2 h1
      · exact h1 h3
      · exact h4 h1
    · intro hc
      by_contra hn
      exact hc ⟨fun h1 => hn (.inl (.inl h1)), by_contra fun h1 => hn (.inl (.inr h1)), fun h1 => hn (.inr h1)⟩
  refine ⟨fun hc => ?_, fun hc hnil => ?_, fun hc hnil => ?_⟩
  · refine runs_of s _ i _ _ _ h rfl (hbody.trans ?_) (begun_sound h)
    exact if_pos (hcond.mpr hc)
  · refine runs_of s _ i _ _ _ h rfl (hbody.trans ?_) (off_sound h (MemSide.seeCopies _ _).off)
    exact (if_neg fun hn => hcond.mp hn hc).trans (if_pos (hids.trans hnil))
  · refine runs_of s _ i _ _ _ h rfl (hbody.trans ?_) ?_
    · exact (if_neg fun hn => hcond.mp hn hc).trans (if_neg fun hn => hnil (hids.symm.trans hn))
    · rw [State.modWave_wave, if_pos rfl]
      exact begun_sound h

theorem pref_runs (s : State) (lvl : PrefLvl) (x : MF) (h : s.mayIssue (.pref lvl x)) (hg : s.gateOpen 0) :
    runsTo s (.pref lvl x)
      ((lanesOf (s.actOf (.pref lvl x))).foldl (fun b l => b.prefLane lvl s.cur ((s.wave s.cur).addrV x l)) (s.begun (.pref lvl x))) [] := by
  refine runs_of s _ _ _ _ _ h rfl ((memGate_begun s _ 0 _ h hg).trans (body_begun s _ (fun s k w =>
    .done ((lanesOf (w.act x.pr x.pn)).foldl (fun s l => s.prefLane lvl k (w.addrV x l)) s) []) h fun _ => rfl)) ?_
  exact off_sound h (MemSide.foldl (fun s l => MemSide.prefLane s _ _ _) _ _).off

/-- Settles O33: each body behind its gate, with the range of the cache words. -/
theorem fencesAndCaches : Obligations.FencesAndCaches := by
  unfold Obligations.FencesAndCaches
  refine ⟨fun s x ep inst => ⟨fence_runs, cflush_runs, cinv_runs⟩, pfence_runs, pref_runs, fun s cc x => ⟨fun h hg => ?_, fun h hg => ?_,
    fun h hg => ?_⟩⟩
  · exact range_of h rfl ⟨rfl, rfl⟩ (memGate_begun s _ 0 _ h hg) (fun _ _ _ => rfl)
      fun _ b => (MemSide.foldl (fun s l => MemSide.icFetch s _ _ _ _ _) _ b).off
  · exact range_of h rfl ⟨rfl, rfl⟩ (memGate_begun s _ 0 _ h hg) (fun _ _ _ => rfl)
      fun _ b => OffWave.foldl (fun s l => (MemSide.icFetch s _ _ _ _ _).off.trans (OffWave.pinLine _ _ _ _)) _ b
  · exact range_of h rfl ⟨rfl, rfl⟩ (memGate_begun s _ 0 _ h hg) (fun _ _ _ => rfl) fun _ b => (MemSide.unpin b _ _ _).off

end Sys2Proof.Machine
end


section
/-! O34 and O35, the scratchpad: its words change crews, and of waves only what lanes that wait for a tag are served. -/

namespace Sys2Proof.Machine

/-- Scratchpad words have acted: only crews and waves have changed, and no wave's register banks. -/
structure SpSide (s t : State) : Prop where
  frame : t = { s with crews := t.crews, waves := t.waves }
  banks : ∀ k, (t.wave k).banks = (s.wave k).banks

namespace SpSide

theorem refl (s : State) : SpSide s s := ⟨rfl, fun _ => rfl⟩

theorem trans {s t u : State} (h1 : SpSide s t) (h2 : SpSide t u) : SpSide s u where
  frame := h2.frame.trans (congrArg (fun x : State => { x with crews := u.crews, waves := u.waves }) h1.frame)
  banks := fun k => (h2.banks k).trans (h1.banks k)

theorem foldl {α : Type} {f : State → α → State} (hf : ∀ s a, SpSide s (f s a)) (ls : List α) (s : State) : SpSide s (ls.foldl f s) := by
  induction ls generalizing s with
  | nil => exact refl s
  | cons a r ih => exact (hf s a).trans (ih (f s a))

theorem ite {s t u : State} {p : Prop} [Decidable p] (h1 : SpSide s t) (h2 : SpSide s u) : SpSide s (if p then t else u) := by
  split
  · exact h1
  · exact h2

theorem modCrew (s : State) (c : Key) (f : Crew → Crew) : SpSide s (s.modCrew c f) := ⟨rfl, fun _ => rfl⟩

theorem setCrew (s : State) (c : Key) (x : Crew) : SpSide s (s.setCrew c x) := ⟨rfl, fun _ => rfl⟩

theorem gotLane (s : State) (k : Key) (l : Nat) (d : Word) : SpSide s (s.modWave k fun w => w.gotLane l d) where
  frame := rfl
  banks := fun q => by
    rw [State.modWave_wave]
    split
    case isTrue h => rw [h]; rfl
    case isFalse => rfl

theorem serveWord (s : State) (c : Key) (n : Nat) : SpSide s (s.serveWord c n) := by
  unfold State.serveWord
  dsimp only
  exact trans (setCrew s c _) (foldl (fun s g => gotLane s _ _ _) _ _)

theorem putWord (s : State) (c : Key) (n : Nat) (x : SpWord) : SpSide s (s.putWord c n x) := (modCrew s c _).trans (serveWord _ _ _)

theorem ldsLane (mode : LdsMode) (n : Nat) (ck : Key) (wid : Nat) (live : Bool) (a l : Nat) (s : State) :
    SpSide s (ldsLane mode n ck wid live a l s).1 := by
  unfold Machine.ldsLane
  dsimp only
  split
  · exact refl s
  · have hwake : SpSide s (if (((s.crew ck).bank (a / 8192)).st == Supply.off) = true then s
        else s.modCrew ck fun c => c.spWake (a / 8192)) := ite (refl s) (modCrew s _ _)
    cases mode with
    | plain | now =>
      dsimp only
      exact modCrew s _ _
    | full =>
      dsimp only
      split
      · exact hwake
      · dsimp only
        exact hwake.trans (modCrew _ _ _)
    | take =>
      dsimp only
      split
      · dsimp only
        exact (hwake.trans (modCrew _ _ _)).trans (putWord _ _ _ _)
      · dsimp only
        exact hwake.trans (modCrew _ _ _)

theorem ldsLanes (mode : LdsMode) (n : Nat) (x : MF) (s : State) (k : Key) (w : Wave) (m : LaneMask) :
    SpSide s (ldsLanes mode n x s k w m).1 := by
  unfold Machine.ldsLanes
  generalize lanesOf m = ls
  suffices h : ∀ p : State × List (Nat × Nat) × LaneMask, SpSide s p.1 → SpSide s (ls.foldl (fun p l =>
      let r := Machine.ldsLane mode n (crewOf k) (waveIdOf k) (w.lst[l] == .live) (w.spAddr x l) l.val p.1
      match r.2 with
      | some v => (r.1, p.2.1 ++ [(l.val, v)], p.2.2)
      | none => (r.1, p.2.1, p.2.2 ||| BitVec.twoPow 32 l.val)) p).1 from h _ (refl s)
  induction ls with
  | nil => exact fun p hp => hp
  | cons l r ih =>
    intro p hp
    refine ih _ ?_
    have hl := hp.trans (ldsLane mode n (crewOf k) (waveIdOf k) (w.lst[l] == .live) (w.spAddr x l) l.val p.1)
    dsimp only
    split
    · exact hl
    · exact hl

theorem stsLane (e : Bool) (n : Nat) (ck : Key) (wid a l v : Nat) (s : State) : SpSide s (stsLane e n ck wid a l v s).1 := by
  unfold Machine.stsLane
  dsimp only
  split
  · dsimp only
    exact (modCrew s _ _).trans (modCrew _ _ _)
  · exact (modCrew s _ _).trans (foldl (fun s i => putWord s _ _ _) _ _)

theorem stsLanes (e : Bool) (n : Nat) (x : MF) (s : State) (k : Key) (w : Wave) (m : LaneMask) :
    SpSide s (stsLanes e n x s k w m).1 := by
  unfold Machine.stsLanes
  generalize w.liveOf m = ls
  suffices h : ∀ p : State × LaneMask, SpSide s p.1 → SpSide s (ls.foldl (fun p l =>
      let r := Machine.stsLane e n (crewOf k) (waveIdOf k) (w.spAddr x l) l.val (w.rvn x.d.toNat n l) p.1
      (r.1, if r.2 then p.2 else p.2 ||| BitVec.twoPow 32 l.val)) p).1 from h _ (refl s)
  induction ls with
  | nil => exact fun p hp => hp
  | cons l r ih => exact fun p hp => ih _ (hp.trans (stsLane _ _ _ _ _ _ _ _))

theorem dropBank (s : State) (c : Key) (b : Nat) : SpSide s (s.dropBank c b) := ite (modCrew s _ _) (modCrew s _ _)

/-- A word whose effects are those of the scratchpad leaves its wave sound. -/
theorem sound {s t : State} {i : Instr} (h : s.mayIssue i) (ht : SpSide (s.begun i) t) : (t.wave s.cur).sound :=
  sound_of_banks _ _ (begun_sound h) (ht.banks s.cur)

end SpSide

-- Banks that an access may use.

/-- A bank of the crew is not being woken by a copy, and a wake of it finds no error (R86, R93). -/
def Crew.bankReady (c : Crew) (b : Nat) : Prop := (c.bank b).st = .retain → (c.bank b).waking = false ∧ (c.bank b).bad = false

theorem wakeBusy_of_ready {c : Crew} {bs : List Nat} (h : ∀ b ∈ bs, c.bankReady b) : c.wakeBusy bs = false := by
  simp only [Crew.wakeBusy, List.any_eq_false, Bool.and_eq_true, beq_iff_eq, not_and]
  intro b hb hst
  rw [(h b hb hst).1]
  simp

theorem firstLost_of_ready {c : Crew} {bs : List Nat} (h : ∀ b ∈ bs, c.bankReady b) : firstLost c bs = none := by
  simp only [firstLost, List.find?_eq_none, Crew.spLost, Bool.and_eq_true, beq_iff_eq, not_and]
  intro b hb hst
  rw [(h b hb hst).2]
  simp

-- LDS and STS.

/-- LDS behind an open gate, where no lane faults and its banks are ready. -/
theorem ldsBody_begun {s : State} {mode : LdsMode} {sz : SpSize} {x : MF} (h : s.mayIssue (.lds mode sz x)) :
    let i := Instr.lds mode sz x
    let c := s.crew (crewOf s.cur)
    let w := s.wave s.cur
    let m := s.actOf i
    let r := ldsLanes mode sz.regs x (s.begun i) s.cur (s.readWave i) m
    (∀ f d, spFault c.spLimit (4 * sz.regs) w x m = some (f, d) →
      ldsBody mode sz x (s.begun i) s.cur (s.readWave i) = .fault f d) ∧
    (spFault c.spLimit (4 * sz.regs) w x m = none → (∀ l ∈ w.liveOf m, mode = .now → (c.bank (w.spAddr x l / 8192)).st ≠ .off) →
      (∀ l ∈ w.liveOf m, c.bankReady (w.spAddr x l / 8192)) →
      ldsBody mode sz x (s.begun i) s.cur (s.readWave i) =
        if r.2.2 = 0 then .done r.1 [resV x.d.toNat sz.regs m fun l => tget r.2.1 0 l.val]
        else
          .wait (r.1.modWave s.cur fun w =>
            { w with tagLeft := w.tagLeft ||| r.2.2,
                     tagGot := Vector.ofFn fun l => if inMask r.2.2 l then w.tagGot[l] else BitVec.ofNat 32 (tget r.2.1 0 l.val) })
            .tag (lateRes [resV x.d.toNat sz.regs m fun _ => 0])) := by
  intro i c w m r
  have hact : (s.readWave i).act x.pr x.pn = m := readWave_act s i h _ _
  obtain ⟨bk, hread, -⟩ := readWave_spec s i h
  have hcrew : (s.begun i).crew (crewOf s.cur) = c := rfl
  have hfault : spFault c.spLimit (4 * sz.regs) (s.readWave i) x m = spFault c.spLimit (4 * sz.regs) w x m := by
    rw [hread]
    rfl
  have hlive : (s.readWave i).liveOf m = w.liveOf m := by
    rw [hread]
    rfl
  have haddr (l : Fin 32) : (s.readWave i).spAddr x l = w.spAddr x l := by
    rw [hread]
    rfl
  refine ⟨fun f d hf => ?_, fun hf hnow hready => ?_⟩
  · simp only [ldsBody, hact, hcrew, hfault, hf]
  · have hoff : (w.liveOf m).find? (fun l => mode == .now && (c.bank (w.spAddr x l / 8192)).st == .off) = none := by
      simp only [List.find?_eq_none, Bool.and_eq_true, beq_iff_eq, not_and]
      exact hnow
    have hbanks : ∀ b ∈ (w.liveOf m).map (fun l => w.spAddr x l / 8192), c.bankReady b := by
      intro b hb
      obtain ⟨l, hl, rfl⟩ := List.mem_map.mp hb
      exact hready l hl
    simp only [ldsBody, hact, hcrew, hfault, hf, hlive, haddr, hoff, wakeBusy_of_ready hbanks, firstLost_of_ready hbanks,
      Bool.false_eq_true, if_false]
    rfl

/-- STS behind an open gate, where no lane faults and its banks are ready. -/
theorem stsBody_begun {s : State} {e : Bool} {sz : SpSize} {x : MF} (h : s.mayIssue (.sts e sz x)) :
    let i := Instr.sts e sz x
    let c := s.crew (crewOf s.cur)
    let w := s.wave s.cur
    let m := s.actOf i
    let r := stsLanes e sz.regs x (s.begun i) s.cur (s.readWave i) m
    (∀ f d, spFault c.spLimit (4 * sz.regs) w x m = some (f, d) → stsBody e sz x (s.begun i) s.cur (s.readWave i) = .fault f d) ∧
    (spFault c.spLimit (4 * sz.regs) w x m = none → (∀ l ∈ w.liveOf m, c.bankReady (w.spAddr x l / 8192)) →
      stsBody e sz x (s.begun i) s.cur (s.readWave i) =
        if r.2 = 0 then .done r.1 []
        else .wait (r.1.modWave s.cur fun w => { w with tagLeft := w.tagLeft ||| r.2 }) .tag (lateRes [])) := by
  intro i c w m r
  have hact : (s.readWave i).act x.pr x.pn = m := readWave_act s i h _ _
  obtain ⟨bk, hread, -⟩ := readWave_spec s i h
  have hcrew : (s.begun i).crew (crewOf s.cur) = c := rfl
  have hfault : spFault c.spLimit (4 * sz.regs) (s.readWave i) x m = spFault c.spLimit (4 * sz.regs) w x m := by
    rw [hread]
    rfl
  have hlive : (s.readWave i).liveOf m = w.liveOf m := by
    rw [hread]
    rfl
  have haddr (l : Fin 32) : (s.readWave i).spAddr x l = w.spAddr x l := by
    rw [hread]
    rfl
  refine ⟨fun f d hf => ?_, fun hf hready => ?_⟩
  · simp only [stsBody, hact, hcrew, hfault, hf]
  · have hbanks : ∀ b ∈ (w.liveOf m).map (fun l => w.spAddr x l / 8192), c.bankReady b := by
      intro b hb
      obtain ⟨l, hl, rfl⟩ := List.mem_map.mp hb
      exact hready l hl
    simp only [stsBody, hact, hcrew, hfault, hf, hlive, haddr, wakeBusy_of_ready hbanks, firstLost_of_ready hbanks, Bool.false_eq_true,
      if_false]
    rfl

-- What one lane does.

theorem spWake_word (c : Crew) (b n : Nat) : (c.spWake b).word n = c.word n := rfl

/-- A word on which no access waits is served at once. -/
theorem putWord_crew_of_no_waiter (s : State) (ck : Key) (n : Nat) (x : SpWord) (h : (s.crew ck).tagq = []) :
    s.putWord ck n x = s.modCrew ck fun c => c.setWord n x := by
  have hq : ((s.modCrew ck fun c => c.setWord n x).crew ck).tagq = [] := by
    rw [State.modCrew_crew, if_pos rfl]
    exact h
  have hserve (c : Crew) (m fuel : Nat) (hc : c.tagq = []) : c.serve m (fuel + 1) = (c, []) := by
    unfold Crew.serve
    rw [hc]
    have heta : ({ c with tagq := [] } : Crew) = c := by rw [← hc]
    simp [heta]
  unfold State.putWord State.serveWord
  dsimp only
  rw [hserve _ _ _ hq]
  simp [State.modCrew, State.setCrew, State.crew, tset_tset]

theorem ldsLane_plain (s : State) (n : Nat) (ck : Key) (wid a l : Nat) :
    let r := ldsLane .plain n ck wid true a l s
    r.2 = some ((s.crew ck).data a n) ∧ (r.1.crew ck).sp = (s.crew ck).sp ∧ ((r.1.crew ck).bank (a / 8192)).st = .full ∧
      r.1.mem = s.mem := by
  have hr : ldsLane .plain n ck wid true a l s = (s.modCrew ck fun c => c.spWake (a / 8192), some ((s.crew ck).data a n)) := rfl
  intro r
  rw [show r = _ from hr]
  refine ⟨rfl, ?_, ?_, rfl⟩
  · rw [State.modCrew_crew, if_pos rfl]
    rfl
  · rw [State.modCrew_crew, if_pos rfl, spWake_bank, if_pos rfl]

/-- An STS of one word on which no access waits stores the word as FULL, and changes no other (R86, R87). -/
theorem stsLane_word (s : State) (ck : Key) (wid a l v : Nat) (hq : (s.crew ck).tagq = []) :
    let r := stsLane false 1 ck wid a l v s
    r.2 = true ∧ (r.1.crew ck).word (a / 4) = { data := wordAt v 0, full := true } ∧ r.1.mem = s.mem ∧
      ∀ n, n ≠ a / 4 → (r.1.crew ck).word n = (s.crew ck).word n := by
  have hput : (s.modCrew ck fun c => c.spWake (a / 8192)).putWord ck (a / 4) { data := wordAt v 0, full := true } =
      (s.modCrew ck fun c => c.spWake (a / 8192)).modCrew ck fun c => c.setWord (a / 4) { data := wordAt v 0, full := true } :=
    putWord_crew_of_no_waiter _ _ _ _ (by
      rw [State.modCrew_crew, if_pos rfl]
      exact hq)
  have hr : stsLane false 1 ck wid a l v s =
      ((s.modCrew ck fun c => c.spWake (a / 8192)).putWord ck (a / 4) { data := wordAt v 0, full := true }, true) := rfl
  have hword (n : Nat) : ((stsLane false 1 ck wid a l v s).1.crew ck).word n =
      if n = a / 4 then { data := wordAt v 0, full := true } else (s.crew ck).word n := by
    rw [hr, hput, State.modCrew_crew, if_pos rfl, Crew.word, Crew.setWord, tget_tset, State.modCrew_crew, if_pos rfl]
    rfl
  refine ⟨rfl, (hword _).trans (if_pos rfl), ?_, fun n hn => (hword n).trans (if_neg hn)⟩
  rw [hr, hput]
  rfl

/-- A FULL word serves every waiting LDS.F, and the first LDS.T (R88). -/
theorem serve_full (c : Crew) (n fuel : Nat) (hfull : (c.word n).full = true) :
    (∀ t ∈ c.tagq, t.word = n → t.kind = .ldsf → (t.wave, t.lane, (c.word n).data) ∈ (c.serve n (fuel + 1)).2) ∧
    (∀ t, c.tagq.find? (fun t => t.word == n && t.kind == .ldst) = some t →
      (t.wave, t.lane, (c.word n).data) ∈ (c.serve n (fuel + 1)).2) := by
  have hrest : (c.tagq.filter fun t => !(t.word == n && t.kind == .ldsf)).find? (fun t => t.word == n && t.kind == .ldst) =
      c.tagq.find? (fun t => t.word == n && t.kind == .ldst) := by
    rw [List.find?_filter]
    congr 1
    funext t
    cases t.kind <;> simp [beq_eq_decide]
  unfold Crew.serve
  simp only [hfull, if_true, hrest]
  constructor
  · intro t ht hw hk
    have hmem : (t.wave, t.lane, (c.word n).data) ∈
        (c.tagq.filter fun t => t.word == n && t.kind == .ldsf).map fun t => (t.wave, t.lane, (c.word n).data) :=
      List.mem_map.mpr ⟨t, List.mem_filter.mpr ⟨ht, by simp [hw, hk]⟩, rfl⟩
    split
    · exact List.mem_append_left _ hmem
    · exact hmem
  · intro t ht
    rw [ht]
    exact List.mem_append_right _ List.mem_cons_self

/-- Settles O34: the bodies of LDS and STS behind an open gate, one lane's step, and the serving of a word. -/
theorem scratchpad : Obligations.Scratchpad := by
  unfold Obligations.Scratchpad
  refine ⟨?lds, ?sts, ldsLane_plain, stsLane_word, fun s core slot n => rfl, serve_full⟩
  case lds =>
    intro s mode sz x i k w c m r h hg
    have hopen := memGate_begun s i 0 (ldsBody mode sz x) h hg
    obtain ⟨hbad, hgood⟩ := ldsBody_begun h
    refine ⟨fun f d hf => faults_of s i _ f d h rfl (hopen.trans (hbad f d hf)), fun hf hready => ?_⟩
    have hbody := hopen.trans (hgood hf (fun l hl => (hready l hl).1) (fun l hl => (hready l hl).2))
    exact ⟨fun h0 => runs_of s _ i _ _ _ h rfl (hbody.trans (if_pos h0)) (SpSide.sound h (SpSide.ldsLanes _ _ _ _ _ _ _)),
      fun h0 => waits_of s _ i _ _ _ h rfl (hbody.trans (if_neg h0))⟩
  case sts =>
    intro s e sz x i k w c m r h hg
    have hopen := memGate_begun s i 0 (stsBody e sz x) h hg
    obtain ⟨hbad, hgood⟩ := stsBody_begun h
    refine ⟨fun f d hf => faults_of s i _ f d h rfl (hopen.trans (hbad f d hf)), fun hf hready => ?_⟩
    have hbody := hopen.trans (hgood hf hready)
    exact ⟨fun h0 => runs_of s _ i _ _ _ h rfl (hbody.trans (if_pos h0)) (SpSide.sound h (SpSide.stsLanes _ _ _ _ _ _ _)),
      fun h0 => waits_of s _ i _ _ _ h rfl (hbody.trans (if_neg h0))⟩

-- O35, SPTAG, SPDROP and the supply of the banks.

theorem sptag_runs (s : State) (full : Bool) (x : MF) (h : s.mayIssue (.sptag full x)) (hg : s.gateOpen 0) :
    let i := Instr.sptag full x
    let k := s.cur
    let ck := crewOf k
    let c := s.crew ck
    let base := (s.wave k).spAddrS x
    let len := ((s.wave k).rs x.d.toNat).toNat
    let ws := (List.range (len / 4)).map fun j => base / 4 + j
    let woken := ((ws.map bankOfWord).dedup).filter fun b => full || (c.bank b).st ≠ .off
    (s.actOf i = 0 → runsTo s i (s.begun i) []) ∧
    (s.actOf i ≠ 0 → base % 4 ≠ 0 ∨ len % 4 ≠ 0 → faultsWith s i .align (BitVec.ofNat 64 base)) ∧
    (s.actOf i ≠ 0 → base % 4 = 0 → len % 4 = 0 → len = 0 → runsTo s i (s.begun i) []) ∧
    (s.actOf i ≠ 0 → base % 4 = 0 → len % 4 = 0 → len ≠ 0 → c.spLimit < base + len →
      faultsWith s i .access (BitVec.ofNat 64 base)) ∧
    (s.actOf i ≠ 0 → base % 4 = 0 → len % 4 = 0 → len ≠ 0 → base + len ≤ c.spLimit → (∀ b ∈ woken, c.bankReady b) →
      runsTo s i
        (ws.foldl (fun t n => if full || ((t.crew ck).word n).full then t.putWord ck n { (t.crew ck).word n with full := full } else t)
          (woken.foldl (fun t b => t.modCrew ck fun y => y.spWake b) (s.begun i))) []) := by
  intro i k ck c base len ws woken
  have hbody : memGate 0 (sptagBody full x) (s.begun i) k (s.readWave i) = sptagBody full x (s.begun i) k (s.wave k) :=
    (memGate_begun s i 0 _ h hg).trans (body_begun s i _ h fun _ => rfl)
  have halign (h1 : base % 4 = 0) (h2 : len % 4 = 0) : ¬(base % 4 ≠ 0 || len % 4 ≠ 0) = true := by simp [h1, h2]
  refine ⟨fun h0 => ?_, fun h0 h1 => ?_, fun h0 h1 h2 h3 => ?_, fun h0 h1 h2 h3 h4 => ?_, fun h0 h1 h2 h3 h4 hready => ?_⟩
  · exact runs_of s _ i _ _ _ h rfl (hbody.trans (if_pos h0)) (begun_sound h)
  · exact faults_of s i _ _ _ h rfl (hbody.trans ((if_neg h0).trans (if_pos (by simpa using h1))))
  · exact runs_of s _ i _ _ _ h rfl (hbody.trans ((if_neg h0).trans ((if_neg (halign h1 h2)).trans (if_pos h3)))) (begun_sound h)
  · exact faults_of s i _ _ _ h rfl
      (hbody.trans ((if_neg h0).trans ((if_neg (halign h1 h2)).trans ((if_neg h3).trans (if_pos h4)))))
  · refine runs_of s _ i _ _ _ h rfl (hbody.trans ((if_neg h0).trans ((if_neg (halign h1 h2)).trans ((if_neg h3).trans
      ((if_neg (Nat.not_lt.mpr h4)).trans ?_))))) (SpSide.sound h ?_)
    · have hbusy : ((s.begun i).crew ck).wakeBusy woken = false := wakeBusy_of_ready hready
      have hlost : firstLost ((s.begun i).crew ck) woken = none := firstLost_of_ready hready
      refine (if_neg fun hn => absurd (hbusy.symm.trans hn) (by simp)).trans ?_
      split
      · rename_i b hb
        exact absurd (hlost.symm.trans hb) (by simp)
      · rfl
    · exact (SpSide.foldl (fun t b => SpSide.modCrew t _ _) _ _).trans
        (SpSide.foldl (fun t n => SpSide.ite (SpSide.putWord t _ _ _) (SpSide.refl t)) _ _)

theorem spdrop_runs (s : State) (x : MF) (h : s.mayIssue (.spdrop x)) (hg : s.gateOpen 0) : waveLevelRuns s (.spdrop x) fun b =>
    ((List.range (min 32 (s.crew (crewOf s.cur)).spbN)).filter fun n => ((s.wave s.cur).rs x.d.toNat).getLsbD n).foldl
      (fun t n => t.dropBank (crewOf s.cur) n) b := by
  have hbody := (memGate_begun s _ 0 (spdropBody x) h hg).trans (body_begun s _ (spdropBody x) h fun _ => rfl)
  refine runs_of s _ _ _ _ _ h rfl (hbody.trans ?_) (SpSide.sound h ?_)
  · exact apply_ite (fun t => Eff.done t [] .step) _ _ _ |>.symm
  · exact SpSide.ite (SpSide.refl _) (SpSide.foldl (fun t n => SpSide.dropBank t _ _) _ _)

theorem dropBank_spec (s : State) (c : Key) (b : Nat) :
    (s.copyPends c b = true → s.dropBank c b = s.modCrew c fun x => { x with spdrop := x.spdrop ||| BitVec.twoPow 32 b }) ∧
    (s.copyPends c b = false →
      (((s.dropBank c b).crew c).bank b).st = .off ∧ ∀ n, bankOfWord n = b → ((s.dropBank c b).crew c).word n = {}) ∧
    exec (.spdropComplete c b) s = .next (if (s.crew c).spdrop.getLsbD b then s.dropBank c b else s) := by
  refine ⟨fun h => if_pos h, fun h => ?_, rfl⟩
  have hdrop : s.dropBank c b = s.modCrew c fun x => { x.spOff b with spdrop := x.spdrop &&& ~~~(BitVec.twoPow 32 b) } :=
    if_neg (by rw [h]; simp)
  rw [hdrop, State.modCrew_crew, if_pos rfl]
  constructor
  · show (tget (tset (s.crew c).spb b {}) {} b).st = .off
    rw [tget_tset, if_pos rfl]
  · intro n hn
    show tget ((s.crew c).sp.filter fun e => bankOfWord e.1 ≠ b) {} n = {}
    rw [tget_filter _ (fun m => decide (bankOfWord m ≠ b)), if_neg (by simp [hn])]

/-- Settles O35: the bodies of SPTAG and SPDROP, and the steps of the banks. -/
theorem scratchpadBanks : Obligations.ScratchpadBanks := by
  unfold Obligations.ScratchpadBanks
  refine ⟨sptag_runs, spdrop_runs, dropBank_spec, fun s c b hwake hclk hlost => ?_, fun s c b hdue => ?_,
    fun s c b hst hth hquiet hpend => ?_⟩
  · simp only [exec, execSpBankWakeDone, State.spWakeEnd, hwake, hclk, hlost, Bool.and_self, if_true, Bool.false_eq_true, if_false]
  · exact congrArg Host.Outcome.next (if_neg (by rw [hdue]; decide))
  · simp [exec, execSpBankRetain, hst, hth, hquiet, hpend]

end Sys2Proof.Machine
end


section
/-! O36 to O38, the matrix stream: a word of the sequencer in focus whose turn has come. -/

namespace Sys2Proof.Machine

/-- A stream word whose body is done acts, and the sequencer goes on. -/
theorem seqRuns_of {s s1 : State} {i : Instr} {body : State → Key → Crew → SeqEff} {next : Option Nat} (h : s.seqReady i)
    (he : exec i s = .next (s.seqIssue i body)) (hb : body s s.seqKey (s.crew s.seqKey) = .done s1 next) : seqRuns s i s1 next := by
  obtain ⟨hlive, hheld⟩ := h
  unfold State.seqLive at hlive
  unfold seqRuns
  simp [he, State.seqIssue, hlive, hheld, hb]

/-- A stream word whose body answers that it waits leaves the state of its wait. -/
theorem seqWaits_of {s s1 : State} {i : Instr} {body : State → Key → Crew → SeqEff} (h : s.seqReady i)
    (he : exec i s = .next (s.seqIssue i body)) (hb : body s s.seqKey (s.crew s.seqKey) = .wait s1) : exec i s = .next s1 := by
  obtain ⟨hlive, hheld⟩ := h
  unfold State.seqLive at hlive
  simp [he, State.seqIssue, hlive, hheld, hb]

/-- A stream word whose body faults takes the fault once no earlier product can be taken back (R287). -/
theorem seqFaults_of {s : State} {i : Instr} {body : State → Key → Crew → SeqEff} {cls : FClass} {det : Dword} (h : s.seqReady i)
    (he : exec i s = .next (s.seqIssue i body)) (hb : body s s.seqKey (s.crew s.seqKey) = .fault cls det)
    (hopen : (s.core (coreOfCrew s.seqKey)).openFor (cslotOf s.seqKey) = false) : seqFaults s i cls det := by
  obtain ⟨hlive, hheld⟩ := h
  unfold State.seqLive at hlive
  unfold seqFaults
  simp [he, State.seqIssue, hlive, hheld, hb, hopen]

-- O36. A faulting word waits while an earlier product of its crew is not executed, even one on another tile.

/-- A product on tile 5 that waits for the engine. -/
def waitingProduct : Product :=
  { cslot := 0, word := 0, mpc := 0, mode := 0, fmt := 0, scaled := false, blk := 16, acc := 5, zero := false, hold := false, ra := 0, rb := 0,
    aoff := 0, aUnit := 0, bUnit := 0, aIdx := [], bIdx := [], latched := false, kept := false, back := {} }

/-- Crew 0 runs a stream while its product on tile 5 waits for the engine, and tile 3 belongs to crew slot 1. -/
def foreignTile : State :=
  { State.reset with onSeq := true, cur := 0, crews := [(0, { seq := { st := .run } })],
                     cores := [(0, { issued := [waitingProduct], tiles := [(3, { own := some 1 })] })] }

/-- AZERO of tile 3. -/
def zeroForeign : Instr := .azero { acc := 3 }

theorem foreignTile_ready : foreignTile.seqReady zeroForeign := by
  exact ⟨rfl, rfl⟩

/-- The word waits for the product, although it names another tile. -/
theorem foreignTile_waits : exec zeroForeign foreignTile = .next foreignTile := rfl

theorem foreignTile_faultStops : ((foreignTile.raiseSeq 0 .access 3 ((encodeSeq zeroForeign).getD 0)).crew 0).seq.stopped = true := by
  decide

/-- Refutes O36: a word that names a tile of another crew does not fault while an earlier product of its own crew waits for the engine; in
`foreignTile`, AZERO of tile 3 waits for the product on tile 5, and nothing has changed. -/
theorem not_streamWords : ¬ Obligations.StreamWords := by
  unfold Obligations.StreamWords
  intro h
  have hfault := (h.1 foreignTile { acc := 3 } zeroForeign [3] (fun _ => List.replicate 4096 0) (.inl ⟨rfl, rfl, rfl⟩) foreignTile_ready).2
    3 (by decide)
  unfold seqFaults at hfault
  have heq : foreignTile = foreignTile.raiseSeq 0 .access 3 ((encodeSeq zeroForeign).getD 0) :=
    Host.Outcome.next.inj (foreignTile_waits.symm.trans hfault)
  have hstop := foreignTile_faultStops
  rw [← heq] at hstop
  exact absurd hstop (by decide)

-- O37, MARV and MWAIT.

/-- A crew slot without incomplete products has none that the engine has not executed. -/
theorem openFor_of_prods_nil {y : CoreSt} {cslot : Nat} (h : y.prods cslot = []) : y.openFor cslot = false := by
  have hnone : ∀ p ∈ y.issued ++ y.attempt.toList.map (·.toProduct) ++ y.fixing.map (·.toProduct), ¬(p.cslot == cslot) = true :=
    List.filter_eq_nil_iff.mp h
  rw [CoreSt.openFor, Bool.or_eq_false_iff]
  constructor
  · rw [List.any_eq_false]
    exact fun p hp => hnone p (List.mem_append_left _ (List.mem_append_left _ hp))
  · cases ha : y.attempt with
    | none => rfl
    | some m =>
      have hm := hnone m.toProduct (List.mem_append_left _ (List.mem_append_right _ (by simp [ha])))
      exact Bool.eq_false_of_not_eq_true hm

/-- A word that waits for every earlier one finds no product of its crew that is not executed. -/
theorem not_openFor_of_waitsAll {s : State} {i : Instr} (h : s.seqReady i) (hw : waitsAll i = true) :
    (s.core (coreOfCrew s.seqKey)).openFor (cslotOf s.seqKey) = false := by
  refine openFor_of_prods_nil ?_
  have hheld := h.2
  simp only [CoreSt.seqHeld, hw, Bool.true_and, Bool.or_eq_false_iff, bne_eq_false_iff_eq] at hheld
  exact hheld.1.1

/-- Settles O37: the bodies of MARV and MWAIT. -/
theorem streamMeetings : Obligations.StreamMeetings := by
  unfold Obligations.StreamMeetings
  intro s c x
  refine ⟨fun weir cnt h => ⟨fun hcount => ?_, fun hcount => ?_⟩, fun weir h => ⟨fun h1 h2 => ?_, fun hno => ?_⟩⟩
  · refine seqRuns_of h rfl ?_
    show marvBody weir.toNat cnt.toNat s c x = _
    rw [marvBody, State.arrive, if_neg (not_not_intro hcount)]
    rfl
  · refine seqFaults_of h rfl ?_ (not_openFor_of_waitsAll h rfl)
    show marvBody weir.toNat cnt.toNat s c x = _
    rw [marvBody, State.arrive, if_pos hcount]
    rfl
  · refine seqRuns_of h rfl ?_
    have hready : x.phaseReady weir.toNat = true := by
      rw [Crew.phaseReady, Bool.and_eq_true, decide_eq_true_eq, decide_eq_true_eq]
      exact ⟨h1, h2⟩
    exact if_pos hready
  · refine seqWaits_of h rfl ?_
    have hready : ¬x.phaseReady weir.toNat = true := by
      rw [Crew.phaseReady, Bool.and_eq_true, decide_eq_true_eq, decide_eq_true_eq]
      exact hno
    exact if_neg hready

-- O38, matrix products: issue.

theorem mmaBody_exec {i : Instr} {q : QF} (s : State) (h : mmaWord i = some q) : exec i s = .next (s.seqIssue i (mmaBody i q)) := by
  cases i <;> simp only [mmaWord, reduceCtorEq, Option.some.injEq] at h <;> subst h <;> rfl

theorem mma_issue (s : State) (i : Instr) (q : QF) (hi : mmaWord i = some q) (h : s.seqReady i) :
    let c := s.seqKey
    let x := s.crew c
    let core := coreOfCrew c
    let pends : Prop := ∃ n ∈ [q.ra.toNat, q.rb.toNat], (s.core core).obPends (cslotOf c) n = true
    (pends → exec i s = .next s) ∧
    (∀ f d, ¬pends → s.mmaCheck c x (mmaKind i).1 (mmaKind i).2 q = .inl (f, d) → (s.core core).openFor (cslotOf c) = false →
      seqFaults s i f d) ∧
    (∀ p, ¬pends → s.mmaCheck c x (mmaKind i).1 (mmaKind i).2 q = .inr p →
      let s1 := (s.takeTiles core (cslotOf c) [q.acc.toNat]).modCore core fun y =>
        { y with issued := y.issued ++ [mmaProduct c x i q p] }
      (mmaProduct c x i q p).mode = mmaMode x q ∧ seqRuns s i ((s1.islandSettle core).engineGo core) none) := by
  intro c x core pends
  have hexec := mmaBody_exec s hi
  have hpends : pends ↔ ((s.core core).obPends (cslotOf c) q.ra.toNat || (s.core core).obPends (cslotOf c) q.rb.toNat) = true := by
    simp [pends]
  refine ⟨fun hp => seqWaits_of h hexec (if_pos (hpends.mp hp)), fun f d hp hcheck hopen => ?_, fun p hp hcheck => ⟨rfl, ?_⟩⟩
  · refine seqFaults_of h hexec ((if_neg (fun hn => hp (hpends.mpr hn))).trans ?_) hopen
    rw [hcheck]
  · refine seqRuns_of h hexec ((if_neg (fun hn => hp (hpends.mpr hn))).trans ?_)
    rw [hcheck]

-- The engine takes products.

theorem mmaNext_spec (s : State) (core : Nat) (p : Product) (h : s.mmaNext core = some p) :
    p ∈ (s.core core).heads ∧ s.mmaReady core p = true ∧
    ((s.core core).engLast = some p.cslot → ∀ r ∈ (s.core core).heads, s.mmaReady core r = true → r.cslot = p.cslot) := by
  unfold State.mmaNext at h
  dsimp only at h
  cases hfind : ((s.core core).heads.filter fun p => s.mmaReady core p).find? fun p => (s.core core).engLast != some p.cslot with
  | some r =>
    rw [hfind] at h
    injection h with h
    subst h
    obtain ⟨hmem, hready⟩ := List.mem_filter.mp (List.mem_of_find?_eq_some hfind)
    have hne := List.find?_some hfind
    exact ⟨hmem, hready, fun heq => absurd heq (by simpa using hne)⟩
  | none =>
    rw [hfind] at h
    obtain ⟨hmem, hready⟩ := List.mem_filter.mp (List.mem_of_mem_head? h)
    refine ⟨hmem, hready, fun heq r hr hrr => ?_⟩
    have hlast := List.find?_eq_none.mp hfind r (List.mem_filter.mpr ⟨hr, hrr⟩)
    have hsame : (s.core core).engLast = some r.cslot := by simpa using hlast
    exact Option.some.inj (hsame.symm.trans heq)

theorem mmaDone_mem (s : State) (core : Nat) (m : Attempt) (es : List Word) (act : Option Nat) :
    (s.mmaDone core m es act).mem = s.mem := by
  unfold State.mmaDone
  cases act with
  | none => simp only [islandSettle_mem, State.meter, State.modPolder_mem, State.putTile, State.modCore_mem]
  | some a =>
    simp only [islandSettle_mem, State.relCount, State.meter, State.modPolder_mem, State.putTile, State.modCore_mem, State.modCrew_mem]

theorem mmaDone_tile_ne (s : State) (core : Nat) (m : Attempt) (es : List Word) (act : Option Nat) (n : Nat) (hn : n ≠ m.acc) :
    ((s.mmaDone core m es act).core core).tile n = (s.core core).tile n := by
  obtain ⟨i, hi⟩ := mmaDone_core s core m es act
  rw [hi]
  simp only [State.putTile, CoreSt.tile, State.modCore_core, if_true]
  exact tget_tset_ne _ _ _ _ _ hn

theorem mmaStart_fresh (s : State) (core : Nat) (p : Product) : (s.mmaStart core p).toProduct = p := rfl

/-- What an attempt has got does not change what is exact. -/
theorem exact_of_attempt (m : Attempt) (got : List Word) (below counted : Bool) :
    { m with got := got, below := below, counted := counted }.exact = m.exact := rfl

/-- An attempt without an injected bit keeps what its late bits have made of it. -/
theorem unstruck_of_none {m : Attempt} (h : m.strike = none) : m.unstruck = m := by
  unfold Attempt.unstruck
  rw [h]

theorem takeEngine_spec (s : State) (core : Nat) (p : Product) :
    let m := s.mmaStart core p
    let t := s.takeEngine core p
    (t.core core).engLast = some p.cslot ∧ t.mem = s.mem ∧
    (p.mode = 0 → m.exact.length = 4096 → ((t.core core).tile p.acc).elems = m.exact ∧ (t.core core).attempt = (s.core core).attempt) ∧
    (p.mode ≠ 0 → ∃ a, (t.core core).attempt = some a ∧ a.toProduct = p ∧ a.num = 1 ∧ a.phase = .attempt ∧ a.exact = m.exact ∧
      (a.below = false → a.got = m.exact) ∧ (∀ n, (t.core core).tile n = (s.core core).tile n)) := by
  intro m t
  obtain ⟨s1, hs1⟩ : ∃ s1, s1 = (s.modCore core fun y => { y with issued := y.issued.erase p, engLast := some p.cslot }).modSeq
    (crewKey core p.cslot) fun q => { q with latch := m.latchAfter } := ⟨_, rfl⟩
  have hcore : s1.core core = { s.core core with issued := (s.core core).issued.erase p, engLast := some p.cslot } := by
    rw [hs1, State.modSeq, State.modCrew_core, State.modCore_core, if_pos rfl]
  have hmem : s1.mem = s.mem := by rw [hs1]; rfl
  by_cases hmode : p.mode = 0
  · have ht : t = s1.mmaDone core m m.exact none := by
      rw [hs1]
      exact if_pos hmode
    obtain ⟨i, hi⟩ := mmaDone_core s1 core m m.exact none
    refine ⟨?_, ?_, fun _ hlen => ⟨?_, ?_⟩, fun hne => absurd hmode hne⟩
    · rw [ht, hi]
      simp [State.putTile, hcore]
    · rw [ht, mmaDone_mem, hmem]
    · rw [ht]
      exact mmaDone_elems s1 core m m.exact none hlen
    · rw [ht, mmaDone_attempt, hcore]
  · have ht : t = (s1.runAttempt core m).1.modCore core fun y => { y with attempt := some (s1.runAttempt core m).2 } := by
      rw [hs1]
      exact if_neg hmode
    have hrun : (s1.runAttempt core m).1.cores = s1.cores ∧ (s1.runAttempt core m).1.mem = s1.mem := by
      unfold State.runAttempt
      dsimp only
      split <;> exact ⟨rfl, rfl⟩
    obtain ⟨hcores, hrmem⟩ := hrun
    have htcore : t.core core = { s.core core with issued := (s.core core).issued.erase p, engLast := some p.cslot,
                                                   attempt := some (s1.runAttempt core m).2 } := by
      rw [ht, State.modCore_core, if_pos rfl, State.core, hcores]
      exact congrArg (fun y : CoreSt => { y with attempt := some (s1.runAttempt core m).2 }) hcore
    refine ⟨by rw [htcore], ?_, fun h0 => absurd h0 hmode, fun _ => ⟨(s1.runAttempt core m).2, by rw [htcore], ?_⟩⟩
    · rw [ht]
      exact hrmem.trans hmem
    · have hatt : (s1.runAttempt core m).2 =
          { m with got := if s1.belowVg core then m.exact.zipIdx.map fun e => e.1 ^^^ Config.lateBits s1.free.1 e.2 else m.exact,
                   below := s1.belowVg core,
                   counted := s1.belowVg core && s1.islandMode core == .over && !s1.holdWanted core } := by
        unfold State.runAttempt
        dsimp only
        exact unstruck_of_none rfl
      rw [hatt]
      refine ⟨mmaStart_fresh s core p, rfl, rfl, exact_of_attempt m _ _ _, fun hb => ?_, fun n => by rw [htcore]; rfl⟩
      have hb' : s1.belowVg core = false := hb
      simp only [hb', Bool.false_eq_true, if_false]

-- Verdicts.

theorem inject_of_none {s : State} {core : Nat} (m : Attempt) (h : (s.core core).inj = none) : s.inject core m = (s, m) := by
  unfold State.inject
  rw [h]

theorem fewLines_iff (l : List Nat) : fewLines l = true ↔ 1 ≤ l.length ∧ l.length ≤ 2 := by simp [fewLines]

theorem verdict_spec (s : State) (core : Nat) (m : Attempt) (ha : (s.core core).attempt = some m) (hphase : m.phase = .attempt)
    (hclk : s.clockOn core = true) (hinj : (s.core core).inj = none) :
    let f := m.fails
    let m1 := { m.noteFirst f.1 f.2 with failRows := f.1, failCols := f.2 }
    let m2 := { m1.tally true false with num := m.num + 1 }
    let verdictIs (t : State) : Prop := exec (.mmaAttemptVerdict core) s = .next (t.engineGo core)
    (m.mode ≠ 2 → f.1 = [] → f.2 = [] →
      verdictIs ((s.leaveEngine core).mmaDone core (m1.tally false false) m.got (some (if m.num = 1 then 0 else 2)))) ∧
    (m.mode = 2 → verdictIs ((s.leaveEngine core).mmaDone core (m1.tally (decide (f.1 ≠ []) || decide (f.2 ≠ [])) false) m.got
      (some (if f.1 ≠ [] ∨ f.2 ≠ [] then 5 else 0)))) ∧
    (m.mode ≠ 2 → 1 ≤ f.1.length → f.1.length ≤ 2 → 1 ≤ f.2.length → f.2.length ≤ 2 →
      verdictIs (s.modCore core fun y => { y with attempt := none, fixing := y.fixing ++ [{ m1 with phase := .correct }] })) ∧
    (m.mode ≠ 2 → (f.1 ≠ [] ∨ f.2 ≠ []) → ¬(1 ≤ f.1.length ∧ f.1.length ≤ 2 ∧ 1 ≤ f.2.length ∧ f.2.length ≤ 2) →
      s.seqStopped core m.cslot = false →
      (m.num < 3 → verdictIs ((s.runAttempt core m2).1.modCore core fun y => { y with attempt := some (s.runAttempt core m2).2 })) ∧
      (3 ≤ m.num → s.belowVg core = false → verdictIs ((s.leaveEngine core).mmaGuarded core m2)) ∧
      (3 ≤ m.num → s.belowVg core = true →
        verdictIs ((s.guardStep core (polderOf (s.crew (crewKey core m.cslot)).ctx)).modCore core fun y =>
          { y with attempt := some { m2 with phase := .reissue } }))) := by
  intro f m1 m2 verdictIs
  have hexec := exec_mmaAttemptVerdict s core m ha hphase hclk
  have hverdict (t : State) (h : s.verdict core m = t) : verdictIs t := by
    show exec (.mmaAttemptVerdict core) s = _
    rw [hexec, h]
  have hstart : s.verdict core m =
      if m.mode = 2 then (s.leaveEngine core).mmaDone core (m1.tally (f.1 ≠ [] || f.2 ≠ []) false) m.got
        (some (if (f.1 ≠ [] || f.2 ≠ []) = true then 5 else 0))
      else if (!(f.1 ≠ [] || f.2 ≠ [])) = true then
        (s.leaveEngine core).mmaDone core (m1.tally false false) m.got (some (if m.num = 1 then 0 else 2))
      else if (fewLines f.1 && fewLines f.2) = true then
        s.modCore core fun y => { y with attempt := none, fixing := y.fixing ++ [{ m1 with phase := .correct }] }
      else if s.seqStopped core m.cslot = true then s.dropAttempt core m
      else if m2.num < 4 then
        (s.runAttempt core m2).1.modCore core fun y => { y with attempt := some (s.runAttempt core m2).2 }
      else if s.belowVg core = true then
        (s.guardStep core (polderOf (s.crew (crewKey core m.cslot)).ctx)).modCore core fun y =>
          { y with attempt := some { m2 with phase := .reissue } }
      else (s.leaveEngine core).mmaGuarded core m2 := by
    unfold State.verdict
    rw [inject_of_none m hinj]
  refine ⟨fun hm h1 h2 => hverdict _ ?_, fun hm => hverdict _ ?_, fun hm h1 h2 h3 h4 => hverdict _ ?_,
    fun hm hfail hmany hstop => ?_⟩
  · exact hstart.trans ((if_neg hm).trans (if_pos (by rw [h1, h2]; rfl)))
  · rw [hstart, if_pos hm]
    simp only [Bool.or_eq_true, decide_eq_true_eq]
  · have hne : f.1 ≠ [] := List.ne_nil_of_length_pos h1
    refine hstart.trans ((if_neg hm).trans ((if_neg (by simp [hne])).trans (if_pos ?_)))
    rw [Bool.and_eq_true, fewLines_iff, fewLines_iff]
    exact ⟨⟨h1, h2⟩, h3, h4⟩
  · have hfew : ¬(fewLines f.1 && fewLines f.2) = true := by
      rw [Bool.and_eq_true, fewLines_iff, fewLines_iff]
      exact fun hn => hmany ⟨hn.1.1, hn.1.2, hn.2.1, hn.2.2⟩
    have hrest := hstart.trans ((if_neg hm).trans ((if_neg (by rcases hfail with hf | hf <;> simp [hf])).trans ((if_neg hfew).trans
      (if_neg (by rw [hstop]; simp)))))
    have hnum : m2.num = m.num + 1 := rfl
    refine ⟨fun hn => hverdict _ ?_, fun hn hvg => hverdict _ ?_, fun hn hvg => hverdict _ ?_⟩
    · exact hrest.trans (if_pos (by rw [hnum]; omega))
    · exact hrest.trans ((if_neg (by rw [hnum]; omega)).trans (if_neg (by rw [hvg]; simp)))
    · exact hrest.trans ((if_neg (by rw [hnum]; omega)).trans (if_pos hvg))

-- Injection.

theorem flipBit_getD (es : List Word) (n b k : Nat) (hk : k < es.length) :
    (flipBit es n b).getD k 0 = if k = n then es.getD k 0 ^^^ BitVec.twoPow 32 b else es.getD k 0 := by
  rw [flipBit, List.getD_eq_getElem?_getD, List.getElem?_modify, List.getD_eq_getElem _ _ hk, List.getElem?_eq_getElem hk]
  by_cases h : k = n
  · simp [h]
  · simp [h, Ne.symm h]

theorem bare_length (m : Attempt) (i j : Nat) : (m.bare i j).length = m.got.length := by simp [Attempt.bare]

/-- Outside its row and column, `bare` leaves an element as it came. -/
theorem bare_getD (m : Attempt) (i j r d : Nat) (hk : 64 * r + d < m.got.length) (hd : d < 64) (hr : r ≠ i) (hc : d ≠ j) :
    (m.bare i j).getD (64 * r + d) 0 = m.got.getD (64 * r + d) 0 := by
  have hdiv : (64 * r + d) / 64 = r := by omega
  have hmod : (64 * r + d) % 64 = d := by omega
  rw [List.getD_eq_getElem _ _ (by rw [bare_length]; exact hk), List.getD_eq_getElem _ _ hk]
  simp only [Attempt.bare, List.getElem_map, List.getElem_zipIdx, Nat.zero_add, hdiv, hmod]
  exact if_neg (fun h => h.elim hr hc)

theorem inject_spec (s : State) (core : Nat) (m : Attempt) (j : Inject) (hinj : (s.core core).inj = some j) (hnum : m.num = 1)
    (hctx : j.ctx = (s.crew (crewKey core m.cslot)).ctx) (htile : j.tile = m.acc) (hlen : m.got.length = 4096) (hrow : j.row < 64)
    (hcol : j.col < 64) :
    let n := 64 * j.row + j.col
    let a := (s.inject core m).2
    let alone : Attempt :=
      { m with got := flipBit (m.bare j.row j.col) n j.bit, strike := some (j.row, j.col), counted := false }
    (s.inject core m).1 = (s.modCore core fun y => { y with inj := none }) ∧ a.injected = true ∧ a.toProduct = m.toProduct ∧
    (a.got.getD n 0 = m.got.getD n 0 ^^^ BitVec.twoPow 32 j.bit ∨ a.got = alone.got) ∧
    (∀ r < 64, ∀ d < 64, r ≠ j.row → d ≠ j.col → a.got.getD (64 * r + d) 0 = m.got.getD (64 * r + d) 0) ∧
    (alone.shown j.row j.col = true → a.shown j.row j.col = true) := by
  intro n a alone
  have hstep : s.inject core m = (s.modCore core fun y => { y with inj := none }, m.struck j) := by
    unfold State.inject
    rw [hinj]
    exact if_pos ⟨hnum, hctx, htile⟩
  have ha : a = m.struck j := congrArg Prod.snd hstep
  obtain ⟨plain, hplain⟩ : ∃ plain : Attempt, plain =
    { m with got := flipBit m.got n j.bit, strike := some (j.row, j.col), counted := false } := ⟨_, rfl⟩
  have hcase : a = if (plain.shown j.row j.col || !alone.shown j.row j.col) = true then plain else alone := by
    rw [ha, hplain]
    rfl
  have hn : n < m.got.length := by rw [hlen]; omega
  refine ⟨congrArg Prod.fst hstep, ?_, ha ▸ Attempt.struck_toProduct m j, ?_, fun r hr d hd hrne hdne => ?_, fun hshown => ?_⟩
  · rw [hcase, hplain]
    split <;> rfl
  · rw [hcase]
    split
    · left
      rw [hplain]
      exact (flipBit_getD _ _ _ _ hn).trans (if_pos rfl)
    · exact .inr rfl
  · have hk : 64 * r + d < m.got.length := by rw [hlen]; omega
    have hne : 64 * r + d ≠ n := by omega
    rw [hcase]
    split
    · rw [hplain]
      exact (flipBit_getD _ _ _ _ hk).trans (if_neg hne)
    · exact (flipBit_getD _ _ _ _ (by rw [bare_length]; exact hk)).trans ((if_neg hne).trans (bare_getD m _ _ r d hk hd hrne hdne))
  · rw [hcase]
    split
    · rename_i hor
      simpa [hshown] using hor
    · exact hshown

-- Corrections and guard steps.

theorem correctionDone_spec (s : State) (core : Nat) (m : Attempt) (r : List Attempt) (hfix : (s.core core).fixing = m :: r)
    (hclk : s.clockOn core = true) :
    let ex := m.exact
    let at' := m.failRows.flatMap fun r => m.failCols.map fun j => 64 * r + j
    let same := at'.all fun n => m.got.getD n 0 == ex.getD n 0
    exec (.mmaCorrectionDone core) s = .next
      (((s.modCore core fun y => { y with fixing := r }).mmaDone core (m.tally true same)
        (at'.foldl (fun l n => l.set n (ex.getD n 0)) m.got) (some (if same then 4 else 1))).engineGo core) := by
  intro ex at' same
  have hexec : exec (.mmaCorrectionDone core) s = .next ((s.correct core m).engineGo core) := by
    simp [exec, execMmaCorrectionDone, hfix, hclk]
  have herase : (s.modCore core fun y => { y with fixing := y.fixing.erase m }) = s.modCore core fun y => { y with fixing := r } := by
    simp only [State.modCore]
    rw [hfix, List.erase_cons_head]
  rw [hexec, State.correct, herase]

theorem guardStepDone_spec (s : State) (core : Nat) (hmode : (s.core core).island.mode = .step) (hclk : s.clockOn core = true) :
    let s1 := s.modCore core fun y => { y with island := { y.island with mode := .guarded } }
    ((s.core core).attempt = none → exec (.guardStepDone core) s = .next ((s1.engineGo core).islandSettle core)) ∧
    (∀ m, (s.core core).attempt = some m → m.phase = .reissue → s.seqStopped core m.cslot = false →
      exec (.guardStepDone core) s = .next ((((s1.leaveEngine core).mmaGuarded core m).engineGo core).islandSettle core)) := by
  intro s1
  have hexec : exec (.guardStepDone core) s = execGuardStepDone core s := rfl
  refine ⟨fun hatt => ?_, fun m hatt hphase hstop => ?_⟩
  · simp [hexec, execGuardStepDone, hmode, hclk, hatt, s1]
  · simp [hexec, execGuardStepDone, hmode, hclk, hatt, hphase, hstop, s1]

/-- Settles O38: issue, the engine's choice, the start of a product, its completion, its verdict, its injected bit, its corrections. -/
theorem matrixProducts : Obligations.MatrixProducts := by
  unfold Obligations.MatrixProducts
  exact ⟨mma_issue, mmaNext_spec, takeEngine_spec,
    fun s core m es act hlen => ⟨mmaDone_elems s core m es act hlen, mmaDone_attempt s core m es act, mmaDone_mem s core m es act,
      fun n hn => mmaDone_tile_ne s core m es act n hn⟩,
    verdict_spec, inject_spec, correctionDone_spec, guardStepDone_spec⟩

end Sys2Proof.Machine
end


section
/-! O15 and O20: the step that runs a word, and the machine after boot. -/

namespace Sys2Proof.Machine

-- O15.

/-- The next word of a wave inside its clause, where it is fetched, belongs to the clause and decodes. -/
theorem nextWord_run {s s1 : State} {k : Key} {c : ClauseSt} {x : Dword} {i : Instr} (hclause : (s.wave k).clause = some c)
    (hrun : (s.wave k).canRun = true) (hgroup : (s.wave k).group ≠ 0) (hpick : (s.quad k).inClause = some k)
    (hfetch : s.fetchWave k (s.wave k).pc = .ok s1 x) (hheader : isHeader x = false)
    (hclass : classAccepts (unpackH c.hdr).cls.toNat (c.pos == (unpackH c.hdr).count.toNat) x = true)
    (hdecode : decodeWave (isReeveCore (coreOf k)) x = .ok i) : s.nextWord k = .run s1 i := by
  have hpicked : s.picked k = true := by simp [State.picked, hpick]
  simp only [State.nextWord, hclause, hrun, hgroup, hpicked, hfetch, hheader, hclass, hdecode, Bool.not_true, Bool.or_self,
    Bool.false_eq_true, decide_false, if_false]

/-- Settles O15: the front of the machine is that word, for the agenda's step and for the machine's own. -/
theorem stepRunsWord : Obligations.StepRunsWord := by
  unfold Obligations.StepRunsWord
  intro s s1 c x i w hboot hrel hseq hclause hrun hgroup hpick hfetch hheader hclass hdecode
  have hdie : s.focusDie = dieOf (coreOf s.cur) := by simp [State.focusDie, hseq]
  have hfront : s.front = .run s1 i := by
    have hword := nextWord_run hclause hrun hgroup hpick hfetch hheader hclass hdecode
    simp only [State.front, hdie, hrel, hseq, hword, Bool.false_eq_true, if_false]
  have hrunFront : s.runFront = exec i s1 := by rw [State.runFront, hfront]
  refine ⟨?_, fun hagenda hstopped hover hdue s2 hexec hne => ?_⟩
  · have hact : s.act .word = s.runWord := if_pos (by simp [hboot])
    show s.act .word = _
    rw [hact, State.runWord, hrunFront]
  · have hchanged : s.changed s.runFront = some s2 := by
      rw [hrunFront, hexec]
      exact if_neg hne
    have hturn : s.turn = some s2 := by
      have hgo : s.goOn = some s2 := by
        have hinside : (s.wave s.cur).clause = some c := hclause
        have hsome : (s.onSeq || (s.wave s.cur).clause.isSome) = true := by simp [hinside]
        rw [State.goOn, if_pos hsome, hchanged]
      rw [State.turn, hgo]
    have hstep : step s = s.own := by
      rw [step, hagenda]
      exact if_neg (by simp [hstopped])
    rw [hstep, State.own, if_neg (by simp [hboot])]
    simp only [hover, Option.filter_none, hdue, hturn]

-- O20: memory after boot.

theorem reset_homeByte (a : Nat) : State.reset.homeByte a = memInit a := rfl

theorem memInit_desc (c n : Nat) (hc : c < 512) (hn : n < 64) : memInit (dtBase + 64 * c + n) = descInit n := by
  have hin : dtBase ≤ dtBase + 64 * c + n ∧ dtBase + 64 * c + n < dtBase + 64 * 512 := by omega
  rw [memInit, if_pos hin]
  exact congrArg descInit (by omega)

theorem memInit_polder (p n : Nat) (hp : p < 32) (hn : n < 512) : memInit (ptBase + 512 * p + n) = polderInit n := by
  have hbase : dtBase + 64 * 512 ≤ ptBase := by decide
  have hout : ¬(dtBase ≤ ptBase + 512 * p + n ∧ ptBase + 512 * p + n < dtBase + 64 * 512) := by omega
  have hin : ptBase ≤ ptBase + 512 * p + n ∧ ptBase + 512 * p + n < ptBase + 512 * 32 := by omega
  rw [memInit, if_neg hout, if_pos hin]
  exact congrArg polderInit (by omega)

/-- Word n of a table entry whose bytes at reset are given. -/
def initWord (f : Nat → Byte) (n : Nat) : Dword := BitVec.ofNat 64 (ofBytes ((List.range 8).map fun i => f (8 * n + i)))

theorem reset_ctxWord (c n : Nat) (hc : c < 512) (hn : n < 8) : State.reset.ctxWord c n = initWord descInit n := by
  have hbytes : State.reset.homeBytes (dtBase + 64 * c + 8 * n) 8 = (List.range 8).map fun i => descInit (8 * n + i) := by
    refine List.map_congr_left fun i hi => ?_
    have hi8 := List.mem_range.mp hi
    rw [reset_homeByte, Nat.add_assoc, memInit_desc c (8 * n + i) hc (by omega)]
  rw [State.ctxWord, State.home64, hbytes, initWord]

theorem reset_polderWord (p n : Nat) (hp : p < 32) (hn : n < 64) : State.reset.polderWord p n = initWord polderInit n := by
  have hbytes : State.reset.homeBytes (ptBase + 512 * p + 8 * n) 8 = (List.range 8).map fun i => polderInit (8 * n + i) := by
    refine List.map_congr_left fun i hi => ?_
    have hi8 := List.mem_range.mp hi
    rw [reset_homeByte, Nat.add_assoc, memInit_polder p (8 * n + i) hp (by omega)]
  rw [State.polderWord, State.home64, hbytes, initWord]

/-- SHARE of each context of a polder (R350). -/
theorem polderInit_share : ∀ i, i < 16 → bits (initWord polderInit (32 + i)) 23 16 = 1 := by decide

-- The engines after boot.

theorem reset_reeveWave (d n : Nat) (hd : d < 4) (hn : n < 64) :
    State.reset.wave (waveKey (crewKey (reeveCore d) (n / 32)) (n % 32)) = Wave.reeve (n % 32) := by
  have hkey : waveKey (crewKey (reeveCore d) (n / 32)) (n % 32) = ((252 + d) * 16 + n / 32) * 32 + n % 32 := rfl
  have h1 : (((252 + d) * 16 + n / 32) * 32 + n % 32) / 512 = 252 + d := by omega
  have h2 : (((252 + d) * 16 + n / 32) * 32 + n % 32) / 32 % 16 = n / 32 := by omega
  have h3 : (((252 + d) * 16 + n / 32) * 32 + n % 32) % 32 = n % 32 := by omega
  have h4 : n / 32 < 2 := by omega
  show Wave.fresh _ = _
  rw [hkey, Wave.fresh, h1, h2, h3, if_pos]
  rw [Bool.and_eq_true, Bool.and_eq_true, decide_eq_true_eq, decide_eq_true_eq, decide_eq_true_eq]
  exact ⟨⟨Nat.le_add_right 252 d, Nat.add_lt_add_left hd 252⟩, h4⟩

/-- Settles O20: the tables' reset words, and the fresh crews and waves of every key. -/
theorem resetState : Obligations.ResetState := by
  unfold Obligations.ResetState
  refine ⟨reset_memWf, fun a h1 h2 => ?_, fun c hc => ?_, fun p hp => ⟨?_, ?_, fun i hi => ?_⟩, fun d => rfl, fun c hc => ?_,
    fun k hk => ?_, fun d n hd hn => ?_⟩
  · rw [reset_homeByte, memInit]
    exact (if_neg h1).trans (if_neg h2)
  · rw [State.ctxValid, State.ctxSlice, reset_ctxWord c 0 hc (by omega), reset_ctxWord c 2 hc (by omega)]
    decide
  · rw [State.drainWindow, reset_polderWord p 5 hp (by omega)]
    decide
  · rw [State.weight, reset_polderWord p 3 hp (by omega)]
    decide
  · rw [reset_polderWord p (32 + i) hp (by omega)]
    exact polderInit_share i hi
  · have hout : ¬252 ≤ c / 16 := Nat.not_le.mpr hc
    show (Crew.fresh c).st = .absent
    simp [Crew.fresh, hout]
  · have hout : ¬252 ≤ k / 512 := Nat.not_le.mpr hk
    show (Wave.fresh k).here = false
    simp [Wave.fresh, hout]
  · rw [reset_reeveWave d n hd hn]
    refine ⟨rfl, rfl, rfl, rfl, rfl, rfl, rfl, rfl, rfl, fun l => ?_⟩
    show (srseedReset (n % 32))[l] = _
    simp [srseedReset]

end Sys2Proof.Machine
end


section
/-! O41 to O44, the privileged words: their common form, the words on contexts, and event entry. -/

namespace Sys2Proof.Machine

-- Words without vector operands wake no bank.

/-- A word none of whose fields names a vector register names no bank. -/
theorem banksOf_of_fields {i : Instr} (h : (fieldOpds i).all (fun o => o.file != .v) = true) (p : Opd → Bool) : banksOf (opdsOf i) p = [] := by
  have hnone : (opdsOf i).filter (fun o => o.file == .v && p o) = [] := by
    refine List.filter_eq_nil_iff.mpr fun o ho => ?_
    suffices hfile : (o.file == .v) = false by simp [hfile]
    rcases List.mem_append.mp ho with ho | ho
    · have hf := List.all_eq_true.mp h o ho
      simpa using hf
    · split at ho
      · exact absurd ho (by simp)
      · rw [List.mem_singleton.mp ho]
        rfl
  rw [banksOf, hnone]
  rfl

theorem readWave_of_fields {s : State} {i : Instr} (h : (fieldOpds i).all (fun o => o.file != .v) = true) :
    s.readWave i = s.wave s.cur := by
  rw [State.readWave, banksOf_of_fields h]
  rfl

/-- Such a word completes whatever its body has done to the banks of its wave. -/
theorem runs_of_fields {s s2 : State} {i : Instr} {body : State → Key → Wave → Eff} {res : List Res} {adv : Adv} (h : s.mayIssue i)
    (hf : (fieldOpds i).all (fun o => o.file != .v) = true) (he : exec i s = .next (s.issue i body))
    (hb : body (s.begun i) s.cur (s.wave s.cur) = .done s2 res adv) : runsTo s i s2 res adv := by
  rw [← readWave_of_fields hf] at hb
  unfold runsTo
  rw [he, issue_run_of_no_destination s s2 i body res adv h (banksOf_of_fields hf _) hb]
  rfl

/-- Such a word begins with every wave as it stands. -/
theorem begun_wave_of_fields {s : State} {i : Instr} (h : (fieldOpds i).all (fun o => o.file != .v) = true) (k : Key) :
    (s.begun i).wave k = s.wave k := by
  rw [State.begun, readWave_of_fields h, State.setWave_wave]
  split
  · rename_i hk
    rw [hk]
  · rfl

theorem begun_obj {s : State} {i : Instr} (h : (fieldOpds i).all (fun o => o.file != .v) = true) (a : Word) :
    (s.begun i).obj a = s.obj a := by
  simp only [State.obj, begun_wave_of_fields h]
  rfl

-- The common form (R341).

theorem privWord_fields {i : Instr} {p : MF × Nat} (hi : privWord i = some p) : (fieldOpds i).all (fun o => o.file != .v) = true := by
  cases i <;> simp only [privWord, reduceCtorEq] at hi <;> rfl

/-- The body of a privileged word whose effect is go. -/
def privBody (x : MF) (align : Nat) (go : State → Key → Wave → Option (State × Nat)) (s : State) (k : Key) (w : Wave) : Eff :=
  if !isReeveCore (coreOf k) then .fault .access (BitVec.ofNat 64 w.pc)
  else
    waveLevel x.pr x.pn
      (fun s k w =>
        if align ≠ 0 && (w.addrS x).toNat % align ≠ 0 then .fault .align (w.addrS x)
        else if s.relocking then .hold
        else
          match go s k w with
          | none => .hold
          | some (s1, r) => .done s1 [resS (x.d.toNat + 1) 1 (w.act x.pr x.pn) r])
      s k w

theorem privIssue_eq (i : Instr) (x : MF) (align : Nat) (go : State → Key → Wave → Option (State × Nat)) (s : State) :
    privIssue i x align go s = s.issue i (privBody x align go) := rfl

theorem privWord_act {s : State} {i : Instr} {p : MF × Nat} (hi : privWord i = some p) :
    (s.wave s.cur).act p.1.pr p.1.pn = s.actOf i := by
  cases i <;> simp only [privWord, reduceCtorEq, Option.some.injEq] at hi <;> subst hi <;> rfl

/-- Every privileged word but ERET is issued in the common form; where its handle names no object, all but CTXLOAD answer STATUS 1. -/
theorem privWord_exec {i : Instr} {p : MF × Nat} (hi : privWord i = some p) :
    ∃ go, (∀ s, exec i s = .next (s.issue i (privBody p.1 p.2 go))) ∧
      ((∀ y, i ≠ .ctxload y) → ∀ (s : State) (k : Key) (w : Wave), s.obj (w.handle p.1) = none → go s k w = some (s, 2 ^ 28)) := by
  have hnone (x : MF) (s : State) (w : Wave) (h : s.obj (w.handle x) = none) : s.ctxOfHandle (w.handle x) = none := by
    rw [State.ctxOfHandle, h]
  cases i <;> simp only [privWord, reduceCtorEq, Option.some.injEq] at hi <;> subst hi
  case ctxload x => exact ⟨_, fun _ => rfl, fun hne => absurd rfl (hne x)⟩
  case ctxsave x => exact ⟨_, fun _ => rfl, fun _ s k w h => by rw [ctxsaveGo, h]; rfl⟩
  case resume x => exact ⟨_, fun _ => rfl, fun _ s k w h => by rw [resumeGo, h]; rfl⟩
  case tlbinv x => exact ⟨_, fun _ => rfl, fun _ s k w h => by rw [tlbinvGo, hnone x s w h]; rfl⟩
  case stoprd x => exact ⟨_, fun _ => rfl, fun _ s k w h => by rw [stoprdGo, hnone x s w h]; rfl⟩
  case flood x => exact ⟨_, fun _ => rfl, fun _ s k w h => by rw [floodGo, hnone x s w h]; rfl⟩
  case dirtyh f x => exact ⟨_, fun _ => rfl, fun _ s k w h => by rw [dirtyhGo, hnone x s w h]; rfl⟩
  case ckpt x => exact ⟨_, fun _ => rfl, fun _ s k w h => by rw [ckptGo, hnone x s w h]; rfl⟩
  case rollbk x => exact ⟨_, fun _ => rfl, fun _ s k w h => by rw [rollbkGo, hnone x s w h]; rfl⟩

section
variable {s : State} {i : Instr} {p : MF × Nat} {go : State → Key → Wave → Option (State × Nat)}

theorem privBody_user (hreeve : isReeveCore (coreOf s.cur) = false) :
    privBody p.1 p.2 go (s.begun i) s.cur (s.wave s.cur) = .fault .access (BitVec.ofNat 64 (s.wave s.cur).pc) :=
  if_pos (by rw [hreeve]; rfl)

theorem privBody_idle (hi : privWord i = some p) (hreeve : isReeveCore (coreOf s.cur) = true) (hact : s.actOf i = 0) :
    privBody p.1 p.2 go (s.begun i) s.cur (s.wave s.cur) = .done (s.begun i) [] :=
  (if_neg (by rw [hreeve]; simp)).trans (if_pos ((privWord_act hi).trans hact))

/-- A privileged word in some lane of reeve mode. -/
theorem privBody_active (hi : privWord i = some p) (hreeve : isReeveCore (coreOf s.cur) = true) (hact : s.actOf i ≠ 0) :
    privBody p.1 p.2 go (s.begun i) s.cur (s.wave s.cur) =
      if (p.2 ≠ 0 && ((s.wave s.cur).addrS p.1).toNat % p.2 ≠ 0) = true then .fault .align ((s.wave s.cur).addrS p.1)
      else if s.relocking = true then .hold
      else
        match go (s.begun i) s.cur (s.wave s.cur) with
        | none => .hold
        | some (s1, r) => .done s1 [resS (p.1.d.toNat + 1) 1 (s.actOf i) r] := by
  have hwave := privWord_act (s := s) hi
  rw [← hwave] at hact ⊢
  exact (if_neg (by rw [hreeve]; simp)).trans (if_neg hact)

/-- A privileged word whose area is aligned answers what its effect says, while no die relocks. -/
theorem priv_runs {s1 : State} {r : Nat} (hi : privWord i = some p) (hexec : exec i s = .next (s.issue i (privBody p.1 p.2 go)))
    (h : s.mayIssue i) (hreeve : isReeveCore (coreOf s.cur) = true) (hact : s.actOf i ≠ 0) (hrel : s.relocking = false)
    (halign : p.2 = 0 ∨ ((s.wave s.cur).addrS p.1).toNat % p.2 = 0)
    (hgo : go (s.begun i) s.cur (s.wave s.cur) = some (s1, r)) : privRuns s i p.1 s1 r := by
  refine runs_of_fields h (privWord_fields hi) hexec ((privBody_active hi hreeve hact).trans ?_)
  refine (if_neg ?_).trans ((if_neg (by rw [hrel]; simp)).trans (by rw [hgo]))
  rcases halign with h0 | h0 <;> simp [h0]

end

-- O41.

/-- The privileged words and ERET are assigned in reeve mode only. -/
theorem priv_opc {i : Instr} {w : Dword} (hi : (privWord i).isSome = true ∨ i = .eret) (hw : encodeWave i = some w) :
    0xC0 ≤ opcOf w ∧ opcOf w ≤ 0xDF := by
  rcases hi with hi | rfl
  · cases i <;> simp only [privWord, Option.isSome_none, reduceCtorEq] at hi <;>
      simp only [encodeWave, Option.some.injEq] at hw <;> subst hw <;> rw [opcOf_packM] <;> decide
  · simp only [encodeWave, Option.some.injEq] at hw
    subst hw
    decide

/-- Settles O41: the opcodes of the privileged words, and the branches of their common form. -/
theorem privilegeRules : Obligations.PrivilegeRules := by
  unfold Obligations.PrivilegeRules
  refine ⟨fun w i hd => ?_, fun w i hd hi => ?_, fun s i p hi h => ⟨fun hreeve => ?_, fun hreeve => ?_⟩, fun s h hreeve => ?_⟩
  · have hw := (waveDecodesItsWord false w i hd).1
    have hno : ¬((privWord i).isSome = true ∨ i = .eret) := fun hi => by
      have hopc := priv_opc hi hw
      rw [decodeWave] at hd
      split at hd
      · exact absurd hd (by simp)
      · rw [if_pos (by simp [hopc])] at hd
        exact absurd hd (by simp)
    exact ⟨Option.not_isSome_iff_eq_none.mp fun hp => hno (.inl hp), fun he => hno (.inr he)⟩
  · have hopc := priv_opc hi (waveDecodesItsWord true w i hd).1
    rw [decodeWave] at hd ⊢
    split at hd
    · exact absurd hd (by simp)
    · rename_i hheader
      rw [if_neg hheader, if_pos (by simp [hopc])]
  · obtain ⟨go, hexec, -⟩ := privWord_exec hi
    have hread : s.readWave i = s.wave s.cur := readWave_of_fields (privWord_fields hi)
    exact faults_of s i _ _ _ h (hexec s) (by rw [hread]; exact privBody_user hreeve)
  · obtain ⟨go, hexec, hnone⟩ := privWord_exec hi
    have hread : s.readWave i = s.wave s.cur := readWave_of_fields (privWord_fields hi)
    refine ⟨fun hact => ?_, fun hact h0 hmis => ?_, fun hact hok hrel => ?_, fun hact hok hrel hload hobj => ?_⟩
    · exact runs_of_fields h (privWord_fields hi) (hexec s) (privBody_idle hi hreeve hact)
    · refine faults_of s i _ _ _ h (hexec s) ?_
      rw [hread]
      exact (privBody_active hi hreeve hact).trans (if_pos (by simp [h0, hmis]))
    · refine holds_of s i _ h (hexec s) ?_
      rw [hread]
      refine (privBody_active hi hreeve hact).trans ((if_neg ?_).trans (if_pos hrel))
      rcases hok with h0 | h0 <;> simp [h0]
    · exact priv_runs hi (hexec s) h hreeve hact hrel hok (hnone hload (s.begun i) s.cur (s.wave s.cur)
        ((begun_obj (privWord_fields hi) _).trans hobj))
  · have hread : s.readWave .eret = s.wave s.cur := readWave_of_fields rfl
    refine faults_of s .eret eretBody _ _ h rfl ?_
    rw [hread]
    exact if_pos (by rw [hreeve]; rfl)

-- O42, event entry.

theorem eret_runs (s : State) (h : s.mayIssue .eret) (hreeve : isReeveCore (coreOf s.cur) = true) :
    ((s.die (dieOf (coreOf s.cur))).evq = [] → parksAt s .eret (s.begun .eret) .event) ∧
    ((s.die (dieOf (coreOf s.cur))).evq ≠ [] → runsTo s .eret ((s.begun .eret).takeEvent s.cur) [] .leave) := by
  have hstart : eretBody (s.begun .eret) s.cur (s.wave s.cur) =
      if (s.die (dieOf (coreOf s.cur))).evq = [] then .park (s.begun .eret) .event
      else .done ((s.begun .eret).takeEvent s.cur) [] .leave := if_neg (by rw [hreeve]; simp)
  refine ⟨fun hq => ?_, fun hq => runs_of_fields h rfl rfl (hstart.trans (if_neg hq))⟩
  refine parks_of s _ .eret eretBody _ h rfl ?_
  rw [readWave_of_fields rfl]
  exact hstart.trans (if_pos hq)

/-- Reporting and queueing events changes only dies and contexts. -/
theorem tellMiss_frame (s : State) (c : Nat) : s.tellMiss c = { s with dies := (s.tellMiss c).dies } := by
  unfold State.tellMiss
  dsimp only
  split <;> rfl

theorem tellMiss_other_die (s : State) (c d : Nat) (h : s.homeDie c ≠ d) : (s.tellMiss c).die d = s.die d := by
  unfold State.tellMiss
  dsimp only
  split
  · rw [State.modDie_die, if_neg (Ne.symm h)]
  · rw [State.event, State.modDie_die, if_neg (Ne.symm h), State.modDie_die, if_neg (Ne.symm h)]

/-- An event of kind 0x02 names the context. -/
def Event.missOf (e : Event) (c : Nat) : Bool := e.kind == 0x02 && e.handle == ctxHandle c

/-- Where no event of the context's misses is queued, the oldest unreported access raises one (R373). -/
theorem tellMiss_evq (s : State) (c : Nat) (h : ∀ e ∈ (s.die (s.homeDie c)).evq, e.missOf c = false) :
    ((s.ctx c).unrep = [] → ((s.tellMiss c).die (s.homeDie c)).evq = (s.die (s.homeDie c)).evq) ∧
    (∀ who va rest, (s.ctx c).unrep = (who, va) :: rest → ∃ n, ((s.tellMiss c).die (s.homeDie c)).evq = (s.die (s.homeDie c)).evq ++ [n] ∧
      n.kind = 0x02 ∧ n.handle = ctxHandle c ∧ n.w1 = BitVec.ofNat 64 va) := by
  refine ⟨fun hnil => ?_, fun who va rest hcons => ?_⟩
  · unfold State.tellMiss
    rw [hnil]
    dsimp only
    rw [State.modDie_die, if_pos rfl]
    refine List.filter_eq_self.mpr fun e he => ?_
    have hmiss := h e he
    rw [Event.missOf] at hmiss
    rw [hmiss]
    rfl
  · unfold State.tellMiss
    rw [hcons]
    dsimp only
    have hmap : (s.die (s.homeDie c)).evq.map (fun e => if (e.kind == 0x02 && e.handle == ctxHandle c) = true then
        { e with w1 := BitVec.ofNat 64 va } else e) = (s.die (s.homeDie c)).evq := by
      refine (List.map_congr_left fun e he => ?_).trans (List.map_id _)
      have hmiss := h e he
      rw [Event.missOf] at hmiss
      rw [hmiss]
      rfl
    have hnone : ¬((s.die (s.homeDie c)).evq.any fun e => e.kind == 0x02 && e.handle == ctxHandle c && e.key == 0) = true := by
      rw [Bool.not_eq_true, List.any_eq_false]
      intro e he
      have hmiss := h e he
      rw [Event.missOf] at hmiss
      rw [hmiss]
      simp
    rw [State.event, State.modDie_die, if_pos rfl, State.modDie_die, if_pos rfl, hmap]
    exact ⟨_, by rw [if_neg hnone], rfl, rfl, rfl⟩

/-- A wave that has taken an event. -/
def State.entered (s : State) (k : Key) (e : Event) (r : List Event) : State :=
  (s.modDie (dieOf (coreOf k)) fun x => { x with evq := r }).modWave k fun w => w.enterEvent (s.die (dieOf (coreOf k))).evec e

theorem takeEvent_eq {s : State} {k : Key} {e : Event} {r : List Event} (h : (s.die (dieOf (coreOf k))).evq = e :: r) :
    s.takeEvent k = if e.kind = 0x02 then (s.entered k e r).reported (e.handle >>> 23).toNat else s.entered k e r := by
  unfold State.takeEvent
  dsimp only
  rw [h]
  rfl

theorem reported_frame (s : State) (c : Nat) :
    s.reported c = { s with dies := (s.reported c).dies, ctxs := tset s.ctxs c { s.ctx c with unrep := (s.ctx c).unrep.drop 1 } } := by
  rw [State.reported, tellMiss_frame]
  rfl

theorem takeEvent_frame {s : State} {k : Key} {e : Event} {r : List Event} (h : (s.die (dieOf (coreOf k))).evq = e :: r) :
    s.takeEvent k = { s with waves := (s.entered k e r).waves, dies := (s.takeEvent k).dies, ctxs := (s.takeEvent k).ctxs } := by
  rw [takeEvent_eq h]
  split
  · rw [reported_frame]
    rfl
  · rfl

/-- The registers of a wave that has taken an event hold its record. -/
theorem enterEvent_rs (w : Wave) (evec : Dword) (e : Event) :
    (w.enterEvent evec e).rs 0 = (BitVec.ofNat 64 (e.kind * 2 ^ 56 + e.handle.toNat)).setWidth 32 ∧
    (w.enterEvent evec e).rs 1 = (BitVec.ofNat 64 (e.kind * 2 ^ 56 + e.handle.toNat) >>> 32).setWidth 32 ∧
    (w.enterEvent evec e).rs 2 = e.w1.setWidth 32 ∧ (w.enterEvent evec e).rs 3 = (e.w1 >>> 32).setWidth 32 ∧
    (w.enterEvent evec e).rs 4 = e.w2.setWidth 32 ∧ (w.enterEvent evec e).rs 5 = (e.w2 >>> 32).setWidth 32 ∧
    (w.enterEvent evec e).rs 6 = 0 ∧ (w.enterEvent evec e).rs 7 = 0 := ⟨rfl, rfl, rfl, rfl, rfl, rfl, rfl, rfl⟩

theorem eventHead_low (e : Event) : (BitVec.ofNat 64 (e.kind * 2 ^ 56 + e.handle.toNat)).setWidth 32 = e.handle := by
  have hh := e.handle.isLt
  apply BitVec.eq_of_toNat_eq
  rw [BitVec.toNat_setWidth, BitVec.toNat_ofNat]
  omega

theorem eventHead_high (e : Event) :
    (BitVec.ofNat 64 (e.kind * 2 ^ 56 + e.handle.toNat) >>> 32).setWidth 32 = BitVec.ofNat 32 (e.kind % 256 * 2 ^ 24) := by
  have hh := e.handle.isLt
  apply BitVec.eq_of_toNat_eq
  rw [BitVec.toNat_setWidth, BitVec.toNat_ushiftRight, BitVec.toNat_ofNat, BitVec.toNat_ofNat, Nat.shiftRight_eq_div_pow]
  omega

/-- Settles O42: ERET, the wave and the die of a wave that takes an event, and the end of its park. -/
theorem eventEntry : Obligations.EventEntry := by
  unfold Obligations.EventEntry
  refine ⟨eret_runs, fun s k e r => ?_, fun s k hpark hstop hheld hlow hclk => ?_⟩
  · intro d hq t w c
    have hframe := takeEvent_frame hq
    have hwaves : t.waves = (s.entered k e r).waves := by
      show (s.takeEvent k).waves = _
      rw [hframe]
    have hmem : t.mem = s.mem := by
      show (s.takeEvent k).mem = _
      rw [hframe]
    have hwave (j : Key) : t.wave j = if j = k then (s.wave k).enterEvent (s.die d).evec e else s.wave j := by
      rw [State.wave, hwaves]
      exact State.modWave_wave (s.modDie d fun x => { x with evq := r }) k _ j
    have hw : w = (s.wave k).enterEvent (s.die d).evec e := (hwave k).trans (if_pos rfl)
    obtain ⟨h0, h1, hrest⟩ := enterEvent_rs (s.wave k) (s.die d).evec e
    rw [eventHead_low] at h0
    rw [eventHead_high] at h1
    have hdie : ((s.entered k e r).die d).evq = r := by
      show ((s.modDie d fun x => { x with evq := r }).die d).evq = r
      rw [State.modDie_die, if_pos rfl]
    refine ⟨fun hk => ?_, fun hk => ?_, fun j hj => (hwave j).trans (if_neg hj), hmem, ?_⟩
    · have ht : t = s.entered k e r := (takeEvent_eq hq).trans (if_neg hk)
      exact ⟨by rw [ht]; exact hdie, by rw [ht]; rfl⟩
    · have ht : t = (s.entered k e r).reported c := (takeEvent_eq hq).trans (if_pos hk)
      obtain ⟨u, hu⟩ : ∃ u, u = (s.entered k e r).modCtx c fun x => { x with unrep := x.unrep.drop 1 } := ⟨_, rfl⟩
      have htell : t = u.tellMiss c := by rw [ht, hu]; rfl
      have hunrep : (u.ctx c).unrep = (s.ctx c).unrep.drop 1 := by
        rw [hu, State.modCtx_ctx, if_pos rfl]
        rfl
      refine ⟨?_, fun hhandle hhome hno => ?_⟩
      · rw [htell, tellMiss_frame]
        exact hunrep
      · have huhome : u.homeDie c = d := by rw [hu]; exact hhome
        have huq : (u.die d).evq = r := by rw [hu]; exact hdie
        have hfree : ∀ x ∈ (u.die (u.homeDie c)).evq, x.missOf c = false := by
          rw [huhome, huq]
          intro x hx
          have hx' := hno x hx
          rw [hhandle] at hx'
          simpa [Event.missOf] using hx'
        obtain ⟨hnil, hcons⟩ := tellMiss_evq u c hfree
        rw [huhome, huq, hunrep, ← htell] at hnil
        rw [huhome, huq, hunrep, ← htell] at hcons
        refine ⟨fun hlen => hnil ?_, fun x who va rest hx => ?_⟩
        · exact List.drop_eq_nil_of_le hlen
        · rw [hhandle]
          exact hcons who va rest (by rw [hx]; rfl)
    · rw [hw]
      refine ⟨rfl, rfl, rfl, rfl, rfl, rfl, rfl, rfl, fun l => ?_, h0, h1, hrest⟩
      simp [Wave.enterEvent]
  · have hexec : exec (.waveUnpark k) s = .next ((s.retryHeld k).unparkWave k) := rfl
    have hretry : s.retryHeld k = s := by rw [State.retryHeld, hheld]
    rw [hexec, hretry, State.unparkWave]
    simp [hpark, hstop, hclk, hlow]

end Sys2Proof.Machine
end


section
/-! O43 and O44, the privileged words on contexts: each answers what its effect says, under the conditions of the common form. -/

namespace Sys2Proof.Machine

/-- A privileged word of reeve mode, in some lane, names a context while no die relocks. -/
def State.namesCtx (s : State) (x : MF) (c : Nat) (i : Instr) : Prop :=
  s.mayIssue i ∧ s.actOf i ≠ 0 ∧ s.relocking = false ∧ s.ctxOfHandle ((s.wave s.cur).handle x) = some c

section
variable {s : State} {i : Instr} {x : MF} {align : Nat} {c : Nat} {go : State → Key → Wave → Option (State × Nat)} {s1 : State} {r : Nat}

theorem begun_ctxOfHandle (h : (fieldOpds i).all (fun o => o.file != .v) = true) (a : Word) :
    (s.begun i).ctxOfHandle a = s.ctxOfHandle a := by
  rw [State.ctxOfHandle, begun_obj h, State.ctxOfHandle]

/-- Where the effect on the named context is known, the word answers it. -/
theorem named_runs (hn : s.namesCtx x c i) (hreeve : isReeveCore (coreOf s.cur) = true) (hi : privWord i = some (x, align))
    (hexec : exec i s = .next (s.issue i (privBody x align go)))
    (halign : align = 0 ∨ ((s.wave s.cur).addrS x).toNat % align = 0)
    (hgo : (s.begun i).ctxOfHandle ((s.wave s.cur).handle x) = some c → go (s.begun i) s.cur (s.wave s.cur) = some (s1, r)) :
    privRuns s i x s1 r := by
  obtain ⟨h, hact, hrel, hctx⟩ := hn
  exact priv_runs (p := (x, align)) hi hexec h hreeve hact hrel halign (hgo ((begun_ctxOfHandle (privWord_fields hi) _).trans hctx))

end

theorem resultWord_zero (n : Nat) : resultWord 0 n = n % 2 ^ 28 := Nat.zero_add _

theorem resultWord_status (st : Nat) : resultWord st 0 = st % 16 * 2 ^ 28 := by rw [resultWord, Nat.zero_mod, Nat.add_zero]

theorem obj_of_ctxOfHandle {s : State} {h : Word} {c : Nat} (hc : s.ctxOfHandle h = some c) : s.obj h = some (.ctx c) := by
  rw [State.ctxOfHandle] at hc
  split at hc
  · rename_i d hd
    rw [hd, Option.some.inj hc]
  · exact absurd hc (by simp)

/-- STOPRD once every engine has stopped: its records are written, where their range allows it (R342). -/
def stoprdWrite (s s1 : State) (core e : Nat) (rs : List StopRec) : Option (State × Nat) :=
  match s.fwRange core .write e (8 * (rs.flatMap StopRec.words).length) with
  | none => some (s, resultWord 3 0)
  | some ps => some (s1.putParts core ps (rs.flatMap StopRec.words), resultWord 0 rs.length)

/-- CTXLOAD once every image that the handle names is mapped (R344). -/
def ctxloadOn (s : State) (h : Word) (is : List (Nat × Array Dword)) : Option (State × Nat) :=
  if is.any fun i => s.holds (hCtx h) (s.claim (hCtx h) i.1 i.2).1 then some (s, resultWord 2 0)
  else if is.any fun i => !imageOk i.2 then some (s, resultWord 4 0)
  else
    match s.loadAll (hCtx h) is (if hKind h = 1 then [hCore h] else coresOfCluster (clusterOf (hCore h))) with
    | some s1 => some (s1, 0)
    | none => some (s, resultWord 4 0)

/-- DIRTYH on n granules of a context (R346, R390). -/
def dirtyhOn (final : Bool) (b : State) (core c e n : Nat) (gs : List Nat) : Option (State × Nat) :=
  if (final && !(b.ctx c).up) = true then some (b, resultWord 2 0)
  else
    match b.fwRange core .write e (8 * ((n + 63) / 64)) with
    | none => some (b, resultWord 3 0)
    | some ps =>
      if (final && b.blocked c) = true then some (b, resultWord 6 0)
      else some ((gs.foldl (fun t a => t.clearDirty c a) b).putParts core ps (bitmapWords ((n + 63) / 64) (gs.map (b.dirtyAt c))),
        resultWord 0 ((gs.map (b.dirtyAt c)).filter (·)).length)

section
variable {s : State} {x : MF} {c : Nat}

theorem tlbinv_runs (hreeve : isReeveCore (coreOf s.cur) = true) (hn : s.namesCtx x c (.tlbinv x)) :
    let w := s.wave s.cur
    let e := (w.addrS x).toNat
    let n := (w.rs (x.d.toNat + 1)).toNat % 2 ^ 28
    privRuns s (.tlbinv x) x
      ((s.ctx c).qwait.foldl (fun t q => t.rewalkQueue c e n q) (((s.begun (.tlbinv x)).dropTlb c e n).rewalk c e n true)) 0 := by
  refine named_runs hn hreeve rfl rfl (.inl rfl) fun hctx => ?_
  rw [tlbinvGo, hctx]
  rfl

theorem stoprdGo_up {k : Key} {w : Wave} (hctx : s.ctxOfHandle (w.handle x) = some c) (hup : (s.ctx c).up = true) :
    stoprdGo x s k w = stoprdWrite s (s.stopAll c) (coreOf k) (w.addrS x).toNat
      (((s.stopAll c).ctx c).recs.insertionSort fun a b => a.place ≤ b.place) := by
  rw [stoprdGo, hctx]
  dsimp only
  rw [hup, if_neg (by simp)]
  unfold stoprdWrite
  cases s.fwRange _ _ _ _ <;> rfl

theorem stoprd_runs (hreeve : isReeveCore (coreOf s.cur) = true) (hn : s.namesCtx x c (.stoprd x))
    (halign : ((s.wave s.cur).addrS x).toNat % 64 = 0) :
    let k := s.cur
    let e := ((s.wave k).addrS x).toNat
    ((s.ctx c).up = false → privRuns s (.stoprd x) x (s.begun (.stoprd x)) (2 * 2 ^ 28)) ∧
      ((s.ctx c).up = true →
        let s1 := (s.begun (.stoprd x)).stopAll c
        let rs := (s1.ctx c).recs.insertionSort fun a b => a.place ≤ b.place
        let ws := rs.flatMap StopRec.words
        ((s.begun (.stoprd x)).fwRange (coreOf k) .write e (8 * ws.length) = none → privRuns s (.stoprd x) x (s.begun (.stoprd x)) (3 * 2 ^ 28)) ∧
        (∀ ps, (s.begun (.stoprd x)).fwRange (coreOf k) .write e (8 * ws.length) = some ps →
          privRuns s (.stoprd x) x (s1.putParts (coreOf k) ps ws) (rs.length % 2 ^ 28))) := by
  intro k e
  refine ⟨fun hup => named_runs hn hreeve rfl rfl (.inr halign) fun hctx => ?_, fun hup => ?_⟩
  · rw [stoprdGo, hctx]
    exact if_pos (by rw [show ((s.begun (.stoprd x)).ctx c).up = false from hup]; rfl)
  · intro s1 rs ws
    have hstart (hctx : (s.begun (.stoprd x)).ctxOfHandle ((s.wave s.cur).handle x) = some c) :
        stoprdGo x (s.begun (.stoprd x)) s.cur (s.wave s.cur) = stoprdWrite (s.begun (.stoprd x)) s1 (coreOf k) e rs :=
      stoprdGo_up hctx hup
    refine ⟨fun hnone => named_runs hn hreeve rfl rfl (.inr halign) fun hctx => (hstart hctx).trans ?_,
      fun ps hps => named_runs hn hreeve rfl rfl (.inr halign) fun hctx => (hstart hctx).trans ?_⟩
    · rw [stoprdWrite, hnone]
      rfl
    · rw [stoprdWrite, hps, resultWord_zero]

theorem resume_runs (hreeve : isReeveCore (coreOf s.cur) = true) (hn : s.namesCtx x c (.resume x)) :
    ((s.ctx c).up = false → privRuns s (.resume x) x (s.begun (.resume x)) (2 * 2 ^ 28)) ∧
      (let b := s.begun (.resume x)
       let s0 := b.stopAll c
       let ks := s0.ctxCrews c
       let loaded := ks.filter fun k => (b.crew k).st == .loaded
       (s.ctx c).up = true →
       ((s0.ctx c).recs.any (·.atc) = true ∨ loaded.any (b.crewMissing c) = true → privRuns s (.resume x) x b (2 * 2 ^ 28)) ∧
       ((s0.ctx c).recs.any (·.atc) = false → loaded.any (b.crewMissing c) = false →
         privRuns s (.resume x) x
           ((((s0.startCrews loaded).resumeCrews c ks).modCtx c fun y =>
             { y with up := false, byFlood := false, recs := [], discarded := false }).rewalk c 0 0 false) 0)) := by
  have hgo (s1 : State) (r : Nat) (h : (s.begun (.resume x)).resumeCtx c = (s1, r)) : privRuns s (.resume x) x s1 r := by
    refine named_runs hn hreeve rfl rfl (.inl rfl) fun hctx => ?_
    have hobj : (s.begun (.resume x)).obj ((s.wave s.cur).handle x) = some (.ctx c) := obj_of_ctxOfHandle hctx
    rw [resumeGo, hobj]
    exact congrArg some h
  refine ⟨fun hup => hgo _ _ (if_pos ?_), ?_⟩
  · rw [show ((s.begun (.resume x)).ctx c).up = false from hup]
    rfl
  · intro b s0 ks loaded hup
    have hup' : (b.ctx c).up = true := hup
    refine ⟨fun hbad => hgo _ _ (if_pos ?_), fun hatc hmissing => hgo _ _ (if_neg ?_)⟩
    · show (!(b.ctx c).up || (s0.ctx c).recs.any (·.atc) || loaded.any (b.crewMissing c)) = true
      rcases hbad with hb | hb <;> simp [hb]
    · show ¬(!(b.ctx c).up || (s0.ctx c).recs.any (·.atc) || loaded.any (b.crewMissing c)) = true
      rw [hup', hatc, hmissing]
      simp

theorem flood_runs (hreeve : isReeveCore (coreOf s.cur) = true) (hn : s.namesCtx x c (.flood x)) :
    let b := s.begun (.flood x)
    let s1 := ((b.modCtx c fun y => { y with up := true, byFlood := true }).stopAll c).modCtx c fun y =>
      { y with byFlood := !(s.ctx c).up || (s.ctx c).byFlood }
    ((s.ctx c).up = true → privRuns s (.flood x) x s1 0) ∧
    ((s.ctx c).up = false →
      privRuns s (.flood x) x
        (s1.event (s.homeDie c) 0x01 (ctxHandle c) (BitVec.ofNat 64 (eventClass (s1.ctx c).recs))) 0) := by
  intro b s1
  have hgo (t : State) (h : b.flood c = t) : privRuns s (.flood x) x t 0 := by
    refine named_runs hn hreeve rfl rfl (.inl rfl) fun hctx => ?_
    rw [floodGo, hctx]
    exact congrArg (fun t => some (t, 0)) h
  refine ⟨fun hup => hgo _ (if_pos hup), fun hup => hgo _ (if_neg ?_)⟩
  rw [show (b.ctx c).up = false from hup]
  simp

theorem dirtyh_runs (final : Bool) (hreeve : isReeveCore (coreOf s.cur) = true) (hn : s.namesCtx x c (.dirtyh final x))
    (halign : ((s.wave s.cur).addrS x).toNat % 8 = 0) :
    let k := s.cur
    let w := s.wave k
    let e := (w.addrS x).toNat
    let b := s.begun (.dirtyh final x)
    let n := min (w.rs (x.d.toNat + 1)).toNat (2 ^ 26)
    let gs := (List.range n).map fun g => w.rsn (x.d.toNat + 2) 2 / 4096 * 4096 + 4096 * g
    (final = true → (s.ctx c).up = false → privRuns s (.dirtyh final x) x b (2 * 2 ^ 28)) ∧
    (∀ ps, final = false ∨ ((s.ctx c).up = true ∧ b.blocked c = false) →
      b.fwRange (coreOf k) .write e (8 * ((n + 63) / 64)) = some ps →
      privRuns s (.dirtyh final x) x
        ((gs.foldl (fun t a => t.clearDirty c a) b).putParts (coreOf k) ps (bitmapWords ((n + 63) / 64) (gs.map (b.dirtyAt c))))
        (((gs.map (b.dirtyAt c)).filter (·)).length % 2 ^ 28)) := by
  intro k w e b n gs
  have hstart (hctx : b.ctxOfHandle (w.handle x) = some c) : dirtyhGo final x b k w = dirtyhOn final b (coreOf k) c e n gs := by
    rw [dirtyhGo, hctx]
    rfl
  refine ⟨fun hf hup => named_runs hn hreeve rfl rfl (.inr halign) fun hctx => (hstart hctx).trans (if_pos ?_),
    fun ps hok hps => named_runs hn hreeve rfl rfl (.inr halign) fun hctx => (hstart hctx).trans ((if_neg ?_).trans ?_)⟩
  · rw [hf, show (b.ctx c).up = false from hup]
    rfl
  · rcases hok with hf | ⟨hup, -⟩
    · simp [hf]
    · rw [show (b.ctx c).up = true from hup]
      simp
  · have hfree : ¬(final && b.blocked c) = true := by
      rcases hok with hf | ⟨-, hb⟩
      · simp [hf]
      · simp [hb]
    rw [hps]
    exact (if_neg hfree).trans (by rw [resultWord_zero])

end

/-- Settles O43: TLBINV, STOPRD, RESUME, FLOOD and DIRTYH, each as its effect. -/
theorem contextWords : Obligations.ContextWords := by
  unfold Obligations.ContextWords
  intro s x c hreeve
  exact ⟨tlbinv_runs hreeve, stoprd_runs hreeve, resume_runs hreeve, flood_runs hreeve, fun final => dirtyh_runs final hreeve⟩

-- O44.

section
variable {s : State} {x : MF} {c : Nat}

/-- CTXSAVE of an object other than a wave, whose crews are named and held by nothing: what it writes is one range (R343). -/
theorem ctxsaveGo_named {k : Key} {w : Wave} {o : Obj} {cs : List Key} (hobj : s.obj (w.handle x) = some o)
    (hwave : ∀ c j, o ≠ .wave c j) (hnamed : s.crewsNamed o = some cs) (hheld : cs.any s.saveHeld = false) :
    let s1 := cs.foldl State.addCounts (cs.foldl State.settleCrew s)
    let e := (w.addrS x).toNat
    let is := s1.images e cs
    let ws := imageWords is
    ctxsaveGo x s k w = match s.fwRange (coreOf k) .write e (8 * ws.length) with
      | none => some (s, resultWord 3 0)
      | some ps => some (cs.foldl State.dropCrew ((s1.putParts (coreOf k) ps ws).modCtx o.ctxNo fun y =>
          { y with imgs := (y.imgs.filter fun a => !(is.any fun b => a.same b.1)) ++ is.map (·.1) }), resultWord 0 (ws.length / 8)) := by
  intro s1 e is ws
  have hstart : ctxsaveGo x s k w = match s.crewsNamed o with
      | none => some (s, resultWord 2 0)
      | some cs =>
        if cs.any s.saveHeld then none
        else
          let s1 := cs.foldl State.addCounts (cs.foldl State.settleCrew s)
          let is := s1.images e cs
          let ws := imageWords is
          match s.fwRange (coreOf k) .write e (8 * ws.length) with
          | none => some (s, resultWord 3 0)
          | some ps => some (cs.foldl State.dropCrew ((s1.putParts (coreOf k) ps ws).modCtx o.ctxNo fun y =>
              { y with imgs := (y.imgs.filter fun a => !(is.any fun b => a.same b.1)) ++ is.map (·.1) }), resultWord 0 (ws.length / 8)) := by
    rw [ctxsaveGo, hobj]
    cases o
    case wave c j => exact absurd rfl (hwave c j)
    all_goals rfl
  rw [hstart, hnamed]
  exact if_neg (by rw [hheld]; simp)

theorem ctxsave_runs {o : Obj} {cs : List Key} (h : s.mayIssue (.ctxsave x)) (hreeve : isReeveCore (coreOf s.cur) = true)
    (hact : s.actOf (.ctxsave x) ≠ 0) (hrel : s.relocking = false) (halign : ((s.wave s.cur).addrS x).toNat % 4096 = 0)
    (hobj : s.obj ((s.wave s.cur).handle x) = some o) (hwave : ∀ c j, o ≠ .wave c j)
    (hnamed : (s.begun (.ctxsave x)).crewsNamed o = some cs) (hheld : cs.any (s.begun (.ctxsave x)).saveHeld = false) :
    let i := Instr.ctxsave x
    let k := s.cur
    let e := ((s.wave k).addrS x).toNat
    let s1 := cs.foldl State.addCounts (cs.foldl State.settleCrew (s.begun i))
    let is := s1.images e cs
    let ws := imageWords is
    (∀ ps, (s.begun i).fwRange (coreOf k) .write e (8 * ws.length) = some ps →
      privRuns s i x
        (cs.foldl State.dropCrew ((s1.putParts (coreOf k) ps ws).modCtx o.ctxNo fun y =>
          { y with imgs := (y.imgs.filter fun a => !(is.any fun b => a.same b.1)) ++ is.map (·.1) }))
        (ws.length / 8 % 2 ^ 28)) ∧
    ((s.begun i).fwRange (coreOf k) .write e (8 * ws.length) = none → privRuns s i x (s.begun i) (3 * 2 ^ 28)) := by
  intro i k e s1 is ws
  have hobj' := (begun_obj (i := .ctxsave x) rfl _).trans hobj
  have hgo := ctxsaveGo_named (k := k) hobj' hwave hnamed hheld
  refine ⟨fun ps hps => ?_, fun hnone => ?_⟩
  · refine priv_runs (p := (x, 4096)) rfl rfl h hreeve hact hrel (.inr halign) (hgo.trans ?_)
    rw [hps, resultWord_zero]
  · refine priv_runs (p := (x, 4096)) rfl rfl h hreeve hact hrel (.inr halign) (hgo.trans ?_)
    rw [hnone]
    rfl

/-- CTXLOAD of a crew or a cluster of a valid context whose first image is mapped. -/
theorem ctxloadGo_mapped {k : Key} {w : Wave} {a : Array Dword} (hform : handleForm (w.handle x) = true)
    (hvalid : s.ctxValid (hCtx (w.handle x)) = true) (hkind : hKind (w.handle x) = 1 ∨ hKind (w.handle x) = 3)
    (hmapped : s.fwImage (coreOf k) (w.addrS x).toNat = some a) :
    ctxloadGo x s k w =
      if !imageOk a then some (s, resultWord 4 0)
      else
        match s.fwImages (coreOf k) (if hKind (w.handle x) = 1 then 1 else recCl (imageRec a)) (w.addrS x).toNat with
        | none => some (s, resultWord 3 0)
        | some is => ctxloadOn s (w.handle x) is := by
  have hguard : ¬(!handleForm (w.handle x) || !s.ctxValid (hCtx (w.handle x)) ||
      (hKind (w.handle x) != 1 && hKind (w.handle x) != 3)) = true := by
    rw [hform, hvalid]
    rcases hkind with h | h <;> rw [h] <;> decide
  rw [ctxloadGo]
  refine (if_neg hguard).trans ?_
  rw [hmapped] <;> rfl

theorem ctxloadOn_held {h : Word} {is : List (Nat × Array Dword)}
    (hheld : ∃ j ∈ is, s.holds (hCtx h) (s.claim (hCtx h) j.1 j.2).1 = true) : ctxloadOn s h is = some (s, resultWord 2 0) :=
  if_pos (List.any_eq_true.mpr hheld)

theorem ctxloadOn_bad {h : Word} {is : List (Nat × Array Dword)}
    (hfree : ¬∃ j ∈ is, s.holds (hCtx h) (s.claim (hCtx h) j.1 j.2).1 = true) (hbad : ∃ j ∈ is, imageOk j.2 = false) :
    ctxloadOn s h is = some (s, resultWord 4 0) :=
  (if_neg fun hany => hfree (List.any_eq_true.mp hany)).trans
    (if_pos (List.any_eq_true.mpr (by obtain ⟨j, hj, hb⟩ := hbad; exact ⟨j, hj, by rw [hb]; rfl⟩)))

theorem ctxloadOn_loads {h : Word} {is : List (Nat × Array Dword)} {s1 : State}
    (hfree : ¬∃ j ∈ is, s.holds (hCtx h) (s.claim (hCtx h) j.1 j.2).1 = true) (hok : ∀ j ∈ is, imageOk j.2 = true)
    (hload : s.loadAll (hCtx h) is (if hKind h = 1 then [hCore h] else coresOfCluster (clusterOf (hCore h))) = some s1) :
    ctxloadOn s h is = some (s1, 0) := by
  have hnobad : ¬(is.any fun i => !imageOk i.2) = true := fun hany => by
    obtain ⟨j, hj, hb⟩ := List.any_eq_true.mp hany
    rw [hok j hj] at hb
    exact absurd hb (by decide)
  rw [ctxloadOn, if_neg fun hany => hfree (List.any_eq_true.mp hany), if_neg hnobad, hload]

theorem ctxload_runs {a : Array Dword} {is : List (Nat × Array Dword)} {s1 : State}
    (hm : s.mayIssue (.ctxload x)) (hreeve : isReeveCore (coreOf s.cur) = true)
    (hact : s.actOf (.ctxload x) ≠ 0) (hrel : s.relocking = false) (halign : ((s.wave s.cur).addrS x).toNat % 1024 = 0) :
    let i := Instr.ctxload x
    let b := s.begun i
    let k := s.cur
    let w := s.wave k
    let h := w.handle x
    let c := hCtx h
    handleForm h = true →
    s.ctxValid c = true → hKind h = 1 ∨ hKind h = 3 → b.fwImage (coreOf k) (w.addrS x).toNat = some a →
    (imageOk a = false → privRuns s i x b (4 * 2 ^ 28)) ∧
    (imageOk a = true → b.fwImages (coreOf k) (if hKind h = 1 then 1 else recCl (imageRec a)) (w.addrS x).toNat = some is →
      let held : Prop := ∃ j ∈ is, b.holds c (b.claim c j.1 j.2).1 = true
      (held → privRuns s i x b (2 * 2 ^ 28)) ∧
      (¬held → (∃ j ∈ is, imageOk j.2 = false) → privRuns s i x b (4 * 2 ^ 28)) ∧
      (¬held → (∀ j ∈ is, imageOk j.2 = true) →
        b.loadAll c is (if hKind h = 1 then [hCore h] else coresOfCluster (clusterOf (hCore h))) = some s1 →
        privRuns s i x s1 0)) := by
  intro i b k w h c hform hvalid hkind hmapped
  have hgo := ctxloadGo_mapped (s := b) (x := x) (k := k) (w := w) hform hvalid hkind hmapped
  have hruns {s2 : State} {r : Nat} (he : ctxloadGo x b k w = some (s2, r)) : privRuns s i x s2 r :=
    priv_runs (p := (x, 1024)) rfl rfl hm hreeve hact hrel (.inr halign) he
  refine ⟨fun hbad => hruns (hgo.trans (if_pos (by rw [hbad]; rfl))), fun hok his => ?_⟩
  have hall : ctxloadGo x b k w = ctxloadOn b h is := by
    refine hgo.trans ((if_neg (by rw [hok]; decide)).trans ?_)
    rw [his]
  exact ⟨fun hheld => hruns (hall.trans (ctxloadOn_held hheld)),
    fun hfree hbad => hruns (hall.trans (ctxloadOn_bad hfree hbad)),
    fun hfree hgood hload => hruns (hall.trans (ctxloadOn_loads hfree hgood hload))⟩

theorem ckpt_runs (hreeve : isReeveCore (coreOf s.cur) = true) (hn : s.namesCtx x c (.ckpt x)) :
    ((s.ctx c).up = true → privRuns s (.ckpt x) x (s.begun (.ckpt x)) (2 * 2 ^ 28)) ∧
      (∀ t st, (s.ctx c).up = false → (s.begun (.ckpt x)).checkpoint c = some (t, st) →
        privRuns s (.ckpt x) x t (st % 16 * 2 ^ 28)) := by
  have hgo {k : Key} {w : Wave} (hctx : (s.begun (.ckpt x)).ctxOfHandle (w.handle x) = some c) :
      ckptGo x (s.begun (.ckpt x)) k w =
        if (s.ctx c).up then some (s.begun (.ckpt x), resultWord 2 0)
        else ((s.begun (.ckpt x)).checkpoint c).map fun p => (p.1, resultWord p.2 0) := by
    rw [ckptGo, hctx]
    rfl
  refine ⟨fun hup => named_runs hn hreeve rfl rfl (.inl rfl) fun hctx => (hgo hctx).trans (if_pos hup),
    fun t st hup hck => named_runs hn hreeve rfl rfl (.inl rfl) fun hctx => (hgo hctx).trans ((if_neg (by rw [hup]; simp)).trans ?_)⟩
  rw [hck, Option.map_some, resultWord_status]

theorem rollbk_runs (hreeve : isReeveCore (coreOf s.cur) = true) (hn : s.namesCtx x c (.rollbk x)) :
    ((s.ctx c).up = false → privRuns s (.rollbk x) x (s.begun (.rollbk x)) (2 * 2 ^ 28)) ∧
      ((s.ctx c).up = true → s.ctxExtw c = true ∨ s.hasCheckpoint c = false →
        privRuns s (.rollbk x) x (s.begun (.rollbk x)) (5 * 2 ^ 28)) ∧
      ((s.ctx c).up = true → s.ctxExtw c = false → s.hasCheckpoint c = true →
        privRuns s (.rollbk x) x (((s.begun (.rollbk x)).stopAll c).rollback c) 0) := by
  have hgo {k : Key} {w : Wave} (hctx : (s.begun (.rollbk x)).ctxOfHandle (w.handle x) = some c) :
      rollbkGo x (s.begun (.rollbk x)) k w =
        if !(s.ctx c).up then some (s.begun (.rollbk x), resultWord 2 0)
        else if s.ctxExtw c || !s.hasCheckpoint c then some (s.begun (.rollbk x), resultWord 5 0)
        else some (((s.begun (.rollbk x)).stopAll c).rollback c, 0) := by
    rw [rollbkGo, hctx]
    rfl
  have hguard (hup : (s.ctx c).up = true) : ¬(!(s.ctx c).up) = true := by rw [hup]; decide
  refine ⟨fun hup => named_runs hn hreeve rfl rfl (.inl rfl) fun hctx => (hgo hctx).trans (if_pos (by rw [hup]; rfl)),
    fun hup hno => named_runs hn hreeve rfl rfl (.inl rfl) fun hctx =>
      (hgo hctx).trans ((if_neg (hguard hup)).trans (if_pos ?_)),
    fun hup hext hck => named_runs hn hreeve rfl rfl (.inl rfl) fun hctx =>
      (hgo hctx).trans ((if_neg (hguard hup)).trans (if_neg ?_))⟩
  · rcases hno with hno | hno <;> rw [hno] <;> simp
  · rw [hext, hck]
    decide

end

/-- Settles O44: CTXSAVE, CTXLOAD, CKPT and ROLLBK, each as its effect. -/
theorem contextImages : Obligations.ContextImages := by
  unfold Obligations.ContextImages
  refine ⟨?_, ?_, ?_⟩
  · intro s x o cs i k w e h hreeve hact hrel halign hobj hwave hnamed hheld
    exact ctxsave_runs h hreeve hact hrel halign hobj hwave hnamed hheld
  · intro s x a is s1 i b k w h c hm hreeve hact hrel halign
    exact ctxload_runs hm hreeve hact hrel halign
  · intro s x c k w named
    exact ⟨fun ⟨hm, hreeve, hact, hrel, hctx⟩ => ckpt_runs hreeve ⟨hm, hact, hrel, hctx⟩,
      fun ⟨hm, hreeve, hact, hrel, hctx⟩ => rollbk_runs hreeve ⟨hm, hact, hrel, hctx⟩⟩

end Sys2Proof.Machine
end


section
/-! O45, the copy queue: what a push stages, checks and hands over, and what a pop takes. -/

namespace Sys2Proof.Machine

section
variable {s s2 : State} {x : VF}

theorem push_fields : (fieldOpds (.movQ0Push x)).all (fun o => o.file != .v) = true := rfl

theorem pop_fields : (fieldOpds (.movQ1Pop x)).all (fun o => o.file != .v) = true := rfl

theorem begun_q0room {i : Instr} (h : (fieldOpds i).all (fun o => o.file != .v) = true) (k : Key) : (s.begun i).q0room k = s.q0room k := by
  have hfirst (n : Nat) : (s.begun i).q0first n = s.q0first n := by
    simp only [State.q0first, begun_wave_of_fields h]
    rfl
  simp only [State.q0room, hfirst]
  rfl

theorem begun_tkOut {i : Instr} (h : (fieldOpds i).all (fun o => o.file != .v) = true) (k : Key) : (s.begun i).tkOut k = s.tkOut k := by
  rw [State.tkOut, begun_wave_of_fields h]
  rfl

theorem begun_tkComing {i : Instr} (h : (fieldOpds i).all (fun o => o.file != .v) = true) (k : Key) :
    (s.begun i).tkComing k = s.tkComing k := by
  rw [State.tkComing, begun_wave_of_fields h, begun_tkOut h]
  rfl

/-- The window that a push with LOOK opens, without a destination (R50). -/
def pushWindow (x : VF) : List Res := if x.look = 0 then [] else [{ file := .v, reg := 0, data := [], mask := BitVec.allOnes 32 }]

/-- The fourth push of a command that is checked: where it waits, and where it is accepted (R132, R260). -/
def pushChecked (x : VF) (s : State) (k : Key) (w : Wave) (c : CopyCmd) : Eff :=
  if w.heldAcquire then (if w.missHeld then .park s .miss else .hold)
  else if w.fabricFence c then .hold
  else if 16 ≤ s.tkOut k then .park s .q0
  else if s.q0room k then .done (s.copyAccept k c) (pushWindow x)
  else .park (s.modCore (coreOf k) fun y => if y.q0wait.contains k then y else { y with q0wait := y.q0wait ++ [k] }) .q0

theorem q0Body_staged {k : Key} {w : Wave} {w0 w1 w2 : Dword} (hact : w.act x.pr x.pn &&& w.liveMask ≠ 0) (hstage : w.stage = [w0, w1, w2]) :
    let c := unpackCopy w0 w1 w2 (BitVec.ofNat 64 (w.rsn x.a.toNat 2))
    q0Body x s k w = match s.copyCheck k c with
      | some (cls, det) => .fault cls det
      | none => pushChecked x s k w c := by
  intro c
  refine (if_neg hact).trans ?_
  rw [hstage]
  rfl

theorem q0Body_stages {k : Key} {w : Wave} (hact : w.act x.pr x.pn &&& w.liveMask ≠ 0) (hstage : w.stage.length ≠ 3) :
    q0Body x s k w =
      .done (s.modWave k fun u => { u with stage := w.stage ++ [BitVec.ofNat 64 (w.rsn x.a.toNat 2)] }) (pushWindow x) := by
  refine (if_neg hact).trans ?_
  split
  · rename_i hthree
    exact absurd (by rw [hthree]; rfl) hstage
  · rfl

theorem push_idle (h : s.mayIssue (.movQ0Push x)) (hact : s.actOf (.movQ0Push x) &&& (s.wave s.cur).liveMask = 0) :
    runsTo s (.movQ0Push x) (s.begun (.movQ0Push x)) [] :=
  runs_of_fields (body := q0Body x) h push_fields rfl (if_pos hact)

theorem push_stages (h : s.mayIssue (.movQ0Push x)) (hact : s.actOf (.movQ0Push x) &&& (s.wave s.cur).liveMask ≠ 0)
    (hstage : (s.wave s.cur).stage.length ≠ 3) :
    runsTo s (.movQ0Push x) ((s.begun (.movQ0Push x)).modWave s.cur fun w =>
      { w with stage := w.stage ++ [BitVec.ofNat 64 ((s.wave s.cur).rsn x.a.toNat 2)] }) (pushWindow x) := by
  refine runs_of_fields (body := q0Body x) h push_fields rfl ((q0Body_stages hact hstage).trans ?_)
  rw [modWave_congr]
  rw [begun_wave_of_fields push_fields]

theorem push_faults {w0 w1 w2 : Dword} {f : FClass} {d : Dword} (h : s.mayIssue (.movQ0Push x))
    (hact : s.actOf (.movQ0Push x) &&& (s.wave s.cur).liveMask ≠ 0) (hstage : (s.wave s.cur).stage = [w0, w1, w2])
    (hbad : s.copyCheck s.cur (unpackCopy w0 w1 w2 (BitVec.ofNat 64 ((s.wave s.cur).rsn x.a.toNat 2))) = some (f, d)) :
    faultsWith s (.movQ0Push x) f d := by
  refine faults_of s (.movQ0Push x) (q0Body x) f d h rfl ?_
  rw [readWave_of_fields push_fields, q0Body_staged hact hstage]
  rw [show (s.begun (.movQ0Push x)).copyCheck s.cur _ = _ from hbad]

section
variable {w0 w1 w2 : Dword} {c : CopyCmd}

/-- The fourth push of a command that passes its checks does what its waits and the queue say. -/
theorem push_checked (hact : s.actOf (.movQ0Push x) &&& (s.wave s.cur).liveMask ≠ 0) (hstage : (s.wave s.cur).stage = [w0, w1, w2])
    (hc : c = unpackCopy w0 w1 w2 (BitVec.ofNat 64 ((s.wave s.cur).rsn x.a.toNat 2))) (hok : s.copyCheck s.cur c = none) :
    q0Body x (s.begun (.movQ0Push x)) s.cur (s.wave s.cur) = pushChecked x (s.begun (.movQ0Push x)) s.cur (s.wave s.cur) c := by
  rw [q0Body_staged hact hstage, ← hc]
  rw [show (s.begun (.movQ0Push x)).copyCheck s.cur c = none from hok]

/-- A push that waits nowhere is accepted where the queue has room for its token and itself, and is parked else (R260). -/
theorem push_goes (h : s.mayIssue (.movQ0Push x)) (hact : s.actOf (.movQ0Push x) &&& (s.wave s.cur).liveMask ≠ 0)
    (hstage : (s.wave s.cur).stage = [w0, w1, w2]) (hc : c = unpackCopy w0 w1 w2 (BitVec.ofNat 64 ((s.wave s.cur).rsn x.a.toNat 2)))
    (hok : s.copyCheck s.cur c = none) (hacq : (s.wave s.cur).heldAcquire = false) (hfence : (s.wave s.cur).fabricFence c = false) :
    (s.tkOut s.cur < 16 → s.q0room s.cur = true →
      runsTo s (.movQ0Push x) ((s.begun (.movQ0Push x)).copyAccept s.cur c) (pushWindow x)) ∧
    (16 ≤ s.tkOut s.cur → parksAt s (.movQ0Push x) (s.begun (.movQ0Push x)) .q0) ∧
    (s.tkOut s.cur < 16 → s.q0room s.cur = false →
      parksAt s (.movQ0Push x) ((s.begun (.movQ0Push x)).modCore (coreOf s.cur) fun y =>
        if y.q0wait.contains s.cur then y else { y with q0wait := y.q0wait ++ [s.cur] }) .q0) := by
  have hbody : q0Body x (s.begun (.movQ0Push x)) s.cur (s.wave s.cur) =
      if 16 ≤ s.tkOut s.cur then .park (s.begun (.movQ0Push x)) .q0
      else if s.q0room s.cur then .done ((s.begun (.movQ0Push x)).copyAccept s.cur c) (pushWindow x)
      else .park ((s.begun (.movQ0Push x)).modCore (coreOf s.cur) fun y =>
        if y.q0wait.contains s.cur then y else { y with q0wait := y.q0wait ++ [s.cur] }) .q0 := by
    rw [push_checked hact hstage hc hok, pushChecked, begun_tkOut push_fields, begun_q0room push_fields]
    exact (if_neg (by rw [hacq]; simp)).trans (if_neg (by rw [hfence]; simp))
  have hread := hbody
  rw [← readWave_of_fields (s := s) (push_fields (x := x))] at hread
  exact ⟨fun htk hroom => runs_of_fields (body := q0Body x) h push_fields rfl
      (hbody.trans ((if_neg (Nat.not_le.mpr htk)).trans (if_pos hroom))),
    fun htk => parks_of s _ _ (q0Body x) _ h rfl (hread.trans (if_pos htk)),
    fun htk hroom => parks_of s _ _ (q0Body x) _ h rfl
      (hread.trans ((if_neg (Nat.not_le.mpr htk)).trans (if_neg (by rw [hroom]; simp))))⟩

/-- A push behind an acquire that waits, or of a remote copy behind a fence towards FABRIC (R118, R132). -/
theorem push_waits (h : s.mayIssue (.movQ0Push x)) (hact : s.actOf (.movQ0Push x) &&& (s.wave s.cur).liveMask ≠ 0)
    (hstage : (s.wave s.cur).stage = [w0, w1, w2]) (hc : c = unpackCopy w0 w1 w2 (BitVec.ofNat 64 ((s.wave s.cur).rsn x.a.toNat 2)))
    (hok : s.copyCheck s.cur c = none) :
    ((s.wave s.cur).heldAcquire = true → (s.wave s.cur).missHeld = true → parksAt s (.movQ0Push x) (s.begun (.movQ0Push x)) .miss) ∧
    ((s.wave s.cur).heldAcquire = true → (s.wave s.cur).missHeld = false → exec (.movQ0Push x) s = .next s) ∧
    ((s.wave s.cur).heldAcquire = false → (s.wave s.cur).fabricFence c = true → exec (.movQ0Push x) s = .next s) := by
  have hbody := push_checked hact hstage hc hok
  have hread := hbody
  rw [← readWave_of_fields (s := s) (push_fields (x := x))] at hread
  have hreadw := readWave_of_fields (s := s) (push_fields (x := x))
  refine ⟨fun hacq hmiss => parks_of s _ _ (q0Body x) _ h rfl (hread.trans ?_),
    fun hacq hmiss => holds_of s _ (q0Body x) h rfl (hread.trans ?_),
    fun hacq hfence => holds_of s _ (q0Body x) h rfl (hread.trans ?_)⟩
  · rw [hreadw, pushChecked, if_pos hacq, if_pos hmiss]
  · rw [hreadw, pushChecked, if_pos hacq, if_neg (by rw [hmiss]; simp)]
  · rw [hreadw, pushChecked, if_neg (by rw [hacq]; simp), if_pos hfence]

end

-- Acceptance.

theorem gotLane_stage (s : State) (k j : Key) (l : Nat) (d : Word) : ((s.modWave k fun w => w.gotLane l d).wave j).stage = (s.wave j).stage := by
  rw [State.modWave_wave]
  split
  · rename_i hk
    rw [hk]
    rfl
  · rfl

theorem putWord_stage (s : State) (c : Key) (n : Nat) (y : SpWord) (j : Key) : ((s.putWord c n y).wave j).stage = (s.wave j).stage := by
  have hserve (got : Served) : ∀ t : State,
      ((got.foldl (fun s g => s.modWave (waveKey c g.1) fun w => w.gotLane g.2.1 g.2.2) t).wave j).stage = (t.wave j).stage := by
    induction got with
    | nil => exact fun _ => rfl
    | cons g gs ih => exact fun t => (ih _).trans (gotLane_stage _ _ _ _ _)
  rw [State.putWord, State.serveWord]
  exact hserve _ _

theorem fillBegin_stage (s : State) (k : Key) (c : CopyCmd) (j : Key) : ((s.fillBegin k c).wave j).stage = (s.wave j).stage := by
  have hfold (ns : List Nat) : ∀ t : State, ((ns.foldl (fun s n =>
      if ((s.crew (crewOf k)).word n).full then s.putWord (crewOf k) n { (s.crew (crewOf k)).word n with full := false } else s) t).wave j).stage =
      (t.wave j).stage := by
    induction ns with
    | nil => exact fun _ => rfl
    | cons n ns ih =>
      intro t
      refine (ih _).trans ?_
      dsimp only
      split
      · exact putWord_stage _ _ _ _ _
      · rfl
  rw [State.fillBegin]
  exact hfold _ _

theorem fillBegin_side (s : State) (k : Key) (c : CopyCmd) : SpSide s (s.fillBegin k c) :=
  (SpSide.modCrew s _ _).trans (SpSide.foldl (fun t _ => SpSide.ite (SpSide.putWord t _ _ _) (SpSide.refl t)) _ _)

/-- The queue of a core with a command that it has accepted (R260). -/
def copyQueued (s : State) (k : Key) (c : CopyCmd) (x : CoreSt) : CoreSt :=
  let r := (s.core (coreOf k)).obRecOf c.res
  let halted := match s.ctxOf k with | some x => s.copyHalted x (coreOf k) | none => false
  { x with copyId := x.copyId + 1, q0wait := x.q0wait.filter (· ≠ k),
           copyq := x.copyq ++ [{ cmd := c, cslot := cslotOf (crewOf k), wave := waveIdOf k, id := x.copyId, base := r.base,
                                  fmt := r.fmt, stopped := halted }] }

/-- An accepted command stands last in the queue of its core, with its number, its wave and the format of its record (R260, R266). -/
theorem copyAccept_queues (s : State) (k : Key) (c : CopyCmd) :
    let n := coreOf k
    let r := (s.core n).obRecOf c.res
    let t := s.copyAccept k c
    let halted := match s.ctxOf k with | some x => s.copyHalted x n | none => false
    (t.core n).copyq = (s.core n).copyq ++
      [{ cmd := c, cslot := cslotOf (crewOf k), wave := waveIdOf k, id := (s.core n).copyId, base := r.base, fmt := r.fmt,
         stopped := halted }] ∧
    (t.core n).copyId = (s.core n).copyId + 1 ∧ (t.wave k).stage = [] ∧ t.mem = s.mem := by
  intro n r t halted
  let s1 := s.modCore n (copyQueued s k c)
  let s2 := s1.modWave k fun w => { w with stage := [] }
  have hside : SpSide s2 t := fillBegin_side s2 k c
  have hcore : t.core n = s1.core n := by
    rw [State.core, hside.frame]
    rfl
  have hs1 : s1.core n = copyQueued s k c (s.core n) := (State.modCore_core s n _ n).trans (if_pos rfl)
  refine ⟨by rw [hcore]; exact congrArg CoreSt.copyq hs1, by rw [hcore]; exact congrArg CoreSt.copyId hs1, (fillBegin_stage s2 k c k).trans ?_, by rw [hside.frame]; rfl⟩
  exact congrArg Wave.stage ((State.modWave_wave s1 k _ k).trans (if_pos rfl))

-- The pop.

theorem pop_word (h : s.mayIssue (.movQ1Pop x)) :
    (s.actOf (.movQ1Pop x) = 0 → runsTo s (.movQ1Pop x) (s.begun (.movQ1Pop x)) []) ∧
    (∀ t r, s.actOf (.movQ1Pop x) ≠ 0 → (s.wave s.cur).tokens = t :: r →
      runsTo s (.movQ1Pop x) ((s.begun (.movQ1Pop x)).modWave s.cur fun w => { w with tokens := r })
        [resS x.d.toNat 2 (s.actOf (.movQ1Pop x)) t.toNat]) ∧
    (s.actOf (.movQ1Pop x) ≠ 0 → (s.wave s.cur).tokens = [] → s.tkComing s.cur = true →
      parksAt s (.movQ1Pop x) (s.begun (.movQ1Pop x)) .q1) ∧
    (s.actOf (.movQ1Pop x) ≠ 0 → (s.wave s.cur).tokens = [] → s.tkComing s.cur = false →
      runsTo s (.movQ1Pop x) (s.begun (.movQ1Pop x)) [resS x.d.toNat 2 (s.actOf (.movQ1Pop x)) 0x200000000000]) := by
  have hempty (hact : s.actOf (.movQ1Pop x) ≠ 0) (hnone : (s.wave s.cur).tokens = []) :
      q1Body x (s.begun (.movQ1Pop x)) s.cur (s.wave s.cur) =
        if s.tkComing s.cur then .park (s.begun (.movQ1Pop x)) .q1
        else .done (s.begun (.movQ1Pop x)) [resS x.d.toNat 2 (s.actOf (.movQ1Pop x)) noToken] := by
    refine (if_neg hact).trans ?_
    rw [hnone]
    dsimp only
    rw [begun_tkComing pop_fields]
    rfl
  refine ⟨fun hact => runs_of_fields (body := q1Body x) h pop_fields rfl (if_pos hact), fun t r hact htok => ?_,
    fun hact hnone hcoming => parks_of s _ _ (q1Body x) _ h rfl ?_, fun hact hnone hcoming => ?_⟩
  · refine runs_of_fields (body := q1Body x) h pop_fields rfl ((if_neg hact).trans ?_)
    rw [htok]
    rfl
  · rw [readWave_of_fields pop_fields]
    exact (hempty hact hnone).trans (if_pos hcoming)
  · exact runs_of_fields (body := q1Body x) h pop_fields rfl ((hempty hact hnone).trans (if_neg (by rw [hcoming]; simp)))

end

/-- Settles O45: what a push stages, what becomes of the fourth, what the queue holds afterwards, and what a pop takes. -/
theorem copyQueueWords : Obligations.CopyQueueWords := by
  unfold Obligations.CopyQueueWords
  refine ⟨?_, copyAccept_queues, ?_⟩
  · intro s x i k w v win h
    refine ⟨push_idle h, push_stages h, ?_⟩
    intro w0 w1 w2 hact hstage c goes
    have hwaits (hok : s.copyCheck k c = none) := push_waits h hact hstage rfl hok
    exact ⟨fun f d => push_faults h hact hstage, fun hok => (hwaits hok).1, fun hok => (hwaits hok).2.1, fun hok => (hwaits hok).2.2,
      fun ⟨hok, hacq, hfence⟩ => (push_goes h hact hstage rfl hok hacq hfence).1,
      fun ⟨hok, hacq, hfence⟩ => (push_goes h hact hstage rfl hok hacq hfence).2.1,
      fun ⟨hok, hacq, hfence⟩ => (push_goes h hact hstage rfl hok hacq hfence).2.2⟩
  · intro s x i k h
    exact pop_word h

end Sys2Proof.Machine
end


section
/-! O46, the copy engine: starts, beats and completions. -/

namespace Sys2Proof.Machine

section
variable {s : State} {core pos b : Nat} {e : CopyEnt}

theorem command_starts (hclock : s.clockOn core = true) (hfew : ((s.core core).copyq.filter fun e => e.st != .queued).length < 4)
    (hpos : (s.core core).copyq.findIdx? (fun e => e.st == .queued && !e.stopped &&
      !(match s.copyCtx core e with | some c => (s.ctx c).up | none => false)) = some pos) :
    exec (.copyCommandStart core) s = .next (s.modCopy core pos fun e => { e with st := .running }) := by
  have hup (e : CopyEnt) : (match s.copyCtx core e with | some c => !(s.ctx c).up | none => true) =
      !(match s.copyCtx core e with | some c => (s.ctx c).up | none => false) := by
    cases s.copyCtx core e <;> rfl
  refine congrArg Host.Outcome.next ((if_neg ?_).trans ?_)
  · rw [hclock, decide_eq_false (Nat.not_le.mpr hfew)]
    decide
  · have hfind := (congrArg (fun up => (s.core core).copyq.findIdx? fun e => e.st == .queued && !e.stopped && up e) (funext hup)).trans hpos
    split
    · rename_i hnone
      exact absurd (hfind.symm.trans hnone) (by simp)
    · rename_i n hn
      rw [Option.some.inj (hfind.symm.trans hn)]

/-- A running command whose clock runs may perform a beat that is within reach. -/
structure CopyEnt.BeatDue (s : State) (core pos b : Nat) (e : CopyEnt) : Prop where
  clock : s.clockOn core = true
  entry : (s.core core).copyq[pos]? = some e
  running : e.st = .running
  goes : e.stopped = false
  fresh : e.did b = false
  inside : b < e.cmd.beats
  near : b < e.mark + 16

/-- What a due beat does. -/
theorem beat_due (h : CopyEnt.BeatDue s core pos b e) :
    s.beat core pos b =
      match firstLost (s.crew (crewKey core e.cslot)) (e.beatBanks b) with
      | some k => (s.modCrew (crewKey core e.cslot) fun c => c.spOff k).faultCopy core pos .retloss (spLossDet k)
      | none =>
        if s.copyPortDown core e && !s.answered .copy core e.id then
          s.sendPeer .copy core e.id
            (s.busOf (s.copyCtx core e) (peerBase e.cmd.peer + ((if e.cmd.dir then e.cmd.src else e.cmd.dst) + 256 * b)))
            ((if e.cmd.dir then e.cmd.src else e.cmd.dst) + 256 * b) (!e.cmd.dir) 0 256
        else
          match beatWords e core (e.cmd.beatStarts b) s with
          | .halt .busy => s
          | .halt (.dry d) => s.copyDry core pos e (some d)
          | .halt (.peer pa va w) => s.sendPeer .copy core e.id pa va w 0 256
          | .halt (.ecc l) => (s.discardBad (clusterOf core) l).faultCopy core pos .eccfatal (BitVec.ofNat 64 (lineDet l))
          | .halt (.access va) => s.faultCopy core pos .access (BitVec.ofNat 64 va)
          | .halt (.miss va) =>
            match s.copyCtx core e with
            | none => s.faultCopy core pos .xlate (BitVec.ofNat 64 va)
            | some c => (s.modCopy core pos fun e => { e with st := .missed, missVa := va }).reportMiss c va (.copy core e.id)
          | .ok s1 ws =>
            ((((ws.foldl (fun s p => s.copyPut e core p) s1).heal (e.wholeLines (ws.map (·.1.1)))).modCopy core pos fun y =>
              { y.mark1 b with carry := s1.carryOver e core (e.cmd.beatStarts b) }).dropCopyOp core e.id).copyDry core pos e none := by
  rw [State.beat, h.entry]
  refine (if_neg ?_).trans rfl
  rw [h.clock, h.running, h.goes, h.fresh, decide_eq_false (Nat.not_le.mpr h.inside), decide_eq_false (Nat.not_le.mpr h.near)]
  decide

/-- A due beat whose banks and peer answer does what its words say. -/
theorem beat_reads (h : CopyEnt.BeatDue s core pos b e) (hbanks : firstLost (s.crew (crewKey core e.cslot)) (e.beatBanks b) = none)
    (hport : s.copyPortDown core e = false ∨ s.answered .copy core e.id = true) :
    (∀ s1 ws, beatWords e core (e.cmd.beatStarts b) s = .ok s1 ws →
      exec (.copyBeatDone core pos b) s = .next
        (((((ws.foldl (fun t p => t.copyPut e core p) s1).heal (e.wholeLines (ws.map (·.1.1)))).modCopy core pos fun y =>
          { y.mark1 b with carry := s1.carryOver e core (e.cmd.beatStarts b) }).dropCopyOp core e.id).copyDry core pos e none)) ∧
    (∀ d, beatWords e core (e.cmd.beatStarts b) s = .halt (.dry d) →
      exec (.copyBeatDone core pos b) s = .next (s.copyDry core pos e (some d))) ∧
    (∀ pa va w, beatWords e core (e.cmd.beatStarts b) s = .halt (.peer pa va w) →
      exec (.copyBeatDone core pos b) s = .next (s.sendPeer .copy core e.id pa va w 0 256)) ∧
    (∀ va, beatWords e core (e.cmd.beatStarts b) s = .halt (.access va) →
      exec (.copyBeatDone core pos b) s = .next (s.faultCopy core pos .access (BitVec.ofNat 64 va))) ∧
    (∀ l, beatWords e core (e.cmd.beatStarts b) s = .halt (.ecc l) → exec (.copyBeatDone core pos b) s =
      .next ((s.discardBad (clusterOf core) l).faultCopy core pos .eccfatal (BitVec.ofNat 64 (lineDet l)))) ∧
    (beatWords e core (e.cmd.beatStarts b) s = .halt .busy → exec (.copyBeatDone core pos b) s = .next s) ∧
    (∀ va c, beatWords e core (e.cmd.beatStarts b) s = .halt (.miss va) → s.copyCtx core e = some c →
      exec (.copyBeatDone core pos b) s = .next
        ((s.modCopy core pos fun e => { e with st := .missed, missVa := va }).reportMiss c va (.copy core e.id))) := by
  have hopen : ¬(s.copyPortDown core e && !s.answered .copy core e.id) = true := by rcases hport with hp | hp <;> rw [hp] <;> simp
  have hexec : exec (.copyBeatDone core pos b) s = .next (s.beat core pos b) := rfl
  have hbeat := beat_due h
  rw [hbanks] at hbeat
  dsimp only at hbeat
  rw [if_neg hopen] at hbeat
  rw [hexec, hbeat]
  refine ⟨fun s1 ws hw => ?_, fun d hw => ?_, fun pa va w hw => ?_, fun va hw => ?_, fun l hw => ?_, fun hw => ?_, fun va c hw hc => ?_⟩
  case refine_7 => rw [hw, hc]
  all_goals rw [hw]

/-- A due beat that finds a bank's contents lost, or its peer silent (R93, R414). -/
theorem beat_stalls (h : CopyEnt.BeatDue s core pos b e) :
    (∀ k, firstLost (s.crew (crewKey core e.cslot)) (e.beatBanks b) = some k → exec (.copyBeatDone core pos b) s =
      .next ((s.modCrew (crewKey core e.cslot) fun c => c.spOff k).faultCopy core pos .retloss (spLossDet k))) ∧
    (firstLost (s.crew (crewKey core e.cslot)) (e.beatBanks b) = none → s.copyPortDown core e = true →
      s.answered .copy core e.id = false →
      let va := (if e.cmd.dir then e.cmd.src else e.cmd.dst) + 256 * b
      exec (.copyBeatDone core pos b) s = .next (s.sendPeer .copy core e.id
        (s.busOf (s.copyCtx core e) (peerBase e.cmd.peer + va)) va (!e.cmd.dir) 0 256)) := by
  have hexec : exec (.copyBeatDone core pos b) s = .next (s.beat core pos b) := rfl
  refine ⟨fun k hk => ?_, fun hnone hdown hno => ?_⟩
  · rw [hexec, beat_due h, hk]
  · intro va
    rw [hexec, beat_due h, hnone]
    exact congrArg Host.Outcome.next (if_pos (by rw [hdown, hno]; rfl))

/-- The words that move a command's data perform its beats in order (R263 to R267). -/
theorem beats_in_order {i : Instr} (hentry : (s.core core).copyq[pos]? = some e)
    (hi : (i = .copy1d core pos ∧ e.cmd.kind = 0) ∨ (i = .copy2d core pos ∧ e.cmd.kind = 1) ∨ (i = .copyGather core pos ∧ e.cmd.kind = 2) ∨
      (i = .copyOperandLoad core pos ∧ e.cmd.kind = 3) ∨ (i = .copyRemote core pos ∧ e.cmd.kind = 4)) :
    exec i s = .next ((List.range (e.cmd.beats - e.mark)).foldl (fun t n => t.beat core pos (e.mark + n)) s) := by
  have hbeats {n : Nat} (hn : e.cmd.kind.toNat = n) :
      s.beats core pos n = (List.range (e.cmd.beats - e.mark)).foldl (fun t n => t.beat core pos (e.mark + n)) s := by
    rw [State.beats, hentry]
    exact if_neg (not_not_intro hn)
  rcases hi with ⟨rfl, hk⟩ | ⟨rfl, hk⟩ | ⟨rfl, hk⟩ | ⟨rfl, hk⟩ | ⟨rfl, hk⟩ <;>
    exact congrArg Host.Outcome.next (hbeats (by rw [hk]; rfl))

/-- The token of a command that reports one is posted once, as it completes (R271). -/
def State.tokenPosted (s : State) (core : Nat) (e : CopyEnt) : State :=
  if e.cmd.tk ∧ e.st = .running then
    s.modWave (waveKey (crewKey core e.cslot) e.wave) fun w => { w with tokens := w.tokens ++ [e.cmd.token] }
  else s

theorem tokenPosted_crew (c : Key) : (s.tokenPosted core e).crew c = s.crew c := by
  rw [State.tokenPosted]
  split <;> rfl

theorem completion_due (hentry : (s.core core).copyq[pos]? = some e) (hgoes : e.stopped = false) (hclock : s.clockOn core = true)
    (hdone : (e.st = .running ∧ e.allDone = true) ∨ e.st = .posted) :
    exec (.copyCompletion core pos) s = .next
      (if !e.cmd.we then (s.tokenPosted core e).copyLeave core pos e
      else
        match (s.tokenPosted core e).arrive (crewKey core e.cslot) e.cmd.weir.toNat e.cmd.wcnt.toNat with
        | some s2 => (s2.copyLeave core pos e).seeCopies (waveKey (crewKey core e.cslot) e.wave)
        | none =>
          ((s.tokenPosted core e).modCopy core pos fun e => { e with st := .posted }).faultCopy core pos .weircount
            (weirDet e.cmd.weir.toNat (((s.tokenPosted core e).crew (crewKey core e.cslot)).weir e.cmd.weir.toNat).armed e.cmd.wcnt.toNat)) := by
  have htoken : (if (e.cmd.tk && e.st != .posted) = true then
      s.modWave (waveKey (crewKey core e.cslot) e.wave) fun w => { w with tokens := w.tokens ++ [e.cmd.token] } else s) =
      s.tokenPosted core e := by
    refine if_congr ?_ rfl rfl
    rcases hdone with ⟨hrun, -⟩ | hpost
    · rw [hrun]
      simp
    · rw [hpost]
      simp
  refine congrArg Host.Outcome.next ?_
  rw [hentry]
  refine (if_neg ?_).trans ?_
  · rw [hclock, hgoes]
    rcases hdone with ⟨hrun, hall⟩ | hpost
    · rw [hrun, hall]
      decide
    · rw [hpost]
      simp
  · dsimp only
    rw [htoken] <;> rfl

theorem completes (hentry : (s.core core).copyq[pos]? = some e) (hgoes : e.stopped = false) (hclock : s.clockOn core = true)
    (hdone : (e.st = .running ∧ e.allDone = true) ∨ e.st = .posted) :
    let k := waveKey (crewKey core e.cslot) e.wave
    let c := crewKey core e.cslot
    let n := e.cmd.weir.toNat
    let s1 := s.tokenPosted core e
    (e.cmd.we = false → exec (.copyCompletion core pos) s = .next (s1.copyLeave core pos e)) ∧
    (∀ s2, e.cmd.we = true → s1.arrive c n e.cmd.wcnt.toNat = some s2 →
      exec (.copyCompletion core pos) s = .next ((s2.copyLeave core pos e).seeCopies k)) ∧
    (e.cmd.we = true → s1.arrive c n e.cmd.wcnt.toNat = none →
      exec (.copyCompletion core pos) s = .next ((s1.modCopy core pos fun y => { y with st := .posted }).faultCopy core pos .weircount
        (BitVec.ofNat 64 (n + ((s.crew c).weir n).armed * 256 + e.cmd.wcnt.toNat * 65536)))) := by
  intro k c n s1
  rw [completion_due hentry hgoes hclock hdone]
  refine ⟨fun hwe => ?_, fun s2 hwe harr => ?_, fun hwe harr => ?_⟩
  · rw [if_pos (by rw [hwe]; rfl)]
  · rw [if_neg (by rw [hwe]; decide), harr]
  · rw [if_neg (by rw [hwe]; decide), harr]
    dsimp only
    rw [tokenPosted_crew]
    rfl

/-- A word that a command writes into the operand buffer changes its four bytes there, and no memory (R266). -/
theorem copyPut_operand {p : (Nat × Nat) × Nat} (hdsp : e.cmd.dsp = 2) :
    (∀ j, j < 4 → tget ((s.copyPut e core p).core core).ob 0 (p.1.1 + j) = BitVec.ofNat 8 (p.2 >>> (8 * j))) ∧
    (∀ a, ¬within p.1.1 4 a → tget ((s.copyPut e core p).core core).ob 0 a = tget (s.core core).ob 0 a) ∧
    (s.copyPut e core p).mem = s.mem := by
  have hput : s.copyPut e core p = s.modCore core fun c =>
      { c with ob := (List.range 4).foldl (fun t i => tset t (p.1.1 + i) (BitVec.ofNat 8 (p.2 >>> (8 * i)))) c.ob } := by
    rw [State.copyPut, hdsp]
    rfl
  have hob : ((s.copyPut e core p).core core).ob =
      (List.range 4).foldl (fun t i => tset t (p.1.1 + i) (BitVec.ofNat 8 (p.2 >>> (8 * i)))) (s.core core).ob := by
    rw [hput]
    exact congrArg CoreSt.ob ((State.modCore_core s core _ core).trans (if_pos rfl))
  have hfour : List.range 4 = [0, 1, 2, 3] := rfl
  rw [hob, hfour]
  refine ⟨fun j hj => ?_, fun a ha => ?_, by rw [hput]; rfl⟩
  · have hcases : j = 0 ∨ j = 1 ∨ j = 2 ∨ j = 3 := by omega
    rcases hcases with rfl | rfl | rfl | rfl <;> simp [tget_tset]
  · have hout : a ≠ p.1.1 ∧ a ≠ p.1.1 + 1 ∧ a ≠ p.1.1 + 2 ∧ a ≠ p.1.1 + 3 := by
      unfold within at ha
      omega
    simp [tget_tset, hout]

end

/-- Settles O46: how commands start, what a beat does and what stands in its way, and how a command completes. -/
theorem copyEngine : Obligations.CopyEngine := by
  unfold Obligations.CopyEngine
  refine ⟨?_, ?_, fun s core pos e i => beats_in_order, ?_, ?_, fun s e core p => copyPut_operand⟩
  · intro s core pos q up hclock hfew hpos
    exact command_starts hclock hfew hpos
  · intro s core pos b e hclock hentry hrun hgoes hfresh hin hnear
    exact beat_reads ⟨hclock, hentry, hrun, hgoes, hfresh, hin, hnear⟩
  · intro s core pos e hentry hgoes hclock hdone
    exact completes hentry hgoes hclock hdone
  · intro s core pos e b hentry hclock hrun hgoes hfresh hin hnear
    exact beat_stalls ⟨hclock, hentry, hrun, hgoes, hfresh, hin, hnear⟩

end Sys2Proof.Machine
end


section
/-! O47, the operand buffer's records: reserved, released, and what becomes of the units. -/

namespace Sys2Proof.Machine

section
variable {s s2 : State} {n : BitVec 4} {x : MF} {i : Instr} {body : State → Key → Wave → Eff} {res : List Res} {cls : FClass} {det : Dword}

/-- A gated word without vector operands, where the gate is open, completes or faults as its body does. -/
theorem gated_body (h : s.mayIssue i) (hg : s.gateOpen 8) (hf : (fieldOpds i).all (fun o => o.file != .v) = true) :
    memGate 8 body (s.begun i) s.cur (s.wave s.cur) = body (s.begun i) s.cur (s.wave s.cur) := by
  have hgate := memGate_begun s i 8 body h hg
  rwa [readWave_of_fields hf] at hgate

theorem gated_runs (h : s.mayIssue i) (hg : s.gateOpen 8) (hf : (fieldOpds i).all (fun o => o.file != .v) = true)
    (he : exec i s = .next (s.issue i (memGate 8 body))) (hb : body (s.begun i) s.cur (s.wave s.cur) = .done s2 res) : runsTo s i s2 res :=
  runs_of_fields h hf he ((gated_body h hg hf).trans hb)

theorem gated_faults (h : s.mayIssue i) (hg : s.gateOpen 8) (hf : (fieldOpds i).all (fun o => o.file != .v) = true)
    (he : exec i s = .next (s.issue i (memGate 8 body))) (hb : body (s.begun i) s.cur (s.wave s.cur) = .fault cls det) :
    faultsWith s i cls det := by
  refine faults_of s i _ cls det h he ?_
  rw [readWave_of_fields hf]
  exact (gated_body h hg hf).trans hb

/-- The fields of a record that OBRES may install (R258). -/
def obWellFormed (r : ObRec) (w0 w1 : Dword) : Prop :=
  r.fmt < 6 ∧ r.len ≠ 0 ∧ zeroBits w0 34 0 = true ∧ zeroBits w1 39 32 = true ∧ zeroBits w1 7 0 = true

/-- A record that another crew does not hold, and whose range no record of another crew meets (R258). -/
def obFree (c : CoreSt) (n own : Nat) (r : ObRec) : Prop :=
  ((c.obRecOf n).v = false ∨ (c.obRecOf n).own = own) ∧ ∀ e ∈ c.obrec, e.2.v = true → e.2.own ≠ own → e.2.meets r = false

theorem obWellFormed_iff (r : ObRec) (w0 w1 : Dword) :
    obWellFormed r w0 w1 ↔
      ¬(decide (6 ≤ r.fmt) || r.len == 0 || !zeroBits w0 34 0 || !zeroBits w1 39 32 || !zeroBits w1 7 0) = true := by
  simp [obWellFormed, and_assoc]

theorem obFree_iff (c : CoreSt) (n own : Nat) (r : ObRec) :
    obFree c n own r ↔
      ¬(((c.obRecOf n).v && (c.obRecOf n).own != own) || c.obrec.any fun e => e.2.v && e.2.own != own && e.2.meets r) = true := by
  simp [obFree, ← Bool.not_eq_true, or_iff_not_imp_left]

end

section
variable {s : State} {n : BitVec 4} {x : MF}

theorem obres_word (h : s.mayIssue (.obres n x)) (hg : s.gateOpen 8) :
    let i := Instr.obres n x
    let k := s.cur
    let w := s.wave k
    let c := s.core (coreOf k)
    let own := cslotOf (crewOf k)
    let w0 : Dword := BitVec.ofNat 64 (w.rsn x.d.toNat 2)
    let w1 : Dword := BitVec.ofNat 64 (w.rsn (x.d.toNat + 2) 2)
    let r := unpackOb own w0 w1
    let old := c.obRecOf n.toNat
    let ok := obWellFormed r w0 w1
    let free := obFree c n.toNat own r
    (s.actOf i = 0 → runsTo s i (s.begun i) []) ∧
    (s.actOf i ≠ 0 → ¬ok → faultsWith s i .illegal 0) ∧
    (s.actOf i ≠ 0 → ok → 512 < r.base + r.len → faultsWith s i .access (BitVec.ofNat 64 r.base)) ∧
    (s.actOf i ≠ 0 → ok → r.base + r.len ≤ 512 → ¬free → faultsWith s i .access (BitVec.ofNat 64 n.toNat)) ∧
    (s.actOf i ≠ 0 → ok → r.base + r.len ≤ 512 → free → c.obWait = [] → old.v = false ∨ c.obBusy n.toNat = false →
      runsTo s i ((s.begun i).obInstall (coreOf k) n.toNat r) []) ∧
    (s.actOf i ≠ 0 → ok → r.base + r.len ≤ 512 → free → c.obWait = [] → old.v = true → c.obBusy n.toNat = true →
      runsTo s i ((s.begun i).modCore (coreOf k) fun c => { c with obWait := tset c.obWait n.toNat (some r) }) (obPending n.toNat)) := by
  intro i k w c own w0 w1 r old ok free
  have hf : (fieldOpds i).all (fun o => o.file != .v) = true := rfl
  have hok_iff : ok ↔ _ := obWellFormed_iff r w0 w1
  have hfree_iff : free ↔ _ := obFree_iff c n.toNat own r
  have hruns {s2 : State} {res : List Res} (hb : obresBody n.toNat x (s.begun i) k w = .done s2 res) : runsTo s i s2 res :=
    gated_runs h hg hf rfl hb
  have hfaults {cls : FClass} {det : Dword} (hb : obresBody n.toNat x (s.begun i) k w = .fault cls det) : faultsWith s i cls det :=
    gated_faults h hg hf rfl hb
  have hnowait (hwait : c.obWait = []) : ¬((tfind c.obWait n.toNat).isSome ||
      c.obWait.any fun e => match e.2 with | some y => y.own != own && y.meets r | none => false) = true := by
    rw [hwait]
    exact Bool.false_ne_true
  refine ⟨fun hact => hruns (if_pos hact), fun hact hbad => hfaults ((if_neg hact).trans (if_pos ?_)),
    fun hact hok hout => hfaults ((if_neg hact).trans ((if_neg (hok_iff.mp hok)).trans (if_pos hout))),
    fun hact hok hin hheld => hfaults ((if_neg hact).trans ((if_neg (hok_iff.mp hok)).trans
      ((if_neg (Nat.not_lt.mpr hin)).trans (if_pos ?_)))),
    fun hact hok hin hfree hwait hidle => hruns ((if_neg hact).trans ((if_neg (hok_iff.mp hok)).trans
      ((if_neg (Nat.not_lt.mpr hin)).trans ((if_neg (hfree_iff.mp hfree)).trans ((if_neg (hnowait hwait)).trans (if_neg ?_)))))),
    fun hact hok hin hfree hwait hold hbusy => hruns ((if_neg hact).trans ((if_neg (hok_iff.mp hok)).trans
      ((if_neg (Nat.not_lt.mpr hin)).trans ((if_neg (hfree_iff.mp hfree)).trans ((if_neg (hnowait hwait)).trans (if_pos ?_))))))⟩
  · exact not_not.mp fun hno => hbad (hok_iff.mpr hno)
  · exact not_not.mp fun hno => hheld (hfree_iff.mpr hno)
  · show ¬(old.v && c.obBusy n.toNat) = true
    rcases hidle with hi | hi <;> rw [hi] <;> simp
  · show (old.v && c.obBusy n.toNat) = true
    rw [hold, hbusy]
    rfl

theorem obrel_word (h : s.mayIssue (.obrel n x)) (hg : s.gateOpen 8) :
    let i := Instr.obrel n x
    let k := s.cur
    let c := s.core (coreOf k)
    let own := cslotOf (crewOf k)
    let old := c.obRecOf n.toNat
    (s.actOf i = 0 ∨ old.v = false → runsTo s i (s.begun i) []) ∧
    (s.actOf i ≠ 0 → old.v = true → old.own ≠ own → faultsWith s i .access (BitVec.ofNat 64 n.toNat)) ∧
    (s.actOf i ≠ 0 → old.v = true → old.own = own → tfind c.obWait n.toNat = none →
      (c.obBusy n.toNat = false → runsTo s i ((s.begun i).obClear (coreOf k) n.toNat) []) ∧
      (c.obBusy n.toNat = true →
        runsTo s i ((s.begun i).modCore (coreOf k) fun c => { c with obWait := tset c.obWait n.toNat none }) (obPending n.toNat))) := by
  intro i k c own old
  have hf : (fieldOpds i).all (fun o => o.file != .v) = true := rfl
  have hruns {s2 : State} {res : List Res} (hb : obrelBody n.toNat x (s.begun i) k (s.wave k) = .done s2 res) : runsTo s i s2 res :=
    gated_runs h hg hf rfl hb
  have hfaults {cls : FClass} {det : Dword} (hb : obrelBody n.toNat x (s.begun i) k (s.wave k) = .fault cls det) :
      faultsWith s i cls det := gated_faults h hg hf rfl hb
  have hidle (hact : s.actOf i ≠ 0) (hold : old.v = true) : ¬(decide (s.actOf i = 0) || !old.v) = true := by
    rw [hold, decide_eq_false hact]
    decide
  refine ⟨fun hskip => hruns (if_pos ?_), fun hact hold hother => hfaults ((if_neg (hidle hact hold)).trans (if_pos ?_)),
    fun hact hold hmine hwait => ?_⟩
  · show (decide (s.actOf i = 0) || !old.v) = true
    rcases hskip with hi | hi
    · rw [decide_eq_true hi, Bool.true_or]
    · rw [hi]
      simp
  · exact bne_iff_ne.mpr hother
  · have hnother : ¬(old.own != own) = true := fun hb => absurd hmine (bne_iff_ne.mp hb)
    have hnowait : ¬(tfind c.obWait n.toNat).isSome = true := by rw [hwait]; decide
    exact ⟨fun hfree => hruns ((if_neg (hidle hact hold)).trans ((if_neg hnother).trans
        ((if_neg hnowait).trans (if_neg (by show ¬c.obBusy n.toNat = true; rw [hfree]; decide))))),
      fun hbusy => hruns ((if_neg (hidle hact hold)).trans ((if_neg hnother).trans ((if_neg hnowait).trans (if_pos hbusy))))⟩

end

-- Installing and clearing.

section
variable {s : State} {core n : Nat} {r : ObRec}

theorem obRecOf_tset (c : CoreSt) (t : Tab ObRec) (m : Nat) (ht : c.obrec = tset t n r) :
    c.obRecOf m = if m = n then r else tget t {} m := by
  rw [CoreSt.obRecOf, ht, tget_tset]

/-- The units of a record's range that another context has reserved before it (R95). -/
def State.obTaken (s : State) (core : Nat) (r : ObRec) : List Nat :=
  ((List.range r.len).map (r.base + ·)).filter fun u =>
    tget (s.core core).obOwner 0 u ≠ 0 && tget (s.core core).obOwner 0 u ≠ s.obCtx core r.own + 1

theorem mem_obTaken (u : Nat) :
    u ∈ s.obTaken core r ↔ (r.base ≤ u ∧ u < r.base + r.len) ∧ tget (s.core core).obOwner 0 u ≠ 0 ∧
      tget (s.core core).obOwner 0 u ≠ s.obCtx core r.own + 1 := by
  have hrange : (∃ a < r.len, r.base + a = u) ↔ r.base ≤ u ∧ u < r.base + r.len :=
    ⟨fun ⟨a, ha, he⟩ => by omega, fun ⟨h1, h2⟩ => ⟨u - r.base, by omega, by omega⟩⟩
  simp only [State.obTaken, List.mem_filter, List.mem_map, List.mem_range, hrange, Bool.and_eq_true, decide_eq_true_eq]

theorem obInstall_ob (a : Nat) :
    tget ((s.obInstall core n r).core core).ob 0 a = if a / 256 ∈ s.obTaken core r then 0 else tget (s.core core).ob 0 a := by
  have hob : ((s.obInstall core n r).core core).ob =
      if s.obTaken core r = [] then (s.core core).ob else (s.core core).ob.filter fun e => !(s.obTaken core r).contains (e.1 / 256) :=
    congrArg CoreSt.ob ((State.modCore_core s core _ core).trans (if_pos rfl))
  rw [hob]
  split
  · rename_i hnil
    rw [hnil, if_neg (List.not_mem_nil)]
  · rw [tget_filter _ (fun b => !(s.obTaken core r).contains (b / 256))]
    by_cases ha : a / 256 ∈ s.obTaken core r <;> simp [ha]

theorem install_clear :
    let t := s.obInstall core n r
    (t.core core).obRecOf n = r ∧ (∀ m, m ≠ n → (t.core core).obRecOf m = (s.core core).obRecOf m) ∧ t.mem = s.mem ∧
    (∀ a, r.base ≤ a / 256 → a / 256 < r.base + r.len → tget (s.core core).obOwner 0 (a / 256) ≠ 0 →
      tget (s.core core).obOwner 0 (a / 256) ≠ s.obCtx core r.own + 1 → tget (t.core core).ob 0 a = 0) ∧
    (∀ a, ¬(r.base ≤ a / 256 ∧ a / 256 < r.base + r.len) → tget (t.core core).ob 0 a = tget (s.core core).ob 0 a) ∧
    ((s.obClear core n).core core).obRecOf n = {} := by
  intro t
  have hrec : (t.core core).obrec = tset (s.core core).obrec n r :=
    congrArg CoreSt.obrec ((State.modCore_core s core _ core).trans (if_pos rfl))
  refine ⟨?_, fun m hm => ?_, rfl, fun a h1 h2 h3 h4 => ?_, fun a ha => ?_, ?_⟩
  · rw [obRecOf_tset _ _ _ hrec, if_pos rfl]
  · rw [obRecOf_tset _ _ _ hrec, if_neg hm]
    rfl
  · rw [obInstall_ob, if_pos ((mem_obTaken _).mpr ⟨⟨h1, h2⟩, h3, h4⟩)]
  · rw [obInstall_ob, if_neg fun hmem => ha ((mem_obTaken _).mp hmem).1]
  · have hclear : ((s.obClear core n).core core).obrec = tdel (s.core core).obrec n :=
      congrArg CoreSt.obrec ((State.modCore_core s core _ core).trans (if_pos rfl))
    rw [CoreSt.obRecOf, hclear, tget_tdel, if_pos rfl]

theorem install_due (hwait : tfind (s.core core).obWait n = some (some r)) (hfree : (s.core core).obBusy n = false) :
    exec (.obresInstall core n) s = .next ((s.obInstall core n r).obArrived (crewKey core r.own) n) := by
  refine congrArg Host.Outcome.next ?_
  rw [hwait]
  exact if_neg (by rw [hfree]; decide)

theorem clear_due (hwait : tfind (s.core core).obWait n = some none) (hfree : (s.core core).obBusy n = false) :
    exec (.obrelClear core n) s = .next ((s.obClear core n).obArrived (crewKey core ((s.core core).obRecOf n).own) n) := by
  refine congrArg Host.Outcome.next ?_
  rw [hwait]
  exact if_neg (by rw [hfree]; decide)

end

/-- Settles O47: what OBRES and OBREL do at once and what they leave waiting, what installing and clearing a record change. -/
theorem operandBuffer : Obligations.OperandBuffer := by
  unfold Obligations.OperandBuffer
  refine ⟨?_, ?_, fun s core n r => install_clear, fun s core n r => install_due, fun s core n => ?_⟩
  · intro s n x i k w c own w0 w1 r old ok free h hg
    exact obres_word h hg
  · intro s n x i k c own old h hg
    exact obrel_word h hg
  · intro _
    exact clear_due

end Sys2Proof.Machine
end


section
/-! O48, how a quadrant comes to its next clause. -/

namespace Sys2Proof.Machine

section
variable {s s1 : State} {core q : Nat} {k : Key} {h : Dword}

theorem quad_modQuad (f : Quad → Quad) : (s.modQuad (coreOf k) (quadOf k) f).quad k = f (s.quad k) := by
  simp [State.quad, State.modQuad]

theorem clausePick_free (hfree : ∀ k, (tget (s.core core).quads {} q).inClause = some k → (s.wave k).canRun = false ∨ (s.wave k).clause = none) :
    let qd := tget (s.core core).quads {} q
    let ks := (quadWaves core q).filter fun k => (s.wave k).here
    let s1 := ks.foldl (fun t k => t.reach k) s
    (s1.pickBest qd (ks.filter fun k => s1.ready k) = none →
      exec (.clauseIssuePick core q) s = .next (s1.modQuad core q fun x => { x with inClause := none })) ∧
    (∀ k, s1.pickBest qd (ks.filter fun k => s1.ready k) = some k →
      let s2 := (s1.modQuad core q fun x => { x with last := some k, lastYld := false, inClause := some k }).modWave k fun w =>
        { w with waited := qd.cyc }
      exec (.clauseIssuePick core q) s = .next { s2.enterClause k with cur := k, onSeq := false }) := by
  intro qd ks s1
  have hidle : ¬(match qd.inClause with | some k => (s.wave k).canRun && (s.wave k).clause.isSome | none => false) = true := by
    cases hk : qd.inClause with
    | none => exact Bool.false_ne_true
    | some k =>
      dsimp only
      rcases hfree k hk with hr | hr <;> rw [hr] <;> simp
  refine ⟨fun hnone => congrArg Host.Outcome.next ((if_neg hidle).trans ?_),
    fun k hpick => congrArg Host.Outcome.next ((if_neg hidle).trans ?_)⟩
  · show (match s1.pickBest qd (ks.filter fun k => s1.ready k) with | none => _ | some k => _) = _
    rw [hnone]
  · show (match s1.pickBest qd (ks.filter fun k => s1.ready k) with | none => _ | some k => _) = _
    rw [hpick]

theorem pickBest_mem {qd : Quad} {ks : List Key} (hpick : s.pickBest qd ks = some k) : k ∈ ks := by
  induction ks generalizing k with
  | nil => exact absurd hpick (by simp [State.pickBest])
  | cons j js ih =>
    rw [State.pickBest] at hpick
    split at hpick
    · rw [Option.some.inj hpick]
      exact List.mem_cons_self
    · rename_i b hb
      split at hpick
      · rw [← Option.some.inj hpick]
        exact List.mem_cons_of_mem _ (ih hb)
      · rw [← Option.some.inj hpick]
        exact List.mem_cons_self

/-- A wave outside every clause whose word at an address is fetched. -/
theorem enterClause_fetched {pc : Nat} (hclause : (s.wave k).clause = none) (hpc : (s.wave k).midHdr.getD (s.wave k).pc = pc)
    (halign : pc % 8 = 0) (hfetch : s.fetchWave k pc = .ok s1 h) :
    s.enterClause k =
      match (s.wave k).midHdr with
      | some a =>
        (s1.modWave k fun w =>
          { w with clause := some { hdrAt := a, hdr := h, pos := (w.pc - a) / 8 - 1 }, hwait := none,
                   lhdr := Vector.ofFn fun l => if inMask w.group l then none else w.lhdr[l] }).modQuad
          (coreOf k) (quadOf k) fun q => { q with lastYld := (unpackH h).yld }
      | none =>
        if !isHeader h || decide (5 ≤ (unpackH h).cls.toNat) then s1.raiseWave k .clause (BitVec.ofNat 64 pc) h
        else if (unpackH h).res ≠ 0 || (unpackH h).res2 ≠ 0 then s1.raiseWave k .illegal 0 h
        else
          (s1.modWave k fun w =>
            { w with clause := some { hdrAt := pc, hdr := h, pos := 0 }, hwait := none,
                     lpc := Vector.ofFn fun l => if inMask w.group l then w.lpc[l] + 8 else w.lpc[l] }).modQuad
            (coreOf k) (quadOf k) fun q => { q with lastYld := (unpackH h).yld } := by
  rw [State.enterClause, hclause]
  dsimp only
  rw [hpc, if_neg (not_not_intro halign), hfetch] <;> rfl

theorem enterClause_header (hclause : (s.wave k).clause = none) (hmid : (s.wave k).midHdr = none) (halign : (s.wave k).pc % 8 = 0)
    (hfetch : s.fetchWave k (s.wave k).pc = .ok s1 h) (hsame : s1.wave k = s.wave k) :
    let w := s.wave k
    let hd := unpackH h
    (isHeader h = true → hd.cls.toNat < 5 → hd.res = 0 → hd.res2 = 0 →
      let t := s.enterClause k
      (t.wave k).clause = some { hdrAt := w.pc, hdr := h, pos := 0 } ∧ (t.wave k).group = w.group ∧
      (∀ l : Fin 32, (t.wave k).lpc[l] = if inMask w.group l then w.lpc[l] + 8 else w.lpc[l]) ∧ t.mem = s1.mem) ∧
    (isHeader h = false → s.enterClause k = s1.raiseWave k .clause (BitVec.ofNat 64 w.pc) h) := by
  intro w hd
  have henter := enterClause_fetched hclause (by rw [hmid]; rfl) halign hfetch
  rw [hmid] at henter
  refine ⟨fun hhead hcls hres hres2 => ?_, fun hhead => henter.trans (if_pos (by rw [hhead]; rfl))⟩
  have hgood : ¬(!isHeader h || decide (5 ≤ hd.cls.toNat)) = true := by
    rw [hhead, decide_eq_false (Nat.not_le.mpr hcls)]
    decide
  have hclear : ¬(hd.res ≠ 0 || hd.res2 ≠ 0) = true := by simp [hres, hres2]
  intro t
  have ht : t = _ := henter.trans ((if_neg hgood).trans (if_neg hclear))
  have hwave : t.wave k = { s1.wave k with
      clause := some { hdrAt := w.pc, hdr := h, pos := 0 }, hwait := none,
      lpc := Vector.ofFn fun l => if inMask (s1.wave k).group l then (s1.wave k).lpc[l] + 8 else (s1.wave k).lpc[l] } := by
    rw [ht, State.modQuad_wave, State.modWave_wave, if_pos rfl]
  rw [hwave, hsame]
  exact ⟨rfl, rfl, fun l => by simp [w], by rw [ht]; rfl⟩

theorem enterClause_middle {a : Nat} (hclause : (s.wave k).clause = none) (hmid : (s.wave k).midHdr = some a) (halign : a % 8 = 0)
    (hfetch : s.fetchWave k a = .ok s1 h) (hsame : s1.wave k = s.wave k) :
    let w := s.wave k
    let t := s.enterClause k
    (t.wave k).clause = some { hdrAt := a, hdr := h, pos := (w.pc - a) / 8 - 1 } ∧ (t.wave k).group = w.group ∧
    (t.wave k).lpc = w.lpc ∧ (t.quad k).lastYld = (unpackH h).yld ∧ t.mem = s1.mem := by
  intro w t
  have ht : t = _ := enterClause_fetched hclause (by rw [hmid]; rfl) halign hfetch
  rw [hmid] at ht
  have hwave : t.wave k = { s1.wave k with
      clause := some { hdrAt := a, hdr := h, pos := ((s1.wave k).pc - a) / 8 - 1 }, hwait := none,
      lhdr := Vector.ofFn fun l => if inMask (s1.wave k).group l then none else (s1.wave k).lhdr[l] } := by
    rw [ht, State.modQuad_wave, State.modWave_wave, if_pos rfl]
  have hquad : (t.quad k).lastYld = (unpackH h).yld := by
    rw [ht, quad_modQuad]
  rw [hwave, hsame]
  exact ⟨rfl, rfl, rfl, hquad, by rw [ht]; rfl⟩

theorem enterClause_inside {c : ClauseSt} (hclause : (s.wave k).clause = some c) :
    (s.enterClause k).wave k = s.wave k ∧ ((s.enterClause k).quad k).lastYld = (c.yld || (unpackH c.hdr).yld) ∧
    ((s.quad k).inClause ≠ some k → (s.wave k).canRun = true →
      s.reach k = if s.locksAt k (s.wave k) (s.wave k).pc then s.parkWave k .miss none else s) := by
  have henter : s.enterClause k = s.modQuad (coreOf k) (quadOf k) fun q => { q with lastYld := c.yld || (unpackH c.hdr).yld } := by
    rw [State.enterClause, hclause]
  refine ⟨by rw [henter, State.modQuad_wave], by rw [henter, quad_modQuad], fun hother hrun => ?_⟩
  have hin : (s.wave k).clause.isSome = true := by rw [hclause]; rfl
  have hready : ¬(!(s.wave k).canRun || (s.quad k).inClause == some k && (s.wave k).clause.isSome) = true := by
    rw [hrun, beq_false_of_ne hother]
    simp
  exact (if_neg hready).trans (if_pos hin)

end

/-- Settles O48: the choice of a quadrant, and how the picked wave enters its clause. -/
theorem clausePick : Obligations.ClausePick := by
  unfold Obligations.ClausePick
  refine ⟨?_, fun s qd ks k => pickBest_mem, ?_, ?_, fun s k c => enterClause_inside⟩
  · intro s core q qd ks s1 hfree
    exact clausePick_free hfree
  · intro s s1 k h w hd hclause hmid halign hfetch hsame
    exact enterClause_header hclause hmid halign hfetch hsame
  · intro s s1 k a h w hclause hmid halign hfetch hsame
    exact enterClause_middle hclause hmid halign hfetch hsame

end Sys2Proof.Machine
end


section
/-! O49, the commit of a pending result. -/

namespace Sys2Proof.Machine

theorem nextCommit_spec {ps rest : List Pend} {p : Pend} (h : nextCommit ps = some (p, rest)) :
    p ∈ ps ∧ p.remain = 0 ∧ p.arrived = true := by
  have hgo (qs seen : List Pend) : nextCommit.go seen qs = some (p, rest) → p ∈ qs ∧ p.remain = 0 ∧ p.arrived = true := by
    induction qs generalizing seen with
    | nil => exact fun h => absurd h (by simp [nextCommit.go])
    | cons q qs ih =>
      intro h
      rw [nextCommit.go] at h
      split at h
      · rename_i hq
        simp only [Bool.and_eq_true, beq_iff_eq] at hq
        obtain ⟨⟨hremain, harrived⟩, -⟩ := hq
        rw [← (Prod.mk.inj (Option.some.inj h)).1]
        exact ⟨List.mem_cons_self, hremain, harrived⟩
      · obtain ⟨hmem, hrest⟩ := ih _ h
        exact ⟨List.mem_cons_of_mem _ hmem, hrest⟩
  exact hgo ps [] h

-- What a commit changes.

/-- Only registers of one file have changed. -/
structure Wave.OnlyFile (f : RFile) (w u : Wave) : Prop where
  frame : u = { w with v := u.v, vlive := u.vlive, sreg := u.sreg, slive := u.slive, kreg := u.kreg }
  v : f ≠ .v → u.v = w.v ∧ u.vlive = w.vlive
  s : f ≠ .s → u.sreg = w.sreg ∧ u.slive = w.slive
  k : f ≠ .k → u.kreg = w.kreg

theorem commit_k_list (w : Wave) (r : Nat) (ds : List LaneVec) (m : LaneMask) : ∃ kr, w.commit .k r ds m = { w with kreg := kr } := by
  induction ds generalizing w r with
  | nil => exact ⟨w.kreg, rfl⟩
  | cons d ds ih =>
    obtain ⟨kr, hkr⟩ := ih (w.setK r ((w.k r &&& ~~~m) ||| (laneMask (fun l => d[l].getLsbD 0) &&& m))) (r + 1)
    refine ⟨kr, hkr.trans ?_⟩
    rw [Wave.setK]
    split <;> rfl

theorem commit_j (w : Wave) (r : Nat) (ds : List LaneVec) (m : LaneMask) : w.commit .j r ds m = w := by
  induction ds generalizing r with
  | nil => rfl
  | cons d ds ih => exact ih (r + 1)

theorem commit_onlyFile (w : Wave) (f : RFile) (r : Nat) (ds : List LaneVec) (m : LaneMask) : w.OnlyFile f (w.commit f r ds m) := by
  cases f with
  | v =>
    obtain ⟨⟨v, lv, he⟩, -, -⟩ := commit_v w r ds m
    rw [he]
    exact ⟨rfl, fun h => absurd rfl h, fun _ => ⟨rfl, rfl⟩, fun _ => rfl⟩
  | s =>
    obtain ⟨⟨v, lv, he⟩, -, -⟩ := commit_s w r ds m
    rw [he]
    exact ⟨rfl, fun _ => ⟨rfl, rfl⟩, fun h => absurd rfl h, fun _ => rfl⟩
  | k =>
    obtain ⟨kr, he⟩ := commit_k_list w r ds m
    rw [he]
    exact ⟨rfl, fun _ => ⟨rfl, rfl⟩, fun _ => ⟨rfl, rfl⟩, fun h => absurd rfl h⟩
  | j =>
    rw [commit_j]
    exact ⟨rfl, fun _ => ⟨rfl, rfl⟩, fun _ => ⟨rfl, rfl⟩, fun _ => rfl⟩

/-- A result that commits, no bank having lost its contents: its registers, then its slot. -/
theorem commitPend_sound {w : Wave} (p : Pend) (hw : w.sound) :
    ∃ bk, w.commitPend p =
      ((({ w with banks := bk } : Wave).commit p.file p.reg p.data p.mask).slotAdd (if p.counts then p.slot else none) false, none) := by
  obtain ⟨bk, hwake, -⟩ := wake_spec w (pendBanks p) hw
  exact ⟨bk, by rw [Wave.commitPend, hwake]⟩

theorem slotAdd_sb (w : Wave) (slot : Option Nat) (up : Bool) : w.slotAdd slot up = { w with sb := (w.slotAdd slot up).sb } := by
  cases slot <;> rfl

/-- Whether a wave counts as waiting changes no other state of it. -/
theorem sinceReady_setWave (s : State) (k : Key) (u : Wave) : ∃ c, s.sinceReady k (s.setWave k u) = s.setWave k { u with waited := c } := by
  rw [State.sinceReady]
  split
  · refine ⟨((s.setWave k u).quad k).cyc, ?_⟩
    rw [State.modWave, State.setWave_wave, if_pos rfl, State.setWave_setWave]
  · exact ⟨u.waited, rfl⟩

/-- A wave whose banks are as given, without the entry that commits, after the commit of its result. -/
def Wave.afterCommit (w : Wave) (p : Pend) (rest : List Pend) (bk : Tab Bank) : Wave :=
  ({ w with pend := rest, banks := bk } : Wave).commit p.file p.reg p.data p.mask

theorem afterCommit_onlyFile (w : Wave) (p : Pend) (rest : List Pend) (bk : Tab Bank) :
    ({ w with pend := rest, banks := bk } : Wave).OnlyFile p.file (w.afterCommit p rest bk) := commit_onlyFile _ _ _ _ _

theorem commitNext_spec {s : State} {k : Key} {p : Pend} {rest : List Pend} (hnext : nextCommit (s.wave k).pend = some (p, rest))
    (hexit : (s.wave k).exitWait = false) (hsound : (s.wave k).sound) :
    ∃ bk c, s.commitNext k = s.setWave k
      { ((s.wave k).afterCommit p rest bk).slotAdd (if p.counts then p.slot else none) false with waited := c } := by
  obtain ⟨bk, hcommit⟩ := commitPend_sound (w := { s.wave k with pend := rest }) p hsound
  have hquiet : (((s.wave k).afterCommit p rest bk).slotAdd (if p.counts then p.slot else none) false).exitWait = false := by
    rw [slotAdd_sb, (afterCommit_onlyFile (s.wave k) p rest bk).frame]
    exact hexit
  have hdone (u : Wave) (hu : u.exitWait = false) : u.exitDone = u := if_neg (by rw [hu]; simp)
  obtain ⟨c, hsince⟩ := sinceReady_setWave s k (((s.wave k).afterCommit p rest bk).slotAdd (if p.counts then p.slot else none) false)
  refine ⟨bk, c, ?_⟩
  rw [State.commitNext, hnext]
  dsimp only
  rw [hcommit]
  dsimp only
  rw [← hsince]
  exact congrArg (fun u => s.sinceReady k (s.setWave k u)) (hdone _ hquiet)

theorem slotAdd_down (w : Wave) (p : Pend) :
    (∀ n, p.slot = some n → p.counts = true → tget (w.slotAdd (if p.counts then p.slot else none) false).sb 0 n = tget w.sb 0 n - 1) ∧
    (p.slot = none ∨ p.counts = false → (w.slotAdd (if p.counts then p.slot else none) false).sb = w.sb) := by
  refine ⟨fun n hslot hcounts => ?_, fun hno => ?_⟩
  · rw [if_pos hcounts, hslot, Wave.slotAdd]
    simp
  · rcases hno with hn | hn
    · rw [hn, ite_self]
      rfl
    · rw [hn]
      rfl

/-- Settles O49: the oldest result that may commit enters its registers, and its slot counts down. -/
theorem resultCommit : Obligations.ResultCommit := by
  unfold Obligations.ResultCommit
  intro s k p rest w hclock hnext hexit hsound
  obtain ⟨bk, c, hspec⟩ := commitNext_spec hnext hexit hsound
  obtain ⟨hmem, hremain, harrived⟩ := nextCommit_spec hnext
  let base : Wave := { w with pend := rest, banks := bk }
  let com := w.afterCommit p rest bk
  let u : Wave := { com.slotAdd (if p.counts then p.slot else none) false with waited := c }
  have hexec : exec (.resultCommit k) s = .next (s.setWave k u) := congrArg Host.Outcome.next ((if_pos hclock).trans hspec)
  have hof : base.OnlyFile p.file com := afterCommit_onlyFile w p rest bk
  have hframe : com = { base with v := com.v, vlive := com.vlive, sreg := com.sreg, slive := com.slive, kreg := com.kreg } := hof.frame
  have hu : u = { com with sb := u.sb, waited := c } := by
    show { com.slotAdd _ false with waited := c } = _
    rw [slotAdd_sb]
  obtain ⟨hdown, hstays⟩ := slotAdd_down com p
  have hsb : com.sb = w.sb := by rw [hframe]
  have hcom : com = base.commit p.file p.reg p.data p.mask := rfl
  refine ⟨s.setWave k u, hexec, by rw [State.setWave_wave, if_pos rfl], ?_⟩
  intro u'
  have hu' : u' = u := by
    show (s.setWave k u).wave k = u
    rw [State.setWave_wave, if_pos rfl]
  rw [hu']
  have hv : u.v = com.v ∧ u.vlive = com.vlive := by rw [hu]; exact ⟨rfl, rfl⟩
  have hs : u.sreg = com.sreg ∧ u.slive = com.slive := by rw [hu]; exact ⟨rfl, rfl⟩
  have hk : u.kreg = com.kreg := by rw [hu]
  refine ⟨hmem, hremain, harrived, by rw [hu, hframe], fun n hslot hcounts => ?_, fun hno => (hstays hno).trans hsb,
    fun hf q l => ?_, fun hf q hq => ?_, fun hf q => ?_, fun hf => ?_, fun hf => ?_, fun hf => hk.trans (hof.k hf),
    by rw [hu, hframe], by rw [hu, hframe], by rw [hu, hframe]⟩
  · rw [← hsb]
    exact hdown n hslot hcounts
  · have hrv := (commit_v base p.reg p.data p.mask).2.1 q l
    rw [Wave.rv, hv.1, hcom, hf, List.getD_eq_getElem?_getD]
    exact hrv
  · have hlive := (commit_v base p.reg p.data p.mask).2.2 q hq
    rw [Wave.isLive, hv.2, hcom, hf]
    exact hlive
  · have hrs := (commit_s base p.reg p.data p.mask).2.1 q
    rw [Wave.rs, hs.1, hcom, hf, List.getD_eq_getElem?_getD]
    exact hrs
  · obtain ⟨h1, h2⟩ := hof.v hf
    exact ⟨hv.1.trans h1, hv.2.trans h2⟩
  · obtain ⟨h1, h2⟩ := hof.s hf
    exact ⟨hs.1.trans h1, hs.2.trans h2⟩

end Sys2Proof.Machine
end


section
/-! O50, the ends of parks. -/

namespace Sys2Proof.Machine

section
variable {s : State} {k : Key} {p : Park}

/-- A parked word that does not read on is complete: its entry has arrived, and the wave goes on. -/
theorem finish_park (hp : (s.wave k).park = some p) (hr : p.readsOn = false) :
    s.finish k [] = (s.modWave k fun w => { ({ w with pend := fillParked [] w.pend }).advance with park := none, parkI := none }).woken k := by
  have hsources : (match (s.wave k).park, (s.wave k).parkI with
      | some p, some i => if p.readsOn then s.useSources k i else s
      | _, _ => s) = s := by
    rw [hp]
    cases (s.wave k).parkI with
    | none => rfl
    | some i => exact if_neg (by rw [hr]; simp)
  exact congrArg (fun t : State => (t.modWave k fun w => ({ w with pend := fillParked [] w.pend }).goPast .step).woken k) hsources

theorem retryHeld_of_no_fifo (hheld : ∀ h r, (s.wave k).held = h :: r → h.fifo = false) : s.retryHeld k = s := by
  rw [State.retryHeld]
  split
  · rename_i h r hh
    exact if_neg (by rw [hheld h r hh]; simp)
  · rfl

/-- What the end of a park does to a wave that its core runs, by the park. -/
def State.parkEnds (s : State) (k : Key) : Park → State
  | .weir n ph _ => if ((s.crew (crewOf k)).weir n).p ≠ ph then s.finish k [] else s
  | .cbwait n ph => if (s.cbar k n).p ≠ ph then s.finish k [] else s
  | .cbarv n ph => if (s.cbar k n).p ≠ ph then s.reissue k else s
  | .q0 => if decide (s.tkOut k < 16) && s.q0room k then s.reissue k else s
  | .q1 => if (s.wave k).tokens ≠ [] || !s.tkComing k then s.reissue k else s
  | .launch => if s.ringRoom k then s.reissue k else s
  | .tag => s.tagDone k
  | .miss => if (s.wave k).held = [] then s.reissue k else s
  | .event => if s.lowestIdle k then s.takeEvent k else s
  | .acqx _ | .ldwatch _ _ | .sleep _ | .fetchMiss _ | .watchMiss _ _ _ => s

theorem unpark_word (hstop : (s.wave k).stopped = false) (hclock : s.clockOn (coreOf k) = true)
    (hheld : ∀ h r, (s.wave k).held = h :: r → h.fifo = false) (hp : (s.wave k).park = some p) :
    exec (.waveUnpark k) s = .next (s.parkEnds k p) := by
  refine congrArg Host.Outcome.next ?_
  rw [retryHeld_of_no_fifo hheld, State.unparkWave, hp]
  exact (if_neg (by rw [hstop, hclock]; simp)).trans (by cases p <;> rfl)

end

/-- Settles O50: what each park waits for, and how its wave goes on. -/
theorem parksEnd : Obligations.ParksEnd := by
  unfold Obligations.ParksEnd
  intro s k hstop hclock hheld w c ended again
  have hword {p : Park} (hp : w.park = some p) : exec (.waveUnpark k) s = .next (s.parkEnds k p) := unpark_word hstop hclock hheld hp
  have hagain : s.reissue k = again := rfl
  refine ⟨fun n ph sync hp => ?_, fun n ph hp => ?_, fun n ph hp => ?_, fun hp => ?_, fun hp => ?_, fun hp => ?_, fun hp => ?_, fun hp => hword hp,
    fun hp => congrArg Host.Outcome.next ?_⟩
  · have hended : s.finish k [] = ended := finish_park hp rfl
    rw [hword hp, State.parkEnds, hended, ite_not]
  · have hended : s.finish k [] = ended := finish_park hp rfl
    rw [hword hp, State.parkEnds, hended, ite_not]
  · rw [hword hp, State.parkEnds, hagain, ite_not]
  · rw [hword hp, State.parkEnds, hagain]
    simp only [Bool.and_eq_true, decide_eq_true_eq]
  · rw [hword hp, State.parkEnds, hagain]
    simp only [Bool.or_eq_true, decide_eq_true_eq, Bool.not_eq_true']
    rfl
  · rw [hword hp, State.parkEnds, hagain]
  · rw [hword hp, State.parkEnds, hagain]
  · rw [retryHeld_of_no_fifo hheld, State.unparkWave, show (s.wave k).park = none from hp]

end Sys2Proof.Machine
end


section
/-! O51, the supply of register banks: wakes, saves and rests. -/

namespace Sys2Proof.Machine

section
variable {s : State} {k : Key} {w : Wave} {b : Nat}

theorem wake_one (b : Nat) :
    w.wake [b] =
      match (w.bank b).st with
      | .full => (w.setBank b { w.bank b with idle := none }, none)
      | .off => (w.setBank b { st := .full }, none)
      | .retain =>
        if (w.bank b).bad then ((w.setBank b { st := .full }).killBank b, some b)
        else (w.setBank b { st := .full }, none) := by
  cases hst : (w.bank b).st <;> simp only [Wave.wake, List.foldl_cons, List.foldl_nil, hst, Option.orElse_none]

theorem bank_setBank (x : Bank) (n : Nat) : (w.setBank b x).bank n = if n = b then x else w.bank n := by
  simp [Wave.setBank, Wave.bank, tget_tset]

/-- A wake that finds the bank's contents leaves it FULL, and every other bank as it was. -/
theorem wake_one_good (hgood : (w.bank b).st = .retain → (w.bank b).bad = false) :
    ∃ x, w.wake [b] = (w.setBank b x, none) ∧ x.st = .full := by
  rw [wake_one]
  cases hst : (w.bank b).st with
  | full => exact ⟨_, rfl, hst⟩
  | off => exact ⟨_, rfl, rfl⟩
  | retain => exact ⟨_, if_neg (by rw [hgood hst]; decide), rfl⟩

theorem wake_one_lost (hst : (w.bank b).st = .retain) (hbad : (w.bank b).bad = true) : (w.wake [b]).2 = some b := by
  rw [wake_one, hst]
  dsimp only
  rw [if_pos hbad]

theorem wakeDone_due (hwaking : ((s.wave k).bank b).waking = true) (hclock : s.clockOn (coreOf k) = true) :
    exec (.bankWakeDone k b) s = .next
      (match ((s.wave k).wake [b]).2 with
      | some b' => (s.setWave k ((s.wave k).wake [b]).1).raiseWave k .retloss (BitVec.ofNat 64 b') ((s.wave k).bank b).waker true false
      | none => s.setWave k ((s.wave k).wake [b]).1) :=
  congrArg Host.Outcome.next ((if_neg (by rw [hwaking, hclock]; decide)).trans rfl)

theorem wakeDone_good (hwaking : ((s.wave k).bank b).waking = true) (hclock : s.clockOn (coreOf k) = true)
    (hgood : ∀ n, ((s.wave k).bank n).bad = false) :
    ∃ t, exec (.bankWakeDone k b) s = .next t ∧ t = s.setWave k { s.wave k with banks := (t.wave k).banks } ∧
      ((t.wave k).bank b).st = .full ∧ ∀ n, n ≠ b → (t.wave k).bank n = (s.wave k).bank n := by
  obtain ⟨x, hwake, hx⟩ := wake_one_good (w := s.wave k) (b := b) fun _ => hgood b
  have hwave : (s.setWave k ((s.wave k).setBank b x)).wave k = (s.wave k).setBank b x := by rw [State.setWave_wave, if_pos rfl]
  refine ⟨s.setWave k ((s.wave k).setBank b x), ?_, ?_, ?_, fun n hn => ?_⟩
  · rw [wakeDone_due hwaking hclock, hwake]
  · rw [hwave]
    rfl
  · rw [hwave, bank_setBank, if_pos rfl, hx]
  · rw [hwave, bank_setBank, if_neg hn]

theorem wakeDone_lost (hwaking : ((s.wave k).bank b).waking = true) (hclock : s.clockOn (coreOf k) = true)
    (hst : ((s.wave k).bank b).st = .retain) (hbad : ((s.wave k).bank b).bad = true) :
    exec (.bankWakeDone k b) s =
      .next ((s.setWave k ((s.wave k).wake [b]).1).raiseWave k .retloss (BitVec.ofNat 64 b) ((s.wave k).bank b).waker true false) := by
  rw [wakeDone_due hwaking hclock, wake_one_lost hst hbad]

theorem saveBank_good (hst : ((s.wave k).bank b).st = .retain) (hgood : ((s.wave k).bank b).bad = false) :
    (((s.saveBank k b).wave k).bank b).st = .full ∧ (s.saveBank k b).ctxs = s.ctxs := by
  obtain ⟨x, hwake, hx⟩ := wake_one_good (w := s.wave k) (b := b) fun _ => hgood
  have hsave : s.saveBank k b = s.setWave k ((s.wave k).setBank b x) := by
    rw [State.saveBank, hwake]
    exact if_neg (by rw [hst]; decide)
  refine ⟨?_, by rw [hsave]; rfl⟩
  rw [hsave, State.setWave_wave, if_pos rfl, bank_setBank, if_pos rfl, hx]

theorem offIdle_dead (hon : ((s.wave k).bank b).st ≠ .off) (hlive : (s.wave k).bankLive b = false) (hpend : (s.wave k).bankPend b = false)
    (hwaking : ((s.wave k).bank b).waking = false) :
    exec (.bankOffIdle k b) s = .next
      (match ((s.wave k).bank b).idle with
      | none => s.setWave k ((s.wave k).setBank b { (s.wave k).bank b with idle := some (s.cycles (coreOf k)) })
      | some t => if t + 16 ≤ s.cycles (coreOf k) then s.setWave k ((s.wave k).setBank b {}) else s) :=
  congrArg Host.Outcome.next ((if_neg (by rw [hlive, hpend, hwaking, beq_false_of_ne hon]; decide)).trans rfl)

theorem offIdle_steps (t0 : Nat) (hon : ((s.wave k).bank b).st ≠ .off) (hlive : (s.wave k).bankLive b = false)
    (hpend : (s.wave k).bankPend b = false) (hwaking : ((s.wave k).bank b).waking = false) :
    (((s.wave k).bank b).idle = none → exec (.bankOffIdle k b) s =
      .next (s.setWave k ((s.wave k).setBank b { (s.wave k).bank b with idle := some (s.cycles (coreOf k)) }))) ∧
    (((s.wave k).bank b).idle = some t0 → t0 + 16 ≤ s.cycles (coreOf k) →
      exec (.bankOffIdle k b) s = .next (s.setWave k ((s.wave k).setBank b {}))) ∧
    (((s.wave k).bank b).idle = some t0 → s.cycles (coreOf k) < t0 + 16 → exec (.bankOffIdle k b) s = .next s) := by
  rw [offIdle_dead hon hlive hpend hwaking]
  refine ⟨fun hidle => ?_, fun hidle hdue => ?_, fun hidle hearly => ?_⟩
  · rw [hidle]
  · rw [hidle]
    exact congrArg Host.Outcome.next (if_pos hdue)
  · rw [hidle]
    exact congrArg Host.Outcome.next (if_neg (Nat.not_le.mpr hearly))

theorem retain_eq : w.retain b = (if (w.bank b).st = .full ∧ w.bankLive b = true ∧ w.bankPend b = false
    then w.setBank b { w.bank b with st := .retain, waking := false, idle := none } else w) := by
  refine if_congr ?_ rfl rfl
  simp [Wave.canRetain, and_assoc]

theorem retainHeader_due {t0 : Nat} {h : Dword} (hwait : (s.wave k).hwait = some t0) (hpeek : s.peek k (s.wave k).pc = some h)
    (hhead : isHeader h = true) (hslots : (s.wave k).waitClear (unpackH h).wait = false) (hrtn : (unpackH h).rtn.getLsbD (b / 4) = true)
    (hlong : t0 + 16 ≤ s.cycles (coreOf k)) (hin : 8 * b < (s.wave k).allot) (hrun : (s.wave k).canRun = true) :
    exec (.bankRetainHeader k b) s = .next (s.setWave k ((s.wave k).retain b)) := by
  refine congrArg Host.Outcome.next ?_
  rw [hwait, hpeek]
  exact if_pos (by rw [hhead, hslots, hrtn, hrun, decide_eq_true hlong, decide_eq_true hin]; decide)

theorem retainParked_due (hth : s.retth (crewOf k) ≠ 0) (hpark : (s.wave k).park.isSome = true ∨ (s.wave k).stopped = true)
    (hlong : (s.wave k).parkSince + s.retth (crewOf k) < s.reft) :
    exec (.bankRetainParked k b) s = .next (s.setWave k ((s.wave k).retain b)) :=
  congrArg Host.Outcome.next (if_pos (by
    rw [decide_eq_true hth, decide_eq_true hlong]
    rcases hpark with hp | hp <;> rw [hp] <;> simp))

end

/-- Settles O51: how wakes end, what a save wakes, and when banks go OFF or into RETAIN. -/
theorem registerBanks : Obligations.RegisterBanks := by
  unfold Obligations.RegisterBanks
  refine ⟨fun s k b => wakeDone_good, ?_, fun s k b => saveBank_good, ?_, ?_, ?_, fun w b => retain_eq⟩
  · intro s k b w hwaking hclock hst hbad
    exact wakeDone_lost hwaking hclock hst hbad
  · intro s k b t0 w now hon hlive hpend hwaking
    exact offIdle_steps t0 hon hlive hpend hwaking
  · intro s k b t0 h w hd hwait hpeek hhead hslots hrtn hlong hin hrun
    exact retainHeader_due hwait hpeek hhead hslots hrtn hlong hin hrun
  · intro s k b w hth hpark hlong
    exact retainParked_due hth hpark hlong

end Sys2Proof.Machine
end


section
/-! O52, delayed faults and the stop of a wave under its context's floodgate. -/

namespace Sys2Proof.Machine

section
variable {s : State} {k : Key}

theorem delayed_fault {h : HeldAcc} {r : List HeldAcc} {c : FClass} (hheld : (s.wave k).held = h :: r) (hbad : h.bad = some c)
    (hstop : (s.wave k).stopped = false) :
    exec (.delayedFault k) s = .next (s.raiseWave k c (BitVec.ofNat 64 h.va) h.word false false) := by
  refine congrArg Host.Outcome.next ?_
  rw [hheld]
  dsimp only
  rw [hbad]
  exact if_neg (by rw [hstop]; simp)

/-- A wave as the floodgate leaves it: at its word, stopped. -/
def State.gateStopped (s : State) (k : Key) : State :=
  ((s.leaveAcq k).leaveQuad k).modWave k fun w =>
    { w with stopped := true, parkSince := if w.park.isSome || w.stopped then w.parkSince else s.reft }

theorem gateStopped_frame : s.gateStopped k = { s with cores := (s.gateStopped k).cores, waves := (s.gateStopped k).waves } := by
  rw [State.gateStopped, leaveAcq_frame]
  rfl

theorem gateStopped_wave (j : Key) :
    (s.gateStopped k).wave j = if j = k then
      { s.wave k with stopped := true, parkSince := if (s.wave k).park.isSome || (s.wave k).stopped then (s.wave k).parkSince else s.reft }
      else s.wave j := by
  have hquad (q : Key) : ((s.leaveAcq k).leaveQuad k).wave q = s.wave q := leaveAcq_wave s k q
  rw [State.gateStopped, State.modWave_wave, hquad, hquad]

theorem gateStopped_quad : (s.gateStopped k).quad k =
    { acqLeft (s.wave k) k (s.quad k) with inClause := (acqLeft (s.wave k) k (s.quad k)).inClause.filter (· ≠ k) } := by
  have hleft : (s.leaveAcq k).quad k = acqLeft (s.wave k) k (s.quad k) := (leaveAcq_quads s k (coreOf k) (quadOf k)).trans (if_pos ⟨rfl, rfl⟩)
  have hquad : ((s.leaveAcq k).leaveQuad k).quad k =
      { (s.leaveAcq k).quad k with inClause := ((s.leaveAcq k).quad k).inClause.filter (· ≠ k) } :=
    (modQuad_quads (s.leaveAcq k) (coreOf k) (quadOf k) _ (coreOf k) (quadOf k)).trans (if_pos ⟨rfl, rfl⟩)
  rw [← hleft]
  exact hquad

theorem floodgateStop_wave (hreeve : isReeveCore (coreOf k) = false) (hup : (s.ctx (s.crew (crewOf k)).ctx).up = true)
    (hgroup : (s.wave k).standing.group ≠ 0) :
    let c := (s.crew (crewOf k)).ctx
    exec (.floodgateStop 0 k) s = .next
      (if !(s.wave k).here || (s.wave k).nonExited = 0 || ((s.wave k).stopped && (s.ctx c).discarded) || s.hasRec c .wave k then s
      else (s.gateStopped k).addRec c (s.waveRec k (s.stopCls c) 0 0 false)) := by
  intro c
  refine congrArg Host.Outcome.next ((if_pos (by dsimp only; rw [hup, hreeve]; rfl)).trans ?_)
  rw [State.stopWave, if_neg hgroup]
  rfl

theorem stop_wave (hreeve : isReeveCore (coreOf k) = false) (hup : (s.ctx (s.crew (crewOf k)).ctx).up = true)
    (hhere : (s.wave k).here = true) (hlanes : (s.wave k).nonExited ≠ 0) (hgroup : (s.wave k).standing.group ≠ 0) :
    let w := s.wave k
    let c := (s.crew (crewOf k)).ctx
    ((w.stopped = true ∧ (s.ctx c).discarded = true) ∨ s.hasRec c .wave k = true → exec (.floodgateStop 0 k) s = .next s) ∧
    (w.stopped = false ∨ (s.ctx c).discarded = false → s.hasRec c .wave k = false → ∃ t, exec (.floodgateStop 0 k) s = .next t ∧ t.mem = s.mem ∧
      (∀ j, j ≠ k → t.wave j = s.wave j) ∧
      t.wave k = { w with stopped := true, parkSince := if w.park.isSome ∨ w.stopped then w.parkSince else s.reft } ∧
      (t.quad k).inClause ≠ some k ∧
      (∀ q, w.park = some (.acqx q) → k ∉ (t.quad k).acq) ∧
      ∃ r, (t.ctx c).recs = (s.ctx c).recs ++ [r] ∧ r.eng = .wave ∧ r.key = k ∧ r.prec = false ∧ r.reft = s.reft ∧
        r.pc = w.standing.stopPoint.1 ∧ r.mask = w.standing.group ∧ r.cls = if (s.ctx c).byFlood then some .flood else none) := by
  intro w c
  have hword := floodgateStop_wave hreeve hup hgroup
  refine ⟨fun hno => hword.trans (congrArg Host.Outcome.next (if_pos ?_)), fun hmay hnew => ?_⟩
  · show (!w.here || decide (w.nonExited = 0) || (w.stopped && (s.ctx c).discarded) || s.hasRec c .wave k) = true
    rcases hno with ⟨h1, h2⟩ | h1
    · rw [h1, h2]
      simp
    · rw [h1, Bool.or_true]
  · have hgoes : ¬(!w.here || decide (w.nonExited = 0) || (w.stopped && (s.ctx c).discarded) || s.hasRec c .wave k) = true := by
      rw [show w.here = true from hhere, decide_eq_false (show ¬w.nonExited = 0 from hlanes), hnew]
      rcases hmay with h1 | h1 <;> rw [h1] <;> simp
    let g := s.gateStopped k
    let r : StopRec := { s.waveRec k (s.stopCls c) 0 0 false with reft := g.reft }
    let u := g.modCtx c fun x => { x with recs := x.recs ++ [r] }
    have hframe := gateStopped_frame (s := s) (k := k)
    have hctx : g.ctx c = s.ctx c := by
      show (s.gateStopped k).ctx c = s.ctx c
      rw [hframe]
      rfl
    have hreft : g.reft = s.reft := by
      show (s.gateStopped k).reft = s.reft
      rw [hframe]
    have hwave (j : Key) : ((u.tellClass c).wave j) = g.wave j := rfl
    have hquad : (u.tellClass c).quad k = g.quad k := rfl
    refine ⟨u.tellClass c, hword.trans (congrArg Host.Outcome.next (if_neg hgoes)), ?_, fun j hj => ?_, ?_, ?_, fun q hq => ?_, r, ?_,
      rfl, rfl, rfl, hreft, rfl, rfl, rfl⟩
    · show (s.gateStopped k).mem = s.mem
      rw [hframe]
    · exact (hwave j).trans ((gateStopped_wave j).trans (if_neg hj))
    · refine (hwave k).trans ((gateStopped_wave k).trans ((if_pos rfl).trans ?_))
      simp only [Bool.or_eq_true]
      rfl
    · rw [hquad, show g.quad k = _ from gateStopped_quad]
      simp [Option.filter_eq_some_iff]
    · rw [hquad, show g.quad k = _ from gateStopped_quad, acqLeft, show (s.wave k).park = some (.acqx q) from hq]
      simp
    · have hrecs : ((u.tellClass c).ctx c).recs = (g.ctx c).recs ++ [r] :=
        congrArg Ctx.recs ((State.modCtx_ctx g c (fun x => { x with recs := x.recs ++ [r] }) c).trans (if_pos rfl))
      rw [hrecs, hctx]

end

/-- Settles O52: what a delayed fault raises, and how waves and sequencers stop under a raised floodgate. -/
theorem stopsAndDelayedFaults : Obligations.StopsAndDelayedFaults := by
  unfold Obligations.StopsAndDelayedFaults
  refine ⟨fun s k h r c => delayed_fault, ?_, fun s n hreeve hup hclock => ?_⟩
  · intro s k w c hreeve hup hhere hlanes hgroup
    exact stop_wave hreeve hup hhere hlanes hgroup
  · exact congrArg Host.Outcome.next (if_pos (by dsimp only; rw [hup, hreeve, hclock]; rfl))

end Sys2Proof.Machine
end


section
/-! O53, LAUNCH. -/

namespace Sys2Proof.Machine

section
variable {s s2 : State} {x : MF} {res : List Res} {cls : FClass} {det : Dword} {p : Park}

/-- The queue of a LAUNCH is a device queue of the wave's polder, in service (R20, R197). -/
def State.launchQueue (s : State) (q c : Nat) : Prop :=
  q < 1024 ∧ polderOf (s.qCtx q) = polderOf c ∧ s.qDev q = true ∧ s.qServes q = true

theorem launchQueue_iff (q c : Nat) :
    s.launchQueue q c ↔ ¬(decide (1024 ≤ q) || polderOf (s.qCtx q) != polderOf c || !s.qDev q || !s.qServes q) = true := by
  simp [State.launchQueue, and_assoc]

theorem launch_fields : (fieldOpds (.launch x)).all (fun o => o.file != .v) = true := rfl

/-- LAUNCH in some lane, behind an open gate, does what its body says. -/
theorem launch_body (h : s.mayIssue (.launch x)) (hg : s.gateOpen 0) (hact : s.actOf (.launch x) ≠ 0) :
    waveLevel x.pr x.pn (memGate 0 (launchBody x)) (s.begun (.launch x)) s.cur (s.readWave (.launch x)) =
      launchBody x (s.begun (.launch x)) s.cur (s.wave s.cur) := by
  have hread := readWave_of_fields (s := s) (launch_fields (x := x))
  have hgate := memGate_begun s (.launch x) 0 (launchBody x) h hg
  rw [hread] at hgate ⊢
  exact (if_neg hact).trans hgate

section
variable (h : s.mayIssue (.launch x)) (hg : s.gateOpen 0) (hact : s.actOf (.launch x) ≠ 0)
include h hg hact

theorem launch_runs (hb : launchBody x (s.begun (.launch x)) s.cur (s.wave s.cur) = .done s2 res) : runsTo s (.launch x) s2 res := by
  refine runs_of_fields h launch_fields rfl ?_
  rw [← readWave_of_fields (launch_fields (x := x))]
  exact (launch_body h hg hact).trans hb

theorem launch_faults (hb : launchBody x (s.begun (.launch x)) s.cur (s.wave s.cur) = .fault cls det) :
    faultsWith s (.launch x) cls det := faults_of s _ _ cls det h rfl ((launch_body h hg hact).trans hb)

theorem launch_parks (hb : launchBody x (s.begun (.launch x)) s.cur (s.wave s.cur) = .park s2 p) : parksAt s (.launch x) s2 p :=
  parks_of s s2 _ _ p h rfl ((launch_body h hg hact).trans hb)

theorem launch_holds (hb : launchBody x (s.begun (.launch x)) s.cur (s.wave s.cur) = .hold) : exec (.launch x) s = .next s :=
  holds_of s _ _ h rfl ((launch_body h hg hact).trans hb)

end

/-- LAUNCH once its record is read and judged: the slot of the ring, and the record stored there (R20, R318). -/
def launchStore (s2 : State) (k : Key) (q c qc : Nat) (r : List Dword) : Eff :=
  let cl := clusterOf (coreOf k)
  let slot := s2.qSlot q (s2.qWrix q)
  match s2.translate (some qc) (coreOf k) slot .write with
  | .miss => .park (s2.reportMiss qc slot (.front k)) (.fetchMiss slot)
  | .access => .fault .access (BitVec.ofNat 64 slot)
  | .ecc l => .fault .eccfatal (BitVec.ofNat 64 (lineDet l))
  | .busy => .hold
  | .ok s3 spa _ =>
    if 2 ^ s3.qLog q ≤ s3.qFill q then .park s3 .launch
    else if s3.linkBusy cl || s3.crosses (some qc) (coreOf k) spa then .hold
    else
      let s4 := ((s3.release cl scope4).waveReleases k).chargeHome (some qc) spa 128
      let s5 := (s4.heal [spa / 128]).homeStore (some c) spa (r.flatMap fun v => bytesOf v.toNat 8)
      .done (s5.setWrix q ((s5.qWrix q + 1) % 2 ^ 32)) []

section
variable {k : Key} {w : Wave} {c pa home : Nat} {s1 : State}

theorem launchBody_foreign (haddr : addrCheck (w.addrS x) 128 = none) (hctx : s.ctxOf k = some c)
    (hforeign : ¬s.launchQueue (w.rs x.d.toNat).toNat c) :
    launchBody x s k w = .fault .launch (BitVec.ofNat 64 (w.rs x.d.toNat).toNat) := by
  rw [launchBody, haddr]
  dsimp only
  rw [hctx]
  exact if_pos (not_not.mp fun hno => hforeign ((launchQueue_iff _ _).mpr hno))

theorem launchBody_reads (haddr : addrCheck (w.addrS x) 128 = none) (hctx : s.ctxOf k = some c)
    (hmine : s.launchQueue (w.rs x.d.toNat).toNat c) (hread : s.wordAccess k (w.addrS x) 128 .read = .inr (s1, pa, home)) :
    let q := (w.rs x.d.toNat).toNat
    let r := (s1.readWords (clusterOf (coreOf k)) pa home 16).1
    let s2 := (s1.readWords (clusterOf (coreOf k)) pa home 16).2
    launchBody x s k w =
      if s2.relocking then .hold
      else if !s2.recOk (s.qCtx q) r then .fault .launch (BitVec.ofNat 64 q)
      else launchStore s2 k q c (s.qCtx q) r := by
  intro q r s2
  rw [launchBody, haddr]
  dsimp only
  rw [hctx]
  refine (if_neg ((launchQueue_iff _ _).mp hmine)).trans ?_
  rw [hread] <;> rfl

end

section
variable {s3 : State} {k : Key} {q c qc spa home : Nat} {r : List Dword}

theorem launchStore_miss (hmiss : s2.translate (some qc) (coreOf k) (s2.qSlot q (s2.qWrix q)) .write = .miss) :
    launchStore s2 k q c qc r =
      .park (s2.reportMiss qc (s2.qSlot q (s2.qWrix q)) (.front k)) (.fetchMiss (s2.qSlot q (s2.qWrix q))) := by
  rw [launchStore, hmiss]

theorem launchStore_access (hno : s2.translate (some qc) (coreOf k) (s2.qSlot q (s2.qWrix q)) .write = .access) :
    launchStore s2 k q c qc r = .fault .access (BitVec.ofNat 64 (s2.qSlot q (s2.qWrix q))) := by
  rw [launchStore, hno]

theorem launchStore_mapped (hok : s2.translate (some qc) (coreOf k) (s2.qSlot q (s2.qWrix q)) .write = .ok s3 spa home) :
    launchStore s2 k q c qc r =
      if 2 ^ s3.qLog q ≤ s3.qFill q then .park s3 .launch
      else if s3.linkBusy (clusterOf (coreOf k)) || s3.crosses (some qc) (coreOf k) spa then .hold
      else
        let s4 := ((s3.release (clusterOf (coreOf k)) scope4).waveReleases k).chargeHome (some qc) spa 128
        let s5 := (s4.heal [spa / 128]).homeStore (some c) spa (r.flatMap fun v => bytesOf v.toNat 8)
        .done (s5.setWrix q ((s5.qWrix q + 1) % 2 ^ 32)) [] := by
  rw [launchStore, hok]

end

end

/-- Settles O53: LAUNCH in its order: the address, the queue, the record, the slot. -/
theorem launchWord : Obligations.LaunchWord := by
  unfold Obligations.LaunchWord
  intro s x i k e q cl qc h hg
  refine ⟨fun hact => ?_, fun f hact haddr => launch_faults h hg hact (by rw [launchBody, show addrCheck ((s.wave s.cur).addrS x) 128 = some f from haddr]),
    fun c hact haddr hctx => ?_⟩
  · exact runs_of_fields h launch_fields rfl (if_pos hact)
  · intro mine
    refine ⟨fun hforeign => launch_faults h hg hact (launchBody_foreign haddr hctx hforeign), fun s1 pa home hmine hread => ?_⟩
    intro r s2 slot
    have hbody : launchBody x (s.begun i) k (s.wave k) =
        if s2.relocking then .hold
        else if !s2.recOk qc r then .fault .launch (BitVec.ofNat 64 q)
        else launchStore s2 k q c qc r := launchBody_reads (s := s.begun i) haddr hctx hmine hread
    have hjudged (hrel : s2.relocking = false) (hok : s2.recOk qc r = true) :
        launchBody x (s.begun i) k (s.wave k) = launchStore s2 k q c qc r :=
      hbody.trans ((if_neg (by rw [hrel]; simp)).trans (if_neg (by rw [hok]; simp)))
    refine ⟨fun hrel => launch_holds h hg hact (hbody.trans (if_pos hrel)),
      fun hrel hbad => launch_faults h hg hact (hbody.trans ((if_neg (by rw [hrel]; simp)).trans (if_pos (by rw [hbad]; rfl)))),
      fun hrel hok => ⟨fun hmiss => launch_parks h hg hact ((hjudged hrel hok).trans (launchStore_miss hmiss)),
        fun hno => launch_faults h hg hact ((hjudged hrel hok).trans (launchStore_access hno)), fun s3 spa home' hmapped => ?_⟩⟩
    intro relock
    have hstore := (hjudged hrel hok).trans (launchStore_mapped hmapped)
    have hrelock : relock ↔ (s3.linkBusy cl || s3.crosses (some qc) (coreOf k) spa) = true := (Bool.or_eq_true _ _).symm.to_iff
    exact ⟨fun hfull => launch_parks h hg hact (hstore.trans (if_pos hfull)),
      fun hroom hbusy => launch_holds h hg hact (hstore.trans ((if_neg (Nat.not_le.mpr hroom)).trans (if_pos (hrelock.mp hbusy)))),
      fun hroom hfree => launch_runs h hg hact
        (hstore.trans ((if_neg (Nat.not_le.mpr hroom)).trans (if_neg fun hbusy => hfree (hrelock.mpr hbusy))))⟩

end Sys2Proof.Machine
end


section
/-! What steps outside the waves leave of crews: holds change no more than a crew's throttles, the matrix engine only counts and its
sequencer, and a crew that is dropped leaves the others where they are. -/

namespace Sys2Proof.Machine

/-- The crew without its throttles (R367). -/
def Crew.unheld (c : Crew) : Crew := { c with thr := [], thrCause := 0, thrEpis := 0 }

/-- The crew without its throttles, its sequencer, its check ring, its counters and its cluster barriers. -/
def Crew.place (c : Crew) : Crew := { c.unheld with seq := {}, chk := [], chkSeq := 0, ctrs := [], fedCtrs := [], cbars := [] }

/-- A step outside the waves keeps of every crew what f sees. -/
structure Aside (f : Crew → Crew) (s t : State) : Prop where
  off : OffWave s t
  crew : ∀ c, f (t.crew c) = f (s.crew c)

theorem MemSide.aside {f : Crew → Crew} {s t : State} (h : MemSide s t) : Aside f s t := ⟨h.off, fun c => congrArg f (h.crew c)⟩

namespace Aside

section
variable {f : Crew → Crew}

theorem refl (s : State) : Aside f s s := ⟨OffWave.refl s, fun _ => rfl⟩

theorem trans {s t u : State} (h1 : Aside f s t) (h2 : Aside f t u) : Aside f s u :=
  ⟨h1.off.trans h2.off, fun c => (h2.crew c).trans (h1.crew c)⟩

theorem foldl {α : Type} {g : State → α → State} (hg : ∀ s a, Aside f s (g s a)) (ls : List α) (s : State) : Aside f s (ls.foldl g s) := by
  induction ls generalizing s with
  | nil => exact refl s
  | cons a r ih => exact (hg s a).trans (ih (g s a))

theorem ite {s t u : State} {p : Prop} [Decidable p] (h1 : Aside f s t) (h2 : Aside f s u) : Aside f s (if p then t else u) := by
  split
  · exact h1
  · exact h2

theorem modCrew (s : State) (k : Key) {g : Crew → Crew} (hg : ∀ x, f (g x) = f x) : Aside f s (s.modCrew k g) where
  off := OffWave.modCrew s k g
  crew := fun c => by
    rw [State.modCrew_crew]
    split
    · rename_i hc
      rw [hc, hg]
    · rfl

theorem modCore (s : State) (n : Nat) (g : CoreSt → CoreSt) : Aside f s (s.modCore n g) := ⟨OffWave.modCore s n g, fun _ => rfl⟩
theorem modPkg (s : State) (g : Pkg → Pkg) : Aside f s (s.modPkg g) := (MemSide.modPkg s g).aside

/-- What sees less keeps it too. -/
theorem less {g : Crew → Crew} {s t : State} (h : Aside f s t) (hg : ∀ x y, f x = f y → g x = g y) : Aside g s t :=
  ⟨h.off, fun c => hg _ _ (h.crew c)⟩

theorem islandSettle (s : State) (core : Nat) : Aside f s (s.islandSettle core) := by
  unfold State.islandSettle
  dsimp only
  exact ite (ite (modCore s _ _) (refl s)) (ite (modCore s _ _) (refl s))

end

-- Holds (R320, R365, R367).

theorem throttle (s : State) (k : Key) (cause duty : Nat) : Aside Crew.unheld s (s.throttle k cause duty) := by
  unfold State.throttle
  dsimp only
  have hmod := modCrew (f := Crew.unheld) s k (g := fun x =>
    { x with thr := tset x.thr cause duty, thrCause := cause % 8,
             thrEpis := if (tfind x.thr (cause % 8)).isSome || (tfind x.thr (cause % 8 + 8)).isSome then x.thrEpis
               else min 0xFFFF (x.thrEpis + 1) }) fun _ => rfl
  exact ite hmod (hmod.trans (ite (refl _) (((MemSide.event _ _ _ _ _ _).trans (MemSide.modPkg _ _)).aside)))

theorem unthrottle (s : State) (k : Key) (cause : Nat) : Aside Crew.unheld s (s.unthrottle k cause) := modCrew s k fun _ => rfl

theorem settleDry (s : State) (c : Key) : Aside Crew.unheld s (s.settleDry c) := by
  unfold State.settleDry
  exact ite (ite (refl s) (throttle s _ _ _)) (ite (unthrottle s _ _) (refl s))

theorem holdSlow (s : State) (p d : Nat) : Aside Crew.unheld s (s.holdSlow p d) := by
  unfold State.holdSlow
  refine foldl (fun s k => ?_) _ s
  split
  · exact throttle s _ _ _
  · exact unthrottle s _ _

theorem barrierLeave (s : State) : Aside Crew.unheld s s.barrierLeave := by
  unfold State.barrierLeave
  exact ite (refl s) ((modPkg s _).trans (foldl (fun s e => holdSlow s _ _) _ _))

theorem slowNew (s : State) (k : Key) : Aside Crew.unheld s (s.slowNew k) := by
  unfold State.slowNew
  cases (s.slowing (polderOf (s.crew k).ctx) (dieOf (coreOfCrew k))).min? with
  | none => exact refl s
  | some d => exact throttle s _ _ _

theorem place_of_unheld (x y : Crew) (h : x.unheld = y.unheld) : x.place = y.place := by rw [Crew.place, h, Crew.place]

theorem placed {s t : State} (h : Aside Crew.unheld s t) : Aside Crew.place s t := h.less place_of_unheld

-- The matrix engine (R140 to R160).

theorem modSeq (s : State) (c : Key) (g : Seq → Seq) : Aside Crew.place s (s.modSeq c g) := modCrew s c fun _ => rfl

theorem relCount (s : State) (p i n : Nat) : Aside Crew.place s (s.relCount p i n) := (MemSide.modPolder s p _).aside

theorem meter (s : State) (p i n : Nat) : Aside Crew.place s (s.meter p i n) := (MemSide.modPolder s p _).aside

theorem place_count (x : Crew) (i n : Nat) : (x.count i n).place = x.place := rfl

theorem place_putCheck (x : Crew) (r : List Dword) : (x.putCheck r).place = x.place := rfl

theorem mmaDone (s : State) (core : Nat) (m : Attempt) (es : List Word) (act : Option Nat) : Aside Crew.place s (s.mmaDone core m es act) := by
  unfold State.mmaDone
  dsimp only
  have htile : Aside Crew.place s ((s.putTile core m.acc es).meter (polderOf (s.crew (crewKey core m.cslot)).ctx) (1 + m.fmt) 1) :=
    (modCore s core _).trans (meter _ _ _ _)
  refine (htile.trans ?_).trans (islandSettle _ _)
  cases act with
  | none => exact refl _
  | some a =>
    dsimp only
    refine (((modCrew _ _ fun x => ?_).trans (modCore _ _ _)).trans (relCount _ _ _ _)).trans (relCount _ _ _ _)
    simp only [place_putCheck, place_count]

theorem guardStep (s : State) (core p : Nat) : Aside Crew.place s (s.guardStep core p) := by
  unfold State.guardStep
  exact ite (refl s) ((modCore s _ _).trans (relCount _ _ _ _))

theorem askGuard (s : State) (core : Nat) : Aside Crew.place s (s.askGuard core) := by
  unfold State.askGuard
  split
  · exact ite (guardStep s _ _) (refl s)
  · exact refl s

theorem runAttempt (s : State) (core : Nat) (m : Attempt) : Aside Crew.place s (s.runAttempt core m).1 := by
  unfold State.runAttempt
  dsimp only
  exact ite (MemSide.free s).aside (refl s)

theorem takeEngine (s : State) (core : Nat) (p : Product) : Aside Crew.place s (s.takeEngine core p) := by
  unfold State.takeEngine
  dsimp only
  have htake := (modCore (f := Crew.place) s core fun y => { y with issued := y.issued.erase p, engLast := some p.cslot }).trans
    (modSeq _ (crewKey core p.cslot) fun q => { q with latch := (s.mmaStart core p).latchAfter })
  exact ite (htake.trans (mmaDone _ _ _ _ _)) ((htake.trans (runAttempt _ _ _)).trans (modCore _ _ _))

theorem engineRun (core fuel : Nat) (s : State) : Aside Crew.place s (s.engineRun core fuel) := by
  induction fuel generalizing s with
  | zero => exact refl s
  | succ n ih =>
    unfold State.engineRun
    dsimp only
    refine ite (refl s) (ite (askGuard s core) ?_)
    split
    · exact askGuard s core
    · exact ((askGuard s core).trans (takeEngine _ _ _)).trans (ih _)

theorem engineGo (s : State) (core : Nat) : Aside Crew.place s (s.engineGo core) := engineRun _ _ _

theorem leaveEngine (s : State) (core : Nat) : Aside Crew.place s (s.leaveEngine core) := modCore s _ _

theorem dropAttempt (s : State) (core : Nat) (m : Attempt) : Aside Crew.place s (s.dropAttempt core m) :=
  ((leaveEngine s core).trans (modCore _ _ _)).trans (modSeq _ _ _)

theorem inject (s : State) (core : Nat) (m : Attempt) : Aside Crew.place s (s.inject core m).1 := by
  unfold State.inject
  split
  · split
    · dsimp only
      exact modCore s _ _
    · exact refl s
  · exact refl s

theorem mmaGuarded (s : State) (core : Nat) (m : Attempt) : Aside Crew.place s (s.mmaGuarded core m) := by
  unfold State.mmaGuarded
  dsimp only
  exact ((mmaDone s _ _ _ _).trans (relCount _ _ _ _)).trans (modCore _ _ _)

theorem verdict (s : State) (core : Nat) (m : Attempt) : Aside Crew.place s (s.verdict core m) := by
  have hinject := inject s core m
  unfold State.verdict
  dsimp only
  refine ite (hinject.trans ((leaveEngine _ _).trans (mmaDone _ _ _ _ _)))
    (ite (hinject.trans ((leaveEngine _ _).trans (mmaDone _ _ _ _ _)))
      (ite (hinject.trans (modCore _ _ _)) (ite (hinject.trans (dropAttempt _ _ _)) (ite (hinject.trans ?_) (ite (hinject.trans ?_) (hinject.trans ?_))))))
  · exact (runAttempt _ _ _).trans (modCore _ _ _)
  · exact (guardStep _ _ _).trans (modCore _ _ _)
  · exact (leaveEngine _ _).trans (mmaGuarded _ _ _)

theorem correct (s : State) (core : Nat) (m : Attempt) : Aside Crew.place s (s.correct core m) := by
  unfold State.correct
  dsimp only
  exact (modCore s core _).trans (mmaDone _ _ _ _ _)

theorem settleEngine (s : State) (core cslot : Nat) : Aside Crew.place s (s.settleEngine core cslot) := by
  have hcorrect (t : State) : Aside Crew.place t (t.correctAll core cslot) := foldl (fun t m => correct t core m) _ t
  unfold State.settleEngine
  refine trans ?_ (hcorrect _)
  split
  · exact refl s
  · refine ite (refl s) ?_
    split
    · exact verdict s _ _
    · exact dropAttempt s _ _
    · exact dropAttempt s _ _

theorem haltSeq (s : State) (c : Key) : Aside Crew.place s (s.haltSeq c) := by
  unfold State.haltSeq
  exact ite (refl s) ((((modSeq s c _).trans (settleEngine _ _ _)).trans (islandSettle _ _)).trans (engineGo _ _))

end Aside

end Sys2Proof.Machine
end


section
/-! Crews that leave their core. -/

namespace Sys2Proof.Machine

namespace Aside

theorem useCore (s : State) (core : Nat) : Aside Crew.place s (s.useCore core) := by
  unfold State.useCore
  dsimp only
  refine trans ?_ (modCore _ _ _)
  have hmeters (ps : List Nat) (t : Nat) : Aside Crew.place s (ps.foldl (fun s p => s.meter p 20 t) s) := foldl (fun s p => meter s p 20 t) ps s
  split
  · exact ite (hmeters _ _) ((hmeters _ _).trans (meter _ _ _ _))
  · exact hmeters _ _

theorem meterCtrs (s : State) (c : Key) : Aside Crew.place s (s.meterCtrs c) := by
  unfold State.meterCtrs
  dsimp only
  exact (foldl (fun s i => meter s _ _ _) _ s).trans (modCrew _ _ fun _ => rfl)

theorem pour (s : State) (p : Nat) : Aside Crew.place s (s.pour p) := by
  unfold State.pour
  dsimp only
  have hpolder := (MemSide.modPolder s p fun x =>
    { x with meter := [], total := if s.metering then addTab x.total (s.polder p).meter else x.total }).aside (f := Crew.place)
  exact ite (hpolder.trans (modPkg _ _)) hpolder

theorem meterCrew (s : State) (c : Key) : Aside Crew.place s (s.meterCrew c) := by
  unfold State.meterCrew
  exact (((useCore s _).trans (meter _ _ _ _)).trans (meterCtrs _ _)).trans (pour _ _)

theorem addCounts (s : State) (c : Key) : Aside Crew.place s (s.addCounts c) := by
  unfold State.addCounts
  dsimp only
  exact (((meterCtrs s c).trans (MemSide.modCtx _ _ _).aside).trans (MemSide.modPolder _ _ _).aside).trans (modCrew _ _ fun _ => rfl)

theorem unpinCrew (s : State) (c : Key) : Aside Crew.place s (s.unpinCrew c) := by
  unfold State.unpinCrew
  exact modPkg s _

theorem forgetCrew (s : State) (c : Key) (ids : List Nat) : Aside Crew.place s (s.forgetCrew c ids) := (MemSide.forgetMisses s _ _).aside

theorem noteIdle (s : State) (c : Key) : Aside Crew.place s (s.noteIdle c) := ite (refl s) (modCore s _ _)

end Aside

/-- A crew leaves: its registers and its place are gone, every other crew and wave stays. -/
structure Dropped (c : Key) (s t : State) : Prop where
  frame : t = { s with mem := t.mem, pkg := t.pkg, dies := t.dies, ctxs := t.ctxs, polders := t.polders, cores := t.cores,
                       crews := t.crews, waves := t.waves, freeCtr := t.freeCtr }
  canon : memWf s.mem = true → memWf t.mem = true
  wave : ∀ k, t.wave k = if crewOf k = c then Wave.fresh k else s.wave k
  crew : ∀ d, (t.crew d).place = if d = c then (Crew.fresh c).place else (s.crew d).place

/-- A crew and its waves are struck from the tables. -/
def State.strike (s : State) (c : Key) : State :=
  { s with waves := s.waves.filter fun e => crewOf e.1 ≠ c, crews := tdel s.crews c }

theorem strike_wave (s : State) (c k : Key) : (s.strike c).wave k = if crewOf k = c then Wave.fresh k else s.wave k := by
  have hfilter := tget_filter s.waves (fun k => decide (crewOf k ≠ c)) (Wave.fresh k) k
  refine hfilter.trans ?_
  rw [State.wave]
  by_cases hk : crewOf k = c <;> simp [hk]

theorem strike_crew (s : State) (c d : Key) : (s.strike c).crew d = if d = c then Crew.fresh c else s.crew d := by
  refine (tget_tdel _ _ _ _).trans ?_
  by_cases hd : d = c
  · rw [if_pos hd, if_pos hd, hd]
  · rw [if_neg hd, if_neg hd]
    rfl

theorem Dropped.of {c : Key} {s a t : State} (hbefore : Aside Crew.place s a) (hafter : Aside Crew.place (a.strike c) t) : Dropped c s t where
  frame := by
    have ha := congrArg (fun x : State => { x with
      mem := t.mem, pkg := t.pkg, dies := t.dies, ctxs := t.ctxs, polders := t.polders, cores := t.cores, crews := t.crews,
      waves := t.waves, freeCtr := t.freeCtr }) hbefore.off.frame
    refine Eq.trans ?_ ha
    have ht := hafter.off.frame
    exact ht.trans (congrArg (fun ws => { a with
      mem := t.mem, pkg := t.pkg, dies := t.dies, ctxs := t.ctxs, polders := t.polders, cores := t.cores, crews := t.crews,
      waves := ws, freeCtr := t.freeCtr }) hafter.off.waves.symm)
  canon := fun h => hafter.off.canon (hbefore.off.canon h)
  wave := fun k => by rw [hafter.off.wave, strike_wave, hbefore.off.wave]
  crew := fun d => by
    rw [hafter.crew, strike_crew]
    split
    · rfl
    · exact hbefore.crew d

/-- A crew's misses, pins, records, products, copies and operations are gone; its registers and its place are still there. -/
def State.detach (s : State) (c : Key) : State :=
  let x := s.crew c
  let core := coreOfCrew c
  let s := s.meterCrew c
  let ids := ((s.core core).copyq.filter fun e => e.cslot == cslotOf c).map (·.id)
  let s1 := (s.unpinCrew c).forgetCrew c ids
  let s2 := (s1.noteIdle c).modCore core fun y => y.without c (if x.seq.st == .off then none else some x.seq.half)
  (s2.modPkg fun p => { p with peerOps := p.peerOps.filter fun o => !ofCrew c ids o.eng o.key o.lane }).releaseLines
    fun e n => (e != .copy && ofCrew c [] e n 0) || (e == .copy && ids.any fun i => n == copyAgent core i)

theorem detach_aside (s : State) (c : Key) : Aside Crew.place s (s.detach c) := by
  unfold State.detach
  dsimp only
  exact ((((((Aside.meterCrew s c).trans (Aside.unpinCrew _ _)).trans (Aside.forgetCrew _ _ _)).trans (Aside.noteIdle _ _)).trans
    (Aside.modCore _ _ _)).trans (Aside.modPkg _ _)).trans (MemSide.releaseLines _ _).aside

theorem dropCrew_spec (s : State) (c : Key) : Dropped c s (s.dropCrew c) := by
  refine Dropped.of (detach_aside s c) ?_
  unfold State.dropCrew
  dsimp only
  refine ((Aside.trans ?_ (Aside.islandSettle _ _)).trans (Aside.engineGo _ _)).trans (Aside.barrierLeave _).placed
  split
  · exact Aside.refl _
  · exact Aside.ite (Aside.modCrew _ _ fun _ => rfl) (Aside.refl _)

end Sys2Proof.Machine
end


section
/-! O54, the dispatcher: reading records, starting crews, completing them. -/

namespace Sys2Proof.Machine

-- Words at home.

theorem bytesOf_length (v n : Nat) : (bytesOf v n).length = n := by simp [bytesOf]

theorem bytesOf_succ (v n : Nat) : bytesOf v (n + 1) = BitVec.ofNat 8 v :: bytesOf (v / 256) n := by
  rw [bytesOf, List.range_succ_eq_map, List.map_cons, List.map_map, bytesOf]
  refine congrArg₂ List.cons rfl (List.map_congr_left fun i _ => ?_)
  have hshift : v >>> (8 * (i + 1)) = (v / 256) >>> (8 * i) := by
    rw [Nat.shiftRight_eq_div_pow, Nat.shiftRight_eq_div_pow, Nat.div_div_eq_div_mul]
    exact congrArg (v / ·) (by rw [Nat.mul_add, Nat.pow_add, Nat.mul_comm])
  exact congrArg (BitVec.ofNat 8) hshift

theorem ofBytes_bytesOf (n v : Nat) : ofBytes (bytesOf v n) = v % 256 ^ n := by
  induction n generalizing v with
  | zero => simp [bytesOf, ofBytes, Nat.mod_one]
  | succ n ih =>
    have hcons : ofBytes (bytesOf v (n + 1)) = (BitVec.ofNat 8 v).toNat + 256 * ofBytes (bytesOf (v / 256) n) := by
      rw [bytesOf_succ]
      rfl
    rw [hcons, ih, BitVec.toNat_ofNat, pow_succ' 256 n, Nat.mod_mul]

/-- A word stored at home is what home holds there afterwards. -/
theorem poke64_home64 (s : State) (pa : Nat) (v : Dword) (hm : memWf s.mem = true) : (s.poke64 pa v).home64 pa = v := by
  have hbytes : (s.poke64 pa v).homeBytes pa 8 = bytesOf v.toNat 8 := by
    refine List.ext_getElem (by simp [State.homeBytes, bytesOf_length]) fun i hi _ => ?_
    have hlt : i < 8 := by simpa [State.homeBytes] using hi
    simp only [State.homeBytes, List.getElem_map, List.getElem_range, State.poke64]
    rw [pokeBytes_homeByte s pa _ hm, if_pos ⟨by omega, by rw [bytesOf_length]; omega⟩]
    rw [Nat.add_sub_cancel_left, List.getElem?_eq_getElem (by rw [bytesOf_length]; exact hlt), Option.getD_some]
  rw [State.home64, hbytes, ofBytes_bytesOf]
  apply BitVec.eq_of_toNat_eq
  have hv := v.isLt
  rw [BitVec.toNat_ofNat]
  omega

-- Reading records (R16, R354, R355).

section
variable {s s1 : State} {q c pa h : Nat}

theorem refusal_malformed {r : List Dword} (hbad : s.recOk c r = false) : s.refusal c r = some 2 := if_pos (by rw [hbad]; rfl)

theorem recordRead (hq : q < 1024) (hserves : s.qServes q = true) (hfill : s.qFill q ≠ 0) (hflt : s.qFlt q = false)
    (hcur : s.current q = none) (hvalid : s.ctxValid (s.qCtx q) = true) (hwait : tfind (s.ctx (s.qCtx q)).qwait q = none)
    (hva : s.qSlot q (s.qRdix q) < 2 ^ 57)
    (htr : s.translate (some (s.qCtx q)) dispCore (s.qSlot q (s.qRdix q)) .read = .ok s1 pa h) (hrel : s.relocking = false)
    (hgood : s1.homeBad (pa / 128) = false) :
    let c := s.qCtx q
    let r := s1.homeWords pa 16
    let s2 := (s1.chargeHome (some c) pa 128).setRdix q ((s.qRdix q + 1) % 2 ^ 32)
    (∀ st, s2.refusal c r = some st → exec (.launchRecordRead q) s = .next (s2.writeStatus q (s.qRdix q) c (recDone r) st)) ∧
    (s2.refusal c r = none → exec (.launchRecordRead q) s = .next
        { s2 with launchId := s2.launchId + 1,
                  launches := s2.launches ++
                    [{ id := s2.launchId, queue := q, idx := s.qRdix q, ctx := c, lrec := r, device := s.qDev q, prio := s.qPrio q }] }) := by
  intro c r s2
  have hopen : ¬(decide (1024 ≤ q) || !s.qServes q || s.qFill q == 0 || s.qFlt q || (s.current q).isSome || !s.ctxValid (s.qCtx q)
      || (tfind (s.ctx (s.qCtx q)).qwait q).isSome || s.relocking) = true := by
    rw [decide_eq_false (Nat.not_le.mpr hq), hserves, beq_false_of_ne hfill, hflt, hcur, hvalid, hwait, hrel]
    decide
  refine ⟨fun st hst => congrArg Host.Outcome.next ((if_neg hopen).trans ?_), fun hok => congrArg Host.Outcome.next ((if_neg hopen).trans ?_)⟩
  · dsimp only
    rw [if_neg (Nat.not_le.mpr hva), htr]
    dsimp only [State.dispRead]
    rw [if_neg (by rw [hgood]; decide), show State.refusal _ (s.qCtx q) (s1.homeWords pa 16) = some st from hst]
  · dsimp only
    rw [if_neg (Nat.not_le.mpr hva), htr]
    dsimp only [State.dispRead]
    rw [if_neg (by rw [hgood]; decide), show State.refusal _ (s.qCtx q) (s1.homeWords pa 16) = none from hok]

end

theorem dispatch_step (s : State) (d : Nat) :
    (s.relocking = true ∨ s.dispatchTurn d [] = none → exec (.dispatchOpportunity d) s = .next s) ∧
    (∀ s1 out, s.relocking = false → s.dispatchTurn d [] = some (s1, out) →
      exec (.dispatchOpportunity d) s = .next (s1.dispatchGo d out (dispatchFuel - 1))) := by
  have hfuel (n : Nat) : s.dispatchGo d [] (n + 1) = match s.dispatchTurn d [] with | none => s | some (s1, out1) => s1.dispatchGo d out1 n := rfl
  have hgo : s.dispatchGo d [] dispatchFuel =
      match s.dispatchTurn d [] with | none => s | some (s1, out1) => s1.dispatchGo d out1 (dispatchFuel - 1) := hfuel (dispatchFuel - 1)
  refine ⟨fun hno => congrArg Host.Outcome.next ?_, fun s1 out hrel hturn => congrArg Host.Outcome.next ((if_neg (by rw [hrel]; simp)).trans ?_)⟩
  · rw [State.dispatch]
    split
    · rfl
    · rename_i hrel
      rcases hno with hr | hturn
      · exact absurd hr hrel
      · rw [hgo, hturn]
  · rw [hgo, hturn]

-- Status words (R18).

theorem MemSide.writeStatus (s : State) (q idx c done status : Nat) : MemSide s (s.writeStatus q idx c done status) := by
  unfold State.writeStatus
  dsimp only
  refine MemSide.ite (MemSide.event s _ _ _ _ _) ?_
  split
  · rename_i s1 pa h htr
    exact ((((MemSide.translate htr).trans (MemSide.noteExt _ _ _)).trans (MemSide.chargeHome _ _ _ _)).trans (MemSide.poke64 _ _ _)).trans
      (MemSide.modCtx _ _ _)
  all_goals exact MemSide.event s _ _ _ _ _

theorem writeStatus_home64 {s s1 : State} {q idx c done status pa h : Nat} (halign : done % 8 = 0) (hspace : done < 2 ^ 57)
    (htr : s.translate (some c) dispCore done .write = .ok s1 pa h) (hm : memWf s1.mem = true) :
    (s.writeStatus q idx c done status).home64 pa = BitVec.ofNat 64 (status * 2 ^ 60 + s.reft % 2 ^ 60) := by
  have hwrite : s.writeStatus q idx c done status =
      (((s1.noteExt (some c) pa).chargeHome (some c) pa 8).poke64 pa (BitVec.ofNat 64 (status * 2 ^ 60 + s.reft % 2 ^ 60))).modCtx c
        fun x => { x with stsSince := true } := by
    have hok : ¬(done % 8 ≠ 0 ∨ 2 ^ 57 ≤ done) := by omega
    rw [State.writeStatus, if_neg hok, htr]
  have hhome (t : State) (f : Ctx → Ctx) : (t.modCtx c f).home64 pa = t.home64 pa := rfl
  rw [hwrite, hhome]
  exact poke64_home64 _ _ _ (((MemSide.noteExt s1 _ _).trans (MemSide.chargeHome _ _ _ _)).canon hm)

-- A sequencer's pointer block (R285).

/-- A sequencer stands where it stood, but for a page that its pointer block waits for. -/
def Seq.Began (q p : Seq) : Prop := p.mpc = q.mpc ∧ ((p.st = q.st ∧ p.missVa = q.missVa) ∨ (p.st = .parked ∧ p.missVa.isSome = true))

theorem seq_of_unheld {x y : Crew} (h : x.unheld = y.unheld) : x.seq = y.seq := by
  show x.unheld.seq = y.unheld.seq
  rw [h]

theorem Seq.Began.trans {q p r : Seq} (h1 : q.Began p) (h2 : p.Began r) : q.Began r := by
  obtain ⟨hmpc1, hst1⟩ := h1
  obtain ⟨hmpc2, hst2⟩ := h2
  refine ⟨hmpc2.trans hmpc1, ?_⟩
  rcases hst2 with ⟨hst, hmiss⟩ | hparked
  · rw [hst, hmiss]
    exact hst1
  · exact .inr hparked

/-- A step on a sequencer and beside it: the place of every crew stays, and its own sequencer stands where it stood. -/
structure SeqSide (c : Key) (s t : State) : Prop where
  aside : Aside Crew.place s t
  began : (s.crew c).seq.Began (t.crew c).seq

namespace SeqSide

section
variable {c : Key} {s t u : State}

theorem of_same (h : Aside Crew.place s t) (hseq : (t.crew c).seq = (s.crew c).seq) : SeqSide c s t := ⟨h, by rw [hseq]; exact ⟨rfl, .inl ⟨rfl, rfl⟩⟩⟩

theorem of_mem (h : MemSide s t) : SeqSide c s t := of_same h.aside (congrArg Crew.seq (h.crew c))

theorem of_held (h : Aside Crew.unheld s t) : SeqSide c s t := of_same h.placed (seq_of_unheld (h.crew c))

theorem modSeq (s : State) (f : Seq → Seq) (hf : ∀ q : Seq, q.Began (f q)) : SeqSide c s (s.modSeq c f) where
  aside := Aside.modSeq s c f
  began := by
    have hseq : ((s.modSeq c f).crew c).seq = f (s.crew c).seq := by rw [State.modSeq, State.modCrew_crew, if_pos rfl]
    rw [hseq]
    exact hf _

theorem trans (h1 : SeqSide c s t) (h2 : SeqSide c t u) : SeqSide c s u := ⟨h1.aside.trans h2.aside, h1.began.trans h2.began⟩

theorem seqDry (s : State) (c : Key) (d : Option (Nat × Nat)) : SeqSide c s (s.seqDry c d) := by
  unfold State.seqDry
  split
  · exact of_mem (MemSide.refl s)
  · exact (modSeq s (fun q => { q with dry := d }) fun _ => ⟨rfl, .inl ⟨rfl, rfl⟩⟩).trans (of_held (Aside.settleDry _ _))

theorem raiseSeq (s : State) (c : Key) (cls : FClass) (det word : Dword) : SeqSide c s (s.raiseSeq c cls det word) :=
  (modSeq (c := c) s (fun q => { q with stopped := true, rows := [] }) fun _ => ⟨rfl, .inl ⟨rfl, rfl⟩⟩).trans (of_mem (MemSide.floodgate _ _ _))

end

end SeqSide

theorem seqParts_side {c core : Nat} {a : Acc} {vas : List Nat} {s s1 : State} {ps : List (Nat × Nat)}
    (h : seqParts c core a vas s = .ok s1 ps) : MemSide s s1 := by
  induction vas generalizing s s1 ps with
  | nil =>
    rw [seqParts] at h
    injection h with hs
    rw [hs]
    exact MemSide.refl _
  | cons va r ih =>
    rw [seqParts] at h
    split at h
    · exact absurd h (by simp)
    · split at h
      case _ => exact absurd h (by simp)
      case _ => exact absurd h (by simp)
      case _ => exact absurd h (by simp)
      case _ => exact absurd h (by simp)
      case _ s2 pa home htr =>
        split at h
        · rename_i s3 qs hrest
          injection h with hs
          rw [← hs]
          exact (MemSide.translate htr).trans (ih hrest)
        · exact absurd h (by simp)

theorem readParts_side (c core n : Nat) (ps : List (Nat × Nat)) (s : State) : MemSide s (readParts c core n ps s).2 := by
  induction ps generalizing s with
  | nil => exact MemSide.refl s
  | cons p r ih =>
    rw [readParts]
    exact ((MemSide.touch s _ _ _ _ _ _).trans (MemSide.lsuRead _ _ _ _ _)).trans (ih _)

theorem seqServed_side (s : State) (c : Key) : SeqSide c s (s.seqServed c) :=
  (SeqSide.of_mem (MemSide.dropOps s _ _)).trans (SeqSide.seqDry _ _ _)

theorem seqBegin_reads {s s1 : State} {c : Key} {ps : List (Nat × Nat)} :
    let x := s.crew c
    let core := coreOfCrew c
    let a := recArgs x.lrec + 0xC0
    let vas := (List.range 16).map fun i => a + 4 * i
    seqParts x.ctx core .read vas s = .ok s1 ps → partsBlocked s1 (some x.ctx) c .read vas ps = none →
    let r := readParts x.ctx core 4 ps (s1.seqServed c)
    s.seqBegin c = r.2.modSeq c fun q =>
      { q with begun := true, ma := (chunks 8 8 r.1).zipIdx.map fun b => (b.2, BitVec.ofNat 64 (ofBytes b.1)) } := by
  intro x core a vas hparts hfree r
  have hparts' : seqParts (s.crew c).ctx (coreOfCrew c) .read
      ((List.range 16).map fun i => State.seqBegin.recAddrOf (s.crew c).lrec + 0xC0 + 4 * i) s = .ok s1 ps := hparts
  have hfree' : partsBlocked s1 (some (s.crew c).ctx) c .read
      ((List.range 16).map fun i => State.seqBegin.recAddrOf (s.crew c).lrec + 0xC0 + 4 * i) ps = none := hfree
  rw [State.seqBegin, hparts']
  dsimp only
  rw [hfree']

theorem seqBegin_side (s : State) (c : Key) : SeqSide c s (s.seqBegin c) := by
  rw [State.seqBegin]
  dsimp only
  have hhalt (t : State) (ht : MemSide s t) (hl : Halt) : SeqSide c s
      (match hl with
      | .miss va => (t.modSeq c fun q => { q with st := .parked, missVa := some va }).reportMiss (s.crew c).ctx va (.seq c)
      | .access _ => t.raiseSeq c .access (BitVec.ofNat 64 (State.seqBegin.recAddrOf (s.crew c).lrec + 0xC0))
      | .ecc l => (t.discardBad (clusterOf (coreOfCrew c)) l).raiseSeq c .eccfatal (BitVec.ofNat 64 (lineDet l))
      | .busy => t
      | .dry d => t.seqDry c (some d)
      | .peer pa va w => t.sendPeer .seq c 0 pa va w 0 8) := by
    refine (SeqSide.of_mem ht).trans ?_
    cases hl with
    | miss va => exact (SeqSide.modSeq t (fun q => { q with st := .parked, missVa := some va }) fun _ => ⟨rfl, .inr ⟨rfl, rfl⟩⟩).trans (SeqSide.of_mem (MemSide.reportMiss _ _ _ _))
    | access va => exact SeqSide.raiseSeq _ _ _ _ _
    | ecc l => exact (SeqSide.of_mem (MemSide.discardBad _ _ _)).trans (SeqSide.raiseSeq _ _ _ _ _)
    | busy => exact SeqSide.of_mem (MemSide.refl _)
    | dry d => exact SeqSide.seqDry _ _ _
    | peer pa va w => exact SeqSide.of_mem (MemSide.sendPeer _ _ _ _ _ _ _ _ _)
  split
  · exact hhalt s (MemSide.refl s) _
  · rename_i s1 ps hparts
    have hs1 := seqParts_side hparts
    split
    · exact hhalt s1 hs1 _
    · exact (((SeqSide.of_mem hs1).trans (seqServed_side s1 c)).trans
        (SeqSide.of_mem (readParts_side (s.crew c).ctx (coreOfCrew c) 4 ps (s1.seqServed c)))).trans
        (SeqSide.modSeq _ _ fun _ => ⟨rfl, .inl ⟨rfl, rfl⟩⟩)

-- A crew as it starts (R11, R15, R17, R21).

theorem tget_zipIdx {α : Type} (d : α) (as : List α) (k n : Nat) : tget ((as.zipIdx k).map fun p => (p.2, p.1)) d (k + n) = as.getD n d := by
  induction as generalizing k n with
  | nil => rfl
  | cons a as ih =>
    cases n with
    | zero => simp [tget]
    | succ n =>
      have hne : ¬k + (n + 1) = k := by omega
      have hnext : k + (n + 1) = k + 1 + n := by omega
      rw [List.zipIdx_cons, List.map_cons, tget, if_neg hne, hnext, ih]
      rfl

theorem setWave_frame {s t : State} (h : t = { s with waves := t.waves }) (k : Key) (w : Wave) :
    t.setWave k w = { s with waves := (t.setWave k w).waves } :=
  congrArg (fun x : State => { x with waves := (t.setWave k w).waves }) h

/-- Waves set one after another, each at its own key. -/
theorem foldl_setWave (c : Key) (f : State → Nat → Wave) (n : Nat) (s : State) :
    let t := (List.range n).foldl (fun s i => s.setWave (waveKey c i) (f s i)) s
    t = { s with waves := t.waves } ∧ ∀ i, i < n → ∃ u, t.wave (waveKey c i) = f u i := by
  induction n with
  | zero => exact ⟨rfl, fun i hi => absurd hi (Nat.not_lt_zero i)⟩
  | succ n ih =>
    obtain ⟨hframe, hwaves⟩ := ih
    simp only [List.range_succ, List.foldl_append, List.foldl_cons, List.foldl_nil]
    refine ⟨setWave_frame hframe _ _, fun i hi => ?_⟩
    · rw [State.setWave_wave]
      by_cases hin : i = n
      · subst hin
        exact ⟨_, if_pos rfl⟩
      · rw [if_neg (by unfold waveKey; omega)]
        exact hwaves i (by omega)

/-- A crew that starts, before its sequencer reads its pointer block: the crew, its half of the sequencers, its waves. -/
def State.enrolCrew (s : State) (l : Launch) (unit rank core cslot : Nat) : State :=
  let c := crewKey core cslot
  let r := l.lrec
  let half := (s.core core).freeHalf
  let sched := (s.segment l.ctx r (unit * recCl r + rank)).getD []
  let s1 := (s.acquire (clusterOf core) scope4).setCrew c (launchCrew l unit rank half sched s.reft)
  let s2 := if recMstr r then s1.modCore core fun y => { y with seqs := tset y.seqs half (cslot + 1) } else s1
  let epoch (n : Nat) : Word := (s2.scopeEnt l.ctx n).epoch
  let args := s.argWords l
  (List.range (recNwave r)).foldl
    (fun s i => s.setWave (waveKey c i) (launchWave r i args epoch (s.quad (waveKey c i)).cyc s.reft)) s2

section
variable (s : State) (l : Launch) (unit rank core cslot : Nat)

theorem startCrew_eq :
    s.startCrew l unit rank core cslot =
      (((if recMstr l.lrec then (s.enrolCrew l unit rank core cslot).seqBegin (crewKey core cslot)
        else s.enrolCrew l unit rank core cslot).slowNew (crewKey core cslot)).islandSettle core) := rfl

theorem enrolCrew_crew : (s.enrolCrew l unit rank core cslot).crew (crewKey core cslot) =
    launchCrew l unit rank (s.core core).freeHalf ((s.segment l.ctx l.lrec (unit * recCl l.lrec + rank)).getD []) s.reft := by
  have hset (t : State) (x : Crew) : (t.setCrew (crewKey core cslot) x).crew (crewKey core cslot) = x := by
    rw [State.setCrew_crew, if_pos rfl]
  rw [State.enrolCrew]
  rw [State.crew, (foldl_setWave _ _ _ _).1]
  split
  · exact hset _ _
  · exact hset _ _

theorem enrolCrew_wave (i : Nat) (hi : i < recNwave l.lrec) : ∃ epoch cyc reft,
    (s.enrolCrew l unit rank core cslot).wave (waveKey (crewKey core cslot) i) = launchWave l.lrec i (s.argWords l) epoch cyc reft := by
  rw [State.enrolCrew]
  obtain ⟨u, hu⟩ := (foldl_setWave (crewKey core cslot) _ (recNwave l.lrec) _).2 i hi
  exact ⟨_, _, _, hu⟩

/-- What the steps after its enrolment leave of the crew and its waves. -/
theorem startCrew_side : SeqSide (crewKey core cslot) (s.enrolCrew l unit rank core cslot) (s.startCrew l unit rank core cslot) := by
  rw [startCrew_eq]
  have hrest (t : State) : SeqSide (crewKey core cslot) t ((t.slowNew (crewKey core cslot)).islandSettle core) :=
    SeqSide.of_held ((Aside.slowNew _ _).trans (Aside.islandSettle _ _))
  split
  · exact (seqBegin_side _ _).trans (hrest _)
  · exact hrest _

end

section
variable (r : List Dword) (i : Nat) (args : List Word) (epoch : Nat → Word) (cyc reft : Nat)

theorem launchWave_lanes (n : Fin 32) : (launchWave r i args epoch cyc reft).lst[n] =
    if n.val < recLanes r i then .live else if n.val / 4 = (recLanes r i - 1) / 4 then .helper else .never := by
  simp [launchWave, launchLanes]

theorem launchWave_registers :
    (∀ n, (launchWave r i args epoch cyc reft).rs n = args.getD n 0) ∧
    (recLid r = true → ∀ n : Fin 32, (launchWave r i args epoch cyc reft).rv 0 n = BitVec.ofNat 32 n.val) := by
  refine ⟨fun n => ?_, fun hlid n => ?_⟩
  · have hn := tget_zipIdx 0 args 0 n
    rw [Nat.zero_add] at hn
    exact hn
  · simp [launchWave, Wave.rv, hlid, tget]

end

section
variable (s : State) (l : Launch) (unit rank core cslot : Nat)

theorem startCrew_place :
    let x := (s.startCrew l unit rank core cslot).crew (crewKey core cslot)
    x.st = .running ∧ x.ctx = l.ctx ∧ x.lrec = l.lrec ∧ x.crewid = BitVec.ofNat 32 (unit * recCl l.lrec + rank) ∧ x.cursor = 0 := by
  intro x
  have hplace := (startCrew_side s l unit rank core cslot).aside.crew (crewKey core cslot)
  rw [enrolCrew_crew] at hplace
  have hfields : x.place.st = .running ∧ x.place.ctx = l.ctx ∧ x.place.lrec = l.lrec ∧
      x.place.crewid = BitVec.ofNat 32 (unit * recCl l.lrec + rank) ∧ x.place.cursor = 0 := by
    rw [hplace]
    exact ⟨rfl, rfl, rfl, rfl, rfl⟩
  exact hfields

theorem startCrew_stream :
    let x := (s.startCrew l unit rank core cslot).crew (crewKey core cslot)
    (recMstr l.lrec = true → x.seq.mpc = recMentry l.lrec ∧ (x.seq.st = .run ∨ (x.seq.st = .parked ∧ x.seq.missVa.isSome = true))) ∧
    (recMstr l.lrec = false → x.seq.st = .off) := by
  intro x
  have hcrew := enrolCrew_crew s l unit rank core cslot
  refine ⟨fun hm => ?_, fun hm => ?_⟩
  · obtain ⟨-, hmpc, hst⟩ := startCrew_side s l unit rank core cslot
    have hseq : ((s.enrolCrew l unit rank core cslot).crew (crewKey core cslot)).seq =
        { st := .run, half := (s.core core).freeHalf, mpc := recMentry l.lrec } := by
      rw [hcrew]
      exact if_pos hm
    rw [hseq] at hmpc hst
    exact ⟨hmpc, hst.imp And.left id⟩
  · have hheld : Aside Crew.unheld (s.enrolCrew l unit rank core cslot) (s.startCrew l unit rank core cslot) := by
      rw [startCrew_eq, if_neg (by rw [hm]; simp)]
      exact (Aside.slowNew _ _).trans (Aside.islandSettle _ _)
    have hseq : ((s.enrolCrew l unit rank core cslot).crew (crewKey core cslot)).seq = {} := by
      rw [hcrew]
      exact if_neg (by rw [hm]; simp)
    have hsame := seq_of_unheld (hheld.crew (crewKey core cslot))
    rw [hseq] at hsame
    exact congrArg Seq.st hsame

theorem startCrew_waves (i : Nat) (hi : i < recNwave l.lrec) :
    let r := l.lrec
    let w := (s.startCrew l unit rank core cslot).wave (waveKey (crewKey core cslot) i)
    w.here = true ∧ w.breg = recBreg r (recRole r i) ∧ w.clause = none ∧ w.park = none ∧
    w.vlive = (if recLid r then 1 else 0) ∧ w.slive = BitVec.ofNat 64 (2 ^ recArgw r - 1) ∧
    (∀ n, w.rs n = (s.argWords l).getD n 0) ∧
    (recLid r = true → ∀ n : Fin 32, w.rv 0 n = BitVec.ofNat 32 n.val) ∧
    (∀ n : Fin 32, w.lpc[n] = BitVec.ofNat 64 (recAddr r (1 + recRole r i))) ∧
    (∀ n : Fin 32, w.lst[n] =
      if n.val < recLanes r i then .live else if n.val / 4 = (recLanes r i - 1) / 4 then .helper else .never) := by
  intro r w
  obtain ⟨epoch, cyc, reft, hw⟩ := enrolCrew_wave s l unit rank core cslot i hi
  have hwave : w = launchWave r i (s.argWords l) epoch cyc reft := ((startCrew_side s l unit rank core cslot).aside.off.wave _).trans hw
  obtain ⟨hrs, hrv⟩ := launchWave_registers r i (s.argWords l) epoch cyc reft
  rw [hwave]
  exact ⟨rfl, rfl, rfl, rfl, rfl, rfl, hrs, hrv, fun n => by simp [launchWave], launchWave_lanes r i _ _ _ _⟩

end

-- Completion (R18).

theorem crewOf_waveKey (k i : Nat) (hi : i < 32) : crewOf (waveKey k i) = k := by
  show (k * 32 + i) / 32 = k
  omega

theorem reeve_low {k : Nat} (hk : isReeveCore (coreOfCrew k) = false) : k / 16 < 252 := Nat.not_le.mp (of_decide_eq_false hk)

theorem fresh_crew {k : Key} (hk : isReeveCore (coreOfCrew k) = false) : Crew.fresh k = {} := by
  exact if_neg (by rw [decide_eq_false (Nat.not_le.mpr (reeve_low hk))]; simp)

theorem waveKey_low (k i : Nat) (hk : k / 16 < 252) (hi : i < 32) : ¬252 ≤ waveKey k i / 512 := by
  show ¬252 ≤ (k * 32 + i) / 512
  omega

theorem fresh_wave {k : Key} {i : Nat} (hk : isReeveCore (coreOfCrew k) = false) (hi : i < 32) : Wave.fresh (waveKey k i) = {} :=
  if_neg (by rw [decide_eq_false (waveKey_low k i (reeve_low hk) hi)]; simp)

theorem Dropped.gone {s t : State} {k : Key} (h : Dropped k s t) (hk : isReeveCore (coreOfCrew k) = false) :
    (t.crew k).st = .absent ∧ ∀ i, i < 32 → (t.wave (waveKey k i)).here = false := by
  refine ⟨?_, fun i hi => ?_⟩
  · have hcrew := h.crew k
    rw [if_pos rfl, fresh_crew hk] at hcrew
    have hst : (t.crew k).place.st = .absent := by rw [hcrew]; rfl
    exact hst
  · rw [h.wave, if_pos (crewOf_waveKey k i hi), fresh_wave hk hi]

/-- A launch with one crew more completed (R18). -/
def Launch.withCrew (x : Crew) (l : Launch) : Launch :=
  { l with doneCrews := l.doneCrews + 1, doneOf := tset l.doneOf x.unit (tget l.doneOf 0 x.unit + 1), issuedSum := l.issuedSum + x.issued }

/-- The launches with one crew more completed of that of a crew. -/
def countCrew (x : Crew) (ls : List Launch) : List Launch := ls.map fun l => if l.id == x.launch then l.withCrew x else l

theorem countCrew_find {x : Crew} {ls : List Launch} {l : Launch} (h : ls.find? (fun l => l.id == x.launch) = some l) :
    (countCrew x ls).find? (fun l => l.id == x.launch) = some (l.withCrew x) := by
  have hid : (l.id == x.launch) = true := List.find?_some (p := fun l : Launch => l.id == x.launch) h
  have hkeeps : ((fun y : Launch => y.id == x.launch) ∘ fun l : Launch => if l.id == x.launch then l.withCrew x else l) =
      fun y => y.id == x.launch := by
    funext y
    dsimp only [Function.comp]
    split <;> rfl
  rw [countCrew, List.find?_map, hkeeps, h]
  exact congrArg some (if_pos hid)

theorem countCrew_others (x : Crew) (ls : List Launch) :
    (countCrew x ls).filter (fun l => l.id != x.launch) = ls.filter fun l => l.id != x.launch := by
  unfold countCrew
  induction ls with
  | nil => rfl
  | cons l ls ih =>
    rw [List.map_cons]
    by_cases hid : (l.id == x.launch) = true
    · have heq : l.id = x.launch := by simpa using hid
      rw [if_pos hid]
      have hcounted : ((l.withCrew x).id != x.launch) = false := by simp [Launch.withCrew, heq]
      have hskip : (l.id != x.launch) = false := by simp [heq]
      rw [List.filter_cons_of_neg (p := fun l : Launch => l.id != x.launch) (by rw [hcounted]; simp),
        List.filter_cons_of_neg (p := fun l : Launch => l.id != x.launch) (by rw [hskip]; simp), ih]
    · have hne : ¬l.id = x.launch := by simpa using hid
      have hkept : (l.id != x.launch) = true := by simp [hne]
      rw [if_neg hid, List.filter_cons_of_pos (p := fun l : Launch => l.id != x.launch) hkept,
        List.filter_cons_of_pos (p := fun l : Launch => l.id != x.launch) hkept, ih]

/-- A crew without its place, its counts joined to its context's (R18, R157). -/
def State.retireCrew (s : State) (k : Key) : State := ((s.release (clusterOf (coreOfCrew k)) scope5).addCounts k).dropCrew k

theorem retireCrew_launches (s : State) (k : Key) : (s.retireCrew k).launches = s.launches := by
  have hbefore : Aside Crew.place s ((s.release (clusterOf (coreOfCrew k)) scope5).addCounts k) :=
    (MemSide.release s _ _).aside.trans (Aside.addCounts _ _)
  rw [State.retireCrew, (dropCrew_spec _ k).frame]
  show ((s.release (clusterOf (coreOfCrew k)) scope5).addCounts k).launches = s.launches
  rw [hbefore.off.frame]

theorem retireCrew_gone {s : State} {k : Key} (hk : isReeveCore (coreOfCrew k) = false) :
    ((s.retireCrew k).crew k).st = .absent ∧ ∀ i, i < 32 → ((s.retireCrew k).wave (waveKey k i)).here = false :=
  (dropCrew_spec ((s.release (clusterOf (coreOfCrew k)) scope5).addCounts k) k).gone hk

theorem completeCrew_eq (s : State) (k : Key) :
    s.completeCrew k =
      match (countCrew (s.crew k) (s.retireCrew k).launches).find? fun l => l.id == (s.crew k).launch with
      | some l =>
        if l.doneCrews = recCrews l.lrec then
          { s.retireCrew k with
            launches := (countCrew (s.crew k) (s.retireCrew k).launches).filter fun l => l.id != (s.crew k).launch }.writeStatus
              l.queue l.idx (s.crew k).ctx (recDone l.lrec) 0
        else { s.retireCrew k with launches := countCrew (s.crew k) (s.retireCrew k).launches }
      | none => s.retireCrew k := rfl

/-- Changes the launches. -/
def State.withLaunches (s : State) (ls : List Launch) : State := { s with launches := ls }

theorem withLaunches_crew (s : State) (ls : List Launch) (k : Key) : (s.withLaunches ls).crew k = s.crew k := rfl

theorem withLaunches_wave (s : State) (ls : List Launch) (k : Key) : (s.withLaunches ls).wave k = s.wave k := rfl

/-- The launches after a crew of launch l has completed. -/
def launchesAfter (x : Crew) (l : Launch) (ls : List Launch) : List Launch :=
  if l.doneCrews + 1 = recCrews l.lrec then (countCrew x ls).filter fun y => y.id != x.launch else countCrew x ls

/-- Completing a crew of launch l only writes its status word besides. -/
theorem completeCrew_side {s : State} {k : Key} {l : Launch} (hl : s.launches.find? (fun l => l.id == (s.crew k).launch) = some l) :
    MemSide ((s.retireCrew k).withLaunches (launchesAfter (s.crew k) l s.launches)) (s.completeCrew k) := by
  have hfind := countCrew_find hl
  unfold launchesAfter
  by_cases hlast : l.doneCrews + 1 = recCrews l.lrec
  · have ht : s.completeCrew k = ((s.retireCrew k).withLaunches ((countCrew (s.crew k) s.launches).filter fun y => y.id != (s.crew k).launch)).writeStatus
        l.queue l.idx (s.crew k).ctx (recDone l.lrec) 0 := by
      rw [completeCrew_eq, retireCrew_launches, hfind]
      exact if_pos hlast
    rw [ht, if_pos hlast]
    exact MemSide.writeStatus _ _ _ _ _ _
  · have ht : s.completeCrew k = (s.retireCrew k).withLaunches (countCrew (s.crew k) s.launches) := by
      rw [completeCrew_eq, retireCrew_launches, hfind]
      exact if_neg hlast
    rw [ht, if_neg hlast]
    exact MemSide.refl _

/-- A crew that has completed leaves; with the last one of its launch the launch is over. -/
theorem completeCrew_spec {s : State} {k : Key} {l : Launch} (hk : isReeveCore (coreOfCrew k) = false)
    (hl : s.launches.find? (fun l => l.id == (s.crew k).launch) = some l) :
    ((s.completeCrew k).crew k).st = .absent ∧ (∀ i, i < 32 → ((s.completeCrew k).wave (waveKey k i)).here = false) ∧
    (l.doneCrews + 1 = recCrews l.lrec → (s.completeCrew k).launches = s.launches.filter fun y => y.id != l.id) ∧
    (l.doneCrews + 1 ≠ recCrews l.lrec → (s.completeCrew k).launches = countCrew (s.crew k) s.launches) := by
  have hside := completeCrew_side hl
  have hid : l.id = (s.crew k).launch := by simpa using List.find?_some (p := fun l : Launch => l.id == (s.crew k).launch) hl
  obtain ⟨hcrew, hwaves⟩ := retireCrew_gone (s := s) hk
  have hlaunches : (s.completeCrew k).launches = launchesAfter (s.crew k) l s.launches := by
    rw [hside.frame]
    rfl
  refine ⟨?_, fun i hi => ?_, fun hlast => ?_, fun hlast => ?_⟩
  · rw [hside.crew, withLaunches_crew]
    exact hcrew
  · rw [hside.wave, withLaunches_wave]
    exact hwaves i hi
  · rw [hlaunches, launchesAfter, if_pos hlast, hid]
    exact countCrew_others _ _
  · rw [hlaunches, launchesAfter, if_neg hlast]

theorem crewComplete_step (s : State) (k : Key) :
    let held : Bool := s.linkBusy (clusterOf (coreOfCrew k)) || s.statusHeld (s.crew k).ctx (recDone (s.crew k).lrec)
    (s.crewDone k = false ∨ held = true → exec (.crewComplete k) s = .next s) ∧
    (s.crewDone k = true → held = false → exec (.crewComplete k) s = .next (s.completeCrew k)) := by
  intro held
  have hexec : exec (.crewComplete k) s = .next (if s.crewDone k && !s.linkBusy (clusterOf (coreOfCrew k)) &&
      !s.statusHeld (s.crew k).ctx (recDone (s.crew k).lrec) then s.completeCrew k else s) := rfl
  have hcond : (s.crewDone k && !s.linkBusy (clusterOf (coreOfCrew k)) && !s.statusHeld (s.crew k).ctx (recDone (s.crew k).lrec)) =
      (s.crewDone k && !held) := by
    rw [Bool.and_assoc, ← Bool.not_or]
  rw [hexec, hcond]
  refine ⟨fun hno => congrArg Host.Outcome.next (if_neg ?_), fun hdone hfree => congrArg Host.Outcome.next (if_pos (by rw [hdone, hfree]; rfl))⟩
  rcases hno with h | h <;> rw [h] <;> simp

/-- Settles O54: records are read, refused or accepted; crews start, complete and leave; status words stand at home. -/
theorem dispatching : Obligations.Dispatching := by
  unfold Obligations.Dispatching
  refine ⟨?_, dispatch_step, ?_, fun s s1 c ps => seqBegin_reads, ?_, ?_⟩
  · intro s s1 q pa h c va hq hserves hfill hflt hcur hvalid hwait hva htr hrel hgood r s2
    obtain ⟨hrefused, haccepted⟩ := recordRead hq hserves hfill hflt hcur hvalid hwait hva htr hrel hgood
    exact ⟨fun hbad => hrefused 2 (refusal_malformed hbad), hrefused, fun hok => ⟨_, _, haccepted hok, rfl, rfl, rfl, rfl, rfl, rfl, rfl, rfl⟩⟩
  · intro s l unit rank core cslot t r x
    obtain ⟨hst, hctx, hrec, hid, hcur⟩ := startCrew_place s l unit rank core cslot
    obtain ⟨hstream, hnone⟩ := startCrew_stream s l unit rank core cslot
    exact ⟨hst, hctx, hrec, hid, hcur, hstream, hnone, startCrew_waves s l unit rank core cslot⟩
  · intro s k held u
    obtain ⟨hwaits, hgoes⟩ := crewComplete_step s k
    refine ⟨hwaits, fun l hdone hfree hl => ⟨_, hgoes hdone hfree, ?_⟩⟩
    have hk : isReeveCore (coreOfCrew k) = false := by
      have hd := hdone
      simp only [State.crewDone, Bool.and_eq_true, Bool.not_eq_true'] at hd
      exact hd.1.1.1.1
    have hid : l.id = (s.crew k).launch := by simpa using List.find?_some (p := fun l : Launch => l.id == (s.crew k).launch) hl
    obtain ⟨hcrew, hwaves, hlast, hmore⟩ := completeCrew_spec hk hl
    refine ⟨hcrew, hwaves, hlast, fun hno => (hmore hno).trans (List.map_congr_left fun y _ => ?_)⟩
    rw [hid]
    simp only [beq_iff_eq]
    rfl
  · intro s s1 q idx c done status pa h halign hspace hstatus htr hm hhost hpeer
    exact writeStatus_home64 halign hspace htr hm

end Sys2Proof.Machine
end


section
/-! O55, pre-emption: dormant crews, slices, drains, and the clusters that are lent and recalled. -/

namespace Sys2Proof.Machine

/-- What leaving its core keeps of a crew and of the crews set aside. -/
structure SetAside (k : Key) (wf : Option (Nat × Nat)) (im : Option (List Dword)) (s t : State) : Prop where
  gone : isReeveCore (coreOfCrew k) = false → (t.crew k).st = .absent
  others : ∀ d, d ≠ k → (t.crew d).place = (s.crew d).place
  older : ∀ e ∈ s.saved, e ∈ t.saved
  entry : ∃ e ∈ t.saved, e.key = k ∧ e.image = im ∧ e.waitFor = wf ∧ e.launch = (s.crew k).launch ∧ e.unit = (s.crew k).unit

theorem Dropped.saved {k : Key} {s t : State} (h : Dropped k s t) : t.saved = s.saved := by rw [h.frame]

theorem setAside_spec (s : State) (k : Key) (im : Option (List Dword)) (wf : Option (Nat × Nat)) :
    SetAside k wf im s (s.setAside k im wf) := by
  have hd := dropCrew_spec s k
  unfold State.setAside
  extract_lets x s1 e
  have hsaved : s1.saved = s.saved := hd.saved
  refine { gone := fun hk => (hd.gone hk).1, others := fun d hne => (hd.crew d).trans (if_neg hne), older := fun a ha => ?_, entry := ?_ }
  · exact List.mem_append_left _ (hsaved.symm ▸ ha)
  · refine ⟨_, List.mem_append_right _ (List.mem_singleton_self _), ?_⟩
    split <;> exact ⟨rfl, rfl, rfl, rfl, rfl⟩

theorem restartCrew_spec (s : State) (k : Key) (wf : Option (Nat × Nat)) : SetAside k wf none s (s.restartCrew wf k) := by
  have hhalt := (Aside.haltSeq s k).crew
  have hset := setAside_spec (s.haltSeq k) k none wf
  have hsaved : (s.haltSeq k).saved = s.saved := by rw [(Aside.haltSeq s k).off.frame]
  obtain ⟨e, he, hkey, him, hwf, hlaunch, hunit⟩ := hset.entry
  have hfrom : ((s.haltSeq k).crew k).launch = (s.crew k).launch := congrArg (·.launch) (hhalt k)
  have hpart : ((s.haltSeq k).crew k).unit = (s.crew k).unit := congrArg (·.unit) (hhalt k)
  exact {
    gone := hset.gone
    others := fun d hne => (hset.others d hne).trans (hhalt d)
    older := fun a ha => hset.older a (hsaved.symm ▸ ha)
    entry := ⟨e, he, hkey, him, hwf, hlaunch.trans hfrom, hunit.trans hpart⟩ }

/-- A crew that has left, with an image and what it waits for among those set aside. -/
def State.SavedFor (s : State) (wf : Option (Nat × Nat)) (k : Key) : Prop :=
  (s.crew k).st = .absent ∧ ∃ e ∈ s.saved, e.key = k ∧ e.image.isSome = true ∧ e.waitFor = wf

theorem SetAside.saved {k : Key} {wf : Option (Nat × Nat)} {im : List Dword} {s t : State} (h : SetAside k wf (some im) s t)
    (hk : isReeveCore (coreOfCrew k) = false) : t.SavedFor wf k := by
  obtain ⟨e, he, hkey, him, hwf, -⟩ := h.entry
  exact ⟨h.gone hk, e, he, hkey, by rw [him]; rfl, hwf⟩

theorem SetAside.keeps {k c : Key} {wf wf' : Option (Nat × Nat)} {im : Option (List Dword)} {s t : State} (h : SetAside k wf im s t)
    (hk : isReeveCore (coreOfCrew k) = false) (hc : s.SavedFor wf' c) : t.SavedFor wf' c := by
  obtain ⟨hst, e, he, hrest⟩ := hc
  refine ⟨?_, e, h.older e he, hrest⟩
  by_cases hck : c = k
  · rw [hck]
    exact h.gone hk
  · have hplace : (t.crew c).place.st = (s.crew c).place.st := by rw [h.others c hck]
    exact hplace.trans hst

theorem foldl_setAside {wf : Option (Nat × Nat)} (is : List (Key × List Dword)) (hks : ∀ i ∈ is, isReeveCore (coreOfCrew i.1) = false)
    (s : State) : (∀ c, s.SavedFor wf c → (is.foldl (fun s i => s.setAside i.1 (some i.2) wf) s).SavedFor wf c) ∧
      ∀ i ∈ is, (is.foldl (fun s i => s.setAside i.1 (some i.2) wf) s).SavedFor wf i.1 := by
  induction is generalizing s with
  | nil => exact ⟨fun c hc => hc, fun i hi => absurd hi List.not_mem_nil⟩
  | cons a is ih =>
    have ha := setAside_spec s a.1 (some a.2) wf
    have hka := hks a List.mem_cons_self
    obtain ⟨hkeep, heach⟩ := ih (fun i hi => hks i (List.mem_cons_of_mem _ hi)) (s.setAside a.1 (some a.2) wf)
    refine ⟨fun c hc => hkeep c (ha.keeps hka hc), fun i hi => ?_⟩
    obtain rfl | hi := List.mem_cons.mp hi
    · exact hkeep i.1 (ha.saved hka)
    · exact heach i hi

theorem saveCrews_saved {s s1 : State} {ks : List Key} {wf : Option (Nat × Nat)} (hks : ∀ k ∈ ks, isReeveCore (coreOfCrew k) = false)
    (h : s.saveCrews ks wf = some s1) : ∀ k ∈ ks, s1.SavedFor wf k := by
  intro k hk
  unfold State.saveCrews at h
  split at h
  · cases h
  · cases h
    refine (foldl_setAside _ (fun i hi => ?_) _).2 _ (List.mem_map_of_mem hk)
    obtain ⟨c, hc, rfl⟩ := List.mem_map.mp hi
    exact hks c hc

-- Dormant crews and slices.

/-- A crew has been dormant for 64 µs (R30). -/
def State.longDormant (s : State) (c : Key) : Prop := s.isDormant c = true ∧ ∃ u, (s.crew c).dormant = some u ∧ u + 64000 ≤ s.reft

theorem dormantSave_saves {s s1 : State} {k : Key} {t : Nat} {j : Job} (hreeve : isReeveCore (coreOfCrew k) = false)
    (hdorm : s.isDormant k = true) (hsince : (s.crew k).dormant = some t) (hjob : s.waitingJob (s.crew k).ctx = some j)
    (hlong : ∀ c ∈ s.leaveWith k, s.longDormant c) (hsave : s.saveCrews (s.leaveWith k) j.name = some s1) :
    exec (.dormantSave k) s = .next s1.dispatchAll := by
  show execDormantSave k s = _
  unfold execDormantSave
  dsimp only
  rw [hreeve, hdorm, if_neg (by simp), hsince]
  dsimp only
  rw [hjob]
  dsimp only
  rw [if_pos, hsave]
  · rfl
  · refine List.all_eq_true.mpr fun c hc => ?_
    obtain ⟨hd, u, hu, hle⟩ := hlong c hc
    rw [hd, hu, Bool.true_and]
    exact decide_eq_true hle

/-- A job would fit a core of a crew once its context's crews are gone from it (R357). -/
def State.takesPlace (s : State) (c : Nat) (j : Job) (k : Key) : Bool :=
  s.usable j.launch.ctx (recCoop j.launch.lrec) (clusterOf (coreOfCrew k)) && (s.roomWithout c (coreOfCrew k)).fits j.launch.lrec

/-- The other contexts of a context's polder. -/
def otherCtxs (c : Nat) : List Nat := ((List.range 16).map fun i => 16 * polderOf c + i).filter (· ≠ c)

/-- The first job of another context of the polder that a crew of the context could make room for. -/
def State.rotatesFor (s : State) (c : Nat) : Option Job :=
  ((otherCtxs c).flatMap s.rotationJobs).find? fun j => (s.ctxCrews c).any (s.takesPlace c j)

theorem sliceExpiry_running {s : State} {c : Nat} (h : (s.ctx c).slice < 2 ^ s.ctxSlice c) : exec (.sliceExpiry c) s = .next s :=
  congrArg Host.Outcome.next (if_pos h)

theorem sliceExpiry_body {s : State} {c : Nat} (h : 2 ^ s.ctxSlice c ≤ (s.ctx c).slice) :
    exec (.sliceExpiry c) s = .next (match s.rotatesFor c with
      | none => s.modCtx c fun x => { x with slice := 0 }
      | some j => match s.preempt (polderOf c) ((s.ctxCrews c).filter (s.takesPlace c j)) j.name with
        | none => s
        | some s1 => s1.dispatchAll.modCtx c fun x => { x with slice := 0 }) :=
  congrArg Host.Outcome.next (if_neg (Nat.not_lt.mpr h))

theorem sliceExpiry_renews {s : State} {c : Nat} (h : 2 ^ s.ctxSlice c ≤ (s.ctx c).slice) (hnone : s.rotatesFor c = none) :
    exec (.sliceExpiry c) s = .next (s.modCtx c fun x => { x with slice := 0 }) := by
  rw [sliceExpiry_body h, hnone]

theorem sliceExpiry_rotates {s s1 : State} {c : Nat} {j : Job} (h : 2 ^ s.ctxSlice c ≤ (s.ctx c).slice) (hjob : s.rotatesFor c = some j)
    (hleave : s.preempt (polderOf c) ((s.ctxCrews c).filter (s.takesPlace c j)) j.name = some s1) :
    exec (.sliceExpiry c) s = .next (s1.dispatchAll.modCtx c fun x => { x with slice := 0 }) := by
  rw [sliceExpiry_body h, hjob]
  dsimp only
  rw [hleave]

theorem rotatesFor_none {s : State} {c : Nat}
    (h : ∀ j ∈ (otherCtxs c).flatMap s.rotationJobs, ∀ k ∈ s.ctxCrews c, s.takesPlace c j k = false) : s.rotatesFor c = none := by
  refine List.find?_eq_none.mpr fun j hj hany => ?_
  obtain ⟨k, hk, htakes⟩ := List.any_eq_true.mp hany
  rw [h j hj k hk] at htakes
  cases htakes

theorem drainWindowEnd_open {s : State} {k : Key} {t : Nat} (hby : (s.crew k).drainBy = some t) (h : s.reft < t) :
    exec (.drainWindowEnd k) s = .next s := by
  show execDrainWindowEnd k s = _
  unfold execDrainWindowEnd
  rw [hby]
  exact congrArg Host.Outcome.next (if_neg (Nat.not_le.mpr h))

theorem drainWindowEnd_saves {s s1 : State} {k : Key} {t : Nat} (hby : (s.crew k).drainBy = some t) (h : t ≤ s.reft)
    (hsave : s.saveCrews (s.leaveWith k) (s.crew k).drainFor = some s1) : exec (.drainWindowEnd k) s = .next s1 := by
  show execDrainWindowEnd k s = _
  unfold execDrainWindowEnd
  rw [hby]
  dsimp only
  rw [if_pos h, hsave]
  rfl

-- Lending and recall.

/-- The owner of a cluster may lend it: LEND is set, no crew is on it, and none of the owner's waits that it could hold (R362). -/
def State.lendableBy (s : State) (cl p : Nat) : Prop :=
  (s.polderWord p 0).getLsbD 62 = true ∧ s.crewsOfCluster cl = [] ∧ s.ownerFits p = false

theorem cluster_modCluster (s : State) (cl : Nat) (f : Cluster → Cluster) : (s.modCluster cl f).cluster cl = f (s.cluster cl) :=
  tget_tset_same _ _ _ _

theorem not_lendableBy_iff (s : State) (cl p : Nat) :
    (!(s.polderWord p 0).getLsbD 62 || s.crewsOfCluster cl ≠ [] || s.ownerFits p) = true ↔ ¬s.lendableBy cl p := by
  unfold State.lendableBy
  cases (s.polderWord p 0).getLsbD 62 <;> cases s.ownerFits p <;> simp

theorem lendPoolJoin_body {s : State} {cl p : Nat} (howner : s.ownerOf cl = some p) (hlent : (s.cluster cl).lent = false) :
    exec (.lendPoolJoin cl) s = .next (if (!(s.polderWord p 0).getLsbD 62 || s.crewsOfCluster cl ≠ [] || s.ownerFits p) = true then
        (if (s.cluster cl).lendable.isSome then s.modCluster cl fun y => { y with lendable := none } else s)
      else match (s.cluster cl).lendable with
        | none => s.modCluster cl fun y => { y with lendable := some s.reft }
        | some t => if t + 100000 ≤ s.reft then s.modCluster cl fun y => { y with lent := true, lendable := none } else s) := by
  show execLendPoolJoin cl s = _
  unfold execLendPoolJoin
  dsimp only
  rw [howner]
  dsimp only
  exact congrArg Host.Outcome.next (if_neg (by rw [hlent]; simp))

theorem lendPoolJoin_lendable {s : State} {cl p : Nat} (howner : s.ownerOf cl = some p) (hlent : (s.cluster cl).lent = false)
    (hmay : s.lendableBy cl p) (hsince : (s.cluster cl).lendable = none) :
    exec (.lendPoolJoin cl) s = .next (s.modCluster cl fun y => { y with lendable := some s.reft }) := by
  rw [lendPoolJoin_body howner hlent, if_neg fun h => (not_lendableBy_iff s cl p).mp h hmay, hsince]

theorem lendPoolJoin_joins {s : State} {cl p t : Nat} (howner : s.ownerOf cl = some p) (hlent : (s.cluster cl).lent = false)
    (hmay : s.lendableBy cl p) (hsince : (s.cluster cl).lendable = some t) (hlong : t + 100000 ≤ s.reft) :
    exec (.lendPoolJoin cl) s = .next (s.modCluster cl fun y => { y with lent := true, lendable := none }) := by
  rw [lendPoolJoin_body howner hlent, if_neg fun h => (not_lendableBy_iff s cl p).mp h hmay, hsince]
  exact congrArg Host.Outcome.next (if_pos hlong)

theorem lendPoolJoin_not {s : State} {cl p : Nat} (howner : s.ownerOf cl = some p) (hlent : (s.cluster cl).lent = false)
    (hmay : ¬s.lendableBy cl p) : ∃ t, exec (.lendPoolJoin cl) s = .next t ∧ (t.cluster cl).lent = false := by
  rw [lendPoolJoin_body howner hlent, if_pos ((not_lendableBy_iff s cl p).mpr hmay)]
  refine ⟨_, rfl, ?_⟩
  split
  · rw [cluster_modCluster]
    exact hlent
  · exact hlent

/-- The recall window of a cluster has begun, or begins now (R363). -/
def State.recallBegun (s : State) (cl : Nat) : State :=
  if (s.cluster cl).recallBy.isNone then s.modCluster cl fun y => { y with recallBy := some (s.reft + 1000000) } else s

theorem recall_home {s : State} {cl p : Nat} (howner : s.ownerOf cl = some p) (hlent : (s.cluster cl).lent = false) :
    exec (.recall cl) s = .next s := by
  show execRecall cl s = _
  unfold execRecall
  dsimp only
  rw [howner]
  dsimp only
  rw [hlent]
  rfl

theorem recall_leaves {s s2 : State} {cl p : Nat} (howner : s.ownerOf cl = some p) (hlent : (s.cluster cl).lent = true)
    (hdue : (s.cluster cl).recallBy.isNone = true → s.ownerWaits p = true)
    (hleave : (s.recallBegun cl).preempt p ((s.recallBegun cl).crewsOfCluster cl) none = some s2) :
    exec (.recall cl) s = .next (s2.recallDone cl) := by
  show execRecall cl s = _
  unfold State.recallBegun at hleave
  unfold execRecall
  dsimp only
  rw [howner]
  dsimp only
  rw [if_neg, hleave]
  · rfl
  · rw [hlent]
    cases hby : (s.cluster cl).recallBy.isNone with
    | false => simp
    | true => simp [hdue hby]

/-- Settles O55: each unit's step by the branch that applies; crews that leave are followed by what leaving a core keeps of the other crews
and of those set aside. -/
theorem preemption : Obligations.Preemption := by
  unfold Obligations.Preemption
  refine ⟨?_, ?_, ?_, ?_, ?_, ?_, ?_⟩
  · refine fun s k => ⟨?_, ?_, ?_⟩
    · intro hreeve hdorm hsince
      show execDormantSave k s = _
      unfold execDormantSave
      dsimp only
      rw [hreeve, hdorm, if_neg (by simp), hsince]
    · intro hdorm hsince
      show execDormantSave k s = _
      unfold execDormantSave
      dsimp only
      rw [hdorm, if_pos (by simp), if_pos (Option.isSome_iff_ne_none.mpr hsince)]
    · intro t j s1 hreeve hdorm hsince hjob hlong hsave
      exact dormantSave_saves hreeve hdorm hsince hjob hlong hsave
  · refine fun s c => ⟨sliceExpiry_running, ?_, ?_⟩
    · intro hslice hnone
      exact sliceExpiry_renews hslice (rotatesFor_none hnone)
    · intro j s1 hslice hjob hleave
      exact sliceExpiry_rotates hslice hjob hleave
  · intro s s1 k t hby
    exact ⟨drainWindowEnd_open hby, drainWindowEnd_saves hby⟩
  · intro s cl p howner hlent
    exact ⟨lendPoolJoin_lendable howner hlent, fun t => lendPoolJoin_joins howner hlent, lendPoolJoin_not howner hlent⟩
  · intro s cl p howner
    refine ⟨recall_home howner, ?_, ?_⟩
    · intro s2 hlent hby hwaits s1 hleave
      have hbegun : s.recallBegun cl = s1 := if_pos (by rw [hby]; rfl)
      exact recall_leaves howner hlent (fun _ => hwaits) (by rw [hbegun]; exact hleave)
    · intro t s2 hlent hby hleave
      have hbegun : s.recallBegun cl = s := if_neg (by rw [hby]; simp)
      exact recall_leaves howner hlent (fun h => absurd h (by rw [hby]; simp)) (by rw [hbegun]; exact hleave)
  · intro s s1 ks wf hks hsave
    exact saveCrews_saved hks hsave
  · intro s k wf hk
    have hset := restartCrew_spec s k wf
    obtain ⟨e, he, hkey, him, -, hlaunch, hunit⟩ := hset.entry
    exact ⟨hset.gone hk, e, he, hkey, him, hlaunch, hunit⟩

end Sys2Proof.Machine
end


section
/-! O56, shares, power and metering. -/

namespace Sys2Proof.Machine

-- Sorted tables.

/-- A table lists each number once, ascending. -/
def Rising {α : Type} (t : Tab α) : Prop := t.Pairwise fun a b => a.1 < b.1

theorem mem_tset {α : Type} {t : Tab α} {k : Nat} {v : α} {e : Nat × α} (h : e ∈ tset t k v) : e = (k, v) ∨ e ∈ t := by
  induction t with
  | nil => exact .inl (List.mem_singleton.mp h)
  | cons a r ih =>
    obtain ⟨n, b⟩ := a
    simp only [tset] at h
    split at h
    · exact (List.mem_cons.mp h)
    · split at h
      · exact (List.mem_cons.mp h).imp_right (List.mem_cons_of_mem _)
      · obtain rfl | h := List.mem_cons.mp h
        · exact .inr List.mem_cons_self
        · exact (ih h).imp_right (List.mem_cons_of_mem _)

theorem rising_tset {α : Type} {t : Tab α} (k : Nat) (v : α) (h : Rising t) : Rising (tset t k v) := by
  induction t with
  | nil => exact List.pairwise_singleton _ _
  | cons a r ih =>
    obtain ⟨n, b⟩ := a
    have hr := List.pairwise_cons.mp h
    simp only [tset]
    split
    case isTrue hlt =>
      refine List.pairwise_cons.mpr ⟨fun e he => ?_, h⟩
      obtain rfl | he := List.mem_cons.mp he
      · exact hlt
      · exact hlt.trans (hr.1 e he)
    case isFalse hge =>
      split
      case isTrue heq =>
        subst heq
        exact List.pairwise_cons.mpr hr
      case isFalse hne =>
        refine List.pairwise_cons.mpr ⟨fun e he => ?_, ih hr.2⟩
        obtain rfl | he := mem_tset he
        · exact Nat.lt_of_le_of_ne (Nat.not_lt.mp hge) (Ne.symm hne)
        · exact hr.1 e he

theorem tget_mem {α : Type} {t : Tab α} {d : α} {k : Nat} (h : tget t d k ≠ d) : (k, tget t d k) ∈ t := by
  induction t with
  | nil => exact absurd rfl h
  | cons a r ih =>
    obtain ⟨n, b⟩ := a
    simp only [tget] at h ⊢
    split
    case isTrue heq =>
      subst heq
      exact List.mem_cons_self
    case isFalse hne =>
      rw [if_neg hne] at h
      exact List.mem_cons_of_mem _ (ih h)

theorem tget_of_mem {α : Type} {t : Tab α} (d : α) {k : Nat} {v : α} (h : Rising t) (hm : (k, v) ∈ t) : tget t d k = v := by
  induction t with
  | nil => cases hm
  | cons a r ih =>
    obtain ⟨n, b⟩ := a
    have hr := List.pairwise_cons.mp h
    obtain heq | hm := List.mem_cons.mp hm
    · cases heq
      exact if_pos rfl
    · have hlt : n < k := hr.1 _ hm
      exact (if_neg (Nat.ne_of_gt hlt)).trans (ih hr.2 hm)

theorem tget_of_notMem {α : Type} {t : Tab α} (d : α) {k : Nat} (h : ∀ e ∈ t, e.1 ≠ k) : tget t d k = d := by
  induction t with
  | nil => rfl
  | cons a r ih =>
    obtain ⟨n, b⟩ := a
    exact (if_neg (Ne.symm (h _ List.mem_cons_self))).trans (ih fun e he => h e (List.mem_cons_of_mem _ he))

theorem tget_addTab (a : Tab Nat) {b : Tab Nat} (h : Rising b) (k : Nat) : tget (addTab a b) 0 k = tget a 0 k + tget b 0 k := by
  induction b generalizing a with
  | nil => rfl
  | cons e r ih =>
    obtain ⟨n, v⟩ := e
    have hr := List.pairwise_cons.mp h
    have hfold : tget (addTab (tset a n (tget a 0 n + v)) r) 0 k = _ := ih _ hr.2
    refine hfold.trans ?_
    rw [tget_tset]
    simp only [tget]
    split
    case isTrue hk =>
      subst hk
      rw [tget_of_notMem 0 fun e he => Nat.ne_of_gt (hr.1 e he)]
      rfl
    case isFalse hk => rfl

-- Buckets and tokens.

theorem bucketRefill_off {s : State} {p ctl : Nat} (h : s.reft % 1000 ≠ 0) : exec (.bucketRefill p ctl) s = .next s :=
  congrArg Host.Outcome.next (if_pos (by simp [h]))

theorem bucketRefill_adds {s : State} {p ctl : Nat} (hp : p < 32) (hctl : ctl < 40) (h : s.reft % 1000 = 0)
    (hnew : tget (s.polder p).refilled 0 ctl ≠ s.reft + 1) : ∃ t, exec (.bucketRefill p ctl) s = .next t ∧
      tget (t.polder p).buckets 0 ctl = min (tget (s.polder p).buckets 0 ctl + s.scaledRate p ctl) (s.tokenBurst p ctl) ∧
      (∀ n, n ≠ ctl → tget (t.polder p).buckets 0 n = tget (s.polder p).buckets 0 n) ∧ t.mem = s.mem ∧ t.waves = s.waves := by
  have hbody : exec (.bucketRefill p ctl) s = .next (s.modPolder p fun x => { x with
      buckets := tset x.buckets ctl (min (tget (s.polder p).buckets 0 ctl + s.scaledRate p ctl) (s.tokenBurst p ctl)),
      refilled := tset x.refilled ctl (s.reft + 1) }) :=
    congrArg Host.Outcome.next (if_neg (by simp [h, hnew, hp, hctl]))
  refine ⟨_, hbody, ?_, fun n hn => ?_, rfl, rfl⟩
  · rw [State.modPolder_polder, if_pos rfl]
    exact tget_tset_same _ _ _ _
  · rw [State.modPolder_polder, if_pos rfl]
    exact tget_tset_ne _ _ _ _ _ hn

theorem meter_polder (s : State) (p i n q : Nat) :
    (s.meter p i n).polder q =
      if q = p then { s.polder p with meter := tset (s.polder p).meter i (tget (s.polder p).meter 0 i + n) } else s.polder q :=
  State.modPolder_polder s p _ q

/-- The kind of count that a token of a path joins (R368). -/
def tokenKind (path : Nat) : Nat := if path < 32 then 7 else if path < 40 then 8 else if path = 40 then 9 else 10

theorem tokens_polder (s : State) (p path n q : Nat) :
    (s.tokens p path n).polder q = if q = p then
      { s.polder p with
        meter := tset (s.polder p).meter (tokenKind path)
          (tget (s.polder p).meter 0 (tokenKind path) + (tget (s.polder p).moved 0 path + n) / 64),
        moved := tset (s.polder p).moved path ((tget (s.polder p).moved 0 path + n) % 64),
        buckets := if path < 40 then tset (s.polder p).buckets path
          (tget (s.polder p).buckets 0 path - (tget (s.polder p).moved 0 path + n) / 64) else (s.polder p).buckets } else s.polder q := by
  unfold State.tokens
  dsimp only
  rw [State.modPolder_polder, meter_polder, meter_polder, if_pos rfl]
  split <;> rfl

theorem tokens_spec (s : State) (p path n : Nat) :
    let had := tget (s.polder p).moved 0 path + n
    let t := s.tokens p path n
    (path < 40 → tget (t.polder p).buckets 0 path = tget (s.polder p).buckets 0 path - had / 64) ∧
    (40 ≤ path → (t.polder p).buckets = (s.polder p).buckets) ∧
    (∀ kind, kind = tokenKind path →
      tget (t.polder p).meter 0 kind = tget (s.polder p).meter 0 kind + had / 64 ∧
      ∀ m, m ≠ kind → tget (t.polder p).meter 0 m = tget (s.polder p).meter 0 m) ∧
    (∀ q, q ≠ p → t.polder q = s.polder q) ∧ t = { s with polders := t.polders } := by
  intro had t
  have hp : t.polder p = _ := (tokens_polder s p path n p).trans (if_pos rfl)
  refine ⟨fun h => ?_, fun h => ?_, ?_, fun q hq => (tokens_polder s p path n q).trans (if_neg hq), rfl⟩
  · rw [hp, if_pos h]
    exact tget_tset_same _ _ _ _
  · rw [hp, if_neg (Nat.not_lt.mpr h)]
  · rintro kind rfl
    rw [hp]
    exact ⟨tget_tset_same _ _ _ _, fun m hm => tget_tset_ne _ _ _ _ _ hm⟩

theorem dryFor_iff (s : State) (again : Bool) (ctl p n : Nat) : s.dryFor again (ctl, p) n = true ↔
    tget (s.polder p).buckets 0 ctl < n ∧ (again = true → ∃ o ∈ s.dryAll, o.1 = ctl ∧ s.weight p < s.weight o.2) := by
  unfold State.dryFor State.dryTurn State.bucket
  rw [Bool.and_eq_true, decide_eq_true_iff, Bool.not_eq_true', Bool.and_eq_false_imp, List.all_eq_false]
  simp

-- Holds.

theorem tfind_tdel {α : Type} (t : Tab α) (k q : Nat) : tfind (tdel t k) q = if q = k then none else tfind t q := by
  unfold tdel
  induction t with
  | nil => simp [tfind]
  | cons e r ih =>
    obtain ⟨n, v⟩ := e
    by_cases hn : n = k
    · subst hn
      rw [List.filter_cons_of_neg (by simp), ih]
      by_cases hq : q = n <;> simp [tfind, hq]
    · rw [List.filter_cons_of_pos (by simpa using hn)]
      by_cases hq : q = n
      · subst hq
        simp [tfind, hn]
      · rw [tfind, if_neg hq, ih, tfind, if_neg hq]

/-- What a throttle writes into its crew. -/
def Crew.throttled (x : Crew) (cause duty : Nat) : Crew :=
  { x with thr := tset x.thr cause duty, thrCause := cause % 8,
           thrEpis := if (tfind x.thr (cause % 8)).isSome || (tfind x.thr (cause % 8 + 8)).isSome then x.thrEpis else min 0xFFFF (x.thrEpis + 1) }

/-- A die without the events that wait for its reeve core. -/
def Die.still (x : Die) : Die := { x with evq := [] }

/-- The package without the events that wait for the host. -/
def Pkg.still (x : Pkg) : Pkg := { x with hostEvents := [] }

/-- Holding and releasing crews changes nothing but what their throttles and the notices of them are. -/
structure HoldSide (s t : State) : Prop where
  frame : t = { s with pkg := t.pkg, dies := t.dies, crews := t.crews, freeCtr := t.freeCtr }
  crew : ∀ c, (t.crew c).unheld = (s.crew c).unheld
  rising : Rising s.crews → Rising t.crews
  die : ∀ d, (t.die d).still = (s.die d).still
  pkg : t.pkg.still = s.pkg.still

namespace HoldSide

theorem refl (s : State) : HoldSide s s := ⟨rfl, fun _ => rfl, id, fun _ => rfl, rfl⟩

theorem trans {s t u : State} (h1 : HoldSide s t) (h2 : HoldSide t u) : HoldSide s u where
  frame := h2.frame.trans (congrArg (fun x : State => { x with pkg := u.pkg, dies := u.dies, crews := u.crews, freeCtr := u.freeCtr }) h1.frame)
  crew := fun c => (h2.crew c).trans (h1.crew c)
  rising := fun h => h2.rising (h1.rising h)
  die := fun d => (h2.die d).trans (h1.die d)
  pkg := h2.pkg.trans h1.pkg

theorem foldl {α : Type} {g : State → α → State} (hg : ∀ s a, HoldSide s (g s a)) (ls : List α) (s : State) : HoldSide s (ls.foldl g s) := by
  induction ls generalizing s with
  | nil => exact refl s
  | cons a r ih => exact (hg s a).trans (ih (g s a))

theorem ite {s t u : State} {p : Prop} [Decidable p] (h1 : HoldSide s t) (h2 : HoldSide s u) : HoldSide s (if p then t else u) := by
  split
  · exact h1
  · exact h2

theorem modCrew (s : State) (k : Key) {g : Crew → Crew} (hg : ∀ x, (g x).unheld = x.unheld) : HoldSide s (s.modCrew k g) where
  frame := rfl
  crew := (Aside.modCrew (f := Crew.unheld) s k hg).crew
  rising := rising_tset k _
  die := fun _ => rfl
  pkg := rfl

theorem event (s : State) (d kind : Nat) (h : Word) (w1 : Dword) (key : Nat) : HoldSide s (s.event d kind h w1 key) where
  frame := rfl
  crew := fun _ => rfl
  rising := id
  die := fun q => by
    rw [State.event, State.modDie_die]
    split
    case isTrue hq =>
      rw [hq]
      split <;> rfl
    case isFalse => rfl
  pkg := rfl

theorem hostEvent (s : State) (es : List (List Dword)) : HoldSide s (s.modPkg fun p => { p with hostEvents := p.hostEvents ++ es }) :=
  ⟨rfl, fun _ => rfl, id, fun _ => rfl, rfl⟩

theorem notice (s : State) (c c8 : Nat) : HoldSide s (s.notice c c8) := by
  unfold State.notice
  exact ite (refl s) ((event s _ _ _ _ _).trans (hostEvent _ _))

theorem throttle (s : State) (k : Key) (cause duty : Nat) : HoldSide s (s.throttle k cause duty) := by
  have hheld : HoldSide s (s.modCrew k fun x => x.throttled cause duty) := modCrew s k fun _ => rfl
  exact ite hheld (hheld.trans (notice _ _ _))

theorem unthrottle (s : State) (k : Key) (cause : Nat) : HoldSide s (s.unthrottle k cause) := modCrew s k fun _ => rfl

theorem free (s : State) : HoldSide s s.freeDuty.2 := ⟨rfl, fun _ => rfl, id, fun _ => rfl, rfl⟩

theorem reduce (s : State) (cause : Nat) (ks : List Key) : HoldSide s (s.reduce cause ks) :=
  foldl (fun s k => (free s).trans (throttle _ k cause _)) ks s

theorem unreduce (s : State) (cause : Nat) (ks : List Key) : HoldSide s (s.unreduce cause ks) := foldl (fun s k => unthrottle s k cause) ks s

theorem settleDry (s : State) (c : Key) : HoldSide s (s.settleDry c) :=
  ite (ite (refl s) (throttle s c 5 16)) (ite (unthrottle s c 5) (refl s))

end HoldSide

theorem notice_crew (s : State) (c c8 : Nat) (q : Key) : (s.notice c c8).crew q = s.crew q := by
  unfold State.notice
  split <;> rfl

theorem throttle_crew (s : State) (k : Key) (cause duty : Nat) (q : Key) :
    (s.throttle k cause duty).crew q = if q = k then (s.crew k).throttled cause duty else s.crew q := by
  have hmod : (s.modCrew k fun x => x.throttled cause duty).crew q = if q = k then (s.crew k).throttled cause duty else s.crew q :=
    State.modCrew_crew s k _ q
  unfold State.throttle
  dsimp only
  split
  · exact hmod
  · rw [notice_crew]
    exact hmod

theorem throttle_thr (s : State) (k : Key) (cause duty : Nat) (q : Key) (n : Nat) :
    tfind ((s.throttle k cause duty).crew q).thr n = if q = k ∧ n = cause then some duty else tfind (s.crew q).thr n := by
  rw [throttle_crew]
  by_cases hq : q = k
  · rw [if_pos hq, hq, Crew.throttled, tfind_tset]
    simp
  · rw [if_neg hq, if_neg fun h => hq h.1]

theorem unthrottle_thr (s : State) (k : Key) (cause : Nat) (q : Key) (n : Nat) :
    tfind ((s.unthrottle k cause).crew q).thr n = if q = k ∧ n = cause then none else tfind (s.crew q).thr n := by
  rw [State.unthrottle, State.modCrew_crew]
  by_cases hq : q = k
  · rw [if_pos hq, hq, tfind_tdel]
    simp
  · rw [if_neg hq, if_neg fun h => hq h.1]

theorem reduce_thr (s : State) (cause : Nat) (ks : List Key) (q : Key) (n : Nat) :
    (tfind ((s.reduce cause ks).crew q).thr n).isSome = if q ∈ ks ∧ n = cause then true else (tfind (s.crew q).thr n).isSome := by
  unfold State.reduce
  induction ks generalizing s with
  | nil => simp
  | cons k ks ih =>
    have hfree : s.freeDuty.2.crew q = s.crew q := rfl
    rw [List.foldl_cons, ih, throttle_thr, hfree]
    by_cases hn : n = cause <;> by_cases hq : q = k <;> by_cases hks : q ∈ ks <;> simp [hn, hq, hks]

theorem unreduce_thr (s : State) (cause : Nat) (ks : List Key) (q : Key) (n : Nat) :
    tfind ((s.unreduce cause ks).crew q).thr n = if q ∈ ks ∧ n = cause then none else tfind (s.crew q).thr n := by
  unfold State.unreduce
  induction ks generalizing s with
  | nil => simp
  | cons k ks ih =>
    rw [List.foldl_cons, ih, unthrottle_thr]
    by_cases hn : n = cause <;> by_cases hq : q = k <;> by_cases hks : q ∈ ks <;> simp [hn, hq, hks]

-- The crews of a polder.

theorem mem_polderCrews {s : State} (h : Rising s.crews) {p d : Nat} {k : Key} : k ∈ s.polderCrews p d ↔
    isReeveCore (coreOfCrew k) = false ∧ dieOf (coreOfCrew k) = d ∧ (s.crew k).st ≠ .absent ∧ polderOf (s.crew k).ctx = p := by
  unfold State.polderCrews
  constructor
  · intro hk
    obtain ⟨⟨k', x⟩, he, rfl⟩ := List.mem_map.mp hk
    obtain ⟨hmem, hcond⟩ := List.mem_filter.mp he
    have hx : s.crew k' = x := tget_of_mem _ h hmem
    simp only [Bool.and_eq_true, Bool.not_eq_true', beq_iff_eq, decide_eq_true_iff] at hcond
    obtain ⟨⟨⟨hreeve, hdie⟩, hst⟩, hp⟩ := hcond
    rw [hx]
    exact ⟨hreeve, hdie, hst, hp⟩
  · rintro ⟨hreeve, hdie, hst, hp⟩
    have hmem : (k, s.crew k) ∈ s.crews := tget_mem fun hfresh => hst (by
      rw [show s.crew k = Crew.fresh k from hfresh, fresh_crew hreeve])
    refine List.mem_map.mpr ⟨(k, s.crew k), List.mem_filter.mpr ⟨hmem, ?_⟩, rfl⟩
    simp [hreeve, hdie, hst, hp]

theorem mem_allCrews {s : State} (h : Rising s.crews) {p : Nat} {k : Key} : k ∈ s.allCrews p ↔
    isReeveCore (coreOfCrew k) = false ∧ dieOf (coreOfCrew k) < 4 ∧ (s.crew k).st ≠ .absent ∧ polderOf (s.crew k).ctx = p := by
  unfold State.allCrews
  rw [List.mem_flatMap]
  constructor
  · rintro ⟨d, hd, hk⟩
    obtain ⟨hreeve, rfl, hrest⟩ := (mem_polderCrews h).mp hk
    exact ⟨hreeve, List.mem_range.mp hd, hrest⟩
  · rintro ⟨hreeve, hdie, hrest⟩
    exact ⟨_, List.mem_range.mpr hdie, (mem_polderCrews h).mpr ⟨hreeve, rfl, hrest⟩⟩

/-- The holds of a polder's crews by its draw, measured in s1 (R366). -/
def State.drawHolds (s1 s : State) (p : Nat) : State :=
  let s2 := if s1.powerShort && decide (s1.powerShare p < (s1.polder p).drawn) then s.reduce 1 (s.allCrews p) else s.unreduce 1 (s.allCrews p)
  if s1.powerFits then s2.unreduce 2 (s2.unphased (s.allCrews p)) else s2

theorem drawHolds_side (s1 s : State) (p : Nat) : HoldSide s (s1.drawHolds s p) := by
  unfold State.drawHolds
  dsimp only
  have hdraw : HoldSide s (if s1.powerShort && decide (s1.powerShare p < (s1.polder p).drawn) then s.reduce 1 (s.allCrews p)
      else s.unreduce 1 (s.allCrews p)) := HoldSide.ite (HoldSide.reduce s 1 _) (HoldSide.unreduce s 1 _)
  exact HoldSide.ite (hdraw.trans (HoldSide.unreduce _ 2 _)) hdraw

theorem drawHolds_thr (s1 s : State) (p : Nat) (q : Key) :
    (tfind ((s1.drawHolds s p).crew q).thr 1).isSome =
      if q ∈ s.allCrews p then s1.powerShort && decide (s1.powerShare p < (s1.polder p).drawn) else (tfind (s.crew q).thr 1).isSome := by
  have hsplit : ∀ t : State, (tfind ((if s1.powerFits then t.unreduce 2 (t.unphased (s.allCrews p)) else t).crew q).thr 1).isSome =
      (tfind (t.crew q).thr 1).isSome := by
    intro t
    split
    · rw [unreduce_thr, if_neg fun h => absurd h.2 (by decide)]
    · rfl
  unfold State.drawHolds
  extract_lets t
  refine (hsplit t).trans ?_
  subst t
  cases hover : s1.powerShort && decide (s1.powerShare p < (s1.polder p).drawn) with
  | true =>
    rw [if_pos rfl, reduce_thr]
    simp
  | false =>
    rw [if_neg Bool.false_ne_true, unreduce_thr]
    by_cases hq : q ∈ s.allCrews p <;> simp [hq]

theorem HoldSide.mem_allCrews {s t : State} (h : HoldSide s t) (hr : Rising s.crews) (p : Nat) (k : Key) :
    k ∈ t.allCrews p ↔ k ∈ s.allCrews p := by
  have hst : (t.crew k).st = (s.crew k).st := congrArg (·.st) (h.crew k)
  have hctx : (t.crew k).ctx = (s.crew k).ctx := congrArg (·.ctx) (h.crew k)
  rw [Machine.mem_allCrews hr, Machine.mem_allCrews (h.rising hr), hst, hctx]

theorem foldl_drawHolds_thr (s1 : State) {ps : List Nat} {s : State} (hr : Rising s.crews) {p : Nat} {q : Key} (hq : q ∈ s.allCrews p) :
    (tfind ((ps.foldl s1.drawHolds s).crew q).thr 1).isSome =
      if p ∈ ps then s1.powerShort && decide (s1.powerShare p < (s1.polder p).drawn) else (tfind (s.crew q).thr 1).isSome := by
  induction ps generalizing s with
  | nil => rfl
  | cons a ps ih =>
    have hside := drawHolds_side s1 s a
    have hpolder := ((mem_allCrews hr).mp hq).2.2.2
    rw [List.foldl_cons, ih (hside.rising hr) ((hside.mem_allCrews hr p q).mpr hq), drawHolds_thr]
    by_cases hps : p ∈ ps
    · rw [if_pos hps, if_pos (List.mem_cons_of_mem _ hps)]
    · rw [if_neg hps]
      by_cases ha : p = a
      · rw [← ha, if_pos hq, if_pos List.mem_cons_self]
      · have hother : q ∉ s.allCrews a := fun hqa => ha (hpolder.symm.trans ((mem_allCrews hr).mp hqa).2.2.2)
        rw [if_neg hother, if_neg (by simp [ha, hps])]

theorem powerMeasure_spec (s : State) (p watts : Nat) : ∃ t, exec (.powerMeasure p watts) s = .next t ∧ (t.polder p).drawn = watts ∧
    (∀ q, q ≠ p → t.polder q = s.polder q) ∧ t.mem = s.mem ∧ t.waves = s.waves ∧
    (s.crews.Pairwise (fun a b => a.1 < b.1) → ∀ q k, q < 32 → k ∈ s.allCrews q →
      (tfind (t.crew k).thr 1).isSome =
        ((s.modPolder p fun x => { x with drawn := watts }).powerShort && decide (s.powerShare q < (t.polder q).drawn))) := by
  let s1 := s.modPolder p fun x => { x with drawn := watts }
  have hpolder : ∀ q, s1.polder q = if q = p then { s.polder p with drawn := watts } else s.polder q := State.modPolder_polder s p _
  have hside : HoldSide s1 ((List.range 32).foldl s1.drawHolds s1) := HoldSide.foldl (fun s a => drawHolds_side s1 s a) _ _
  have hthr : Rising s1.crews → ∀ q k, q < 32 → k ∈ s1.allCrews q → (tfind (((List.range 32).foldl s1.drawHolds s1).crew k).thr 1).isSome =
      (s1.powerShort && decide (s1.powerShare q < (s1.polder q).drawn)) := fun hr q k hq hk =>
    (foldl_drawHolds_thr s1 hr hk).trans (if_pos (List.mem_range.mpr hq))
  have hexec : exec (.powerMeasure p watts) s = .next ((List.range 32).foldl s1.drawHolds s1) := rfl
  rw [hexec]
  generalize (List.range 32).foldl s1.drawHolds s1 = t at hside hthr
  have hkept : ∀ q, t.polder q = s1.polder q := fun q => by
    rw [hside.frame]
    rfl
  refine ⟨t, rfl, ?_, fun q hq => ?_, ?_, ?_, fun hr q k hq hk => ?_⟩
  · rw [hkept, hpolder, if_pos rfl]
  · rw [hkept, hpolder, if_neg hq]
  · rw [hside.frame]
    rfl
  · rw [hside.frame]
    rfl
  · rw [hkept]
    exact hthr hr q k hq hk

-- Throttle notices.

theorem crew_present {s : State} {k : Key} (hreeve : isReeveCore (coreOfCrew k) = false) (hst : (s.crew k).st ≠ .absent) :
    (isReeveCore (coreOfCrew k) || (s.crew k).st == .absent) = false := by
  rw [hreeve, Bool.false_or]
  exact beq_eq_false_iff_ne.mpr hst

theorem settleDry_thr (s : State) (k : Key) : (tfind ((s.settleDry k).crew k).thr 5).isSome = s.crewDry k := by
  unfold State.settleDry
  cases hdry : s.crewDry k <;> cases hwas : (tfind (s.crew k).thr 5).isSome <;> simp [throttle_thr, unthrottle_thr, hwas]

theorem throttle_one (s : State) (k : Key) (cause duty : Nat) (hcause : cause < 8) :
    tfind ((s.throttle k cause duty).crew k).thr cause = some duty ∧ ((s.throttle k cause duty).crew k).thrCause = cause ∧
    ∀ c, c ≠ k → (s.throttle k cause duty).crew c = s.crew c := by
  refine ⟨?_, ?_, fun c hc => ?_⟩
  · rw [throttle_thr, if_pos ⟨rfl, rfl⟩]
  · rw [throttle_crew, if_pos rfl]
    show cause % 8 = cause
    exact Nat.mod_eq_of_lt hcause
  · rw [throttle_crew, if_neg hc]

theorem freeDuty_lt (s : State) : s.freeDuty.1 < 16 := Nat.mod_lt _ (by decide)

theorem freeDuty_crew (s : State) (c : Key) : s.freeDuty.2.crew c = s.crew c := rfl

theorem reduce_one (s : State) (k : Key) (cause : Nat) (hcause : cause < 8) : ∃ duty, duty < 16 ∧
    tfind ((s.reduce cause [k]).crew k).thr cause = some duty ∧ ((s.reduce cause [k]).crew k).thrCause = cause ∧
    ∀ c, c ≠ k → (s.reduce cause [k]).crew c = s.crew c := by
  have hred : s.reduce cause [k] = s.freeDuty.2.throttle k cause s.freeDuty.1 := rfl
  obtain ⟨hthr, hof, hothers⟩ := throttle_one s.freeDuty.2 k cause s.freeDuty.1 hcause
  rw [hred]
  exact ⟨_, freeDuty_lt s, hthr, hof, fun c hc => (hothers c hc).trans (freeDuty_crew s c)⟩

theorem throttleNotice_body {s : State} {k : Key} (cause : Nat) (hreeve : isReeveCore (coreOfCrew k) = false) (hst : (s.crew k).st ≠ .absent) :
    exec (.throttleNotice k cause) s = .next (
      match cause with
      | 0 => ((s.unphased [k]).foldl (fun s k => s.unthrottle k 2) (if (s.die (dieOf (coreOfCrew k))).hotAt.isSome then s else s.unthrottle k 3)).unthrottle k 1
      | 1 | 2 => s.reduce cause [k]
      | 3 => if (s.die (dieOf (coreOfCrew k))).hotAt.isSome then s.reduce 3 [k] else s
      | 5 => s.settleDry k
      | _ => s) :=
  congrArg Host.Outcome.next (if_neg (by rw [crew_present hreeve hst]; exact Bool.false_ne_true))

theorem throttleNotice_relocks (s : State) (k : Key) (hreeve : isReeveCore (coreOfCrew k) = false) (hst : (s.crew k).st ≠ .absent)
    (hot : Bool) (hhot : (s.die (dieOf (coreOfCrew k))).hotAt.isSome = hot) : ∃ t, exec (.throttleNotice k 0) s = .next t ∧
      tfind (t.crew k).thr 1 = none ∧
      tfind (t.crew k).thr 2 = (if s.phaseHeld (dieOf (coreOfCrew k)) then tfind (s.crew k).thr 2 else none) ∧
      tfind (t.crew k).thr 3 = (if hot then tfind (s.crew k).thr 3 else none) ∧
      ∀ n, n = 4 ∨ n = 5 → tfind (t.crew k).thr n = tfind (s.crew k).thr n := by
  let s3 := if hot then s else s.unthrottle k 3
  let s2 := if s.phaseHeld (dieOf (coreOfCrew k)) then s3 else s3.unthrottle k 2
  have hthr : ∀ n, tfind (s3.crew k).thr n = if hot = false ∧ n = 3 then none else tfind (s.crew k).thr n := by
    intro n
    cases hot with
    | true => rfl
    | false => exact (unthrottle_thr s k 3 k n).trans (by simp)
  have hthr2 : ∀ n, tfind (s2.crew k).thr n = if s.phaseHeld (dieOf (coreOfCrew k)) = false ∧ n = 2 then none else tfind (s3.crew k).thr n := by
    intro n
    show tfind ((if s.phaseHeld (dieOf (coreOfCrew k)) then s3 else s3.unthrottle k 2).crew k).thr n = _
    cases s.phaseHeld (dieOf (coreOfCrew k)) with
    | true => rfl
    | false => exact (unthrottle_thr s3 k 2 k n).trans (by simp)
  have hfold : (s.unphased [k]).foldl (fun s k => s.unthrottle k 2) s3 = s2 := by
    show _ = if s.phaseHeld (dieOf (coreOfCrew k)) then s3 else s3.unthrottle k 2
    unfold State.unphased
    cases hp : s.phaseHeld (dieOf (coreOfCrew k)) <;> simp [hp]
  refine ⟨s2.unthrottle k 1, ?_, ?_, ?_, ?_, fun n hn => ?_⟩
  · rw [throttleNotice_body 0 hreeve hst, hhot]
    exact congrArg (fun t : State => Host.Outcome.next (t.unthrottle k 1)) hfold
  all_goals rw [unthrottle_thr, hthr2, hthr]
  · simp
  · cases s.phaseHeld (dieOf (coreOfCrew k)) <;> simp
  · cases hot <;> simp
  · obtain rfl | rfl := hn <;> simp

-- Metering.

/-- Counting changes only counts, on cores, on crews and of polders; of a polder's counts, those of the kinds kept stay. -/
structure Tally (keep : Nat → Prop) (s t : State) : Prop where
  frame : t = { s with polders := t.polders, cores := t.cores, crews := t.crews, freeCtr := t.freeCtr }
  total : ∀ p, (t.polder p).total = (s.polder p).total
  kept : ∀ p n, keep n → tget (t.polder p).meter 0 n = tget (s.polder p).meter 0 n
  rising : ∀ p, Rising (s.polder p).meter → Rising (t.polder p).meter

namespace Tally

variable {keep : Nat → Prop}

theorem refl (s : State) : Tally keep s s := ⟨rfl, fun _ => rfl, fun _ _ _ => rfl, fun _ => id⟩

theorem trans {s t u : State} (h1 : Tally keep s t) (h2 : Tally keep t u) : Tally keep s u where
  frame := h2.frame.trans (congrArg (fun x : State => { x with
    polders := u.polders, cores := u.cores, crews := u.crews, freeCtr := u.freeCtr }) h1.frame)
  total := fun p => (h2.total p).trans (h1.total p)
  kept := fun p n hn => (h2.kept p n hn).trans (h1.kept p n hn)
  rising := fun p h => h2.rising p (h1.rising p h)

theorem foldl {α : Type} {g : State → α → State} (ls : List α) (hg : ∀ s, ∀ a ∈ ls, Tally keep s (g s a)) (s : State) :
    Tally keep s (ls.foldl g s) := by
  induction ls generalizing s with
  | nil => exact refl s
  | cons a r ih => exact (hg s a List.mem_cons_self).trans (ih (fun s b hb => hg s b (List.mem_cons_of_mem _ hb)) (g s a))

theorem less {other : Nat → Prop} {s t : State} (h : Tally keep s t) (hk : ∀ n, other n → keep n) : Tally other s t :=
  ⟨h.frame, h.total, fun p n hn => h.kept p n (hk n hn), h.rising⟩

theorem meter (s : State) (p i n : Nat) : Tally (· ≠ i) s (s.meter p i n) where
  frame := rfl
  total := fun q => by
    rw [meter_polder]
    split
    case isTrue hq => rw [hq]
    case isFalse => rfl
  kept := fun q m hm => by
    rw [meter_polder]
    split
    case isTrue hq => rw [hq, tget_tset_ne _ _ _ _ _ hm]
    case isFalse => rfl
  rising := fun q h => by
    rw [meter_polder]
    split
    case isTrue hq => exact rising_tset _ _ (hq ▸ h)
    case isFalse => exact h

theorem modCrew (s : State) (k : Key) (f : Crew → Crew) : Tally keep s (s.modCrew k f) :=
  ⟨rfl, fun _ => rfl, fun _ _ _ => rfl, fun _ => id⟩

theorem modCore (s : State) (n : Nat) (f : CoreSt → CoreSt) : Tally keep s (s.modCore n f) :=
  ⟨rfl, fun _ => rfl, fun _ _ _ => rfl, fun _ => id⟩

/-- Time on borrowed and on lent cores is counted as kinds 20 and 21 (R369). -/
theorem useCore (s : State) (core : Nat) : Tally (fun n => n ≠ 20 ∧ n ≠ 21) s (s.useCore core) := by
  unfold State.useCore
  extract_lets cl t ps s1 s2
  have hborrowed : Tally (fun n => n ≠ 20 ∧ n ≠ 21) s s1 := foldl ps (fun s p _ => (meter s p 20 t).less fun n hn => hn.1) s
  refine (hborrowed.trans ?_).trans (modCore s2 core _)
  show Tally _ s1 (match (List.range 32).find? fun p => s.ownsCluster p cl with | some o => if ps = [] then s1 else s1.meter o 21 t | none => s1)
  split
  · split
    · exact refl _
    · exact (meter _ _ 21 _).less fun n hn => hn.2
  · exact refl _

/-- The counts of checked products are kinds 12 to 19 (R369). -/
theorem meterCtrs (s : State) (c : Key) : Tally (fun n => n < 12) s (s.meterCtrs c) := by
  unfold State.meterCtrs
  exact trans (foldl _ (fun s i _ => (meter s _ (12 + i) _).less fun n hn => by omega) s) (modCrew _ _ _)

theorem meterEnergy (s : State) (p : Nat) : Tally (· ≠ 11) s (s.meterEnergy p) := by
  unfold State.meterEnergy
  have hfree : Tally (· ≠ 11) s s.free.2 := ⟨rfl, fun _ => rfl, fun _ _ _ => rfl, fun _ => id⟩
  exact hfree.trans (meter _ _ _ _)

end Tally

theorem foldl_meter_crews {α : Type} (ks : List α) (p : Nat) (kind count : α → Nat) (s : State) :
    (ks.foldl (fun s i => s.meter p (kind i) (count i)) s).crews = s.crews := by
  induction ks generalizing s with
  | nil => rfl
  | cons a ks ih => exact ih _

theorem foldl_meter_kind (is : List Nat) (hnodup : is.Nodup) (p : Nat) (count : Nat → Nat) (s : State) (q j : Nat) :
    tget ((is.foldl (fun s i => s.meter p (12 + i) (count i)) s).polder q).meter 0 (12 + j) =
      tget (s.polder q).meter 0 (12 + j) + if q = p ∧ j ∈ is then count j else 0 := by
  induction is generalizing s with
  | nil => simp
  | cons i is ih =>
    obtain ⟨hi, hrest⟩ := List.nodup_cons.mp hnodup
    rw [List.foldl_cons, ih hrest, meter_polder]
    by_cases hq : q = p
    · subst hq
      rw [if_pos rfl, tget_tset]
      by_cases hj : j = i
      · subst hj
        simp [hi]
      · rw [if_neg (by omega)]
        simp [hj]
    · simp [hq]

/-- A crew whose counts have all joined its polder's. -/
def Crew.counted (x : Crew) : Crew := { x with fedCtrs := x.ctrs, metered := x.issued }

/-- The counts of one crew join its polder's (R368). -/
def State.meterStep (p : Nat) (s : State) (k : Key) : State :=
  ((s.meter p 0 ((s.crew k).issued - (s.crew k).metered)).meterCtrs k).modCrew k fun x => { x with metered := x.issued }

theorem meterCrews_eq (s : State) (p : Nat) : s.meterCrews p = (s.allCrews p).foldl (State.meterStep p) s := rfl

theorem meterCtrs_crew (s : State) (c q : Key) :
    (s.meterCtrs c).crew q = if q = c then { s.crew c with fedCtrs := (s.crew c).ctrs } else s.crew q := by
  have hcrew : ∀ q, ((List.range 8).foldl (fun t i => t.meter (polderOf (s.crew c).ctx) (12 + i)
      (tget (s.crew c).ctrs 0 i - tget (s.crew c).fedCtrs 0 i)) s).crew q = s.crew q := fun q => by
    rw [State.crew, foldl_meter_crews]
    rfl
  unfold State.meterCtrs
  dsimp only
  rw [State.modCrew_crew, hcrew, hcrew]

theorem meterStep_crew (p : Nat) (s : State) (k q : Key) : (State.meterStep p s k).crew q = if q = k then (s.crew k).counted else s.crew q := by
  have hmeter : ∀ n q, (s.meter p 0 n).crew q = s.crew q := fun _ _ => rfl
  rw [State.meterStep, State.modCrew_crew, meterCtrs_crew, meterCtrs_crew, hmeter, hmeter, if_pos rfl]
  by_cases hq : q = k
  · rw [if_pos hq, if_pos hq]
    rfl
  · rw [if_neg hq, if_neg hq, if_neg hq]

theorem meterStep_tally (p : Nat) (s : State) (k : Key) : Tally (fun n => 0 < n ∧ n < 12) s (State.meterStep p s k) :=
  ((((Tally.meter s p 0 _).less fun _ hn => Nat.ne_of_gt hn.1).trans ((Tally.meterCtrs _ k).less fun _ hn => hn.2))).trans (Tally.modCrew _ _ _)

theorem meterCtrs_kind (s : State) (c : Key) (q j : Nat) (hj : j < 8) :
    tget ((s.meterCtrs c).polder q).meter 0 (12 + j) = tget (s.polder q).meter 0 (12 + j) +
      if q = polderOf (s.crew c).ctx then tget (s.crew c).ctrs 0 j - tget (s.crew c).fedCtrs 0 j else 0 := by
  unfold State.meterCtrs
  dsimp only
  rw [State.modCrew_polder, foldl_meter_kind _ List.nodup_range]
  simp [hj]

theorem meterStep_kind (p : Nat) (s : State) (k : Key) (hp : polderOf (s.crew k).ctx = p) {j : Nat} (hj : j < 8) :
    tget ((State.meterStep p s k).polder p).meter 0 (12 + j) =
      tget (s.polder p).meter 0 (12 + j) + (tget (s.crew k).ctrs 0 j - tget (s.crew k).fedCtrs 0 j) := by
  have hmeter : ∀ n, (s.meter p 0 n).crew k = s.crew k := fun _ => rfl
  rw [State.meterStep, State.modCrew_polder, meterCtrs_kind _ _ _ _ hj, hmeter, hp, if_pos rfl, meter_polder, if_pos rfl,
    tget_tset_ne _ _ _ _ _ (by omega)]

theorem foldl_meterStep_crew (p : Nat) (ks : List Key) (s : State) (q : Key) :
    (ks.foldl (State.meterStep p) s).crew q = if q ∈ ks then (s.crew q).counted else s.crew q := by
  induction ks generalizing s with
  | nil => simp
  | cons k ks ih =>
    rw [List.foldl_cons, ih, meterStep_crew]
    by_cases hq : q = k
    · subst hq
      have htwice : (s.crew q).counted.counted = (s.crew q).counted := rfl
      simp [htwice]
    · simp [hq]

theorem foldl_meterStep_kind (p : Nat) {ks : List Key} (hnodup : ks.Nodup) {s : State} (hp : ∀ k ∈ ks, polderOf (s.crew k).ctx = p)
    {j : Nat} (hj : j < 8) :
    tget ((ks.foldl (State.meterStep p) s).polder p).meter 0 (12 + j) =
      tget (s.polder p).meter 0 (12 + j) + (ks.map fun k => tget (s.crew k).ctrs 0 j - tget (s.crew k).fedCtrs 0 j).sum := by
  induction ks generalizing s with
  | nil => rfl
  | cons k ks ih =>
    obtain ⟨hk, hrest⟩ := List.nodup_cons.mp hnodup
    have hother : ∀ q ∈ ks, (State.meterStep p s k).crew q = s.crew q := fun q hq => by
      have hne : q ≠ k := fun h => hk (h ▸ hq)
      rw [meterStep_crew, if_neg hne]
    have hmap : (ks.map fun q => tget ((State.meterStep p s k).crew q).ctrs 0 j - tget ((State.meterStep p s k).crew q).fedCtrs 0 j) =
        ks.map fun q => tget (s.crew q).ctrs 0 j - tget (s.crew q).fedCtrs 0 j := List.map_congr_left fun q hq => by rw [hother q hq]
    rw [List.foldl_cons, ih hrest fun q hq => by rw [hother q hq]; exact hp q (List.mem_cons_of_mem _ hq),
      meterStep_kind p s k (hp k List.mem_cons_self) hj, List.map_cons, List.sum_cons, Nat.add_assoc, hmap]

theorem allCrews_nodup {s : State} (h : Rising s.crews) (p : Nat) : (s.allCrews p).Nodup := by
  unfold State.allCrews
  refine List.nodup_flatMap.mpr ⟨fun d _ => ?_, ?_⟩
  · have hkeys : (s.crews.map (·.1)).Nodup := List.pairwise_map.mpr (h.imp fun hlt => Nat.ne_of_lt hlt)
    exact hkeys.sublist (List.Sublist.map _ List.filter_sublist)
  · refine List.nodup_range.imp fun {a b} hne k ha hb => hne ?_
    exact ((mem_polderCrews h).mp ha).2.1.symm.trans ((mem_polderCrews h).mp hb).2.1

theorem useCore_crews (s : State) (core : Nat) : (s.useCore core).crews = s.crews := by
  have hmeters : ∀ (ps : List Nat) (t : Nat) (s : State), (ps.foldl (fun s p => s.meter p 20 t) s).crews = s.crews := by
    intro ps t
    induction ps with
    | nil => exact fun _ => rfl
    | cons a ps ih => exact fun s => ih _
  unfold State.useCore
  extract_lets cl t ps s1 s2
  have hs1 : s1.crews = s.crews := hmeters ps t s
  have hs2 : s2.crews = s1.crews := by
    show (match (List.range 32).find? fun p => s.ownsCluster p cl with | some o => if ps = [] then s1 else s1.meter o 21 t | none => s1).crews = _
    split
    · split <;> rfl
    · rfl
  exact hs2.trans hs1

/-- The cores whose use is counted before a feed. -/
def State.usedCores (s : State) : List Nat := (s.crews.map fun e => coreOfCrew e.1).dedup.filter (· < 252)

theorem foldl_useCore_crews (ns : List Nat) (s : State) : (ns.foldl State.useCore s).crews = s.crews := by
  induction ns generalizing s with
  | nil => rfl
  | cons n ns ih => exact (ih _).trans (useCore_crews s n)

/-- The state of a feed in which every count of the polder has been made, before it is poured out. -/
def State.tallied (s : State) (p : Nat) : State := ((s.usedCores.foldl State.useCore s).meterCrews p).meterEnergy p

theorem feed_eq (s : State) (p : Nat) : s.feed p = ((s.tallied p).pour p).modPolder p fun x => { x with fedAt := s.reft } := rfl

theorem meterEnergy_crew (s : State) (p : Nat) (q : Key) : (s.meterEnergy p).crew q = s.crew q := rfl

section
variable (s : State) (p : Nat)

theorem allCrews_of_crews {s t : State} (h : t.crews = s.crews) (p : Nat) : t.allCrews p = s.allCrews p := by
  unfold State.allCrews State.polderCrews
  rw [h]

theorem tallied_tally : Tally (fun n => 0 < n ∧ n < 11) s (s.tallied p) := by
  have huse : Tally (fun n => 0 < n ∧ n < 11) s (s.usedCores.foldl State.useCore s) :=
    Tally.foldl _ (fun s n _ => (Tally.useCore s n).less fun m hm => ⟨by omega, by omega⟩) s
  have hcrews : Tally (fun n => 0 < n ∧ n < 11) (s.usedCores.foldl State.useCore s) ((s.usedCores.foldl State.useCore s).meterCrews p) :=
    Tally.foldl _ (fun s k _ => (meterStep_tally p s k).less fun m hm => ⟨hm.1, by omega⟩) _
  exact (huse.trans hcrews).trans ((Tally.meterEnergy _ p).less fun m hm => by omega)

theorem tallied_crew (q : Key) : (s.tallied p).crew q = if q ∈ s.allCrews p then (s.crew q).counted else s.crew q := by
  have hused := foldl_useCore_crews s.usedCores s
  rw [State.tallied, meterEnergy_crew, meterCrews_eq, foldl_meterStep_crew, allCrews_of_crews hused, State.crew, hused]
  rfl

theorem tallied_kind (hr : Rising s.crews) {j : Nat} (hj : j < 8) :
    tget ((s.tallied p).polder p).meter 0 (12 + j) = tget (s.polder p).meter 0 (12 + j) +
      ((s.allCrews p).map fun k => tget (s.crew k).ctrs 0 j - tget (s.crew k).fedCtrs 0 j).sum := by
  have hused := foldl_useCore_crews s.usedCores s
  have huse : Tally (fun n => n ≠ 20 ∧ n ≠ 21) s (s.usedCores.foldl State.useCore s) := Tally.foldl _ (fun s n _ => Tally.useCore s n) s
  have hcrew : ∀ k, (s.usedCores.foldl State.useCore s).crew k = s.crew k := fun k => by
    rw [State.crew, hused]
    rfl
  have hpolder : ∀ k ∈ s.allCrews p, polderOf ((s.usedCores.foldl State.useCore s).crew k).ctx = p := fun k hk => by
    rw [hcrew]
    exact ((mem_allCrews hr).mp hk).2.2.2
  rw [State.tallied, (Tally.meterEnergy _ p).kept p (12 + j) (show 12 + j ≠ 11 by omega), meterCrews_eq, allCrews_of_crews hused,
    foldl_meterStep_kind p (allCrews_nodup hr p) hpolder hj, huse.kept p (12 + j) ⟨by omega, by omega⟩]
  simp only [hcrew]

end

theorem pour_polder (s : State) (p : Nat) :
    (s.pour p).polder p = { s.polder p with
      meter := [], total := if s.metering then addTab (s.polder p).total (s.polder p).meter else (s.polder p).total } := by
  have hmod : (s.modPolder p fun x => { x with
      meter := [], total := if s.metering then addTab x.total (s.polder p).meter else x.total }).polder p = _ := State.modPolder_polder s p _ p
  rw [if_pos rfl] at hmod
  have hpkg : ∀ (b : Bool) (t : State) (f : Pkg → Pkg), (if b then t.modPkg f else t).polder p = t.polder p := by
    intro b t f
    split <;> rfl
  unfold State.pour
  extract_lets m s1
  exact (hpkg s.metering s1 _).trans hmod

theorem feed_polder (s : State) (p : Nat) : (s.feed p).polder p = { ((s.tallied p).pour p).polder p with fedAt := s.reft } := by
  rw [feed_eq, State.modPolder_polder, if_pos rfl]

theorem feed_crew (s : State) (p : Nat) (q : Key) : (s.feed p).crew q = (s.tallied p).crew q := by
  have hpour : ∀ t : State, (t.pour p).crew q = t.crew q := fun t => by
    unfold State.pour
    dsimp only
    split <;> rfl
  exact hpour (s.tallied p)

theorem tallied_metering (s : State) (p : Nat) : (s.tallied p).metering = s.metering := by
  rw [(tallied_tally s p).frame]
  rfl

/-- A feed changes, of the package registers, only the totals of the owners. -/
def Fed (s t : State) : Prop :=
  t = { s with polders := t.polders, cores := t.cores, crews := t.crews, freeCtr := t.freeCtr, pkg := { s.pkg with ownMeter := t.pkg.ownMeter } }

namespace Fed

theorem refl (s : State) : Fed s s := rfl

theorem trans {s t u : State} (h1 : Fed s t) (h2 : Fed t u) : Fed s u :=
  Eq.trans h2 (congrArg (fun x : State => { x with
    polders := u.polders, cores := u.cores, crews := u.crews, freeCtr := u.freeCtr, pkg := { x.pkg with ownMeter := u.pkg.ownMeter } }) h1)

theorem foldl {α : Type} {g : State → α → State} (hg : ∀ s a, Fed s (g s a)) (ls : List α) (s : State) : Fed s (ls.foldl g s) := by
  induction ls generalizing s with
  | nil => exact refl s
  | cons a r ih => exact (hg s a).trans (ih (g s a))

theorem tally {keep : Nat → Prop} {s t : State} (h : Tally keep s t) : Fed s t :=
  Eq.trans h.frame (by rw [h.frame])

theorem pour (s : State) (p : Nat) : Fed s (s.pour p) := by
  unfold State.pour
  dsimp only
  split <;> rfl

theorem modPolder (s : State) (p : Nat) (f : Polder → Polder) : Fed s (s.modPolder p f) := rfl

theorem feed (s : State) (p : Nat) : Fed s (s.feed p) := by
  rw [feed_eq]
  exact ((tally (tallied_tally s p)).trans (pour _ p)).trans (modPolder _ p _)

end Fed

theorem feed_pkg {s : State} {p : Nat} (h : s.metering = false) : (s.feed p).pkg = s.pkg := by
  have hpour : ∀ t : State, t.metering = false → (t.pour p).pkg = t.pkg := by
    intro t ht
    unfold State.pour
    rw [if_neg (by rw [ht]; exact Bool.false_ne_true)]
    rfl
  refine (hpour (s.tallied p) ((tallied_metering s p).trans h)).trans ?_
  rw [(tallied_tally s p).frame]

theorem meteringFeed_spec (s : State) (p : Nat) (hp : p < 32) : ∃ t, exec (.meteringFeed p) s = .next t ∧
    (t.polder p).meter = [] ∧ (t.polder p).fedAt = s.reft ∧
    (s.metering = false → (t.polder p).total = (s.polder p).total ∧ t.pkg = s.pkg) ∧
    (∀ k ∈ s.allCrews p, (t.crew k).metered = (s.crew k).issued) ∧
    (s.metering = true → (s.polder p).meter.Pairwise (fun a b => a.1 < b.1) → s.crews.Pairwise (fun a b => a.1 < b.1) →
      (∀ n, 1 ≤ n → n < 7 → tget (t.polder p).total 0 n = tget (s.polder p).total 0 n + tget (s.polder p).meter 0 n) ∧
      (∀ i, i < 8 → tget (t.polder p).total 0 (12 + i) = tget (s.polder p).total 0 (12 + i) + tget (s.polder p).meter 0 (12 + i)
        + ((s.allCrews p).map fun k => tget (s.crew k).ctrs 0 i - tget (s.crew k).fedCtrs 0 i).sum)) := by
  have hexec : exec (.meteringFeed p) s = .next (s.feed p) := congrArg Host.Outcome.next (if_pos hp)
  have htally := tallied_tally s p
  have hpolder := feed_polder s p
  rw [pour_polder, tallied_metering, htally.total] at hpolder
  refine ⟨_, hexec, by rw [hpolder], by rw [hpolder], fun hoff => ⟨?_, feed_pkg hoff⟩, fun k hk => ?_, fun hon hmeter hcrews => ?_⟩
  · rw [hpolder, if_neg (by rw [hoff]; exact Bool.false_ne_true)]
  · rw [feed_crew, tallied_crew, if_pos hk]
    rfl
  · have hrising := htally.rising p hmeter
    have htotal : ((s.feed p).polder p).total = addTab (s.polder p).total ((s.tallied p).polder p).meter := by
      rw [hpolder, if_pos hon]
    rw [htotal]
    refine ⟨fun n h1 h7 => ?_, fun i hi => ?_⟩
    · rw [tget_addTab _ hrising, htally.kept p n ⟨by omega, by omega⟩]
    · rw [tget_addTab _ hrising, tallied_kind s p hcrews hi, Nat.add_assoc]

-- The usage report.

theorem reportBody_spec (s : State) (owner seq : Nat) (n0 n1 : Dword) : ∃ w rest, s.reportBody owner seq n0 n1 =
    [1, w, n0, n1, BitVec.ofNat 64 s.reft, BitVec.ofNat 64 seq] ++ rest ∧ rest.length = 22 :=
  ⟨_, _, rfl, rfl⟩

/-- The polders of an owner. -/
def State.poldersOfOwner (s : State) (owner : Nat) : List Nat := (List.range 32).filter fun p => s.polderValid p && s.ownerId p == owner

/-- The next report of an owner, signed, and the state that has signed it (R369). -/
def State.nextReport (s : State) (owner : Nat) (n0 n1 : Dword) : List Dword × State :=
  s.signed (s.reportBody owner (tget s.pkg.repSeq 0 owner + 1) n0 n1)

/-- The state with the next report of an owner in the outbox. -/
def State.reportSent (s : State) (owner : Nat) (n0 n1 : Dword) : State :=
  (s.nextReport owner n0 n1).2.modPkg fun p =>
    { p with repSeq := tset p.repSeq owner (tget s.pkg.repSeq 0 owner + 1), outbox := p.outbox ++ [(s.nextReport owner n0 n1).1] }

theorem reportSent_spec (s : State) (owner : Nat) (n0 n1 : Dword) :
    let r := (s.nextReport owner n0 n1).1
    (s.reportSent owner n0 n1).pkg.outbox = s.pkg.outbox ++ [r] ∧ r.length = 40 ∧ r.getD 0 0 = 1 ∧ r.getD 2 0 = n0 ∧ r.getD 3 0 = n1 ∧
      r.getD 4 0 = BitVec.ofNat 64 s.reft ∧ r.getD 5 0 = BitVec.ofNat 64 (tget s.pkg.repSeq 0 owner + 1) ∧
      tget (s.reportSent owner n0 n1).pkg.repSeq 0 owner = tget s.pkg.repSeq 0 owner + 1 ∧ (s.reportSent owner n0 n1).mem = s.mem := by
  intro r
  obtain ⟨w, rest, hbody, hlen⟩ := reportBody_spec s owner (tget s.pkg.repSeq 0 owner + 1) n0 n1
  have hr : r = (s.signed ([1, w, n0, n1, BitVec.ofNat 64 s.reft, BitVec.ofNat 64 (tget s.pkg.repSeq 0 owner + 1)] ++ rest)).1 :=
    congrArg (fun body => (s.signed body).1) hbody
  refine ⟨rfl, ?_, ?_, ?_, ?_, ?_, ?_, tget_tset_same _ _ _ _, rfl⟩
  · rw [hr]
    simp [State.signed, hlen, digestWords]
  all_goals
    rw [hr]
    rfl

theorem usageReport_spec {s : State} {owner : Nat} {n0 n1 : BitVec 64} (h : s.pkg.life = .deployed) :
    ∃ t r, exec (.usageReport owner n0 n1) s = .next t ∧ t.pkg.outbox = s.pkg.outbox ++ [r] ∧
      r.length = 40 ∧ r.getD 0 0 = 1 ∧ r.getD 2 0 = n0 ∧ r.getD 3 0 = n1 ∧ r.getD 4 0 = BitVec.ofNat 64 s.reft ∧
      r.getD 5 0 = BitVec.ofNat 64 (tget s.pkg.repSeq 0 owner + 1) ∧ tget t.pkg.repSeq 0 owner = tget s.pkg.repSeq 0 owner + 1 ∧
      t.mem = s.mem := by
  have hexec : exec (.usageReport owner n0 n1) s = .next (((s.poldersOfOwner owner).foldl State.feed s).reportSent owner n0 n1) :=
    congrArg Host.Outcome.next (if_neg (by rw [h]; decide))
  have hfed : Fed s ((s.poldersOfOwner owner).foldl State.feed s) := Fed.foldl Fed.feed _ _
  generalize (s.poldersOfOwner owner).foldl State.feed s = s1 at hexec hfed
  have hreft : s1.reft = s.reft := (congrArg State.reft (show s1 = _ from hfed)).trans rfl
  have hseq : s1.pkg.repSeq = s.pkg.repSeq := (congrArg (fun x : State => x.pkg.repSeq) (show s1 = _ from hfed)).trans rfl
  have hout : s1.pkg.outbox = s.pkg.outbox := (congrArg (fun x : State => x.pkg.outbox) (show s1 = _ from hfed)).trans rfl
  have hmem : s1.mem = s.mem := (congrArg State.mem (show s1 = _ from hfed)).trans rfl
  have hspec := reportSent_spec s1 owner n0 n1
  rw [hreft, hseq, hout, hmem] at hspec
  exact ⟨_, _, hexec, hspec⟩

/-- Settles O56: buckets, tokens, holds and feeds by what each writes; the crews of a polder are counted once each, since the table of crews rises. -/
theorem sharesAndMetering : Obligations.SharesAndMetering := by
  unfold Obligations.SharesAndMetering
  refine ⟨?_, tokens_spec, dryFor_iff, powerMeasure_spec, ?_, meteringFeed_spec, ?_⟩
  · intro s p ctl hp hctl
    exact ⟨bucketRefill_off, bucketRefill_adds hp hctl⟩
  · intro s k cause hreeve hst hot
    refine ⟨?_, ?_, ?_, ?_⟩
    · rintro rfl
      exact ⟨_, throttleNotice_body 5 hreeve hst, settleDry_thr s k⟩
    · rintro rfl hcold
      exact (throttleNotice_body 3 hreeve hst).trans (congrArg Host.Outcome.next (if_neg (Bool.eq_false_iff.mp hcold)))
    · intro hcause
      have hred : exec (.throttleNotice k cause) s = .next (s.reduce cause [k]) ∧ cause < 8 := by
        obtain rfl | rfl | ⟨rfl, hhot⟩ := hcause
        · exact ⟨throttleNotice_body 1 hreeve hst, by decide⟩
        · exact ⟨throttleNotice_body 2 hreeve hst, by decide⟩
        · exact ⟨(throttleNotice_body 3 hreeve hst).trans (congrArg Host.Outcome.next (if_pos hhot)), by decide⟩
      obtain ⟨duty, hduty⟩ := reduce_one s k cause hred.2
      exact ⟨_, duty, hred.1, hduty⟩
    · rintro rfl
      exact throttleNotice_relocks s k hreeve hst hot rfl
  · intro s owner n0 n1
    exact ⟨fun h => congrArg Host.Outcome.next (if_pos (bne_iff_ne.mpr h)), usageReport_spec⟩

end Sys2Proof.Machine
end


section
/-! O57, islands, die clocks and what supplies them. -/

namespace Sys2Proof.Machine

-- Islands.

/-- An island whose freeboard window has closed (R395). -/
def Island.windowShut (i : Island) (reft : Nat) : Island :=
  { i with wovt := min i.wo 0xFFFF, watt := min i.wn 0xFFFF, wn := 0, wo := 0, closedAt := some reft }

/-- The island of a core that has crews and a target, out of a relock. -/
def Island.moved (i : Island) (mode : IslandMode) (r : Nat × Nat) : Island :=
  match mode with
  | .guarded => i
  | .step | .off => { i with cred := 0 }
  | .over => { i with cred := r.1, vset := r.2 }

/-- The island of a core after its window has closed (R396, R397). -/
def State.nextIsland (s : State) (core : Nat) : Island :=
  if (s.die (dieOf core)).rel then { (s.core core).island.windowShut s.reft with wovt := 0, watt := 0 }
  else if s.fbTarget core = 0 then { (s.core core).island.windowShut s.reft with cred := 0 }
  else ((s.core core).island.windowShut s.reft).moved (s.islandMode core)
    (closeWindow (s.fbTarget core) (s.core core).island.wn (s.core core).island.wo (s.core core).island.cred (s.vsetOf core) (s.vgNow core)
      (s.vfNow core))

theorem moved_frame (i : Island) (mode : IslandMode) (r : Nat × Nat) : (i.moved mode r).closedAt = i.closedAt ∧ (i.moved mode r).wn = i.wn ∧
    (i.moved mode r).wo = i.wo ∧ (i.moved mode r).mode = i.mode ∧ (i.moved mode r).force = i.force ∧ (i.moved mode r).wovt = i.wovt ∧
    (i.moved mode r).watt = i.watt := by
  cases mode <;> exact ⟨rfl, rfl, rfl, rfl, rfl, rfl, rfl⟩

theorem nextIsland_frame (s : State) (core : Nat) : (s.nextIsland core).closedAt = some s.reft ∧ (s.nextIsland core).wn = 0 ∧
    (s.nextIsland core).wo = 0 ∧ (s.nextIsland core).mode = (s.core core).island.mode ∧
    (s.nextIsland core).force = (s.core core).island.force := by
  unfold State.nextIsland
  split
  · exact ⟨rfl, rfl, rfl, rfl, rfl⟩
  · split
    · exact ⟨rfl, rfl, rfl, rfl, rfl⟩
    · obtain ⟨hclosed, hwn, hwo, hmode, hforce, -⟩ := moved_frame ((s.core core).island.windowShut s.reft) (s.islandMode core)
        (closeWindow (s.fbTarget core) (s.core core).island.wn (s.core core).island.wo (s.core core).island.cred (s.vsetOf core) (s.vgNow core) (s.vfNow core))
      exact ⟨hclosed, hwn, hwo, hmode, hforce⟩

theorem nextIsland_relock {s : State} {core : Nat} (h : (s.die (dieOf core)).rel = true) :
    s.nextIsland core = { (s.core core).island.windowShut s.reft with wovt := 0, watt := 0 } := by
  rw [State.nextIsland, if_pos h]

theorem nextIsland_untargeted {s : State} {core : Nat} (h : (s.die (dieOf core)).rel = false) (ht : s.fbTarget core = 0) :
    s.nextIsland core = { (s.core core).island.windowShut s.reft with cred := 0 } := by
  rw [State.nextIsland, if_neg (Bool.eq_false_iff.mp h), if_pos ht]

theorem nextIsland_targeted {s : State} {core : Nat} (h : (s.die (dieOf core)).rel = false) (ht : s.fbTarget core ≠ 0) :
    let i := (s.core core).island
    s.nextIsland core = (i.windowShut s.reft).moved (s.islandMode core)
      (closeWindow (s.fbTarget core) i.wn i.wo i.cred (s.vsetOf core) (s.vgNow core) (s.vfNow core)) := by
  rw [State.nextIsland, if_neg (Bool.eq_false_iff.mp h), if_neg ht]

theorem nextIsland_counts {s : State} {core : Nat} (h : (s.die (dieOf core)).rel = false) :
    (s.nextIsland core).wovt = min (s.core core).island.wo 0xFFFF ∧ (s.nextIsland core).watt = min (s.core core).island.wn 0xFFFF := by
  by_cases ht : s.fbTarget core = 0
  · rw [nextIsland_untargeted h ht]
    exact ⟨rfl, rfl⟩
  · rw [nextIsland_targeted h ht]
    obtain ⟨-, -, -, -, -, hovt, hatt⟩ := moved_frame ((s.core core).island.windowShut s.reft) (s.islandMode core)
      (closeWindow (s.fbTarget core) (s.core core).island.wn (s.core core).island.wo (s.core core).island.cred (s.vsetOf core) (s.vgNow core) (s.vfNow core))
    exact ⟨hovt, hatt⟩

/-- The cases of CloseWindow (R396). -/
theorem closeWindow_cases (t n o cred vset vg vf : Nat) :
    (cred + t * n < o * 2 ^ 20 → closeWindow t n o cred vset vg vf = (0, min (vset + 5) vg)) ∧
    (o * 2 ^ 20 ≤ cred + t * n → cred + t * n - o * 2 ^ 20 < 2 ^ 21 →
      closeWindow t n o cred vset vg vf = (cred + t * n - o * 2 ^ 20, vset)) ∧
    (o * 2 ^ 20 ≤ cred + t * n → 2 ^ 21 ≤ cred + t * n - o * 2 ^ 20 → vf + 5 ≤ vset → closeWindow t n o cred vset vg vf = (0, vset - 5)) ∧
    (o * 2 ^ 20 ≤ cred + t * n → 2 ^ 21 ≤ cred + t * n - o * 2 ^ 20 → vset < vf + 5 → closeWindow t n o cred vset vg vf = (2 ^ 21, vset)) := by
  unfold closeWindow
  dsimp only
  refine ⟨fun h => ?_, fun h hc => ?_, fun h hc hv => ?_, fun h hc hv => ?_⟩
  · rw [if_pos h]
  · rw [if_neg (Nat.not_lt.mpr h), if_neg (Nat.not_le.mpr hc)]
  · rw [if_neg (Nat.not_lt.mpr h), if_pos hc, if_pos hv]
  · rw [if_neg (Nat.not_lt.mpr h), if_pos hc, if_neg (Nat.not_le.mpr hv)]

theorem freeboardClose_exec {s : State} {core : Nat} (hcore : core < 252) (hreft : s.reft % 10000 = 0)
    (hopen : (s.core core).island.closedAt ≠ some s.reft) :
    exec (.freeboardWindowClose core) s = .next (s.modCore core fun y => { y with island := s.nextIsland core }) := by
  show execFreeboardWindowClose core s = _
  unfold execFreeboardWindowClose
  extract_lets i closed t next
  have hdue : ¬(decide (s.reft % 10000 ≠ 0) || decide (252 ≤ core) || i.closedAt == some s.reft) = true := by
    simp [i, hcore, hreft, hopen]
  have hnext : next = s.nextIsland core := by
    unfold State.nextIsland
    subst next
    have hshut : (s.core core).island.windowShut s.reft = closed := rfl
    rw [hshut]
    have ht : s.fbTarget core = t := rfl
    have hi : (s.core core).island = i := rfl
    rw [ht, hi]
    generalize closeWindow t i.wn i.wo i.cred (s.vsetOf core) (s.vgNow core) (s.vfNow core) = r
    obtain ⟨c, v⟩ := r
    cases s.islandMode core <;> rfl
  rw [if_neg hdue, hnext]

theorem core_modCore (s : State) (n : Nat) (f : CoreSt → CoreSt) : (s.modCore n f).core n = f (s.core n) := by
  rw [State.modCore_core, if_pos rfl]

theorem engineGo_idle {s : State} {core : Nat} (h : (s.core core).issued = []) : s.engineGo core = s := by
  unfold State.engineGo State.engineRun
  exact if_pos (by simp [h])

theorem islandOff_goes {s : State} {core : Nat} (hmode : (s.core core).island.mode ≠ .off) (hcrew : s.matrixCrew core = false)
    (hattempt : (s.core core).attempt = none) (hfixing : (s.core core).fixing = []) (hissued : (s.core core).issued = [])
    (hlong : (s.core core).island.idleAt + 100000 ≤ s.reft) :
    exec (.islandOff core) s = .next (s.modCore core fun y => { y with island := { (s.core core).island with mode := .off, riseBy := none } }) :=
  congrArg Host.Outcome.next (if_neg (by simp [hmode, hcrew, hattempt, hfixing, hissued, hlong]))

theorem islandOff_stays {s : State} {core : Nat} (h : s.reft < (s.core core).island.idleAt + 100000) : exec (.islandOff core) s = .next s :=
  congrArg Host.Outcome.next (if_pos (by simp [h]))

theorem islandPowerUp_goes {s : State} {core : Nat} (hmode : (s.core core).island.mode = .off) (hcrew : s.matrixCrew core = true)
    (hissued : (s.core core).issued = []) :
    exec (.islandPowerUp core) s = .next (s.modCore core fun y =>
      { y with island := { (s.core core).island.clean with mode := if s.holdWanted core then .guarded else .over } }) := by
  have hidle : ((s.modCore core fun y =>
      { y with island := { (s.core core).island.clean with mode := if s.holdWanted core then .guarded else .over } }).core core).issued = [] := by
    rw [core_modCore]
    exact hissued
  refine (congrArg Host.Outcome.next (if_neg ?_)).trans (congrArg Host.Outcome.next (engineGo_idle hidle))
  simp [hmode, hcrew]

/-- The state in which FORCE of an island has been written, its mode not yet settled. -/
def State.forced (s : State) (core : Nat) (b : Bool) : State := s.modCore core fun c => { c with island := { c.island with force := b } }

theorem forced_island (s : State) (core : Nat) (b : Bool) : ((s.forced core b).core core).island = { (s.core core).island with force := b } := by
  rw [State.forced, core_modCore]

theorem holdWanted_of_force {s : State} {core : Nat} (h : (s.core core).island.force = true) : s.holdWanted core = true := by
  unfold State.holdWanted
  simp [h]

/-- Settling an island changes its mode only from guarded to over, and neither while a hold is wanted. -/
theorem islandSettle_mode (s : State) (core : Nat) :
    ((s.islandSettle core).core core).island.force = (s.core core).island.force ∧
    (s.holdWanted core = true ∨ (s.core core).island.mode ≠ .guarded →
      ((s.islandSettle core).core core).island.mode = (s.core core).island.mode) := by
  unfold State.islandSettle
  dsimp only
  split
  · split
    · rw [core_modCore]
      exact ⟨rfl, fun _ => rfl⟩
    · exact ⟨rfl, fun _ => rfl⟩
  case isFalse hhold =>
    split
    · rw [core_modCore]
      refine ⟨rfl, fun h => ?_⟩
      exact if_neg (by simpa using h.resolve_left hhold)
    · exact ⟨rfl, fun _ => rfl⟩

theorem islandSettle_elsewhere (s : State) {core n : Nat} (hn : n ≠ core) : (s.islandSettle core).core n = s.core n := by
  have hmod : ∀ f : CoreSt → CoreSt, (s.modCore core f).core n = s.core n := fun f => by rw [State.modCore_core, if_neg hn]
  unfold State.islandSettle
  dsimp only
  split
  · split
    · exact hmod _
    · rfl
  · split
    · exact hmod _
    · rfl

theorem islandForce_spec (s : State) (core : Nat) (b : Bool) (hcore : core < 252) : ∃ t, exec (.islandForceWrite core b) s = .next t ∧
    (t.core core).island.force = b ∧
    (b = true → (s.core core).island.mode = .over ∨ (s.core core).island.mode = .guarded → t.islandMode core = .guarded) ∧
    ((s.core core).island.mode = .off ∨ (s.core core).island.mode = .step → (t.core core).island.mode = (s.core core).island.mode) ∧
    ∀ n, n ≠ core → t.core n = s.core n := by
  have hexec : exec (.islandForceWrite core b) s = .next ((s.forced core b).islandSettle core) := congrArg Host.Outcome.next (if_pos hcore)
  have hisl := forced_island s core b
  obtain ⟨hforce, hmode⟩ := islandSettle_mode (s.forced core b) core
  rw [hisl] at hforce hmode
  refine ⟨_, hexec, hforce, fun hb hon => ?_, fun hoff => hmode (.inr ?_), fun n hn => ?_⟩
  · subst hb
    have hheld := hmode (.inl (holdWanted_of_force (by rw [hisl])))
    unfold State.islandMode
    dsimp only at hheld ⊢
    rw [hheld, holdWanted_of_force hforce]
    obtain h | h := hon <;> rw [h] <;> rfl
  · obtain h | h := hoff <;> rw [h] <;> decide
  · rw [islandSettle_elsewhere _ hn, State.forced, State.modCore_core, if_neg hn]

-- Die clocks.

/-- A die as a relock towards a code begins (R318). -/
def Die.relocks (x : Die) (m reft : Nat) : Die := { x with rel := true, stepping := .relock m, relockAt := reft }

theorem HoldSide.waves {s t : State} (h : HoldSide s t) : t.waves = s.waves := by rw [h.frame]

theorem HoldSide.mem {s t : State} (h : HoldSide s t) : t.mem = s.mem := by rw [h.frame]

theorem HoldSide.phases {s t : State} (h : HoldSide s t) : t.pkg.phaseStep = s.pkg.phaseStep ∧ t.pkg.phases = s.pkg.phases :=
  ⟨congrArg (·.phaseStep) h.pkg, congrArg (·.phases) h.pkg⟩

theorem HoldSide.core {s t : State} (h : HoldSide s t) (n : Nat) : t.core n = s.core n := by
  rw [h.frame]
  rfl

/-- The island of a core is brought to the guarded voltage of a code (R399). -/
def State.relockCore (m : Nat) (s : State) (n : Nat) : State :=
  s.modCore n fun y => { y with island := { y.island with vset := s.vgAt n m, cred := 0 } }

theorem relockCore_same (m : Nat) (s : State) (n : Nat) :
    ((s.relockCore m n).core n).island.vset = s.vgAt n m ∧ ((s.relockCore m n).core n).island.cred = 0 := by
  rw [State.relockCore, core_modCore]
  exact ⟨rfl, rfl⟩

theorem relockCore_other (m : Nat) (s : State) {a n : Nat} (h : n ≠ a) : (s.relockCore m a).core n = s.core n := by
  rw [State.relockCore, State.modCore_core, if_neg h]

theorem relockCore_vgAt (m : Nat) (s : State) (a n : Nat) : (s.relockCore m a).vgAt n m = s.vgAt n m := rfl

theorem modDie_vgAt (s : State) (d : Nat) (f : Die → Die) (n m : Nat) : (s.modDie d f).vgAt n m = s.vgAt n m := rfl

/-- The state of a relock in which the islands stand at the new point, and no crew is held yet. -/
def State.relockIslands (s : State) (d m : Nat) : State :=
  (dieCores d).foldl (State.relockCore m) (s.modDie d fun x => x.relocks m s.reft)

theorem beginRelock_eq (s : State) (d m : Nat) : s.beginRelock d m =
    ((s.relockIslands d m).dieCrews d).foldl (fun t k => t.throttle k (if (t.die d).thm then 11 else 9) 0) (s.relockIslands d m) := rfl

theorem relockIslands_holds (s : State) (d m : Nat) : HoldSide (s.relockIslands d m) (s.beginRelock d m) := by
  rw [beginRelock_eq]
  exact HoldSide.foldl (fun t k => HoldSide.throttle t k _ 0) _ _

theorem relockFold_die (m : Nat) (ns : List Nat) (s : State) (d : Nat) : (ns.foldl (State.relockCore m) s).die d = s.die d := by
  induction ns generalizing s with
  | nil => rfl
  | cons n ns ih => exact ih _

theorem beginRelock_die (s : State) (d m : Nat) : ((s.beginRelock d m).die d).still = ((s.die d).relocks m s.reft).still := by
  rw [(relockIslands_holds s d m).die, State.relockIslands, relockFold_die, State.modDie_die, if_pos rfl]

theorem relockFold_other (m : Nat) {n : Nat} {ns : List Nat} (hn : n ∉ ns) (s : State) :
    (ns.foldl (State.relockCore m) s).core n = s.core n := by
  induction ns generalizing s with
  | nil => rfl
  | cons a ns ih =>
    rw [List.foldl_cons, ih (List.not_mem_of_not_mem_cons hn), relockCore_other m s (List.ne_of_not_mem_cons hn)]

theorem relockFold_island (m : Nat) {n : Nat} {ns : List Nat} (hnodup : ns.Nodup) (hn : n ∈ ns) (s : State) :
    ((ns.foldl (State.relockCore m) s).core n).island.vset = s.vgAt n m ∧ ((ns.foldl (State.relockCore m) s).core n).island.cred = 0 := by
  induction ns generalizing s with
  | nil => cases hn
  | cons a ns ih =>
    obtain ⟨ha, hrest⟩ := List.nodup_cons.mp hnodup
    rw [List.foldl_cons]
    obtain rfl | hn := List.mem_cons.mp hn
    · rw [relockFold_other m ha]
      exact relockCore_same m s n
    · rw [← relockCore_vgAt m s a n]
      exact ih hrest hn _

theorem dieCores_nodup (d : Nat) : (dieCores d).Nodup := List.Nodup.map (fun a b h => by simpa using h) List.nodup_range

theorem mem_dieCores (d n : Nat) (hn : n < 63) : d * 63 + n ∈ dieCores d := List.mem_map.mpr ⟨n, List.mem_range.mpr hn, rfl⟩

theorem beginRelock_islands (s : State) (d m : Nat) {n : Nat} (hn : n < 63) :
    ((s.beginRelock d m).core (d * 63 + n)).island.vset = s.vgAt (d * 63 + n) m ∧ ((s.beginRelock d m).core (d * 63 + n)).island.cred = 0 := by
  have hfold := relockFold_island m (dieCores_nodup d) (mem_dieCores d n hn) (s.modDie d fun x => x.relocks m s.reft)
  rw [modDie_vgAt] at hfold
  rw [(relockIslands_holds s d m).core, State.relockIslands]
  exact hfold

/-- The state of a step of the clock in which THM follows the target's cause. -/
def State.stepCause (s : State) (d : Nat) : State := s.modDie d fun z => { z with thm := z.tgtHot }

theorem stepCause_die (s : State) (d : Nat) : (s.stepCause d).die d = { s.die d with thm := (s.die d).tgtHot } := by
  rw [State.stepCause, State.modDie_die, if_pos rfl]

theorem beginStep_eq (s : State) (d m : Nat) (hm : m ≠ (s.die d).cur) : s.beginStep d m =
    if (s.die d).cur < m && (s.stepCause d).belowPoint d m then (s.stepCause d).modDie d fun z => { z with stepping := .rise m }
    else (s.stepCause d).beginRelock d m := if_neg hm

/-- What a step of the clock leaves of a die. -/
structure Die.Stepped (x y : Die) (m : Nat) : Prop where
  tgt : y.tgt = x.tgt
  cur : y.cur = x.cur
  hotAt : y.hotAt = x.hotAt
  tgtHot : y.tgtHot = x.tgtHot
  thm : m ≠ x.cur → y.thm = x.tgtHot
  down : m < x.cur → y.rel = true ∧ y.stepping = .relock m

theorem Die.Stepped.of_still {x y z : Die} {m : Nat} (h : x.Stepped y m) (hz : z.still = y.still) : x.Stepped z m where
  tgt := Eq.trans (congrArg (·.tgt) hz) h.tgt
  cur := Eq.trans (congrArg (·.cur) hz) h.cur
  hotAt := Eq.trans (congrArg (·.hotAt) hz) h.hotAt
  tgtHot := Eq.trans (congrArg (·.tgtHot) hz) h.tgtHot
  thm := fun hm => Eq.trans (congrArg (·.thm) hz) (h.thm hm)
  down := fun hm => ⟨Eq.trans (congrArg (·.rel) hz) (h.down hm).1, Eq.trans (congrArg (·.stepping) hz) (h.down hm).2⟩

theorem Die.stepped_relocks (x : Die) (m reft : Nat) : x.Stepped ({ x with thm := x.tgtHot }.relocks m reft : Die) m :=
  ⟨rfl, rfl, rfl, rfl, fun _ => rfl, fun _ => ⟨rfl, rfl⟩⟩

/-- What a step of the clock keeps of its die, and that THM follows the target's cause. -/
theorem beginStep_die (s : State) (d m : Nat) : (s.die d).Stepped ((s.beginStep d m).die d) m := by
  by_cases hm : m = (s.die d).cur
  · have hy : s.beginStep d m = s := if_pos hm
    rw [hy]
    exact ⟨rfl, rfl, rfl, rfl, fun h => absurd hm h, fun h => absurd hm (Nat.ne_of_lt h)⟩
  · rw [beginStep_eq s d m hm]
    by_cases hrise : (decide ((s.die d).cur < m) && (s.stepCause d).belowPoint d m) = true
    · have hup := of_decide_eq_true (Bool.and_eq_true_iff.mp hrise).1
      rw [if_pos hrise, State.modDie_die, if_pos rfl, stepCause_die]
      exact ⟨rfl, rfl, rfl, rfl, fun _ => rfl, fun hdown => absurd hup (Nat.not_lt.mpr (Nat.le_of_lt hdown))⟩
    · have hrelock := beginRelock_die (s.stepCause d) d m
      rw [stepCause_die] at hrelock
      rw [if_neg hrise]
      exact (Die.stepped_relocks _ m _).of_still hrelock

/-- A clock's target within its bounds (R399). -/
def tgtCode (m : Nat) : Nat := max 24 (min 88 m)

theorem tgtCode_bounds (m : Nat) : 24 ≤ tgtCode m ∧ tgtCode m ≤ 88 := by
  unfold tgtCode
  omega

theorem writeTgt_busy {s : State} {d m : Nat} {thermal : Bool} (h : (s.die d).stepping ≠ .none) :
    s.writeTgt d m thermal = s.modDie d fun x => { x with tgt := tgtCode m, tgtHot := thermal } := by
  unfold State.writeTgt
  cases hs : (s.die d).stepping with
  | none => exact absurd hs h
  | rise _ => rfl
  | relock _ => rfl

theorem writeTgt_idle {s : State} {d m : Nat} {thermal : Bool} (h : (s.die d).stepping = .none) :
    s.writeTgt d m thermal = (s.modDie d fun x => { x with tgt := tgtCode m, tgtHot := thermal }).beginStep d (tgtCode m) := by
  unfold State.writeTgt
  rw [h]
  rfl

/-- What a write of a target does to its die. -/
theorem writeTgt_die (s : State) (d m : Nat) (thermal : Bool) :
    let y := (s.writeTgt d m thermal).die d
    let x := s.die d
    y.tgt = tgtCode m ∧ y.cur = x.cur ∧ y.hotAt = x.hotAt ∧ y.tgtHot = thermal ∧
      (x.stepping ≠ .none → y.stepping = x.stepping ∧ y.thm = x.thm) ∧
      (x.stepping = .none → tgtCode m ≠ x.cur → y.thm = thermal) ∧
      (x.stepping = .none → tgtCode m < x.cur → y.rel = true ∧ y.stepping = .relock (tgtCode m)) := by
  intro y x
  have hmod : (s.modDie d fun x => { x with tgt := tgtCode m, tgtHot := thermal }).die d = { x with tgt := tgtCode m, tgtHot := thermal } := by
    rw [State.modDie_die, if_pos rfl]
  by_cases hs : x.stepping = .none
  · have hstep := beginStep_die (s.modDie d fun x => { x with tgt := tgtCode m, tgtHot := thermal }) d (tgtCode m)
    rw [← writeTgt_idle hs, hmod] at hstep
    exact ⟨hstep.tgt, hstep.cur, hstep.hotAt, hstep.tgtHot, fun h => absurd hs h, fun _ => hstep.thm, fun _ => hstep.down⟩
  · have hy : y = { x with tgt := tgtCode m, tgtHot := thermal } := by
      show (s.writeTgt d m thermal).die d = _
      rw [writeTgt_busy hs, hmod]
    rw [hy]
    exact ⟨rfl, rfl, rfl, rfl, fun _ => ⟨rfl, rfl⟩, fun h => absurd h hs, fun h => absurd h hs⟩

theorem dclkTgt_equal {s : State} {d : Nat} {tgt : BitVec 7} (hm : tgtCode tgt.toNat = (s.die d).cur) (hs : (s.die d).stepping = .none) :
    exec (.dclkTgtWrite d tgt) s = .next (s.modDie d fun x => { x with tgt := tgtCode tgt.toNat, tgtHot := false }) := by
  have hexec : exec (.dclkTgtWrite d tgt) s = .next (s.writeTgt d tgt.toNat false) := rfl
  have hdie : ((s.modDie d fun x => { x with tgt := tgtCode tgt.toNat, tgtHot := false }).die d).cur = (s.die d).cur := by
    rw [State.modDie_die, if_pos rfl]
  rw [hexec, writeTgt_idle hs]
  exact congrArg Host.Outcome.next (if_pos (hm.trans hdie.symm))

theorem voltageRiseDone_relocks {s : State} {d m : Nat} (h : (s.die d).stepping = .rise m) :
    exec (.voltageRiseDone d) s = .next (s.beginRelock d m) := by
  show execVoltageRiseDone d s = _
  unfold execVoltageRiseDone
  rw [h]

/-- The state in which a relock has ended, its crews released, and what waited for it not yet taken up. -/
def State.relocked (s : State) (d m : Nat) : State :=
  let s1 := s.modDie d fun x => { x with cur := m, rel := false, stepping := .none }
  (s1.dieCrews d).foldl (fun s k => (s.unthrottle k 9).unthrottle k 11) s1

theorem relocked_holds (s : State) (d m : Nat) :
    HoldSide (s.modDie d fun x => { x with cur := m, rel := false, stepping := .none }) (s.relocked d m) :=
  HoldSide.foldl (fun s k => (HoldSide.unthrottle s k 9).trans (HoldSide.unthrottle _ k 11)) _ _

theorem foldl_engineGo_idle {ns : List Nat} {s : State} (h : ∀ n ∈ ns, (s.core n).issued = []) :
    ns.foldl (fun s n => if (s.core n).issued = [] then s else s.engineGo n) s = s := by
  induction ns with
  | nil => rfl
  | cons n ns ih =>
    rw [List.foldl_cons, if_pos (h n List.mem_cons_self)]
    exact ih fun a ha => h a (List.mem_cons_of_mem _ ha)

theorem relockDone_goes {s : State} {d m : Nat} (h : (s.die d).stepping = .relock m) (htgt : (s.die d).tgt = m) (hfifo : s.fifoWaves = [])
    (hidle : ∀ n, n < 63 → (s.core (d * 63 + n)).issued = []) : exec (.relockDone d) s = .next (s.relocked d m) := by
  have hside := relocked_holds s d m
  have hwaves : (s.relocked d m).fifoWaves = [] := by
    have hw : (s.relocked d m).waves = s.waves := hside.waves
    rw [← hfifo]
    unfold State.fifoWaves State.wave
    rw [hw]
  have hcores : ∀ n ∈ dieCores d, ((s.relocked d m).core n).issued = [] := by
    intro n hn
    obtain ⟨i, hi, rfl⟩ := List.mem_map.mp hn
    rw [hside.core]
    exact hidle i (List.mem_range.mp hi)
  have hdie : ((s.relocked d m).die d).still = { (s.die d).still with cur := m, rel := false, stepping := .none } := by
    rw [hside.die, State.modDie_die, if_pos rfl]
    rfl
  have hcur : ((s.relocked d m).die d).cur = m := congrArg (·.cur) hdie
  have htgt' : ((s.relocked d m).die d).tgt = m := Eq.trans (congrArg (·.tgt) hdie) htgt
  have hexec : execRelockDone d s = .next (
      let s3 := (s.relocked d m).fifoWaves.foldl State.retryHeld (s.relocked d m)
      let s4 := (dieCores d).foldl (fun s n => if (s.core n).issued = [] then s else s.engineGo n) s3
      s4.beginStep d (s4.die d).tgt) := by
    unfold execRelockDone
    rw [h]
    rfl
  refine Eq.trans (b := execRelockDone d s) rfl ?_
  rw [hexec]
  dsimp only
  rw [hwaves, List.foldl_nil, foldl_engineGo_idle hcores, htgt']
  exact congrArg Host.Outcome.next (if_pos hcur.symm)

theorem foldl_release_thr (ks : List Key) (s : State) (q : Key) (n : Nat) (hn : n = 9 ∨ n = 11) :
    tfind ((ks.foldl (fun s k => (s.unthrottle k 9).unthrottle k 11) s).crew q).thr n = if q ∈ ks then none else tfind (s.crew q).thr n := by
  induction ks generalizing s with
  | nil => simp
  | cons k ks ih =>
    rw [List.foldl_cons, ih, unthrottle_thr, unthrottle_thr]
    by_cases hq : q = k <;> by_cases hks : q ∈ ks <;> obtain rfl | rfl := hn <;> simp [hq, hks]

theorem modDie_dieCrews (s : State) (d : Nat) (f : Die → Die) (e : Nat) : (s.modDie d f).dieCrews e = s.dieCrews e := rfl

theorem relockDone_spec {s : State} {d m : Nat} (h : (s.die d).stepping = .relock m) (htgt : (s.die d).tgt = m) (hfifo : s.fifoWaves = [])
    (hidle : ∀ n, n < 63 → (s.core (d * 63 + n)).issued = []) : ∃ t, exec (.relockDone d) s = .next t ∧
      (t.die d).rel = false ∧ (t.die d).cur = m ∧ (t.die d).stepping = .none ∧ t.mem = s.mem ∧
      (∀ k ∈ s.dieCrews d, tfind (t.crew k).thr 9 = none ∧ tfind (t.crew k).thr 11 = none) := by
  have hside := relocked_holds s d m
  have hdie : ((s.relocked d m).die d).still = { (s.die d).still with cur := m, rel := false, stepping := .none } := by
    rw [hside.die, State.modDie_die, if_pos rfl]
    rfl
  have hthr : ∀ n, n = 9 ∨ n = 11 → ∀ k ∈ s.dieCrews d, tfind ((s.relocked d m).crew k).thr n = none := fun n hn k hk =>
    (foldl_release_thr _ _ k n hn).trans (if_pos hk)
  exact ⟨_, relockDone_goes h htgt hfifo hidle, congrArg (·.rel) hdie, congrArg (·.cur) hdie, congrArg (·.stepping) hdie, hside.mem,
    fun k hk => ⟨hthr 9 (.inl rfl) k hk, hthr 11 (.inr rfl) k hk⟩⟩

theorem thermalTrip_first {s : State} {d : Nat} (h : (s.die d).hotAt = none) : ∃ t, exec (.thermalTrip d) s = .next t ∧
    (t.die d).hotAt = some s.reft ∧ ∀ k ∈ s.dieCrews d, (tfind (t.crew k).thr 3).isSome = true := by
  have hexec : exec (.thermalTrip d) s = .next ((s.modDie d fun x => { x with hotAt := some s.reft }).reduce 3 (s.dieCrews d)) := by
    show execThermalTrip d s = _
    unfold execThermalTrip
    rw [h]
  refine ⟨_, hexec, ?_, fun k hk => ?_⟩
  · have hdie := (HoldSide.reduce (s.modDie d fun x => { x with hotAt := some s.reft }) 3 (s.dieCrews d)).die d
    rw [State.modDie_die, if_pos rfl] at hdie
    exact Eq.trans (congrArg (·.hotAt) hdie) rfl
  · rw [reduce_thr, if_pos ⟨hk, rfl⟩]

theorem thermalTrip_again {s : State} {d h : Nat} (hhot : (s.die d).hotAt = some h) (hlong : h + 100000 ≤ s.reft) :
    ∃ t, exec (.thermalTrip d) s = .next t ∧ (t.die d).tgt = 24 ∧ (t.die d).hotAt = some s.reft ∧ (t.die d).tgtHot = true ∧
      ((s.die d).stepping = .none → (s.die d).cur ≠ 24 → (t.die d).thm = true) := by
  let s1 := s.modDie d fun x => { x with hotAt := some s.reft }
  have hs1 : s1.die d = { s.die d with hotAt := some s.reft } := by rw [State.modDie_die, if_pos rfl]
  have hexec : exec (.thermalTrip d) s = .next ((s.dieCtxs d).foldl (fun s c => s.notice c 3) (s1.writeTgt d 24 true)) := by
    show execThermalTrip d s = _
    unfold execThermalTrip
    rw [hhot]
    exact congrArg Host.Outcome.next (if_neg (Nat.not_lt.mpr hlong))
  have hside : HoldSide (s1.writeTgt d 24 true) ((s.dieCtxs d).foldl (fun s c => s.notice c 3) (s1.writeTgt d 24 true)) :=
    HoldSide.foldl (fun s c => HoldSide.notice s c 3) _ _
  have hdie := hside.die d
  obtain ⟨htgt, -, hkept, hcause, -, hthm, -⟩ := writeTgt_die s1 d 24 true
  rw [hs1] at hkept hthm
  exact ⟨_, hexec, Eq.trans (congrArg (·.tgt) hdie) htgt, Eq.trans (congrArg (·.hotAt) hdie) hkept, Eq.trans (congrArg (·.tgtHot) hdie) hcause,
    fun hs hcur => Eq.trans (congrArg (·.thm) hdie) (hthm hs (Ne.symm hcur))⟩

theorem cooled_hotAt (s : State) (d : Nat) : ((s.cooled d).die d).hotAt = none := by
  unfold State.cooled
  split
  case isTrue h => exact Option.isNone_iff_eq_none.mp h
  case isFalse h =>
    have hdie := (HoldSide.unreduce (s.modDie d fun x => { x with hotAt := none }) 3 (s.dieCrews d)).die d
    rw [State.modDie_die, if_pos rfl] at hdie
    exact Eq.trans (congrArg (·.hotAt) hdie) rfl

theorem cooled_thr {s : State} {d : Nat} (h : (s.die d).hotAt.isSome = true) {k : Key} (hk : k ∈ s.dieCrews d) :
    tfind ((s.cooled d).crew k).thr 3 = none := by
  have hcooled : s.cooled d = (s.modDie d fun x => { x with hotAt := none }).unreduce 3 (s.dieCrews d) :=
    if_neg (by simp [Option.isSome_iff_ne_none.mp h])
  rw [hcooled, unreduce_thr, if_pos ⟨hk, rfl⟩]

-- Replays and regulator phases.

theorem shadowReplay_spec (s : State) (core : Nat) : ∃ t, exec (.shadowReplay core) s = .next t ∧
    (t.die (dieOf core)).replays = (s.die (dieOf core)).replays + 1 ∧
    (∀ p, isReeveCore core = false → s.runnerOf core = some p → tget (t.polder p).rel 0 4 = tget (s.polder p).rel 0 4 + 1) ∧
    t.mem = s.mem ∧ t.waves = s.waves ∧ t.crews = s.crews := by
  let s1 := s.modDie (dieOf core) fun x => { x with replays := x.replays + 1 }
  have hs1 : (s1.die (dieOf core)).replays = (s.die (dieOf core)).replays + 1 := by rw [State.modDie_die, if_pos rfl]
  cases hrun : (if isReeveCore core then none else s.runnerOf core) with
  | none =>
    have hexec : exec (.shadowReplay core) s = .next s1 := by
      show execShadowReplay core s = _
      unfold execShadowReplay
      rw [hrun]
    refine ⟨s1, hexec, hs1, fun p hreeve hp => ?_, rfl, rfl, rfl⟩
    rw [hreeve, if_neg Bool.false_ne_true, hp] at hrun
    cases hrun
  | some q =>
    have hexec : exec (.shadowReplay core) s = .next (s1.relCount q 4 1) := by
      show execShadowReplay core s = _
      unfold execShadowReplay
      rw [hrun]
    refine ⟨s1.relCount q 4 1, hexec, hs1, fun p hreeve hp => ?_, rfl, rfl, rfl⟩
    rw [hreeve, if_neg Bool.false_ne_true, hp] at hrun
    cases hrun
    rw [State.relCount, State.modPolder_polder, if_pos rfl]
    exact tget_tset_same _ _ _ _

/-- A spare phase of a rail has come to a step (R406). -/
def State.phaseAt (s : State) (rail n : Nat) : State := s.modPkg fun p => { p with phaseStep := tset p.phaseStep rail n }

/-- A spare phase of a rail is in. -/
def State.phaseIn (s : State) (rail : Nat) : State :=
  s.modPkg fun p => { p with phases := tset p.phases rail (tget p.phases 0 rail + 1), phaseStep := tdel p.phaseStep rail }

theorem regulator_body {s : State} {rail : Nat} (h : rail < 16) : exec (.regulatorPhaseSpare rail) s = .next (
    match tfind s.pkg.phaseStep rail with
    | none => (s.phaseAt rail 1).reduce 2 ((s.dieCrews (rail / 4)).filter s.borrows)
    | some 1 => (s.phaseAt rail 2).reduce 2 ((s.dieCrews (rail / 4)).filter fun k => !s.borrows k)
    | some _ => if (s.phaseIn rail).powerFits then (s.phaseIn rail).unreduce 2 ((s.phaseIn rail).unphased (s.dieCrews (rail / 4))) else s.phaseIn rail) := by
  show execRegulatorPhaseSpare rail s = _
  unfold execRegulatorPhaseSpare
  dsimp only
  exact congrArg Host.Outcome.next (if_neg (Nat.not_le.mpr h))

theorem dieOf_dieCrews {s : State} {d : Nat} (hd : d < 4) {k : Key} (hk : k ∈ s.dieCrews d) : dieOf (coreOfCrew k) = d := by
  obtain ⟨n, hn, hk⟩ := List.mem_flatMap.mp hk
  obtain ⟨i, hi, rfl⟩ := List.mem_map.mp hn
  obtain ⟨j, hj, rfl⟩ := List.mem_map.mp (List.mem_filter.mp hk).1
  have hi := List.mem_range.mp hi
  have hj := List.mem_range.mp hj
  show (if ((d * 63 + i) * 16 + j) / 16 < 252 then ((d * 63 + i) * 16 + j) / 16 / 63 else ((d * 63 + i) * 16 + j) / 16 - 252) = d
  rw [if_pos (by omega)]
  omega

theorem regulator_hold (s : State) (rail n : Nat) (ks : List Key) :
    tfind ((s.phaseAt rail n).reduce 2 ks).pkg.phaseStep rail = some n ∧
    tget ((s.phaseAt rail n).reduce 2 ks).pkg.phases 0 rail = tget s.pkg.phases 0 rail ∧
    ∀ k ∈ ks, (tfind (((s.phaseAt rail n).reduce 2 ks).crew k).thr 2).isSome = true := by
  have hpkg := (HoldSide.reduce (s.phaseAt rail n) 2 ks).pkg
  have hstep : ((s.phaseAt rail n).reduce 2 ks).pkg.phaseStep = tset s.pkg.phaseStep rail n := Eq.trans (congrArg (·.phaseStep) hpkg) rfl
  have hin : ((s.phaseAt rail n).reduce 2 ks).pkg.phases = s.pkg.phases := Eq.trans (congrArg (·.phases) hpkg) rfl
  refine ⟨?_, by rw [hin], fun k hk => ?_⟩
  · rw [hstep, tfind_tset, if_pos rfl]
  · rw [reduce_thr, if_pos ⟨hk, rfl⟩]

/-- The state of the third step of a spare phase. -/
def State.phaseEnds (s : State) (rail : Nat) : State :=
  if (s.phaseIn rail).powerFits then (s.phaseIn rail).unreduce 2 ((s.phaseIn rail).unphased (s.dieCrews (rail / 4))) else s.phaseIn rail

theorem phaseEnds_holds (s : State) (rail : Nat) : HoldSide (s.phaseIn rail) (s.phaseEnds rail) :=
  HoldSide.ite (HoldSide.unreduce _ 2 _) (HoldSide.refl _)

theorem phaseEnds_step (s : State) (rail : Nat) : (s.phaseEnds rail).pkg.phaseStep = tdel s.pkg.phaseStep rail ∧
    (s.phaseEnds rail).pkg.phases = tset s.pkg.phases rail (tget s.pkg.phases 0 rail + 1) := by
  obtain ⟨hstep, hin⟩ := (phaseEnds_holds s rail).phases
  exact ⟨hstep, hin⟩

theorem phaseIn_powerFits (s : State) (rail : Nat) : (s.phaseIn rail).powerFits = s.powerFits := rfl

theorem phaseIn_held (s : State) (rail d : Nat) : (s.phaseIn rail).phaseHeld d = (s.phaseEnds rail).phaseHeld d := by
  unfold State.phaseHeld
  rw [(phaseEnds_step s rail).1]
  rfl

theorem phaseEnds_thr {s : State} {rail : Nat} (hrail : rail < 16) (hfits : s.powerFits = true)
    (hfree : (s.phaseEnds rail).phaseHeld (rail / 4) = false) {k : Key} (hk : k ∈ s.dieCrews (rail / 4)) :
    tfind ((s.phaseEnds rail).crew k).thr 2 = none := by
  have hdie := dieOf_dieCrews (Nat.div_lt_of_lt_mul (by omega)) hk
  have hmem : k ∈ (s.phaseIn rail).unphased (s.dieCrews (rail / 4)) :=
    List.mem_filter.mpr ⟨hk, by rw [hdie, phaseIn_held, hfree]; rfl⟩
  rw [State.phaseEnds, phaseIn_powerFits, if_pos hfits, unreduce_thr, if_pos ⟨hmem, rfl⟩]

theorem regulator_spec (s : State) (rail : Nat) (hrail : rail < 16) : ∃ t, exec (.regulatorPhaseSpare rail) s = .next t ∧
    let ks := s.dieCrews (rail / 4)
    let at' (u : State) : Option Nat := tfind u.pkg.phaseStep rail
    let in' (u : State) : Nat := tget u.pkg.phases 0 rail
    (at' s = none → at' t = some 1 ∧ in' t = in' s ∧ ∀ k ∈ ks, s.borrows k = true → (tfind (t.crew k).thr 2).isSome = true) ∧
    (at' s = some 1 → at' t = some 2 ∧ in' t = in' s ∧ ∀ k ∈ ks, s.borrows k = false → (tfind (t.crew k).thr 2).isSome = true) ∧
    (at' s ≠ none → at' s ≠ some 1 → at' t = none ∧ in' t = in' s + 1 ∧
      (s.powerFits = true → t.phaseHeld (rail / 4) = false → ∀ k ∈ ks, tfind (t.crew k).thr 2 = none)) := by
  have hbody := regulator_body (s := s) hrail
  cases hat : tfind s.pkg.phaseStep rail with
  | none =>
    rw [hat] at hbody
    obtain ⟨hstep, hin, hthr⟩ := regulator_hold s rail 1 ((s.dieCrews (rail / 4)).filter s.borrows)
    refine ⟨_, hbody, fun _ => ⟨hstep, hin, fun k hk hb => hthr k (List.mem_filter.mpr ⟨hk, hb⟩)⟩, fun h => ?_, fun h => ?_⟩
    · exact absurd (hat.symm.trans h) (by simp)
    · exact absurd hat h
  | some n =>
    by_cases hn : n = 1
    · subst hn
      rw [hat] at hbody
      obtain ⟨hstep, hin, hthr⟩ := regulator_hold s rail 2 ((s.dieCrews (rail / 4)).filter fun k => !s.borrows k)
      refine ⟨_, hbody, fun h => ?_, fun _ => ⟨hstep, hin, fun k hk hb => hthr k (List.mem_filter.mpr ⟨hk, by rw [hb]; rfl⟩)⟩, fun _ h => ?_⟩
      · exact absurd (hat.symm.trans h) (by simp)
      · exact absurd hat h
    · have hexec : exec (.regulatorPhaseSpare rail) s = .next (s.phaseEnds rail) := by
        rw [hbody, hat]
        match n, hn with
        | 0, _ => rfl
        | n + 2, _ => rfl
      obtain ⟨hstep, hin⟩ := phaseEnds_step s rail
      refine ⟨_, hexec, fun h => ?_, fun h => ?_, fun _ _ => ⟨?_, ?_, fun hfits hfree k hk => phaseEnds_thr hrail hfits hfree hk⟩⟩
      · exact absurd (hat.symm.trans h) (by simp)
      · exact absurd (Option.some.inj (hat.symm.trans h)) hn
      · show tfind (s.phaseEnds rail).pkg.phaseStep rail = none
        rw [hstep, tfind_tdel, if_pos rfl]
      · show tget (s.phaseEnds rail).pkg.phases 0 rail = _
        rw [hin]
        exact tget_tset_same _ _ _ _

theorem freeboardClose_spec {s : State} {core : Nat} (hcore : core < 252) (hreft : s.reft % 10000 = 0)
    (hopen : (s.core core).island.closedAt ≠ some s.reft) :
    let i := (s.core core).island
    ∃ t, exec (.freeboardWindowClose core) s = .next t ∧
      t = s.modCore core (fun y => { y with island := (t.core core).island }) ∧
      let u := (t.core core).island
      u.closedAt = some s.reft ∧ u.wn = 0 ∧ u.wo = 0 ∧ u.mode = i.mode ∧ u.force = i.force ∧
      ((s.die (dieOf core)).rel = true → u.wovt = 0 ∧ u.watt = 0 ∧ u.cred = i.cred ∧ u.vset = i.vset) ∧
      ((s.die (dieOf core)).rel = false → u.wovt = min i.wo 0xFFFF ∧ u.watt = min i.wn 0xFFFF ∧
        (s.fbTarget core = 0 → u.cred = 0 ∧ u.vset = i.vset) ∧
        (s.fbTarget core ≠ 0 → s.islandMode core = .guarded → u.cred = i.cred ∧ u.vset = i.vset) ∧
        (s.fbTarget core ≠ 0 → s.islandMode core = .over →
          let o := i.wo * 2 ^ 20
          let c := i.cred + s.fbTarget core * i.wn
          (c < o → u.cred = 0 ∧ u.vset = min (s.vsetOf core + 5) (s.vgNow core)) ∧
          (o ≤ c → c - o < 2 ^ 21 → u.cred = c - o ∧ u.vset = s.vsetOf core) ∧
          (o ≤ c → 2 ^ 21 ≤ c - o → s.vfNow core + 5 ≤ s.vsetOf core → u.cred = 0 ∧ u.vset = s.vsetOf core - 5) ∧
          (o ≤ c → 2 ^ 21 ≤ c - o → s.vsetOf core < s.vfNow core + 5 → u.cred = 2 ^ 21 ∧ u.vset = s.vsetOf core))) := by
  intro i
  have hisl : ((s.modCore core fun y => { y with island := s.nextIsland core }).core core).island = s.nextIsland core := by
    rw [core_modCore]
  obtain ⟨hclosed, hwn, hwo, hmode, hforce⟩ := nextIsland_frame s core
  refine ⟨_, freeboardClose_exec hcore hreft hopen, by rw [hisl], ?_⟩
  rw [hisl]
  refine ⟨hclosed, hwn, hwo, hmode, hforce, fun hrel => ?_, fun hrel => ?_⟩
  · rw [nextIsland_relock hrel]
    exact ⟨rfl, rfl, rfl, rfl⟩
  · obtain ⟨hovt, hatt⟩ := nextIsland_counts hrel
    refine ⟨hovt, hatt, fun ht => ?_, fun ht hm => ?_, fun ht hm => ?_⟩
    · rw [nextIsland_untargeted hrel ht]
      exact ⟨rfl, rfl⟩
    · rw [nextIsland_targeted hrel ht, hm]
      exact ⟨rfl, rfl⟩
    · obtain ⟨hraise, hspend, hlower, hhold⟩ :=
        closeWindow_cases (s.fbTarget core) i.wn i.wo i.cred (s.vsetOf core) (s.vgNow core) (s.vfNow core)
      rw [nextIsland_targeted hrel ht, hm]
      intro o c
      refine ⟨fun h => ?_, fun h h1 => ?_, fun h h1 h2 => ?_, fun h h1 h2 => ?_⟩
      · rw [hraise h]
        exact ⟨rfl, rfl⟩
      · rw [hspend h h1]
        exact ⟨rfl, rfl⟩
      · rw [hlower h h1 h2]
        exact ⟨rfl, rfl⟩
      · rw [hhold h h1 h2]
        exact ⟨rfl, rfl⟩

/-- Settles O57: windows, islands, clocks and phases by what each step writes; the holds that go with them change nothing else. -/
theorem islandsAndClocks : Obligations.IslandsAndClocks := by
  unfold Obligations.IslandsAndClocks
  refine ⟨fun s core => freeboardClose_spec, ?_, ?_, ?_, ?_, shadowReplay_spec, regulator_spec⟩
  · intro s core i
    refine ⟨islandOff_goes, islandOff_stays, fun hmode hcrew hissued => ?_, fun b hcore => islandForce_spec s core b hcore⟩
    exact ⟨_, { i.clean with mode := if s.holdWanted core then .guarded else .over }, islandPowerUp_goes hmode hcrew hissued, rfl,
      rfl, rfl, rfl, rfl, rfl, rfl, rfl, rfl⟩
  · intro s d tgt m
    obtain ⟨htgt, hcur, -, -, hbusy, hthm, hdown⟩ := writeTgt_die s d tgt.toNat false
    obtain ⟨hlow, hhigh⟩ := tgtCode_bounds tgt.toNat
    refine ⟨dclkTgt_equal, _, rfl, htgt, by rw [htgt]; exact hlow, by rw [htgt]; exact hhigh, hcur, hbusy, fun hs hlt => ?_⟩
    obtain ⟨hrel, hstep⟩ := hdown hs hlt
    exact ⟨hrel, hstep, hthm hs (Nat.ne_of_lt hlt)⟩
  · intro s d m
    refine ⟨fun hrise => ?_, relockDone_spec⟩
    have hdie := beginRelock_die s d m
    exact ⟨_, voltageRiseDone_relocks hrise, congrArg (·.rel) hdie, congrArg (·.stepping) hdie, congrArg (·.relockAt) hdie,
      fun n hn => beginRelock_islands s d m hn⟩
  · intro s d
    exact ⟨thermalTrip_first, fun h => thermalTrip_again, cooled_hotAt s d, fun hhot k hk => cooled_thr hhot hk⟩

end Sys2Proof.Machine
end


section
/-! O58, data errors, checkpoints, aborts, restarts and wear. -/

namespace Sys2Proof.Machine

-- Lines that are lost.

theorem memLoss_pkg (s : State) (w line : Nat) : (s.memLoss w line).pkg = s.pkg := by
  unfold State.memLoss
  split
  · rfl
  · rw [floodgate_frame]

theorem memLoss_mem (s : State) (w line : Nat) : (s.memLoss w line).mem = s.mem := by
  unfold State.memLoss
  split
  · rfl
  · rw [floodgate_frame]

theorem memLoss_dcache (s : State) (w line cl : Nat) : (s.memLoss w line).dcache cl = s.dcache cl := by
  rw [State.dcache, memLoss_pkg]
  rfl

theorem setDcache_dcache (s : State) (cl : Nat) (t : Tab CByte) (c : Nat) : (s.setDcache cl t).dcache c = if c = cl then t else s.dcache c :=
  tget_tset _ _ _ _ _

theorem discardLine_dcache (s : State) (cl line c : Nat) :
    (s.discardLine cl line).dcache c = if c = cl then (s.dcache cl).filter fun e => e.1 / 128 != line else s.dcache c :=
  setDcache_dcache s cl _ c

theorem loseLine_dcache (s : State) (cl line c : Nat) :
    (s.loseLine cl line).dcache c = if c = cl then (s.dcache cl).filter fun e => e.1 / 128 != line else s.dcache c := by
  rw [State.loseLine, memLoss_dcache, discardLine_dcache]

theorem loseLine_mem (s : State) (cl line : Nat) : (s.loseLine cl line).mem = s.mem := memLoss_mem _ _ _

theorem loseLine_l2 (s : State) (cl line : Nat) : (s.loseLine cl line).pkg.l2 = s.pkg.l2 :=
  (congrArg Pkg.l2 (memLoss_pkg _ _ _)).trans rfl

theorem foldl_loseLine (line : Nat) (cls : List Nat) (s : State) :
    (cls.foldl (fun s cl => s.loseLine cl line) s).mem = s.mem ∧ (cls.foldl (fun s cl => s.loseLine cl line) s).pkg.l2 = s.pkg.l2 ∧
    ∀ c, (cls.foldl (fun s cl => s.loseLine cl line) s).dcache c =
      if c ∈ cls then (s.dcache c).filter fun e => e.1 / 128 != line else s.dcache c := by
  induction cls generalizing s with
  | nil => exact ⟨rfl, rfl, fun c => by simp⟩
  | cons cl cls ih =>
    obtain ⟨hmem, hl2, hdcache⟩ := ih (s.loseLine cl line)
    refine ⟨hmem.trans (loseLine_mem s cl line), hl2.trans (loseLine_l2 s cl line), fun c => ?_⟩
    rw [List.foldl_cons, hdcache, loseLine_dcache]
    by_cases hc : c = cl
    · subst hc
      simp [List.filter_filter]
    · simp [hc]

theorem l2Discard_dcache (s : State) (line cl : Nat) : (s.l2Discard line).dcache cl = s.dcache cl := by
  unfold State.l2Discard
  split
  · rfl
  · dsimp only
    split <;> rfl

theorem l2Lose_dcache (s : State) (line cl : Nat) : (s.l2Lose line).dcache cl = s.dcache cl := by
  rw [State.l2Lose, memLoss_dcache, l2Discard_dcache]

theorem l2Lose_restores {s : State} {line n : Nat} {x : L2Line} {bs : List Byte} (h : s.l2At line = some (n, x)) (hold : x.old = some bs)
    (hm : memWf s.mem = true) (hlen : bs.length = 128) {i : Nat} (hi : i < 128) : (s.l2Lose line).homeByte (128 * line + i) = bs.getD i 0 := by
  have hmem : (s.l2Lose line).mem = ((s.l2Remove n line).pokeBytes (line * 128) bs).mem := by
    rw [State.l2Lose, memLoss_mem, State.l2Discard, h]
    dsimp only
    rw [hold]
  rw [State.homeByte, hmem]
  refine (pokeBytes_homeByte (s.l2Remove n line) (line * 128) bs hm (128 * line + i)).trans ?_
  rw [if_pos (by omega), List.getD_eq_getElem?_getD]
  congr 2
  omega

theorem dropFold_dcache (line : Nat) {cls : List Nat} (hnodup : cls.Nodup) (s : State) (c : Nat) :
    (cls.foldl (fun s cl => s.dropClean cl fun a => a / 128 == line) s).dcache c =
      if c ∈ cls then (s.dcache c).filter fun e => e.2.dirty || !(e.1 / 128 == line) else s.dcache c := by
  induction cls generalizing s with
  | nil => simp
  | cons cl cls ih =>
    obtain ⟨hcl, hrest⟩ := List.nodup_cons.mp hnodup
    rw [List.foldl_cons, ih hrest, State.dropClean, setDcache_dcache]
    by_cases hc : c = cl
    · subst hc
      simp [hcl]
    · simp [hc]

theorem dropFold_mem (line : Nat) (cls : List Nat) (s : State) :
    (cls.foldl (fun s cl => s.dropClean cl fun a => a / 128 == line) s).mem = s.mem := by
  induction cls generalizing s with
  | nil => rfl
  | cons cl cls ih => exact ih _

/-- Counting a line that was corrected or fetched again changes neither memory nor a cache. -/
theorem countLine_frame (s : State) (line i : Nat) : s.countLine line i = { s with polders := (s.countLine line i).polders } := by
  unfold State.countLine
  split <;> rfl

theorem l2Refetch_frame (s : State) (line : Nat) : s.l2Refetch line = { s with pkg := { s.pkg with l2 := (s.l2Refetch line).pkg.l2 } } := by
  unfold State.l2Refetch
  split
  · split <;> rfl
  · rfl

theorem dataError_clean (s : State) (addr : Nat) : ∃ t, exec (.dataErrorDetect 0 addr) s = .next t ∧ t.mem = s.mem ∧
    ∀ cl, cl < 32 → ∀ e, e ∈ t.dcache cl ↔ e ∈ s.dcache cl ∧ (e.2.dirty = true ∨ e.1 / 128 ≠ addr / 128) := by
  let s1 := (List.range 32).foldl (fun s cl => s.dropClean cl fun a => a / 128 == addr / 128) s
  have hmem : ((s1.l2Refetch (addr / 128)).countLine (addr / 128) 5).mem = s1.mem := by
    rw [countLine_frame, l2Refetch_frame]
  have hpkg : ((s1.l2Refetch (addr / 128)).countLine (addr / 128) 5).pkg.dcache = s1.pkg.dcache := by
    rw [countLine_frame, l2Refetch_frame]
  refine ⟨(s1.l2Refetch (addr / 128)).countLine (addr / 128) 5, rfl, hmem.trans (dropFold_mem _ _ s), fun cl hcl e => ?_⟩
  rw [State.dcache, hpkg]
  show e ∈ s1.dcache cl ↔ _
  rw [dropFold_dcache _ List.nodup_range, if_pos (List.mem_range.mpr hcl), List.mem_filter]
  simp

theorem dataError_dirty (s : State) (addr : Nat) : ∃ t, exec (.dataErrorDetect 2 addr) s = .next t ∧
    (s.dirtyL2 (addr / 128) = false → t.mem = s.mem) ∧
    (∀ n x bs, s.l2At (addr / 128) = some (n, x) → x.old = some bs → memWf s.mem = true → bs.length = 128 →
      ∀ i, i < 128 → t.homeByte (128 * (addr / 128) + i) = bs.getD i 0) ∧
    ∀ cl, cl < 32 → ∀ e ∈ t.dcache cl, e.1 / 128 = addr / 128 → e.2.dirty = false := by
  have hexec : exec (.dataErrorDetect 2 addr) s = .next
      (if s.dirtyL2 (addr / 128) then ((s.dirtyClusters (addr / 128)).foldl (fun s cl => s.loseLine cl (addr / 128)) s).l2Lose (addr / 128)
       else (s.dirtyClusters (addr / 128)).foldl (fun s cl => s.loseLine cl (addr / 128)) s) := rfl
  generalize addr / 128 = line at hexec
  let s1 := (s.dirtyClusters line).foldl (fun s cl => s.loseLine cl line) s
  obtain ⟨hmem, hl2, hdcache⟩ := foldl_loseLine line (s.dirtyClusters line) s
  have hl2At : s1.l2At line = s.l2At line := by
    rw [State.l2At, hl2]
    rfl
  refine ⟨_, hexec, fun hclean => ?_, fun n x bs hat hold hm hlen i hi => ?_, fun cl hcl e he hline => ?_⟩
  · rw [if_neg (Bool.eq_false_iff.mp hclean)]
    exact hmem
  · have hdirty : s.dirtyL2 line = true := by
      rw [State.dirtyL2, hat]
      simp [hold]
    rw [if_pos hdirty]
    exact l2Lose_restores (hl2At.trans hat) hold (by rw [hmem]; exact hm) hlen hi
  · have he1 : e ∈ s1.dcache cl := by
      split at he
      · rw [l2Lose_dcache] at he
        exact he
      · exact he
    rw [hdcache] at he1
    by_cases hin : cl ∈ s.dirtyClusters line
    · rw [if_pos hin] at he1
      have hne := (List.mem_filter.mp he1).2
      simp [hline] at hne
    · rw [if_neg hin] at he1
      have hclean : s.dirtyIn cl line = false := Bool.eq_false_iff.mpr fun h => hin (List.mem_filter.mpr ⟨List.mem_range.mpr hcl, h⟩)
      have hno := List.any_eq_false.mp hclean e he1
      simpa [hline] using hno

theorem dataError_memory (s : State) (addr : Nat) : ∃ t, exec (.dataErrorDetect 4 addr) s = .next t ∧ addr / 128 ∈ t.pkg.eccBad ∧
    t.mem = s.mem ∧ t.waves = s.waves := ⟨_, rfl, List.mem_cons_self, rfl, rfl⟩

-- Scrubs.

theorem cacheScrub_clean {s : State} {cl line : Nat} (hcl : cl < 32) (h : (cl, line) ∉ s.pkg.lineBad) :
    exec (.cacheScrub cl line) s = .next s :=
  congrArg Host.Outcome.next ((if_pos hcl).trans (if_neg (by simpa using h)))

theorem cacheScrub_l2 {s : State} {n line : Nat} {x : L2Line} (hn : n < 64) (h : s.l2At line = some (n, x)) (hbad : x.bad = true) :
    exec (.cacheScrub (32 + n) line) s = .next (s.l2Lose line) :=
  congrArg Host.Outcome.next (((if_neg (by omega)).trans (if_pos (by omega))).trans (if_pos (by rw [h]; simp [hbad])))

theorem cacheScrub_memory (s : State) (line : Nat) : exec (.cacheScrub 96 line) s = .next
    (if line ∈ s.pkg.eccBad then s.modPkg fun p => { p with scrubBad := p.scrubBad + 1 } else s) := by
  have hscrub : exec (.cacheScrub 96 line) s = .next
      (if 96 = 96 && s.pkg.eccBad.contains line then s.modPkg fun p => { p with scrubBad := p.scrubBad + 1 } else s) := rfl
  rw [hscrub]
  simp

/-- The record of a line whose data were lost (R384). -/
def lossRec (w line : Nat) : StopRec :=
  { cls := some .eccfatal, eng := .mem, key := line, atc := true, handle := ctxHandle w, det := BitVec.ofNat 64 (line * 128 % 2 ^ 52) }

theorem memLoss_ctx {s : State} {w : Nat} (h : w ≠ fwCtx) (line : Nat) :
    ((s.memLoss w line).ctx w).up = true ∧ ∃ r ∈ ((s.memLoss w line).ctx w).recs,
      r.cls = some .eccfatal ∧ r.eng = .mem ∧ r.atc = true ∧ r.det = BitVec.ofNat 64 (line * 128 % 2 ^ 52) := by
  have hctx : (s.memLoss w line).ctx w = (s.ctx w).stoppedBy (s.recTaken w (lossRec w line)) := by
    rw [State.memLoss, if_neg h]
    exact (floodgate_ctx s w (lossRec w line) w).trans (if_pos rfl)
  rw [hctx]
  exact ⟨rfl, _, List.mem_append_right _ (List.mem_singleton_self _), rfl, rfl, rfl, rfl⟩

theorem cacheScrub_lost {s : State} {cl line : Nat} (hcl : cl < 32) (h : (cl, line) ∈ s.pkg.lineBad) :
    ∃ t, exec (.cacheScrub cl line) s = .next t ∧ t.mem = s.mem ∧ (cl, line) ∉ t.pkg.lineBad ∧ (∀ e ∈ t.dcache cl, e.1 / 128 ≠ line) ∧
      ∀ e, (s.dcache cl).find? (fun e => e.1 / 128 == line && e.2.dirty) = some e → e.2.writer ≠ fwCtx →
        (t.ctx e.2.writer).up = true ∧ ∃ r ∈ (t.ctx e.2.writer).recs,
          r.cls = some .eccfatal ∧ r.eng = .mem ∧ r.atc = true ∧ r.det = BitVec.ofNat 64 (line * 128 % 2 ^ 52) := by
  have hexec : exec (.cacheScrub cl line) s = .next (s.loseLine cl line) :=
    congrArg Host.Outcome.next ((if_pos hcl).trans (if_pos (by simpa using h)))
  refine ⟨_, hexec, loseLine_mem s cl line, ?_, fun e he => ?_, fun e he hw => ?_⟩
  · rw [State.loseLine, memLoss_pkg]
    show (cl, line) ∉ s.pkg.lineBad.filter (· ≠ (cl, line))
    simp
  · rw [loseLine_dcache, if_pos rfl] at he
    simpa using (List.mem_filter.mp he).2
  · rw [State.loseLine, he]
    exact memLoss_ctx hw line

-- Checkpoints.

theorem checkpointTimer_early {s : State} {c : Nat} (h : s.reft < (s.ctx c).ckptAt + 1000 * bits (s.ctxWord c 2) 63 32) :
    exec (.checkpointTimer c) s = .next s := congrArg Host.Outcome.next (if_pos (by simp [h]))

theorem checkpointTimer_due {s : State} {c : Nat} (hvalid : s.ctxValid c = true) (hcken : (s.ctxWord c 0).getLsbD 61 = true)
    (hdue : (s.ctx c).ckptAt + 1000 * bits (s.ctxWord c 2) 63 32 ≤ s.reft) :
    ∃ t, exec (.checkpointTimer c) s = .next t ∧ (t.ctx c).ckptAt = s.reft ∧ t.mem = s.mem ∧ t.waves = s.waves ∧
      ∃ e ∈ (t.die (s.homeDie c)).evq, e.kind = 0x07 ∧ e.handle = ctxHandle c := by
  have hexec : exec (.checkpointTimer c) s = .next ((s.event (s.homeDie c) 0x07 (ctxHandle c) 0).modCtx c fun x => { x with ckptAt := s.reft }) :=
    congrArg Host.Outcome.next (if_neg (by simp [hvalid, hcken, hdue]))
  refine ⟨_, hexec, ?_, rfl, rfl, event_queued s (s.homeDie c) 0x07 (ctxHandle c) 0 0⟩
  rw [State.modCtx_ctx, if_pos rfl]

theorem undoLogForced_body (s : State) (c : Nat) : exec (.undoLogForcedCkpt c) s = .next
    (if (s.ctx c).up || !(s.ctx c).logging || (s.undoLog c).2 = 0 || decide (8 * (s.ctx c).undoFill < 7 * (s.undoLog c).2) then s
    else match s.checkpoint c with
      | none => s
      | some (s1, _) => s1.event (s1.homeDie c) 0x06 (ctxHandle c) (BitVec.ofNat 64 (s.ctx c).undoFill)) := rfl

theorem undoLogForced_early {s : State} {c : Nat} (h : 8 * (s.ctx c).undoFill < 7 * (s.undoLog c).2) :
    exec (.undoLogForcedCkpt c) s = .next s := by
  rw [undoLogForced_body]
  exact congrArg Host.Outcome.next (if_pos (by simp [h]))

theorem undoLogForced_due {s s1 : State} {c st : Nat} (hup : (s.ctx c).up = false) (hlog : (s.ctx c).logging = true) (hlen : (s.undoLog c).2 ≠ 0)
    (hdue : 7 * (s.undoLog c).2 ≤ 8 * (s.ctx c).undoFill) (hck : s.checkpoint c = some (s1, st)) :
    exec (.undoLogForcedCkpt c) s = .next (s1.event (s1.homeDie c) 0x06 (ctxHandle c) (BitVec.ofNat 64 (s.ctx c).undoFill)) := by
  rw [undoLogForced_body, hck]
  exact congrArg Host.Outcome.next (if_neg (by simp [hup, hlog, hlen, hdue]))

theorem undoLogFull_room {s : State} {c : Nat} (h : (s.ctx c).undoFill + 136 ≤ (s.undoLog c).2) : exec (.undoLogFull c) s = .next s :=
  congrArg Host.Outcome.next (if_neg (by simp [h]))

theorem undoLogFull_drops {s : State} {c : Nat} (hlog : (s.ctx c).logging = true) (h : (s.undoLog c).2 < (s.ctx c).undoFill + 136) :
    exec (.undoLogFull c) s = .next (s.dropCheckpoint c) := congrArg Host.Outcome.next (if_pos (by simp [hlog, h]))

theorem dropCheckpoint_logging (s : State) (c : Nat) : ((s.dropCheckpoint c).ctx c).logging = false := by
  rw [State.dropCheckpoint, State.modCtx_ctx, if_pos rfl]

-- Aborts.

theorem contextAbort_waits {s : State} {c : Nat} (h : s.ctxCrews c ≠ [] ∨ s.relocking = true) : exec (.contextAbort c) s = .next s := by
  refine congrArg Host.Outcome.next (if_neg ?_)
  obtain h | h := h <;> simp [h]

theorem contextAbort_goes {s : State} {c : Nat} (hcrews : s.ctxCrews c = []) (hrel : s.relocking = false) :
    exec (.contextAbort c) s = .next (s.abortCtx c) := congrArg Host.Outcome.next (if_pos (by simp [hcrews, hrel]))

theorem MemSide.launches {s t : State} (h : MemSide s t) : t.launches = s.launches := by rw [h.frame]

theorem MemSide.saved {s t : State} (h : MemSide s t) : t.saved = s.saved := by rw [h.frame]

theorem MemSide.abortRecords (s : State) (q : Nat) : MemSide s (s.abortRecords q) := by
  unfold State.abortRecords
  extract_lets c n one s1
  refine (MemSide.foldl (f := one) (fun t i => ?_) (List.range n) s).trans (MemSide.poke64 s1 _ _)
  dsimp only [one]
  split
  case h_1 t1 pa _ htr =>
    have hslot : MemSide t t1 := MemSide.translate (MemSide.of_ite_ne htr (by simp))
    exact MemSide.ite (MemSide.event t _ _ _ _ _) ((hslot.trans (MemSide.chargeHome t1 _ _ _)).trans (MemSide.writeStatus _ _ _ _ _ _))
  all_goals exact MemSide.event t _ _ _ _ _

theorem MemSide.setQueueWord (s : State) (q n : Nat) (v : Dword) : MemSide s (s.setQueueWord q n v) := MemSide.poke64 s _ _

theorem MemSide.dropInj (s : State) (c : Nat) : MemSide s (s.dropInj c) := ⟨rfl, id⟩

/-- The state of an abort whose queues and launches have been told, and are still listed. -/
def State.abortTold (s : State) (c : Nat) : State :=
  let qs := s.ctxQueues c
  let s2 := qs.foldl (fun s q => s.setQueueWord q 0 (putBits (s.queueWord q 0) 63 63 0)) (qs.foldl State.abortRecords s)
  (s2.launches.filter fun l => l.ctx == c).foldl (fun s l => s.writeStatus l.queue l.idx c (recDone l.lrec) 4) s2

theorem abortTold_side (s : State) (c : Nat) : MemSide s (s.abortTold c) :=
  ((MemSide.foldl MemSide.abortRecords _ s).trans (MemSide.foldl (fun s q => MemSide.setQueueWord s q 0 _) _ _)).trans
    (MemSide.foldl (fun s _ => MemSide.writeStatus s _ _ _ _ _) _ _)

/-- No launch of a context is listed, and no crew of it is set aside. -/
def State.strikeCtx (s : State) (c : Nat) : State :=
  { s with launches := s.launches.filter (fun l => l.ctx != c), saved := s.saved.filter fun (e : SavedCrew) => e.ctx != c }

theorem strikeCtx_launches (s : State) (c : Nat) : ∀ l ∈ (s.strikeCtx c).launches, l.ctx ≠ c := by
  intro l hl
  simpa using (List.mem_filter.mp hl).2

theorem strikeCtx_saved (s : State) (c : Nat) : ∀ e ∈ (s.strikeCtx c).saved, e.ctx ≠ c := by
  intro e he
  simpa using (List.mem_filter.mp he).2

theorem strikeCtx_waves (s : State) (c : Nat) : (s.strikeCtx c).waves = s.waves ∧ (s.strikeCtx c).crews = s.crews := ⟨rfl, rfl⟩

/-- A context of which nothing is left. -/
def Ctx.aborted (x : Ctx) : Ctx := { x with up := false, byFlood := false, recs := [], unrep := [], qwait := [], imgs := [], stsSince := true }

theorem abortCtx_eq (s : State) (c : Nat) : s.abortCtx c =
    ((((s.abortTold c).strikeCtx c).forgetMisses c fun _ => true).dropInj c).modCtx c Ctx.aborted := rfl

theorem abortCtx_ctx (s : State) (c : Nat) : ∃ x : Ctx, (s.abortCtx c).ctx c = x.aborted := by
  rw [abortCtx_eq]
  exact ⟨_, (State.modCtx_ctx _ _ _ _).trans (if_pos rfl)⟩

theorem abortCtx_side (s : State) (c : Nat) : MemSide ((s.abortTold c).strikeCtx c) (s.abortCtx c) := by
  rw [abortCtx_eq]
  exact ((MemSide.forgetMisses _ _ _).trans (MemSide.dropInj _ _)).trans (MemSide.modCtx _ _ _)

theorem abortCtx_spec (s : State) (c : Nat) : ((s.abortCtx c).ctx c).up = false ∧ ((s.abortCtx c).ctx c).recs = [] ∧
    ((s.abortCtx c).ctx c).imgs = [] ∧ (∀ l ∈ (s.abortCtx c).launches, l.ctx ≠ c) ∧ (∀ e ∈ (s.abortCtx c).saved, e.ctx ≠ c) ∧
    (s.abortCtx c).waves = s.waves ∧ (s.abortCtx c).crews = s.crews := by
  have hside := abortCtx_side s c
  have htold := abortTold_side s c
  obtain ⟨hwaves, hcrews⟩ := strikeCtx_waves (s.abortTold c) c
  obtain ⟨x, hctx⟩ := abortCtx_ctx s c
  rw [hctx, hside.launches, hside.saved, hside.waves, hside.crews, hwaves, hcrews]
  exact ⟨rfl, rfl, rfl, strikeCtx_launches _ c, strikeCtx_saved _ c, htold.waves, htold.crews⟩

-- Reeve waves.

theorem reeveWaveFault_stopped {s : State} {k : Key} (hstop : (s.wave k).stopped = true) : exec (.reeveWaveFault k) s = .next s :=
  congrArg Host.Outcome.next (if_pos (by simp [hstop]))

theorem reeveWaveFault_held {s : State} {k : Key} (hreeve : isReeveCore (coreOf k) = true) (hstop : (s.wave k).stopped = false)
    {h : HeldAcc} {r : List HeldAcc} {f : FClass} (hheld : (s.wave k).held = h :: r) (hbad : h.bad = some f) :
    exec (.reeveWaveFault k) s = .next (s.raiseWave k f (BitVec.ofNat 64 h.va)) := by
  show execReeveWaveFault k s = _
  unfold execReeveWaveFault
  rw [if_neg (by simp [hreeve, hstop]), hheld]
  have hfault : ((h :: r).head?).bind (·.bad) = some f := hbad
  rw [hfault]
  rfl

theorem mem_reeveWaves {d : Nat} {k : Key} (h : k ∈ reeveWaves d) : coreOf k = reeveCore d := by
  obtain ⟨w, hw, rfl⟩ := List.mem_map.mp h
  have hw := List.mem_range.mp hw
  show (((252 + d) * 16 + w / 32) * 32 + w % 32) / 512 = 252 + d
  omega

theorem restart_wave (s : State) (core : Nat) (k : Key) :
    tget (s.waves.filter fun (e : Nat × Wave) => coreOf e.1 ≠ core) (Wave.fresh k) k = if coreOf k = core then Wave.fresh k else s.wave k := by
  refine (tget_filter s.waves (fun n => decide (coreOf n ≠ core)) (Wave.fresh k) k).trans ?_
  by_cases hk : coreOf k = core <;> simp [hk, State.wave]

/-- The state of a restart of a die's firmware, its event not yet queued. -/
def State.restarted (s : State) (d : Nat) : State :=
  let core := reeveCore d
  let mine (e : EngKind) (n : Nat) : Bool := e == .wave && coreOf n == core
  let s0 := (s.modPkg fun p => { p with peerOps := p.peerOps.filter fun o => !mine o.eng o.key }).releaseLines mine
  { s0 with waves := s0.waves.filter fun (e : Nat × Wave) => coreOf e.1 ≠ core,
            crews := s0.crews.filter fun (e : Nat × Crew) => coreOfCrew e.1 ≠ core, cores := tdel s0.cores core }

theorem firmwareRestart_waits {s : State} {d : Nat} (h : ∃ k ∈ reeveWaves d, (s.wave k).stopped = false) :
    exec (.firmwareRestart d) s = .next s := by
  obtain ⟨k, hk, hrun⟩ := h
  have hall : ((reeveWaves d).all fun k => (s.wave k).stopped) = false := List.all_eq_false.mpr ⟨k, hk, by simp [hrun]⟩
  exact congrArg Host.Outcome.next (if_pos (by simp only [hall, Bool.not_false]))

theorem firmwareRestart_goes {s : State} {d : Nat} (h : ∀ k ∈ reeveWaves d, (s.wave k).stopped = true) :
    exec (.firmwareRestart d) s = .next ((s.restarted d).event d 0x09 0 0) := by
  have hall : ((reeveWaves d).all fun k => (s.wave k).stopped) = true := List.all_eq_true.mpr h
  exact congrArg Host.Outcome.next (if_neg (by simp only [hall, Bool.not_true]; exact Bool.false_ne_true))

theorem restarted_spec (s : State) (d : Nat) : (s.restarted d).mem = s.mem ∧
    ∀ k, (s.restarted d).wave k = if coreOf k = reeveCore d then Wave.fresh k else s.wave k := by
  unfold State.restarted
  extract_lets core mine s0
  have hside : MemSide s s0 := (MemSide.modPkg s _).trans (MemSide.releaseLines _ _)
  have hmem : s0.mem = s.mem := by
    show ((s.modPkg _).releaseLines mine).mem = s.mem
    unfold State.releaseLines
    split <;> rfl
  refine ⟨hmem, fun k => ?_⟩
  rw [← hside.wave k]
  exact restart_wave s0 core k

theorem firmwareRestart_spec (s : State) (d : Nat) (h : ∀ k ∈ reeveWaves d, (s.wave k).stopped = true) :
    ∃ t, exec (.firmwareRestart d) s = .next t ∧ t.mem = s.mem ∧ (∀ k ∈ reeveWaves d, t.wave k = State.reset.wave k) ∧
      (∀ k, coreOf k ≠ reeveCore d → t.wave k = s.wave k) ∧ ∃ e ∈ (t.die d).evq, e.kind = 0x09 := by
  obtain ⟨hmem, hwave⟩ := restarted_spec s d
  have hkept : ∀ k, ((s.restarted d).event d 0x09 0 0).wave k = (s.restarted d).wave k := fun _ => rfl
  refine ⟨_, firmwareRestart_goes h, hmem, fun k hk => ?_, fun k hk => ?_, ?_⟩
  · rw [hkept, hwave, if_pos (mem_reeveWaves hk)]
    rfl
  · rw [hkept, hwave, if_neg hk]
  · obtain ⟨e, he, hkind, -⟩ := event_queued (s.restarted d) d 0x09 0 0 0
    exact ⟨e, he, hkind⟩

-- Ports.

theorem modPort_port (s : State) (n : Nat) (f : Port → Port) (m : Nat) :
    tget (s.modPort n f).pkg.ports {} m = if m = n then f (tget s.pkg.ports {} n) else tget s.pkg.ports {} m := tget_tset _ _ _ _ _

/-- Settles O58: lines that are lost, checkpoints, aborts and restarts by what each step writes, and what it leaves to the frame of its parts. -/
theorem errorsAndRecovery : Obligations.ErrorsAndRecovery := by
  unfold Obligations.ErrorsAndRecovery
  refine ⟨?_, ?_, ?_, ?_, ?_, ?_, ?_⟩
  · intro s addr line
    exact ⟨dataError_clean s addr, dataError_dirty s addr, dataError_memory s addr⟩
  · intro s cl line
    exact ⟨cacheScrub_clean, fun n x => cacheScrub_l2, cacheScrub_memory s line, cacheScrub_lost⟩
  · intro s c period len x
    refine ⟨checkpointTimer_early, checkpointTimer_due, undoLogForced_early, fun s1 st => undoLogForced_due, undoLogFull_room, ?_,
      contextAbort_waits, fun hcrews hrel => ⟨_, contextAbort_goes hcrews hrel, abortCtx_spec s c⟩⟩
    intro hlog hfull
    exact ⟨_, undoLogFull_drops hlog hfull, dropCheckpoint_logging s c, rfl⟩
  · intro s k hreeve
    exact ⟨reeveWaveFault_stopped, fun h r f hstop hheld hbad => reeveWaveFault_held hreeve hstop hheld hbad⟩
  · intro s d _
    exact ⟨firmwareRestart_waits, firmwareRestart_spec s d⟩
  · intro s w0 w1 w2 w3
    exact ⟨fun h => ⟨_, congrArg Host.Outcome.next (if_neg (Nat.not_le.mpr h)), rfl, rfl⟩, fun h => congrArg Host.Outcome.next (if_pos h)⟩
  · intro s n p
    refine ⟨fun h => congrArg Host.Outcome.next (if_pos h), fun h => ?_, ⟨_, rfl, ?_, fun m hm => ?_⟩, ?_⟩
    · have hexec : exec (.laneSpareRetrain n) s = .next (s.modPort n fun x => { x with spared := true, down := true }) :=
        congrArg Host.Outcome.next (if_neg (Bool.eq_false_iff.mp h))
      exact ⟨_, hexec, (modPort_port s n _ n).trans (if_pos rfl)⟩
    · exact (modPort_port s n _ n).trans (if_pos rfl)
    · exact (modPort_port s n _ m).trans (if_neg hm)
    · exact ⟨(modPort_port s n _ n).trans (if_pos rfl), rfl⟩

end Sys2Proof.Machine
end


section
/-! O59. The end of a function-level reset filters the list of memory's cells; the statement asks for the bytes that are read afterwards without
asking that memory is in canonical form, and in a list whose addresses do not rise the cells that are left show others. -/

namespace Sys2Proof.Machine

/-- Polder 0 is valid and owns the 2 MiB from 0x20000000; a cell of that range stands before a cell with a smaller address, which it hides. -/
def hidingCells : List Host.Cell :=
  [(ptBase + 7, 0x80), (ptBase + 67, 0x20), (ptBase + 71, 0x80), (ptBase + 72, 1), (0x20000000, 1), (0x1F000000, 1)]

/-- A booted module with these cells, whose polder 0 has a function-level reset under way. -/
def hidingMemory : State :=
  { State.reset with mem := hidingCells, pkg := { State.reset.pkg with boot := 6, vfs := [0], flr := [0] } }

theorem hidingMemory_range : hidingMemory.inPolder 0 0x20000000 = true ∧ hidingMemory.inPolder 0 0x1F000000 = false := by decide

theorem hidingMemory_hides : hidingMemory.homeByte 0x1F000000 = 0 := rfl

theorem hidingMemory_noCluster : ((List.range 32).filter fun cl =>
    (hidingMemory.ownsCluster 0 cl || (hidingMemory.cluster cl).runner == some 0) && hidingMemory.crewsOfCluster cl = []) = [] := by decide

theorem hidingMemory_ends : exec (.functionLevelReset (0 + 1)) hidingMemory = .next (hidingMemory.flrEnd 0) := rfl

theorem flrEnd_mem (s : State) (p : Nat)
    (h : ((List.range 32).filter fun cl => (s.ownsCluster p cl || (s.cluster cl).runner == some p) && s.crewsOfCluster cl = []) = []) :
    (s.flrEnd p).mem = s.mem.filter fun e => !s.inPolder p e.1 := by
  unfold State.flrEnd
  rw [h]
  rfl

/-- Refutes O59: in `hidingMemory` the byte at 0x1F000000, in no range of polder 0, reads 0 before the function-level reset of polder 0 ends
and 1 after it, since the cell of the polder's range that hid it is gone. -/
theorem not_hostAndFabric : ¬ Obligations.HostAndFabric := by
  unfold Obligations.HostAndFabric
  rintro ⟨-, -, -, -, -, hreset, -⟩
  obtain ⟨t, ht, -, hbytes⟩ := (hreset hidingMemory 0 (by decide) rfl rfl).2 (by decide) rfl
  rw [hidingMemory_ends] at ht
  cases ht
  have hmem := flrEnd_mem hidingMemory 0 hidingMemory_noCluster
  have hkept := hbytes 0x1F000000
  rw [hidingMemory_range.2, if_neg Bool.false_ne_true, hidingMemory_hides, State.homeByte, hmem] at hkept
  revert hkept
  decide

end Sys2Proof.Machine
end


section
/-! O60, boot, reset, life cycle and attestation. -/

namespace Sys2Proof.Machine

-- Memory of which some cells are dropped.

theorem memAbove_filter {a : Nat} {m : List Host.Cell} (p : Nat → Bool) (hm : memWf m = true) (h : memAbove a m) :
    memAbove a (m.filter fun e => p e.1) := by
  induction m with
  | nil => trivial
  | cons e r ih =>
    obtain ⟨b, v⟩ := e
    obtain ⟨-, hr, hwf⟩ := (memWf_cons b v r).mp hm
    by_cases hp : p b = true
    · rw [List.filter_cons_of_pos (by exact hp)]
      exact h
    · rw [List.filter_cons_of_neg (by exact hp)]
      exact ih hwf (memAbove_trans a b r (Nat.le_of_lt h) hr)

/-- Dropping cells keeps the canonical form. -/
theorem memWf_filter {m : List Host.Cell} (p : Nat → Bool) (hm : memWf m = true) : memWf (m.filter fun e => p e.1) = true := by
  induction m with
  | nil => rfl
  | cons e r ih =>
    obtain ⟨b, v⟩ := e
    obtain ⟨hv, hr, hwf⟩ := (memWf_cons b v r).mp hm
    by_cases hp : p b = true
    · rw [List.filter_cons_of_pos (by exact hp)]
      exact (memWf_cons b v _).mpr ⟨hv, memAbove_filter p hwf hr, ih hwf⟩
    · rw [List.filter_cons_of_neg (by exact hp)]
      exact ih hwf

/-- A dropped cell reads as an unlisted one, every other as before. -/
theorem memGet_filter {m : List Host.Cell} (p : Nat → Bool) (hm : memWf m = true) (a : Nat) :
    memGet (m.filter fun e => p e.1) a = if p a then memGet m a else memInit a := by
  induction m with
  | nil => simp [memGet]
  | cons e r ih =>
    obtain ⟨b, v⟩ := e
    obtain ⟨-, hr, hwf⟩ := (memWf_cons b v r).mp hm
    by_cases hp : p b = true
    · rw [List.filter_cons_of_pos (by exact hp)]
      simp only [memGet, ih hwf]
      by_cases hab : a = b
      · subst hab
        rw [if_pos rfl, if_pos rfl, if_pos hp]
      · by_cases hlt : a < b <;> simp [hab, hlt]
    · rw [List.filter_cons_of_neg (by exact hp), ih hwf]
      by_cases hab : a = b
      · subst hab
        rw [if_neg hp, if_neg hp]
      · simp only [memGet, if_neg hab]
        by_cases hlt : a < b
        · rw [if_pos hlt, memGet_above a r (memAbove_trans a b r (Nat.le_of_lt hlt) hr)]
        · rw [if_neg hlt]

-- Boot.

theorem bootUp_homeByte {s : State} (fw reeve : BootImg) (hm : memWf s.mem = true) (a : Nat) :
    (s.bootUp fw reeve).homeByte a = if isExternal a then s.homeByte a else memInit a := memGet_filter isExternal hm a

theorem bootUp_memWf {s : State} (fw reeve : BootImg) (hm : memWf s.mem = true) : memWf (s.bootUp fw reeve).mem = true :=
  memWf_filter isExternal hm

theorem bootUp_total (s : State) (fw reeve : BootImg) (p : Nat) : ((s.bootUp fw reeve).polder p).total = (s.polder p).total :=
  tget_map_keeps s.polders (fun e => (e.1, { total := e.2.total })) (·.total) {} p fun _ => ⟨rfl, rfl⟩

theorem bootUp_die (s : State) (fw reeve : BootImg) {d : Nat} (hd : d < 4) : (s.bootUp fw reeve).die d = s.bootDie d := by
  obtain rfl | rfl | rfl | rfl : d = 0 ∨ d = 1 ∨ d = 2 ∨ d = 3 := by omega
  all_goals rfl

/-- Both images are accepted by boot step 2 (R415, R417). -/
theorem imageBoots_iff (l : LifeCycle) (fw reeve : BootImg) : (imageBoots l fw && imageBoots l reeve) = true ↔
    ∀ i ∈ [fw, reeve], i = .diagnostic ∨ (i = .ordinary ∧ l ≠ .returned) := by
  simp [imageBoots]

theorem bootStep_on {s : State} (hrun : s.pkg.bootStopped = false) (hboot : s.pkg.boot < 6)
    (h : s.pkg.boot ≠ 2 ∨ (imageBoots s.pkg.life s.pkg.fwImg && imageBoots s.pkg.life s.pkg.reeveImg) = true) :
    s.bootStep = s.modPkg fun p => { p with boot := p.boot + 1 } := by
  unfold State.bootStep
  dsimp only
  rw [if_neg (by simp [hrun, hboot]), if_neg]
  obtain h | h := h
  · simp [h]
  · rw [h]
    simp

theorem bootStep_stops {s : State} (hrun : s.pkg.bootStopped = false) (hboot : s.pkg.boot = 2)
    (h : (imageBoots s.pkg.life s.pkg.fwImg && imageBoots s.pkg.life s.pkg.reeveImg) = false) :
    s.bootStep = s.modPkg fun p => { p with bootStopped := true } := by
  unfold State.bootStep
  dsimp only
  rw [if_neg (by simp [hrun, hboot]), if_pos]
  rw [h, hboot]
  rfl

theorem step_idle {s : State} (h : s.agenda = []) : step s = if s.pkg.bootStopped then .fault .bootStopped else s.own := by
  rw [step, h]

-- The life cycle.

theorem lifeNext_code {l l' : LifeCycle} {target : Nat} (h : lifeNext l target = some l') : lifeCode l < lifeCode l' ∧ lifeCode l' = target := by
  unfold lifeNext at h
  split at h
  all_goals cases h
  all_goals exact ⟨by decide, rfl⟩

theorem lifeCycleChange_stays {s : State} {target : Nat} (h : lifeNext s.pkg.life target = none) :
    exec (.lifeCycleChange target) s = .next s := by
  show execLifeCycleChange target s = _
  unfold execLifeCycleChange
  rw [h]

/-- The module after a change of its life cycle (R417). -/
def State.lifeChanged (s : State) (l : LifeCycle) : State :=
  { s.bootUp s.pkg.fwImg s.pkg.reeveImg with
    polders := [], pkg := { (s.bootUp s.pkg.fwImg s.pkg.reeveImg).pkg with life := l, ownMeter := [] } }

theorem lifeCycleChange_goes {s : State} {target : Nat} {l : LifeCycle} (h : lifeNext s.pkg.life target = some l) :
    exec (.lifeCycleChange target) s = .next (s.lifeChanged l) := by
  show execLifeCycleChange target s = _
  unfold execLifeCycleChange
  rw [h]
  rfl

-- The report.

theorem attestation_off {s : State} {n0 n1 : BitVec 64} (h : s.deviceKey = false) : exec (.attestationReport n0 n1) s = .next s :=
  congrArg Host.Outcome.next (if_pos (by rw [h]; rfl))

theorem deviceKey_iff (s : State) : s.deviceKey = true ↔ s.pkg.life = .provisioned ∨ s.pkg.life = .deployed := by
  simp [State.deviceKey]

/-- The report of a module that has its device key (R416). -/
def State.attestation (s : State) (n0 n1 : BitVec 64) : List Dword :=
  partNumber ++ [BitVec.ofNat 64 (lifeCode s.pkg.life)] ++ (List.range 8).map Config.measurement
    ++ [Config.fuseVersion, n0, n1] ++ (List.range 8).map fun i => Config.signature s.freeCtr i

theorem attestation_goes {s : State} {n0 n1 : BitVec 64} (h : s.deviceKey = true) :
    exec (.attestationReport n0 n1) s = .next (s.free.2.modPkg fun p => { p with outbox := p.outbox ++ [s.attestation n0 n1] }) :=
  congrArg Host.Outcome.next (if_neg (by rw [h]; decide))

theorem attestation_words (s : State) (n0 n1 : BitVec 64) :
    let r := s.attestation n0 n1
    r.length = 22 ∧ r.getD 0 0 = 0x332D344D2D394E4C ∧ r.getD 1 0 = 0x3438 ∧ r.getD 2 0 = BitVec.ofNat 64 (lifeCode s.pkg.life) ∧
      r.getD 12 0 = n0 ∧ r.getD 13 0 = n1 := by
  have hpart : partNumber = [0x332D344D2D394E4C, 0x3438] := by decide
  intro r
  have hr : r = [0x332D344D2D394E4C, 0x3438] ++ [BitVec.ofNat 64 (lifeCode s.pkg.life)] ++ (List.range 8).map Config.measurement
    ++ [Config.fuseVersion, n0, n1] ++ (List.range 8).map fun i => Config.signature s.freeCtr i := by
    rw [← hpart]
    rfl
  rw [hr]
  exact ⟨by simp, rfl, rfl, rfl, rfl, rfl⟩

/-- Settles O60: what a reset leaves field by field, the memory by the cells it drops; the boot steps and the life cycle by their cases. -/
theorem bootAndLifeCycle : Obligations.BootAndLifeCycle := by
  unfold Obligations.BootAndLifeCycle
  refine ⟨?_, ?_, ?_, ?_⟩
  · intro s fw reeve
    refine ⟨s.bootUp fw reeve, rfl, rfl, fun hm => ⟨bootUp_memWf fw reeve hm, bootUp_homeByte fw reeve hm⟩, fun _ => rfl, fun _ => rfl, fun _ => rfl,
      fun _ => rfl, rfl, rfl, rfl, rfl, rfl, rfl, rfl, rfl, bootUp_total s fw reeve, fun d hd => ?_, rfl, rfl, rfl, rfl⟩
    rw [bootUp_die s fw reeve hd]
    exact ⟨rfl, rfl, rfl⟩
  · intro s ok
    have hok : (imageBoots s.pkg.life s.pkg.fwImg && imageBoots s.pkg.life s.pkg.reeveImg) = true ↔ ok := imageBoots_iff _ _ _
    refine ⟨fun hidle hstop => ?_, fun hidle hrun hboot => ?_, fun hrun hboot h => ?_, fun hrun hboot h => ?_⟩
    · rw [step_idle hidle, if_pos hstop]
    · rw [step_idle hidle, if_neg (Bool.eq_false_iff.mp hrun), State.own, if_pos (Nat.ne_of_lt hboot)]
    · exact bootStep_on hrun hboot (h.imp_right hok.mpr)
    · exact bootStep_stops hrun hboot (Bool.eq_false_iff.mpr fun hverified => h (hok.mp hverified))
  · intro s target
    refine ⟨lifeCycleChange_stays, fun l hl => ?_⟩
    obtain ⟨hforward, hcode⟩ := lifeNext_code hl
    refine ⟨hforward, hcode, _, lifeCycleChange_goes hl, rfl, rfl, rfl, fun _ => rfl, fun hm a ha => ?_⟩
    have hbyte := bootUp_homeByte s.pkg.fwImg s.pkg.reeveImg hm a
    rw [ha, if_neg Bool.false_ne_true] at hbyte
    exact hbyte
  · intro s n0 n1 key
    refine ⟨fun hno => attestation_off (Bool.eq_false_iff.mpr fun h => hno ((deviceKey_iff s).mp h)), fun hkey => ?_⟩
    obtain ⟨hlen, hpart0, hpart1, hlife, hnonce0, hnonce1⟩ := attestation_words s n0 n1
    exact ⟨_, _, attestation_goes ((deviceKey_iff s).mpr hkey), rfl, hlen, hpart0, hpart1, hlife, hnonce0, hnonce1, rfl⟩

end Sys2Proof.Machine
end


section
/-! What bytes a state shows, at home and in the caches of a cluster, and what the operations of the memory side do to them: the facts that the
obligations about loads, stores and atomics rest on. -/

namespace Sys2Proof.Machine

-- Tables.

theorem tfind_map {α : Type} (t : Tab α) (f : Nat × α → Nat × α) (g : Nat → α → α) (hf : ∀ e, f e = (e.1, g e.1 e.2)) (q : Nat) :
    tfind (t.map f) q = (tfind t q).map (g q) := by
  induction t with
  | nil => rfl
  | cons e r ih =>
    obtain ⟨k, v⟩ := e
    rw [List.map_cons, hf, tfind, tfind]
    split
    case isTrue h => subst h; rfl
    case isFalse h => exact ih

theorem tfind_filter {α : Type} (t : Tab α) (p : Nat → Bool) (q : Nat) :
    tfind (t.filter fun e => p e.1) q = if p q then tfind t q else none := by
  induction t with
  | nil => simp [tfind]
  | cons e r ih =>
    obtain ⟨k, v⟩ := e
    by_cases hk : p k <;> by_cases hq : q = k <;> simp_all [tfind]

theorem tfind_of_notMem {α : Type} {t : Tab α} {q : Nat} (h : ∀ e ∈ t, e.1 ≠ q) : tfind t q = none := by
  induction t with
  | nil => rfl
  | cons e r ih =>
    obtain ⟨k, v⟩ := e
    rw [tfind, if_neg fun hq => h (k, v) (by simp) hq.symm]
    exact ih fun e he => h e (List.mem_cons_of_mem _ he)

/-- Bytes set one after another from an address. -/
theorem tfind_stored {α β : Type} (g : β → α) (bs : List β) (pa : Nat) (t : Tab α) (q : Nat) :
    tfind (bs.foldl (fun (p : Nat × Tab α) b => (p.1 + 1, tset p.2 p.1 (g b))) (pa, t)).2 q =
      if pa ≤ q then ((bs[q - pa]?).map g).or (tfind t q) else tfind t q := by
  induction bs generalizing pa t with
  | nil => simp
  | cons b r ih =>
    rw [List.foldl_cons, ih]
    rcases Nat.lt_trichotomy q pa with h | h | h
    · rw [if_neg (by omega), if_neg (by omega), tfind_tset, if_neg (by omega)]
    · subst h
      rw [if_neg (by omega), if_pos (Nat.le_refl q), tfind_tset, if_pos rfl, Nat.sub_self]
      rfl
    · obtain ⟨d, rfl⟩ : ∃ d, q = pa + 1 + d := ⟨q - pa - 1, by omega⟩
      rw [if_pos (by omega), if_pos (by omega), tfind_tset, if_neg (by omega), show pa + 1 + d - (pa + 1) = d by omega,
        show pa + 1 + d - pa = d + 1 by omega, List.getElem?_cons_succ]

/-- Addresses of a list set to what a function gives for them. -/
theorem tfind_setAll {α : Type} (g : Nat → α) (as : List Nat) (l : Nat) (t : Tab α) (q : Nat) :
    tfind (as.foldl (fun t i => tset t (l + i) (g (l + i))) t) q = if ∃ i ∈ as, q = l + i then some (g q) else tfind t q := by
  induction as generalizing t with
  | nil => simp
  | cons a r ih =>
    rw [List.foldl_cons, ih, tfind_tset]
    by_cases hr : ∃ i ∈ r, q = l + i
    · rw [if_pos hr, if_pos (hr.imp fun i h => ⟨List.mem_cons_of_mem a h.1, h.2⟩)]
    · rw [if_neg hr]
      by_cases ha : q = l + a
      · rw [if_pos ha, if_pos ⟨a, by simp, ha⟩, ha]
      · rw [if_neg ha, if_neg]
        rintro ⟨i, hi, hq⟩
        rcases List.mem_cons.mp hi with rfl | hi
        · exact ha hq
        · exact hr ⟨i, hi, hq⟩

-- Bytes of a value.

theorem bytesOf_getD (v n i : Nat) (h : i < n) : (bytesOf v n).getD i 0 = BitVec.ofNat 8 (v >>> (8 * i)) := by
  rw [List.getD_eq_getElem?_getD, List.getElem?_eq_getElem (by rw [bytesOf_length]; exact h), Option.getD_some]
  simp [bytesOf]

theorem byte_ofBytes (bs : List Byte) (i : Nat) (h : i < bs.length) : BitVec.ofNat 8 (ofBytes bs >>> (8 * i)) = bs[i] := by
  induction bs generalizing i with
  | nil => simp at h
  | cons b r ih =>
    have hcons : ofBytes (b :: r) = b.toNat + 256 * ofBytes r := rfl
    have hlt : b.toNat < 256 := b.isLt
    cases i with
    | zero =>
      apply BitVec.eq_of_toNat_eq
      rw [hcons, BitVec.toNat_ofNat]
      show (b.toNat + 256 * ofBytes r) % 256 = b.toNat
      omega
    | succ i =>
      have hdiv : ofBytes (b :: r) >>> (8 * (i + 1)) = ofBytes r >>> (8 * i) := by
        rw [hcons, Nat.shiftRight_eq_div_pow, Nat.shiftRight_eq_div_pow, Nat.mul_succ, Nat.add_comm (8 * i) 8, Nat.pow_add, ← Nat.div_div_eq_div_mul]
        exact congrArg (· / 2 ^ (8 * i)) (by omega)
      rw [hdiv]
      exact ih i (by simpa using h)

-- States that show the same bytes.

/-- Memory and the clusters' caches are as they were: every byte reads as before, at home and in every cluster. -/
structure SameBytes (s t : State) : Prop where
  mem : t.mem = s.mem
  dcache : t.pkg.dcache = s.pkg.dcache

namespace SameBytes

theorem refl (s : State) : SameBytes s s := ⟨rfl, rfl⟩
theorem trans {s t u : State} (h1 : SameBytes s t) (h2 : SameBytes t u) : SameBytes s u := ⟨h2.mem.trans h1.mem, h2.dcache.trans h1.dcache⟩

theorem foldl {α : Type} {f : State → α → State} (hf : ∀ s a, SameBytes s (f s a)) (ls : List α) (s : State) : SameBytes s (ls.foldl f s) := by
  induction ls generalizing s with
  | nil => exact refl s
  | cons a r ih => exact (hf s a).trans (ih (f s a))

theorem cache {s t : State} (h : SameBytes s t) (cl : Nat) : t.dcache cl = s.dcache cl := by rw [State.dcache, h.dcache]; rfl
theorem home {s t : State} (h : SameBytes s t) (a : Nat) : t.homeByte a = s.homeByte a := by rw [State.homeByte, h.mem]; rfl
theorem seen {s t : State} (h : SameBytes s t) (cl a : Nat) : t.seenByte cl a = s.seenByte cl a := by
  rw [State.seenByte, h.cache, h.home]; rfl
theorem holds {s t : State} (h : SameBytes s t) (cl pa n : Nat) : t.holdsAll cl pa n = s.holdsAll cl pa n := by
  rw [State.holdsAll, h.cache]; rfl

theorem dropOps (s : State) (eng : EngKind) (key : Nat) : SameBytes s (s.dropOps eng key) := by
  rw [State.dropOps]; split <;> exact ⟨rfl, rfl⟩

theorem noteStore (s : State) (eng : EngKind) (key cl line : Nat) : SameBytes s (s.noteStore eng key cl line) := by
  rw [State.noteStore]; split <;> exact ⟨rfl, rfl⟩

theorem charge (s : State) (c : Option Nat) (pa n : Nat) : SameBytes s (s.charge c pa n) := ⟨rfl, rfl⟩

theorem chargeHome (s : State) (c : Option Nat) (pa n : Nat) : SameBytes s (s.chargeHome c pa n) := by
  rw [State.chargeHome]; split
  · exact refl s
  · exact charge s c pa n

theorem l2Dirty (s : State) (w line : Nat) : SameBytes s (s.l2Dirty w line) := by
  rw [State.l2Dirty]; split <;> exact ⟨rfl, rfl⟩

theorem retired (s : State) (k : Key) (i : Instr) (res : List Res) (adv : Adv) : SameBytes s (s.retired k i res adv) := by
  have hframe := (retire_counts s k i res adv).1
  rw [State.retired]
  generalize s.retire k i res adv = t at hframe
  exact ⟨by rw [hframe], by rw [hframe]⟩

theorem l1Touch (s : State) (core line : Nat) : SameBytes s (s.l1Touch core line) := ⟨rfl, rfl⟩

end SameBytes

-- The caches of a cluster.

@[simp] theorem setDcache_mem (s : State) (cl : Nat) (t : Tab CByte) : (s.setDcache cl t).mem = s.mem := rfl

theorem setDcache_homeByte (s : State) (cl : Nat) (t : Tab CByte) (a : Nat) : (s.setDcache cl t).homeByte a = s.homeByte a := rfl

theorem dcache_setDcache (s : State) (cl d : Nat) (t : Tab CByte) : (s.setDcache cl t).dcache d = if d = cl then t else s.dcache d :=
  tget_tset s.pkg.dcache [] cl d t

theorem seenByte_setDcache_ne (s : State) (cl d : Nat) (t : Tab CByte) (a : Nat) (h : d ≠ cl) :
    (s.setDcache cl t).seenByte d a = s.seenByte d a := by
  rw [State.seenByte, dcache_setDcache, if_neg h]; rfl

/-- What a cluster sees of a byte, given what its caches hold of it. -/
theorem seenByte_eq (s : State) (cl a : Nat) : s.seenByte cl a = ((tfind (s.dcache cl) a).map (·.val)).getD (s.homeByte a) := by
  rw [State.seenByte]; cases tfind (s.dcache cl) a <;> rfl

theorem meetByte_eq (s : State) (cl a : Nat) :
    s.meetByte cl a = ((tfind (s.dcache cl) a).map fun b => if b.dirty then b.val else s.homeByte a).getD (s.homeByte a) := by
  rw [State.meetByte]; cases tfind (s.dcache cl) a <;> rfl

-- Copies that follow home.

/-- A copy of a byte after the copies of an access have followed home. -/
def CByte.followed (s : State) (pa n a : Nat) (b : CByte) : CByte := if inPart pa n a && !b.dirty then { b with val := s.homeByte a } else b

theorem freshen_mem (s : State) (cl pa n : Nat) : (s.freshen cl pa n).mem = s.mem := by rw [State.freshen]; split <;> rfl

theorem freshen_homeByte (s : State) (cl pa n a : Nat) : (s.freshen cl pa n).homeByte a = s.homeByte a := by
  rw [State.homeByte, freshen_mem]; rfl

theorem tfind_freshen (s : State) (cl pa n a : Nat) :
    tfind ((s.freshen cl pa n).dcache cl) a = (tfind (s.dcache cl) a).map (CByte.followed s pa n a) := by
  rw [State.freshen]
  split
  case isTrue h =>
    rw [dcache_setDcache, if_pos rfl]
    refine tfind_map _ _ (fun a b => CByte.followed s pa n a b) (fun e => ?_) a
    rw [CByte.followed]
    split <;> rfl
  case isFalse h =>
    cases hb : tfind (s.dcache cl) a with
    | none => rfl
    | some b =>
      by_cases ha : inPart pa n a = true
      · have hnone : tfind (s.dcache cl) a = none := tfind_of_notMem fun e he hea =>
          h (List.any_eq_true.mpr ⟨e, he, by rw [hea]; exact ha⟩)
        rw [hnone] at hb
        exact absurd hb (by simp)
      · rw [Option.map_some, CByte.followed, Bool.eq_false_iff.mpr ha]; rfl

theorem freshen_dcache_ne (s : State) (cl d pa n : Nat) (h : d ≠ cl) : (s.freshen cl pa n).dcache d = s.dcache d := by
  rw [State.freshen]
  split
  · rw [dcache_setDcache, if_neg h]
  · rfl

theorem seenByte_freshen_ne (s : State) (cl d pa n a : Nat) (h : d ≠ cl) : (s.freshen cl pa n).seenByte d a = s.seenByte d a := by
  rw [seenByte_eq, freshen_dcache_ne s cl d pa n h, freshen_homeByte, ← seenByte_eq]

theorem inPart_byte (pa n j : Nat) (h : j < n) : inPart pa n (pa + j) = true := by
  rw [inPart, Bool.and_eq_true]
  exact ⟨decide_eq_true (Nat.div_le_div_right (by omega)), decide_eq_true (Nat.div_le_div_right (by omega))⟩

/-- The bytes of an access, once the copies have followed, are those that were read at home. -/
theorem seenByte_freshen_meet (s : State) (cl pa n j : Nat) (h : j < n) : (s.freshen cl pa n).seenByte cl (pa + j) = s.meetByte cl (pa + j) := by
  rw [seenByte_eq, tfind_freshen, freshen_homeByte, meetByte_eq]
  cases tfind (s.dcache cl) (pa + j) with
  | none => rfl
  | some b => simp only [Option.map_some, Option.getD_some, CByte.followed, inPart_byte pa n j h, Bool.true_and]; cases b.dirty <;> rfl

theorem seenByte_freshen_or (s : State) (cl pa n a : Nat) :
    (s.freshen cl pa n).seenByte cl a = s.seenByte cl a ∨ (s.freshen cl pa n).seenByte cl a = s.homeByte a := by
  rw [seenByte_eq, tfind_freshen, freshen_homeByte, seenByte_eq]
  cases tfind (s.dcache cl) a with
  | none => exact .inl rfl
  | some b =>
    simp only [Option.map_some, Option.getD_some, CByte.followed]
    split
    · exact .inr rfl
    · exact .inl rfl

-- A line that is fetched.

theorem fillLine_mem (s : State) (cl pa : Nat) : (s.fillLine cl pa).mem = s.mem := by
  unfold State.fillLine; extract_lets; split <;> rfl

theorem seenByte_fillLine_ne (s : State) (cl pa d a : Nat) (h : d ≠ cl) : (s.fillLine cl pa).seenByte d a = s.seenByte d a := by
  unfold State.fillLine; extract_lets; split
  · rfl
  · exact seenByte_setDcache_ne s cl d _ a h

theorem seenByte_fillLine_or (s : State) (cl pa a : Nat) :
    (s.fillLine cl pa).seenByte cl a = s.seenByte cl a ∨ (s.fillLine cl pa).seenByte cl a = s.homeByte a := by
  unfold State.fillLine; extract_lets l t mine; split
  · exact .inl rfl
  · rw [seenByte_eq, dcache_setDcache, if_pos rfl, tfind_setAll (fun a => ({ val := s.homeByte a } : CByte)), setDcache_homeByte]
    split
    · exact .inr rfl
    · exact .inl (seenByte_eq s cl a).symm

end Sys2Proof.Machine
end


section
/-! O31, the bytes that a store changes and a load reads. -/

namespace Sys2Proof.Machine

-- Loads.

theorem lsuRead_served {s : State} {cl pa n home : Nat} (h2 : home ≤ 2) (hall : s.holdsAll cl pa n = true) :
    s.lsuRead cl pa n home = (ofBytes ((List.range n).map fun i => s.seenByte cl (pa + i)), s) := by
  rw [State.lsuRead, if_neg, if_pos hall]
  simp only [hall, Bool.not_true, Bool.and_false, Bool.or_false, decide_eq_true_eq]
  omega

/-- A load takes its value from home, its cluster's own copies following, or from the caches, the line being fetched where they lack a byte. -/
theorem lsuRead_cases (s : State) (cl pa n home : Nat) :
    s.lsuRead cl pa n home = s.meetRead cl pa n ∨
      ∃ s1, (s1 = s ∨ s1 = s.fillLine cl pa) ∧
        s.lsuRead cl pa n home = (ofBytes ((List.range n).map fun i => s1.seenByte cl (pa + i)), s1) := by
  rw [State.lsuRead]
  split
  · exact .inl rfl
  · refine .inr ⟨_, ?_, rfl⟩
    split
    · exact .inl rfl
    · exact .inr rfl

theorem lsuRead_value (s : State) (cl pa n home : Nat) :
    (s.lsuRead cl pa n home).1 = ofBytes ((List.range n).map fun i => (s.lsuRead cl pa n home).2.seenByte cl (pa + i)) := by
  rcases lsuRead_cases s cl pa n home with h | ⟨s1, -, h⟩ <;> rw [h]
  exact congrArg ofBytes (List.map_congr_left fun i hi => (seenByte_freshen_meet s cl pa n i (List.mem_range.mp hi)).symm)

theorem lsuRead_mem (s : State) (cl pa n home : Nat) : (s.lsuRead cl pa n home).2.mem = s.mem := by
  rcases lsuRead_cases s cl pa n home with h | ⟨s1, h1, h⟩ <;> rw [h]
  · exact freshen_mem s cl pa n
  · rcases h1 with rfl | rfl
    · rfl
    · exact fillLine_mem s cl pa

theorem lsuRead_elsewhere (s : State) (cl pa n home c a : Nat) (hc : c ≠ cl) : (s.lsuRead cl pa n home).2.seenByte c a = s.seenByte c a := by
  rcases lsuRead_cases s cl pa n home with h | ⟨s1, h1, h⟩ <;> rw [h]
  · exact seenByte_freshen_ne s cl c pa n a hc
  · rcases h1 with rfl | rfl
    · rfl
    · exact seenByte_fillLine_ne s cl pa c a hc

theorem lsuRead_seen (s : State) (cl pa n home a : Nat) :
    (s.lsuRead cl pa n home).2.seenByte cl a = s.seenByte cl a ∨ (s.lsuRead cl pa n home).2.seenByte cl a = s.homeByte a := by
  rcases lsuRead_cases s cl pa n home with h | ⟨s1, h1, h⟩ <;> rw [h]
  · exact seenByte_freshen_or s cl pa n a
  · rcases h1 with rfl | rfl
    · exact .inl rfl
    · exact seenByte_fillLine_or s cl pa a

-- Cached stores.

theorem lsuWrite_cached {s : State} {c : Option Nat} {cl pa home : Nat} {bs : List Byte} (h : home ≤ 1) :
    s.lsuWrite c cl pa home bs = s.setDcache cl (bs.foldl
      (fun (p : Nat × Tab CByte) b => (p.1 + 1, tset p.2 p.1 { val := b, dirty := true, writer := c.getD fwCtx, home := home }))
      (pa, s.dcache cl)).2 := by
  rw [State.lsuWrite, if_neg]
  simp only [Bool.or_eq_true, Bool.and_eq_true, decide_eq_true_eq]
  omega

/-- The bytes of a cached store stand in its cluster's caches: every engine of the cluster sees them, and nothing else changes. -/
theorem lsuWrite_seenByte {s : State} {c : Option Nat} {cl pa home : Nat} {bs : List Byte} (h : home ≤ 1) (a : Nat) :
    (s.lsuWrite c cl pa home bs).seenByte cl a = if pa ≤ a ∧ a < pa + bs.length then bs.getD (a - pa) 0 else s.seenByte cl a := by
  rw [lsuWrite_cached h, seenByte_eq, dcache_setDcache, if_pos rfl,
    tfind_stored (fun b => ({ val := b, dirty := true, writer := c.getD fwCtx, home := home } : CByte)), setDcache_homeByte, seenByte_eq]
  by_cases hle : pa ≤ a
  · rw [if_pos hle]
    by_cases hlt : a < pa + bs.length
    · rw [if_pos ⟨hle, hlt⟩, List.getD_eq_getElem?_getD, List.getElem?_eq_getElem (by omega)]
      rfl
    · rw [if_neg (by omega), List.getElem?_eq_none (by omega)]
      rfl
  · rw [if_neg hle, if_neg (by omega)]

theorem storedBytes_cached (s : State) (c : Option Nat) (cl pa home : Nat) (bs : List Byte) (h : home ≤ 1) :
    let t := s.lsuWrite c cl pa home bs
    t.mem = s.mem ∧
    (∀ n, n < bs.length → t.seenByte cl (pa + n) = bs.getD n 0) ∧
    (∀ b, ¬within pa bs.length b → t.seenByte cl b = s.seenByte cl b) ∧
    (∀ d b, d ≠ cl → t.seenByte d b = s.seenByte d b) := by
  intro t
  refine ⟨?_, fun n hn => ?_, fun b hb => ?_, fun d b hd => ?_⟩
  · rw [show t = _ from lsuWrite_cached h]; rfl
  · rw [lsuWrite_seenByte h, if_pos (by omega), Nat.add_sub_cancel_left]
  · rw [lsuWrite_seenByte h]; exact if_neg hb
  · rw [show t = _ from lsuWrite_cached h]
    exact seenByte_setDcache_ne s cl d _ b hd

-- Stores at home.

/-- Byte a does not stand in the table of descriptors. -/
def offTable (a : Nat) : Prop := ¬within dtBase (64 * 512) a

theorem maskAt_congr {s t : State} (h : t.mem = s.mem) (a : Nat) : t.maskAt a = s.maskAt a := by
  have hword : ∀ b, t.home64 b = s.home64 b := fun b => by
    rw [State.home64, State.home64, State.homeBytes, State.homeBytes]; simp only [State.homeByte, h]
  rw [State.maskAt, State.ckDirs, h]
  simp only [hword]
  rfl

/-- The old byte with the bits of a mask replaced. -/
def mixByte (m old b : Byte) : Byte := (old &&& ~~~m) ||| (b &&& m)

theorem mixByte_masked (k m old b : Byte) : mixByte m old b &&& (m &&& k) = b &&& (m &&& k) := by
  apply BitVec.eq_of_getLsbD_eq
  intro i hi
  simp only [mixByte, BitVec.getLsbD_and, BitVec.getLsbD_or, BitVec.getLsbD_not, hi, decide_true, Bool.true_and]
  cases m.getLsbD i <;> simp

theorem dropInj_homeByte (s : State) (c a : Nat) : (s.dropInj c).homeByte a = s.homeByte a := rfl

/-- What a change of an entry's V does to memory: the byte before it may be stored, within a descriptor. -/
theorem entryChanged_mem (s : State) (a : Nat) (old new : Byte) :
    (s.entryChanged a old new).mem = s.mem ∨
      ¬offTable a ∧ (a - dtBase) % 64 = 7 ∧ ∃ x, (s.entryChanged a old new).mem = memSet s.mem (a - 1) x := by
  rw [State.entryChanged]
  split
  case isTrue h =>
    simp only [Bool.and_eq_true, decide_eq_true_eq, beq_iff_eq] at h
    obtain ⟨⟨⟨hlo, hhi⟩, hmod⟩, -⟩ := h
    split
    · exact .inr ⟨fun hoff => hoff ⟨hlo, hhi⟩, hmod, _, rfl⟩
    · exact .inl rfl
  case isFalse => split <;> exact .inl rfl

/-- A byte stored off the table of descriptors changes its own cell and no other. -/
theorem putByte_mem_off (s : State) (m : Byte) {a : Nat} (b : Byte) (h : offTable a) :
    (s.putByte m a b).mem = memSet s.mem a (mixByte m (s.homeByte a) b) := by
  rcases entryChanged_mem (s.pokeBytes a [mixByte m (s.homeByte a) b]) a (s.homeByte a) (mixByte m (s.homeByte a) b) with hmem | ⟨hon, -⟩
  · exact hmem
  · exact absurd h hon

theorem storeMask_beforeV {a : Nat} (h : ¬offTable a) (hmod : (a - dtBase) % 64 = 7) : storeMask (a - 1) = 0 := by
  have hin : within dtBase (64 * 512) a := not_not.mp h
  have hbounds : dtBase ≤ a ∧ a < dtBase + 64 * 512 := hin
  have hsix : (a - 1 - dtBase) % 64 = 6 := by omega
  rw [storeMask, if_pos (by omega), hsix]
  rfl

/-- A byte stored by an engine: what its address reads as afterwards, and the bytes that an engine can change elsewhere, which stay. -/
theorem putByte_homeByte (s : State) (m : Byte) (a : Nat) (b : Byte) (hm : memWf s.mem = true) :
    (s.putByte m a b).homeByte a = mixByte m (s.homeByte a) b ∧
      ∀ x, x ≠ a → storeMask x ≠ 0 → (s.putByte m a b).homeByte x = s.homeByte x := by
  have hset : ∀ x, memGet (memSet s.mem a (mixByte m (s.homeByte a) b)) x =
      if x = a then mixByte m (s.homeByte a) b else s.homeByte x := fun x => memGet_memSet _ _ _ _ hm
  have hwf := memWf_memSet s.mem a (mixByte m (s.homeByte a) b) hm
  rcases entryChanged_mem (s.pokeBytes a [mixByte m (s.homeByte a) b]) a (s.homeByte a) (mixByte m (s.homeByte a) b)
    with hmem | ⟨hon, hmod, y, hmem⟩
  · have hput : (s.putByte m a b).mem = memSet s.mem a (mixByte m (s.homeByte a) b) := hmem
    exact ⟨by rw [State.homeByte, hput, hset, if_pos rfl], fun x hx _ => by rw [State.homeByte, hput, hset, if_neg hx]⟩
  · have hput : (s.putByte m a b).mem = memSet (memSet s.mem a (mixByte m (s.homeByte a) b)) (a - 1) y := hmem
    have hpos : a ≠ a - 1 := by
      intro h0
      have : a = 0 := by omega
      subst this
      exact absurd hmod (by decide)
    refine ⟨by rw [State.homeByte, hput, memGet_memSet _ _ _ _ hwf, if_neg hpos, hset, if_pos rfl], fun x hx hmask => ?_⟩
    have hx1 : x ≠ a - 1 := by
      rintro rfl
      exact hmask (storeMask_beforeV hon hmod)
    rw [State.homeByte, hput, memGet_memSet _ _ _ _ hwf, if_neg hx1, hset, if_neg hx]

/-- Bytes stored off the table of descriptors, each under a mask. -/
theorem putEach_homeByte_off (f : Nat → Byte) (bs : List Byte) (pa : Nat) (t : State) (hm : memWf t.mem = true)
    (hoff : ∀ a, within pa bs.length a → offTable a) (x : Nat) :
    (bs.foldl (fun (p : Nat × State) b => (p.1 + 1, p.2.putByte (f p.1) p.1 b)) (pa, t)).2.homeByte x =
      if pa ≤ x ∧ x < pa + bs.length then mixByte (f x) (t.homeByte x) (bs.getD (x - pa) 0) else t.homeByte x := by
  induction bs generalizing pa t with
  | nil => exact (if_neg (by simp)).symm
  | cons b r ih =>
    have hpa : offTable pa := hoff pa ⟨by omega, by rw [List.length_cons]; omega⟩
    have hmem := putByte_mem_off t (f pa) b hpa
    have hbyte : (t.putByte (f pa) pa b).homeByte x = if x = pa then mixByte (f pa) (t.homeByte pa) b else t.homeByte x := by
      rw [State.homeByte, hmem, memGet_memSet _ _ _ _ hm]
      rfl
    have hwf : memWf (t.putByte (f pa) pa b).mem = true := by rw [hmem]; exact memWf_memSet _ _ _ hm
    have hlater : ∀ a, within (pa + 1) r.length a → offTable a := fun a ha =>
      hoff a ⟨Nat.le_of_succ_le ha.1, by have := ha.2; rw [List.length_cons]; omega⟩
    rw [List.foldl_cons, ih (pa + 1) _ hwf hlater, List.length_cons, hbyte]
    rcases Nat.lt_trichotomy x pa with h | rfl | h
    · rw [if_neg (by omega), if_neg (by omega), if_neg (by omega)]
    · rw [if_neg (by omega), if_pos rfl, if_pos (by omega), Nat.sub_self]
      rfl
    · obtain ⟨d, rfl⟩ : ∃ d, x = pa + 1 + d := ⟨x - pa - 1, by omega⟩
      rw [if_neg (by omega : ¬pa + 1 + d = pa), show pa + 1 + d - (pa + 1) = d by omega, show pa + 1 + d - pa = d + 1 by omega, List.getD_cons_succ]
      exact if_congr (by omega) rfl rfl

/-- What an engine's store at home does to bytes of its own and to others. -/
theorem putBytes_plain (s : State) (pa : Nat) (bs : List Byte) (hm : memWf s.mem = true) (hplain : plainBytes pa bs.length) :
    (∀ n, n < bs.length → (s.putBytes pa bs).homeByte (pa + n) = mixByte (s.maskAt (pa + n)) (s.homeByte (pa + n)) (bs.getD n 0)) ∧
      ∀ b, ¬within pa bs.length b → storeMask b ≠ 0 → (s.putBytes pa bs).homeByte b = s.homeByte b := by
  rcases hplain with hone | hoff
  · match bs, hone with
    | [], _ => exact ⟨fun n hn => absurd hn (Nat.not_lt_zero n), fun b _ _ => rfl⟩
    | [x], _ =>
      obtain ⟨hown, hrest⟩ := putByte_homeByte s (s.maskAt pa) pa x hm
      refine ⟨fun n hn => ?_, fun b hb => hrest b fun h => hb ⟨by omega, by rw [List.length_singleton]; omega⟩⟩
      obtain rfl : n = 0 := by simpa using hn
      exact hown
  · have hput := putEach_homeByte_off s.maskAt bs pa s hm hoff
    refine ⟨fun n hn => ?_, fun b hb _ => ?_⟩
    · exact (hput _).trans (by rw [if_pos (by omega), Nat.add_sub_cancel_left])
    · exact (hput b).trans (if_neg hb)

-- What a store at home does besides: nothing that shows, of a context whose writes are not logged.

theorem l2DirtyAll_bytes (s : State) (w : Nat) (ls : List Nat) : SameBytes s (ls.foldl (fun (s : State) l => s.l2Dirty w l) s) :=
  SameBytes.foldl (fun s l => SameBytes.l2Dirty s w l) ls s

theorem l2Dirty_ctxs (s : State) (w line : Nat) : (s.l2Dirty w line).ctxs = s.ctxs := by
  rw [State.l2Dirty]; split <;> rfl

theorem l2DirtyAll_ctxs (s : State) (w : Nat) (ls : List Nat) : (ls.foldl (fun (s : State) l => s.l2Dirty w l) s).ctxs = s.ctxs := by
  induction ls generalizing s with
  | nil => rfl
  | cons l r ih => rw [List.foldl_cons, ih, l2Dirty_ctxs]

theorem logLine_off {s : State} {c line : Nat} (h : (s.ctx c).logging = false) : s.logLine c line = s := by
  simp only [State.logLine, h, Bool.not_false, Bool.true_or, if_true]

theorem logLines_off {s : State} {c : Nat} (h : (s.ctx c).logging = false) (ls : List Nat) :
    ls.foldl (fun (s : State) l => s.logLine c l) s = s := by
  induction ls with
  | nil => rfl
  | cons l r ih => rw [List.foldl_cons, logLine_off h, ih]

theorem noteExt_plain {s : State} {c : Option Nat} {pa : Nat} (h : s.writesPlain c pa) : s.noteExt c pa = s := by
  cases c with
  | none => rfl
  | some c =>
    have hc := h c rfl
    simp only [State.noteExt]
    refine if_neg fun hand => ?_
    simp only [Bool.and_eq_true, Bool.or_eq_true, beq_iff_eq, Bool.not_eq_true'] at hand
    rw [if_pos hand.1] at hc
    rw [hc] at hand
    exact absurd hand.2 (by simp)

theorem ctxExtw_congr {s t : State} (h : t.mem = s.mem) (c : Nat) : t.ctxExtw c = s.ctxExtw c := by
  rw [State.ctxExtw, State.ctxWord, State.home64, State.homeBytes]
  simp only [State.homeByte, h]
  rfl

theorem writesPlain_congr {s t : State} {c : Option Nat} {pa : Nat} (hmem : t.mem = s.mem) (hctx : t.ctxs = s.ctxs)
    (h : s.writesPlain c pa) : t.writesPlain c pa := by
  intro x hx
  have hlog : (t.ctx x).logging = (s.ctx x).logging := by rw [State.ctx, hctx]; rfl
  rw [ctxExtw_congr hmem, hlog]
  exact h x hx

/-- A plain store at home stores its bytes, and does no more to memory. -/
theorem homeStore_plain (s : State) (c : Option Nat) (pa : Nat) (bs : List Byte) (h : s.writesPlain c pa) :
    ∃ t, SameBytes s t ∧ s.homeStore c pa bs = t.putBytes pa bs := by
  have hsame := l2DirtyAll_bytes s (c.getD fwCtx) (linesOf pa bs.length)
  have hctx := l2DirtyAll_ctxs s (c.getD fwCtx) (linesOf pa bs.length)
  refine ⟨_, hsame, ?_⟩
  have hplain := writesPlain_congr hsame.mem hctx h
  unfold State.homeStore
  generalize (linesOf pa bs.length).foldl (fun (s : State) l => s.l2Dirty (c.getD fwCtx) l) s = t at *
  cases c with
  | none => rfl
  | some x =>
    refine congrArg (fun (t : State) => t.putBytes pa bs) ?_
    show (if regionOf pa == .host || regionOf pa == .peer then t.noteExt (some x) pa
      else (linesOf pa bs.length).foldl (fun (s : State) l => s.logLine x l) t) = t
    split
    case isTrue => exact noteExt_plain hplain
    case isFalse hin =>
      have hlog := hplain x rfl
      rw [if_neg (by simpa only [Bool.or_eq_true, beq_iff_eq] using hin)] at hlog
      exact logLines_off hlog _

/-- A store at home by an engine whose writes are not logged: the bits that an engine can change hold the new bytes, every other byte stays. -/
theorem homeStore_homeByte (s : State) (c : Option Nat) (pa : Nat) (bs : List Byte) (hm : memWf s.mem = true) (h : s.writesPlain c pa)
    (hplain : plainBytes pa bs.length) :
    (∀ n, n < bs.length → (s.homeStore c pa bs).homeByte (pa + n) &&& (s.maskAt (pa + n) &&& storeMask (pa + n)) =
        bs.getD n 0 &&& (s.maskAt (pa + n) &&& storeMask (pa + n))) ∧
      ∀ b, ¬within pa bs.length b → storeMask b ≠ 0 → (s.homeStore c pa bs).homeByte b = s.homeByte b := by
  obtain ⟨t, hsame, hput⟩ := homeStore_plain s c pa bs h
  obtain ⟨hown, hrest⟩ := putBytes_plain t pa bs (by rw [hsame.mem]; exact hm) hplain
  refine ⟨fun n hn => ?_, fun b hb hmask => ?_⟩
  · rw [hput, hown n hn, maskAt_congr hsame.mem, mixByte_masked]
  · rw [hput, hrest b hb hmask, hsame.home]

-- Copies that a store passes by.

theorem dropCopies_mem (s : State) (cl pa n : Nat) : (s.dropCopies cl pa n).mem = s.mem := rfl

theorem dropCopies_homeByte (s : State) (cl pa n a : Nat) : (s.dropCopies cl pa n).homeByte a = s.homeByte a := rfl

theorem tfind_dropCopies (s : State) (cl pa n a : Nat) (h : within pa n a) : tfind ((s.dropCopies cl pa n).dcache cl) a = none := by
  rw [State.dropCopies, dcache_setDcache, if_pos rfl, tfind_filter _ fun a => !(decide (pa ≤ a) && decide (a < pa + n)), if_neg]
  simp only [Bool.not_eq_true', Bool.not_eq_false, Bool.and_eq_true, decide_eq_true_eq]
  exact h

theorem storedBytes_uncached (s : State) (c : Option Nat) (cl pa : Nat) (bs : List Byte) (hm : memWf s.mem = true) (h : s.writesPlain c pa)
    (hplain : plainBytes pa bs.length) :
    let t := s.lsuWrite c cl pa 3 bs
    let m (a : Nat) : Byte := s.maskAt a &&& storeMask a
    (∀ n, n < bs.length → t.homeByte (pa + n) &&& m (pa + n) = bs.getD n 0 &&& m (pa + n)) ∧
    (∀ n, n < bs.length → t.seenByte cl (pa + n) = t.homeByte (pa + n)) ∧
    ∀ b, ¬within pa bs.length b → storeMask b ≠ 0 → t.homeByte b = s.homeByte b := by
  intro t m
  obtain ⟨hown, hrest⟩ := homeStore_homeByte s c pa bs hm h hplain
  have hbyte : ∀ a, t.homeByte a = (s.homeStore c pa bs).homeByte a := fun a => freshen_homeByte _ cl pa bs.length a
  refine ⟨fun n hn => by rw [hbyte]; exact hown n hn, fun n hn => ?_, fun b hb hmask => by rw [hbyte]; exact hrest b hb hmask⟩
  rw [seenByte_eq, show tfind (t.dcache cl) (pa + n) = none from
    (tfind_freshen _ cl pa bs.length (pa + n)).trans (by rw [tfind_dropCopies _ cl pa bs.length _ ⟨by omega, by omega⟩]; rfl)]
  rfl

-- Finding room.

theorem l2Fit_fits {s : State} {n : Nat} (h : (tget s.pkg.l2 [] n).length ≤ sliceLines) : s.l2Fit n = s := by
  unfold State.l2Fit; exact if_pos h

/-- An access to a line in a slice with room changes the slices and counts of polders alone. -/
theorem l2Touch_frame (s : State) (c : Option Nat) (pa size home : Nat) (h : ∀ q, (tget s.pkg.l2 [] q).length < sliceLines) :
    ∃ ps l2, s.l2Touch c pa size home = { s with polders := ps, pkg := { s.pkg with l2 := l2 } } := by
  unfold State.l2Touch
  extract_lets p n t was own pin at' src x s1 s2
  split
  case isTrue => exact ⟨_, _, rfl⟩
  case isFalse =>
    have hs1 : ∃ ps, s1 = { s with polders := ps, pkg := { s.pkg with l2 := tset s.pkg.l2 n (x :: t.filter fun x => x.line ≠ pa / 128) } } := by
      by_cases hw : was.isSome
      · exact ⟨_, by simp only [s1, if_pos hw]; rfl⟩
      · exact ⟨_, by simp only [s1, if_neg hw]; rfl⟩
    obtain ⟨ps, hs1⟩ := hs1
    have hslice : tget s1.pkg.l2 [] n = x :: t.filter fun x => x.line ≠ pa / 128 := by
      rw [hs1]; exact tget_tset_same s.pkg.l2 [] n _
    have hfit : s2 = s1 := l2Fit_fits (by
      rw [hslice, List.length_cons]
      exact Nat.lt_of_le_of_lt (List.length_filter_le _ t) (h n))
    rw [hfit, hs1]
    split <;> exact ⟨_, _, rfl⟩

theorem touchL2_frame (s : State) (c : Option Nat) (core pa size home : Nat) (h : ∀ q, (tget s.pkg.l2 [] q).length < sliceLines) :
    ∃ ps l2, s.touchL2 c core pa size home = { s with polders := ps, pkg := { s.pkg with l2 := l2 } } := by
  rw [State.touchL2]
  split
  · exact ⟨_, _, rfl⟩
  · exact l2Touch_frame s c pa size home h

/-- An access finds room without a byte being moved where no cache is full. -/
theorem touch_bytes (s : State) (c : Option Nat) (core : Nat) (ch : BitVec 2) (pa n home : Nat) (hcl : s.mayOverfill (clusterOf core) = false)
    (h : ∀ q, (tget s.pkg.l2 [] q).length < sliceLines) : SameBytes s (s.touch c core ch pa n home) := by
  obtain ⟨ps, l2, h0⟩ := touchL2_frame s c core pa n home h
  unfold State.touch
  rw [h0]
  extract_lets p s0 s1
  have hroom : s1 = s0 := by
    refine (congrArg (fun r => if 2 ≤ home then s0 else r) ?_).trans (ite_self _)
    rw [State.roomFor, show s0.mayOverfill (clusterOf core) = false from hcl]; rfl
  rw [hroom]
  split <;> exact ⟨rfl, rfl⟩

-- The obligation.

/-- A memory word whose lanes can be performed runs to its end. -/
theorem accWord_runs {s s1 : State} {i : Instr} {ep : Word} {ls : List (LaneAcc × Nat × Nat)} (hep : s.accEpoch i ep) (h : s.mayIssue i)
    (hg : s.gateOpen 0) (hready : s.accReady i s1 ls) :
    runsTo s i ((s1.accRun i s.cur (s.stampNow s.cur) ep ls).2.dropOps .wave s.cur)
      (accRes i (s.actOf i) (s1.accRun i s.cur (s.stampNow s.cur) ep ls).1) := by
  obtain ⟨body, hexec, hbody⟩ := accWord_body s i ep hep h hg
  exact runs_of s _ i body _ _ h hexec (hbody.trans (accBody_ready _ _ _ hready))
    (off_sound h (((accReady_off hready).trans (OffWave.accRun _ _ _ _ _ _)).trans (MemSide.dropOps _ _ _).off))

theorem storeScalar_run (s : State) (sz : MSize) (x : MF) (k : Key) (st : Stamp) (ep : Word) (a : LaneAcc) (pa home : Nat) :
    (s.accRun (.stScalar sz x) k st ep [(a, pa, home)]).2 =
      (s.touch (s.ctxOf k) (coreOf k) x.ch pa sz.bytes home).storeLane k pa home sz.bytes a.data := rfl

theorem loadScalar_run (s : State) (sz : MSize) (x : MF) (k : Key) (st : Stamp) (ep : Word) (a : LaneAcc) (pa home : Nat) :
    s.accRun (.ldScalar sz x) k st ep [(a, pa, home)] =
      ([(a.lane, extendLoad sz ((s.touch (s.ctxOf k) (coreOf k) x.ch pa sz.bytes home).loadLane k pa home sz.bytes).1)],
        ((s.touch (s.ctxOf k) (coreOf k) x.ch pa sz.bytes home).loadLane k pa home sz.bytes).2) := rfl

/-- A load or store leaves every wave's context until it is performed. -/
theorem plainReady_ctxOf {s s1 : State} {i : Instr} {ls : List (LaneAcc × Nat × Nat)} (hi : plainAcc i = true) (h : s.accReady i s1 ls)
    (k : Key) : s1.ctxOf k = s.ctxOf k := by
  obtain ⟨-, s0, tr, htr, rfl, -⟩ := h
  have hstamp : s0.stampLanes i s.cur tr = s0 := by
    cases i <;> simp only [plainAcc, reduceCtorEq] at hi <;> rfl
  rw [hstamp, State.ctxOf, (MemSide.trLanes htr).crew]
  rfl

/-- Settles O31. -/
theorem storedBytes : Obligations.StoredBytes := by
  unfold Obligations.StoredBytes
  refine ⟨⟨?store, ?load, ?room⟩, fun s c cl pa home bs h => storedBytes_cached s c cl pa home bs h,
    fun s c cl pa bs hm h hplain => storedBytes_uncached s c cl pa bs hm h hplain⟩
  case store =>
    intro s s1 sz x pa home i k w cl a b h hg hact hhome hready
    have hrun := accWord_runs (.inl ⟨rfl, rfl⟩) h hg hready
    have hctx := plainReady_ctxOf rfl hready k
    rw [storeScalar_run, hctx] at hrun
    refine ⟨_, hrun, ?_⟩
    generalize accRes _ _ _ = res
    have hnote := SameBytes.noteStore b .wave k cl (pa / 128)
    have hstore : b.storeLane k pa home sz.bytes a.data =
        (b.noteStore .wave k cl (pa / 128)).lsuWrite (b.ctxOf k) cl pa home (bytesOf a.data sz.bytes) :=
      if_neg (show ¬home = 4 by omega)
    obtain ⟨hmem, hown, hrest, hothers⟩ :=
      storedBytes_cached (b.noteStore .wave k cl (pa / 128)) (b.ctxOf k) cl pa home (bytesOf a.data sz.bytes) hhome
    rw [← hstore, bytesOf_length] at *
    have hlast : SameBytes (b.storeLane k pa home sz.bytes a.data)
        (((b.storeLane k pa home sz.bytes a.data).dropOps .wave k).retired k i res) :=
      (SameBytes.dropOps _ _ _).trans (SameBytes.retired _ _ _ _ _)
    refine ⟨hlast.mem.trans (hmem.trans hnote.mem), fun n hn => ?_, fun j hj => ?_, fun c j hc => ?_⟩
    · exact (hlast.seen _ _).trans ((hown n hn).trans (bytesOf_getD _ _ _ hn))
    · exact (hlast.seen _ _).trans ((hrest j hj).trans (hnote.seen _ _))
    · exact (hlast.seen _ _).trans ((hothers c j hc).trans (hnote.seen _ _))
  case load =>
    intro s s1 sz x pa home i k w cl a b h hg hact hhome hready
    have hrun := accWord_runs (.inl ⟨rfl, rfl⟩) h hg hready
    have hctx := plainReady_ctxOf rfl hready k
    rw [loadScalar_run, hctx] at hrun
    have hload : b.loadLane k pa home sz.bytes = b.lsuRead cl pa sz.bytes home := if_neg (show ¬home = 4 by omega)
    rw [show (s1.touch (s.ctxOf k) (coreOf k) x.ch pa sz.bytes home).loadLane k pa home sz.bytes = _ from hload] at hrun
    have hdrop := SameBytes.dropOps (b.lsuRead cl pa sz.bytes home).2 .wave k
    refine ⟨_, ?_, hdrop.mem.trans (lsuRead_mem _ _ _ _ _), fun c j hc => (hdrop.seen _ _).trans (lsuRead_elsewhere _ _ _ _ _ _ _ hc),
      fun j => ?_, fun h2 hall j => ?_⟩
    · have hbytes : (List.range sz.bytes).map (fun n => ((b.lsuRead cl pa sz.bytes home).2.dropOps .wave k).seenByte cl (pa + n)) =
          (List.range sz.bytes).map fun n => (b.lsuRead cl pa sz.bytes home).2.seenByte cl (pa + n) :=
        List.map_congr_left fun n _ => hdrop.seen _ _
      show runsTo _ _ _ _
      rw [hbytes, ← lsuRead_value]
      exact hrun
    · rw [hdrop.seen]; exact lsuRead_seen _ _ _ _ _ _
    · rw [hdrop.seen, lsuRead_served h2 hall]
  case room =>
    intro s c core ch pa n home hcl h b
    have hsame := touch_bytes s c core ch pa n home hcl h
    exact ⟨hsame.mem, fun cl j => hsame.seen cl j⟩

end Sys2Proof.Machine
end


section
/-! O32, atomic words and LDWATCH. -/

namespace Sys2Proof.Machine

-- One lane's atomic step.

/-- A copy that is no longer dirty. -/
def CByte.cleaned (pa n a : Nat) (b : CByte) : CByte := if decide (pa ≤ a) && decide (a < pa + n) then { b with dirty := false } else b

theorem tfind_cleanCopies (s : State) (cl pa n a : Nat) :
    tfind ((s.cleanCopies cl pa n).dcache cl) a = (tfind (s.dcache cl) a).map (CByte.cleaned pa n a) := by
  rw [State.cleanCopies, dcache_setDcache, if_pos rfl]
  refine tfind_map _ _ (fun a b => CByte.cleaned pa n a b) (fun e => ?_) a
  rw [CByte.cleaned]
  split <;> rfl

/-- Copies that are clean and follow home hold what home holds. -/
theorem followed_cleaned {s : State} {cl pa n j : Nat} {x : CByte} (hj : j < n)
    (h : tfind (((s.cleanCopies cl pa n).freshen cl pa n).dcache cl) (pa + j) = some x) :
    x.val = ((s.cleanCopies cl pa n).freshen cl pa n).homeByte (pa + j) := by
  rw [tfind_freshen, tfind_cleanCopies, Option.map_map] at h
  obtain ⟨b, -, rfl⟩ := Option.map_eq_some_iff.mp h
  have hin : (decide (pa ≤ pa + j) && decide (pa + j < pa + n)) = true := by simpa using hj
  rw [freshen_homeByte]
  simp only [Function.comp, CByte.followed, CByte.cleaned, hin, if_true, inPart_byte pa n j hj, Bool.not_false, Bool.and_self]

/-- Copies that follow home hold what was read. -/
theorem followed_meet {s : State} {cl pa n j : Nat} {x : CByte} (hj : j < n) (h : tfind ((s.freshen cl pa n).dcache cl) (pa + j) = some x) :
    x.val = s.meetByte cl (pa + j) := by
  have hseen := seenByte_freshen_meet s cl pa n j hj
  rw [seenByte_eq, h] at hseen
  exact hseen

theorem atomAt_none {s : State} {k : Key} {pa n : Nat} {f : Nat → Option Nat} (h : s.writesPlain (s.ctxOf k) pa)
    (hf : f (ofBytes ((List.range n).map fun i => s.meetByte (clusterOf (coreOf k)) (pa + i))) = none) :
    s.atomAt k pa n f =
      (ofBytes ((List.range n).map fun i => s.meetByte (clusterOf (coreOf k)) (pa + i)), s.freshen (clusterOf (coreOf k)) pa n) := by
  have hctx : (s.freshen (clusterOf (coreOf k)) pa n).ctxs = s.ctxs := by rw [State.freshen]; split <;> rfl
  simp only [State.atomAt, State.meetRead, hf]
  rw [noteExt_plain (writesPlain_congr (freshen_mem s _ pa n) hctx h)]

theorem atomAt_some {s : State} {k : Key} {pa n v : Nat} {f : Nat → Option Nat}
    (hf : f (ofBytes ((List.range n).map fun i => s.meetByte (clusterOf (coreOf k)) (pa + i))) = some v) :
    s.atomAt k pa n f =
      (ofBytes ((List.range n).map fun i => s.meetByte (clusterOf (coreOf k)) (pa + i)),
        ((((s.freshen (clusterOf (coreOf k)) pa n).homeStore (s.ctxOf k) pa (bytesOf v n)).chargeHome (s.ctxOf k) pa n).cleanCopies
          (clusterOf (coreOf k)) pa n).freshen (clusterOf (coreOf k)) pa n) := by
  simp only [State.atomAt, State.meetRead, hf]

/-- One lane's step: what it returns, stores, and leaves in the caches of its cluster. -/
theorem atomAt_spec (s : State) (k : Key) (pa n : Nat) (f : Nat → Option Nat) (hm : memWf s.mem = true) (h : s.writesPlain (s.ctxOf k) pa)
    (hplain : plainBytes pa n) :
    let cl := clusterOf (coreOf k)
    let old := ofBytes ((List.range n).map fun i => s.meetByte cl (pa + i))
    let r := s.atomAt k pa n f
    let m (a : Nat) : Byte := s.maskAt a &&& storeMask a
    r.1 = old ∧ (f old = none → r.2.mem = s.mem) ∧
    (∀ j x, j < n → tfind (r.2.dcache cl) (pa + j) = some x →
      x.val = if (f old).isSome then r.2.homeByte (pa + j) else BitVec.ofNat 8 (old >>> (8 * j))) ∧
    ∀ v, f old = some v →
      (∀ j, j < n → r.2.homeByte (pa + j) &&& m (pa + j) = BitVec.ofNat 8 (v >>> (8 * j)) &&& m (pa + j)) ∧
      ∀ b, ¬within pa n b → storeMask b ≠ 0 → r.2.homeByte b = s.homeByte b := by
  intro cl old r m
  cases hf : f old with
  | none =>
    have hr : r = (old, s.freshen cl pa n) := atomAt_none h hf
    clear_value r
    subst hr
    refine ⟨rfl, fun _ => freshen_mem s cl pa n, fun j x hj hx => (followed_meet hj hx).trans ?_, fun v hv => (Option.some_ne_none v hv.symm).elim⟩
    have hbyte := byte_ofBytes ((List.range n).map fun i => s.meetByte cl (pa + i)) j (by simpa using hj)
    rw [List.getElem_map, List.getElem_range] at hbyte
    exact hbyte.symm
  | some v =>
    have hr := atomAt_some hf
    have hold : r.1 = old := congrArg Prod.fst hr
    have hcopies : ∀ j x, j < n → tfind (r.2.dcache cl) (pa + j) = some x → x.val = r.2.homeByte (pa + j) := by
      intro j x hj hx
      rw [show r = _ from hr] at hx ⊢
      exact followed_cleaned hj hx
    refine ⟨hold, fun hv => (Option.some_ne_none v hv).elim, fun j x hj hx => hcopies j x hj hx, fun v' hv => ?_⟩
    obtain rfl : v = v' := Option.some.inj hv
    have hctx : (s.freshen cl pa n).ctxs = s.ctxs := by rw [State.freshen]; split <;> rfl
    obtain ⟨hown, hrest⟩ := homeStore_homeByte (s.freshen cl pa n) (s.ctxOf k) pa (bytesOf v n) (by rw [freshen_mem]; exact hm)
      (writesPlain_congr (freshen_mem s cl pa n) hctx h) (by rw [bytesOf_length]; exact hplain)
    rw [bytesOf_length] at hown hrest
    have hbyte : ∀ a, r.2.homeByte a = ((s.freshen cl pa n).homeStore (s.ctxOf k) pa (bytesOf v n)).homeByte a := by
      intro a
      rw [show r = _ from hr]
      exact (freshen_homeByte _ cl pa n a).trans ((SameBytes.chargeHome _ _ _ _).home a)
    refine ⟨fun j hj => ?_, fun b hb hmask => ?_⟩
    · have hj' := hown j hj
      rw [maskAt_congr (freshen_mem s cl pa n), bytesOf_getD _ _ _ hj] at hj'
      rw [hbyte]
      exact hj'
    · rw [hbyte, hrest b hb hmask, freshen_homeByte]

/-- R249: what the integer operations make of the old value. -/
theorem atomNew_spec (w a b : Nat) (sg : Bool) :
    let lt : Prop := if sg then sgnOf w a < sgnOf w b else a < b
    atomNew .add w sg a b = (a + b) % 2 ^ w ∧ atomNew .and w sg a b = a &&& b ∧ atomNew .or w sg a b = a ||| b ∧
    atomNew .xor w sg a b = a ^^^ b ∧ atomNew .xchg w sg a b = b ∧
    (lt → atomNew .min w sg a b = a ∧ atomNew .max w sg a b = b) ∧ (¬lt → atomNew .min w sg a b = b ∧ atomNew .max w sg a b = a) ∧
    (a < b → atomNew .inc w sg a b = a + 1) ∧ (b ≤ a → atomNew .inc w sg a b = 0) ∧
    (a = 0 ∨ b < a → atomNew .dec w sg a b = b) ∧ (a ≠ 0 → a ≤ b → atomNew .dec w sg a b = a - 1) := by
  intro lt
  have hlt : (if sg then decide (sgnOf w a < sgnOf w b) else decide (a < b)) = decide lt := by
    cases sg <;> rfl
  refine ⟨rfl, rfl, rfl, rfl, rfl, fun h => ⟨?_, ?_⟩, fun h => ⟨?_, ?_⟩, fun h => if_neg (by omega), fun h => if_pos h, fun h => if_pos h,
    fun h0 hle => if_neg (by omega)⟩
  all_goals
    simp only [atomNew, hlt, h, decide_true, decide_false, if_true, Bool.false_eq_true, if_false]

-- LDWATCH.

namespace MemSide

theorem watchLane (s : State) (k : Key) (meet : Meet) (pa home : Nat) : MemSide s (s.watchLane k meet pa home).2 := by
  unfold State.watchLane
  split
  · exact refl s
  · split
    · exact (touch _ _ _ _ _ _ _).trans (lsuRead _ _ _ _ _)
    · exact (touch _ _ _ _ _ _ _).trans (lsuRead _ _ _ _ _)
    · exact (l2Touch _ _ _ _ _).trans (meetRead _ _ _ _)
    · exact (l2Touch _ _ _ _ _).trans (meetRead _ _ _ _)

theorem watchLanes (k : Key) (meet : Meet) (ls : List (LaneAcc × Nat × Nat)) (s : State) : MemSide s (watchLanes k meet ls s).2 := by
  induction ls generalizing s with
  | nil => exact refl s
  | cons a r ih => exact (watchLane s k meet a.2.1 a.2.2).trans (ih _)

end MemSide

/-- The reads of LDWATCH that reach memory are performed lane by lane. -/
theorem watchReads_ready {s s1 : State} {k : Key} {t : BitVec 4} {x : MF} {w : Wave} {meet : Meet} {tr : List (LaneAcc × Nat × Nat)}
    (htr : trLanes k 4 .read (ldwatchLanes x w) s = .ok s1 tr) (hstuck : s1.accStuck (watchAcc meet) (.ldwatch t x) k tr = false)
    (hecc : s1.accEcc (watchAcc meet) (.ldwatch t x) k tr = none)
    (hwait : s1.waitingLanes (watchAcc meet) k 4 (s1.servedLanes (watchAcc meet) k 4 tr) = []) :
    s.watchReads t x k w meet = .ok ((watchLanes k meet (s1.servedLanes (watchAcc meet) k 4 tr) s1).2.dropOps .wave k)
      (watchLanes k meet (s1.servedLanes (watchAcc meet) k 4 tr) s1).1 := by
  simp only [State.watchReads, htr, hstuck, hecc, hwait, Bool.false_eq_true, if_false]

theorem watchReads_off {s s2 : State} {k : Key} {t : BitVec 4} {x : MF} {w : Wave} {meet : Meet} {vals : Tab Nat}
    (h : s.watchReads t x k w meet = .ok s2 vals) : MemSide s s2 := by
  rw [State.watchReads] at h
  split at h
  case h_4 s1 tr htr =>
    have hside := MemSide.trLanes htr
    split at h
    · cases h
    · split at h
      · cases h
      · extract_lets ls at h
        split at h
        · cases h
          exact hside.trans ((MemSide.watchLanes _ _ _ _).trans (MemSide.dropOps _ _ _))
        · cases h
  all_goals cases h

theorem watched_off {s s2 : State} {k : Key} {t : BitVec 4} {x : MF} {w : Wave} {meet : Meet} {vals : Tab Nat}
    (h : s.watchReads t x k w meet = .ok s2 vals) (acq : Bool) (cl : Nat) (inst : ScopeInst) :
    OffWave s (if acq then s2.acquire cl inst else s2) :=
  OffWave.ite ((watchReads_off h).trans (MemSide.acquire _ _ _)).off (watchReads_off h).off

section
variable {s : State} {t : BitVec 4} {x : MF} {ep : Word} {inst : ScopeInst}

/-- LDWATCH runs its body upon the wave with the banks awake that it reads. -/
theorem ldwatch_body (h : s.mayIssue (.ldwatch t x)) (hg : s.gateOpen 0)
    (hsc : (s.begun (.ldwatch t x)).scopeCheck s.cur x.sc.toNat = .inr (ep, inst)) :
    ∃ body, exec (.ldwatch t x) s = .next (s.issue (.ldwatch t x) body) ∧
      body (s.begun (.ldwatch t x)) s.cur (s.readWave (.ldwatch t x)) =
        ldwatchBody t x ep inst (s.begun (.ldwatch t x)) s.cur (s.readWave (.ldwatch t x)) :=
  ⟨_, rfl, scoped_begun _ h hg hsc⟩

theorem ldwatch_idle (h : s.mayIssue (.ldwatch t x)) (hact : s.actOf (.ldwatch t x) = 0) :
    ldwatchBody t x ep inst (s.begun (.ldwatch t x)) s.cur (s.readWave (.ldwatch t x)) = .done (s.begun (.ldwatch t x)) [] := by
  have hm : (s.readWave (.ldwatch t x)).act x.pr x.pn = 0 := (readWave_act s _ h _ _).trans hact
  unfold ldwatchBody
  exact if_pos hm

end

/-- What LDWATCH does with the answer of its reads. -/
def State.watched (s : State) (t : BitVec 4) (x : MF) (ep : Word) (inst : ScopeInst) : WatchRead → Eff
  | .fault s1 c det => .faultIn s1 c (BitVec.ofNat 64 det)
  | .miss va =>
    match s.ctxOf s.cur with
    | none => .fault .xlate (BitVec.ofNat 64 va)
    | some c => .wait ((s.begun (.ldwatch t x)).reportMiss c va (.front s.cur))
        (.watchMiss va (if t = 0 then none else some (s.reft + 2 ^ (t.toNat + 6))) ep) (lateRes (watchRes x (s.actOf (.ldwatch t x)) [] 0))
  | .wait s1 => .wait s1 (.ldwatch (if t = 0 then none else some (s.reft + 2 ^ (t.toNat + 6))) ep)
      (lateRes (watchRes x (s.actOf (.ldwatch t x)) [] 0))
  | .ok s2 vals =>
    if watchChanged x (s.wave s.cur) vals then
      .done (if ordAcq (mfOrd x) then s2.acquire (clusterOf (coreOf s.cur)) inst else s2) (watchRes x (s.actOf (.ldwatch t x)) vals 0)
    else .wait s2 (.ldwatch (if t = 0 then none else some (s.reft + 2 ^ (t.toNat + 6))) ep)
      (lateRes (watchRes x (s.actOf (.ldwatch t x)) [] 0))

theorem watched_miss {s : State} {t : BitVec 4} {x : MF} {ep : Word} {inst : ScopeInst} {va c : Nat} (hctx : s.ctxOf s.cur = some c) :
    s.watched t x ep inst (.miss va) = .wait ((s.begun (.ldwatch t x)).reportMiss c va (.front s.cur))
      (.watchMiss va (if t = 0 then none else some (s.reft + 2 ^ (t.toNat + 6))) ep) (lateRes (watchRes x (s.actOf (.ldwatch t x)) [] 0)) := by
  simp only [State.watched, hctx]

theorem ldwatch_reads {s : State} {t : BitVec 4} {x : MF} (ep : Word) (inst : ScopeInst) (h : s.mayIssue (.ldwatch t x))
    (hact : s.actOf (.ldwatch t x) ≠ 0) (hfault : accFault 4 (ldwatchLanes x (s.wave s.cur)) = none) :
    ldwatchBody t x ep inst (s.begun (.ldwatch t x)) s.cur (s.readWave (.ldwatch t x)) =
      s.watched t x ep inst ((s.begun (.ldwatch t x)).watchReads t x s.cur (s.readWave (.ldwatch t x)) inst.meet) := by
  have hm : (s.readWave (.ldwatch t x)).act x.pr x.pn = s.actOf (.ldwatch t x) := readWave_act s _ h _ _
  obtain ⟨bk, hread, -⟩ := readWave_spec s _ h
  have hlanes : ldwatchLanes x (s.readWave (.ldwatch t x)) = ldwatchLanes x (s.wave s.cur) := by rw [hread]; rfl
  have hchanged : ∀ vals, watchChanged x (s.readWave (.ldwatch t x)) vals = watchChanged x (s.wave s.cur) vals := fun vals => by
    rw [hread]; rfl
  simp only [ldwatchBody, hm, hlanes, hfault, hchanged, if_neg hact]
  generalize (s.begun (.ldwatch t x)).watchReads t x s.cur (s.readWave (.ldwatch t x)) inst.meet = r
  cases r <;> rfl

/-- Settles O32. -/
theorem atomicsAndWatches : Obligations.AtomicsAndWatches := by
  unfold Obligations.AtomicsAndWatches
  refine ⟨⟨?atom, atomAt_spec, fun w a b sg _ _ => atomNew_spec w a b sg⟩, ?watch, ?reads, ?wake⟩
  case atom =>
    intro s i x hi h hg k
    refine ⟨fun c hsc => ?_, fun ep inst s1 ls hsc hready => accWord_runs (.inr ⟨x, inst, hi, hsc⟩) h hg hready⟩
    have hfault : ∀ body, memGate 0 (withScope x body) (s.begun i) s.cur (s.readWave i) = .fault c (x.sc.setWidth 64) := by
      intro body
      rw [memGate_begun s i 0 _ h hg, withScope, hsc]
    cases i <;> simp only [atomAcc, reduceCtorEq, Option.some.injEq] at hi <;> subst hi <;> exact faults_of s _ _ _ _ h rfl (hfault _)
  case watch =>
    intro s t x ep inst i k h hg hsc
    obtain ⟨body, hexec, hbody⟩ := ldwatch_body h hg hsc
    refine ⟨fun hact => ?_, fun hact hfault => ?_⟩
    · exact runs_of s _ i body _ _ h hexec (hbody.trans (ldwatch_idle h hact)) (begun_sound h)
    · have hdo := hbody.trans (ldwatch_reads ep inst h hact hfault)
      refine ⟨fun s2 vals hread => ⟨fun hch => ?_, fun hch => ?_⟩, fun s2 hread => ?_, fun va c hread hctx => ?_⟩
      · refine runs_of s _ i body _ _ h hexec (hdo.trans ?_) (off_sound h (watched_off hread _ _ _))
        rw [hread, State.watched, if_pos hch]
      · refine waits_of s _ i body _ _ h hexec (hdo.trans ?_)
        rw [hread, State.watched, if_neg (by rw [hch]; exact Bool.false_ne_true)]
      · refine waits_of s _ i body _ _ h hexec (hdo.trans ?_)
        rw [hread, State.watched]
      · refine waits_of s _ i body _ _ h hexec (hdo.trans ?_)
        rw [hread]
        exact watched_miss hctx
  case reads =>
    intro s s1 k t x w meet tr i ls htr hstuck hecc hwait
    exact watchReads_ready htr hstuck hecc hwait
  case wake =>
    intro s s2 k dl ep t x vals w inst hpark hword hstop hclock hreads
    show execLdwatchWake k s = _
    simp only [execLdwatchWake, show (s.wave k).park = _ from hpark, show (s.wave k).parkI = _ from hword, show (s.wave k).stopped = _ from hstop, hclock,
      show s.watchReads t x k (s.wave k) (s.scopeInst k x.sc.toNat ep).meet = _ from hreads, Bool.not_true, Bool.or_self, Bool.false_eq_true, if_false] <;> rfl

end Sys2Proof.Machine
end


section
/-! O19: every step keeps the canonical form of memory, one lemma for each function of the model that answers a state. `foo_mem`
says that memory is as before, `foo_canon` that it is canonical where it was. Here: the shared operations and memory itself. -/

namespace Sys2Proof.Machine

-- What a body or a front answers.

/-- What a wave word's body answers holds no memory but canonical ones. -/
def Eff.canon : Eff → Prop
  | .done t _ _ | .faultIn t _ _ | .park t _ | .wait t _ _ | .holdIn t => memWf t.mem = true
  | .fault _ _ | .hold => True

/-- The same of the answer of a stream word's body. -/
def SeqEff.canon : SeqEff → Prop
  | .done t _ | .faultIn t _ _ | .wait t => memWf t.mem = true
  | .fault _ _ | .miss _ => True

/-- The same of the answer of a front. -/
def Front.canon : Front → Prop
  | .run t _ | .other t => memWf t.mem = true
  | .idle => True

/-- The same of the answer of the reads of an LDWATCH. -/
def WatchRead.canon : WatchRead → Prop
  | .ok t _ | .fault t _ _ | .wait t => memWf t.mem = true
  | .miss _ => True

-- Loops.

theorem foldl_mem {α : Type} {f : State → α → State} (hf : ∀ s a, (f s a).mem = s.mem) (l : List α) (s : State) :
    (l.foldl f s).mem = s.mem := by
  induction l generalizing s with
  | nil => rfl
  | cons a r ih => rw [List.foldl_cons, ih, hf]

theorem foldl_canon {α : Type} {f : State → α → State} (hf : ∀ s a, memWf s.mem = true → memWf (f s a).mem = true) (l : List α) (s : State)
    (hm : memWf s.mem = true) : memWf (l.foldl f s).mem = true := by
  induction l generalizing s with
  | nil => exact hm
  | cons a r ih => exact ih _ (hf s a hm)

theorem foldl_bind_canon {α : Type} {f : α → State → Option State}
    (hf : ∀ a s t, memWf s.mem = true → f a s = some t → memWf t.mem = true) (l : List α) (o : Option State)
    (ho : ∀ u, o = some u → memWf u.mem = true) (u : State) (h : l.foldl (fun o a => o.bind (f a)) o = some u) : memWf u.mem = true := by
  induction l generalizing o with
  | nil => exact ho u h
  | cons a r ih =>
    refine ih (o.bind (f a)) (fun v hv => ?_) h
    obtain ⟨s, hs, hv⟩ := Option.bind_eq_some_iff.mp hv
    exact hf a s v (ho s hs) hv

theorem foldl_fst_mem {α β : Type} {f : State × β → α → State × β} (hf : ∀ p a, (f p a).1.mem = p.1.mem) (l : List α) (p : State × β) :
    (l.foldl f p).1.mem = p.1.mem := by
  induction l generalizing p with
  | nil => rfl
  | cons a r ih => rw [List.foldl_cons, ih, hf]

-- The shared operations.

theorem State.pokeBytes_canon (s : State) (pa : Nat) (bs : List Byte) (hm : memWf s.mem = true) : memWf (s.pokeBytes pa bs).mem = true :=
  (MemSide.pokeBytes _ _ _).canon hm

theorem State.poke64_canon (s : State) (pa : Nat) (v : Dword) (hm : memWf s.mem = true) : memWf (s.poke64 pa v).mem = true :=
  (MemSide.poke64 _ _ _).canon hm

theorem State.dropInj_mem (s : State) (c : Nat) : (s.dropInj c).mem = s.mem := rfl

theorem State.putByte_canon (s : State) (m : Byte) (a : Nat) (b : Byte) (hm : memWf s.mem = true) : memWf (s.putByte m a b).mem = true :=
  (MemSide.putByte _ _ _ _).canon hm

theorem State.setExtw_canon (s : State) (c : Nat) (b : Bool) (hm : memWf s.mem = true) : memWf (s.setExtw c b).mem = true :=
  (MemSide.setExtw _ _ _).canon hm

theorem State.event_mem (s : State) (d kind : Nat) (h : Word) (w1 : Dword) (key : Nat) : (s.event d kind h w1 key).mem = s.mem := rfl

theorem State.countLoss_mem (s : State) (c : Nat) (cls : Option FClass) : (s.countLoss c cls).mem = s.mem := by
  unfold State.countLoss
  split <;> rfl

theorem State.tellClass_mem (s : State) (c : Nat) : (s.tellClass c).mem = s.mem := rfl

theorem State.floodgate_mem (s : State) (c : Nat) (r : StopRec) : (s.floodgate c r).mem = s.mem := by
  unfold State.floodgate
  grind [State.tellClass_mem, State.countLoss_mem, State.modCtx_mem, State.event_mem]

theorem State.leaveAcq_mem (s : State) (k : Key) : (s.leaveAcq k).mem = s.mem := by
  unfold State.leaveAcq
  split <;> rfl

theorem State.raiseWave_mem (s : State) (k : Key) (cls : FClass) (det word : Dword) (atc prec : Bool) :
    (s.raiseWave k cls det word atc prec).mem = s.mem := by
  unfold State.raiseWave
  grind [State.floodgate_mem, State.leaveAcq_mem, State.modWave_mem, State.leaveQuad_mem, State.event_mem]

theorem State.raiseSeq_mem (s : State) (c : Key) (cls : FClass) (det word : Dword) : (s.raiseSeq c cls det word).mem = s.mem := by
  unfold State.raiseSeq
  grind [State.floodgate_mem, State.modCrew_mem]

theorem State.raiseCopy_mem (s : State) (core pos : Nat) (cls : FClass) (det : Dword) : (s.raiseCopy core pos cls det).mem = s.mem := by
  unfold State.raiseCopy
  grind [State.floodgate_mem, State.modCore_mem]

theorem State.countIssue_mem (s : State) (k : Key) : (s.countIssue k).mem = s.mem := by
  unfold State.countIssue
  split <;> rfl

theorem State.useSources_mem (s : State) (k : Key) (i : Instr) : (s.useSources k i).mem = s.mem := by
  unfold State.useSources
  grind [State.setWave_mem, State.modCrew_mem]

theorem State.takeEffect_mem (s : State) (k : Key) (i : Instr) (res : List Res) : (s.takeEffect k i res).mem = s.mem := by
  unfold State.takeEffect
  grind [State.setWave_mem, State.countIssue_mem]

theorem State.retire_mem (s : State) (k : Key) (i : Instr) (res : List Res) (adv : Adv) : (s.retire k i res adv).mem = s.mem := by
  unfold State.retire
  grind [State.useSources_mem, State.takeEffect_mem, State.modWave_mem]

theorem State.raiseLoss_mem (s : State) (k : Key) (before : Wave) (b : Nat) (word : Dword) (reads : Bool) :
    (s.raiseLoss k before b word reads).mem = s.mem := by
  unfold State.raiseLoss
  grind [State.raiseWave_mem]

theorem State.issue_canon (s : State) (i : Instr) (body : State → Key → Wave → Eff) (hb : ∀ s k w, memWf s.mem = true → (body s k w).canon)
    (hm : memWf s.mem = true) : memWf (s.issue i body).mem = true := by
  have hbody := hb (s.setWave s.cur ((s.wave s.cur).wake (banksOf (opdsOf i) fun o => o.reads)).1) s.cur
    ((s.wave s.cur).wake (banksOf (opdsOf i) fun o => o.reads)).1 hm
  unfold State.issue
  grind [Eff.canon, State.parkWave_mem, State.raiseWave_mem, State.raiseLoss_mem, State.setWave_mem, State.useSources_mem, State.takeEffect_mem,
    State.retire_mem]

theorem State.free_mem (s : State) : (s.free).2.mem = s.mem := rfl

theorem State.returnWave_mem (s : State) (k : Key) (cls : Option FClass) (word : Dword) : (s.returnWave k cls word).mem = s.mem := rfl

-- Operands.

theorem intBody_canon (i : Instr) (sf : Bool) (x : VF) (op : Srcs → Nat) (s : State) (k : Key) (w : Wave) (hm : memWf s.mem = true) :
    (intBody i sf x op s k w).canon := by
  unfold intBody
  grind [Eff.canon]

theorem intMaskBody_canon (i : Instr) (sf : Bool) (x : VF) (op : Srcs → Bool) (s : State) (k : Key) (w : Wave) (hm : memWf s.mem = true) :
    (intMaskBody i sf x op s k w).canon := by
  unfold intMaskBody
  grind [Eff.canon]

-- Holds of a crew.

theorem State.notice_mem (s : State) (c c8 : Nat) : (s.notice c c8).mem = s.mem := by
  unfold State.notice
  split <;> rfl

theorem State.throttle_mem (s : State) (k : Key) (cause duty : Nat) : (s.throttle k cause duty).mem = s.mem := by
  unfold State.throttle
  grind [State.modCrew_mem, State.notice_mem]

theorem State.unthrottle_mem (s : State) (k : Key) (cause : Nat) : (s.unthrottle k cause).mem = s.mem := rfl

theorem State.holdSlow_mem (s : State) (p d : Nat) : (s.holdSlow p d).mem = s.mem := by
  unfold State.holdSlow
  grind [foldl_mem, State.throttle_mem, State.unthrottle_mem]

theorem State.barrierStamp_mem (s : State) (pa p : Nat) (k : Key) : (s.barrierStamp pa p k).mem = s.mem := by
  unfold State.barrierStamp
  grind [State.modPkg_mem, State.holdSlow_mem]

theorem State.barrierLeave_mem (s : State) : (s.barrierLeave).mem = s.mem := by
  unfold State.barrierLeave
  grind [foldl_mem, State.modPkg_mem, State.holdSlow_mem]

theorem State.slowNew_mem (s : State) (k : Key) : (s.slowNew k).mem = s.mem := by
  unfold State.slowNew
  cases (s.slowing (polderOf (s.crew k).ctx) (dieOf (coreOfCrew k))).min? with
  | none => rfl
  | some d => exact State.throttle_mem s k 4 d

theorem State.islandSettle_mem (s : State) (core : Nat) : (s.islandSettle core).mem = s.mem := by
  unfold State.islandSettle
  grind [State.modCore_mem]

-- Clocks and waiting requests.

theorem State.beginRelock_mem (s : State) (d m : Nat) : (s.beginRelock d m).mem = s.mem := by
  unfold State.beginRelock
  grind [foldl_mem, State.throttle_mem, State.modCore_mem, State.modDie_mem]

theorem State.beginStep_mem (s : State) (d m : Nat) : (s.beginStep d m).mem = s.mem := by
  unfold State.beginStep
  grind [State.modDie_mem, State.beginRelock_mem]

theorem State.writeTgt_mem (s : State) (d m : Nat) (thermal : Bool) : (s.writeTgt d m thermal).mem = s.mem := by
  unfold State.writeTgt
  grind [State.beginStep_mem, State.modDie_mem]

-- Memory as engines see it.

theorem State.meter_mem (s : State) (p i n : Nat) : (s.meter p i n).mem = s.mem := rfl

theorem State.tokens_mem (s : State) (p path n : Nat) : (s.tokens p path n).mem = s.mem := rfl

theorem State.charge_mem (s : State) (c : Option Nat) (pa n : Nat) : (s.charge c pa n).mem = s.mem := rfl

theorem State.translate_canon (s : State) (c : Option Nat) (core va : Nat) (a : Acc) {t : State} {pa' home' : Nat} (hm : memWf s.mem = true)
    (h : s.translate c core va a = .ok t pa' home') :
    memWf t.mem = true :=
  (MemSide.translate h).canon hm

theorem State.dropCheckpoint_canon (s : State) (c : Nat) (hm : memWf s.mem = true) : memWf (s.dropCheckpoint c).mem = true :=
  (MemSide.dropCheckpoint _ _).canon hm

theorem State.l2Dirty_mem (s : State) (w line : Nat) : (s.l2Dirty w line).mem = s.mem := by
  unfold State.l2Dirty
  split <;> rfl

theorem State.homeStore_canon (s : State) (c : Option Nat) (pa : Nat) (bs : List Byte) (hm : memWf s.mem = true) :
    memWf (s.homeStore c pa bs).mem = true :=
  (MemSide.homeStore _ _ _ _).canon hm

theorem State.setDcache_mem (s : State) (cl : Nat) (t : Tab CByte) : (s.setDcache cl t).mem = s.mem := rfl

theorem State.fillLine_mem (s : State) (cl pa : Nat) : (s.fillLine cl pa).mem = s.mem := by
  unfold State.fillLine
  grind [State.setDcache_mem]

theorem State.freshen_mem (s : State) (cl pa n : Nat) : (s.freshen cl pa n).mem = s.mem := by
  unfold State.freshen
  split <;> rfl

theorem State.meetRead_mem (s : State) (cl pa n : Nat) : (s.meetRead cl pa n).2.mem = s.mem := by
  unfold State.meetRead
  grind [State.freshen_mem]

theorem State.lsuRead_mem (s : State) (cl pa n home : Nat) : (s.lsuRead cl pa n home).2.mem = s.mem := by
  unfold State.lsuRead
  grind [State.fillLine_mem, State.meetRead_mem]

theorem State.dropCopies_mem (s : State) (cl pa n : Nat) : (s.dropCopies cl pa n).mem = s.mem := rfl

theorem State.lsuWrite_canon (s : State) (c : Option Nat) (cl pa home : Nat) (bs : List Byte) (hm : memWf s.mem = true) :
    memWf (s.lsuWrite c cl pa home bs).mem = true :=
  (MemSide.lsuWrite _ _ _ _ _ _).canon hm

theorem State.heal_mem (s : State) (lines : List Nat) : (s.heal lines).mem = s.mem := by
  unfold State.heal
  grind [State.modPkg_mem]

theorem State.discardLine_mem (s : State) (cl line : Nat) : (s.discardLine cl line).mem = s.mem := rfl

theorem State.l2Remove_mem (s : State) (n line : Nat) : (s.l2Remove n line).mem = s.mem := rfl

theorem State.l2Discard_canon (s : State) (line : Nat) (hm : memWf s.mem = true) : memWf (s.l2Discard line).mem = true :=
  (MemSide.l2Discard _ _).canon hm

theorem State.memLoss_mem (s : State) (w line : Nat) : (s.memLoss w line).mem = s.mem := by
  unfold State.memLoss
  grind [State.floodgate_mem]

theorem State.loseLine_mem (s : State) (cl line : Nat) : (s.loseLine cl line).mem = s.mem := by
  unfold State.loseLine
  grind [State.discardLine_mem, State.memLoss_mem]

theorem State.l2Lose_canon (s : State) (line : Nat) (hm : memWf s.mem = true) : memWf (s.l2Lose line).mem = true :=
  (MemSide.l2Lose _ _).canon hm

theorem State.discardBad_canon (s : State) (cl line : Nat) (hm : memWf s.mem = true) : memWf (s.discardBad cl line).mem = true :=
  (MemSide.discardBad _ _ _).canon hm

theorem State.l2Evict_canon (s : State) (n line : Nat) (hm : memWf s.mem = true) : memWf (s.l2Evict n line).mem = true :=
  (MemSide.l2Evict _ _ _).canon hm

theorem State.l2Touch_canon (s : State) (c : Option Nat) (pa size home : Nat) (hm : memWf s.mem = true) :
    memWf (s.l2Touch c pa size home).mem = true :=
  (MemSide.l2Touch _ _ _ _ _).canon hm

theorem State.writeBack_canon (s : State) (cl : Nat) (p : Nat → Bool) (hm : memWf s.mem = true) : memWf (s.writeBack cl p).mem = true :=
  (MemSide.writeBack _ _ _).canon hm

theorem State.dropClean_mem (s : State) (cl : Nat) (p : Nat → Bool) : (s.dropClean cl p).mem = s.mem := rfl

theorem State.evict_canon (s : State) (cl line : Nat) (hm : memWf s.mem = true) : memWf (s.evict cl line).mem = true :=
  (MemSide.evict _ _ _).canon hm

theorem State.makeRoom_canon (s : State) (cl : Nat) (hm : memWf s.mem = true) : memWf (s.makeRoom cl).mem = true :=
  (MemSide.makeRoom _ _).canon hm

theorem State.roomFor_canon (s : State) (cl line : Nat) (hm : memWf s.mem = true) : memWf (s.roomFor cl line).mem = true :=
  (MemSide.roomFor _ _ _).canon hm

theorem State.release_canon (s : State) (cl : Nat) (x : ScopeInst) (hm : memWf s.mem = true) : memWf (s.release cl x).mem = true :=
  (MemSide.release _ _ _).canon hm

theorem State.acquire_mem (s : State) (cl : Nat) (x : ScopeInst) : (s.acquire cl x).mem = s.mem := by
  unfold State.acquire
  split <;> rfl

theorem State.noteStore_mem (s : State) (eng : EngKind) (key cl line : Nat) : (s.noteStore eng key cl line).mem = s.mem := by
  unfold State.noteStore
  split <;> rfl

theorem State.releaseLines_mem (s : State) (f : EngKind → Nat → Bool) : (s.releaseLines f).mem = s.mem := by
  unfold State.releaseLines
  split <;> rfl

theorem State.waveReleases_mem (s : State) (k : Key) : (s.waveReleases k).mem = s.mem := by
  unfold State.waveReleases
  grind [State.releaseLines_mem]

theorem State.fetchWord_canon (s : State) (c : Option Nat) (core va : Nat) {t : State} {r : Dword} (hm : memWf s.mem = true)
    (h : s.fetchWord c core va = .ok t r) :
    memWf t.mem = true :=
  (MemSide.fetchWord h).canon hm

theorem State.fetchWave_canon (s : State) (k : Key) (va : Nat) {t : State} {r : Dword} (hm : memWf s.mem = true) (h : s.fetchWave k va = .ok t r) :
    memWf t.mem = true :=
  (MemSide.fetchWave h).canon hm

theorem State.settleDry_mem (s : State) (c : Key) : (s.settleDry c).mem = s.mem := by
  unfold State.settleDry
  grind [State.throttle_mem, State.unthrottle_mem]

theorem State.chargeHome_mem (s : State) (c : Option Nat) (pa n : Nat) : (s.chargeHome c pa n).mem = s.mem := by
  unfold State.chargeHome
  split <;> rfl

theorem State.touchL2_canon (s : State) (c : Option Nat) (core pa size home : Nat) (hm : memWf s.mem = true) :
    memWf (s.touchL2 c core pa size home).mem = true :=
  (MemSide.touchL2 _ _ _ _ _ _).canon hm

theorem State.touch_canon (s : State) (c : Option Nat) (core : Nat) (ch : BitVec 2) (pa size home : Nat) (hm : memWf s.mem = true) :
    memWf (s.touch c core ch pa size home).mem = true :=
  (MemSide.touch _ _ _ _ _ _ _).canon hm

theorem State.sendPeer_mem (s : State) (eng : EngKind) (key lane addr va : Nat) (write : Bool) (data size : Nat) :
    (s.sendPeer eng key lane addr va write data size).mem = s.mem := by
  unfold State.sendPeer
  split <;> rfl

theorem State.tellMiss_mem (s : State) (c : Nat) : (s.tellMiss c).mem = s.mem := by
  unfold State.tellMiss
  split <;> rfl

theorem State.reportMiss_mem (s : State) (c va : Nat) (who : MissWho) : (s.reportMiss c va who).mem = s.mem := by
  unfold State.reportMiss
  grind [State.tellMiss_mem, State.modCtx_mem]

theorem State.forgetMisses_mem (s : State) (c : Nat) (p : MissWho → Bool) : (s.forgetMisses c p).mem = s.mem := by
  unfold State.forgetMisses
  grind [State.tellMiss_mem, State.modCtx_mem]

theorem State.forgetMiss_mem (s : State) (c : Nat) (who : MissWho) : (s.forgetMiss c who).mem = s.mem := by
  unfold State.forgetMiss
  grind [State.forgetMisses_mem]

theorem State.missFront_canon (s : State) (k : Key) (va : Nat) (hm : memWf s.mem = true) : (s.missFront k va).canon := by
  unfold State.missFront
  grind [Eff.canon, State.reportMiss_mem]

end Sys2Proof.Machine
end


section
/-! O19, continued: the issue of a word, the scratchpad, control words, special registers and scopes. -/

namespace Sys2Proof.Machine

-- The issue of a word.

theorem State.reach_canon (s : State) (k : Key) (hm : memWf s.mem = true) : memWf (s.reach k).mem = true := by
  unfold State.reach
  grind [State.setWave_mem, State.parkWave_mem, State.raiseWave_mem]

theorem State.sinceReady_mem (s : State) (k : Key) (t : State) : (s.sinceReady k t).mem = t.mem := by
  unfold State.sinceReady; split <;> rfl

theorem State.parkFetch_mem (s : State) (k : Key) (va : Nat) : (s.parkFetch k va).mem = s.mem := by
  unfold State.parkFetch
  grind [State.parkWave_mem, State.reportMiss_mem, State.raiseWave_mem]

theorem State.enterClause_canon (s : State) (k : Key) (hm : memWf s.mem = true) : memWf (s.enterClause k).mem = true := by
  unfold State.enterClause
  grind [State.modQuad_mem, State.fetchWave_canon, State.parkFetch_mem, State.modWave_mem, State.raiseWave_mem]

theorem execClauseIssuePick_canon (core q : Nat) (s : State) {t : State} (hm : memWf s.mem = true) (h : execClauseIssuePick core q s = .next t) :
    memWf t.mem = true := by
  unfold execClauseIssuePick at h
  grind [foldl_canon, State.modQuad_mem, State.enterClause_canon, State.modWave_mem, State.reach_canon]

theorem State.nextWord_canon (s : State) (k : Key) (hm : memWf s.mem = true) : (s.nextWord k).canon := by
  unfold State.nextWord
  extract_lets w
  split
  · trivial
  · split
    · trivial
    · split
      · trivial
      · exact (congrArg memWf (State.parkFetch_mem s k _)).trans hm
      · exact (congrArg memWf (State.raiseWave_mem s k _ _ _ _ _)).trans hm
      · exact (congrArg memWf (State.raiseWave_mem s k _ _ _ _ _)).trans hm
      · next s1 x hf =>
        have hm1 := State.fetchWave_canon s k _ hm hf
        grind [Front.canon, State.raiseWave_mem]

-- The scratchpad.

theorem State.serveWord_mem (s : State) (c : Key) (n : Nat) : (s.serveWord c n).mem = s.mem := by
  unfold State.serveWord
  grind [foldl_mem, State.setCrew_mem, State.modWave_mem]

theorem State.putWord_mem (s : State) (c : Key) (n : Nat) (x : SpWord) : (s.putWord c n x).mem = s.mem := by
  unfold State.putWord
  grind [State.serveWord_mem, State.modCrew_mem]

theorem memGate_canon (path : Nat) (body : State → Key → Wave → Eff) (s : State) (k : Key) (w : Wave)
    (hb : ∀ s k w, memWf s.mem = true → (body s k w).canon) (hm : memWf s.mem = true) : (memGate path body s k w).canon := by
  unfold memGate
  split
  · exact hm
  · split
    · trivial
    · exact hb s k w hm

theorem State.woken_mem (s : State) (k : Key) : (s.woken k).mem = s.mem := rfl

theorem State.finish_mem (s : State) (k : Key) (res : List Res) : (s.finish k res).mem = s.mem := by
  unfold State.finish
  grind [State.useSources_mem, State.woken_mem, State.modWave_mem]

theorem ldsLane_mem (mode : LdsMode) (n : Nat) (ck : Key) (wid : Nat) (live : Bool) (a l : Nat) (s : State) :
    (ldsLane mode n ck wid live a l s).1.mem = s.mem := by
  unfold ldsLane
  grind [State.modCrew_mem, State.putWord_mem]

theorem ldsLanes_mem (mode : LdsMode) (n : Nat) (x : MF) (s : State) (k : Key) (w : Wave) (m : LaneMask) :
    (ldsLanes mode n x s k w m).1.mem = s.mem := by
  refine foldl_fst_mem (fun p l => ?_) _ _
  dsimp only
  split <;> exact ldsLane_mem ..

theorem ldsBody_canon (mode : LdsMode) (sz : SpSize) (x : MF) (s : State) (k : Key) (w : Wave) (hm : memWf s.mem = true) :
    (ldsBody mode sz x s k w).canon := by
  unfold ldsBody
  grind [Eff.canon, State.modCrew_mem, ldsLanes_mem, State.modWave_mem]

theorem stsLane_mem (e : Bool) (n : Nat) (ck : Key) (wid a l v : Nat) (s : State) : (stsLane e n ck wid a l v s).1.mem = s.mem := by
  unfold stsLane
  grind [foldl_mem, State.modCrew_mem, State.putWord_mem]

theorem stsLanes_mem (e : Bool) (n : Nat) (x : MF) (s : State) (k : Key) (w : Wave) (m : LaneMask) :
    (stsLanes e n x s k w m).1.mem = s.mem := by
  refine foldl_fst_mem (fun p l => ?_) _ _
  exact stsLane_mem ..

theorem stsBody_canon (e : Bool) (sz : SpSize) (x : MF) (s : State) (k : Key) (w : Wave) (hm : memWf s.mem = true) :
    (stsBody e sz x s k w).canon := by
  unfold stsBody
  grind [Eff.canon, State.modCrew_mem, stsLanes_mem, State.modWave_mem]

theorem State.tagDone_mem (s : State) (k : Key) : (s.tagDone k).mem = s.mem := by
  unfold State.tagDone
  grind [State.finish_mem]

theorem execTagWaitServed_canon (core cslot word : Nat) (s : State) {t : State} (hm : memWf s.mem = true)
    (h : execTagWaitServed core cslot word s = .next t) :
    memWf t.mem = true := by
  unfold execTagWaitServed at h
  grind [foldl_canon, State.serveWord_mem, State.tagDone_mem]

theorem sptagBody_canon (full : Bool) (x : MF) (s : State) (k : Key) (w : Wave) (hm : memWf s.mem = true) : (sptagBody full x s k w).canon := by
  unfold sptagBody
  grind [Eff.canon, foldl_canon, State.modCrew_mem, State.putWord_mem]

theorem State.dropBank_mem (s : State) (c : Key) (b : Nat) : (s.dropBank c b).mem = s.mem := by
  unfold State.dropBank
  split <;> rfl

theorem spdropBody_canon (x : MF) (s : State) (k : Key) (w : Wave) (hm : memWf s.mem = true) : (spdropBody x s k w).canon := by
  unfold spdropBody
  grind [Eff.canon, foldl_canon, State.dropBank_mem]

theorem execSpdropComplete_canon (crew bank : Nat) (s : State) {t : State} (hm : memWf s.mem = true) (h : execSpdropComplete crew bank s = .next t) :
    memWf t.mem = true := by
  unfold execSpdropComplete at h
  grind [State.dropBank_mem]

theorem State.spWakeEnd_mem (s : State) (crew bank : Nat) : (s.spWakeEnd crew bank).mem = s.mem := by
  unfold State.spWakeEnd
  grind [State.modCrew_mem, State.raiseCopy_mem]

theorem execSpBankWakeDone_canon (crew bank : Nat) (s : State) {t : State} (hm : memWf s.mem = true) (h : execSpBankWakeDone crew bank s = .next t) :
    memWf t.mem = true := by
  unfold execSpBankWakeDone at h
  grind [State.spWakeEnd_mem]

theorem execSpAutoDrop_canon (crew bank : Nat) (s : State) {t : State} (hm : memWf s.mem = true) (h : execSpAutoDrop crew bank s = .next t) :
    memWf t.mem = true := by
  unfold execSpAutoDrop at h
  grind [State.modCrew_mem]

theorem execSpBankRetain_canon (crew bank : Nat) (s : State) {t : State} (hm : memWf s.mem = true) (h : execSpBankRetain crew bank s = .next t) :
    memWf t.mem = true := by
  unfold execSpBankRetain at h
  grind [State.modCrew_mem]

-- Control words.

theorem waveLevel_canon (pr : BitVec 3) (pn : Bool) (body : State → Key → Wave → Eff) (s : State) (k : Key) (w : Wave)
    (hb : ∀ s k w, memWf s.mem = true → (body s k w).canon) (hm : memWf s.mem = true) : (waveLevel pr pn body s k w).canon := by
  unfold waveLevel
  split
  · exact hm
  · exact hb s k w hm

theorem State.grant_mem (s : State) (k : Key) : (s.grant k).mem = s.mem := by
  unfold State.grant
  grind [State.retire_mem, State.woken_mem, State.modWave_mem]

theorem State.reissue_mem (s : State) (k : Key) : (s.reissue k).mem = s.mem := rfl

theorem yieldBody_canon (s : State) (k : Key) (a1 : Wave) (hm : memWf s.mem = true) : (yieldBody s k a1).canon := by
  unfold yieldBody
  grind [Eff.canon, State.modQuad_mem, State.modWave_mem]

theorem sleepBody_canon (x : IF) (s : State) (k : Key) (w : Wave) (hm : memWf s.mem = true) : (sleepBody x s k w).canon := by
  unfold sleepBody
  grind [Eff.canon, yieldBody_canon]

theorem execSleepDeadline_canon (w : Key) (s : State) {t : State} (hm : memWf s.mem = true) (h : execSleepDeadline w s = .next t) :
    memWf t.mem = true := by
  unfold execSleepDeadline at h
  grind [State.finish_mem]

theorem checkWords_canon (k : Key) (ok : Dword → Bool) (det : Nat → Nat) (as : List Nat) (s : State) (hm : memWf s.mem = true) :
    (∀ e, checkWords k ok det as s = .inl e → e.canon) ∧ ∀ t r, checkWords k ok det as s = .inr (t, r) → memWf t.mem = true := by
  induction as generalizing s with
  | nil => grind [checkWords]
  | cons a r ih => grind [checkWords, Eff.canon, State.missFront_canon, State.fetchWave_canon]

theorem State.hintMiss_mem (s : State) (k : Key) (x : BF) (m meet : LaneMask) (targets : Nat) : (s.hintMiss k x m meet targets).mem = s.mem := by
  unfold State.hintMiss
  split <;> rfl

theorem branchBody_canon (x : BF) (tg : Wave → Fin 32 → Dword) (s : State) (k : Key) (w : Wave) (hm : memWf s.mem = true) :
    (branchBody x tg s k w).canon := by
  have hcheck := checkWords_canon k isHeader id (targetsOf (w.meets x) (tg w)) s hm
  unfold branchBody
  grind [Eff.canon, State.hintMiss_mem, State.modWave_mem]

theorem callBody_canon (x : BF) (tg : Wave → Fin 32 → Dword) (s : State) (k : Key) (w : Wave) (hm : memWf s.mem = true) :
    (callBody x tg s k w).canon := by
  unfold callBody
  extract_lets m meet ts ret go
  split
  · next h => exact (checkWords_canon _ _ _ _ _ hm).1 _ h
  · next h =>
    have h1 := (checkWords_canon _ _ _ _ _ hm).2 _ _ h
    split
    · next h => exact (checkWords_canon _ _ _ _ _ h1).1 _ h
    · next h =>
      have h2 := (checkWords_canon _ _ _ _ _ h1).2 _ _ h
      grind [Eff.canon, State.hintMiss_mem, State.modWave_mem]

theorem retBody_canon (x : BF) (s : State) (k : Key) (w : Wave) (hm : memWf s.mem = true) : (retBody x s k w).canon := by
  have hcheck := checkWords_canon k isHeader id (targetsOf (w.meets x) fun _ => BitVec.ofNat 64 (w.rsn (bfLink x) 2)) s hm
  unfold retBody
  grind [Eff.canon, State.hintMiss_mem, State.modWave_mem]

theorem State.barrierCheck_mem (s : State) (c : Key) (n : Nat) : (s.barrierCheck c n).mem = s.mem := by
  unfold State.barrierCheck
  grind [State.modCrew_mem]

theorem State.waveExit_mem (s : State) (k : Key) : (s.waveExit k).mem = s.mem := by
  unfold State.waveExit
  grind [foldl_mem, State.setWave_mem, State.barrierLeave_mem, State.barrierCheck_mem]

theorem exitBody_canon (x : BF) (s : State) (k : Key) (w : Wave) (hm : memWf s.mem = true) : (exitBody x s k w).canon := by
  unfold exitBody
  grind [Eff.canon, State.hintMiss_mem, State.modWave_mem]

theorem jwaitBody_canon (x : VF) (s : State) (k : Key) (w : Wave) (hm : memWf s.mem = true) : (jwaitBody x s k w).canon := by
  unfold jwaitBody
  grind [Eff.canon, State.setWave_mem]

theorem State.arrive_mem (s : State) (c : Key) (n count : Nat) {t : State} (h : s.arrive c n count = some t) : t.mem = s.mem := by
  unfold State.arrive at h
  grind [State.modCrew_mem]

theorem weirsetBody_canon (x : IF) (s : State) (k : Key) (a1 : Wave) (hm : memWf s.mem = true) : (weirsetBody x s k a1).canon := by
  unfold weirsetBody
  grind [Eff.canon, State.modCrew_mem]

theorem arriveBody_canon (sync : Bool) (x : IF) (s : State) (k : Key) (w : Wave) (hm : memWf s.mem = true) : (arriveBody sync x s k w).canon := by
  unfold arriveBody
  grind [Eff.canon, State.arrive_mem, State.waveReleases_mem, State.modWave_mem]

theorem weirwaitBody_canon (x : IF) (s : State) (k : Key) (w : Wave) (hm : memWf s.mem = true) : (weirwaitBody x s k w).canon := by
  unfold weirwaitBody
  grind [Eff.canon]

theorem cbarvBody_canon (x : IF) (s : State) (k : Key) (w : Wave) (hm : memWf s.mem = true) : (cbarvBody x s k w).canon := by
  unfold cbarvBody
  grind [Eff.canon, State.modCrew_mem, State.waveReleases_mem, State.modWave_mem, State.barrierCheck_mem]

theorem cbwaitBody_canon (x : IF) (s : State) (k : Key) (w : Wave) (hm : memWf s.mem = true) : (cbwaitBody x s k w).canon := by
  unfold cbwaitBody
  grind [Eff.canon]

theorem nexttileBody_canon (x : VF) (s : State) (k : Key) (w : Wave) (hm : memWf s.mem = true) : (nexttileBody x s k w).canon := by
  unfold nexttileBody
  grind [Eff.canon, State.modCrew_mem]

theorem acqxBody_canon (x : IF) (s : State) (k : Key) (w : Wave) (hm : memWf s.mem = true) : (acqxBody x s k w).canon := by
  unfold acqxBody
  grind [Eff.canon, State.modQuad_mem, State.modWave_mem]

theorem execAcqxGrant_canon (core q : Nat) (s : State) {t : State} (hm : memWf s.mem = true) (h : execAcqxGrant core q s = .next t) :
    memWf t.mem = true := by
  unfold execAcqxGrant at h
  grind [State.modQuad_mem, State.grant_mem, State.modWave_mem]

-- Special registers and scopes.

theorem srdBody_canon (x : IF) (s : State) (k : Key) (w : Wave) (hm : memWf s.mem = true) : (srdBody x s k w).canon := by
  unfold srdBody
  grind [Eff.canon]

theorem swrBody_canon (x : IF) (s : State) (k : Key) (w : Wave) (hm : memWf s.mem = true) : (swrBody x s k w).canon := by
  unfold swrBody
  grind [Eff.canon, State.modDie_mem, State.modCrew_mem, State.modWave_mem]

theorem State.dropWordOp_mem (s : State) (k : Key) : (s.dropWordOp k).mem = s.mem := by
  unfold State.dropWordOp
  split <;> rfl

theorem State.wordAccess_canon (s : State) (k : Key) (e : Dword) (size : Nat) (a : Acc) (hm : memWf s.mem = true) :
    (∀ f, s.wordAccess k e size a = .inl f → f.canon) ∧ ∀ t r, s.wordAccess k e size a = .inr (t, r) → memWf t.mem = true := by
  unfold State.wordAccess
  grind [Eff.canon, State.missFront_canon, State.translate_canon, State.sendPeer_mem, State.discardBad_canon, State.dropWordOp_mem,
    State.touchL2_canon]

theorem State.readWords_mem (s : State) (cl pa home n : Nat) : (s.readWords cl pa home n).2.mem = s.mem := by
  fun_induction State.readWords <;> grind [State.lsuRead_mem]

theorem scwBody_canon (x : MF) (s : State) (k : Key) (w : Wave) (hm : memWf s.mem = true) : (scwBody x s k w).canon := by
  have hacc := State.wordAccess_canon s k (w.addrS x) 64 .read hm
  unfold scwBody
  grind [Eff.canon, State.readWords_mem, State.installScope, State.modCtx_mem]

theorem State.writeWords_canon (s : State) (c : Option Nat) (cl home pa : Nat) (a1 : List Dword) (hm : memWf s.mem = true) :
    memWf (s.writeWords c cl home pa a1).mem = true :=
  (MemSide.writeWords _ _ _ _ _ _).canon hm

theorem scrBody_canon (x : MF) (s : State) (k : Key) (w : Wave) (hm : memWf s.mem = true) : (scrBody x s k w).canon := by
  have hacc := State.wordAccess_canon s k (w.addrS x) 64 .write hm
  unfold scrBody
  grind [Eff.canon, State.writeWords_canon]

theorem State.ackImage_canon (s : State) (core img wave n : Nat) (epoch : Word) (hm : memWf s.mem = true) :
    memWf (s.ackImage core img wave n epoch).mem = true :=
  (MemSide.ackImage _ _ _ _ _ _).canon hm

theorem State.ackAside_mem (s : State) (c : Nat) (k : Key) (wave n : Nat) (epoch : Word) : (s.ackAside c k wave n epoch).mem = s.mem := rfl

theorem scackBody_canon (x : MF) (s : State) (k : Key) (a1 : Wave) (hm : memWf s.mem = true) : (scackBody x s k a1).canon := by
  unfold scackBody
  grind [Eff.canon, State.ackAside_mem, State.ackImage_canon, State.modWave_mem]

end Sys2Proof.Machine
end


section
/-! O19, continued: memory words, copy commands, cross-lane words. -/

namespace Sys2Proof.Machine

-- Memory words.

theorem State.setForce_mem (s : State) (core : Nat) (b : Bool) : (s.setForce core b).mem = s.mem := by
  unfold State.setForce
  grind [State.islandSettle_mem, State.modCore_mem]

theorem trLanes_canon (k : Key) (size : Nat) (a : Acc) (a1 : List LaneAcc) (a2 : State) {t : State} {v : List (LaneAcc × Nat × Nat)}
    (hm : memWf a2.mem = true) (h : trLanes k size a a1 a2 = .ok t v) :
    memWf t.mem = true :=
  (MemSide.trLanes h).canon hm

theorem State.dropOps_mem (s : State) (eng : EngKind) (key : Nat) : (s.dropOps eng key).mem = s.mem := by
  unfold State.dropOps
  split <;> rfl

theorem State.stampLanes_mem (s : State) (i : Instr) (k : Key) (ls : List (LaneAcc × Nat × Nat)) : (s.stampLanes i k ls).mem = s.mem := by
  unfold State.stampLanes
  grind [foldl_mem, State.barrierStamp_mem]

theorem State.stampIssue_canon (s : State) (i : Instr) (k : Key) (ls : List LaneAcc) (hm : memWf s.mem = true) :
    memWf (s.stampIssue i k ls).mem = true :=
  (OffWave.stampIssue _ _ _ _).canon hm

theorem State.accLane_canon (s : State) (i : Instr) (k : Key) (stamp : Stamp) (a : LaneAcc) (pa home : Nat) (hm : memWf s.mem = true) :
    memWf (s.accLane i k stamp a pa home).2.mem = true :=
  (OffWave.accLane _ _ _ _ _ _ _).canon hm

theorem State.accRun_canon (s : State) (i : Instr) (k : Key) (stamp : Stamp) (ep : Word) (ls : List (LaneAcc × Nat × Nat)) (hm : memWf s.mem = true) :
    memWf (s.accRun i k stamp ep ls).2.mem = true :=
  (OffWave.accRun _ _ _ _ _ _).canon hm

theorem State.accEcc_canon (s : State) (a : Acc) (i : Instr) (k : Key) (ls : List (LaneAcc × Nat × Nat)) {t : State} {r : Nat}
    (hm : memWf s.mem = true) (h : s.accEcc a i k ls = some (r, t)) :
    memWf t.mem = true :=
  (MemSide.accEcc h).canon hm

theorem State.hold_canon (s : State) (i : Instr) (k : Key) (m : LaneMask) (h : HeldAcc) (hm : memWf s.mem = true) : (s.hold i k m h).canon := by
  unfold State.hold
  grind [Eff.canon, State.modWave_mem]

theorem State.holdBack_canon (s : State) (i : Instr) (k : Key) (m : LaneMask) (h : HeldAcc) (hm : memWf s.mem = true) :
    (s.holdBack i k m h).canon := by
  unfold State.holdBack
  grind [Eff.canon, State.throttle_mem, State.hold_canon]

theorem State.accGo_canon (s : State) (i : Instr) (k : Key) (m : LaneMask) (ep : Word) (st : Stamp) (tr : List (LaneAcc × Nat × Nat))
    (hm : memWf s.mem = true) :
    (s.accGo i k m ep st tr).canon := by
  unfold State.accGo
  grind [Eff.canon, foldl_canon, State.stampLanes_mem, State.sendPeer_mem, State.accEcc_canon, State.accRun_canon, State.holdBack_canon,
    State.hold_canon, State.dropOps_mem]

theorem accBody_canon (i : Instr) (m : LaneMask) (ep : Word) (st : Stamp) (s : State) (k : Key) (w : Wave) (hm : memWf s.mem = true) :
    (accBody i m ep st s k w).canon := by
  unfold accBody
  grind [Eff.canon, trLanes_canon, State.holdBack_canon, State.accGo_canon, State.hold_canon, State.reportMiss_mem, State.stampIssue_canon]

theorem plainBody_canon (i : Instr) (x : MF) (s : State) (k : Key) (w : Wave) (hm : memWf s.mem = true) : (plainBody i x s k w).canon := by
  unfold plainBody
  grind [Eff.canon, accBody_canon]

theorem withScope_canon (x : MF) (body : Word → ScopeInst → State → Key → Wave → Eff) (s : State) (k : Key) (w : Wave)
    (hb : ∀ ep inst s k w, memWf s.mem = true → (body ep inst s k w).canon) (hm : memWf s.mem = true) : (withScope x body s k w).canon := by
  unfold withScope
  split
  · trivial
  · exact hb _ _ s k w hm

theorem atomBody_canon (i : Instr) (x : MF) (s : State) (k : Key) (w : Wave) (hm : memWf s.mem = true) : (atomBody i x s k w).canon := by
  unfold atomBody
  grind [Eff.canon, accBody_canon, withScope_canon]

theorem State.replayGo_canon (s : State) (k : Key) (fuel : Nat) (hm : memWf s.mem = true) : memWf (s.replayGo k fuel).mem = true := by
  induction fuel generalizing s with
  | zero => exact hm
  | succ n ih =>
    unfold State.replayGo
    extract_lets w
    split
    · exact hm
    · split
      · extract_lets ls keep h0
        have hkeep : ∀ h s, (keep h s).mem = s.mem := fun _ _ => rfl
        clear_value keep
        split
        · split
          · rw [State.reportMiss_mem, hkeep]; exact hm
          · rw [hkeep]; exact hm
        · rw [hkeep]; exact hm
        · rw [hkeep]; exact hm
        · next s0 tr htr =>
          have hm0 := trLanes_canon _ _ _ _ _ hm htr
          extract_lets s1 dry
          have hm1 : memWf s1.mem = true := by rw [State.stampLanes_mem]; exact hm0
          clear_value s1
          split
          · rw [hkeep]; exact hm1
          · split
            · next s2 he => rw [hkeep]; exact State.accEcc_canon _ _ _ _ _ hm1 he
            · split
              · refine ih _ ?_
                rw [State.modWave_mem, State.dropOps_mem]
                exact State.accRun_canon _ _ _ _ _ _ hm1
              · rw [hkeep, foldl_mem fun s a => State.sendPeer_mem ..]
                exact hm1
      all_goals exact hm

theorem State.replay_canon (s : State) (k : Key) (fuel : Nat) (hm : memWf s.mem = true) : memWf (s.replay k fuel).mem = true := by
  unfold State.replay
  grind [State.replayGo_canon, State.settleDry_mem]

theorem execDelayedFault_canon (w : Key) (s : State) {t : State} (hm : memWf s.mem = true) (h : execDelayedFault w s = .next t) :
    memWf t.mem = true := by
  unfold execDelayedFault at h
  grind [State.raiseWave_mem]

theorem watchLanes_canon (k : Key) (meet : Meet) (a1 : List (LaneAcc × Nat × Nat)) (a2 : State) (hm : memWf a2.mem = true) :
    memWf (watchLanes k meet a1 a2).2.mem = true :=
  (MemSide.watchLanes _ _ _ _).canon hm

theorem State.watchReads_canon (s : State) (t : BitVec 4) (x : MF) (k : Key) (w : Wave) (meet : Meet) (hm : memWf s.mem = true) :
    (s.watchReads t x k w meet).canon := by
  unfold State.watchReads
  extract_lets i
  split
  · trivial
  · exact hm
  · exact hm
  · next s1 tr htr =>
    have h1 := trLanes_canon _ _ _ _ _ hm htr
    split
    · exact hm
    · split
      · next he => exact State.accEcc_canon _ _ _ _ _ h1 he
      · extract_lets ls
        split
        · exact (congrArg memWf (State.dropOps_mem ..)).trans (watchLanes_canon k meet ls s1 h1)
        · exact (congrArg memWf (foldl_mem (fun s a => State.sendPeer_mem ..) _ _)).trans h1

theorem ldwatchBody_canon (t : BitVec 4) (x : MF) (ep : Word) (inst : ScopeInst) (s : State) (k : Key) (w : Wave) (hm : memWf s.mem = true) :
    (ldwatchBody t x ep inst s k w).canon := by
  have hreads := State.watchReads_canon s t x k w inst.meet hm
  unfold ldwatchBody
  grind [Eff.canon, WatchRead.canon, State.acquire_mem, State.reportMiss_mem]

theorem execLdwatchWake_canon (k : Key) (s : State) {t : State} (hm : memWf s.mem = true) (h : execLdwatchWake k s = .next t) :
    memWf t.mem = true := by
  have hreads := fun i x inst => State.watchReads_canon s i x k (s.wave k) inst hm
  unfold execLdwatchWake at h
  grind [WatchRead.canon, State.acquire_mem, State.finish_mem, State.modWave_mem, State.reportMiss_mem, State.raiseWave_mem]

theorem fenceBody_canon (x : MF) (a1 : Word) (inst : ScopeInst) (s : State) (k : Key) (w : Wave) (hm : memWf s.mem = true) :
    (fenceBody x a1 inst s k w).canon := by
  unfold fenceBody
  grind [Eff.canon, State.acquire_mem, State.waveReleases_mem, State.release_canon]

theorem State.seeCopies_mem (s : State) (k : Key) : (s.seeCopies k).mem = s.mem := rfl

theorem pfenceBody_canon (x : MF) (s : State) (k : Key) (w : Wave) (hm : memWf s.mem = true) : (pfenceBody x s k w).canon := by
  unfold pfenceBody
  grind [Eff.canon, State.seeCopies_mem, State.modWave_mem]

theorem State.copyOver_mem (s : State) (k : Key) (id : Nat) : (s.copyOver k id).mem = s.mem := by
  unfold State.copyOver
  split <;> rfl

theorem rangeParts_canon (c : Option Nat) (core : Nat) (a : Acc) (pages va n : Nat) (s : State) {t : State} {ps : List (Nat × Nat × Nat)}
    (hm : memWf s.mem = true) (h : rangeParts c core a pages va n s = some (ps, t)) : memWf t.mem = true := by
  induction pages generalizing va n s t ps with
  | zero => grind [rangeParts]
  | succ p ih =>
    rw [rangeParts] at h
    split at h
    · cases h; exact hm
    · split at h
      · next s1 pa home hs =>
        obtain ⟨r, hr, heq⟩ := Option.map_eq_some_iff.mp h
        cases heq
        exact ih _ _ s1 (State.translate_canon s c core va a hm hs) hr
      · exact ih _ _ s hm h
      · exact ih _ _ s hm h
      · exact ih _ _ s hm h
      · cases h

theorem State.wordRange_canon (s : State) (k : Key) (x : MF) (a : Acc) {t : State} {r : List (Nat × Nat × Nat)} (hm : memWf s.mem = true)
    (h : s.wordRange k x a = some (r, t)) :
    memWf t.mem = true := by
  unfold State.wordRange at h
  grind [rangeParts_canon]

theorem rangeBody_canon (x : MF) (a : Acc) (f : List (Nat × Nat × Nat) → State → Eff) (s : State) (k : Key) (w : Wave)
    (hb : ∀ ps s, memWf s.mem = true → (f ps s).canon) (hm : memWf s.mem = true) : (rangeBody x a f s k w).canon := by
  unfold rangeBody
  split
  · exact hm
  · split
    · trivial
    · next h => exact hb _ _ (State.wordRange_canon s k x a hm h)

theorem cflushBody_canon (x : MF) (a1 : Word) (inst : ScopeInst) (s : State) (k : Key) (w : Wave) (hm : memWf s.mem = true) :
    (cflushBody x a1 inst s k w).canon := by
  unfold cflushBody
  grind [Eff.canon, rangeBody_canon, State.writeBack_canon]

theorem cinvBody_canon (x : MF) (a1 : Word) (inst : ScopeInst) (s : State) (k : Key) (w : Wave) (hm : memWf s.mem = true) :
    (cinvBody x a1 inst s k w).canon := by
  unfold cinvBody
  grind [Eff.canon, State.dropClean_mem, rangeBody_canon, State.modPkg_mem]

theorem State.prefLane_canon (s : State) (lvl : PrefLvl) (k : Key) (e : Dword) (hm : memWf s.mem = true) : memWf (s.prefLane lvl k e).mem = true :=
  (MemSide.prefLane _ _ _ _).canon hm

theorem State.icFetch_canon (s : State) (c : Option Nat) (cc : Bool) (core line home : Nat) (hm : memWf s.mem = true) :
    memWf (s.icFetch c cc core line home).mem = true :=
  (MemSide.icFetch _ _ _ _ _ _).canon hm

theorem State.setIcTab_mem (s : State) (cc : Bool) (core : Nat) (t : Tab ILine) : (s.setIcTab cc core t).mem = s.mem := rfl

theorem State.pinLine_mem (s : State) (cc : Bool) (crew line : Nat) : (s.pinLine cc crew line).mem = s.mem := by
  unfold State.pinLine
  grind [State.modCore_mem, State.setIcTab_mem]

theorem State.unpin_mem (s : State) (cc : Bool) (crew : Nat) (p : Nat → Bool) : (s.unpin cc crew p).mem = s.mem := rfl

theorem icBody_canon (cc pin : Bool) (x : MF) (s : State) (k : Key) (w : Wave) (hm : memWf s.mem = true) : (icBody cc pin x s k w).canon := by
  unfold icBody
  grind [Eff.canon, foldl_canon, rangeBody_canon, State.icFetch_canon, State.pinLine_mem]

theorem icunpinBody_canon (cc : Bool) (x : MF) (s : State) (k : Key) (w : Wave) (hm : memWf s.mem = true) : (icunpinBody cc x s k w).canon := by
  unfold icunpinBody
  grind [Eff.canon, rangeBody_canon, State.unpin_mem]

-- Copy commands.

theorem State.fillBegin_mem (s : State) (k : Key) (c : CopyCmd) : (s.fillBegin k c).mem = s.mem := by
  unfold State.fillBegin
  grind [foldl_mem, State.modCrew_mem, State.putWord_mem]

theorem State.copyAccept_mem (s : State) (k : Key) (c : CopyCmd) : (s.copyAccept k c).mem = s.mem := by
  unfold State.copyAccept
  grind [State.modCore_mem, State.modWave_mem, State.fillBegin_mem]

theorem q0Body_canon (x : VF) (s : State) (k : Key) (w : Wave) (hm : memWf s.mem = true) : (q0Body x s k w).canon := by
  unfold q0Body
  grind [Eff.canon, State.modCore_mem, State.copyAccept_mem, State.modWave_mem]

theorem q1Body_canon (x : VF) (s : State) (k : Key) (w : Wave) (hm : memWf s.mem = true) : (q1Body x s k w).canon := by
  unfold q1Body
  grind [Eff.canon, State.modWave_mem]

theorem State.faultCopy_mem (s : State) (core pos : Nat) (cls : FClass) (det : Dword) : (s.faultCopy core pos cls det).mem = s.mem := by
  unfold State.faultCopy
  grind [State.modCore_mem, State.raiseCopy_mem, State.raiseWave_mem]

theorem State.copyRead_canon (s : State) (c : Option Nat) (core va n : Nat) (again forced : Bool) {t : State} {v : Nat} (hm : memWf s.mem = true)
    (h : s.copyRead c core va n again forced = .ok t v) :
    memWf t.mem = true := by
  unfold State.copyRead at h
  grind [State.translate_canon, State.lsuRead_mem, State.touchL2_canon, State.roomFor_canon]

theorem State.peerRead_mem (s : State) (c : Option Nat) (peer va n : Nat) {t : State} {v : Nat} (h : s.peerRead c peer va n = .ok t v) :
    t.mem = s.mem := by
  unfold State.peerRead at h
  grind [State.charge_mem]

theorem State.copySp_mem (s : State) (ck : Key) (a : Nat) : (s.copySp ck a).1.mem = s.mem := rfl

theorem State.copySrc_canon (s : State) (e : CopyEnt) (core a n : Nat) {t : State} {v : Nat} (hm : memWf s.mem = true)
    (h : s.copySrc e core a n = .ok t v) :
    memWf t.mem = true := by
  unfold State.copySrc at h
  grind [State.copyRead_canon, State.copySp_mem, State.peerRead_mem]

theorem readPieces_canon (f : Nat → State → BeatRes Nat) (n : Nat) (as : List Nat) (s : State) {t : State} {v : Nat}
    (hf : ∀ a s t v, memWf s.mem = true → f a s = .ok t v → memWf t.mem = true) (hm : memWf s.mem = true) (h : readPieces f n as s = .ok t v) :
    memWf t.mem = true := by
  induction as generalizing s t v with
  | nil => grind [readPieces]
  | cons a r ih => grind [readPieces]

theorem State.convAt_canon (s : State) (e : CopyEnt) (core k a : Nat) {t : State} {v : Nat} (hm : memWf s.mem = true)
    (h : s.convAt e core k a = .ok t v) :
    memWf t.mem = true := by
  unfold State.convAt at h
  grind [State.copySrc_canon, State.copySp_mem]

theorem State.copyWord_canon (s : State) (e : CopyEnt) (core n : Nat) {t : State} {v : Nat} (hm : memWf s.mem = true)
    (h : s.copyWord e core n = .ok t v) :
    memWf t.mem = true := by
  unfold State.copyWord at h
  grind [State.copySrc_canon, State.copySp_mem, readPieces_canon, State.convAt_canon]

theorem State.copyDst_canon (s : State) (e : CopyEnt) (core n : Nat) {t : State} {v : (Nat × Nat)} (hm : memWf s.mem = true)
    (h : s.copyDst e core n = .ok t v) :
    memWf t.mem = true := by
  unfold State.copyDst at h
  grind [State.translate_canon]

theorem beatWords_canon (e : CopyEnt) (core : Nat) (ns : List Nat) (s : State) {t : State} {ws : List ((Nat × Nat) × Nat)} (hm : memWf s.mem = true)
    (h : beatWords e core ns s = .ok t ws) : memWf t.mem = true := by
  induction ns generalizing s t ws with
  | nil => grind [beatWords]
  | cons n r ih =>
    rw [beatWords] at h
    split at h
    · cases h
    · next s1 v h1 =>
      split at h
      · cases h
      · next s2 d h2 =>
        have hm2 := State.copyDst_canon s1 e core n (State.copyWord_canon s e core n hm h1) h2
        split at h
        · next s3 ws' h3 =>
          cases h
          exact ih s2 hm2 h3
        · cases h

theorem State.passBytes_mem (s : State) (cl pa n : Nat) : (s.passBytes cl pa n).mem = s.mem := rfl

theorem State.copyPut_canon (s : State) (e : CopyEnt) (core : Nat) (p : (Nat × Nat) × Nat) (hm : memWf s.mem = true) :
    memWf (s.copyPut e core p).mem = true := by
  unfold State.copyPut
  grind [State.passBytes_mem, State.l2Touch_canon, State.homeStore_canon, State.modCore_mem, State.modCrew_mem, State.putWord_mem, State.noteStore_mem]

theorem State.modCopy_mem (s : State) (core pos : Nat) (f : CopyEnt → CopyEnt) : (s.modCopy core pos f).mem = s.mem := rfl

theorem State.copyDry_mem (s : State) (core pos : Nat) (e : CopyEnt) (d : Option (Nat × Nat)) : (s.copyDry core pos e d).mem = s.mem := by
  unfold State.copyDry
  grind [State.settleDry_mem, State.modCopy_mem]

theorem State.dropCopyOp_mem (s : State) (core id : Nat) : (s.dropCopyOp core id).mem = s.mem := by
  unfold State.dropCopyOp
  split <;> rfl

theorem State.beat_canon (s : State) (core pos b : Nat) (hm : memWf s.mem = true) : memWf (s.beat core pos b).mem = true := by
  unfold State.beat
  grind [foldl_canon, State.faultCopy_mem, State.heal_mem, State.dropCopyOp_mem, State.sendPeer_mem, State.modCrew_mem, State.copyPut_canon,
    State.discardBad_canon, State.copyDry_mem, State.modCopy_mem, State.reportMiss_mem, beatWords_canon]

theorem State.beats_canon (s : State) (core pos kind : Nat) (hm : memWf s.mem = true) : memWf (s.beats core pos kind).mem = true := by
  unfold State.beats
  grind [foldl_canon, State.beat_canon]

theorem execCopy1d_canon (core pos : Nat) (s : State) {t : State} (hm : memWf s.mem = true) (h : execCopy1d core pos s = .next t) :
    memWf t.mem = true := by
  unfold execCopy1d at h
  grind [State.beats_canon]

theorem execCopy2d_canon (core pos : Nat) (s : State) {t : State} (hm : memWf s.mem = true) (h : execCopy2d core pos s = .next t) :
    memWf t.mem = true := by
  unfold execCopy2d at h
  grind [State.beats_canon]

theorem execCopyGather_canon (core pos : Nat) (s : State) {t : State} (hm : memWf s.mem = true) (h : execCopyGather core pos s = .next t) :
    memWf t.mem = true := by
  unfold execCopyGather at h
  grind [State.beats_canon]

theorem execCopyOperandLoad_canon (core pos : Nat) (s : State) {t : State} (hm : memWf s.mem = true) (h : execCopyOperandLoad core pos s = .next t) :
    memWf t.mem = true := by
  unfold execCopyOperandLoad at h
  grind [State.beats_canon]

theorem execCopyRemote_canon (core pos : Nat) (s : State) {t : State} (hm : memWf s.mem = true) (h : execCopyRemote core pos s = .next t) :
    memWf t.mem = true := by
  unfold execCopyRemote at h
  grind [State.beats_canon]

theorem execCopyBeatDone_canon (core pos beat : Nat) (s : State) {t : State} (hm : memWf s.mem = true)
    (h : execCopyBeatDone core pos beat s = .next t) :
    memWf t.mem = true := by
  unfold execCopyBeatDone at h
  grind [State.beat_canon]

theorem execCopyCommandStart_canon (core : Nat) (s : State) {t : State} (hm : memWf s.mem = true) (h : execCopyCommandStart core s = .next t) :
    memWf t.mem = true := by
  unfold execCopyCommandStart at h
  grind [State.modCopy_mem]

theorem State.copyLeave_mem (s : State) (core pos : Nat) (e : CopyEnt) : (s.copyLeave core pos e).mem = s.mem := by
  unfold State.copyLeave
  grind [State.copyOver_mem, State.dropCopyOp_mem, State.modCore_mem, State.releaseLines_mem]

theorem execCopyCompletion_canon (core pos : Nat) (s : State) {t : State} (hm : memWf s.mem = true) (h : execCopyCompletion core pos s = .next t) :
    memWf t.mem = true := by
  unfold execCopyCompletion at h
  grind [State.faultCopy_mem, State.copyLeave_mem, State.seeCopies_mem, State.arrive_mem, State.modCopy_mem, State.modWave_mem]

theorem State.obInstall_mem (s : State) (core n : Nat) (r : ObRec) : (s.obInstall core n r).mem = s.mem := rfl

theorem State.obClear_mem (s : State) (core n : Nat) : (s.obClear core n).mem = s.mem := rfl

theorem State.obArrived_mem (s : State) (crew : Key) (n : Nat) : (s.obArrived crew n).mem = s.mem := rfl

theorem obresBody_canon (n : Nat) (x : MF) (s : State) (k : Key) (w : Wave) (hm : memWf s.mem = true) : (obresBody n x s k w).canon := by
  unfold obresBody
  grind [Eff.canon, State.modCore_mem, State.obInstall_mem]

theorem execObresInstall_canon (core n : Nat) (s : State) {t : State} (hm : memWf s.mem = true) (h : execObresInstall core n s = .next t) :
    memWf t.mem = true := by
  unfold execObresInstall at h
  grind [State.obInstall_mem, State.obArrived_mem]

theorem obrelBody_canon (n : Nat) (x : MF) (s : State) (k : Key) (w : Wave) (hm : memWf s.mem = true) : (obrelBody n x s k w).canon := by
  unfold obrelBody
  grind [Eff.canon, State.obClear_mem, State.modCore_mem]

theorem execObrelClear_canon (core n : Nat) (s : State) {t : State} (hm : memWf s.mem = true) (h : execObrelClear core n s = .next t) :
    memWf t.mem = true := by
  unfold execObrelClear at h
  grind [State.obClear_mem, State.obArrived_mem]

-- Flags.

theorem State.flagLanes_mem (s : State) (k : Key) (m : LaneMask) (f : Fin 32 → Flags) : (s.flagLanes k m f).mem = s.mem := rfl

-- Cross-lane words.

theorem voteBody_canon (op : VoteOp) (x : VF) (s : State) (k : Key) (w : Wave) (hm : memWf s.mem = true) : (voteBody op x s k w).canon := by
  unfold voteBody
  grind [Eff.canon]

theorem matchBody_canon (ty : ITy) (all : Bool) (x : VF) (s : State) (k : Key) (w : Wave) (hm : memWf s.mem = true) :
    (matchBody ty all x s k w).canon := by
  unfold matchBody
  grind [Eff.canon]

theorem redBody_canon (ty : RTy) (op : RedOp) (kd : ScanKind) (x : VF) (s : State) (k : Key) (w : Wave) (hm : memWf s.mem = true) :
    (redBody ty op kd x s k w).canon := by
  unfold redBody
  grind [Eff.canon, State.flagLanes_mem]

theorem pullBody_canon (sel : PullSel) (x : VF) (s : State) (k : Key) (w : Wave) (hm : memWf s.mem = true) : (pullBody sel x s k w).canon := by
  unfold pullBody
  grind [Eff.canon]

theorem permBody_canon (x : VF) (s : State) (k : Key) (w : Wave) (hm : memWf s.mem = true) : (permBody x s k w).canon := by
  unfold permBody
  grind [Eff.canon]

end Sys2Proof.Machine
end


section
/-! O19, continued: launches, the matrix engine and its streams, the copy engines. -/

namespace Sys2Proof.Machine

-- Launches.

theorem State.setQueueWord_canon (s : State) (q n : Nat) (v : Dword) (hm : memWf s.mem = true) : memWf (s.setQueueWord q n v).mem = true :=
  (MemSide.setQueueWord _ _ _ _).canon hm

theorem State.setWrix_canon (s : State) (q v : Nat) (hm : memWf s.mem = true) : memWf (s.setWrix q v).mem = true := by
  unfold State.setWrix
  grind [State.setQueueWord_canon]

theorem State.setRdix_canon (s : State) (q v : Nat) (hm : memWf s.mem = true) : memWf (s.setRdix q v).mem = true := by
  unfold State.setRdix
  grind [State.setQueueWord_canon]

theorem State.queueFault_canon (s : State) (q : Nat) (hm : memWf s.mem = true) : memWf (s.queueFault q).mem = true := by
  unfold State.queueFault
  grind [State.forgetMiss_mem, State.setQueueWord_canon, State.modCtx_mem, State.event_mem]

theorem State.writeStatus_canon (s : State) (q idx c done status : Nat) (hm : memWf s.mem = true) :
    memWf (s.writeStatus q idx c done status).mem = true :=
  (MemSide.writeStatus _ _ _ _ _ _).canon hm

theorem launchBody_canon (x : MF) (s : State) (k : Key) (w : Wave) (hm : memWf s.mem = true) : (launchBody x s k w).canon := by
  have hacc := State.wordAccess_canon s k (w.addrS x) 128 .read hm
  unfold launchBody
  extract_lets e q cl bad qc
  split
  · trivial
  · split
    · trivial
    · split
      · trivial
      · split
        · next h => exact hacc.1 _ h
        · next s1 pa home h =>
          have hread : memWf (s1.readWords cl pa home 16).2.mem = true := by rw [State.readWords_mem]; exact hacc.2 s1 _ h
          split
          next r s2 hr =>
          have h2 : memWf s2.mem = true := by rw [hr] at hread; exact hread
          split
          · trivial
          · split
            · trivial
            · extract_lets slot
              split
              · exact (congrArg memWf (State.reportMiss_mem ..)).trans h2
              · trivial
              · trivial
              · trivial
              · next s3 spa home' h =>
                have h3 := State.translate_canon _ _ _ _ _ h2 h
                split
                · exact h3
                · split
                  · trivial
                  · extract_lets s4 s5
                    refine State.setWrix_canon s5 q _ (State.homeStore_canon _ _ _ _ ?_)
                    rw [State.heal_mem, State.chargeHome_mem, State.waveReleases_mem]
                    exact State.release_canon s3 cl scope4 h3

theorem State.dispRead_mem (s : State) (c pa n : Nat) : (s.dispRead c pa n).2.mem = s.mem := by
  unfold State.dispRead
  grind [State.chargeHome_mem]

theorem execLaunchRecordRead_canon (q : Nat) (s : State) {t : State} (hm : memWf s.mem = true) (h : execLaunchRecordRead q s = .next t) :
    memWf t.mem = true := by
  unfold execLaunchRecordRead at h
  grind [State.writeStatus_canon, State.translate_canon, State.queueFault_canon, State.l2Discard_canon, State.setRdix_canon, State.modCtx_mem,
    State.dispRead_mem, State.memLoss_mem, State.reportMiss_mem]

-- The matrix engine.

theorem State.modSeq_mem (s : State) (c : Key) (f : Seq → Seq) : (s.modSeq c f).mem = s.mem := rfl

theorem State.seqAt_mem (s : State) (c : Key) (va : Nat) : (s.seqAt c va).mem = s.mem := rfl

theorem State.seqIssue_canon (s : State) (i : Instr) (body : State → Key → Crew → SeqEff)
    (hb : ∀ s k w, memWf s.mem = true → (body s k w).canon) (hm : memWf s.mem = true) : memWf (s.seqIssue i body).mem = true := by
  have hbody := hb s s.seqKey (s.crew s.seqKey) hm
  unfold State.seqIssue
  grind [SeqEff.canon, State.seqAt_mem, State.raiseSeq_mem, State.modSeq_mem, State.reportMiss_mem]

theorem State.takeTiles_mem (s : State) (core cslot : Nat) (ts : List Nat) : (s.takeTiles core cslot ts).mem = s.mem := rfl

theorem State.putTile_mem (s : State) (core t : Nat) (es : List Word) : (s.putTile core t es).mem = s.mem := rfl

theorem State.runAttempt_mem (s : State) (core : Nat) (m : Attempt) : (s.runAttempt core m).1.mem = s.mem := by
  unfold State.runAttempt
  grind [State.free_mem]

theorem State.inject_mem (s : State) (core : Nat) (m : Attempt) : (s.inject core m).1.mem = s.mem := by
  unfold State.inject
  grind [State.modCore_mem]

theorem State.relCount_mem (s : State) (p i n : Nat) : (s.relCount p i n).mem = s.mem := rfl

theorem State.mmaDone_mem (s : State) (core : Nat) (m : Attempt) (es : List Word) (act : Option Nat) : (s.mmaDone core m es act).mem = s.mem := by
  unfold State.mmaDone
  grind [State.islandSettle_mem, State.modCore_mem, State.relCount_mem, State.putTile_mem, State.modCrew_mem, State.meter_mem]

theorem State.guardStep_mem (s : State) (core p : Nat) : (s.guardStep core p).mem = s.mem := by
  unfold State.guardStep
  split <;> rfl

theorem State.askGuard_mem (s : State) (core : Nat) : (s.askGuard core).mem = s.mem := by
  unfold State.askGuard
  grind [State.guardStep_mem]

theorem State.takeEngine_mem (s : State) (core : Nat) (p : Product) : (s.takeEngine core p).mem = s.mem := by
  unfold State.takeEngine
  grind [State.runAttempt_mem, State.modCore_mem, State.mmaDone_mem, State.modSeq_mem]

theorem State.engineRun_mem (s : State) (core fuel : Nat) : (s.engineRun core fuel).mem = s.mem := by
  fun_induction State.engineRun <;> grind [State.askGuard_mem, State.takeEngine_mem]

theorem State.engineGo_mem (s : State) (core : Nat) : (s.engineGo core).mem = s.mem := by
  unfold State.engineGo
  grind [State.engineRun_mem]

theorem mmaBody_canon (i : Instr) (q : QF) (s : State) (c : Key) (x : Crew) (hm : memWf s.mem = true) : (mmaBody i q s c x).canon := by
  unfold mmaBody
  grind [SeqEff.canon, State.islandSettle_mem, State.takeTiles_mem, State.modCore_mem, State.engineGo_mem]

theorem State.mmaGuarded_mem (s : State) (core : Nat) (m : Attempt) : (s.mmaGuarded core m).mem = s.mem := by
  unfold State.mmaGuarded
  grind [State.modCore_mem, State.mmaDone_mem, State.relCount_mem]

theorem State.leaveEngine_mem (s : State) (core : Nat) : (s.leaveEngine core).mem = s.mem := rfl

theorem State.dropAttempt_mem (s : State) (core : Nat) (m : Attempt) : (s.dropAttempt core m).mem = s.mem := rfl

theorem State.verdict_mem (s : State) (core : Nat) (m : Attempt) : (s.verdict core m).mem = s.mem := by
  unfold State.verdict
  grind [State.inject_mem, State.runAttempt_mem, State.modCore_mem, State.mmaDone_mem, State.mmaGuarded_mem, State.dropAttempt_mem,
    State.leaveEngine_mem, State.guardStep_mem]

theorem execMmaAttemptVerdict_canon (core : Nat) (s : State) {t : State} (hm : memWf s.mem = true) (h : execMmaAttemptVerdict core s = .next t) :
    memWf t.mem = true := by
  unfold execMmaAttemptVerdict at h
  grind [State.verdict_mem, State.engineGo_mem]

theorem State.correct_mem (s : State) (core : Nat) (m : Attempt) : (s.correct core m).mem = s.mem := by
  unfold State.correct
  grind [State.modCore_mem, State.mmaDone_mem]

theorem execMmaCorrectionDone_canon (core : Nat) (s : State) {t : State} (hm : memWf s.mem = true) (h : execMmaCorrectionDone core s = .next t) :
    memWf t.mem = true := by
  unfold execMmaCorrectionDone at h
  grind [State.engineGo_mem, State.correct_mem]

theorem execGuardStepDone_canon (core : Nat) (s : State) {t : State} (hm : memWf s.mem = true) (h : execGuardStepDone core s = .next t) :
    memWf t.mem = true := by
  unfold execGuardStepDone at h
  grind [State.islandSettle_mem, State.modCore_mem, State.mmaGuarded_mem, State.engineGo_mem, State.dropAttempt_mem, State.leaveEngine_mem]

-- Matrix streams.

theorem tileBody_canon (named : List Nat) (dst : Nat) (f : State → List Word) (s : State) (c : Key) (a1 : Crew) (hm : memWf s.mem = true) :
    (tileBody named dst f s c a1).canon := by
  unfold tileBody
  grind [SeqEff.canon, State.takeTiles_mem, State.putTile_mem]

theorem State.bumpMa_mem (s : State) (c : Key) (n : Nat) (inc : BitVec 16) (unit : Nat) : (s.bumpMa c n inc unit).mem = s.mem := rfl

theorem seqParts_canon (c : Nat) (core : Nat) (a : Acc) (vas : List Nat) (s : State) {t : State} {ps : List (Nat × Nat)} (hm : memWf s.mem = true)
    (h : seqParts c core a vas s = .ok t ps) : memWf t.mem = true := by
  induction vas generalizing s t ps with
  | nil => grind [seqParts]
  | cons va r ih => grind [seqParts, State.translate_canon]

theorem readParts_canon (c core n : Nat) (a1 : List (Nat × Nat)) (a2 : State) (hm : memWf a2.mem = true) :
    memWf (readParts c core n a1 a2).2.mem = true := by
  fun_induction readParts <;> grind [State.touch_canon, State.lsuRead_mem]

theorem writeParts_canon (c : Nat) (crew : Key) (n : Nat) (a1 : List (Nat × Nat)) (a2 : List Byte) (a3 : State) (hm : memWf a3.mem = true) :
    memWf (writeParts c crew n a1 a2 a3).mem = true := by
  fun_induction writeParts <;> grind [State.touch_canon, State.lsuWrite_canon, State.noteStore_mem]

theorem State.seqDry_mem (s : State) (c : Key) (d : Option (Nat × Nat)) : (s.seqDry c d).mem = s.mem := by
  unfold State.seqDry
  grind [State.settleDry_mem, State.modSeq_mem]

theorem State.seqServed_mem (s : State) (c : Key) : (s.seqServed c).mem = s.mem := by
  unfold State.seqServed
  grind [State.dropOps_mem, State.seqDry_mem]

theorem haltSeqEff_canon (s : State) (c : Key) (a1 : Halt) (hm : memWf s.mem = true) : (haltSeqEff s c a1).canon := by
  unfold haltSeqEff
  grind [SeqEff.canon, State.sendPeer_mem, State.discardBad_canon, State.seqDry_mem]

theorem memWord_canon (a : Dword) (align : Nat) (acc : Acc) (vas : List Nat) (go : State → Nat → List (Nat × Nat) → SeqEff) (s : State) (c : Key)
    (x : Crew) (hb : ∀ s core ps, memWf s.mem = true → (go s core ps).canon) (hm : memWf s.mem = true) :
    (memWord a align acc vas go s c x).canon := by
  unfold memWord
  split
  · trivial
  · extract_lets core
    split
    · exact haltSeqEff_canon _ _ _ hm
    · next h =>
      have hparts := seqParts_canon _ _ _ _ _ hm h
      split
      · exact haltSeqEff_canon _ _ _ hm
      · exact hb _ _ _ (by rw [State.seqServed_mem]; exact hparts)

theorem aloadBody_canon (a : AF) (s : State) (c : Key) (x : Crew) (hm : memWf s.mem = true) : (aloadBody a s c x).canon := by
  unfold aloadBody
  grind [SeqEff.canon, State.takeTiles_mem, memWord_canon, State.putTile_mem, readParts_canon, State.bumpMa_mem]

theorem aloadMaBody_canon (a : AF) (s : State) (c : Key) (x : Crew) (hm : memWf s.mem = true) : (aloadMaBody a s c x).canon := by
  unfold aloadMaBody
  grind [SeqEff.canon, memWord_canon, readParts_canon, State.bumpMa_mem, State.modSeq_mem]

theorem storeRows_canon (f : AstFmt) (a : AF) (c : Key) (x : Crew) (ps : List (Nat × Nat)) (rs : List Nat) (s : State) (hm : memWf s.mem = true) :
    memWf (storeRows f a c x ps rs s).mem = true := by
  unfold storeRows
  grind [foldl_canon, writeParts_canon]

theorem astoreBody_canon (f : AstFmt) (a : AF) (rs : List Nat) (s : State) (c : Key) (x : Crew) (hm : memWf s.mem = true) :
    (astoreBody f a rs s c x).canon := by
  unfold astoreBody
  grind [SeqEff.canon, State.takeTiles_mem, memWord_canon, State.bumpMa_mem, storeRows_canon, State.modSeq_mem]

theorem State.someRows_canon (s : State) (i : Instr) (rs : List Nat) (hm : memWf s.mem = true) : memWf (s.someRows i rs).mem = true := by
  unfold State.someRows
  grind [State.seqIssue_canon, astoreBody_canon]

theorem scldBody_canon (e4 : Bool) (areg idx cnt : Nat) (inc : BitVec 16) (s : State) (c : Key) (x : Crew) (hm : memWf s.mem = true) :
    (scldBody e4 areg idx cnt inc s c x).canon := by
  unfold scldBody
  grind [SeqEff.canon, State.modCore_mem, memWord_canon, readParts_canon, State.bumpMa_mem]

theorem State.seqReleases_mem (s : State) (c : Key) : (s.seqReleases c).mem = s.mem := by
  unfold State.seqReleases
  grind [State.releaseLines_mem]

theorem marvBody_canon (n cnt : Nat) (s : State) (c : Key) (x : Crew) (hm : memWf s.mem = true) : (marvBody n cnt s c x).canon := by
  unfold marvBody
  grind [SeqEff.canon, State.arrive_mem, State.modSeq_mem, State.seqReleases_mem]

theorem mwaitBody_canon (n : Nat) (s : State) (c : Key) (x : Crew) (hm : memWf s.mem = true) : (mwaitBody n s c x).canon := by
  unfold mwaitBody
  grind [SeqEff.canon, State.modSeq_mem]

theorem mloopBody_canon (lc n : Nat) (off : BitVec 32) (s : State) (c : Key) (x : Crew) (hm : memWf s.mem = true) :
    (mloopBody lc n off s c x).canon := by
  unfold mloopBody
  grind [SeqEff.canon, State.modSeq_mem]

theorem State.seqBegin_canon (s : State) (c : Key) (hm : memWf s.mem = true) : memWf (s.seqBegin c).mem = true := by
  unfold State.seqBegin
  grind [State.seqServed_mem, State.sendPeer_mem, readParts_canon, State.raiseSeq_mem, seqParts_canon, State.discardBad_canon, State.reportMiss_mem,
    State.modSeq_mem, State.seqDry_mem]

theorem State.nextSeq.late_canon (s : State) (c : Key) (f : Front) (hf : f.canon) : (State.nextSeq.late s c f).canon := by
  unfold State.nextSeq.late
  split
  · trivial
  · exact hf

theorem State.nextSeq_canon (s : State) (c : Key) (hm : memWf s.mem = true) : (s.nextSeq c).canon := by
  unfold State.nextSeq
  grind [Front.canon, State.nextSeq.late_canon, State.fetchWord_canon, State.raiseSeq_mem, State.reportMiss_mem, State.seqBegin_canon, State.modSeq_mem]

-- Copy engines, parks and banks.

theorem State.commitNext_canon (s : State) (k : Key) (hm : memWf s.mem = true) : memWf (s.commitNext k).mem = true := by
  unfold State.commitNext
  grind [State.setWave_mem, State.sinceReady_mem, State.raiseWave_mem]

theorem execResultCommit_canon (w : Key) (s : State) {t : State} (hm : memWf s.mem = true) (h : execResultCommit w s = .next t) :
    memWf t.mem = true := by
  unfold execResultCommit at h
  grind [State.commitNext_canon]

theorem State.commitAll_canon (s : State) (k : Key) (hm : memWf s.mem = true) : memWf (s.commitAll k).mem = true := by
  unfold State.commitAll
  grind [foldl_canon, State.commitNext_canon]

theorem execBankWakeDone_canon (w : Key) (bank : Nat) (s : State) {t : State} (hm : memWf s.mem = true) (h : execBankWakeDone w bank s = .next t) :
    memWf t.mem = true := by
  unfold execBankWakeDone at h
  grind [State.setWave_mem, State.raiseWave_mem]

theorem execBankOffIdle_canon (w : Key) (bank : Nat) (s : State) {t : State} (hm : memWf s.mem = true) (h : execBankOffIdle w bank s = .next t) :
    memWf t.mem = true := by
  unfold execBankOffIdle at h
  grind [State.setWave_mem]

theorem execBankRetainHeader_canon (w : Key) (bank : Nat) (s : State) {t : State} (hm : memWf s.mem = true)
    (h : execBankRetainHeader w bank s = .next t) :
    memWf t.mem = true := by
  unfold execBankRetainHeader at h
  grind [State.setWave_mem]

theorem execBankRetainParked_canon (w : Key) (bank : Nat) (s : State) {t : State} (hm : memWf s.mem = true)
    (h : execBankRetainParked w bank s = .next t) :
    memWf t.mem = true := by
  unfold execBankRetainParked at h
  grind [State.setWave_mem]

theorem State.reported_mem (s : State) (c : Nat) : (s.reported c).mem = s.mem := by
  unfold State.reported
  grind [State.tellMiss_mem, State.modCtx_mem]

theorem State.takeEvent_mem (s : State) (k : Key) : (s.takeEvent k).mem = s.mem := by
  unfold State.takeEvent
  grind [State.reported_mem, State.modDie_mem, State.modWave_mem]

theorem State.retryHeld_canon (s : State) (k : Key) (hm : memWf s.mem = true) : memWf (s.retryHeld k).mem = true := by
  unfold State.retryHeld
  grind [State.replay_canon]

theorem State.unparkWave_mem (s : State) (k : Key) : (s.unparkWave k).mem = s.mem := by
  unfold State.unparkWave
  grind [State.takeEvent_mem, State.reissue_mem, State.finish_mem, State.tagDone_mem]

theorem execWaveUnpark_canon (w : Key) (s : State) {t : State} (hm : memWf s.mem = true) (h : execWaveUnpark w s = .next t) : memWf t.mem = true := by
  unfold execWaveUnpark at h
  grind [State.retryHeld_canon, State.unparkWave_mem]

theorem State.correctAll_mem (s : State) (core cslot : Nat) : (s.correctAll core cslot).mem = s.mem := by
  unfold State.correctAll
  grind [foldl_mem, State.correct_mem]

theorem State.settleEngine_mem (s : State) (core cslot : Nat) : (s.settleEngine core cslot).mem = s.mem := by
  unfold State.settleEngine
  grind [State.correctAll_mem, State.verdict_mem, State.dropAttempt_mem]

theorem State.haltSeq_mem (s : State) (c : Key) : (s.haltSeq c).mem = s.mem := by
  unfold State.haltSeq
  grind [State.islandSettle_mem, State.engineGo_mem, State.settleEngine_mem, State.modSeq_mem]

theorem State.addRec_mem (s : State) (c : Nat) (r : StopRec) : (s.addRec c r).mem = s.mem := rfl

theorem State.stopWave_canon (s : State) (k : Key) (hm : memWf s.mem = true) : memWf (s.stopWave k).mem = true := by
  unfold State.stopWave
  grind [State.leaveAcq_mem, State.addRec_mem, State.modWave_mem, State.reach_canon, State.leaveQuad_mem]

theorem State.stopSeq_mem (s : State) (c : Key) : (s.stopSeq c).mem = s.mem := by
  unfold State.stopSeq
  grind [State.haltSeq_mem, State.addRec_mem]

theorem State.stopCopy_mem (s : State) (c core : Nat) : (s.stopCopy c core).mem = s.mem := by
  unfold State.stopCopy
  grind [State.modCore_mem, State.addRec_mem]

theorem State.stopFabric_mem (s : State) (c die : Nat) : (s.stopFabric c die).mem = s.mem := by
  unfold State.stopFabric
  split <;> rfl

theorem State.stopAll_canon (s : State) (c : Nat) (hm : memWf s.mem = true) : memWf (s.stopAll c).mem = true := by
  unfold State.stopAll
  grind [foldl_canon, State.stopCopy_mem, State.stopSeq_mem, State.stopFabric_mem, State.stopWave_canon]

theorem execFloodgateStop_canon (eng key : Nat) (s : State) {t : State} (hm : memWf s.mem = true) (h : execFloodgateStop eng key s = .next t) :
    memWf t.mem = true := by
  unfold execFloodgateStop at h
  grind [foldl_canon, State.stopCopy_mem, State.stopSeq_mem, State.stopFabric_mem, State.stopWave_canon]

end Sys2Proof.Machine
end


section
/-! O19, continued: integer and floating words, images, privileged words. -/

namespace Sys2Proof.Machine

-- Integer words.

theorem divBody_canon (i : Instr) (sf : Bool) (ty : ITy) (x : VF) (op : Srcs → Nat) (s : State) (k : Key) (w : Wave) (hm : memWf s.mem = true) :
    (divBody i sf ty x op s k w).canon := by
  unfold divBody
  grind [Eff.canon, State.flagLanes_mem, intBody_canon]

theorem iselBody_canon (sf : Bool) (ty : ITy) (x : VF) (s : State) (k : Key) (w : Wave) (hm : memWf s.mem = true) :
    (iselBody sf ty x s k w).canon := by
  unfold iselBody
  grind [Eff.canon]

theorem moviBody_canon (sf : Bool) (kind : MoviKind) (x : IF) (s : State) (a1 : Key) (w : Wave) (hm : memWf s.mem = true) :
    (moviBody sf kind x s a1 w).canon := by
  unfold moviBody
  grind [Eff.canon]

theorem rdlaneBody_canon (ty : ITy) (x : VF) (s : State) (k : Key) (w : Wave) (hm : memWf s.mem = true) : (rdlaneBody ty x s k w).canon := by
  unfold rdlaneBody
  grind [Eff.canon]

theorem bcastBody_canon (ty : ITy) (x : VF) (s : State) (a1 : Key) (w : Wave) (hm : memWf s.mem = true) : (bcastBody ty x s a1 w).canon := by
  unfold bcastBody
  grind [Eff.canon]

-- Floating words.

theorem floatBody_canon (i : Instr) (ft : FTy) (x : VF) (op : Srcs → Nat × Flags) (s : State) (k : Key) (w : Wave) (hm : memWf s.mem = true) :
    (floatBody i ft x op s k w).canon := by
  unfold floatBody
  grind [Eff.canon, State.flagLanes_mem]

theorem fcmpBody_canon (ft : FTy) (cond : FCond) (x : VF) (s : State) (k : Key) (w : Wave) (hm : memWf s.mem = true) :
    (fcmpBody ft cond x s k w).canon := by
  unfold fcmpBody
  grind [Eff.canon, State.flagLanes_mem]

theorem fscaleBody_canon (ft : FTy) (rm : Rm) (x : VF) (s : State) (k : Key) (w : Wave) (hm : memWf s.mem = true) :
    (fscaleBody ft rm x s k w).canon := by
  unfold fscaleBody
  grind [Eff.canon, State.flagLanes_mem]

theorem State.stepSeeds_mem (s : State) (k : Key) (m : LaneMask) (n : Nat) : (s.stepSeeds k m n).mem = s.mem := rfl

theorem cvtBody_canon (rm : Rm) (x : VF) (s : State) (k : Key) (w : Wave) (hm : memWf s.mem = true) : (cvtBody rm x s k w).canon := by
  unfold cvtBody
  grind [Eff.canon, State.flagLanes_mem, State.stepSeeds_mem]

theorem cvtpBody_canon (rm : Rm) (x : VF) (s : State) (k : Key) (w : Wave) (hm : memWf s.mem = true) : (cvtpBody rm x s k w).canon := by
  unfold cvtpBody
  grind [Eff.canon, State.flagLanes_mem, State.stepSeeds_mem]

theorem qntBody_canon (nosm : Bool) (sel : QSel) (rm : Rm) (x : VF) (s : State) (k : Key) (w : Wave) (hm : memWf s.mem = true) :
    (qntBody nosm sel rm x s k w).canon := by
  unfold qntBody
  grind [Eff.canon, foldl_canon, State.modCrew_mem, State.flagLanes_mem, State.stepSeeds_mem]

theorem dqntBody_canon (x : VF) (s : State) (k : Key) (w : Wave) (hm : memWf s.mem = true) : (dqntBody x s k w).canon := by
  unfold dqntBody
  grind [Eff.canon, State.flagLanes_mem]

theorem pairedBody_canon (h l : PHalf) (s : State) (k : Key) (w : Wave) (hm : memWf s.mem = true) : (pairedBody h l s k w).canon := by
  unfold pairedBody
  grind [Eff.canon, State.flagLanes_mem]

-- Images of crews and waves.

theorem State.settleWave_canon (s : State) (k : Key) (hm : memWf s.mem = true) : memWf (s.settleWave k).mem = true := by
  unfold State.settleWave
  grind [State.finish_mem, State.commitAll_canon, State.modWave_mem, State.reach_canon]

theorem State.settleOb_mem (s : State) (c : Key) : (s.settleOb c).mem = s.mem := by
  unfold State.settleOb
  grind [foldl_mem, State.obClear_mem, State.obInstall_mem]

theorem State.saveBank_mem (s : State) (k : Key) (b : Nat) : (s.saveBank k b).mem = s.mem := by
  unfold State.saveBank
  grind [State.floodgate_mem, State.setWave_mem]

theorem State.saveSp_mem (s : State) (c : Key) : (s.saveSp c).mem = s.mem := by
  unfold State.saveSp
  grind [foldl_mem, State.floodgate_mem, State.modCrew_mem, State.spWakeEnd_mem]

theorem State.settleCrew_canon (s : State) (c : Key) (hm : memWf s.mem = true) : memWf (s.settleCrew c).mem = true := by
  unfold State.settleCrew
  grind [foldl_canon, State.haltSeq_mem, State.saveBank_mem, State.settleOb_mem, State.settleWave_canon, State.saveSp_mem, State.writeBack_canon]

theorem State.meterCtrs_mem (s : State) (c : Key) : (s.meterCtrs c).mem = s.mem := by
  unfold State.meterCtrs
  extract_lets x
  rw [State.modCrew_mem]
  exact foldl_mem (fun _ _ => State.meter_mem ..) _ _

theorem State.addCounts_mem (s : State) (c : Key) : (s.addCounts c).mem = s.mem := by
  unfold State.addCounts
  extract_lets s1 x p add
  rw [State.modCrew_mem, State.modPolder_mem, State.modCtx_mem]
  exact State.meterCtrs_mem s c

theorem execScwComplete_canon (ctx n : Nat) (s : State) {t : State} (hm : memWf s.mem = true) (h : execScwComplete ctx n s = .next t) :
    memWf t.mem = true := by
  unfold execScwComplete at h
  grind [State.modCtx_mem]

theorem State.forgetCrew_mem (s : State) (c : Key) (ids : List Nat) : (s.forgetCrew c ids).mem = s.mem := by
  unfold State.forgetCrew
  grind [State.forgetMisses_mem]

theorem State.unpinCrew_mem (s : State) (c : Key) : (s.unpinCrew c).mem = s.mem := rfl

theorem State.noteIdle_mem (s : State) (c : Key) : (s.noteIdle c).mem = s.mem := by
  unfold State.noteIdle
  split <;> rfl

theorem State.pour_mem (s : State) (p : Nat) : (s.pour p).mem = s.mem := by
  unfold State.pour
  split <;> rfl

theorem State.useCore_mem (s : State) (core : Nat) : (s.useCore core).mem = s.mem := by
  unfold State.useCore
  grind [foldl_mem, State.modCore_mem, State.meter_mem]

theorem State.meterCrew_mem (s : State) (c : Key) : (s.meterCrew c).mem = s.mem := by
  unfold State.meterCrew
  grind [State.pour_mem, State.useCore_mem, State.meterCtrs_mem, State.meter_mem]

theorem State.dropCrew_mem (s : State) (c : Key) : (s.dropCrew c).mem = s.mem := by
  unfold State.dropCrew
  grind [State.islandSettle_mem, State.unpinCrew_mem, State.modCore_mem, State.barrierLeave_mem, State.engineGo_mem, State.modCrew_mem,
    State.modPkg_mem, State.noteIdle_mem, State.forgetCrew_mem, State.releaseLines_mem, State.meterCrew_mem]

theorem State.rejoinBarriers_mem (s : State) (c : Key) : (s.rejoinBarriers c).mem = s.mem := rfl

theorem State.loadCrew_canon (s : State) (a : Array Dword) (ctx : Nat) (i : CrewId) (sched : List Word) (core cslot : Nat) (stop : Bool)
    (hm : memWf s.mem = true) :
    memWf (s.loadCrew a ctx i sched core cslot stop).mem = true := by
  unfold State.loadCrew
  grind [foldl_canon, State.islandSettle_mem, State.setWave_mem, State.replay_canon, State.dropClean_mem, State.setCrew_mem, State.modCore_mem,
    State.rejoinBarriers_mem, State.fetchWord_canon, State.slowNew_mem, State.engineGo_mem, State.obInstall_mem]

-- Privileged words.

theorem privIssue_canon (i : Instr) (x : MF) (align : Nat) (go : State → Key → Wave → Option (State × Nat)) (s : State)
    (hb : ∀ s k w t r, memWf s.mem = true → go s k w = some (t, r) → memWf t.mem = true) (hm : memWf s.mem = true) :
    memWf (privIssue i x align go s).mem = true := by
  refine State.issue_canon s i _ (fun s k w hm => ?_) hm
  split
  · trivial
  · refine waveLevel_canon _ _ _ s k w (fun s k w hm => ?_) hm
    grind [Eff.canon]

theorem State.putParts_canon (s : State) (core : Nat) (a1 : List (Nat × Nat)) (a2 : List Dword) (hm : memWf s.mem = true) :
    memWf (s.putParts core a1 a2).mem = true := by
  fun_induction State.putParts <;> grind [State.pokeBytes_canon, State.heal_mem, State.dropCopies_mem]

theorem eretBody_canon (s : State) (k : Key) (w : Wave) (hm : memWf s.mem = true) : (eretBody s k w).canon := by
  unfold eretBody
  grind [Eff.canon, State.takeEvent_mem]

theorem State.dropTlb_mem (s : State) (c va n : Nat) : (s.dropTlb c va n).mem = s.mem := rfl

theorem State.rewalkHeld_canon (s : State) (c va n : Nat) (dec : Declares) (k : Key) (hm : memWf s.mem = true) :
    memWf (s.rewalkHeld c va n dec k).mem = true := by
  unfold State.rewalkHeld
  grind [State.forgetMiss_mem, State.replay_canon, State.modWave_mem]

theorem State.frontGo_mem (s : State) (k : Key) : (s.frontGo k).mem = s.mem := by
  unfold State.frontGo
  split <;> rfl

theorem State.rewalkFront_canon (s : State) (c va n : Nat) (dec : Declares) (k : Key) (hm : memWf s.mem = true) :
    memWf (s.rewalkFront c va n dec k).mem = true := by
  unfold State.rewalkFront
  grind [State.forgetMiss_mem, State.frontGo_mem, State.raiseWave_mem]

theorem State.rewalkSeq_canon (s : State) (c va n : Nat) (dec : Declares) (k : Key) (hm : memWf s.mem = true) :
    memWf (s.rewalkSeq c va n dec k).mem = true := by
  unfold State.rewalkSeq
  grind [State.forgetMiss_mem, State.raiseSeq_mem, State.modSeq_mem]

theorem State.rewalkCopy_canon (s : State) (c va n : Nat) (dec : Declares) (core pos : Nat) (hm : memWf s.mem = true) :
    memWf (s.rewalkCopy c va n dec core pos).mem = true := by
  unfold State.rewalkCopy
  grind [State.beat_canon, State.forgetMiss_mem, State.faultCopy_mem, State.modCopy_mem]

theorem State.rewalkQueue_canon (s : State) (c va n : Nat) (e : Nat × Nat) (hm : memWf s.mem = true) : memWf (s.rewalkQueue c va n e).mem = true := by
  unfold State.rewalkQueue
  grind [State.forgetMiss_mem, State.queueFault_canon, State.modCtx_mem]

theorem State.rewalk_canon (s : State) (c va n : Nat) (dec : Declares) (hm : memWf s.mem = true) : memWf (s.rewalk c va n dec).mem = true := by
  unfold State.rewalk
  grind [foldl_canon, State.rewalkCopy_canon, State.rewalkHeld_canon, State.rewalkFront_canon, State.rewalkSeq_canon]

theorem tlbinvGo_canon (x : MF) (s : State) (a1 : Key) (w : Wave) {t : State} {r : Nat} (hm : memWf s.mem = true)
    (h : tlbinvGo x s a1 w = some (t, r)) :
    memWf t.mem = true := by
  unfold tlbinvGo at h
  grind [foldl_canon, State.rewalkQueue_canon, State.rewalk_canon, State.dropTlb_mem]

theorem State.cleanCluster_canon (s : State) (cl : Nat) (hm : memWf s.mem = true) : memWf (s.cleanCluster cl).mem = true := by
  unfold State.cleanCluster
  grind [foldl_canon, State.modCore_mem, State.setDcache_mem, State.modPkg_mem, State.writeBack_canon]

theorem State.runOn_canon (s : State) (cl p : Nat) (hm : memWf s.mem = true) : memWf (s.runOn cl p).mem = true := by
  unfold State.runOn
  grind [State.modCluster_mem, State.cleanCluster_canon]

theorem ctxsaveGo_canon (x : MF) (s : State) (k : Key) (w : Wave) {t : State} {r : Nat} (hm : memWf s.mem = true)
    (h : ctxsaveGo x s k w = some (t, r)) :
    memWf t.mem = true := by
  unfold ctxsaveGo at h
  grind [foldl_canon, State.dropCrew_mem, State.settleCrew_canon, State.addCounts_mem, State.putParts_canon, State.modCtx_mem]

theorem State.loadOne_canon (s : State) (c core : Nat) (a : Array Dword) (i : CrewId) (ref : Option ImgRef) {t : State} (hm : memWf s.mem = true)
    (h : s.loadOne c core a i ref = some t) :
    memWf t.mem = true := by
  unfold State.loadOne at h
  grind [State.modCluster_mem, State.runOn_canon, State.useCore_mem, State.loadCrew_canon, State.modCtx_mem]

theorem State.loadAll_canon (s : State) (c : Nat) (a1 : List (Nat × Array Dword)) (a2 : List Nat) {t : State} (hm : memWf s.mem = true)
    (h : s.loadAll c a1 a2 = some t) :
    memWf t.mem = true := by
  fun_induction State.loadAll <;> grind [State.loadOne_canon]

theorem ctxloadGo_canon (x : MF) (s : State) (k : Key) (w : Wave) {t : State} {r : Nat} (hm : memWf s.mem = true)
    (h : ctxloadGo x s k w = some (t, r)) : memWf t.mem = true := by
  unfold ctxloadGo at h
  extract_lets hd c e at h
  repeat' split at h
  all_goals cases h
  all_goals grind [State.loadAll_canon]

theorem stoprdGo_canon (x : MF) (s : State) (k : Key) (w : Wave) {t : State} {r : Nat} (hm : memWf s.mem = true)
    (h : stoprdGo x s k w = some (t, r)) : memWf t.mem = true := by
  unfold stoprdGo at h
  grind [State.putParts_canon, State.stopAll_canon]

theorem State.resumeWave_canon (s : State) (k : Key) (hm : memWf s.mem = true) : memWf (s.resumeWave k).mem = true := by
  unfold State.resumeWave
  grind [State.replay_canon, State.woken_mem, State.reissue_mem, State.returnWave_mem, State.modWave_mem, State.frontGo_mem]

theorem State.seqGoes_mem (s : State) (k : Key) : (s.seqGoes k).mem = s.mem := by
  unfold State.seqGoes
  grind [State.islandSettle_mem, State.engineGo_mem]

theorem State.resumeSeq_mem (s : State) (c : Nat) (k : Key) : (s.resumeSeq c k).mem = s.mem := by
  unfold State.resumeSeq
  grind [State.modSeq_mem, State.seqGoes_mem]

theorem State.resumeCopy_mem (s : State) (c core : Nat) : (s.resumeCopy c core).mem = s.mem := rfl

theorem State.resumeCrews_canon (s : State) (c : Nat) (ks : List Key) (hm : memWf s.mem = true) : memWf (s.resumeCrews c ks).mem = true := by
  unfold State.resumeCrews
  grind [foldl_canon, State.resumeCopy_mem, State.resumeSeq_mem, State.resumeWave_canon]

theorem State.startCrews_mem (s : State) (ks : List Key) : (s.startCrews ks).mem = s.mem := by
  unfold State.startCrews
  grind [foldl_mem, State.modCrew_mem]

theorem State.resumeCtx_canon (s : State) (c : Nat) (hm : memWf s.mem = true) : memWf (s.resumeCtx c).1.mem = true := by
  unfold State.resumeCtx
  grind [State.rewalk_canon, State.stopAll_canon, State.startCrews_mem, State.modCtx_mem, State.resumeCrews_canon]

theorem State.resumeLoaded_canon (s : State) (c : Nat) (ks : List Key) (hm : memWf s.mem = true) : memWf (s.resumeLoaded c ks).1.mem = true := by
  unfold State.resumeLoaded
  grind [State.rewalk_canon, State.startCrews_mem, State.resumeCrews_canon]

theorem resumeGo_canon (x : MF) (s : State) (a1 : Key) (w : Wave) {t : State} {r : Nat} (hm : memWf s.mem = true)
    (h : resumeGo x s a1 w = some (t, r)) :
    memWf t.mem = true := by
  unfold resumeGo at h
  grind [State.resumeLoaded_canon, State.resumeCtx_canon]

theorem State.flood_canon (s : State) (c : Nat) (hm : memWf s.mem = true) : memWf (s.flood c).mem = true := by
  unfold State.flood
  grind [State.stopAll_canon, State.modCtx_mem, State.event_mem]

theorem floodGo_canon (x : MF) (s : State) (a1 : Key) (w : Wave) {t : State} {r : Nat} (hm : memWf s.mem = true)
    (h : floodGo x s a1 w = some (t, r)) : memWf t.mem = true := by
  unfold floodGo at h
  grind [State.flood_canon]

theorem State.clearDirty_canon (s : State) (c va : Nat) (hm : memWf s.mem = true) : memWf (s.clearDirty c va).mem = true := by
  unfold State.clearDirty
  grind [foldl_canon, State.poke64_canon, State.dropTlb_mem, State.writeBack_canon]

theorem dirtyhGo_canon (final : Bool) (x : MF) (s : State) (k : Key) (w : Wave) {t : State} {r : Nat} (hm : memWf s.mem = true)
    (h : dirtyhGo final x s k w = some (t, r)) :
    memWf t.mem = true := by
  unfold dirtyhGo at h
  grind [foldl_canon, State.putParts_canon, State.clearDirty_canon]

theorem State.restartSeqs_mem (s : State) (ks : List Key) : (s.restartSeqs ks).mem = s.mem := by
  unfold State.restartSeqs
  grind [foldl_mem, State.modSeq_mem, State.seqGoes_mem]

theorem State.checkpoint_canon (s : State) (c : Nat) {t : State} {r : Nat} (hm : memWf s.mem = true) (h : s.checkpoint c = some (t, r)) :
    memWf t.mem = true := by
  unfold State.checkpoint at h
  grind [foldl_canon, State.restartSeqs_mem, State.pokeBytes_canon, State.poke64_canon, State.settleCrew_canon, State.setExtw_canon, State.modCtx_mem,
    State.writeBack_canon]

theorem ckptGo_canon (x : MF) (s : State) (k : Key) (w : Wave) {t : State} {r : Nat} (hm : memWf s.mem = true) (h : ckptGo x s k w = some (t, r)) :
    memWf t.mem = true := by
  unfold ckptGo at h
  split at h
  · cases h; exact hm
  · split at h
    · cases h; exact hm
    · obtain ⟨p, hp, heq⟩ := Option.map_eq_some_iff.mp h
      cases heq
      exact State.checkpoint_canon s _ hm hp

theorem State.undo_canon (s : State) (base n : Nat) (hm : memWf s.mem = true) : memWf (s.undo base n).mem = true := by
  fun_induction State.undo <;> grind [State.pokeBytes_canon, State.heal_mem, State.charge_mem]

theorem State.dropWrites_mem (s : State) (c : Nat) (lines : List Nat) : (s.dropWrites c lines).mem = s.mem := rfl

theorem State.rollCrew_canon (s : State) (c : Nat) (r : ImgRef) (hm : memWf s.mem = true) : memWf (s.rollCrew c r).mem = true := by
  unfold State.rollCrew
  extract_lets a l id home cores
  split
  · next core _ =>
    cases hl : s.loadOne c core a id none with
    | none => exact hm
    | some t => exact State.loadOne_canon s c core a id none hm hl
  · exact hm

theorem State.rollBase_canon (s : State) (c : Nat) (hm : memWf s.mem = true) : memWf (s.rollBase c).mem = true := by
  unfold State.rollBase
  grind [foldl_canon, State.dropCrew_mem, State.relCount_mem, State.dropWrites_mem, State.undo_canon, State.modCtx_mem]

theorem State.rollback_canon (s : State) (c : Nat) (hm : memWf s.mem = true) : memWf (s.rollback c).mem = true := by
  unfold State.rollback
  grind [foldl_canon, State.rollCrew_canon, State.rollBase_canon]

theorem State.rollAway_canon (s : State) (c : Nat) (waitFor : Option (Nat × Nat)) (hm : memWf s.mem = true) :
    memWf (s.rollAway c waitFor).mem = true := by
  unfold State.rollAway
  grind [State.rollBase_canon]

theorem rollbkGo_canon (x : MF) (s : State) (a1 : Key) (w : Wave) {t : State} {r : Nat} (hm : memWf s.mem = true)
    (h : rollbkGo x s a1 w = some (t, r)) :
    memWf t.mem = true := by
  unfold rollbkGo at h
  grind [State.rollback_canon, State.stopAll_canon]

end Sys2Proof.Machine
end


section
/-! O19, continued: the machine's own steps. -/

namespace Sys2Proof.Machine

-- Polders and crews.

theorem State.dispTouch_canon (s : State) (c pages va n : Nat) {t : State} (hm : memWf s.mem = true) (h : s.dispTouch c pages va n = .ok t) :
    memWf t.mem = true := by
  fun_induction State.dispTouch <;> grind [State.translate_canon, State.chargeHome_mem]

theorem State.dispRanges_canon (s : State) (c : Nat) (a1 : List (Nat × Nat)) {t : State} (hm : memWf s.mem = true) (h : s.dispRanges c a1 = .ok t) :
    memWf t.mem = true := by
  fun_induction State.dispRanges <;> grind [State.dispTouch_canon]

theorem State.dispDone_canon (s : State) (c : Nat) (rs : List (Nat × Nat)) (hm : memWf s.mem = true) : memWf (s.dispDone c rs).mem = true := by
  unfold State.dispDone
  grind [State.dispRanges_canon]

theorem State.startCrew_canon (s : State) (l : Launch) (unit rank core cslot : Nat) (hm : memWf s.mem = true) :
    memWf (s.startCrew l unit rank core cslot).mem = true := by
  unfold State.startCrew
  grind [foldl_canon, State.acquire_mem, State.islandSettle_mem, State.setWave_mem, State.setCrew_mem, State.modCore_mem, State.slowNew_mem,
    State.seqBegin_canon]

theorem State.placeOne_canon (s : State) (l : Launch) (j : JobCrew) (core : Nat) (hm : memWf s.mem = true) :
    memWf (s.placeOne l j core).mem = true := by
  unfold State.placeOne
  grind [State.startCrew_canon, State.modCluster_mem, State.runOn_canon, State.useCore_mem, State.loadCrew_canon]

theorem State.placeUnit_canon (s : State) (l : Launch) (cores : List Nat) (a1 : List JobCrew) {t : State} (hm : memWf s.mem = true)
    (h : s.placeUnit l cores a1 = some t) :
    memWf t.mem = true := by
  fun_induction State.placeUnit <;> grind [State.placeOne_canon]

theorem State.placeUnits_canon (s : State) (l : Launch) (groups : List (List Nat)) (us : List (List JobCrew)) {t : State} (hm : memWf s.mem = true)
    (h : s.placeUnits l groups us = some t) : memWf t.mem = true := by
  induction us generalizing s t with
  | nil => grind [State.placeUnits]
  | cons u r ih =>
    rw [State.placeUnits] at h
    split at h
    · cases h
    · next s1 hu =>
      obtain ⟨g, -, hg⟩ := List.exists_of_findSome?_eq_some hu
      exact ih s1 (State.placeUnit_canon s l g u hm hg) h

theorem State.placeIn_canon (s : State) (p : Nat → Bool) (c d : Nat) (j : Job) {t : State} (hm : memWf s.mem = true)
    (h : s.placeIn p c d j = some t) : memWf t.mem = true := by
  unfold State.placeIn at h
  grind [State.placeUnits_canon]

theorem State.placeJob_canon (s : State) (c d : Nat) (j : Job) {t : State} (hm : memWf s.mem = true) (h : s.placeJob c d j = some t) :
    memWf t.mem = true := by
  unfold State.placeJob at h
  grind [State.placeIn_canon]

theorem State.placeWithin_canon (s : State) (c d : Nat) (j : Job) {t : State} (hm : memWf s.mem = true) (h : s.placeWithin c d j = some t) :
    memWf t.mem = true := by
  unfold State.placeWithin at h
  split at h
  · cases h
  · exact State.placeJob_canon s c d j hm (Option.filter_eq_some_iff.mp h).1

theorem State.ctxJob_canon (s : State) (d c : Nat) {t : State} {r : Job} (hm : memWf s.mem = true) (h : s.ctxJob d c = some (r, t)) :
    memWf t.mem = true := by
  unfold State.ctxJob at h
  split at h
  · cases h
  · extract_lets fit before at h
    have hfit : ∀ f ∈ fit, memWf f.2.mem = true := by
      intro f hf
      obtain ⟨j, -, hj⟩ := List.mem_filterMap.mp hf
      obtain ⟨u, hu, rfl⟩ := Option.map_eq_some_iff.mp hj
      exact State.placeWithin_canon s c d j hm hu
    clear_value fit
    split at h
    · cases h
    · next f r' =>
      have hbest : ∀ (l : List (Job × State)) (b : Job × State), (∀ x ∈ l, memWf x.2.mem = true) → memWf b.2.mem = true →
          memWf (l.foldl (fun b x => if before x.1 b.1 then x else b) b).2.mem = true := by
        intro l
        induction l with
        | nil => exact fun b _ hb => hb
        | cons x l ih =>
          intro b hl hb
          rw [List.foldl_cons]
          refine ih _ (fun y hy => hl y (List.mem_cons_of_mem _ hy)) ?_
          split
          · exact hl x (by simp)
          · exact hb
      have := hbest r' f (fun x hx => hfit x (List.mem_cons_of_mem _ hx)) (hfit f (by simp))
      rw [Option.some.inj h] at this
      exact this

theorem firstMax_mem {α : Type} {f : α → Int} {l : List α} {x : α} (h : firstMax f l = some x) : x ∈ l := by
  cases l with
  | nil => cases h
  | cons a r =>
    have hfold : ∀ (r : List α) (b : α), r.foldl (fun b x => if f b < f x then x else b) b ∈ b :: r := by
      intro r
      induction r with
      | nil => exact fun b => List.mem_singleton_self b
      | cons y r ih =>
        intro b
        rw [List.foldl_cons]
        rcases List.mem_cons.mp (ih (if f b < f y then y else b)) with h | h
        · rw [h]; split <;> simp
        · exact List.mem_cons_of_mem _ (List.mem_cons_of_mem _ h)
    exact Option.some.inj h ▸ hfold r a

theorem State.tookJob_mem (s : State) (j : Job) : (s.tookJob j).mem = s.mem := by
  unfold State.tookJob
  split <;> rfl

theorem State.spend_mem (s : State) (d p c n : Nat) (ps cs : List Nat) : (s.spend d p c n ps cs).mem = s.mem := by
  unfold State.spend
  grind [foldl_mem, State.modDie_mem]

theorem State.dispatchTurn_canon (s : State) (d : Nat) (out : List Nat) {t : State} {r : List Nat} (hm : memWf s.mem = true)
    (h : s.dispatchTurn d out = some (t, r)) : memWf t.mem = true := by
  unfold State.dispatchTurn at h
  extract_lets all ps at h
  split at h
  · cases h
  · extract_lets cs at h
    have hplaced : ∀ x ∈ cs, memWf x.2.2.mem = true := by
      intro x hx
      obtain ⟨c, -, hc⟩ := List.mem_filterMap.mp hx
      obtain ⟨u, hu, rfl⟩ := Option.map_eq_some_iff.mp hc
      exact State.ctxJob_canon s d c hm hu
    split at h
    · cases h; exact hm
    · next c j placed hmax =>
      have hp : memWf placed.mem = true := hplaced _ (firstMax_mem hmax)
      grind [State.dispDone_canon, State.queueFault_canon, State.spend_mem, State.tookJob_mem, State.l2Discard_canon, State.modDie_mem,
        State.modCtx_mem, State.memLoss_mem, State.reportMiss_mem]

theorem State.dispatchGo_canon (s : State) (d : Nat) (out : List Nat) (fuel : Nat) (hm : memWf s.mem = true) :
    memWf (s.dispatchGo d out fuel).mem = true := by
  fun_induction State.dispatchGo <;> grind [State.dispatchTurn_canon]

theorem State.dispatch_canon (s : State) (d : Nat) (hm : memWf s.mem = true) : memWf (s.dispatch d).mem = true := by
  unfold State.dispatch
  grind [State.dispatchGo_canon]

theorem execDispatchOpportunity_canon (die : Nat) (s : State) {t : State} (hm : memWf s.mem = true) (h : execDispatchOpportunity die s = .next t) :
    memWf t.mem = true := by
  unfold execDispatchOpportunity at h
  grind [State.dispatch_canon]

theorem State.completeCrew_canon (s : State) (k : Key) (hm : memWf s.mem = true) : memWf (s.completeCrew k).mem = true := by
  unfold State.completeCrew
  grind [State.writeStatus_canon, State.dropCrew_mem, State.addCounts_mem, State.release_canon]

theorem execCrewComplete_canon (crew : Key) (s : State) {t : State} (hm : memWf s.mem = true) (h : execCrewComplete crew s = .next t) :
    memWf t.mem = true := by
  unfold execCrewComplete at h
  grind [State.completeCrew_canon]

theorem State.setAside_mem (s : State) (k : Key) (image : Option (List Dword)) (waitFor : Option (Nat × Nat)) :
    (s.setAside k image waitFor).mem = s.mem := by
  unfold State.setAside
  grind [State.dropCrew_mem]

theorem State.restartCrew_mem (s : State) (waitFor : Option (Nat × Nat)) (k : Key) : (s.restartCrew waitFor k).mem = s.mem := by
  unfold State.restartCrew
  grind [State.haltSeq_mem, State.setAside_mem]

theorem State.saveCrews_canon (s : State) (ks : List Key) (waitFor : Option (Nat × Nat)) {t : State} (hm : memWf s.mem = true)
    (h : s.saveCrews ks waitFor = some t) :
    memWf t.mem = true := by
  unfold State.saveCrews at h
  grind [foldl_canon, State.settleCrew_canon, State.addCounts_mem, State.setAside_mem]

theorem State.drainCrews_mem (s : State) (p : Nat) (ks : List Key) (waitFor : Option (Nat × Nat)) : (s.drainCrews p ks waitFor).mem = s.mem := by
  unfold State.drainCrews
  grind [foldl_mem, State.modCrew_mem]

theorem State.leaveGroup_canon (s : State) (p : Nat) (waitFor : Option (Nat × Nat)) (ks : List Key) {t : State} (hm : memWf s.mem = true)
    (h : s.leaveGroup p waitFor ks = some t) :
    memWf t.mem = true := by
  unfold State.leaveGroup at h
  grind [foldl_canon, State.saveCrews_canon, State.restartCrew_mem, State.drainCrews_mem]

theorem State.preemptCtx_canon (s : State) (p c : Nat) (ks : List Key) (waitFor : Option (Nat × Nat)) {t : State} (hm : memWf s.mem = true)
    (h : s.preemptCtx p c ks waitFor = some t) : memWf t.mem = true := by
  have hgroups : ∀ (gs : List (List Key)) (o : Option State), (∀ u, o = some u → memWf u.mem = true) →
      ∀ u, gs.foldl (fun o g => o.bind fun s => s.leaveGroup p waitFor g) o = some u → memWf u.mem = true :=
    fun gs => foldl_bind_canon (fun g s t hm h => State.leaveGroup_canon s p waitFor g hm h) gs
  unfold State.preemptCtx at h
  grind [State.rollAway_canon]

theorem State.preempt_canon (s : State) (p : Nat) (ks : List Key) (waitFor : Option (Nat × Nat)) {t : State} (hm : memWf s.mem = true)
    (h : s.preempt p ks waitFor = some t) : memWf t.mem = true :=
  foldl_bind_canon (fun c s t hm h => State.preemptCtx_canon s p c _ waitFor hm h) _ _ (fun u hu => by cases hu; exact hm) t h

theorem execDrainWindowEnd_canon (c : Key) (s : State) {t : State} (hm : memWf s.mem = true) (h : execDrainWindowEnd c s = .next t) :
    memWf t.mem = true := by
  cases hs : s.saveCrews (s.leaveWith c) (s.crew c).drainFor <;> grind [execDrainWindowEnd, State.saveCrews_canon]

theorem State.dispatchAll_canon (s : State) (hm : memWf s.mem = true) : memWf (s.dispatchAll).mem = true := by
  unfold State.dispatchAll
  grind [foldl_canon, State.dispatch_canon]

theorem execSliceExpiry_canon (ctx : Nat) (s : State) {t : State} (hm : memWf s.mem = true) (h : execSliceExpiry ctx s = .next t) :
    memWf t.mem = true := by
  unfold execSliceExpiry at h
  grind [State.preempt_canon, State.dispatchAll_canon, State.modCtx_mem]

theorem execDormantSave_canon (c : Key) (s : State) {t : State} (hm : memWf s.mem = true) (h : execDormantSave c s = .next t) :
    memWf t.mem = true := by
  have hsave : ∀ ks f, memWf (((s.saveCrews ks f).map State.dispatchAll).getD s).mem = true := by
    intro ks f
    cases hs : s.saveCrews ks f with
    | none => exact hm
    | some u => exact State.dispatchAll_canon u (State.saveCrews_canon s ks f hm hs)
  unfold execDormantSave at h
  grind [State.modCrew_mem]

theorem execLendPoolJoin_canon (cluster : Nat) (s : State) {t : State} (hm : memWf s.mem = true) (h : execLendPoolJoin cluster s = .next t) :
    memWf t.mem = true := by
  unfold execLendPoolJoin at h
  grind [State.modCluster_mem]

theorem State.recallDone_canon (s : State) (cl : Nat) (hm : memWf s.mem = true) : memWf (s.recallDone cl).mem = true := by
  unfold State.recallDone
  grind [State.modCluster_mem, State.dispatchAll_canon, State.cleanCluster_canon]

theorem execRecall_canon (cl : Nat) (s : State) {t : State} (hm : memWf s.mem = true) (h : execRecall cl s = .next t) : memWf t.mem = true := by
  have hpre : ∀ (s : State) p ks w, memWf s.mem = true → memWf ((s.preempt p ks w).getD s).mem = true := by
    intro s p ks w hm
    cases hs : s.preempt p ks w with
    | none => exact hm
    | some u => exact State.preempt_canon s p ks w hm hs
  unfold execRecall at h
  grind [State.modCluster_mem, State.recallDone_canon]

-- Shares and metering.

theorem execBucketRefill_canon (polder ctl : Nat) (s : State) {t : State} (hm : memWf s.mem = true) (h : execBucketRefill polder ctl s = .next t) :
    memWf t.mem = true := by
  unfold execBucketRefill at h
  grind [State.modPolder_mem]

theorem State.freeDuty_mem (s : State) : (s.freeDuty).2.mem = s.mem := rfl

theorem State.reduce_mem (s : State) (cause : Nat) (ks : List Key) : (s.reduce cause ks).mem = s.mem := by
  unfold State.reduce
  grind [foldl_mem, State.throttle_mem, State.freeDuty_mem]

theorem State.unreduce_mem (s : State) (cause : Nat) (ks : List Key) : (s.unreduce cause ks).mem = s.mem := by
  unfold State.unreduce
  grind [foldl_mem, State.unthrottle_mem]

theorem execPowerMeasure_canon (polder watts : Nat) (s : State) {t : State} (hm : memWf s.mem = true)
    (h : execPowerMeasure polder watts s = .next t) : memWf t.mem = true := by
  unfold execPowerMeasure at h
  grind [foldl_canon, State.unreduce_mem, State.reduce_mem, State.modPolder_mem]

theorem execThrottleNotice_canon (crew : Key) (cause : Nat) (s : State) {t : State} (hm : memWf s.mem = true)
    (h : execThrottleNotice crew cause s = .next t) :
    memWf t.mem = true := by
  unfold execThrottleNotice at h
  grind [foldl_canon, State.settleDry_mem, State.reduce_mem, State.unthrottle_mem]

theorem State.meterCrews_mem (s : State) (p : Nat) : (s.meterCrews p).mem = s.mem := by
  unfold State.meterCrews
  grind [foldl_mem, State.modCrew_mem, State.meterCtrs_mem, State.meter_mem]

theorem State.meterEnergy_mem (s : State) (p : Nat) : (s.meterEnergy p).mem = s.mem := rfl

theorem State.feed_mem (s : State) (p : Nat) : (s.feed p).mem = s.mem := by
  unfold State.feed
  grind [foldl_mem, State.meterCrews_mem, State.pour_mem, State.useCore_mem, State.modPolder_mem, State.meterEnergy_mem]

theorem execMeteringFeed_canon (polder : Nat) (s : State) {t : State} (hm : memWf s.mem = true) (h : execMeteringFeed polder s = .next t) :
    memWf t.mem = true := by
  unfold execMeteringFeed at h
  grind [State.feed_mem]

theorem State.signed_mem (s : State) (body : List Dword) : (s.signed body).2.mem = s.mem := rfl

theorem execUsageReport_canon (owner : Nat) (n0 n1 : BitVec 64) (s : State) {t : State} (hm : memWf s.mem = true)
    (h : execUsageReport owner n0 n1 s = .next t) :
    memWf t.mem = true := by
  unfold execUsageReport at h
  grind [foldl_canon, State.feed_mem, State.signed_mem, State.modPkg_mem]

-- Islands and clocks.

theorem execFreeboardWindowClose_canon (core : Nat) (s : State) {t : State} (hm : memWf s.mem = true)
    (h : execFreeboardWindowClose core s = .next t) : memWf t.mem = true := by
  unfold execFreeboardWindowClose at h
  obtain rfl := Host.Outcome.next.inj h
  extract_lets i
  split
  · exact hm
  · exact (congrArg memWf (State.modCore_mem s core _)).trans hm

theorem execIslandOff_canon (core : Nat) (s : State) {t : State} (hm : memWf s.mem = true) (h : execIslandOff core s = .next t) :
    memWf t.mem = true := by
  unfold execIslandOff at h
  grind [State.modCore_mem]

theorem execIslandPowerUp_canon (core : Nat) (s : State) {t : State} (hm : memWf s.mem = true) (h : execIslandPowerUp core s = .next t) :
    memWf t.mem = true := by
  unfold execIslandPowerUp at h
  grind [State.modCore_mem, State.engineGo_mem]

theorem execIslandForceWrite_canon (core : Nat) (force : Bool) (s : State) {t : State} (hm : memWf s.mem = true)
    (h : execIslandForceWrite core force s = .next t) :
    memWf t.mem = true := by
  unfold execIslandForceWrite at h
  grind [State.setForce_mem]

theorem execDclkTgtWrite_canon (die : Nat) (tgt : BitVec 7) (s : State) {t : State} (hm : memWf s.mem = true)
    (h : execDclkTgtWrite die tgt s = .next t) :
    memWf t.mem = true := by
  unfold execDclkTgtWrite at h
  grind [State.writeTgt_mem]

theorem execVoltageRiseDone_canon (die : Nat) (s : State) {t : State} (hm : memWf s.mem = true) (h : execVoltageRiseDone die s = .next t) :
    memWf t.mem = true := by
  unfold execVoltageRiseDone at h
  grind [State.beginRelock_mem]

theorem execRelockDone_canon (die : Nat) (s : State) {t : State} (hm : memWf s.mem = true) (h : execRelockDone die s = .next t) :
    memWf t.mem = true := by
  unfold execRelockDone at h
  grind [foldl_canon, State.engineGo_mem, State.beginStep_mem, State.modDie_mem, State.retryHeld_canon, State.unthrottle_mem]

theorem execThermalTrip_canon (die : Nat) (s : State) {t : State} (hm : memWf s.mem = true) (h : execThermalTrip die s = .next t) :
    memWf t.mem = true := by
  unfold execThermalTrip at h
  grind [foldl_canon, State.reduce_mem, State.modDie_mem, State.writeTgt_mem, State.notice_mem]

theorem State.cooled_mem (s : State) (die : Nat) : (s.cooled die).mem = s.mem := by
  unfold State.cooled
  grind [State.unreduce_mem, State.modDie_mem]

theorem execShadowReplay_canon (core : Nat) (s : State) {t : State} (hm : memWf s.mem = true) (h : execShadowReplay core s = .next t) :
    memWf t.mem = true := by
  unfold execShadowReplay at h
  grind [State.relCount_mem, State.modDie_mem]

theorem execRegulatorPhaseSpare_canon (rail : Nat) (s : State) {t : State} (hm : memWf s.mem = true) (h : execRegulatorPhaseSpare rail s = .next t) :
    memWf t.mem = true := by
  unfold execRegulatorPhaseSpare at h
  grind [State.unreduce_mem, State.reduce_mem, State.modPkg_mem]

-- Errors.

theorem State.countLine_mem (s : State) (line i : Nat) : (s.countLine line i).mem = s.mem := by
  unfold State.countLine
  split <;> rfl

theorem State.l2Refetch_mem (s : State) (line : Nat) : (s.l2Refetch line).mem = s.mem := by
  unfold State.l2Refetch
  grind [State.l2Remove_mem]

theorem execDataErrorDetect_canon (kind addr : Nat) (s : State) {t : State} (hm : memWf s.mem = true)
    (h : execDataErrorDetect kind addr s = .next t) : memWf t.mem = true := by
  unfold execDataErrorDetect at h
  grind [foldl_canon, State.countLine_mem, State.l2Refetch_mem, State.dropClean_mem, State.loseLine_mem, State.modPkg_mem, State.l2Lose_canon]

theorem execCacheScrub_canon (cluster line : Nat) (s : State) {t : State} (hm : memWf s.mem = true) (h : execCacheScrub cluster line s = .next t) :
    memWf t.mem = true := by
  unfold execCacheScrub at h
  grind [State.loseLine_mem, State.modPkg_mem, State.l2Lose_canon]

theorem execCheckpointTimer_canon (ctx : Nat) (s : State) {t : State} (hm : memWf s.mem = true) (h : execCheckpointTimer ctx s = .next t) :
    memWf t.mem = true := by
  unfold execCheckpointTimer at h
  grind [State.modCtx_mem, State.event_mem]

theorem execUndoLogForcedCkpt_canon (ctx : Nat) (s : State) {t : State} (hm : memWf s.mem = true) (h : execUndoLogForcedCkpt ctx s = .next t) :
    memWf t.mem = true := by
  unfold execUndoLogForcedCkpt at h
  grind [State.checkpoint_canon, State.event_mem]

theorem execUndoLogFull_canon (ctx : Nat) (s : State) {t : State} (hm : memWf s.mem = true) (h : execUndoLogFull ctx s = .next t) :
    memWf t.mem = true := by
  unfold execUndoLogFull at h
  grind [State.dropCheckpoint_canon]

theorem State.abortRecords_canon (s : State) (q : Nat) (hm : memWf s.mem = true) : memWf (s.abortRecords q).mem = true :=
  (MemSide.abortRecords _ _).canon hm

theorem State.abortCtx_canon (s : State) (c : Nat) (hm : memWf s.mem = true) : memWf (s.abortCtx c).mem = true := by
  unfold State.abortCtx
  grind [foldl_canon, State.writeStatus_canon, State.setQueueWord_canon, State.forgetMisses_mem, State.abortRecords_canon, State.dropInj_mem,
    State.modCtx_mem]

theorem execContextAbort_canon (ctx : Nat) (s : State) {t : State} (hm : memWf s.mem = true) (h : execContextAbort ctx s = .next t) :
    memWf t.mem = true := by
  unfold execContextAbort at h
  grind [State.abortCtx_canon]

theorem execReeveWaveFault_canon (k : Key) (s : State) {t : State} (hm : memWf s.mem = true) (h : execReeveWaveFault k s = .next t) :
    memWf t.mem = true := by
  have hnext := State.nextWord_canon s k hm
  unfold execReeveWaveFault at h
  grind [Front.canon, State.raiseWave_mem]

theorem execFirmwareRestart_canon (die : Nat) (s : State) {t : State} (hm : memWf s.mem = true) (h : execFirmwareRestart die s = .next t) :
    memWf t.mem = true := by
  unfold execFirmwareRestart at h
  grind [State.modPkg_mem, State.releaseLines_mem, State.event_mem]

-- Host, fabric and boot.

theorem State.pokeEach_canon (s : State) (as : List Nat) (bs : List Byte) (hm : memWf s.mem = true) : memWf (s.pokeEach as bs).mem = true := by
  unfold State.pokeEach
  grind [foldl_canon, State.l2Dirty_mem, State.heal_mem, State.putByte_canon]

theorem State.chargeEach_mem (s : State) (p path : Nat) (as : List Nat) : (s.chargeEach p path as).mem = s.mem := by
  unfold State.chargeEach
  grind [foldl_mem, State.chargeHome_mem, State.tokens_mem]

theorem State.complete_mem (s : State) (status : Nat) (data : List Dword) : (s.complete status data).mem = s.mem := rfl

theorem State.answerPeer_mem (s : State) (port : Nat) (ok : Bool) (data : Nat) : (s.answerPeer port ok data).mem = s.mem := rfl

theorem State.ring_canon (s : State) (q wrix : Nat) (hm : memWf s.mem = true) : memWf (s.ring q wrix).mem = true := by
  unfold State.ring
  grind [State.setWrix_canon, State.setQueueWord_canon]

theorem execDoorbellWrite_canon (polder : Nat) (a : Bar0Access) (s : State) {t : State} (hm : memWf s.mem = true)
    (h : execDoorbellWrite polder a s = .next t) :
    memWf t.mem = true := by
  unfold execDoorbellWrite at h
  grind [State.ring_canon, State.complete_mem]

theorem execHostBar2Access_canon (polder : Nat) (write : Bool) (addr : Nat) (data : List Byte) (size : Nat) (s : State) {t : State}
    (hm : memWf s.mem = true) (h : execHostBar2Access polder write addr data size s = .next t) :
    memWf t.mem = true := by
  unfold execHostBar2Access at h
  grind [State.pokeEach_canon, State.chargeEach_mem, State.complete_mem]

theorem execHostAtomicop_canon (polder op size addr : Nat) (a b : BitVec 64) (s : State) {t : State} (hm : memWf s.mem = true)
    (h : execHostAtomicop polder op size addr a b s = .next t) :
    memWf t.mem = true := by
  unfold execHostAtomicop at h
  grind [State.pokeEach_canon, State.chargeEach_mem, State.complete_mem]

theorem State.dropCrews_mem (s : State) (c : Nat) : (s.dropCrews c).mem = s.mem := by
  unfold State.dropCrews
  grind [foldl_mem, State.dropCrew_mem]

theorem State.flrBegin_canon (s : State) (p : Nat) (hm : memWf s.mem = true) : memWf (s.flrBegin p).mem = true := by
  unfold State.flrBegin
  grind [foldl_canon, State.abortCtx_canon, State.free_mem, State.dropCrews_mem, State.modPkg_mem, State.event_mem]

theorem State.flrEnd_canon (s : State) (p : Nat) (hm : memWf s.mem = true) : memWf (s.flrEnd p).mem = true := by
  unfold State.flrEnd
  extract_lets cls s1
  exact memWf_filter (fun a => !s1.inPolder p a)
    (foldl_canon (f := fun s cl => (s.cleanCluster cl).modCluster cl _) (fun s cl hm => State.cleanCluster_canon s cl hm) cls s hm)

theorem execFunctionLevelReset_canon (vf : Nat) (s : State) {t : State} (hm : memWf s.mem = true) (h : execFunctionLevelReset vf s = .next t) :
    memWf t.mem = true := by
  unfold execFunctionLevelReset at h
  grind [State.flrEnd_canon, State.flrBegin_canon]

theorem execHostCommandDoorbell_canon (idx : BitVec 64) (s : State) {t : State} (hm : memWf s.mem = true)
    (h : execHostCommandDoorbell idx s = .next t) :
    memWf t.mem = true := by
  unfold execHostCommandDoorbell at h
  grind [State.event_mem]

theorem execConfigurationRequest_canon (kind : Nat) (v : BitVec 64) (s : State) {t : State} (hm : memWf s.mem = true)
    (h : execConfigurationRequest kind v s = .next t) :
    memWf t.mem = true := by
  unfold execConfigurationRequest at h
  grind [State.complete_mem, State.free_mem, State.modPkg_mem]

theorem State.modPort_mem (s : State) (n : Nat) (f : Port → Port) : (s.modPort n f).mem = s.mem := rfl

theorem execPeerAccessIn_canon (port fid : Nat) (what : PeerIn) (addr : Nat) (data : BitVec 128) (size : Nat) (s : State) {t : State}
    (hm : memWf s.mem = true) (h : execPeerAccessIn port fid what addr data size s = .next t) :
    memWf t.mem = true := by
  unfold execPeerAccessIn at h
  grind [State.modPort_mem, State.pokeEach_canon, State.chargeEach_mem, State.answerPeer_mem]

theorem State.peerSends_canon (s : State) (o : PeerOp) (data : BitVec 128) (hm : memWf s.mem = true) : memWf (s.peerSends o data).mem = true := by
  unfold State.peerSends
  grind [State.pokeBytes_canon]

theorem execPeerResponse_canon (op : Nat) (data : BitVec 128) (s : State) {t : State} (hm : memWf s.mem = true)
    (h : execPeerResponse op data s = .next t) :
    memWf t.mem = true := by
  unfold execPeerResponse at h
  grind [State.peerSends_canon, State.modPkg_mem, State.retryHeld_canon]

theorem State.dropOp_mem (s : State) (op : Nat) : (s.dropOp op).mem = s.mem := rfl

theorem State.pokeFree_canon (s : State) (a n : Nat) (hm : memWf s.mem = true) : memWf (s.pokeFree a n).mem = true := by
  unfold State.pokeFree
  grind [foldl_canon, State.pokeBytes_canon, State.free_mem]

theorem State.beatAnyway_canon (s : State) (o : PeerOp) (hm : memWf s.mem = true) : memWf (s.beatAnyway o).mem = true := by
  unfold State.beatAnyway
  grind [State.beat_canon, State.modPkg_mem, State.modCopy_mem]

theorem State.maybeDone_canon (s : State) (o : PeerOp) (hm : memWf s.mem = true) : memWf (s.maybeDone o).mem = true := by
  unfold State.maybeDone
  grind [State.free_mem, State.setExtw_canon, State.beatAnyway_canon, State.accLane_canon, State.pokeFree_canon]

theorem State.faultOp_canon (s : State) (o : PeerOp) (hm : memWf s.mem = true) : memWf (s.faultOp o).mem = true := by
  unfold State.faultOp
  grind [State.faultCopy_mem, State.raiseSeq_mem, State.dropOp_mem, State.modWave_mem, State.dropOps_mem, State.raiseWave_mem]

theorem execPeerTimeout_canon (op : Nat) (s : State) {t : State} (hm : memWf s.mem = true) (h : execPeerTimeout op s = .next t) :
    memWf t.mem = true := by
  unfold execPeerTimeout at h
  grind [State.maybeDone_canon, State.faultOp_canon]

theorem execLaneSpareRetrain_canon (port : Nat) (s : State) {t : State} (hm : memWf s.mem = true) (h : execLaneSpareRetrain port s = .next t) :
    memWf t.mem = true := by
  unfold execLaneSpareRetrain at h
  grind [State.modPort_mem]

theorem execPortRetrain_canon (port : Nat) (s : State) {t : State} (hm : memWf s.mem = true) (h : execPortRetrain port s = .next t) :
    memWf t.mem = true := by
  unfold execPortRetrain at h
  grind [State.modPort_mem]

theorem State.portGoes_canon (s : State) (port : Nat) (hm : memWf s.mem = true) : memWf (s.portGoes port).mem = true := by
  unfold State.portGoes
  grind [foldl_canon, State.retryHeld_canon]

theorem execPortRetrainDone_canon (port : Nat) (s : State) {t : State} (hm : memWf s.mem = true) (h : execPortRetrainDone port s = .next t) :
    memWf t.mem = true := by
  unfold execPortRetrainDone at h
  grind [State.modPort_mem, State.portGoes_canon]

theorem State.silence_canon (s : State) (port : Nat) (on : Bool) (hm : memWf s.mem = true) : memWf (s.silence port on).mem = true := by
  unfold State.silence
  grind [State.modPort_mem, State.portGoes_canon]

theorem execWearRecordAppend_canon (w0 w1 w2 w3 : BitVec 64) (s : State) {t : State} (hm : memWf s.mem = true)
    (h : execWearRecordAppend w0 w1 w2 w3 s = .next t) :
    memWf t.mem = true := by
  unfold execWearRecordAppend at h
  grind [State.modPkg_mem]

theorem execAttestationReport_canon (n0 n1 : BitVec 64) (s : State) {t : State} (hm : memWf s.mem = true)
    (h : execAttestationReport n0 n1 s = .next t) :
    memWf t.mem = true := by
  unfold execAttestationReport at h
  grind [State.free_mem, State.modPkg_mem]

theorem State.bootUp_canon (s : State) (fw reeve : BootImg) (hm : memWf s.mem = true) : memWf (s.bootUp fw reeve).mem = true :=
  memWf_filter isExternal hm

theorem State.bootStep_mem (s : State) : (s.bootStep).mem = s.mem := by
  unfold State.bootStep
  grind [State.modPkg_mem]

theorem execPowerGoodBoot_canon (imgs : BootImgs) (s : State) {t : State} (hm : memWf s.mem = true) (h : execPowerGoodBoot imgs s = .next t) :
    memWf t.mem = true := by
  unfold execPowerGoodBoot at h
  grind [State.bootUp_canon]

theorem execModuleReset_canon (s : State) {t : State} (hm : memWf s.mem = true) (h : execModuleReset s = .next t) : memWf t.mem = true := by
  unfold execModuleReset at h
  grind [State.bootUp_canon]

theorem execLifeCycleChange_canon (target : Nat) (s : State) {t : State} (hm : memWf s.mem = true) (h : execLifeCycleChange target s = .next t) :
    memWf t.mem = true := by
  unfold execLifeCycleChange at h
  grind [State.bootUp_canon]

theorem State.setBarrier_mem (s : State) (addr polder n thr : Nat) : (s.setBarrier addr polder n thr).mem = s.mem := rfl

theorem State.provision_mem (s : State) (f : Pkg → Pkg) : (s.provision f).mem = s.mem := by
  unfold State.provision
  split <;> rfl

theorem execRegisterWrite_canon (t : RegTarget) (v : BitVec 64) (s : State) {u : State} (hm : memWf s.mem = true)
    (h : execRegisterWrite t v s = .next u) :
    memWf u.mem = true := by
  unfold execRegisterWrite at h
  grind [State.modPort_mem, State.provision_mem, State.setBarrier_mem, State.setForce_mem, State.modDie_mem, State.modPkg_mem, State.writeTgt_mem]

end Sys2Proof.Machine
end


section
/-! O19: every instruction, every turn and every step. -/

namespace Sys2Proof.Machine

-- Words.

/-- A body that leaves memory canonical. -/
def keepsCanon (body : State → Key → Wave → Eff) : Prop := ∀ s k w, memWf s.mem = true → (body s k w).canon

/-- The words of the matrix stream likewise. -/
def seqKeepsCanon (body : State → Key → Crew → SeqEff) : Prop := ∀ s c x, memWf s.mem = true → (body s c x).canon

theorem keeps_of_issue {s t : State} {i : Instr} {body : State → Key → Wave → Eff} (hm : memWf s.mem = true)
    (h : (.next (s.issue i body) : Host.Outcome State Fault Refusal) = .next t) (hb : keepsCanon body) : memWf t.mem = true := by
  cases h
  exact State.issue_canon s i body hb hm

theorem keeps_of_seqIssue {s t : State} {i : Instr} {body : State → Key → Crew → SeqEff} (hm : memWf s.mem = true)
    (h : (.next (s.seqIssue i body) : Host.Outcome State Fault Refusal) = .next t) (hb : seqKeepsCanon body) : memWf t.mem = true := by
  cases h
  exact State.seqIssue_canon s i body hb hm

theorem keeps_of_privIssue {s t : State} {i : Instr} {x : MF} {align : Nat} {go : State → Key → Wave → Option (State × Nat)} (hm : memWf s.mem = true)
    (h : (.next (privIssue i x align go s) : Host.Outcome State Fault Refusal) = .next t)
    (hb : ∀ s k w t r, memWf s.mem = true → go s k w = some (t, r) → memWf t.mem = true) : memWf t.mem = true := by
  cases h
  exact privIssue_canon i x align go s hb hm

theorem keepsCanon_memGate {path : Nat} {body : State → Key → Wave → Eff} (hb : keepsCanon body) : keepsCanon (memGate path body) :=
  fun s k w hm => memGate_canon path body s k w hb hm

theorem keepsCanon_waveLevel {pr : BitVec 3} {pn : Bool} {body : State → Key → Wave → Eff} (hb : keepsCanon body) : keepsCanon (waveLevel pr pn body) :=
  fun s k w hm => waveLevel_canon pr pn body s k w hb hm

theorem keepsCanon_withScope {x : MF} {body : Word → ScopeInst → State → Key → Wave → Eff} (hb : ∀ ep inst, keepsCanon (body ep inst)) :
    keepsCanon (withScope x body) :=
  fun s k w hm => withScope_canon x body s k w hb hm

theorem execQnt_canon {nosm : Bool} {sel : QSel} {rm : Rm} {x : VF} {s t : State} (hm : memWf s.mem = true)
    (h : execQnt nosm sel rm x s = .next t) : memWf t.mem = true := by
  refine keeps_of_issue hm h ?_
  split
  · exact fun _ _ _ hm => qntBody_canon (hm := hm) ..
  · exact keepsCanon_memGate fun _ _ _ hm => qntBody_canon (hm := hm) ..

theorem execExit_canon {x : BF} {s t : State} (hm : memWf s.mem = true) (h : execExit x s = .next t) : memWf t.mem = true := by
  obtain rfl : (s.issue (.exit x) (exitBody x)).waveExit s.cur = t := Host.Outcome.next.inj h
  rw [State.waveExit_mem]
  exact State.issue_canon s _ _ (fun _ _ _ hm => exitBody_canon (hm := hm) ..) hm

theorem execRegion_canon {x : IF} {s t : State} (hm : memWf s.mem = true) (h : execRegion x s = .next t) : memWf t.mem = true :=
  keeps_of_issue hm h (keepsCanon_waveLevel fun _ _ _ hm => (congrArg memWf (State.islandSettle_mem ..)).trans hm)

theorem execPref_canon {lvl : PrefLvl} {x : MF} {s t : State} (hm : memWf s.mem = true) (h : execPref lvl x s = .next t) : memWf t.mem = true :=
  keeps_of_issue hm h (keepsCanon_memGate fun _ k w hm => foldl_canon (fun s l hm => State.prefLane_canon s lvl k (w.addrV x l) hm) _ _ hm)

theorem execMregion_canon {mode : BitVec 2} {s t : State} (hm : memWf s.mem = true) (h : execMregion mode s = .next t) : memWf t.mem = true :=
  keeps_of_seqIssue hm h fun _ _ _ hm => (congrArg memWf (State.islandSettle_mem ..)).trans hm

theorem execMend_canon {s t : State} (hm : memWf s.mem = true) (h : execMend s = .next t) : memWf t.mem = true := by
  unfold execMend at h
  refine keeps_of_seqIssue hm h fun s c _ hm => ?_
  change memWf (State.modSeq (s.seqReleases c) c _).mem = true
  rw [State.modSeq_mem, State.seqReleases_mem]
  exact hm

theorem writtenParts_canon {c n areg len : Nat} {inc : BitVec 16} {k : Key} {ps : List (Nat × Nat)} {bs : List Byte} {s : State}
    (hm : memWf s.mem = true) : (SeqEff.done ((writeParts c k n ps bs s).bumpMa k areg inc len) none).canon := by
  change memWf (State.bumpMa (writeParts c k n ps bs s) k areg inc len).mem = true
  rw [State.bumpMa_mem]
  exact writeParts_canon c k n ps bs s hm

theorem execMchk_canon {n areg : BitVec 3} {inc : BitVec 16} {s t : State} (hm : memWf s.mem = true) (h : execMchk n areg inc s = .next t) :
    memWf t.mem = true := by
  unfold execMchk at h
  exact keeps_of_seqIssue hm h fun s c x hm => memWord_canon _ _ _ _ _ s c x (fun _ _ _ hm => writtenParts_canon hm) hm

theorem execMsrd_canon {sel : BitVec 4} {areg : BitVec 3} {inc : BitVec 16} {s t : State} (hm : memWf s.mem = true)
    (h : execMsrd sel areg inc s = .next t) : memWf t.mem = true := by
  unfold execMsrd at h
  exact keeps_of_seqIssue hm h fun s c x hm => memWord_canon _ _ _ _ _ s c x (fun _ _ _ hm => writtenParts_canon hm) hm

theorem execInj_canon {acc : BitVec 4} {core : BitVec 8} {row col : BitVec 6} {bit : BitVec 5} {s t : State} (hm : memWf s.mem = true)
    (h : execInj acc core row col bit s = .next t) : memWf t.mem = true := by
  unfold execInj at h
  refine keeps_of_seqIssue hm h fun s _ x hm => ?_
  extract_lets n
  split
  · trivial
  · exact hm

/-- Whatever is executed, memory keeps its canonical form. The last case is RECALL, whose name Lean keeps for a command. -/
theorem exec_canon (i : Instr) (s : State) {t : State} (hm : memWf s.mem = true) (h : exec i s = .next t) : memWf t.mem = true := by
  cases i
  case nop | jenr | jstrk | kill | qswap | qbcast => exact keeps_of_issue hm h fun _ _ _ hm => hm
  case bra | brx => exact keeps_of_issue hm h fun _ _ _ hm => branchBody_canon (hm := hm) ..
  case call | callx => exact keeps_of_issue hm h fun _ _ _ hm => callBody_canon (hm := hm) ..
  case ret => exact keeps_of_issue hm h fun _ _ _ hm => retBody_canon (hm := hm) ..
  case yield => exact keeps_of_issue hm h fun _ _ _ hm => yieldBody_canon (hm := hm) ..
  case trap | bkpt => exact keeps_of_issue hm h (keepsCanon_waveLevel (fun _ _ _ _ => trivial))
  case sleep => exact keeps_of_issue hm h (keepsCanon_waveLevel (fun _ _ _ hm => sleepBody_canon (hm := hm) ..))
  case jwait => exact keeps_of_issue hm h fun _ _ _ hm => jwaitBody_canon (hm := hm) ..
  case weirset => exact keeps_of_issue hm h (keepsCanon_waveLevel (fun _ _ _ hm => weirsetBody_canon (hm := hm) ..))
  case weirarv | weirsync => exact keeps_of_issue hm h (keepsCanon_waveLevel (fun _ _ _ hm => arriveBody_canon (hm := hm) ..))
  case weirwait => exact keeps_of_issue hm h (keepsCanon_waveLevel (fun _ _ _ hm => weirwaitBody_canon (hm := hm) ..))
  case cbarv => exact keeps_of_issue hm h (keepsCanon_waveLevel (fun _ _ _ hm => cbarvBody_canon (hm := hm) ..))
  case cbwait => exact keeps_of_issue hm h (keepsCanon_waveLevel (fun _ _ _ hm => cbwaitBody_canon (hm := hm) ..))
  case nexttile => exact keeps_of_issue hm h fun _ _ _ hm => nexttileBody_canon (hm := hm) ..
  case launch => exact keeps_of_issue hm h (keepsCanon_waveLevel (keepsCanon_memGate (fun _ _ _ hm => launchBody_canon (hm := hm) ..)))
  case acqx => exact keeps_of_issue hm h (keepsCanon_waveLevel (fun _ _ _ hm => acqxBody_canon (hm := hm) ..))
  case relx | rest | part => exact keeps_of_issue hm h (keepsCanon_waveLevel (fun _ _ _ hm => hm))
  case srd => exact keeps_of_issue hm h fun _ _ _ hm => srdBody_canon (hm := hm) ..
  case swr => exact keeps_of_issue hm h fun _ _ _ hm => swrBody_canon (hm := hm) ..
  case scw => exact keeps_of_issue hm h (keepsCanon_waveLevel (keepsCanon_memGate (fun _ _ _ hm => scwBody_canon (hm := hm) ..)))
  case scr => exact keeps_of_issue hm h (keepsCanon_waveLevel (keepsCanon_memGate (fun _ _ _ hm => scrBody_canon (hm := hm) ..)))
  case scack => exact keeps_of_issue hm h (keepsCanon_waveLevel (fun _ _ _ hm => scackBody_canon (hm := hm) ..))
  case iadd | isub | imul | imulh | imad | imadw | imin | imax | iabs | ineg | and | or | xor | not | tlog | shl | shr | sar | rot | fshf | bfe | bfi
      | popc | clz | ctz | brev | bperm | mov => exact keeps_of_issue hm h fun _ _ _ hm => intBody_canon (hm := hm) ..
  case idiv | irem => exact keeps_of_issue hm h fun _ _ _ hm => divBody_canon (hm := hm) ..
  case icmp => exact keeps_of_issue hm h fun _ _ _ hm => intMaskBody_canon (hm := hm) ..
  case isel => exact keeps_of_issue hm h fun _ _ _ hm => iselBody_canon (hm := hm) ..
  case movQ0Push => exact keeps_of_issue hm h fun _ _ _ hm => q0Body_canon (hm := hm) ..
  case movQ1Pop => exact keeps_of_issue hm h fun _ _ _ hm => q1Body_canon (hm := hm) ..
  case movi => exact keeps_of_issue hm h fun _ _ _ hm => moviBody_canon (hm := hm) ..
  case rdlane => exact keeps_of_issue hm h fun _ _ _ hm => rdlaneBody_canon (hm := hm) ..
  case bcast => exact keeps_of_issue hm h fun _ _ _ hm => bcastBody_canon (hm := hm) ..
  case pairedWord => exact keeps_of_issue hm h fun _ _ _ hm => pairedBody_canon (hm := hm) ..
  case fadd | fmul | ffma | fmin | fmax | fclass | frnd | fgetexp | padd | pmul | pfma | rcp | rsq | sqrt | fdiv | exp2 | log2 | sin | cos | tanh =>
      exact keeps_of_issue hm h fun _ _ _ hm => floatBody_canon (hm := hm) ..
  case fcmp => exact keeps_of_issue hm h fun _ _ _ hm => fcmpBody_canon (hm := hm) ..
  case fscale => exact keeps_of_issue hm h fun _ _ _ hm => fscaleBody_canon (hm := hm) ..
  case cvt => exact keeps_of_issue hm h fun _ _ _ hm => cvtBody_canon (hm := hm) ..
  case cvtp => exact keeps_of_issue hm h fun _ _ _ hm => cvtpBody_canon (hm := hm) ..
  case dqnt => exact keeps_of_issue hm h fun _ _ _ hm => dqntBody_canon (hm := hm) ..
  case ldVector | ldScalar | stVector | stScalar => exact keeps_of_issue hm h (keepsCanon_memGate (fun _ _ _ hm => plainBody_canon (hm := hm) ..))
  case lds => exact keeps_of_issue hm h (keepsCanon_memGate (fun _ _ _ hm => ldsBody_canon (hm := hm) ..))
  case sts => exact keeps_of_issue hm h (keepsCanon_memGate (fun _ _ _ hm => stsBody_canon (hm := hm) ..))
  case sptag => exact keeps_of_issue hm h (keepsCanon_memGate (fun _ _ _ hm => sptagBody_canon (hm := hm) ..))
  case spdrop => exact keeps_of_issue hm h (keepsCanon_memGate (fun _ _ _ hm => spdropBody_canon (hm := hm) ..))
  case atom | atomcas | red => exact keeps_of_issue hm h (keepsCanon_memGate (fun _ _ _ hm => atomBody_canon (hm := hm) ..))
  case ldwatch => exact keeps_of_issue hm h (keepsCanon_memGate (keepsCanon_withScope fun _ _ _ _ _ hm => ldwatchBody_canon (hm := hm) ..))
  case fence => exact keeps_of_issue hm h (keepsCanon_memGate (keepsCanon_withScope fun _ _ _ _ _ hm => fenceBody_canon (hm := hm) ..))
  case pfence => exact keeps_of_issue hm h (keepsCanon_memGate (fun _ _ _ hm => pfenceBody_canon (hm := hm) ..))
  case cflush => exact keeps_of_issue hm h (keepsCanon_memGate (keepsCanon_withScope fun _ _ _ _ _ hm => cflushBody_canon (hm := hm) ..))
  case cinv => exact keeps_of_issue hm h (keepsCanon_memGate (keepsCanon_withScope fun _ _ _ _ _ hm => cinvBody_canon (hm := hm) ..))
  case icpre | icpin => exact keeps_of_issue hm h (keepsCanon_memGate (fun _ _ _ hm => icBody_canon (hm := hm) ..))
  case icunpin => exact keeps_of_issue hm h (keepsCanon_memGate (fun _ _ _ hm => icunpinBody_canon (hm := hm) ..))
  case obres => exact keeps_of_issue hm h (keepsCanon_memGate (fun _ _ _ hm => obresBody_canon (hm := hm) ..))
  case obrel => exact keeps_of_issue hm h (keepsCanon_memGate (fun _ _ _ hm => obrelBody_canon (hm := hm) ..))
  case vote => exact keeps_of_issue hm h fun _ _ _ hm => voteBody_canon (hm := hm) ..
  case matchLanes => exact keeps_of_issue hm h fun _ _ _ hm => matchBody_canon (hm := hm) ..
  case pull => exact keeps_of_issue hm h fun _ _ _ hm => pullBody_canon (hm := hm) ..
  case perm => exact keeps_of_issue hm h fun _ _ _ hm => permBody_canon (hm := hm) ..
  case redux | scan => exact keeps_of_issue hm h fun _ _ _ hm => redBody_canon (hm := hm) ..
  case eret => exact keeps_of_issue hm h fun _ _ _ hm => eretBody_canon (hm := hm) ..
  case tlbinv => exact keeps_of_privIssue hm h fun _ _ _ _ _ hm h => tlbinvGo_canon (hm := hm) (h := h) ..
  case ctxsave => exact keeps_of_privIssue hm h fun _ _ _ _ _ hm h => ctxsaveGo_canon (hm := hm) (h := h) ..
  case ctxload => exact keeps_of_privIssue hm h fun _ _ _ _ _ hm h => ctxloadGo_canon (hm := hm) (h := h) ..
  case stoprd => exact keeps_of_privIssue hm h fun _ _ _ _ _ hm h => stoprdGo_canon (hm := hm) (h := h) ..
  case resume => exact keeps_of_privIssue hm h fun _ _ _ _ _ hm h => resumeGo_canon (hm := hm) (h := h) ..
  case flood => exact keeps_of_privIssue hm h fun _ _ _ _ _ hm h => floodGo_canon (hm := hm) (h := h) ..
  case dirtyh => exact keeps_of_privIssue hm h fun _ _ _ _ _ hm h => dirtyhGo_canon (hm := hm) (h := h) ..
  case ckpt => exact keeps_of_privIssue hm h fun _ _ _ _ _ hm h => ckptGo_canon (hm := hm) (h := h) ..
  case rollbk => exact keeps_of_privIssue hm h fun _ _ _ _ _ hm h => rollbkGo_canon (hm := hm) (h := h) ..
  case mmaF16 | mmaBf16 | mmaE4m3 | mmaE5m2 | mmaI8 | mmasE4m3 | mmasX4 => exact keeps_of_seqIssue hm h fun _ _ _ hm => mmaBody_canon (hm := hm) ..
  case azero => exact keeps_of_seqIssue hm h fun _ _ _ hm => tileBody_canon (hm := hm) ..
  case aadd | acvt => exact keeps_of_seqIssue hm h fun _ _ _ hm => tileBody_canon (hm := hm) ..
  case mjmp => exact keeps_of_seqIssue hm h fun _ _ _ hm => hm
  case aloadTile => exact keeps_of_seqIssue hm h fun _ _ _ hm => aloadBody_canon (hm := hm) ..
  case aloadMa => exact keeps_of_seqIssue hm h fun _ _ _ hm => aloadMaBody_canon (hm := hm) ..
  case astore => exact keeps_of_seqIssue hm h fun _ _ _ hm => astoreBody_canon (hm := hm) ..
  case scld => exact keeps_of_seqIssue hm h fun _ _ _ hm => scldBody_canon (hm := hm) ..
  case marv => exact keeps_of_seqIssue hm h fun _ _ _ hm => marvBody_canon (hm := hm) ..
  case mwait => exact keeps_of_seqIssue hm h fun _ _ _ hm => mwaitBody_canon (hm := hm) ..
  case mloop => exact keeps_of_seqIssue hm h fun _ _ _ hm => mloopBody_canon (hm := hm) ..
  case qnt => exact execQnt_canon hm h
  case exit => exact execExit_canon hm h
  case region => exact execRegion_canon hm h
  case pref => exact execPref_canon hm h
  case mregion => exact execMregion_canon hm h
  case mend => exact execMend_canon hm h
  case mchk => exact execMchk_canon hm h
  case msrd => exact execMsrd_canon hm h
  case inj => exact execInj_canon hm h
  case sleepDeadline => exact execSleepDeadline_canon (hm := hm) (h := h) ..
  case acqxGrant => exact execAcqxGrant_canon (hm := hm) (h := h) ..
  case scwComplete => exact execScwComplete_canon (hm := hm) (h := h) ..
  case tagWaitServed => exact execTagWaitServed_canon (hm := hm) (h := h) ..
  case spdropComplete => exact execSpdropComplete_canon (hm := hm) (h := h) ..
  case ldwatchWake => exact execLdwatchWake_canon (hm := hm) (h := h) ..
  case obresInstall => exact execObresInstall_canon (hm := hm) (h := h) ..
  case obrelClear => exact execObrelClear_canon (hm := hm) (h := h) ..
  case mmaAttemptVerdict => exact execMmaAttemptVerdict_canon (hm := hm) (h := h) ..
  case mmaCorrectionDone => exact execMmaCorrectionDone_canon (hm := hm) (h := h) ..
  case guardStepDone => exact execGuardStepDone_canon (hm := hm) (h := h) ..
  case copy1d => exact execCopy1d_canon (hm := hm) (h := h) ..
  case copy2d => exact execCopy2d_canon (hm := hm) (h := h) ..
  case copyGather => exact execCopyGather_canon (hm := hm) (h := h) ..
  case copyOperandLoad => exact execCopyOperandLoad_canon (hm := hm) (h := h) ..
  case copyRemote => exact execCopyRemote_canon (hm := hm) (h := h) ..
  case copyCommandStart => exact execCopyCommandStart_canon (hm := hm) (h := h) ..
  case copyBeatDone => exact execCopyBeatDone_canon (hm := hm) (h := h) ..
  case copyCompletion => exact execCopyCompletion_canon (hm := hm) (h := h) ..
  case clauseIssuePick => exact execClauseIssuePick_canon (hm := hm) (h := h) ..
  case resultCommit => exact execResultCommit_canon (hm := hm) (h := h) ..
  case waveUnpark => exact execWaveUnpark_canon (hm := hm) (h := h) ..
  case bankWakeDone => exact execBankWakeDone_canon (hm := hm) (h := h) ..
  case bankOffIdle => exact execBankOffIdle_canon (hm := hm) (h := h) ..
  case bankRetainHeader => exact execBankRetainHeader_canon (hm := hm) (h := h) ..
  case bankRetainParked => exact execBankRetainParked_canon (hm := hm) (h := h) ..
  case spBankWakeDone => exact execSpBankWakeDone_canon (hm := hm) (h := h) ..
  case spAutoDrop => exact execSpAutoDrop_canon (hm := hm) (h := h) ..
  case spBankRetain => exact execSpBankRetain_canon (hm := hm) (h := h) ..
  case delayedFault => exact execDelayedFault_canon (hm := hm) (h := h) ..
  case floodgateStop => exact execFloodgateStop_canon (hm := hm) (h := h) ..
  case launchRecordRead q => exact execLaunchRecordRead_canon q s hm h
  case dispatchOpportunity => exact execDispatchOpportunity_canon (hm := hm) (h := h) ..
  case crewComplete => exact execCrewComplete_canon (hm := hm) (h := h) ..
  case dormantSave => exact execDormantSave_canon (hm := hm) (h := h) ..
  case sliceExpiry => exact execSliceExpiry_canon (hm := hm) (h := h) ..
  case drainWindowEnd => exact execDrainWindowEnd_canon (hm := hm) (h := h) ..
  case lendPoolJoin => exact execLendPoolJoin_canon (hm := hm) (h := h) ..
  case bucketRefill => exact execBucketRefill_canon (hm := hm) (h := h) ..
  case powerMeasure => exact execPowerMeasure_canon (hm := hm) (h := h) ..
  case throttleNotice => exact execThrottleNotice_canon (hm := hm) (h := h) ..
  case meteringFeed => exact execMeteringFeed_canon (hm := hm) (h := h) ..
  case usageReport => exact execUsageReport_canon (hm := hm) (h := h) ..
  case freeboardWindowClose => exact execFreeboardWindowClose_canon (hm := hm) (h := h) ..
  case islandOff => exact execIslandOff_canon (hm := hm) (h := h) ..
  case islandPowerUp => exact execIslandPowerUp_canon (hm := hm) (h := h) ..
  case islandForceWrite => exact execIslandForceWrite_canon (hm := hm) (h := h) ..
  case dclkTgtWrite => exact execDclkTgtWrite_canon (hm := hm) (h := h) ..
  case voltageRiseDone => exact execVoltageRiseDone_canon (hm := hm) (h := h) ..
  case relockDone => exact execRelockDone_canon (hm := hm) (h := h) ..
  case thermalTrip => exact execThermalTrip_canon (hm := hm) (h := h) ..
  case shadowReplay => exact execShadowReplay_canon (hm := hm) (h := h) ..
  case dataErrorDetect => exact execDataErrorDetect_canon (hm := hm) (h := h) ..
  case cacheScrub => exact execCacheScrub_canon (hm := hm) (h := h) ..
  case checkpointTimer => exact execCheckpointTimer_canon (hm := hm) (h := h) ..
  case undoLogForcedCkpt => exact execUndoLogForcedCkpt_canon (hm := hm) (h := h) ..
  case undoLogFull => exact execUndoLogFull_canon (hm := hm) (h := h) ..
  case reeveWaveFault => exact execReeveWaveFault_canon (hm := hm) (h := h) ..
  case firmwareRestart => exact execFirmwareRestart_canon (hm := hm) (h := h) ..
  case doorbellWrite => exact execDoorbellWrite_canon (hm := hm) (h := h) ..
  case hostBar2Access => exact execHostBar2Access_canon (hm := hm) (h := h) ..
  case hostAtomicop => exact execHostAtomicop_canon (hm := hm) (h := h) ..
  case functionLevelReset => exact execFunctionLevelReset_canon (hm := hm) (h := h) ..
  case peerAccessIn => exact execPeerAccessIn_canon (hm := hm) (h := h) ..
  case peerResponse => exact execPeerResponse_canon (hm := hm) (h := h) ..
  case peerTimeout => exact execPeerTimeout_canon (hm := hm) (h := h) ..
  case laneSpareRetrain => exact execLaneSpareRetrain_canon (hm := hm) (h := h) ..
  case regulatorPhaseSpare => exact execRegulatorPhaseSpare_canon (hm := hm) (h := h) ..
  case wearRecordAppend => exact execWearRecordAppend_canon (hm := hm) (h := h) ..
  case attestationReport => exact execAttestationReport_canon (hm := hm) (h := h) ..
  case powerGoodBoot => exact execPowerGoodBoot_canon (hm := hm) (h := h) ..
  case moduleReset => exact execModuleReset_canon (hm := hm) (h := h) ..
  case lifeCycleChange => exact execLifeCycleChange_canon (hm := hm) (h := h) ..
  case registerWrite => exact execRegisterWrite_canon (hm := hm) (h := h) ..
  case contextAbort => exact execContextAbort_canon (hm := hm) (h := h) ..
  case portRetrain => exact execPortRetrain_canon (hm := hm) (h := h) ..
  case portRetrainDone => exact execPortRetrainDone_canon (hm := hm) (h := h) ..
  case hostCommandDoorbell => exact execHostCommandDoorbell_canon (hm := hm) (h := h) ..
  case configurationRequest => exact execConfigurationRequest_canon (hm := hm) (h := h) ..
  next => exact execRecall_canon (hm := hm) (h := h) ..

-- Fronts, turns and steps.

theorem State.polderRuns_mem (s : State) (n p : Nat) : (s.polderRuns n p).mem = s.mem := rfl

theorem State.elapse_mem (s : State) (n : Nat) : (s.elapse n).mem = s.mem := by
  unfold State.elapse
  grind [foldl_mem, State.polderRuns_mem]

theorem State.front_canon (s : State) (hm : memWf s.mem = true) : (s.front).canon := by
  unfold State.front
  grind [Front.canon, State.nextSeq_canon, State.nextWord_canon]

theorem State.runFront_canon (s : State) {t : State} (hm : memWf s.mem = true) (h : s.runFront = .next t) : memWf t.mem = true := by
  have hfront := State.front_canon s hm
  unfold State.runFront at h
  grind [Front.canon, exec_canon]

theorem State.runWord_canon (s : State) {t : State} (hm : memWf s.mem = true) (h : s.runWord = .next t) : memWf t.mem = true := by
  have hrun := fun u => State.runFront_canon s (t := u) hm
  unfold State.runWord tick at h
  grind [State.elapse_mem]

theorem State.evictNow_canon (s : State) (cl line : Nat) (hm : memWf s.mem = true) : memWf (s.evictNow cl line).mem = true := by
  unfold State.evictNow
  grind [State.evict_canon]

theorem State.evictI_mem (s : State) (core line : Nat) : (s.evictI core line).mem = s.mem := rfl

theorem State.evictIClus_mem (s : State) (cl line : Nat) : (s.evictIClus cl line).mem = s.mem := rfl

theorem State.evictL1_mem (s : State) (core line : Nat) : (s.evictL1 core line).mem = s.mem := rfl

theorem State.evictL2_canon (s : State) (slice line : Nat) (hm : memWf s.mem = true) : memWf (s.evictL2 slice line).mem = true := by
  unfold State.evictL2
  grind [State.l2Evict_canon]

theorem State.bulkStart_mem (s : State) (e p src dst n : Nat) : (s.bulkStart e p src dst n).mem = s.mem := by
  unfold State.bulkStart
  split <;> rfl

theorem State.bulkBeat_canon (s : State) (e : Nat) (hm : memWf s.mem = true) : memWf (s.bulkBeat e).mem = true := by
  unfold State.bulkBeat
  grind [State.chargeHome_mem, State.homeStore_canon, State.heal_mem, State.modPkg_mem]

theorem State.spoilBank_mem (s : State) (w : Key) (b : Nat) : (s.spoilBank w b).mem = s.mem := rfl

theorem State.spoilSp_mem (s : State) (c b : Nat) : (s.spoilSp c b).mem = s.mem := rfl

theorem State.spoilLine_mem (s : State) (cl line : Nat) : (s.spoilLine cl line).mem = s.mem := by
  unfold State.spoilLine
  split <;> rfl

theorem State.spoilL2_mem (s : State) (line : Nat) : (s.spoilL2 line).mem = s.mem := rfl

theorem State.debugStop_mem (s : State) (w : Key) : (s.debugStop w).mem = s.mem := by
  unfold State.debugStop
  grind [State.raiseWave_mem]

theorem State.outside_canon (s : State) (addr : Nat) (b : Byte) (hm : memWf s.mem = true) : memWf (s.outside addr b).mem = true := by
  unfold State.outside
  grind [State.pokeBytes_canon]

theorem State.rowsOf_canon (s : State) (rs : List Nat) (hm : memWf s.mem = true) : memWf (s.rowsOf rs).mem = true := by
  have hfront := State.front_canon s hm
  unfold State.rowsOf
  grind [Front.canon, State.someRows_canon]

theorem State.act1_canon (s : State) (a1 : Act) {t : State} (hm : memWf s.mem = true) (h : s.act1 a1 = .next t) : memWf t.mem = true := by
  unfold State.act1 at h
  grind [State.silence_canon, State.evictL1_mem, State.debugStop_mem, State.evictL2_canon, State.cooled_mem, State.evictIClus_mem, State.outside_canon,
    State.elapse_mem, State.spoilL2_mem, State.bulkBeat_canon, State.spoilBank_mem, State.spoilSp_mem, exec_canon, State.runWord_canon,
    State.spoilLine_mem, State.modPkg_mem, State.evictNow_canon, State.bootStep_mem, State.bulkStart_mem, State.rowsOf_canon, State.evictI_mem]

theorem State.act_canon (s : State) (a : Act) {t : State} (hm : memWf s.mem = true) (h : s.act a = .next t) : memWf t.mem = true := by
  unfold State.act at h
  grind [State.act1_canon]

theorem State.changed_canon {s t : State} {o : Host.Outcome State Fault Refusal} (ho : ∀ u, o = .next u → memWf u.mem = true)
    (h : s.changed o = some t) : memWf t.mem = true := by
  unfold State.changed at h
  grind

theorem State.take_canon (s : State) (a1 : Turn) {t : State} (hm : memWf s.mem = true) (h : s.take a1 = some t) : memWf t.mem = true := by
  have hrun : ∀ k q u, ({ s with cur := k, onSeq := q } : State).changed ({ s with cur := k, onSeq := q } : State).runFront = some u →
      memWf u.mem = true := fun k q u hu =>
    State.changed_canon (fun v hv => State.runFront_canon { s with cur := k, onSeq := q } hm hv) hu
  cases a1 with
  | seq c => exact hrun c true t h
  | quad core q =>
    simp only [State.take] at h
    split at h
    · cases h
    · split at h
      · next hw =>
        cases h
        obtain ⟨k, -, hk⟩ := Option.bind_eq_some_iff.mp hw
        exact hrun k false t hk
      · exact State.changed_canon (fun v hv => exec_canon _ s hm hv) h

theorem State.goOn_canon (s : State) {t : State} (hm : memWf s.mem = true) (h : s.goOn = some t) : memWf t.mem = true := by
  unfold State.goOn at h
  grind [State.changed_canon, State.runFront_canon]

theorem State.turn_canon (s : State) {t : State} (hm : memWf s.mem = true) (h : s.turn = some t) : memWf t.mem = true := by
  unfold State.turn at h
  split at h
  · next hg => cases h; exact State.goOn_canon s hm hg
  · obtain ⟨x, -, hx⟩ := List.exists_of_findSome?_eq_some h
    exact State.take_canon s x hm hx

theorem State.own_canon (s : State) {t : State} (hm : memWf s.mem = true) (h : s.own = .next t) : memWf t.mem = true := by
  unfold State.own at h
  grind [State.turn_canon, State.elapse_mem, State.makeRoom_canon, exec_canon, State.bootStep_mem]

-- The invariant.

/-- Settles O19, by what each function of the model leaves of memory: the agenda's next entry acts, or the machine takes a turn of its own. -/
theorem stepKeepsMemory : Obligations.StepKeepsMemory := by
  intro s t hm h
  unfold step at h
  split at h
  · next a r _ => exact State.act_canon { s with agenda := r } a hm h
  · split at h
    · cases h
    · exact State.own_canon s hm h

end Sys2Proof.Machine
end
